-- ==== Sys2Proof/Word.lean ====
section
/-! DEFINITION. The word types of the register space, the packets and the memories (spec R9, R51, R144). -/

namespace Sys2Proof

/-- A byte of a memory, a window or a payload. -/
abbrev Byte := BitVec 8

/-- A register word (R9: every register is 32 bits wide). -/
abbrev Word := BitVec 32

/-- A 64-bit quantity: a `_LO`/`_HI` pair (R10), an atomic's operand, a pointer word. -/
abbrev DWord := BitVec 64

/-- A 256-bit digest (SHA-256, FIPS 180-4), byte 0 in the most significant place. -/
abbrev Digest := BitVec 256

end Sys2Proof
end

