-- ==== Sys2Proof/Syntax.lean ====
section
/-! DEFINITION. The commands of spec/opcode_table.json, one constructor each, and the data their operands carry.
The table gives the rows no bits, so an operand is what the row's rule says the event is about: a unit, the clk it
falls in, what arrived from outside (log entry 1). -/

namespace Sys2Proof

/-- The three management access paths (R38), numbered as SYS_PATH reports them (R416). -/
inductive Path where
  | core | smbus | mgmtQp
deriving DecidableEq, Repr, Inhabited

/-- The 4-bit statuses (R13). -/
inductive Status where
  | ok | empty | retry | conflict | collided | resetting | quiesced | fenced | poison | fault | halted
deriving DecidableEq, Repr, Inhabited

/-- A flow's name: one requester in one partition (R89). -/
structure FlowKey where
  part : Fin 32
  host : Bool
  req  : BitVec 12
deriving DecidableEq, Repr, Inhabited

/-- A Keaxel packet: the fields of the 32-byte header (R144) and the payload. -/
structure Packet where
  cls : BitVec 2
  vc : Bool
  mcast : Bool
  colour : BitVec 2
  dim : Bool
  dir : Bool
  dest : BitVec 12
  src : BitVec 12
  opcode : BitVec 6
  len : BitVec 13
  part : BitVec 5
  hops : BitVec 8
  seq : BitVec 32
  addr : BitVec 52
  status : BitVec 4
  load : BitVec 4
  headroom : BitVec 4
  epoch : BitVec 16
  arg : BitVec 16
  aux : BitVec 64
  payload : List Byte
deriving DecidableEq, Repr, Inhabited

/-- A link flit as the receiver finds it: 240 data bytes and the four trailer words (R118). -/
structure Flit where
  data : List Byte
  t0 : Word
  t1 : Word
  t2 : Word
  t3 : Word
deriving DecidableEq, Repr, Inhabited

/-- A decoded FEC block: BHT, BSEQ and its five flits (R115). -/
structure FecBlock where
  bht : BitVec 4
  bseq : BitVec 8
  flits : List Flit
deriving DecidableEq, Repr, Inhabited

/-- The 1,088 symbols of one FEC block as the lanes brought them (R116): those of one physical lane, taken as an unstriped
block; or those of every logical lane, in order, taken as a striped one. -/
inductive LaneSymbols where
  | lane (lane : Fin 5) (symbols : List Nat)
  | striped (symbols : List (List Nat))
deriving DecidableEq, Repr, Inhabited

/-- The INIT record (R124). -/
structure InitRecord where
  iver : BitVec 4
  seen : Bool
  resume : Bool
  width : BitVec 2
  speed : Bool
  lanes : BitVec 5
  port : BitVec 3
  node : BitVec 12
  lepoch : BitVec 16
  next : BitVec 12
  adv : List (BitVec 16)
deriving DecidableEq, Repr, Inhabited

/-- The readings and line levels the device takes at a tick (R87, R377, R378, R392, R396). -/
structure TickInputs where
  /-- TWN_LEAD as the pin reads at the tick: true is high (R378). -/
  leadHigh : Bool
  /-- Readings of die 0, die 1 and stacks 0 to 7 in 1/8 °C (R412). -/
  temps : List Int
  /-- Lowest and highest VIN56 of the frame just ended, in 10 mV (R392). -/
  vinMin : Nat
  vinMax : Nat
  /-- Input current in mA and input power in 0.1 W (R412). -/
  amp : Nat
  deciWatt : Nat
deriving DecidableEq, Repr, Inhabited

/-- Errors that a read of one column meets: flips that stand in the cells, and flips of the first transfer only; each
is (word 0 to 7, mask of the 80 stored bits) (R299, R303). And the clk of the read. -/
structure ColumnErrors where
  cells : List (Nat × Nat)
  transit : List (Nat × Nat)
  clk : Nat
deriving DecidableEq, Repr, Inhabited

/-- The clk of a write, and the errors that its words meet on their way to DRAM: each is (8-byte word, counted from the one
that holds the first byte; mask of the 80 bits of its word code) (R298, R303). -/
structure WriteErrors where
  clk : Nat
  words : List (Nat × Nat) := []
deriving DecidableEq, Repr, Inhabited

/-- An access that a channel is asked for: one block of 256 B, the bytes in it, read or write, and who asks
(R202, R208, R217). The requester slot is the tracker slot of R217; device traffic has none. The source is the reader's, as
an error log names it (R314). -/
structure ChannelReq where
  write : Bool
  block : Nat
  first : Nat
  count : Nat
  slot : Option Nat
  source : Fin 9 := 0
deriving DecidableEq, Repr, Inhabited

/-- A clk in which a channel may send a command, and whether the stack reports a parity error on it (R206, R220). -/
structure CommandSlot where
  clk : Nat
  parity : Bool
deriving DecidableEq, Repr, Inhabited

/-- A piece of a channel's copy: the channel pruned, and the clk the piece reaches the spare (R221). -/
structure CopyPiece where
  chan : Fin 136
  clk : Nat
deriving DecidableEq, Repr, Inhabited

/-- What a flash target's parameter page reports, and how its channel trained (R225 to R228). -/
structure FlashTarget where
  channel : Nat
  chipEnable : Nat
  pageData : Nat
  pageSpare : Nat
  luns : Nat
  blocks : Nat
  pages : Nat
  planes : Nat
deriving DecidableEq, Repr, Inhabited

/-- What discovery finds outside the device: the channels that fail training, the parameter pages, whether a copy of
the defect table is valid, and the blocks a factory marker names, as (channel, target, LUN, block) (R227, R228). -/
structure FlashReport where
  untrained : List Nat
  targets : List FlashTarget
  tableValid : Bool
  factoryBad : List (Nat × Nat × Nat × Nat)
deriving DecidableEq, Repr, Inhabited

/-- How each 4 KiB codeword of a fetched page group read: corrected bits, retry levels used, uncorrectable (R242). -/
structure CodewordRead where
  corrected : Nat
  levels : Fin 8
  uncorrectable : Bool
deriving DecidableEq, Repr, Inhabited

/-- A granule of a partition whose move has ended, and how the page it was read from read (R236, R238). -/
structure MovedGranule where
  granule : Nat
  reads : List CodewordRead
deriving DecidableEq, Repr, Inhabited

/-- A RoCEv2 packet (R325): base transport header and what its opcode carries. -/
structure RocePacket where
  opcode : BitVec 8
  pkey : BitVec 16
  destQp : BitVec 24
  ackReq : Bool
  psn : BitVec 24
  dscp : BitVec 6
  va : BitVec 64
  rkey : BitVec 32
  dmaLen : BitVec 32
  compare : BitVec 64
  swapAdd : BitVec 64
  syndrome : BitVec 8
  payload : List Byte
  /-- SE, MigReq and TVer of BTH byte 1, FECN and BECN of byte 4 (R333, R348). -/
  se : Bool := false
  mig : Bool := false
  tver : BitVec 4 := 0
  fecn : Bool := false
  becn : Bool := false
deriving DecidableEq, Repr, Inhabited

/-- What an Ethernet frame is, once parsed (R321, R322). -/
inductive EthContent where
  | roce (pkt : RocePacket)
  | arpRequest (target : BitVec 128)
  | neighbourSolicitation (target : BitVec 128)
  | pause
  | other
deriving DecidableEq, Repr, Inhabited

/-- An Ethernet frame as a port receives it (R321, R322). -/
structure EthFrame where
  fcsGood : Bool
  length : Nat
  tags : Nat
  destIp : BitVec 128
  srcIp : BitVec 128
  udpPort : Nat
  content : EthContent
  srcMac : BitVec 48 := 0
deriving DecidableEq, Repr, Inhabited

/-- The arrays the SRAM scrub reads (R311, R315): near bank, line cache, directory cache, instruction memory,
configuration. -/
inductive SramArray where
  | nearBank | lineCache | directoryCache | instruction | configuration
deriving DecidableEq, Repr, Inhabited

/-- The sideband burst of a twin (R376). -/
structure Burst where
  node : BitVec 12
  lead : Bool
  state : BitVec 3
  geom : BitVec 32
  check : BitVec 16
deriving DecidableEq, Repr, Inhabited

/-- The spare classes, by AUTO bit (R387). -/
inductive SpareClass where
  | engine | lane | channel | row | flash | way | sram
deriving DecidableEq, Repr, Inhabited

/-- A host's first two bytes on SMBus: the address it calls, and the command byte that follows (R403, R404). -/
structure SmbStart where
  address : BitVec 7
  code : Byte
deriving DecidableEq, Repr

/-- The commands (spec/opcode_table.json), in the table's order. -/
inductive Instr where
  -- registers
  | registerWrite (path : Path) (off width : Nat) (value : Word) (clk : Nat)
  | readLoLatch (path : Path) (off width clk : Nat)
  | writeLoHeld (path : Path) (off : Nat) (value : Word)
  | writeHiCommit (path : Path) (off : Nat) (value : Word) (clk : Nat)
  | engSelWrite (path : Path) (value : Word)
  -- parts
  | commandPartEnd (part : Fin 32) (queue : Fin 64) (idx : Nat)
  -- images
  | imageGo (clk : Nat)
  | imageAbort
  | imageFloor
  | imageVerifyDone (clk : Nat)
  | partitionDrainDone (part : Fin 32)
  | drainTimeout (part : Fin 32)
  | partitionFillDone (part : Fin 32)
  | wholeDeviceFillDone
  -- frames and admission
  | frmSyncEdge (clk : Nat)
  | frameTick (clk : Nat) (inp : TickInputs)
  | relock
  | freerunWrite (value : Bool)
  | syncErrClear
  | requestArrival (clk : Nat)
  | flowAdmit (flow : FlowKey) (clk : Nat)
  | redRemeter (flow : FlowKey)
  | wheelRelease (clk : Nat)
  | gateWindowOpen (flow : FlowKey) (clk : Nat)
  | flowLimitWrite (flow : FlowKey) (value : BitVec 16)
  -- link layer
  | fecBlockReceive (port : Fin 8) (block : LaneSymbols) (clk : Nat)
  | flitSend (port : Fin 8) (clk : Nat)
  | replayTimeout (port : Fin 8) (clk : Nat)
  | creditTimeout (port : Fin 8) (counter : Fin 16)
  | trainEnd (port : Fin 8) (clk : Nat)
  | initReceive (port : Fin 8) (flit : Flit)
  | linkResetTimeout (port : Fin 8)
  | laneLossOfLock (port : Fin 8) (lane : Fin 5)
  | kxRetrain (port : Fin 8)
  | kxFresh (port : Fin 8)
  | kxClear (port : Fin 8)
  | kxHoldWrite (port : Fin 8) (value : Bool)
  | kxLanePrune (port : Fin 8) (lanes : BitVec 5)
  | kxLaneRestore (port : Fin 8) (lanes : BitVec 5)
  -- ring
  | packetRoute (port : Fin 8)
  | outputArbitration (port : Fin 8)
  | mcWr
  | mcSig
  -- requests
  | rd (ticket clk : Nat)
  | wr (ticket : Nat) (errs : WriteErrors)
  | atom (ticket clk : Nat)
  | nearBankAccess (ticket : Nat) (ownWrites : List Nat) (clk : Nat)
  -- coherence
  | rdS (ticket clk : Nat)
  | rdX (ticket clk : Nat)
  | upg (ticket clk : Nat)
  | wb (ticket clk : Nat)
  | evct (ticket clk : Nat)
  | snpRsp (clk : Nat)
  | snpData (clk : Nat)
  | fwdData (clk : Nat)
  | grantAcknowledgement (clk : Nat)
  | cohAnswerTimeout (txn : Nat)
  | fenceSweepLine (part : Fin 32) (line : Nat)
  -- publish
  | flush (ticket : Nat)
  | flushRelease (ticket : Nat)
  | publish (ticket : Nat)
  | publishDecide (ticket : Nat)
  | acquire (ticket : Nat)
  | pubClear (part : Fin 32)
  -- stack channels
  | channelRequestEnqueue (chan : Fin 136) (req : ChannelReq) (clk : Nat)
  | dramCommandIssue (chan : Fin 136) (slot : CommandSlot)
  | dramReadData (chan : Fin 136) (errs : ColumnErrors)
  | idlePrecharge (chan : Fin 136) (bank : Fin 64) (clk : Nat)
  | refreshAccrual (chan : Fin 136) (bank : Fin 64) (clk : Nat)
  | trainingPiece (chan : Fin 136) (passed : Bool) (clk : Nat)
  | sidPowerDown (chan : Fin 136) (sid : Fin 4) (clk : Nat)
  | rowRepair (chan : Fin 136) (bank : Fin 64) (row : Nat) (clk : Nat)
  | stkPrune (chan : Fin 136)
  | stkGraft (chan : Fin 136)
  | stkClear (chan : Fin 136)
  | channelCopyPiece (piece : CopyPiece)
  -- flash
  | flashDiscovery (report : FlashReport)
  | flashFetchDone (part : Fin 32) (granule : Nat) (reads : List CodewordRead)
  | flashWritebackStart (part : Fin 32)
  | flashWritebackDone (part : Fin 32) (granule : Nat)
  | flashReclaim (group : Fin 8)
  | flashWearLevel (group : Fin 8)
  | flashRefreshMove (block : Nat)
  | flashProgramFail (part : Fin 32) (granule : Nat)
  | flashEraseDone (block : Nat) (passed : Bool)
  | flashChannelPrune (chan : Fin 32)
  | flGraft
  | flClear
  -- engine commands and program words
  | fill (part : Fin 32) (queue : Fin 64) (clk : Nat)
  | copy (part : Fin 32) (queue : Fin 64) (clk : Nat)
  | cmp (part : Fin 32) (queue : Fin 64) (clk : Nat)
  | red (part : Fin 32) (queue : Fin 64) (clk : Nat)
  | score (part : Fin 32) (queue : Fin 64) (clk : Nat)
  | topk (part : Fin 32) (queue : Fin 64) (clk : Nat)
  | gather (part : Fin 32) (queue : Fin 64) (clk : Nat)
  | cvt (part : Fin 32) (queue : Fin 64) (clk : Nat)
  | prog (part : Fin 32) (queue : Fin 64) (parityError : Bool)
  | halt (part : Fin 32) (queue : Fin 64)
  | run (part : Fin 32) (queue : Fin 64) (clk : Nat)
  | adda (part : Fin 32) (queue : Fin 64)
  | setc (part : Fin 32) (queue : Fin 64)
  | loop (part : Fin 32) (queue : Fin 64)
  | mova (part : Fin 32) (queue : Fin 64)
  | imemRewriteDone (core : Fin 64)
  | engResume (engine : Fin 256)
  | engPrune (phys : Fin 272)
  | engClear (engine : Fin 256)
  -- queue pairs and translation
  | sqEnable (part : Fin 32) (queue : Fin 64) (cfg : Word)
  | sqDisable (part : Fin 32) (queue : Fin 64)
  | sqRestart (part : Fin 32) (queue : Fin 64)
  | sqClear (part : Fin 32) (queue : Fin 64)
  | cmdPiSample (part : Fin 32) (queue : Fin 64)
  | sqTake (part : Fin 32) (queue : Fin 64) (clk : Nat)
  | completionPop (ticket : Nat)
  | tileTranslate (part : Fin 32) (queue : Fin 64) (idx : Nat) (stream : Nat) (tile : Nat) (clk : Nat)
  | translationWalkDone (walk : Nat)
  | unmap (part : Fin 32) (unit : Nat) (clk : Nat)
  | map (part : Fin 32) (unit hpage : Nat) (clk : Nat)
  | move (part : Fin 32) (unit src : Nat) (clk : Nat)
  | mappingWithdrawDone (part : Fin 32) (clk : Nat)
  -- integrity
  | patrolScrubRead (chan : Fin 136) (errs : ColumnErrors)
  | demandScrub (chan : Fin 136) (errs : ColumnErrors)
  | sramScrub (array : SramArray) (half : Fin 2) (index : Nat) (flips : Nat)
  | diLogClear
  | diClear
  | diInjectArm (value : Word)
  -- Ethernet
  | ethFrameReceive (port : Fin 4) (frame : EthFrame)
  | rdmaWrite (clk : Nat)
  | rdmaRead (clk : Nat)
  | rdmaAtomic (clk : Nat)
  | controlSend (clk : Nat)
  | ethAckReceive
  | ethAckTimeout (qp : Fin 4096)
  | ethRnrResend (qp : Fin 4096)
  | ethQpStateWrite (qp : Fin 4097) (value : BitVec 2)
  | ethPhyWrite (port : Fin 4) (value : BitVec 2)
  | mgmtQpAccess (clk : Nat)
  -- trust
  | quote
  | quoteDone
  | keyset
  | keysetInstallDone (part : Fin 32)
  | exchangeKeyExpiry (part : Fin 32)
  | owner
  | seal
  | sealDone
  | fwStage (file : List Byte)
  | fwActivate
  | fwCommit
  | fwRollback
  | ledgerHeldAppend (part : Fin 32)
  | lgTailWrite (part : Fin 32) (value : DWord)
  -- twinning and failure
  | heartbeatSend
  | heartbeat
  | burstSend
  | burstReceive (burst : Burst)
  | peerFailureDeclare
  | leadClaim (clk : Nat) (lineHigh : Bool)
  | twnLeadRelease
  | twnRelease
  | twnClear
  | twinPub
  | twinPublishDecide
  | twinWr
  | twinCmp
  | followerAckTimeout
  | shadowExpiry
  | resyncStart
  | twinCopyRead
  | twinCopyData
  | fenceAdd (host : Bool) (req : BitVec 12)
  | fenceClear (host : Bool) (req : BitVec 12)
  | halfReset (half : Fin 2)
  | partitionReset (part : Fin 32)
  | resetCancel
  | resetReady
  | spareGraft (cls : SpareClass)
  | wdtKick (key : BitVec 16)
  | watchdogExpiry
  | mgmtParityError
  -- power and pins
  | coldPowerOn (straps : BitVec 2) (untrained : List Nat)
  | hardwareFillDone
  | bootImageLoad (slotA slotB : List Byte)
  | bootImageApply
  | powerLoss
  | overvoltageShutdown
  | rstNAssert (nanoseconds : Nat)
  | rstNRelease (straps : BitVec 2) (untrained : List Nat)
  | thermalTrip
  | powerTargetD0
  | powerTargetD1
  | powerTargetD2
  | powerTargetD3
  | d1AutoReturn
  | powerTransitionDone
  | smbusWake (start : SmbStart)
  | smbReadByte
  | smbRegisterWrite (bytes : List Byte) (pec : Option Byte) (clk : Nat)
  | smbSetReadOffset (bytes : List Byte) (pec : Option Byte)
  | smbRegisterRead (clk : Nat)
  | alertResponse
  | mapDone (part : Fin 32) (clk : Nat)
  | ethPortTrainingDone (port : Fin 4)
  | ethPortLinkLoss (port : Fin 4)
  | flashMoveDone (part : Fin 32) (moved : MovedGranule)
  | refclkStable
  | overvoltageRelease
deriving DecidableEq, Repr

end Sys2Proof
end

