-- ==== Sys2Proof/Config.lean ====
section
/-! DEFINITION. What one device fixes and the spec does not state, the values it leaves open, and the standards it
names without defining. Every opaque constant has no body: nothing in Lean can evaluate it, and a claim holds
whatever it is (assumption log entries 2 and 4). -/

namespace Sys2Proof.Config

/-- Length of a free-running frame in clk (R83, R84). -/
def frameClk : Nat := 8192

/-- A number the spec leaves open: the n-th one of a run (log entry 2). Uses: the SEQ and the internal address a home
chooses for its own snoops (R174), the draws of R218. -/
opaque freeNat : Nat → Nat

/-- A byte the spec leaves undefined: byte `i` of the n-th undefined range (R23, R271, R384; log entry 2). -/
opaque freeByte : Nat → Nat → Byte

/-- DEVID, the SHA-256 of the identity public key (R339). -/
opaque devid : Digest

/-- The certificate chain in its window (R340). -/
opaque certChain : List Byte

/-- Offset and length of certificate n (R340, R365). -/
opaque certOffset : Nat → Nat
opaque certLength : Nat → Nat

/-- The factory MAC address of port p (R336). -/
opaque factoryMac : Nat → BitVec 48

/-- The identity key's signature of a quote digest (R352). -/
opaque identitySign : List Byte → List Byte

/-- Zelmel's firmware public key, whose digest the attestation unit's ROM fixes (R357). -/
opaque firmwareKey : List Byte

/-- Decapsulation under the device KEM key (ML-KEM-1024, R339, R343, R355). -/
opaque deviceDecaps : List Byte → List Byte

/-- The n-th exchange key: its encapsulation key, and decapsulation under it (R351). -/
opaque exchangeEncapKey : Nat → List Byte
opaque exchangeDecaps : Nat → List Byte → List Byte

/-- Bytes of the n-th transient key the attestation unit draws (R344). -/
opaque transientKey : Nat → List Byte

/-- The place in a slice's reserve of the directory entry of a line, which the image fixes: by the slice, its reserve in
2 MiB units and the line of the slice; entries are counted from the start of the reserve (R169; log entry 67). -/
opaque dirPlace : Nat → Nat → Nat → Nat

/-- The places in a slice's reserve of the other things it holds: by the slice, its reserve in 2 MiB units, the kind
(0 and 1 the two copies of a unit's translation entry, 2 the programs' copy, 3 the ledger store) and the number of a
16-byte piece; pieces are counted from the start of the reserve (R17, R275, R290, R360; log entry 67). -/
opaque reservePlace : Nat → Nat → Nat → Nat → Nat

/-- The tweak under which a line of a slice's reserve rests: R345 names the key and no tweak. Of the slice and the line
(log entry 67). -/
opaque reserveTweak : Nat → Nat → Nat

end Sys2Proof.Config
end

