-- ==== Sys2Proof/Machine/Bits.lean ====
section
/-! DEFINITION. Bit fields, byte orders, saturating and wrapping counters, CRC-32C, and the table type that holds
sparse arrays (a list of key and value pairs in one canonical form). -/

namespace Sys2Proof.Machine

/-- Bits [lo + len - 1 : lo] of `w`. -/
def bitsOf (w lo len : Nat) : Nat := (w >>> lo) % 2 ^ len

/-- Bit `i` of `w`. -/
def bitAt (w i : Nat) : Bool := w.testBit i

def bit01 (b : Bool) : Nat := if b then 1 else 0

/-- A register word from its fields, each given as (lowest bit, value). -/
def packFields (fs : List (Nat × Nat)) : Word :=
  BitVec.ofNat 32 (fs.foldl (fun acc f => acc ||| (f.2 <<< f.1)) 0)

/-- A counter that saturates at the largest value of `width` bits. -/
def satTo (width n : Nat) : Nat := min n (2 ^ width - 1)

/-- A counter that wraps at `width` bits. -/
def wrapTo (width n : Nat) : Nat := n % 2 ^ width

/-- Distance from `a` up to `b` on a ring of `m` values. -/
def ringDist (a b m : Nat) : Nat := (b % m + m - a % m) % m

/-- Ceiling division, with `ceilDiv n 0 = 0`. -/
def ceilDiv (n d : Nat) : Nat := if d = 0 then 0 else (n + d - 1) / d

/-- Multi-byte fields are little-endian (R51, R144, R257): the number the bytes spell, lowest address first. -/
def leNat : List Byte → Nat
  | [] => 0
  | b :: bs => b.toNat + 256 * leNat bs

/-- The `n` little-endian bytes of `v`. -/
def leBytes : Nat → Nat → List Byte
  | 0, _ => []
  | n + 1, v => BitVec.ofNat 8 v :: leBytes n (v / 256)

/-- The number that big-endian bytes spell. -/
def beNat (bs : List Byte) : Nat := bs.foldl (fun acc b => acc * 256 + b.toNat) 0

/-- The `n` big-endian bytes of `v`. -/
def beBytes (n v : Nat) : List Byte := (leBytes n v).reverse

/-- `n` bytes from offset `off`, zeros past the end. -/
def sliceBytes (bs : List Byte) (off n : Nat) : List Byte :=
  let t := (bs.drop off).take n
  t ++ List.replicate (n - t.length) 0

/-- The little-endian field of `n` bytes at offset `off`. -/
def fieldAt (bs : List Byte) (off n : Nat) : Nat := leNat (sliceBytes bs off n)

/-- The digest whose bytes are `bs`, byte 0 most significant. -/
def digestOf (bs : List Byte) : Digest := BitVec.ofNat 256 (beNat bs)

/-- The 32 bytes of a digest. -/
def digestBytes (d : Digest) : List Byte := beBytes 32 d.toNat

/-- Digest word n holds bytes 4n to 4n + 3, byte 4n in bits [7:0] (R81, R365). -/
def digestWord (d : Digest) (n : Nat) : Word :=
  BitVec.ofNat 32 (fieldAt (digestBytes d) (4 * n) 4)

/-- Parity of a number's bits: true when an odd number of the low `width` bits is set. -/
def parityOf : Nat → Nat → Bool
  | 0, _ => false
  | w + 1, n => xor (n.testBit w) (parityOf w n)

/-- Number of set bits among the low `width`. -/
def popCount : Nat → Nat → Nat
  | 0, _ => 0
  | w + 1, n => bit01 (n.testBit w) + popCount w n

/-- The set bits among the low `width`, ascending. -/
def setBits (width n : Nat) : List Nat := (List.range width).filter (fun i => n.testBit i)

/-- The number whose set bits are `is`. -/
def maskOf (is : List Nat) : Nat := is.foldl (fun acc i => acc ||| (1 <<< i)) 0

/-- Hand a number on as a numeral, so that the kernel reckons it once. -/
def forced {α : Type} (n : Nat) (f : Nat → α) : α := match n with
  | 0 => f 0
  | k + 1 => f (k + 1)

/-- Bit steps of the reflected CRC-32C register, and its run over bytes. -/
def crcBits : Nat → Nat → Nat
  | 0, r => r
  | n + 1, r => forced (r / 2 ^^^ 0x82F63B78 * (r % 2)) (crcBits n)
def crcBytes : List Byte → Nat → Nat
  | [], r => r
  | b :: bs, r => forced (r ^^^ b.toNat) (fun r => forced (crcBits 8 r) (crcBytes bs))

/-- CRC-32C: polynomial 0x1EDC_6F41, reflected, initial value and final XOR all ones (R121). -/
def crc32c (bs : List Byte) : Nat := crcBytes bs 0xFFFFFFFF ^^^ 0xFFFFFFFF

/-- ⌊log2 n⌋ of a positive number. -/
def log2Nat (n : Nat) : Nat := Nat.log2 n

/-- A sparse array: entries with keys strictly rising, none equal to what an unlisted key reads as. -/
abbrev Tbl (α : Type) := List (Nat × α)

/-- Entry `k`; an unlisted key reads as `d k`. -/
def tblGet {α : Type} (d : Nat → α) : Tbl α → Nat → α
  | [], k => d k
  | (a, v) :: m, k => if a = k then v else tblGet d m k

/-- Remove every entry of key `k`. -/
def tblErase {α : Type} : Tbl α → Nat → Tbl α
  | [], _ => []
  | (a, v) :: m, k => if a = k then tblErase m k else (a, v) :: tblErase m k

/-- Put an entry for key `k`, keeping keys rising. -/
def tblPut {α : Type} : Tbl α → Nat → α → Tbl α
  | [], k, x => [(k, x)]
  | (a, v) :: m, k, x =>
    if a = k then (k, x) :: m else if k < a then (k, x) :: (a, v) :: m else (a, v) :: tblPut m k x

/-- Write entry `k`: the value an unlisted key reads as removes the entry, so equal arrays are equal lists. -/
def tblSet {α : Type} [DecidableEq α] (d : Nat → α) (m : Tbl α) (k : Nat) (x : α) : Tbl α :=
  if x = d k then tblErase m k else tblPut m k x

/-- Change entry `k` by `f`. -/
def tblMod {α : Type} [DecidableEq α] (d : Nat → α) (m : Tbl α) (k : Nat) (f : α → α) : Tbl α :=
  tblSet d m k (f (tblGet d m k))

/-- Every entry of the list written one after another. -/
def tblSetMany {α : Type} [DecidableEq α] (d : Nat → α) (m : Tbl α) (kvs : List (Nat × α)) : Tbl α :=
  kvs.foldl (fun acc kv => tblSet d acc kv.1 kv.2) m

/-- The entry of key `k` in a table without default. -/
def tblFind {α : Type} : Tbl α → Nat → Option α
  | [], _ => none
  | (a, v) :: m, k => if a = k then some v else tblFind m k

/-- The canonical form: keys strictly rising, no entry equal to the unlisted value. -/
def tblWf {α : Type} [DecidableEq α] (d : Nat → α) : Tbl α → Bool
  | [] => true
  | [(a, v)] => decide (v ≠ d a)
  | (a, v) :: (b, w) :: m => decide (v ≠ d a) && decide (a < b) && tblWf d ((b, w) :: m)

/-- First element of a list that meets `p`, with the rest of the list. -/
def takeFirst {α : Type} (p : α → Bool) : List α → Option (α × List α)
  | [] => none
  | x :: xs => if p x then some (x, xs) else (takeFirst p xs).map (fun r => (r.1, x :: r.2))

/-- Replace the element at position `i`. -/
def setAt {α : Type} (l : List α) (i : Nat) (x : α) : List α := l.set i x

/-- Insert keeping the order of `le`, after equals (a stable insertion). -/
def insertBy {α : Type} (le : α → α → Bool) (x : α) : List α → List α
  | [] => [x]
  | y :: ys => if le y x then y :: insertBy le x ys else x :: y :: ys

/-- Stable insertion sort. -/
def sortBy {α : Type} (le : α → α → Bool) (l : List α) : List α := l.foldl (fun acc x => insertBy le x acc) []

/-- The first element that is least under `f`. -/
def minBy {α : Type} (f : α → Nat) : List α → Option α
  | [] => none
  | x :: xs => match minBy f xs with
    | none => some x
    | some y => if f y < f x then some y else some x

/-- The first element that is greatest under `f`. -/
def maxBy {α : Type} (f : α → Nat) : List α → Option α
  | [] => none
  | x :: xs => match maxBy f xs with
    | none => some x
    | some y => if f x < f y then some y else some x

def sumNat (l : List Nat) : Nat := l.foldl (· + ·) 0

end Sys2Proof.Machine
end

