-- ==== Sys2Proof/Machine/Aes.lean ====
section
/-! DEFINITION. AES-256 (FIPS 197), its GCM mode with a 96-bit IV (NIST SP 800-38D) and its XTS mode (IEEE 1619), which
R343, R348, R351 and R355 name (log entry 65). A block is its sixteen bytes in order. -/

namespace Sys2Proof.Machine

/-! ### The block cipher -/

/-- Product in GF(2^8) modulo x^8 + x^4 + x^3 + x + 1. -/
def aesMul (a b : Nat) : Nat :=
  ((List.range 8).foldl (fun (acc : Nat × Nat) i =>
    (if b.testBit i then acc.1 ^^^ acc.2 else acc.1,
     if acc.2.testBit 7 then (acc.2 * 2) % 256 ^^^ 0x1B else acc.2 * 2)) (0, a)).1

/-- The multiplicative inverse, x^254; 0 for 0. -/
def aesInv (a : Nat) : Nat :=
  let sq := fun x => aesMul x x
  let a2 := sq a
  let a4 := sq a2
  let a8 := sq a4
  let a16 := sq a8
  let a32 := sq a16
  let a64 := sq a32
  aesMul (aesMul (aesMul a2 a4) (aesMul a8 a16)) (aesMul (aesMul a32 a64) (sq a64))

def aesRotl (x n : Nat) : Nat := (x * 2 ^ n) % 256 + x / 2 ^ (8 - n)

/-- The S-box, and its inverse. -/
def aesSub (a : Nat) : Nat :=
  let b := aesInv a
  b ^^^ aesRotl b 1 ^^^ aesRotl b 2 ^^^ aesRotl b 3 ^^^ aesRotl b 4 ^^^ 0x63
def aesUnsub (a : Nat) : Nat := aesInv (aesRotl a 1 ^^^ aesRotl a 3 ^^^ aesRotl a 6 ^^^ 0x05)

def aesXor (x y : List Nat) : List Nat := (x.zip y).map (fun p => p.1 ^^^ p.2)

/-- The key schedule: 60 words of four bytes; the list holds the newest word first. -/
def aesExpand : Nat → Nat → List (List Nat) → List (List Nat)
  | 0, _, w => w
  | n + 1, i, w =>
    let t := w.getD 0 []
    let t := if i % 8 = 0 then
        aesXor (((t.drop 1) ++ t.take 1).map aesSub) [2 ^ (i / 8 - 1), 0, 0, 0]
      else if i % 8 = 4 then t.map aesSub else t
    aesExpand n (i + 1) (aesXor (w.getD 7 []) t :: w)

/-- The fifteen round keys of a 32-byte key. -/
def aesKeys (key : List Byte) : List (List Nat) :=
  let k := (sliceBytes key 0 32).map (·.toNat)
  let w := (aesExpand 52 8 ((List.range 8).map (fun i => (k.drop (4 * i)).take 4)).reverse).reverse
  (List.range 15).map (fun r => ((w.drop (4 * r)).take 4).flatten)

/-- Byte `r` of column `c` moves to column `c - r`, and back. -/
def aesShift (x : List Nat) : List Nat := (List.range 16).map (fun i => x.getD ((i + 4 * (i % 4)) % 16) 0)
def aesUnshift (x : List Nat) : List Nat := (List.range 16).map (fun i => x.getD ((i + 12 * (i % 4)) % 16) 0)

/-- Each column times a circulant whose first row is given. -/
def aesMix (row : List Nat) (x : List Nat) : List Nat :=
  (List.range 16).map (fun i => (List.range 4).foldl (fun acc j =>
    acc ^^^ aesMul (x.getD (i / 4 * 4 + j) 0) (row.getD ((j + 4 - i % 4) % 4) 0)) 0)

def aesEncrypt (keys : List (List Nat)) (x : List Nat) : List Nat :=
  let y := (List.range 13).foldl (fun y r =>
    aesXor (aesMix [2, 3, 1, 1] (aesShift (y.map aesSub))) (keys.getD (r + 1) [])) (aesXor x (keys.getD 0 []))
  aesXor (aesShift (y.map aesSub)) (keys.getD 14 [])

def aesDecrypt (keys : List (List Nat)) (x : List Nat) : List Nat :=
  let y := (List.range 13).foldl (fun y r =>
    aesMix [14, 11, 13, 9] (aesXor ((aesUnshift y).map aesUnsub) (keys.getD (13 - r) []))) (aesXor x (keys.getD 14 []))
  aesXor ((aesUnshift y).map aesUnsub) (keys.getD 0 [])

/-! ### GCM -/

def blockNat (x : List Nat) : Nat := x.foldl (fun acc b => acc * 256 + b) 0
def natBlock (n : Nat) : List Nat := (beBytes 16 n).map (·.toNat)

/-- Product in GF(2^128) as GCM writes it: bit 127 of the number is the coefficient of 1. -/
def ghashMul (x y : Nat) : Nat :=
  ((List.range 128).foldl (fun (acc : Nat × Nat) i =>
    (if x.testBit (127 - i) then acc.1 ^^^ acc.2 else acc.1,
     if acc.2.testBit 0 then (acc.2 / 2) ^^^ (0xE1 * 2 ^ 120) else acc.2 / 2)) (0, y)).1

/-- Bytes filled with zeros to whole blocks, as numbers. -/
def gcmBlocks (bs : List Byte) : List Nat :=
  (List.range (ceilDiv bs.length 16)).map (fun i => beNat (sliceBytes bs (16 * i) 16))

def gcmHash (h : Nat) (aad ct : List Byte) : Nat :=
  (gcmBlocks aad ++ gcmBlocks ct ++ [8 * aad.length * 2 ^ 64 + 8 * ct.length]).foldl (fun acc b => ghashMul (acc ^^^ b) h) 0

/-- Counter mode from counter value 2 on. -/
def gcmCrypt (keys : List (List Nat)) (iv bs : List Byte) : List Byte :=
  let stream := (List.range (ceilDiv bs.length 16)).flatMap (fun i =>
    aesEncrypt keys (natBlock (beNat (sliceBytes iv 0 12) * 2 ^ 32 + i + 2)))
  (bs.zip stream).map (fun x => x.1 ^^^ BitVec.ofNat 8 x.2)

def gcmTag (keys : List (List Nat)) (iv aad ct : List Byte) : List Byte :=
  let h := blockNat (aesEncrypt keys (natBlock 0))
  let mask := blockNat (aesEncrypt keys (natBlock (beNat (sliceBytes iv 0 12) * 2 ^ 32 + 1)))
  beBytes 16 (gcmHash h aad ct ^^^ mask)

/-- AES-256-GCM: the ciphertext and its 16-byte tag. -/
def gcmSeal (key iv aad plain : List Byte) : List Byte :=
  let keys := aesKeys key
  let ct := gcmCrypt keys iv plain
  ct ++ gcmTag keys iv aad ct

/-- AES-256-GCM: the plaintext, none where the tag fails. -/
def gcmOpen (key iv aad ct tag : List Byte) : Option (List Byte) :=
  let keys := aesKeys key
  if gcmTag keys iv aad ct = tag then some (gcmCrypt keys iv ct) else none

/-! ### XTS -/

/-- A tweak times x in GF(2^128), in the little-endian order of IEEE 1619. -/
def xtsDouble (t : Nat) : Nat := if 2 ^ 127 ≤ t then (t * 2) % 2 ^ 128 ^^^ 0x87 else t * 2

/-- AES-256-XTS of one data unit of whole blocks under a 64-byte key and a data-unit number: `f` is AES-256 under the
data key, in the direction wanted. -/
def xtsUnit (f : List Nat → List Nat) (key : List Byte) (unit : Nat) (bs : List Byte) : List Byte :=
  let t0 := leNat ((aesEncrypt (aesKeys (sliceBytes key 32 32)) ((leBytes 16 unit).map (·.toNat))).map (BitVec.ofNat 8 ·))
  ((List.range (bs.length / 16)).foldl (fun (acc : List Byte × Nat) i =>
    let t := (leBytes 16 acc.2).map (·.toNat)
    let x := aesXor ((sliceBytes bs (16 * i) 16).map (·.toNat)) t
    (acc.1 ++ (aesXor (f x) t).map (BitVec.ofNat 8 ·), xtsDouble acc.2)) ([], t0)).1

def xtsDecrypt (key : List Byte) (unit : Nat) (ct : List Byte) : List Byte :=
  xtsUnit (aesDecrypt (aesKeys (sliceBytes key 0 32))) key unit ct

def xtsEncrypt (key : List Byte) (unit : Nat) (pt : List Byte) : List Byte :=
  xtsUnit (aesEncrypt (aesKeys (sliceBytes key 0 32))) key unit pt

end Sys2Proof.Machine
end

