-- ==== Sys2Proof/Machine/State.lean ====
section
/-! DEFINITION. The state of one ZB8472 as plain data: every register, queue, buffer, counter, mode and pin the spec
gives it, and the queue of waiting commands. Structures follow the chapters; each field names its rule. -/

namespace Sys2Proof.Machine

/-! ### Management paths -/

/-- SYS_ACCERR of one path (R416, R417). -/
structure AccErr where
  err : Bool := false
  cause : Nat := 0
  off : Nat := 0
  /-- The first error since ERR was set, of the last clk that had one: a clearing write of that clk leaves it recorded
  (R417). -/
  later : Option (Nat × Nat) := none
deriving DecidableEq, Repr, Inhabited

/-- What the device keeps for one management path (R10, R38, R416, R418). -/
structure PathState where
  /-- PART_SEL.PART (R40). -/
  partSel : Nat := 0
  /-- ENG_SEL.MODE and INDEX (R41). -/
  engMode : Nat := 0
  engIndex : Nat := 0
  /-- KX_SEL.PORT (R42). -/
  kxSel : Nat := 0
  /-- STK_SEL.REL and INDEX (R43). -/
  stkRel : Bool := false
  stkIndex : Nat := 0
  /-- DI_LOG_SEL.INDEX (R318). -/
  diLogSel : Nat := 0
  /-- ETH_QP_SEL.QP (R337). -/
  ethQpSel : Nat := 0
  /-- TD_FLOW_SEL.HOST and REQ (R112). -/
  flowHost : Bool := false
  flowReq : Nat := 0
  /-- PUB_UNIT_SEL.UNIT (R201). -/
  pubUnit : Nat := 0
  /-- SQ_SEL.QUEUE (R296). -/
  sqSel : Nat := 0
  /-- XL_PAGE_SEL.UNIT and XL_OP_SRC.UNIT (R297). -/
  xlPage : Nat := 0
  xlSrc : Nat := 0
  /-- LG_SEL.SLOT (R366). -/
  lgSel : Nat := 0
  /-- The latched _HI value and the offset it answers (R10). -/
  latch : Option (Nat × Word) := none
  /-- The held _LO write and its offset (R10). -/
  held : Option (Nat × Word) := none
  /-- TD_PTIME_SUB as the last read of TD_PTIME_LO latched it (R111). -/
  ptSub : Nat := 0
  /-- SYS_ACCERR (R416). -/
  acc : AccErr := {}
  /-- The word the path's last register read returned. -/
  data : Word := 0
deriving DecidableEq, Repr, Inhabited

/-- One copy per management path (R38). -/
structure Mgmt where
  core : PathState := {}
  smbus : PathState := {}
  mgmtQp : PathState := {}
deriving DecidableEq, Repr, Inhabited

/-! ### The topiary image -/

/-- A HEDGES record; a member is (true, hedge) or (false, slice) (R57). -/
structure HedgeRec where
  hedge : Nat
  mode : Nat
  members : List (Bool × Nat)
deriving DecidableEq, Repr, Inhabited

/-- A PARTITIONS record (R58). -/
structure PartRec where
  part : Nat
  conf : Bool
  root : Nat
  regions : Nat
  outdig : Bool
  flashCache : Nat
deriving DecidableEq, Repr, Inhabited

/-- A REGIONS record; kind 0 DATA, 1 SHARED, 2 PUBLISHED; start and size in 2 MiB units (R59). -/
structure RegionRec where
  part : Nat
  kind : Nat
  flash : Bool
  gib : Bool
  twinned : Bool
  index : Nat
  start : Nat
  size : Nat
  twin : Nat
deriving DecidableEq, Repr, Inhabited

/-- The RING record (R60). -/
structure RingRec where
  dateline : Nat
  portEn : Nat
  node : Nat
  colLen : Nat
  rowLen : Nat
  neighbours : List Nat
deriving DecidableEq, Repr, Inhabited

/-- An ALLOTMENTS record; `key` is the flow's key (R61). -/
structure AllotRec where
  key : Nat
  allot : Nat
  burst : Nat
deriving DecidableEq, Repr, Inhabited

/-- A GATES record: open from slot `opens`, closed from slot `closes` (R62). -/
structure GateRec where
  key : Nat
  opens : Nat
  closes : Nat
deriving DecidableEq, Repr, Inhabited

/-- A POLICERS record (R63). -/
structure PolRec where
  key : Nat
  drop : Bool
  aware : Bool
  pir : Nat
  cir : Nat
  pbs : Nat
  cbs : Nat
deriving DecidableEq, Repr, Inhabited

/-- A PROGRAMS record (R64). -/
structure ProgRec where
  part : Nat
  slot : Nat
  words : List Word
deriving DecidableEq, Repr, Inhabited

/-- The SPARES record (R65). -/
structure SparesRec where
  auto : Nat
  ceLimit : Nat
  twinEn : Bool
  twinPeer : Nat
deriving DecidableEq, Repr, Inhabited

/-- The structure an image lays down: the records of its ten sections (R55). -/
structure Layout where
  /-- Reserve of each slice in 2 MiB units, slices without a record absent (R56). -/
  slices : List (Nat × Nat) := []
  hedges : List HedgeRec := []
  parts : List PartRec := []
  regions : List RegionRec := []
  ring : Option RingRec := none
  allots : List AllotRec := []
  gates : List GateRec := []
  pols : List PolRec := []
  progs : List ProgRec := []
  spares : Option SparesRec := none
deriving DecidableEq, Repr, Inhabited

/-- A verified image: its header and its records (R53). -/
structure Image where
  partial_ : Bool := false
  target : Nat := 0
  amend : Bool := false
  serial : Nat := 0
  ownerSlot : Nat := 0
  /-- The measurement M (R67). -/
  digest : Digest := 0
  layout : Layout := {}
deriving DecidableEq, Repr, Inhabited

/-- An owner slot: state 0 BLANK, 1 ACTIVE, 2 REVOKED; the owner key's digest; the serial floor and the one-time
words left (R68, R69). Non-volatile. -/
structure OwnerSlot where
  state : Nat := 0
  digest : Digest := 0
  floor : Nat := 0
  left : Nat := 64
deriving DecidableEq, Repr, Inhabited

/-- The image block (R68 to R82). -/
structure ImgState where
  /-- IMG_STATUS fields (R80). -/
  loaded : Bool := false
  phase : Nat := 0
  kind : Bool := false
  part : Nat := 0
  code : Nat := 0
  sect : Nat := 0xF
  record : Nat := 0xFFF
  /-- IMG_REFUSED (R82). -/
  refused : Bool := false
  refusedCount : Nat := 0
  /-- IMG_SERIAL, IMG_DIGEST and the owner slot of the whole-device image in force (R81). -/
  serial : Nat := 0
  digest : Digest := 0
  ownerSlot : Nat := 0
  /-- Owner slots, floors and one-time words, four (R68, R69). -/
  owners : List OwnerSlot := [{}, {}, {}, {}]
  /-- The image of the load in progress, once verified (R73, R74). -/
  load : Option Image := none
  /-- Partitions whose drain a whole-device load still waits for (R73). -/
  draining : List Nat := []
  /-- A start has released the management core, which has not yet read its image slots (R72). -/
  bootDue : Bool := false
  /-- The slots' images that verified, the one to apply first, each with the table entry of its REGIONS section; they
  wait for flash discovery (R72, R228). -/
  boot : List (Image × Nat) := []
  /-- The structure in force. -/
  layout : Layout := {}
deriving DecidableEq, Repr, Inhabited

/-! ### Packets, requests and flows -/

/-- Where a request came from and how it is answered (R36, R330, R332). -/
inductive Origin where
  /-- A Keaxel port. -/
  | fabric (port : Nat)
  /-- An RDMA WRITE packet of an Ethernet queue pair, or a SEND packet that brings no control request (R329, R335): PSN,
  whether it is to be ACKed, whether it ends its message, whether it is of a SEND. In its packet SEQ holds the R_Key, AUX
  the bytes of the message left before it (WRITE) or gathered before it (SEND), HOPS 1 when the message had begun. -/
  | ethWrite (qp psn : Nat) (ack last send : Bool)
  /-- An RDMA READ or atomic of an Ethernet queue pair. -/
  | ethRead (qp psn : Nat)
  | ethAtomic (qp psn : Nat)
  /-- A control request of an Ethernet queue pair (R332). -/
  | ethControl (qp psn tag : Nat)
  /-- An engine of a pair (R234). -/
  | engine (part queue : Nat)
deriving DecidableEq, Repr, Inhabited

/-- A request: its packet and where it came from. -/
structure Request where
  pkt : Packet
  origin : Origin
  /-- The pre-colour: 0 green, 1 yellow, 2 red (R101). -/
  colour : Nat := 0
  /-- The clk of its arrival. -/
  arrived : Nat := 0
  /-- Of an Ethernet host's packet: the life of its queue pair, which a RESET ends; it repeats a PSN that the queue pair
  has passed (R324, R330, R331). -/
  life : Nat := 0
  again : Bool := false
deriving DecidableEq, Repr, Inhabited

/-- An admission-queue entry (R92, R102). -/
structure QueuedReq where
  req : Request
  deferred : Bool := false
deriving DecidableEq, Repr, Inhabited

/-- A request in service, by ticket; tickets rise in admission order (R92, R192). -/
structure Service where
  ticket : Nat
  key : Nat
  req : Request
  /-- HEADROOM's code of the flow's credit just after the charge; none for a request that was never admitted (R106). -/
  headroom : Option Nat
  /-- The clk of its admission, in which it reaches its home (R165). -/
  admitted : Nat := 0
deriving DecidableEq, Repr, Inhabited

/-- A flow's own state (R89 to R103, R112). -/
structure Flow where
  /-- TD_FLOW_LIMIT as written, and the limit in force since the last tick (R103). -/
  limit : Nat := 0
  limitNow : Nat := 0
  /-- Credit C in 256 B units (R94). -/
  credit : Int := 0
  /-- NET as an absolute frame slot: 64 × frame + slot (R96, R97). -/
  net : Nat := 0
  /-- The wheel place, as an absolute frame slot, while a head packet waits (R97). -/
  wheel : Option Nat := none
  /-- Why the head waits: 0 not waiting, 1 credit, 2 gate or fit, 3 red deferral (R112). -/
  wait : Nat := 0
  /-- W_end, as an absolute clk (R99). -/
  wEnd : Nat := 0
  queue : List QueuedReq := []
  /-- Buckets Tc and Tp (R100). -/
  tc : Nat := 0
  tp : Nat := 0
  /-- Units charged in this frame and in the last (R112). -/
  unitsNow : Nat := 0
  units : Nat := 0
  retry : Nat := 0
  defer : Nat := 0
  drop : Nat := 0
  green : Nat := 0
  yellow : Nat := 0
  red : Nat := 0
deriving DecidableEq, Repr, Inhabited

/-- The traffic block: frames, ticks, load (R83 to R111). -/
structure Traffic where
  /-- The clk of the last event the device saw, and of the last tick. -/
  now : Nat := 0
  tickClk : Nat := 0
  /-- The powered-time counter (R108). -/
  ptime : Nat := 0
  /-- The boot counter, non-volatile (R109). -/
  boot : Nat := 0
  /-- TD_SYNC_STATUS.STATE: 0 UNLOCKED, 1 LOCKED, 2 HOLDOVER (R84). -/
  sync : Nat := 0
  hold : Bool := false
  lastLen : Nat := 0
  freerun : Bool := false
  missed : Nat := 0
  stray : Nat := 0
  /-- The clk at which an FRM_SYNC edge has scheduled the next tick (R84). -/
  edgeTick : Option Nat := none
  /-- TD_QHEAD, and the index before the last tick: the new one, with its samples, shows from clk 1 of the frame (R87,
  R105). -/
  qhead : Nat := 0x3F
  qheadOld : Nat := 0x3F
  /-- TD_LOAD parts (R106, R111). -/
  fabPart : Nat := 0
  ethPart : Nat := 0
  dramPart : Nat := 0
  /-- The parts of the frame before: the new ones stand in TD_LOAD from clk 2 and in responses from clk 3 (R87). -/
  fabWas : Nat := 0
  ethWas : Nat := 0
  dramWas : Nat := 0
  /-- Units charged in this frame to fabric and Ethernet flows (R106). -/
  fabUnits : Nat := 0
  ethUnits : Nat := 0
  /-- Data-bus busy half-nanoseconds of each channel in this frame, by channel (R106). -/
  busBusy : Tbl Nat := []
  /-- Histories: Ethernet ingress (64p + k) and partition admission (64p + k), and the longest wait of the frame
  (R104, R105). -/
  ethHist : Tbl Word := []
  partHist : Tbl Word := []
  /-- The samples that the last tick's replaced (R87). -/
  ethOld : List Word := []
  partOld : List Word := []
  partWait : Tbl Nat := []
  ethWait : Tbl Nat := []
deriving DecidableEq, Repr, Inhabited

/-! ### Keaxel ports -/

/-- A packet being put into or taken out of flits: its bytes (R120). -/
structure ChunkStream where
  bytes : List Byte := []
  /-- Bytes the packet at the front needs, zero while its header is incomplete. -/
  need : Nat := 0
deriving DecidableEq, Repr, Inhabited

/-- A DATA flit kept for replay (R131). -/
structure SentFlit where
  seq : Nat
  data : List Byte
  fill : Nat
  pstart : Nat
deriving DecidableEq, Repr, Inhabited

/-- One of the sixteen credit counters, n = 2p + d (R127, R129). -/
structure Credit where
  /-- Credits held for sending, and outstanding U (transmit side). -/
  avail : Nat := 0
  outstanding : Nat := 0
  /-- The last count R accepted. -/
  lastCount : Nat := 0
  /-- The peer's advertisement at the last fresh INIT. -/
  peerAdv : Nat := 0
  /-- Credits freed since the link epoch began (receive side), modulo 65,536. -/
  freed : Nat := 0
  /-- Credits in use by packets buffered here. -/
  used : Nat := 0
  /-- What this port advertised. -/
  adv : Nat := 0
  /-- The credit timer in frames, and whether a count advanced since the last tick (R130). -/
  timer : Nat := 0
  advanced : Bool := false
deriving DecidableEq, Repr, Inhabited

/-- KX_CFG (R140). -/
structure KxCfg where
  cto : Nat := 0x40
  maxw : Nat := 2
  maxs : Bool := true
  depth : Nat := 2
  rto : Nat := 0x1000
  rlim : Nat := 4
deriving DecidableEq, Repr, Inhabited

/-- The counters of R140 and R164 of one port. -/
structure KxCounters where
  laneErr : List Nat := [0, 0, 0, 0, 0]
  corr : Nat := 0
  uncorr : Nat := 0
  crc : Nat := 0
  dup : Nat := 0
  gap : Nat := 0
  replayTimer : Nat := 0
  replayNak : Nat := 0
  stale : Nat := 0
  nakSent : Nat := 0
  resets : Nat := 0
  lost : Nat := 0
  timeouts : Nat := 0
  badRet : Nat := 0
  thru : Nat := 0
  turn : Nat := 0
  inj : Nat := 0
  sink : Nat := 0
  bubble : Nat := 0
  dropped : Nat := 0
deriving DecidableEq, Repr, Inhabited

/-- A buffered packet of a port with the clk it became complete (R104, R128). -/
structure Buffered where
  pkt : Packet
  since : Nat
deriving DecidableEq, Repr, Inhabited

/-- One Keaxel port (R114 to R140). -/
structure Port where
  /-- KX_STATUS.STATE: 0 DISABLED, 1 DOWN, 2 TRAIN, 3 INIT, 4 ACTIVE, 5 FAILED (R122). -/
  state : Nat := 0
  cause : Nat := 0
  width : Nat := 0
  speed : Bool := false
  degraded : Bool := false
  resumed : Bool := false
  lepoch : Nat := 0
  hold : Bool := false
  cfg : KxCfg := {}
  /-- MAXW, MAXS and DEPTH as the last full link reset took them (R136). -/
  active : KxCfg := {}
  peerPort : Nat := 0
  peerNode : Nat := 0
  /-- KX_LANE: pruned and good lanes, the receive map of logical lanes 0 to 3 (7 unused) (R140). -/
  pruned : Nat := 0
  good : Nat := 0
  laneMap : List Nat := [7, 7, 7, 7]
  /-- The physical transmit lanes of logical lanes 0 upward, from the peer's LANES (R126). -/
  txLanes : List Nat := []
  /-- Lanes named for return, and lanes whose pruning waits, until the next reset (R138). -/
  restore : Nat := 0
  pruneWait : Nat := 0
  /-- A lane pruning other than loss of lock waits for a reset at the next tick (R138). -/
  graftDue : Bool := false
  symLim : Nat := 0x100
  /-- Corrected symbols of each lane in this frame, and lane errors in the 2^20-frame window (R138). -/
  laneFrame : List Nat := [0, 0, 0, 0, 0]
  laneErrs : List Nat := [0, 0, 0, 0, 0]
  /-- Receive BSEQ expected, the transmit block count, and TRAIN progress of each lane (R115, R117, R123). -/
  rxBseq : Option Nat := none
  txBseq : Nat := 0
  laneRun : List Nat := [0, 0, 0, 0, 0]
  laneBseq : List Nat := [256, 256, 256, 256, 256]
  /-- Receive lanes that have trained in this reset (R123). -/
  trained : Nat := 0
  /-- The INIT record this port sends, as TRAIN's end fixed it, and the counts freed by then (R124, R128). -/
  offer : Option InitRecord := none
  offerFreed : List Nat := []
  /-- This reset: resume offered, peer's first valid INIT, SEEN of the peer, its start frame, INIT blocks still to
  send, each direction switched (R125, R126, R137). -/
  offerResume : Bool := false
  peerInit : Option InitRecord := none
  peerSeen : Bool := false
  resetFrame : Nat := 0
  initFrame : Nat := 0
  initLeft : Nat := 16
  txSwitched : Bool := false
  rxSwitched : Bool := false
  failures : Nat := 0
  /-- Receive side: E and NAK state (R132). -/
  rxExp : Nat := 0
  nakState : Bool := false
  /-- Transmit side: next sequence number, replay buffer from O to the newest (R131, R133). -/
  txNext : Nat := 0
  replay : List SentFlit := []
  /-- Position of a running replay in the buffer and the first clk it may start (R134). -/
  replayPos : Option Nat := none
  replayFrom : Nat := 0
  /-- The ACK value on which the last replay started since the last advance of O (R134). -/
  replayAck : Option Nat := none
  replayCount : Nat := 0
  /-- The clk at which the replay timer restarted (R135). -/
  timerStart : Nat := 0
  /-- Flits sent since ACTIVE, for the credit rotation (R129), and the block being filled (R115). -/
  slotCount : Nat := 0
  block : List Flit := []
  credits : List Credit := List.replicate 16 {}
  /-- The stream being assembled from received flits, and the stream being sent (R120). -/
  rx : ChunkStream := {}
  tx : ChunkStream := {}
  /-- The pool whose data credits are freed while the receiver discards chunks after a framing loss (R155). -/
  framing : Option Nat := none
  /-- Whole packets waiting at the stop, in arrival order. -/
  ingress : List Buffered := []
  /-- The longest wait of the frame and the history of each class, 64c + k (R104, R105). -/
  waits : List Nat := [0, 0, 0, 0]
  hist : Tbl Word := []
  /-- The samples that the last tick's replaced: the new ones show from clk 1 of the frame (R87). -/
  histOld : List Word := []
  cnt : KxCounters := {}
deriving DecidableEq, Repr, Inhabited

/-! ### Ring stop -/

/-- A packet waiting for an output port (R152). -/
structure RingPkt where
  pkt : Packet
  out : Nat
  /-- 0 continuing, 1 turning, 2 injected. -/
  kind : Nat
  /-- The input port, 8 for a packet of this device, and the VC it arrived in. -/
  inPort : Nat
  inVc : Bool
  age : Nat
  /-- The clk it was complete at its input port, whose buffer it holds until it leaves (R104, R128). -/
  since : Nat
deriving DecidableEq, Repr, Inhabited

/-- A packet this stop has sunk and not yet handled. -/
structure Sunk where
  pkt : Packet
  port : Nat
  /-- The clk a multicast was complete at its port, whose buffer it holds until it is forwarded or ended (R104). -/
  since : Nat := 0
deriving DecidableEq, Repr, Inhabited

/-- The fabric block and the ring stop (R141 to R164). -/
structure Fabric where
  waiting : List RingPkt := []
  nextAge : Nat := 0
  /-- Requests sunk and not yet through R92; other packets sunk; multicasts at this stop. -/
  arrivals : List Request := []
  inbox : List Sunk := []
  mcasts : List Sunk := []
  /-- Requests that this device has answered and whose answers have not left it (R192). -/
  leaving : List Service := []
  unroutable : Nat := 0
  hops : Nat := 0
  opcodeErr : Nat := 0
  frameErr : Nat := 0
  badMc : Nat := 0
  refusedMc : Nat := 0
  mcSunk : Nat := 0
deriving DecidableEq, Repr, Inhabited

/-! ### Coherence -/

/-- The directory states, and the reserved values that a read of the backing can meet (R170). -/
inductive DirState where
  | I | S | X | O | P | reserved
deriving DecidableEq, Repr, Inhabited

/-- A directory entry (R169). -/
structure DirEntry where
  st : DirState := .I
  owner : Nat := 0
  sharers : Nat := 0
deriving DecidableEq, Repr, Inhabited

/-- The busy states (before R179). -/
inductive Busy where
  | BI | BF | BG | BR
deriving DecidableEq, Repr, Inhabited

/-- What a coherent line is asked for: the requests of R179, and the non-allocating read, write and atomic of R182. -/
inductive LineOp where
  | rdS | rdX | upg | read | write | atom
deriving DecidableEq, Repr, Inhabited

/-- One request's work on one line: the line it was translated to, the first byte it touches, where its bytes lie in the
request, how many, and the bytes a write or atomic brings. -/
structure LineJob where
  svc : Service
  op : LineOp
  line : Nat
  addr : Nat
  idx : Nat
  len : Nat
  bytes : List Byte
  /-- The mapping epoch of the partition that its page was translated under (R294). -/
  epoch : Nat := 0
  /-- The words of the line that reached the device uncorrectable (R303). -/
  bad : List Nat := []
deriving DecidableEq, Repr, Inhabited

/-- The outcome of one piece of a request in service: its place in the request, its pool address, its status, the
bytes it read, the hint of a RETRY (R22, R23). -/
structure Gathered where
  ticket : Nat
  idx : Nat
  addr : Nat
  status : Status
  bytes : List Byte
  hint : Nat
deriving DecidableEq, Repr, Inhabited

/-- What a request ends with (R13, R23): DATA or CMP, the status, the address it reports (the pool address for CMP),
AUX of a CMP, the bytes of DATA, the RETRY hint in frames. -/
structure Ans where
  status : Status
  data : Option (List Byte) := none
  addr : Option Nat := none
  aux : Nat := 0
  hint : Nat := 1
deriving DecidableEq, Repr, Inhabited

/-- What a transaction does once its snoops are answered (R179, R182, R184, R379). -/
inductive CohStep where
  /-- Grant by DATA from memory (RD_S, RD_X), or by CMP (UPG). -/
  | grantData | grantCmp
  /-- Send SNP_FWD_X to the owner of the record before. -/
  | forwardX (owner : Nat)
  /-- The home's own write: WR or ATOM of the request. -/
  | ownWrite
  /-- The home's own read (BR). -/
  | ownRead
  /-- Recovery of a line of a dead owner (R184). -/
  | recover
  /-- Recall of an unverified line, then serve the request (R379). -/
  | reserve
  /-- Recall of a line for a SEAL, and for an image or a key set, which discards the data (R74, R347, R356). -/
  | recall | discard
deriving DecidableEq, Repr, Inhabited

/-- A message the home owes an agent, sent when its open snoop is answered (R180). -/
structure OwedCmp where
  agent : Nat
  svc : Service
deriving DecidableEq, Repr, Inhabited

/-- An open transaction (R172, R179 to R181). -/
structure Txn where
  id : Nat
  half : Nat
  part : Nat
  /-- The line: its pool address, or the name of a line of a page that is withdrawn (R294). -/
  line : Nat
  /-- The pool address its messages carry. -/
  pool : Nat
  busy : Busy
  step : CohStep
  /-- The request served; none for a recovery. -/
  job : Option LineJob
  /-- The requester's agent index, when it is a caching agent. -/
  agent : Option Nat
  /-- Agents whose snoop answer is outstanding, and the forwarder. -/
  pend : List Nat
  fwd : Option Nat
  /-- SEQ of the snoops sent, and the internal address a home snoop carries (R174). -/
  seq : Nat
  aux : Nat
  /-- The record as it stood before the request. -/
  before : DirEntry
  /-- Whether a snoop has been sent (R304). -/
  snooped : Bool
  /-- The grant has been sent and is X (R184). -/
  grantX : Bool
  queued : List LineJob
  owed : List OwedCmp
  /-- The frame since which it waits (R181). -/
  since : Nat
  stalled : Bool
deriving DecidableEq, Repr, Inhabited

/-- Counters of one half (R186). -/
structure CohHalf where
  peak : Nat := 0
  hit : Nat := 0
  miss : Nat := 0
  retrySet : Nat := 0
  retryTxn : Nat := 0
  proto : Nat := 0
  poisoned : Nat := 0
  /-- Bit n: bank n short of a way, and bank n's spare way in service (R185). -/
  lost : Nat := 0
  grafted : Nat := 0
deriving DecidableEq, Repr, Inhabited

/-- A PUBLISH, FLUSH or twin publish that waits for its release (R192 to R194, R372). -/
structure PubWait where
  svc : Service
  half : Nat
  unit : Nat
  publish : Bool
  /-- It holds a transaction-table entry (R172, R194, R363). -/
  entry : Bool
deriving DecidableEq, Repr, Inhabited

/-- A publish unit's version and publisher (R189). -/
structure Version where
  v : Nat := 0
  host : Bool := false
  req : Nat := 0
deriving DecidableEq, Repr, Inhabited

/-- The coherence block, directory and publish tables (R165 to R201). -/
structure Coh where
  /-- COH_CFG.STO (R186). -/
  sto : Nat := 0x40
  /-- Entries by line / 64. A line of a hedge page that no unit maps is named by 2^52 + partition × 2^47 + its address in
  the root hedge (R169, R293). -/
  dir : Tbl DirEntry := []
  /-- Directory cache: by half × 131,072 + set, the lines held, each with its way, 16 for the bank's spare, most recently
  used first (R171, R185). -/
  cache : Tbl (List (Nat × Nat)) := []
  /-- Ways pruned in each bank, bit 16 its spare, by half × 16 + bank (R185). -/
  waysPruned : Tbl Nat := []
  /-- Corrected errors of a way in the window, by (half × 16 + bank) × 32 + way (R185). -/
  wayErrs : Tbl Nat := []
  txns : List Txn := []
  /-- Pieces of requests in service that have ended (R22, R23). -/
  gathered : List Gathered := []
  nextTxn : Nat := 0
  /-- Recoveries that wait for a transaction entry, as (partition, line, dead agent) (R184). -/
  recoveries : List (Nat × Nat × Nat) := []
  /-- Lines of accepted multicast copies that wait for a transaction entry or a way, to be placed (R161, R172). -/
  placing : List LineJob := []
  /-- Lines of a fenced agent not yet treated, as (partition, line, agent) (R184). -/
  sweepLeft : List (Nat × Nat × Nat) := []
  halves : List CohHalf := [{}, {}]
  /-- Regions, as part × 256 + INDEX, every line of which a takeover marked unverified; and the lines of them verified
  since (R379). -/
  unverified : List Nat := []
  verified : List Nat := []
  /-- Versions by part × 2^26 + unit (R189). -/
  versions : Tbl Version := []
  pubWait : List PubWait := []
deriving DecidableEq, Repr, Inhabited

/-! ### Stack channels -/

/-- One bank: open row, the clks its timing rules count from, refresh debt (R206, R207, R211). -/
structure Bank where
  row : Option Nat := none
  /-- Clk of the last ACT, last column command, end of the last write data, last PRE, end of REF or RFM. -/
  actClk : Nat := 0
  colClk : Nat := 0
  rdClk : Nat := 0
  wrEnd : Nat := 0
  preClk : Nat := 0
  busyUntil : Nat := 0
  debt : Nat := 0
  /-- One more than the clk of the last accrual (R211). -/
  accrued : Nat := 0
  /-- A forced refresh is due (R212). -/
  forced : Bool := false
  /-- A neighbour refresh of this row is due (R218). -/
  rfm : Option Nat := none
  /-- Spare rows used by repair, and the rows repaired (R219). -/
  repaired : List Nat := []
  /-- Corrected errors of each row in the window (R219). -/
  rowErrs : Tbl Nat := []
  /-- The tracker: row, count, per-slot counts (R217). -/
  tracker : List (Nat × Nat × List Nat) := []
  /-- Throttled (row, slot) until the window ends, and the clk of a throttled row's last ACT (R217). -/
  throttled : List (Nat × Nat) := []
  rowActs : Tbl Nat := []
deriving DecidableEq, Repr, Inhabited

/-- A queued access of a channel (R202, R208). -/
structure ChanEntry where
  write : Bool
  block : Nat
  /-- Byte mask of the 256 B block. -/
  mask : Nat
  /-- Columns still to move. -/
  cols : List Nat
  slot : Option Nat
  since : Nat
  order : Nat
  /-- A write of part of an 8-byte word reads its column first; columns so read whose write is still to come (R208). -/
  rmw : List Nat
  held : List Nat := []
  /-- The arrival order of the newest bytes merged into a write (R208). -/
  newest : Nat := 0
  /-- Who asked for it, as the error log names it (R314). -/
  source : Nat := 0
deriving DecidableEq, Repr, Inhabited

/-- A column read at the pins whose data has not come back (R303). -/
structure ColRead where
  bank : Nat
  row : Nat
  col : Nat
  /-- SOURCE of R314. -/
  source : Nat
  /-- The clk of its command; its first beat comes tRL later (R206). -/
  clk : Nat := 0
deriving DecidableEq, Repr, Inhabited

/-- What the controller last did, for its timing rules and for a reader of the model (R206). -/
structure ChanTiming where
  /-- Clk of the last column command and its direction. -/
  colClk : Nat := 0
  lastWrite : Bool := false
  /-- Column commands of the last 128 clk, as (clk, 4 × SID + bank group) (R202). -/
  recent : List (Nat × Nat) := []
  /-- ACTs of the last 25 clk, as (clk, SID). -/
  acts : List (Nat × Nat) := []
deriving DecidableEq, Repr, Inhabited

/-- One SID (R215). -/
structure Sid where
  down : Bool := false
  idleSince : Nat := 0
  readyAt : Nat := 0
  /-- A debt of 4 ended its power-down, and its owing banks are not all refreshed yet. -/
  owing : Bool := false
deriving DecidableEq, Repr, Inhabited

/-- Counters of a channel (R223, R319). -/
structure ChanCounters where
  rhEvents : Nat := 0
  forced : Nat := 0
  peak : Nat := 0
  rd : Nat := 0
  wr : Nat := 0
  act : Nat := 0
  hit : Nat := 0
  fwd : Nat := 0
  trainRuns : Nat := 0
  trainFails : Nat := 0
  ce : Nat := 0
  ue : Nat := 0
deriving DecidableEq, Repr, Inhabited

/-- One stack channel; channel number 17 × stack + n, n = 16 for the spare (R202, R223). -/
structure Chan where
  /-- STK_STATUS.STATE: 0 TRAINING, 1 SERVING, 2 COPYING, 3 SPARE, 4 PRUNED, 5 SELF_REFRESH. -/
  state : Nat := 0
  /-- The stack reported more than 85 °C: tREFI is 4,000 clk (R211, R213). -/
  hot : Bool := false
  drain : Bool := false
  idle : Nat := 0x080
  pdn : Nat := 0x800
  age : Nat := 0x0400
  whi : Nat := 0x30
  wlo : Nat := 0x10
  prob : Nat := 0xB
  gap : Nat := 0x080
  thresh : Nat := 0x1000
  rhLast : Option Nat := none
  banks : Tbl Bank := []
  sids : List Sid := [{}, {}, {}, {}]
  timing : ChanTiming := {}
  reads : List ChanEntry := []
  writes : List ChanEntry := []
  nextOrder : Nat := 0
  inflight : List ColRead := []
  /-- The training piece of this frame's turn is due, or a failed piece is repeated (R214). -/
  trainDue : Bool := false
  trainFailed : Bool := false
  trainUntil : Nat := 0
  /-- Command/address parity errors of the window (R220). -/
  caErrs : Nat := 0
  /-- Contents readable though pruned (R220, R221). -/
  readable : Bool := true
  /-- Held in self-refresh though pruned: its contents are kept (R385, R398). -/
  asleep : Bool := false
  /-- Its contents were gone before the last fill, which covered its spare too (R221). -/
  blank : Bool := false
  /-- The slice this channel serves, for a spare in service; the copy to the spare (R49, R221). -/
  serves : Option Nat := none
  copying : Bool := false
  copied : Nat := 0
  /-- A graft takes effect at the next tick (R221). -/
  graftDue : Bool := false
  /-- Columns of the current patrol pass read, demand-scrub queue (R311). -/
  patrol : Nat := 0
  scrubQ : List (Nat × Nat × Nat) := []
  /-- Longest waits of the frame and the two queue histories, 64q + k (R104). -/
  waitR : Nat := 0
  waitW : Nat := 0
  hist : Tbl Word := []
  /-- The samples that the last tick's replaced: the new ones show from clk 1 of the frame (R87). -/
  histOld : List Word := []
  cnt : ChanCounters := {}
deriving DecidableEq, Repr, Inhabited

/-- The state of a stored 8-byte word beyond its data: the P bit and flipped stored bits (R299, R300). -/
structure WordMark where
  poison : Bool := false
  flips : Nat := 0
deriving DecidableEq, Repr, Inhabited

/-- The stack block and the DRAM contents (R17, R202 to R224, R299). -/
structure Stack where
  /-- Pending and active bank masks (R205). -/
  xmap : List Nat := [0x01041, 0x02082, 0x04104, 0x08208, 0x10410, 0x00820]
  xmapAct : List Nat := [0x01041, 0x02082, 0x04104, 0x08208, 0x10410, 0x00820]
  /-- STK_DECODE_LO/HI (R222). -/
  decode : Nat := 0
  /-- The repair log, non-volatile: (stack, channel, bank, row); and the repairs not logged (R219). -/
  repairLog : List (Nat × Nat × Nat × Nat) := []
  dropped : Nat := 0
  chans : Tbl Chan := []
  /-- DRAM data bytes: key slice × 2^33 + slice-local address. -/
  dram : List Host.Cell := []
  /-- Stored-word marks: key slice × 2^30 + word; the cells of a stack's idle or copied-to spare stand under 128 + stack. -/
  marks : Tbl WordMark := []
  /-- Slices every word of which reads marked until it is written, its contents having been lost (R221, R307). -/
  lost : List Nat := []
deriving DecidableEq, Repr, Inhabited

/-- A near word, slice × 2^17 + word of the share, as it stood before a clk's writes: stored bytes and flips (R255). -/
structure NearPrior where
  word : Nat
  bytes : List Byte
  flips : Nat
deriving DecidableEq, Repr, Inhabited

/-- An access of the other port to a near word: the first clk free of it, and whether it writes (R255, R256). -/
structure NearBusy where
  word : Nat
  free : Nat
  write : Bool
deriving DecidableEq, Repr, Inhabited

/-- The near banks: key slice × 2^20 + byte of the share; flipped stored bits by word (R254, R301). -/
structure NearBanks where
  mem : List Host.Cell := []
  flips : Tbl Nat := []
  /-- SRAM rows pruned without a spare, as row of the share: key slice × 2^10 + row (R313). -/
  lostRows : List Nat := []
  /-- The clk of the last access, and each byte that an own port wrote in it, with the logical engine (R255). -/
  clk : Nat := 0
  own : List (Nat × Nat) := []
  /-- The words written in that clk as they stood before it (R255). -/
  prior : List NearPrior := []
  /-- The accesses of the other ports that later ones to their words follow (R255, R256). -/
  busy : List NearBusy := []
  coll : List Nat := [0, 0, 0, 0, 0, 0, 0, 0]
  atoms : List Nat := [0, 0, 0, 0, 0, 0, 0, 0]
deriving DecidableEq, Repr, Inhabited

/-! ### Flash -/

/-- The granule states (R232). -/
inductive GranState where
  | zero | flash | cached | dirty | filling | writing | bad
deriving DecidableEq, Repr, Inhabited

/-- A place in flash: stripe block number and page (R227, R231). -/
structure FlashLoc where
  block : Nat
  page : Nat
deriving DecidableEq, Repr, Inhabited

/-- A granule-map entry (R231) with the bookkeeping of its frame (R233, R235). -/
structure Granule where
  st : GranState := .zero
  frame : Nat := 0
  loc : Option FlashLoc := none
  /-- Reference bit, order of becoming dirty, a write during the write-back, frame number of the fetch start. -/
  ref : Bool := false
  dirtyOrder : Nat := 0
  rewritten : Bool := false
  fetchStart : Nat := 0
  /-- The location that a fetch under way reads, which a move may have left meanwhile (R236). -/
  fetchLoc : Option FlashLoc := none
  /-- The new location of a write-back or a move in progress. -/
  next : Option FlashLoc := none
  /-- Bit i: the fetch into the frame installed the i-th 4 KiB poisoned (R241, R242). -/
  badCw : Nat := 0
deriving DecidableEq, Repr, Inhabited

/-- The stored bytes of a granule's flash copy, its poison lines, and the rest of its metadata: partition, region INDEX,
granule of the region, write stamp (R242, R308). -/
structure FlashCopy where
  bytes : List (Nat × Byte) := []
  poison : List Nat := []
  part : Nat := 0
  index : Nat := 0
  granule : Nat := 0
  stamp : Nat := 0
deriving DecidableEq, Repr, Inhabited

/-- A stripe block: 0 free, 1 open, 2 full, 3 queued for erase, 4 retired, 5 defective, 7 table; the partition that owns
it and its pages programmed (R227, R228, R237 to R244). -/
structure StripeBlock where
  st : Nat := 0
  pages : Nat := 0
  owner : Nat := 0
  erases : Nat := 0
  reads : Nat := 0
  retries : Nat := 0
  born : Nat := 0
  /-- It is being emptied; then it is retired, or erased (R237 to R239). -/
  moving : Bool := false
  retiring : Bool := false
  /-- A codeword of it needed more than RDBITS corrections, or read retry (R238). -/
  worn : Bool := false
deriving DecidableEq, Repr, Inhabited

/-- A target in use on the four channels of a group (R226, R227). -/
structure FlashGeom where
  group : Nat
  target : Nat
  luns : Nat
  blocks : Nat
  pages : Nat
  planes : Nat
deriving DecidableEq, Repr, Inhabited

/-- The ONFI commands that the flash tier's work comes to (R225). -/
inductive OnfiOp where
  | reset | readParameterPage | readId | setFeatures | getFeatures | zqCalibration
  | dccTraining | readDqTraining | writeDqTraining
  | readPage | programPage | eraseBlock | eraseBlockMultiPlane | readStatus
deriving DecidableEq, Repr, Inhabited

/-- An ONFI command given to a channel, at an address of its targets (R225, R227, R231). -/
structure OnfiIssue where
  chan : Nat
  op : OnfiOp
  loc : FlashLoc
deriving DecidableEq, Repr, Inhabited

/-- The flash block (R225 to R246). -/
structure Flash where
  hint : Nat := 0xA
  rdbits : Nat := 0x30
  rdlim : Nat := 0x64
  clean : Nat := 2
  retain : Nat := 0x2334
  spread : Nat := 0x200
  /-- Discovery has run (R228). -/
  discovered : Bool := false
  /-- Usable capacity in 2 MiB units, fixed at discovery; raw capacity in GiB (R229). -/
  usable : Nat := 0
  rawGiB : Nat := 0
  /-- Channels: 0 unused, 1 serving, 2 pruned; targets mask; LUNs (R245). -/
  chans : Tbl (Nat × Nat × Nat) := []
  /-- Targets in use, by group and chip enable. -/
  geom : List FlashGeom := []
  /-- Groups in service, bit g. -/
  groups : Nat := 0
  blocks : Tbl StripeBlock := []
  /-- The defect table, non-volatile: stripe blocks by (group, target, LUN, block) (R228, R239). -/
  defects : List (Nat × Nat × Nat × Nat) := []
  factoryBad : Nat := 0
  /-- Bit g: group g lost a channel before, and this start excludes it (R241). -/
  excluded : Nat := 0
  /-- What the channels have been given, in order (R225). -/
  issued : List OnfiIssue := []
  /-- Stripe blocks left in each group's spare reserve, and retired ones not replaced (R229, R239). -/
  reserve : Tbl Nat := []
  unreplaced : Tbl Nat := []
  /-- Granules by part × 2^32 + granule number in map order (R230). -/
  grans : Tbl Granule := []
  /-- What each page location holds: key stripe block × 4096 + page (R242). -/
  copies : Tbl FlashCopy := []
  /-- Clock hand and next dirty order of each partition (R235). -/
  hands : Tbl Nat := []
  nextDirty : Nat := 0
  nextStamp : Nat := 0
  badGrown : Nat := 0
  relocRet : Nat := 0
  relocRd : Nat := 0
  relocWl : Nat := 0
  eccUncorr : Nat := 0
  eccRetry : Nat := 0
  /-- The state last reported, for the interrupt on entry to DEGRADED (R240). -/
  degradedSeen : Bool := false
deriving DecidableEq, Repr, Inhabited

/-! ### Engines, queue pairs, translation -/

/-- One physical engine (R275 to R278). -/
structure Engine where
  /-- Logical number served; none for an idle spare or a pruned engine. -/
  logical : Option Nat := none
  pruned : Bool := false
  /-- ENG_CTRL.PRUNE has been written and its part still runs (R276). -/
  pruneDue : Bool := false
  trapped : Bool := false
  busy : Bool := false
  lead : Bool := false
  slot : Nat := 0
  trapValid : Bool := false
  trapSlot : Nat := 0
  trapWord : Nat := 0
  traps : Nat := 0
  cntPart : Nat := 0
  cntMac : Nat := 0
  cntBusy : Nat := 0
  cntFault : Nat := 0
  cntEmpty : Nat := 0
deriving DecidableEq, Repr, Inhabited

/-- One part of a command: its engine, what it ends with, the multiply-accumulates it performs, the clk it began
(R248, R278). -/
structure PartRun where
  engine : Nat
  status : Status := .ok
  mac : Nat := 0
  start : Nat := 0
  ended : Bool := false
deriving DecidableEq, Repr, Inhabited

/-- A 256 B block of an operand: its stream (0 SRCA, 1 SRCB, 2 DST), offset and length, the engine whose part it belongs
to, and the tile of that engine's stream (R248, R288). -/
structure Blk where
  stream : Nat
  off : Nat
  len : Nat
  eng : Nat
  tile : Nat
deriving DecidableEq, Repr, Inhabited

/-- A tile that has been translated: its part's engine, stream (0 SRCA, 1 SRCB, 2 DST) and number; the hedge page of
each of its units, the mapping epoch they were read under, its first pool address; the address it faulted with
(R288, R289, R294). -/
structure TileRec where
  engine : Nat
  stream : Nat
  tile : Nat
  pages : List (Nat × Nat)
  epoch : Nat
  first : Nat
  faulted : Option Nat := none
  /-- Its bytes have been asked of memory (R288). -/
  moved : Bool := false
deriving DecidableEq, Repr, Inhabited

/-- A program in progress (R273, R274). -/
structure Program where
  slot : Nat
  pc : Nat := 0
  a : List Nat := []
  c : List Nat := []
  executed : Nat := 0
deriving DecidableEq, Repr, Inhabited

/-- How far the descriptor in execution has come: not begun; reading its operands; reading the rows a GATHER names;
writing (R251, R271, R288). -/
inductive CmdPhase where
  | ready | reading | rows | writing
deriving DecidableEq, Repr, Inhabited

/-- A command in service (R249, R283). -/
structure Command where
  /-- The descriptor as taken, and the pointer value it was taken at. -/
  desc : List Word
  index : Nat
  /-- The ticket its accesses carry; tickets rise in the order commands are taken. -/
  ticket : Nat
  /-- The clk it was taken in (R283). -/
  takenAt : Nat := 0
  /-- The descriptor in execution: its own, or that of a program step; none between steps. -/
  cur : Option (List Word) := none
  phase : CmdPhase := .ready
  parts : List PartRun := []
  /-- What the descriptor in execution ends with, once executed, while its parts end. -/
  outcome : Option (Status × Nat) := none
  /-- The status its reads leave, while its writes are made (R23). -/
  failure : Option (Status × Nat) := none
  /-- Every failure that its reads met. -/
  fails : List (Status × Nat) := []
  prog : Option Program := none
  /-- Bytes written so far, in digest order (R362), and those that the descriptor in execution writes. -/
  output : List Byte := []
  out : List Byte := []
  /-- The blocks of the descriptor in execution, and its tiles translated so far. -/
  blocks : List Blk := []
  tiles : List TileRec := []
deriving DecidableEq, Repr, Inhabited

/-- A queue pair (R279 to R286, R296). -/
structure Pair where
  enable : Bool := false
  kind : Nat := 0
  size : Nat := 0
  req : Nat := 0
  ctl : Nat := 0
  cmd : Nat := 0
  cpl : Nat := 0
  /-- STATE 0 DISABLED, 1 ACTIVE, 2 HALTED, 3 DRAINING; CAUSE (R296). -/
  state : Nat := 0
  cause : Nat := 0
  /-- An accepted enable takes effect at the next tick (R281). -/
  enabling : Bool := false
  /-- RESTART takes effect from the next pass (R286). -/
  restarting : Bool := false
  cmdCi : Nat := 0
  cmdPi : Nat := 0
  cplPi : Nat := 0
  cplCi : Nat := 0
  /-- Commands up to here are eligible (R282). -/
  eligible : Nat := 0
  /-- The tick of the last frame whose pass has read the pair (R282). -/
  passed : Option Nat := none
  corr : Nat := 0
  uncorr : Nat := 0
  taken : Nat := 0
  service : Option Command := none
  /-- A completion that waits for its held ledger entry (R363). -/
  waiting : Option (Status × Nat) := none
deriving DecidableEq, Repr, Inhabited

/-- A translation entry: mapped to a hedge page, unmapped, or lost in both copies (R290, R307). -/
inductive Pte where
  | unmapped | mapped (hpage : Nat) | lost (hpage : Nat)
deriving DecidableEq, Repr, Inhabited

/-- A mapping operation in progress (R293 to R295). -/
structure XlOp where
  op : Nat
  unit : Nat
  src : Nat
  hpage : Nat
  at_ : Nat
  /-- Its ledger entry has been appended. -/
  logged : Bool
deriving DecidableEq, Repr, Inhabited

/-- A translation held in a buffer: level (0 first, 1 second, 2 request buffer, 3 prefetch slot), holder, partition,
unit, hedge page, mapping epoch (R291, R292). -/
structure Buffer where
  level : Nat
  holder : Nat
  part : Nat
  unit : Nat
  hpage : Nat
  epoch : Nat
deriving DecidableEq, Repr, Inhabited

/-- A walk outstanding (R291). -/
structure Walk where
  id : Nat
  level : Nat
  holder : Nat
  part : Nat
  unit : Nat
deriving DecidableEq, Repr, Inhabited

/-- Engines, pairs and translation, device-wide (R247 to R297). -/
structure Engines where
  eng : Tbl Engine := []
  /-- Cores whose instruction memory is being rewritten (R275). -/
  rewriting : List Nat := []
  pairs : Tbl Pair := []
  /-- Entries by part × 2^26 + unit (R290). -/
  pte : Tbl Pte := []
  buffers : List Buffer := []
  walks : List Walk := []
  nextWalk : Nat := 0
  /-- Program copies lost with their words (R307): part × 16 + slot. -/
  lostProgs : List Nat := []
  /-- Hedge pages that an entry lost in both copies held, neither free nor mapped until the next image (R307):
  part × 2^20 + page. -/
  lostPages : List Nat := []
deriving DecidableEq, Repr, Inhabited

/-! ### Partitions -/

/-- Partition states (R26). -/
inductive PState where
  | unused | active | quiesced | resetting
deriving DecidableEq, Repr, Inhabited

/-- A key set: transient, or tenant with its flags (R344). -/
structure KeySet where
  keyed : Bool := false
  fabEnc : Bool := false
  ethEnc : Bool := false
  xts : List Byte := []
  fab : List Byte := []
  eth : List Byte := []
deriving DecidableEq, Repr, Inhabited

/-- A live exchange key: which, the frame of its quote, the quote's digest (R351). -/
structure Exchange where
  keyId : Nat
  frame : Nat
  qd : Digest
deriving DecidableEq, Repr, Inhabited

/-- A ledger entry that waits for a slot, and the event behind it (R363): 0 none, 1 a command's completion (queue),
2 a mapping operation. -/
structure HeldEntry where
  bytes : List Byte
  event : Nat
  queue : Nat
deriving DecidableEq, Repr, Inhabited

/-- A ledger's chain and buffer at one point (R360, R361). -/
structure LedgerMark where
  digest : Digest := 0
  head : Nat := 0
  tail : Nat := 0
  lost : Nat := 0
  entries : Tbl (List Byte) := []
deriving DecidableEq, Repr, Inhabited

/-- A partition's ledger (R360 to R363, R366). -/
structure Ledger where
  digest : Digest := 0
  head : Nat := 0
  tail : Nat := 0
  size : Nat := 0
  entries : Tbl (List Byte) := []
  held : List HeldEntry := []
  broken : Bool := false
  lost : Nat := 0
  /-- The clk of the last entry, the entries of that clk in their order, and the chain before them (R360). -/
  clk : Nat := 0
  batch : List (List Byte) := []
  before : LedgerMark := {}
deriving DecidableEq, Repr, Inhabited

/-- The counters a partition window shows. -/
structure PartCounters where
  viol : Nat := 0
  pubOk : Nat := 0
  pubConflict : Nat := 0
  pubRetry : Nat := 0
  poisoned : Nat := 0
  cohRetry : Nat := 0
  poisonAddr : Nat := 0
  flHit : Nat := 0
  flMiss : Nat := 0
  flWb : Nat := 0
  diCe : Nat := 0
  diUe : Nat := 0
  xlMiss : Nat := 0
  xlCheck : Nat := 0
  xlTile : Nat := 0
deriving DecidableEq, Repr, Inhabited

/-- One partition (R26, R74, R166, R187, R294, R346, R364). -/
structure Partition where
  st : PState := .unused
  /-- The state it takes at the next tick (R74, R385). -/
  next : Option PState := none
  /-- Why it is quiesced: 0 not, 1 image load, 2 key set, 3 power state, 4 whole-device load; and since which frame. -/
  why : Nat := 0
  since : Nat := 0
  /-- Draining has ended and the fill runs; the queue pairs of the partition have been ended for it (R74, R347, R359). -/
  drained : Bool := false
  qpsEnded : Bool := false
  /-- The partition epoch, non-volatile (R346). -/
  epoch : Nat := 0
  mapEpoch : Nat := 0
  digest : Digest := 0
  serial : Nat := 0
  keys : KeySet := {}
  /-- A tenant key set checked by KEYSET and being installed (R347). -/
  newKeys : Option (KeySet × Digest) := none
  exch : Option Exchange := none
  ledger : Ledger := {}
  /-- Fenced and stalled agents (R184, R187); the agent being swept. -/
  fenced : Nat := 0
  stall : Nat := 0
  sweep : Option Nat := none
  xlOp : Option XlOp := none
  xlResult : Nat := 0
  /-- Send counter of K_FAB and of K_ETH (R348). -/
  fabCounter : Nat := 0
  ethCounter : Nat := 0
  cnt : PartCounters := {}
deriving DecidableEq, Repr, Inhabited

/-! ### Integrity -/

/-- The integrity block (R311 to R318). -/
structure Integrity where
  off : Bool := false
  period : Nat := 0x18
  late : Bool := false
  /-- LATE has been set for the pass under way (R311). -/
  lateSeen : Bool := false
  passes : Nat := 0
  /-- The frame the current patrol pass began in, and whether every channel has finished it (R311). -/
  passStart : Nat := 0
  passDone : Bool := false
  fillBusy : Bool := false
  fillStart : Nat := 0
  fillFrames : Nat := 0
  ce : Nat := 0
  ueDram : Nat := 0
  uePath : Nat := 0
  sramCe : Nat := 0
  sramUe : Nat := 0
  parCfg : Nat := 0
  parImem : Nat := 0
  poison : Nat := 0
  demandDropped : Nat := 0
  demandDone : Nat := 0
  logTotal : Nat := 0
  logHead : Nat := 0xFF
  /-- Log entries: six words by index (R315). -/
  log : Tbl (List Word) := []
  faultStatus : Nat := 0
  faultMask : Nat := 0xA4
  injArm : Bool := false
  injBits : Nat := 0
  injStack : Nat := 0
  injChan : Nat := 0
  rowsGrafted : Nat := 0
  rowsLost : Nat := 0
  /-- Corrected errors of SRAM rows in the window, by row: 2^10 × slice + row of the share for a near bank, from 2^17 up
  for the line caches; 256 rows make an array. Spare rows used, by array; rows pruned and waiting for a graft (R313). -/
  rowErrs : Tbl Nat := []
  rowSpares : Tbl Nat := []
  rowDue : List Nat := []
  /-- The management interrupt has been raised (R181, R240, R316, R377). -/
  irq : Bool := false
deriving DecidableEq, Repr, Inhabited

/-! ### Ethernet -/

/-- A control answer of a queue pair: PSN it was sent with, its 32 bytes, times sent again (R332). -/
structure CtrlAnswer where
  psn : Nat
  bytes : List Byte
  retries : Nat
  rnrRetries : Nat
  /-- Waiting out an RNR NAK (R332). -/
  rnrWait : Bool
  /-- HEADROOM's code of its request's charge (R106); PSN of that request; whether it has left (R192). -/
  taken : Option Nat := none
  asker : Nat := 0
  sent : Bool := true
deriving DecidableEq, Repr, Inhabited

/-- A request of a queue pair that owes a response on the wire (R326): its PSN, HEADROOM's code of its charge (R106), its
response once it is known; whether the response is an RNR NAK after which it is expected again, the CAUSE of a fatal NAK,
and whether it takes a responder resource. -/
structure OwedResp where
  psn : Nat
  taken : Option Nat := none
  known : Option (List RocePacket) := none
  again : Bool := false
  fatal : Option Nat := none
  slot : Bool := false
deriving DecidableEq, Repr, Inhabited

/-- A control request that owes its answer: its PSN, HEADROOM's code of its charge, the answer once it is known (R332). -/
structure OwedAnswer where
  psn : Nat
  taken : Option Nat := none
  known : Option (List Byte) := none
deriving DecidableEq, Repr, Inhabited

/-- A data queue pair, or the management queue pair at index 4,096 (R323 to R337). -/
structure Qp where
  /-- 0 RESET, 1 RTS, 2 ERROR. -/
  state : Nat := 0
  port : Nat := 0
  mtu : Nat := 2
  part : Nat := 0
  rnrRetry : Nat := 7
  retry : Nat := 7
  host : Nat := 0
  dqpn : Nat := 0
  rpsn : Nat := 0
  spsn : Nat := 0
  ip : List Word := [0, 0, 0, 0]
  macLo : Word := 0
  macHi : Word := 0
  cause : Nat := 0
  rnr : Nat := 0
  seqErr : Nat := 0
  /-- Expected receive PSN, next send PSN, whether this gap has had its NAK (R331). -/
  epsn : Nat := 0
  npsn : Nat := 0
  gap : Bool := false
  /-- READs and atomics outstanding (R326); results of the last 16 atomics, by PSN (R331). -/
  outstanding : Nat := 0
  saved : List (Nat × Nat) := []
  /-- The running message: 0 none, 1 WRITE, 2 SEND; a WRITE's next address, R_Key and bytes left; a SEND's bytes. -/
  msg : Nat := 0
  wrAddr : Nat := 0
  wrKey : Nat := 0
  wrLeft : Nat := 0
  sendBytes : List Byte := []
  answers : List CtrlAnswer := []
  /-- Control requests taken, in order, each with its answer once it is known: answers leave in that order (R332). -/
  asked : List OwedAnswer := []
  /-- Atomics that ended without a response, by PSN: their reissue is served (R330). -/
  redo : List Nat := []
  /-- WRITE and SEND packets that an RNR NAK asks for again after their admission, by PSN: their reissue is executed, what
  followed them is a duplicate (R330, R331). -/
  again : List (Nat × Packet) := []
  /-- Requests taken and not yet answered on the wire, in PSN order: responses leave in that order (R326). -/
  order : List OwedResp := []
  /-- How often it has been RESET: the model's own field. What came before a RESET is discarded (R324). -/
  life : Nat := 0
deriving DecidableEq, Repr, Inhabited

/-- An Ethernet port (R336). -/
structure EthPort where
  state : Nat := 0
  phy : Nat := 0
  fcs : Nat := 0
  other : Nat := 0
deriving DecidableEq, Repr, Inhabited

/-- The Ethernet block (R321 to R337). -/
structure Eth where
  ports : List EthPort := [{}, {}, {}, {}]
  /-- ETH_IP_0 to _63 (R336). -/
  ip : Tbl Word := []
  qps : Tbl Qp := []
  /-- A run-time image has torn every data queue pair down: one that is not listed stands so (R77, R324). -/
  torn : Bool := false
  /-- Datagrams kept by R322 and not yet handled, with their port and the clk of their arrival. -/
  kept : List ((Nat × Nat) × RocePacket) := []
deriving DecidableEq, Repr, Inhabited

/-! ### Trust -/

/-- A firmware slot as staged or running: measurement, SVN, slot (R357). -/
structure Firmware where
  measure : Digest := 0
  svn : Nat := 0
  slot : Nat := 0
deriving DecidableEq, Repr, Inhabited

/-- A SEAL in progress (R356). -/
structure SealOp where
  part : Nat
  index : Nat
  length : Nat
  plainDigest : Digest
  envelope : Digest
  weightKey : List Byte
deriving DecidableEq, Repr, Inhabited

/-- The attestation unit and SEC registers (R339 to R365). -/
structure Security where
  cmdIndex : Nat := 0
  cmdDev : Bool := false
  cmdPart : Nat := 0
  cmdOp : Nat := 0
  busy : Bool := false
  code : Nat := 0
  op : Nat := 0
  tagErr : Nat := 0
  /-- Owner-command counter, non-volatile (R342). -/
  owcCount : Nat := 0
  /-- The management key, non-volatile (R343), and the packets sent under it this boot. -/
  mgmtKey : Option (List Byte) := none
  mgmtCounter : Nat := 0
  /-- The quote being signed: body and exchange key (R351). -/
  quoting : Option (List Byte × Option Nat) := none
  sealing : Option SealOp := none
  nextKey : Nat := 0
  /-- The device reserve key, drawn at each start (R345, R409). -/
  reserveKey : List Byte := []
  /-- Firmware: committed (non-volatile), running, staged; activation pending since; floor and words left
  (non-volatile) (R357, R358). -/
  committed : Firmware := {}
  running : Firmware := {}
  staged : Option Firmware := none
  pendingSince : Option Nat := none
  rollback : Bool := false
  fwFloor : Nat := 0
  fwLeft : Nat := 64
deriving DecidableEq, Repr, Inhabited

/-! ### Twinning and failure -/

/-- A request a follower holds, or a shadow, with its frame (R371, R374). -/
structure HeldReq where
  svc : Service
  since : Nat
  shadow : Bool
  half : Nat
  /-- Its release has held (R372). -/
  ended : Bool
deriving DecidableEq, Repr, Inhabited

/-- A twin packet the leader has sent and the answers it holds back for it (R373). -/
structure TwinOut where
  id : Nat
  seq : Nat
  addr : Nat
  region : Nat
  since : Nat
deriving DecidableEq, Repr, Inhabited

/-- An answer the leader holds back, and the twin packets it waits for (R373). -/
structure HeldAnswer where
  svc : Service
  answer : Ans
  waits : List Nat
deriving DecidableEq, Repr, Inhabited

/-- A request of RESYNC's copy: an ACQUIRE of a unit's version, or an RD of bytes (R381). -/
structure CopyReq where
  seq : Nat
  addr : Nat
  len : Nat
  version : Bool
deriving DecidableEq, Repr, Inhabited

/-- The twin and failure block (R367 to R390). -/
structure Twin where
  /-- 0 OFF, 1 SEEKING, 2 RESYNC, 3 PAIRED, 4 ALONE, 5 MISMATCH (R369). -/
  state : Nat := 0
  /-- The driver holds TWN_LEAD low; the line as last read (R378). -/
  drives : Bool := false
  lineHigh : Bool := true
  /-- Ticks at which the line has read high in a row, to 4. -/
  highTicks : Nat := 0
  /-- RELEASE has been written: the line rises at the next tick (R378). -/
  releasing : Bool := false
  /-- Frames in a row that ended without a heartbeat, to 3; frames since the last valid burst, to 48; a heartbeat heard in
  this frame; whether each path hears the peer, as FAB and HB show (R377, R390). -/
  fabSilent : Nat := 0
  hbSilent : Nat := 0
  heardNow : Bool := false
  fabUp : Bool := false
  hbUp : Bool := false
  declared : Bool := false
  pstate : Nat := 0
  plead : Bool := false
  geom : Nat := 0
  peerGeom : Nat := 0
  shadow : Nat := 0x40
  ackto : Nat := 0x08
  copyRate : Nat := 0x0640
  fabMiss : Nat := 0
  holdFull : Nat := 0
  takeovers : Nat := 0
  fails : Nat := 0
  /-- The copy of RESYNC: running; the requests of it already sent, versions first; the bytes landed; this frame's units
  spent; whether it has ended and the next tick makes the follower PAIRED (R381). -/
  copyBusy : Bool := false
  copyNext : Nat := 0
  copyDone : Nat := 0
  copyUnits : Nat := 0
  copyEnded : Bool := false
  /-- Copy requests outstanding; mirror writes held for them (R381). -/
  copyOut : List CopyReq := []
  copyHeld : List Sunk := []
  /-- The follower's held requests and shadows (R371, R374), its twin entries (R372), and the SEQs of the PUBLISHes to
  twinned regions that it has ended without holding them, while they concern a twin publish (R372). -/
  held : List HeldReq := []
  entries : List Sunk := []
  turnedAway : List Nat := []
  /-- The leader's unanswered twin packets and held-back answers (R373). -/
  sent : List TwinOut := []
  nextTwin : Nat := 0
  /-- Twin packets that wait for one of the 2,048 to be answered (R372). -/
  toSend : List (TwinOut × Packet) := []
  answers : List HeldAnswer := []
  /-- The fence table: entry n is (HOST, REQ) (R382). -/
  fences : Tbl (Option (Bool × Nat)) := []
  /-- Fences that take effect at the next tick (R382). -/
  fenceDue : List (Bool × Nat) := []
  /-- Requesters fenced now. -/
  fenced : List (Bool × Nat) := []
  /-- Partial reset: RST_CTRL fields, BUSY, frame of the write, whether cancelled, last KIND and PART (R384 to R390). -/
  rstKind : Nat := 0
  rstPart : Nat := 0
  rstBusy : Bool := false
  rstFrame : Nat := 0
  rstCancelled : Bool := false
  rstLastKind : Nat := 0
  rstLastPart : Nat := 0
  rstCount : Nat := 0
  /-- Watchdog (R389). -/
  wdtEn : Bool := true
  wdtTimeout : Nat := 0x0400
  wdtCount : Nat := 0
  wdtArmed : Bool := false
  wdtHeld : Bool := false
  wdtRestarts : Nat := 0
  wdtFires : Nat := 0
deriving DecidableEq, Repr, Inhabited

/-! ### Power and pins -/

/-- The stage of the start (R393): off; rails up and waiting for t1; filling; serving; held off after overvoltage;
tripped. -/
inductive Stage where
  | off | waiting | filling | serving | overvolt | tripped
deriving DecidableEq, Repr, Inhabited

/-- What starts the device (R393 to R395, R401): VIN56, RST_N, a run-time whole-device load, leaving D3. -/
inductive StartKind where
  | cold | rstN | warm | d3
deriving DecidableEq, Repr, Inhabited

/-- The power block, the start and the pins (R391 to R413). -/
structure Power where
  stage : Stage := .off
  /-- RST_N as last driven; its resting level is low (R408). REFCLK stable for 1 ms. -/
  rstHigh : Bool := false
  refclk : Bool := false
  /-- The start under way. -/
  start : StartKind := .cold
  target : Nat := 0
  state : Nat := 0
  busy : Bool := false
  /-- The state a transition moves to, once one runs. -/
  moving : Nat := 0
  /-- Frames without a command in service, to 16; 17 once a write has asked for D1 (R399). -/
  d1Idle : Nat := 0
  throttle : Bool := false
  stackThrottle : List Bool := [false, false, false, false, false, false, false, false]
  lastRst : Nat := 0
  /-- Events kept in non-volatile storage for the next cold power-on (R392, R397). -/
  tripRecord : Bool := false
  voltRecord : Bool := false
  vin : Nat := 0
  amp : Nat := 0
  deciWatt : Nat := 0
  tempNow : List Int := [0, 0, 0, 0, 0, 0, 0, 0, 0, 0]
  tempPeak : List Int := [0, 0, 0, 0, 0, 0, 0, 0, 0, 0]
  warn : Nat := 0x5F
  thermThrottle : Nat := 0x64
  stThrottle : Nat := 0x5A
  /-- PWR_FAULT and PWR_FAULT_MASK (R412). -/
  fault : Nat := 0
  alertMask : Nat := 0x1F
  faultMask : Nat := 0x1C
  pecErr : Nat := 0
  /-- SMBus address straps, read offset, and whether the alert has been answered (R402 to R405). -/
  straps : Nat := 0
  smbOffset : Nat := 0
  alertAnswered : Bool := false
  /-- Waking from D3 (R404). -/
  waking : Bool := false
  tripLow : Bool := false
  /-- Training outcomes reported for the start under way: channels that failed (R214, R309). -/
  untrained : List Nat := []
deriving DecidableEq, Repr, Inhabited

/-! ### Outputs -/

/-- Where a queue pair's frames go: the next-hop MAC, PCP and VID of an 802.1Q tag, the peer's address (R322, R337). -/
structure NextHop where
  mac : Nat
  tag : Option (Nat × Nat)
  ip : Nat
deriving DecidableEq, Repr, Inhabited

/-- What has left the device, in order (log entry 8). -/
inductive Output where
  /-- A FEC block on a port: its header, its flits, and the symbols each physical lane carries of it (R115, R116). -/
  | block (port bht bseq : Nat) (flits : List Flit) (lanes : List (Nat × List Nat))
  /-- A packet handed to a port's output, whose bytes travel in its flits. -/
  | packet (port : Nat) (pkt : Packet)
  /-- The frame hint that the RETRY answering (node, SEQ) carries: the header names no field for it (log entry 10). -/
  | retryHint (node : Nat) (seq : Nat) (hint : Nat)
  /-- A RoCE packet on an Ethernet port: the frame's destination, the bytes of its BTH, its packet, and the LOAD and
  HEADROOM that the BTH carries (R322, R333, R337). -/
  | roce (port : Nat) (hop : NextHop) (bth : List Byte) (pkt : RocePacket) (load headroom : Nat)
  /-- An answer to an ARP request or a neighbour solicitation. -/
  | neighbour (port : Nat) (target : BitVec 128)
  /-- SMBus: the bytes returned with the packet error code that follows them when the host clocks it, or a NACK (R402,
  R403). -/
  | smbus (bytes : List Byte) (pec : Byte)
  | smbNack
  /-- A sideband burst (R376). -/
  | burst (b : Burst)
deriving DecidableEq, Repr, Inhabited

/-- The machine. -/
structure State where
  mgmt : Mgmt
  img : ImgState
  parts : Tbl Partition
  flows : Tbl Flow
  td : Traffic
  ports : Tbl Port
  fab : Fabric
  coh : Coh
  stk : Stack
  near : NearBanks
  fl : Flash
  eng : Engines
  di : Integrity
  eth : Eth
  sec : Security
  twn : Twin
  pwr : Power
  /-- The staging window and the security mailbox (R415). -/
  staging : List Host.Cell
  mailbox : List Host.Cell
  /-- Requests admitted and in service; the next ticket (R92). -/
  svc : List Service
  nextTicket : Nat
  out : List Output
  /-- How many free values have been taken: the model's own field (log entry 2). -/
  free : Nat
  /-- The clk, plus one, at which hardware last set each write-1-to-clear bit (R11): 0 to 2 SYS_ACCERR of a path, 3
  IMG_REFUSED, 4 HOLD, 5 LATE, 6 ROLLBACK, 8 to 12 PWR_FAULT, 16 on DI_FAULT_STATUS, 1,024 on STALL by partition and
  agent. -/
  flagSet : Tbl Nat
  /-- The commands waiting, first in first out. -/
  pending : List Instr
deriving DecidableEq, Repr

/-- Why the device stops with a fault. Nothing in the spec stops the device: loss of power, reset and thermal trip are
states (R392, R394, R397), and every request ends with a status of R13. So no constructor exists: safe. -/
inductive Fault where
deriving DecidableEq, Repr

/-- Why a command has no meaning. -/
inductive Refusal where
  /-- Raised by `exec` alone for a command not modelled yet; safe, since nothing is claimed of it. -/
  | notModelled (mnemonic : String)
deriving DecidableEq, Repr

/-- The machine before its first cold power-on: VIN56 absent, RST_N at its resting low level, every register at its
reset value, every memory unlisted (R393, R408). -/
def State.reset : State :=
  { mgmt := {}, img := {}, parts := [], flows := [], td := {}, ports := [], fab := {}, coh := {}, stk := {},
    near := {}, fl := {}, eng := {}, di := {}, eth := {}, sec := {}, twn := {}, pwr := {}, staging := [],
    mailbox := [], svc := [], nextTicket := 0, out := [], free := 0, flagSet := [], pending := [] }

end Sys2Proof.Machine
end

