-- ==== Sys2Proof/Machine/Ops.lean ====
section
/-! DEFINITION. Named operations over the state: entries of its tables, time, structure, the address path of a pool
address, DRAM and near-bank words with their codes, and the error log. -/

namespace Sys2Proof.Machine

/-! ### Entries -/

/-- A channel before its training (R223). -/
def chanDefault (_ : Nat) : Chan := {}

/-- Engines 0 to 255 serve their own number; spares 256 to 271 stand idle (R6, R278). -/
def engDefault (e : Nat) : Engine := { logical := if e < 256 then some e else none }

def partGet (s : State) (p : Nat) : Partition := tblGet (fun _ => {}) s.parts p
def partSet (s : State) (p : Nat) (x : Partition) : State := { s with parts := tblSet (fun _ => {}) s.parts p x }
def partMod (s : State) (p : Nat) (f : Partition → Partition) : State := partSet s p (f (partGet s p))
def flowGet (s : State) (k : Nat) : Flow := tblGet (fun _ => {}) s.flows k
def flowSet (s : State) (k : Nat) (x : Flow) : State := { s with flows := tblSet (fun _ => {}) s.flows k x }
def flowMod (s : State) (k : Nat) (f : Flow → Flow) : State := flowSet s k (f (flowGet s k))
def portGet (s : State) (p : Nat) : Port := tblGet (fun _ => {}) s.ports p
def portSet (s : State) (p : Nat) (x : Port) : State := { s with ports := tblSet (fun _ => {}) s.ports p x }
def portMod (s : State) (p : Nat) (f : Port → Port) : State := portSet s p (f (portGet s p))
def chanGet (s : State) (c : Nat) : Chan := tblGet chanDefault s.stk.chans c
def chanSet (s : State) (c : Nat) (x : Chan) : State :=
  { s with stk := { s.stk with chans := tblSet chanDefault s.stk.chans c x } }
def chanMod (s : State) (c : Nat) (f : Chan → Chan) : State := chanSet s c (f (chanGet s c))
def bankGet (c : Chan) (b : Nat) : Bank := tblGet (fun _ => {}) c.banks b
def bankSet (c : Chan) (b : Nat) (x : Bank) : Chan := { c with banks := tblSet (fun _ => {}) c.banks b x }
def bankMod (c : Chan) (b : Nat) (f : Bank → Bank) : Chan := bankSet c b (f (bankGet c b))
def engGet (s : State) (e : Nat) : Engine := tblGet engDefault s.eng.eng e
def engSet (s : State) (e : Nat) (x : Engine) : State :=
  { s with eng := { s.eng with eng := tblSet engDefault s.eng.eng e x } }
def engMod (s : State) (e : Nat) (f : Engine → Engine) : State := engSet s e (f (engGet s e))
/-- Pair q of partition p (R279). -/
def pairGet (s : State) (p q : Nat) : Pair := tblGet (fun _ => {}) s.eng.pairs (64 * p + q)
def pairSet (s : State) (p q : Nat) (x : Pair) : State :=
  { s with eng := { s.eng with pairs := tblSet (fun _ => {}) s.eng.pairs (64 * p + q) x } }
def pairMod (s : State) (p q : Nat) (f : Pair → Pair) : State := pairSet s p q (f (pairGet s p q))
/-- A queue pair that an image has torn down: in RESET with CAUSE IMAGE, its registers zero (R324). -/
def tornQp : Qp := { mtu := 0, rnrRetry := 0, retry := 0, cause := 4 }

/-- A queue pair that nothing has written since the start, or since an image tore the data queue pairs down (R77). -/
def qpDefault (torn : Bool) (q : Nat) : Qp := if torn && decide (q < 4096) then tornQp else {}
def qpGet (s : State) (q : Nat) : Qp := tblGet (qpDefault s.eth.torn) s.eth.qps q
def qpSet (s : State) (q : Nat) (x : Qp) : State :=
  { s with eth := { s.eth with qps := tblSet (qpDefault s.eth.torn) s.eth.qps q x } }
def qpMod (s : State) (q : Nat) (f : Qp → Qp) : State := qpSet s q (f (qpGet s q))
/-- Granule n of partition p (R230, R231). -/
def granGet (s : State) (p n : Nat) : Granule := tblGet (fun _ => {}) s.fl.grans (p * 2 ^ 32 + n)
def blockGet (s : State) (b : Nat) : StripeBlock := tblGet (fun _ => {}) s.fl.blocks b
def blockSet (s : State) (b : Nat) (x : StripeBlock) : State :=
  { s with fl := { s.fl with blocks := tblSet (fun _ => {}) s.fl.blocks b x } }
def blockMod (s : State) (b : Nat) (f : StripeBlock → StripeBlock) : State := blockSet s b (f (blockGet s b))
/-- Translation entry of unit u of partition p (R290). -/
def pteGet (s : State) (p u : Nat) : Pte := tblGet (fun _ => .unmapped) s.eng.pte (p * 2 ^ 26 + u)
def pteSet (s : State) (p u : Nat) (x : Pte) : State :=
  { s with eng := { s.eng with pte := tblSet (fun _ => .unmapped) s.eng.pte (p * 2 ^ 26 + u) x } }
/-- Version of unit u of partition p (R189). -/
def versionGet (s : State) (p u : Nat) : Version := tblGet (fun _ => {}) s.coh.versions (p * 2 ^ 26 + u)
def versionSet (s : State) (p u : Nat) (x : Version) : State :=
  { s with coh := { s.coh with versions := tblSet (fun _ => {}) s.coh.versions (p * 2 ^ 26 + u) x } }

def partCnt (s : State) (p : Nat) (f : PartCounters → PartCounters) : State :=
  partMod s p (fun x => { x with cnt := f x.cnt })
def portCnt (s : State) (p : Nat) (f : KxCounters → KxCounters) : State :=
  portMod s p (fun x => { x with cnt := f x.cnt })
def emit (s : State) (o : Output) : State := { s with out := s.out ++ [o] }

/-- Saturating and wrapping increments (R318, R223, R140). -/
def sat8 (n : Nat) : Nat := satTo 8 (n + 1)
def sat16 (n : Nat) : Nat := satTo 16 (n + 1)
def wrap16 (n : Nat) : Nat := wrapTo 16 (n + 1)
def wrap32 (n : Nat) : Nat := wrapTo 32 (n + 1)
def sat16by (n k : Nat) : Nat := satTo 16 (n + k)
def wrap32by (n k : Nat) : Nat := wrapTo 32 (n + k)

/-- Take a value the spec leaves open: nothing constrains it (log entry 2). -/
def drawFree (s : State) : Nat × State := (Config.freeNat s.free, { s with free := s.free + 1 })

/-- `n` bytes the spec leaves undefined (log entry 2). -/
def drawBytes (s : State) (n : Nat) : List Byte × State :=
  ((List.range n).map (fun i => Config.freeByte s.free i), { s with free := s.free + 1 })

/-! ### Status codes (R13, R14) -/

def statusCode : Status → Nat
  | .ok => 0 | .empty => 1 | .retry => 2 | .conflict => 3 | .collided => 4 | .resetting => 5 | .quiesced => 6
  | .fenced => 7 | .poison => 8 | .fault => 9 | .halted => 10

/-- A status as received: a reserved code counts as FAULT (R14). -/
def statusOf (n : Nat) : Status :=
  match n with
  | 0 => .ok | 1 => .empty | 2 => .retry | 3 => .conflict | 4 => .collided | 5 => .resetting | 6 => .quiesced
  | 7 => .fenced | 8 => .poison | 9 => .fault | 10 => .halted | _ => .fault

/-! ### Time (R83, R96, R108) -/

/-- Clk since the last tick. -/
def subOf (s : State) (clk : Nat) : Nat := clk - s.td.tickClk

/-- Frame number, in powered time. -/
def frameOf (s : State) : Nat := s.td.ptime

/-- Calendar slot of a clk: 128 clk each, 64 in a frame; a stretched frame stays in slot 63 (R96). -/
def slotOf (s : State) (clk : Nat) : Nat := min 63 (subOf s clk / 128)

/-- Absolute frame slot: 64 × frame + slot. -/
def absSlot (s : State) (clk : Nat) : Nat := 64 * frameOf s + slotOf s clk

/-- The clk an event falls in becomes the device's last seen clk. -/
def seenClk (s : State) (clk : Nat) : State := { s with td := { s.td with now := max s.td.now clk } }

/-- The SerDes, Ethernet and flash I/O have their rails: in D2 and D3 they are off (R398, R400). -/
def ioOn (s : State) : Bool := s.pwr.state ≤ 1

/-! ### Write-1-to-clear bits (R11) -/

/-- Hardware sets bits in this clk. -/
def noteFlags (s : State) (ids : List Nat) : State :=
  { s with flagSet := ids.foldl (fun t i => tblSet (fun _ => 0) t i (s.td.now + 1)) s.flagSet }

/-- Hardware has set a bit in this clk: a write that clears it leaves it set. -/
def setNow (s : State) (id : Nat) : Bool := decide (tblGet (fun _ => 0) s.flagSet id = s.td.now + 1)

/-- A write of 1 to a single bit clears it. -/
def clears (s : State) (id : Nat) (bit : Bool) : Bool := bit && !setNow s id

/-- The bits that a write clears of a field whose bit b is flag base + b. -/
def clearMask (s : State) (base : Nat) (v : Nat) : Nat :=
  maskOf ((List.range 16).filter (fun b => v.testBit b && !setNow s (base + b)))

/-! ### Structure (R17 to R21, R26 to R35) -/

/-- 2 MiB units of a slice before its reserve is taken (R17). -/
def sliceUnits : Nat := 2304

/-- Reserve of a slice in 2 MiB units; 0 without a record (R56). -/
def reserveOf (l : Layout) (sl : Nat) : Nat := (tblFind l.slices sl).getD 0

def hedgeRec (l : Layout) (h : Nat) : Option HedgeRec := l.hedges.find? (fun r => r.hedge == h)
def partRecOf (l : Layout) (p : Nat) : Option PartRec := l.parts.find? (fun r => r.part == p)
def regionsOf (l : Layout) (p : Nat) : List RegionRec := l.regions.filter (fun r => r.part == p)

/-- The hedge that has the member, if any (R19). -/
def parentOf (l : Layout) (m : Bool × Nat) : Option Nat :=
  (l.hedges.find? (fun r => r.members.contains m)).map (·.hedge)

/-- Usable capacity of a member in 2 MiB units, following at most `fuel` hedges down (R17, R21). -/
def memberCap (l : Layout) : Nat → Bool × Nat → Nat
  | _, (false, sl) => sliceUnits - reserveOf l sl
  | 0, (true, _) => 0
  | fuel + 1, (true, h) =>
    match hedgeRec l h with
    | none => 0
    | some r => sumNat (r.members.map (memberCap l fuel))

/-- Slices beneath a member in local slice order (R21). -/
def memberSlices (l : Layout) : Nat → Bool × Nat → List Nat
  | _, (false, sl) => [sl]
  | 0, (true, _) => []
  | fuel + 1, (true, h) =>
    match hedgeRec l h with
    | none => []
    | some r => (r.members.map (memberSlices l fuel)).flatten

/-- Depth of a member: a slice 0, a hedge of slices 1 (R19). -/
def memberDepth (l : Layout) : Nat → Bool × Nat → Nat
  | _, (false, _) => 0
  | 0, (true, _) => 0
  | fuel + 1, (true, h) =>
    match hedgeRec l h with
    | none => 0
    | some r => 1 + (r.members.map (memberDepth l fuel)).foldl max 0

/-- At most 64 descriptors, so 65 steps reach every slice (R19). -/
def hedgeFuel : Nat := 65

def hedgeCap (l : Layout) (h : Nat) : Nat := memberCap l hedgeFuel (true, h)
def hedgeSlices (l : Layout) (h : Nat) : List Nat := memberSlices l hedgeFuel (true, h)
def hedgeDepth (l : Layout) (h : Nat) : Nat := memberDepth l hedgeFuel (true, h)

/-- The granule of a mode; 0 for concatenate (R20, R46). -/
def modeGranule (mode : Nat) : Nat :=
  match mode with
  | 1 => 256 | 2 => 4096 | 3 => 65536 | 4 => 2097152 | _ => 0

/-- The member of a concatenated hedge that holds address `a`, with the address in it (R20). -/
def concatPlace (caps : List Nat) (a i : Nat) : Option (Nat × Nat) :=
  match caps with
  | [] => none
  | c :: cs => if a < c then some (i, a) else concatPlace cs (a - c) (i + 1)

/-- One application of R20: the member number and the address in it. -/
def placeInHedge (r : HedgeRec) (caps : List Nat) (a : Nat) : Option (Nat × Nat) :=
  let g := modeGranule r.mode
  let m := r.members.length
  if g = 0 then concatPlace caps a 0
  else if m = 0 then none
  else some (a / g % m, a / (g * m) * g + a % g)

/-- R20 applied from a member downward until it reaches a slice: the slice and its local address. -/
def placeDown (l : Layout) : Nat → Bool × Nat → Nat → Option (Nat × Nat)
  | _, (false, sl), a => some (sl, a)
  | 0, (true, _), _ => none
  | fuel + 1, (true, h), a =>
    match hedgeRec l h with
    | none => none
    | some r =>
      match placeInHedge r (r.members.map (fun m => 2097152 * memberCap l fuel m)) a with
      | none => none
      | some (i, a') => placeDown l fuel (r.members.getD i (false, 0)) a'

/-- The slice and local address of a root-hedge address (R20). -/
def hedgePlace (l : Layout) (root a : Nat) : Option (Nat × Nat) := placeDown l hedgeFuel (true, root) a

/-- The address in the parent hedge of address `a` of its member `i` (R20 run upward). -/
def addressUp (r : HedgeRec) (caps : List Nat) (i a : Nat) : Nat :=
  let g := modeGranule r.mode
  if g = 0 then sumNat (caps.take i) + a
  else (a / g * r.members.length + i) * g + a % g

/-- R20 run upward from a member to its root hedge: the root and the address in it. -/
def placeUp (l : Layout) : Nat → Bool × Nat → Nat → Option (Nat × Nat)
  | 0, _, _ => none
  | fuel + 1, m, a =>
    match l.hedges.find? (fun r => r.members.contains m) with
    | none => match m with
      | (true, h) => some (h, a)
      | (false, _) => none
    | some r =>
      let caps := r.members.map (fun x => 2097152 * memberCap l hedgeFuel x)
      placeUp l fuel (true, r.hedge) (addressUp r caps (r.members.findIdx (· == m)) a)

/-- Slices of a partition in local slice order; none without a PARTITIONS record (R27). -/
def partSlices (l : Layout) (p : Nat) : List Nat :=
  match partRecOf l p with
  | none => []
  | some r => hedgeSlices l r.root

/-- The slices that a partition image fills: those that leave or join its target, and all of them unless an AMEND keeps
the partition (R74). -/
def filledSlices (old : Layout) (im : Image) : List Nat :=
  let before := partSlices old im.target
  let after := partSlices im.layout im.target
  let stays := im.amend && (partRecOf im.layout im.target).isSome && (partRecOf old im.target).isSome
  if stays then before.filter (fun x => !after.contains x) ++ after.filter (fun x => !before.contains x)
  else before ++ after

/-- The partition a slice belongs to; none for an unassigned slice (R18). -/
def sliceOwner (l : Layout) (sl : Nat) : Option Nat :=
  (l.parts.find? (fun r => (hedgeSlices l r.root).contains sl)).map (·.part)

/-- Usable capacity of a partition in 2 MiB units (R48). -/
def partUnits (l : Layout) (p : Nat) : Nat :=
  match partRecOf l p with
  | none => 0
  | some r => hedgeCap l r.root

/-- Confidential mode of a partition (R58). -/
def isConf (s : State) (p : Nat) : Bool := match partRecOf s.img.layout p with
  | none => false
  | some r => r.conf

/-- A partition image under which the target begins anew: a REPLACE, a retire, or a partition that it creates (R74). -/
def startsAnew (old : Layout) (im : Image) : Bool :=
  !im.amend || (partRecOf im.layout im.target).isNone || (partRecOf old im.target).isNone

/-- A REPLACE, a retire or a key set scrubs a partition: its drain or its fill runs (R359). -/
def scrubbed (s : State) (p : Nat) : Bool :=
  let x := partGet s p
  decide (x.st = .quiesced) &&
    (decide (x.why = 2) || (decide (x.why = 1) && s.img.load.any (fun im => startsAnew s.img.layout im)))

/-- A partition's requests are served only while it is ACTIVE; otherwise its status answers them (R26). -/
def partStatus (s : State) (p : Nat) : Option Status :=
  match (partGet s p).st with
  | .unused => some .fault
  | .active => none
  | .quiesced => some .quiesced
  | .resetting => some .resetting

/-- This device's node ID; none without a RING record (R60, R66). -/
def nodeId (s : State) : Option Nat := s.img.layout.ring.map (·.node)

/-- SPARES.CE_LIMIT, 0 without a record (R65, R66). -/
def ceLimit (s : State) : Nat := match s.img.layout.spares with
  | none => 0
  | some r => r.ceLimit

/-- SPARES.AUTO bit (R65, R66). -/
def autoBit (s : State) (b : Nat) : Bool := match s.img.layout.spares with
  | none => false
  | some r => r.auto.testBit b

/-- Half, stack and own channel of a slice (R4). -/
def halfOf (sl : Nat) : Nat := sl / 64
def stackOf (sl : Nat) : Nat := sl / 16

/-- A spare has taken the number of the slice it serves: it is SERVING, or was when self-refresh began (R5, R221, R385). -/
def spareInService (s : State) (spare : Nat) : Bool :=
  let x := chanGet s spare
  match x.serves with
  | none => false
  | some sl => decide (x.state = 1) ||
      (decide (x.state = 5) && !x.graftDue && !(chanGet s (17 * (sl / 16) + sl % 16)).copying)

/-- The number under which the cells of a stack's spare stand while it serves no slice. -/
def spareCells (stack : Nat) : Nat := 128 + stack

/-- The channel that serves a slice: the spare of its stack once the spare has taken its number (R5, R221). -/
def chanOf (s : State) (sl : Nat) : Nat :=
  let spare := 17 * (sl / 16) + 16
  if 128 ≤ sl then 17 * (sl - 128) + 16
  else if (chanGet s spare).serves = some sl ∧ spareInService s spare then spare
  else 17 * (sl / 16) + sl % 16

/-- The slice a channel serves: its own for a data channel, the replaced one for a spare in service (R49). -/
def sliceOfChan (s : State) (c : Nat) : Option Nat :=
  if c % 17 = 16 then (if spareInService s c then (chanGet s c).serves else none)
  else some (16 * (c / 17) + c % 17)

/-- The cells a channel reads: those of its slice; a spare that stands by, or is copied to, has cells of its own (R311). -/
def cellsOf (s : State) (c : Nat) : Option Nat := match sliceOfChan s c with
  | some sl => some sl
  | none => if (chanGet s c).state = 2 ∨ (chanGet s c).state = 3 then some (spareCells (c / 17)) else none

/-- The cells of the spare that a slice is being copied to: its writes go to both channels (R221). -/
def copyCells (s : State) (sl : Nat) : Option Nat :=
  let x := chanGet s (17 * (sl / 16) + 16)
  if x.state = 2 ∧ x.serves = some sl then some (spareCells (sl / 16)) else none

/-- A graft into a partition that is QUIESCED for a load waits until it is ACTIVE again (R78). -/
def graftWaits (s : State) (sl : Nat) : Bool :=
  match sliceOwner s.img.layout sl with
  | none => false
  | some p => decide ((partGet s p).st = .quiesced) && (decide ((partGet s p).why = 1) || decide ((partGet s p).why = 4))

/-- A slice whose channel is pruned and not yet replaced, or being copied (R220, R221). -/
def sliceFenced (s : State) (sl : Nat) : Bool :=
  let c := chanOf s sl
  let x := chanGet s c
  decide (x.state = 4) && !x.copying

/-! ### The pool address and the region that holds it (R29 to R32) -/

def addrPart (a : Nat) : Nat := bitsOf a 47 5
def addrOff (a : Nat) : Nat := bitsOf a 0 47
def poolAddr (p off : Nat) : Nat := p * 2 ^ 47 + off % 2 ^ 47

/-- Start of the near window in a partition's address space (R254). -/
def nearBase : Nat := 0x7FFFF8000000

/-- The region that holds a unit of a partition. -/
def regionAt (l : Layout) (p unit : Nat) : Option RegionRec :=
  l.regions.find? (fun r => r.part == p && r.start ≤ unit && unit < r.start + r.size)

/-- A DATA or SHARED region is coherent (R31). -/
def regionCoherent (r : RegionRec) : Bool := r.kind = 0 || r.kind = 1

/-- Granules of a partition's FLASH regions before region `r`, in INDEX order (R230). -/
def granuleBase (l : Layout) (p index : Nat) : Nat :=
  sumNat (((regionsOf l p).filter (fun r => r.flash && r.index < index)).map (fun r => 32 * r.size))

/-- Granules of a partition: 32 to a 2 MiB unit of its FLASH regions (R230). -/
def granuleCount (l : Layout) (p : Nat) : Nat :=
  sumNat (((regionsOf l p).filter (fun r => r.flash)).map (fun r => 32 * r.size))

/-- The granule, in map order, of an offset that lies in FLASH region `r`. -/
def granuleOf (l : Layout) (r : RegionRec) (off : Nat) : Nat :=
  granuleBase l r.part r.index + (off - r.start * 2097152) / 65536

/-- First offset of a granule of a partition. -/
def granuleOffset (l : Layout) (p n : Nat) : Option Nat :=
  ((regionsOf l p).find? (fun r => r.flash && granuleBase l p r.index ≤ n &&
    n < granuleBase l p r.index + 32 * r.size)).map
    (fun r => r.start * 2097152 + (n - granuleBase l p r.index) * 65536)

/-- Cache frames of a partition: what FLASH_CACHE leaves beside the granule map, at most 2^24 (R230). -/
def frameCount (l : Layout) (p : Nat) : Nat :=
  match partRecOf l p with
  | none => 0
  | some r => min (2 ^ 24) ((r.flashCache * 2097152 - 8 * granuleCount l p) / 65536)

/-- Root-hedge address where FLASH_CACHE begins, with the granule map: it takes the top hedge pages (R230, R290). -/
def mapAddr (l : Layout) (p : Nat) : Nat :=
  match partRecOf l p with
  | none => 0
  | some r => (hedgeCap l r.root - r.flashCache) * 2097152

/-- Root-hedge address of a cache frame: FLASH_CACHE takes the top hedge pages, the map first (R230, R290). -/
def frameAddr (l : Layout) (p frame : Nat) : Nat :=
  match partRecOf l p with
  | none => 0
  | some r => (hedgeCap l r.root - r.flashCache) * 2097152 + 8 * granuleCount l p + frame * 65536

/-- What a pool address of a partition names. -/
inductive Place where
  /-- No region, no mapping, or beyond the near window: FAULT. -/
  | none
  /-- A root-hedge address of PINNED memory, with its region. -/
  | pinned (region : RegionRec) (slice loc : Nat)
  /-- A byte of a FLASH region: its granule and region. -/
  | flash (region : RegionRec) (granule : Nat)
  /-- A byte of the near window: the slice and the byte of its share (R254). -/
  | near (slice byte : Nat)
deriving DecidableEq, Repr, Inhabited

/-- R254: the slice and share byte of near offset `n` of a partition's window. -/
def nearPlace (slices : List Nat) (n : Nat) : Option (Nat × Nat) :=
  let c := slices.length
  if c = 0 ∨ c * 2 ^ 20 ≤ n then none
  else some (slices.getD (n / 256 % c) 0, n / (256 * c) * 256 + n % 256)

/-- Translation and mapping of an offset of a partition (R20, R30, R254, R290). -/
def placeOf (s : State) (p off : Nat) : Place :=
  let l := s.img.layout
  if nearBase ≤ off then
    match nearPlace (partSlices l p) (off - nearBase) with
    | none => .none
    | some (sl, b) => .near sl b
  else
    match regionAt l p (off / 2097152) with
    | none => .none
    | some r =>
      if r.flash then .flash r (granuleOf l r off)
      else match pteGet s p (off / 2097152), partRecOf l p with
        | .mapped hp, some pr =>
          match hedgePlace l pr.root (hp * 2097152 + off % 2097152) with
          | none => .none
          | some (sl, a) => .pinned r sl a
        | _, _ => .none

/-- The name of a line, or a byte, of a hedge page that no unit maps any more (R293, R294). -/
def unmappedLine (p ha : Nat) : Nat := 2 ^ 52 + p * 2 ^ 47 + ha

/-- Where a line rests: its slice and local address. -/
def linePlace (s : State) (line : Nat) : Option (Nat × Nat) :=
  if line < 2 ^ 52 then
    match placeOf s (addrPart line) (addrOff line) with
    | .pinned _ sl a => some (sl, a)
    | _ => none
  else match partRecOf s.img.layout (addrPart line) with
    | none => none
    | some pr => hedgePlace s.img.layout pr.root (addrOff line)

/-- The unit a line lies in; none of a partition's for a line that no unit maps. -/
def lineUnit (line : Nat) : Nat := line / 2 ^ 52 * 2 ^ 26 + addrOff line / 2097152

/-- Slice and local address of a byte of a cache frame. -/
def framePlace (s : State) (p frame byte : Nat) : Option (Nat × Nat) :=
  match partRecOf s.img.layout p with
  | none => none
  | some pr => hedgePlace s.img.layout pr.root (frameAddr s.img.layout p frame + byte)

/-- The offset of a partition that is mapped to a slice-local address, if any (R315). -/
def offsetOf (s : State) (p sl a : Nat) : Option Nat :=
  let l := s.img.layout
  match placeUp l hedgeFuel (false, sl) a with
  | none => none
  | some (_, ra) =>
    match s.eng.pte.find? (fun e => e.1 / 2 ^ 26 = p && e.2 = .mapped (ra / 2097152)) with
    | some (k, _) => some (k % 2 ^ 26 * 2097152 + ra % 2097152)
    | none =>
      let base := frameAddr l p 0
      if ra < base then none
      else match s.fl.grans.find? (fun e => e.1 / 2 ^ 32 = p && e.2.frame = (ra - base) / 65536 &&
          (e.2.st = .cached || e.2.st = .dirty || e.2.st = .filling || e.2.st = .writing)) with
        | none => none
        | some (k, _) => (granuleOffset l p (k % 2 ^ 32)).map (· + (ra - base) % 65536)

/-! ### DRAM words and their code (R299, R300) -/

/-- Reduction of a polynomial over GF(2) by g(x) = (x^7 + x^3 + 1)(x^7 + x^3 + x^2 + x + 1), degree 14 (R299). -/
def polyModG : Nat → Nat → Nat
  | 0, v => v
  | n + 1, v => polyModG n (if v.testBit (14 + n) then v ^^^ (0x4377 <<< n) else v)

/-- The 14 check bits of a word with data `d` and poison bit `p` (R299). -/
def wordCheck (d : Nat) (p : Bool) : Nat := polyModG 65 ((d + bit01 p * 2 ^ 64) <<< 14)

/-- The 80 stored bits of a word (R299). -/
def wordStore (d : Nat) (p : Bool) : Nat :=
  let low := wordCheck d p + (d <<< 14) + (bit01 p <<< 78)
  low + (bit01 (parityOf 79 low) <<< 79)

/-- Syndrome that stored bit `i` of bits 78 to 0 causes alone. -/
def bitSyndrome (i : Nat) : Nat := polyModG 65 (1 <<< i)

/-- The one or two bits of 78 to 0 that a syndrome locates. -/
def locateOne (syn : Nat) : Option Nat := (List.range 79).find? (fun i => bitSyndrome i == syn)
def locateTwo (syn : Nat) : Option (Nat × Nat) :=
  ((List.range 79).flatMap (fun i => (List.range i).map (fun j => (j, i)))).find?
    (fun ij => (bitSyndrome ij.1 ^^^ bitSyndrome ij.2) == syn)

/-- What the decoder makes of a word whose stored bits are flipped by `e` (R300): `none` uncorrectable; otherwise the
number of bits it corrected and the flips that remain. The code is linear, so the flips alone decide it. -/
def wordDecode (e : Nat) : Option (Nat × Nat) :=
  let syn := polyModG 65 (e % 2 ^ 79)
  let odd := parityOf 80 e
  if syn = 0 then (if odd then some (1, e ^^^ (1 <<< 79)) else some (0, e))
  else if odd then (locateOne syn).map (fun i => (1, e ^^^ (1 <<< i)))
  else match locateTwo syn with
    | none => none
    | some (i, j) => some (2, e ^^^ (1 <<< i) ^^^ (1 <<< j))

/-- What an unlisted word's mark is: clean, but marked in a slice whose contents were lost (R307). -/
def markDefault (lost : List Nat) (k : Nat) : WordMark := { poison := lost.contains (k / 2 ^ 30) }

def markGet (s : State) (k : Nat) : WordMark := tblGet (markDefault s.stk.lost) s.stk.marks k
def markSet (s : State) (k : Nat) (x : WordMark) : State :=
  { s with stk := { s.stk with marks := tblSet (markDefault s.stk.lost) s.stk.marks k x } }

/-- Key of a word: slice × 2^30 + word of the slice. -/
def wordKey (sl a : Nat) : Nat := sl * 2 ^ 30 + a / 8

/-- The next column a channel writes takes the injected flips of R318: data bits 0 to BITS − 1 of word 0. -/
def injectFlips (s : State) (sl a : Nat) : State :=
  if s.di.injArm ∧ s.di.injChan ≤ 16 ∧ chanOf s sl = 17 * s.di.injStack + s.di.injChan then
    let k := wordKey sl (a / 64 * 64)
    let s := markSet s k { markGet s k with flips := (markGet s k).flips ^^^ ((2 ^ s.di.injBits - 1) <<< 14) }
    { s with di := { s.di with injArm := false } }
  else s

/-! ### The granule map (R230, R231) -/

/-- The slice and address of a granule's 8 B entry in the root hedge's DRAM (R230). -/
def mapPlace (s : State) (p n : Nat) : Option (Nat × Nat) :=
  match partRecOf s.img.layout p with
  | none => none
  | some r => hedgePlace s.img.layout r.root (mapAddr s.img.layout p + 8 * n)

/-- Write a granule's entry: its word is written whole, clean (R231, R300). -/
def granSet (s : State) (p n : Nat) (x : Granule) : State :=
  let s := { s with fl := { s.fl with grans := tblSet (fun _ => {}) s.fl.grans (p * 2 ^ 32 + n) x } }
  match mapPlace s p n with
  | none => s
  | some (sl, a) => injectFlips (markSet s (wordKey sl a) {}) sl a
def granMod (s : State) (p n : Nat) (f : Granule → Granule) : State := granSet s p n (f (granGet s p n))

def granCode : GranState → Nat
  | .zero => 0 | .flash => 1 | .cached => 2 | .dirty => 3 | .filling => 4 | .writing => 5 | .bad => 6
def granOfCode : Nat → GranState
  | 0 => .zero | 1 => .flash | 2 => .cached | 3 => .dirty | 4 => .filling | 5 => .writing | _ => .bad

/-- The 64-bit entry of a granule: GROUP, TARGET, LUN, BLOCK and PAGE are its location's stripe block and page (R231). -/
def granWord (g : Granule) : Nat :=
  granCode g.st <<< 61 + g.frame <<< 37 + (match g.loc with
    | none => 2 ^ 37 - 1
    | some l => l.block * 4096 + l.page)

/-- A granule as a word of the map gives it, with its frame's bookkeeping as it stood. -/
def granOfWord (g : Granule) (w : Nat) : Granule :=
  let loc := bitsOf w 0 37
  { g with
    st := granOfCode (bitsOf w 61 3), frame := bitsOf w 37 24,
    loc := if loc = 2 ^ 37 - 1 then none else some { block := loc / 4096, page := loc % 4096 } }
def byteKey (sl a : Nat) : Nat := sl * 2 ^ 33 + a

def dramByte (s : State) (sl a : Nat) : Byte := tblGet (fun _ => 0) s.stk.dram (byteKey sl a)
def dramSetByte (s : State) (sl a : Nat) (b : Byte) : State :=
  { s with stk := { s.stk with dram := tblSet (fun _ => 0) s.stk.dram (byteKey sl a) b } }
def dramBytes (s : State) (sl a n : Nat) : List Byte := (List.range n).map (fun i => dramByte s sl (a + i))

/-- A range of a slice reads zero, its marks cleared (R232, R310). -/
def dramClear (s : State) (sl a n : Nat) : State :=
  let lo := byteKey sl a
  let s := { s with stk := { s.stk with dram := s.stk.dram.filter (fun e => e.1 < lo || lo + n ≤ e.1) } }
  let wlo := wordKey sl a
  let count := (a + n + 7) / 8 - a / 8
  if s.stk.lost.contains sl then (List.range count).foldl (fun s i => markSet s (wlo + i) {}) s
  else { s with stk := { s.stk with marks := s.stk.marks.filter (fun e => e.1 < wlo || wlo + count ≤ e.1) } }

/-- Store bytes from a slice-local address upward. -/
def dramStore (s : State) (sl : Nat) : Nat → List Byte → State
  | _, [] => s
  | a, b :: bs => dramStore (dramSetByte s sl a b) sl (a + 1) bs

/-- The eight word keys of the 64 B line that holds `a`. -/
def lineWords (sl a : Nat) : List Nat := (List.range 8).map (fun i => wordKey sl (a / 64 * 64) + i)

/-- The P bit of a stored word once decoded: the stored one, with any flip that decoding leaves on bit 78 (R300). -/
def markPoisoned (m : WordMark) : Bool :=
  if m.flips = 0 then m.poison
  else match wordDecode m.flips with
    | none => m.poison
    | some (_, rest) => xor m.poison (rest.testBit 78)

/-- A line is poisoned when any of its words is (R300). -/
def linePoisoned (s : State) (sl a : Nat) : Bool := (lineWords sl a).any (fun k => markPoisoned (markGet s k))

/-- Marking a word: P is 1, its data bits are those last read, its check bits are valid (R300). -/
def markedWord (m : WordMark) : WordMark := { poison := true, flips := wordStore (bitsOf m.flips 14 64) false }

/-- A word as decoding corrects it: what a miscorrection leaves is a valid word (R300). -/
def correctedWord (m : WordMark) : WordMark := match wordDecode m.flips with
  | none => m
  | some (_, rest) => { m with flips := rest }

/-! ### The error log and the alarm (R314 to R316) -/

/-- FAULT_N contribution of the integrity block: a status bit whose mask bit is 1; MGMT always (R316). -/
def diDrivesFault (d : Integrity) : Bool := decide (d.faultStatus &&& (d.faultMask ||| 0x200) ≠ 0)

/-- Write one log entry: five fields of word 0, LOC and the pool address when there is one. DRAM_UE, SRAM_UE, PARITY,
FLASH_UE and MGMT raise the management interrupt whatever the mask says (R316). Words 1 to 3 of an entry of a partition in
confidential mode are zero (R315, R354). -/
def logError (s : State) (cls source bits word col loc : Nat) (part : Option Nat) (addr : Option Nat) : State :=
  let d := s.di
  let w0 := packFields [(31, 1), (27, cls), (23, source), (18, part.getD 0), (17, bit01 addr.isSome), (14, bits),
    (4, word), (0, col)]
  let hidden := part.any (isConf s)
  let a := if hidden then 0 else addr.getD 0
  let entry := [w0, BitVec.ofNat 32 (if hidden then 0 else loc), BitVec.ofNat 32 a, BitVec.ofNat 32 (a / 2 ^ 32),
    BitVec.ofNat 32 s.td.ptime, BitVec.ofNat 32 (s.td.ptime / 2 ^ 32)]
  let head := (d.logHead + 1) % 256
  let s := noteFlags s [16 + cls]
  { s with di := { d with
      log := tblSet (fun _ => [0, 0, 0, 0, 0, 0]) d.log head entry, logHead := head, logTotal := wrap16 d.logTotal,
      faultStatus := d.faultStatus ||| (1 <<< cls),
      irq := d.irq || cls = 2 || cls = 5 || cls = 6 || cls = 7 || cls = 9 } }

/-- Row, bank index and column of a slice-local address under bank masks (R204). -/
def dramRow (a : Nat) : Nat := bitsOf a 16 17
def dramCol (a : Nat) : Nat := bitsOf a 6 4
def dramBank (masks : List Nat) (a : Nat) : Nat :=
  maskOf ((List.range 6).filter (fun i =>
    xor (a.testBit (10 + i)) (parityOf 17 (dramRow a &&& masks.getD i 0))))

/-- The slice-local address of a row, bank index and column: the hash of R204 undone. -/
def dramAddr (masks : List Nat) (row bank col : Nat) : Nat :=
  row * 65536 + maskOf ((List.range 6).filter (fun i =>
    xor (bank.testBit i) (parityOf 17 (row &&& masks.getD i 0)))) * 1024 + col * 64

/-- LOC of a DRAM class (R315). -/
def dramLoc (s : State) (sl a : Nat) : Nat :=
  let c := chanOf s sl
  (c / 17) <<< 29 ||| (c % 17) <<< 24 ||| (dramBank s.stk.xmapAct a) <<< 18 ||| dramRow a

/-- Log a DRAM event of one word of a line (R314, R315). -/
def logDram (s : State) (cls source bits word sl a : Nat) : State :=
  let p := sliceOwner s.img.layout sl
  let addr := match p with
    | none => none
    | some q => (offsetOf s q sl (a / 64 * 64)).map (poolAddr q)
  logError s cls source bits word (dramCol a) (dramLoc s sl a) p addr

/-- A reader, by its SOURCE, is traffic of a confidential partition, which the device-wide counters leave out (R354). -/
def hiddenTraffic (s : State) (source sl : Nat) : Bool :=
  (source ≤ 3 || source = 6 || source = 8) && (sliceOwner s.img.layout sl).any (isConf s)

/-- Counters of one corrected DRAM or path word (R303, R319, R320). -/
def countCorrected (s : State) (source sl : Nat) : State :=
  let s := if hiddenTraffic s source sl then s else { s with di := { s.di with ce := wrap32 s.di.ce } }
  let s := chanMod s (chanOf s sl) (fun c => { c with cnt := { c.cnt with ce := sat16 c.cnt.ce } })
  match sliceOwner s.img.layout sl with
  | none => s
  | some p => partCnt s p (fun c => { c with diCe := sat16 c.diCe })

/-- Queue a column for demand scrub; a full queue counts in DROPPED (R311). -/
def queueScrub (s : State) (sl a : Nat) : State :=
  let c := chanOf s sl
  let x := chanGet s c
  let e := (dramBank s.stk.xmapAct a, dramRow a, dramCol a)
  if x.scrubQ.length < 16 then chanSet s c { x with scrubQ := x.scrubQ ++ [e] }
  else { s with di := { s.di with demandDropped := sat16 s.di.demandDropped } }

/-- Flips of each word of a line at a read: those that stand in the cells and those of the transfer. -/
def wordFlips (s : State) (k : Nat) (extra : List (Nat × Nat)) (word : Nat) : Nat :=
  ((extra.filter (fun e => e.1 = word)).foldl (fun acc e => acc ^^^ e.2) (markGet s k).flips) % 2 ^ 80

/-- Poison bit a decoded word carries: the stored P with any flip that remains of bit 78. -/
def decodedPoison (s : State) (k rest : Nat) : Bool := xor (markGet s k).poison (rest.testBit 78)

/-- A word on the data path after decoding: `none` uncorrectable. -/
def readWord (s : State) (k flips : Nat) : Option (Nat × Bool × Nat) :=
  match wordDecode flips with
  | none => none
  | some (n, rest) => some (n, decodedPoison s k rest, bitsOf rest 14 64)

/-- Apply the data flips a miscorrection leaves to the eight bytes of a word. -/
def flipBytes (bs : List Byte) (mask : Nat) : List Byte :=
  (List.range bs.length).map (fun i => bs.getD i 0 ^^^ BitVec.ofNat 8 (mask >>> (8 * i)))

/-- Errors of a row in the window: one for each corrected word; an uncorrectable error counts past any limit (R219). -/
def noteRow (s : State) (sl a n : Nat) : State :=
  chanMod s (chanOf s sl) (fun c => bankMod c (dramBank s.stk.xmapAct a) (fun b => { b with
    rowErrs := tblMod (fun _ => 0) b.rowErrs (dramRow a) (· + n) }))

/-- One corrected word of a read: counted, at its row too, logged, its column queued for demand scrub unless scrub reads
(R219, R303, R311). -/
def noteCorrected (s : State) (source sl a word bits : Nat) : State :=
  if bits = 0 then s
  else
    let s := noteRow (logDram (countCorrected s source sl) 1 source bits word sl a) sl a 1
    if source = 4 ∨ source = 5 then s else queueScrub s sl a

/-- Words of a line, each with what the decoder gives under the extra flips. -/
def lineDecode (s : State) (sl a : Nat) (extra : List (Nat × Nat)) : List (Nat × Option (Nat × Bool × Nat)) :=
  (List.range 8).map (fun w =>
    let k := wordKey sl (a / 64 * 64) + w
    (w, readWord s k (wordFlips s k extra w)))

/-- A stored error: mark the words still uncorrectable, correct the others in place, log DRAM_UE (R300, R303). -/
def storedError (s : State) (source sl a : Nat) (ws : List (Nat × Option (Nat × Bool × Nat))) : State :=
  ws.foldl (fun s w =>
    let k := wordKey sl (a / 64 * 64) + w.1
    match w.2 with
    | none =>
      let s := markSet s k (markedWord (markGet s k))
      let s := { s with di := { s.di with ueDram := sat16 s.di.ueDram } }
      let s := chanMod s (chanOf s sl) (fun c => { c with cnt := { c.cnt with ue := sat16 c.cnt.ue } })
      noteRow (logDram s 2 source 3 w.1 sl a) sl a 65536
    | some (n, _, _) =>
      if n = 0 then s
      else noteCorrected (markSet s k (correctedWord (markGet s k))) source sl a w.1 n) s

/-- A read of one DRAM column, R303 whole: flips of the first transfer, then at most one re-read. The answer says
whether the line is bad, and gives the data flips a miscorrection leaves on each word. -/
def readColumn (s : State) (source sl a : Nat) (transit : List (Nat × Nat)) : State × Bool × List Nat :=
  let first := lineDecode s sl a transit
  let clean := fun (ws : List (Nat × Option (Nat × Bool × Nat))) => ws.all (fun w => w.2.isSome)
  let deliver := fun (s : State) (ws : List (Nat × Option (Nat × Bool × Nat))) =>
    let s := ws.foldl (fun s w => match w.2 with
      | none => s
      | some (n, _, _) => noteCorrected s source sl a w.1 n) s
    let bad := ws.filter (fun w => match w.2 with
      | none => false
      | some (_, p, _) => p)
    let s := match bad with
      | [] => s
      | w :: _ => logDram s 8 source 0 w.1 sl a
    (s, !bad.isEmpty, ws.map (fun w => match w.2 with
      | none => 0
      | some (_, _, m) => m))
  if clean first then deliver s first
  else
    let second := lineDecode s sl a []
    if clean second then
      let w := ((first.find? (fun w => w.2.isNone)).map (·.1)).getD 0
      let s := { s with di := { s.di with uePath := sat16 s.di.uePath } }
      deliver (logDram s 3 source 3 w sl a) second
    else
      let s := storedError s source sl a second
      (s, true, (lineWords sl a).map (fun k => bitsOf (markGet s k).flips 14 64))

/-- The key and the tweak under which a line of a slice rests: that of its partition, by its root-hedge address; the
device's reserve key in the reserve, whose tweak the spec leaves open; none in a slice without a partition (R345, log
entry 67). -/
def restKey (s : State) (sl a : Nat) : Option (List Byte × Nat) :=
  let l := s.img.layout
  match sliceOwner l sl, placeUp l hedgeFuel (false, sl) (a / 64 * 64) with
  | some p, some (_, ra) =>
    if (sliceUnits - reserveOf l sl) * 2097152 ≤ a then some (s.sec.reserveKey, Config.reserveTweak sl (a / 64))
    else some ((partGet s p).keys.xts, p * 2 ^ 48 + ra / 64)
  | _, _ => none

/-- What the cells of a line hold, as a prober of the package's DRAM sees it: the ciphertext of its 64 bytes (R338, R345).
State keeps the bytes it means (log entry 67). -/
def lineStored (s : State) (sl a : Nat) : List Byte :=
  let line := dramBytes s sl (a / 64 * 64) 64
  match restKey s sl a with
  | none => line
  | some (k, t) => xtsEncrypt k t line

/-- A line's bytes as read where stored data bits of its words differ by masks. The word code protects the ciphertext
(R345): the flips stand there, and open a whole cipher block. -/
def flipLine (s : State) (sl a : Nat) (line : List Byte) (masks : List Nat) : List Byte :=
  let flip := fun (l : List Byte) => (List.range 8).flatMap (fun w => flipBytes (sliceBytes l (8 * w) 8) (masks.getD w 0))
  if masks.all (· = 0) then line
  else match restKey s sl a with
    | none => flip line
    | some (k, t) => xtsDecrypt k t (flip (xtsEncrypt k t line))

/-- Bytes of one piece that lies within a 64 B line, read through R303; whether the line is bad. -/
def readLine (s : State) (source sl a n : Nat) : State × List Byte × Bool :=
  let bytes := dramBytes s sl a n
  if (lineWords sl a).all (fun k => markGet s k = {}) then (s, bytes, false)
  else
    let (s', bad, masks) := readColumn s source sl a []
    (s', sliceBytes (flipLine s sl a (dramBytes s sl (a / 64 * 64) 64) masks) (a % 64) n, bad)

/-- The column that a write of part of an 8-byte word reads first, through R303: whether the line is bad, and the data flips
a miscorrection leaves (R208). -/
def mergeRead (s : State) (source sl a n : Nat) : State × Bool × List Nat :=
  if a % 8 = 0 ∧ n % 8 = 0 then (s, linePoisoned s sl a, [])
  else if (lineWords sl a).all (fun k => markGet s k = {}) then (s, false, [])
  else readColumn s source sl a []

/-- Words of a line that arrived uncorrectable are stored marked, and counted as words marked on the channel (R303). -/
def markArrived (s : State) (sl a : Nat) (bad : List Nat) : State :=
  bad.foldl (fun s w =>
    chanMod (markSet s (wordKey sl (a / 64 * 64) + w) { poison := true }) (chanOf s sl)
      (fun c => { c with cnt := { c.cnt with ue := sat16 c.cnt.ue } })) s

/-- A write of bytes within one 64 B line. A narrower write to a poisoned line writes nothing and is bad; a whole line
clears the poison (R305). A word written whole loses its flips; a write of part of a word reads the column, merges and
writes it (R208), so what the read corrects is stored corrected, and what it miscorrects as it was read. `bad` names the
words of the line that arrived uncorrectable: the write ends POISON (R303). -/
def writeLine (s : State) (source sl a : Nat) (bs : List Byte) (bad : List Nat := []) : State × Bool :=
  let whole := bs.length = 64 ∧ a % 64 = 0
  let r := mergeRead s source sl a bs.length
  if r.2.1 ∧ ¬ whole then (r.1, true)
  else
    let masks := r.2.2
    let keys := if a % 8 = 0 ∧ bs.length % 8 = 0 then (List.range (bs.length / 8)).map (fun i => wordKey sl a + i)
      else lineWords sl a
    let s := if masks.all (· = 0) then r.1
      else dramStore r.1 sl (a / 64 * 64) (flipLine r.1 sl a (dramBytes r.1 sl (a / 64 * 64) 64) masks)
    let s := dramStore (keys.foldl (fun s k => markSet s k {}) s) sl a bs
    let s := injectFlips (markArrived s sl a bad) sl a
    (match copyCells s sl with
      | none => s
      | some q =>
        injectFlips (markArrived (keys.foldl (fun s k => markSet s (k % 2 ^ 30 + q * 2 ^ 30) {}) s) q a bad) q a,
      !bad.isEmpty)

/-! ### The reserves (R17, R307) -/

/-- A piece of what a slice's reserve holds, at the top of the slice. -/
def reservePlace (s : State) (sl kind key : Nat) : Option (Nat × Nat) :=
  let r := reserveOf s.img.layout sl
  if r = 0 then none
  else some (sl, (sliceUnits - r) * 2097152 + 16 * (Config.reservePlace sl r kind key % (r * 131072)))

/-- The piece is written whole: both its words are clean (R300). -/
def reserveClean (s : State) (sl kind key : Nat) : State := match reservePlace s sl kind key with
  | none => s
  | some (sl, a) => injectFlips (markSet (markSet s (wordKey sl a) {}) (wordKey sl a + 1) {}) sl a

/-- The device reads a piece of a reserve: whether a word of it is bad (R303, R307). -/
def reserveRead (s : State) (source sl kind key : Nat) : State × Bool := match reservePlace s sl kind key with
  | none => (s, false)
  | some (sl, a) =>
    if (lineWords sl a).all (fun k => markGet s k = {}) then (s, false)
    else
      let (s, _, _) := readColumn s source sl a []
      (s, markPoisoned (markGet s (wordKey sl a)) || markPoisoned (markGet s (wordKey sl a + 1)))

/-- The slice whose reserve holds the n-th of what a partition's reserves share out (R290). -/
def reserveSlice (s : State) (p n : Nat) : Option Nat :=
  let sls := partSlices s.img.layout p
  if sls = [] then none else sls[n % sls.length]?

/-! ### Near-bank words and their code (R254, R255, R301) -/

/-- Bytes of weight 3 in ascending order (R301). -/
def nearColumns3 : List Nat := (List.range 256).filter (fun v => popCount 8 v == 3)

/-- Column of data bit `i` (R301). -/
def nearColumn (i : Nat) : Nat :=
  if i < 56 then nearColumns3.getD i 0 else [0x1F, 0x2F, 0x37, 0x3B, 0x3D, 0x3E, 0x4F, 0x57].getD (i - 56) 0

/-- The check byte of 64 data bits (R301). -/
def nearCheck (d : Nat) : Nat := (setBits 64 d).foldl (fun acc i => acc ^^^ nearColumn i) 0

/-- What the decoder makes of a near word flipped by `e` (bits 71 to 64 check, 63 to 0 data): `none` uncorrectable;
otherwise the bits corrected and the flips that remain (R301). -/
def nearDecode (e : Nat) : Option (Nat × Nat) :=
  let syn := (e >>> 64) % 256 ^^^ nearCheck (e % 2 ^ 64)
  if syn = 0 then some (0, e)
  else match (List.range 64).find? (fun i => nearColumn i == syn) with
    | some i => some (1, e ^^^ (1 <<< i))
    | none => match (List.range 8).find? (fun j => (1 <<< j) == syn) with
      | some j => some (1, e ^^^ (1 <<< (64 + j)))
      | none => none

def nearByteKey (sl b : Nat) : Nat := sl * 2 ^ 20 + b
def nearWordKey (sl b : Nat) : Nat := sl * 2 ^ 17 + b / 8
def nearByte (s : State) (sl b : Nat) : Byte := tblGet (fun _ => 0) s.near.mem (nearByteKey sl b)
def nearSetByte (s : State) (sl b : Nat) (v : Byte) : State :=
  { s with near := { s.near with mem := tblSet (fun _ => 0) s.near.mem (nearByteKey sl b) v } }
def nearBytes (s : State) (sl b n : Nat) : List Byte := (List.range n).map (fun i => nearByte s sl (b + i))
def nearStore (s : State) (sl : Nat) : Nat → List Byte → State
  | _, [] => s
  | b, v :: vs => nearStore (nearSetByte s sl b v) sl (b + 1) vs
def nearFlips (s : State) (k : Nat) : Nat := tblGet (fun _ => 0) s.near.flips k
def nearSetFlips (s : State) (k v : Nat) : State :=
  { s with near := { s.near with flips := tblSet (fun _ => 0) s.near.flips k v } }

/-- A near word is uncorrectable, or lies in a row pruned without a spare: reads end POISON (R301, R313). -/
def nearRowLost (s : State) (sl b : Nat) : Bool := s.near.lostRows.contains (sl * 2 ^ 10 + b / 1024)
def nearWordBad (s : State) (sl b : Nat) : Bool := (nearDecode (nearFlips s (nearWordKey sl b))).isNone

/-- LOC of an SRAM or parity class (R315). -/
def sramLoc (half kind index : Nat) : Nat := half <<< 31 ||| kind <<< 28 ||| index % 2 ^ 28

/-- Pool address of the near-window line that holds a byte of a slice's share (R254 run upward, R315). -/
def nearPool (s : State) (sl b : Nat) : Option Nat :=
  match sliceOwner s.img.layout sl with
  | none => none
  | some p =>
    let sls := partSlices s.img.layout p
    let j := sls.findIdx (· == sl)
    some (poolAddr p (nearBase + (b / 256 * sls.length + j) * 256 + b % 256))

/-- Log an event of a near word (R314, R315). -/
def logNear (s : State) (cls source bits sl b : Nat) : State :=
  logError s cls source bits (b % 64 / 8) 0 (sramLoc (halfOf sl) 0 (nearWordKey sl b))
    (sliceOwner s.img.layout sl) ((nearPool s sl b).map (fun a => a / 64 * 64))

/-- An error met in an SRAM row: at CE_LIMIT corrected errors of the window, or at an uncorrectable one, the row is
pruned. It waits for a spare row of its array, or is lost where those in service and those waited for are all eight (R313). -/
def noteSramRow (s : State) (row : Nat) (ue : Bool) : State :=
  let n := tblGet (fun _ => 0) s.di.rowErrs row + 1
  let s := { s with di := { s.di with rowErrs := tblSet (fun _ => 0) s.di.rowErrs row n } }
  if ¬ (ue ∨ (0 < ceLimit s ∧ ceLimit s ≤ n)) ∨ s.di.rowDue.contains row ∨ s.near.lostRows.contains row then s
  else if tblGet (fun _ => 0) s.di.rowSpares (row / 256) + s.di.rowDue.countP (fun x => x / 256 = row / 256) < 8 then
    { s with di := { s.di with rowDue := s.di.rowDue ++ [row] } }
  else { s with near := { s.near with lostRows := s.near.lostRows ++ [row] }, di := { s.di with rowsLost := sat16 s.di.rowsLost } }

/-! ### The clk of a near bank (R255, R256) -/

/-- The clk of the next access to a near bank: that of the device's last event, or a later one where accesses to one word
have followed one another. -/
def nearNow (s : State) : Nat := max s.td.now s.near.clk

/-- The near banks enter a clk. -/
def nearEnter (s : State) (t : Nat) : State :=
  if s.near.clk = t then s
  else { s with near := { s.near with
    clk := t, own := [], prior := [], busy := s.near.busy.filter (fun x => decide (t < x.free)) } }

/-- The first clk from now on that is free of the other port's accesses to a word. -/
def freeOf (s : State) (word : Nat) (writes : Bool) : Nat :=
  s.near.busy.foldl (fun t x => if x.word = word ∧ (x.write ∨ !writes) then max t x.free else t) (nearNow s)

/-- The other port takes up an access to a word, in a later clk than those before it; `len` clk long (R255, R256). -/
def otherBegin (s : State) (word len : Nat) (write : Bool) : State :=
  let s := nearEnter s (freeOf s word false)
  { s with near := { s.near with busy := s.near.busy ++ [{ word := word, free := s.near.clk + len, write := write }] } }

/-- The own port takes up an access to a word. An engine's access that comes after another write of the word has been
served falls in a later clk, but that own-port writes of one clk may share it (log entry 13). -/
def ownBegin (s : State) (word : Nat) (write : Bool) : State :=
  let t := freeOf s word true
  nearEnter s (if !write ∧ s.near.clk = t ∧ s.near.prior.any (fun x => x.word = word) then t + 1 else t)

/-- A word about to be written is kept as it stood before this clk. -/
def keepPrior (s : State) (sl b : Nat) : State :=
  let s := nearEnter s (nearNow s)
  let k := nearWordKey sl b
  if s.near.prior.any (fun x => x.word = k) then s
  else { s with near := { s.near with
    prior := s.near.prior ++ [{ word := k, bytes := nearBytes s sl (b / 8 * 8) 8, flips := nearFlips s k }] } }

/-- A word as a read of this clk finds it: stored bytes and flips (R255). -/
def nearSeen (s : State) (sl b : Nat) : List Byte × Nat :=
  let k := nearWordKey sl b
  match s.near.prior.find? (fun x => x.word = k && decide (nearNow s = s.near.clk)) with
  | some x => (x.bytes, x.flips)
  | none => (nearBytes s sl (b / 8 * 8) 8, nearFlips s k)

/-- A read of one near word that holds `x`: its eight bytes as delivered, whether it was corrected, whether it is bad
(R301, R303, R320). -/
def nearDeliver (s : State) (source sl b : Nat) (x : List Byte × Nat) : State × List Byte × Bool × Bool :=
  match nearDecode x.2 with
  | none =>
    (noteSramRow (logNear { s with di := { s.di with sramUe := sat16 s.di.sramUe } } 5 source 3 sl (b / 8 * 8))
        (sl * 2 ^ 10 + b / 1024) true,
      flipBytes x.1 (x.2 % 2 ^ 64), false, true)
  | some (n, rest) =>
    let s := if n = 0 then s else match sliceOwner s.img.layout sl with
      | none => s
      | some p => partCnt s p (fun c => { c with diCe := sat16 c.diCe })
    if n = 0 then (s, flipBytes x.1 (rest % 2 ^ 64), false, nearRowLost s sl b)
    else
      (noteSramRow (logNear { s with di := { s.di with sramCe := sat16 s.di.sramCe } } 4 source 1 sl (b / 8 * 8))
          (sl * 2 ^ 10 + b / 1024) false,
        flipBytes x.1 (rest % 2 ^ 64), true, nearRowLost s sl b)

/-- A read of one near word as it stands. -/
def nearReadWord (s : State) (source sl b : Nat) : State × List Byte × Bool × Bool :=
  nearDeliver s source sl b (nearBytes s sl (b / 8 * 8) 8, nearFlips s (nearWordKey sl b))

/-- A read of one near word as it stood before this clk's writes (R255). -/
def nearSeeWord (s : State) (source sl b : Nat) : State × List Byte × Bool × Bool :=
  nearDeliver s source sl b (nearSeen s sl b)

/-- A read of bytes of a slice's share, by the own port or the other: the bytes, and the first word that was bad. -/
def nearRead (s : State) (own : Bool) (source sl b n : Nat) : State × List Byte × Option Nat :=
  let first := b / 8
  let count := (b + n + 7) / 8 - first
  let r := (List.range count).foldl (fun (acc : State × List Byte × Option Nat) i =>
    let w := 8 * (first + i)
    let k := nearWordKey sl w
    let (s', bs, _, bad) := nearSeeWord (if own then ownBegin acc.1 k false else otherBegin acc.1 k 1 false) source sl w
    (s', acc.2.1 ++ bs, if acc.2.2.isNone ∧ bad then some w else acc.2.2)) (s, [], none)
  (r.1, sliceBytes r.2.1 (b % 8) n, r.2.2)

/-- A write of bytes within one near word; a part of an uncorrectable word writes nothing and is bad (R305). A part of
a word reads the word, and what the read corrects is counted and stored corrected. -/
def nearWriteWord (s : State) (source sl b : Nat) (bs : List Byte) : State × Bool :=
  let s := keepPrior s sl b
  let k := nearWordKey sl b
  if bs.length = 8 then (nearStore (nearSetFlips s k 0) sl b bs, false)
  else if nearWordBad s sl b then (s, true)
  else (nearStore (nearSetFlips (nearReadWord s source sl b).1 k 0) sl b bs, false)

/-- The run of bytes cut at multiples of `g`: (address, offset in the run, length) of each piece. -/
def piecesAt (g : Nat) : Nat → Nat → Nat → Nat → List (Nat × Nat × Nat)
  | 0, _, _, _ => []
  | fuel + 1, a, i, n =>
    if n = 0 ∨ g = 0 then []
    else
      let k := min n (g - a % g)
      (a, i, k) :: piecesAt g fuel (a + k) (i + k) (n - k)

def cutAt (g a n : Nat) : List (Nat × Nat × Nat) := piecesAt g (n / g + 2) a 0 n

end Sys2Proof.Machine
end

