-- ==== Sys2Proof/Machine/Flags.lean ====
section
/-! DEFINITION. Flag and indicator computations: LOAD and HEADROOM (R106), and what each flag word is made of. -/

namespace Sys2Proof.Machine

/-- The key of flow (PART, HOST, REQ); ascending keys are ascending (PART, HOST, REQ) (R89, R98). -/
def flowNat (part : Nat) (host : Bool) (req : Nat) : Nat := part * 8192 + bit01 host * 4096 + req % 4096
def flowKeyNat (k : FlowKey) : Nat := flowNat k.part.val k.host k.req.toNat
def flowPart (k : Nat) : Nat := k / 8192
def flowHost (k : Nat) : Bool := (k / 4096) % 2 = 1
def flowReq (k : Nat) : Nat := k % 4096

def allotOf (l : Layout) (k : Nat) : Option AllotRec := l.allots.find? (fun r => r.key == k)
def gatesOf (l : Layout) (k : Nat) : List GateRec := l.gates.filter (fun r => r.key == k)
def policerOf (l : Layout) (k : Nat) : Option PolRec := l.pols.find? (fun r => r.key == k)

/-- The plane a request arrived on, when it came by the fabric. -/
def originPlane : Origin → Option Nat
  | .fabric p => some (p / 4)
  | _ => none

/-- A fenced requester (R382). -/
def isFenced (s : State) (host : Bool) (req : Nat) : Bool := s.twn.fenced.contains (host, req)

/-- The publish unit of an address, where it lies in a PUBLISHED region (R188, R196). -/
def publishUnit (s : State) (addr : Nat) : Option (Nat × Nat) :=
  let p := addrPart addr
  let u := addrOff addr / 2097152
  if nearBase ≤ addrOff addr then none
  else match regionAt s.img.layout p u with
    | none => none
    | some r => if r.kind = 2 then some (p, u) else none

/-- One part of LOAD: min(15, ⌊16 × num ÷ den⌋) (R106). -/
def loadPart (num den : Nat) : Nat := if den = 0 then 0 else min 15 (16 * num / den)

/-- FAB, ETH and DRAM as they stand `after` clk of a frame: those of the frame before until then (R87, R106). -/
def loadParts (s : State) (after : Nat) : Nat × Nat × Nat :=
  let t := s.td
  if t.now < t.tickClk + after then (t.fabWas, t.ethWas, t.dramWas) else (t.fabPart, t.ethPart, t.dramPart)

/-- LOAD: the greatest part (R106). TD_LOAD shows it from clk 2 of a frame, responses carry it from clk 3 (R87). -/
def loadAfter (s : State) (after : Nat) : Nat :=
  let p := loadParts s after
  max p.1 (max p.2.1 p.2.2)
def loadOf (s : State) : Nat := loadAfter s 3

/-- The HEADROOM code of a credit (R106). -/
def headroomCode (c : Int) : Nat := if c ≤ 0 then 0 else min 15 (log2Nat c.toNat + 1)

/-- HEADROOM of a flow now: 0 while its limit is 0 (R106). -/
def headroomNow (s : State) (k : Nat) : Nat :=
  let f := flowGet s k
  if f.limitNow = 0 then 0 else headroomCode f.credit

/-- HEADROOM a response carries: the code taken at the charge, or the code now; 0 while the limit is 0 (R106). -/
def headroomFor (s : State) (k : Nat) (taken : Option Nat) : Nat :=
  if (flowGet s k).limitNow = 0 then 0 else taken.getD (headroomNow s k)

/-! ### The flash margin (R229, R240) -/

/-- Number of a stripe block, from its address. -/
def stripeKey (group target lun block : Nat) : Nat := ((group * 8 + target) * 4 + lun) * 131072 + block
def stripeGroup (k : Nat) : Nat := k / 4194304

/-- Pages of a stripe block, one granule each (R227). -/
def stripePages (f : Flash) (k : Nat) : Nat :=
  match f.geom.find? (fun g => g.group = stripeGroup k && g.target = k / 524288 % 8) with
  | none => 0
  | some g => g.pages

/-- A stripe block of a target in use. -/
def stripeUsed (f : Flash) (k : Nat) : Bool :=
  f.geom.any (fun g => g.group = stripeGroup k && g.target = k / 524288 % 8 && decide (k / 131072 % 4 < g.luns) &&
    decide (k % 131072 < g.blocks))

/-- A stripe block that holds no data any more: retired, defective, or a table block. -/
def stripeOut (b : StripeBlock) : Bool := b.st = 4 || b.st = 5 || b.st = 7

/-- G_now in granules: the good stripe blocks of the groups in service, less the retired ones (R240, R241). -/
def flashNow (f : Flash) : Nat :=
  let total := sumNat ((f.geom.filter (fun g => f.groups.testBit g.group)).map (fun g => g.luns * g.blocks * g.pages))
  let gone := sumNat ((f.blocks.filter (fun e => stripeOut e.2 && f.groups.testBit (stripeGroup e.1) && stripeUsed f e.1)).map
    (fun e => stripePages f e.1))
  total - gone

/-- MARGIN (R240), 0 when the usable capacity is not covered. -/
def flashMargin (f : Flash) : Nat :=
  let g := flashNow f
  if g = 0 then 0 else 100 * (g - 32 * f.usable) / g

/-- FL_STATUS.STATE (R240). -/
def flashState (f : Flash) : Nat :=
  if !f.discovered then 1
  else if flashNow f = 0 then 0
  else if 8 ≤ flashMargin f then 2 else if 4 ≤ flashMargin f then 3 else 4

/-- The flash capacity that an image's FLASH regions may take: none while no target is usable (R33, R229, R240). -/
def flashLimit (f : Flash) : Nat := if flashState f = 0 then 0 else f.usable

end Sys2Proof.Machine
end

