-- ==== Sys2Proof/Machine/Operands.lean ====
section
/-! DEFINITION. Operand forms: the Keaxel header to the bit (R144), the opcodes and their field rules (R145, R155), the
ranges requests name, and the packets the device builds. -/

namespace Sys2Proof.Machine

/-! ### The header (R144) -/

/-- H0 to H7 of a packet (R144). -/
def headerH0 (p : Packet) : Word :=
  p.cls ++ BitVec.ofBool p.vc ++ BitVec.ofBool p.mcast ++ p.colour ++ BitVec.ofBool p.dim ++ BitVec.ofBool p.dir ++
    p.dest ++ p.src
def headerH1 (p : Packet) : Word := p.opcode ++ p.len ++ p.part ++ p.hops
def headerH4 (p : Packet) : Word := p.status ++ p.load ++ p.headroom ++ p.addr.extractLsb' 32 20
def headerH5 (p : Packet) : Word := p.epoch ++ p.arg

def headerWords (p : Packet) : List Word :=
  [headerH0 p, headerH1 p, p.seq, p.addr.extractLsb' 0 32, headerH4 p, headerH5 p, p.aux.extractLsb' 0 32,
    p.aux.extractLsb' 32 32]

/-- The packet that eight header words and a payload spell (R144). -/
def packetOf (w : List Word) (payload : List Byte) : Packet :=
  let h := fun i => w.getD i 0
  { cls := (h 0).extractLsb' 30 2, vc := (h 0).getLsbD 29, mcast := (h 0).getLsbD 28, colour := (h 0).extractLsb' 26 2,
    dim := (h 0).getLsbD 25, dir := (h 0).getLsbD 24, dest := (h 0).extractLsb' 12 12, src := (h 0).extractLsb' 0 12,
    opcode := (h 1).extractLsb' 26 6, len := (h 1).extractLsb' 13 13, part := (h 1).extractLsb' 8 5,
    hops := (h 1).extractLsb' 0 8, seq := h 2, addr := (h 4).extractLsb' 0 20 ++ h 3,
    status := (h 4).extractLsb' 28 4, load := (h 4).extractLsb' 24 4, headroom := (h 4).extractLsb' 20 4,
    epoch := (h 5).extractLsb' 16 16, arg := (h 5).extractLsb' 0 16, aux := h 7 ++ h 6, payload := payload }

/-- The 32 header bytes, words little-endian (R144). -/
def headerBytes (p : Packet) : List Byte := (headerWords p).flatMap (fun w => leBytes 4 w.toNat)

/-- A packet's bytes on the link: header, payload, then zeros to a whole chunk (R120, R144). -/
def packetBytes (p : Packet) : List Byte :=
  let n := 32 + p.payload.length
  headerBytes p ++ p.payload ++ List.replicate ((16 - n % 16) % 16) 0

/-- The header words in a run of bytes. -/
def wordsOfBytes (bs : List Byte) : List Word := (List.range 8).map (fun i => BitVec.ofNat 32 (fieldAt bs (4 * i) 4))

/-- The packet whose header opens `bs`. -/
def packetOfBytes (bs : List Byte) : Packet :=
  let w := wordsOfBytes bs
  packetOf w (sliceBytes bs 32 ((w.getD 1 0).extractLsb' 13 13).toNat)

/-- Bytes of a packet on the link: ⌈(32 + LEN)/16⌉ chunks (R120). -/
def chunkBytes (len : Nat) : Nat := 16 * ceilDiv (32 + len) 16

/-! ### Opcodes and their rules (R145, R155) -/

/-- The names of R145's opcodes; `other` for a reserved one. -/
inductive Op where
  | rd | wr | atom | rdS | rdX | upg | wb | evct | flush | publish | acquire
  | cmp | data | snpRsp | snpData | fwdData | epochNotice | mcDone
  | snpInv | snpFwdS | snpFwdX | recall
  | mcWr | mcSig | heartbeat | twinPub | twinWr
  | other
deriving DecidableEq, Repr, Inhabited

def opOf (n : Nat) : Op :=
  match n with
  | 0x01 => .rd | 0x02 => .wr | 0x03 => .atom | 0x04 => .rdS | 0x05 => .rdX | 0x06 => .upg | 0x07 => .wb | 0x08 => .evct
  | 0x09 => .flush | 0x0A => .publish | 0x0B => .acquire
  | 0x10 => .cmp | 0x11 => .data | 0x12 => .snpRsp | 0x13 => .snpData | 0x14 => .fwdData | 0x15 => .epochNotice
  | 0x16 => .mcDone
  | 0x20 => .snpInv | 0x21 => .snpFwdS | 0x22 => .snpFwdX | 0x23 => .recall
  | 0x30 => .mcWr | 0x31 => .mcSig | 0x32 => .heartbeat | 0x33 => .twinPub | 0x34 => .twinWr
  | _ => .other

def opCode (o : Op) : Nat :=
  match o with
  | .rd => 0x01 | .wr => 0x02 | .atom => 0x03 | .rdS => 0x04 | .rdX => 0x05 | .upg => 0x06 | .wb => 0x07 | .evct => 0x08
  | .flush => 0x09 | .publish => 0x0A | .acquire => 0x0B
  | .cmp => 0x10 | .data => 0x11 | .snpRsp => 0x12 | .snpData => 0x13 | .fwdData => 0x14 | .epochNotice => 0x15
  | .mcDone => 0x16
  | .snpInv => 0x20 | .snpFwdS => 0x21 | .snpFwdX => 0x22 | .recall => 0x23
  | .mcWr => 0x30 | .mcSig => 0x31 | .heartbeat => 0x32 | .twinPub => 0x33 | .twinWr => 0x34
  | .other => 0x00

def pktOp (p : Packet) : Op := opOf p.opcode.toNat

/-- Data bytes an opcode fixes, when it fixes them: 0, 16 or 64; `none` where LEN is 0 to 4,096 (R145). -/
def opDataLen (o : Op) : Option Nat :=
  match o with
  | .wr | .data | .mcWr | .twinWr => none
  | .atom => some 16
  | .wb | .snpData | .fwdData => some 64
  | _ => some 0

/-- LEN as R145 allows it: a fixed data length counts the envelope's 24 bytes when the partition's payloads carry one
(R349). An envelope shorter than 24 bytes is R350's to judge. -/
def lenAllowed (p : Packet) (enveloped : Bool) : Bool :=
  match opDataLen (pktOp p) with
  | none => true
  | some 0 => p.len.toNat = 0
  | some n => p.len.toNat = (if enveloped then n + 24 else n)

/-- ARG as R145 allows it. -/
def argAllowed (p : Packet) : Bool :=
  match pktOp p with
  | .rd => p.arg.toNat ≤ 4096
  | .atom => p.arg.toNat ≤ 2
  | .snpInv | .snpFwdS | .snpFwdX => p.arg.toNat < 4096
  | _ => p.arg.toNat = 0

/-- MCAST is 1 for MC_WR and MC_SIG and 0 for every other opcode (R145). -/
def mcastAllowed (p : Packet) : Bool :=
  match pktOp p with
  | .mcWr | .mcSig => p.mcast
  | _ => !p.mcast

/-- The fourth row of R155: the opcode exists, agrees with the class, and LEN, ARG and MCAST are allowed. -/
def opcodeRule (p : Packet) (enveloped : Bool) : Bool :=
  pktOp p ≠ .other && p.opcode.toNat / 16 = p.cls.toNat && lenAllowed p enveloped && argAllowed p && mcastAllowed p

/-- The fifth row of R155: ATOM and MC_SIG at an 8 B-aligned address, the line opcodes at a 64 B-aligned one. -/
def alignRule (p : Packet) : Bool :=
  match pktOp p with
  | .atom | .mcSig => p.addr.toNat % 8 = 0
  | .rdS | .rdX | .upg | .wb | .evct | .snpInv | .snpFwdS | .snpFwdX | .recall => p.addr.toNat % 64 = 0
  | _ => true

/-! ### The traffic envelope (R348 to R350) -/

/-- AAD on Keaxel: the header with VC, HOPS, STATUS, LOAD and HEADROOM zero, and AUX zero for MC_WR (R348). -/
def envelopeAad (p : Packet) : List Byte :=
  let q := { p with vc := false, hops := 0, status := 0, load := 0, headroom := 0 }
  headerBytes (if pktOp p = .mcWr then { q with aux := 0 } else q)

/-- The IV: sender ID, two zero bytes, the counter (R348). -/
def envelopeIv (sender counter : Nat) : List Byte := beBytes 2 sender ++ [0, 0] ++ beBytes 8 counter

/-- Whether a partition's Keaxel payloads travel in envelopes. -/
def fabEnc (s : State) (p : Nat) : Bool := (partGet s p).keys.fabEnc
def ethEnc (s : State) (p : Nat) : Bool := (partGet s p).keys.ethEnc

/-- The data bytes of a received envelope; `none` when it is too short or its tag fails (R350). -/
def openBytes (key : List Byte) (sender : Nat) (aad payload : List Byte) : Option (List Byte) :=
  if payload.length < 24 then none
  else
    let d := payload.length - 24
    gcmOpen key (envelopeIv sender (beNat (payload.take 8))) aad (sliceBytes payload 8 d)
      (sliceBytes payload (8 + d) 16)

/-- The envelope of data bytes. -/
def sealBytes (key : List Byte) (sender counter : Nat) (aad bytes : List Byte) : List Byte :=
  beBytes 8 counter ++ gcmSeal key (envelopeIv sender counter) aad bytes

/-- A received packet with its data bytes opened; `none` as R350 gives. Packets with LEN 0 carry no envelope. -/
def openPacket (s : State) (p : Packet) : Option Packet :=
  if fabEnc s p.part.toNat ∧ p.len.toNat ≠ 0 then
    (openBytes (partGet s p.part.toNat).keys.fab p.src.toNat (envelopeAad p) p.payload).map
      (fun d => { p with payload := d })
  else some p

/-- A packet the device sends, its payload put in an envelope where the partition's key set says so; LEN counts the
whole envelope (R348, R349). -/
def sealPacket (s : State) (p : Packet) : State × Packet :=
  let part := p.part.toNat
  if fabEnc s part ∧ p.payload ≠ [] then
    let x := partGet s part
    let q := { p with len := BitVec.ofNat 13 (p.payload.length + 24) }
    (partSet s part { x with fabCounter := x.fabCounter + 1 },
      { q with payload := sealBytes x.keys.fab p.src.toNat x.fabCounter (envelopeAad q) p.payload })
  else (s, p)

/-- The most data bytes one packet of the partition carries (R349). -/
def maxData (s : State) (p : Nat) : Nat := if fabEnc s p then 4072 else 4096

/-! ### Packets the device builds -/

/-- A packet from this device with every field zero but those given. -/
def newPacket (s : State) (o : Op) (dest part : Nat) (seq : BitVec 32) (addr : Nat) (payload : List Byte) : Packet :=
  { cls := BitVec.ofNat 2 (opCode o / 16), vc := false, mcast := false, colour := 0, dim := false, dir := false,
    dest := BitVec.ofNat 12 dest, src := BitVec.ofNat 12 ((nodeId s).getD 0), opcode := BitVec.ofNat 6 (opCode o),
    len := BitVec.ofNat 13 payload.length, part := BitVec.ofNat 5 part, hops := 0, seq := seq,
    addr := BitVec.ofNat 52 addr, status := 0, load := 0, headroom := 0, epoch := 0, arg := 0, aux := 0,
    payload := payload }

/-- RADDR of a request (R145). -/
def raddr (p : Packet) : Nat := bitsOf p.aux.toNat 0 52

/-- Read length of a RD. LEN of a RD on Keaxel is 0 (R145); an RDMA READ, which may be longer than ARG can say, has the
rest of its length there (R326). -/
def readLen (p : Packet) : Nat := p.arg.toNat + 65536 * p.len.toNat

/-- Bytes of a request's range: read length of RD, LEN of a write's data, 8 of an atomic, 64 of a line opcode. -/
def rangeLen (p : Packet) : Nat :=
  match pktOp p with
  | .rd => readLen p
  | .atom | .mcSig => 8
  | .rdS | .rdX | .upg | .wb | .evct => 64
  | _ => p.payload.length

/-- Cost of a packet in 256 B units (R90). -/
def packetUnits (len : Nat) : Nat := ceilDiv (32 + len) 256

/-- Payload length of the response to a Keaxel request, envelope included (R90, R145, R349). -/
def responseLen (p : Packet) (enveloped : Bool) : Nat :=
  let d := match pktOp p with
    | .rd => p.arg.toNat
    | .atom => 8
    | .rdS | .rdX => 64
    | .acquire => 16
    | _ => 0
  if d = 0 then 0 else if enveloped then d + 24 else d

/-- Cost of a Keaxel request: request and response packet (R90). -/
def requestCost (p : Packet) (enveloped : Bool) : Nat :=
  packetUnits p.len.toNat + packetUnits (responseLen p enveloped)

end Sys2Proof.Machine
end

