-- ==== Sys2Proof/Machine/Answer.lean ====
section
/-! DEFINITION. How packets leave: the route at a stop (R143, R149), the output queues, and the one operation that
answers a request wherever it came from (R36, R106, R144, R330, R332). -/

namespace Sys2Proof.Machine

/-! ### Routes (R141, R143, R149) -/

/-- Where a unicast packet goes at this stop. -/
inductive Route where
  | sink
  | port (p : Nat)
  | unroutable
deriving DecidableEq, Repr, Inhabited

/-- A node ID is valid when its row is below COL_LEN and its column below ROW_LEN (R141). -/
def inGrid (r : RingRec) (node : Nat) : Bool := decide (node / 64 < r.colLen) && decide (node % 64 < r.rowLen)

/-- R149 at this stop, for a packet on `plane` (0 A, 1 B): row ring first, then column ring; a tie goes to +. -/
def routeAt (r : RingRec) (plane dest : Nat) : Route :=
  if dest = r.node then .sink
  else if !inGrid r dest then .unroutable
  else if dest % 64 ≠ r.node % 64 then
    let d := ringDist (r.node % 64) (dest % 64) r.rowLen
    if r.rowLen ≤ 1 then .unroutable else .port (4 * plane + (if d ≤ r.rowLen - d then 0 else 1))
  else
    let d := ringDist (r.node / 64) (dest / 64) r.colLen
    if r.colLen ≤ 1 then .unroutable else .port (4 * plane + (if d ≤ r.colLen - d then 2 else 3))

/-- Ring of a port: false row, true column; and its direction: true is − (R42). -/
def portColumn (p : Nat) : Bool := p % 4 / 2 = 1
def portMinus (p : Nat) : Bool := p % 2 = 1

/-- The date-line bit of the ring that port `p` sends on (R60): plane A row, plane A column, plane B row, column. -/
def hasDateline (r : RingRec) (p : Nat) : Bool := r.dateline.testBit (2 * (p / 4) + p % 4 / 2)

/-- VC that this stop sets: 1 at the ring's date line; the packet's own when it continues; else 0 (R150). -/
def vcOf (r : RingRec) (out : Nat) (continuing vc : Bool) : Bool := hasDateline r out || (continuing && vc)

/-- The port is ACTIVE. -/
def portActive (s : State) (p : Nat) : Bool := (portGet s p).state = 4

/-- A port in TRAIN, INIT or ACTIVE takes packets; in DOWN, FAILED or DISABLED they are removed (R154). -/
def portHolds (s : State) (p : Nat) : Bool :=
  let st := (portGet s p).state
  st = 2 || st = 3 || st = 4

/-- Plane of a packet that answers nothing: A when r + c is even, unless only the other plane's first port is ACTIVE
(R143). -/
def planeFor (s : State) (r : RingRec) (dest : Nat) : Nat :=
  let plane := (dest / 64 + dest % 64) % 2
  match routeAt r plane dest, routeAt r (1 - plane) dest with
  | .port a, .port b => if !portActive s a && portActive s b then 1 - plane else plane
  | _, _ => plane

/-- Put a packet, complete at its input port since a clk, in the queue of an output port. -/
def enqueueOut (s : State) (r : RingRec) (out kind inPort : Nat) (p : Packet) (since : Nat) : State :=
  let e : RingPkt :=
    { pkt := { p with vc := vcOf r out (decide (kind = 0)) p.vc }, out := out, kind := kind, inPort := inPort,
      inVc := p.vc, age := s.fab.nextAge, since := since }
  { s with fab := { s.fab with waiting := s.fab.waiting ++ [e], nextAge := s.fab.nextAge + 1 } }

/-- A packet that this stop keeps for its own handling. -/
def keptOpcode (p : Packet) : Bool :=
  match pktOp p with
  | .cmp | .data | .snpRsp | .snpData | .fwdData | .heartbeat | .twinPub | .twinWr => true
  | _ => false

/-- A packet routed to a port out of service is counted there (R154). -/
def noteRemoved (s : State) (out : Nat) : State := portCnt s out (fun c => { c with dropped := sat16 c.dropped })

/-- The status that answers a request removed at a port: RESETTING for DOWN, FAULT for FAILED and DISABLED (R154). -/
def removedStatus (s : State) (out : Nat) : Status := if (portGet s out).state = 1 then .resetting else .fault

/-- A request of this device that R154 removes is answered by CMP to its SRC, which is this device. -/
def ownRemoved (s : State) (out : Nat) (p : Packet) (st : Status) : State :=
  if p.cls = 0 then
    let q := { newPacket s .cmp p.src.toNat p.part.toNat p.seq p.addr.toNat [] with status := BitVec.ofNat 4 (statusCode st) }
    { s with fab := { s.fab with inbox := s.fab.inbox ++ [{ pkt := q, port := out }] } }
  else s

/-- Inject a packet. One whose port holds no packets is removed and counted (R154); an answer of R154 or R155 is
discarded unless its port is ACTIVE; one for this node sinks here; without a node ID, or without a route, nothing leaves
(R66, R149). -/
def injectOn (s : State) (plane : Nat) (needActive : Bool) (p : Packet) : State :=
  match s.img.layout.ring with
  | none => s
  | some r =>
    match routeAt r plane p.dest.toNat with
    | .port out =>
      if needActive && !portActive s out then s
      else if portHolds s out then
        let (s, q) := sealPacket s p
        enqueueOut s r out 2 8 q s.td.now
      else ownRemoved (noteRemoved s out) out p (removedStatus s out)
    | .sink =>
      if keptOpcode p then
        { s with fab := { s.fab with inbox := s.fab.inbox ++ [{ pkt := p, port := 4 * plane }] } }
      else s
    | .unroutable => s

/-- Inject a packet that answers no request, on the plane R143 gives it. -/
def inject (s : State) (p : Packet) : State :=
  match s.img.layout.ring with
  | none => s
  | some r => injectOn s (planeFor s r p.dest.toNat) false p

/-! ### RoCE packets (R325, R326, R333, R348) -/

/-- The 12 bytes of the BTH, with LOAD in bits [5:2] of byte 4 and HEADROOM in bits [6:3] of byte 8 (R333). -/
def bthBytes (p : RocePacket) (load headroom : Nat) : List Byte :=
  let pad := (4 - p.payload.length % 4) % 4
  [p.opcode, BitVec.ofNat 8 (128 * bit01 p.se + 64 * bit01 p.mig + pad * 16 + p.tver.toNat)] ++ beBytes 2 p.pkey.toNat ++
    [BitVec.ofNat 8 (128 * bit01 p.fecn + 64 * bit01 p.becn + load % 16 * 4)] ++ beBytes 3 p.destQp.toNat ++
    [BitVec.ofNat 8 (128 * bit01 p.ackReq + headroom % 16 * 8)] ++ beBytes 3 p.psn.toNat

/-- BTH of a RoCE packet with its reserved bits zero, and the RETH or AtomicETH that follows (R348). -/
def roceAad (p : RocePacket) : List Byte :=
  let bth := bthBytes p 0 0
  let reth := beBytes 8 p.va.toNat ++ beBytes 4 p.rkey.toNat ++ beBytes 4 p.dmaLen.toNat
  let atomic := beBytes 8 p.va.toNat ++ beBytes 4 p.rkey.toNat ++ beBytes 8 p.swapAdd.toNat ++ beBytes 8 p.compare.toNat
  let op := p.opcode.toNat
  if op = 0x06 ∨ op = 0x0A ∨ op = 0x0C then bth ++ reth
  else if op = 0x13 ∨ op = 0x14 then bth ++ atomic
  else bth

/-- A packet the device sends on a queue pair: P_Key 0xFFFF, the peer's QPN (R326). -/
def rocePacket (q : Qp) (opcode psn : Nat) (syndrome : Nat) (payload : List Byte) : RocePacket :=
  { opcode := BitVec.ofNat 8 opcode, pkey := 0xFFFF, destQp := BitVec.ofNat 24 q.dqpn, ackReq := false,
    psn := BitVec.ofNat 24 psn, dscp := 0, va := 0, rkey := 0, dmaLen := 0, compare := 0, swapAdd := 0,
    syndrome := BitVec.ofNat 8 syndrome, payload := payload }

/-- Where a queue pair's frames go (R322, R337). -/
def nextHop (q : Qp) : NextHop :=
  { mac := bitsOf q.macHi.toNat 0 16 * 2 ^ 32 + q.macLo.toNat
    tag := if q.macHi.toNat.testBit 31 then some (bitsOf q.macHi.toNat 28 3, bitsOf q.macHi.toNat 16 12) else none
    ip := q.ip.foldl (fun acc w => acc * 2 ^ 32 + w.toNat) 0 }

/-- A RoCE packet leaves on a queue pair's port. -/
def emitRoce (s : State) (q : Qp) (p : RocePacket) (load headroom : Nat) : State :=
  emit s (.roce q.port (nextHop q) (bthBytes p load headroom) p load headroom)

/-- The bytes of the path MTU (R326). -/
def mtuBytes (q : Qp) : Nat := if q.mtu = 0 then 1024 else if q.mtu = 1 then 2048 else 4096

/-- Send a packet on the management queue pair: its payload in an envelope under the management key, with the counter
boot count × 2^32 + n; the reserved bits of R333 are zero (R333, R343). -/
def sendMgmt (s : State) (p : RocePacket) : State :=
  let q := qpGet s 4096
  match s.sec.mgmtKey with
  | some k =>
    if p.payload = [] then emitRoce s q p 0 0
    else
      let body := sealBytes k 0x4000 (s.td.boot * 2 ^ 32 + s.sec.mgmtCounter) (roceAad p) p.payload
      emitRoce { s with sec := { s.sec with mgmtCounter := s.sec.mgmtCounter + 1 } } q { p with payload := body } 0 0
  | none => emitRoce s q p 0 0

/-- Send a RoCE packet on a queue pair: on a data queue pair with the envelope of R348 and LOAD and HEADROOM of R333. -/
def sendRoce (s : State) (qi : Nat) (taken : Option Nat) (p : RocePacket) : State :=
  if qi = 4096 then sendMgmt s p else
  let q := qpGet s qi
  let h := headroomFor s (flowNat q.part true q.host) taken
  if ethEnc s q.part ∧ p.payload ≠ [] then
    let x := partGet s q.part
    let body := sealBytes x.keys.eth 0x4000 x.ethCounter (roceAad p) p.payload
    let s := partSet s q.part { x with ethCounter := x.ethCounter + 1 }
    emitRoce s q { p with payload := body } (loadOf s) h
  else emitRoce s q p (loadOf s) h

/-- Cut a READ response at the path MTU, less the envelope's 24 bytes (R326, R349). -/
def readChunks (size : Nat) : Nat → List Byte → List (List Byte)
  | 0, _ => []
  | fuel + 1, bs => if bs.length ≤ size then [bs] else bs.take size :: readChunks size fuel (bs.drop size)

/-- READ RESPONSE packets of the bytes, from a PSN on: only, or first, middle and last. -/
def readResponses (q : Qp) (size psn : Nat) (bs : List Byte) : List RocePacket :=
  let cs := readChunks size (bs.length + 1) bs
  let n := cs.length
  (List.range n).map (fun i =>
    let op := if n = 1 then 0x10 else if i = 0 then 0x0D else if i + 1 = n then 0x0F else 0x0E
    rocePacket q op ((psn + i) % 2 ^ 24) 0x1F (cs.getD i []))

/-- RNR timer code of a hint (R330). -/
def rnrCode (h : Nat) : Nat := if h ≤ 2 then 1 else if h ≤ 5 then 2 else if h ≤ 7 then 3 else if h ≤ 10 then 4 else 5

/-- The data queue pair enters ERROR with a CAUSE and drops what it still owed (R324, R330). R324 gives the management
queue pair no such state. -/
def qpFatal (s : State) (qi cause : Nat) : State :=
  if qi = 4096 then s
  else qpMod s qi (fun q => { q with
    state := 2, cause := cause, order := [], outstanding := 0, answers := [], asked := [], again := [], msg := 0 })

/-- An RNR NAK or a PSN sequence NAK is counted as it is sent (R337). -/
def countNak (p : RocePacket) (q : Qp) : Qp :=
  if p.opcode ≠ 0x11 then q
  else if p.syndrome.toNat / 32 = 1 then { q with rnr := satTo 12 (q.rnr + 1) }
  else if p.syndrome = 0x60 then { q with seqErr := sat16 q.seqErr } else q

/-- The packets of one owed response leave. -/
def sendOwed (s : State) (qi : Nat) (e : OwedResp) (ps : List RocePacket) : State :=
  ps.foldl (fun s p => sendRoce (qpMod s qi (countNak p)) qi e.taken p) s

/-- Send every response at the front of a queue pair's order that is known: responses leave in PSN order (R326). A fatal
NAK ends the queue pair; behind an RNR NAK of an admitted packet the others wait for its reissue (R330, R331). -/
def flushOrder (qi : Nat) : Nat → State → State
  | 0, s => s
  | fuel + 1, s =>
    let q := qpGet s qi
    match q.order with
    | [] => s
    | e :: rest => match e.known with
      | none => s
      | some ps =>
        let s := sendOwed (qpSet s qi { q with order := rest }) qi e ps
        match e.fatal with
        | some c => qpFatal s qi c
        | none =>
          if e.again then qpMod s qi (fun q => { q with order := { e with known := none, again := false } :: q.order })
          else flushOrder qi fuel s

/-- A response that no request in the order owes leaves behind those that are owed (R326). -/
def respond (s : State) (qi : Nat) (e : OwedResp) : State :=
  let q := qpGet s qi
  flushOrder qi (q.order.length + 1) (qpSet s qi { q with order := q.order ++ [e] })

/-- Change the first open place of a PSN in a queue pair's order. -/
def fillOwed (psn : Nat) (f : OwedResp → OwedResp) : List OwedResp → List OwedResp
  | [] => []
  | e :: es => if e.psn = psn ∧ e.known.isNone then f e :: es else e :: fillOwed psn f es

/-- The response of one request is known: it leaves in its turn. One that a reset of its queue pair has dropped leaves
nowhere (R324). -/
def settleOrder (s : State) (qi psn : Nat) (f : OwedResp → OwedResp) : State :=
  let q := qpGet s qi
  flushOrder qi (q.order.length + 1) (qpSet s qi { q with order := fillOwed psn f q.order })

/-- A NAK with an AETH syndrome. -/
def nakPacket (s : State) (qi psn syndrome : Nat) : RocePacket := rocePacket (qpGet s qi) 0x11 psn syndrome []

/-! ### Answers -/

/-- Host number and partition's flow of a request (R89, R323). -/
def requestFlow (s : State) (req : Request) : Nat :=
  match req.origin with
  | .fabric _ => flowNat req.pkt.part.toNat false req.pkt.src.toNat
  | .ethWrite q _ _ _ _ | .ethRead q _ | .ethAtomic q _ | .ethControl q _ _ =>
    flowNat (qpGet s q).part true (qpGet s q).host
  | .engine p _ => flowNat p false req.pkt.src.toNat

/-- The Keaxel packet that answers a request: CMP or DATA to SRC, echoing SEQ, with the epoch, LOAD and HEADROOM
(R144, R145). A CMP carries the pool address it reports; DATA carries RADDR. -/
def answerPacket (s : State) (req : Request) (taken : Option Nat) (a : Ans) : Packet :=
  let p := req.pkt
  let part := p.part.toNat
  let k := requestFlow s req
  let base := match a.data with
    | some bs => newPacket s .data p.src.toNat part p.seq (raddr p) bs
    | none => { newPacket s .cmp p.src.toNat part p.seq (a.addr.getD p.addr.toNat) [] with aux := BitVec.ofNat 64 a.aux }
  { base with
    status := BitVec.ofNat 4 (statusCode a.status), load := BitVec.ofNat 4 (loadOf s),
    headroom := BitVec.ofNat 4 (headroomFor s k taken),
    epoch := BitVec.ofNat 16 (partGet s part).epoch }

/-- The hint a status of the RETRY kind carries on Ethernet: RESETTING and QUIESCED count as 1 (R330). -/
def ethHint (a : Ans) : Nat := if a.status = .retry then a.hint else 1

/-- A queue pair still answers a request: it is RTS, and no RESET has discarded the request (R324). -/
def qpOwes (s : State) (qi : Nat) (req : Request) : Bool :=
  let q := qpGet s qi
  decide (q.state = 1) && decide (q.life = req.life)

/-- A request of a PSN stands in the order, its response not known. -/
def openOwed (q : Qp) (psn : Nat) : Bool := q.order.any (fun e => e.psn == psn && e.known.isNone)

/-- A PSN comes after another in the sequence. -/
def psnAfter (psn n : Nat) : Bool := decide (0 < ringDist psn n (2 ^ 24)) && decide (ringDist psn n (2 ^ 24) < 2 ^ 23)

/-- Queue pair and PSN of an Ethernet host's request. -/
def originQp : Origin → Option (Nat × Nat)
  | .ethWrite qi psn _ _ _ | .ethRead qi psn | .ethAtomic qi psn | .ethControl qi psn _ => some (qi, psn)
  | _ => none

/-- The message of a queue pair as it stood before a WRITE or SEND packet. -/
def rewindMsg (q : Qp) (send : Bool) (p : Packet) : Qp :=
  let q := { q with msg := if p.hops = 0 then 0 else if send then 2 else 1 }
  if send then { q with sendBytes := q.sendBytes.take p.aux.toNat }
  else { q with wrAddr := p.addr.toNat, wrKey := p.seq.toNat, wrLeft := p.aux.toNat }

/-- A packet that waits for admission ends: its queue pair expects it again, and what waits behind it is out of sequence
and gone, with one NAK for the gap (R329, R331). `ps` is its own response. -/
def cutBack (s : State) (qi psn : Nat) (ps : List RocePacket) (f : Qp → Qp) : State :=
  let q := qpGet s qi
  let gone := q.order.filter (fun e => psnAfter psn e.psn)
  let s := qpSet s qi (f { q with
    epsn := psn, gap := !gone.isEmpty, order := q.order.filter (fun e => !psnAfter psn e.psn)
    asked := q.asked.filter (fun e => !psnAfter psn e.psn)
    outstanding := q.outstanding - (gone.filter (·.slot)).length })
  let s := flowMod s (flowNat q.part true q.host) (fun g => { g with
    queue := g.queue.filter (fun h => match originQp h.req.origin with
      | some (qj, n) => !(decide (qj = qi) && decide (h.req.life = q.life) && !h.req.again && psnAfter psn n)
      | none => true) })
  let s := settleOrder s qi psn (fun e => { e with known := some ps })
  if gone.isEmpty then s else respond s qi { psn := psn, known := some [nakPacket s qi psn 0x60] }

/-- The fatal NAK a status gives (R330). -/
def fatalSyndrome (st : Status) : Nat := match st with
  | .fenced | .poison => 0x63
  | _ => 0x62

/-- A fatal NAK is sent in its turn, and the queue pair then enters ERROR (R324, R326, R330). -/
def fatalAnswer (s : State) (qi psn : Nat) (st : Status) (taken : Option Nat) : State :=
  let nak := nakPacket s qi psn (fatalSyndrome st)
  if openOwed (qpGet s qi) psn then
    settleOrder s qi psn (fun e => { e with taken := taken, known := some [nak], fatal := some 1 })
  else if taken.isNone then respond s qi { psn := psn, known := some [nak], fatal := some 1 } else s

/-- The AETH side of R330 for WRITE and SEND packets. A packet that ends RETRY before its admission is expected again;
one that does so later is asked for again, what followed it being duplicates (R329 to R331). -/
def ethAck (s : State) (qi psn : Nat) (ack send : Bool) (req : Request) (a : Ans) (taken : Option Nat) : State :=
  let q := qpGet s qi
  if !qpOwes s qi req then s
  else match a.status with
    | .retry | .resetting | .quiesced =>
      let nak := nakPacket s qi psn (0x20 + rnrCode (ethHint a))
      if taken.isSome || req.again then
        if openOwed q psn then
          settleOrder (qpSet s qi { q with again := q.again.filter (fun x => x.1 ≠ psn) ++ [(psn, req.pkt)] }) qi psn
            (fun e => { e with taken := taken, known := some [nak], again := true })
        else s
      else if openOwed q psn then cutBack s qi psn [nak] (fun q => rewindMsg q send req.pkt)
      else if q.epsn = psn then respond s qi { psn := psn, known := some [nak] } else s
    | .ok | .empty =>
      settleOrder s qi psn (fun e => { e with
        taken := taken, known := some (if ack then [rocePacket q 0x11 psn 0x1F []] else []) })
    | st => fatalAnswer s qi psn st taken

/-- READ and atomic answers (R330): no response for RETRY, RESETTING, QUIESCED; the host's timeout reissues the request,
which is then served. -/
def ethReply (s : State) (qi psn : Nat) (atomic : Bool) (ps : List RocePacket) (req : Request) (a : Ans)
    (taken : Option Nat) : State :=
  if !qpOwes s qi req then s
  else
    let entered := openOwed (qpGet s qi) psn
    let s := if entered then qpMod s qi (fun q => { q with outstanding := q.outstanding - 1 }) else s
    match a.status with
    | .retry | .resetting | .quiesced =>
      if !entered then s
      else if taken.isNone && !req.again then cutBack s qi psn [] id
      else settleOrder (qpMod s qi (fun q => if atomic then { q with redo := q.redo ++ [psn] } else q)) qi psn
        (fun e => { e with known := some [] })
    | .ok | .empty => settleOrder s qi psn (fun e => { e with taken := taken, known := some ps })
    | st => fatalAnswer s qi psn st taken

/-- The 32 bytes of a control answer (R332): status, TAG, V for PUBLISH and ACQUIRE, word 2 of the version record. -/
def controlAnswer (req : Request) (tag : Nat) (a : Ans) : List Byte :=
  let v := match a.data with
    | some bs => fieldAt bs 0 8
    | none => if pktOp req.pkt = .publish then a.aux else 0
  let w2 := match a.data with
    | some bs => fieldAt bs 8 4
    | none => 0
  leBytes 4 (statusCode a.status * 2 ^ 28) ++ leBytes 4 tag ++ leBytes 8 v ++ leBytes 4 w2 ++ leBytes 12 0

/-- Send one control answer as SEND ONLY with AckReq, at the queue pair's next send PSN, and keep it until it is
acknowledged. It waits while an earlier one waits out an RNR NAK (R326, R332). -/
def sendControl (s : State) (qi : Nat) (e : OwedAnswer) (bytes : List Byte) : State :=
  let q := qpGet s qi
  let waits := q.answers.any (·.rnrWait)
  let s1 := qpSet s qi { q with npsn := (q.npsn + 1) % 2 ^ 24, answers := q.answers ++
    [{ psn := q.npsn, bytes := bytes, retries := 0, rnrRetries := 0, rnrWait := false, taken := e.taken, asker := e.psn, sent := !waits }] }
  if waits then s1
  else sendRoce s1 qi e.taken { rocePacket q 0x04 q.npsn 0 bytes with ackReq := true }

/-- Send every control answer at the front that is known (R332). -/
def flushAsked (qi : Nat) : Nat → State → State
  | 0, s => s
  | fuel + 1, s =>
    let q := qpGet s qi
    match q.asked with
    | [] => s
    | e :: rest => match e.known with
      | none => s
      | some bs => flushAsked qi fuel (sendControl (qpSet s qi { q with asked := rest }) qi e bs)

/-- Give the first open control request of a PSN its answer. -/
def fillAsked (psn : Nat) (taken : Option Nat) (bytes : List Byte) : List OwedAnswer → List OwedAnswer
  | [] => []
  | e :: es => if e.psn = psn ∧ e.known.isNone then { e with taken := taken, known := some bytes } :: es
    else e :: fillAsked psn taken bytes es

/-- A control request's answer is known: it leaves in its turn (R332). -/
def settleAsked (s : State) (qi psn : Nat) (taken : Option Nat) (bytes : List Byte) : State :=
  let q := qpGet s qi
  flushAsked qi (q.asked.length + 1) (qpSet s qi { q with asked := fillAsked psn taken bytes q.asked })

/-- A control request ends. Its SEND has been ACKed; where its host is fenced the queue pair enters ERROR behind the
answer, with the NAK of that status (R330, R332, R382). -/
def ethControlEnd (s : State) (qi psn tag : Nat) (req : Request) (a : Ans) (taken : Option Nat) : State :=
  if !qpOwes s qi req then s
  else
    let s := settleAsked s qi psn taken (controlAnswer req tag a)
    if a.status = .fenced then
      respond s qi { psn := psn, taken := taken, known := some [nakPacket s qi psn 0x63], fatal := some 1 }
    else s

/-- End a request: the answer leaves on the path the request came by (R36, R330, R332), with HEADROOM as taken at its
charge, or as the credit stands when it was never charged. A RETRY counts at its flow (R112); its hint in frames (R13) has
no field in the header and leaves as an output beside the packet (log entry 10). -/
def answerRequest (s : State) (req : Request) (taken : Option Nat) (a : Ans) : State :=
  let k := requestFlow s req
  let s := if a.status = .retry then flowMod s k (fun f => { f with retry := sat16 f.retry }) else s
  match req.origin with
  | .fabric port =>
    let s' := injectOn s (port / 4) false (answerPacket s req taken a)
    if a.status = .retry then emit s' (.retryHint req.pkt.src.toNat req.pkt.seq.toNat a.hint) else s'
  | .ethWrite qi psn ack _ send => ethAck s qi psn ack send req a taken
  | .ethRead qi psn =>
    let q := qpGet s qi
    let size := if ethEnc s q.part then mtuBytes q - 24 else mtuBytes q
    ethReply s qi psn false (readResponses q size psn (a.data.getD [])) req a taken
  | .ethAtomic qi psn =>
    let q := qpGet s qi
    let v := fieldAt (a.data.getD []) 0 8
    let s := if a.status = .ok ∧ qpOwes s qi req ∧ openOwed q psn then qpSet s qi { q with saved := (q.saved ++ [(psn, v)]).drop (q.saved.length - 15) }
      else s
    ethReply s qi psn true [{ rocePacket q 0x12 psn 0x1F [] with swapAdd := BitVec.ofNat 64 v }] req a taken
  | .ethControl qi psn tag => ethControlEnd s qi psn tag req a taken
  | .engine _ _ => s

/-- Note a PUBLISH to a twinned region that a follower ends without holding it: a twin publish waits for no
release of it (R372). -/
def noteTurned (s : State) (req : Request) : State :=
  let a := req.pkt.addr.toNat
  let twinned : Bool := match regionAt s.img.layout (addrPart a) (addrOff a / 2097152) with
    | none => false
    | some r => r.twinned
  let publish : Bool := match pktOp req.pkt with
    | .publish => true
    | _ => false
  if (decide (s.twn.state = 3) || decide (s.twn.state = 2)) && !s.twn.drives && publish && twinned then
    { s with twn := { s.twn with
      turnedAway := s.twn.turnedAway.filter (· ≠ req.pkt.seq.toNat) ++ [req.pkt.seq.toNat] } }
  else s

/-- End a request that R92, or a check before it, turns away: a SEND that is not taken is answered by the transport
(R330), every other request as `answerRequest` gives. -/
def endArrival (s : State) (req : Request) (a : Ans) : State :=
  match req.origin with
  | .ethControl qi psn _ =>
    let s := if a.status = .retry then flowMod s (requestFlow s req) (fun f => { f with retry := sat16 f.retry }) else s
    ethAck s qi psn true true req a none
  | _ => answerRequest (noteTurned s req) req none a

/-- The answer that ends a request with a status and no data, reporting an address when one is known. -/
def endWith (st : Status) (addr : Option Nat := none) (hint : Nat := 1) : Ans := { status := st, addr := addr, hint := hint }

/-- CMP to the source of a packet that was turned away before it became a request (R154, R155, R350): it needs its
own port ACTIVE. -/
def turnAway (s : State) (port : Nat) (p : Packet) (st : Status) : State :=
  injectOn s (port / 4) true (answerPacket s { pkt := p, origin := .fabric port } none (endWith st))

/-- The answer of a request is still in the device: it waits for its output port, or for its turn on its queue pair
(R192). -/
def answerHere (s : State) (v : Service) : Bool :=
  match v.req.origin with
  | .fabric _ => s.fab.waiting.any (fun w => decide (w.inPort = 8) && decide (w.pkt.cls = 1) &&
      decide (w.pkt.dest = v.req.pkt.src) && decide (w.pkt.seq = v.req.pkt.seq))
  | .ethWrite qi psn _ _ _ | .ethRead qi psn | .ethAtomic qi psn => (qpGet s qi).order.any (fun e => e.psn == psn)
  | .ethControl qi psn _ => (qpGet s qi).asked.any (fun e => e.psn == psn) ||
    (qpGet s qi).answers.any (fun e => e.asker == psn && !e.sent)
  | .engine _ _ => false

/-- A request has been answered: it has not ended before its answer leaves (R192). -/
def noteLeaving (s : State) (v : Service) : State :=
  let keep := s.fab.leaving.filter (answerHere s)
  { s with fab := { s.fab with leaving := if answerHere s v then keep ++ [v] else keep } }

/-- Answer a request in service and take it out of service. An answer to a fenced requester is discarded, unless it
says FENCED; on a queue pair of a fenced host the request ends FENCED under R330 (R196, R382). -/
def finish (s : State) (v : Service) (a : Ans) : State :=
  let s := { s with svc := s.svc.filter (fun x => x.ticket ≠ v.ticket) }
  let k := requestFlow s v.req
  let fenced := isFenced s (flowHost k) (flowReq k)
  let a : Ans := if fenced ∧ (originQp v.req.origin).isSome then { status := .fenced, addr := a.addr } else a
  if fenced ∧ a.status ≠ .fenced then s
  else noteLeaving (answerRequest (if a.status = .ok then s else noteTurned s v.req) v.req v.headroom a) v

end Sys2Proof.Machine
end

