-- ==== Sys2Proof/Machine/Admission.lean ====
section
/-! DEFINITION. Frame synchronisation outside the tick (R84, R85), and the traffic discipline: arrival, metering,
admission, the calendar wheel, gates and limits (R89 to R103). -/

namespace Sys2Proof.Machine

/-! ### The flow's rules -/

/-- Units of the request packet itself: the metered size B of R100 and the u of R99. -/
def meteredUnits (req : Request) : Nat :=
  match req.origin with
  | .fabric _ => packetUnits req.pkt.len.toNat
  | .ethRead _ _ => 1
  | .ethAtomic _ _ => 1
  | .ethControl _ _ _ => packetUnits 32
  | _ => packetUnits req.pkt.len.toNat

/-- READ RESPONSE packets of a read of `n` bytes at chunk size `size`: at least one (R329, R335). -/
def readPackets (size n : Nat) : Nat := max 1 (ceilDiv n size)

/-- Units of the response packets of a READ (R329). -/
def readUnits (size n extra : Nat) : Nat :=
  let full := n / size
  let rest := n % size
  full * packetUnits (size + extra) + (if rest ≠ 0 ∨ n = 0 then packetUnits (if n = 0 then 0 else rest + extra) else 0)

/-- Cost of a request (R90, R329). A WRITE's payload counts as it arrived, envelope included. -/
def costOf (s : State) (req : Request) : Nat :=
  match req.origin with
  | .fabric _ => requestCost req.pkt (fabEnc s req.pkt.part.toNat)
  | .ethWrite _ _ _ last _ => packetUnits req.pkt.len.toNat + bit01 last
  | .ethRead q _ =>
    let enc := ethEnc s (qpGet s q).part
    let size := if enc then mtuBytes (qpGet s q) - 24 else mtuBytes (qpGet s q)
    1 + readUnits size (readLen req.pkt) (if enc then 24 else 0)
  | .ethAtomic _ _ => 2
  | .ethControl _ _ _ => packetUnits 32 + 1
  | .engine _ _ => 0

/-- Unit time of the port a packet arrived on, in clk (R99). -/
def unitTime (req : Request) : Nat := match req.origin with
  | .fabric _ => 3
  | _ => 6

/-- The effective allotment A = min(ALLOT, LIMIT in force) (R94, R103). -/
def effAllot (s : State) (k : Nat) : Nat :=
  match allotOf s.img.layout k with
  | none => 0
  | some r => min r.allot (flowGet s k).limitNow

/-- The colour of R100 with the buckets after it: 0 green, 1 yellow, 2 red. -/
def meter (pol : Option PolRec) (tc tp colour b : Nat) : Nat × Nat × Nat :=
  match pol with
  | none => (0, tc, tp)
  | some r =>
    if r.aware ∧ colour = 2 then (2, tc, tp)
    else if tp < b then (2, tc, tp)
    else if r.aware ∧ colour = 1 then (1, tc, tp - b)
    else if tc < b then (1, tc, tp - b)
    else (0, tc - b, tp - b)

/-- Count a packet by the colour of its last metering, in a flow that has a record (R100, R102). -/
def countColour (f : Flow) (policed : Bool) (colour : Nat) : Flow :=
  if !policed then f
  else match colour with
    | 0 => { f with green := wrap32 f.green }
    | 1 => { f with yellow := wrap32 f.yellow }
    | _ => { f with red := wrap32 f.red }

/-- Close boundary of a window in clk of the frame: 64 counts as clk 8,176 (R99). -/
def closeClk (c : Nat) : Nat := if c = 64 then 8176 else 128 * c

/-- A head packet of u units fits at clk t in an open window of the flow; a flow without GATES records always fits
(R92, R99). -/
def fitsAt (s : State) (k clk u t : Nat) : Bool :=
  let gs := gatesOf s.img.layout k
  gs.isEmpty || gs.any (fun g =>
    let sub := subOf s clk
    decide (128 * g.opens ≤ sub) && decide (sub < closeClk g.closes) &&
      decide (max clk (flowGet s k).wEnd + u * t ≤ s.td.tickClk + closeClk g.closes))

/-- The start, as an absolute slot, of the flow's next window that can hold the packet; none when no window can. -/
def nextWindow (s : State) (k clk u t : Nat) : Option Nat :=
  let here := absSlot s clk
  let cands := ((gatesOf s.img.layout k).filter (fun g => decide (u * t ≤ closeClk g.closes - 128 * g.opens))).map
    (fun g => let a := 64 * frameOf s + g.opens; if here < a then a else a + 64)
  minBy id cands

/-- Slot 0 of the frame at whose tick C first exceeds 0; none when A is 0 (R96). -/
def creditSlot (s : State) (k : Nat) : Option Nat :=
  let c := (flowGet s k).credit
  if 0 < c then some (64 * frameOf s)
  else
    let a := effAllot s k
    if a = 0 then none else some (64 * (frameOf s + ceilDiv (1 - c).toNat a))

/-- Whether the head packet may be admitted at a clk (R92). -/
def headAdmissible (s : State) (k clk : Nat) : Bool :=
  let f := flowGet s k
  match f.queue with
  | [] => false
  | h :: _ =>
    decide (f.net ≤ absSlot s clk) && decide (0 < f.credit) && !h.deferred &&
      fitsAt s k clk (meteredUnits h.req) (unitTime h.req)

/-- The latest of the times a waiting head waits for, with the reason R112 reports: 3 red deferral, 2 gate or fit,
1 credit (R97); of several the first in the order deferral, credit, gate is shown (DESIGN CHOICE, log entry 13). A time
that never comes lies at the wheel's last slot. -/
def headNet (s : State) (k clk : Nat) : Nat × Nat :=
  let f := flowGet s k
  let last := 64 * frameOf s + 1023
  match f.queue with
  | [] => (f.net, 0)
  | h :: _ =>
    let c := (creditSlot s k).getD last
    let fits := fitsAt s k clk (meteredUnits h.req) (unitTime h.req)
    let g := if fits then 0 else (nextWindow s k clk (meteredUnits h.req) (unitTime h.req)).getD last
    let d := if h.deferred then 64 * (frameOf s + 1) else 0
    let reason := if h.deferred then 3 else if f.credit ≤ 0 then 1 else if !fits then 2 else 0
    (max c (max g d), reason)

/-- Put a flow whose head waits on the wheel, in the last slot the wheel spans at the latest; a flow with an empty
queue or an admissible head leaves the wheel (R97). -/
def placeFlow (s : State) (k clk : Nat) : State :=
  let f := flowGet s k
  if f.queue.isEmpty ∨ headAdmissible s k clk then flowSet s k { f with wheel := none, wait := 0 }
  else
    let n := headNet s k clk
    flowSet s k { f with net := n.1, wheel := some (min n.1 (64 * frameOf s + 1023)), wait := n.2 }

/-- Frames until NET, 0 to 15: the RETRY hint of R92. -/
def netHint (s : State) (k : Nat) : Nat := min 15 ((flowGet s k).net / 64 - frameOf s)

/-- The longest wait of a partition's admission queues in this frame (R104). -/
def noteWait (s : State) (p w : Nat) : State :=
  let m := max w (tblGet (fun _ => 0) s.td.partWait p)
  { s with td := { s.td with partWait := tblSet (fun _ => 0) s.td.partWait p m } }

/-- Charge units to a flow: credit falls, the frame's sums rise (R90, R106, R112). -/
def charge (s : State) (k units : Nat) : State :=
  let s := flowMod s k (fun f => { f with credit := f.credit - units, unitsNow := f.unitsNow + units })
  if flowHost k then { s with td := { s.td with ethUnits := s.td.ethUnits + units } }
  else { s with td := { s.td with fabUnits := s.td.fabUnits + units } }

/-- After a charge that leaves C at or below 0, NET is slot 0 of the frame that ends the debt (R96). -/
def debtNet (s : State) (k : Nat) : State :=
  if 0 < (flowGet s k).credit then s
  else flowMod s k (fun f => { f with net := max f.net ((creditSlot s k).getD (64 * frameOf s + 1023)) })

/-! ### Arrival (R92) -/

/-- The half that a partial reset holds in reset now, from the tick after its write to the tick it ends (R385). -/
def halfInReset (s : State) : Option Nat :=
  if s.twn.rstBusy ∧ s.twn.rstLastKind ≠ 0 ∧ s.twn.rstFrame < frameOf s then some (s.twn.rstLastKind - 1) else none

/-- What a fenced requester's request ends with (R196, R382): FAULT comes first for a FLUSH, PUBLISH or ACQUIRE outside
the PUBLISHED regions. -/
def fencedStatus (s : State) (k : Packet) : Status :=
  match pktOp k with
  | .flush | .publish | .acquire => if (publishUnit s k.addr.toNat).isNone then .fault else .fenced
  | _ => .fenced

/-- What ends a request before the flow's own steps of R92: a fenced requester (R382), a partition that is not ACTIVE
(R26), a half in reset (R385), a confidential partition without keys (R354). -/
def arrivalBar (s : State) (req : Request) : Option Status :=
  let k := requestFlow s req
  let p := flowPart k
  if isFenced s (flowHost k) (flowReq k) then some (fencedStatus s req.pkt)
  else match partStatus s p with
    | some st => some st
    | none =>
      if halfInReset s ≠ none ∧ halfInReset s = originPlane req.origin then some .resetting
      else if isConf s p ∧ ¬ (partGet s p).keys.keyed then some .fault
      else none

/-- What is recorded when a request enters the admission queue. Its queue pair's expected PSN moves past it, its place in
the response order is kept, and a SEND is ACKed on receipt (R326, R332); a follower will end or hold it anew (R372). -/
def noteQueued (s : State) (req : Request) : State :=
  match req.origin with
  | .ethWrite qi psn _ _ _ =>
    qpMod s qi (fun q =>
      if req.again then { q with again := q.again.filter (fun x => x.1 ≠ psn) }
      else { q with epsn := (psn + 1) % 2 ^ 24, gap := false, order := q.order ++ [{ psn := psn }] })
  | .ethRead qi psn =>
    let size := if ethEnc s (qpGet s qi).part then mtuBytes (qpGet s qi) - 24 else mtuBytes (qpGet s qi)
    let next := (psn + readPackets size (readLen req.pkt)) % 2 ^ 24
    qpMod s qi (fun q => { q with
      epsn := if q.epsn = psn then next else q.epsn, gap := q.gap && decide (q.epsn ≠ psn),
      order := q.order ++ [{ psn := psn, slot := true }],
      outstanding := q.outstanding + 1 })
  | .ethAtomic qi psn =>
    qpMod s qi (fun q => { q with
      epsn := if q.epsn = psn then (psn + 1) % 2 ^ 24 else q.epsn, gap := q.gap && decide (q.epsn ≠ psn),
      order := q.order ++ [{ psn := psn, slot := true }], outstanding := q.outstanding + 1, redo := q.redo.filter (· ≠ psn) })
  | .ethControl qi psn _ =>
    let s := qpMod s qi (fun q => { q with
      epsn := (psn + 1) % 2 ^ 24, gap := false, order := q.order ++ [{ psn := psn }], asked := q.asked ++ [{ psn := psn }] })
    settleOrder s qi psn (fun e => { e with known := some [rocePacket (qpGet s qi) 0x11 psn 0x1F []] })
  | .fabric _ => { s with twn := { s.twn with turnedAway := s.twn.turnedAway.filter (· ≠ req.pkt.seq.toNat) } }
  | .engine _ _ => s

/-- R92 on arrival: the first step that ends the request ends it. -/
def arrive (s : State) (clk : Nat) (req : Request) : State :=
  let k := requestFlow s req
  match arrivalBar s req with
  | some st => endArrival s req (endWith st)
  | none =>
    if ((allotOf s.img.layout k).map (·.allot)).getD 0 = 0 then
      endArrival (partCnt s (flowPart k) (fun c => { c with viol := sat16 c.viol })) req (endWith .fault)
    else if (flowGet s k).limitNow = 0 then endArrival s req (endWith .retry none 15)
    else
      let pol := policerOf s.img.layout k
      let f := flowGet s k
      let m := meter pol f.tc f.tp req.colour (meteredUnits req)
      let f := { f with tc := m.2.1, tp := m.2.2 }
      let drop := (pol.map (·.drop)).getD false
      if m.1 = 2 ∧ drop then
        flowSet s k (countColour { f with drop := sat16 f.drop } true 2)
      else if 4 ≤ f.queue.length then
        endArrival (flowSet s k (countColour f pol.isSome m.1)) req (endWith .retry none (netHint s k))
      else
        let deferred := decide (m.1 = 2)
        let f := if deferred then { f with defer := sat16 f.defer } else countColour f pol.isSome m.1
        let q : QueuedReq := { req := { req with arrived := clk }, deferred := deferred }
        placeFlow (noteQueued (flowSet s k { f with queue := f.queue ++ [q] }) req) k clk

/-- An Ethernet host's request that waits for admission counts no more: its queue pair is not RTS, a RESET has discarded
it, or a packet before it has ended, so that it is out of sequence (R324, R329). -/
def staleReq (s : State) (req : Request) : Bool :=
  match req.origin with
  | .ethWrite qi psn _ _ _ | .ethRead qi psn | .ethAtomic qi psn => !qpOwes s qi req || !openOwed (qpGet s qi) psn
  | .ethControl qi psn _ => !qpOwes s qi req || !(qpGet s qi).asked.any (fun e => e.psn == psn && e.known.isNone)
  | _ => false

/-- A packet leaves its admission queue without service: uncharged, with a status (R75, R102, R382). A follower's twin
publish then waits for no release of it (R372). -/
def endWaiting (s : State) (k : Nat) (req : Request) (a : Ans) : State :=
  let s := noteWait s (flowPart k) (s.td.now - req.arrived)
  if staleReq s req then s else answerRequest (noteTurned s req) req none a

/-- All that waits in a flow's admission queue ends. A deferred packet counts by the one metering it had (R102). -/
def emptyFlow (s : State) (k : Nat) (a : Request → Ans) : State :=
  let f := flowGet s k
  let g := (f.queue.filter (·.deferred)).foldl (fun g _ => countColour g true 2) f
  f.queue.foldl (fun s q => endWaiting s k q.req (a q.req))
    (flowSet s k { g with queue := [], wheel := none, wait := 0 })

/-- Every packet in the partition's admission queues ends with a status, uncharged, and leaves (R75). -/
def endQueued (s : State) (p : Nat) (st : Status) : State :=
  (s.flows.map (·.1)).foldl (fun s k => if flowPart k ≠ p then s else emptyFlow s k (fun _ => endWith st)) s

/-! ### Commands -/

/-- FRM_SYNC_EDGE (R84, R85): what a registered edge does in each state. The tick it gives falls 12 clk later. Powered
time is free of FRM_SYNC in D2 and stands still in D3 (R108). -/
def execFrmSyncEdge (clk : Nat) (s : State) : Host.Outcome State Fault Refusal :=
  let s := seenClk s clk
  let td := s.td
  let at_ := subOf s clk + 12
  if td.freerun ∨ 2 ≤ s.pwr.state then .next s
  else if td.sync = 0 then
    if td.edgeTick.isSome then .next s else .next { s with td := { td with edgeTick := some (clk + 12), sync := 1 } }
  else if td.edgeTick.isNone ∧ 8176 ≤ at_ ∧ at_ ≤ 8208 then
    .next { s with td := { td with edgeTick := some (clk + 12), sync := 1 } }
  else .next { s with td := { td with stray := sat16 td.stray } }

/-- Enter UNLOCKED without moving the phase; an edge already taken gives no tick any more (R84, R85; log entry 15, also
for a next tick whose clk has passed). -/
def unlockSync (s : State) : State := { s with td := { s.td with sync := 0, edgeTick := none } }

/-- RELOCK (R84): from LOCKED or HOLDOVER to UNLOCKED; nothing in UNLOCKED or while FREERUN is 1. -/
def relock (s : State) : State := if s.td.freerun then s else if s.td.sync = 0 then s else unlockSync s
def execRelock (s : State) : Host.Outcome State Fault Refusal := .next (relock s)

/-- A write of FREERUN (R85). -/
def writeFreerun (s : State) (v : Bool) : State :=
  let s := { s with td := { s.td with freerun := v } }
  if v ∧ s.td.sync ≠ 0 then unlockSync s else if v then { s with td := { s.td with edgeTick := none } } else s
def execFreerunWrite (v : Bool) (s : State) : Host.Outcome State Fault Refusal := .next (writeFreerun s v)

/-- TD_SYNC_CTRL.CLR zeroes TD_SYNC_ERR (R111). -/
def clearSyncErr (s : State) : State := { s with td := { s.td with missed := 0, stray := 0 } }
def execSyncErrClear (s : State) : Host.Outcome State Fault Refusal := .next (clearSyncErr s)

/-- Requests of one clk enter their queues by the port they came in on, plane A's ports 0 to 3 before plane B's (R89). -/
def originPort : Origin → Nat
  | .fabric p => p
  | _ => 8

/-- The next request to arrive: of those sunk in the clk of the oldest, the first of the lowest port (R89). -/
def nextArrival (rs : List Request) : Option Request :=
  match rs with
  | [] => none
  | r :: _ => minBy (fun x => originPort x.origin) (rs.filter (fun x => x.arrived = r.arrived))

/-- REQUEST_ARRIVAL (R89, R92): the next request the ring stop has sunk arrives for its flow. -/
def execRequestArrival (clk : Nat) (s : State) : Host.Outcome State Fault Refusal :=
  match nextArrival s.fab.arrivals with
  | none => .next s
  | some r =>
    .next (arrive (seenClk { s with fab := { s.fab with arrivals := s.fab.arrivals.erase r } } clk) clk r)

/-- Admission of the head packet (R92, R96, R99): the whole cost is charged, W_end moves for a gated flow, and the
request goes into service under the next ticket. A stale one only leaves (R329). One whose address names another partition than its tag ends FAULT, its
address unused (R30). -/
def admitHead (s : State) (k clk : Nat) : State :=
  let f := flowGet s k
  match f.queue with
  | [] => s
  | h :: rest =>
    let cost := costOf s h.req
    let wEnd := if (gatesOf s.img.layout k).isEmpty then f.wEnd
      else max clk f.wEnd + meteredUnits h.req * unitTime h.req
    if staleReq s h.req then placeFlow (flowSet s k { f with queue := rest, wheel := none, wait := 0 }) k clk else
    let s := flowSet s k { f with queue := rest, wEnd := wEnd, wheel := none, wait := 0 }
    let s := debtNet (charge s k cost) k
    let s := noteWait s (flowPart k) (clk - h.req.arrived)
    let v : Service := { ticket := s.nextTicket, key := k, req := h.req, headroom := some (headroomCode (flowGet s k).credit), admitted := clk }
    let s := { s with svc := s.svc ++ [v], nextTicket := s.nextTicket + 1 }
    let s := if addrPart h.req.pkt.addr.toNat = flowPart k then s else finish s v (endWith .fault)
    placeFlow s k clk

/-- FLOW_ADMIT (R92): the head is admitted where the conditions hold at the clk; otherwise nothing happens. -/
def execFlowAdmit (flow : FlowKey) (clk : Nat) (s : State) : Host.Outcome State Fault Refusal :=
  let s := seenClk s clk
  let k := flowKeyNat flow
  if headAdmissible s k clk then .next (admitHead s k clk) else .next s

/-- A packet that was deferred in an earlier frame: its second metering is due (R102). -/
def remeterDue (s : State) (q : QueuedReq) : Bool := q.deferred && decide (q.req.arrived < s.td.tickClk)

/-- The second metering of a flow's due packets, in queue order: a packet red again ends with RETRY, hint 1 (R102). -/
def remeterFlow (s : State) (k : Nat) : State :=
  let f := flowGet s k
  let pol := policerOf s.img.layout k
  let r := f.queue.foldl (fun (acc : Flow × List QueuedReq × List Request) q =>
    let (g, keep, gone) := acc
    if !remeterDue s q then (g, keep ++ [q], gone)
    else
      let m := meter pol g.tc g.tp q.req.colour (meteredUnits q.req)
      let g := countColour { g with tc := m.2.1, tp := m.2.2 } true m.1
      if m.1 = 2 then (g, keep, gone ++ [q.req]) else (g, keep ++ [{ q with deferred := false }], gone))
    (f, [], [])
  let s := flowSet s k { r.1 with queue := r.2.1 }
  let s := r.2.2.foldl (fun s q => endWaiting s k q (endWith .retry none 1)) s
  placeFlow s k s.td.now

/-- RED_REMETER (R87, R102), at clk 1 of the frame after the deferral, in flow order: nothing while a lower flow has a
packet due. -/
def execRedRemeter (flow : FlowKey) (s : State) : Host.Outcome State Fault Refusal :=
  let k := flowKeyNat flow
  if s.flows.any (fun e => decide (e.1 < k) && e.2.queue.any (remeterDue s)) then .next s else .next (remeterFlow s k)

/-- WHEEL_RELEASE (R98): every flow placed in the slot, or before it, is released in ascending order; one whose head
still waits is placed again at its new NET. -/
def execWheelRelease (clk : Nat) (s : State) : Host.Outcome State Fault Refusal :=
  let s := seenClk s clk
  let here := absSlot s clk
  .next (s.flows.foldl (fun s e =>
    match (flowGet s e.1).wheel with
    | none => s
    | some w => if w ≤ here then placeFlow (flowMod s e.1 (fun f => { f with wheel := none })) e.1 clk else s) s)

/-- GATE_WINDOW_OPEN (R99): W_end returns to the clk the window opens at. -/
def execGateWindowOpen (flow : FlowKey) (clk : Nat) (s : State) : Host.Outcome State Fault Refusal :=
  let s := seenClk s clk
  let k := flowKeyNat flow
  if (gatesOf s.img.layout k).any (fun g => g.opens == slotOf s clk) then
    let t := s.td.tickClk + 128 * slotOf s clk
    .next (placeFlow (flowMod s k (fun f => { f with wEnd := t })) k clk)
  else .next s

/-- A write of TD_FLOW_LIMIT: clamped to ALLOT; in force from the next tick. A flow without a record keeps none (R103,
R112). -/
def writeFlowLimit (s : State) (k v : Nat) : State :=
  match allotOf s.img.layout k with
  | none => s
  | some r => flowMod s k (fun f => { f with limit := min v r.allot })

/-- FLOW_LIMIT_WRITE (R103). -/
def execFlowLimitWrite (flow : FlowKey) (value : BitVec 16) (s : State) : Host.Outcome State Fault Refusal :=
  .next (writeFlowLimit s (flowKeyNat flow) value.toNat)

end Sys2Proof.Machine
end

