-- ==== Sys2Proof/Machine/Access.lean ====
section
/-! DEFINITION. The data path below a request: ranges cut into pieces, frames of the flash cache (R230 to R236), reads
and writes of published, cached and near memory (R197, R254 to R256, R304, R305), and how pieces resolve into one
answer (R22, R23). -/

namespace Sys2Proof.Machine

/-! ### Frames of the flash cache (R232, R233, R235) -/

def holdsFrame (g : Granule) : Bool :=
  match g.st with
  | .cached | .dirty | .filling | .writing => true
  | _ => false

/-- Frames of a partition in use, each with its granule. -/
def usedFrames (s : State) (p : Nat) : List (Nat × Nat) :=
  ((s.fl.grans.filter (fun e => e.1 / 2 ^ 32 = p && holdsFrame e.2)).map (fun e => (e.2.frame, e.1 % 2 ^ 32)))

/-- The lowest frame that no granule uses. -/
def unusedFrame (s : State) (p : Nat) : Option Nat :=
  let used := usedFrames s p
  let n := frameCount s.img.layout p
  (List.range (min n (used.length + 1))).find? (fun f => used.all (fun u => u.1 != f))

def handGet (s : State) (p : Nat) : Nat := tblGet (fun _ => 0) s.fl.hands p
def handSet (s : State) (p h : Nat) : State :=
  { s with fl := { s.fl with hands := tblSet (fun _ => 0) s.fl.hands p h } }

/-- Two ranges of offsets meet. -/
def meet (a n b m : Nat) : Bool := decide (a < b + m) && decide (b < a + n)

/-- An access to a granule is in service: of a request, or of a tile that an engine's command has translated and not yet
moved (R235, R236). -/
def accessInService (s : State) (p n : Nat) : Bool :=
  match granuleOffset s.img.layout p n with
  | none => false
  | some o =>
    s.svc.any (fun v => let a := v.req.pkt.addr.toNat
      decide (addrPart a = p) && meet (addrOff a) (rangeLen v.req.pkt) o 65536) ||
    s.eng.pairs.any (fun e => decide (e.1 / 64 = p) && e.2.service.any (fun c =>
      c.tiles.any (fun t => !t.moved && meet (addrOff t.first) 65536 o 65536)))

/-- The clock sweep (R235): reference bits passed are cleared, the first freeable frame is freed and its granule
returns to FLASH. Two turns reach every frame. -/
def sweepFrames (p n : Nat) (used : List (Nat × Nat)) : Nat → State → State × Option Nat
  | 0, s => (s, none)
  | fuel + 1, s =>
    let h := handGet s p % n
    let s := handSet s p ((h + 1) % n)
    match used.find? (fun u => u.1 = h) with
    | none => sweepFrames p n used fuel s
    | some (_, g) =>
      let x := granGet s p g
      if x.ref then sweepFrames p n used fuel (granSet s p g { x with ref := false })
      else if x.st = .cached ∧ !accessInService s p g then
        (granSet s p g { st := .flash, loc := x.loc, next := x.next }, some h)
      else sweepFrames p n used fuel s

/-- A frame for a granule, if one is free or can be freed at once. -/
def takeFrame (s : State) (p : Nat) : State × Option Nat :=
  match unusedFrame s p with
  | some f => (s, some f)
  | none =>
    let n := frameCount s.img.layout p
    if n = 0 then (s, none) else sweepFrames p n (usedFrames s p) (2 * n + 1) s

/-- Lines of a frame: offset in the frame, slice and slice-local address. -/
def frameLines (s : State) (p f off n : Nat) : List (Nat × Nat × Nat × Nat) :=
  (cutAt 64 off n).filterMap (fun c => (framePlace s p f c.1).map (fun q => (c.2.1, c.2.2, q.1, q.2)))

/-- A frame filled with zeros. -/
def zeroFrame (s : State) (p f : Nat) : State :=
  (frameLines s p f 0 65536).foldl (fun s l =>
    injectFlips (dramClear s l.2.2.1 l.2.2.2 64) l.2.2.1 l.2.2.2) s

/-- What an access finds of a granule. -/
inductive FlashRes where
  | zeros | frame (f : Nat)
  /-- A miss, with the hint of R233. -/
  | miss (hint : Nat)
  | status (st : Status)
deriving DecidableEq, Repr, Inhabited

/-- The granule becomes DIRTY in a frame, youngest of its partition. -/
def dirtyGranule (s : State) (p n f : Nat) : State :=
  let s := granMod s p n (fun g =>
    if g.st = .writing then { g with rewritten := true, ref := true }
    else if g.st = .dirty then { g with ref := true }
    else { g with st := .dirty, frame := f, ref := true, dirtyOrder := s.fl.nextDirty })
  { s with fl := { s.fl with nextDirty := s.fl.nextDirty + 1 } }

def countHit (s : State) (p : Nat) : State := partCnt s p (fun c => { c with flHit := wrap32 c.flHit })
def countMiss (s : State) (p : Nat) : State := partCnt s p (fun c => { c with flMiss := wrap32 c.flMiss })

/-- One command to each of the four channels of a stripe block's group, then READ STATUS ENHANCED (R225, R227). -/
def issueOnfi (s : State) (op : OnfiOp) (l : FlashLoc) : State :=
  let four := fun (op : OnfiOp) =>
    (List.range 4).map (fun q => ({ chan := 4 * stripeGroup l.block + q, op := op, loc := l } : OnfiIssue))
  { s with fl := { s.fl with issued := s.fl.issued ++ four op ++ four .readStatus } }

/-- A miss of a granule in FLASH: the access starts the fetch, unless no frame can be freed (R233). -/
def startFetch (s : State) (p n : Nat) : State × FlashRes :=
  match takeFrame s p with
  | (s, none) => (s, .miss 1)
  | (s, some f) =>
    let s := granMod s p n (fun g => { g with st := .filling, frame := f, fetchStart := frameOf s, fetchLoc := g.loc, ref := true, badCw := 0 })
    (match (granGet s p n).loc with
      | none => s
      | some l => issueOnfi s .readPage l, .miss s.fl.hint)

/-- An access reads the granule's map entry. A bad word makes it a reserved state; a miscorrected one is taken as it
decodes (R230, R232, R300, R307). -/
def readMap (s : State) (source p n : Nat) : State :=
  match mapPlace s p n with
  | none => s
  | some (sl, a) =>
    let k := wordKey sl a
    if (lineWords sl a).all (fun k => markGet s k = {}) then s
    else
      let put := fun (s : State) (g : Granule) =>
        { s with fl := { s.fl with grans := tblSet (fun _ => {}) s.fl.grans (p * 2 ^ 32 + n) g } }
      let (s, _, masks) := readColumn s source sl a []
      let g := granGet s p n
      let block := fun (i : Nat) => leBytes 8 (granWord (granGet s p (n / 2 * 2 + i)))
      if markPoisoned (markGet s k) then put s { st := .bad }
      else if masks.all (· = 0) then s
      else
        let at_ := a / 16 % 4 * 16
        let line := List.replicate at_ 0 ++ block 0 ++ block 1 ++ List.replicate (48 - at_) 0
        put s (granOfWord g (fieldAt (flipLine s sl a line masks) (a % 64) 8))

/-- One access to a granule (R232, R240): `whole` says that a write covers every byte of it. -/
def flashTouch (s : State) (p n : Nat) (write whole : Bool) : State × FlashRes :=
  let g := granGet s p n
  if write && flashState s.fl = 4 then (s, .status .fault)
  else match g.st with
  | .zero =>
    if !write then (countHit s p, .zeros)
    else match takeFrame s p with
      | (s, none) => (s, .miss 1)
      | (s, some f) => (dirtyGranule (countHit (zeroFrame s p f) p) p n f, .frame f)
  | .flash =>
    if write && whole then
      match takeFrame s p with
      | (s, none) => (s, .miss 1)
      | (s, some f) => (dirtyGranule (countHit s p) p n f, .frame f)
    else startFetch s p n
  | .filling => (s, .miss (max 1 (s.fl.hint - (frameOf s - g.fetchStart))))
  | .bad => (s, .status (if write then .fault else .poison))
  | _ =>
    if write then (dirtyGranule (countHit s p) p n g.frame, .frame g.frame)
    else (granSet (countHit s p) p n { g with ref := true }, .frame g.frame)

/-- A line that the fetch installed poisoned: its codeword was lost, or its copy's poison mask names it (R242, R308). -/
def installedBad (s : State) (g : Granule) (line : Nat) : Bool :=
  g.badCw.testBit (line / 64) || (match g.loc with
    | none => false
    | some l => (tblGet (fun _ => ({} : FlashCopy)) s.fl.copies (l.block * 4096 + l.page)).poison.contains line)

/-- A word of a CACHED frame that is found bad drops it: the granule returns to FLASH and the access misses (R307). A
line that the medium lost was installed poisoned, and its reads end with POISON (R242). -/
def dropBadFrame (s : State) (source p n off len : Nat) : State :=
  let g := granGet s p n
  let bad := (frameLines s p g.frame off len).filter (fun l =>
    !installedBad s g ((off + l.1) / 64) && (linePoisoned s l.2.2.1 l.2.2.2 ||
      (lineDecode s l.2.2.1 l.2.2.2 []).any (fun w => w.2.isNone)))
  if g.st = .cached ∧ bad ≠ [] then
    granSet (bad.foldl (fun s l => (readLine s source l.2.2.1 l.2.2.2 1).1) s) p n
      { st := .flash, loc := g.loc, next := g.next }
  else s

/-- The map entry of a granule lies in a fenced slice (R220, R230). -/
def mapFenced (s : State) (p n : Nat) : Bool := (mapPlace s p n).any (fun x => sliceFenced s x.1)

/-- An access to a granule, from source `source` of R315. A miss counts where the access ends RETRY; one that `waits`,
as an engine's does, is made again (R233, R234, R246). -/
def accessGranule (s : State) (source p n off len : Nat) (write whole waits : Bool) : State × FlashRes :=
  if mapFenced s p n then (s, .status .fenced)
  else match flashTouch (dropBadFrame (readMap s source p n) source p n off len) p n write whole with
  | (s, .miss h) => (if waits then s else countMiss s p, .miss h)
  | r => r

/-! ### Pieces -/

/-- The outcome of one piece: its place in the run, its pool address, status, bytes and hint. -/
structure Piece where
  idx : Nat
  addr : Nat
  status : Status
  bytes : List Byte
  hint : Nat := 1
deriving DecidableEq, Repr, Inhabited

/-- Lines of memory that hold a run: place in the run, length, slice, local address. -/
def pinnedLines (s : State) (p off n : Nat) : List (Nat × Nat × Option (Nat × Nat)) :=
  (cutAt 64 off n).map (fun c => (c.2.1, c.2.2, match placeOf s p c.1 with
    | .pinned _ sl a => some (sl, a)
    | _ => none))

/-- Read one run within a line of a slice, with the statuses of R220 and R304. The address of a bad line is the
line's own. -/
def readPiece (s : State) (source p off i n sl a : Nat) : State × Piece :=
  if sliceFenced s sl then (s, { idx := i, addr := poolAddr p (off + i), status := .fenced, bytes := [] })
  else
    let (s, bs, bad) := readLine s source sl a n
    (s, if bad then { idx := i, addr := poolAddr p ((off + i) / 64 * 64), status := .poison, bytes := bs }
      else { idx := i, addr := poolAddr p (off + i), status := .ok, bytes := bs })

/-- The words of a line that a list of window words names, by their place in the line. -/
def badIn (bad : List Nat) (off : Nat) : List Nat := (bad.filter (fun w => w / 8 = off / 64)).map (· % 8)

/-- Write one run within a line of a slice (R220, R305). While a slice is copied to its spare its contents stay one
and the same, so a write lands in both (R221). -/
def writePiece (s : State) (source : Nat) (bad : List Nat) (p off i sl a : Nat) (bs : List Byte) : State × Piece :=
  if sliceFenced s sl then (s, { idx := i, addr := poolAddr p (off + i), status := .fenced, bytes := [] })
  else
    let (s, bad) := writeLine s source sl a bs (badIn bad (off + i))
    (s, if bad then { idx := i, addr := poolAddr p ((off + i) / 64 * 64), status := .poison, bytes := [] }
      else { idx := i, addr := poolAddr p (off + i), status := .ok, bytes := [] })

def faultPiece (p off i : Nat) (st : Status) (hint : Nat := 1) : Piece :=
  { idx := i, addr := poolAddr p (off + i), status := st, bytes := [], hint := hint }

/-- Fold a step over pieces. -/
def foldPieces {α : Type} (f : State → α → State × Piece) (s : State) (l : List α) : State × List Piece :=
  l.foldl (fun acc x => let r := f acc.1 x; (r.1, acc.2 ++ [r.2])) (s, [])

/-! ### Pop words (R280, R285) -/

/-- Near offset and length of each area of a pair (R279, R280). -/
def areasOf (x : Pair) : List (Nat × Nat) := [(x.ctl, 64), (x.cmd, 64 * 2 ^ x.size), (x.cpl, 16 * 2 ^ x.size)]

/-- The area registers of a pair name a control block: all three at 0, as an image leaves them, name none (R281, log
entry 69). -/
def namesAreas (x : Pair) : Bool := x.ctl ≠ 0 || x.cmd ≠ 0 || x.cpl ≠ 0

/-- A near offset lies in an area of a pair in use. -/
def inArea (s : State) (p n : Nat) : Bool :=
  s.eng.pairs.any (fun e => e.1 / 64 = p && e.2.state ≠ 0 &&
    (areasOf e.2).any (fun a => decide (a.1 ≤ n) && decide (n < a.1 + a.2)))

/-- A pair's bytes 32 to 47 are its pop words at a near offset: it is in use, or it is DISABLED, its registers name its
areas, and the offset lies in no area of a pair in use. -/
def popsAt (s : State) (p n : Nat) (e : Nat × Pair) : Bool :=
  e.1 / 64 = p && (e.2.state ≠ 0 || (namesAreas e.2 && !inArea s p n))

/-- A near offset is one of bytes 32 to 47 of a pair's control block (R285). -/
def isPopByte (s : State) (p n : Nat) : Bool :=
  s.eng.pairs.any (fun e => popsAt s p n e && decide (e.2.ctl + 32 ≤ n) && decide (n < e.2.ctl + 48))

/-- The pair whose pop address a near offset is. -/
def popPair (s : State) (p n : Nat) : Option Nat :=
  (s.eng.pairs.find? (fun e => popsAt s p n e && e.2.ctl + 32 = n)).map (fun e => e.1 % 64)

/-- The pair a read pops: 16 B at its pop address (R285). -/
def popOf (s : State) (k : Packet) : Option Nat :=
  let off := addrOff k.addr.toNat
  if pktOp k = .rd ∧ readLen k = 16 ∧ nearBase ≤ off then popPair s (addrPart k.addr.toNat) (off - nearBase) else none

/-- Bytes of the near window from an offset, those of pop words reading zero. -/
def maskPop (s : State) (p n : Nat) (bs : List Byte) : List Byte :=
  (List.range bs.length).map (fun i => if isPopByte s p (n + i) then 0 else bs.getD i 0)

/-- How bytes are moved: the window words that the own port is said to write in the same clk, the engine that moves the
bytes (none for a request), the range of the whole access, and a tile's: the name of the first line where its pages give
it another than its pool address, and the mapping epoch; and the words of the partition's offsets that arrived
uncorrectable (R232, R255, R294, R303). -/
structure Mover where
  own : List Nat := []
  eng : Option Nat := none
  first : Nat := 0
  len : Nat := 0
  name : Option Nat := none
  epoch : Option Nat := none
  bad : List Nat := []
deriving DecidableEq, Repr, Inhabited

/-- The access comes through the own port of a slice's near bank: an engine of the same cluster (R4, R255). -/
def ownPort (m : Mover) (sl : Nat) : Bool := match m.eng with
  | none => false
  | some e => e / 32 = sl / 16

/-- Read a run that lies in one 64 KiB block and is not coherent: published, cached or near memory. `base` is the
run's place in the request. -/
def readSegment (s : State) (source : Nat) (m : Mover) (p off base n : Nat) (waits : Bool) : State × List Piece :=
  let shift := fun (r : State × List Piece) => (r.1, r.2.map (fun x => { x with idx := base + x.idx }))
  match placeOf s p off with
  | .none => (s, [faultPiece p off base .fault])
  | .near _ _ =>
    shift (foldPieces (fun s c =>
      match nearPlace (partSlices s.img.layout p) (c.1 - nearBase) with
      | none => (s, faultPiece p off c.2.1 .fault)
      | some (sl, b) =>
        let (s, raw, bad) := nearRead s (ownPort m sl) source sl b c.2.2
        let bs := maskPop s p (c.1 - nearBase) raw
        match bad with
        | some w => (s, { idx := c.2.1, addr := poolAddr p ((c.1 + (w - b)) / 8 * 8), status := .poison, bytes := bs })
        | none => (s, { idx := c.2.1, addr := poolAddr p c.1, status := .ok, bytes := bs })) s (cutAt 256 off n))
  | .pinned _ _ _ =>
    shift (foldPieces (fun s l => match l.2.2 with
      | none => (s, faultPiece p off l.1 .fault)
      | some (sl, a) => readPiece s source p off l.1 l.2.1 sl a) s (pinnedLines s p off n))
  | .flash _ g =>
    match accessGranule s source p g (off % 65536) n false false waits with
    | (s, .zeros) => (s, [{ idx := base, addr := poolAddr p off, status := .ok, bytes := List.replicate n 0 }])
    | (s, .frame f) =>
      shift (foldPieces (fun s l => readPiece s source p off l.1 l.2.1 l.2.2.1 l.2.2.2) s
        (frameLines s p f (off % 65536) n))
    | (s, .miss h) => (s, [faultPiece p off base .retry h])
    | (s, .status st) => (s, [{ idx := base, addr := poolAddr p off, status := st, bytes := List.replicate n 0 }])

/-- A near word meets the own port's writes of the clk of an access that the other port has taken up (R255). -/
def collides (s : State) (m : Mover) (n sl b : Nat) : Bool :=
  m.own.contains (n / 8) || s.near.own.any (fun x => decide (x.1 / 8 = nearByteKey sl b / 8))

/-- Near-bank counters of the cluster of a slice, for partitions not in confidential mode (R255, R256, R277). -/
def countCollision (s : State) (p sl : Nat) : State :=
  if isConf s p then s
  else { s with near := { s.near with coll := s.near.coll.set (sl / 16) (wrap32 (s.near.coll.getD (sl / 16) 0)) } }
def countNearAtom (s : State) (p sl : Nat) : State :=
  if isConf s p then s
  else { s with near := { s.near with atoms := s.near.atoms.set (sl / 16) (wrap32 (s.near.atoms.getD (sl / 16) 0)) } }

/-- Write bytes of one near word through the own port: of the writes of one clk, the highest logical engine's bytes
remain (R255). -/
def ownPortWrite (s : State) (source e sl b : Nat) (bs : List Byte) : State × Bool :=
  let s := ownBegin s (nearWordKey sl b) true
  let before := s.near.own
  let k := nearByteKey sl b
  let kept := fun (j : Nat) => before.any (fun x => x.1 = k + j && decide (e < x.2))
  let out := bs.zipIdx.map (fun x => if kept x.2 then nearByte s sl (b + x.2) else x.1)
  let mine := ((List.range bs.length).filter (fun j => !kept j)).map (fun j => (k + j, e))
  let (s, bad) := nearWriteWord s source sl b out
  ({ s with near := { s.near with own := before ++ mine } }, bad)

/-- Write the bytes of one near word (R255, R305, R313). -/
def nearWritePiece (s : State) (source : Nat) (m : Mover) (p off i : Nat) (bs : List Byte) : State × Piece :=
  let n := off + i - nearBase
  let word := poolAddr p ((off + i) / 8 * 8)
  match nearPlace (partSlices s.img.layout p) n with
  | none => (s, faultPiece p off i .fault)
  | some (sl, b) =>
    if isPopByte s p n then (s, faultPiece p off i .ok)
    else if nearRowLost s sl b then (s, { faultPiece p off i .fault with addr := word })
    else
      let s := if ownPort m sl then s else otherBegin s (nearWordKey sl b) 1 true
      if !ownPort m sl && collides s m n sl b then
        (countCollision s p sl, { idx := i, addr := word, status := .collided, bytes := [] })
      else
        let (s, bad) := if ownPort m sl then ownPortWrite s source (m.eng.getD 0) sl b bs else nearWriteWord s source sl b bs
        (s, { idx := i, addr := word, status := if bad then .poison else .ok, bytes := [] })

/-- Write a run that lies in one 64 KiB block and is not coherent. `whole`: the write it is of covers that block. -/
def writeSegment (s : State) (source : Nat) (m : Mover) (p off base : Nat) (bs : List Byte)
    (whole waits : Bool) : State × List Piece :=
  let n := bs.length
  let shift := fun (r : State × List Piece) => (r.1, r.2.map (fun x => { x with idx := base + x.idx }))
  let part := fun (i k : Nat) => (bs.drop i).take k
  match placeOf s p off with
  | .none => (s, [faultPiece p off base .fault])
  | .near _ _ =>
    shift (foldPieces (fun s c => nearWritePiece s source m p off c.2.1 (part c.2.1 c.2.2)) s (cutAt 8 off n))
  | .pinned _ _ _ =>
    shift (foldPieces (fun s l => match l.2.2 with
      | none => (s, faultPiece p off l.1 .fault)
      | some (sl, a) => writePiece s source m.bad p off l.1 sl a (part l.1 l.2.1)) s (pinnedLines s p off n))
  | .flash _ g =>
    match accessGranule s source p g (off % 65536) n true whole waits with
    | (s, .frame f) =>
      shift (foldPieces (fun s l => writePiece s source m.bad p off l.1 l.2.2.1 l.2.2.2 (part l.1 l.2.1)) s
        (frameLines s p f (off % 65536) n))
    | (s, .miss h) => (s, [faultPiece p off base .retry h])
    | (s, .status st) => (s, [faultPiece p off base st])
    | (s, .zeros) => (s, [faultPiece p off base .fault])

/-- A byte can be written where it rests: not one of a flash granule that memory does not hold. -/
def restsHere (s : State) (p off : Nat) : Bool := match placeOf s p off with
  | .flash _ g => (match (granGet s p g).st with
    | .cached | .dirty | .writing => true
    | _ => false)
  | _ => true

/-- A range that a failed or cancelled write leaves undefined takes free bytes (R23, R384); that is no access, and counts
as none (R246). -/
def blurRange (s : State) (p off n : Nat) : State :=
  let c := (partGet s p).cnt
  let (bs, s) := drawBytes s n
  let s := (cutAt 65536 off n).foldl (fun s c =>
    if restsHere s p c.1 then (writeSegment s 0 {} p c.1 0 ((bs.drop c.2.1).take c.2.2) false false).1 else s) s
  partCnt s p (fun x => { x with flHit := c.flHit, flMiss := c.flMiss })

/-! ### Resolution (R22, R23) -/

def gather (s : State) (ticket : Nat) (ps : List Piece) : State :=
  { s with coh := { s.coh with gathered := s.coh.gathered ++ ps.map (fun x =>
      { ticket := ticket, idx := x.idx, addr := x.addr, status := x.status, bytes := x.bytes, hint := x.hint }) } }

/-- The pieces of a request that have ended, in address order. -/
def piecesOf (s : State) (ticket : Nat) : List Gathered :=
  sortBy (fun a b => decide (a.idx ≤ b.idx)) (s.coh.gathered.filter (fun g => g.ticket == ticket))

def dropPieces (s : State) (ticket : Nat) : State :=
  { s with coh := { s.coh with gathered := s.coh.gathered.filter (fun g => g.ticket != ticket) } }

/-- The part with the lowest pool address among those that did not end OK (R23). -/
def firstFailed (ps : List Gathered) : Option Gathered := ps.find? (fun g => g.status != .ok)

/-- The parts that ended OK of a write that failed are undefined until they are written again (R23). `pos` gives the
partition offset of an index and `stop` the index that ends the range. -/
def blurParts (s : State) (p : Nat) (pos : Nat → Nat) (stop : Nat) : List Gathered → State
  | [] => s
  | g :: rest =>
    let fin := (rest.head?.map (·.idx)).getD stop
    blurParts (if g.status = .ok then blurRange s p (pos g.idx) (fin - g.idx) else s) p pos stop rest

/-- R23 for a request that wrote. In the near window every word that has neither collided nor gone bad stays written
(R255). -/
def blurFailed (s : State) (v : Service) (ps : List Gathered) : State :=
  let k := v.req.pkt
  let off := addrOff k.addr.toNat
  match firstFailed ps with
  | none => s
  | some g =>
    if pktOp k ≠ .wr ∨ (nearBase ≤ off ∧ (g.status = .collided ∨ g.status = .poison)) then s
    else blurParts s (addrPart k.addr.toNat) (off + ·) (rangeLen k) ps

/-- A piece of a request still has to end. -/
def isOpen (s : State) (ticket : Nat) : Bool :=
  s.coh.txns.any (fun t => (match t.job with
    | none => false
    | some j => j.svc.ticket == ticket) || t.queued.any (fun j => j.svc.ticket == ticket))

/-- A read answered POISON is counted; device-wide, but for a confidential partition's (R303, R318, R320, R354). -/
def countPoison (s : State) (p : Nat) : State :=
  partCnt (if isConf s p then s else { s with di := { s.di with poison := wrap32 s.di.poison } }) p (fun c => { c with diUe := sat16 c.diUe })

/-- The bytes of the pieces of a read, `n` in all; those of a piece that returned none are undefined (R23). -/
def joinPieces (s : State) (ps : List Gathered) (n : Nat) : State × List Byte :=
  let (fill, s') := drawBytes s n
  let bs := ps.flatMap (fun g => g.bytes)
  if bs.length = n then (s, bs)
  else
    (s', (List.range n).map (fun i => match ps.find? (fun g => decide (g.idx ≤ i) && decide (i < g.idx + g.bytes.length)) with
      | some g => g.bytes.getD (i - g.idx) 0
      | none => fill.getD i 0))

/-- The answer of a read, write or atomic from its pieces. -/
def resolve (s : State) (v : Service) (ps : List Gathered) : State × Ans :=
  let read : Bool := match pktOp v.req.pkt with
    | .rd | .atom => true
    | _ => false
  let n := if pktOp v.req.pkt = .atom then 8 else readLen v.req.pkt
  match firstFailed ps with
  | none =>
    if read then
      let (s, bs) := joinPieces s ps n
      (s, { status := .ok, data := some bs })
    else (s, { status := .ok })
  | some g =>
    let s := if read ∧ g.status = .poison then countPoison s v.req.pkt.part.toNat else s
    if pktOp v.req.pkt = .rd ∧ g.status = .poison then
      let (s, bs) := joinPieces s ps n
      (s, { status := .poison, data := some bs })
    else (s, { status := g.status, addr := some g.addr, hint := g.hint })

end Sys2Proof.Machine
end

