-- ==== Sys2Proof/Machine/Ledger.lean ====
section
/-! DEFINITION. The operation ledger of a partition: entries, the chained digest, the buffer and what waits for it
(R360 to R363). -/

namespace Sys2Proof.Machine

/-- Entry kinds (R361). -/
inductive LgKind where
  | image | firmware | keys | reset | command | publish | mapping | weights | brk
deriving DecidableEq, Repr, Inhabited

def lgCode : LgKind → Nat
  | .image => 1 | .firmware => 2 | .keys => 3 | .reset => 4 | .command => 5 | .publish => 6 | .mapping => 7
  | .weights => 8 | .brk => 9

/-- IMAGE, FIRMWARE, KEYS, RESET and BREAK never wait (R363). -/
def lgNeverWaits : LgKind → Bool
  | .image | .firmware | .keys | .reset | .brk => true
  | _ => false

/-- Buffer size of a partition: 2^k entries, k = min(16, ⌊log2(R / 1 KiB)⌋); none without a slice (R360). -/
def ledgerSize (l : Layout) (p : Nat) : Nat :=
  let r := sumNat ((partSlices l p).map (fun sl => reserveOf l sl)) * 2097152
  if r = 0 then 0 else 2 ^ min 16 (log2Nat (r / 1024))

/-- `n` bytes of `bs`, zero-filled. -/
def padTo (n : Nat) (bs : List Byte) : List Byte := sliceBytes bs 0 n

/-- An entry but for the fields that its appending fixes, SEQNO and PTIME (R361). -/
def lgTemplate (k : LgKind) (status srckind queue req : Nat) (body extra : List Byte) : List Byte :=
  leBytes 1 (lgCode k) ++ leBytes 1 status ++ leBytes 1 srckind ++ leBytes 1 queue ++ leBytes 2 (req % 4096) ++
    leBytes 2 0 ++ leBytes 24 0 ++ padTo 64 body ++ padTo 32 extra

/-- The 128 bytes of an entry as appended (R361). -/
def lgEntry (template : List Byte) (boot ptime seqno : Nat) : List Byte :=
  template.take 8 ++ leBytes 4 boot ++ leBytes 4 0 ++ leBytes 8 ptime ++ leBytes 8 seqno ++ template.drop 32

/-- A buffer is full when HEAD − TAIL equals its size (R363). -/
def lgFull (g : Ledger) : Bool := decide (g.head - g.tail = g.size)

/-- The number of the i-th 16-byte piece of an entry of a partition's ledger store. -/
def lgPiece (p n i : Nat) : Nat := p * 2 ^ 20 + n % 65536 * 8 + i

/-- A stored entry's pieces are written whole (R300). -/
def storedClean (s : State) (p n : Nat) : State := match reserveSlice s p n with
  | none => s
  | some sl => (List.range 8).foldl (fun s i => reserveClean s sl 3 (lgPiece p n i)) s

/-- One entry is hashed and stored. A full buffer gives up its oldest entry; without a buffer the entry is stored
nowhere. Either way LG_LOST counts it and LG_TAIL moves on (R360, R363). -/
def lgPut (boot ptime : Nat) (g : Ledger) (template : List Byte) : Ledger :=
  let e := lgEntry template boot ptime g.head
  let d := sha256 (digestBytes g.digest ++ e)
  if g.size = 0 then { g with digest := d, head := g.head + 1, tail := g.head + 1, lost := satTo 32 (g.lost + 1) }
  else
    let full := lgFull g
    { g with
      digest := d, head := g.head + 1, tail := if full then g.tail + 1 else g.tail,
      lost := if full then satTo 32 (g.lost + 1) else g.lost,
      entries := tblSet (fun _ => []) g.entries (g.head % 65536) e }

/-- The order of two entries of one clk: ascending KIND, then ascending queue-pair number (R360). -/
def lgBefore (a b : List Byte) : Bool :=
  decide ((a.getD 0 0).toNat * 256 + (a.getD 3 0).toNat ≤ (b.getD 0 0).toNat * 256 + (b.getD 3 0).toNat)

/-- The ledger as it stood before the entries of a clk. -/
def lgBack (g : Ledger) : Ledger :=
  { g with digest := g.before.digest, head := g.before.head, tail := g.before.tail, lost := g.before.lost,
           entries := g.before.entries }

/-- An entry is stored beside those of its clk, all in the order of R360. -/
def lgInsert (now boot ptime : Nat) (g : Ledger) (template : List Byte) : Ledger :=
  if g.clk ≠ now ∨ g.batch = [] then
    lgPut boot ptime { g with
      clk := now, batch := [template]
      before := { digest := g.digest, head := g.head, tail := g.tail, lost := g.lost, entries := g.entries } } template
  else
    let batch := sortBy lgBefore (g.batch ++ [template])
    batch.foldl (lgPut boot ptime) { lgBack g with batch := batch }

def lgStore (s : State) (p : Nat) (template : List Byte) : State :=
  let x := partGet s p
  storedClean (partSet s p { x with ledger := lgInsert s.td.now s.td.boot s.td.ptime x.ledger template }) p x.ledger.head

/-- A stored entry is lost. -/
def lgForget (s : State) (p n : Nat) : State :=
  partMod s p (fun x => { x with ledger := { x.ledger with entries := tblErase x.ledger.entries (n % 65536), batch := [] } })

/-- Append an entry, or hold it where its kind waits and the buffer is full or others are held already (R363). The
answer says whether it was appended. `event` and `queue` name what waits behind a held entry. -/
def lgAppend (s : State) (p : Nat) (k : LgKind) (status srckind queue req : Nat) (body extra : List Byte)
    (event : Nat) : State × Bool :=
  let t := lgTemplate k status srckind queue req body extra
  let g := (partGet s p).ledger
  if lgNeverWaits k || (!lgFull g && g.held.isEmpty) || g.size = 0 then (lgStore s p t, true)
  else
    (partMod s p (fun x => { x with ledger := { x.ledger with
      held := x.ledger.held ++ [{ bytes := t, event := event, queue := queue }] } }), false)

/-- A chain begins: D is 32 zero bytes, SEQNO 0, nothing stored, the size fixed afresh (R360). -/
def lgStart (s : State) (p : Nat) : State :=
  partMod s p (fun x => { x with ledger := { size := ledgerSize s.img.layout p } })

/-- The size fixed afresh for an image that keeps the chain: entries that no longer fit are lost oldest first (R360). -/
def lgResize (s : State) (p : Nat) : State :=
  partMod s p (fun x =>
    let g := x.ledger
    let n := ledgerSize s.img.layout p
    let drop := (g.head - g.tail) - n
    { x with ledger := { g with size := n, tail := g.tail + drop, lost := satTo 32 (g.lost + drop), batch := [] } })

/-- An IMAGE entry (R361): SRCKIND 3 for a boot image or warm start, 2 for a load of software. -/
def lgImage (s : State) (p srckind : Nat) (im : Image) : State :=
  (lgAppend s p .image 0 srckind 0 0
    (digestBytes im.digest ++ leBytes 4 im.serial ++ leBytes 1 (if im.partial_ then 2 else 1) ++
      leBytes 1 (bit01 im.amend))
    (digestBytes s.sec.running.measure) 0).1

/-- A RESET entry with the new partition epoch, of a reset that management asked for (R361, R385). -/
def lgReset (s : State) (p : Nat) : State :=
  (lgAppend s p .reset 0 2 0 0 (leBytes 4 (partGet s p).epoch) [] 0).1

/-- A FIRMWARE entry in every ledger of a partition that is not UNUSED (R358): SRCKIND 3 for a rollback, 2 otherwise. -/
def lgFirmware (s : State) (new old : Firmware) (event : Nat) : State :=
  (List.range 32).foldl (fun s p =>
    if (partGet s p).st = .unused then s
    else (lgAppend s p .firmware 0 (if event = 2 then 3 else 2) 0 0
      (digestBytes new.measure ++ leBytes 2 new.svn ++ leBytes 1 event) (digestBytes old.measure) 0).1) s

/-- The SEAL entry of the SEAL in progress, which has passed the membership check (R356, R361). -/
def lgSeal (s : State) (code : Nat) : State := match s.sec.sealing with
  | none => s
  | some x =>
    let body := leBytes 1 x.index ++ List.replicate 7 0 ++ leBytes 8 x.length ++ digestBytes x.plainDigest
    (lgAppend s x.part .weights code 2 0 0 body (digestBytes x.envelope) 0).1

/-- A BREAK entry: first and last SEQNO whose stored entries are lost (R307, R361). -/
def lgBreak (s : State) (p first last : Nat) : State :=
  let s := (lgAppend s p .brk 0 3 0 0 (leBytes 8 first ++ leBytes 8 last) [] 0).1
  partMod s p (fun x => { x with ledger := { x.ledger with broken := true } })

/-- A word of a stored entry is read from the reserve: a bad word loses the entry, and the ledger records the break
(R307). -/
def lgRead (s : State) (p n i : Nat) : State :=
  if tblGet (fun _ => []) (partGet s p).ledger.entries (n % 65536) = [] then s
  else match reserveSlice s p n with
    | none => s
    | some sl =>
      let (s, bad) := reserveRead s 3 sl 3 (lgPiece p n (i / 4))
      if !bad then s
      else lgBreak (lgForget s p n) p n n

end Sys2Proof.Machine
end

