-- ==== Sys2Proof/Machine/Home.lean ====
section
/-! DEFINITION. The coherent home of a half: agents, the directory and its cache, transactions, snoops, non-allocating
access, poison and the treatment of a fenced agent's lines (R165 to R187); and the leader's side of a twin pair where
it sends what it writes and holds back what it answers (R371 to R373). -/

namespace Sys2Proof.Machine

/-! ### The twin of a region (R369, R371, R373) -/

/-- The device leads while it drives TWN_LEAD low and reads it low (R378). -/
def leads (s : State) : Bool := s.twn.drives && !s.twn.lineHigh

/-- The device does a leader's work: it leads, and no RELEASE ends that at the next tick (R378). -/
def serving (s : State) : Bool := leads s && !s.twn.releasing

def pairState (s : State) : Nat := s.twn.state

/-- The region of an offset while the pair twins it: not in OFF, nor in MISMATCH. -/
def twinnedAt (s : State) (p off : Nat) : Option RegionRec :=
  if s.twn.state = 0 ∨ s.twn.state = 5 ∨ nearBase ≤ off then none
  else match regionAt s.img.layout p (off / 2097152) with
    | none => none
    | some r => if r.twinned then some r else none

/-- What a request to a twinned region meets (R369, R371). -/
inductive TwinGate where
  /-- Served here. -/
  | serve
  /-- Ends RESETTING. -/
  | resetting
  /-- A follower of a pair. -/
  | follower (r : RegionRec)
deriving DecidableEq, Repr, Inhabited

def twinGate (s : State) (p off : Nat) : TwinGate :=
  match twinnedAt s p off with
  | none => .serve
  | some r =>
    if s.twn.state = 1 then .resetting
    else if serving s then .serve
    else if s.twn.state = 3 then .follower r else .resetting

def regionId (r : RegionRec) : Nat := r.part * 256 + r.index

/-- The leader mirrors while it feeds or serves beside a follower. -/
def mirroring (s : State) : Bool := serving s && (s.twn.state = 2 || s.twn.state = 3)

def twinPeer (s : State) : Nat := match s.img.layout.spares with
  | none => 0
  | some r => r.twinPeer

/-- Send a twin packet, or keep it until fewer than 2,048 are unanswered (R372). -/
def sendTwin (s : State) (r : RegionRec) (pkt : Packet) : State :=
  let o : TwinOut := { id := s.twn.nextTwin, seq := pkt.seq.toNat, addr := pkt.addr.toNat, region := regionId r,
                       since := frameOf s }
  let s := { s with twn := { s.twn with nextTwin := s.twn.nextTwin + 1 } }
  if s.twn.sent.length < 2048 then inject { s with twn := { s.twn with sent := s.twn.sent ++ [o] } } pkt
  else { s with twn := { s.twn with toSend := s.twn.toSend ++ [(o, pkt)] } }

/-- A mirror write of bytes just written at an address (R372). -/
def mirrorWrite (s : State) (r : RegionRec) (seq : BitVec 32) (addr : Nat) (bs : List Byte) : State :=
  sendTwin s r (newPacket s .twinWr (twinPeer s) r.part seq addr bs)

/-- Mirror what the home, or an atomic, has written; in RESYNC every write of the leader (R371, R381). -/
def mirrorAt (s : State) (always : Bool) (seq : BitVec 32) (p off : Nat) (bs : List Byte) : State :=
  match twinnedAt s p off with
  | none => s
  | some r => if mirroring s ∧ (always ∨ s.twn.state = 2) then mirrorWrite s r seq (poolAddr p off) bs else s

/-- Twin packets of a region that the follower has not answered. -/
def twinWaits (s : State) (r : RegionRec) : List Nat :=
  ((s.twn.sent ++ s.twn.toSend.map (·.1)).filter (fun o => o.region = regionId r)).map (·.id)

/-- An answer the leader holds back while twin packets of its region are unanswered (R373). -/
def reply (s : State) (v : Service) (a : Ans) : State :=
  let addr := v.req.pkt.addr.toNat
  match twinnedAt s (addrPart addr) (addrOff addr) with
  | none => finish s v a
  | some r =>
    let held := regionCoherent r || pktOp v.req.pkt = .publish || pktOp v.req.pkt = .atom
    let ws := twinWaits s r
    if held ∧ s.twn.state = 3 ∧ serving s ∧ ws ≠ [] then
      { s with twn := { s.twn with answers := s.twn.answers ++ [{ svc := v, answer := a, waits := ws }] } }
    else finish s v a

/-- Everything R373 holds back is answered. -/
def sendHeldBack (s : State) : State :=
  s.twn.answers.foldl (fun s a => finish s a.svc a.answer) { s with twn := { s.twn with answers := [] } }

/-- Twin packets stop: none is awaited and none waits to be sent. -/
def stopTwinPackets (s : State) : State := { s with twn := { s.twn with sent := [], toSend := [] } }

/-- The follower of a pair copies anew: what its last life left unanswered is awaited no more, and the leader feeds it
(R373, R381, log entry 58). -/
def feedAgain (s : State) : State :=
  let s := sendHeldBack (stopTwinPackets s)
  { s with twn := { s.twn with state := 2 } }

/-- A request leaves service without an answer of this device: a forwarder has answered it. -/
def dropSvc (s : State) (ticket : Nat) : State :=
  { s with svc := s.svc.filter (fun x => x.ticket ≠ ticket) }

/-! ### Agents (R166, R167, R175) -/

def agentsOf (l : Layout) (p : Nat) : List Nat :=
  (sortBy (fun a b => decide (a ≤ b))
    ((l.allots.filter (fun r => flowPart r.key = p && !flowHost r.key)).map (fun r => flowReq r.key))).take 64

def agentIndex (s : State) (p node : Nat) : Option Nat :=
  (agentsOf s.img.layout p).findIdx? (fun n => n == node)

def agentNode (s : State) (p j : Nat) : Nat := (agentsOf s.img.layout p).getD j 0

/-- Hops of one leg, and of the whole route (R149). -/
def legHops (a b n : Nat) : Nat := min (ringDist a b n) (n - ringDist a b n)
def ringHops (r : RingRec) (a b : Nat) : Nat :=
  legHops (a % 64) (b % 64) r.rowLen + legHops (a / 64) (b / 64) r.colLen

def distTo (s : State) (a b : Nat) : Nat := match s.img.layout.ring with
  | none => 0
  | some r => ringHops r a b

/-- The holder nearest a node, ties to the lower agent index. -/
def nearestHolder (s : State) (p : Nat) (holders : List Nat) (node : Nat) : Option Nat :=
  minBy (fun j => distTo s (agentNode s p j) node) holders

/-! ### The directory (R169 to R172, R185) -/

/-- STATE's codes (R170). -/
def dirCode : DirState → Nat
  | .I => 0 | .S => 1 | .X => 2 | .O => 3 | .P => 4 | .reserved => 5

def dirOfCode : Nat → DirState
  | 0 => .I | 1 => .S | 2 => .X | 3 => .O | 4 => .P | _ => .reserved

/-- The 128 bits of an entry: SHARERS, STATE, OWNER, zero (R169). -/
def dirWord (e : DirEntry) : Nat := e.sharers <<< 64 ||| dirCode e.st <<< 61 ||| e.owner <<< 55

def dirOfWord (w : Nat) : DirEntry :=
  { st := dirOfCode (bitsOf w 61 3), owner := bitsOf w 55 6, sharers := bitsOf w 64 64 }

/-- The slice-local address of the entry of a line of a slice, in the reserve, at the top of the slice (R34, R169). -/
def entryPlace (l : Layout) (sl a : Nat) : Option (Nat × Nat) :=
  let r := reserveOf l sl
  if r = 0 then none
  else some (sl, (sliceUnits - r) * 2097152 + 16 * (Config.dirPlace sl r (a / 64) % (r * 131072)))

def dirPlace (s : State) (line : Nat) : Option (Nat × Nat) :=
  (linePlace s line).bind (fun x => entryPlace s.img.layout x.1 x.2)

/-- The two words of an entry are written whole, clean (R169, R300). -/
def entryClean (s : State) (sl a : Nat) : State :=
  injectFlips (markSet (markSet s (wordKey sl a) {}) (wordKey sl a + 1) {}) sl a

def dirGet (s : State) (line : Nat) : DirEntry := tblGet (fun _ => {}) s.coh.dir (line / 64)

/-- Every change of an entry is written through to its backing (R171). -/
def dirSet (s : State) (line : Nat) (e : DirEntry) : State :=
  let s := { s with coh := { s.coh with dir := tblSet (fun _ => {}) s.coh.dir (line / 64) e } }
  match dirPlace s line with
  | none => s
  | some (sl, a) => entryClean s sl a

def halfMod (s : State) (h : Nat) (f : CohHalf → CohHalf) : State :=
  { s with coh := { s.coh with halves := s.coh.halves.set h (f (s.coh.halves.getD h {})) } }

def proto (s : State) (h : Nat) : State := halfMod s h (fun x => { x with proto := sat16 x.proto })

/-- Holders of an entry as agent indices. -/
def sharersOf (e : DirEntry) : List Nat := setBits 64 e.sharers
def bitOf (j : Nat) : Nat := 1 <<< j
def withSharer (m j : Nat) : Nat := m ||| bitOf j
def withoutSharer (m j : Nat) : Nat := if m.testBit j then m ^^^ bitOf j else m

/-- The set index of a line (R171). -/
def dirSetIndex (line : Nat) : Nat :=
  let l := bitsOf line 6 46
  bitsOf l 0 17 ^^^ bitsOf l 17 17 ^^^ bitsOf l 34 12

/-- A way of a set's bank is in service: not pruned, the spare once grafted (R185). -/
def wayServes (s : State) (half set way : Nat) : Bool :=
  let bank := set / 8192
  !(tblGet (fun _ => 0) s.coh.waysPruned (half * 16 + bank)).testBit way &&
    (decide (way < 16) || (s.coh.halves.getD half {}).grafted.testBit bank)

/-- Ways in service of a set: 16, or 15 for a bank whose spare is in use and that loses another (R185). -/
def usableWays (s : State) (half set : Nat) : Nat := ((List.range 17).filter (wayServes s half set)).length

def hasTxn (s : State) (line : Nat) : Bool := s.coh.txns.any (fun t => t.line = line)

/-- A set of a half's directory cache. -/
def cacheKey (half line : Nat) : Nat := half * 131072 + dirSetIndex line
def cacheGet (s : State) (half line : Nat) : List (Nat × Nat) := tblGet (fun _ => []) s.coh.cache (cacheKey half line)
def cachePut (s : State) (half line : Nat) (l : List (Nat × Nat)) : State :=
  { s with coh := { s.coh with cache := tblSet (fun _ => []) s.coh.cache (cacheKey half line) l } }

/-- The line enters P (R183); `pool` is the address that names it. -/
def enterP (s : State) (half p line pool : Nat) : State :=
  let s := halfMod (dirSet s line { st := .P }) half (fun x => { x with poisoned := sat16 x.poisoned })
  partCnt s p (fun c => { c with poisoned := sat16 c.poisoned, poisonAddr := pool })

/-- A value that breaks its state's invariant, or a reserved one, is handled as P (R170). A DATA region never enters O. -/
def dirLegal (shared : Bool) (e : DirEntry) : Bool :=
  match e.st with
  | .I => e.sharers = 0
  | .S => e.sharers ≠ 0 && e.owner = 0
  | .X => e.sharers = bitOf e.owner
  | .O => shared && e.sharers.testBit e.owner
  | .P => e.sharers = 0
  | .reserved => false

/-- A line of a SHARED region. Of a page that no unit maps any more, the region is not known, and O stands. -/
def lineShared (s : State) (line pool : Nat) : Bool :=
  decide (2 ^ 52 ≤ line) || (regionAt s.img.layout (addrPart pool) (addrOff pool / 2097152)).any (fun r => r.kind = 1)

/-- The entry of a line is read from its backing, one DRAM access of the home (R171): a bad word puts the line in P
(R183, R307); what decryption makes of a miscorrected one, under the reserve key, is open, and it is what the home reads
from then on (R345). -/
def readBacking (s : State) (half line pool : Nat) : State :=
  match dirPlace s line with
  | none => s
  | some (sl, a) =>
    if (lineWords sl a).all (fun k => markGet s k = {}) then s
    else
      let k := wordKey sl a
      let (s, _, masks) := readColumn s 3 sl a []
      if markPoisoned (markGet s k) ∨ markPoisoned (markGet s (k + 1)) then
        if (dirGet s line).st = .P then s else enterP s half (addrPart line) line pool
      else
        let w := a / 8 % 8
        if masks.getD w 0 = 0 ∧ masks.getD (w + 1) 0 = 0 then s
        else
          let (n, s) := drawFree s
          dirSet s line (dirOfWord (n % 2 ^ 128))

/-- A half's counters of traffic leave out that of a confidential partition (R354). -/
def trafficMod (s : State) (half p : Nat) (f : CohHalf → CohHalf) : State := if isConf s p then s else halfMod s half f

/-- The directory's view of a line: a hit in a way in service, which becomes the most recent, or a miss, which reads
the backing (R171, R185). A value that breaks its invariant enters P, counted in PROTO (R170). -/
def readEntry (s : State) (half line pool : Nat) : State :=
  let ways := cacheGet s half line
  let s := match ways.find? (fun w => w.1 = line && wayServes s half (dirSetIndex line) w.2) with
    | some w => cachePut (trafficMod s half (addrPart line) (fun x => { x with hit := wrap32 x.hit })) half line
        (w :: ways.filter (fun x => x.1 != line))
    | none => readBacking (trafficMod s half (addrPart line) (fun x => { x with miss := wrap32 x.miss })) half line pool
  if dirLegal (lineShared s line pool) (dirGet s line) then s
  else proto (enterP s half (addrPart line) line pool) half

/-- An entry that is not in the cache takes a way of its set: a free one in service, else the least recently used that
is not pinned; the answer is false when every one is pinned (R171, R172). -/
def takeWay (s : State) (half line : Nat) : State × Bool :=
  let ways := cacheGet s half line
  if ways.any (fun w => w.1 = line) then (s, true)
  else
    let serves := wayServes s half (dirSetIndex line)
    match (List.range 17).find? (fun w => serves w && !ways.any (fun x => x.2 = w)) with
    | some w => (cachePut s half line ((line, w) :: ways), true)
    | none => match ways.reverse.find? (fun w => serves w.2 && !hasTxn s w.1) with
      | none => (s, false)
      | some v => (cachePut s half line ((line, v.2) :: ways.filter (· != v)), true)

/-- A way pruned while pinned leaves service when its last transaction has ended (R185). -/
def leaveWay (s : State) (half line : Nat) : State :=
  if hasTxn s line then s
  else
    let ways := cacheGet s half line
    let keep := ways.filter (fun w => w.1 != line || wayServes s half (dirSetIndex line) w.2)
    if keep.length = ways.length then s else cachePut s half line keep

/-- A recall of the device's own, which no request asked for (R74, R347, R356). -/
def ownRecall (t : Txn) : Bool := t.step = .recall || t.step = .discard

/-- Transaction entries of a half in use: active and queued requests, and publishes and flushes that wait (R172,
R194). -/
def openEntries (s : State) (half : Nat) : Nat :=
  sumNat ((s.coh.txns.filter (fun t => t.half = half && !ownRecall t)).map (fun t => 1 + t.queued.length)) +
    (s.coh.pubWait.filter (fun w => w.half = half && w.entry)).length

def lineHalf (s : State) (line : Nat) : Nat := match linePlace s line with
  | none => 0
  | some (sl, _) => halfOf sl

/-- A new request may take an entry: the table has room, and no recovery waits for one (R172, R184). -/
def mayOpen (s : State) (half : Nat) : Bool :=
  decide (openEntries s half < 4096) && !s.coh.recoveries.any (fun r => lineHalf s r.2.1 = half)

def notePeak (s : State) (half : Nat) : State :=
  halfMod s half (fun x => { x with peak := max x.peak (openEntries s half) })

/-! ### Pieces of requests at a line -/

/-- The agent a piece comes from: a caching agent is a node of the fabric (R166). -/
def jobRequester (s : State) (j : LineJob) : Option Nat := match j.svc.req.origin with
  | .fabric _ => agentIndex s (addrPart j.addr) j.svc.req.pkt.src.toNat
  | _ => none

/-- SOURCE of a read on behalf of a request (R314). -/
def sourceOf (o : Origin) : Nat := match o with
  | .fabric _ => 0
  | .engine _ q => if q = 64 then 0 else 2
  | _ => 1

def isAgentOp (o : LineOp) : Bool := o = .rdS || o = .rdX || o = .upg

/-- A line's piece of a request ends. A coherent request ends whole: DATA for a read, CMP for an upgrade. -/
def endJob (s : State) (j : LineJob) (st : Status) (bs : List Byte) (hint : Nat := 1) : State :=
  if isAgentOp j.op then
    let data := if st = .ok ∨ st = .poison then (if j.op = .upg then none else some bs) else none
    let s := if st = .poison ∧ j.op ≠ .upg then countPoison s (addrPart j.addr) else s
    reply s j.svc { status := st, data := data, addr := some j.addr, hint := hint }
  else
    let at_ := if st = .poison then j.addr / 64 * 64 else j.addr
    gather s j.svc.ticket [{ idx := j.idx, addr := at_, status := st, bytes := bs, hint := hint }]

/-- A piece of a multicast copy that this stop has accepted (R160, R161). -/
def isPlacement (j : LineJob) : Bool := match j.svc.req.origin with
  | .engine _ q => q = 64
  | _ => false

/-- A request ends with RETRY, hint 1, counted (R172). A copy has been accepted, and no one sends it again: its piece
waits to be placed. -/
def retryJob (s : State) (half : Nat) (full : Bool) (j : LineJob) : State :=
  if isPlacement j then { s with coh := { s.coh with placing := s.coh.placing ++ [j] } } else
  let s := trafficMod s half (addrPart j.addr) (fun x =>
    if full then { x with retryTxn := sat16 x.retryTxn } else { x with retrySet := sat16 x.retrySet })
  endJob (partCnt s (addrPart j.addr) (fun c => { c with cohRetry := sat16 c.cohRetry })) j .retry [] 1

/-- The 64 bytes of a line at the home, and whether it is bad. -/
def homeRead (s : State) (source sl a : Nat) : State × List Byte × Bool := readLine s source sl (a / 64 * 64) 64

/-- A write that the home makes to a region's memory, mirrored for a twinned region (R371). -/
def homeWrite (s : State) (source p off sl a : Nat) (seq : BitVec 32) (bs : List Byte) (bad : List Nat := []) : State × Bool :=
  let (s, bad) := writeLine s source sl a bs bad
  if bad then (s, true) else (mirrorAt s true seq p off bs, false)

/-- New value of an atomic: 0 fetch-add, 1 swap, 2 compare-swap (R145). -/
def atomNew (kind old operand compare : Nat) : Nat :=
  match kind with
  | 0 => (old + operand) % 2 ^ 64
  | 1 => operand
  | _ => if old = compare then operand else old

/-- The home's own write of a job at memory: the bytes of a write, or the result of an atomic (R182, R304, R305). -/
def ownWrite (s : State) (j : LineJob) (sl a : Nat) : State :=
  let p := addrPart j.addr
  let off := addrOff j.addr
  let at_ := a / 64 * 64 + j.addr % 64
  let seq := j.svc.req.pkt.seq
  if j.op = .atom then
    let (s, old, bad) := readLine s (sourceOf j.svc.req.origin) sl at_ 8
    if bad then endJob s j .poison []
    else
      let new := leBytes 8 (atomNew j.svc.req.pkt.arg.toNat (leNat old) (fieldAt j.bytes 0 8) (fieldAt j.bytes 8 8))
      let (s, _) := homeWrite s (sourceOf j.svc.req.origin) p off sl at_ seq new
      endJob s j .ok old
  else
    let (s, bad) := homeWrite s (sourceOf j.svc.req.origin) p off sl at_ seq j.bytes j.bad
    if bad then endJob s j .poison [] else endJob s j .ok []

/-! ### Opening transactions and sending snoops (R174) -/

/-- A snoop to an agent on the plane R143 gives it. -/
def sendSnoop (s : State) (o : Op) (p agent line seq arg aux : Nat) : State :=
  inject s { newPacket s o (agentNode s p agent) p (BitVec.ofNat 32 seq) line [] with
    arg := BitVec.ofNat 16 arg, aux := BitVec.ofNat 64 aux }

def homeNode (s : State) : Nat := (nodeId s).getD 0

/-- SEQ, ARG and AUX of a job's snoops: the requester's own for a coherent request; chosen by the home otherwise. -/
structure SnoopTag where
  seq : Nat
  arg : Nat
  aux : Nat
deriving DecidableEq, Repr, Inhabited

def snoopTag (s : State) (j : LineJob) : State × SnoopTag :=
  let k := j.svc.req.pkt
  if isAgentOp j.op then (s, { seq := k.seq.toNat, arg := k.src.toNat, aux := raddr k })
  else
    let (n, s) := drawFree s
    let (m, s) := drawFree s
    (s, { seq := n % 2 ^ 32, arg := homeNode s, aux := if j.op = .read then m % 2 ^ 52 else 0 })

/-- Open a transaction on a line, its record already written. -/
def openTxn (s : State) (t : Txn) : State :=
  let s := { s with coh := { s.coh with
    txns := s.coh.txns ++ [{ t with id := s.coh.nextTxn, since := frameOf s }], nextTxn := s.coh.nextTxn + 1 } }
  notePeak s t.half

def txnFor (half line : Nat) (j : LineJob) (agent : Option Nat) (tag : SnoopTag) (before : DirEntry) : Txn :=
  { id := 0, half := half, part := addrPart line, line := line, pool := j.addr / 64 * 64, busy := .BG, step := .grantData, job := some j,
    agent := agent, pend := [], fwd := none, seq := tag.seq, aux := tag.aux, before := before, snooped := false,
    grantX := false, queued := [], owed := [], since := 0, stalled := false }

/-- Replace a transaction by identity. -/
def putTxn (s : State) (t : Txn) : State :=
  { s with coh := { s.coh with txns := s.coh.txns.map (fun x => if x.id = t.id then t else x) } }
def dropTxn (s : State) (id : Nat) : State :=
  { s with coh := { s.coh with txns := s.coh.txns.filter (fun x => x.id ≠ id) } }

/-- Move to a busy state, from which the timeout of R181 counts anew. -/
def toBusy (s : State) (t : Txn) (b : Busy) : State := putTxn s { t with busy := b, since := frameOf s, stalled := false }

/-! ### The record of the row of R179 that a request meets -/

def recX (r : Nat) : DirEntry := { st := .X, owner := r, sharers := bitOf r }

/-- What the home does first for a request in a stable state. -/
inductive FirstMove where
  /-- Ends at once with a status: no transaction. -/
  | done (st : Status) (stray : Bool)
  /-- DATA from memory, then BG. -/
  | data (rec : DirEntry) (x : Bool)
  /-- CMP at once, then BG. -/
  | cmp (rec : DirEntry)
  /-- SNP_FWD_S or SNP_FWD_X to a holder, then BF. -/
  | forward (rec : DirEntry) (f : Nat) (x : Bool)
  /-- SNP_INV to agents, RECALL to one, then the step. -/
  | invalidate (rec : DirEntry) (inv : List Nat) (rcl : Option Nat) (step : CohStep)
  /-- The home's own read of an owned line: SNP_FWD_S to the owner, then BR. -/
  | ownRead (rec : DirEntry) (f : Nat)
  /-- Read or write at memory with no transaction. -/
  | memory (rec : DirEntry)
deriving DecidableEq, Repr, Inhabited

/-- The forwarder of R175 for a line in S: strictly nearer the requester than the home. -/
def forwarderS (s : State) (p : Nat) (e : DirEntry) (node : Nat) : Option Nat :=
  match nearestHolder s p (sharersOf e) node with
  | none => none
  | some f => if distTo s (agentNode s p f) node < distTo s (homeNode s) node then some f else none

/-- R179, rows RD_S, RD_X and UPG, for agent `r` at `node`. -/
def agentMove (s : State) (p : Nat) (shared : Bool) (e : DirEntry) (op : LineOp) (r node : Nat) : FirstMove :=
  let holds := e.sharers.testBit r
  let others := (sharersOf e).filter (· != r)
  let plus := { e with sharers := withSharer e.sharers r }
  let rdX := match e.st with
    | .I => FirstMove.data (recX r) true
    | .S => .invalidate (recX r) (sharersOf e) none .grantData
    | .X => .forward (recX r) e.owner true
    | _ =>
      match (sharersOf e).filter (· != e.owner) with
      | [] => .forward (recX r) e.owner true
      | inv => .invalidate (recX r) inv none (.forwardX e.owner)
  match op with
  | .rdS =>
    if holds ∧ e.st ≠ .I then .done .fault true
    else match e.st with
      | .I => .data { st := .S, sharers := bitOf r } false
      | .S => match forwarderS s p e node with
        | some f => .forward plus f false
        | none => .data plus false
      | .X =>
        if shared then .forward { st := .O, owner := e.owner, sharers := withSharer e.sharers r } e.owner false
        else .forward { st := .S, sharers := withSharer e.sharers r } e.owner false
      | _ => .forward plus ((nearestHolder s p (sharersOf e) node).getD e.owner) false
  | .rdX => if holds ∧ e.st ≠ .I then .done .fault true else rdX
  | _ =>
    if !holds ∨ e.st = .I then rdX
    else match e.st with
      | .X => .done .fault true
      | _ => match others with
        | [] => .cmp (recX r)
        | inv => .invalidate (recX r) inv none .grantCmp

/-- R182: the home's own read or write, `whole` when it writes all 64 bytes. -/
def ownMove (shared : Bool) (e : DirEntry) (op : LineOp) : FirstMove :=
  let rest := (sharersOf e).filter (· != e.owner)
  match op, e.st with
  | .read, .I | .read, .S => .memory e
  | .read, _ =>
    if shared then .ownRead { e with st := .O } e.owner
    else .ownRead { st := .S, sharers := bitOf e.owner } e.owner
  | _, .I => .memory {}
  | _, .S => .invalidate {} (sharersOf e) none .ownWrite
  | _, _ => .invalidate {} rest (some e.owner) .ownWrite

/-! ### Grants and the ends of transactions (R179 to R184) -/

/-- DATA from memory to the requester, and BG; a bad line is not granted (R304). -/
def grantData (s : State) (t : Txn) (j : LineJob) (x : Bool) : State × Bool :=
  match linePlace s t.line with
  | none => (endJob s j .fault [], false)
  | some (sl, a) =>
    let (s, bs, bad) := homeRead s 3 sl a
    if bad then
      (endJob (dirSet s t.line (if t.snooped then {} else t.before)) j .poison bs, false)
    else (toBusy (endJob s j .ok bs) { t with grantX := x } .BG, true)

/-- CMPs owed to agents whose snoop is answered now; a fenced agent's is discarded (R180, R184). -/
def releaseOwed (s : State) (t : Txn) (who : Nat → Bool) : State × Txn :=
  let s := t.owed.foldl (fun s o =>
    if who o.agent then
      if (partGet s t.part).fenced.testBit o.agent then dropSvc s o.svc.ticket
      else reply s o.svc { status := .ok }
    else s) s
  (s, { t with owed := t.owed.filter (fun o => !who o.agent) })

/-- Treatment of a stable line of a fenced agent (R184). The answer says that a recovery is needed. -/
def treatStable (s : State) (half p line j : Nat) : State × Bool :=
  let e := dirGet s line
  match e.st with
  | .S => let m := withoutSharer e.sharers j
    (dirSet s line (if m = 0 then {} else { e with sharers := m }), false)
  | .X => if e.owner = j then (enterP s half p line (line % 2 ^ 52), false) else (s, false)
  | .O =>
    let m := withoutSharer e.sharers j
    if e.owner ≠ j then (dirSet s line { e with sharers := m }, false)
    else if m = 0 ∨ 2 ^ 52 ≤ line then (enterP s half p line (line % 2 ^ 52), false)
    else (s, e.sharers.testBit j)
  | _ => (s, false)

/-- Begin the recovery of a line owned by a fenced agent: SNP_FWD_S naming the home to the sharer nearest it. -/
def openRecovery (s : State) (half p line j : Nat) : State :=
  let e := dirGet s line
  let m := withoutSharer e.sharers j
  match nearestHolder s p (setBits 64 m) (homeNode s) with
  | none => enterP s half p line line
  | some f =>
    let (n, s) := drawFree s
    let (q, s) := drawFree s
    let s := dirSet s line { st := .S, sharers := m }
    let s := openTxn s
      { id := 0, half := half, part := p, line := line, pool := line, busy := .BR, step := .recover, job := none, agent := none,
        pend := [], fwd := some f, seq := n % 2 ^ 32, aux := q % 2 ^ 52, before := e, snooped := true, grantX := false,
        queued := [], owed := [], since := 0, stalled := false }
    sendSnoop s .snpFwdS p f line (n % 2 ^ 32) (homeNode s) (q % 2 ^ 52)

/-- Sweeps that have no line left end (R184, R187). -/
def endSweep (s : State) (p : Nat) : State :=
  if s.coh.sweepLeft.any (fun x => x.1 = p) then s else partMod s p (fun x => { x with sweep := none })

/-- A line awaits no treatment any more. -/
def sweptLine (s : State) (p line : Nat) : State :=
  endSweep { s with coh := { s.coh with sweepLeft := s.coh.sweepLeft.filter (fun x => !(x.1 = p && x.2.1 = line)) } } p

/-- Treat every fenced agent of a line that no transaction holds, before it is used: its entry is read, and each row of
R184 applies once. Dead sharers leave the record before a dead owner's line is recovered from the rest. -/
def touchLine (s : State) (line pool : Nat) : State :=
  let p := addrPart line
  let half := lineHalf s line
  match s.coh.sweepLeft.filter (fun x => x.1 = p && x.2.1 = line) with
  | [] => s
  | due =>
    let s := readEntry (sweptLine s p line) half line pool
    let k := (dirGet s line).owner
    (due.filter (fun x => x.2.2 ≠ k) ++ due.filter (fun x => x.2.2 = k)).foldl (fun s x =>
      match treatStable s half p line x.2.2 with
      | (s, false) => s
      | (s, true) =>
        if openEntries s half < 4096 then openRecovery s half p line x.2.2
        else { s with coh := { s.coh with recoveries := s.coh.recoveries ++ [(p, line, x.2.2)] } }) s

/-- A waiting recovery takes the first entry that frees in its half (R184). -/
def startRecovery (s : State) (half : Nat) : State :=
  match takeFirst (fun r => lineHalf s r.2.1 = half) s.coh.recoveries with
  | none => s
  | some ((p, line, j), rest) =>
    if openEntries s half < 4096 then
      openRecovery { s with coh := { s.coh with recoveries := rest } } half p line j
    else s

/-! ### Serving a job in a stable state -/

/-- The home's own read of memory for a piece. -/
def memoryRead (s : State) (j : LineJob) (sl a : Nat) : State :=
  let (s, bs, bad) := readLine s (sourceOf j.svc.req.origin) sl (a / 64 * 64 + j.addr % 64) j.len
  endJob s j (if bad then .poison else .ok) bs

/-- A request that meets P (R183). -/
def servePoisoned (s : State) (j : LineJob) (sl a : Nat) : State :=
  match j.op with
  | .upg => endJob s j .poison []
  | .rdS | .rdX =>
    let (s, bs, _) := homeRead s 3 sl a
    endJob s j .poison bs
  | .read =>
    let (s, bs, _) := readLine s (sourceOf j.svc.req.origin) sl (a / 64 * 64 + j.addr % 64) j.len
    endJob s j .poison bs
  | .atom => endJob s j .poison []
  | .write =>
    if j.bytes.length = 64 then ownWrite (dirSet s j.line {}) j sl a else endJob s j .poison []

/-- The snoops and the transaction of a first move. -/
def makeMove (s : State) (half line : Nat) (j : LineJob) (agent : Option Nat) (e : DirEntry) (sl a : Nat)
    (m : FirstMove) : State :=
  let p := addrPart line
  let pool := j.addr / 64 * 64
  match m with
  | .done st stray => endJob (if stray then proto s half else s) j st []
  | .memory rec =>
    if j.op = .read then memoryRead s j sl a else ownWrite (dirSet s line rec) j sl a
  | .data rec x =>
    let (s, tag) := snoopTag s j
    let (s, bs, bad) := homeRead s 3 sl a
    if bad then endJob s j .poison bs
    else
      let s := openTxn (dirSet s line rec) { txnFor half line j agent tag e with grantX := x }
      endJob s j .ok bs
  | .cmp rec =>
    let (s, tag) := snoopTag s j
    let s := openTxn (dirSet s line rec) { txnFor half line j agent tag e with step := .grantCmp, grantX := true }
    endJob s j .ok []
  | .forward rec f x =>
    let (s, tag) := snoopTag s j
    let s := openTxn (dirSet s line rec)
      { txnFor half line j agent tag e with busy := .BF, fwd := some f, snooped := true, grantX := x }
    sendSnoop s (if x then .snpFwdX else .snpFwdS) p f pool tag.seq tag.arg tag.aux
  | .ownRead rec f =>
    let (s, tag) := snoopTag s j
    let s := openTxn (dirSet s line rec)
      { txnFor half line j agent tag e with busy := .BR, step := .ownRead, fwd := some f, snooped := true }
    sendSnoop s .snpFwdS p f pool tag.seq tag.arg tag.aux
  | .invalidate rec inv rcl step =>
    let (s, tag) := snoopTag s j
    let s := openTxn (dirSet s line rec)
      { txnFor half line j agent tag e with
        busy := .BI, step := step, pend := inv ++ rcl.toList, snooped := true,
        grantX := step ≠ .ownWrite }
    let s := inv.foldl (fun s f => sendSnoop s .snpInv p f pool tag.seq tag.arg tag.aux) s
    match rcl with
    | none => s
    | some k => sendSnoop s .recall p k pool tag.seq 0 0

/-- Agents of a partition that are not fenced. -/
def liveAgents (s : State) (p : Nat) : List Nat :=
  (List.range (agentsOf s.img.layout p).length).filter (fun j => !(partGet s p).fenced.testBit j)

/-- A line that a takeover left unverified (R379). -/
def unverified (s : State) (line : Nat) : Bool :=
  match regionAt s.img.layout (addrPart line) (addrOff line / 2097152) with
  | none => false
  | some r => s.coh.unverified.contains (regionId r) && !s.coh.verified.contains line

/-- The mark of a line clears. -/
def verify (s : State) (line : Nat) : State :=
  if unverified s line then { s with coh := { s.coh with verified := s.coh.verified ++ [line] } } else s

/-- R379: the first request for an unverified line recalls every agent. -/
def openReserve (s : State) (half line : Nat) (j : LineJob) : State :=
  let p := addrPart line
  let (n, s) := drawFree s
  let live := liveAgents s p
  let s := openTxn s
    { txnFor half line j (jobRequester s j) { seq := n % 2 ^ 32, arg := 0, aux := 0 } (dirGet s line) with
      busy := .BI, step := .reserve, pend := live, snooped := true }
  live.foldl (fun s k => sendSnoop s .recall p k line (n % 2 ^ 32) 0 0) s

/-- Whether a move holds a transaction entry. -/
def moveOpens : FirstMove → Bool
  | .done _ _ | .memory _ => false
  | _ => true

/-- An RD of a line in I or S needs no way of the cache; every other request does (R172). -/
def needsWay (o : LineOp) (st : DirState) : Bool := !(o = .read && (st = .I || st = .S))

/-- The requester is an agent that a fence holds: its requests end FENCED, those queued at the home too (R184). -/
def fencedJob (s : State) (j : LineJob) (agent : Option Nat) : Bool :=
  agent.any (fun r => (partGet s (addrPart j.addr)).fenced.testBit r)

/-- Serve one job at a line whose entry has been read. UPG from no holder is served as RD_X (R179). -/
def serveEntry (s : State) (held : Bool) (half : Nat) (j : LineJob) (agent : Option Nat) (sl a : Nat) : State :=
  let line := j.line
  let shared := lineShared s line j.addr
  let e := dirGet s line
  if e.st = .P then
    match takeWay s half line with
    | (s, false) => retryJob s half false j
    | (s, true) => servePoisoned s j sl a
  else
    let j := if j.op = .upg ∧ (e.st = .I ∨ ¬ e.sharers.testBit (agent.getD 0)) then { j with op := .rdX } else j
    let m := if isAgentOp j.op then agentMove s (addrPart line) shared e j.op (agent.getD 0) j.svc.req.pkt.src.toNat
      else ownMove shared e j.op
    if moveOpens m && !held && !mayOpen s half then retryJob s half true j
    else if !needsWay j.op e.st then makeMove s half line j agent e sl a m
    else match takeWay s half line with
      | (s, false) => retryJob s half false j
      | (s, true) => makeMove s half line j agent e sl a m

/-- Serve one job at a line that no transaction holds. `held` says that it already holds an entry. -/
def serveStable (s : State) (held : Bool) (j : LineJob) : State :=
  let line := j.line
  let p := addrPart line
  match linePlace s line with
  | none => endJob s j .fault []
  | some (sl, a) =>
    let half := halfOf sl
    if sliceFenced s sl then endJob s j .fenced []
    else
      let agent := jobRequester s j
      if fencedJob s j agent then endJob s j .fenced []
      else if unverified s line ∧ liveAgents s p ≠ [] then
        if !held && !mayOpen s half then retryJob s half true j
        else match takeWay s half line with
          | (s, false) => retryJob s half false j
          | (s, true) => openReserve s half line j
      else
        let s := readEntry (if unverified s line then dirSet (verify s line) line {} else s) half line (j.addr / 64 * 64)
        serveEntry s held half j agent sl a

/-- A job reaches its home (R167, R173): FAULT for a coherent request of no caching agent; queued behind an active
transaction; else served now. -/
def startJob (s : State) (j : LineJob) : State :=
  let line := j.line
  let s := if hasTxn s line then s else touchLine s line (j.addr / 64 * 64)
  if isAgentOp j.op ∧ (jobRequester s j).isNone then endJob s j .fault []
  else match s.coh.txns.find? (fun t => t.line = line) with
  | none => serveStable s false j
  | some t =>
    if mayOpen s t.half then notePeak (putTxn s { t with queued := t.queued ++ [j] }) t.half
    else retryJob s t.half true j

/-- Serve the queue of a line whose transaction has ended: one at a time, until one opens a transaction (R173). -/
def serveQueue (line : Nat) : List LineJob → State → State
  | [], s => s
  | j :: rest, s =>
    match s.coh.txns.find? (fun t => t.line = line) with
    | some t => putTxn s { t with queued := t.queued ++ (j :: rest) }
    | none => serveQueue line rest (serveStable s true j)

/-- The oldest piece of a copy that waits to be placed is tried again. -/
def startPlacing (s : State) : State := match s.coh.placing with
  | [] => s
  | j :: rest => startJob { s with coh := { s.coh with placing := rest } } j

/-- End (R181): owed CMPs are sent, the entry is freed, a fenced agent's deferred treatment applies, and the first
queued request is served. -/
def endTxn (s : State) (t : Txn) : State :=
  let (s, t) := releaseOwed s t (fun _ => true)
  let s := touchLine (startRecovery (dropTxn s t.id) t.half) t.line t.pool
  startPlacing (leaveWay (serveQueue t.line t.queued s) t.half t.line)

/-- The grant of a transaction that has ended its snoops: on failure the transaction ends. -/
def grantOrEnd (s : State) (t : Txn) (j : LineJob) (x : Bool) : State :=
  match grantData s t j x with
  | (s, true) => s
  | (s, false) => endTxn s t

/-- Bytes of a read job within the 64 bytes of its line. -/
def jobBytes (j : LineJob) (line : List Byte) : List Byte := sliceBytes line (j.addr % 64) j.len

/-- A forward has failed (R181): its forwarder has answered, so the CMP owed to it is sent (R180). -/
def forwardFailed (s : State) (t : Txn) : State :=
  let (s, t) := releaseOwed s { t with fwd := none } (fun x => t.fwd = some x)
  let s := putTxn s t
  match t.job with
  | none => endTxn (enterP s t.half t.part t.line t.pool) t
  | some j =>
    match linePlace s t.line with
    | none => endTxn (endJob s j .fault []) t
    | some (sl, a) =>
      if t.before.st = .S ∧ t.busy = .BF then grantOrEnd s t j t.grantX
      else
        let s := enterP s t.half t.part t.line t.pool
        let (s, bs, _) := homeRead s 3 sl a
        endTxn (endJob s j .poison (if j.op = .read then jobBytes j bs else bs)) t

/-- A transaction in BI finds its line in P: no snoop is sent and nothing granted. A fenced agent's request ends FENCED,
another meets P (R183, R184). -/
def meetPoison (s : State) (t : Txn) (j : LineJob) : State :=
  if fencedJob s j t.agent then endTxn (endJob s j .fenced []) t
  else match linePlace s t.line with
    | none => endTxn (endJob s j .fault []) t
    | some (sl, a) => endTxn (servePoisoned s j sl a) t

/-- BI has its last answer: the transaction's next step (R179, R182, R379). An owner that a fence has taken meanwhile
forwards nothing: the forward has failed (R181, R184). -/
def nextStep (s : State) (t : Txn) : State :=
  let bad := decide ((dirGet s t.line).st = .P)
  match t.job, t.step with
  | some j, .grantData => if bad then meetPoison s t j else grantOrEnd s t j true
  | some j, .grantCmp =>
    if bad then meetPoison s t j else toBusy (endJob s j .ok []) { t with grantX := true } .BG
  | some j, .forwardX k =>
    if bad then meetPoison s t j
    else if (partGet s t.part).fenced.testBit k then forwardFailed s { t with fwd := some k, grantX := true, busy := .BF }
    else
      let s := sendSnoop s .snpFwdX t.part k t.pool t.seq j.svc.req.pkt.src.toNat (raddr j.svc.req.pkt)
      toBusy s { t with fwd := some k, grantX := true } .BF
  | some j, .ownWrite => if bad then meetPoison s t j else
    match linePlace s t.line with
    | none => endTxn (endJob s j .fault []) t
    | some (sl, a) => endTxn (ownWrite s j sl a) t
  | some j, .reserve =>
    let s := verify s t.line
    endTxn (dirSet s t.line {}) { t with queued := j :: t.queued }
  | _, _ => endTxn s t

/-- An agent's snoop answer arrives in BI. -/
def answerBI (s : State) (t : Txn) (agent : Nat) : State :=
  let (s, t) := releaseOwed s { t with pend := t.pend.filter (· != agent) } (fun x => x = agent)
  let s := putTxn s t
  if t.pend = [] then nextStep s t else s

/-- The 64 bytes an agent returned for the line at a pool address go to memory (R180, R181). -/
def lineToMemory (s : State) (line pool : Nat) (seq : BitVec 32) (bs : List Byte) : State :=
  match linePlace s line with
  | none => s
  | some (sl, a) => (homeWrite s 3 (addrPart pool) (addrOff pool) sl (a / 64 * 64) seq (sliceBytes bs 0 64)).1

/-- SEQ of the mirror write of what a snoop brings: that of the request that caused it (R372). -/
def causeSeq (t : Txn) (seq : BitVec 32) : BitVec 32 := match t.job with
  | none => seq
  | some j => j.svc.req.pkt.seq

/-- SNP_RSP and SNP_DATA at the home (R181). DESIGN CHOICE (log entry 71): the home does not look at the STATUS of a
SNP_RSP, SNP_DATA, FWD_DATA or grant acknowledgement; R181 names none (R14). -/
def snoopAnswer (s : State) (pkt : Packet) (data : Option (List Byte)) : State :=
  let line := pkt.addr.toNat / 64 * 64
  let p := addrPart line
  let half := lineHalf s line
  match agentIndex s p pkt.src.toNat, s.coh.txns.find? (fun t => t.pool = line && t.seq = pkt.seq.toNat) with
  | some a, some t =>
    if t.busy = .BI ∧ t.pend.contains a then
      answerBI (match data with
        | none => s
        | some bs => if t.step = .discard then s else lineToMemory s t.line t.pool (causeSeq t pkt.seq) bs) t a
    else if (t.busy = .BF ∨ t.busy = .BR) ∧ t.fwd = some a then
      match data, t.job with
      | none, _ => forwardFailed s t
      | some bs, some j =>
        let s := lineToMemory s t.line t.pool (causeSeq t pkt.seq) bs
        let (s, t) := releaseOwed s { t with fwd := none } (fun x => x = a)
        let s := putTxn s t
        if t.busy = .BF then grantOrEnd s t j t.grantX
        else endTxn (endJob s j .ok (jobBytes j bs)) t
      | some bs, none => endTxn (lineToMemory s t.line t.pool pkt.seq bs) t
    else proto s half
  | _, _ => proto s half

/-- FWD_DATA addressed to the home (R174, R181, R184). DESIGN CHOICE (log entry 71): a stray one, whose ADDR names no
line, counts in half 0. -/
def forwardData (s : State) (pkt : Packet) : State :=
  match s.coh.txns.find? (fun t => t.busy = .BR && t.seq = pkt.seq.toNat && t.aux = pkt.addr.toNat &&
      t.fwd = agentIndex s t.part pkt.src.toNat) with
  | none => proto s 0
  | some t =>
    match t.job with
    | some j => endTxn (endJob s j .ok (jobBytes j pkt.payload)) t
    | none => endTxn (lineToMemory s t.line t.pool pkt.seq pkt.payload) t

/-- A grant acknowledgement (R174, R181). -/
def grantAck (s : State) (pkt : Packet) : State :=
  let line := pkt.addr.toNat / 64 * 64
  match s.coh.txns.find? (fun t => t.pool = line && (t.busy = .BF || t.busy = .BG) &&
      (match t.job with
        | none => false
        | some j => j.svc.req.pkt.seq = pkt.seq && j.svc.req.pkt.src = pkt.src)) with
  | none => proto s (lineHalf s line)
  | some t =>
    let s := if t.busy = .BF then (match t.job with
      | some j => dropSvc s j.svc.ticket
      | none => s) else s
    endTxn s t

/-! ### WB and EVCT (R180, R183, R184, R379) -/

/-- The record once agent `a` holds the line no more. -/
def withoutAgent (e : DirEntry) (a : Nat) : DirEntry :=
  let m := withoutSharer e.sharers a
  if m = 0 then {}
  else if (e.st = .X ∨ e.st = .O) ∧ e.owner = a then { st := .S, sharers := m } else { e with sharers := m }

def owns (e : DirEntry) (a : Nat) : Bool := (e.st = .X || e.st = .O) && e.owner = a

/-- A WB or EVCT from an agent, at once in every state; `data` is the line of a WB. -/
def evict (s : State) (v : Service) (data : Option (List Byte)) : State :=
  let line := v.req.pkt.addr.toNat / 64 * 64
  let p := addrPart line
  match linePlace s line, agentIndex s p v.req.pkt.src.toNat with
  | none, _ => reply s v (endWith .fault (some line))
  | some (sl, _), some a =>
    if sliceFenced s sl then reply s v (endWith .fenced (some line))
    else
      let half := halfOf sl
      let s := if hasTxn s line then s else touchLine s line line
      let s := readEntry s half line line
      if unverified s line then
        let s := match data with
          | none => s
          | some bs => lineToMemory s line line v.req.pkt.seq bs
        reply s v { status := .ok }
      else
        let e := dirGet s line
        let s := if e.st = .P then s else
          let s := match data with
            | none => s
            | some bs => if owns e a then lineToMemory s line line v.req.pkt.seq bs else s
          dirSet s line (withoutAgent e a)
        match s.coh.txns.find? (fun t => t.line = line && (t.pend.contains a || t.fwd = some a)) with
        | some t =>
          if t.busy = .BG then reply s v { status := .ok }
          else putTxn s { t with owed := t.owed ++ [{ agent := a, svc := v }] }
        | none => reply s v { status := .ok }
  | some _, none => reply s v (endWith .fault (some line))

/-! ### The sweep of a fenced agent (R184) -/

/-- Treat one line of agent `j`: its queued requests, an open transaction that waits on it, then the record. -/
def treatLine (s : State) (p line j : Nat) : State :=
  let node := agentNode s p j
  match s.coh.txns.find? (fun t => t.line = line) with
  | none => touchLine s line (line % 2 ^ 52)
  | some t =>
    let mine := fun (q : LineJob) => isAgentOp q.op && q.svc.req.pkt.src.toNat = node
    let gone := t.queued.filter mine
    let t := { t with queued := t.queued.filter (fun q => !mine q) }
    let s := gone.foldl (fun s q => endJob s q .fenced []) (putTxn s t)
    let done := fun (s : State) =>
      { s with coh := { s.coh with
        sweepLeft := s.coh.sweepLeft.filter (fun x => !(x.1 = p && x.2.1 = line && x.2.2 = j)) } }
    let e := dirGet s line
    if t.busy = .BI ∧ t.pend.contains j then
      let lost := owns t.before j
      let s := dirSet (done s) line (withoutAgent e j)
      let s := if lost ∧ t.step ≠ .discard then enterP s t.half p line t.pool else s
      answerBI s t j
    else if (t.busy = .BF ∨ t.busy = .BR) ∧ t.fwd = some j then
      forwardFailed (dirSet (done s) line (withoutAgent e j)) t
    else if (t.busy = .BF ∨ t.busy = .BG) ∧ t.agent = some j then
      let s := dirSet (done s) line (withoutAgent e j)
      let s := if t.grantX then enterP s t.half p line t.pool else s
      let s := match t.job with
        | some q => dropSvc s q.svc.ticket
        | none => s
      endTxn s t
    else if e.st = .O ∧ e.owner = j ∧ withoutSharer e.sharers j ≠ 0 then s
    else (treatStable (done s) t.half p line j).1

/-! ### Lines of pages that are withdrawn (R293 to R295) -/

/-- Lines take the names that a mapping operation gives them: directory entries, open transactions and their requests,
and what awaits a fenced agent's treatment. The directory cache drops a line that changes its name. -/
def renameLines (s : State) (f : Nat → Nat) : State :=
  let gone := s.coh.dir.filter (fun e => decide (f (e.1 * 64) ≠ e.1 * 64))
  let job := fun (j : LineJob) => { j with line := f j.line }
  { s with coh := { s.coh with
    dir := tblSetMany (fun _ => {}) (s.coh.dir.filter (fun e => decide (f (e.1 * 64) = e.1 * 64)))
      (gone.map (fun e => (f (e.1 * 64) / 64, e.2)))
    cache := (s.coh.cache.map (fun e => (e.1, e.2.filter (fun a => decide (f a.1 = a.1))))).filter (fun e => decide (e.2 ≠ []))
    txns := s.coh.txns.map (fun t => { t with line := f t.line, job := t.job.map job, queued := t.queued.map job })
    sweepLeft := s.coh.sweepLeft.map (fun x => (x.1, f x.2.1, x.2.2))
    recoveries := s.coh.recoveries.map (fun x => (x.1, f x.2.1, x.2.2)) } }

/-- Requests in service under an earlier mapping epoch, in a transaction begun at another page than its unit maps now
(R294). -/
def withdrawnJobs (s : State) (t : Txn) : List LineJob :=
  if t.line = t.pool then []
  else (t.job.toList ++ t.queued).filter (fun j =>
    decide (j.epoch ≠ (partGet s t.part).mapEpoch) && s.svc.any (fun v => v.ticket = j.svc.ticket))

/-- Requests under the epoch of a withdrawal have not all ended. -/
def oldRequests (s : State) (p : Nat) : Bool := s.coh.txns.any (fun t => t.part = p && !(withdrawnJobs s t).isEmpty)

/-! ### Requests that have all their pieces -/

/-- Log a placement that met a poisoned line or an uncorrectable near word, at the word's place (R161, R315). -/
def logPlaced (s : State) (addr : Nat) : State :=
  let p := addrPart addr
  let off := addrOff addr
  let line := fun (sl a : Nat) =>
    let w := ((List.range 8).find? (fun w => markPoisoned (markGet s (wordKey sl (a / 64 * 64) + w)))).getD 0
    logDram s 8 0 0 w sl a
  match placeOf s p off with
  | .pinned _ sl a => line sl a
  | .near sl b => logNear s 8 0 0 sl b
  | .flash _ g => match framePlace s p (granGet s p g).frame (off % 65536) with
    | some (sl, a) => line sl a
    | none => s
  | .none => s

/-- A write cuts an 8-byte word of the line that holds an address. -/
def cutsWord (k : Packet) (addr : Nat) : Bool :=
  let a := max k.addr.toNat (addr / 64 * 64)
  let b := min (k.addr.toNat + k.payload.length) (addr / 64 * 64 + 64)
  decide (a % 8 ≠ 0) || decide (b % 8 ≠ 0)

/-- A placement's own read of memory, that of a signal or of a write that cuts a word, has logged the line already; a line
in P is not read for it (R183, R208). -/
def readLogged (s : State) (v : Service) (addr : Nat) : Bool :=
  (pktOp v.req.pkt = .atom || cutsWord v.req.pkt addr) && (match placeOf s (addrPart addr) (addrOff addr) with
    | .pinned r _ _ => !regionCoherent r || decide ((dirGet s (addr / 64 * 64)).st ≠ .P)
    | .flash _ _ => true
    | _ => false)

/-- The failed pieces of a multicast copy are logged with class POISON_USE and source fabric (R161). -/
def logPlacement (s : State) (v : Service) (ps : List Gathered) : State :=
  ps.foldl (fun s g => if g.status = .poison && !readLogged s v g.addr then logPlaced s g.addr else s) s

/-- Answer every request in service whose pieces have all ended. An engine's pieces stay for its command. -/
def settle (s : State) : State :=
  s.svc.foldl (fun s v =>
    if isOpen s v.ticket ∨ s.coh.placing.any (fun j => j.svc.ticket = v.ticket) ∨ (piecesOf s v.ticket).isEmpty then s
    else match v.req.origin with
      | .engine _ q =>
        if q = 64 then dropSvc (logPlacement (dropPieces s v.ticket) v (piecesOf s v.ticket)) v.ticket else s
      | _ =>
        let ps := piecesOf s v.ticket
        let (s, a) := resolve (blurFailed (dropPieces s v.ticket) v ps) v ps
        reply s v a) s

/-- Requests under the epoch of a withdrawal that have not ended by t + 8,192 end FAULT (R295). The line of one whose
transaction was open enters P, and the later requests of that line are served. -/
def cutTxn (s : State) (t : Txn) : State :=
  let old := withdrawnJobs s t
  let t' := { t with queued := t.queued.filter (fun j => !old.contains j) }
  let cut := fun (s : State) => old.foldl (fun s j => endJob s j .fault []) s
  if t.job.any old.contains then endTxn (cut (enterP s t.half t.part t.line t.pool)) t' else cut (putTxn s t')

def cutRequests (s : State) (p : Nat) : State :=
  settle ((s.coh.txns.filter (fun t => t.part = p && !(withdrawnJobs s t).isEmpty)).foldl cutTxn s)

/-- A copy RD of the follower (R381): at the leader it waits for a flash miss, as an engine does. -/
def isCopyRead (s : State) (v : Service) : Bool :=
  decide (s.twn.state = 2) && leads s && decide (v.req.pkt.src.toNat = twinPeer s)

/-- The pieces of a read or write over a range: coherent lines go to their homes, the rest is served at its slices.
`base` is the range's place in the whole. -/
def startRangeAt (s : State) (v : Service) (m : Mover) (write : Bool) (base addr n : Nat) (bs : List Byte) : State :=
  let p := addrPart addr
  let waits := match v.req.origin with
    | .engine _ _ => true
    | .fabric _ => isCopyRead s v
    | _ => false
  (cutAt 65536 (addrOff addr) n).foldl (fun s c =>
    let coherent := match placeOf s p c.1 with
      | .pinned r _ _ => regionCoherent r
      | _ => false
    if coherent then
      (cutAt 64 c.1 c.2.2).foldl (fun s l =>
        startJob s { svc := v, op := if write then .write else .read,
                     line := (m.name.getD (poolAddr p (addrOff addr)) + (l.1 - addrOff addr)) / 64 * 64,
                     addr := poolAddr p l.1, idx := base + c.2.1 + l.2.1, epoch := m.epoch.getD (partGet s p).mapEpoch,
                     bad := badIn m.bad l.1,
                     len := l.2.2, bytes := (bs.drop (c.2.1 + l.2.1)).take l.2.2 }) s
    else if write then
      let part := (bs.drop c.2.1).take c.2.2
      let whole := decide (m.first ≤ c.1 / 65536 * 65536) && decide (c.1 / 65536 * 65536 + 65536 ≤ m.first + m.len)
      let r := writeSegment s (sourceOf v.req.origin) m p c.1 (base + c.2.1) part whole waits
      let s := if r.2.all (fun x => x.status == .ok) then mirrorAt r.1 false v.req.pkt.seq p c.1 part else r.1
      gather s v.ticket r.2
    else
      let r := readSegment s (sourceOf v.req.origin) m p c.1 (base + c.2.1) c.2.2 waits
      gather r.1 v.ticket r.2) s

/-- The pieces of a request over its range. -/
def startRange (s : State) (v : Service) (own : List Nat) (write : Bool) (addr n : Nat) (bs : List Byte) : State :=
  startRangeAt s v { own := own, first := addrOff addr, len := n } write 0 addr n bs

end Sys2Proof.Machine
end

