-- ==== Sys2Proof/Machine/Translate.lean ====
section
/-! DEFINITION. Translation: pages, the two levels of buffers, the request buffers and prefetch slots, walks (R290 to
R292, R294). -/

namespace Sys2Proof.Machine

/-- First unit of the page that holds a unit of a region (R290, R293). -/
def pageFirst (r : RegionRec) (u : Nat) : Nat := if r.gib then r.start + (u - r.start) / 512 * 512 else u

/-- Units of a region's pages. -/
def pageUnits (r : RegionRec) : Nat := if r.gib then 512 else 1

/-- Page number counted in the page's own size (R291). -/
def pageNumber (r : RegionRec) (u : Nat) : Nat := if r.gib then u / 512 else u

/-- The unit a page's entries are kept under, and its number. -/
def pageKey (l : Layout) (p u : Nat) : Nat × Nat :=
  match regionAt l p u with
  | none => (u, u)
  | some r => (pageFirst r u, pageNumber r u)

/-- The mapping of a unit. -/
def mappedTo (s : State) (p u : Nat) : Option Nat :=
  match pteGet s p u with
  | .mapped h => some h
  | _ => none

/-- A unit lies in a FLASH region: its entry is marked FLASH (R290). -/
def inFlash (l : Layout) (p u : Nat) : Bool := match regionAt l p u with
  | none => false
  | some r => r.flash

/-- The entry of a unit is one that a buffer may hold: none holds an unmapped entry (R291). -/
def holdable (s : State) (p u : Nat) : Bool := (mappedTo s p u).isSome || inFlash s.img.layout p u

/-! ### Buffers (R291) -/

/-- Sets and ways of a level: 0 an engine's, 1 a cluster's, 2 a half's request buffer. A prefetch slot, 3, is one
tile's translations. -/
def levelSets (level : Nat) : Nat := match level with
  | 1 => 256
  | 2 => 64
  | _ => 1
def levelWays (level : Nat) : Nat := if level = 0 then 64 else 16

def sameEntry (level holder p u : Nat) (b : Buffer) : Bool :=
  b.level = level && b.holder = holder && b.part = p && b.unit = u

/-- A buffer holds the page of a unit. -/
def bufHas (s : State) (level holder p u : Nat) : Bool :=
  s.eng.buffers.any (sameEntry level holder p (pageKey s.img.layout p u).1)

/-- Use or fill an entry: it becomes the most recent of its set, and the least recent leaves a full set. An entry keeps
the mapping epoch it was read under (R291). -/
def bufPut (s : State) (level holder p u : Nat) : State :=
  if !holdable s p u then s
  else
    let k := pageKey s.img.layout p u
    let e : Buffer := (s.eng.buffers.find? (sameEntry level holder p k.1)).getD
      { level := level, holder := holder, part := p, unit := k.1, hpage := (mappedTo s p k.1).getD 0,
        epoch := (partGet s p).mapEpoch }
    let rest := s.eng.buffers.filter (fun b => !sameEntry level holder p k.1 b)
    let inSet := fun (b : Buffer) =>
      b.level = level && b.holder = holder && (pageKey s.img.layout b.part b.unit).2 % levelSets level = k.2 % levelSets level
    let keep := if level = 3 then rest else
      (rest.foldl (fun (acc : List Buffer × Nat) b =>
        if !inSet b then (acc.1 ++ [b], acc.2)
        else if acc.2 + 1 < levelWays level then (acc.1 ++ [b], acc.2 + 1) else acc) ([], 0)).1
    { s with eng := { s.eng with buffers := e :: keep } }

/-- Units of the page that holds a unit (R293). -/
def xlPage (l : Layout) (p u : Nat) : List Nat :=
  match regionAt l p u with
  | none => []
  | some r => (List.range (pageUnits r)).map (fun i => pageFirst r u + i)

/-- Both copies of a unit's translation entry are written (R290, R307). -/
def entryWritten (s : State) (p u : Nat) : State := match reserveSlice s p u with
  | none => s
  | some sl => reserveClean (reserveClean s sl 0 (p * 2 ^ 26 + u)) sl 1 (p * 2 ^ 26 + u)

/-- A program's copy is written: its 16-byte pieces (R275, R307). -/
def progPiece (r : ProgRec) (i : Nat) : Nat := (r.part * 16 + r.slot) * 65536 + i
def progWritten (s : State) (r : ProgRec) : State := match reserveSlice s r.part r.slot with
  | none => s
  | some sl => (List.range ((r.words.length + 3) / 4)).foldl (fun s i => reserveClean s sl 2 (progPiece r i)) s

/-- A translation entry is read: the second copy serves where the first is bad, and the first is rewritten from it;
where both are bad the unit reads unmapped, without version or publisher (R290, R307). -/
def readUnit (s : State) (p u : Nat) : State := match reserveSlice s p u with
  | none => s
  | some sl =>
    let k := p * 2 ^ 26 + u
    let (s, bad) := reserveRead s 2 sl 0 k
    if !bad then s
    else
      let (s, bad) := reserveRead s 2 sl 1 k
      if !bad then reserveClean s sl 0 k
      else match pteGet s p u with
        | .mapped h => versionSet (pteSet s p u (.lost h)) p u {}
        | _ => s

/-- A walk, one read of a unit's entry, is counted in the partition's XL_MISS, which wraps (R291, R292). -/
def countWalk (s : State) (p u : Nat) : State := readUnit (partCnt s p (fun c => { c with xlMiss := wrap32 c.xlMiss })) p u

/-- The cluster of an engine (R4). -/
def clusterOf (engine : Nat) : Nat := engine / 32

/-- The holder of a prefetch slot: an engine's stream and the tile it is for. -/
def slotHolder (engine stream tile : Nat) : Nat := (engine * 4 + stream) * 2 ^ 24 + tile

/-- Every prefetch slot of an engine is given up. -/
def dropSlots (s : State) (engine : Nat) : State :=
  { s with eng := { s.eng with buffers := s.eng.buffers.filter (fun b =>
    !(b.level = 3 && decide (b.holder / 2 ^ 26 = engine))) } }

/-- A translation for an engine's tile, at once: its own buffer, its tile's prefetch slot, its cluster's, or a walk
that fills both. -/
def translateNow (s : State) (p engine slot u : Nat) : State :=
  if bufHas s 0 engine p u then bufPut s 0 engine p u
  else if bufHas s 3 slot p u then bufPut (bufPut s 1 (clusterOf engine) p u) 0 engine p u
  else if bufHas s 1 (clusterOf engine) p u then bufPut (bufPut s 1 (clusterOf engine) p u) 0 engine p u
  else bufPut (bufPut (countWalk s p u) 1 (clusterOf engine) p u) 0 engine p u

/-- The half whose request buffer serves a request: that of its plane; half 0 for Ethernet. -/
def requestHalf (v : Service) : Nat := match v.req.origin with
  | .fabric port => port / 4
  | _ => 0

/-- A request's pages in regions go through its half's request buffer; a miss costs a walk (R291). -/
def translateRequest (s : State) (v : Service) (addr n : Nat) : State :=
  let p := addrPart addr
  (cutAt 2097152 (addrOff addr) (max 1 n)).foldl (fun s c =>
    let u := c.1 / 2097152
    if nearBase ≤ c.1 ∨ (regionAt s.img.layout p u).isNone then s
    else if bufHas s 2 (requestHalf v) p u then bufPut s 2 (requestHalf v) p u
    else bufPut (countWalk s p u) 2 (requestHalf v) p u) s

/-! ### Withdrawal (R294, R295) -/

/-- Every buffer drops its entries of the pages. -/
def dropPages (s : State) (p : Nat) (us : List Nat) : State :=
  { s with eng := { s.eng with
    buffers := s.eng.buffers.filter (fun b => !(b.part = p && us.contains b.unit))
    walks := s.eng.walks.filter (fun w => !(w.part = p && us.contains w.unit)) } }

/-- Every buffer of a partition is emptied: an image has taken effect. -/
def dropBuffers (s : State) (p : Nat) : State :=
  { s with eng := { s.eng with
    buffers := s.eng.buffers.filter (fun b => b.part != p)
    walks := s.eng.walks.filter (fun w => w.part != p) } }

/-- Hedge pages of FLASH_CACHE: the top ones of the root hedge (R290). -/
def cachePages (l : Layout) (p : Nat) : Nat := match partRecOf l p with
  | none => 0
  | some r => r.flashCache

/-- Entries of a partition that hold a hedge page, lost ones among them (R307). -/
def heldPages (s : State) (p : Nat) : List Nat :=
  (s.eng.pte.filter (fun e => e.1 / 2 ^ 26 = p)).filterMap (fun e => match e.2 with
    | .mapped h | .lost h => some h
    | .unmapped => none) ++ (s.eng.lostPages.filter (fun k => k / 2 ^ 20 = p)).map (· % 2 ^ 20)

/-- A hedge page is free: in the usable capacity, not in FLASH_CACHE, held by no entry (R290). -/
def pageFree (s : State) (p h : Nat) : Bool :=
  decide (h + cachePages s.img.layout p < partUnits s.img.layout p) && !(heldPages s p).contains h

/-- XL_STATUS.FREE (R297). -/
def freePages (s : State) (p : Nat) : Nat :=
  partUnits s.img.layout p - cachePages s.img.layout p - (heldPages s p).length

end Sys2Proof.Machine
end

