-- ==== Sys2Proof/Machine/Requests.lean ====
section
/-! DEFINITION. Reads, writes and atomics of fabric requesters and Ethernet hosts, and the near bank's other port
(R145 to R148, R182, R197, R254 to R256, R304, R305, R371). -/

namespace Sys2Proof.Machine

/-- The request in service under a ticket. -/
def svcFind (s : State) (ticket : Nat) : Option Service := s.svc.find? (fun v => v.ticket == ticket)

/-- Half of the slice that serves an address; half 0 where nothing maps it. -/
def addrHalf (s : State) (addr : Nat) : Nat :=
  let p := addrPart addr
  match placeOf s p (addrOff addr) with
  | .pinned _ sl _ | .near sl _ => halfOf sl
  | .flash _ g => match framePlace s p (granGet s p g).frame (addrOff addr % 65536) with
    | some (sl, _) => halfOf sl
    | none => 0
  | .none => 0

/-- A request is served in a half: it came by that half's plane, or needs one of its slices. -/
def inHalf (s : State) (v : Service) (h : Nat) : Bool :=
  let k := v.req.pkt
  decide (originPlane v.req.origin = some h) ||
    (cutAt 256 (addrOff k.addr.toNat) (max 1 (rangeLen k))).any (fun c =>
      decide (addrHalf s (poolAddr (addrPart k.addr.toNat) c.1) = h))

/-- Work in service of a partition under RESETTING stands still until it is cancelled: all of it in a partition reset,
that of the half in a half reset (R385, R386). -/
def stopped (s : State) (v : Service) : Bool :=
  decide ((partGet s v.req.pkt.part.toNat).st = .resetting) &&
    (decide (s.twn.rstLastKind = 0) || inHalf s v (s.twn.rstLastKind - 1))

/-- The same of a command, by the engines of its parts: clusters 0 to 3 lie in half 0 (R4, R6). -/
def stoppedEngines (s : State) (p : Nat) (es : List Nat) : Bool :=
  decide ((partGet s p).st = .resetting) &&
    (decide (s.twn.rstLastKind = 0) || es.any (fun e => decide (e / 128 = s.twn.rstLastKind - 1)))

/-- A request whose pieces have begun is not begun again. -/
def begun (s : State) (v : Service) : Bool :=
  isOpen s v.ticket || !(piecesOf s v.ticket).isEmpty || s.twn.held.any (fun h => h.svc.ticket == v.ticket) ||
    s.twn.answers.any (fun h => h.svc.ticket == v.ticket) || s.coh.pubWait.any (fun w => w.svc.ticket == v.ticket)

/-- Place among requests that reach a home in one clk (R165): fabric arrivals by input port, plane A's ports first, then
the Ethernet ports; an engine's come last. -/
def homeRank (s : State) (v : Service) : Nat :=
  match v.req.origin with
  | .fabric p => p
  | .ethWrite q _ _ _ _ | .ethRead q _ | .ethAtomic q _ | .ethControl q _ _ => 8 + (qpGet s q).port
  | .engine _ _ => 16

/-- Blocks of 64 B a request names, or the one 2 MiB unit of a FLUSH, PUBLISH or ACQUIRE. -/
def homeSpan (k : Packet) : Nat × Nat :=
  let a := k.addr.toNat
  match pktOp k with
  | .flush | .publish | .acquire => (a / 2097152 * 32768, a / 2097152 * 32768 + 32767)
  | .rd | .wr | .atom => (a / 64, (a + max 1 (rangeLen k) - 1) / 64)
  | _ => (a / 64, a / 64)

/-- An operation that the home of a publish unit takes (R190). -/
def unitOp (k : Packet) : Bool :=
  match pktOp k with
  | .flush | .publish | .acquire => true
  | _ => false

/-- A request for one of the same lines, or for the same unit, reached the home in the same clk and comes first (R165,
R190). -/
def earlierHome (s : State) (v : Service) : Bool :=
  s.svc.any (fun x => decide (x.admitted = v.admitted) && decide (homeRank s x < homeRank s v) && !begun s x &&
    (unitOp x.req.pkt == unitOp v.req.pkt) && decide ((homeSpan x.req.pkt).1 ≤ (homeSpan v.req.pkt).2) &&
    decide ((homeSpan v.req.pkt).1 ≤ (homeSpan x.req.pkt).2))

def fromEthernet (v : Service) : Bool := match v.req.origin with
  | .fabric _ | .engine _ _ => false
  | _ => true

/-! ### What a follower holds (R371, R374) -/

def heldIn (s : State) (half : Nat) : Nat := (s.twn.held.filter (fun h => h.half = half)).length

def countHoldFull (s : State) : State := { s with twn := { s.twn with holdFull := sat16 s.twn.holdFull } }

/-- A PUBLISH or ATOM is held for its twin packet; a full space ends it RETRY, hint 1 (R374). -/
def holdRequest (s : State) (v : Service) (half : Nat) : State :=
  if heldIn s half < 4096 then
    { s with twn := { s.twn with held := s.twn.held ++
      [{ svc := v, since := frameOf s, shadow := false, half := half, ended := false }] } }
  else finish (countHoldFull s) v (endWith .retry (some v.req.pkt.addr.toNat) 1)

/-- A request to a coherent twinned region is held as a shadow, unanswered; a full space gives up its oldest shadow
(R371, R374). -/
def holdShadow (s : State) (v : Service) (half : Nat) : State :=
  let h : HeldReq := { svc := v, since := frameOf s, shadow := true, half := half, ended := false }
  if heldIn s half < 4096 then { s with twn := { s.twn with held := s.twn.held ++ [h] } }
  else
    let s := countHoldFull s
    match takeFirst (fun x => x.shadow && x.half = half) s.twn.held with
    | none => dropSvc s v.ticket
    | some (x, rest) => dropSvc { s with twn := { s.twn with held := rest ++ [h] } } x.svc.ticket

/-- The region under a SEAL (R356) holds a byte of an address. -/
def sealedAt (s : State) (p off : Nat) : Bool :=
  match s.sec.sealing with
  | none => false
  | some x => decide (x.part = p) && decide (off < nearBase) &&
    (match regionAt s.img.layout p (off / 2097152) with
      | none => false
      | some r => r.index = x.index)

/-- The first offset of a request in each 2 MiB unit that it names a byte of. -/
def unitParts (k : Packet) : List Nat :=
  let n := match pktOp k with
    | .rd | .wr | .atom => rangeLen k
    | _ => 1
  (cutAt 2097152 (addrOff k.addr.toNat) (max 1 n)).map (·.1)

/-- What the bytes of a request meet of the twin: RESETTING before a coherent follower's shadow, that before a hold. -/
def requestGate (s : State) (k : Packet) : TwinGate :=
  let gates := (unitParts k).map (twinGate s (addrPart k.addr.toNat))
  let coherent := fun (g : TwinGate) => match g with
    | .follower r => regionCoherent r
    | _ => false
  if gates.contains .resetting then .resetting
  else ((gates.find? coherent).or (gates.find? (· != .serve))).getD .serve

/-- A request that names bytes: not the whole of a publish unit, and not none. -/
def namesBlocks (k : Packet) : Bool :=
  match pktOp k with
  | .rd | .wr => decide (0 < rangeLen k)
  | .atom | .rdS | .rdX | .upg | .wb | .evct => true
  | _ => false

/-- Two requests of one requester to one of the same 256 B blocks (R148). A follower's shadows are held in the order in
which they came, so none waits for another. -/
def sameBlock (s : State) (x v : Service) : Bool :=
  decide (x.key = v.key) && namesBlocks x.req.pkt && !s.twn.held.any (fun h => h.shadow && h.svc.ticket == x.ticket) &&
    decide ((homeSpan x.req.pkt).1 / 4 ≤ (homeSpan v.req.pkt).2 / 4) &&
    decide ((homeSpan v.req.pkt).1 / 4 ≤ (homeSpan x.req.pkt).2 / 4)

/-- A request of the same requester to one of the same 256 B blocks was admitted earlier and has not ended: the device
serves them in that order and sends their responses in that order (R148). -/
def earlierSame (s : State) (v : Service) : Bool :=
  s.svc.any (fun x => decide (x.ticket < v.ticket) && sameBlock s x v)

/-- The same for a WB or EVCT, which the home processes at once: it waits only for those that have not reached it (R148,
R173). -/
def earlierUnserved (s : State) (v : Service) : Bool :=
  s.svc.any (fun x => decide (x.ticket < v.ticket) && sameBlock s x v && !begun s x &&
    !s.coh.txns.any (fun t => t.owed.any (fun o => o.svc.ticket == x.ticket)))

/-- What comes before a request is served: a SEAL on its region (R356), and the twin's part (R369, R371), where `hold`
says that a follower holds it. The answer `none` says that it is served here. WB and EVCT never end RETRY (R172). -/
def twinFirst (s : State) (v : Service) (hold : Bool) : Option State :=
  let addr := v.req.pkt.addr.toNat
  let evicts : Bool := match pktOp v.req.pkt with
    | .wb | .evct => true
    | _ => false
  if (unitParts v.req.pkt).any (sealedAt s (addrPart addr)) && !evicts then some (finish s v (endWith .retry (some addr) 15)) else
  let write : Bool := match pktOp v.req.pkt with
    | .wr | .atom | .publish => true
    | _ => false
  match requestGate s v.req.pkt with
  | .resetting => some (finish s v (endWith .resetting (some addr)))
  | .serve =>
    if write && fromEthernet v && decide (s.twn.state = 3) && (unitParts v.req.pkt).any (fun o => (twinnedAt s (addrPart addr) o).isSome) then
      some (finish s v (endWith .fault (some addr)))
    else none
  | .follower r =>
    if write && fromEthernet v then some (finish s v (endWith .fault (some addr)))
    else if regionCoherent r then some (holdShadow s v (addrHalf s addr))
    else if hold then some (holdRequest s v (addrHalf s addr)) else none

/-- Serve a read of a range, at the near bank too. Under FABENC the answer's envelope leaves room for 4,072 bytes: a longer
RD ends FAULT (R349). -/
def serveRead (s : State) (v : Service) (own : List Nat) : State :=
  let k := v.req.pkt
  if pktOp k ≠ .rd ∨ stopped s v ∨ begun s v ∨ earlierSame s v ∨ earlierHome s v ∨ (popOf s k).isSome then s
  else if readLen k = 0 then finish s v (endWith .empty (some k.addr.toNat))
  else if fabEnc s k.part.toNat ∧ (originPlane v.req.origin).isSome ∧ 4072 < readLen k then
    finish s v (endWith .fault (some k.addr.toNat))
  else match twinFirst s v false with
    | some s => s
    | none =>
      let s := translateRequest s v k.addr.toNat (readLen k)
      let s' := startRange s v own false k.addr.toNat (readLen k) []
      if isCopyRead s v ∧ (piecesOf s' v.ticket).any (fun g => g.status == .retry) then dropPieces s' v.ticket
      else settle s'

/-- The place in DRAM of a byte of a partition; in a flash granule, of the frame that holds it. -/
def dramPlace (s : State) (p off : Nat) : Option (Nat × Nat) := match placeOf s p off with
  | .pinned _ sl a => some (sl, a)
  | .flash _ g => if holdsFrame (granGet s p g) then framePlace s p (granGet s p g).frame (off % 65536) else none
  | _ => none

/-- A word of a write on its way to DRAM: corrected words are counted and logged. The data flips that its decoding leaves,
and whether it is uncorrectable or decodes as poisoned (R298, R300, R303). -/
def arriveWord (s : State) (source p off flips : Nat) : State × Nat × Bool := match dramPlace s p off with
  | none => (s, 0, false)
  | some (sl, a) => match wordDecode (flips % 2 ^ 80) with
    | none => (s, bitsOf flips 14 64, true)
    | some (n, rest) =>
      (if n = 0 then s else logDram (countCorrected s source sl) 1 source n (a / 8 % 8) sl a, bitsOf rest 14 64,
        rest.testBit 78)

/-- The words of a write as they reach the device: the payload, and the window words that arrive bad. -/
def arriveWords (s : State) (v : Service) : List (Nat × Nat) → State × List Byte × List Nat
  | [] => (s, v.req.pkt.payload, [])
  | (w, e) :: rest =>
    let r := arriveWords s v rest
    let off := addrOff v.req.pkt.addr.toNat
    let word := off / 8 + w
    let x := arriveWord r.1 (sourceOf v.req.origin) (addrPart v.req.pkt.addr.toNat) (8 * word) e
    if off + v.req.pkt.payload.length ≤ 8 * word then r
    else (x.1, (List.range r.2.1.length).map (fun i =>
        if (off + i) / 8 = word then r.2.1.getD i 0 ^^^ BitVec.ofNat 8 (x.2.1 >>> (8 * ((off + i) % 8))) else r.2.1.getD i 0),
      if x.2.2 then word :: r.2.2 else r.2.2)

/-- Serve a write of a range. -/
def serveWrite (s : State) (v : Service) (own : List Nat) (errs : List (Nat × Nat) := []) : State :=
  let k := v.req.pkt
  if pktOp k ≠ .wr ∨ stopped s v ∨ begun s v ∨ earlierSame s v ∨ earlierHome s v then s
  else if k.payload = [] then finish s v (endWith .empty (some k.addr.toNat))
  else match twinFirst s v false with
    | some s => s
    | none =>
      let s := translateRequest s v k.addr.toNat k.payload.length
      let (s, bs, bad) := arriveWords s v errs
      settle (startRangeAt s v { own := own, first := addrOff k.addr.toNat, len := k.payload.length, bad := bad } true 0
        k.addr.toNat k.payload.length bs)

/-! ### Atomics (R145, R182, R256) -/

/-- An atomic at the near bank: fetch-add and swap. A word that the own port writes in its two clk collides; a
compare-swap ends FAULT (R256). -/
def nearAtomic (s : State) (m : Mover) (source p off kind operand : Nat) : State × Piece :=
  let n := off - nearBase
  let fail := fun (st : Status) => faultPiece p off 0 st
  match nearPlace (partSlices s.img.layout p) n with
  | none => (s, fail .fault)
  | some (sl, b) =>
    if kind = 2 then (s, fail .fault)
    else if isPopByte s p n then (s, { faultPiece p off 0 .ok with bytes := List.replicate 8 0 })
    else
      let s := otherBegin s (nearWordKey sl b) 2 true
      if collides s m n sl b then (countCollision s p sl, fail .collided)
      else
      let (s, old, _, bad) := nearSeeWord s source sl b
      if bad then (s, fail .poison)
      else
        let (s, _) := nearWriteWord s source sl b (leBytes 8 (atomNew kind (leNat old) operand 0))
        (countNearAtom s p sl, { faultPiece p off 0 .ok with bytes := old })

/-- An atomic on 8 bytes of a slice of published memory. -/
def sliceAtomic (s : State) (source p off sl a kind operand compare : Nat) : State × Piece :=
  match readPiece s source p off 0 8 sl a with
  | (s, x) =>
    if x.status ≠ .ok then (s, { x with bytes := [] })
    else
      let (s, w) := writePiece s source [] p off 0 sl a (leBytes 8 (atomNew kind (leNat x.bytes) operand compare))
      if w.status ≠ .ok then (s, w) else (s, x)

/-- An atomic on memory that is not coherent. -/
def plainAtomic (s : State) (m : Mover) (source p off kind operand compare : Nat) : State × Piece :=
  match placeOf s p off with
  | .none => (s, faultPiece p off 0 .fault)
  | .near _ _ => nearAtomic s m source p off kind operand
  | .pinned _ sl a => sliceAtomic s source p off sl a kind operand compare
  | .flash _ g =>
    match accessGranule s source p g (off % 65536) 8 true false false with
    | (s, .frame f) => match framePlace s p f (off % 65536) with
      | none => (s, faultPiece p off 0 .fault)
      | some (sl, a) => sliceAtomic s source p off sl a kind operand compare
    | (s, .miss h) => (s, faultPiece p off 0 .retry h)
    | (s, .status st) => (s, faultPiece p off 0 st)
    | (s, .zeros) => (s, faultPiece p off 0 .fault)

/-- Operand and compare value of an ATOM's payload (R145). -/
def atomOperand (k : Packet) : Nat := fieldAt k.payload 0 8
def atomCompare (k : Packet) : Nat := fieldAt k.payload 8 8

/-- Serve an atomic; in published memory of a pair its result is mirrored (R371). -/
def runAtomic (s : State) (v : Service) (own : List Nat) : State :=
  let k := v.req.pkt
  let p := addrPart k.addr.toNat
  let off := addrOff k.addr.toNat
  let coherent := match placeOf s p off with
    | .pinned r _ _ => regionCoherent r
    | _ => false
  if coherent then
    settle (startJob s { svc := v, op := .atom, line := k.addr.toNat / 64 * 64, addr := k.addr.toNat, idx := 0, len := 8, bytes := k.payload,
                           epoch := (partGet s p).mapEpoch })
  else
    let r := plainAtomic s { own := own } (sourceOf v.req.origin) p off k.arg.toNat (atomOperand k) (atomCompare k)
    let s := if r.2.status = .ok then
        mirrorAt r.1 true k.seq p off (leBytes 8 (atomNew k.arg.toNat (leNat r.2.bytes) (atomOperand k) (atomCompare k)))
      else r.1
    settle (gather s v.ticket [r.2])

def serveAtomic (s : State) (v : Service) (own : List Nat) : State :=
  if pktOp v.req.pkt ≠ .atom ∨ stopped s v ∨ begun s v ∨ earlierSame s v ∨ earlierHome s v then s
  else match twinFirst s v true with
    | some s => s
    | none => runAtomic (translateRequest s v v.req.pkt.addr.toNat 8) v own

/-! ### Commands -/

/-- RD of a ticket in service (R145, R146, R182, R233, R304). -/
def execRd (ticket clk : Nat) (s : State) : Host.Outcome State Fault Refusal :=
  let s := seenClk s clk
  match svcFind s ticket with
  | none => .next s
  | some v => .next (serveRead s v [])

/-- WR of a ticket in service (R145, R146, R182, R197, R303, R305). -/
def execWr (ticket : Nat) (errs : WriteErrors) (s : State) : Host.Outcome State Fault Refusal :=
  let s := seenClk s errs.clk
  match svcFind s ticket with
  | none => .next s
  | some v => .next (serveWrite s v [] errs.words)

/-- ATOM of a ticket in service (R145, R182, R256). -/
def execAtom (ticket clk : Nat) (s : State) : Host.Outcome State Fault Refusal :=
  let s := seenClk s clk
  match svcFind s ticket with
  | none => .next s
  | some v => .next (serveAtomic s v [])

/-- NEAR_BANK_ACCESS (R254 to R256): a request to the near window, in a clk whose own-port writes are the window words
of `ownWrites`; for an atomic, those of its second clk too. -/
def execNearBankAccess (ticket : Nat) (ownWrites : List Nat) (clk : Nat) (s : State) :
    Host.Outcome State Fault Refusal :=
  let s := seenClk s clk
  match svcFind s ticket with
  | none => .next s
  | some v =>
    if addrOff v.req.pkt.addr.toNat < nearBase then .next s
    else match pktOp v.req.pkt with
      | .rd => .next (serveRead s v ownWrites)
      | .wr => .next (serveWrite s v ownWrites)
      | .atom => .next (serveAtomic s v ownWrites)
      | _ => .next s

end Sys2Proof.Machine
end

