-- ==== Sys2Proof/Machine/Coherence.lean ====
section
/-! DEFINITION. The coherence commands at the home: requests of agents, their answers, grant acknowledgements, the answer
timeout and the sweep of a fenced agent (R165 to R187). -/

namespace Sys2Proof.Machine

/-- A coherent opcode needs a mapped line of a DATA or SHARED region (R31, R145). -/
def coherentLine (s : State) (addr : Nat) : Bool :=
  match placeOf s (addrPart addr) (addrOff addr) with
  | .pinned r _ _ => regionCoherent r
  | _ => false

/-- The requester is an agent of the line's partition that a fence holds, which lasts until a partition image takes effect
(R184, R382). -/
def agentFenced (s : State) (v : Service) : Bool :=
  let p := addrPart v.req.pkt.addr.toNat
  match agentIndex s p v.req.pkt.src.toNat with
  | none => false
  | some j => (partGet s p).fenced.testBit j

/-- RD_S, RD_X and UPG reach the home. -/
def serveAgent (s : State) (ticket : Nat) (o : Op) (op : LineOp) : State :=
  match svcFind s ticket with
  | none => s
  | some v =>
    let addr := v.req.pkt.addr.toNat
    if pktOp v.req.pkt ≠ o ∨ stopped s v ∨ begun s v ∨ earlierSame s v ∨ earlierHome s v then s
    else if !coherentLine s addr then finish s v (endWith .fault (some addr))
    else if agentFenced s v then finish s v (endWith .fenced (some addr))
    else match twinFirst s v false with
      | some s => s
      | none =>
        let s := translateRequest s v addr 64
        settle (startJob s { svc := v, op := op, line := addr / 64 * 64, addr := addr, idx := 0, len := 64, bytes := [] })

/-- WB and EVCT reach the home. -/
def serveEvict (s : State) (ticket : Nat) (o : Op) : State :=
  match svcFind s ticket with
  | none => s
  | some v =>
    let addr := v.req.pkt.addr.toNat
    let owed := s.coh.txns.any (fun t => t.owed.any (fun x => x.svc.ticket == ticket))
    if pktOp v.req.pkt ≠ o ∨ stopped s v ∨ begun s v ∨ owed ∨ earlierUnserved s v ∨ earlierHome s v then s
    else if !coherentLine s addr then finish s v (endWith .fault (some addr))
    else if agentFenced s v then finish s v (endWith .fenced (some addr))
    else match twinFirst s v false with
      | some s => s
      | none => settle (evict (translateRequest s v addr 64) v (if o = .wb then some v.req.pkt.payload else none))

def execRdS (ticket clk : Nat) (s : State) : Host.Outcome State Fault Refusal :=
  .next (serveAgent (seenClk s clk) ticket .rdS .rdS)
def execRdX (ticket clk : Nat) (s : State) : Host.Outcome State Fault Refusal :=
  .next (serveAgent (seenClk s clk) ticket .rdX .rdX)
def execUpg (ticket clk : Nat) (s : State) : Host.Outcome State Fault Refusal :=
  .next (serveAgent (seenClk s clk) ticket .upg .upg)
def execWb (ticket clk : Nat) (s : State) : Host.Outcome State Fault Refusal :=
  .next (serveEvict (seenClk s clk) ticket .wb)
def execEvct (ticket clk : Nat) (s : State) : Host.Outcome State Fault Refusal :=
  .next (serveEvict (seenClk s clk) ticket .evct)

/-- Take the oldest sunk packet that meets a test. -/
def takeInbox (s : State) (f : Packet → Bool) : Option (Sunk × State) :=
  (takeFirst (fun x => f x.pkt) s.fab.inbox).map (fun r => (r.1, { s with fab := { s.fab with inbox := r.2 } }))

/-- SNP_RSP (R180, R181): the oldest one sunk. -/
def execSnpRsp (clk : Nat) (s : State) : Host.Outcome State Fault Refusal :=
  match takeInbox (seenClk s clk) (fun p => pktOp p = .snpRsp) with
  | none => .next (seenClk s clk)
  | some (x, s) => .next (settle (snoopAnswer s x.pkt none))

/-- SNP_DATA (R180, R181): its line is written to memory where the transaction takes it. -/
def execSnpData (clk : Nat) (s : State) : Host.Outcome State Fault Refusal :=
  match takeInbox (seenClk s clk) (fun p => pktOp p = .snpData) with
  | none => .next (seenClk s clk)
  | some (x, s) => .next (settle (snoopAnswer s x.pkt (some x.pkt.payload)))

/-- FWD_DATA addressed to the home (R181, R184). -/
def execFwdData (clk : Nat) (s : State) : Host.Outcome State Fault Refusal :=
  match takeInbox (seenClk s clk) (fun p => pktOp p = .fwdData) with
  | none => .next (seenClk s clk)
  | some (x, s) => .next (settle (forwardData s x.pkt))

/-- A CMP that answers a twin packet of this leader (R372, R373). -/
def isTwinCmp (s : State) (p : Packet) : Bool :=
  pktOp p = .cmp && decide (p.src.toNat = twinPeer s) &&
    s.twn.sent.any (fun o => o.seq = p.seq.toNat && o.addr = p.addr.toNat)

/-- GRANT_ACKNOWLEDGEMENT (R174, R181). -/
def execGrantAcknowledgement (clk : Nat) (s : State) : Host.Outcome State Fault Refusal :=
  match takeInbox (seenClk s clk) (fun p => pktOp p = .cmp && !isTwinCmp s p) with
  | none => .next (seenClk s clk)
  | some (x, s) => .next (settle (grantAck s x.pkt))

/-- Agents from which a transaction still awaits a message (R181). -/
def awaited (t : Txn) : List Nat :=
  match t.busy with
  | .BI => t.pend
  | .BF => t.fwd.toList ++ t.agent.toList
  | .BG => t.agent.toList
  | .BR => t.fwd.toList

/-- COH_ANSWER_TIMEOUT (R181): STO frames have passed: the management interrupt is raised and STALL is set for every
agent awaited; the transaction stays open. -/
def execCohAnswerTimeout (txn : Nat) (s : State) : Host.Outcome State Fault Refusal :=
  match s.coh.txns.find? (fun t => t.id == txn) with
  | none => .next s
  | some t =>
    if t.stalled ∨ frameOf s < t.since + s.coh.sto then .next s
    else
      let s := noteFlags s ((awaited t).map (fun n => 1024 + 64 * t.part + n))
      let s := putTxn { s with di := { s.di with irq := true } } { t with stalled := true }
      .next (partMod s t.part (fun x => { x with stall := (awaited t).foldl withSharer x.stall }))

/-- FENCE_SWEEP_LINE (R184): one line of a partition is treated for every fenced agent that still awaits it. -/
def execFenceSweepLine (part : Fin 32) (line : Nat) (s : State) : Host.Outcome State Fault Refusal :=
  let due := (s.coh.sweepLeft.filter (fun x => x.1 = part.val && x.2.1 = line)).map (fun x => x.2.2)
  .next (settle (endSweep (due.foldl (fun s j => treatLine s part.val line j) s) part.val))

end Sys2Proof.Machine
end

