-- ==== Sys2Proof/Machine/EngineArith.lean ====
section
/-! DEFINITION. The arithmetic of the engines: number formats (R257 to R259), exact sums (R260, R261), the FP32 tree
(R262), conversions (R263, R264) and comparison (R265). A finite number is held exactly, as a sign, a magnitude and a
power of two, and is rounded once where a rule rounds it. -/

namespace Sys2Proof.Machine

/-- A number: ±m × 2^e, an infinity, or NaN. The sign of zero is kept. -/
inductive Num where
  | nan
  | inf (neg : Bool)
  | fin (neg : Bool) (m : Nat) (e : Int)
deriving DecidableEq, Repr, Inhabited

/-! ### Formats (R257) -/

/-- Format codes 1 to 10: FP32, BF16, FP16, E4M3, E5M2, MXFP8-E4M3, MXFP8-E5M2, MXFP4, INT8, INT32. -/
def fmtOk (f : Nat) : Bool := decide (1 ≤ f) && decide (f ≤ 10)
def fmtMx (f : Nat) : Bool := decide (6 ≤ f) && decide (f ≤ 8)
def fmtInt (f : Nat) : Bool := f = 9 || f = 10

/-- Element size in bytes; MX formats count as 1 byte (R252). -/
def fmtSize (f : Nat) : Nat :=
  match f with
  | 1 | 10 => 4
  | 2 | 3 => 2
  | _ => 1

/-- Bytes of the elements of a row of n, and of the whole row (R257, R258). -/
def elemBytes (f n : Nat) : Nat := if f = 8 then n / 2 else n * fmtSize f
def rowBytes (f n : Nat) : Nat := if fmtMx f then elemBytes f n + n / 32 else elemBytes f n

/-- The paths of R259: 0 exact, 1 integer, 2 FP32. -/
def fmtPath (f : Nat) : Nat := if f = 1 then 2 else if fmtInt f then 1 else 0

/-- A binary floating format: exponent and mantissa bits, bias, and what its top exponent holds: 0 infinities and
NaNs, 1 a single NaN mantissa (E4M3), 2 numbers alone (E2M1). -/
structure Float where
  eb : Nat
  mb : Nat
  bias : Nat
  top : Nat
deriving DecidableEq, Repr, Inhabited

def fp32 : Float := ⟨8, 23, 127, 0⟩
def bf16 : Float := ⟨8, 7, 127, 0⟩
def fp16 : Float := ⟨5, 10, 15, 0⟩
def e4m3 : Float := ⟨4, 3, 7, 1⟩
def e5m2 : Float := ⟨5, 2, 15, 0⟩
def e2m1 : Float := ⟨2, 1, 1, 2⟩

/-- The floating format of a code; for an MX code, that of its elements. -/
def floatOf (f : Nat) : Float :=
  match f with
  | 1 => fp32
  | 2 => bf16
  | 3 => fp16
  | 4 | 6 => e4m3
  | 5 | 7 => e5m2
  | _ => e2m1

/-- The canonical NaN of a floating format (R260). -/
def canonNan (x : Float) : Nat :=
  if x.top = 1 then 2 ^ (x.eb + x.mb) - 1
  else if x.top = 2 then 0
  else if x.mb = 2 then 0x7E
  else (2 ^ x.eb - 1) * 2 ^ x.mb + 2 ^ (x.mb - 1)

/-- The canonical NaN of a format code, 0 for an integer (R270). -/
def fmtNan (f : Nat) : Nat := if fmtInt f then 0 else canonNan (floatOf f)

/-- The number that a floating encoding holds. Subnormals are taken at their value. -/
def decodeFloat (x : Float) (bits : Nat) : Num :=
  let man := bits % 2 ^ x.mb
  let ex := bits / 2 ^ x.mb % 2 ^ x.eb
  let neg := bits.testBit (x.eb + x.mb)
  let last := 2 ^ x.eb - 1
  if x.top = 0 ∧ ex = last then (if man = 0 then .inf neg else .nan)
  else if x.top = 1 ∧ ex = last ∧ man = 2 ^ x.mb - 1 then .nan
  else if ex = 0 then .fin neg man (1 - (x.bias : Int) - x.mb)
  else .fin neg (2 ^ x.mb + man) ((ex : Int) - x.bias - x.mb)

/-- An integer as a number. -/
def numOfInt (v : Int) : Num := .fin (decide (v < 0)) v.natAbs 0

/-- The number that an element of a format other than MX holds. -/
def decodeElem (f bits : Nat) : Num :=
  match f with
  | 9 => numOfInt (BitVec.ofNat 8 bits).toInt
  | 10 => numOfInt (BitVec.ofNat 32 bits).toInt
  | _ => decodeFloat (floatOf f) bits

/-- An element's value times its block's scale (R258). -/
def scaleNum (byte : Nat) (v : Num) : Num :=
  if byte = 0xFF then .nan
  else match v with
    | .fin neg m e => .fin neg m (e + (byte : Int) - 127)
    | x => x

/-- The elements of a row of n of a format, from its bytes (R257, R258). -/
def decodeRow (f n : Nat) (bs : List Byte) : List Num :=
  if fmtMx f then
    (List.range n).map (fun i =>
      let raw := if f = 8 then (bs.getD (i / 2) 0).toNat / 16 ^ (i % 2) % 16 else (bs.getD i 0).toNat
      scaleNum (bs.getD (elemBytes f n + i / 32) 0).toNat (decodeFloat (floatOf f) raw))
  else (List.range n).map (fun i => decodeElem f (fieldAt bs (i * fmtSize f) (fmtSize f)))

/-! ### Rounding -/

/-- m / 2^d to the nearest, ties to even. -/
def roundShift (m d : Nat) : Nat :=
  let q := m >>> d
  let r := m % 2 ^ d
  if 2 * r < 2 ^ d then q
  else if 2 * r = 2 ^ d then q + q % 2 else q + 1

/-- m × 2^e rounded once to the grid of a format with its exponent unbounded above: (q, k) for q × 2^k, with the grid
of subnormals below the least normal exponent. -/
def roundGrid (x : Float) (m : Nat) (e : Int) : Nat × Int :=
  if m = 0 then (0, 1 - (x.bias : Int) - x.mb)
  else
    let k := max ((Nat.log2 m : Int) + e - x.mb) (1 - (x.bias : Int) - x.mb)
    let q := if k ≤ e then m <<< (e - k).toNat else roundShift m (k - e).toNat
    if 2 ^ (x.mb + 1) ≤ q then (q / 2, k + 1) else (q, k)

/-- The largest exponent of a format's finite numbers. -/
def topExp (x : Float) : Int := (2 ^ x.eb : Nat) - 1 - (x.bias : Int) - (if x.top = 0 then 1 else 0)

/-- A rounded magnitude exceeds the format's largest finite number. -/
def overflows (x : Float) (q : Nat) (k : Int) : Bool :=
  decide (2 ^ x.mb ≤ q) &&
    (decide (topExp x < k + x.mb) || (x.top = 1 && k + x.mb = topExp x && q = 2 ^ (x.mb + 1) - 1))

/-- The largest finite encoding without its sign. -/
def largestFinite (x : Float) : Nat :=
  if x.top = 0 then (2 ^ x.eb - 1) * 2 ^ x.mb - 1 else if x.top = 1 then 2 ^ (x.eb + x.mb) - 2 else 2 ^ (x.eb + x.mb) - 1

/-- The encoding of a number on the format's grid, without its sign. -/
def encodeGrid (x : Float) (q : Nat) (k : Int) : Nat :=
  if q < 2 ^ x.mb then q else (k + x.mb + x.bias).toNat * 2 ^ x.mb + (q - 2 ^ x.mb)

def withSign (x : Float) (neg : Bool) (bits : Nat) : Nat := bits + bit01 neg * 2 ^ (x.eb + x.mb)

/-- What an overflow gives: the largest finite with SAT, else the infinity, or the NaN of E4M3 (R263). -/
def overflowBits (x : Float) (sat neg : Bool) : Nat :=
  if sat || x.top = 2 then withSign x neg (largestFinite x)
  else if x.top = 0 then withSign x neg ((2 ^ x.eb - 1) * 2 ^ x.mb)
  else canonNan x

/-- A number in a floating format (R260, R263). -/
def toFloat (x : Float) (sat : Bool) (v : Num) : Nat :=
  match v with
  | .nan => canonNan x
  | .inf neg => overflowBits x sat neg
  | .fin neg m e =>
    let (q, k) := roundGrid x m e
    if overflows x q k then overflowBits x sat neg else withSign x neg (encodeGrid x q k)

/-- m × 2^e to the nearest integer, ties to even. -/
def roundMag (m : Nat) (e : Int) : Nat := if 0 ≤ e then m <<< e.toNat else roundShift m (-e).toNat

/-- A number in a two's-complement integer of w bits: rounded, saturated; NaN gives 0 (R263). -/
def toInteger (w : Nat) (v : Num) : Nat :=
  match v with
  | .nan => 0
  | .inf neg => if neg then 2 ^ (w - 1) else 2 ^ (w - 1) - 1
  | .fin neg m e =>
    let r := roundMag m e
    if neg then (if 2 ^ (w - 1) ≤ r then 2 ^ (w - 1) else (2 ^ w - r) % 2 ^ w)
    else min r (2 ^ (w - 1) - 1)

/-- A number in a format other than MX (R263). -/
def toElem (f : Nat) (sat : Bool) (v : Num) : Nat :=
  match f with
  | 9 => toInteger 8 v
  | 10 => toInteger 32 v
  | _ => toFloat (floatOf f) sat v

/-! ### Comparison (R265) -/

def numMin (a b : Int) : Int := if a ≤ b then a else b

/-- The integer that a finite number is at scale 2^k, for k at most its exponent. -/
def atScale (v : Num) (k : Int) : Int :=
  match v with
  | .fin neg m e => (if neg then -1 else 1) * ((m <<< (e - k).toNat : Nat) : Int)
  | _ => 0

/-- Numeric order of two numbers other than NaN; −0 equals +0. -/
def numLt (a b : Num) : Bool :=
  match a, b with
  | .inf na, .inf nb => na && !nb
  | .inf na, _ => na
  | _, .inf nb => !nb
  | .fin _ _ ea, .fin _ _ eb => decide (atScale a (numMin ea eb) < atScale b (numMin ea eb))
  | _, _ => false

def isNan (v : Num) : Bool := match v with
  | .nan => true
  | _ => false

def isZero (v : Num) : Bool := match v with
  | .fin _ m _ => m = 0
  | _ => false

def numNeg (v : Num) : Bool := match v with
  | .nan => false
  | .inf n => n
  | .fin n _ _ => n

/-- The greater of two numbers, MAX of −0 and +0 being +0; the lesser, their MIN being −0 (R265). -/
def pickNum (max_ : Bool) (a b : Num) : Num :=
  let better := if max_ then numLt a b else numLt b a
  if better then b
  else if isZero a && isZero b && (numNeg a == max_) then b else a

/-- MAX or MIN of a row; NaN with any NaN in it (R265). -/
def extreme (max_ : Bool) (vs : List Num) : Num :=
  if vs.any isNan then .nan
  else match vs with
    | [] => .nan
    | v :: rest => rest.foldl (pickNum max_) v

/-! ### Exact sums (R260, R261) -/

/-- The exact product of two elements; infinity times zero is NaN (R260). -/
def mulNum (a b : Num) : Num :=
  match a, b with
  | .nan, _ => .nan
  | _, .nan => .nan
  | .inf n, .inf m => .inf (xor n m)
  | .inf n, .fin k m _ => if m = 0 then .nan else .inf (xor n k)
  | .fin k m _, .inf n => if m = 0 then .nan else .inf (xor n k)
  | .fin n a e, .fin m b f => .fin (xor n m) (a * b) (e + f)

/-- The least exponent of the finite terms. -/
def leastExp (ts : List Num) : Int :=
  ts.foldl (fun acc t => match t with
    | .fin _ _ e => numMin acc e
    | _ => acc) 0

/-- The exact sum of terms times 2^shift: rules 1 to 3 and 6 of R260. -/
def exactSum (ts : List Num) (shift : Int) : Num :=
  if ts.any isNan || (ts.contains (.inf false) && ts.contains (.inf true)) then .nan
  else if ts.contains (.inf false) then .inf false
  else if ts.contains (.inf true) then .inf true
  else
    let k := leastExp ts
    let sum := ts.foldl (fun acc t => acc + atScale t k) 0
    if sum = 0 then .fin (ts.all (fun t => isZero t && numNeg t)) 0 0
    else .fin (decide (sum < 0)) sum.natAbs (k + shift)

/-! ### The FP32 path (R262) -/

/-- An FP32 addition: ties to even, a NaN canonical; x − x is +0. -/
def addFp32 (a b : Num) : Num :=
  match a, b with
  | .nan, _ => .nan
  | _, .nan => .nan
  | .inf n, .inf m => if n = m then .inf n else .nan
  | .inf n, _ => .inf n
  | _, .inf n => .inf n
  | .fin n _ e, .fin m _ f =>
    let k := numMin e f
    let sum := atScale a k + atScale b k
    if sum = 0 then .fin (n && m) 0 0
    else decodeFloat fp32 (toFloat fp32 false (.fin (decide (sum < 0)) sum.natAbs k))

/-- A number rounded to FP32. -/
def roundFp32 (v : Num) : Num := decodeFloat fp32 (toFloat fp32 false v)

/-- A product rounded to FP32. -/
def mulFp32 (a b : Num) : Num := roundFp32 (mulNum a b)

/-- Leaves of 2^tree consecutive elements, each summed left to right. -/
def leafSums (size : Nat) : Nat → List Num → List Num
  | 0, _ => []
  | fuel + 1, vs =>
    match vs.take size with
    | [] => []
    | v :: rest => rest.foldl addFp32 v :: leafSums size fuel (vs.drop size)

/-- One round of pairing; an unpaired last sum passes up unchanged. -/
def pairSums : List Num → List Num
  | a :: b :: rest => addFp32 a b :: pairSums rest
  | l => l

def treeUp : Nat → List Num → Num
  | 0, vs => vs.headD (.fin false 0 0)
  | fuel + 1, vs => match vs with
    | [v] => v
    | vs => treeUp fuel (pairSums vs)

/-- The fixed tree over a vector of FP32 values. -/
def treeSum (tree : Nat) (vs : List Num) : Num := treeUp (vs.length + 1) (leafSums (2 ^ tree) (vs.length + 1) vs)

/-- A number times 2^shift. -/
def shiftNum (shift : Int) (v : Num) : Num :=
  match v with
  | .fin n m e => .fin n m (e + shift)
  | x => x

/-! ### Results of a sum -/

/-- The value of one sum on its path before the destination format: the terms are products, or the elements of a RED.
On the FP32 path the products are rounded and SHIFT multiplies the final value (R260 to R262). -/
def sumOn (path tree : Nat) (shift : Int) (products : Bool) (ts : List (Num × Num)) : Num :=
  if path = 2 then
    let vs := ts.map (fun t => if products then mulFp32 t.1 t.2 else t.1)
    shiftNum shift (treeSum tree vs)
  else
    let v := exactSum (ts.map (fun t => if products then mulNum t.1 t.2 else t.1)) shift
    -- an integer sum of zero has no sign (R261)
    if path = 1 && isZero v then .fin false 0 0 else v

/-! ### MX destinations (R264) -/

/-- The exponent 2^m of a format's largest number: 8 for E4M3, 15 for E5M2, 2 for E2M1. -/
def mxTop (f : Nat) : Int := if f = 6 then 8 else if f = 7 then 15 else 2

/-- The greatest of the magnitudes, as ⌊log2⌋; none when every magnitude is zero. -/
def blockLog (vs : List Num) : Option Int :=
  vs.foldl (fun acc v => match v with
    | .fin _ m e =>
      if m = 0 then acc
      else
        let l := (Nat.log2 m : Int) + e
        match acc with
        | none => some l
        | some a => some (max a l)
    | _ => acc) none

/-- The scale byte and the element codes of one block. -/
def mxBlock (f : Nat) (vs : List Num) : Nat × List Nat :=
  let x := floatOf f
  if vs.any (fun v => match v with
    | .fin _ _ _ => false
    | _ => true) then (0xFF, vs.map (fun _ => 0))
  else match blockLog vs with
    | none => (0, vs.map (fun v => withSign x (numNeg v) 0))
    | some l =>
      let e := max (-127) (min 127 (l - mxTop f))
      ((e + 127).toNat, vs.map (fun v => toFloat x true (shiftNum (-e) v)))

/-- Two E2M1 codes to a byte, the even element low (R258). -/
def packPairs : List Nat → List Byte
  | a :: b :: rest => BitVec.ofNat 8 (a + 16 * b) :: packPairs rest
  | [a] => [BitVec.ofNat 8 a]
  | [] => []

/-- The bytes of a row of numbers in a format (R257, R258, R263, R264). -/
def encodeRow (f : Nat) (sat : Bool) (vs : List Num) : List Byte :=
  if fmtMx f then
    let blocks := (List.range ((vs.length + 31) / 32)).map (fun b => mxBlock f ((vs.drop (32 * b)).take 32))
    let codes := blocks.flatMap (·.2)
    (if f = 8 then packPairs codes else codes.map (BitVec.ofNat 8)) ++ blocks.map (fun b => BitVec.ofNat 8 b.1)
  else vs.flatMap (fun v => leBytes (fmtSize f) (toElem f sat v))

end Sys2Proof.Machine
end

