-- ==== Sys2Proof/Machine/Publish.lean ====
section
/-! DEFINITION. FLUSH, PUBLISH and ACQUIRE of published regions: release, decision, versions (R188 to R201). -/

namespace Sys2Proof.Machine

/-- The home of a unit: the half of slice u mod s in local slice order (R190). -/
def unitHalf (s : State) (p u : Nat) : Nat :=
  let sls := partSlices s.img.layout p
  if sls.length = 0 then 0 else halfOf (sls.getD (u % sls.length) 0)

/-- A request addresses some byte of a unit. -/
def touchesUnit (v : Service) (p u : Nat) : Bool :=
  let k := v.req.pkt
  let a := k.addr.toNat
  let n := match pktOp k with
    | .flush | .publish | .acquire => 1
    | _ => rangeLen k
  decide (addrPart a = p) && decide (0 < n) && decide (addrOff a / 2097152 ≤ u) &&
    decide (u ≤ (addrOff a + n - 1) / 2097152)

/-- The release of R192: every request of the flow to the unit admitted earlier has ended, its answer gone from the
device. -/
def released (s : State) (v : Service) (p u : Nat) : Bool :=
  let before := fun (x : Service) => decide (x.key = v.key) && decide (x.ticket < v.ticket) && touchesUnit x p u
  !s.svc.any before && !s.fab.leaving.any (fun x => before x && answerHere s x)

/-- A PUBLISH of the unit that reached the home earlier still waits: those that wait stand in the order in which they
reached it (R194). -/
def earlierPublish (s : State) (ticket p u : Nat) : Bool :=
  (s.coh.pubWait.takeWhile (fun w => w.svc.ticket != ticket)).any (fun w => w.publish && w.unit = p * 2 ^ 26 + u)

/-- A PUBLISH or FLUSH that finds the table full ends RETRY, hint 1, counted (R194). -/
def pubRetry (s : State) (v : Service) (p : Nat) : State :=
  finish (partCnt s p (fun c => { c with pubRetry := satTo 12 (c.pubRetry + 1) })) v
    (endWith .retry (some v.req.pkt.addr.toNat) 1)

def addWait (s : State) (v : Service) (half p u : Nat) (publish entry : Bool) : State :=
  { s with coh := { s.coh with pubWait := s.coh.pubWait ++
    [{ svc := v, half := half, unit := p * 2 ^ 26 + u, publish := publish, entry := entry }] } }

/-- A request waits no more. An entry it held goes to what waits for one in that half (R184). -/
def dropWait (s : State) (ticket : Nat) : State :=
  let gone := s.coh.pubWait.filter (fun w => w.svc.ticket == ticket && w.entry)
  let s := { s with coh := { s.coh with pubWait := s.coh.pubWait.filter (fun w => w.svc.ticket != ticket) } }
  gone.foldl (fun s w => startPlacing (startRecovery s w.half)) s

/-- A COMMAND, PUBLISH or MAPPING event waits while the ledger's buffer is full or entries are held (R363). -/
def ledgerBlocked (s : State) (p : Nat) : Bool :=
  let g := (partGet s p).ledger
  (lgFull g && decide (g.size ≠ 0)) || !g.held.isEmpty

/-- The request's unit, or the FAULT of R196, the twin's part, then the operation. -/
def withUnit (s : State) (ticket : Nat) (o : Op) (hold : Bool) (f : State → Service → Nat → Nat → State) : State :=
  match svcFind s ticket with
  | none => s
  | some v =>
    if pktOp v.req.pkt ≠ o ∨ stopped s v ∨ begun s v ∨ earlierHome s v then s
    else match publishUnit s v.req.pkt.addr.toNat with
      | none => finish s v (endWith .fault (some v.req.pkt.addr.toNat))
      | some (p, u) => match twinFirst s v hold with
        | some s => s
        | none => f s v p u

/-- A FLUSH that is not released holds a table entry (R192, R194). -/
def startFlush (s : State) (v : Service) (p u : Nat) : State :=
  if released s v p u then finish s v { status := .ok }
  else
    let h := unitHalf s p u
    if mayOpen s h then notePeak (addWait s v h p u false true) h else pubRetry s v p

/-- A PUBLISH waits for its release, for earlier PUBLISHes of the unit, or for the ledger with a table entry; one that
need not wait is decided next without an entry (R193, R194, R363). -/
def startPublish (s : State) (v : Service) (p u : Nat) : State :=
  let h := unitHalf s p u
  if released s v p u ∧ ¬ earlierPublish s v.ticket p u ∧ ¬ ledgerBlocked s p then addWait s v h p u true false
  else if mayOpen s h then notePeak (addWait s v h p u true true) h else pubRetry s v p

/-- Word 2 of the version record (R195). -/
def publisherWord (x : Version) : Nat := if x.v = 0 then 0 else bit01 x.host <<< 15 ||| x.req % 4096

/-- The 16 bytes of the version record (R195). -/
def versionRecord (x : Version) : List Byte := leBytes 8 x.v ++ leBytes 4 (publisherWord x) ++ leBytes 4 0

/-- R193: the status, and the version after the decision. -/
def decide193 (x : Version) (base : Nat) (host : Bool) (req : Nat) : Status × Version :=
  if base = x.v then
    if x.v < 2 ^ 64 - 1 then (.ok, { v := x.v + 1, host := host, req := req }) else (.fault, x)
  else (.conflict, x)

/-- The decision of a PUBLISH by a requester with its counters and ledger entry (R193, R199, R201). -/
def decideUnit (s : State) (p u base : Nat) (host : Bool) (req : Nat) : State × Status × Version :=
  let (st, x) := decide193 (versionGet s p u) base host req
  let s := versionSet s p u x
  let s := partCnt s p (fun c =>
    if st = .ok then { c with pubOk := wrap32 c.pubOk }
    else if st = .conflict then { c with pubConflict := wrap32 c.pubConflict } else c)
  let body := leBytes 4 u ++ leBytes 4 0 ++ leBytes 8 base ++ leBytes 8 x.v ++ leBytes 4 (publisherWord x)
  ((lgAppend s p .publish (statusCode st) (bit01 host) 0 req body [] 0).1, st, x)

/-- The publisher of a request: its flow's HOST and REQ. -/
def publisherOf (v : Service) : Bool × Nat := (flowHost v.key, flowReq v.key)

/-- A twin publish to the follower of a pair, which the leader feeds in RESYNC too, as one version stands on both devices
(R200, R371, R372). -/
def sendTwinPub (s : State) (v : Service) (base : Nat) : State :=
  let k := v.req.pkt
  match twinnedAt s (addrPart k.addr.toNat) (addrOff k.addr.toNat) with
  | none => s
  | some r =>
    if mirroring s then
      sendTwin s r { newPacket s .twinPub (twinPeer s) r.part k.seq k.addr.toNat [] with aux := BitVec.ofNat 64 base }
    else s

/-- Decide a released PUBLISH, send it on, answer it (R193, R371, R373). -/
def decidePublish (s : State) (v : Service) (p u : Nat) : State :=
  let base := v.req.pkt.aux.toNat
  let (host, req) := publisherOf v
  let (s, st, x) := decideUnit (dropWait s v.ticket) p u base host req
  reply (sendTwinPub s v base) v { status := st, aux := x.v }

/-- FLUSH (R191, R192, R196). -/
def execFlush (ticket : Nat) (s : State) : Host.Outcome State Fault Refusal :=
  .next (withUnit s ticket .flush false startFlush)

/-- FLUSH_RELEASE (R192): the last earlier request of the flow has ended. -/
def execFlushRelease (ticket : Nat) (s : State) : Host.Outcome State Fault Refusal :=
  match s.coh.pubWait.find? (fun w => w.svc.ticket == ticket && !w.publish) with
  | none => .next s
  | some w =>
    if released s w.svc (w.unit / 2 ^ 26) (w.unit % 2 ^ 26) ∧ ¬ stopped s w.svc then
      match twinFirst (dropWait s ticket) w.svc false with
      | some s => .next s
      | none => .next (finish (dropWait s ticket) w.svc { status := .ok })
    else .next s

/-- PUBLISH (R191, R193, R194, R196). -/
def execPublish (ticket : Nat) (s : State) : Host.Outcome State Fault Refusal :=
  .next (withUnit s ticket .publish true startPublish)

/-- PUBLISH_DECIDE (R193, R194, R363): a released PUBLISH with no earlier one of its unit before it, of an ACTIVE
partition (R196). While the ledger buffer is full it stays undecided, in a table entry. Where the device leads its twin
no more, it is no longer decided here (R200, R369, R371). -/
def execPublishDecide (ticket : Nat) (s : State) : Host.Outcome State Fault Refusal :=
  match s.coh.pubWait.find? (fun w => w.svc.ticket == ticket && w.publish) with
  | none => .next s
  | some w =>
    let p := w.unit / 2 ^ 26
    let u := w.unit % 2 ^ 26
    if !released s w.svc p u ∨ earlierPublish s ticket p u ∨ stopped s w.svc ∨ (partGet s p).st ≠ .active then .next s
    else match twinFirst (dropWait s ticket) w.svc true with
    | some s => .next s
    | none =>
    if ledgerBlocked s p then
      if w.entry then .next s
      else if mayOpen s w.half then
        .next (notePeak { s with coh := { s.coh with pubWait := s.coh.pubWait.map (fun x =>
          if x.svc.ticket = ticket then { x with entry := true } else x) } } w.half)
      else .next (pubRetry (dropWait s ticket) w.svc p)
    else .next (decidePublish s w.svc p u)

/-- ACQUIRE (R191, R194, R195): V and the publisher as they stand; never held. -/
def execAcquire (ticket : Nat) (s : State) : Host.Outcome State Fault Refusal :=
  .next (withUnit s ticket .acquire false (fun s v p u =>
    finish s v { status := .ok, data := some (versionRecord (versionGet s p u)) }))

/-- PUB_CTRL.CLR (R201). -/
def clearPub (s : State) (p : Nat) : State :=
  partCnt s p (fun c => { c with pubOk := 0, pubConflict := 0, pubRetry := 0 })
def execPubClear (part : Fin 32) (s : State) : Host.Outcome State Fault Refusal := .next (clearPub s part.val)

end Sys2Proof.Machine
end

