-- ==== Sys2Proof/Machine/Queues.lean ====
section
/-! DEFINITION. Queue pairs: areas, pointers, sampling, completions, pops (R279 to R286, R296), and the engines a
partition has (R21, R275, R276, R278). -/

namespace Sys2Proof.Machine

/-! ### Engines of a partition -/

/-- The physical engine that serves a logical number: its own, or the spare that took the number (R5, R276). -/
def physOf (s : State) (e : Nat) : Nat :=
  if (engGet s e).logical = some e then e
  else ((List.range 16).map (· + 256)).find? (fun i => (engGet s i).logical = some e) |>.getD e

/-- Logical engines of a partition in local engine order (R21). -/
def partEngines (s : State) (p : Nat) : List Nat :=
  (partSlices s.img.layout p).flatMap (fun sl => [2 * sl, 2 * sl + 1])

/-- The lead: the engine of lowest local engine index (R274). -/
def leadEngine (s : State) (p : Nat) : Nat := (partEngines s p).headD 0

def logMod (s : State) (e : Nat) (f : Engine → Engine) : State := engMod s (physOf s e) f
def logGet (s : State) (e : Nat) : Engine := engGet s (physOf s e)

/-- The counters count only requests of partitions that are not in confidential mode (R277). -/
def countEng (s : State) (p e : Nat) (f : Engine → Engine) : State := if isConf s p then s else logMod s e f

/-! ### Areas and words of a pair (R279 to R281) -/

/-- One more than the range of a pointer, 2^(n+1). -/
def pointerRange (x : Pair) : Nat := 2 ^ (x.size + 1)

def apart (a b : Nat × Nat) : Bool := decide (a.1 + a.2 ≤ b.1) || decide (b.1 + b.2 ≤ a.1)

/-- The slice and share byte of a near offset of a partition. -/
def queuePlace (s : State) (p n : Nat) : Option (Nat × Nat) := nearPlace (partSlices s.img.layout p) n

/-- The queue unit reads one 8-byte word, in its turn or, where `now`, in this clk: its bytes, and whether it is
uncorrectable; both are counted (R255, R286). -/
def queueWord (s : State) (p q n : Nat) (now : Bool := false) : State × List Byte × Bool :=
  match queuePlace s p n with
  | none => (s, List.replicate 8 0, false)
  | some (sl, b) =>
    let (s, bs, corrected, bad) :=
      nearSeeWord (if now then nearEnter s (nearNow s) else otherBegin s (nearWordKey sl b) 1 false) 8 sl b
    let s := pairMod s p q (fun x =>
      if bad then { x with uncorr := sat16 x.uncorr } else if corrected then { x with corr := sat16 x.corr } else x)
    (s, bs, bad)

/-- Words from a near offset on: their bytes, and the near offset of the first uncorrectable one. -/
def queueWords (s : State) (p q n count : Nat) : State × List Byte × Option Nat :=
  (List.range count).foldl (fun (acc : State × List Byte × Option Nat) i =>
    let (s, bs, bad) := queueWord acc.1 p q (n + 8 * i)
    (s, acc.2.1 ++ bs, if acc.2.2.isNone ∧ bad then some (n + 8 * i) else acc.2.2)) (s, [], none)

/-- The device writes one 8-byte word of a pair, through the other port (R255). -/
def queueStore (s : State) (p n v : Nat) : State :=
  match queuePlace s p n with
  | none => s
  | some (sl, b) =>
    let s := otherBegin s (nearWordKey sl b) 1 true
    if collides s {} n sl b then countCollision s p sl else (nearWriteWord s 8 sl b (leBytes 8 v)).1

/-- Near-window pool address. -/
def nearAddr (p n : Nat) : Nat := poolAddr p (nearBase + n)

/-! ### Enabling (R281) -/

/-- The conditions of R281. -/
def mayEnable (s : State) (p q : Nat) (x : Pair) : Bool :=
  let window := (partSlices s.img.layout p).length * 2 ^ 20
  decide (4 ≤ x.size) && decide (x.size ≤ 12) &&
    (areasOf x).all (fun a => a.1 % 64 = 0 && decide (a.1 + a.2 ≤ window)) &&
    apart (x.ctl, 64) (x.cmd, 64 * 2 ^ x.size) && apart (x.ctl, 64) (x.cpl, 16 * 2 ^ x.size) &&
    apart (x.cmd, 64 * 2 ^ x.size) (x.cpl, 16 * 2 ^ x.size) &&
    s.eng.pairs.all (fun e => decide (e.1 / 64 ≠ p) || decide (e.1 % 64 = q) || (e.2.state = 0 && !e.2.enabling) ||
      (areasOf x).all (fun a => (areasOf e.2).all (apart a))) &&
    decide ((partGet s p).st = .active)

/-- A pair stops taking commands: DRAINING until its command in service ends (R281). -/
def disablePair (s : State) (p q : Nat) : State :=
  pairMod s p q (fun x =>
    if x.state = 0 then { x with enable := false, enabling := false }
    else { x with enable := false, restarting := false, state := if x.service.isNone then 0 else 3 })

/-- A write of SQ_CFG (R279, R281). -/
def writeSqCfg (s : State) (p q : Nat) (w : Word) : State :=
  let kind := bitsOf w.toNat 29 2
  let x := pairGet s p q
  if kind = 3 then s
  else if !w.getLsbD 31 then
    let s := disablePair s p q
    if x.state = 0 ∧ ¬ x.enabling then
      pairMod s p q (fun x => { x with kind := kind, size := bitsOf w.toNat 24 4, req := bitsOf w.toNat 0 12 })
    else s
  else if x.state ≠ 0 ∨ x.enabling then s
  else
    let y := { x with enable := true, kind := kind, size := bitsOf w.toNat 24 4, req := bitsOf w.toNat 0 12 }
    if mayEnable s p q y then pairSet s p q { y with enabling := true, cause := 0 } else pairSet s p q { y with cause := 1 }

/-- At the tick an accepted enable zeroes the control block and starts the pair with its pointers at 0 (R281). -/
def startPair (s : State) (p q : Nat) : State :=
  let x := pairGet s p q
  if !x.enabling then s
  else
    let s := (List.range 8).foldl (fun s i => queueStore s p (x.ctl + 8 * i) 0) s
    pairSet s p q { x with enabling := false, state := 1, cmdCi := 0, cmdPi := 0, cplPi := 0, cplCi := 0, eligible := 0 }

def startPairs (s : State) : State :=
  (s.eng.pairs.map (·.1)).foldl (fun s k => startPair s (k / 64) (k % 64)) s

/-- An image or a reset of the partition ends every pair of it (R281). -/
def endPairs (s : State) (p : Nat) : State :=
  (List.range 64).foldl (fun s q => pairMod s p q (fun x =>
    { x with state := 0, cause := 4, enable := false, enabling := false, restarting := false, ctl := 0, cmd := 0, cpl := 0,
             cmdCi := 0, cmdPi := 0, cplPi := 0, cplCi := 0, eligible := 0, service := none, waiting := none })) s

/-! ### Completions (R284, R361 to R363) -/

/-- Halt an ACTIVE pair with a cause. -/
def haltPair (s : State) (p q cause : Nat) : State :=
  pairMod s p q (fun x => if x.state = 1 then { x with state := 2, cause := cause } else x)

/-- Words of a completion entry. -/
def completionEntry (tag : Word) (st : Status) (index addr : Nat) : List Word :=
  [tag, packFields [(24, statusCode st), (0, index % 2 ^ 13)], BitVec.ofNat 32 addr, BitVec.ofNat 32 (addr / 2 ^ 32 % 2 ^ 20)]

def entryDword (ws : List Word) (i : Nat) : Nat := (ws.getD i 0).toNat + 2 ^ 32 * (ws.getD (i + 1) 0).toNat

/-- Write a completion entry and advance CPL_PI; the command leaves service, and a DRAINING pair is DISABLED. -/
def writeCompletion (s : State) (p q : Nat) (st : Status) (addr : Nat) : State :=
  let x := pairGet s p q
  match x.service with
  | none => s
  | some c =>
    let e := completionEntry (c.desc.getD 15 0) st c.index addr
    let at_ := x.cpl + 16 * (x.cplPi % 2 ^ x.size)
    let pi := (x.cplPi + 1) % pointerRange x
    let s := queueStore (queueStore s p at_ (entryDword e 0)) p (at_ + 8) (entryDword e 2)
    let s := queueStore s p (x.ctl + 16) pi
    let s := dropSvc (dropPieces s c.ticket) c.ticket
    pairMod s p q (fun x =>
      { x with cplPi := pi, service := none, waiting := none, state := if x.state = 3 then 0 else x.state })

/-- Whether the partition digests its commands' output (R362). -/
def outDigest (s : State) (p : Nat) : Bool := match partRecOf s.img.layout p with
  | none => false
  | some r => r.outdig

/-- Bytes of the descriptor words. -/
def descBytes (ws : List Word) : List Byte := (List.range 16).flatMap (fun i => leBytes 4 (ws.getD i 0).toNat)

/-- A command ends: its COMMAND entry is appended, and its completion is posted, or waits with a held entry. -/
def postCompletion (s : State) (p q : Nat) (st : Status) (addr : Nat) : State :=
  let x := pairGet s p q
  match x.service with
  | none => s
  | some c =>
    let extra := if outDigest s p ∧ st = .ok then digestBytes (sha256 c.output) else []
    match lgAppend s p .command (statusCode st) x.kind q (if x.kind = 2 then 0 else x.req) (descBytes c.desc) extra 1 with
    | (s, true) => writeCompletion s p q st addr
    | (s, false) => pairMod s p q (fun x => { x with waiting := some (st, addr) })

/-- An engine whose work a reset or a drain has ended: a pruning asked for meanwhile takes effect (R276). -/
def freeEngine (e : Engine) : Engine :=
  { e with busy := false, lead := false, pruned := e.pruned || e.pruneDue, pruneDue := false }

/-- The program that another pair of a partition has in progress: the lead leads it too. -/
def otherProgram (s : State) (p q : Nat) : Option Program :=
  s.eng.pairs.findSome? (fun e => if e.1 / 64 = p ∧ e.1 % 64 ≠ q then e.2.service.bind (·.prog) else none)

/-- An engine has a part of some command to end. -/
def partRunning (s : State) (engine : Nat) : Bool :=
  s.eng.pairs.any (fun e => match e.2.service with
    | none => false
    | some c => c.phase ≠ .ready && c.parts.any (fun x => x.engine = engine && !x.ended))

/-- The engine of a physical number runs a part. -/
def runsPart (s : State) (phys : Nat) : Bool := (engGet s phys).logical.any (partRunning s)

/-- An engine whose part has ended: a pruning asked for meanwhile takes effect (R276). -/
def applyPrune (s : State) (phys : Nat) : State :=
  if runsPart s phys then s
  else engMod s phys (fun e => if e.pruneDue then { e with pruneDue := false, pruned := true } else e)

/-- A program ends: the lead leads another of the partition's, or none any more (R276, R278). -/
def endLead (s : State) (p q : Nat) : State :=
  match ((pairGet s p q).service).bind (·.prog) with
  | none => s
  | some _ =>
    let e := leadEngine s p
    match otherProgram s p q with
    | some g => logMod s e (fun x => { x with slot := g.slot })
    | none =>
      applyPrune (logMod s e (fun x => { x with lead := false, busy := partRunning s e })) (physOf s e)

/-- A command ends with a status and the address it reports; 0 for OK and EMPTY (R284). -/
def endCommand (s : State) (p q : Nat) (st : Status) (addr : Nat) : State :=
  let s := if st = .empty then countEng s p (leadEngine s p) (fun e => { e with cntEmpty := sat16 e.cntEmpty }) else s
  postCompletion (endLead s p q) p q st (if st = .ok ∨ st = .empty then 0 else addr)

/-- The address of a failure that names none: the spec states no value for it (log entry 2). -/
def noAddress (s : State) : State × Nat :=
  let (n, s) := drawFree s
  (s, n % 2 ^ 52)

/-! ### Commands -/

/-- SQ_ENABLE (R281): a write of SQ_CFG with ENABLE = 1. -/
def execSqEnable (part : Fin 32) (queue : Fin 64) (cfg : Word) (s : State) : Host.Outcome State Fault Refusal :=
  .next (writeSqCfg s part.val queue.val (cfg ||| 0x80000000))

/-- SQ_DISABLE (R281). -/
def execSqDisable (part : Fin 32) (queue : Fin 64) (s : State) : Host.Outcome State Fault Refusal :=
  .next (disablePair s part.val queue.val)

/-- SQ_CTRL.RESTART (R286): a HALTED pair returns to ACTIVE from the next pass. -/
def restartPair (s : State) (p q : Nat) : State :=
  pairMod s p q (fun x => if x.state = 2 then { x with restarting := true } else x)
def execSqRestart (part : Fin 32) (queue : Fin 64) (s : State) : Host.Outcome State Fault Refusal :=
  .next (restartPair s part.val queue.val)

/-- SQ_CTRL.CLR (R296). -/
def clearPair (s : State) (p q : Nat) : State :=
  pairMod s p q (fun x => { x with corr := 0, uncorr := 0, taken := 0 })
def execSqClear (part : Fin 32) (queue : Fin 64) (s : State) : Host.Outcome State Fault Refusal :=
  .next (clearPair s part.val queue.val)

/-- The pass reads CMD_PI of an ACTIVE pair, as the word stood before the clk's writes (R282, R286). -/
def samplePair (s : State) (p q : Nat) : State :=
  let x := pairGet s p q
  let (s, bs, bad) := queueWord s p q x.ctl true
  if bad then haltPair s p q 3
  else
    let pi := leNat bs % pointerRange x
    let d := (pi + pointerRange x - x.cmdCi) % pointerRange x
    let s := pairMod s p q (fun x => { x with cmdPi := pi })
    if 2 ^ x.size < d then haltPair (pairMod s p q (fun x => { x with eligible := x.cmdCi })) p q 2
    else pairMod s p q (fun x => { x with eligible := pi })

/-- The clk of the frame in which the pass reads CMD_PI of a pair (R282). -/
def passClk (s : State) (p q : Nat) : Nat := s.td.tickClk + 16 + (64 * p + q) / 16

/-- The pass reads a pair now: its clk has not gone by, and no pass of this frame has read it (R282). -/
def passDue (s : State) (p q : Nat) : Bool :=
  decide (s.td.now ≤ passClk s p q) && (pairGet s p q).passed ≠ some s.td.tickClk

/-- CMD_PI_SAMPLE (R282), in the clk of the pass: a RESTARTed pair is ACTIVE from this pass on. -/
def execCmdPiSample (part : Fin 32) (queue : Fin 64) (s : State) : Host.Outcome State Fault Refusal :=
  if passDue s part.val queue.val then
    let s := seenClk s (passClk s part.val queue.val)
    let s := pairMod s part.val queue.val (fun x =>
      if x.state = 2 ∧ x.restarting then { x with state := 1, restarting := false, passed := some s.td.tickClk }
      else { x with passed := some s.td.tickClk })
    if (partGet s part.val).st = .active ∧ (pairGet s part.val queue.val).state = 1 then
      .next (samplePair s part.val queue.val)
    else .next s
  else .next s

/-- The 16 bytes a pop of an empty queue returns. -/
def emptyPop : List Byte := leBytes 4 0 ++ leBytes 4 0x80000000 ++ leBytes 8 0

/-- Pop a completion of pair q for a read in service (R285, R286). -/
def popCompletion (s : State) (v : Service) (p q : Nat) : State :=
  let x := pairGet s p q
  if x.state = 0 ∨ x.cplCi = x.cplPi then finish s v { status := .ok, data := some emptyPop }
  else
    let (s, bs, bad) := queueWords s p q (x.cpl + 16 * (x.cplCi % 2 ^ x.size)) 2
    let ci := (x.cplCi + 1) % pointerRange x
    let s := queueStore (pairMod s p q (fun x => { x with cplCi := ci })) p (x.ctl + 24) ci
    if bad.isSome then finish (countPoison s p) v { status := .poison, data := some bs }
    else finish s v { status := .ok, data := some bs }

/-- COMPLETION_POP (R285): a 16 B read of a pop address. -/
def execCompletionPop (ticket : Nat) (s : State) : Host.Outcome State Fault Refusal :=
  match svcFind s ticket with
  | none => .next s
  | some v =>
    if stopped s v ∨ begun s v ∨ earlierSame s v ∨ earlierHome s v then .next s
    else match popOf s v.req.pkt with
      | none => .next s
      | some q => .next (popCompletion s v v.req.pkt.part.toNat q)

end Sys2Proof.Machine
end

