-- ==== Sys2Proof/Machine/EngineCmds.lean ====
section
/-! DEFINITION. Engine commands: the descriptor (R249, R250), the checks of R251 to R253, R259 and R287, parts and
tiles (R248, R288, R289), the results of each operation (R266 to R272), and taking a command (R283). -/

namespace Sys2Proof.Machine

/-! ### The descriptor (R249) -/

structure Desc where
  opc : Nat
  sub : Nat
  fa : Nat
  fb : Nat
  fd : Nat
  sat : Bool
  rdst : Bool
  tree : Nat
  comb : Nat
  slot : Nat
  count : Nat
  kq : Nat
  dim : Nat
  stride : Nat
  srca : Nat
  srcb : Nat
  dst : Nat
  imm : Nat
  shift : Int
  rows : Nat
deriving DecidableEq, Repr, Inhabited

/-- The fields of sixteen descriptor words (R249). -/
def descOf (ws : List Word) : Desc :=
  let w := fun i => (ws.getD i 0).toNat
  let pair := fun i => w i + 2 ^ 32 * w (i + 1)
  { opc := bitsOf (w 0) 28 4, sub := bitsOf (w 0) 24 4, fa := bitsOf (w 0) 20 4, fb := bitsOf (w 0) 16 4,
    fd := bitsOf (w 0) 12 4, sat := (w 0).testBit 11, rdst := (w 0).testBit 10, tree := bitsOf (w 0) 7 3,
    comb := bitsOf (w 0) 4 3, slot := bitsOf (w 0) 0 4, count := w 1, kq := bitsOf (w 2) 16 16, dim := bitsOf (w 2) 0 16,
    stride := w 3, srca := pair 4, srcb := pair 6, dst := pair 8, imm := pair 10,
    shift := (BitVec.ofNat 8 (w 12)).toInt, rows := w 13 }

/-! ### Operands -/

/-- Bytes of one row of source A of RED, SCORE and GATHER. -/
def rowLenA (d : Desc) : Nat := if d.opc = 7 then d.dim else rowBytes d.fa d.dim

/-- Source A is laid out in rows at STRIDE: how many rows. -/
def rowCountA (d : Desc) : Nat := if d.opc = 7 then d.rows else d.count

def isStrided (d : Desc) : Bool := d.opc = 4 || d.opc = 5 || d.opc = 7

/-- Bytes of source A when it is not strided. -/
def plainLenA (d : Desc) : Nat :=
  match d.opc with
  | 2 => d.count
  | 3 => if d.sub = 0 then d.count else d.count * fmtSize d.fa
  | 6 => d.count * fmtSize d.fa
  | 8 => rowBytes d.fa d.count
  | _ => 0

/-- Bytes of source B. -/
def lenB (d : Desc) : Nat :=
  match d.opc with
  | 3 => if d.sub = 0 then d.count else d.count * fmtSize d.fa
  | 5 => d.kq * rowBytes d.fb d.dim
  | 7 => 8 * d.count
  | _ => 0

/-- Bytes of the destination. -/
def lenDst (d : Desc) : Nat :=
  match d.opc with
  | 1 | 2 => d.count
  | 3 => 16
  | 4 => d.count * fmtSize d.fd
  | 5 => (if d.comb = 0 then d.count * d.kq else d.count) * fmtSize d.fd
  | 6 => 8 * d.kq
  | 7 => d.count * d.dim
  | 8 => rowBytes d.fd d.count
  | _ => 0

/-- A run of bytes of an operand: its stream (0 SRCA, 1 SRCB, 2 DST), first offset, length. -/
structure Run where
  stream : Nat
  off : Nat
  len : Nat
deriving DecidableEq, Repr, Inhabited

/-- Runs of source A: its rows, or one run (R252). -/
def runsA (d : Desc) : List Run :=
  if isStrided d then (List.range (rowCountA d)).map (fun i => ⟨0, d.srca + i * d.stride, rowLenA d⟩)
  else if plainLenA d = 0 then [] else [⟨0, d.srca, plainLenA d⟩]
def runsB (d : Desc) : List Run := if lenB d = 0 then [] else [⟨1, d.srcb, lenB d⟩]
def runsDst (d : Desc) : List Run := if d.rdst then [] else [⟨2, d.dst, lenDst d⟩]
def runsOf (d : Desc) : List Run := runsA d ++ runsB d ++ runsDst d

/-! ### The checks of R250 to R253 and R259 -/

def reservedOpc (opc : Nat) : Bool := opc = 0 || decide (10 ≤ opc)

/-- A zero field of R250 ends the command EMPTY. -/
def zeroField (d : Desc) : Bool :=
  match d.opc with
  | 4 | 7 => d.count = 0 || d.dim = 0
  | 5 => d.count = 0 || d.kq = 0 || d.dim = 0
  | 6 => d.count = 0 || d.kq = 0
  | 9 => false
  | _ => d.count = 0

/-- Formats of a sum's destination (R259). -/
def sumFormat (fa fd : Nat) : Bool := if fmtPath fa = 1 then fd = 10 || fd = 1 else fd = 1

/-- SUB, COMB, TREE and the formats are no reserved ones, and the formats keep R259. -/
def fieldsAllowed (d : Desc) : Bool :=
  match d.opc with
  | 3 => d.sub = 0 || (d.sub = 1 && fmtOk d.fa && !fmtMx d.fa)
  | 4 => decide (d.sub ≤ 2) && decide (d.tree ≤ 6) && fmtOk d.fa &&
      (if d.sub = 0 then sumFormat d.fa d.fd else !fmtMx d.fa && (d.fd = 1 || d.fd = d.fa))
  | 5 => d.sub = 0 && decide (d.tree ≤ 6) && decide (d.comb ≤ 2) && fmtOk d.fa && fmtOk d.fb &&
      fmtPath d.fa = fmtPath d.fb && sumFormat d.fa d.fd
  | 6 => decide (d.sub ≤ 1) && fmtOk d.fa && !fmtMx d.fa
  | 8 => fmtOk d.fa && fmtOk d.fd
  | _ => true

/-- Alignment of SRCA, SRCB and DST in bytes (R252). -/
def alignments (d : Desc) : Nat × Nat × Nat :=
  match d.opc with
  | 3 => if d.sub = 0 then (1, 1, 16) else (fmtSize d.fa, fmtSize d.fa, 16)
  | 4 => (fmtSize d.fa, 1, fmtSize d.fd)
  | 5 => (fmtSize d.fa, fmtSize d.fb, fmtSize d.fd)
  | 6 => (fmtSize d.fa, 1, 8)
  | 7 => (1, 8, 1)
  | 8 => (fmtSize d.fa, 1, fmtSize d.fd)
  | _ => (1, 1, 1)

/-- Length from the first byte of source A to its last (R252). -/
def spanA (d : Desc) : Nat :=
  if isStrided d then (if rowCountA d = 0 then 0 else (rowCountA d - 1) * d.stride + rowLenA d) else plainLenA d

/-- The destination range meets a row of source A (R252). -/
def meetsRows (d : Desc) : Bool :=
  if isStrided d then
    let i := if d.dst < d.srca + rowLenA d then 0 else (d.dst - d.srca - rowLenA d) / d.stride + 1
    decide (0 < lenDst d) && decide (i < rowCountA d) && decide (d.srca + i * d.stride < d.dst + lenDst d)
  else decide (d.srca < d.dst + lenDst d) && decide (d.dst < d.srca + plainLenA d)

/-- A range of an offset operand lies in the partition's offsets and keeps the data limit. -/
def rangeOk (off n : Nat) : Bool := decide (off < 2 ^ 47) && decide (n ≤ 2 ^ 40) && decide (off + n ≤ 2 ^ 47)

/-- Rows of MX formats hold a multiple of 32 elements (R258). -/
def mxRowsOk (d : Desc) : Bool :=
  match d.opc with
  | 4 => !fmtMx d.fa || d.dim % 32 = 0
  | 5 => (!fmtMx d.fa && !fmtMx d.fb) || d.dim % 32 = 0
  | 8 => (!fmtMx d.fa && !fmtMx d.fd) || d.count % 32 = 0
  | _ => true

/-- The rules of R252 and the length rules beside it (R258, R270). -/
def layoutOk (d : Desc) : Bool :=
  let (aa, ab, ad) := alignments d
  (d.opc = 1 || (rangeOk d.srca (spanA d) && d.srca % aa = 0)) &&
    (lenB d = 0 || (rangeOk d.srcb (lenB d) && d.srcb % ab = 0)) &&
    (if d.rdst then decide (lenDst d ≤ 2 ^ 40) else rangeOk d.dst (lenDst d) && d.dst % ad = 0) &&
    (!isStrided d || (decide (rowLenA d ≤ d.stride) && (d.opc = 7 || d.stride % fmtSize d.fa = 0))) &&
    (d.rdst || d.opc = 1 || d.opc = 2 ||
      (!meetsRows d && (lenB d = 0 || apart (d.srcb, lenB d) (d.dst, lenDst d)))) &&
    mxRowsOk d && (d.opc ≠ 6 || decide (d.imm % 2 ^ 32 + d.count ≤ 2 ^ 32 - 1))

/-- The requester's flow for RDST, judged before translation: `none` passes (R253). -/
def rdstBar (s : State) (p q : Nat) : Option Status :=
  let x := pairGet s p q
  if x.kind ≠ 0 then some .fault
  else if ((allotOf s.img.layout (flowNat p false x.req)).map (·.allot)).getD 0 = 0 then some .fault
  else if (flowGet s (flowNat p false x.req)).limitNow = 0 then some .retry
  else none

/-- First offset of a run in no region, in an unmapped page, or past the near window's end (R254, R287). -/
def badByte (s : State) (p : Nat) (r : Run) : Option Nat :=
  let window := nearBase + (partSlices s.img.layout p).length * 2 ^ 20
  (cutAt 2097152 r.off r.len).findSome? (fun c =>
    if nearBase ≤ c.1 then (if c.1 + c.2.2 ≤ window then none else some (max c.1 window))
    else match regionAt s.img.layout p (c.1 / 2097152) with
      | none => some c.1
      | some g => if g.flash || (mappedTo s p (c.1 / 2097152)).isSome then none else some c.1)

/-- The page check over all operands: the lowest failing pool address (R287). -/
def pageCheck (s : State) (p : Nat) (d : Desc) : Option Nat :=
  (minBy id ((runsOf d).filterMap (badByte s p))).map (poolAddr p)

/-- A destination in a twinned region of a pair in PAIRED (R371). -/
def dstTwinned (s : State) (p : Nat) (d : Desc) : Bool :=
  decide (s.twn.state = 3) && (runsDst d).any (fun r => (cutAt 2097152 r.off r.len).any (fun c => (twinnedAt s p c.1).isSome))

/-- R251 for a descriptor that is to execute: what ends it first, with the address it reports where one is named.
`none` lets it execute. -/
def checkDesc (s : State) (p q : Nat) (d : Desc) : Option (Status × Option Nat) :=
  if isConf s p ∧ ¬ (partGet s p).keys.keyed then some (.fault, none)
  else if reservedOpc d.opc then some (.fault, none)
  else if zeroField d then some (.empty, none)
  else if d.opc = 9 then none
  else if !fieldsAllowed d then some (.fault, none)
  else if !layoutOk d ∨ dstTwinned s p d then some (.fault, none)
  else match (if d.rdst then rdstBar s p q else none) with
    | some st => some (st, none)
    | none => (pageCheck s p d).map (fun a => (.fault, some a))

/-- Count a command ended FAULT by the page check (R297). -/
def countCheck (s : State) (p : Nat) (d : Desc) (r : Status × Option Nat) : State :=
  if r.2.isSome ∧ ¬ reservedOpc d.opc then partCnt s p (fun c => { c with xlCheck := sat16 c.xlCheck }) else s

/-! ### Parts and tiles (R248, R288) -/

/-- The engine beside a byte of a partition: of the two of its slice, by the parity of the 256 B block; the lead for
bytes of a FLASH granule that rests in no frame (R248). -/
def engineAt (s : State) (p off : Nat) : Nat :=
  let at_ := fun (sl a : Nat) => 2 * sl + a / 256 % 2
  match placeOf s p off with
  | .pinned _ sl a | .near sl a => at_ sl a
  | .flash _ g =>
    if holdsFrame (granGet s p g) then match framePlace s p (granGet s p g).frame (off % 65536) with
      | some (sl, a) => at_ sl a
      | none => leadEngine s p
    else leadEngine s p
  | .none => leadEngine s p

/-- The blocks of runs, each with its engine and its tile: tiles are 64 KiB of the engine's bytes of the stream, and a
block that lies in two of them is cut (R288). -/
def blocksOf (s : State) (p : Nat) (rs : List Run) : List Blk :=
  ((rs.flatMap (fun r => (cutAt 256 r.off r.len).map (fun c => (r.stream, c.1, c.2.2)))).foldl
    (fun (acc : List Blk × Tbl Nat) b =>
      let e := engineAt s p b.2.1
      let k := b.1 * 1024 + e
      let n := tblGet (fun _ => 0) acc.2 k
      (acc.1 ++ (cutAt 65536 n b.2.2).map (fun c =>
          { stream := b.1, off := b.2.1 + c.2.1, len := c.2.2, eng := e, tile := c.1 / 65536 }),
        tblSet (fun _ => 0) acc.2 k (n + b.2.2))) ([], [])).1

def dedup (l : List Nat) : List Nat := l.foldl (fun acc x => if acc.contains x then acc else acc ++ [x]) []

/-- Elements of source A whose bytes lie in a block: the multiply-accumulates of its engine, times the queries of a
SCORE (R278). -/
def blockMacs (d : Desc) (b : Blk) : Nat :=
  if b.stream ≠ 0 ∨ (d.opc ≠ 4 ∧ d.opc ≠ 5) then 0
  else
    let i := if d.stride = 0 then 0 else (b.off - d.srca) / d.stride
    let at_ := b.off - d.srca - i * d.stride
    let n := min (at_ + b.len) (elemBytes d.fa d.dim) - min at_ (elemBytes d.fa d.dim)
    let elems := if d.fa = 8 then 2 * n else n / fmtSize d.fa
    elems * (if d.opc = 5 then d.kq else 1)

/-- The parts of a descriptor: the engines that hold a byte of an operand, in local engine order. -/
def partsOf (s : State) (p : Nat) (d : Desc) (bs : List Blk) : List PartRun :=
  let es := dedup (bs.map (·.eng))
  ((partEngines s p).filter es.contains).map (fun e =>
    { engine := e, mac := sumNat ((bs.filter (fun b => b.eng = e)).map (blockMacs d)) })

/-- The command in service of a pair. -/
def serviceOf (s : State) (p q : Nat) : Option Command := (pairGet s p q).service

def cmdMod (s : State) (p q : Nat) (f : Command → Command) : State :=
  pairMod s p q (fun x => { x with service := x.service.map f })

/-- The tile of a block, if it has been translated. -/
def tileOf (c : Command) (b : Blk) : Option TileRec :=
  c.tiles.find? (fun t => t.engine = b.eng && t.stream = b.stream && t.tile = b.tile)

/-- An access made under the pages a tile was issued with: an issued tile moves wholly under them (R288, R294). -/
def underPages (s : State) (p : Nat) (pages : List (Nat × Nat)) (f : State → State) : State :=
  let t := f (pages.foldl (fun s x => pteSet s p x.1 (.mapped x.2)) s)
  { t with eng := { t.eng with pte := s.eng.pte } }

/-- The units that hold bytes of a tile. -/
def tileUnits (bs : List Blk) (b : Blk) : List Nat :=
  dedup ((bs.filter (fun x => x.eng = b.eng && x.stream = b.stream && x.tile = b.tile && decide (x.off < nearBase))).map
    (fun x => x.off / 2097152))

/-- A tile of a part's stream, as its first block. -/
def tileBlock (c : Command) (engine stream tile : Nat) : Option Blk :=
  c.blocks.find? (fun b => b.eng = engine && b.stream = stream && b.tile = tile)

/-- Issue a tile: its translations as they stand, or the fault of R289, counted in XL_FAULT.TILE. Its prefetch slot is
free again. -/
def issueTile (s : State) (p q : Nat) (bs : List Blk) (b : Blk) : State :=
  let us := tileUnits bs b
  let first := ((bs.find? (fun x => x.eng = b.eng && x.stream = b.stream && x.tile = b.tile)).map (·.off)).getD b.off
  let bad := (bs.find? (fun x => x.eng = b.eng && x.stream = b.stream && x.tile = b.tile && decide (x.off < nearBase) &&
    (badByte s p ⟨x.stream, x.off, x.len⟩).isSome)).map (fun x => poolAddr p x.off)
  let slot := slotHolder b.eng b.stream b.tile
  let s := us.foldl (fun s u => translateNow s p b.eng slot u) s
  let s := { s with eng := { s.eng with buffers := s.eng.buffers.filter (fun x => !(x.level = 3 && x.holder = slot)) } }
  let s := if bad.isSome then partCnt s p (fun c => { c with xlTile := sat16 c.xlTile }) else s
  let t : TileRec :=
    { engine := b.eng, stream := b.stream, tile := b.tile, epoch := (partGet s p).mapEpoch, first := poolAddr p first,
      pages := us.filterMap (fun u => (mappedTo s p u).map (fun h => (u, h))), faulted := bad }
  cmdMod s p q (fun c => { c with tiles := c.tiles ++ [t] })

/-- Whenever a tile issues, the stream's prefetch slots take the translations of its next four tiles (R292). -/
def prefetchNow (s : State) (p : Nat) (c : Command) (b : Blk) : State :=
  [1, 2, 3, 4].foldl (fun s i => match tileBlock c b.eng b.stream (b.tile + i) with
    | none => s
    | some n =>
      let slot := slotHolder b.eng b.stream n.tile
      (tileUnits c.blocks n).foldl (fun s u =>
        if bufHas s 3 slot p u then s
        else if bufHas s 0 b.eng p u || bufHas s 1 (clusterOf b.eng) p u then bufPut s 3 slot p u
        else bufPut (countWalk s p u) 3 slot p u) s) s

/-- Issue a tile that no byte has moved of; a stream stops at a tile that faults, and its part's other streams at their
next tile (R288, R289). -/
def issueNext (s : State) (p q : Nat) (c : Command) (b : Blk) : State :=
  if c.tiles.any (fun t => t.engine = b.eng && t.faulted.isSome) then s
  else
    let s := issueTile s p q c.blocks b
    match (serviceOf s p q).bind (fun c => tileOf c b) with
    | some t => if t.faulted.isSome then s else prefetchNow s p c b
    | none => s

/-! ### Reading and writing operands -/

/-- The service that an engine's accesses carry. -/
def engineService (p q ticket : Nat) (s : State) : Service :=
  { ticket := ticket, key := 2 ^ 18, headroom := none,
    req := { pkt := newPacket s .rd 0 p 0 (poolAddr p 0) [], origin := .engine p q } }

/-- Place of a write in the pieces of a command, beside those of its reads. -/
def writeBase : Nat := 2 ^ 48

/-- The name of the line that an offset lies in under a tile's pages: where the unit has lost that page, the line goes
by the unit that has it now, or by its place in the hedge (R169, R294). -/
def nameUnder (s : State) (p : Nat) (pages : List (Nat × Nat)) (off : Nat) : Nat :=
  let u := off / 2097152
  let rest := off % 2097152
  match pages.find? (fun x => x.1 = u) with
  | none => poolAddr p off
  | some (_, h) =>
    if mappedTo s p u = some h then poolAddr p off
    else match s.eng.pte.find? (fun e => e.1 / 2 ^ 26 = p && e.2 = .mapped h) with
      | some e => poolAddr p (e.1 % 2 ^ 26 * 2097152 + rest)
      | none => unmappedLine p (h * 2097152 + rest)

/-- Read or write one block under a tile's page, for an operand that covers `span.2` bytes from offset `span.1` on. Only the
block's own unit is seen as the tile found it: a line goes by the name it has now. What the twin does not serve ends
RESETTING, a region under a SEAL RETRY (R356, R369). -/
def moveBlock (s : State) (v : Service) (p : Nat) (t : TileRec) (write : Bool) (span : Nat × Nat) (b : Blk)
    (bs : List Byte) : State :=
  let m : Mover :=
    { eng := some b.eng, first := span.1, len := span.2, name := some (nameUnder s p t.pages b.off), epoch := some t.epoch }
  let idx := if write then writeBase + b.off else b.off
  if twinGate s p b.off = .resetting then
    gather s v.ticket [{ idx := idx, addr := poolAddr p b.off, status := .resetting, bytes := [] }]
  else if sealedAt s p b.off then
    gather s v.ticket [{ idx := idx, addr := poolAddr p b.off, status := .retry, bytes := [] }]
  else underPages s p (t.pages.filter (fun x => x.1 = b.off / 2097152)) (fun s =>
    startRangeAt s v m write idx (poolAddr p b.off) b.len bs)

/-- Move the bytes of a block under its tile's pages; a faulted tile moves no byte (R289). -/
def moveTile (s : State) (v : Service) (p q : Nat) (write : Bool) (span : Nat × Nat) (b : Blk) (out : List Byte) : State :=
  match (serviceOf s p q).bind (fun c => tileOf c b) with
  | none => s
  | some t =>
    if t.faulted.isSome then s
    else
      let mark := fun (x : TileRec) =>
        if x.engine = b.eng ∧ x.stream = b.stream ∧ x.tile = b.tile then { x with moved := true } else x
      moveBlock (cmdMod s p q (fun c => { c with tiles := c.tiles.map mark })) v p t write span b out

/-- Move blocks in order; each tile issues as its first byte moves (R288). `out` gives a write's bytes. -/
def moveBlocks (s : State) (v : Service) (p q : Nat) (write : Bool) (span : Nat × Nat) (bs : List Blk)
    (out : Blk → List Byte) : State :=
  bs.foldl (fun s b => match serviceOf s p q with
    | none => s
    | some c =>
      moveTile (if (tileOf c b).isSome then s else issueNext s p q c b) v p q write span b (out b)) s

/-- A piece that waits for a granule: the access is made again (R234). -/
def waitsFlash (s : State) (p : Nat) (g : Gathered) : Bool :=
  g.status = .retry && (match placeOf s p (g.idx % writeBase) with
    | .flash _ _ => true
    | _ => false)

/-- The bytes read from an offset on; bytes no piece brought read zero. -/
def bytesRead (ps : List Gathered) (off n : Nat) : List Byte :=
  (List.range n).map (fun i =>
    match ps.find? (fun g => decide (g.idx ≤ off + i) && decide (off + i < g.idx + g.bytes.length)) with
    | none => 0
    | some g => g.bytes.getD (off + i - g.idx) 0)

/-- The lowest failure among pieces and faulted tiles (R23). -/
def lowestFailure (ps : List Gathered) (ts : List TileRec) : Option (Status × Nat) :=
  let fs := (ps.filter (fun g => g.status != .ok)).map (fun g => (g.status, g.addr)) ++
    ts.filterMap (fun t => t.faulted.map (fun a => (Status.fault, a)))
  minBy (fun f => f.2) fs

/-! ### Results (R266 to R272) -/

/-- Elements of a row at an offset. -/
def rowAt (ps : List Gathered) (f n off : Nat) : List Num := decodeRow f n (bytesRead ps off (rowBytes f n))

def resultFill (d : Desc) : List Byte :=
  (List.range d.count).map (fun j => BitVec.ofNat 8 (d.imm / 256 ^ ((d.dst + j) % 8)))

/-- A CMP record (R267). -/
def cmpRecord (result : Nat) (index : Option Nat) : List Byte :=
  leBytes 4 result ++ leBytes 4 0 ++ leBytes 8 (index.getD (2 ^ 64 - 1))

def resultCmp (ps : List Gathered) (d : Desc) : List Byte :=
  if d.sub = 0 then
    let a := bytesRead ps d.srca d.count
    let b := bytesRead ps d.srcb d.count
    match (List.range d.count).find? (fun i => a.getD i 0 != b.getD i 0) with
    | none => cmpRecord 0 none
    | some i => cmpRecord 1 (some i)
  else
    let a := rowAt ps d.fa d.count d.srca
    let b := rowAt ps d.fa d.count d.srcb
    let code := fun i =>
      let x := a.getD i .nan
      let y := b.getD i .nan
      if isNan x || isNan y then 3 else if numLt x y then 1 else if numLt y x then 2 else 0
    match (List.range d.count).find? (fun i => code i != 0) with
    | none => cmpRecord 0 none
    | some i => cmpRecord (code i) (some i)

def resultRed (ps : List Gathered) (d : Desc) : List Byte :=
  (List.range d.count).flatMap (fun i =>
    let row := rowAt ps d.fa d.dim (d.srca + i * d.stride)
    let v := if d.sub = 0 then sumOn (fmtPath d.fa) d.tree 0 false (row.map (fun x => (x, x))) else extreme (d.sub = 1) row
    leBytes (fmtSize d.fd) (toElem d.fd false v))

/-- SCORE (R269): the sums by COMB, each rounded to FD. -/
def resultScore (ps : List Gathered) (d : Desc) : List Byte :=
  let queries := (List.range d.kq).map (fun q => rowAt ps d.fb d.dim (d.srcb + q * rowBytes d.fb d.dim))
  let sum := fun (ts : List (Num × Num)) => toElem d.fd false (sumOn (fmtPath d.fa) d.tree d.shift true ts)
  (List.range d.count).flatMap (fun i =>
    let key := rowAt ps d.fa d.dim (d.srca + i * d.stride)
    let products := queries.map (fun q => key.zip q)
    match d.comb with
    | 0 => products.flatMap (fun ts => leBytes (fmtSize d.fd) (sum ts))
    | 1 => leBytes (fmtSize d.fd) (sum products.flatten)
    | _ => leBytes (fmtSize d.fd)
        (toElem d.fd false (extreme true (products.map (fun ts => decodeElem d.fd (sum ts))))))

/-- TOPK order (R270): best value first, NaNs last, the lower index first among equals. -/
def topBefore (smallest : Bool) (a b : Num × Nat × Nat) : Bool :=
  if isNan a.1 then isNan b.1 && decide (a.2.1 ≤ b.2.1)
  else if isNan b.1 then true
  else if (if smallest then numLt a.1 b.1 else numLt b.1 a.1) then true
  else if (if smallest then numLt b.1 a.1 else numLt a.1 b.1) then false
  else decide (a.2.1 ≤ b.2.1)

def resultTopk (ps : List Gathered) (d : Desc) : List Byte :=
  let bytes := bytesRead ps d.srca (d.count * fmtSize d.fa)
  let entries := (List.range d.count).map (fun i =>
    let raw := fieldAt bytes (i * fmtSize d.fa) (fmtSize d.fa)
    (decodeElem d.fa raw, i, raw))
  let sorted := sortBy (topBefore (d.sub = 1)) entries
  (List.range d.kq).flatMap (fun k => match sorted[k]? with
    | some e => leBytes 4 e.2.2 ++ leBytes 4 (d.imm % 2 ^ 32 + e.2.1)
    | none => leBytes 4 (fmtNan d.fa) ++ leBytes 4 0xFFFFFFFF)

/-- Index of entry k of a GATHER. -/
def gatherIndex (ps : List Gathered) (d : Desc) (k : Nat) : Nat := leNat (bytesRead ps (d.srcb + 8 * k + 4) 4)

/-- The row an entry names: none for zeros; an entry out of range (R271). -/
inductive GatherRow where
  | zeros | row (r : Nat) | bad
deriving DecidableEq, Repr, Inhabited

def gatherRow (d : Desc) (x : Nat) : GatherRow :=
  if x = 0xFFFFFFFF then .zeros
  else if x < d.imm % 2 ^ 32 ∨ d.rows ≤ x - d.imm % 2 ^ 32 then .bad
  else .row (x - d.imm % 2 ^ 32)

def gatherRows (ps : List Gathered) (d : Desc) : List GatherRow :=
  (List.range d.count).map (fun k => gatherRow d (gatherIndex ps d k))

/-- Pool address of the first entry out of range. -/
def gatherBad (ps : List Gathered) (p : Nat) (d : Desc) : Option Nat :=
  ((List.range d.count).find? (fun k => gatherRow d (gatherIndex ps d k) = .bad)).map (fun k => poolAddr p (d.srcb + 8 * k))

def resultGather (ps : List Gathered) (d : Desc) : List Byte :=
  (gatherRows ps d).flatMap (fun g => match g with
    | .row r => bytesRead ps (d.srca + r * d.stride) d.dim
    | _ => List.replicate d.dim 0)

def resultCvt (ps : List Gathered) (d : Desc) : List Byte := encodeRow d.fd d.sat (rowAt ps d.fa d.count d.srca)

/-- The destination bytes of a descriptor from what it read. -/
def resultOf (ps : List Gathered) (d : Desc) : List Byte :=
  match d.opc with
  | 1 => resultFill d
  | 2 => bytesRead ps d.srca d.count
  | 3 => resultCmp ps d
  | 4 => resultRed ps d
  | 5 => resultScore ps d
  | 6 => resultTopk ps d
  | 7 => resultGather ps d
  | _ => resultCvt ps d

/-! ### Output to the requester (R253) -/

/-- DATA packets of the output, each charged as it leaves, never held; each carries the command's TAG, that of a PROG in
its steps too, as its SEQ (R253, R279). -/
def sendOutput (s : State) (p q : Nat) (tag : Word) (d : Desc) (bytes : List Byte) : State :=
  let req := (pairGet s p q).req
  let k := flowNat p false req
  let size := maxData s p
  (List.range (ceilDiv bytes.length size)).foldl (fun s i =>
    let chunk := (bytes.drop (i * size)).take size
    let s := debtNet (charge s k (packetUnits (chunk.length + if fabEnc s p then 24 else 0))) k
    let pkt := newPacket s .data req p tag (d.dst % 2 ^ 52 + i * size) chunk
    inject s { pkt with
      load := BitVec.ofNat 4 (loadOf s), headroom := BitVec.ofNat 4 (headroomNow s k),
      epoch := BitVec.ofNat 16 (partGet s p).epoch }) s

/-! ### Execution -/

/-- The failures that pieces met. -/
def failuresOf (ps : List Gathered) : List (Status × Nat) :=
  (ps.filter (fun g => g.status != .ok)).map (fun g => (g.status, g.addr))

/-- The status every part ends with: that of its lowest failure, or FAULT where a tile of it faulted (R23, R289). -/
def settleParts (c : Command) (fails : List (Status × Nat)) (bs : List Blk) (p : Nat) : List PartRun :=
  c.parts.map (fun x =>
    let mine := bs.filter (fun b => b.eng = x.engine)
    let bad := minBy (fun f => f.2) (fails.filter (fun f => mine.any (fun b =>
      decide (poolAddr p b.off / 64 * 64 ≤ f.2) && decide (f.2 < poolAddr p b.off + b.len))))
    let faulted := c.tiles.any (fun t => t.engine = x.engine && t.faulted.isSome)
    { x with status := if faulted then .fault else (bad.map (·.1)).getD .ok })

/-- A read of the descriptor in execution met a bad line (R304). -/
def readPoison (c : Command) : Bool := c.fails.any (fun f => f.1 = .poison)

/-- Every operand byte has moved: the descriptor has its outcome, and its parts may end. Where a write has failed the
destination is undefined (R23). -/
def concludeParts (s : State) (p q : Nat) (c : Command) (bs : List Blk) : State :=
  let ps := piecesOf s c.ticket
  let f := match c.failure with
    | some f => some f
    | none => lowestFailure ps c.tiles
  let s := if readPoison c then countPoison s p else s
  let s := c.parts.foldl (fun s x => dropSlots s x.engine) (dropPieces s c.ticket)
  let s := if c.failure.isNone ∧ f.isSome then
      blurParts s p (fun i => i - writeBase) (bs.foldl (fun m b => if b.stream = 2 then max m (writeBase + b.off + b.len) else m) 0)
        (ps.filter (fun g => decide (writeBase ≤ g.idx)))
    else s
  cmdMod s p q (fun c =>
    { c with outcome := some (f.getD (.ok, 0)), parts := settleParts c (c.fails ++ failuresOf ps) bs p })

/-- Compute the result and start its writes. After a failed read the destination is undefined (R23, R271), and nothing
is sent. Output to a fenced requester is discarded and the command ends FENCED (R382). -/
def startWrites (s : State) (p q : Nat) (c : Command) (d : Desc) (bs : List Blk) : State :=
  let ps := piecesOf s c.ticket
  let entry := match lowestFailure ps c.tiles, (if d.opc = 7 then gatherBad ps p d else none) with
    | none, some a => some (Status.fault, a)
    | _, _ => none
  let fails := failuresOf ps ++ entry.toList
  let f := (lowestFailure ps c.tiles).or entry
  let (out, s) := if f.isSome then drawBytes s (lenDst d) else (resultOf ps d, s)
  let s := dropPieces s c.ticket
  let (s, f) := if d.rdst ∧ f.isNone ∧ isFenced s false (pairGet s p q).req then
      (let (s, a) := noAddress s; (s, some (Status.fenced, a)))
    else (s, f)
  let s := cmdMod s p q (fun c =>
    { c with phase := .writing, failure := f, fails := fails, out := out, output := if f.isNone then c.output ++ out else c.output })
  if d.rdst then (if f.isSome then s else sendOutput s p q (c.desc.getD 15 0) d out)
  else
    moveBlocks s (engineService p q c.ticket s) p q true (d.dst, lenDst d) (bs.filter (fun b => b.stream = 2))
      (fun b => (out.drop (b.off - d.dst)).take b.len)

/-- Blocks of the rows a GATHER names. -/
def namedBlocks (ps : List Gathered) (d : Desc) (bs : List Blk) : List Blk :=
  let rs := gatherRows ps d
  bs.filter (fun b => b.stream = 0 && rs.any (fun g => match g with
    | .row r => decide (d.srca + r * d.stride ≤ b.off) && decide (b.off < d.srca + r * d.stride + d.dim)
    | _ => false))

/-- Make again the accesses that wait for a granule; the answer says that some still wait (R234). -/
def retryFlash (s : State) (p q : Nat) (c : Command) (d : Desc) (bs : List Blk) : State × Bool :=
  let waits := (piecesOf s c.ticket).filter (waitsFlash s p)
  if waits = [] then (s, false)
  else
    let keys := waits.map (·.idx)
    let s := { s with coh := { s.coh with gathered := s.coh.gathered.filter (fun g =>
      !(g.ticket == c.ticket && keys.contains g.idx)) } }
    let v := engineService p q c.ticket s
    let s := moveBlocks s v p q false (0, 0) (bs.filter (fun b => keys.contains b.off)) (fun _ => [])
    let s := moveBlocks s v p q true (d.dst, lenDst d) (bs.filter (fun b => b.stream = 2 && keys.contains (writeBase + b.off)))
      (fun b => (c.out.drop (b.off - d.dst)).take b.len)
    (s, (piecesOf s c.ticket).any (waitsFlash s p))

/-- One stage after another, as far as the operands allow. -/
def advance (p q : Nat) (d : Desc) (bs : List Blk) : Nat → State → State
  | 0, s => s
  | fuel + 1, s =>
    match serviceOf s p q with
    | none => s
    | some c =>
      if isOpen s c.ticket ∨ c.outcome.isSome then s
      else match retryFlash s p q c d bs with
      | (s, true) => s
      | (s, false) =>
        let v := engineService p q c.ticket s
        match c.phase with
        | .ready =>
          let reads := bs.filter (fun b => (b.stream = 0 && d.opc ≠ 7) || b.stream = 1)
          advance p q d bs fuel
            (moveBlocks (cmdMod s p q (fun c => { c with phase := .reading })) v p q false (0, 0) reads (fun _ => []))
        | .reading =>
          if d.opc = 7 then
            advance p q d bs fuel (moveBlocks (cmdMod s p q (fun c => { c with phase := .rows })) v p q false (0, 0)
              (namedBlocks (piecesOf s c.ticket) d bs) (fun _ => []))
          else advance p q d bs fuel (startWrites s p q c d bs)
        | .rows => advance p q d bs fuel (startWrites s p q c d bs)
        | .writing => concludeParts s p q c bs

/-- A part's engine is TRAPPED, or pruned with no spare: the command ends HALTED or FENCED, reporting the first byte
of such a part (R275, R276). -/
def engineBar (s : State) (p : Nat) (bs : List Blk) : Option (Status × Nat) :=
  minBy (fun f => f.2) (bs.filterMap (fun b =>
    let e := logGet s b.eng
    if e.pruned then some (Status.fenced, poolAddr p b.off)
    else if e.trapped then some (Status.halted, poolAddr p b.off) else none))

/-- The first byte of an operand in a region under a SEAL (R356). -/
def sealBar (s : State) (p : Nat) (bs : List Blk) : Option (Status × Nat) :=
  minBy (fun f => f.2) (bs.filterMap (fun b =>
    if sealedAt s p b.off then some (Status.retry, poolAddr p b.off) else none))

/-- An engine serves the parts assigned to it in the order their commands were taken, those of one clk in ascending
(partition, queue) order: an earlier command still has a part of one of these engines to end (R283). -/
def enginesTaken (s : State) (p q : Nat) (c : Command) : Bool :=
  s.eng.pairs.any (fun e => match e.2.service with
    | none => false
    | some x => (decide (x.takenAt < c.takenAt) || (decide (x.takenAt = c.takenAt) && decide (e.1 < 64 * p + q))) &&
        x.parts.any (fun y => !y.ended && c.parts.any (fun z => z.engine = y.engine)))

/-- A request's origin is not a command of an engine. -/
def fromOutside (v : Service) : Bool := match v.req.origin with
  | .engine _ q => q = 64
  | _ => true

/-- A request that reached its home in this clk is taken before an engine's for the same line (R165). -/
def requestsFirst (s : State) (p : Nat) (bs : List Blk) : Bool :=
  s.svc.any (fun x => decide (x.admitted = s.td.now) && fromOutside x && !begun s x && !unitOp x.req.pkt &&
    bs.any (fun b => decide (poolAddr p b.off / 64 ≤ (homeSpan x.req.pkt).2) &&
      decide ((homeSpan x.req.pkt).1 ≤ (poolAddr p b.off + b.len - 1) / 64)))

/-- Execute the descriptor in execution of a pair, as far as its operands allow (R251, R283, R288). -/
def executeCmd (s : State) (p q : Nat) (clk : Nat) : State :=
  match serviceOf s p q with
  | none => s
  | some c =>
    match c.cur with
    | none => s
    | some ws =>
      let d := descOf ws
      if stoppedEngines s p (c.parts.map (·.engine)) ∨ s.pwr.state ≠ 0 ∨ c.outcome.isSome then s
      else if c.phase = .ready then
        if enginesTaken s p q c ∨ requestsFirst s p c.blocks then s
        else
          let bs := c.blocks
          match engineBar s p bs, sealBar s p bs with
          | some f, _ | none, some f => cmdMod s p q (fun c => { c with outcome := some f, parts := [] })
          | none, none =>
            let s := c.parts.foldl (fun s x => logMod s x.engine (fun e => { e with busy := true })) s
            let s := cmdMod s p q (fun c => { c with parts := c.parts.map (fun x => { x with start := clk }) })
            advance p q d bs 5 s
      else advance p q d c.blocks 5 s

/-! ### The end of a descriptor -/

/-- A step of a program ends: OK and EMPTY continue after the RUN word, any other status ends the program (R274). -/
def endStep (s : State) (p q : Nat) (st : Status) (addr : Nat) : State :=
  if st = .ok ∨ st = .empty then
    cmdMod s p q (fun c => { c with cur := none, phase := .ready, parts := [], outcome := none, failure := none, fails := [], tiles := [],
                                    prog := c.prog.map (fun g => { g with pc := g.pc + 1 }) })
  else endCommand s p q st addr

/-- The descriptor in execution ends: the command, or the step of its program. A bad line that it read halts the pair
(R304, R306). -/
def endDesc (s : State) (p q : Nat) (st : Status) (addr : Nat) : State :=
  match serviceOf s p q with
  | none => s
  | some c =>
    let s := if readPoison c then haltPair s p q 3 else s
    if c.prog.isSome then endStep s p q st addr else endCommand s p q st addr

/-- Once it has its outcome and every part has ended, the descriptor ends (R22). -/
def finishIfDone (s : State) (p q : Nat) : State :=
  match serviceOf s p q with
  | none => s
  | some c => match c.outcome with
    | none => s
    | some (st, a) => if c.parts.all (·.ended) ∧ (pairGet s p q).waiting.isNone then endDesc s p q st a else s

/-- What ends a descriptor at its checks, with a free address where none is named. -/
def endAtCheck (s : State) (p q : Nat) (d : Desc) (r : Status × Option Nat) : State :=
  let s := countCheck s p d r
  match r.2 with
  | some a => endDesc s p q r.1 a
  | none =>
    if r.1 = .empty then endDesc s p q .empty 0
    else
      let (s, a) := noAddress s
      endDesc s p q r.1 a

/-- Begin a descriptor: the checks of R251, then its parts (R248, R287). -/
def beginDesc (s : State) (p q : Nat) (ws : List Word) : State :=
  let d := descOf ws
  match checkDesc s p q d with
  | some r => endAtCheck s p q d r
  | none =>
    let bs := if d.opc = 9 then [] else blocksOf s p (runsOf d)
    cmdMod s p q (fun c => { c with
      cur := some ws, phase := .ready, outcome := none, failure := none, fails := [], tiles := [], blocks := bs, out := [],
      parts := partsOf s p d bs })

/-! ### Taking a command (R283) -/

/-- A pair takes its next eligible command now. -/
def mayTake (s : State) (p q : Nat) : Bool :=
  let x := pairGet s p q
  x.state = 1 && x.cmdCi ≠ x.eligible && x.service.isNone && x.waiting.isNone && (partGet s p).st = .active &&
    decide ((x.cplPi + pointerRange x - x.cplCi) % pointerRange x < 2 ^ x.size) && !ledgerBlocked s p

/-- Take the command at CMD_CI: its descriptor is read, CMD_CI advances, and it goes through its checks. -/
def takeCommand (s : State) (p q : Nat) : State :=
  let x := pairGet s p q
  let at_ := x.cmd + 64 * (x.cmdCi % 2 ^ x.size)
  let ci := (x.cmdCi + 1) % pointerRange x
  let (s, bs, bad) := queueWords s p q at_ 8
  let ws := (List.range 16).map (fun i => BitVec.ofNat 32 (fieldAt bs (4 * i) 4))
  let s := queueStore s p (x.ctl + 8) ci
  let c : Command := { desc := ws, index := x.cmdCi, ticket := s.nextTicket, takenAt := s.td.now }
  let s := pairMod s p q (fun x => { x with cmdCi := ci, taken := wrap32 x.taken, service := some c })
  let s := { s with svc := s.svc ++ [engineService p q c.ticket s], nextTicket := s.nextTicket + 1 }
  match bad with
  | some n => endCommand (haltPair s p q 3) p q .fault (nearAddr p n)
  | none => beginDesc s p q ws

/-- SQ_TAKE (R250, R251, R253, R283, R286, R287, R363). -/
def execSqTake (part : Fin 32) (queue : Fin 64) (clk : Nat) (s : State) : Host.Outcome State Fault Refusal :=
  let s := seenClk s clk
  if mayTake s part.val queue.val then .next (takeCommand s part.val queue.val) else .next s

/-! ### The engine commands -/

/-- Execute the command in service where its operation is the one named. -/
def runOp (s : State) (opc : Nat) (part : Fin 32) (queue : Fin 64) (clk : Nat) : State :=
  let s := seenClk s clk
  match serviceOf s part.val queue.val with
  | none => s
  | some c =>
    match c.cur with
    | none => s
    | some ws =>
      if (descOf ws).opc = opc ∧ c.prog.isNone then
        finishIfDone (settle (executeCmd s part.val queue.val clk)) part.val queue.val
      else s

/-- FILL (R266). -/
def execFill (part : Fin 32) (queue : Fin 64) (clk : Nat) (s : State) : Host.Outcome State Fault Refusal :=
  .next (runOp s 1 part queue clk)
/-- COPY (R252, R266): what the source held before the command began. -/
def execCopy (part : Fin 32) (queue : Fin 64) (clk : Nat) (s : State) : Host.Outcome State Fault Refusal :=
  .next (runOp s 2 part queue clk)
/-- CMP (R267). -/
def execCmp (part : Fin 32) (queue : Fin 64) (clk : Nat) (s : State) : Host.Outcome State Fault Refusal :=
  .next (runOp s 3 part queue clk)
/-- RED (R268). -/
def execRed (part : Fin 32) (queue : Fin 64) (clk : Nat) (s : State) : Host.Outcome State Fault Refusal :=
  .next (runOp s 4 part queue clk)
/-- SCORE (R269). -/
def execScore (part : Fin 32) (queue : Fin 64) (clk : Nat) (s : State) : Host.Outcome State Fault Refusal :=
  .next (runOp s 5 part queue clk)
/-- TOPK (R270). -/
def execTopk (part : Fin 32) (queue : Fin 64) (clk : Nat) (s : State) : Host.Outcome State Fault Refusal :=
  .next (runOp s 6 part queue clk)
/-- GATHER (R271). -/
def execGather (part : Fin 32) (queue : Fin 64) (clk : Nat) (s : State) : Host.Outcome State Fault Refusal :=
  .next (runOp s 7 part queue clk)
/-- CVT (R272). -/
def execCvt (part : Fin 32) (queue : Fin 64) (clk : Nat) (s : State) : Host.Outcome State Fault Refusal :=
  .next (runOp s 8 part queue clk)

/-! ### The end of a part (R22, R276, R278) -/

/-- A part has ended: its engine counts it and is free. -/
def endPart (s : State) (p : Nat) (x : PartRun) : State :=
  let s := logMod s x.engine (fun e => { e with busy := e.lead })
  let s := countEng s p x.engine (fun e =>
    { e with cntPart := wrap32 e.cntPart, cntMac := wrapTo 64 (e.cntMac + x.mac),
             cntBusy := wrap32by e.cntBusy (s.td.now - x.start),
             cntFault := if x.status = .fault then sat16 e.cntFault else e.cntFault })
  applyPrune s (physOf s x.engine)

/-- COMMAND_PART_END (R22, R23, R284): one part of an executed command ends; after the last, the completion is posted,
or its program goes on. -/
def execCommandPartEnd (part : Fin 32) (queue : Fin 64) (idx : Nat) (s : State) : Host.Outcome State Fault Refusal :=
  match serviceOf s part.val queue.val with
  | none => .next s
  | some c =>
    match c.parts[idx]? with
    | none => .next s
    | some x =>
      if c.outcome.isNone ∨ x.ended ∨ stoppedEngines s part.val [x.engine] then .next s
      else
        let s := cmdMod s part.val queue.val (fun c => { c with parts := setAt c.parts idx { x with ended := true } })
        .next (finishIfDone (endPart s part.val x) part.val queue.val)

end Sys2Proof.Machine
end

