-- ==== Sys2Proof/Machine/Ethernet.lean ====
section
/-! DEFINITION. Ethernet host access: frames, queue pairs, RDMA operations, control messages and their answers
(R321 to R337). Opcodes and header places of RoCEv2 are IBTA's (log entry 11). -/

namespace Sys2Proof.Machine

/-! ### Frames (R321, R322, R323) -/

/-- An address of a port as its four ETH_IP words spell it (R336). -/
def ethAddress (s : State) (port i : Nat) : Nat :=
  (List.range 4).foldl (fun acc w => acc * 2 ^ 32 + (tblGet (fun _ => 0) s.eth.ip (16 * port + 4 * i + w)).toNat) 0

/-- One of the port's four addresses; an unused one matches nothing (R322, R336). -/
def ethOwns (s : State) (port : Nat) (a : BitVec 128) : Bool :=
  decide (a.toNat ≠ 0) && (List.range 4).any (fun i => ethAddress s port i == a.toNat)

/-- Index of the queue pair of a QPN: 4,096 for the management queue pair (R323). -/
def qpIndex (qpn : Nat) : Option Nat :=
  if qpn = 2 then some 4096 else if 0x1000 ≤ qpn ∧ qpn < 0x2000 then some (qpn - 0x1000) else none

/-- The peer address of a queue pair (R334, R337). -/
def qpPeer (q : Qp) : Nat := (nextHop q).ip

def ethPort (s : State) (port : Nat) : EthPort := s.eth.ports.getD port {}
def ethPortMod (s : State) (port : Nat) (f : EthPort → EthPort) : State :=
  { s with eth := { s.eth with ports := setAt s.eth.ports port (f (ethPort s port)) } }

/-- A discarded frame (R322, R323). -/
def ethDiscard (s : State) (port : Nat) : State := ethPortMod s port (fun x => { x with other := sat16 x.other })

/-- What a RoCE packet is for the device (R325). -/
inductive RoceKind where
  | write | read | atomic | send | ack | unsupported | response
deriving DecidableEq, Repr

def roceKind (op : Nat) : RoceKind :=
  if op = 0x06 ∨ op = 0x07 ∨ op = 0x08 ∨ op = 0x0A then .write
  else if op = 0x0C then .read
  else if op = 0x13 ∨ op = 0x14 then .atomic
  else if op = 0x00 ∨ op = 0x01 ∨ op = 0x02 ∨ op = 0x04 then .send
  else if op = 0x11 then .ack
  else if 0x80 ≤ op ∧ op < 0xA0 then .response
  else if 0x0D ≤ op % 32 ∧ op % 32 ≤ 0x12 ∧ op / 32 ≠ 1 ∧ op / 32 ≠ 3 then .response
  else .unsupported

/-! ### Sequence (R326, R331) -/

/-- What the PSN makes of a request packet. -/
inductive Turn where
  | drop | gap | duplicate | expected
deriving DecidableEq, Repr

/-- A packet is discarded unless its queue pair is RTS and its P_Key is accepted (R324, R326). -/
def qpTurn (q : Qp) (p : RocePacket) : Turn :=
  if q.state ≠ 1 ∨ p.pkey.toNat % 2 ^ 15 ≠ 2 ^ 15 - 1 then .drop
  else
    let d := ringDist q.epsn p.psn.toNat (2 ^ 24)
    if d = 0 then .expected else if d < 2 ^ 23 then .gap else .duplicate

/-- The first packet after a gap receives NAK PSN sequence error (R331). -/
def seqNak (s : State) (qi : Nat) : State :=
  let q := qpGet s qi
  if q.gap then s
  else respond (qpSet s qi { q with gap := true }) qi { psn := q.epsn, known := some [nakPacket s qi q.epsn 0x60] }

/-- A fatal NAK: invalid request 0x61, remote access 0x62, remote operational 0x63 (R324, R330). -/
def fatalNak (s : State) (qi psn syndrome : Nat) : State :=
  respond s qi { psn := psn, known := some [nakPacket s qi psn syndrome], fatal := some 1 }

/-- The request packets the device does not support (R325). -/
def unsupportedRequest (s : State) (qi : Nat) (p : RocePacket) : State :=
  match qpTurn (qpGet s qi) p with
  | .expected => fatalNak s qi p.psn.toNat 0x61
  | .gap => seqNak s qi
  | _ => s

/-- A datagram for a queue pair waits in its port's ingress queue. -/
def keepDatagram (s : State) (port : Nat) (p : RocePacket) : State :=
  { s with eth := { s.eth with kept := s.eth.kept ++ [((port, s.td.now), p)] } }

/-- A datagram leaves its port's ingress queue: the longest wait of the frame (R104). -/
def noteEthWait (s : State) (port w : Nat) : State :=
  let m := max w (tblGet (fun _ => 0) s.td.ethWait port)
  { s with td := { s.td with ethWait := tblSet (fun _ => 0) s.td.ethWait port m } }

/-- The unsupported requests at the front of what a queue pair has waiting are answered, in their turn (R325, R326). -/
def settleKept : Nat → State → Nat → State
  | 0, s, _ => s
  | n + 1, s, qi =>
    match takeFirst (fun e => decide (qpIndex e.2.destQp.toNat = some qi) && decide (roceKind e.2.opcode.toNat ≠ .ack))
        s.eth.kept with
    | none => s
    | some (e, rest) =>
      if roceKind e.2.opcode.toNat ≠ .unsupported then s
      else
        let s := noteEthWait { s with eth := { s.eth with kept := rest } } e.1.1 (s.td.now - e.1.2)
        settleKept n (unsupportedRequest s qi e.2) qi

/-- Teardown of a partition's data queue pairs: RESET, CAUSE IMAGE, registers zero (R77, R324). -/
def endQps (s : State) (p : Nat) : State :=
  s.eth.qps.foldl (fun s e =>
    if e.1 = 4096 ∨ e.2.part ≠ p then s
    else qpSet s e.1 { tornQp with life := e.2.life + 1 }) s

/-- The fill phase of a scrub: the drain and the recalls have ended (R359). -/
def fillPhase (s : State) (p : Nat) : Bool :=
  scrubbed s p && (partGet s p).drained && !s.coh.txns.any (fun t => t.part = p)

/-- The queue pairs of partitions whose fill phase has begun are torn down (R347, R359). -/
def tearDue (s : State) : State :=
  (List.range 32).foldl (fun s p =>
    if fillPhase s p && !(partGet s p).qpsEnded then partMod (endQps s p) p (fun x => { x with qpsEnded := true }) else s) s

/-- R322, R323 and R359 on one frame: kept, answered, or discarded and counted. -/
def receiveFrame (s : State) (port : Nat) (f : EthFrame) : State :=
  let s := tearDue s
  if (ethPort s port).state ≠ 2 then s
  else if !f.fcsGood then ethPortMod s port (fun x => { x with fcs := sat16 x.fcs })
  else if 4352 < f.length ∨ 1 < f.tags then ethDiscard s port
  else match f.content with
    | .arpRequest a | .neighbourSolicitation a =>
      if ethOwns s port a then emit s (.neighbour port a) else ethDiscard s port
    | .roce p =>
      if f.udpPort ≠ 4791 ∨ !ethOwns s port f.destIp then ethDiscard s port
      else match qpIndex p.destQp.toNat with
        | none => ethDiscard s port
        | some qi =>
          let q := qpGet s qi
          if q.port ≠ port ∨ (qi = 4096 ∧ (qpPeer q ≠ f.srcIp.toNat ∨ (nextHop q).mac ≠ f.srcMac.toNat)) then ethDiscard s port
          else match roceKind p.opcode.toNat with
            | .unsupported =>
              let s := keepDatagram s port p
              if qi = 4096 then s else settleKept s.eth.kept.length s qi
            | .response => s
            | _ => keepDatagram s port p
    | _ => ethDiscard s port

/-- ETH_FRAME_RECEIVE (R321 to R323). -/
def execEthFrameReceive (port : Fin 4) (frame : EthFrame) (s : State) : Host.Outcome State Fault Refusal :=
  .next (receiveFrame s port.val frame)

/-! ### Keys and envelopes (R327, R348, R350) -/

/-- Data bytes of one packet at most: the MTU, less the envelope (R326, R349). -/
def roceData (s : State) (q : Qp) : Nat := if ethEnc s q.part then mtuBytes q - 24 else mtuBytes q

/-- The data bytes of a received packet; a packet without payload carries no envelope. -/
def roceOpen (s : State) (q : Qp) (p : RocePacket) : Option (List Byte) :=
  if ethEnc s q.part ∧ p.payload ≠ [] then
    openBytes (partGet s q.part).keys.eth (0x8000 + q.host) (roceAad p) p.payload
  else some p.payload

/-- An envelope that fails (R350). -/
def roceBadTag (s : State) (qi : Nat) (p : RocePacket) : State :=
  fatalNak { s with sec := { s.sec with tagErr := sat16 s.sec.tagErr } } qi p.psn.toNat 0x62

/-- The whole range [va, va + n) lies in the region INDEX names, or in the near window (R327). -/
def keyRange (l : Layout) (part : Nat) (near : Bool) (index off n : Nat) : Bool :=
  if near then decide (nearBase ≤ off) && decide (off + n ≤ nearBase + (partSlices l part).length * 2 ^ 20)
  else match (regionsOf l part).find? (fun r => r.index == index) with
    | none => false
    | some r => decide (r.start * 2097152 ≤ off) && decide (off + n ≤ (r.start + r.size) * 2097152)

/-- The R_Key and address check of R327. -/
def keyOk (s : State) (q : Qp) (rkey va n : Nat) : Bool :=
  decide (bitsOf rkey 27 5 = q.part) && decide (va < 2 ^ 52) && decide (addrPart va = q.part) &&
    decide (bitsOf rkey 0 16 = (partGet s q.part).epoch % 2 ^ 16) &&
    keyRange s.img.layout q.part (rkey.testBit 26) (bitsOf rkey 16 8) (addrOff va) n

/-- The pre-colour of a DSCP: AFx1 green, AFx2 yellow, AFx3 red (R101). -/
def dscpColour (d : Nat) : Nat :=
  if 8 ≤ d ∧ d < 40 then (if d % 8 = 4 then 1 else if d % 8 = 6 then 2 else 0) else 0

/-- The request a RoCE packet becomes (R325, R329): its flow's requester is the host. -/
def hostRequest (s : State) (q : Qp) (o : Op) (addr : Nat) (bytes : List Byte) (p : RocePacket) (g : Origin) : Request :=
  { pkt := { newPacket s o 0 q.part 0 addr bytes with
      src := BitVec.ofNat 12 q.host, len := BitVec.ofNat 13 p.payload.length },
    origin := g, colour := dscpColour p.dscp.toNat, life := q.life }

/-- The place every zero-length operation and every refused control message names: no byte lies there for either. -/
def nowhere (q : Qp) : Nat := poolAddr q.part nearBase

/-- Its request has just entered the admission queue. -/
def entered (s : State) (qi psn : Nat) : Bool := (qpGet s qi).epsn == (psn + 1) % 2 ^ 24

/-- A duplicate WRITE or SEND is acknowledged again, once its first copy has been (R331). -/
def ackAgain (s : State) (qi : Nat) (p : RocePacket) (last : Bool) : State :=
  let q := qpGet s qi
  let psn := p.psn.toNat
  if q.order.any (fun e => e.psn == psn) then s
  else if last || p.ackReq then respond s qi { psn := psn, known := some [rocePacket q 0x11 psn 0x1F []] } else s

/-- The oldest kept datagram of a kind that its data queue pair has nothing older than; an acknowledgement waits for no
request, and none for it. `seen` are the QPNs with an older request, the management queue pair's among them. -/
def keptFirst (k : RoceKind) : List Nat → List ((Nat × Nat) × RocePacket) →
    Option (((Nat × Nat) × RocePacket) × List ((Nat × Nat) × RocePacket))
  | _, [] => none
  | seen, e :: l =>
    let q := e.2.destQp.toNat
    let kind := roceKind e.2.opcode.toNat
    if kind = k ∧ q ≠ 2 ∧ (k = .ack ∨ !seen.contains q) then some (e, l)
    else (keptFirst k (if kind = .ack then seen else q :: seen) l).map (fun x => (x.1, e :: x.2))

/-- The kept datagram that a command of a kind takes, its queue pair, and the state without it. -/
def takeKept (s : State) (k : RoceKind) : Option (Nat × RocePacket × State) :=
  let s := tearDue s
  match keptFirst k [] s.eth.kept with
  | none => none
  | some (e, rest) =>
    match qpIndex e.2.destQp.toNat with
    | none => none
    | some qi =>
      some (qi, e.2, noteEthWait { s with eth := { s.eth with kept := rest } } e.1.1 (s.td.now - e.1.2))

/-- Its host is fenced (R382). -/
def qpFenced (s : State) (q : Qp) : Bool := isFenced s true q.host

/-! ### RDMA WRITE (R325 to R331, R335) -/

/-- A WRITE packet whose turn it is: key, length and message rules, then admission as a WR. `again` is the request it
repeats, which brings the message as it stood (R331). -/
def admitWrite (s : State) (clk qi : Nat) (again : Option Packet) (p : RocePacket) : State :=
  let q := qpGet s qi
  let psn := p.psn.toNat
  let op := p.opcode.toNat
  let first := decide (op = 0x06 ∨ op = 0x0A)
  let last := decide (op = 0x08 ∨ op = 0x0A)
  if qpFenced s q then fatalNak s qi psn 0x63
  else match roceOpen s q p with
    | none => roceBadTag s qi p
    | some bs =>
      let q := again.elim q (rewindMsg q false)
      let va := if first then p.va.toNat else q.wrAddr
      let key := if first then p.rkey.toNat else q.wrKey
      let left := if first then p.dmaLen.toNat else q.wrLeft
      let fits := if last then decide (bs.length = left ∧ left ≤ roceData s q)
        else decide (bs.length = roceData s q ∧ roceData s q < left)
      if q.msg ≠ (if first then 0 else 1) ∨ !fits ∨ 2 ^ 24 < left then fatalNak s qi psn 0x61
      else if left ≠ 0 ∧ !keyOk s q key va left then fatalNak s qi psn 0x62
      else
        let r := hostRequest s q .wr (if left = 0 then nowhere q else va) bs p
          (.ethWrite qi psn (last || p.ackReq) last false)
        let r := { r with pkt := { r.pkt with
          seq := BitVec.ofNat 32 key, aux := BitVec.ofNat 64 left, hops := if first then 0 else 1 }, again := again.isSome }
        let s := arrive s clk r
        if again.isNone && entered s qi psn then
          qpMod s qi (fun q => { q with
            msg := if last then 0 else 1, wrAddr := va + bs.length, wrKey := key, wrLeft := left - bs.length })
        else s

/-- The request that a duplicate WRITE or SEND repeats: one that an RNR NAK has asked for again (R330, R331). -/
def repeats (q : Qp) (psn : Nat) : Option Packet := (q.again.find? (fun x => x.1 == psn)).map (·.2)

/-- What the PSN of a WRITE packet makes of it (R331). -/
def writeTurn (s : State) (clk qi : Nat) (p : RocePacket) : State := match qpTurn (qpGet s qi) p with
  | .drop => s
  | .gap => seqNak s qi
  | .duplicate => match repeats (qpGet s qi) p.psn.toNat with
    | some k => admitWrite s clk qi (some k) p
    | none => ackAgain s qi p (p.opcode = 0x08 ∨ p.opcode = 0x0A)
  | .expected => admitWrite s clk qi none p

/-- RDMA_WRITE (R325): the oldest kept WRITE packet. -/
def execRdmaWrite (clk : Nat) (s : State) : Host.Outcome State Fault Refusal :=
  let s := seenClk s clk
  match takeKept s .write with
  | none => .next s
  | some (qi, p, s) => .next (settleKept s.eth.kept.length (writeTurn s clk qi p) qi)

/-! ### RDMA READ (R325 to R331, R335) -/

/-- A READ that is served: at most 16 MiB, and 16 READs and atomics outstanding. -/
def admitRead (s : State) (clk qi : Nat) (again : Bool) (p : RocePacket) : State :=
  let q := qpGet s qi
  let psn := p.psn.toNat
  let n := p.dmaLen.toNat
  if qpFenced s q then fatalNak s qi psn 0x63
  else if 16 ≤ q.outstanding ∨ 2 ^ 24 < n ∨ (!again ∧ q.msg ≠ 0) then fatalNak s qi psn 0x61
  else if n ≠ 0 ∧ !keyOk s q p.rkey.toNat p.va.toNat n then fatalNak s qi psn 0x62
  else
    let r := hostRequest s q .rd (if n = 0 then nowhere q else p.va.toNat) [] p (.ethRead qi psn)
    arrive s clk { r with
      pkt := { r.pkt with arg := BitVec.ofNat 16 n, len := BitVec.ofNat 13 (n / 65536) }, again := again }

/-- What the PSN of a READ makes of it: a duplicate is executed and charged again (R331). -/
def readTurn (s : State) (clk qi : Nat) (p : RocePacket) : State := match qpTurn (qpGet s qi) p with
  | .drop => s
  | .gap => seqNak s qi
  | .duplicate => admitRead s clk qi true p
  | .expected => admitRead s clk qi false p

/-- RDMA_READ (R325): the oldest kept READ. -/
def execRdmaRead (clk : Nat) (s : State) : Host.Outcome State Fault Refusal :=
  let s := seenClk s clk
  match takeKept s .read with
  | none => .next s
  | some (qi, p, s) => .next (settleKept s.eth.kept.length (readTurn s clk qi p) qi)

/-! ### Atomics (R325 to R331) -/

/-- An atomic that is served as an ATOM; one at an address that is not a multiple of 8 B ends FAULT, as R155 gives. -/
def admitAtomic (s : State) (clk qi : Nat) (again : Bool) (p : RocePacket) : State :=
  let q := qpGet s qi
  let psn := p.psn.toNat
  if qpFenced s q then fatalNak s qi psn 0x63
  else if 16 ≤ q.outstanding ∨ (!again ∧ q.msg ≠ 0) then fatalNak s qi psn 0x61
  else if p.va.toNat % 8 ≠ 0 ∨ !keyOk s q p.rkey.toNat p.va.toNat 8 then fatalNak s qi psn 0x62
  else
    let operands := leBytes 8 p.swapAdd.toNat ++ leBytes 8 (if p.opcode = 0x13 then p.compare.toNat else 0)
    let r := hostRequest s q .atom p.va.toNat operands p (.ethAtomic qi psn)
    arrive s clk { r with pkt := { r.pkt with arg := if p.opcode = 0x13 then 2 else 0 }, again := again }

/-- The saved result of an atomic, answered again (R331). -/
def atomicAgain (s : State) (qi psn v : Nat) : State :=
  let q := qpGet s qi
  if q.order.any (fun e => e.psn == psn) then s
  else respond s qi { psn := psn, known := some [{ rocePacket q 0x12 psn 0x1F [] with swapAdd := BitVec.ofNat 64 v }] }

/-- What the PSN of an atomic makes of it: a duplicate is answered from the saved results, and one that ended without a
response is served at its reissue (R330, R331). -/
def atomicTurn (s : State) (clk qi : Nat) (p : RocePacket) : State :=
  let psn := p.psn.toNat
  match qpTurn (qpGet s qi) p with
  | .drop => s
  | .gap => seqNak s qi
  | .duplicate =>
    match (qpGet s qi).saved.find? (fun e => e.1 == psn) with
    | some (_, v) => atomicAgain s qi psn v
    | none => if (qpGet s qi).redo.contains psn then admitAtomic s clk qi true p else s
  | .expected => admitAtomic s clk qi false p

/-- RDMA_ATOMIC (R325): the oldest kept atomic. -/
def execRdmaAtomic (clk : Nat) (s : State) : Host.Outcome State Fault Refusal :=
  let s := seenClk s clk
  match takeKept s .atomic with
  | none => .next s
  | some (qi, p, s) => .next (settleKept s.eth.kept.length (atomicTurn s clk qi p) qi)

/-! ### Control messages (R332) -/

/-- The request of a 32 B control message: opcode, address, base; none where it is answered FAULT: a reserved OP, a field
that is not zero, an address outside the partition. -/
def controlOf (q : Qp) (bs : List Byte) : Option (Op × Nat × Nat) :=
  let w := fun i => fieldAt bs (4 * i) 4
  let addr := fieldAt bs 8 8
  let zeros := w 0 % 2 ^ 24 = 0 ∧ w 6 = 0 ∧ w 7 = 0
  if ¬ zeros ∨ 2 ^ 52 ≤ addr ∨ addrPart addr ≠ q.part then none
  else match w 0 / 2 ^ 24 with
    | 1 => some (.flush, addr, 0)
    | 2 => some (.publish, addr, fieldAt bs 16 8)
    | 3 => some (.acquire, addr, 0)
    | _ => none

/-- A SEND packet whose turn it is: 32 B make a control request, 0 B an empty message; no other length is taken. -/
def admitSend (s : State) (clk qi : Nat) (p : RocePacket) : State :=
  let q := qpGet s qi
  let psn := p.psn.toNat
  let op := p.opcode.toNat
  let first := decide (op = 0x00 ∨ op = 0x04)
  let last := decide (op = 0x02 ∨ op = 0x04)
  if qpFenced s q then fatalNak s qi psn 0x63
  else match roceOpen s q p with
    | none => roceBadTag s qi p
    | some bs =>
      let old := if first then [] else q.sendBytes
      let all := old ++ bs
      if q.msg ≠ (if first then 0 else 2) ∨ 32 < all.length ∨ (last ∧ all.length ≠ 32 ∧ all ≠ []) then
        fatalNak s qi psn 0x61
      else
        let tag := fieldAt all 4 4
        let r := if last ∧ all ≠ [] then
            match controlOf q all with
            | some (o, addr, base) =>
              let r := hostRequest s q o addr [] p (.ethControl qi psn tag)
              { r with pkt := { r.pkt with aux := BitVec.ofNat 64 base } }
            | none => hostRequest s q .flush (nowhere q) [] p (.ethControl qi psn tag)
          else
            let r := hostRequest s q .wr (nowhere q) [] p (.ethWrite qi psn (last || p.ackReq) last true)
            { r with pkt := { r.pkt with aux := BitVec.ofNat 64 old.length, hops := if first then 0 else 1 } }
        let s := arrive s clk r
        if entered s qi psn then qpMod s qi (fun q => { q with msg := if last then 0 else 2, sendBytes := all }) else s

/-- A SEND packet that an RNR NAK has asked for again: no control request, so it has no effect but its ACK (R330, R335). -/
def repeatSend (s : State) (clk qi : Nat) (k : Packet) (p : RocePacket) : State :=
  let q := qpGet s qi
  let last := decide (p.opcode = 0x02 ∨ p.opcode = 0x04)
  let r := hostRequest s q .wr (nowhere q) [] p (.ethWrite qi p.psn.toNat (last || p.ackReq) last true)
  if qpFenced s q then fatalNak s qi p.psn.toNat 0x63
  else arrive s clk { r with pkt := { r.pkt with aux := k.aux, hops := k.hops }, again := true }

/-- What the PSN of a SEND packet makes of it (R331, R332). -/
def sendTurn (s : State) (clk qi : Nat) (p : RocePacket) : State := match qpTurn (qpGet s qi) p with
  | .drop => s
  | .gap => seqNak s qi
  | .duplicate => match repeats (qpGet s qi) p.psn.toNat with
    | some k => repeatSend s clk qi k p
    | none => ackAgain s qi p (p.opcode = 0x02 ∨ p.opcode = 0x04)
  | .expected => admitSend s clk qi p

/-- CONTROL_SEND (R332): the oldest kept SEND packet. -/
def execControlSend (clk : Nat) (s : State) : Host.Outcome State Fault Refusal :=
  let s := seenClk s clk
  match takeKept s .send with
  | none => .next s
  | some (qi, p, s) => .next (settleKept s.eth.kept.length (sendTurn s clk qi p) qi)

/-! ### The device as requester (R326, R332) -/

/-- Send every unacknowledged answer again, but for those that wait behind an RNR NAK (R326). -/
def resendFrom (s : State) (qi psn : Nat) : State :=
  let q := qpGet s qi
  let due := fun (a : CtrlAnswer) => decide (ringDist psn a.psn (2 ^ 24) < 2 ^ 23)
  (q.answers.filter due).foldl (fun s a =>
    sendRoce s qi a.taken { rocePacket q 0x04 a.psn 0 a.bytes with ackReq := true })
    (qpSet s qi { q with answers := q.answers.map (fun a => if due a then { a with sent := true } else a) })

/-- One more retry of the oldest unacknowledged answer; past RETRY the queue pair enters ERROR, CAUSE 3 (R324, R326). -/
def retryAnswers (s : State) (qi : Nat) : State :=
  let q := qpGet s qi
  match q.answers with
  | [] => s
  | a :: rest =>
    if q.retry ≤ a.retries then qpFatal s qi 3
    else resendFrom (qpSet s qi { q with answers := { a with retries := a.retries + 1 } :: rest }) qi a.psn

/-- Answers whose PSN an acknowledgement covers are done. -/
def ackAnswers (q : Qp) (psn : Nat) : Qp :=
  { q with answers := q.answers.filter (fun a => !decide (ringDist a.psn psn (2 ^ 24) < 2 ^ 23)) }

/-- The answer that an RNR NAK names waits, up to RNR_RETRY times, 7 being without limit (R332). -/
def rnrAnswer (s : State) (qi psn : Nat) : State :=
  let q := qpGet s qi
  match q.answers.find? (fun a => a.psn == psn) with
  | none => s
  | some a =>
    if q.rnrRetry ≠ 7 ∧ q.rnrRetry ≤ a.rnrRetries then qpFatal s qi 3
    else qpSet s qi { q with answers := q.answers.map (fun b => if b.psn = psn then { b with rnrWait := true } else b) }

/-- ETH_ACK_RECEIVE (R326): the oldest kept acknowledgement. Syndrome bits [6:5]: 00 ACK, 01 RNR NAK, 11 NAK. -/
def execEthAckReceive (s : State) : Host.Outcome State Fault Refusal :=
  match takeKept s .ack with
  | none => .next s
  | some (qi, p, s) =>
    let q := qpGet s qi
    let psn := p.psn.toNat
    let before := qpSet s qi (ackAnswers q ((psn + 2 ^ 24 - 1) % 2 ^ 24))
    let fatal := decide (bitsOf p.syndrome.toNat 5 2 = 3) && decide (p.syndrome.toNat % 32 ≠ 0)
    if q.state ≠ 1 ∨ p.pkey.toNat % 2 ^ 15 ≠ 2 ^ 15 - 1 then .next s
    else if fatal then .next (qpFatal s qi 2)
    else if q.answers = [] then .next s
    else match bitsOf p.syndrome.toNat 5 2 with
      | 0 => .next (qpSet s qi (ackAnswers q psn))
      | 1 => .next (rnrAnswer before qi psn)
      | 3 => .next (retryAnswers before qi)
      | _ => .next s

/-- ETH_ACK_TIMEOUT (R326): the local ACK timeout of a queue pair with unacknowledged answers expires. -/
def execEthAckTimeout (qp : Fin 4096) (s : State) : Host.Outcome State Fault Refusal :=
  let q := qpGet s qp.val
  if q.state ≠ 1 ∨ q.answers.any (·.rnrWait) then .next s else .next (retryAnswers s qp.val)

/-- ETH_RNR_RESEND (R332): the time the host gave has passed. -/
def execEthRnrResend (qp : Fin 4096) (s : State) : Host.Outcome State Fault Refusal :=
  let q := qpGet s qp.val
  match q.answers.find? (·.rnrWait) with
  | none => .next s
  | some a =>
    let as := q.answers.map (fun b =>
      if b.rnrWait then { b with rnrWait := false, rnrRetries := b.rnrRetries + 1 } else b)
    if q.state ≠ 1 then .next s else .next (resendFrom (qpSet s qp.val { q with answers := as }) qp.val a.psn)

/-! ### Queue-pair states and ports (R324, R336, R337) -/

/-- Transport state of a queue pair as RESET leaves it (R324). -/
def qpFresh (q : Qp) : Qp :=
  { q with
    gap := false, outstanding := 0, saved := [], msg := 0, wrAddr := 0, wrKey := 0, wrLeft := 0, sendBytes := [],
    answers := [], asked := [], redo := [], again := [], order := [], epsn := q.rpsn, npsn := q.spsn }

/-- A write of ETH_QP_CFG.STATE (R324). The management queue pair is bound to no flow (R323, R334). -/
def writeQpState (s : State) (qi value : Nat) : State :=
  let q := qpGet s qi
  match value with
  | 0 => qpSet s qi { qpFresh q with state := 0, life := q.life + 1 }
  | 1 =>
    if q.state ≠ 0 then s
    else if qi = 4096 ∨ ((partGet s q.part).st = .active ∧
        (allotOf s.img.layout (flowNat q.part true q.host)).isSome) then
      qpSet s qi { qpFresh q with state := 1, cause := 0 }
    else qpSet s qi { q with cause := 5 }
  | _ => s

/-- ETH_QP_STATE_WRITE (R324). -/
def execEthQpStateWrite (qp : Fin 4097) (value : BitVec 2) (s : State) : Host.Outcome State Fault Refusal :=
  .next (writeQpState (tearDue s) qp.val value.toNat)

/-- A write of ETH_PORT.PHY: a change retrains the port; 3 leaves the field (R336). -/
def writePhy (s : State) (port v : Nat) : State :=
  if v = 3 ∨ v = (ethPort s port).phy then s else ethPortMod s port (fun x => { x with phy := v, state := 1 })

/-- ETH_PHY_WRITE (R336). -/
def execEthPhyWrite (port : Fin 4) (value : BitVec 2) (s : State) : Host.Outcome State Fault Refusal :=
  .next (writePhy s port.val value.toNat)

/-- ETH_PORT_TRAINING_DONE (R336): a training port comes up. -/
def execEthPortTrainingDone (port : Fin 4) (s : State) : Host.Outcome State Fault Refusal :=
  if (ethPort s port.val).state = 1 then .next (ethPortMod s port.val (fun x => { x with state := 2 })) else .next s

/-- ETH_PORT_LINK_LOSS (R336): the port leaves up and trains again. -/
def execEthPortLinkLoss (port : Fin 4) (s : State) : Host.Outcome State Fault Refusal :=
  if (ethPort s port.val).state = 2 then .next (ethPortMod s port.val (fun x => { x with state := 1 })) else .next s

end Sys2Proof.Machine
end

