-- ==== Sys2Proof/Machine/FlashTier.lean ====
section
/-! DEFINITION. The flash tier below the cache: discovery, write-back and fetch, the translation layer's moves, erase,
retirement and channel pruning (R225 to R245). -/

namespace Sys2Proof.Machine

/-! ### Stripe blocks -/

def allGood (f : Flash) (g : Nat) : Nat :=
  sumNat ((f.geom.filter (fun x => x.group = g)).map (fun x => x.luns * x.blocks)) -
    (f.blocks.filter (fun e => stripeGroup e.1 = g && stripeOut e.2 && stripeUsed f e.1)).length

def reserveLeft (f : Flash) (g : Nat) : Nat := tblGet (fun _ => 0) f.reserve g

/-- Free stripe blocks of a group: good ones that hold nothing, less the spare reserve (R229, R237). -/
def freeCount (f : Flash) (g : Nat) : Nat :=
  allGood f g - (f.blocks.filter (fun e => stripeGroup e.1 = g && !stripeOut e.2 && e.2.st ≠ 0)).length -
    reserveLeft f g

/-- The lowest stripe block of a LUN that no entry names. -/
def firstUnlisted (f : Flash) (base blocks : Nat) : Option Nat :=
  let listed := (f.blocks.filter (fun e => base ≤ e.1 && e.1 < base + 131072)).length
  ((List.range (min blocks (listed + 1))).find? (fun i => (tblFind f.blocks (base + i)).isNone)).map (base + ·)

/-- Free stripe blocks worth considering: every listed one, and the lowest unlisted one of each LUN. -/
def freeBlocks (f : Flash) (g : Nat) : List (Nat × StripeBlock) :=
  if freeCount f g = 0 then []
  else
    (f.blocks.filter (fun e => stripeGroup e.1 = g && e.2.st = 0)) ++
    (((f.geom.filter (fun x => x.group = g)).flatMap (fun x =>
      (List.range x.luns).filterMap (fun l => firstUnlisted f (stripeKey g x.target l 0) x.blocks))).map
      (fun k => (k, ({} : StripeBlock))))

/-- Lowest erase count, ties to the lower address; and the highest count (R237). -/
def coldestFree (f : Flash) (g : Nat) : Option Nat :=
  (minBy (fun e => e.2.erases * 2 ^ 40 + e.1) (freeBlocks f g)).map (·.1)
def hottestFree (f : Flash) (g : Nat) : Option Nat :=
  (minBy (fun e => (2 ^ 16 - min (2 ^ 16) e.2.erases) * 2 ^ 40 + e.1) (freeBlocks f g)).map (·.1)

/-- Granules whose flash copy lies in a stripe block, or is being programmed there: (partition, granule). -/
def validIn (s : State) (k : Nat) : List (Nat × Nat) :=
  let here := fun (l : Option FlashLoc) => match l with
    | some l => decide (l.block = k)
    | none => false
  (s.fl.grans.filter (fun e => here e.2.loc || here e.2.next)).map (fun e => (e.1 / 2 ^ 32, e.1 % 2 ^ 32))

def locKey (l : FlashLoc) : Nat := l.block * 4096 + l.page

def copyGet (s : State) (l : FlashLoc) : FlashCopy := tblGet (fun _ => {}) s.fl.copies (locKey l)
def copySet (s : State) (l : FlashLoc) (c : FlashCopy) : State :=
  { s with fl := { s.fl with copies := tblSet (fun _ => {}) s.fl.copies (locKey l) c } }

/-! ### Retirement (R239, R240) -/

/-- Entry to DEGRADED raises the management interrupt (R240). -/
def noteDegraded (s : State) : State :=
  let d := decide (flashState s.fl = 3)
  { s with fl := { s.fl with degradedSeen := d }, di := { s.di with irq := s.di.irq || (d && !s.fl.degradedSeen) } }

/-- A retired stripe block goes into the defect table, and awaits one of its group's reserve: at the next tick with AUTO
bit 4, at FL_CTRL.GRAFT without it (R239, R387). -/
def retireBlock (s : State) (k : Nat) : State :=
  let g := stripeGroup k
  let s := blockMod s k (fun b => { b with st := 4, moving := false, retiring := false })
  let f := { s.fl with
    defects := s.fl.defects ++ [(g, k / 524288 % 8, k / 131072 % 4, k % 131072)],
    badGrown := satTo 32 (s.fl.badGrown + 1),
    unreplaced := tblMod (fun _ => 0) s.fl.unreplaced g (fun n => satTo 16 (n + 1)) }
  noteDegraded { s with fl := f }

/-- A stripe block that is being emptied and holds no valid granule any more is retired, or queued for erase (R237 to
R239). -/
def settleBlock (s : State) (k : Nat) : State :=
  let b := blockGet s k
  if !b.moving ∨ validIn s k ≠ [] then s
  else if b.retiring then retireBlock s k
  else blockSet s k { b with st := 3, moving := false }

/-! ### Pages (R237) -/

/-- The group with the most free stripe blocks, ties to the lower group. -/
def bestGroup (s : State) : Option Nat :=
  maxBy (fun g => freeCount s.fl g) ((List.range 8).filter (fun g => s.fl.groups.testBit g && allGood s.fl g ≠ 0))

/-- The partition's open stripe block of a group. -/
def openBlock (s : State) (p g : Nat) : Option Nat :=
  (s.fl.blocks.find? (fun e => stripeGroup e.1 = g && e.2.st = 1 && e.2.owner = p && !e.2.moving)).map (·.1)

/-- Program one page of a stripe block for a partition: its location. -/
def pageOf (s : State) (p k : Nat) : State × FlashLoc :=
  let b := blockGet s k
  let born := if b.pages = 0 then s.td.ptime else b.born
  let b := { b with st := if b.pages + 1 = stripePages s.fl k then 2 else 1, owner := p, pages := b.pages + 1, born := born }
  let l := { block := k, page := b.pages - 1 }
  (issueOnfi (blockSet s k b) .programPage l, l)

/-- The next page for a partition: its open block in the best group, or a new one there. -/
def nextPage (s : State) (p : Nat) : Option (State × FlashLoc) :=
  match bestGroup s with
  | none => none
  | some g => match openBlock s p g with
    | some k => some (pageOf s p k)
    | none => (coldestFree s.fl g).map (fun k => pageOf s p k)

/-- What a page's metadata says of the granule it is of (R242). -/
def copyOf (s : State) (p n : Nat) : FlashCopy :=
  match (regionsOf s.img.layout p).find? (fun r => r.flash && decide (granuleBase s.img.layout p r.index ≤ n) &&
      decide (n < granuleBase s.img.layout p r.index + 32 * r.size)) with
  | none => { part := p }
  | some r => { part := p, index := r.index, granule := n - granuleBase s.img.layout p r.index }

/-- The frame of a granule as it is programmed: its bytes, the lines that are bad, and its metadata (R242, R304, R308). -/
def frameCopy (s : State) (p n f : Nat) : State × FlashCopy :=
  let r := (frameLines s p f 0 65536).foldl (fun (acc : State × List (Nat × Byte) × List Nat) l =>
    let (s', bs, bad) := readLine acc.1 6 l.2.2.1 l.2.2.2 64
    let kept := ((List.range 64).map (fun i => (l.1 + i, bs.getD i 0))).filter (fun e => e.2 ≠ 0)
    (s', acc.2.1 ++ kept, if bad then acc.2.2 ++ [l.1 / 64] else acc.2.2)) (s, [], [])
  let stamp := r.1.fl.nextStamp
  ({ r.1 with fl := { r.1.fl with nextStamp := wrap32 stamp } }, { copyOf s p n with bytes := r.2.1, poison := r.2.2, stamp := stamp })

/-- The tweak of a codeword of a granule's copy (R345). -/
def flashTweak (c : FlashCopy) (i : Nat) : Nat :=
  i % 16 + c.granule % 2 ^ 32 * 2 ^ 4 + c.index % 256 * 2 ^ 36 + c.part % 32 * 2 ^ 44 + c.stamp % 2 ^ 32 * 2 ^ 96

/-- What the i-th codeword of a page holds before its parity: the ciphertext of its 4 KiB under the partition's flash key,
and its metadata. FlashCopy keeps the bytes it means; the parity and the metadata's layout the spec does not give
(R242, R345, log entry 67). -/
def codewordStored (s : State) (l : FlashLoc) (i : Nat) : List Byte × FlashCopy :=
  let c := copyGet s l
  let plain := (List.range 4096).map (fun j => tblGet (fun _ => 0) c.bytes (4096 * i + j))
  (xtsEncrypt (partGet s c.part).keys.xts (flashTweak c i) plain, { c with bytes := [], poison := [] })

/-- The page that a move reads: the stripe block counts the read (R238), and the device trusts it only where its
metadata names the granule (R242); a page it does not trust is passed on with every line poisoned. -/
def movedCopy (s : State) (p n : Nat) (old : FlashLoc) : State × FlashCopy :=
  let c := copyGet s old
  let own := copyOf s p n
  let trusted := decide (c.part = own.part ∧ c.index = own.index ∧ c.granule = own.granule)
  (issueOnfi (blockMod s old.block (fun b => { b with reads := b.reads + 1 })) .readPage old,
    if trusted then c else { c with poison := List.range 1024 })

/-- Start the move of one granule's flash copy; its state does not change, and it is read where it is until the map
entry takes the new location (R236). A group out of service has lost what it held (R241). -/
def moveGranule (s : State) (p n : Nat) : State :=
  let g := granGet s p n
  match g.st, g.loc, g.next with
  | .writing, _, _ => s
  | _, some old, none =>
    if !s.fl.groups.testBit (stripeGroup old.block) then s
    else match nextPage s p with
    | none => s
    | some (s, l) =>
      let (s, c) := movedCopy s p n old
      copySet (granSet s p n { g with next := some l }) l c
  | _, _, _ => s

/-- The granules of stripe blocks that are being emptied, and that found no page, are moved once pages are free again
(R237 to R239). -/
def resumeMoves (s : State) : State :=
  (s.fl.blocks.filter (fun e => e.2.moving)).foldl (fun s b =>
    settleBlock ((validIn s b.1).foldl (fun s e => moveGranule s e.1 e.2) s) b.1) s

/-- FL_CTRL.GRAFT: every retired block not yet replaced is, while its group's reserve lasts (R239). -/
def graftFlash (s : State) : State :=
  resumeMoves ((List.range 8).foldl (fun s g =>
    let n := min (reserveLeft s.fl g) (tblGet (fun _ => 0) s.fl.unreplaced g)
    { s with fl := { s.fl with
      reserve := tblMod (fun _ => 0) s.fl.reserve g (fun x => x - n),
      unreplaced := tblMod (fun _ => 0) s.fl.unreplaced g (fun x => x - n) } }) s)

/-- Start to empty a stripe block. -/
def emptyBlock (s : State) (k : Nat) (retiring : Bool) : State :=
  let s := blockMod s k (fun b => { b with
    st := if b.st = 1 then 2 else b.st, moving := true, retiring := b.retiring || retiring })
  settleBlock ((validIn s k).foldl (fun s e => moveGranule s e.1 e.2) s) k

def countWl (s : State) : State := { s with fl := { s.fl with relocWl := wrap32 s.fl.relocWl } }

/-! ### Fetch (R233, R236, R239, R242, R308) -/

/-- One line of a frame installed as marked: every word of it reads poisoned until it is written whole. -/
def markLine (s : State) (sl a : Nat) : State :=
  (lineWords sl a).foldl (fun s k => markSet s k { markGet s k with poison := true }) s

/-- The bytes of a codeword that no retry level reads are open. -/
def blurCodeword (s : State) (p f i : Nat) : State :=
  let (bs, s) := drawBytes s 4096
  bs.zipIdx.foldl (fun s e => match framePlace s p f (4096 * i + e.2) with
    | none => s
    | some (sl, a) => dramSetByte s sl a e.1) s

/-- Install a copy in a frame: its bytes, its bad lines and its uncorrectable codewords marked. -/
def installCopy (s : State) (p f : Nat) (c : FlashCopy) (bad : Nat → Bool) : State :=
  let s := zeroFrame s p f
  let s := c.bytes.foldl (fun s e => match framePlace s p f e.1 with
    | none => s
    | some (sl, a) => dramSetByte s sl a e.2) s
  let s := ((List.range 16).filter bad).foldl (fun s i => blurCodeword s p f i) s
  (frameLines s p f 0 65536).foldl (fun s l =>
    if bad (l.1 / 4096) || c.poison.contains (l.1 / 64) then markLine s l.2.2.1 l.2.2.2 else s) s

/-- The channel of a group that holds the i-th codeword of a granule: 16 KiB quarter q goes to channel 4g + q (R227). -/
def codewordChan (k i : Nat) : Nat := 4 * stripeGroup k + i / 4 % 4

/-- What each codeword's read adds to the counters and to the block's wear; every retry level is set and the page read
again, which is one more page read of the block (R225, R238, R242). -/
def noteCodewords (s : State) (l : FlashLoc) (p n : Nat) (reads : List CodewordRead) : State :=
  let addr := (granuleOffset s.img.layout p n).map (poolAddr p)
  reads.zipIdx.foldl (fun s r =>
    let s := if r.1.levels ≠ 0 then
        let again := (List.replicate r.1.levels.val [OnfiOp.setFeatures, OnfiOp.readPage, OnfiOp.readStatus]).flatten
        let s := { s with fl := { s.fl with
          eccRetry := wrap32 s.fl.eccRetry,
          issued := s.fl.issued ++ again.map (fun o => { chan := codewordChan l.block r.2, op := o, loc := l }) } }
        blockMod s l.block (fun b => { b with
          retries := b.retries + 1, worn := true, reads := b.reads + r.1.levels.val })
      else if s.fl.rdbits < r.1.corrected then blockMod s l.block (fun b => { b with worn := true }) else s
    if r.1.uncorrectable then
      let s := { s with fl := { s.fl with eccUncorr := satTo 32 (s.fl.eccUncorr + 1) } }
      logError s 7 6 3 0 0 0 (some p) (addr.map (· + 4096 * r.2))
    else s) s

/-- Codewords that no retry level reads. -/
def lostCodewords (reads : List CodewordRead) : List Nat :=
  (List.range 16).filter (fun i => match reads[i]? with
    | some r => r.uncorrectable
    | none => false)

/-- An uncorrectable codeword, or CE_LIMIT of corrected errors, empties and retires the stripe block; one that is being
emptied already is retired at its end (R239). -/
def judgeBlock (s : State) (k : Nat) (reads : List CodewordRead) : State :=
  let b := blockGet s k
  if (b.st = 1 ∨ b.st = 2) ∧ (lostCodewords reads ≠ [] ∨ (0 < ceLimit s ∧ ceLimit s ≤ b.retries)) then
    emptyBlock (if b.moving then s else countWl s) k true
  else s

/-- The old copy of a granule becomes invalid (R235). -/
def invalidate (s : State) (old : Option FlashLoc) : State :=
  match old with
  | none => s
  | some l => settleBlock (copySet s l {}) l.block

/-- The end of a fetch: the frame holds the copy and the granule is CACHED. A group out of service has lost the
granule: the whole of it is installed poisoned (R241). The page read is the one the fetch found, and its block counts and
is judged, where a move has given the granule another since (R236). A granule of which a codeword is lost has no copy in
flash that its stripe block's retirement could leave, so its frame is DIRTY (R232, R239). -/
def fetchDone (s : State) (p n : Nat) (reads : List CodewordRead) : State :=
  let g := granGet s p n
  match g.st, g.loc with
  | .filling, some now =>
    let l := g.fetchLoc.getD now
    let gone := !s.fl.groups.testBit (stripeGroup l.block)
    let lost := if gone then List.range 16 else lostCodewords reads
    let s := installCopy s p g.frame (copyGet s now) (fun i => lost.contains i)
    let g := { g with fetchLoc := none }
    if gone then granSet s p n { g with st := .cached, ref := true, badCw := maskOf lost }
    else
      let s := blockMod s l.block (fun b => { b with reads := b.reads + 1 })
      let s := noteCodewords s l p n reads
      if lost = [] ∨ l ≠ now then
        judgeBlock (granSet s p n { g with st := .cached, ref := true, badCw := maskOf lost }) l.block reads
      else
        let s := granSet s p n
          { g with st := .dirty, ref := true, loc := none, next := none, dirtyOrder := s.fl.nextDirty }
        let s := { s with fl := { s.fl with nextDirty := s.fl.nextDirty + 1 } }
        invalidate (invalidate (judgeBlock s l.block reads) g.next) (some l)
  | _, _ => s

/-! ### Commands -/

/-- A target the device may use (R226). -/
def targetUsable (t : FlashTarget) : Bool :=
  decide (t.pageData = 16384) && decide (2048 ≤ t.pageSpare) && decide (t.blocks ≤ 131072) && decide (t.pages ≤ 4096) &&
    (t.planes = 1 || t.planes = 2 || t.planes = 4) && decide (1 ≤ t.luns) && decide (t.luns ≤ 4) &&
    decide (t.channel < 32) && decide (t.chipEnable < 8)

def targetBytes (t : FlashTarget) : Nat := t.luns * t.blocks * t.pages * 16384

/-- The targets within the first 256 TiB, in channel and then chip-enable order (R228). -/
def withinLimit (ts : List FlashTarget) : List FlashTarget :=
  let sorted := sortBy (fun a b => decide (a.channel * 8 + a.chipEnable ≤ b.channel * 8 + b.chipEnable)) ts
  (sorted.foldl (fun (acc : List FlashTarget × Nat) t =>
    let sum := acc.2 + targetBytes t
    (if sum ≤ 2 ^ 48 then acc.1 ++ [t] else acc.1, sum)) ([], 0)).1

/-- Groups' targets in use: the same chip enable of identical geometry on all four channels (R227). -/
def groupTargets (ts : List FlashTarget) : List FlashGeom :=
  (List.range 8).flatMap (fun g => (List.range 8).filterMap (fun ce =>
    let four := (List.range 4).map (fun q => ts.find? (fun t => t.channel = 4 * g + q && t.chipEnable = ce))
    match four with
    | [some a, some b, some c, some d] =>
      let same := fun (x : FlashTarget) =>
        x.luns = a.luns && x.blocks = a.blocks && x.pages = a.pages && x.planes = a.planes
      if same b && same c && same d then
        some { group := g, target := ce, luns := a.luns, blocks := a.blocks, pages := a.pages, planes := a.planes }
      else none
    | _ => none))

/-- The stripe blocks of which some block is defective: a stripe block is good only when all four blocks are (R227). -/
def stripesOf (bad : List (Nat × Nat × Nat × Nat)) : List (Nat × Nat × Nat × Nat) :=
  (bad.map (fun b => (b.1 / 4, b.2))).dedup

/-- The commands of discovery's first step, on one channel: reset, identification, parameter page, interface set-up,
calibration and training (R225, R228). Which of R225's commands it gives, and in what order, is log entry 47's choice. -/
def discoveryOps (c : Nat) : List OnfiIssue :=
  [OnfiOp.reset, OnfiOp.readId, OnfiOp.readParameterPage, OnfiOp.setFeatures, OnfiOp.getFeatures, OnfiOp.zqCalibration,
    OnfiOp.dccTraining, OnfiOp.readDqTraining, OnfiOp.writeDqTraining].map (fun o => { chan := c, op := o, loc := { block := c / 4 * 4194304, page := 0 } })

/-- What discovery settles (R228, R229): geometry, defects, table blocks, usable capacity and spare reserves. Every
stripe block that is neither free nor defective is queued for erase: those programmed before this power-on, and, where no
copy of the table is valid, those it held that the scan does not mark. -/
def discover (s : State) (r : FlashReport) : State :=
  let ts := withinLimit (r.targets.filter (fun t => targetUsable t && !r.untrained.contains t.channel))
  let bad := fun (g : Nat) => s.fl.excluded.testBit g || (List.range 4).any (fun q => r.untrained.contains (4 * g + q))
  let geom := (groupTargets ts).filter (fun g => !bad g.group)
  let groups := maskOf ((List.range 8).filter (fun g => geom.any (fun x => x.group = g)))
  let defects := if r.tableValid then s.fl.defects else stripesOf r.factoryBad
  let old := s.fl.blocks.map (fun e =>
    (e.1, { e.2 with
      st := if e.2.pages = 0 ∧ e.2.st = 0 then 0 else 3, moving := false, worn := false,
      retiring := e.2.retiring && e.2.st ≤ 3 }))
  let blocks := tblSetMany (fun _ => {}) (tblSetMany (fun _ => {}) [] old)
    (defects.map (fun d => (stripeKey d.1 d.2.1 d.2.2.1 d.2.2.2, { st := 5 })))
  let base := stripeKey 0 0 0 0
  let n00 := match geom.find? (fun x => x.group = 0 && x.target = 0) with
    | none => 0
    | some x => x.blocks
  let tables := ((List.range (min n00 (defects.length + 2))).filter
    (fun i => (tblGet (fun _ => ({} : StripeBlock)) blocks (base + i)).st ≠ 5)).take 2
  let blocks := tblSetMany (fun _ => {}) blocks (tables.map (fun i => (base + i, { st := 7 })))
  let chans := (List.range 32).map (fun c =>
    let used := geom.filter (fun g => g.group = c / 4)
    (c, (if r.untrained.contains c then 2 else if used.isEmpty then 0 else 1, maskOf (used.map (·.target)),
      (used.map (·.luns)).foldl max 0)))
  let f := { s.fl with
    issued := s.fl.issued ++ (List.range 32).flatMap discoveryOps,
    discovered := true, geom := geom, groups := groups, blocks := blocks, defects := defects,
    factoryBad := defects.length, chans := tblSetMany (fun _ => (0, 0, 0)) [] chans,
    rawGiB := sumNat (geom.map (fun (g : FlashGeom) => g.luns * g.blocks * g.pages)) / 16384 }
  let f := { f with
    usable := 86 * flashNow f / 3200,
    reserve := tblSetMany (fun _ => 0) [] ((List.range 8).map (fun g => (g, allGood f g / 50))), unreplaced := [] }
  noteDegraded { s with fl := f }

/-- FLASH_DISCOVERY (R228, R229): once in a cold start. -/
def execFlashDiscovery (report : FlashReport) (s : State) : Host.Outcome State Fault Refusal :=
  if s.fl.discovered ∨ s.pwr.stage = .off ∨ s.pwr.stage = .waiting ∨ s.pwr.stage = .tripped then .next s
  else .next (discover s report)

/-- FLASH_FETCH_DONE (R233, R236, R239, R242, R308). -/
def execFlashFetchDone (part : Fin 32) (granule : Nat) (reads : List CodewordRead) (s : State) :
    Host.Outcome State Fault Refusal := .next (fetchDone s part.val granule reads)

/-- Frames of a partition that are CACHED. -/
def cachedFrames (s : State) (p : Nat) : Nat :=
  (s.fl.grans.filter (fun e => e.1 / 2 ^ 32 = p && e.2.st = .cached)).length

/-- The dirty granule dirtied first. -/
def oldestDirty (s : State) (p : Nat) : Option (Nat × Granule) :=
  (minBy (fun e => e.2.dirtyOrder) (s.fl.grans.filter (fun e => e.1 / 2 ^ 32 = p && e.2.st = .dirty))).map
    (fun e => (e.1 % 2 ^ 32, e.2))

/-- The tier may start to move a partition's data: not while the partition is scrubbed, nor while a load fills it (R359). -/
def movesStart (s : State) (p : Nat) : Bool :=
  let x := partGet s p
  decide (x.st ≠ .unused) && !scrubbed s p && !(decide (x.st = .quiesced) && x.drained && decide (x.why ≠ 3))

/-- FLASH_WRITEBACK_START (R235, R237, R242, R308, R359): below the clean target, the frame dirtied first is programmed to
a new location. -/
def execFlashWritebackStart (part : Fin 32) (s : State) : Host.Outcome State Fault Refusal :=
  let p := part.val
  if s.fl.clean * frameCount s.img.layout p ≤ 16 * cachedFrames s p ∨ !movesStart s p ∨ !ioOn s then .next s
  else match oldestDirty s p with
    | none => .next s
    | some (n, g) => match nextPage s p with
      | none => .next s
      | some (s, l) =>
        -- a move of its old copy has nothing left to do
        let s := match g.next with
          | none => s
          | some m => copySet s m {}
        let (s, c) := frameCopy s p n g.frame
        .next (copySet (granSet s p n { g with st := .writing, next := some l, rewritten := false }) l c)

/-- A copy that has come to rest in a stripe block which is being emptied moves on. -/
def moveOn (s : State) (p n : Nat) (l : FlashLoc) : State :=
  if (blockGet s l.block).moving then moveGranule s p n else s

/-- FLASH_WRITEBACK_DONE (R235): CACHED at the new location, or DIRTY where a write arrived meanwhile. A group that has
left service keeps nothing (R241): the frame stays DIRTY. -/
def execFlashWritebackDone (part : Fin 32) (granule : Nat) (s : State) : Host.Outcome State Fault Refusal :=
  let g := granGet s part.val granule
  match g.st, g.next with
  | .writing, some l =>
    if !s.fl.groups.testBit (stripeGroup l.block) then
      .next (granSet s part.val granule { g with st := .dirty, next := none, rewritten := false })
    else
    let s := partCnt s part.val (fun c => { c with flWb := wrap32 c.flWb })
    let st := if g.rewritten then GranState.dirty else .cached
    let s := granSet s part.val granule
      { g with st := st, loc := some l, next := none, rewritten := false, dirtyOrder := s.fl.nextDirty, badCw := 0 }
    .next (moveOn (invalidate { s with fl := { s.fl with nextDirty := s.fl.nextDirty + 1 } } g.loc) part.val granule l)
  | _, _ => .next s

/-- Stripe blocks of a group in service that hold a partition's granules and are not being emptied. -/
def filledBlocks (s : State) (g : Nat) : List (Nat × StripeBlock) :=
  if !s.fl.groups.testBit g ∨ !ioOn s then []
  else s.fl.blocks.filter (fun e => stripeGroup e.1 = g && (e.2.st = 1 || e.2.st = 2) && !e.2.moving && movesStart s e.2.owner)

/-- FLASH_RECLAIM (R237): below 1/64 free, the stripe block with the fewest valid granules is emptied. -/
def execFlashReclaim (group : Fin 8) (s : State) : Host.Outcome State Fault Refusal :=
  if allGood s.fl group.val ≤ 64 * freeCount s.fl group.val then .next s
  else
    match minBy (fun e => (validIn s e.1).length * 2 ^ 40 + e.1) (filledBlocks s group.val) with
    | none => .next s
    | some e => .next (emptyBlock (countWl s) e.1 false)

/-- Erase counts of a group's good stripe blocks: highest, and lowest (0 while some block is unlisted). -/
def eraseSpan (f : Flash) (g : Nat) : Nat × Nat :=
  let es := (f.blocks.filter (fun e => stripeGroup e.1 = g && !stripeOut e.2)).map (fun e => e.2.erases)
  (es.foldl max 0, if es.length < allGood f g then 0 else (minBy id es).getD 0)

/-- Move the granules of a stripe block into the pages of another, which then is no second open block of its partition
(R237). -/
def moveInto (s : State) (src dst : Nat) : State :=
  let p := (blockGet s src).owner
  let s := blockMod s src (fun b => { b with st := 2, moving := true })
  let other := (openBlock s p (stripeGroup dst)).isSome
  let s := (validIn s src).foldl (fun s e =>
    let g := granGet s e.1 e.2
    match g.st, g.loc, g.next with
    | .writing, _, _ => s
    | _, some old, none =>
      let (s, l) := pageOf s e.1 dst
      let (s, c) := movedCopy s e.1 e.2 old
      copySet (granSet s e.1 e.2 { g with next := some l }) l c
    | _, _, _ => s) s
  settleBlock (if other then blockMod s dst (fun b => { b with st := if b.st = 1 then 2 else b.st }) else s) src

/-- FLASH_WEAR_LEVEL (R237): past SPREAD, the granules of the lowest-count stripe block in use move to the free one with
the highest count. -/
def execFlashWearLevel (group : Fin 8) (s : State) : Host.Outcome State Fault Refusal :=
  let span := eraseSpan s.fl group.val
  if span.1 - span.2 ≤ s.fl.spread then .next s
  else
    match minBy (fun e => e.2.erases * 2 ^ 40 + e.1) (filledBlocks s group.val), hottestFree s.fl group.val with
    | some e, some dst => .next (moveInto (countWl s) e.1 dst)
    | _, _ => .next s

/-- FLASH_REFRESH_MOVE (R238): retention, corrected bits or retry, read disturb. -/
def execFlashRefreshMove (block : Nat) (s : State) : Host.Outcome State Fault Refusal :=
  let b := blockGet s block
  if ¬ (b.st = 1 ∨ b.st = 2) ∨ b.moving ∨ !s.fl.groups.testBit (stripeGroup block) ∨ !movesStart s b.owner ∨ !ioOn s then
    .next s
  else if b.worn ∨ s.fl.retain * 2 ^ 24 ≤ s.td.ptime - b.born then
    .next (emptyBlock { s with fl := { s.fl with relocRet := wrap32 s.fl.relocRet } } block false)
  else if s.fl.rdlim * 1024 ≤ b.reads then
    .next (emptyBlock { s with fl := { s.fl with relocRd := wrap32 s.fl.relocRd } } block false)
  else .next s

/-- FLASH_PROGRAM_FAIL (R239): the granule is programmed again elsewhere, a write-back from its frame; its stripe block
is emptied and retired. -/
def execFlashProgramFail (part : Fin 32) (granule : Nat) (s : State) : Host.Outcome State Fault Refusal :=
  let p := part.val
  let g := granGet s p granule
  match g.next with
  | none => .next s
  | some l =>
    let (s, c) := if g.st = .writing then frameCopy s p granule g.frame else (s, copyGet s l)
    let g := if g.st = .writing then { g with rewritten := false } else g
    let counted := (blockGet s l.block).moving
    let s := copySet s l {}
    let s := blockMod s l.block (fun b => { b with st := 2, moving := true, retiring := true })
    let s := match nextPage s p with
      | none => granSet s p granule { g with next := none, st := if g.st = .writing then .dirty else g.st }
      | some (s, l') => copySet (granSet s p granule { g with next := some l' }) l' c
    .next (emptyBlock (if counted then s else countWl s) l.block true)

/-- Another queued stripe block of the same LUN lies on another plane: one multi-plane ERASE BLOCK serves both (R244). Block
b lies on plane b mod PLANES, as ONFI addresses them (log entry 47). -/
def planePartner (s : State) (k : Nat) : Bool :=
  s.fl.geom.any (fun g => g.group = stripeGroup k && g.target = k / 524288 % 8 && decide (1 < g.planes) &&
    s.fl.blocks.any (fun e => e.2.st = 3 && e.1 / 131072 = k / 131072 && decide (e.1 % g.planes ≠ k % g.planes)))

/-- FLASH_ERASE_DONE (R239, R244): the stripe block is free again, or retired. Which of a LUN's queued blocks is erased
next the spec does not say; one erase of a LUN ends before its next begins. -/
def execFlashEraseDone (block : Nat) (passed : Bool) (s : State) : Host.Outcome State Fault Refusal :=
  let b := blockGet s block
  if b.st ≠ 3 ∨ !ioOn s then .next s
  else
    let l := { block := block, page := 0 }
    let s := issueOnfi s (if planePartner s block then .eraseBlockMultiPlane else .eraseBlock) l
    if passed ∧ !b.retiring then .next (resumeMoves (blockSet s block { erases := b.erases + 1 }))
    else .next (retireBlock s block)

/-- FLASH_CHANNEL_PRUNE (R241): the channel's group leaves service and its stripe blocks leave G_now. -/
def execFlashChannelPrune (chan : Fin 32) (s : State) : Host.Outcome State Fault Refusal :=
  let c := tblGet (fun _ => (0, 0, 0)) s.fl.chans chan.val
  if c.1 = 2 then .next s
  else .next (noteDegraded { s with fl := { s.fl with
    chans := tblSet (fun _ => (0, 0, 0)) (tblSetMany (fun _ => (0, 0, 0)) s.fl.chans ((List.range 4).filterMap (fun q =>
      let k := chan.val / 4 * 4 + q
      if (tblGet (fun _ => (0, 0, 0)) s.fl.chans k).1 = 2 then none else some (k, (0, 0, 0))))) chan.val (2, 0, 0),
    groups := if s.fl.groups.testBit (chan.val / 4) then s.fl.groups ^^^ (1 <<< (chan.val / 4)) else s.fl.groups } })

/-- FL_GRAFT (R239, R245). -/
def execFlGraft (s : State) : Host.Outcome State Fault Refusal := .next (graftFlash s)

/-- FL_CTRL.CLR: the event counters of R245 and R246. -/
def clearFlash (s : State) : State :=
  let s := { s with fl := { s.fl with
    factoryBad := 0, badGrown := 0, relocRet := 0, relocRd := 0, relocWl := 0, eccUncorr := 0, eccRetry := 0 } }
  (List.range 32).foldl (fun s p => partCnt s p (fun c => { c with flHit := 0, flMiss := 0, flWb := 0 })) s
def execFlClear (s : State) : Host.Outcome State Fault Refusal := .next (clearFlash s)

/-- FLASH_MOVE_DONE (R236, R238, R239): the map entry takes the new location. What the codewords of the page it read
showed counts, and those that no retry level reads are poisoned in the new copy. A group that has left service keeps
nothing: the granule stays where it is, and moves anew out of a block that is being emptied. -/
def execFlashMoveDone (part : Fin 32) (moved : MovedGranule) (s : State) : Host.Outcome State Fault Refusal :=
  let p := part.val
  let granule := moved.granule
  let reads := moved.reads
  let g := granGet s p granule
  match g.st, g.next, g.loc with
  | .writing, _, _ => .next s
  | _, some l, some old =>
    if !s.fl.groups.testBit (stripeGroup l.block) then
      .next (moveOn (granSet s p granule { g with next := none }) p granule old)
    else
      let lost := lostCodewords reads
      let c := copyGet s l
      let s := if lost = [] then s
        else copySet s l { c with poison := c.poison ++ lost.flatMap (fun i => (List.range 64).map (fun j => 64 * i + j)) }
      let s := noteCodewords s old p granule reads
      let s := judgeBlock (granSet s p granule { g with loc := some l, next := none }) old.block reads
      .next (moveOn (invalidate s (some old)) p granule l)
  | _, _, _ => .next s

end Sys2Proof.Machine
end

