-- ==== Sys2Proof/Machine/SlhDsa.lean ====
section
/-! DEFINITION. Verification of an SLH-DSA-SHA2-128f signature (FIPS 205), which R67, R341 and R357 name: n = 16, d = 22
layers of height 3, 33 FORS trees of height 6, WOTS+ with w = 16 (log entry 65). -/

namespace Sys2Proof.Machine

/-- An address of FIPS 205: layer, tree, type, and the three words the type gives. -/
structure SlhAdrs where
  layer : Nat := 0
  tree : Nat := 0
  typ : Nat := 0
  pair : Nat := 0
  height : Nat := 0
  index : Nat := 0
deriving DecidableEq, Repr, Inhabited

/-- The 22 bytes of an address as the SHA-2 instances compress it. -/
def SlhAdrs.bytes (a : SlhAdrs) : List Byte :=
  beBytes 1 a.layer ++ beBytes 8 a.tree ++ beBytes 1 a.typ ++ beBytes 4 a.pair ++ beBytes 4 a.height ++ beBytes 4 a.index

/-- F, H and T of the SHA-2 instances with n = 16: a tweaked hash of any number of 16-byte nodes. -/
def slhHash (seed : List Byte) (a : SlhAdrs) (m : List Byte) : List Byte :=
  (digestBytes (sha256 (seed ++ List.replicate 48 0 ++ a.bytes ++ m))).take 16

/-- The first `n` values of `b` bits each of a byte string, most significant first. -/
def slhBase (bs : List Byte) (b n : Nat) : List Nat :=
  (List.range n).map (fun i => beNat bs >>> (8 * bs.length - b * (i + 1)) % 2 ^ b)

/-- Piece `i` of 16 bytes. -/
def slhPiece (bs : List Byte) (i : Nat) : List Byte := sliceBytes bs (16 * i) 16

/-- Climb a Merkle tree from leaf `idx` by the siblings of an authentication path; `base` is the index of its leaf 0. -/
def slhClimb (seed : List Byte) (a : SlhAdrs) (idx : Nat) (auth : List (List Byte)) (leaf : List Byte) : List Byte :=
  (auth.foldl (fun (acc : List Byte × Nat × Nat) sib =>
    let (node, k, t) := acc
    let at_ := { a with height := k + 1, index := t / 2 }
    (slhHash seed at_ (if idx / 2 ^ k % 2 = 0 then node ++ sib else sib ++ node), k + 1, t / 2)) (leaf, 0, a.index)).1

/-- The WOTS+ chain from step `i` for `n` steps. -/
def slhChain (seed : List Byte) (a : SlhAdrs) : Nat → Nat → List Byte → List Byte
  | _, 0, x => x
  | i, n + 1, x => slhChain seed a (i + 1) n (slhHash seed { a with index := i } x)

/-- The WOTS+ public key that a signature of a 16-byte node gives. -/
def slhWots (seed : List Byte) (a : SlhAdrs) (sig m : List Byte) : List Byte :=
  let ms := slhBase m 4 32
  let csum := (ms.map (15 - ·)).foldl (· + ·) 0
  let all := ms ++ slhBase (beBytes 2 (csum * 16)) 4 3
  let ends := ((List.range 35).zip all).flatMap (fun x =>
    slhChain seed { a with typ := 0, height := x.1 } x.2 (15 - x.2) (slhPiece sig x.1))
  slhHash seed { a with typ := 1, height := 0, index := 0 } ends

/-- The root of one layer's tree that its signature of a node gives. -/
def slhXmss (seed : List Byte) (layer tree idx : Nat) (sig m : List Byte) : List Byte :=
  let a : SlhAdrs := { layer := layer, tree := tree }
  let leaf := slhWots seed { a with pair := idx } sig m
  slhClimb seed { a with typ := 2, index := idx } idx ((List.range 3).map (fun k => slhPiece sig (35 + k))) leaf

/-- The hypertree's root: 22 layers of 38 pieces each. -/
def slhHyper (seed : List Byte) (tree leaf : Nat) (sig m : List Byte) : List Byte :=
  ((List.range 22).foldl (fun (acc : List Byte × Nat × Nat) j =>
    let (node, t, l) := acc
    (slhXmss seed j t l (sliceBytes sig (608 * j) 608) node, t / 8, t % 8)) (m, tree, leaf)).1

/-- The FORS public key that a signature gives. -/
def slhFors (seed : List Byte) (tree leaf : Nat) (sig md : List Byte) : List Byte :=
  let a : SlhAdrs := { tree := tree, typ := 3, pair := leaf }
  let roots := ((List.range 33).zip (slhBase md 6 33)).flatMap (fun x =>
    let b := { a with index := x.1 * 64 + x.2 }
    slhClimb seed b x.2 ((List.range 6).map (fun k => slhPiece sig (7 * x.1 + 1 + k))) (slhHash seed b (slhPiece sig (7 * x.1))))
  slhHash seed { a with typ := 4 } roots

/-- MGF1 with SHA-256, two blocks. -/
def slhMgf (x : List Byte) (n : Nat) : List Byte :=
  (digestBytes (sha256 (x ++ beBytes 4 0)) ++ digestBytes (sha256 (x ++ beBytes 4 1))).take n

/-- Pure SLH-DSA-SHA2-128f verification: public key, context string, message, signature. -/
def slhVerify (key ctx msg sig : List Byte) : Bool :=
  let seed := sliceBytes key 0 16
  let root := sliceBytes key 16 16
  let m := [0, BitVec.ofNat 8 ctx.length] ++ ctx ++ msg
  let r := sliceBytes sig 0 16
  let digest := slhMgf (r ++ seed ++ digestBytes (sha256 (r ++ seed ++ root ++ m))) 34
  let tree := beNat (sliceBytes digest 25 8) % 2 ^ 63
  let leaf := beNat (sliceBytes digest 33 1) % 8
  let fors := slhFors seed tree leaf (sliceBytes sig 16 3696) (sliceBytes digest 0 25)
  decide (key.length = 32) && decide (sig.length = 17088) && decide (ctx.length ≤ 255) &&
    slhHyper seed tree leaf (sliceBytes sig 3712 13376) fors == root

end Sys2Proof.Machine
end

