-- ==== Sys2Proof/Machine/ImageFile.lean ====
section
/-! DEFINITION. The topiary image as bytes: header, section table, records, and the checks that need no more than the
image, the owner slots and the image in force (R51 to R70). -/

namespace Sys2Proof.Machine

/-- What IMG_STATUS reports of a failed load: code, table entry, record (R71, R80). -/
structure LoadErr where
  code : Nat
  sect : Nat := 0xF
  record : Nat := 0xFFF
deriving DecidableEq, Repr, Inhabited

/-- Bytes of the SLH-DSA-SHA2-128f signature (R52). -/
def sigLen : Nat := 17088

/-- The header's fields (R53). -/
structure ImgHeader where
  kind : Nat
  target : Nat
  flags : Nat
  count : Nat
  serial : Nat
  total : Nat
  body : Nat
  ownerSlot : Nat
  ownerKey : List Byte
deriving DecidableEq, Repr, Inhabited

def imgHeader (bs : List Byte) : ImgHeader :=
  { kind := fieldAt bs 6 1, target := fieldAt bs 7 1, flags := fieldAt bs 0xD 1, count := fieldAt bs 0xE 2,
    serial := fieldAt bs 0x10 4, total := fieldAt bs 0x14 4, body := fieldAt bs 0x18 4,
    ownerSlot := fieldAt bs 0x1C 1, ownerKey := sliceBytes bs 0x20 32 }

/-- Codes 0x01 to 0x04 in order (R53, R70, R71). -/
def headerFault (bs : List Byte) : Option Nat :=
  let h := imgHeader bs
  let badTarget := if h.kind = 2 then decide (31 < h.target) else decide (h.target ≠ 0xFF)
  if sliceBytes bs 0 4 ≠ [0x54, 0x4F, 0x50, 0x31] then some 1
  else if fieldAt bs 4 2 ≠ 1 ∨ (h.kind ≠ 1 ∧ h.kind ≠ 2) ∨ badTarget ∨ 1 < h.flags ∨ (h.kind = 1 ∧ h.flags ≠ 0) ∨
      3 < h.ownerSlot then some 2
  else if fieldAt bs 8 4 ≠ 0x8472 ∨ fieldAt bs 0xC 1 ≠ 0xA1 then some 3
  else if 10 < h.count ∨ h.body % 16 ≠ 0 ∨ h.body < 64 + 16 * h.count ∨ h.total ≠ h.body + sigLen ∨ 2 ^ 24 < h.total then
    some 4
  else none

/-- The measurement M: SHA-256 of the body (R67). -/
def imgMeasure (bs : List Byte) : Digest := sha256 (sliceBytes bs 0 (imgHeader bs).body)

/-- The 8-byte context "TOPIARY1" (R67). -/
def topiaryContext : List Byte := [0x54, 0x4F, 0x50, 0x49, 0x41, 0x52, 0x59, 0x31]

/-- Codes 0x05 to 0x07: owner slot, signature, serial floor (R67 to R70). -/
def ownerFault (g : ImgState) (bs : List Byte) : Option Nat :=
  let h := imgHeader bs
  let o := g.owners.getD h.ownerSlot {}
  if o.state ≠ 1 ∨ sha256 h.ownerKey ≠ o.digest ∨ (h.kind = 2 ∧ (¬ g.loaded ∨ h.ownerSlot ≠ g.ownerSlot)) then some 5
  else if ¬ slhVerify h.ownerKey topiaryContext (digestBytes (imgMeasure bs)) (sliceBytes bs h.body sigLen) then
    some 6
  else if h.serial < o.floor then some 7
  else none

/-! ### The section table (R52, R54, R55) -/

/-- A section table entry. -/
structure Section where
  typ : Nat
  version : Nat
  off : Nat
  len : Nat
  count : Nat
  recSize : Nat
deriving DecidableEq, Repr, Inhabited

def sectionAt (bs : List Byte) (i : Nat) : Section :=
  let a := 64 + 16 * i
  { typ := fieldAt bs a 2, version := fieldAt bs (a + 2) 2, off := fieldAt bs (a + 4) 4, len := fieldAt bs (a + 8) 4,
    count := fieldAt bs (a + 12) 2, recSize := fieldAt bs (a + 14) 2 }

def sectionsOf (bs : List Byte) : List Section := (List.range (imgHeader bs).count).map (sectionAt bs)

/-- Record size of a type, 0 for a variable one; and its records at most (R55). -/
def typeSize (t : Nat) : Nat :=
  match t with
  | 1 => 4 | 3 => 16 | 4 => 16 | 5 => 40 | 6 => 8 | 7 => 8 | 8 => 16 | 10 => 16 | _ => 0
def typeMost (t : Nat) : Nat :=
  match t with
  | 1 => 128 | 2 => 64 | 3 => 32 | 4 => 1024 | 5 => 1 | 6 => 4095 | 7 => 4095 | 8 => 4095 | 9 => 512 | 10 => 1 | _ => 0

/-- Length of a variable record at an offset, from its first words (R57, R64). -/
def varLen (bs : List Byte) (t off : Nat) : Nat :=
  if t = 2 then 4 + 4 * ceilDiv (fieldAt bs off 1) 4 else 8 + 4 * bitsOf (fieldAt bs (off + 4) 4) 0 15

/-- `n` variable records from an offset end exactly at `stop`. -/
def fillsTo (bs : List Byte) (t stop : Nat) : Nat → Nat → Bool
  | 0, off => off = stop
  | n + 1, off =>
    if stop < off + (if t = 2 then 4 else 8) then false
    else fillsTo bs t stop n (off + varLen bs t off)

/-- The first multiple of 16 from `n` up. -/
def pad16 (n : Nat) : Nat := (n + 15) / 16 * 16

/-- A gap from `a` to `b` of at most 15 zero bytes (R51, R52). -/
def gapOk (bs : List Byte) (a b : Nat) : Bool :=
  decide (a ≤ b) && decide (b ≤ a + 15) && (sliceBytes bs a (b - a)).all (· == 0)

/-- A fault of one entry, or between it and the one before: `prev` the last TYPE, `pos` the end of the last section. The
order of the tests within one entry, 0x09, 0x08, 0x14, is log entry 26's choice. -/
def entryFault (bs : List Byte) (h : ImgHeader) (prev pos : Nat) (x : Section) : Option Nat :=
  if x.typ = 0 ∨ 10 < x.typ ∨ x.version ≠ 1 then some 9
  else if x.typ ≤ prev ∨ typeMost x.typ < x.count ∨ (x.len = 0) ≠ (x.count = 0) then some 8
  else if x.len = 0 then (if x.off ≠ 0 ∨ x.recSize ≠ 0 then some 8 else none)
  else if x.recSize ≠ typeSize x.typ ∨ x.off % 16 ≠ 0 ∨ ¬ gapOk bs pos x.off ∨ h.body < x.off + x.len then some 8
  else if typeSize x.typ ≠ 0 ∧ x.len ≠ x.count * typeSize x.typ then some 8
  else if typeSize x.typ = 0 ∧ ¬ fillsTo bs x.typ (x.off + x.len) x.count x.off then some 8
  else if h.kind = 2 ∧ (x.typ = 5 ∨ x.typ = 10) then some 0x14
  else none

/-- The table, entry by entry, then the gap before BODY_LEN (R51 to R55, R80); a fault of that gap names no section (log
entry 26). -/
def tableWalk (bs : List Byte) (h : ImgHeader) (prev pos i : Nat) : List Section → Option LoadErr
  | [] => if gapOk bs pos h.body then none else some { code := 8 }
  | x :: xs =>
    match entryFault bs h prev pos x with
    | some c => some { code := c, sect := i }
    | none => tableWalk bs h x.typ (if x.len = 0 then pos else x.off + x.len) (i + 1) xs

/-- Codes 0x08, 0x09 and 0x14 of header and table (R70): the header's reserved bytes first. -/
def tableFault (bs : List Byte) : Option LoadErr :=
  let h := imgHeader bs
  if fieldAt bs 0x1D 3 ≠ 0 then some { code := 8 }
  else tableWalk bs h 0 (64 + 16 * h.count) 0 (sectionsOf bs)

/-! ### Records (R56 to R65) -/

/-- Records of one section, in order; `f` reads one at an offset, given those before it, and gives the next offset. -/
def readRecords {α : Type} (f : List α → Nat → Except Nat (α × Nat)) (sect : Nat) :
    Nat → Nat → List α → Nat → Except LoadErr (List α)
  | 0, _, acc, _ => .ok acc
  | n + 1, i, acc, off =>
    match f acc off with
    | .error c => .error { code := c, sect := sect, record := i }
    | .ok (x, off') => readRecords f sect n (i + 1) (acc ++ [x]) off'

/-- A record's outcome: BAD_RECORD, SCOPE where it lies outside the target, or itself. -/
def judge {α : Type} (bad scope : Bool) (x : α) (next : Nat) : Except Nat (α × Nat) :=
  if bad then .error 0x0A else if scope then .error 0x14 else .ok (x, next)

/-- A partition image reaches outside its target (R55): SCOPE, and not for want of a PARTITIONS record (log entry 26). -/
def outside (h : ImgHeader) (part : Nat) : Bool := decide (h.kind = 2) && decide (part ≠ h.target)

/-- The fields of a HEDGES record (R57). -/
def hedgeAt (bs : List Byte) (off : Nat) : HedgeRec :=
  let w := fieldAt bs off 4
  let n := bitsOf w 0 8
  { hedge := bitsOf w 26 6, mode := bitsOf w 23 3,
    members := ((sliceBytes bs (off + 4) (4 * ceilDiv n 4)).take n).map (fun b => (b.toNat.testBit 7, b.toNat % 128)) }

/-- The HEDGES records of a section as they stand, whatever a later check makes of them. -/
def rawHedges (bs : List Byte) : Nat → Nat → List HedgeRec
  | 0, _ => []
  | n + 1, off => hedgeAt bs off :: rawHedges bs n (off + varLen bs 2 off)

/-- The slices that a partition image places in its target: those beneath the ROOT of its PARTITIONS record whose PART is
the target (R55, R56). -/
def placedSlices (bs : List Byte) (target : Nat) (ss : List Section) : List Nat :=
  let l : Layout := { hedges := (ss.filter (fun x => x.typ = 2)).flatMap (fun x => rawHedges bs x.count x.off) }
  (ss.filter (fun x => x.typ = 3)).flatMap (fun x =>
    (List.range x.count).flatMap (fun i =>
      let w := fieldAt bs (x.off + 16 * i) 4
      if bitsOf w 27 5 = target then hedgeSlices l (bitsOf w 20 6) else []))

def readSlice (bs : List Byte) (h : ImgHeader) (placed : List Nat) (acc : List (Nat × Nat)) (off : Nat) :
    Except Nat ((Nat × Nat) × Nat) :=
  let w := fieldAt bs off 4
  let sl := bitsOf w 24 8
  judge (decide (127 < sl) || decide (bitsOf w 10 14 ≠ 0) || decide (512 < bitsOf w 0 10) || acc.any (·.1 == sl))
    (decide (h.kind = 2) && !placed.contains sl) (sl, bitsOf w 0 10) (off + 4)

def readHedge (bs : List Byte) (acc : List HedgeRec) (off : Nat) : Except Nat (HedgeRec × Nat) :=
  let w := fieldAt bs off 4
  let n := bitsOf w 0 8
  let body := sliceBytes bs (off + 4) (4 * ceilDiv n 4)
  let r := hedgeAt bs off
  let ms := r.members
  judge (decide (4 < r.mode) || decide (bitsOf w 8 15 ≠ 0) || decide (n = 0 ∨ 128 < n) || acc.any (·.hedge == r.hedge) ||
    ms.any (fun m => m.1 && decide (63 < m.2)) || (body.drop n).any (· != 0)) false r (off + varLen bs 2 off)

def readPart (bs : List Byte) (h : ImgHeader) (acc : List PartRec) (off : Nat) : Except Nat (PartRec × Nat) :=
  let w := fun i => fieldAt bs (off + 4 * i) 4
  let r : PartRec :=
    { part := bitsOf (w 0) 27 5, conf := (w 0).testBit 26, root := bitsOf (w 0) 20 6, regions := bitsOf (w 0) 8 8,
      outdig := (w 1).testBit 0, flashCache := bitsOf (w 2) 0 19 }
  judge (acc.any (·.part == r.part) || decide (bitsOf (w 0) 16 4 ≠ 0) || decide (bitsOf (w 0) 0 8 ≠ 0) ||
    decide (1 < w 1) || decide (2 ^ 19 ≤ w 2) || decide (w 3 ≠ 0) || decide (r.regions = 0)) (outside h r.part) r (off + 16)

def readRegion (bs : List Byte) (h : ImgHeader) (parts : List PartRec) (acc : List RegionRec) (off : Nat) :
    Except Nat (RegionRec × Nat) :=
  let w := fun i => fieldAt bs (off + 4 * i) 4
  let r : RegionRec :=
    { part := bitsOf (w 0) 27 5, kind := bitsOf (w 0) 25 2, flash := (w 0).testBit 24, gib := (w 0).testBit 23,
      twinned := (w 0).testBit 22, index := bitsOf (w 0) 0 8, start := bitsOf (w 1) 0 26, size := bitsOf (w 2) 0 26,
      twin := bitsOf (w 3) 0 12 }
  let late := match acc.getLast? with
    | none => false
    | some y => decide (r.part * 256 + r.index ≤ y.part * 256 + y.index)
  let noPart := match parts.find? (·.part == r.part) with
    | none => !outside h r.part
    | some p => decide (p.regions ≤ r.index)
  judge (late || noPart || decide (r.kind = 3) || decide (bitsOf (w 0) 8 14 ≠ 0) || decide (2 ^ 26 ≤ w 1) ||
    decide (2 ^ 26 ≤ w 2) || decide (2 ^ 12 ≤ w 3) || decide (r.size = 0) || (!r.twinned && decide (r.twin ≠ 0)))
    (outside h r.part) r (off + 16)

def readRing (bs : List Byte) (off : Nat) : Except Nat (RingRec × Nat) :=
  let w := fun i => fieldAt bs (off + 4 * i) 4
  let r : RingRec :=
    { dateline := bitsOf (w 0) 24 4, portEn := bitsOf (w 0) 16 8, node := bitsOf (w 0) 0 12, colLen := bitsOf (w 1) 8 7,
      rowLen := bitsOf (w 1) 0 7, neighbours := (List.range 8).map (fun i => bitsOf (w (i + 2)) 0 12) }
  judge (decide (bitsOf (w 0) 28 4 ≠ 0) || decide (bitsOf (w 0) 12 4 ≠ 0) || decide (bitsOf (w 1) 15 17 ≠ 0) ||
    (w 1).testBit 7 || decide (r.rowLen = 0 ∨ 64 < r.rowLen ∨ r.colLen = 0 ∨ 64 < r.colLen) ||
    (List.range 8).any (fun i => decide (2 ^ 12 ≤ w (i + 2)))) false r (off + 40)

/-- Key and partition of word 0 of ALLOTMENTS, GATES and POLICERS; `top` bits above [20:16] are the type's own (R61). -/
def flowWord (w : Nat) : Nat × Nat := (flowNat (bitsOf w 16 5) (w.testBit 15) (bitsOf w 0 12), bitsOf w 16 5)
def flowWordBad (w : Nat) (h : ImgHeader) (parts : List PartRec) : Bool :=
  decide (bitsOf w 12 3 ≠ 0) || (!outside h (bitsOf w 16 5) && !parts.any (·.part == bitsOf w 16 5))

def readAllot (bs : List Byte) (h : ImgHeader) (parts : List PartRec) (acc : List AllotRec) (off : Nat) :
    Except Nat (AllotRec × Nat) :=
  let w := fieldAt bs off 4
  let v := fieldAt bs (off + 4) 4
  let (k, p) := flowWord w
  judge (decide (bitsOf w 21 11 ≠ 0) || flowWordBad w h parts || acc.any (·.key == k)) (outside h p)
    { key := k, allot := bitsOf v 0 16, burst := bitsOf v 16 16 } (off + 8)

def readGate (bs : List Byte) (h : ImgHeader) (parts : List PartRec) (_acc : List GateRec) (off : Nat) :
    Except Nat (GateRec × Nat) :=
  let w := fieldAt bs off 4
  let v := fieldAt bs (off + 4) 4
  let (k, p) := flowWord w
  let closes := bitsOf v 7 7
  judge (decide (bitsOf w 21 11 ≠ 0) || flowWordBad w h parts || decide (bitsOf v 14 18 ≠ 0) || v.testBit 6 ||
    decide (closes = 0 ∨ 64 < closes)) (outside h p) { key := k, opens := bitsOf v 0 6, closes := closes } (off + 8)

def readPol (bs : List Byte) (h : ImgHeader) (parts : List PartRec) (acc : List PolRec) (off : Nat) :
    Except Nat (PolRec × Nat) :=
  let w := fun i => fieldAt bs (off + 4 * i) 4
  let (k, p) := flowWord (w 0)
  judge (decide (bitsOf (w 0) 23 9 ≠ 0) || flowWordBad (w 0) h parts || decide (w 3 ≠ 0) || acc.any (·.key == k)) (outside h p)
    { key := k, drop := (w 0).testBit 22, aware := (w 0).testBit 21, pir := bitsOf (w 1) 16 16, cir := bitsOf (w 1) 0 16,
      pbs := bitsOf (w 2) 16 16, cbs := bitsOf (w 2) 0 16 } (off + 16)

def readProg (bs : List Byte) (h : ImgHeader) (parts : List PartRec) (acc : List ProgRec) (off : Nat) :
    Except Nat (ProgRec × Nat) :=
  let w := fieldAt bs off 4
  let v := fieldAt bs (off + 4) 4
  let n := bitsOf v 0 15
  let part := bitsOf w 27 5
  let slot := bitsOf w 16 4
  judge (decide (bitsOf w 20 7 ≠ 0) || decide (bitsOf w 0 16 ≠ 0) || decide (2 ^ 15 ≤ v) || decide (n = 0 ∨ 16384 < n) ||
      (!outside h part && !parts.any (·.part == part)) || acc.any (fun r => r.part == part && r.slot == slot)) (outside h part)
    { part := part, slot := slot, words := (List.range n).map (fun i => BitVec.ofNat 32 (fieldAt bs (off + 8 + 4 * i) 4)) }
    (off + varLen bs 9 off)

def readSpares (bs : List Byte) (off : Nat) : Except Nat (SparesRec × Nat) :=
  let w := fun i => fieldAt bs (off + 4 * i) 4
  judge (decide (2 ^ 7 ≤ w 0) || decide (2 ^ 16 ≤ w 1) || decide (2 ^ 13 ≤ w 2) || decide (w 3 ≠ 0)) false
    { auto := w 0, ceLimit := w 1, twinEn := (w 2).testBit 12, twinPeer := bitsOf (w 2) 0 12 } (off + 16)

/-- The records of an image as they stand in it: SLICES in record order. -/
structure ImgRecords where
  slices : List (Nat × Nat) := []
  hedges : List HedgeRec := []
  parts : List PartRec := []
  regions : List RegionRec := []
  ring : List RingRec := []
  allots : List AllotRec := []
  gates : List GateRec := []
  pols : List PolRec := []
  progs : List ProgRec := []
  spares : List SparesRec := []
deriving DecidableEq, Repr, Inhabited

/-- Read one section into the records read so far (R70: in table order). -/
def readSection (bs : List Byte) (h : ImgHeader) (i : Nat) (x : Section) (r : ImgRecords) : Except LoadErr ImgRecords :=
  match x.typ with
  | 1 => (readRecords (readSlice bs h (placedSlices bs h.target (sectionsOf bs))) i x.count 0 [] x.off).map (fun l => { r with slices := l })
  | 2 => (readRecords (readHedge bs) i x.count 0 [] x.off).map (fun l => { r with hedges := l })
  | 3 => (readRecords (readPart bs h) i x.count 0 [] x.off).map (fun l => { r with parts := l })
  | 4 => (readRecords (readRegion bs h r.parts) i x.count 0 [] x.off).map (fun l => { r with regions := l })
  | 5 => (readRecords (fun _ => readRing bs) i x.count 0 [] x.off).map (fun l => { r with ring := l })
  | 6 => (readRecords (readAllot bs h r.parts) i x.count 0 [] x.off).map (fun l => { r with allots := l })
  | 7 => (readRecords (readGate bs h r.parts) i x.count 0 [] x.off).map (fun l => { r with gates := l })
  | 8 => (readRecords (readPol bs h r.parts) i x.count 0 [] x.off).map (fun l => { r with pols := l })
  | 9 => (readRecords (readProg bs h r.parts) i x.count 0 [] x.off).map (fun l => { r with progs := l })
  | _ => (readRecords (fun _ => readSpares bs) i x.count 0 [] x.off).map (fun l => { r with spares := l })

/-- Every section's records. -/
def readSections (bs : List Byte) (h : ImgHeader) : Nat → List Section → ImgRecords → Except LoadErr ImgRecords
  | _, [], r => .ok r
  | i, x :: xs, r =>
    match readSection bs h i x r with
    | .error e => .error e
    | .ok r' => readSections bs h (i + 1) xs r'

/-- Everything of R70 but the cross-section rules and the last check. -/
def readImage (g : ImgState) (bs : List Byte) : Except LoadErr (ImgHeader × ImgRecords) :=
  match headerFault bs with
  | some c => .error { code := c }
  | none => match ownerFault g bs with
    | some c => .error { code := c }
    | none => match tableFault bs with
      | some e => .error e
      | none => match readSections bs (imgHeader bs) 0 (sectionsOf bs) {} with
        | .error e => .error e
        | .ok r => .ok (imgHeader bs, r)

end Sys2Proof.Machine
end

