-- ==== Sys2Proof/Machine/ImageRules.lean ====
section
/-! DEFINITION. The cross-section rules of an image (R19, R27, R33 to R35, R55, R60 to R65, R70, R230), judged against the
device as it will stand, and the structure the image lays down (R55, R66, R76). -/

namespace Sys2Proof.Machine

/-! ### The structure after the image -/

/-- Hedge descriptors that stand in the tree of some partition other than `t`. -/
def heldByOthers (l : Layout) (t : Nat) : List HedgeRec :=
  l.hedges.filter (fun r => l.parts.any (fun p => p.part != t && (p.root == r.hedge || under l hedgeFuel p.root r.hedge)))
where
  /-- Hedge `x` lies beneath hedge `h`. -/
  under (l : Layout) : Nat → Nat → Nat → Bool
    | 0, _, _ => false
    | fuel + 1, h, x => match hedgeRec l h with
      | none => false
      | some r => r.members.any (fun m => m.1 && (m.2 == x || under l fuel m.2 x))

/-- A record of a flow of partition `t`. -/
def ofPart (t key : Nat) : Bool := flowPart key == t

/-- Regions in ascending (PART, INDEX): record order (R59). -/
def sortRegions (rs : List RegionRec) : List RegionRec :=
  sortBy (fun a b => decide (a.part * 256 + a.index ≤ b.part * 256 + b.index)) rs

/-- Slices beneath the roots of the image's own PARTITIONS records. -/
def imageSlices (r : ImgRecords) : List Nat :=
  let l : Layout := { hedges := r.hedges }
  r.parts.flatMap (fun p => hedgeSlices l p.root)

/-- The layout that stands once the image is applied to `old` (R55, R56, R66, R74). R56 speaks of the slices that a
partition image places in its target; one that leaves it, and has no record, has a reserve of 0 (DESIGN CHOICE, log
entry 26). -/
def mergeImage (old : Layout) (h : ImgHeader) (r : ImgRecords) : Layout :=
  let sl := r.slices.foldl (fun acc x => tblPut acc x.1 x.2) []
  if h.kind = 1 then
    { slices := sl, hedges := r.hedges, parts := r.parts, regions := r.regions, ring := r.ring.head?, allots := r.allots,
      gates := r.gates, pols := r.pols, progs := r.progs, spares := r.spares.head? }
  else
    let t := h.target
    let mine := partSlices old t ++ imageSlices r
    { slices := r.slices.foldl (fun acc x => tblPut acc x.1 x.2) (old.slices.filter (fun x => !mine.contains x.1))
      hedges := r.hedges ++ heldByOthers old t
      parts := old.parts.filter (fun p => p.part != t) ++ r.parts
      regions := sortRegions (old.regions.filter (fun x => x.part != t) ++ r.regions)
      ring := old.ring
      allots := old.allots.filter (fun x => !ofPart t x.key) ++ r.allots
      gates := old.gates.filter (fun x => !ofPart t x.key) ++ r.gates
      pols := old.pols.filter (fun x => !ofPart t x.key) ++ r.pols
      progs := old.progs.filter (fun x => x.part != t) ++ r.progs
      spares := old.spares }

/-! ### What a rule finds -/

/-- Where a rule broke: section type and record, or the section alone. -/
abbrev Found := Option (Nat × Nat)

def noRecord : Nat := 0xFFF

/-- The first position that meets a test. -/
def firstAt {α : Type} (l : List α) (f : Nat → α → Bool) : Option Nat :=
  (List.range l.length).find? (fun i => match l[i]? with
    | none => false
    | some x => f i x)

def inSection (t : Nat) (i : Option Nat) : Found := i.map (fun n => (t, n))

/-- The first of several findings. -/
def firstOf : List (Unit → Found) → Found
  | [] => none
  | f :: rest => match f () with
    | some x => some x
    | none => firstOf rest

/-! ### R19 and R27 -/

/-- A chain of hedges as long as the fuel hangs below `h`: the links return to a hedge (R19). -/
def chainBelow (rs : List HedgeRec) : Nat → Nat → Bool
  | 0, _ => true
  | fuel + 1, h => match rs.find? (fun r => r.hedge == h) with
    | none => false
    | some r => r.members.any (fun m => m.1 && chainBelow rs fuel m.2)

/-- A HEDGES record breaks R19: a member that exists nowhere, a second parent, a ring of links, unequal members. -/
def hedgeBroken (l : Layout) (r : ImgRecords) (others : List HedgeRec) (i : Nat) (x : HedgeRec) : Bool :=
  let before := (r.hedges.take i).flatMap (·.members)
  let missing := x.members.any (fun m => m.1 && !(r.hedges ++ others).any (fun y => y.hedge == m.2))
  let twice := x.members.any (fun m => before.contains m) ||
    (List.range x.members.length).any (fun k => (x.members.take k).contains (x.members.getD k (false, 0)))
  missing || twice || chainBelow r.hedges hedgeFuel x.hedge ||
    (decide (x.mode ≠ 0) && x.members.any (fun m => memberCap l hedgeFuel m != memberCap l hedgeFuel (x.members.getD 0 m)))

/-- HEDGE_RULE: R19 record by record, then the 64 descriptors of every partition together (R55). -/
def hedgeRule (l : Layout) (r : ImgRecords) (others : List HedgeRec) : Found :=
  firstOf
    [fun _ => inSection 2 (firstAt r.hedges (hedgeBroken l r others)),
     fun _ => if 64 < r.hedges.length + others.length then some (2, noRecord) else none]

/-- A hedge of the image that is a member of none of its hedges. -/
def isRoot (r : ImgRecords) (h : Nat) : Bool :=
  r.hedges.any (fun x => x.hedge == h) && !r.hedges.any (fun x => x.members.contains (true, h))

/-- ROOT is no root hedge, serves two partitions, or a root hedge serves none (R19, R27). -/
def partitionRule (r : ImgRecords) : Found :=
  firstOf
    [fun _ => inSection 3 (firstAt r.parts (fun i p => !isRoot r p.root || (r.parts.take i).any (fun q => q.root == p.root))),
     fun _ => inSection 2 (firstAt r.hedges (fun _ x => isRoot r x.hedge && !r.parts.any (fun p => p.root == x.hedge)))]

/-! ### R33 to R35 -/

/-- Units below the near window (R33, R254). -/
def unitsBelowNear : Nat := nearBase / 2097152

/-- A REGIONS record that breaks R32 or a row of R33 about one region. -/
def regionBroken (r : ImgRecords) (i : Nat) (x : RegionRec) : Bool :=
  (x.gib && decide (x.start % 512 ≠ 0 ∨ x.size % 512 ≠ 0)) || decide (unitsBelowNear < x.start + x.size) ||
    (x.flash && decide (x.kind ≠ 2)) ||
    (r.regions.take i).any (fun y => y.part == x.part && decide (x.start < y.start + y.size ∧ y.start < x.start + x.size))

/-- Sizes of a partition's regions that meet a test, in 2 MiB units. -/
def regionUnits (l : Layout) (p : Nat) (f : RegionRec → Bool) : Nat :=
  sumNat (((regionsOf l p).filter f).map (·.size))

/-- FLASH_CACHE as R58 and R230 allow it: cache frames of 64 MiB at least, 2^24 at most. -/
def cacheBroken (l : Layout) (p : PartRec) : Bool :=
  if regionUnits l p.part (·.flash) = 0 then decide (p.flashCache ≠ 0)
  else
    let map := 8 * granuleCount l p.part
    let room := p.flashCache * 2097152
    let frames := (room - map) / 65536
    decide (p.flashCache < 32 ∨ room < map ∨ frames < 1024 ∨ 2 ^ 24 < frames)

/-- Bytes below hedge address `a` that an interleaved hedge of `m` members lays on member `i` (R20). -/
def laidBelow (g m i a : Nat) : Nat := a / (g * m) * g + min g (a % (g * m) - i * g)

/-- Bytes that addresses `a` to `b - 1` of a member lay on each slice (R20). -/
def sharesOn (l : Layout) : Nat → Bool × Nat → Nat → Nat → List (Nat × Nat)
  | _, (false, x), a, b => [(x, b - a)]
  | 0, (true, _), _, _ => []
  | fuel + 1, (true, h), a, b =>
    match hedgeRec l h with
    | none => []
    | some r =>
      let g := modeGranule r.mode
      let m := r.members.length
      if g = 0 then
        (r.members.foldl (fun (acc : Nat × List (Nat × Nat)) x =>
          let c := 2097152 * memberCap l fuel x
          let lo := max a acc.1
          let hi := min b (acc.1 + c)
          (acc.1 + c, if lo < hi then acc.2 ++ sharesOn l fuel x (lo - acc.1) (hi - acc.1) else acc.2)) (0, [])).2
      else
        ((List.range m).zip r.members).flatMap (fun x =>
          let lo := laidBelow g m x.1 a
          let hi := laidBelow g m x.1 b
          if lo < hi then sharesOn l fuel x.2 lo hi else [])

/-- One more page with these shares; pages alike that follow each other are counted together. -/
def addPage (acc : List (List (Nat × Nat) × Nat)) (x : List (Nat × Nat)) : List (List (Nat × Nat) × Nat) :=
  match acc with
  | [] => [(x, 1)]
  | (y, n) :: rest => if y = x then (y, n + 1) :: rest else (x, 1) :: acc

/-- The hedge pages of a member, by what each lays on the slices. A concatenation's pages are its members' pages, whose
capacities are whole units (R20). -/
def pageRuns (l : Layout) : Nat → Bool × Nat → List (List (Nat × Nat) × Nat)
  | fuel, (false, x) => [([(x, 2097152)], memberCap l fuel (false, x))]
  | 0, (true, _) => []
  | fuel + 1, (true, h) =>
    match hedgeRec l h with
    | none => []
    | some r =>
      if modeGranule r.mode = 0 then r.members.flatMap (pageRuns l fuel)
      else (List.range (hedgeCap l h)).foldl (fun acc k =>
        addPage acc (sharesOn l hedgeFuel (true, h) (k * 2097152) ((k + 1) * 2097152))) []

/-- How many pages lay each number of bytes on a slice. -/
def pageTally (runs : List (List (Nat × Nat) × Nat)) (sl : Nat) : Tbl Nat :=
  runs.foldl (fun acc x => match x.1.find? (fun y => y.1 == sl) with
    | none => acc
    | some y => tblMod (fun _ => 0) acc y.2 (· + x.2)) []

/-- The sum over the `n` pages of a tally that lay the most bytes. -/
def worstBytes (tally : Tbl Nat) (n : Nat) : Nat :=
  (tally.reverse.foldl (fun (acc : Nat × Nat) e =>
    let k := min acc.1 e.2
    (acc.1 - k, acc.2 + k * e.1)) (n, 0)).2

/-- The reserve R35 asks of a slice, in 2 MiB units, for the pages of its partition. -/
def reserveNeeded (l : Layout) (p : PartRec) (runs : List (List (Nat × Nat) × Nat)) (sl : Nat) : Nat :=
  let tally := pageTally runs sl
  let n := regionUnits l p.part regionCoherent
  let nt := regionUnits l p.part (fun r => regionCoherent r && r.twinned)
  let units := regionUnits l p.part (fun _ => true)
  let s := (hedgeSlices l p.root).length
  ceilDiv (128 * worstBytes tally n + worstBytes tally nt) (512 * 2097152) + ceilDiv (32 * ceilDiv units s) 2097152 + 1

/-- Some slice of a partition keeps less in reserve than R35 asks. -/
def reserveShort (l : Layout) (p : PartRec) : Bool :=
  let runs := pageRuns l hedgeFuel (true, p.root)
  (hedgeSlices l p.root).any (fun sl => decide (reserveOf l sl < reserveNeeded l p runs sl))

/-- REGION_RULE (R71): R32, R33 but for its last row, R58, R230, R34 and R35, over the partitions of the image. -/
def regionRule (l : Layout) (r : ImgRecords) (usable : Option Nat) : Found :=
  let crowded := fun (p : PartRec) => hedgeCap l p.root < regionUnits l p.part (fun x => !x.flash) + p.flashCache
  let flash := sumNat ((l.regions.filter (·.flash)).map (·.size))
  firstOf
    [fun _ => inSection 4 (firstAt r.regions (regionBroken r)),
     fun _ => inSection 3 (firstAt r.parts (fun _ p => decide ((regionsOf l p.part).length < p.regions))),
     fun _ => inSection 3 (firstAt r.parts (fun _ p => cacheBroken l p)),
     fun _ => if r.parts.any crowded ∨ 1024 < l.regions.length then some (4, noRecord) else none,
     fun _ => match usable with
      | none => none
      | some u => if u < flash then some (4, noRecord) else none,
     fun _ => if r.parts.any (reserveShort l) then some (1, noRecord) else none]

/-- DATA and SHARED regions of the device: at most 64 GiB (R33). -/
def coherentRule (l : Layout) : Found :=
  if 32768 < sumNat ((l.regions.filter regionCoherent).map (·.size)) then some (4, noRecord) else none

/-! ### R60 to R65 -/

def ringRule (r : ImgRecords) : Found :=
  match r.ring with
  | [] => none
  | x :: _ =>
    let on := fun i => x.portEn.testBit i
    let column := fun i => decide (i % 4 / 2 = 1)
    if (List.range 8).any (fun i =>
        (on i && ((!column i && decide (x.rowLen = 1)) || (column i && decide (x.colLen = 1)) ||
          x.neighbours.getD i 0 == x.node)) || (!on i && x.neighbours.getD i 0 != 0)) then some (5, 0) else none

/-- Windows of one requester that a GATES record must not meet or exceed (R62). -/
def gateBroken (l : Layout) (r : ImgRecords) (i : Nat) (x : GateRec) : Bool :=
  let same := (r.gates.take i).filter (fun y => y.key == x.key)
  (allotOf l x.key).isNone || decide (x.closes ≤ x.opens) || decide (4 ≤ same.length) ||
    same.any (fun y => decide (x.opens < y.closes ∧ y.opens < x.closes))

def allotmentRule (l : Layout) (r : ImgRecords) : Found :=
  let sum := fun host => sumNat ((l.allots.filter (fun x => flowHost x.key == host)).map (·.allot))
  firstOf
    [fun _ => if 25000 < sum false ∨ 6250 < sum true then some (6, noRecord) else none,
     fun _ => inSection 7 (firstAt r.gates (gateBroken l r))]

def policerRule (r : ImgRecords) : Found :=
  inSection 8 (firstAt r.pols (fun _ x => decide (x.cir = 0 ∨ x.pir < x.cir ∨ x.cbs = 0 ∨ x.pbs = 0)))

/-- Words of the programs of the partitions that have an engine in a core, slices 2c and 2c + 1 (R64). -/
def coreWords (l : Layout) (owner : Nat → Option Nat) (c : Nat) : Nat :=
  let ps := [owner (2 * c), owner (2 * c + 1)].filterMap id
  sumNat ((l.progs.filter (fun x => ps.contains x.part)).map (fun x => x.words.length))

def programRule (l : Layout) (owner : Nat → Option Nat) : Found :=
  if (List.range 64).any (fun c => decide (16384 < coreWords l owner c)) then some (9, noRecord) else none

/-- R65: TWIN_PEER, and the twin of every twinned region. -/
def spareRule (l : Layout) (r : ImgRecords) : Found :=
  let node := l.ring.map (·.node)
  let bad := match r.spares with
    | [] => false
    | x :: _ => if x.twinEn then decide (node = some x.twinPeer) else decide (x.twinPeer ≠ 0)
  if bad then some (10, 0)
  else inSection 4 (firstAt r.regions (fun _ x => x.twinned && (match l.spares with
    | none => true
    | some y => !y.twinEn || y.twinPeer != x.twin)))

/-- RESOURCE (R55, R71): a descriptor, a member hedge or a member slice that another partition holds. -/
def resourceRule (old : Layout) (h : ImgHeader) (r : ImgRecords) (others : List HedgeRec) : Found :=
  if h.kind = 1 then none
  else inSection 2 (firstAt r.hedges (fun _ x =>
    others.any (fun y => y.hedge == x.hedge) ||
    x.members.any (fun m =>
      if m.1 then others.any (fun y => y.hedge == m.2) && !r.hedges.any (fun y => y.hedge == m.2)
      else match sliceOwner old m.2 with
        | none => false
        | some p => p != h.target)))

/-! ### The whole order -/

/-- The table entry of a section type; 0xF without one (R80). -/
def entryOf (ss : List Section) (t : Nat) : Nat := match firstAt ss (fun _ x => x.typ == t) with
  | none => 0xF
  | some i => i

/-- The first rule that finds something, as the error it gives. -/
def firstError (ss : List Section) : List (Nat × (Unit → Found)) → Option LoadErr
  | [] => none
  | (c, f) :: rest => match f () with
    | some (t, n) => some { code := c, sect := entryOf ss t, record := n }
    | none => firstError ss rest

/-- The cross-section rules in ascending code order (R70). -/
def crossFault (old : Layout) (usable : Option Nat) (ss : List Section) (h : ImgHeader) (r : ImgRecords) : Option LoadErr :=
  let l := mergeImage old h r
  let others := if h.kind = 1 then [] else heldByOthers old h.target
  let owner := fun sl =>
    if h.kind = 2 ∧ (imageSlices r).contains sl then some h.target
    else if h.kind = 2 then (match sliceOwner old sl with
      | none => none
      | some p => if p = h.target then none else some p)
    else sliceOwner l sl
  let found : List (Nat × (Unit → Found)) :=
    [(0x0B, fun _ => hedgeRule l r others), (0x0C, fun _ => partitionRule r),
     (0x0D, fun _ => regionRule l r usable), (0x0E, fun _ => coherentRule l), (0x0F, fun _ => ringRule r),
     (0x10, fun _ => allotmentRule l r), (0x11, fun _ => policerRule r), (0x12, fun _ => programRule l owner),
     (0x13, fun _ => spareRule l r), (0x15, fun _ => resourceRule old h r others)]
  firstError ss found

/-- R70 whole but for its last check: the image, or what it fails with. `usable` is the flash capacity, none before
discovery. -/
def checkImage (g : ImgState) (usable : Option Nat) (bs : List Byte) : Except LoadErr Image :=
  match readImage g bs with
  | .error e => .error e
  | .ok (h, r) =>
    match crossFault g.layout usable (sectionsOf bs) h r with
    | some e => .error e
    | none => .ok
      { partial_ := decide (h.kind = 2), target := h.target, amend := h.flags.testBit 0, serial := h.serial,
        ownerSlot := h.ownerSlot, digest := imgMeasure bs, layout := mergeImage g.layout h r }

end Sys2Proof.Machine
end

