-- ==== Sys2Proof/Machine/Fec.lean ====
section
/-! DEFINITION. The FEC block on the lanes: its 10,280-bit message, the RS(544,514) code over GF(2^10), the interleave of
its two codewords and the striping over lanes (R115, R116). The code is that of IEEE 802.3 Clause 91, log entry 65. -/

namespace Sys2Proof.Machine

/-! ### GF(2^10), by x^10 + x^3 + 1 -/

/-- Product of two field elements, by the bits of the second from `n` − 1 down. -/
def gfMulBits (a b : Nat) : Nat → Nat → Nat
  | 0, acc => acc
  | n + 1, acc => forced (2 * acc) (fun d =>
    forced (d ^^^ 0x409 * (d / 1024) ^^^ a * ((b >>> n) % 2)) (gfMulBits a b n))
def gfMul (a b : Nat) : Nat := gfMulBits a b 10 0

/-- α^n with α = x, and the inverse of an element. -/
def gfPow (a : Nat) : Nat → Nat
  | 0 => 1
  | n + 1 => gfMul a (gfPow a n)
def gfInv (a : Nat) : Nat :=
  let sq := fun (x : Nat) => gfMul x x
  let step := fun (x : Nat) => gfMul (sq x) a
  sq (step (step (step (step (step (step (step (step a))))))))

/-- The generator polynomial's coefficients below its leading 1, highest power first: its roots are α^0 to α^29. -/
def rsGen : List Nat :=
  [575, 552, 187, 230, 552, 1, 108, 565, 282, 249, 593, 132, 94, 720, 495, 385, 942, 503, 883, 361, 788, 610, 193, 392,
    127, 185, 158, 128, 834, 523]

/-- Symbols as one number, the first most significant; and its last `n` symbols. -/
def packSymbols (xs : List Nat) : Nat := xs.foldl (fun acc x => acc * 1024 + x) 0
def symbolsOf (v : Nat) : Nat → List Nat
  | 0 => []
  | n + 1 => (v >>> (10 * n)) % 1024 :: symbolsOf v n

/-- Sum of the numbers at the set bits of `v`. -/
def gfPick (acc : Nat) : Nat → List Nat → Nat
  | _, [] => acc
  | v, g :: gs => forced (acc ^^^ g * (v % 2)) (fun acc => forced (v / 2) (fun v => gfPick acc v gs))

/-- The remainder of a polynomial by the generator, as 30 packed symbols; its symbols enter highest power first, and
`gens` are the generator's coefficients times α^0 to α^9. -/
def rsRemainder (gens : List Nat) : List Nat → Nat → Nat
  | [], rem => rem
  | m :: ms, rem =>
    forced (m ^^^ rem >>> 290) (fun fb =>
      forced (gfPick ((rem % 2 ^ 290) <<< 10) fb gens) (rsRemainder gens ms))

/-- Hand a list of numbers on as numerals. -/
def forcedAll {α : Type} : List Nat → (List Nat → α) → α
  | [], f => f []
  | x :: xs, f => forced x (fun x => forcedAll xs (fun xs => f (x :: xs)))

/-- The 30 parity symbols of 514 message symbols, packed. -/
def rsParity (ms : List Nat) : Nat :=
  forcedAll ((List.range 10).map (fun b => packSymbols (rsGen.map (gfMul (2 ^ b))))) (fun gens => rsRemainder gens ms 0)

/-- The codeword of 514 message symbols: themselves, then their parity. -/
def rsEncode (ms : List Nat) : List Nat := ms ++ forced (rsParity ms) (fun r => symbolsOf r 30)

/-! ### Decoding -/

/-- A polynomial, lowest power first, at a point. -/
def gfEval (p : List Nat) (x : Nat) : Nat := p.foldr (fun c acc => c ^^^ gfMul x acc) 0

/-- The syndromes of a received word, from its remainder: its value at α^0 to α^29. -/
def rsSyndromes (rem : Nat) : List Nat := (List.range 30).map (fun j => gfEval (symbolsOf rem 30).reverse (gfPow 2 j))

/-- Berlekamp and Massey's algorithm: the locator Λ, its length L, the last locator before L grew, the discrepancy then
and the shift since. -/
structure Massey where
  lam : List Nat
  len : Nat
  prev : List Nat
  disc : Nat
  shift : Nat

def addPoly (p q : List Nat) : List Nat :=
  (List.range (max p.length q.length)).map (fun i => p.getD i 0 ^^^ q.getD i 0)

def masseyStep (syn : List Nat) (m : Massey) (n : Nat) : Massey :=
  let d := (List.range (m.len + 1)).foldl (fun acc i => acc ^^^ gfMul (m.lam.getD i 0) (syn.getD (n - i) 0)) 0
  if d = 0 then { m with shift := m.shift + 1 }
  else
    let k := gfMul d (gfInv m.disc)
    let lam := addPoly m.lam (List.replicate m.shift 0 ++ m.prev.map (gfMul k))
    if 2 * m.len ≤ n then { lam := lam, len := n + 1 - m.len, prev := m.lam, disc := d, shift := 1 }
    else { m with lam := lam, shift := m.shift + 1 }

/-- The error locator of a word's syndromes and the number of errors it stands for. -/
def rsLocator (syn : List Nat) : Massey :=
  (List.range 30).foldl (masseyStep syn) { lam := [1], len := 0, prev := [1], disc := 1, shift := 1 }

/-- Errors of a received word as (power of x, value), `none` where more than 15 symbols are wrong (Chien's search and
Forney's formula). -/
def rsErrors (syn : List Nat) : Option (List (Nat × Nat)) :=
  let m := rsLocator syn
  let lam := m.lam.take (m.len + 1)
  let omega := (List.range 30).map (fun n =>
    (List.range (n + 1)).foldl (fun acc i => acc ^^^ gfMul (lam.getD i 0) (syn.getD (n - i) 0)) 0)
  let slope := (List.range m.len).map (fun i => if i % 2 = 0 then lam.getD (i + 1) 0 else 0)
  let at_ := ((List.range 544).foldl (fun (acc : Nat × List (Nat × Nat)) i =>
    (gfMul acc.1 2, if gfEval lam (gfInv acc.1) = 0 then (i, acc.1) :: acc.2 else acc.2)) (1, [])).2
  if 15 < m.len ∨ at_.length ≠ m.len then none
  else some (at_.map (fun e =>
    let z := gfInv e.2
    (e.1, gfMul e.2 (gfMul (gfEval (omega.take m.len) z) (gfInv (gfEval slope z))))))

/-- A received codeword decoded: its corrected symbols and the places it corrected; `none` uncorrectable (R117). -/
def rsDecode (word : List Nat) : Option (List Nat × List Nat) :=
  let rem := rsParity (word.take 514) ^^^ packSymbols (word.drop 514)
  if rem = 0 then some (word, [])
  else match rsErrors (rsSyndromes rem) with
    | none => none
    | some es =>
      some (es.foldl (fun w e => w.set (543 - e.1) (w.getD (543 - e.1) 0 ^^^ e.2)) word, es.map (fun e => 543 - e.1))

/-! ### The message and its two codewords (R115) -/

/-- The 256 bytes of a flit (R118). -/
def flitBytes (f : Flit) : List Byte :=
  f.data ++ leBytes 4 f.t0.toNat ++ leBytes 4 f.t1.toNat ++ leBytes 4 f.t2.toNat ++ leBytes 4 f.t3.toNat

def flitOf (bs : List Byte) : Flit :=
  let w := fun i => BitVec.ofNat 32 (fieldAt bs (240 + 4 * i) 4)
  { data := bs.take 240, t0 := w 0, t1 := w 1, t2 := w 2, t3 := w 3 }

/-- The 1,028 message symbols of a block: header of BHT and BSEQ, then five flits. -/
def messageSymbols (bht bseq : Nat) (flits : List Flit) : List Nat :=
  forced (beNat (beBytes 5 (bht * 2 ^ 36 + bseq * 2 ^ 28) ++ flits.flatMap flitBytes)) (fun v => symbolsOf v 1028)

/-- Every other symbol, from the first on. -/
def evens : List Nat → List Nat
  | [] => []
  | [x] => [x]
  | x :: _ :: xs => x :: evens xs

/-- Heads of several runs in turn, `n` rounds. -/
def weave : Nat → List (List Nat) → List Nat
  | 0, _ => []
  | n + 1, ls => ls.map (fun l => l.headD 0) ++ weave n (ls.map List.tail)

/-- The 1,088 symbols of a block as sent: A0, B0, A1, B1 and so on (R115). -/
def blockSymbols (bht bseq : Nat) (flits : List Flit) : List Nat :=
  let ms := messageSymbols bht bseq flits
  weave 544 [rsEncode (evens ms), rsEncode (evens ms.tail)]

/-- Symbol j of a run to lane j mod w, `n` rounds: what each of w lanes carries (R116). -/
def deal (w : Nat) : Nat → List Nat → List (List Nat)
  | 0, _ => List.replicate w []
  | n + 1, xs => List.zipWith List.cons (xs.take w) (deal w n (xs.drop w))

/-- The block of 1,088 received symbols, with the number of each corrected symbol; `none` where the decoder fails, or the
header's BHT is reserved, which counts as that (R115, R117). -/
def decodeSymbols (xs : List Nat) : Option (FecBlock × List Nat) :=
  match rsDecode (evens xs), rsDecode (evens xs.tail) with
  | some (a, ea), some (b, eb) =>
    let bytes := forced (packSymbols (weave 514 [a, b])) (beBytes 1285)
    let head := beNat (bytes.take 5)
    let bht := head / 2 ^ 36
    if bht = 5 ∨ bht = 10 then
      some ({ bht := BitVec.ofNat 4 bht, bseq := BitVec.ofNat 8 (head / 2 ^ 28)
              flits := (List.range 5).map (fun i => flitOf (sliceBytes bytes (5 + 256 * i) 256)) },
        ea.map (2 * ·) ++ eb.map (2 * · + 1))
    else none
  | _, _ => none

end Sys2Proof.Machine
end

