-- ==== Sys2Proof/Machine/Link.lean ====
section
/-! DEFINITION. Keaxel ports: flits and their CRC, credits, acknowledgement and replay, full link resets, lanes
(R114 to R140), and what happens to packets when a port leaves service (R154). The points the chapter leaves open
stand in log entries 17, 37, 38, 65 and 66. -/

namespace Sys2Proof.Machine

/-! ### Flits (R118 to R121) -/

/-- Flit types (R119); `reserved` is handled as a flit that failed its CRC. -/
inductive FlitType where
  | data | idle | init | reserved
deriving DecidableEq, Repr, Inhabited

def flitType (f : Flit) : FlitType :=
  match (f.t0.extractLsb' 28 4).toNat with
  | 1 => .data | 2 => .idle | 3 => .init | _ => .reserved

def flitCrc (data : List Byte) (t0 t1 t2 : Word) : Word :=
  BitVec.ofNat 32 (crc32c (data ++ leBytes 4 t0.toNat ++ leBytes 4 t1.toNat ++ leBytes 4 t2.toNat))

/-- CRC-32C over bytes 0 to 251 agrees with T3 (R121). -/
def flitGood (f : Flit) : Bool := f.t3 == flitCrc f.data f.t0 f.t1 f.t2

/-- T0 from TYPE, SEQ, ACK and NAK (R118). -/
def trailer0 (ty seq ack : Nat) (nak : Bool) : Word := packFields [(28, ty), (16, seq), (4, ack), (3, bit01 nak)]

/-- A flit's trailer for a port as it stands: the current ACK, NAK and credit counts, and a new CRC (R118, R129,
R132, R134). Before ACTIVE, from which R129 counts the rotation, a flit carries no count (log entry 38). -/
def makeFlit (p : Port) (ty seq fill pstart : Nat) (data : List Byte) : Flit :=
  let j := p.slotCount % 8
  let c := fun n => ((p.credits.getD n {}).freed)
  let t0 := trailer0 ty seq ((p.rxExp + 4095) % 4096) p.nakState
  let live := p.state = 4
  let t1 := packFields ([(28, fill), (24, pstart)] ++ if live then [(20, 1), (16, 2 * j), (0, c (2 * j))] else [])
  let t2 := packFields (if live then [(20, 1), (16, 2 * j + 1), (0, c (2 * j + 1))] else [])
  { data := data, t0 := t0, t1 := t1, t2 := t2, t3 := flitCrc data t0 t1 t2 }

/-! ### Credits (R127 to R129) -/

/-- Pool 2c + v of a packet's class and virtual channel (R127). -/
def poolOf (cls : Nat) (vc : Bool) : Nat := 2 * cls + bit01 vc

/-- Buffer space of an empty pool: header and data credits by class (R128). -/
def poolSpace (pool : Nat) : Nat × Nat :=
  match pool / 2 with
  | 0 => (64, 768) | 1 => (64, 1536) | 2 => (32, 512) | _ => (32, 1024)

def counterSpace (n : Nat) : Nat := if n % 2 = 0 then (poolSpace (n / 2)).1 else (poolSpace (n / 2)).2

def creditMod (p : Port) (n : Nat) (f : Credit → Credit) : Port :=
  { p with credits := p.credits.set n (f (p.credits.getD n {})) }

/-- Data credits of a payload (R127). -/
def dataCredits (len : Nat) : Nat := ceilDiv len 16

/-- A packet leaves the port's input buffer: its credits are freed, modulo 65,536 (R129). -/
def freeInput (p : Port) (pool len : Nat) : Port :=
  let p := creditMod p (2 * pool) (fun c => { c with freed := (c.freed + 1) % 65536, used := c.used - 1 })
  creditMod p (2 * pool + 1) (fun c =>
    { c with freed := (c.freed + dataCredits len) % 65536, used := c.used - dataCredits len })

/-- Chunks discarded after a framing loss free one data credit each (R155). -/
def freeChunks (p : Port) (pool n : Nat) : Port :=
  creditMod p (2 * pool + 1) (fun c => { c with freed := (c.freed + n) % 65536 })

/-- A packet enters the input buffer. -/
def takeInput (p : Port) (pkt : Packet) (clk : Nat) : Port :=
  let pool := poolOf pkt.cls.toNat pkt.vc
  let p := creditMod p (2 * pool) (fun c => { c with used := c.used + 1 })
  let p := creditMod p (2 * pool + 1) (fun c => { c with used := c.used + dataCredits pkt.len.toNat })
  { p with ingress := p.ingress ++ [{ pkt := pkt, since := clk }] }

/-- A packet leaves the input buffer of a port, by port number; 8 is this device. Its credits are freed, and its wait
since it was complete there counts for the frame (R104, R129). -/
def freeAt (s : State) (port : Nat) (pkt : Packet) (vc : Bool) (since : Nat) : State :=
  if port < 8 then portMod s port (fun p =>
    let c := pkt.cls.toNat
    { freeInput p (poolOf c vc) pkt.len.toNat with waits := p.waits.set c (max (s.td.now - since) (p.waits.getD c 0)) })
  else s

/-- The sender charges a packet's header and data credits (R127). -/
def chargePool (p : Port) (pool len : Nat) : Port :=
  let p := creditMod p (2 * pool) (fun c => { c with avail := c.avail - 1, outstanding := c.outstanding + 1 })
  creditMod p (2 * pool + 1) (fun c =>
    { c with avail := c.avail - dataCredits len, outstanding := c.outstanding + dataCredits len })

/-! ### Resets (R122 to R126, R136, R137) -/

/-- Causes of R125. -/
inductive KxCause where
  | software | disabled | noSignal | neighbour | wiring | param | lane | graft | replayLimit | creditTimeout
  | creditError | peerReset
deriving DecidableEq, Repr, Inhabited

def causeCode : KxCause → Nat
  | .software => 1 | .disabled => 2 | .noSignal => 3 | .neighbour => 4 | .wiring => 5 | .param => 6 | .lane => 7
  | .graft => 8 | .replayLimit => 9 | .creditTimeout => 10 | .creditError => 11 | .peerReset => 12

/-- The port is enabled by the image in force (R60, R122). -/
def portEnabled (s : State) (port : Nat) : Bool :=
  match s.img.layout.ring with
  | none => false
  | some r => r.portEn.testBit port

/-- Every packet waiting for a port that leaves service is removed: a request is answered RESETTING for DOWN, FAULT
for FAILED and DISABLED; the rest is discarded; each counts (R154). -/
def removeParked (s : State) (port : Nat) : State :=
  let gone := s.fab.waiting.filter (fun w => w.out == port)
  let st := removedStatus s port
  let s := { s with fab := { s.fab with waiting := s.fab.waiting.filter (fun w => w.out != port) } }
  gone.foldl (fun s w =>
    let s := freeAt (noteRemoved s port) w.inPort w.pkt w.inVc w.since
    if 8 ≤ w.inPort then ownRemoved s port w.pkt st
    else if w.pkt.cls = 0 then turnAway s w.inPort w.pkt st else s) s

/-- The port leaves service: DISABLED, DOWN or FAILED. -/
def portOut (s : State) (port st cause : Nat) : State :=
  removeParked (portMod s port (fun p => { p with state := st, cause := cause, block := [] })) port

/-- The link has been settled once: this port has advertised credits. -/
def linkSettled (p : Port) : Bool := p.credits.any (fun c => c.adv != 0)

/-- A full link reset begins: lanes named for return come back and prunings that wait take effect, new MAXW, MAXS and
DEPTH are taken, TRAIN starts (R136, R138). `fresh` forbids the offer to resume, and a link that was never settled has
nothing to resume (R137, R409). -/
def beginReset (s : State) (p : Port) (cause : Nat) (fresh : Bool) : Port :=
  { p with
    state := 2, cause := cause, active := p.cfg,
    pruned := (p.pruned &&& (0x1F ^^^ (p.restore &&& 0x1F))) ||| p.pruneWait,
    restore := 0, pruneWait := 0, graftDue := false, offerResume := !fresh && linkSettled p, peerInit := none, peerSeen := false,
    resetFrame := frameOf s, initLeft := 16, txSwitched := false, rxSwitched := false, rxBseq := none, trained := 0,
    laneRun := [0, 0, 0, 0, 0], laneBseq := [256, 256, 256, 256, 256], offer := none, replayPos := none, block := [],
    cnt := { p.cnt with resets := sat16 p.cnt.resets } }

/-- Start a full link reset of a port that the image enables and no HOLD keeps down; in D2 and D3 no port trains or sends
(R398, R400). -/
def linkReset (s : State) (port : Nat) (cause : KxCause) (fresh : Bool) : State :=
  if !ioOn s then s
  else if !portEnabled s port then portOut s port 0 (causeCode .disabled)
  else if (portGet s port).hold then portOut s port 1 (causeCode .software)
  else portMod s port (fun p => beginReset s p (causeCode cause) fresh)

/-- The port carries or trains: DISABLED, DOWN and FAILED take no reset from the link itself. -/
def portLive (p : Port) : Bool := p.state = 2 || p.state = 3 || p.state = 4

/-- A reset has failed: the third in a row puts the port in FAILED, otherwise a new one starts and offers to resume by
its own cause (R137). `none` keeps the cause that started it (R125), and with it what that reset offered. -/
def resetFailed (s : State) (port : Nat) (cause : Option KxCause) : State :=
  let p := portGet s port
  let code := (cause.map causeCode).getD p.cause
  if 2 ≤ p.failures then portOut (portMod s port (fun p => { p with failures := p.failures + 1 })) port 5 code
  else portMod s port (fun p =>
    { beginReset s p code (cause.isNone && !p.offerResume) with failures := p.failures + 1 })

/-- The width code this port offers: the largest of x4, x2, x1 within its good lanes and MAXW (R124). -/
def offeredWidth (p : Port) : Nat :=
  let n := popCount 5 p.good
  min p.active.maxw (if 4 ≤ n then 2 else if 2 ≤ n then 1 else 0)

/-- Credits free at the moment of INIT (R128). -/
def ownAdv (p : Port) (n : Nat) : Nat := counterSpace n - (p.credits.getD n {}).used

/-- The INIT record this port offers when it enters INIT, SEEN still 0 (R124, R128). -/
def initRecord (s : State) (port : Nat) (p : Port) : InitRecord :=
  { iver := 1, seen := false, resume := p.offerResume, width := BitVec.ofNat 2 (offeredWidth p),
    speed := p.active.maxs, lanes := BitVec.ofNat 5 p.good, port := BitVec.ofNat 3 port,
    node := BitVec.ofNat 12 ((nodeId s).getD 0), lepoch := BitVec.ofNat 16 p.lepoch, next := BitVec.ofNat 12 p.rxExp,
    adv := (List.range 16).map (fun n => BitVec.ofNat 16 (ownAdv p n)) }

/-- The data area of an INIT flit (R124). -/
def initBytes (r : InitRecord) : List Byte :=
  let w0 := packFields [(28, r.iver.toNat), (27, bit01 r.seen), (26, bit01 r.resume), (24, r.width.toNat),
    (23, bit01 r.speed), (18, r.lanes.toNat), (15, r.port.toNat), (0, r.node.toNat)]
  let w1 := packFields [(16, r.lepoch.toNat), (0, r.next.toNat)]
  sliceBytes (leBytes 4 w0.toNat ++ leBytes 4 w1.toNat ++ r.adv.flatMap (fun a => leBytes 2 a.toNat)) 0 240

/-- The record an INIT flit's data area spells. -/
def initOf (d : List Byte) : InitRecord :=
  let w0 := fieldAt d 0 4
  let w1 := fieldAt d 4 4
  { iver := BitVec.ofNat 4 (w0 >>> 28), seen := w0.testBit 27, resume := w0.testBit 26,
    width := BitVec.ofNat 2 (w0 >>> 24), speed := w0.testBit 23, lanes := BitVec.ofNat 5 (w0 >>> 18),
    port := BitVec.ofNat 3 (w0 >>> 15), node := BitVec.ofNat 12 w0, lepoch := BitVec.ofNat 16 (w1 >>> 16),
    next := BitVec.ofNat 12 w1, adv := (List.range 16).map (fun n => BitVec.ofNat 16 (fieldAt d (8 + 2 * n) 2)) }

/-- Oldest outstanding sequence number O and number outstanding N (R133). -/
def oldest (p : Port) : Nat := match p.replay with
  | [] => p.txNext
  | f :: _ => f.seq
def outstanding (p : Port) : Nat := p.replay.length

/-- What an ACK is (R133). -/
inductive AckKind where
  | frees (n : Nat) | current | stale
deriving DecidableEq, Repr, Inhabited

def ackKind (p : Port) (a : Nat) : AckKind :=
  let d := ringDist (oldest p) a 4096
  if d < outstanding p then .frees (d + 1) else if d = 4095 then .current else .stale

/-- An advance of O: flits leave the replay buffer, the replay timer restarts, the replay count clears (R133, R135). -/
def advanceOldest (p : Port) (n clk : Nat) : Port :=
  if n = 0 then p
  else
    let pos := match p.replayPos with
      | none => none
      | some i => if p.replay.length ≤ max i n then none else some (i - n)
    { p with replay := p.replay.drop n, replayPos := pos, timerStart := clk, replayCount := 0, replayAck := none }

/-- A fresh start: the replay buffer is emptied and counted as LOST, sequence numbers and counts return to 0 under the
new advertisements, and a partly assembled packet goes. Space freed since the offer returns through the new epoch's
counts (R128, R137). Packets of the stream not yet begun are charged when their header is placed (R127). KX_ADV shows
what a fresh INIT advertised; a resume, which ignores ADV, leaves it (DESIGN CHOICE, log entry 38). -/
def freshStart (p : Port) (r : InitRecord) : Port :=
  let lost := p.replay.length
  let own := fun (n : Nat) => ((p.offer.map (fun o => (o.adv.getD n 0).toNat)).getD 0)
  { p with
    replay := [], replayPos := none, replayAck := none, replayCount := 0, txNext := 0, rxExp := 0, nakState := false,
    rx := {}, framing := none, tx := { bytes := p.tx.bytes.drop p.tx.need, need := 0 }, resumed := false,
    lepoch := (max p.lepoch r.lepoch.toNat + 1) % 65536,
    credits := (List.range 16).map (fun n =>
      { p.credits.getD n {} with
        avail := (r.adv.getD n 0).toNat, outstanding := 0, lastCount := 0, peerAdv := (r.adv.getD n 0).toNat,
        freed := ringDist (p.offerFreed.getD n 0) (p.credits.getD n {}).freed 65536, adv := own n, timer := 0 }),
    cnt := { p.cnt with lost := sat16by p.cnt.lost lost } }

/-- A resume: flits up to the peer's NEXT − 1 are freed; the rest is replayed once ACTIVE (R137). -/
def resumeFrom (p : Port) (r : InitRecord) (clk : Nat) : Port :=
  let a := (r.next.toNat + 4095) % 4096
  let p := match ackKind p a with
    | .frees n => advanceOldest p n clk
    | _ => p
  { p with resumed := true }

/-- Both directions have switched: the port enters ACTIVE with the settled width and speed (R126, R139). What a resume
left outstanding is sent again, which counts as no replay start (R137, log entry 37). -/
def enterActive (p : Port) (clk : Nat) : Port :=
  match p.peerInit with
  | none => p
  | some r =>
    let w := min (offeredWidth p) r.width.toNat
    let sp := p.active.maxs && r.speed
    { p with
      state := 4, failures := 0, width := w, speed := sp,
      degraded := decide (w < p.active.maxw) || (p.active.maxs && !sp), slotCount := 0, timerStart := clk,
      replayPos := if p.replay.isEmpty then none else some 0, replayFrom := clk }

def enterIfSwitched (p : Port) (clk : Nat) : Port :=
  if p.state = 3 ∧ p.txSwitched ∧ p.rxSwitched then enterActive p clk else p

/-! ### Replay (R134, R135) -/

/-- A replay starts at O, or the port takes a reset with cause REPLAY_LIMIT in its place. One that the timer starts also
begins 2 clk later (log entry 37). -/
def startReplay (p : Port) (clk : Nat) (ack : Option Nat) : Port × Option KxCause :=
  if p.cfg.rlim < p.replayCount + 1 then (p, some .replayLimit)
  else ({ p with replayCount := p.replayCount + 1, replayPos := some 0, replayFrom := clk + 2, timerStart := clk,
                 replayAck := ack }, none)

/-- An arriving ACK with its NAK bit (R133, R134). -/
def receiveAck (p : Port) (a : Nat) (nak : Bool) (clk : Nat) : Port × Option KxCause :=
  match ackKind p a with
  | .stale => ({ p with cnt := { p.cnt with stale := sat16 p.cnt.stale } }, none)
  | k =>
    let p := match k with
      | .frees n => advanceOldest p n clk
      | _ => p
    if !nak ∨ outstanding p = 0 ∨ p.replayAck = some a then (p, none)
    else
      match startReplay p clk (some a) with
      | (q, none) => ({ q with cnt := { q.cnt with replayNak := sat16 q.cnt.replayNak } }, none)
      | r => r

/-- One credit slot of a flit (R129). -/
def receiveCredit (p : Port) (valid : Bool) (n count : Nat) : Port × Option KxCause :=
  if !valid then (p, none)
  else
    let c := p.credits.getD n {}
    let d := ringDist c.lastCount count 65536
    if d ≤ c.outstanding then
      (creditMod p n (fun c =>
        { c with lastCount := count, avail := c.avail + d, outstanding := c.outstanding - d,
                 advanced := c.advanced || decide (0 < d), timer := if 0 < d then 0 else c.timer }), none)
    else ({ p with cnt := { p.cnt with badRet := sat16 p.cnt.badRet } }, some .creditError)

/-! ### Receiving (R115 to R120, R132) -/

/-- Enter NAK state, counted, and as a gap where the sequence shows one. -/
def enterNak (p : Port) (gap : Bool) : Port :=
  if p.nakState then p
  else { p with nakState := true, cnt := { p.cnt with
    nakSent := sat16 p.cnt.nakSent, gap := if gap then sat16 p.cnt.gap else p.cnt.gap } }

/-- Cut the assembled stream into packets. A header whose LEN is above 4,096 loses framing: it goes to the ring stop as
it stands, holding its header credit until then, and what follows is discarded (R120, R128, R155). -/
def assemble (clk : Nat) : Nat → Port → Port
  | 0, p => p
  | fuel + 1, p =>
    if p.rx.bytes.length < 32 then p
    else
      let k := packetOfBytes p.rx.bytes
      if 4096 < k.len.toNat then
        let rest := (p.rx.bytes.length - 32) / 16
        let pool := poolOf k.cls.toNat k.vc
        let p := creditMod (freeChunks p pool rest) (2 * pool) (fun c => { c with used := c.used + 1 })
        { p with
          rx := {}, framing := some pool,
          ingress := p.ingress ++ [{ pkt := { k with payload := [] }, since := clk }] }
      else
        let n := chunkBytes k.len.toNat
        if p.rx.bytes.length < n then { p with rx := { p.rx with need := n } }
        else assemble clk fuel (takeInput { p with rx := { bytes := p.rx.bytes.drop n, need := 0 } } k clk)

/-- The chunks of an accepted DATA flit join the stream; while framing is lost they are discarded up to PSTART. -/
def acceptChunks (p : Port) (f : Flit) (clk : Nat) : Port :=
  let fill := (f.t1.extractLsb' 28 4).toNat
  let pstart := (f.t1.extractLsb' 24 4).toNat
  let bytes := f.data.take (16 * fill)
  match p.framing with
  | none => assemble clk 16 { p with rx := { p.rx with bytes := p.rx.bytes ++ bytes } }
  | some pool =>
    if pstart = 15 then freeChunks p pool fill
    else assemble clk 16 { freeChunks p pool pstart with
      framing := none, rx := { bytes := bytes.drop (16 * pstart), need := 0 } }

/-- What R132's table does with a surviving flit's data. -/
def flitTable (p : Port) (f : Flit) (clk : Nat) : Port × Option KxCause :=
  let seq := (f.t0.extractLsb' 16 12).toNat
  match flitType f with
  | .data =>
    if seq = p.rxExp then
      (acceptChunks { p with rxExp := (p.rxExp + 1) % 4096, nakState := false } f clk, none)
    else
      let d := ringDist seq p.rxExp 4096
      if 1 ≤ d ∧ d ≤ 1024 then ({ p with cnt := { p.cnt with dup := sat16 p.cnt.dup } }, none)
      else (enterNak p true, none)
  | .idle =>
    if seq = p.rxExp then ({ p with nakState := false }, none)
    else
      let d := ringDist p.rxExp seq 4096
      if 1 ≤ d ∧ d ≤ 1024 then (enterNak p true, none) else (p, none)
  | .init => if p.state = 4 then (p, some .peerReset) else (p, none)
  | .reserved => (p, none)

/-- Run the next part; the first reset that is due stands. -/
def thenPort (r : Port × Option KxCause) (f : Port → Port × Option KxCause) : Port × Option KxCause :=
  let q := f r.1
  (q.1, r.2.orElse (fun _ => q.2))

/-- The ACK, NAK and credit fields that a surviving flit delivers whatever the table does with its data (R132). -/
def deliver (p : Port) (f : Flit) (clk : Nat) : Port × Option KxCause :=
  thenPort (receiveAck p (f.t0.extractLsb' 4 12).toNat (f.t0.getLsbD 3) clk) (fun p =>
    thenPort (receiveCredit p (f.t1.getLsbD 20) (f.t1.extractLsb' 16 4).toNat (f.t1.extractLsb' 0 16).toNat)
      (fun p => receiveCredit p (f.t2.getLsbD 20) (f.t2.extractLsb' 16 4).toNat (f.t2.extractLsb' 0 16).toNat))

/-- A flit that passes its CRC and has a type (R117, R119). -/
def flitStands (f : Flit) : Bool := flitGood f && flitType f != .reserved

/-- A discarded flit: counted, and NAK state entered (R117, R119, R132). -/
def discardFlit (p : Port) : Port := enterNak { p with cnt := { p.cnt with crc := satTo 32 (p.cnt.crc + 1) } } false

/-- One flit of a decodable block (R117, R132): the table, then its ACK, NAK and credits. -/
def receiveFlit (p : Port) (f : Flit) (clk : Nat) : Port × Option KxCause :=
  if flitStands f then thenPort (flitTable p f clk) (fun p => deliver p f clk) else (discardFlit p, none)

/-- The flits of a block, until one calls for a reset. -/
def receiveFlits (clk : Nat) : List Flit → Port → Port × Option KxCause
  | [], p => (p, none)
  | f :: fs, p => match receiveFlit p f clk with
    | (p, none) => receiveFlits clk fs p
    | r => r

/-- Corrected symbols are charged to the lanes that carried them (R116, R138, R140). -/
def chargeSymbols (p : Port) (lanes : List Nat) : Port :=
  if lanes.isEmpty then p
  else
    let n := fun i => (lanes.filter (· == i)).length
    { p with
      laneFrame := (List.range 5).map (fun i => p.laneFrame.getD i 0 + n i),
      cnt := { p.cnt with
        laneErr := (List.range 5).map (fun i => wrap32by (p.cnt.laneErr.getD i 0) (n i)),
        corr := satTo 32 (p.cnt.corr + 1) } }

/-- An uncorrectable block loses its flits (R117, R132). -/
def lostBlock (p : Port) : Port := enterNak { p with cnt := { p.cnt with uncorr := satTo 32 (p.cnt.uncorr + 1) } } false

/-- A training block: BHT 0xA and every flit byte 0x3C (R123). -/
def isTraining (b : FecBlock) : Bool := b.flits.all (fun f => (flitBytes f).all (· == 0x3C))

/-- BSEQ of the next block of a lane; 256 while none has been read. -/
def nextBseq (n : Nat) : Nat := if n = 256 then 256 else (n + 1) % 256

/-- A training or INIT block on one unpruned lane (R117, R123). Once data blocks are accepted only striped blocks are
(R126), but an INIT flit of a peer that has reset delivers its ACK and NAK and stops an ACTIVE port (R132, log entry
38). An INIT flit reaches its check as INIT_RECEIVE. -/
def laneBlock (p : Port) (lane : Nat) (b : Option (FecBlock × List Nat)) (clk : Nat) : Port × Option KxCause :=
  if p.pruned.testBit lane then (p, none)
  else if p.state = 4 ∨ p.rxSwitched then
    match b.bind (fun b => b.1.flits.find? (fun f => flitGood f && flitType f == .init)) with
    | some f => if p.state = 4 then receiveFlit p f clk else (p, none)
    | none => (p, none)
  else match b with
  | none =>
    (lostBlock { p with laneRun := p.laneRun.set lane 0,
                        laneBseq := p.laneBseq.set lane (nextBseq (p.laneBseq.getD lane 256)) }, none)
  | some (b, fixed) =>
    let p := chargeSymbols p (fixed.map (fun _ => lane))
    let seq := b.bseq.toNat
    let run := if !isTraining b ∨ b.bht ≠ 0xA then 0
      else if nextBseq (p.laneBseq.getD lane 256) = seq then p.laneRun.getD lane 0 + 1 else 1
    let p := { p with
      laneRun := p.laneRun.set lane run, laneBseq := p.laneBseq.set lane seq,
      trained := if 64 ≤ run then p.trained ||| (1 <<< lane) else p.trained }
    if isTraining b then (p, none)
    else ((b.flits.filter (fun f => !flitStands f)).foldl (fun p _ => discardFlit p) p, none)

/-- Logical receive lanes in use. -/
def rxLanes (p : Port) : List Nat := p.laneMap.filter (· < 5)

/-- BSEQ that the next data block must carry: one more than the block before it, which is an unstriped one at the
switch (R117). -/
def wantedBseq (p : Port) : Nat := match p.rxBseq with
  | some n => n
  | none => nextBseq (p.laneBseq.getD ((rxLanes p).headD 0) 256)

/-- A striped block (R117, R126): the first that decodes switches the receiver, once the peer's SEEN has come; then
uncorrectable blocks lose their flits, and a wrong BSEQ is an alignment slip. Of an uncorrectable block the next BSEQ is
taken to be its own and one, and after the switch a striped block that decodes with the BHT of an unstriped one counts
as uncorrectable, its corrected symbols uncharged (DESIGN CHOICE, log entry 38). -/
def stripedBlock (p : Port) (b : Option (FecBlock × List Nat)) (clk : Nat) : Port × Option KxCause :=
  if p.state ≠ 4 ∧ ¬ (p.state = 3 ∧ p.peerSeen) then (p, none)
  else
    let lost := if p.rxSwitched then lostBlock { p with rxBseq := p.rxBseq.map (fun n => (n + 1) % 256) } else p
    match b with
    | none => (lost, none)
    | some (b, fixed) =>
      if b.bht ≠ 5 then (lost, none)
      else
        let lanes := rxLanes p
        let p := chargeSymbols p (fixed.map (fun j => lanes.getD (j % lanes.length) 0))
        if wantedBseq p ≠ 256 ∧ wantedBseq p ≠ b.bseq.toNat then (p, some .lane)
        else receiveFlits clk b.flits { p with rxBseq := some ((b.bseq.toNat + 1) % 256), rxSwitched := true }

/-- A reset that a port's own event calls for; CREDIT_TIMEOUT and CREDIT_ERROR start fresh (R125, R137). -/
def resetFor (s : State) (port : Nat) (c : KxCause) : State :=
  linkReset s port c (c = .creditTimeout || c = .creditError)

/-- A port after an event of its own, with the reset that calls for. -/
def settlePort (s : State) (port : Nat) (r : Port × Option KxCause) : State :=
  let s := portSet s port r.1
  match r.2 with
  | none => s
  | some c => resetFor s port c

/-- FEC_BLOCK_RECEIVE. In DISABLED, DOWN and FAILED nothing is received. -/
def receiveBlock (s : State) (port : Nat) (b : LaneSymbols) (clk : Nat) : State :=
  let p := portGet s port
  if !portLive p then s
  else
    let r := match b with
      | .lane l xs => laneBlock p l.val (decodeSymbols xs) clk
      | .striped ls => stripedBlock p (decodeSymbols (weave (1088 / ls.length) ls)) clk
    settlePort s port (enterIfSwitched r.1 clk, r.2)

def execFecBlockReceive (port : Fin 8) (block : LaneSymbols) (clk : Nat) (s : State) :
    Host.Outcome State Fault Refusal := .next (receiveBlock (seenClk s clk) port.val block clk)

/-! ### Sending -/

/-- The replay buffer's depth D (R131). -/
def depthOf (p : Port) : Nat := if p.active.depth = 0 then 256 else if p.active.depth = 1 then 512 else 1024

/-- Bytes still to send of the packet that a cut after `n` stream bytes leaves unfinished. -/
def needAfter : Nat → Nat → Nat → List Byte → Nat
  | 0, need, _, _ => need
  | fuel + 1, need, n, bs =>
    if n ≤ need then need - n
    else
      let rest := bs.drop need
      if rest.length < 32 then 0
      else needAfter fuel (chunkBytes (packetOfBytes rest).len.toNat) (n - need) rest

/-- Bytes of the stream that may go in a flit of `room` bytes: the rest of the packet begun, then packets whose header and
data credits are held, each charged where its header is placed (R120, R127). -/
def cutStream : Nat → Nat → Nat → List Byte → Port → Nat × Port
  | 0, _, _, _, p => (0, p)
  | fuel + 1, room, need, bs, p =>
    if room ≤ need then (min room bs.length, p)
    else
      let rest := bs.drop need
      if rest.length < 32 then (bs.length, p)
      else
        let k := packetOfBytes rest
        let pool := poolOf k.cls.toNat k.vc
        let n := dataCredits k.len.toNat
        if (p.credits.getD (2 * pool) {}).avail < 1 ∨ (p.credits.getD (2 * pool + 1) {}).avail < n then (need, p)
        else
          let r := cutStream fuel (room - need) (chunkBytes k.len.toNat) rest (chargePool p pool k.len.toNat)
          (need + r.1, r.2)

/-- SEQ of an IDLE flit: the number the next DATA flit will carry, O while a replay is to come (R118). -/
def idleSeq (p : Port) : Nat := match p.replayPos with
  | some i => (p.replay.getD i { seq := p.txNext, data := [], fill := 0, pstart := 15 }).seq
  | none => if p.state = 4 then p.txNext else oldest p

def idleFlit (p : Port) : Flit := makeFlit p 2 (idleSeq p) 0 15 (List.replicate 240 0)

/-- One flit for the next slot of an ACTIVE port: a replayed flit, a new DATA flit, or IDLE (R119, R131, R134). -/
def nextFlit (p : Port) (clk : Nat) : Port × Flit :=
  match p.replayPos with
  | some i =>
    if p.replayFrom ≤ clk then
      let f := p.replay.getD i { seq := 0, data := [], fill := 0, pstart := 15 }
      ({ p with replayPos := if i + 1 < p.replay.length then some (i + 1) else none },
        makeFlit p 1 f.seq f.fill f.pstart f.data)
    else (p, idleFlit p)
  | none =>
    if depthOf p ≤ outstanding p then (p, idleFlit p)
    else
      let (n, q) := cutStream 17 240 p.tx.need p.tx.bytes p
      if n = 0 then (p, idleFlit p)
      else
        let pstart := if p.tx.need < n then p.tx.need / 16 else 15
        let data := sliceBytes (p.tx.bytes.take n) 0 240
        let f : SentFlit := { seq := p.txNext, data := data, fill := n / 16, pstart := pstart }
        ({ q with
            tx := { bytes := p.tx.bytes.drop n, need := needAfter 17 p.tx.need n p.tx.bytes },
            txNext := (p.txNext + 1) % 4096, replay := p.replay ++ [f],
            timerStart := if p.replay.isEmpty then clk else p.timerStart },
          makeFlit q 1 f.seq f.fill f.pstart data)

/-- An unstriped block leaves whole on each lane of a set, under the next BSEQ (R115, R116, R123, R124). -/
def laneBlocks (s : State) (port lanes : Nat) (f : Flit) : State :=
  let p := portGet s port
  let fs := List.replicate 5 f
  let xs := blockSymbols 0xA p.txBseq fs
  let s := portSet s port { p with txBseq := (p.txBseq + 1) % 256 }
  emit s (.block port 0xA p.txBseq fs ((setBits 5 lanes).map (fun l => (l, xs))))

/-- A flit joins the data block being filled, which leaves striped over the transmit lanes once it holds five (R115,
R116). -/
def dataFlit (s : State) (port : Nat) (p : Port) (f : Flit) : State :=
  let block := p.block ++ [f]
  if block.length < 5 then portSet s port { p with block := block }
  else
    let w := p.txLanes.length
    let s := portSet s port { p with block := [], txBseq := (p.txBseq + 1) % 256 }
    emit s (.block port 5 p.txBseq block (p.txLanes.zip (deal w (1088 / w) (blockSymbols 5 p.txBseq block))))

/-- The INIT flit of a port: its record with SEEN as it stands (R118, R124). -/
def initFlit (p : Port) (r : InitRecord) : Flit :=
  let d := initBytes { r with seen := p.peerInit.isSome }
  let t0 := trailer0 3 0 ((p.rxExp + 4095) % 4096) p.nakState
  let t1 := packFields [(24, 15)]
  { data := d, t0 := t0, t1 := t1, t2 := 0, t3 := flitCrc d t0 t1 0 }

/-- A training flit: every byte 0x3C (R123). -/
def trainFlit : Flit :=
  { data := List.replicate 240 0x3C, t0 := 0x3C3C3C3C, t1 := 0x3C3C3C3C, t2 := 0x3C3C3C3C, t3 := 0x3C3C3C3C }

/-- An INIT block leaves; the sixteenth since the peer's SEEN came is the last before data blocks (R126). -/
def sendInit (s : State) (port clk : Nat) (r : InitRecord) : State :=
  let s := laneBlocks s port (portGet s port).good (initFlit (portGet s port) r)
  portMod s port (fun p =>
    let left := if p.peerSeen ∧ p.peerInit.isSome then p.initLeft - 1 else p.initLeft
    enterIfSwitched { p with initLeft := left, txSwitched := decide (left = 0) } clk)

/-- FLIT_SEND: what the port sends in one slot, by its state: one flit, or one unstriped block per lane (R115, R119,
R123, R124, R126). Before ACTIVE a port that has switched sends IDLE. -/
def sendSlot (s : State) (port clk : Nat) : State :=
  let p := portGet s port
  match p.state with
  | 4 =>
    let (q, f) := nextFlit p clk
    dataFlit s port { q with slotCount := q.slotCount + 1 } f
  | 3 => match p.txSwitched, p.offer with
    | false, some r => sendInit s port clk r
    | _, _ => dataFlit s port p (idleFlit p)
  | 2 => laneBlocks s port (0x1F &&& (0x1F ^^^ p.pruned)) trainFlit
  | _ => s

def execFlitSend (port : Fin 8) (clk : Nat) (s : State) : Host.Outcome State Fault Refusal :=
  .next (sendSlot (seenClk s clk) port.val clk)

/-- REPLAY_TIMEOUT (R135): the replay timer has run for RTO clk while N > 0. -/
def execReplayTimeout (port : Fin 8) (clk : Nat) (s : State) : Host.Outcome State Fault Refusal :=
  let s := seenClk s clk
  let p := portGet s port.val
  if p.state = 4 ∧ 0 < outstanding p ∧ p.cfg.rto ≤ clk - p.timerStart then
    match startReplay p clk p.replayAck with
    | (q, none) => .next (portSet s port.val { q with cnt := { q.cnt with replayTimer := sat16 q.cnt.replayTimer } })
    | (_, some c) => .next (resetFor s port.val c)
  else .next s

/-- CREDIT_TIMEOUT (R130): a counter's timer has reached CTO. -/
def execCreditTimeout (port : Fin 8) (counter : Fin 16) (s : State) : Host.Outcome State Fault Refusal :=
  let p := portGet s port.val
  if p.state = 4 ∧ p.cfg.cto ≤ (p.credits.getD counter.val {}).timer then
    .next (resetFor (portCnt s port.val (fun c => { c with timeouts := sat16 c.timeouts })) port.val .creditTimeout)
  else .next s

/-- TRAIN is over: every unpruned lane is good, or 40 frames have passed (R123). -/
def trainOver (s : State) (p : Port) : Bool :=
  let lanes := 0x1F &&& (0x1F ^^^ p.pruned)
  decide (p.trained &&& lanes = lanes) || decide (p.resetFrame + 40 ≤ frameOf s)

/-- TRAIN_END (R123): the good lanes settle and the port's INIT record with them, or the reset fails with NO_SIGNAL. -/
def execTrainEnd (port : Fin 8) (clk : Nat) (s : State) : Host.Outcome State Fault Refusal :=
  let s := seenClk s clk
  let p := portGet s port.val
  if p.state ≠ 2 ∨ !trainOver s p then .next s
  else
    let g := p.trained &&& (0x1F ^^^ p.pruned)
    if g = 0 then .next (resetFailed (portMod s port.val (fun p => { p with good := 0 })) port.val (some .noSignal))
    else .next (portMod s port.val (fun p =>
      let p := { p with state := 3, good := g, initFrame := frameOf s,
                        laneMap := (List.range 4).map (fun i => (setBits 5 g).getD i 7) }
      { p with offer := some (initRecord s port.val p), offerFreed := p.credits.map (·.freed) }))

/-- The port that a port of this device faces: the opposite direction of the same plane and ring (R125). -/
def facingPort (port : Nat) : Nat := if port % 2 = 0 then port + 1 else port - 1

/-- The check of the first valid INIT, in the order of R125. -/
def initCheck (s : State) (port : Nat) (r : InitRecord) : Option KxCause :=
  let want := match s.img.layout.ring with
    | none => 0
    | some g => g.neighbours.getD port 0
  if r.node.toNat ≠ want then some .neighbour
  else if r.port.toNat ≠ facingPort port then some .wiring
  else if r.iver ≠ 1 ∨ r.width = 3 ∨ r.adv.any (fun a => decide (32767 < a.toNat)) then some .param
  else none

/-- The settlement of width, speed, lanes and resume or fresh (R126, R137). -/
def settleInit (p : Port) (r : InitRecord) (clk : Nat) : Port :=
  let w := min (offeredWidth p) r.width.toNat
  let lanes := (setBits 5 r.lanes.toNat).take (2 ^ w)
  let rx := (setBits 5 p.good).take (2 ^ w)
  let p := { p with peerInit := some r, txLanes := lanes, laneMap := (List.range 4).map (fun i => rx.getD i 7) }
  let test := match ackKind p ((r.next.toNat + 4095) % 4096) with
    | .stale => false
    | _ => true
  if p.offerResume && r.resume && decide (p.lepoch = r.lepoch.toNat) && test then resumeFrom p r clk
  else freshStart p r

/-- The record of an INIT flit in INIT: the first is checked and settles the link; later ones bring SEEN (R125, R126). -/
def receiveRecord (s : State) (port : Nat) (r : InitRecord) : State :=
  let s := portMod s port (fun p => { p with peerPort := r.port.toNat, peerNode := r.node.toNat })
  match (portGet s port).peerInit with
  | some _ => portMod s port (fun p => { p with peerSeen := p.peerSeen || r.seen })
  | none =>
    match initCheck s port r with
    | some .param => resetFailed s port (some .param)
    | some c => portOut s port 1 (causeCode c)
    | none => portMod s port (fun p => { settleInit p r s.td.now with peerSeen := r.seen })

/-- INIT_RECEIVE (R125, R126): an INIT flit that passes its CRC; while ACTIVE it is the peer's reset (R132). It also
delivers its ACK and NAK in TRAIN, INIT and ACTIVE, before its record can start the link fresh. -/
def receiveInit (s : State) (port : Nat) (f : Flit) : State :=
  let p := portGet s port
  if !flitGood f ∨ flitType f ≠ .init then s
  else if p.state = 4 then settlePort s port (receiveFlit p f s.td.now)
  else if p.state = 2 then settlePort s port (deliver p f s.td.now)
  else if p.state ≠ 3 then s
  else match deliver p f s.td.now with
    | (q, none) => receiveRecord (portSet s port q) port (initOf f.data)
    | r => settlePort s port r

def execInitReceive (port : Fin 8) (flit : Flit) (s : State) : Host.Outcome State Fault Refusal :=
  .next (receiveInit s port.val flit)

/-- LINK_RESET_TIMEOUT (R125): no valid INIT within 8 frames, or ACTIVE not reached within 64. -/
def execLinkResetTimeout (port : Fin 8) (s : State) : Host.Outcome State Fault Refusal :=
  let p := portGet s port.val
  if p.state = 3 ∧ p.peerInit = none ∧ p.initFrame + 8 ≤ frameOf s then
    .next (resetFailed s port.val (some .noSignal))
  else if (p.state = 2 ∨ p.state = 3) ∧ p.resetFrame + 64 ≤ frameOf s then .next (resetFailed s port.val none)
  else .next s

/-- LANE_LOSS_OF_LOCK (R138): the lane is pruned, whatever return was pending for it, and a reset with cause LANE starts
at once. -/
def execLaneLossOfLock (port : Fin 8) (lane : Fin 5) (s : State) : Host.Outcome State Fault Refusal :=
  if portLive (portGet s port.val) then
    .next (resetFor (portMod s port.val (fun p => { p with
      pruned := p.pruned ||| (1 <<< lane.val), restore := p.restore &&& (0x1F ^^^ (1 <<< lane.val)) })) port.val .lane)
  else .next s

/-- KX_CTRL.RETRAIN: a reset with resume offered; it also leaves DOWN and FAILED (R140). -/
def retrain (s : State) (port : Nat) : State :=
  linkReset (portMod s port (fun p => { p with failures := 0 })) port .software false
def execKxRetrain (port : Fin 8) (s : State) : Host.Outcome State Fault Refusal := .next (retrain s port.val)

/-- KX_CTRL.FRESH: a reset without resume, of a port that is not silent (R140). -/
def freshReset (s : State) (port : Nat) : State :=
  if portLive (portGet s port) then linkReset s port .software true else s
def execKxFresh (port : Fin 8) (s : State) : Host.Outcome State Fault Refusal := .next (freshReset s port.val)

/-- KX_CTRL.CLR zeroes the counters of R140; those of R164 stay. -/
def clearPort (s : State) (port : Nat) : State :=
  portCnt s port (fun c => { thru := c.thru, turn := c.turn, inj := c.inj, sink := c.sink, bubble := c.bubble,
                             dropped := c.dropped })
def execKxClear (port : Fin 8) (s : State) : Host.Outcome State Fault Refusal := .next (clearPort s port.val)

/-- A port that only RETRAIN, or a new image, releases: FAILED, or DOWN for its neighbour or its wiring (R122, R125). -/
def waitsSoftware (p : Port) : Bool :=
  p.state = 5 || (p.state = 1 && (p.cause = causeCode .neighbour || p.cause = causeCode .wiring))

/-- A write of KX_HOLD: 1 takes the port to DOWN, 0 starts a reset; a disabled port, or one that waits for RETRAIN, only
keeps the bit (R125, R140). -/
def writeHold (s : State) (port : Nat) (v : Bool) : State :=
  let p := portGet s port
  let s := portMod s port (fun p => { p with hold := v })
  if p.state = 0 ∨ waitsSoftware p then s
  else if v then portOut s port 1 (causeCode .software)
  else linkReset s port .software false
def execKxHoldWrite (port : Fin 8) (value : Bool) (s : State) : Host.Outcome State Fault Refusal :=
  .next (writeHold s port.val value)

/-- Lanes pruned other than by loss of lock wait for the next reset; with AUTO bit 1 it starts at the next tick
(R138). -/
def pruneLanes (s : State) (port lanes : Nat) : State :=
  if lanes &&& 0x1F = 0 then s
  else portMod s port (fun p =>
    { p with pruneWait := p.pruneWait ||| (lanes &&& 0x1F), restore := p.restore &&& (0x1F ^^^ (lanes &&& 0x1F)),
             graftDue := p.graftDue || autoBit s 1 })
def execKxLanePrune (port : Fin 8) (lanes : BitVec 5) (s : State) : Host.Outcome State Fault Refusal :=
  .next (pruneLanes s port.val lanes.toNat)

/-- KX_LANE_PRUNE.RESTORE: the lanes return at the next reset, whatever starts it; a restore starts none (R138, R140, log
entry 38). Their lane errors are forgotten. -/
def restoreLanes (s : State) (port lanes : Nat) : State :=
  portMod s port (fun p => { p with
    restore := p.restore ||| (lanes &&& 0x1F), pruneWait := p.pruneWait &&& (0x1F ^^^ (lanes &&& 0x1F))
    laneErrs := (List.range 5).map (fun i => if lanes.testBit i then 0 else p.laneErrs.getD i 0) })
def execKxLaneRestore (port : Fin 8) (lanes : BitVec 5) (s : State) : Host.Outcome State Fault Refusal :=
  .next (restoreLanes s port.val lanes.toNat)

/-! ### What the tick does to a port (R130, R138) -/

/-- The lane error of the frame just ended, and the window of 2^20 frames, cut where powered time is a multiple of that
(log entry 17): lanes that reach CE_LIMIT are pruned. -/
def tickLanes (s : State) (port : Nat) : State :=
  let p := portGet s port
  let hit := (List.range 5).map (fun i => decide (p.symLim < p.laneFrame.getD i 0))
  let errs := (List.range 5).map (fun i => p.laneErrs.getD i 0 + bit01 (hit.getD i false))
  let lim := ceLimit s
  let due := maskOf ((List.range 5).filter (fun i =>
    decide (0 < lim) && decide (lim ≤ errs.getD i 0) && !(p.pruned ||| p.pruneWait).testBit i))
  let errs := if frameOf s % 2 ^ 20 = 0 then [0, 0, 0, 0, 0] else errs
  let s := portSet s port { p with laneFrame := [0, 0, 0, 0, 0], laneErrs := errs }
  pruneLanes s port due

/-- A packet waits for credit of counter n: one queued for the port, or the next of its stream, lacks it (R130). One that
holds the credits of R127 and lacks only the bubble of R151 waits for space and not for credit of the counter (DESIGN
CHOICE, log entry 38). -/
def waitsCredit (s : State) (port n : Nat) : Bool :=
  let p := portGet s port
  let c := p.credits.getD n {}
  let lacks := fun (k : Packet) => poolOf k.cls.toNat k.vc == n / 2 &&
    (if n % 2 = 0 then decide (c.avail < 1) else decide (c.avail < dataCredits k.len.toNat))
  let next := p.tx.bytes.drop p.tx.need
  s.fab.waiting.any (fun w => w.out == port && lacks w.pkt) ||
    (decide (32 ≤ next.length) && lacks (packetOfBytes next))

/-- Credit timers advance at a tick (R130). An advance counts for the tick that follows it, whatever the port's state
then. -/
def tickCredits (s : State) (port : Nat) : State :=
  if (portGet s port).state ≠ 4 then
    portMod s port (fun p => { p with credits := p.credits.map (fun c => { c with advanced := false }) })
  else
    let waits := (List.range 16).map (waitsCredit s port)
    portMod s port (fun p => { p with credits := (List.range 16).map (fun n =>
      let c := p.credits.getD n {}
      if c.advanced then { c with advanced := false, timer := 0 }
      else if waits.getD n false then { c with timer := c.timer + 1 } else c) })

/-- Resets with cause GRAFT that wait for the tick (R138). -/
def tickGraftLane (s : State) (port : Nat) : State :=
  let p := portGet s port
  if p.graftDue ∧ portLive p then resetFor s port .graft else s

end Sys2Proof.Machine
end

