-- ==== Sys2Proof/Machine/Rebuild.lean ====
section
/-! DEFINITION. What re-imaging, key installation and resets do to a partition: key sets, epochs, recalls, fills, and the
state of its regions (R74 to R77, R168, R243, R290, R310, R344, R346); and the end of work in service (R75, R384). -/

namespace Sys2Proof.Machine

/-! ### Keys and epochs (R243, R344, R346) -/

/-- A transient key set of the attestation unit's random source (R344). -/
def transientSet (n : Nat) : KeySet :=
  let b := Config.transientKey n
  { xts := sliceBytes b 0 64, fab := sliceBytes b 64 32, eth := sliceBytes b 96 32 }

/-- The partition's map ceases, and its stripe blocks are queued for erase (R243). -/
def cryptoErase (s : State) (p : Nat) : State :=
  let mine := (s.fl.blocks.filter (fun e => e.2.owner = p && (e.2.st = 1 || e.2.st = 2))).map (·.1)
  let s := { s with fl := { s.fl with
    grans := s.fl.grans.filter (fun e => e.1 / 2 ^ 32 ≠ p), hands := tblErase s.fl.hands p,
    copies := s.fl.copies.filter (fun e => !mine.contains (e.1 / 4096)) } }
  mine.foldl (fun s k =>
    blockMod s k (fun b => { b with st := 3, moving := false })) s

/-- A partition takes a key set; its send counters start at 0 (R348). -/
def setKeys (s : State) (p : Nat) (k : KeySet) : State :=
  partMod s p (fun x => { x with keys := k, fabCounter := 0, ethCounter := 0 })

/-- The key set is destroyed and a transient one installed (R344). -/
def destroyKeys (s : State) (p : Nat) : State :=
  let n := s.sec.nextKey
  setKeys (cryptoErase { s with sec := { s.sec with nextKey := n + 1 } } p) p (transientSet n)

/-- The partition epoch advances, which destroys the exchange key (R346, R351). -/
def advanceEpoch (s : State) (p : Nat) : State :=
  partMod s p (fun x => { x with epoch := (x.epoch + 1) % 2 ^ 32, exch := none })

/-! ### Fills (R254, R310) -/

/-- Every word of a slice and of its near-bank share reads zero, clean (R74, R310). -/
def fillSlice (s : State) (sl : Nat) : State :=
  injectFlips { s with
    stk := { s.stk with
      dram := s.stk.dram.filter (fun e => e.1 / 2 ^ 33 ≠ sl)
      marks := s.stk.marks.filter (fun e => e.1 / 2 ^ 30 ≠ sl)
      lost := s.stk.lost.filter (· ≠ sl) }
    near := { s.near with
      mem := s.near.mem.filter (fun e => e.1 / 2 ^ 20 ≠ sl)
      flips := s.near.flips.filter (fun e => e.1 / 2 ^ 17 ≠ sl) } } sl 0

def fillSlices (s : State) (sls : List Nat) : State := sls.foldl fillSlice s

/-- The hedge page of a root hedge that a byte of a slice lies in. -/
def pageOfByte (l : Layout) (root sl a : Nat) : Option Nat :=
  match placeUp l hedgeFuel (false, sl) a with
  | some (h, ra) => if h = root then some (ra / 2097152) else none
  | none => none

/-- The bytes at the (slice, address) pairs that `hit` names read zero, clean; on a slice whose contents are lost the
marks stay as they are. -/
def dropCells (s : State) (hit : Nat → Nat → Bool) (lost : List Nat) : State :=
  { s with stk := { s.stk with
    dram := s.stk.dram.filter (fun e => !hit (e.1 / 2 ^ 33) (e.1 % 2 ^ 33))
    marks := s.stk.marks.filter (fun e => lost.contains (e.1 / 2 ^ 30) || !hit (e.1 / 2 ^ 30) (e.1 % 2 ^ 30 * 8)) } }

/-- The directory entries of the lines of hedge pages are written anew, so that no bad word of them stands (R183). -/
def freshEntries (s : State) (root : Nat) (pages : List Nat) : State :=
  if s.stk.marks.isEmpty && s.stk.lost.isEmpty then s
  else pages.foldl (fun s h => (List.range 32768).foldl (fun s i =>
    match (hedgePlace s.img.layout root (h * 2097152 + 64 * i)).bind (fun x => entryPlace s.img.layout x.1 x.2) with
    | none => s
    | some (sl, a) => entryClean s sl a) s) s

/-- Hedge pages of a partition read zero, clean, and their lines are in I. -/
def fillPages (s : State) (p : Nat) (pages : List Nat) : State :=
  match partRecOf s.img.layout p with
  | none => s
  | some r =>
    let l := s.img.layout
    let hit := fun (sl a : Nat) => (pageOfByte l r.root sl a).any (fun h => pages.contains h)
    let lost := (hedgeSlices l r.root).filter (fun sl => s.stk.lost.contains sl)
    let s := freshEntries (dropCells s hit lost) r.root pages
    let s := { s with coh := { s.coh with dir := s.coh.dir.filter (fun e =>
      !(decide (2 ^ 52 ≤ e.1 * 64) && decide (addrPart (e.1 * 64) = p) && pages.contains (addrOff (e.1 * 64) / 2097152))) } }
    if lost.isEmpty then s
    else pages.foldl (fun s h => (cutAt 256 (h * 2097152) 2097152).foldl (fun s c =>
      match hedgePlace l r.root c.1 with
      | some (sl, a) => if lost.contains sl then dramClear s sl a 256 else s
      | none => s) s) s

/-! ### The units of a partition (R76, R189, R290) -/

/-- Units return to their initial state: unmapped, version 0, every line I and verified. -/
def clearUnits (s : State) (p : Nat) (test : Nat → Bool) : State :=
  let gone := fun (k : Nat) => decide (k / 2 ^ 26 = p) && test (k % 2 ^ 26)
  let line := fun (a : Nat) => decide (addrPart a = p) && test (lineUnit a)
  { s with
    eng := { s.eng with pte := s.eng.pte.filter (fun e => !gone e.1) }
    coh := { s.coh with
      versions := s.coh.versions.filter (fun e => !gone e.1)
      dir := s.coh.dir.filter (fun e => !line (e.1 * 64))
      unverified := s.coh.unverified.filter (fun k => !(decide (k / 256 = p) &&
        (regionsOf s.img.layout p).any (fun r => regionId r = k && test r.start)))
      verified := s.coh.verified.filter (fun a => !line a)
      sweepLeft := s.coh.sweepLeft.filter (fun x => !(x.1 = p && line x.2.1))
      recoveries := s.coh.recoveries.filter (fun x => !(x.1 = p && line x.2.1)) } }

/-- A rising list without the numbers of another rising list. -/
def withoutHeld : List Nat → List Nat → List Nat
  | [], _ => []
  | x :: xs, hs =>
    let rest := hs.dropWhile (· < x)
    if rest.head? = some x then withoutHeld xs rest else x :: withoutHeld xs rest

/-- The free runs of `n` hedge pages aligned to `n`, by their first page, lowest first (R290). -/
def freeRuns (s : State) (p n : Nat) : List Nat :=
  let cap := partUnits s.img.layout p - cachePages s.img.layout p
  let held := (heldPages s p).foldr (insertBy (fun a b => decide (a ≤ b))) []
  (withoutHeld (List.range (cap / n)) (held.map (· / n))).map (· * n)

/-- Map and fill the pages of a PINNED region, in order, to the lowest of the free runs; a page that finds no room stays
unmapped. The answer is the runs left. -/
def mapRegion (s : State) (free : List Nat) (r : RegionRec) : State × List Nat :=
  let n := pageUnits r
  let pages := (free.take (r.size / n)).flatMap (fun h => (List.range n).map (h + ·))
  let lo := r.part * 2 ^ 26 + r.start
  let new := ((List.range pages.length).zip pages).map (fun x => (lo + x.1, Pte.mapped x.2))
  let old := s.eng.pte
  let s := { s with eng := { s.eng with
    pte := old.filter (fun e => decide (e.1 < lo)) ++ new ++ old.filter (fun e => decide (lo + r.size ≤ e.1)) } }
  (fillPages s r.part pages, free.drop (r.size / n))

/-- Regions of one page size. -/
def mapSized (s : State) (p n : Nat) (rs : List RegionRec) : State :=
  if rs = [] then s else (rs.foldl (fun acc r => mapRegion acc.1 acc.2 r) (s, freeRuns s p n)).1

/-- New and changed PINNED regions of a partition: 1 GiB pages first, then 2 MiB, each in ascending INDEX order (R290). -/
def mapRegions (s : State) (p : Nat) (rs : List RegionRec) : State :=
  let rs := sortBy (fun a b => decide (a.index ≤ b.index)) (rs.filter (fun r => !r.flash))
  mapSized (mapSized s p 512 (rs.filter (fun r => r.gib))) p 1 (rs.filter (fun r => !r.gib))

/-- What a partition image keeps of a partition under an AMEND (R76, R168). -/
def keepsRegion (old new : Layout) (p : Nat) (r : RegionRec) : Bool :=
  let tree := fun (l : Layout) => sortBy (fun (a b : HedgeRec) => decide (a.hedge ≤ b.hedge))
    (l.hedges.filter (fun x => match partRecOf l p with
      | none => false
      | some q => x.hedge == q.root || (memberSlices l hedgeFuel (true, x.hedge)).any (fun sl => (hedgeSlices l q.root).contains sl)))
  let reserves := fun (l : Layout) => (partSlices l p).map (fun sl => (sl, reserveOf l sl))
  (regionsOf old p).contains r && (regionsOf new p).contains r && tree old == tree new && reserves old == reserves new &&
    (agentsOf old p == agentsOf new p || !regionCoherent r)

/-! ### The flash regions an AMEND keeps (R76, R230, R232) -/

/-- A granule that an AMEND keeps: its number under the new image, its entry, and its bytes where only a frame holds
them. -/
structure KeptGranule where
  num : Nat
  entry : Granule
  bytes : Option FlashCopy
deriving DecidableEq, Repr, Inhabited

/-- The FLASH region that holds a granule. -/
def granuleRegion (l : Layout) (p n : Nat) : Option RegionRec :=
  (regionsOf l p).find? (fun r => r.flash && decide (granuleBase l p r.index ≤ n) &&
    decide (n < granuleBase l p r.index + 32 * r.size))

/-- A copy in flash that no map entry names any more. -/
def dropCopy (s : State) (l : Option FlashLoc) : State := match l with
  | none => s
  | some l => copySet s l {}

/-- Take out of the map every granule of a partition; those of kept regions with their contents, under their new
numbers, a move of them going on. The locations of the others become invalid; their stripe blocks are judged when the kept
ones stand in the map again. -/
def takeGranules (s : State) (p : Nat) (old new : Layout) (keep : RegionRec → Bool) : State × List KeptGranule :=
  (s.fl.grans.filter (fun e => e.1 / 2 ^ 32 = p)).foldl (fun (acc : State × List KeptGranule) e =>
    let n := e.1 % 2 ^ 32
    let g := e.2
    let s := granSet acc.1 p n {}
    match granuleRegion old p n with
    | some r =>
      if keep r then
        let num := granuleBase new p r.index + (n - granuleBase old p r.index)
        if g.st = .dirty ∨ g.st = .writing then
          let (s, c) := frameCopy (dropCopy s g.next) p n g.frame
          (s, acc.2 ++ [{ num := num, entry := g, bytes := some c }])
        else (s, acc.2 ++ [{ num := num, entry := g, bytes := none }])
      else (dropCopy (dropCopy s g.next) g.loc, acc.2)
    | none => (dropCopy (dropCopy s g.next) g.loc, acc.2)) (s, [])

/-- Put a kept granule back: in a frame where its bytes have one, programmed where no frame is left. -/
def putGranule (s : State) (p : Nat) (k : KeptGranule) : State :=
  let rest : Granule := { loc := k.entry.loc }
  match k.bytes with
  | none =>
    let st := match k.entry.st with
      | .cached | .filling => GranState.flash
      | x => x
    granSet s p k.num { rest with st := st, next := k.entry.next }
  | some c =>
    match unusedFrame s p with
    | some f =>
      let s := installCopy s p f c (fun _ => false)
      granSet s p k.num { rest with st := .dirty, frame := f, dirtyOrder := k.entry.dirtyOrder }
    | none => match nextPage s p with
      | none => granSet s p k.num { rest with st := .bad }
      | some (s, l) => dropCopy (granSet (copySet s l c) p k.num { st := .flash, loc := some l }) k.entry.loc

/-- The words of a partition's granule map are written anew (R230, R300). -/
def cleanMap (s : State) (p : Nat) : State :=
  let l := s.img.layout
  let first := mapAddr l p
  let inMap := fun (k : Nat) => match partRecOf l p, placeUp l hedgeFuel (false, k / 2 ^ 30) (k % 2 ^ 30 * 8) with
    | some r, some (h, a) => h = r.root && decide (first ≤ a) && decide (a < first + 8 * granuleCount l p)
    | _, _ => false
  { s with stk := { s.stk with marks := s.stk.marks.filter (fun e => !inMap e.1) } }

/-- Stripe blocks of a partition without a valid granule are queued for erase (R243). -/
def queueEmpty (s : State) (p : Nat) : State :=
  let mine := (s.fl.blocks.filter (fun e => e.2.owner = p && (e.2.st = 1 || e.2.st = 2))).map (·.1)
  mine.foldl (fun s k => if validIn s k = [] then blockMod s k (fun b => { b with st := 3, moving := false }) else s) s

/-- Whether an AMEND leaves a partition's flash map and frames as they are. -/
def flashSame (old new : Layout) (p : Nat) (keep : RegionRec → Bool) : Bool :=
  let rs := fun (l : Layout) => (regionsOf l p).filter (·.flash)
  rs old == rs new && (rs old).all keep && cachePages old p = cachePages new p

/-! ### Recalls (R74, R347, R356) -/

/-- Recall one line that no transaction holds from every agent that holds it: SNP_INV to sharers, RECALL to an owner. A
line whose data is to be discarded needs no recovery for a fenced owner: its other holders are recalled (R74, R168,
R184). -/
def recallLine (discard : Bool) (s : State) (line : Nat) : State :=
  let p := addrPart line
  let due := s.coh.sweepLeft.any (fun x => x.1 = p && x.2.1 = line)
  let s := if hasTxn s line then s
    else if discard then (if due then sweptLine s p line else s)
    else touchLine s line line
  let s := if hasTxn s line then s else readEntry s (lineHalf s line) line line
  let e := dirGet s line
  let live := fun (j : Nat) => !(partGet s p).fenced.testBit j
  let owner := if e.st = .X ∨ e.st = .O then [e.owner] else []
  let inv := (sharersOf e).filter (fun j => !owner.contains j && live j)
  let own := owner.filter live
  if hasTxn s line ∨ e.st = .I ∨ e.st = .P then s
  else if inv ++ own = [] then dirSet s line {}
  else
    let (n, s) := drawFree s
    let s := openTxn (dirSet s line {})
      { id := 0, half := lineHalf s line, part := p, line := line, pool := line, busy := .BI,
        step := if discard then .discard else .recall, job := none, agent := none, pend := inv ++ own, fwd := none,
        seq := n % 2 ^ 32, aux := 0, before := e, snooped := true, grantX := false, queued := [], owed := [],
        since := 0, stalled := false }
    let s := inv.foldl (fun s j => sendSnoop s .snpInv p j line (n % 2 ^ 32) (homeNode s) 0) s
    own.foldl (fun s j => sendSnoop s .recall p j line (n % 2 ^ 32) 0 0) s

/-- Lines of a partition's units that some agent may hold. -/
def heldLines (s : State) (p : Nat) (test : Nat → Bool) : List Nat :=
  (s.coh.dir.filter (fun e => decide (e.1 * 64 < 2 ^ 52) && decide (addrPart (e.1 * 64) = p) && test (lineUnit (e.1 * 64)) &&
    !(e.2.st = .I || e.2.st = .P))).map (fun e => e.1 * 64)

def recallUnits (s : State) (p : Nat) (discard : Bool) (test : Nat → Bool) : State :=
  (heldLines s p test).foldl (recallLine discard) s

/-! ### Work in service (R75, R384) -/

/-- Every trace of a request in service but its entry goes: its pieces, its place in a transaction, its wait. -/
def withdrawSvc (s : State) (t : Nat) : State :=
  let s := dropPieces s t
  { s with
    coh := { s.coh with
      pubWait := s.coh.pubWait.filter (fun w => w.svc.ticket ≠ t)
      placing := s.coh.placing.filter (fun j => j.svc.ticket ≠ t)
      txns := s.coh.txns.map (fun x => { x with
        queued := x.queued.filter (fun j => j.svc.ticket ≠ t)
        owed := x.owed.filter (fun o => o.svc.ticket ≠ t) }) }
    twn := { s.twn with
      held := s.twn.held.filter (fun h => h.svc.ticket ≠ t)
      answers := s.twn.answers.filter (fun h => h.svc.ticket ≠ t) } }

/-- The open transactions of a partition that meet a test end, the device's own recalls with them; each line enters P
(R385). -/
def endTxns (s : State) (f : Txn → Bool) : State :=
  (s.coh.txns.filter f).foldl (fun s t =>
    enterP (dropTxn s t.id) t.half t.part t.line t.pool) s

/-- A completion no longer waits for its held ledger entry. -/
def forgetHeld (s : State) (p q : Nat) : State :=
  partMod s p (fun x => { x with ledger := { x.ledger with
    held := x.ledger.held.map (fun h => if h.event = 1 ∧ h.queue = q then { h with event := 0 } else h) } })

/-- Every request of a partition in service ends as `f` ends it, once withdrawn, and every command with a status (R75,
R281, R385). A completion that waits for its held ledger entry is posted with the status it has (log entry 12). -/
def endServiceBy (f : State → Service → State) (s : State) (p : Nat) (st : Status) : State :=
  let s := endTxns s (fun t => t.part = p)
  let s := (s.svc.filter (fun v => v.req.pkt.part.toNat = p)).foldl (fun s v =>
    match v.req.origin with
    | .engine _ _ => dropSvc (withdrawSvc s v.ticket) v.ticket
    | _ => f (withdrawSvc s v.ticket) v) s
  (List.range 64).foldl (fun s q =>
    match (pairGet s p q).service with
    | none => s
    | some c =>
      match (pairGet s p q).waiting with
      | some (st', a) => writeCompletion (forgetHeld s p q) p q st' a
      | none =>
        let (s, a) := noAddress s
        let s := c.parts.foldl (fun s x => logMod s x.engine freeEngine) s
        let s := endCommand (dropPieces s c.ticket) p q st a
        match (pairGet s p q).waiting with
        | some (st', a) => writeCompletion (forgetHeld s p q) p q st' a
        | none => s) s

/-- The same, each request being answered with the status. -/
def endService (s : State) (p : Nat) (st : Status) : State :=
  endServiceBy (fun s v => finish s v (endWith st (some v.req.pkt.addr.toNat))) s p st

/-- Nothing of a partition is in service any more (R75). -/
def drained (s : State) (p : Nat) : Bool :=
  !s.svc.any (fun v => v.req.pkt.part.toNat = p) && !s.coh.txns.any (fun t => t.part = p) &&
    (List.range 64).all (fun q => (pairGet s p q).service.isNone)

/-- A partition is QUIESCED; what waits in its admission queues ends at once (R75). -/
def quiesce (s : State) (p why : Nat) : State :=
  endQueued (partMod s p (fun x => { x with st := .quiesced, next := none, why := why, since := frameOf s, drained := false, qpsEnded := false }))
    p .quiesced

/-! ### The end of the coherent fence (R184, R382) -/

/-- An image that takes effect renumbers the agents and ends the coherent fence of its partition. An entry of the fence
table stands, and goes on to end its requester's requests. -/
def unfence (s : State) (p : Nat) : State := partMod s p (fun x => { x with fenced := 0, stall := 0, sweep := none })

/-! ### The twin's geometry (R368) -/

/-- The 16 bytes of a REGIONS record, word 3 read as zero (R59, R368). -/
def geomRecord (r : RegionRec) : List Byte :=
  leBytes 4 (r.part <<< 27 ||| r.kind <<< 25 ||| bit01 r.flash <<< 24 ||| bit01 r.gib <<< 23 ||| bit01 r.twinned <<< 22 |||
    r.index) ++ leBytes 4 r.start ++ leBytes 4 r.size ++ leBytes 4 0

/-- The geometry digest of an image's twinned regions. -/
def geomDigest (l : Layout) : Nat := crc32c ((l.regions.filter (·.twinned)).flatMap geomRecord)

/-- TWIN_EN of the image in force (R65). -/
def twinEn (l : Layout) : Bool := match l.spares with
  | none => false
  | some r => r.twinEn

/-- An image takes effect: a device in OFF with a twin seeks it; one in MISMATCH leaves it when the digests agree
(R369). -/
def twinImage (s : State) : State :=
  let g := geomDigest s.img.layout
  let t : Twin := { s.twn with geom := if twinEn s.img.layout then g else 0 }
  let st := if !twinEn s.img.layout then 0 else if t.state = 0 then 1 else if t.state = 5 ∧ t.peerGeom = g then 1 else t.state
  { s with twn := { t with state := st } }

end Sys2Proof.Machine
end

