-- ==== Sys2Proof/Machine/StackChannels.lean ====
section
/-! DEFINITION. Stack channels: queues, command scheduling under the timing rules, refresh, training, power-down,
neighbour-row protection, row repair, pruning and the spare (R202 to R223). A data channel's bytes are its slice's;
the channel's own state is what schedules and counts. -/

namespace Sys2Proof.Machine

/-! ### Places of a block (R204) -/

/-- Bank index and row of a 256 B block. -/
def blockBank (s : State) (block : Nat) : Nat := dramBank s.stk.xmapAct (256 * block)
def blockRow (block : Nat) : Nat := dramRow (256 * block)

/-- Stack ID and bank group of a bank index (R204). -/
def bankSid (k : Nat) : Nat := k / 16
/-- Bank groups of the channel, four to a SID. -/
def bankGroup (k : Nat) : Nat := 4 * bankSid k + k % 4

/-- The columns of a block that a byte mask touches, and those of them a write covers only in part of a word. -/
def maskCols (block mask : Nat) : List Nat :=
  ((List.range 4).filter (fun i => bitsOf mask (64 * i) 64 ≠ 0)).map (fun i => dramCol (256 * block + 64 * i))
def partialCols (block mask : Nat) : List Nat :=
  ((List.range 4).filter (fun i =>
    (List.range 8).any (fun w => let b := bitsOf mask (64 * i + 8 * w) 8; b ≠ 0 && b ≠ 255))).map
    (fun i => dramCol (256 * block + 64 * i))

/-! ### Permission (R202, R206) -/

/-- At least `d` clk after an earlier event; clk 0 stands for none. -/
def okAfter (t d clk : Nat) : Bool := t = 0 || t + d ≤ clk

def tRCD : Nat := 34
def tRP : Nat := 34
def tRAS : Nat := 68
def tRC : Nat := 102
def tRL : Nat := 44
def tWL : Nat := 17
def tWR : Nat := 33
def tRTP : Nat := 9
def tCCDS : Nat := 1
def tCCDL : Nat := 3
def tRRD : Nat := 5
def tFAW : Nat := 25
def tWTR : Nat := 21
def tRTW : Nat := 17
def tRFC : Nat := 410
def tXP : Nat := 17

def sidUp (c : Chan) (bank clk : Nat) : Bool :=
  let x := c.sids.getD (bankSid bank) {}
  !x.down && decide (x.readyAt ≤ clk)

def mayAct (c : Chan) (bank clk : Nat) : Bool :=
  let b := bankGet c bank
  let acts := c.timing.acts.filter (fun a => a.2 = bankSid bank)
  b.row.isNone && okAfter b.preClk tRP clk && okAfter b.actClk tRC clk && decide (b.busyUntil ≤ clk) &&
    sidUp c bank clk && acts.all (fun a => decide (a.1 + tRRD ≤ clk)) &&
    decide ((acts.filter (fun a => decide (clk < a.1 + tFAW))).length < 4)

/-- Column commands that any 128 clk admit: 125 on the data bus, 62 while the stack is throttled (R202, R396). -/
def colLimit (s : State) (ch : Nat) : Nat := if s.pwr.stackThrottle.getD (ch / 17) false then 62 else 125

def mayCol (c : Chan) (limit bank clk : Nat) (write : Bool) : Bool :=
  let b := bankGet c bank
  let recent := c.timing.recent
  okAfter b.actClk tRCD clk && decide (b.busyUntil ≤ clk) && sidUp c bank clk &&
    recent.all (fun r => decide (r.1 + (if r.2 = bankGroup bank then tCCDL else tCCDS) ≤ clk)) &&
    decide ((recent.filter (fun r => decide (clk < r.1 + 128))).length < limit) &&
    (c.timing.lastWrite == write || okAfter c.timing.colClk (if write then tRTW else tWTR) clk)

def mayPre (c : Chan) (bank clk : Nat) : Bool :=
  let b := bankGet c bank
  b.row.isSome && okAfter b.actClk tRAS clk && okAfter b.rdClk tRTP clk && okAfter b.wrEnd tWR clk &&
    decide (b.busyUntil ≤ clk)

/-- A refresh needs a closed bank that is not busy. -/
def mayRef (c : Chan) (bank clk : Nat) : Bool :=
  let b := bankGet c bank
  b.row.isNone && okAfter b.preClk tRP clk && decide (b.busyUntil ≤ clk) && sidUp c bank clk

/-! ### The commands themselves -/

/-- A command slot's content. -/
inductive DramCmd where
  | refresh (bank : Nat) | neighbour (bank : Nat) | precharge (bank : Nat)
  | activate (bank row : Nat) (slot : Option Nat)
  /-- A column command of a queue entry, by its order; `rmw` is the read of a partial write. -/
  | column (write : Bool) (order col : Nat) (rmw : Bool)
  /-- A powered-down SID is woken. -/
  | wake (sid : Nat)
deriving DecidableEq, Repr, Inhabited

def touchSid (c : Chan) (bank clk : Nat) : Chan :=
  { c with sids := c.sids.set (bankSid bank) { c.sids.getD (bankSid bank) {} with idleSince := clk } }

def cmdPre (c : Chan) (bank clk : Nat) : Chan :=
  touchSid (bankMod c bank (fun b => { b with row := none, preClk := clk })) bank clk

/-- A refresh pays one of the bank's debts; once no bank of its SID owes any, the SID may power down again (R211, R215). -/
def cmdRef (c : Chan) (bank clk : Nat) : Chan :=
  let c := touchSid (bankMod c bank (fun b => { b with
    busyUntil := clk + tRFC, forced := false, debt := if b.forced then b.debt else b.debt - 1 })) bank clk
  let paid := (List.range 16).all (fun i => (bankGet c (16 * bankSid bank + i)).debt = 0)
  if paid then { c with sids := c.sids.set (bankSid bank) { c.sids.getD (bankSid bank) {} with owing := false } } else c

def cmdRfm (c : Chan) (bank clk : Nat) : Chan :=
  touchSid (bankMod c bank (fun b => { b with busyUntil := clk + tRFC, rfm := none })) bank clk

/-- A SID leaves power-down; one that a debt of 4 wakes stays up until its owing banks are refreshed (R215). -/
def wakeSid (c : Chan) (sid clk : Nat) (owing : Bool) : Chan :=
  { c with sids := c.sids.set sid { down := false, idleSince := clk, readyAt := clk + tXP, owing := owing } }

/-! ### Neighbour-row protection (R216 to R218) -/

/-- Tracker entry of lowest count, ties to the lower entry. -/
def lowestEntry (t : List (Nat × Nat × List Nat)) : Nat :=
  (minBy (fun i => (t.getD i (0, 0, [])).2.1) (List.range t.length)).getD 0

/-- One ACT in the tracker: the row's entry after it, its place. -/
def trackAct (t : List (Nat × Nat × List Nat)) (row : Nat) (slot : Option Nat) :
    List (Nat × Nat × List Nat) × Nat :=
  let bump := fun (l : List Nat) => match slot with
    | none => l
    | some k => l.set k (l.getD k 0 + 1)
  match t.findIdx? (fun e => e.1 = row) with
  | some i =>
    let e := t.getD i (0, 0, [])
    (t.set i (row, e.2.1 + 1, bump e.2.2), i)
  | none =>
    let fresh := bump (List.replicate 8 0)
    if t.length < 16 then (t ++ [(row, 1, fresh)], t.length)
    else
      let i := lowestEntry t
      (t.set i (row, (t.getD i (0, 0, [])).2.1 + 1, fresh), i)

/-- The mode of a channel, fixed by the image in force (R216): throttle mode for the slice of a partition with at most
seven ALLOTMENTS records; neighbour-refresh mode otherwise, and for an unassigned slice. -/
def throttleMode (s : State) (ch : Nat) : Bool :=
  match (sliceOfChan s ch).bind (fun sl => sliceOwner s.img.layout sl) with
  | none => false
  | some p => decide ((s.img.layout.allots.filter (fun r => flowPart r.key = p)).length + 1 ≤ 8)

/-- Requesters of a partition by tracker slot: ascending (HOST, REQ), the engines last, as `STK_RH_LAST` codes them. -/
def slotCodes (l : Layout) (p : Nat) : List Nat :=
  (sortBy (fun a b => decide (a ≤ b)) ((l.allots.filter (fun r => flowPart r.key = p)).map
    (fun r => bit01 (flowHost r.key) <<< 15 ||| flowReq r.key))) ++ [1 <<< 16]

/-- Throttle mode on an ACT: the tracker counts it, and a count that reaches a multiple of THRESH throttles the
requester with the highest count (R217). -/
def throttleAct (s : State) (ch : Nat) (c : Chan) (bank row : Nat) (slot : Option Nat) : Chan :=
  let b := bankGet c bank
  let (t, i) := trackAct b.tracker row slot
  let e := t.getD i (0, 0, [])
  let c := bankSet c bank { b with tracker := t }
  if c.thresh = 0 ∨ e.2.1 % c.thresh ≠ 0 then c
  else
    let worst := (maxBy (fun k => e.2.2.getD k 0) (List.range e.2.2.length)).getD 0
    let codes := match (sliceOfChan s ch).bind (fun sl => sliceOwner s.img.layout sl) with
      | none => []
      | some p => slotCodes s.img.layout p
    { bankMod c bank (fun b => { b with throttled := b.throttled ++ [(row, worst)] }) with
      rhLast := some (codes.getD worst 0), cnt := { c.cnt with rhEvents := wrap32 c.cnt.rhEvents } }

/-- A throttled requester waits GAP × 64 clk after the row's previous ACT (R217). -/
def actThrottled (c : Chan) (bank row : Nat) (slot : Option Nat) (clk : Nat) : Bool :=
  let b := bankGet c bank
  match slot with
  | none => false
  | some k => b.throttled.contains (row, k) && !okAfter (tblGet (fun _ => 0) b.rowActs row) (c.gap * 64) clk

def cmdAct (s : State) (ch bank row : Nat) (slot : Option Nat) (clk : Nat) : State :=
  let c := chanGet s ch
  let c := bankMod c bank (fun b => { b with
    row := some row, actClk := clk, colClk := 0, rowActs := tblSet (fun _ => 0) b.rowActs row clk })
  let c := touchSid { c with
    cnt := { c.cnt with act := wrap32 c.cnt.act },
    timing := { c.timing with
      acts := c.timing.acts.filter (fun a => decide (clk < a.1 + tFAW)) ++ [(clk, bankSid bank)] } } bank clk
  if throttleMode s ch then chanSet s ch (throttleAct s ch c bank row slot)
  else
    let (n, s) := drawFree s
    if n % 2 ^ c.prob = 0 then
      chanSet s ch { bankMod c bank (fun b => { b with rfm := some row }) with
        cnt := { c.cnt with rhEvents := wrap32 c.cnt.rhEvents } }
    else chanSet s ch c

/-- Drain mode begins at WHI queued writes and ends at WLO (R209). -/
def updateDrain (c : Chan) : Chan :=
  let n := c.writes.length
  { c with drain := if c.whi ≤ n then true else if n ≤ c.wlo then false else c.drain }

/-- A column command: counted, its entry shortened, a read's column in flight to the pins. -/
def cmdCol (s : State) (c : Chan) (write : Bool) (order col : Nat) (rmw : Bool) (clk : Nat) : Chan :=
  let isW := write && !rmw
  match (if write then c.writes else c.reads).find? (fun e => e.order = order) with
  | none => c
  | some e =>
    let bank := blockBank s e.block
    let b := bankGet c bank
    let e' := if rmw then { e with rmw := e.rmw.filter (· != col), held := e.held ++ [col] }
      else { e with cols := e.cols.filter (· != col), held := e.held.filter (· != col) }
    let upd := fun (l : List ChanEntry) =>
      if e'.cols.isEmpty then l.filter (fun x => x.order ≠ order)
      else l.map (fun x => if x.order = order then e' else x)
    let cnt := { c.cnt with
      rd := if isW then c.cnt.rd else wrap32 c.cnt.rd, wr := if isW then wrap32 c.cnt.wr else c.cnt.wr,
      hit := if b.colClk ≠ 0 then wrap32 c.cnt.hit else c.cnt.hit }
    let c := bankSet c bank { b with
      colClk := clk, rdClk := if isW then b.rdClk else clk, wrEnd := if isW then clk + tWL + 1 else b.wrEnd }
    let c := { c with
      cnt := cnt,
      reads := if write then c.reads else upd c.reads, writes := if write then upd c.writes else c.writes,
      waitR := if write then c.waitR else max c.waitR (clk - e.since),
      waitW := if write then max c.waitW (clk - e.since) else c.waitW,
      inflight := if isW then c.inflight else
        c.inflight ++ [{ bank := bank, row := blockRow e.block, col := col, source := e.source, clk := clk }],
      timing := { c.timing with
        colClk := clk, lastWrite := isW,
        recent := c.timing.recent.filter (fun r => decide (clk < r.1 + 128)) ++ [(clk, bankGroup bank)] } }
    updateDrain (touchSid c bank clk)

/-! ### The choice of R209 -/

/-- The command an entry needs next. -/
def entryCmd (s : State) (c : Chan) (e : ChanEntry) : DramCmd :=
  let bank := blockBank s e.block
  if (c.sids.getD (bankSid bank) {}).down then .wake (bankSid bank)
  else match (bankGet c bank).row with
    | none => .activate bank (blockRow e.block) e.slot
    | some r =>
      if r ≠ blockRow e.block then .precharge bank
      else match e.rmw with
        | m :: _ => .column e.write e.order m true
        | [] => .column e.write e.order (e.cols.getD 0 0) false

/-- A write does not drain while an older queued read of any of its bytes waits: older than its newest bytes (R208). -/
def writeBlocked (c : Chan) (e : ChanEntry) : Bool :=
  c.reads.any (fun r => r.block = e.block && r.order < e.newest && (r.mask &&& e.mask) ≠ 0)

/-- A column that a partial write has read is served to nothing else until it is written (R208). -/
def columnHeld (c : Chan) (order block col : Nat) : Bool :=
  c.writes.any (fun e => e.block = block && e.order ≠ order && e.held.contains col)

/-- Entries of a queue, row hits first, then oldest. -/
def hitsFirst (s : State) (c : Chan) (l : List ChanEntry) : List ChanEntry :=
  let hit := fun (e : ChanEntry) => (bankGet c (blockBank s e.block)).row = some (blockRow e.block)
  l.filter (fun e => decide (hit e)) ++ l.filter (fun e => !decide (hit e))

/-- Whether the timing rules, refresh and the throttle permit a command now. -/
def permits (s : State) (ch : Nat) (c : Chan) (clk : Nat) (d : DramCmd) : Bool :=
  match d with
  | .refresh b | .neighbour b => mayRef c b clk
  | .precharge b => mayPre c b clk
  | .activate b row slot => mayAct c b clk && !(bankGet c b).forced && !actThrottled c b row slot clk
  | .column write order col rmw =>
    match (if write then c.writes else c.reads).find? (fun e => e.order = order) with
    | none => false
    | some e => mayCol c (colLimit s ch) (blockBank s e.block) clk (write && !rmw) &&
        !(bankGet c (blockBank s e.block)).forced && !columnHeld c order e.block col
  | .wake _ => true

/-- No queued request targets the bank. -/
def bankIdle (s : State) (c : Chan) (bank : Nat) : Bool :=
  (c.reads ++ c.writes).all (fun e => blockBank s e.block ≠ bank)

/-- Writes that may drain, row hits first, then oldest. -/
def writeCmds (s : State) (c : Chan) : List DramCmd :=
  (hitsFirst s c (c.writes.filter (fun e => !writeBlocked c e))).map (entryCmd s c)

/-- A piece of in-service training is due (R209 rule 1, R214). -/
def pieceDue (s : State) (c : Chan) (clk : Nat) : Bool := c.trainDue && !c.drain && decide (32 ≤ slotOf s clk)

/-- The piece that is due can begin, every row being closed: it comes before all that rules 2 to 7 name (R209, R214). -/
def pieceFirst (s : State) (c : Chan) (clk : Nat) : Bool :=
  pieceDue s c clk && (List.range 64).all (fun b => (bankGet c b).row.isNone)

/-- Candidates of rules 1 to 4 of R209, in their order. R209 names no place for a neighbour refresh, which follows its
row's PRE (R218): it comes after rule 1 and before rule 2 (DESIGN CHOICE, log entry 68). -/
def firstCandidates (s : State) (c : Chan) (clk : Nat) : List DramCmd :=
  let banks := List.range 64
  let open_ := fun (b : Nat) => (bankGet c b).row.isSome
  let forced := (banks.filter (fun b => (bankGet c b).forced)).map
    (fun b => if open_ b then DramCmd.precharge b else .refresh b)
  if pieceFirst s c clk then forced
  else
  let train := if pieceDue s c clk then (banks.filter open_).map DramCmd.precharge else []
  let near := (banks.filter (fun b => (bankGet c b).rfm.isSome && !open_ b)).map DramCmd.neighbour
  let old := (c.reads.filter (fun e => decide (c.age ≤ clk - e.since))).map (entryCmd s c)
  let rs := (hitsFirst s c c.reads).map (entryCmd s c)
  forced ++ train ++ near ++ (if c.drain then writeCmds s c else []) ++ old ++ rs

/-- Candidates of rules 1 to 6 of R209, in their order. -/
def candidates (s : State) (c : Chan) (clk : Nat) : List DramCmd :=
  let banks := List.range 64
  let due := banks.filter (fun b => decide (1 ≤ (bankGet c b).debt) && (bankGet c b).row.isNone && bankIdle s c b)
  let idle := (sortBy (fun a b => decide ((bankGet c b).debt ≤ (bankGet c a).debt)) due).map DramCmd.refresh
  if pieceFirst s c clk then firstCandidates s c clk
  else firstCandidates s c clk ++ (if c.reads.isEmpty then writeCmds s c else []) ++ idle

/-- The data bus of a channel carries columns in this frame (R106). -/
def busColumns (s : State) (ch n : Nat) : State :=
  { s with td := { s.td with busBusy := tblMod (fun _ => 0) s.td.busBusy ch (· + n) } }

def issue (s : State) (ch : Nat) (c : Chan) (clk : Nat) (d : DramCmd) : State :=
  match d with
  | .refresh b => chanSet s ch (cmdRef c b clk)
  | .neighbour b => chanSet s ch (cmdRfm c b clk)
  | .precharge b => chanSet s ch (cmdPre c b clk)
  | .activate b row slot => cmdAct (chanSet s ch c) ch b row slot clk
  | .column write order col rmw =>
    busColumns (chanSet s ch (cmdCol s c write order col rmw clk)) ch 1
  | .wake sid => chanSet s ch (wakeSid c sid clk false)

/-- The next DRAM command of a scrub of a column, which waits like any other (R209, R312): its SID woken, another row
closed, its own opened, then the read, when `f` does the scrub; not between the read and the write of a partial write
of the column (R208). The device's own ACTs count in the tracker (R216). -/
def scrubStep (s : State) (ch clk bank row col : Nat) (f : State → State) : State :=
  let c := chanGet s ch
  let b := bankGet c bank
  if columnHeld c c.nextOrder (dramAddr s.stk.xmapAct row bank col / 256) col then s
  else if (c.sids.getD (bankSid bank) {}).down then chanSet s ch (wakeSid c (bankSid bank) clk false)
  else match b.row with
    | none => if mayAct c bank clk && !b.forced then cmdAct s ch bank row none clk else s
    | some r =>
      if r ≠ row then
        let wanted := (c.reads ++ c.writes).any (fun e => blockBank s e.block = bank && blockRow e.block = r)
        if mayPre c bank clk && !wanted then chanSet s ch (cmdPre c bank clk) else s
      else if mayCol c (colLimit s ch) bank clk false && !b.forced then
        let c := touchSid (bankMod c bank (fun b => { b with colClk := clk, rdClk := clk })) bank clk
        let c := { c with
          cnt := { c.cnt with rd := wrap32 c.cnt.rd, hit := if b.colClk ≠ 0 then wrap32 c.cnt.hit else c.cnt.hit },
          timing := { c.timing with
            colClk := clk, lastWrite := false,
            recent := c.timing.recent.filter (fun r => decide (clk < r.1 + 128)) ++ [(clk, bankGroup bank)] } }
        f (busColumns (chanSet s ch c) ch 1)
      else s

/-- The channel takes requests: serving, or pruned while its contents are copied; the spare they are copied to takes the
writes, which go to both (R221). -/
def chanServes (c : Chan) (write : Bool) : Bool :=
  c.state = 1 || (c.state = 4 && c.copying && !c.asleep) || (c.state = 2 && write)

/-- The channel runs: it is neither in training, nor pruned, nor in self-refresh. -/
def chanUp (c : Chan) : Bool := c.state = 1 || c.state = 2 || c.state = 3

/-- A pruned channel whose contents are readable is refreshed on (R220). -/
def chanRefreshes (c : Chan) : Bool := chanUp c || (c.state = 4 && c.readable && !c.asleep)

/-- A channel's queues and open rows go at a clk: the waits of what they held count for the frame (R104), and the timers
of the SIDs they concerned start again (R215). -/
def emptyQueues (s : State) (c : Chan) : Chan :=
  let clk := s.td.now
  let waited := fun (l : List ChanEntry) (m : Nat) => l.foldl (fun m e => max m (clk - e.since)) m
  let banks := (c.reads ++ c.writes).map (fun e => blockBank s e.block) ++
    (c.banks.filter (fun e => e.2.row.isSome)).map (·.1)
  { banks.foldl (fun c b => touchSid c b clk) c with
    waitR := waited c.reads c.waitR, waitW := waited c.writes c.waitW,
    reads := [], writes := [], inflight := [], drain := false
    banks := c.banks.map (fun b => (b.1, { b.2 with row := none })) }

/-! ### Pruning and the spare (R220, R221) -/

/-- The replacement of a pruned data channel by its stack's idle spare begins. -/
def startGraft (s : State) (ch : Nat) : State :=
  let c := chanGet s ch
  let spare := 17 * (ch / 17) + 16
  let x := chanGet s spare
  if ch % 17 = 16 ∨ c.state ≠ 4 ∨ c.copying ∨ x.state ≠ 3 ∨ x.serves.isSome then s
  else
    let sl := 16 * (ch / 17) + ch % 17
    if c.readable then
      chanSet (chanSet s ch { c with copying := true, copied := 0 }) spare { x with state := 2, serves := some sl }
    else chanSet s spare { x with serves := some sl, graftDue := true }

/-- A channel is pruned; with AUTO bit 2 the spare replaces a data channel at once. -/
def pruneChan (s : State) (ch : Nat) (readable : Bool) : State :=
  if (chanGet s ch).state = 4 then s
  else
    let s := chanMod s ch (fun c => { emptyQueues s c with
      state := 4, readable := readable, copying := false, asleep := false, trainDue := false, trainFailed := false,
      graftDue := false, serves := none })
    let s := if ch % 17 = 16 then
        (List.range 16).foldl (fun s n => if (chanGet s (ch - 16 + n)).copying then
          chanMod s (ch - 16 + n) (fun c => { c with copying := false }) else s) s
      else s
    if autoBit s 2 then startGraft s ch else s

/-- Every word of a slice reads marked from now on, with the consequences of R307 for what its reserve holds (R221):
its coherent lines enter P as their entries are read, its translation entries read unmapped, and what the partition
keeps in that share of its reserve, programs and stored ledger entries, is lost. The loss is reported once, at the slice's first word. -/
def loseSlice (s : State) (sl : Nat) : State :=
  let s := { s with di := { s.di with ueDram := sat16 s.di.ueDram } }
  let s := chanMod s (chanOf s sl) (fun c => { c with cnt := { c.cnt with ue := sat16 c.cnt.ue } })
  let s := logDram s 2 7 3 0 sl 0
  let s := { s with stk := { s.stk with
    lost := if s.stk.lost.contains sl then s.stk.lost else s.stk.lost ++ [sl],
    marks := s.stk.marks.filter (fun e => e.1 / 2 ^ 30 ≠ sl) } }
  match sliceOwner s.img.layout sl with
  | none => s
  | some p =>
    let sls := partSlices s.img.layout p
    let pos := sls.findIdx (· == sl)
    let inSlice := fun (u : Nat) => decide (u % sls.length = pos)
    let lostUnits := (s.eng.pte.filter (fun e => e.1 / 2 ^ 26 = p && inSlice (e.1 % 2 ^ 26))).map (·.1)
    let s := lostUnits.foldl (fun s k =>
      match pteGet s p (k % 2 ^ 26) with
      | .mapped h => versionSet (pteSet s p (k % 2 ^ 26) (.lost h)) p (k % 2 ^ 26) {}
      | _ => s) s
    let progs := (s.img.layout.progs.filter (fun r => r.part = p && inSlice r.slot)).map (fun r => p * 16 + r.slot)
    let s := { s with eng := { s.eng with lostProgs := s.eng.lostProgs ++ progs } }
    let g := (partGet s p).ledger
    let gone := if g.size = 0 then [] else (List.range (g.head - g.tail)).filterMap (fun i =>
      if inSlice (g.tail + i) then some (g.tail + i) else none)
    gone.foldl (fun s n => lgBreak (lgForget s p n) p n n) s

/-- A channel enters self-refresh: its rows close, its contents stay, a copy waits (R385, R398). A pruned channel whose
contents are readable does so too, and goes on to read PRUNED (DESIGN CHOICE, log entry 68). -/
def selfRefresh (s : State) (x : Chan) : Chan :=
  if chanUp x then { emptyQueues s x with state := 5 }
  else if x.state = 4 ∧ x.readable then { emptyQueues s x with asleep := true }
  else x

/-- The channel is held in self-refresh. -/
def inSelfRefresh (x : Chan) : Bool := x.state = 5 || x.asleep

/-- Self-refresh ends; each channel so held takes one training piece (R385, R399). -/
def oweTraining (x : Chan) : Chan := if inSelfRefresh x then { x with trainDue := true } else x

/-- A channel in self-refresh still awaits its piece. -/
def owesTraining (x : Chan) : Bool := inSelfRefresh x && (x.trainDue || x.trainFailed)

/-- A channel leaves self-refresh as it entered: serving, an idle spare, a spare that is copied to, or pruned (R385,
R399). -/
def endSelfRefresh (s : State) (ch : Nat) : State :=
  let x := chanGet s ch
  let state := if ch % 17 ≠ 16 then 1 else match x.serves with
    | none => 3
    | some sl => if (chanGet s (17 * (sl / 16) + sl % 16)).copying then 2 else if x.graftDue then 3 else 1
  if x.state = 5 then chanSet s ch { x with state := state }
  else if x.asleep then chanSet s ch { x with asleep := false }
  else s

/-- The contents of a pruned channel are gone, its training having failed twice: a copy of them ends, and the spare takes
the slice at the next tick, empty (R214, R221). -/
def loseContents (s : State) (ch : Nat) : State :=
  let c := chanGet s ch
  let s := chanSet s ch { c with
    readable := false, copying := false, asleep := false, trainDue := false, trainFailed := false }
  if c.copying then chanMod s (17 * (ch / 17) + 16) (fun x => { x with graftDue := true }) else s

/-- What stands wrong in a spare's cells once it holds a slice: flips add to those that were copied, a word found bad
there is bad (R221, R300). -/
def adoptCells (s : State) (sl : Nat) : State :=
  let q := spareCells (sl / 16)
  let mine := s.stk.marks.filter (fun e => e.1 / 2 ^ 30 = q)
  let s := { s with stk := { s.stk with marks := s.stk.marks.filter (fun e => e.1 / 2 ^ 30 ≠ q) } }
  mine.foldl (fun s e =>
    let k := sl * 2 ^ 30 + e.1 % 2 ^ 30
    let m := markGet s k
    markSet s k (if e.2.poison then e.2 else { m with flips := m.flips ^^^ e.2.flips })) s

/-- At the tick a spare whose copy has ended, or that replaces lost contents, takes the slice (R5, R221). -/
def tickGraftSpare (s : State) (spare : Nat) : State :=
  let x := chanGet s spare
  match x.graftDue, x.serves with
  | true, some sl =>
    if graftWaits s sl then s else
    let old := 17 * (sl / 16) + sl % 16
    let lost := !(chanGet s old).readable && !(chanGet s old).blank
    let s := chanSet s spare { x with state := 1, graftDue := false }
    let s := chanMod s old (fun c => { c with copying := false })
    if lost then loseSlice s sl else adoptCells s sl
  | _, _ => s

/-! ### Rows that wear (R219, R313) -/

/-- A column read that a channel makes, with the errors it meets: flips that stand in the cells, then R303 whole. -/
def columnAt (s : State) (ch source bank row col : Nat) (cells transit : List (Nat × Nat)) : State :=
  match cellsOf s ch with
  | none => s
  | some sl =>
    let a := dramAddr s.stk.xmapAct row bank col
    let k0 := wordKey sl a
    let s := cells.foldl (fun s e =>
      let m := markGet s (k0 + e.1 % 8)
      markSet s (k0 + e.1 % 8) { m with flips := (m.flips ^^^ e.2) % 2 ^ 80 }) s
    (readColumn s source sl a transit).1

/-- The corrected words of a column are written back; what cannot be corrected stays marked (R219, R311). -/
def writeBackColumn (s : State) (sl a : Nat) : State :=
  let ws := lineDecode s sl a []
  let s := ws.foldl (fun s w =>
    let k := wordKey sl (a / 64 * 64) + w.1
    match w.2 with
    | none => markSet s k (markedWord (markGet s k))
    | some (n, _, _) => if n = 0 then s else markSet s k (correctedWord (markGet s k))) s
  if ws.any (fun w => w.2.all (fun x => x.1 ≠ 0)) then injectFlips s sl a else s

/-! ### Commands -/

/-- CHANNEL_REQUEST_ENQUEUE (R202, R208): forwarded, merged or queued; a full queue accepts nothing of its kind. A write
that merges leaves the entry with its first writer, whose throttle of R217 binds it (DESIGN CHOICE, log entry 68). -/
def execChannelRequestEnqueue (chan : Fin 136) (req : ChannelReq) (clk : Nat) (s : State) :
    Host.Outcome State Fault Refusal :=
  let s := seenClk s clk
  let c := chanGet s chan.val
  let first := req.first % 256
  let mask := (2 ^ (min req.count (256 - first)) - 1) <<< first
  if !chanServes c req.write ∨ mask = 0 ∨ 64 ≤ (if req.write then c.writes else c.reads).length then .next s
  else
    let e : ChanEntry :=
      { write := req.write, block := req.block, mask := mask, cols := maskCols req.block mask, slot := req.slot,
        since := clk, order := c.nextOrder, rmw := if req.write then partialCols req.block mask else [],
        newest := c.nextOrder, source := req.source.val }
    let c1 := touchSid { c with nextOrder := c.nextOrder + 1 } (blockBank s req.block) clk
    if req.write then
      match c.writes.find? (fun w => w.block = req.block) with
      | some w =>
        let m := w.mask ||| mask
        .next (chanSet s chan.val { c1 with writes := c.writes.map (fun x => if x.order = w.order then
          { w with mask := m, cols := maskCols req.block m, rmw := partialCols req.block m, held := [],
                   newest := c.nextOrder } else x) })
      | none => .next (chanSet s chan.val (updateDrain { c1 with writes := c.writes ++ [e] }))
    else
      let held := (c.writes.filter (fun w => w.block = req.block)).foldl (fun m w => m ||| w.mask) 0
      let fwd := { c1 with cnt := { c.cnt with fwd := wrap32 c.cnt.fwd } }
      if mask &&& held = mask then .next (chanSet s chan.val fwd)
      else
        let c2 := if mask &&& held ≠ 0 then fwd else c1
        .next (chanSet s chan.val { c2 with reads := c.reads ++ [e] })

/-- A command/address parity error: the stack takes no command, the error is counted, and at CE_LIMIT in the window the
channel is pruned (R203, R220). -/
def parityError (s : State) (ch : Nat) : State :=
  let s := chanMod s ch (fun c => { c with caErrs := c.caErrs + 1 })
  if 0 < ceLimit s ∧ ceLimit s ≤ (chanGet s ch).caErrs then pruneChan s ch true else s

/-- DRAM_COMMAND_ISSUE (R206, R207, R209, R212, R217, R218): the first command of R209's order that the timing rules
permit; nothing while a training piece runs. A command on which the stack reports a parity error is lost. -/
def execDramCommandIssue (chan : Fin 136) (slot : CommandSlot) (s : State) : Host.Outcome State Fault Refusal :=
  let clk := slot.clk
  let s := seenClk s clk
  let c := chanGet s chan.val
  if !chanRefreshes c ∨ clk < c.trainUntil then .next s
  else match (candidates s c clk).find? (permits s chan.val c clk) with
    | none => .next s
    | some d => .next (if slot.parity then parityError s chan.val else issue s chan.val c clk d)

/-- DRAM_READ_DATA (R206, R303): the oldest column in flight returns, tRL after its command, with the errors it met. -/
def execDramReadData (chan : Fin 136) (errs : ColumnErrors) (s : State) : Host.Outcome State Fault Refusal :=
  let s := seenClk s errs.clk
  let c := chanGet s chan.val
  match c.inflight with
  | [] => .next s
  | r :: rest =>
    if errs.clk < r.clk + tRL then .next s
    else .next (columnAt (chanSet s chan.val { c with inflight := rest }) chan.val r.source r.bank r.row r.col errs.cells
      errs.transit)

/-- IDLE_PRECHARGE (R207): an open row with no queued request whose idle timer has run out is closed. -/
def execIdlePrecharge (chan : Fin 136) (bank : Fin 64) (clk : Nat) (s : State) : Host.Outcome State Fault Refusal :=
  let s := seenClk s clk
  let c := chanGet s chan.val
  let b := bankGet c bank.val
  match b.row with
  | none => .next s
  | some r =>
    let wanted := (c.reads ++ c.writes).any (fun e => blockBank s e.block = bank.val && blockRow e.block = r)
    if wanted ∨ clk < b.colClk + c.idle ∨ !mayPre c bank.val clk then .next s
    else .next (chanSet s chan.val (cmdPre c bank.val clk))

/-- tREFI of a channel (R211). -/
def tREFI (c : Chan) : Nat := if c.hot then 4000 else 8000

/-- The clk offset within each period at which a bank accrues: 125k, or 62.5k above 85 °C, the half taken as the next
whole clk (R211). Periods are counted from clk 0. -/
def accrualAt (c : Chan) (bank : Nat) : Nat := if c.hot then (125 * bank + 1) / 2 else 125 * bank

/-- REFRESH_ACCRUAL (R211, R212, R215): at the bank's own clk of each period. Debt rises to 8 at most; a ninth accrual
forces a refresh; a debt of 4 wakes a powered-down SID. -/
def execRefreshAccrual (chan : Fin 136) (bank : Fin 64) (clk : Nat) (s : State) : Host.Outcome State Fault Refusal :=
  let s := seenClk s clk
  let c := chanGet s chan.val
  if !chanRefreshes c ∨ clk % tREFI c ≠ accrualAt c bank.val ∨ (bankGet c bank.val).accrued = clk + 1 then .next s
  else
    let c := bankMod c bank.val (fun b => { b with accrued := clk + 1 })
    let b := bankGet c bank.val
    let c := if b.debt < 8 then bankSet c bank.val { b with debt := b.debt + 1 }
      else { bankSet c bank.val { b with forced := true } with
             cnt := { c.cnt with forced := sat16 c.cnt.forced } }
    let d := (bankGet c bank.val).debt
    let c := { c with cnt := { c.cnt with peak := max c.cnt.peak d } }
    let sid := bankSid bank.val
    let c := if 4 ≤ d ∧ (c.sids.getD sid {}).down then wakeSid c sid clk true else c
    .next (chanSet s chan.val c)

/-- TRAINING_PIECE (R214, R220): 256 clk in which nothing else is issued; a second failure in a row prunes the channel,
its contents lost. -/
def execTrainingPiece (chan : Fin 136) (passed : Bool) (clk : Nat) (s : State) : Host.Outcome State Fault Refusal :=
  let s := seenClk s clk
  let c := chanGet s chan.val
  if !pieceDue s c clk ∨ (c.state = 4 ∧ !c.asleep) then .next s
  else
    let c1 := { c with
      banks := ((List.range 64).foldl (fun c b => bankMod c b (fun x => { x with row := none })) c).banks,
      sids := (List.range 4).map (fun i => let x := c.sids.getD i {}
        if (List.range 16).any (fun b => (bankGet c (16 * i + b)).row.isSome) then { x with idleSince := clk } else x),
      trainDue := false, trainUntil := clk + 256,
      cnt := { c.cnt with
        trainRuns := wrap16 c.cnt.trainRuns, trainFails := if passed then c.cnt.trainFails else sat8 c.cnt.trainFails } }
    if passed then .next (chanSet s chan.val { c1 with trainFailed := false })
    else if c.trainFailed then
      .next (if c.state = 4 then loseContents (chanSet s chan.val c1) chan.val
        else pruneChan (chanSet s chan.val c1) chan.val false)
    else .next (chanSet s chan.val { c1 with trainFailed := true })

/-- SID_POWER_DOWN (R215): of a channel that takes commands. -/
def execSidPowerDown (chan : Fin 136) (sid : Fin 4) (clk : Nat) (s : State) : Host.Outcome State Fault Refusal :=
  let s := seenClk s clk
  let c := chanGet s chan.val
  let x := c.sids.getD sid.val {}
  let banks := (List.range 16).map (fun i => 16 * sid.val + i)
  let quiet := banks.all (fun b => let y := bankGet c b; y.row.isNone && decide (y.busyUntil ≤ clk) && bankIdle s c b)
  if !chanRefreshes c ∨ c.pdn = 0 ∨ x.down ∨ x.owing ∨ !quiet ∨ clk < c.trainUntil ∨ clk < max x.idleSince (banks.foldl (fun m b => max m (bankGet c b).busyUntil) 0) + c.pdn
  then .next s
  else .next (chanSet s chan.val { c with sids := c.sids.set sid.val { x with down := true } })

/-- A repair of a row is due: an uncorrectable error, or CE_LIMIT corrected ones in the window (R219). -/
def rowDue (s : State) (errs : Nat) : Bool := decide (65536 ≤ errs) || (decide (0 < ceLimit s) && decide (ceLimit s ≤ errs))

/-- ROW_REPAIR (R78, R219, R220): the row's 16 columns are read, corrected and written to a spare row; a bank without one
prunes its channel. A repair not due does nothing, and one in a partition that is QUIESCED for a load waits. -/
def execRowRepair (chan : Fin 136) (bank : Fin 64) (row : Nat) (clk : Nat) (s : State) :
    Host.Outcome State Fault Refusal :=
  let s := seenClk s clk
  let c := chanGet s chan.val
  let b := bankGet c bank.val
  let errs := tblGet (fun _ => 0) b.rowErrs row
  if !autoBit s 3 ∨ !chanUp c ∨ clk < c.trainUntil ∨ !rowDue s errs then .next s
  else if 2 ≤ b.repaired.length then .next (pruneChan s chan.val true)
  else if (sliceOfChan s chan.val).any (graftWaits s) then .next s
  else
    let s := busColumns s chan.val 32
    let s := match cellsOf s chan.val with
      | none => s
      | some sl => (List.range 16).foldl (fun s col =>
        let a := dramAddr s.stk.xmapAct row bank.val col
        writeBackColumn (readColumn s 7 sl a []).1 sl a) s
    let group := (List.range 4).map (fun i => bankSid bank.val * 16 + i * 4 + bank.val % 4)
    let c := group.foldl (fun c g => touchSid (bankMod c g (fun x => { x with row := none, busyUntil := clk + 4096 })) g clk)
      (chanGet s chan.val)
    let c := bankMod c bank.val (fun x => { x with
      repaired := x.repaired ++ [row], rowErrs := tblErase x.rowErrs row })
    let s := chanSet s chan.val c
    if s.stk.repairLog.length < 4096 then
      .next { s with stk := { s.stk with
        repairLog := s.stk.repairLog ++ [(chan.val / 17, chan.val % 17, bank.val, row)] } }
    else .next { s with stk := { s.stk with dropped := sat16 s.stk.dropped } }

/-- STK_PRUNE (R220): software prunes a channel; its contents stay readable. -/
def execStkPrune (chan : Fin 136) (s : State) : Host.Outcome State Fault Refusal := .next (pruneChan s chan.val true)

/-- STK_GRAFT (R221): the spare replaces a pruned data channel; ignored elsewhere. -/
def execStkGraft (chan : Fin 136) (s : State) : Host.Outcome State Fault Refusal := .next (startGraft s chan.val)

/-- STK_CTRL.CLR (R223, R319). -/
def clearChan (s : State) (ch : Nat) : State := chanMod s ch (fun c => { c with cnt := {} })
def execStkClear (chan : Fin 136) (s : State) : Host.Outcome State Fault Refusal := .next (clearChan s chan.val)

/-- CHANNEL_COPY_PIECE (R221, R304): one 2 MiB piece of a pruned channel's contents reaches the spare, corrected where
it can be, its bad words marked; after the last piece the spare waits for the tick. Nothing is copied during a
training piece of the spare (R214), nor while either is in self-refresh. The first column that the spare so writes takes
an armed injection (R318). -/
def execChannelCopyPiece (piece : CopyPiece) (s : State) : Host.Outcome State Fault Refusal :=
  let chan := piece.chan
  let s := seenClk s piece.clk
  let c := chanGet s chan.val
  let spare := 17 * (chan.val / 17) + 16
  if !c.copying ∨ c.asleep ∨ (chanGet s spare).state ≠ 2 ∨ 2304 ≤ c.copied ∨ piece.clk < (chanGet s spare).trainUntil then
    .next s
  else
    let sl := 16 * (chan.val / 17) + chan.val % 17
    let q := spareCells (chan.val / 17)
    let qlo := wordKey q (c.copied * 2097152)
    let s := busColumns (busColumns s chan.val 32768) spare 32768
    let s := { s with stk := { s.stk with marks := s.stk.marks.filter (fun e => e.1 < qlo || qlo + 262144 ≤ e.1) } }
    let s := injectFlips s q (c.copied * 2097152)
    let lo := wordKey sl (c.copied * 2097152)
    let lines := ((s.stk.marks.filter (fun e => lo ≤ e.1 && e.1 < lo + 262144)).map (fun e => e.1 % 2 ^ 30 / 8)).eraseDups
    let s := lines.foldl (fun s n => writeBackColumn (readColumn s 7 sl (64 * n) []).1 sl (64 * n)) s
    let s := chanMod s chan.val (fun c => { c with copied := c.copied + 1 })
    if c.copied + 1 = 2304 then .next (chanMod s spare (fun x => { x with graftDue := true }))
    else .next s

end Sys2Proof.Machine
end

