-- ==== Sys2Proof/Machine/Start.lean ====
section
/-! DEFINITION. What a start leaves of each block (R394, R395, R401, R409): cold power-on, RST_N, a warm start, leaving
D3; and how a whole-device image takes effect (R72, R73, R95, R205, R221). -/

namespace Sys2Proof.Machine

/-- A reset by RST_N counts as a cold power-on but for powered time and the boot counter (R394). -/
def coldLike (k : StartKind) : Bool := k = .cold || k = .rstN

/-! ### Blocks -/

/-- Every partition: its epoch advances, a transient key set, a new chain, nothing in force (R344, R346, R360); digest and
serial read 0 until an image sets them (log entry 31). -/
def restartParts (s : State) : State :=
  (List.range 32).foldl (fun s p =>
    let n := s.sec.nextKey
    let e := (partGet s p).epoch
    let s := { s with sec := { s.sec with nextKey := n + 1 } }
    partSet s p { epoch := (e + 1) % 2 ^ 32, keys := transientSet n }) s

/-- The image block: owner slots are non-volatile; the refusals count from cold power-on (R82, R409). -/
def restartImg (k : StartKind) (g : ImgState) : ImgState :=
  if coldLike k then { owners := g.owners }
  else { owners := g.owners, refused := g.refused, refusedCount := g.refusedCount }

/-- The traffic block: powered time and the boot counter (R108, R109), and the tick state. A warm start keeps TD_QHEAD,
which R409 does not name (log entry 18). -/
def restartTd (k : StartKind) (t : Traffic) : Traffic :=
  let base : Traffic := { now := t.now, tickClk := t.now, ptime := t.ptime, boot := t.boot }
  match k with
  | .cold => { base with ptime := 0, boot := min (2 ^ 32 - 1) (t.boot + 1) }
  | .rstN | .d3 => base
  | .warm => { base with
      tickClk := t.tickClk, sync := t.sync, hold := t.hold, lastLen := t.lastLen, freerun := t.freerun,
      edgeTick := t.edgeTick, qhead := t.qhead, qheadOld := t.qhead }

/-- A Keaxel port: its link state stays through a warm start, to be judged by the RING record (R77); leaving D3 it is
fresh, with its configuration, its pruned lanes, and the prunings and returns that wait for its next reset (R138). -/
def restartPort (k : StartKind) (p : Port) : Port :=
  match k with
  | .warm => { p with cnt := {}, waits := [0, 0, 0, 0], hist := [], histOld := [] }
  | .d3 => { cfg := p.cfg, symLim := p.symLim, pruned := p.pruned, pruneWait := p.pruneWait,
              restore := p.restore, graftDue := p.graftDue, active := p.cfg }
  | _ => {}

/-- A stack channel: what training, the repair log and its registers give it (R214, R219, R409). -/
def restartChan (k : StartKind) (s : State) (c : Nat) : Chan :=
  let x := chanGet s c
  let repairs := (s.stk.repairLog.filter (fun r => 17 * r.1 + r.2.1 = c)).map (fun r => (r.2.2.1, r.2.2.2))
  let base := chanDefault c
  let sids := List.replicate 4 ({ idleSince := s.td.now } : Sid)
  if coldLike k then
    { base with
      sids := sids
      banks := repairs.foldl (fun t r =>
        tblMod (fun _ => ({} : Bank)) t r.1 (fun b => { b with repaired := b.repaired ++ [r.2] })) [] }
  else
    { base with
      state := if k = .d3 then (if x.state = 4 then 4 else 0)
        else if x.state = 5 ∨ (c % 17 = 16 ∧ x.serves.isSome ∧ (x.graftDue ∨ x.state = 2)) then 1 else x.state,
      idle := x.idle, pdn := x.pdn, age := x.age, whi := x.whi, wlo := x.wlo, prob := x.prob, gap := x.gap,
      thresh := x.thresh, sids := sids, readable := x.readable, blank := x.state = 4 ∧ !x.readable, serves := x.serves,
      banks := (x.banks.map (fun e => (e.1, ({ repaired := e.2.repaired } : Bank)))).filter (fun e => e.2 ≠ {}) }

def restartStk (k : StartKind) (s : State) : Stack :=
  let chans := tblSetMany chanDefault [] ((List.range 136).map (fun c => (c, restartChan k s c)))
  if coldLike k then { repairLog := s.stk.repairLog, chans := chans }
  else { xmap := s.stk.xmap, xmapAct := if k = .warm then s.stk.xmap else s.stk.xmapAct, decode := s.stk.decode,
         repairLog := s.stk.repairLog, chans := chans }

/-- Flash: the map is gone and every stripe block that held pages is queued for erase; what discovery
settled stands until the next cold power-on (R228, R229, R243). -/
def restartFl (k : StartKind) (f : Flash) : Flash :=
  let blocks := tblSetMany (fun _ => {}) [] (f.blocks.map (fun e =>
    (e.1, if e.2.st = 1 ∨ e.2.st = 2 then { e.2 with st := 3, moving := false } else e.2)))
  -- a group that lost a channel stays out (R241)
  let lost := maskOf ((List.range 8).filter (fun g => f.excluded.testBit g ||
    (List.range 4).any (fun q => (tblGet (fun _ => (0, 0, 0)) f.chans (4 * g + q)).1 = 2)))
  let base : Flash :=
    { blocks := blocks, defects := f.defects, nextStamp := f.nextStamp, issued := f.issued, excluded := lost }
  match k with
  | .warm | .d3 => { base with
      hint := f.hint, rdbits := f.rdbits, rdlim := f.rdlim, clean := f.clean, retain := f.retain, spread := f.spread,
      discovered := f.discovered, usable := f.usable, rawGiB := f.rawGiB, chans := f.chans, geom := f.geom,
      groups := f.groups, factoryBad := f.factoryBad, reserve := f.reserve, unreplaced := f.unreplaced,
      degradedSeen := f.degradedSeen }
  | _ => base

/-- Engines: counters, traps and work are gone; prunings and grafts stay unless the start is cold (R409). -/
def restartEng (k : StartKind) (g : Engines) : Engines :=
  if coldLike k then {}
  else { eng := tblSetMany engDefault [] (g.eng.map (fun e =>
    (e.1, ({ logical := e.2.logical, pruned := e.2.pruned || e.2.pruneDue } : Engine)))) }

def restartCoh (k : StartKind) (c : Coh) : Coh :=
  if coldLike k then {}
  else { sto := c.sto, waysPruned := c.waysPruned,
         halves := c.halves.map (fun h => ({ lost := h.lost, grafted := h.grafted } : CohHalf)) }

/-- Integrity: the error log and DI_FAULT_STATUS stay unless the start is cold, with the grafts of SRAM rows. -/
def restartDi (k : StartKind) (d : Integrity) : Integrity :=
  if coldLike k then {}
  else { off := d.off, period := d.period, logTotal := d.logTotal, logHead := d.logHead, log := d.log,
         faultStatus := d.faultStatus, faultMask := d.faultMask, rowsGrafted := d.rowsGrafted, rowsLost := d.rowsLost,
         rowSpares := d.rowSpares, rowDue := d.rowDue, irq := d.irq }

/-- Ethernet: addresses, PHY fields and the management queue pair stay unless the start is cold (R334, R409); a run-time
image tears every data queue pair down (R77, R324). -/
def restartEth (k : StartKind) (e : Eth) : Eth :=
  let mq := tblGet (fun _ => {}) e.qps 4096
  let qps := tblSet (fun _ => {}) [] 4096 mq
  match k with
  | .warm => { ports := e.ports.map (fun p => { p with fcs := 0, other := 0 }), ip := e.ip,
               qps := tblSet (qpDefault true) [] 4096 mq, torn := true,
               kept := e.kept.filter (fun d => d.2.destQp.toNat = 2) }
  | .d3 => { ports := e.ports.map (fun p => ({ state := 1, phy := p.phy } : EthPort)), ip := e.ip, qps := qps }
  | _ => { ports := List.replicate 4 { state := 1 } }

/-- The attestation unit and the firmware: the reserve key is drawn anew (R345, R409), and a start that halts the management core runs the committed slot (R357). -/
def restartSec (k : StartKind) (x : Security) : Security :=
  let base : Security :=
    { owcCount := x.owcCount, mgmtKey := x.mgmtKey, mgmtCounter := x.mgmtCounter, nextKey := x.nextKey + 1,
      reserveKey := sliceBytes (Config.transientKey x.nextKey) 0 64,
      committed := x.committed, running := x.committed, fwFloor := x.fwFloor, fwLeft := x.fwLeft }
  match k with
  | .cold => { base with mgmtCounter := 0 }
  | .rstN => base
  | .d3 => { base with cmdIndex := x.cmdIndex, cmdDev := x.cmdDev, cmdPart := x.cmdPart, cmdOp := x.cmdOp,
                       code := x.code, op := x.op, rollback := x.rollback }
  | .warm => { base with
      cmdIndex := x.cmdIndex, cmdDev := x.cmdDev, cmdPart := x.cmdPart, cmdOp := x.cmdOp, code := x.code, op := x.op,
      running := x.running, staged := x.staged, pendingSince := x.pendingSince, rollback := x.rollback }

/-- The twin: OFF with the line released; configuration, fences and the watchdog stay unless the start is cold. -/
def restartTwn (k : StartKind) (t : Twin) : Twin :=
  if coldLike k then { lineHigh := t.lineHigh }
  else { lineHigh := t.lineHigh, shadow := t.shadow, ackto := t.ackto, copyRate := t.copyRate, fences := t.fences,
         fenceDue := t.fenceDue, fenced := t.fenced, rstKind := t.rstKind, rstPart := t.rstPart,
         wdtEn := t.wdtEn, wdtTimeout := t.wdtTimeout, wdtCount := t.wdtCount, wdtArmed := t.wdtArmed,
         wdtHeld := t.wdtHeld, wdtRestarts := t.wdtRestarts, wdtFires := t.wdtFires }

/-- The power block lies in the always-on domain: registers default on a cold start alone (R409, R412). -/
def restartPwr (k : StartKind) (w : Power) : Power :=
  let base : Power :=
    { stage := w.stage, rstHigh := w.rstHigh, refclk := w.refclk, start := k, straps := w.straps, untrained := w.untrained,
      vin := w.vin, amp := w.amp, deciWatt := w.deciWatt, tempNow := w.tempNow, tempPeak := w.tempNow,
      tripRecord := w.tripRecord, voltRecord := w.voltRecord, lastRst := w.lastRst }
  match k with
  | .cold => base
  | .rstN => { base with lastRst := 1 }
  | .warm => { w with lastRst := 4 }
  | .d3 => { w with state := 3, target := 0, busy := true, moving := 0, lastRst := 5, start := .d3 }

/-- The units but the partitions: what the start leaves of them (R409). Requests and packets in the device are gone; a
warm start keeps what the ring stop holds. -/
def restartUnits (k : StartKind) (s : State) : State :=
  let fab : Fabric := if k = .warm then
      { waiting := s.fab.waiting, nextAge := s.fab.nextAge, arrivals := s.fab.arrivals, inbox := s.fab.inbox,
        mcasts := s.fab.mcasts }
    else {}
  { s with
    mgmt := if k = .warm then s.mgmt else {}
    img := restartImg k s.img
    flows := []
    td := restartTd k s.td
    ports := tblSetMany (fun _ => {}) [] ((List.range 8).map (fun p => (p, restartPort k (portGet s p))))
    fab := fab
    coh := restartCoh k s.coh
    stk := restartStk k s
    near := if coldLike k then {} else { lostRows := s.near.lostRows }
    fl := restartFl k s.fl
    eng := restartEng k s.eng
    di := { restartDi k s.di with passStart := (restartTd k s.td).ptime }
    eth := restartEth k s.eth
    sec := restartSec k s.sec
    twn := restartTwn k s.twn
    pwr := restartPwr k s.pwr
    staging := if k = .warm then s.staging else []
    mailbox := if k = .warm then s.mailbox else []
    svc := [] }

/-- Everything but the image: what the start leaves of the machine (R409). -/
def restart (k : StartKind) (s : State) : State := restartUnits k (restartParts s)

/-! ### A whole-device image takes effect (R72, R73, R77, R95, R221, R395) -/

/-- One partition of a new whole-device image: its regions mapped, its ledger begun, ACTIVE from the next tick. -/
def layPartition (im : Image) (s : State) (r : PartRec) : State :=
  let p := r.part
  let s := mapRegions s p (regionsOf s.img.layout p)
  let s := partMod s p (fun x => { x with
    st := .quiesced, next := some .active, why := 4, since := frameOf s, drained := true, digest := im.digest,
    serial := im.serial })
  lgImage (lgStart (unfence s p) p) p 3 im

/-- With AUTO bit 2 of the first image after a cold start, a channel that failed training is replaced by its stack's
spare, which the hardware fill has covered (R221). -/
def graftUntrained (s : State) : State :=
  if !autoBit s 2 then s
  else (List.range 136).foldl (fun s c =>
    let spare := 17 * (c / 17) + 16
    let x := chanGet s spare
    if c % 17 ≠ 16 ∧ (chanGet s c).state = 4 ∧ x.state = 3 ∧ x.serves.isNone then
      chanSet s spare { x with state := 1, serves := some (16 * (c / 17) + c % 17) }
    else s) s

/-- Ports under the image's RING record: those it enables begin a full link reset, with CAUSE NONE; the others are
DISABLED (R66, R122, R125, R136). A port that is DISABLED already enters nothing, so its CAUSE stays (DESIGN CHOICE, log
entry 38). -/
def startPorts (s : State) : State :=
  (List.range 8).foldl (fun s p =>
    if !portEnabled s p then (if (portGet s p).state = 0 then s else portOut s p 0 2)
    else if (portGet s p).hold then portOut s p 1 1
    else portMod s p (fun x => beginReset s { x with failures := 0, resumed := false } 0 false)) s

/-- Ports under a byte-identical RING record stay up, CAUSE NONE again; a port DOWN for its neighbour or wiring trains
anew (R77, R125). -/
def keepPorts (s : State) : State :=
  (List.range 8).foldl (fun s p =>
    let x := portGet s p
    if portLive x then portSet s p { x with cause := 0 }
    else if x.state = 1 ∧ waitsSoftware x then
      if x.hold then portOut s p 1 1
      else portSet s p (beginReset s { x with failures := 0, resumed := false } 0 false)
    else s) s

/-- The image's structure is written: LOADED, its partitions, its ports where the RING record is new, its twin. -/
def layImage (s : State) (im : Image) (sameRing : Bool) : State :=
  let s := { s with img := { s.img with
    loaded := true, phase := 4, kind := false, part := 0, code := 0, sect := 0xF, record := 0xFFF, serial := im.serial,
    digest := im.digest, ownerSlot := im.ownerSlot, load := none, draining := [], boot := [], bootDue := false,
    layout := im.layout } }
  let s := im.layout.parts.foldl (layPartition im) s
  let s := graftUntrained (twinImage s)
  if sameRing then keepPorts s else startPorts s

/-- The fill of every DRAM word and SRAM word has ended (R73, R310). -/
def fillDevice (s : State) : State :=
  { s with stk := { s.stk with dram := [], marks := [], lost := [] }, near := { s.near with mem := [], flips := [] } }

end Sys2Proof.Machine
end

