-- ==== Sys2Proof/Machine/Images.lean ====
section
/-! DEFINITION. Loading images: GO, verification, drain, fill, the partition image's effect, the boot slots (R69 to R78,
R228). -/

namespace Sys2Proof.Machine

/-! ### IMG_CTRL (R69, R70, R78, R79, R82) -/

/-- `n` bytes from an address on, of cells in rising order; unlisted bytes are zero. -/
def runBytes (cells : List Host.Cell) (a : Nat) : Nat → List Byte
  | 0 => []
  | n + 1 => match cells with
    | [] => 0 :: runBytes [] (a + 1) n
    | c :: rest => if c.1 = a then c.2 :: runBytes rest (a + 1) n else 0 :: runBytes (c :: rest) (a + 1) n

/-- Bytes of the staging window from an offset on. -/
def stagingBytes (s : State) (off n : Nat) : List Byte := runBytes (s.staging.dropWhile (fun c => decide (c.1 < off))) off n

/-- The image the staging window holds, as long as its header says, within the window. -/
def stagedImage (s : State) : List Byte := stagingBytes s 0 (min (2 ^ 24) (max 64 (imgHeader (stagingBytes s 0 64)).total))

/-- CODE while no load has failed: the mismatch that a device in MISMATCH reports of its twin (R37, R71). -/
def codeNow (s : State) : Nat := if s.twn.state = 5 then 0x13 else 0

/-- A GO starts verification, or is refused while a load is in progress. -/
def imageGo (s : State) : State :=
  if s.img.phase ≠ 0 then
    let s := noteFlags s [3]
    { s with img := { s.img with refused := true, refusedCount := sat16 s.img.refusedCount } }
  else
    let h := imgHeader (stagingBytes s 0 64)
    { s with img := { s.img with
      phase := 1, kind := decide (h.kind = 2), part := if h.kind = 2 then h.target % 32 else 0, code := codeNow s, sect := 0xF,
      record := 0xFFF, load := none } }

/-- IMAGE_GO (R70, R78, R82). -/
def execImageGo (clk : Nat) (s : State) : Host.Outcome State Fault Refusal := .next (imageGo (seenClk s clk))

/-- ABORT discards a load that is still verifying (R78). What IMG_STATUS then describes is log entry 28's choice: no
failure, or the mismatch of the twin where the device is in MISMATCH (R37, R80). -/
def imageAbort (s : State) : State :=
  if s.img.phase = 1 then
    { s with img := { s.img with phase := 0, load := none, boot := [], code := codeNow s } }
  else s
def execImageAbort (s : State) : Host.Outcome State Fault Refusal := .next (imageAbort s)

/-- FLOOR raises the floor of the slot of the image in force, consuming one of its words (R69). -/
def imageFloor (s : State) : State :=
  let i := s.img.ownerSlot
  let o := s.img.owners.getD i {}
  if !s.img.loaded ∨ o.left = 0 ∨ s.img.serial ≤ o.floor then s
  else { s with img := { s.img with owners := s.img.owners.set i { o with floor := s.img.serial, left := o.left - 1 } } }
def execImageFloor (s : State) : Host.Outcome State Fault Refusal := .next (imageFloor s)

/-! ### The end of verification (R70, R73, R74, R75) -/

/-- A load fails: the image in force stays as it was (R50, R80). -/
def loadFailed (s : State) (e : LoadErr) : State :=
  { s with img := { s.img with phase := 0, load := none, boot := [], code := e.code, sect := e.sect, record := e.record } }

/-- The fill of the whole device begins: DI_FILL shows it (R310). -/
def fillBegun (s : State) : Integrity := { s.di with fillBusy := true, fillStart := s.td.ptime }

/-- The drain begins: the target, or every partition, is QUIESCED (R73, R74); an UNUSED one has nothing to drain. A
whole-device load also ends a partial reset in progress. -/
def beginDrain (s : State) (im : Image) : State :=
  if im.partial_ then
    quiesce { s with img := { s.img with phase := 2, load := some im } } im.target 1
  else
    let ps := (List.range 32).filter (fun p => (partGet s p).st ≠ .unused)
    let s := (List.range 32).foldl (fun s p => quiesce s p 4) s
    let s := (List.range 32).foldl (fun s p =>
      if ps.contains p then s else partMod s p (fun x => { x with drained := true })) s
    { s with
      img := { s.img with phase := if ps = [] then 3 else 2, load := some im, draining := ps }
      di := if ps = [] then fillBegun s else s.di
      twn := { s.twn with rstBusy := false } }

/-- IMAGE_VERIFY_DONE (R50 to R71): the first failure ends the load. The cross-section rules need the flash capacity, so
an image that has come so far stays in verification until discovery has ended (R33, R228, log entry 28). -/
def execImageVerifyDone (clk : Nat) (s : State) : Host.Outcome State Fault Refusal :=
  let s := seenClk s clk
  if s.img.phase ≠ 1 ∨ s.img.boot ≠ [] then .next s
  else match readImage s.img (stagedImage s), checkImage s.img (some (flashLimit s.fl)) (stagedImage s) with
    | .error e, _ => .next (loadFailed s e)
    | _, .error e => if s.fl.discovered then .next (loadFailed s e) else .next s
    | _, .ok im =>
      if !s.fl.discovered then .next s else
      let st := (partGet s im.target).st
      if im.partial_ ∧ (st = .quiesced ∨ st = .resetting) then .next (loadFailed s { code := 0x16 })
      else .next (beginDrain s im)

/-! ### The drain (R74, R75, R347, R399) -/

/-- Units of regions that the image changes or removes. -/
def changedUnits (old : Layout) (im : Image) (u : Nat) : Bool :=
  match regionAt old im.target u with
  | none => true
  | some r => !(im.amend && keepsRegion old im.layout im.target r)

/-- What follows the drain of a partition: the recalls of an image or a key set, and the fill (R74, R347). -/
def afterDrain (s : State) (p : Nat) : State :=
  let x := partGet s p
  let s := partMod s p (fun x => { x with drained := true })
  match x.why, s.img.load with
  | 1, some im =>
    tearDue <| recallUnits { s with img := { s.img with phase := 3 } } p true (changedUnits s.img.layout im)
  | 2, _ => tearDue (recallUnits s p true (fun _ => true))
  | 4, _ =>
    let rest := s.img.draining.filter (· ≠ p)
    { s with
      img := { s.img with draining := rest, phase := if rest = [] then 3 else s.img.phase }
      di := if rest = [] then fillBegun s else s.di }
  | _, _ => s

/-- PARTITION_DRAIN_DONE (R75): nothing accepted before QUIESCED is in service any more. -/
def execPartitionDrainDone (part : Fin 32) (s : State) : Host.Outcome State Fault Refusal :=
  let x := partGet s part.val
  if x.st ≠ .quiesced ∨ x.drained ∨ x.why = 0 ∨ ¬ drained s part.val then .next s else .next (afterDrain s part.val)

/-- DRAIN_TIMEOUT (R75): 64 frames after QUIESCED, what is still in service ends with QUIESCED. -/
def execDrainTimeout (part : Fin 32) (s : State) : Host.Outcome State Fault Refusal :=
  let x := partGet s part.val
  if x.st ≠ .quiesced ∨ x.drained ∨ x.why = 0 ∨ frameOf s < x.since + 64 then .next s
  else .next (settle (endService s part.val .quiesced))

/-! ### The fill of a partition load and its end (R74, R76, R77) -/

/-- `layout` put in force for partition `p` (R74, R305): its words of the reserve that were lost, the program copies and
the translation entries, are written anew and so stand clean. -/
def layEntries (s : State) (layout : Layout) (p : Nat) : State :=
  let lost := (s.eng.pte.filter (fun e => e.1 / 2 ^ 26 = p && (match e.2 with
    | .lost _ => true
    | _ => false))).map (fun e => e.1 % 2 ^ 26)
  let s := { s with
    img := { s.img with layout := layout }
    eng := { s.eng with
      lostProgs := s.eng.lostProgs.filter (fun k => k / 16 ≠ p), lostPages := s.eng.lostPages.filter (fun k => k / 2 ^ 20 ≠ p),
      pte := s.eng.pte.filter (fun e => !(e.1 / 2 ^ 26 = p && lost.contains (e.1 % 2 ^ 26))) } }
  lost.foldl (fun s u => entryWritten s p u) ((layout.progs.filter (fun r => r.part = p)).foldl progWritten s)

/-- A SEAL in progress in a partition ends STATE with the image; its ledger entry follows membership (R356, R360). -/
def cutSeal (s : State) (p : Nat) : State :=
  if s.sec.busy && s.sec.sealing.any (fun x => x.part = p) then
    let t := lgSeal s 0x0A
    { t with sec := { t.sec with busy := false, code := 0x0A, sealing := none } }
  else s

/-- A partition image's structure is in place; the partition waits for the next tick. -/
def applyPartition (s : State) (im : Image) : State :=
  let p := im.target
  let old := s.img.layout
  let new := im.layout
  let retire := (partRecOf new p).isNone
  let fresh := startsAnew old im
  let keep := fun (r : RegionRec) => !fresh && keepsRegion old new p r
  let s := if !im.amend || retire then destroyKeys s p else s
  -- the flash map, under the layout still in force
  let same := !fresh && flashSame old new p keep
  let (s, kept) := if same then (s, []) else takeGranules s p old new keep
  let s := fillSlices s (filledSlices old im)
  let s := clearUnits s p (fun u => match regionAt old p u with
    | none => true
    | some r => !keep r)
  let s := layEntries s new p
  let s := if same then s else queueEmpty (kept.foldl (fun s k => putGranule s p k) (handSet (cleanMap s p) p 0)) p
  let s := mapRegions s p ((regionsOf new p).filter (fun r => !keep r))
  let s := dropBuffers (endPairs s p) p
  let s := if (partGet s p).qpsEnded || (!fresh && (regionsOf old p).all keep) then s else endQps s p
  let s := cutSeal s p
  let s := partMod s p (fun x => { x with
    mapEpoch := 0, xlOp := none, xlResult := 0, digest := im.digest, serial := im.serial,
    next := some (if retire then .unused else .active) })
  let s := advanceEpoch (unfence s p) p
  let s := lgImage (if fresh then lgStart s p else s) p 2 im
  let s := twinImage s
  { s with img := { s.img with phase := 4, load := none, kind := true, part := p, code := codeNow s } }

/-- PARTITION_FILL_DONE (R74): recalls and fills have ended. -/
def execPartitionFillDone (part : Fin 32) (s : State) : Host.Outcome State Fault Refusal :=
  let x := partGet s part.val
  match s.img.load with
  | some im =>
    if s.img.phase ≠ 3 ∨ !im.partial_ ∨ im.target ≠ part.val ∨ x.why ≠ 1 ∨ !x.drained ∨
        s.coh.txns.any (fun t => t.part = part.val) then .next s
    else .next (applyPartition s im)
  | none => .next s

/-- WHOLE_DEVICE_FILL_DONE (R73, R77, R310, R395): a warm start under the new image; DI_FILL tells the frames of the
fill. -/
def execWholeDeviceFillDone (s : State) : Host.Outcome State Fault Refusal :=
  match s.img.load with
  | some im =>
    if s.img.phase ≠ 3 ∨ im.partial_ then .next s
    else
      let same := s.img.layout.ring == im.layout.ring
      let frames := (s.td.ptime - s.di.fillStart) % 65536
      let s := restart .warm (fillDevice s)
      .next (layImage { s with di := { s.di with fillFrames := frames } } im same)
  | none => .next s

/-! ### The boot slots (R72, R228) -/

/-- BOOT_IMAGE_LOAD (R72): both slots are verified; the valid image with the higher SERIAL comes first, slot A's on
equal SERIAL. A load of the staging window that is in progress ends first (R78). Where neither verifies, IMG_STATUS shows what ended slot B's. -/
def execBootImageLoad (slotA slotB : List Byte) (s : State) : Host.Outcome State Fault Refusal :=
  if s.pwr.stage ≠ .serving ∨ ¬ s.img.bootDue ∨ s.img.phase ≠ 0 then .next s
  else
    let s := { s with img := { s.img with bootDue := false, phase := 1, kind := false, part := 0 } }
    let usable := if s.fl.discovered then some (flashLimit s.fl) else none
    let entry := fun (bs : List Byte) => entryOf (sectionsOf bs) 4
    let good := fun (bs : List Byte) => match checkImage s.img usable bs with
      | .ok im => [(im, entry bs)]
      | .error _ => []
    match good slotA, good slotB with
    | [a], [b] => .next { s with img := { s.img with boot := if a.1.serial < b.1.serial then [b, a] else [a, b] } }
    | [], [] => match checkImage s.img usable slotB with
      | .error e => .next (loadFailed s e)
      | .ok _ => .next s
    | as, bs => .next { s with img := { s.img with boot := as ++ bs } }

/-- Flash units an image's regions take. -/
def flashUnits (l : Layout) : Nat := sumNat ((l.regions.filter (·.flash)).map (·.size))

/-- BOOT_IMAGE_APPLY (R72, R205, R228): once discovery has ended, the first image whose FLASH regions fit takes effect;
changed bank masks take effect with a second fill of all DRAM, whose frames the spec does not state (log entry 2). -/
def execBootImageApply (s : State) : Host.Outcome State Fault Refusal :=
  if s.img.phase ≠ 1 ∨ s.img.boot = [] ∨ ¬ s.fl.discovered then .next s
  else match s.img.boot.find? (fun b => decide (flashUnits b.1.layout ≤ flashLimit s.fl)) with
    | none =>
      let e := ((s.img.boot.map (·.2)).getLast?).getD 0xF
      .next (loadFailed s { code := 0x0D, sect := e })
    | some b =>
      if s.stk.xmap = s.stk.xmapAct then .next (layImage s b.1 false)
      else
        let (n, s) := drawFree s
        let s := fillDevice { s with stk := { s.stk with xmapAct := s.stk.xmap }, di := { s.di with fillFrames := n % 2 ^ 16 } }
        .next (layImage s b.1 false)

end Sys2Proof.Machine
end

