-- ==== Sys2Proof/Machine/Integrity.lean ====
section
/-! DEFINITION. Scrub, worn SRAM rows and directory ways, the error log's and counters' commands (R185, R302, R307,
R311 to R318). -/

namespace Sys2Proof.Machine

/-! ### Patrol and demand scrub (R311, R312) -/

/-- Columns of a channel: 73,728 rows of 64 banks of 16 columns (R4, R311). -/
def patrolColumns : Nat := 75497472

/-- A channel takes part in patrol: it is not pruned, or its contents are still read (R220, R311). -/
def patrolled (c : Chan) : Bool := c.state ≠ 4

/-- Every channel has read all its columns of this pass: it is counted (R318). -/
def endPass (s : State) : State :=
  if !s.di.passDone ∧ (List.range 136).all (fun ch => !patrolled (chanGet s ch) || decide (patrolColumns ≤ (chanGet s ch).patrol))
  then { s with di := { s.di with passDone := true, passes := sat16 s.di.passes } }
  else s

/-- Slices that a fill runs over: of a partition image, or of a key set (R74, R347). -/
def fillingSlices (s : State) : List Nat :=
  (match s.img.load with
    | some im => if s.img.phase = 3 ∧ im.partial_ then filledSlices s.img.layout im else []
    | none => []) ++
  ((List.range 32).filter (fun p => let x := partGet s p
    decide (x.st = .quiesced) && decide (x.why = 2) && x.drained)).flatMap (partSlices s.img.layout)

/-- A channel is under a fill: of the whole device, or of its slice (R312). -/
def underFill (s : State) (ch : Nat) : Bool :=
  s.di.fillBusy || (sliceOfChan s ch).any (fun sl => (fillingSlices s).contains sl)

/-- A column read by scrub: R303, then what it corrected is written back in the same step. -/
def scrubColumn (s : State) (ch source bank row col : Nat) (errs : ColumnErrors) : State :=
  let s := columnAt s ch source bank row col errs.cells errs.transit
  match cellsOf s ch with
  | none => s
  | some sl => writeBackColumn s sl (dramAddr s.stk.xmapAct row bank col)

/-- PATROL_SCRUB_READ (R209, R311, R312): the channel's next column, in ascending (row, bank index, column), where no
command of rules 1 to 6 may be issued and no training piece runs. -/
def execPatrolScrubRead (chan : Fin 136) (errs : ColumnErrors) (s : State) : Host.Outcome State Fault Refusal :=
  let clk := errs.clk
  let s := seenClk s clk
  let c := chanGet s chan.val
  if s.di.off ∨ !chanUp c ∨ patrolColumns ≤ c.patrol then .next s
  else
    let n := c.patrol
    let past := fun (s : State) => endPass (chanMod s chan.val (fun c => { c with patrol := n + 1 }))
    if underFill s chan.val then .next (past s)
    else if clk < c.trainUntil ∨ pieceFirst s c clk ∨ (candidates s c clk).any (permits s chan.val c clk) then .next s
    else .next (scrubStep s chan.val clk (n / 16 % 64) (n / 1024) (n % 16) (fun s =>
      past (scrubColumn s chan.val 4 (n / 16 % 64) (n / 1024) (n % 16) errs)))

/-- A patrol pass begins at the current PTIME (R311). -/
def beginPass (s : State) : State :=
  { s with di := { s.di with passDone := false, lateSeen := false, passStart := s.td.ptime } }

/-- The tick's part: a pass falls due PERIOD hours after the one before began; one unfinished then sets LATE, once, and
carries on (R311). -/
def tickPatrol (s : State) : State :=
  if s.td.ptime < s.di.passStart + s.di.period * 900000000 then s
  else if s.di.passDone then
    beginPass ((List.range 136).foldl (fun s ch => chanMod s ch (fun c => { c with patrol := 0 })) s)
  else if s.di.lateSeen then s
  else
    let s := noteFlags s [5]
    { s with di := { s.di with late := true, lateSeen := true } }

/-- DI_SCRUB_STATUS.PCT. -/
def patrolPercent (s : State) : Nat :=
  let cs := (List.range 136).filter (fun ch => patrolled (chanGet s ch))
  if cs.isEmpty then 0
  else 100 * sumNat (cs.map (fun ch => min patrolColumns (chanGet s ch).patrol)) / (patrolColumns * cs.length)

/-- DEMAND_SCRUB (R209, R311): the oldest column of the channel's queue is reread, corrected and written back, with the
priority of rule 5: where no command of rules 1 to 4 may be issued. -/
def execDemandScrub (chan : Fin 136) (errs : ColumnErrors) (s : State) : Host.Outcome State Fault Refusal :=
  let clk := errs.clk
  let s := seenClk s clk
  let c := chanGet s chan.val
  match c.scrubQ with
  | [] => .next s
  | (bank, row, col) :: rest =>
    if !chanUp c ∨ clk < c.trainUntil ∨ pieceFirst s c clk ∨ (firstCandidates s c clk).any (permits s chan.val c clk) then
      .next s
    else .next (scrubStep s chan.val clk bank row col (fun s =>
      let s := chanMod s chan.val (fun c => { c with scrubQ := rest })
      let s := scrubColumn s chan.val 5 bank row col errs
      { s with di := { s.di with demandDone := wrap16 s.di.demandDone } }))

/-! ### SRAM scrub (R185, R302, R307, R311, R313) -/

/-- Flips of a near word found by scrub, and its correction written back. -/
def scrubNear (s : State) (half index flips : Nat) : State :=
  let sl := 64 * half + index / 131072 % 64
  let b := index % 131072 * 8
  let k := nearWordKey sl b
  let s := nearSetFlips s k ((nearFlips s k ^^^ flips) % 2 ^ 72)
  let s := (nearReadWord (otherBegin s k 1 true) 4 sl b).1
  match nearDecode (nearFlips s k) with
  | none => s
  | some (_, rest) => nearStore (nearSetFlips s k 0) sl b (flipBytes (nearBytes s sl b 8) (rest % 2 ^ 64))

/-- A cache word in error is corrected, or invalidated and read again from DRAM: counted as SRAM_CE either way (R307). -/
def cacheError (s : State) (half kind index flips : Nat) : State :=
  logError { s with di := { s.di with sramCe := sat16 s.di.sramCe } } 4 4 ((wordDecode flips).elim 3 (·.1)) 0 0
    (sramLoc half kind index) none none

/-- The LOST bit of a bank: it is short of a way (R185). -/
def noteLostWay (s : State) (half bank : Nat) : State :=
  halfMod s half (fun x =>
    let short := decide ((List.range 17).countP (fun w => wayServes s half (bank * 8192) w) < 16)
    { x with lost := if short then x.lost ||| (1 <<< bank) else x.lost &&& (0xFFFF - 1 <<< bank) })

/-- A directory-cache way is pruned (R185): its entries leave the cache, to be read again from backing at their next
use; a pinned one keeps its place until its last transaction ends. -/
def pruneWay (s : State) (half bank way : Nat) : State :=
  let key := half * 16 + bank
  let m := tblGet (fun _ => 0) s.coh.waysPruned key
  if m.testBit way then s
  else
    let cache := (s.coh.cache.map (fun e =>
      if e.1 / 8192 = key then (e.1, e.2.filter (fun w => w.2 ≠ way || hasTxn s w.1)) else e)).filter (fun e => e.2 ≠ [])
    noteLostWay { s with coh := { s.coh with
      cache := cache, waysPruned := tblSet (fun _ => 0) s.coh.waysPruned key (m ||| (1 <<< way)) } } half bank

/-- An error in a word of the directory cache: index (set × 16 + way) × 2 + word, and the spare ways' words after them,
2^22 + set × 2 + word. -/
def scrubDirectory (s : State) (half index flips : Nat) : State :=
  let spare := decide (2 ^ 22 ≤ index)
  let set := if spare then index / 2 % 131072 else index / 32 % 131072
  let way := if spare then 16 else index / 2 % 16
  let bank := set / 8192
  let key := (half * 16 + bank) * 32 + way
  let n := tblGet (fun _ => 0) s.coh.wayErrs key + 1
  let s := cacheError { s with coh := { s.coh with wayErrs := tblSet (fun _ => 0) s.coh.wayErrs key n } } half 2 index flips
  if (wordDecode flips).isNone ∨ (0 < ceLimit s ∧ ceLimit s ≤ n) then pruneWay s half bank way else s

/-- A graft at the tick: the bank's spare way (R185). -/
def graftWay (s : State) (key : Nat) : State :=
  let half := key / 16
  let bank := key % 16
  if tblGet (fun _ => 0) s.coh.waysPruned key % 65536 = 0 then s
  else noteLostWay (halfMod s half (fun x => { x with grafted := x.grafted ||| (1 <<< bank) })) half bank

def tickGraftWays (s : State) : State :=
  if autoBit s 5 then (s.coh.waysPruned.map (·.1)).foldl graftWay s else s

/-- An uncorrectable word copied with its check byte inverted: the check byte of the data bits it has (R313). -/
def nearSpoilt (flips : Nat) : Nat := flips % 2 ^ 64 + (nearCheck (flips % 2 ^ 64) ^^^ 0xFF) * 2 ^ 64

/-- A graft at the tick: a spare row takes a pruned row's words; what cannot be corrected stays uncorrectable (R313). -/
def graftRow (s : State) (row : Nat) : State :=
  let arr := row / 256
  let used := tblGet (fun _ => 0) s.di.rowSpares arr
  if row < 2 ^ 17 ∧ graftWaits s (row / 1024) then s
  else if 8 ≤ used then
    { s with
      near := { s.near with lostRows := s.near.lostRows ++ [row] }
      di := { s.di with rowDue := s.di.rowDue.filter (· != row), rowsLost := sat16 s.di.rowsLost } }
  else
    let s := { s with di := { s.di with
      rowSpares := tblSet (fun _ => 0) s.di.rowSpares arr (used + 1), rowDue := s.di.rowDue.filter (· != row),
      rowErrs := tblErase s.di.rowErrs row, rowsGrafted := sat16 s.di.rowsGrafted } }
    if 2 ^ 17 ≤ row then s
    else (List.range 128).foldl (fun s i =>
      let sl := row / 1024
      let b := row % 1024 * 1024 + 8 * i
      match nearDecode (nearFlips s (nearWordKey sl b)) with
      | none => nearSetFlips s (nearWordKey sl b) (nearSpoilt (nearFlips s (nearWordKey sl b)))
      | some (_, rest) =>
        if nearFlips s (nearWordKey sl b) = 0 then s
        else nearStore (nearSetFlips s (nearWordKey sl b) 0) sl b (flipBytes (nearBytes s sl b 8) (rest % 2 ^ 64))) s

def tickGraftRows (s : State) : State := if autoBit s 6 then s.di.rowDue.foldl graftRow s else s

/-- A parity error in an instruction memory that no fetch has met: the core's memory is rewritten (R275, R311). -/
def scrubInstruction (s : State) (half index : Nat) : State :=
  let core := 32 * half + index / 65536 % 32
  let s := { s with
    di := { s.di with parImem := sat16 s.di.parImem }
    eng := { s.eng with rewriting := s.eng.rewriting.filter (· != core) ++ [core] } }
  logError s 6 4 0 0 0 (sramLoc half 3 index) none none

/-- A parity error in configuration SRAM: the block is rewritten from the management core's copy; a copy that fails its own
check is logged with class MGMT (R307). -/
def scrubConfiguration (s : State) (half index : Nat) (copyBad : Bool) : State :=
  let s := if copyBad then logError s 9 4 0 0 0 (sramLoc half 4 index) none none else s
  logError { s with di := { s.di with parCfg := sat16 s.di.parCfg } } 6 4 0 0 0 (sramLoc half 4 index) none none

/-- SRAM_SCRUB (R311): scrub reads one word, or byte, whose stored bits it finds flipped. Odd parity sees an odd number
of flips (R302). For configuration SRAM, bits 17 to 9 of `flips` are those of the byte of the management core's copy (R307). -/
def execSramScrub (array : SramArray) (half : Fin 2) (index flips : Nat) (s : State) : Host.Outcome State Fault Refusal :=
  let h := half.val
  match array with
  | .nearBank => .next (scrubNear s h index flips)
  | .lineCache =>
    if flips = 0 then .next s
    else .next (noteSramRow (cacheError s h 1 index flips) (2 ^ 17 + h * 2 ^ 28 + index / 128) (wordDecode flips).isNone)
  | .directoryCache => if flips = 0 then .next s else .next (scrubDirectory s h index flips)
  | .instruction => if parityOf 9 flips then .next (scrubInstruction s h index) else .next s
  | .configuration => if parityOf 9 flips then .next (scrubConfiguration s h index (parityOf 9 (flips >>> 9))) else .next s

/-! ### Commands of the integrity block (R318) -/

/-- DI_CTRL.LOGCLR. -/
def clearLog (s : State) : State := { s with di := { s.di with log := [] } }
def execDiLogClear (s : State) : Host.Outcome State Fault Refusal := .next (clearLog s)

/-- DI_CTRL.CLR zeroes every counter of R318's table. -/
def clearDi (s : State) : State :=
  { s with di := { s.di with
    passes := 0, ce := 0, ueDram := 0, uePath := 0, sramCe := 0, sramUe := 0, parCfg := 0, parImem := 0, poison := 0,
    demandDropped := 0, demandDone := 0, logTotal := 0, rowsLost := 0 } }
def execDiClear (s : State) : Host.Outcome State Fault Refusal := .next (clearDi s)

/-- A write of DI_INJECT: ARM clears at once for a channel of a confidential partition. -/
def armInject (s : State) (w : Word) : State :=
  let stack := bitsOf w.toNat 5 3
  let chan := bitsOf w.toNat 0 5
  let conf := match (if 16 < chan then none else (sliceOfChan s (17 * stack + chan)).bind (fun sl => sliceOwner s.img.layout sl)) with
    | none => false
    | some p => isConf s p
  { s with di := { s.di with
    injArm := w.getLsbD 31 && !conf, injBits := bitsOf w.toNat 8 2, injStack := stack, injChan := chan } }

/-- DI_INJECT_ARM (R318). -/
def execDiInjectArm (value : Word) (s : State) : Host.Outcome State Fault Refusal := .next (armInject s value)

end Sys2Proof.Machine
end

