-- ==== Sys2Proof/Machine/Mapping.lean ====
section
/-! DEFINITION. Tiles and walks (R288 to R292), the mapping operations UNMAP, MAP and MOVE and the withdrawal of a
mapping (R293 to R295). -/

namespace Sys2Proof.Machine

/-! ### Tiles (R288, R289, R292) -/

/-- A translation for a tile is at hand. -/
def tileReady (s : State) (p : Nat) (b : Blk) (u : Nat) : Bool :=
  !holdable s p u || bufHas s 3 (slotHolder b.eng b.stream b.tile) p u || bufHas s 0 b.eng p u ||
    bufHas s 1 (clusterOf b.eng) p u

/-- Start a walk unless it is outstanding already; it is counted in XL_MISS. -/
def startWalk (s : State) (level holder p u : Nat) : State :=
  let k := (pageKey s.img.layout p u).1
  if s.eng.walks.any (fun w => w.level = level && w.holder = holder && w.part = p && w.unit = k) then s
  else
    let s := countWalk s p u
    { s with eng := { s.eng with
      walks := s.eng.walks ++ [{ id := s.eng.nextWalk, level := level, holder := holder, part := p, unit := k }]
      nextWalk := s.eng.nextWalk + 1 } }

/-- The stream's prefetch slots take the translations of its next four tiles, walking where neither level holds them. -/
def prefetch (s : State) (p : Nat) (c : Command) (b : Blk) : State :=
  [1, 2, 3, 4].foldl (fun s i => match tileBlock c b.eng b.stream (b.tile + i) with
    | none => s
    | some n => (tileUnits c.blocks n).foldl (fun s u =>
        if bufHas s 0 b.eng p u || bufHas s 1 (clusterOf b.eng) p u then
          bufPut s 3 (slotHolder b.eng b.stream n.tile) p u
        else startWalk s 3 (slotHolder b.eng b.stream n.tile) p u) s) s

/-- Translate one tile: it issues, faults whole, or waits for the walks of the pages that miss, which its own prefetch slot
has made (R292). -/
def translateTile (s : State) (p q : Nat) (c : Command) (b : Blk) : State :=
  let us := tileUnits c.blocks b
  let missing := us.filter (fun u => !tileReady s p b u)
  if missing ≠ [] then missing.foldl (fun s u => startWalk s 3 (slotHolder b.eng b.stream b.tile) p u) s
  else
    prefetch (issueTile s p q c.blocks b) p c b

/-- The tiles of a part before this one have issued, and none of the part has faulted. -/
def tileMay (c : Command) (b : Blk) : Bool :=
  !(c.tiles.any (fun t => t.engine = b.eng && t.faulted.isSome)) && (tileOf c b).isNone &&
    (List.range b.tile).all (fun i => c.tiles.any (fun t => t.engine = b.eng && t.stream = b.stream && t.tile = i))

/-- TILE_TRANSLATE (R288, R289): tile number `tile` of stream `stream` of part `idx`. -/
def execTileTranslate (part : Fin 32) (queue : Fin 64) (idx stream tile clk : Nat) (s : State) :
    Host.Outcome State Fault Refusal :=
  let s := seenClk s clk
  match serviceOf s part.val queue.val with
  | none => .next s
  | some c =>
    match c.parts[idx]? with
    | none => .next s
    | some x => match tileBlock c x.engine stream tile with
      | none => .next s
      | some b => if tileMay c b ∧ c.outcome.isNone then .next (translateTile s part.val queue.val c b) else .next s

/-- TRANSLATION_WALK_DONE (R291, R294): the entry, as it stands now, fills the slot that missed. No buffer holds an
unmapped entry. -/
def execTranslationWalkDone (walk : Nat) (s : State) : Host.Outcome State Fault Refusal :=
  match takeFirst (fun w => w.id = walk) s.eng.walks with
  | none => .next s
  | some (w, rest) =>
    let s := { s with eng := { s.eng with walks := rest } }
    .next (bufPut s w.level w.holder w.part w.unit)

/-! ### Mapping operations (R293 to R295) -/

def gibAt (l : Layout) (p u : Nat) : Bool := match regionAt l p u with
  | none => false
  | some r => r.gib

/-- The first failure of R293's list, as its code; 0 is OK. `op`: 1 UNMAP, 2 MAP, 3 MOVE. -/
def mapError (s : State) (p op unit src hpage : Nat) : Nat :=
  let l := s.img.layout
  let mapped := (mappedTo s p unit).isSome
  if (regionAt l p unit).isNone ∨ (op = 3 ∧ (regionAt l p src).isNone) then 1
  else if inFlash l p unit ∨ (op = 3 ∧ inFlash l p src) then 2
  else if (op = 1 ∧ ¬ mapped) ∨ (op = 2 ∧ mapped) ∨
      (op = 3 ∧ ((mappedTo s p src).isNone ∨ (xlPage l p unit).contains src)) then 3
  else if op = 2 ∧ ((gibAt l p unit ∧ hpage % 512 ≠ 0) ∨
      ¬ ((List.range (xlPage l p unit).length).all (fun i => pageFree s p (hpage + i)))) then 4
  else if op = 3 ∧ gibAt l p unit ≠ gibAt l p src then 5
  else if (partGet s p).st ≠ .active then 6
  else 0

/-- Give a page's units consecutive hedge pages. -/
def mapPage (s : State) (p : Nat) (us : List Nat) (hpage : Nat) : State :=
  (List.range us.length).foldl (fun s i => entryWritten (pteSet s p (us.getD i 0) (.mapped (hpage + i))) p (us.getD i 0)) s

/-- The page's units become unmapped. -/
def unmapPage (s : State) (p : Nat) (us : List Nat) : State := us.foldl (fun s u => entryWritten (pteSet s p u .unmapped) p u) s

/-- The hedge page of a unit lost in both copies stays neither free nor mapped when the unit is mapped again (R307). -/
def keepLost (s : State) (p : Nat) (us : List Nat) : State :=
  us.foldl (fun s u => match pteGet s p u with
    | .lost h => { s with eng := { s.eng with lostPages := s.eng.lostPages ++ [p * 2 ^ 20 + h] } }
    | _ => s) s

/-- The name a line takes in an operation that gives units `us` the hedge pages of `from_` (units or, for a MAP, pages):
a line of a page that loses its unit is named by its place in the hedge (R169, R293). -/
def lineName (s : State) (p op : Nat) (us srcs : List Nat) (hpage line : Nat) : Nat :=
  let u := lineUnit line
  let rest := addrOff line % 2097152
  let at_ := fun (i : Nat) => poolAddr p (us.getD i 0 * 2097152 + rest)
  if addrPart line ≠ p then line
  else if op = 2 then
    if 2 ^ 26 + hpage ≤ u ∧ u < 2 ^ 26 + hpage + us.length then at_ (u - 2 ^ 26 - hpage) else line
  else if op = 3 ∧ srcs.contains u then at_ (srcs.findIdx (· == u))
  else if us.contains u then
    match mappedTo s p u with
    | some h => unmappedLine p (h * 2097152 + rest)
    | none => line
  else line

/-- An operation starts: checked, then its new entries stand at once; a withdrawal advances the mapping epoch and every
buffer drops the pages (R294, R295). -/
def startMapOp (s : State) (p op unit src hpage clk : Nat) : State :=
  let x := partGet s p
  if x.xlOp.isSome ∨ op = 0 then s
  else
    let err := mapError s p op unit src hpage
    if err ≠ 0 then partMod s p (fun x => { x with xlResult := err })
    else
      let l := s.img.layout
      let us := xlPage l p unit
      let old := (mappedTo s p (us.headD unit)).getD 0
      let from_ := (mappedTo s p ((xlPage l p src).headD src)).getD 0
      let h := if op = 1 then old else if op = 2 then hpage else from_
      let s := renameLines s (lineName s p op us (xlPage l p src) hpage)
      let s := if op = 1 then unmapPage s p us
        else if op = 2 then mapPage (keepLost s p us) p us hpage
        else mapPage (unmapPage (keepLost s p us) p (xlPage l p src)) p us from_
      let s := if op = 2 then s else
        partMod (dropPages s p (us ++ (if op = 3 then xlPage l p src else []))) p
          (fun x => { x with mapEpoch := wrap32 x.mapEpoch })
      let o : XlOp := { op := op, unit := unit, src := if op = 3 then src else 0, hpage := h, at_ := clk, logged := false }
      partMod s p (fun x => { x with xlOp := some o })

/-- BUSY clears and RESULT is set. -/
def endMapOp (s : State) (p : Nat) : State := partMod s p (fun x => { x with xlOp := none, xlResult := 0 })

/-- The operation is done but for its MAPPING entry: it ends, or stays BUSY while the entry is held (R295, R363). -/
def logMapOp (s : State) (p : Nat) (o : XlOp) : State :=
  let body := leBytes 1 o.op ++ leBytes 3 0 ++ leBytes 4 o.unit ++ leBytes 4 o.src ++ leBytes 4 o.hpage ++
    leBytes 4 (partGet s p).mapEpoch
  match lgAppend s p .mapping 0 2 0 0 body [] 2 with
    | (s, true) => endMapOp s p
    | (s, false) => partMod s p (fun x => { x with xlOp := some { o with logged := true } })

/-- A tile has bytes to move: none has moved yet, or a line of it waits in a transaction of its home. -/
def tileRunning (s : State) (p : Nat) (c : Command) (t : TileRec) : Bool :=
  let bs := c.blocks.filter (fun b => b.eng = t.engine && b.stream = t.stream && b.tile = t.tile)
  !t.moved || s.coh.txns.any (fun x => (x.job.toList ++ x.queued).any (fun j =>
    j.svc.ticket = c.ticket && bs.any (fun b =>
      decide (poolAddr p b.off / 64 * 64 ≤ j.addr) && decide (j.addr < poolAddr p b.off + b.len))))

/-- A tile issued under an entry of a withdrawn page that has not ended (R294). -/
def oldTile (s : State) (p : Nat) (o : XlOp) (c : Command) (t : TileRec) : Bool :=
  let l := s.img.layout
  let us := xlPage l p o.unit ++ (if o.op = 3 then xlPage l p o.src else [])
  decide (t.epoch ≠ (partGet s p).mapEpoch) && t.faulted.isNone && t.pages.any (fun x => us.contains x.1) &&
    tileRunning s p c t

def oldTiles (s : State) (p : Nat) (o : XlOp) : Bool :=
  s.eng.pairs.any (fun e => e.1 / 64 = p && (match e.2.service with
    | none => false
    | some c => c.outcome.isNone && c.tiles.any (oldTile s p o c)))

/-- A transfer that has not ended by t + 8,192 is ended then: its part ends FAULT with its tile's first address. -/
def cutTiles (s : State) (p : Nat) (o : XlOp) : State :=
  (List.range 64).foldl (fun s q => cmdMod s p q (fun c =>
    if c.outcome.isSome then c
    else { c with tiles := c.tiles.map (fun t => if oldTile s p o c t then { t with faulted := some t.first } else t) })) s

/-- The end of a withdrawal (R295). -/
def endWithdrawal (s : State) (p clk : Nat) : State :=
  match (partGet s p).xlOp with
  | none => s
  | some o =>
    if o.op = 2 ∨ o.logged ∨ clk < o.at_ + 17 then s
    else if oldTiles s p o ∨ oldRequests s p then
      if clk < o.at_ + 8192 then s else logMapOp (cutRequests (cutTiles s p o) p) p o
    else logMapOp s p o

/-- UNMAP (R293 to R295). -/
def execUnmap (part : Fin 32) (unit clk : Nat) (s : State) : Host.Outcome State Fault Refusal :=
  .next (startMapOp (seenClk s clk) part.val 1 unit 0 0 clk)
/-- MAP (R293, R294). -/
def execMap (part : Fin 32) (unit hpage clk : Nat) (s : State) : Host.Outcome State Fault Refusal :=
  .next (startMapOp (seenClk s clk) part.val 2 unit 0 hpage clk)
/-- MOVE (R293 to R295). -/
def execMove (part : Fin 32) (unit src clk : Nat) (s : State) : Host.Outcome State Fault Refusal :=
  .next (startMapOp (seenClk s clk) part.val 3 unit src 0 clk)

/-- MAPPING_WITHDRAW_DONE (R295). -/
def execMappingWithdrawDone (part : Fin 32) (clk : Nat) (s : State) : Host.Outcome State Fault Refusal :=
  .next (endWithdrawal (seenClk s clk) part.val clk)

/-- MAP_DONE (R294): the new entry is in its backing. -/
def execMapDone (part : Fin 32) (clk : Nat) (s : State) : Host.Outcome State Fault Refusal :=
  let s := seenClk s clk
  match (partGet s part.val).xlOp with
  | none => .next s
  | some o => if o.op = 2 ∧ ¬ o.logged then .next (logMapOp s part.val o) else .next s

end Sys2Proof.Machine
end

