-- ==== Sys2Proof/Machine/Programs.lean ====
section
/-! DEFINITION. Programs and their words (R273, R274), traps and pruning of engines (R275, R276), the engine window's
commands (R278). -/

namespace Sys2Proof.Machine

/-! ### Traps, pruning, grafts (R275, R276) -/

/-- Core of an engine (R4). -/
def coreOf (engine : Nat) : Nat := engine / 4

/-- A program's copy in the reserves holds a bad word (R275, R307): each slot's 16-byte pieces in turn. -/
def readSlot (s : State) (r : ProgRec) : State := match reserveSlice s r.part r.slot with
  | none => s
  | some sl =>
    let (s, bad) := (List.range ((r.words.length + 3) / 4)).foldl (fun (acc : State × Bool) i =>
      let (s, bad) := reserveRead acc.1 2 sl 2 (progPiece r i)
      (s, acc.2 || bad)) (s, false)
    if bad then { s with eng := { s.eng with lostProgs := s.eng.lostProgs ++ [r.part * 16 + r.slot] } } else s

/-- The copies that a core's instruction memory is rewritten from: those of the partitions whose slices it serves. -/
def readCopies (s : State) (core : Nat) : State :=
  (s.img.layout.progs.filter (fun r => sliceOwner s.img.layout (2 * core) = some r.part ||
    sliceOwner s.img.layout (2 * core + 1) = some r.part)).foldl readSlot s

/-- An engine is pruned; while a part of it runs, when that part ends (R276). -/
def pruneEngine (s : State) (phys : Nat) : State :=
  let running := runsPart s phys
  engMod s phys (fun e => if running then { e with pruneDue := true } else { e with pruned := true })

/-- Cluster of a physical engine: two spares in each (R6). -/
def physCluster (i : Nat) : Nat := if i < 256 then i / 32 else (i - 256) / 2

/-- The grafts due at a tick: a pruned engine's number goes to a spare of its cluster; the TRAPPED state ends (R276). -/
def graftEngine (s : State) (i : Nat) : State :=
  let e := engGet s i
  match e.logical with
  | none => s
  | some l =>
    if !e.pruned ∨ graftWaits s (l / 2) then s
    else
      let c := physCluster i
      match [256 + 2 * c, 257 + 2 * c].find? (fun j => (engGet s j).logical.isNone && !(engGet s j).pruned) with
      | none => s
      | some j => engMod (engMod s i (fun e => { e with logical := none, trapped := false })) j
          (fun x => { x with logical := some l })

def tickGraftEngines (s : State) : State :=
  if autoBit s 0 then (s.eng.eng.map (·.1)).foldl graftEngine s else s

/-- A parity error on the lead's fetch (R275, R314): the engine traps, the trap is recorded, counted and logged, and
the core's instruction memory is rewritten. Which byte of that memory holds a program's word is not stated (log entry
2). -/
def trapEngine (s : State) (p : Nat) (slot word : Nat) : State :=
  let e := leadEngine s p
  let s := logMod s e (fun x =>
    { x with trapped := true, trapValid := true, trapSlot := slot, trapWord := word, traps := satTo 16 (x.traps + 1) })
  let (n, s) := drawFree s
  let s := { s with
    di := { s.di with parImem := sat16 s.di.parImem }
    eng := { s.eng with rewriting := s.eng.rewriting.filter (· != coreOf e) ++ [coreOf e] } }
  let s := logError s 6 2 0 0 0 (sramLoc (e / 128) 3 n) none none
  if 0 < ceLimit s ∧ ceLimit s ≤ (logGet s e).traps then pruneEngine s (physOf s e) else s

/-! ### The program in progress -/

/-- Words of a loaded slot (R64, R66, R307). -/
def progWords (s : State) (p slot : Nat) : Option (List Word) :=
  if s.eng.lostProgs.contains (p * 16 + slot) then none
  else (s.img.layout.progs.find? (fun r => r.part = p && r.slot = slot)).map (·.words)

/-- A program ends FAULT, no address being named. -/
def faultProgram (s : State) (p q : Nat) : State :=
  let (s, a) := noAddress s
  endCommand s p q .fault a

def progMod (s : State) (p q : Nat) (f : Program → Program) : State :=
  cmdMod s p q (fun c => { c with prog := c.prog.map f })

/-- A program of a partition may fetch: its core is not being rewritten, its engines run. -/
def mayFetch (s : State) (p : Nat) : Bool :=
  !(s.eng.rewriting.contains (coreOf (leadEngine s p))) && !stoppedEngines s p [leadEngine s p] &&
    decide (s.pwr.state = 0)

/-- The program between two steps of pair q, with its words. -/
def atWord (s : State) (p q : Nat) : Option (Program × List Word) :=
  match serviceOf s p q with
  | none => none
  | some c =>
    match c.prog with
    | none => none
    | some g =>
      if c.cur.isSome ∨ c.outcome.isSome ∨ (pairGet s p q).waiting.isSome ∨ !mayFetch s p then none
      else (progWords s p g.slot).map (fun ws => (g, ws))

/-- The word at the program's place, if it may execute: inside the slot and within 1,048,576 words (R274). -/
def wordAt (g : Program) (ws : List Word) : Option Word := if g.executed < 1048576 then ws[g.pc]? else none

/-- A program whose lead is pruned with no spare ends FENCED at its next word (R276; DEDUCED, log entry 72). -/
def leadLost (s : State) (p q : Nat) : State :=
  let (s, a) := noAddress s
  endCommand s p q .fenced a

/-- Execute the word at the program's place where its top bits name the operation. -/
def runWord (s : State) (p q code : Nat) (f : State → Program → List Word → Nat → State) : State :=
  match atWord s p q with
  | none => s
  | some (g, ws) =>
    match wordAt g ws with
    | none => s
    | some w =>
      if (logGet s (leadEngine s p)).pruned then leadLost s p q
      else if bitsOf w.toNat 28 4 = code then
        f (progMod s p q (fun g => { g with executed := g.executed + 1 })) { g with executed := g.executed + 1 } ws w.toNat
      else s

/-- The program goes on after this word. -/
def nextWord (s : State) (p q : Nat) (f : Program → Program) : State :=
  progMod s p q (fun g => { f g with pc := g.pc + 1 })

/-! ### PROG (R273, R274) -/

/-- The registers a program starts with. -/
def startRegs (ws : List Word) : List Nat × List Nat :=
  let w := fun i => (ws.getD i 0).toNat
  ((List.range 6).map (fun i => w (2 + 2 * i) + 2 ^ 32 * w (3 + 2 * i)) ++ [0, 0], [w 1, 0, 0, 0])

/-- Start a program: the lead must serve, the slot must be loaded. -/
def startProgram (s : State) (p q : Nat) (ws : List Word) : State :=
  let d := descOf ws
  let lead := logGet s (leadEngine s p)
  if lead.pruned ∨ lead.trapped then
    let (s, a) := noAddress s
    endCommand s p q (if lead.pruned then .fenced else .halted) a
  else match progWords s p d.slot with
    | none => faultProgram s p q
    | some _ =>
      let r := startRegs ws
      let s := logMod s (leadEngine s p) (fun e => { e with lead := true, busy := true, slot := d.slot })
      cmdMod s p q (fun c => { c with cur := none, prog := some { slot := d.slot, a := r.1, c := r.2 } })

/-- The fetch of the next word meets a parity error: the PROG ends FAULT with address 0 (R275). -/
def parityTrap (s : State) (p q : Nat) : State :=
  match atWord s p q with
  | none => s
  | some (g, _) => endCommand (trapEngine s p g.slot g.pc) p q .fault 0

/-- PROG (R274): it starts the program, and it decodes the words that no other name has: a reserved word, a place past
the slot's WORDS, or a word past the limit ends it FAULT. -/
def execProg (part : Fin 32) (queue : Fin 64) (parityError : Bool) (s : State) : Host.Outcome State Fault Refusal :=
  let p := part.val
  let q := queue.val
  match serviceOf s p q with
  | none => .next s
  | some c =>
    match c.cur, c.prog with
    | some ws, none =>
      if (descOf ws).opc = 9 ∧ mayFetch s p then
        let s := startProgram s p q ws
        .next (if parityError then parityTrap s p q else s)
      else .next s
    | none, some _ =>
      if parityError then .next (parityTrap s p q)
      else match atWord s p q with
        | none => .next s
        | some (g, ws) => match wordAt g ws with
          | none => .next (faultProgram s p q)
          | some w => .next (if (logGet s (leadEngine s p)).pruned then leadLost s p q else if 6 ≤ bitsOf w.toNat 28 4 then faultProgram s p q else s)
    | _, _ => .next s

/-! ### Program words (R273) -/

/-- HALT: [27:0] zero. -/
def execHalt (part : Fin 32) (queue : Fin 64) (s : State) : Host.Outcome State Fault Refusal :=
  .next (runWord s part.val queue.val 0 (fun s _ _ w =>
    if bitsOf w 0 28 ≠ 0 then faultProgram s part.val queue.val else endCommand s part.val queue.val .ok 0))

/-- A register field of RUN: 0 to 7, or 0xF to keep the template's field. -/
def regField (v : Nat) : Bool := decide (v < 8) || v = 15

/-- Words i and i + 1 of a template replaced by a register. -/
def putReg (ws : List Word) (i field : Nat) (a : List Nat) : List Word :=
  if field = 15 then ws
  else setAt (setAt ws i (BitVec.ofNat 32 (a.getD field 0))) (i + 1) (BitVec.ofNat 32 (a.getD field 0 / 2 ^ 32))

/-- The descriptor of a step, none where the word or its template breaks a rule of R274. -/
def stepDesc (g : Program) (ws : List Word) (w : Nat) : Option (List Word) :=
  let ra := bitsOf w 24 4
  let rb := bitsOf w 20 4
  let rd := bitsOf w 16 4
  let t := bitsOf w 0 14
  let template := (ws.drop t).take 16
  if bitsOf w 14 2 ≠ 0 ∨ !regField ra ∨ !regField rb ∨ !regField rd ∨ ws.length < t + 16 ∨ (descOf template).opc = 9 then
    none
  else some (putReg (putReg (putReg template 4 ra g.a) 6 rb g.a) 8 rd g.a)

/-- Execute the step that a RUN has begun. -/
def continueStep (s : State) (p q clk : Nat) : State := finishIfDone (settle (executeCmd s p q clk)) p q

/-- RUN: one step, with its checks (R253, R287); a step whose operands wait is continued by the next RUN event. -/
def execRun (part : Fin 32) (queue : Fin 64) (clk : Nat) (s : State) : Host.Outcome State Fault Refusal :=
  let p := part.val
  let q := queue.val
  let s := seenClk s clk
  match serviceOf s p q with
  | none => .next s
  | some c =>
    if c.prog.isSome ∧ c.cur.isSome then .next (continueStep s p q clk)
    else .next (runWord s p q 1 (fun s g ws w =>
      match stepDesc g ws w with
      | none => faultProgram s p q
      | some d =>
        let s := beginDesc s p q d
        match serviceOf s p q with
        | none => s
        | some c => if c.cur.isSome then continueStep s p q clk else s))

/-- ADDA: A[a] + 256 × i modulo 2^64, i signed. -/
def addaValue (a : Nat) (i : Nat) : Nat :=
  (((a : Int) + 256 * (BitVec.ofNat 24 i).toInt) % (2 ^ 64 : Nat)).toNat

def execAdda (part : Fin 32) (queue : Fin 64) (s : State) : Host.Outcome State Fault Refusal :=
  .next (runWord s part.val queue.val 2 (fun s _ _ w =>
    if w.testBit 24 then faultProgram s part.val queue.val
    else nextWord s part.val queue.val (fun g =>
      { g with a := setAt g.a (bitsOf w 25 3) (addaValue (g.a.getD (bitsOf w 25 3) 0) (bitsOf w 0 24)) })))

/-- SETC: C[c] = v. -/
def execSetc (part : Fin 32) (queue : Fin 64) (s : State) : Host.Outcome State Fault Refusal :=
  .next (runWord s part.val queue.val 3 (fun s _ _ w =>
    nextWord s part.val queue.val (fun g => { g with c := setAt g.c (bitsOf w 26 2) (bitsOf w 0 26) })))

/-- LOOP: C[c] falls by one if it is above zero; the program continues at the target while C[c] is then non-zero. A
target beyond the slot's WORDS ends it FAULT (R274). -/
def execLoop (part : Fin 32) (queue : Fin 64) (s : State) : Host.Outcome State Fault Refusal :=
  .next (runWord s part.val queue.val 4 (fun s g ws w =>
    let c := g.c.getD (bitsOf w 26 2) 0 - 1
    let target := bitsOf w 0 14
    if bitsOf w 14 12 ≠ 0 ∨ ws.length ≤ target then faultProgram s part.val queue.val
    else progMod s part.val queue.val (fun g =>
      { g with c := setAt g.c (bitsOf w 26 2) c, pc := if c ≠ 0 then target else g.pc + 1 })))

/-- MOVA: A[a] = A[b]. -/
def execMova (part : Fin 32) (queue : Fin 64) (s : State) : Host.Outcome State Fault Refusal :=
  .next (runWord s part.val queue.val 5 (fun s _ _ w =>
    if bitsOf w 0 22 ≠ 0 then faultProgram s part.val queue.val
    else nextWord s part.val queue.val (fun g =>
      { g with a := setAt g.a (bitsOf w 25 3) (g.a.getD (bitsOf w 22 3) 0) })))

/-! ### The engine window (R275, R276, R278) -/

/-- IMEM_REWRITE_DONE (R275). -/
def execImemRewriteDone (core : Fin 64) (s : State) : Host.Outcome State Fault Refusal :=
  let s := readCopies s core.val
  .next { s with eng := { s.eng with rewriting := s.eng.rewriting.filter (· != core.val) } }

/-- ENG_CTRL.RESUME leaves TRAPPED. -/
def resumeEngine (s : State) (engine : Nat) : State := logMod s engine (fun e => { e with trapped := false })
def execEngResume (engine : Fin 256) (s : State) : Host.Outcome State Fault Refusal := .next (resumeEngine s engine.val)

/-- ENG_CTRL.PRUNE, by physical number. -/
def execEngPrune (phys : Fin 272) (s : State) : Host.Outcome State Fault Refusal := .next (pruneEngine s phys.val)

/-- ENG_CTRL.CLR zeroes the ENG_CNT registers. -/
def clearEngine (s : State) (engine : Nat) : State :=
  logMod s engine (fun e => { e with cntPart := 0, cntMac := 0, cntBusy := 0, cntFault := 0, cntEmpty := 0 })
def execEngClear (engine : Fin 256) (s : State) : Host.Outcome State Fault Refusal := .next (clearEngine s engine.val)

end Sys2Proof.Machine
end

