-- ==== Sys2Proof/Machine/Ring.lean ====
section
/-! DEFINITION. The ring stop: routing, sinking, bad packets, output arbitration and multicast (R141 to R162). -/

namespace Sys2Proof.Machine

/-! ### Bad and removed packets (R154, R155) -/

/-- Which counter of R155 a bad packet meets. -/
inductive BadKind where
  | unroutable | hops | opcode
deriving DecidableEq, Repr, Inhabited

def countBad (s : State) (k : BadKind) : State :=
  match k with
  | .unroutable => { s with fab := { s.fab with unroutable := sat16 s.fab.unroutable } }
  | .hops => { s with fab := { s.fab with hops := sat16 s.fab.hops } }
  | .opcode => { s with fab := { s.fab with opcodeErr := sat16 s.fab.opcodeErr } }

/-- CMP FAULT to SRC for a request that the sink refuses; it waits for its port like any packet (R154, R155, R350). -/
def refusePacket (s : State) (port : Nat) (p : Packet) : State :=
  injectOn s (port / 4) false (answerPacket s { pkt := p, origin := .fabric port } none (endWith .fault))

/-- A packet that breaks a rule: a request is answered FAULT, the rest is discarded. -/
def badPacket (s : State) (port : Nat) (p : Packet) (k : BadKind) : State :=
  let s := countBad s k
  if p.cls = 0 then refusePacket s port p else s

/-- A packet routed to a port out of service is removed and counted there (R154). -/
def removePacket (s : State) (port out : Nat) (p : Packet) : State :=
  let s := noteRemoved s out
  if p.cls = 0 then turnAway s port p (removedStatus s out) else s

/-! ### Sinking (R144, R155, R350) -/

/-- A copy request of the follower travels as twin traffic, uncharged (R91, R381). The first takes the leader from
ALONE, or from PAIRED where the follower copies anew, to RESYNC. -/
def isCopyRequest (s : State) (p : Packet) : Bool :=
  decide (2 ≤ s.twn.state ∧ s.twn.state ≤ 4) && leads s && decide (p.src.toNat = twinPeer s) &&
    (pktOp p = .rd || pktOp p = .acquire) && decide (addrPart p.addr.toNat = p.part.toNat) &&
    (twinnedAt s (addrPart p.addr.toNat) (addrOff p.addr.toNat)).isSome

/-- The fourth and fifth rows of R155, then the envelope, then the packet's own sink. COLOUR 0b11 is metered as green;
a reserved STATUS counts as FAULT (R14, R144). -/
def sinkPacket (s : State) (port : Nat) (p : Packet) : State :=
  if !opcodeRule p (fabEnc s p.part.toNat) ∨ !alignRule p then badPacket s port p .opcode
  else match openPacket s p with
  | none =>
    let s := { s with sec := { s.sec with tagErr := sat16 s.sec.tagErr } }
    if p.cls = 0 then refusePacket s port p else s
  | some q =>
    let q := { q with status := BitVec.ofNat 4 (statusCode (statusOf q.status.toNat)) }
    let s := portCnt s port (fun c => { c with sink := wrap32 c.sink })
    if q.cls = 0 then
      let colour := if q.colour = 3 then 0 else q.colour.toNat
      let r : Request := { pkt := q, origin := .fabric port, colour := colour, arrived := s.td.now }
      if isCopyRequest s q then
        let s := if s.twn.state = 2 then s else feedAgain s
        { s with
          svc := s.svc ++ [{ ticket := s.nextTicket, key := requestFlow s r, req := r, headroom := none, admitted := s.td.now }]
          nextTicket := s.nextTicket + 1 }
      else { s with fab := { s.fab with arrivals := s.fab.arrivals ++ [r] } }
    else if keptOpcode q then { s with fab := { s.fab with inbox := s.fab.inbox ++ [{ pkt := q, port := port }] } }
    else s

/-! ### Multicast (R159 to R162) -/

/-- Position of a node on the ring of a multicast: its column on a row ring, its row on a column ring. -/
def mcPos (dim : Bool) (node : Nat) : Nat := if dim then node / 64 else node % 64

/-- Stops of a multicast's path after SRC, up to and including DEST, as mask bits. -/
def mcPathMask (r : RingRec) (p : Packet) : Nat :=
  let len := if p.dim then r.colLen else r.rowLen
  let a := mcPos p.dim p.src.toNat
  let b := mcPos p.dim p.dest.toNat
  let n := if p.dir then ringDist b a len else ringDist a b len
  maskOf ((List.range n).map (fun i => if p.dir then (a + len - (i + 1) % len) % len else (a + i + 1) % len))

/-- A multicast whose DEST is on its ring, differs from SRC, and whose mask names only its path (R159, R161). -/
def mcWellFormed (r : RingRec) (p : Packet) : Bool :=
  decide (mcPos (!p.dim) p.src.toNat = mcPos (!p.dim) p.dest.toNat) && decide (p.src ≠ p.dest) &&
    decide (p.aux.toNat &&& (mcPathMask r p) = p.aux.toNat)

/-- MC_DONE to SRC on the plane of arrival (R161). -/
def sendMcDone (s : State) (port : Nat) (p : Packet) (st : Status) (mask : Nat) : State :=
  let part := p.part.toNat
  let q := newPacket s .mcDone p.src.toNat part p.seq p.addr.toNat []
  injectOn s (port / 4) false { q with
    status := BitVec.ofNat 4 (statusCode st), aux := BitVec.ofNat 64 mask, load := BitVec.ofNat 4 (loadOf s),
    headroom := BitVec.ofNat 4 (headroomNow s (flowNat part false p.src.toNat)),
    epoch := BitVec.ofNat 16 (partGet s part).epoch }

/-- The access check of one 64 KiB block of a copy's range. -/
def mcBlockOk (s : State) (p off n : Nat) : Bool :=
  match placeOf s p off with
  | .none => false
  | .near _ _ => (nearPlace (partSlices s.img.layout p) (off + n - 1 - nearBase)).isSome
  | .pinned _ _ _ => (pinnedLines s p off n).all (fun l => match l.2.2 with
    | none => false
    | some (sl, _) => !sliceFenced s sl)
  | .flash _ g =>
    let x := granGet s p g
    flashState s.fl ≠ 4 && (x.st = .cached || x.st = .dirty || x.st = .writing ||
      (x.st = .zero && (unusedFrame s p).isSome))

/-- Bytes a copy places: its data, without the envelope that still holds them, or the 8 bytes of a signal (R147, R349). -/
def mcBytes (s : State) (p : Packet) : Nat :=
  if pktOp p = .mcSig then 8
  else if fabEnc s p.part.toNat then p.payload.length - 24 else p.payload.length

/-- A copy any byte of which lies in a twinned region that does not serve, or that only its leader may write, is
refused (R369, R371). -/
def mcTwinBar (s : State) (p off n : Nat) : Bool :=
  (cutAt 65536 off (max 1 n)).any (fun c => match twinGate s p c.1 with
    | .serve => false
    | .resetting => true
    | .follower r => regionCoherent r)

/-- The checks of R160 and R162: the status that refuses a copy. DESIGN CHOICE (log entry 40): a SEAL in progress on the
region (R356) refuses none. -/
def mcBar (s : State) (plane : Nat) (p : Packet) : Option Status :=
  let part := p.part.toNat
  let k := flowNat part false p.src.toNat
  if isFenced s false p.src.toNat ∨ isFenced s false (homeNode s) then some .fenced
  else match partStatus s part with
    | some st => some st
    | none =>
      if halfInReset s = some plane then some .resetting
      else if isConf s part ∧ ¬ (partGet s part).keys.keyed then some .fault
      else if addrPart p.addr.toNat ≠ part then some .fault
      else if !(cutAt 65536 (addrOff p.addr.toNat) (max 1 (mcBytes s p))).all (fun c => mcBlockOk s part c.1 c.2.2) then
        some .fault
      else if mcTwinBar s part (addrOff p.addr.toNat) (mcBytes s p) then some .fault
      else if ((allotOf s.img.layout k).map (·.allot)).getD 0 = 0 then some .fault
      else if (flowGet s k).limitNow = 0 then some .retry
      else none

/-- Place an accepted copy: the bytes of a write, or 1 added to a word; failures are logged when it ends (R147, R161). -/
def placeCopy (s : State) (p : Packet) : State :=
  let sig := decide (pktOp p = .mcSig)
  let k : Packet := { p with
    opcode := BitVec.ofNat 6 (opCode (if sig then .atom else .wr)), arg := 0,
    payload := if sig then leBytes 8 1 ++ leBytes 8 0 else p.payload }
  let v : Service := { ticket := s.nextTicket, key := 2 ^ 18, req := { pkt := k, origin := .engine p.part.toNat 64 },
                       headroom := none }
  let s := { s with svc := s.svc ++ [v], nextTicket := s.nextTicket + 1 }
  if sig then runAtomic s v []
  else if p.payload = [] then dropSvc s v.ticket
  else settle (startRange s v [] true p.addr.toNat p.payload.length p.payload)

/-- A sinking stop's copy (R160 to R162): refused with its bit cleared and STATUS written while OK, or accepted and
charged. The answer is the packet to forward, with the copy to place. -/
def mcCopy (s : State) (port bit : Nat) (p : Packet) : State × Packet × Option Packet :=
  let refuse := fun (s : State) (st : Status) =>
    let q := { p with aux := BitVec.ofNat 64 (withoutSharer p.aux.toNat bit) }
    (if isConf s p.part.toNat then s else { s with fab := { s.fab with refusedMc := sat16 s.fab.refusedMc } },
      if p.status = 0 then { q with status := BitVec.ofNat 4 (statusCode st) } else q, none)
  match mcBar s (port / 4) p with
  | some st => refuse s st
  | none =>
    match openPacket s p with
    | none => refuse { s with sec := { s.sec with tagErr := sat16 s.sec.tagErr } } .fault
    | some q =>
      let k := flowNat p.part.toNat false p.src.toNat
      let s := debtNet (charge s k (packetUnits p.len.toNat)) k
      let s := portCnt s port (fun c => { c with sink := wrap32 c.sink })
      (if isConf s p.part.toNat then s else { s with fab := { s.fab with mcSunk := wrap32 s.fab.mcSunk } }, p, some q)

/-- Forward a multicast on its ring and direction, or end it at DEST with MC_DONE (R159, R161). Its STATUS, a reserved
code counting as FAULT (R14), goes into the MC_DONE. -/
def mcForward (s : State) (r : RingRec) (port : Nat) (p : Packet) (since : Nat) : State :=
  if p.dest.toNat = r.node then
    sendMcDone (freeAt s port p p.vc since) port p (statusOf p.status.toNat) p.aux.toNat
  else
    let out := 4 * (port / 4) + 2 * bit01 p.dim + bit01 p.dir
    if portHolds s out then enqueueOut s r out 0 port p since
    else removePacket (freeAt s port p p.vc since) port out p

/-- A multicast at this stop. -/
def multicast (s : State) (port : Nat) (p : Packet) (since : Nat) : State :=
  match s.img.layout.ring with
  | none => freeAt s port p p.vc since
  | some r =>
    if p.hops.toNat ≤ 1 ∧ !mcWellFormed r p then
      let s := { s with fab := { s.fab with badMc := sat16 s.fab.badMc } }
      sendMcDone (freeAt s port p p.vc since) port p .fault 0
    else
      let bit := mcPos p.dim r.node
      if !p.aux.getLsbD bit then mcForward s r port p since
      else if !opcodeRule p (fabEnc s p.part.toNat) ∨ !alignRule p then
        badPacket (freeAt s port p p.vc since) port p .opcode
      else
        let (s, q, copy) := mcCopy s port bit p
        let s := mcForward s r port q since
        match copy with
        | none => s
        | some c => placeCopy s c

/-- Two packets of a class that share SRC, DEST and plane: they stay in the order they were sent (R148). -/
def sameStream (p q : Packet) (planeP planeQ : Nat) : Bool :=
  p.cls == q.cls && p.src == q.src && p.dest == q.dest && planeP == planeQ

/-- The oldest multicast that meets `ok` and has none of its own stream before it, with the others. -/
def takeMc (ok : Packet → Bool) (past : List Sunk) : List Sunk → Option (Sunk × List Sunk)
  | [] => none
  | x :: xs =>
    if ok x.pkt && !past.any (fun y => sameStream y.pkt x.pkt (y.port / 4) (x.port / 4)) then some (x, past ++ xs)
    else takeMc ok (past ++ [x]) xs

/-- Handle the oldest multicast of a kind that stands at this stop. -/
def takeMulticast (s : State) (ok : Packet → Bool) : State :=
  match takeMc ok [] s.fab.mcasts with
  | none => s
  | some (x, rest) => multicast { s with fab := { s.fab with mcasts := rest } } x.port x.pkt x.since

/-! ### Commands -/

/-- A packet at the front of its port: turned away, kept for its multicast, sunk, or queued for the next port. -/
def routeWhole (s : State) (r : RingRec) (port : Nat) (p : Packet) (since : Nat) : State :=
  let left := freeAt s port p p.vc since
  if !inGrid r p.dest.toNat then badPacket left port p .unroutable
  else if 127 ≤ p.hops.toNat ∧ p.dest.toNat ≠ r.node then badPacket left port p .hops
  else if p.cls = 3 ∧ p.mcast then
    { s with fab := { s.fab with mcasts := s.fab.mcasts ++ [{ pkt := p, port := port, since := since }] } }
  else match routeAt r (port / 4) p.dest.toNat with
    | .sink => sinkPacket left port p
    | .unroutable => badPacket left port p .unroutable
    | .port out =>
      if portHolds s out then enqueueOut s r out (if out = facingPort port then 0 else 1) port p since
      else removePacket left port out p

/-- The header of a framing loss leaves: its header credit is freed, the loss counted, nothing answered (R155). -/
def framingLoss (s : State) (port : Nat) (p : Packet) (since : Nat) : State :=
  let s := portMod s port (fun x =>
    let c := p.cls.toNat
    { creditMod x (2 * poolOf c p.vc) (fun c => { c with freed := (c.freed + 1) % 65536, used := c.used - 1 }) with
      waits := x.waits.set c (max (s.td.now - since) (x.waits.getD c 0)) })
  { s with fab := { s.fab with frameErr := sat16 s.fab.frameErr } }

/-- PACKET_ROUTE (R149, R154, R155): the oldest packet that stands at a port. A unicast behind a multicast of its own
stream waits for it (R148). -/
def execPacketRoute (port : Fin 8) (s : State) : Host.Outcome State Fault Refusal :=
  match (portGet s port.val).ingress with
  | [] => .next s
  | b :: rest =>
    let plane := port.val / 4
    let waits := !b.pkt.mcast && s.fab.mcasts.any (fun y => sameStream y.pkt b.pkt (y.port / 4) plane)
    if waits && decide (b.pkt.len.toNat ≤ 4096) then .next s
    else
      let s := portMod s port.val (fun x => { x with ingress := rest })
      if 4096 < b.pkt.len.toNat then .next (framingLoss s port.val b.pkt b.since)
      else match s.img.layout.ring with
        | none => .next (freeAt s port.val b.pkt b.pkt.vc b.since)
        | some r => .next (routeWhole s r port.val b.pkt b.since)

/-- Data credits of the bubble of a class: M_c / 16 (R142, R151). -/
def bubbleCredits (cls : Nat) : Nat := if cls = 2 then 0 else 256

/-- Packets that stand whole in a run of stream bytes. -/
def streamPackets : Nat → List Byte → List Packet
  | 0, _ => []
  | fuel + 1, bs =>
    if bs.length < 32 then []
    else
      let p := packetOfBytes bs
      p :: streamPackets fuel (bs.drop (chunkBytes p.len.toNat))

/-- Credits of a counter less those that packets of the stream will charge once their header is placed (R127). -/
def creditsLeft (p : Port) (n : Nat) : Nat :=
  let rest := p.tx.bytes.drop p.tx.need
  let ahead := (streamPackets (rest.length + 1) rest).filter (fun k => poolOf k.cls.toNat k.vc = n / 2)
  (p.credits.getD n {}).avail - sumNat (ahead.map (fun k => if n % 2 = 0 then 1 else dataCredits k.len.toNat))

/-- The credits of R127 are held. -/
def holdsCredits (p : Port) (w : RingPkt) : Bool :=
  let pool := poolOf w.pkt.cls.toNat w.pkt.vc
  decide (1 ≤ creditsLeft p (2 * pool)) && decide (dataCredits w.pkt.len.toNat ≤ creditsLeft p (2 * pool + 1))

/-- The bubble of R151, which a continuing packet does not need. -/
def holdsBubble (p : Port) (w : RingPkt) : Bool :=
  let pool := poolOf w.pkt.cls.toNat w.pkt.vc
  w.kind = 0 || (decide (2 ≤ creditsLeft p (2 * pool)) &&
    decide (dataCredits w.pkt.len.toNat + bubbleCredits w.pkt.cls.toNat ≤ creditsLeft p (2 * pool + 1)))

/-- Rank of a class in R152: response, forward, collective, request. -/
def classRank (cls : Nat) : Nat := match cls with
  | 1 => 0 | 2 => 1 | 3 => 2 | _ => 3

/-- The order of R152 as one number: class, VC 1 first, kind, input port, age. -/
def arbRank (w : RingPkt) : Nat :=
  (((classRank w.pkt.cls.toNat * 2 + bit01 (!w.pkt.vc)) * 3 + w.kind) * 16 + w.inPort) * 2 ^ 64 + w.age

/-- The first of its stream that waits for its port (R148). -/
def firstOfStream (s : State) (w : RingPkt) : Bool :=
  !s.fab.waiting.any (fun x => x.out == w.out && decide (x.age < w.age) && sameStream x.pkt w.pkt 0 0)

/-- The packet an ACTIVE port chooses next: the first of its stream that meets R151, in the order of R152 (R148). -/
def chooseNext (s : State) (port : Nat) : Option RingPkt :=
  let p := portGet s port
  minBy arbRank (s.fab.waiting.filter (fun w =>
    w.out == port && firstOfStream s w && holdsCredits p w && holdsBubble p w))

/-- A packet enters the port's stream: HOPS counts the link, its place at the stop is freed. Its credits are charged when
its header is placed in a flit (R127). -/
def transmit (s : State) (port : Nat) (w : RingPkt) : State :=
  let q := { w.pkt with hops := w.pkt.hops + 1 }
  let s := { s with fab := { s.fab with waiting := s.fab.waiting.filter (fun x => x.age != w.age) } }
  let s := portMod s port (fun p =>
    { p with
      tx := { p.tx with bytes := p.tx.bytes ++ packetBytes q }
      cnt := if w.kind = 0 then { p.cnt with thru := wrap32 p.cnt.thru }
        else if w.kind = 1 then { p.cnt with turn := wrap32 p.cnt.turn }
        else { p.cnt with inj := wrap32 p.cnt.inj } })
  freeAt (emit s (.packet port q)) w.inPort w.pkt w.inVc w.since

/-- OUTPUT_ARBITRATION (R151, R152): an ACTIVE port that has finished its packet, or has less than a flit of it left,
takes its next. A turn or injection that lacks only the bubble is counted. -/
def execOutputArbitration (port : Fin 8) (s : State) : Host.Outcome State Fault Refusal :=
  let p := portGet s port.val
  if p.state ≠ 4 ∨ 240 ≤ p.tx.bytes.length then .next s
  else
    let starved := s.fab.waiting.any (fun w =>
      w.out == port.val && firstOfStream s w && holdsCredits p w && !holdsBubble p w)
    let s := if starved then portCnt s port.val (fun c => { c with bubble := wrap32 c.bubble }) else s
    match chooseNext s port.val with
    | none => .next s
    | some w => .next (transmit s port.val w)

/-- MC_WR (R159 to R162): the oldest multicast write at this stop. A collective packet with MCAST 1 of any opcode but
MC_SIG takes the same path (R149). -/
def execMcWr (s : State) : Host.Outcome State Fault Refusal :=
  .next (takeMulticast s (fun p => pktOp p != .mcSig))

/-- MC_SIG (R145, R159 to R162): the oldest multicast signal at this stop. -/
def execMcSig (s : State) : Host.Outcome State Fault Refusal :=
  .next (takeMulticast s (fun p => pktOp p == .mcSig))

end Sys2Proof.Machine
end

