-- ==== Sys2Proof/Machine/Trust.lean ====
section
/-! DEFINITION. The attestation unit: quotes and key delivery, owner commands, sealed weights, firmware, and the ledger's
held entries (R339 to R366). -/

namespace Sys2Proof.Machine

/-! ### SEC_CMD (R364, R365) -/

def secOk : Nat := 0x00
def secBusy : Nat := 0x01
def secBadFormat : Nat := 0x02
def secBadSignature : Nat := 0x03
def secBadOwner : Nat := 0x04
def secReplay : Nat := 0x05
def secNotMember : Nat := 0x06
def secNoExchange : Nat := 0x07
def secTag : Nat := 0x08
def secEpoch : Nat := 0x09
def secState : Nat := 0x0A
def secDigest : Nat := 0x0B
def secSvn : Nat := 0x0C
def secRefused : Nat := 0x0D

/-- An operation ends with a code. -/
def secEnd (s : State) (code : Nat) : State := { s with sec := { s.sec with busy := false, code := code } }

/-- A GO of an operation: ignored while another runs. `f` begins it; one that ends at once calls `secEnd`. -/
def secGo (s : State) (op : Nat) (f : State → State) : State :=
  if s.sec.busy then s else f { s with sec := { s.sec with cmdOp := op, op := op, busy := true } }

/-- Bytes of the mailbox, and a write of bytes into it. -/
def mailBytes (s : State) (off n : Nat) : List Byte := (List.range n).map (fun i => tblGet (fun _ => 0) s.mailbox (off + i))
def mailStore (s : State) : Nat → List Byte → State
  | _, [] => s
  | off, b :: bs => mailStore { s with mailbox := tblSet (fun _ => 0) s.mailbox off b } (off + 1) bs

/-- An ASCII context or label. -/
def ascii (t : String) : List Byte := t.toList.map (fun c => BitVec.ofNat 8 c.toNat)

/-- The IV of 12 zero bytes (R343, R351, R355). -/
def zeroIv : List Byte := List.replicate 12 0

/-- A load is in progress for a partition: its own, or a whole-device one. -/
def loadFor (s : State) (p : Nat) : Bool := s.img.phase ≠ 0 && (!s.img.kind || s.img.part = p)

/-! ### Quotes (R351 to R353) -/

def pstateCode : PState → Nat
  | .unused => 0 | .active => 1 | .quiesced => 2 | .resetting => 3

/-- STABLE (R353). -/
def quoteStable (s : State) (dev : Bool) (p : Nat) : Bool :=
  (match s.sec.staged with
    | none => true
    | some f => f.measure == s.sec.running.measure) &&
  s.sec.pendingSince.isNone && s.img.phase = 0 &&
  (dev || ((partGet s p).st = .active && (partGet s p).newKeys.isNone && !s.sec.sealing.any (fun x => x.part = p)))

/-- The 320 bytes of a quote body (R352); `ek` is the exchange key of a partition quote. -/
def quoteBody (s : State) (dev : Bool) (p : Nat) (nonce : List Byte) (ek : Option (List Byte)) : List Byte :=
  let x := partGet s p
  let flags := bit01 (quoteStable s dev p) + 2 * bit01 dev + 4 * bit01 (!dev && isConf s p) + 8 * bit01 (!dev && x.keys.keyed) +
    16 * bit01 (!dev && x.keys.fabEnc) + 32 * bit01 (!dev && x.keys.ethEnc) + 64 * bit01 ek.isSome
  let own := fun (bs : List Byte) => if dev then List.replicate bs.length 0 else bs
  [0x51, 0x55, 0x4F, 0x31] ++ leBytes 1 1 ++ leBytes 1 flags ++ leBytes 1 (if dev then 0 else p) ++
    leBytes 1 (if dev then 0 else pstateCode x.st) ++ leBytes 4 s.td.boot ++ own (leBytes 4 x.epoch) ++ leBytes 8 s.td.ptime ++
    leBytes 2 s.sec.running.svn ++ leBytes 2 s.sec.fwFloor ++ leBytes 4 s.img.serial ++ padTo 32 nonce ++
    digestBytes Config.devid ++ digestBytes s.sec.running.measure ++
    (match s.sec.staged with
      | none => List.replicate 32 0
      | some f => digestBytes f.measure) ++
    digestBytes s.img.digest ++ own (digestBytes x.digest) ++
    (match ek with
      | none => List.replicate 32 0
      | some k => digestBytes (sha256 k)) ++
    own (digestBytes x.ledger.digest) ++ own (leBytes 8 x.ledger.head) ++ List.replicate 24 0

/-- The encapsulation key of exchange key n, 1,568 bytes. -/
def exchangeKey (n : Nat) : List Byte := padTo 1568 (Config.exchangeEncapKey n)

/-- SEC_CMD QUOTE: the body is formed with a fresh exchange key for a partition, which replaces the earlier one. -/
def quoteGo (s : State) : State :=
  secGo s 1 (fun s =>
    let p := s.sec.cmdPart
    let nonce := mailBytes s 0 32
    if s.sec.cmdDev then { s with sec := { s.sec with quoting := some (quoteBody s true p nonce none, none) } }
    else
      let n := s.sec.nextKey
      let body := quoteBody s false p nonce (some (exchangeKey n))
      partMod { s with sec := { s.sec with nextKey := n + 1, quoting := some (body, some n) } } p
        (fun x => { x with exch := some { keyId := n, frame := frameOf s, qd := sha256 body } }))

/-- QUOTE (R351, R352). -/
def execQuote (s : State) : Host.Outcome State Fault Refusal := .next (quoteGo s)

/-- QUOTE_DONE (R351): body, signature and exchange key stand in the mailbox. -/
def execQuoteDone (s : State) : Host.Outcome State Fault Refusal :=
  match s.sec.quoting with
  | none => .next s
  | some (body, key) =>
    let s := mailStore s 0 body
    let s := mailStore s 0x140 (padTo 17088 (Config.identitySign (digestBytes (sha256 body))))
    let s := match key with
      | none => s
      | some n => mailStore s 0x4400 (exchangeKey n)
    .next (secEnd { s with sec := { s.sec with quoting := none } } secOk)

/-- EXCHANGE_KEY_EXPIRY (R351). -/
def execExchangeKeyExpiry (part : Fin 32) (s : State) : Host.Outcome State Fault Refusal :=
  match (partGet s part.val).exch with
  | none => .next s
  | some e =>
    if frameOf s < e.frame + 2 ^ 24 then .next s else .next (partMod s part.val (fun x => { x with exch := none }))

/-! ### Key sets (R347, R351) -/

/-- The KEYSET record, opened under the exchange key: none when the tag fails. -/
def openKeyset (s : State) (e : Exchange) : Option (List Byte) :=
  let ss := Config.exchangeDecaps e.keyId (mailBytes s 0 1568)
  let qd := digestBytes e.qd
  gcmOpen (digestBytes (sha256 (ss ++ qd ++ ascii "KEYSET1"))) zeroIv qd (mailBytes s 0x620 136) (mailBytes s 0x6A8 16)

/-- The checks of R351 in order: the code of the first failure, or the key set. -/
def checkKeyset (s : State) (p : Nat) : Except Nat (KeySet × Digest) :=
  let x := partGet s p
  match x.exch with
  | none => .error secNoExchange
  | some e =>
    if loadFor s p ∨ s.sec.sealing.any (fun y => y.part = p) then .error secBusy
    else if x.st ≠ .active then .error secState
    else match openKeyset s e with
      | none => .error secTag
      | some r =>
        let flags := fieldAt r 0 4
        if 3 < flags then .error secBadFormat
        else if fieldAt r 4 4 ≠ x.epoch then .error secEpoch
        else if isConf s p ∧ flags ≠ 3 then .error secState
        else .ok ({ keyed := true, fabEnc := flags.testBit 0, ethEnc := flags.testBit 1, xts := sliceBytes r 8 64,
                    fab := sliceBytes r 72 32, eth := sliceBytes r 104 32 }, e.qd)

/-- SEC_CMD KEYSET: any attempt destroys the exchange key; a key set that passes is installed under R347. -/
def keysetGo (s : State) : State :=
  secGo s 2 (fun s =>
    let p := s.sec.cmdPart
    let r := checkKeyset s p
    let s := partMod s p (fun x => { x with exch := none })
    match r with
    | .error c => secEnd s c
    | .ok k => partMod (quiesce s p 2) p (fun x => { x with newKeys := some k }))

/-- KEYSET (R347, R351). -/
def execKeyset (s : State) : Host.Outcome State Fault Refusal := .next (keysetGo s)

/-- The installation's steps after drain and recall (R347). -/
def installKeys (s : State) (p : Nat) (k : KeySet) (qd : Digest) : State :=
  let s := endPairs s p
  let s := if (partGet s p).qpsEnded then s else endQps s p
  let s := setKeys (cryptoErase s p) p k
  let s := fillSlices s (partSlices s.img.layout p)
  let s := mapRegions (clearUnits (dropBuffers s p) p (fun _ => true)) p (regionsOf s.img.layout p)
  let s := advanceEpoch (partMod s p (fun x => { x with newKeys := none, xlOp := none, next := some .active })) p
  let flags := bit01 k.fabEnc + 2 * bit01 k.ethEnc
  let s := (lgAppend s p .keys 0 2 0 0 (leBytes 4 (partGet s p).epoch ++ leBytes 4 flags) (digestBytes qd) 0).1
  secEnd s secOk

/-- KEYSET_INSTALL_DONE (R347). -/
def execKeysetInstallDone (part : Fin 32) (s : State) : Host.Outcome State Fault Refusal :=
  let x := partGet s part.val
  match x.newKeys with
  | none => .next s
  | some (k, qd) =>
    if x.why ≠ 2 ∨ !x.drained ∨ s.coh.txns.any (fun t => t.part = part.val) then .next s
    else .next (installKeys s part.val k qd)

/-! ### Owner commands (R341 to R343) -/

def allZero (bs : List Byte) : Bool := bs.all (· == 0)

/-- MAGIC, OP, the zero fields and DEVID (R341, R342). -/
def ownerFormat (bs : List Byte) : Bool :=
  let op := fieldAt bs 4 1
  sliceBytes bs 0 4 == [0x4F, 0x57, 0x43, 0x31] && decide (1 ≤ op) && decide (op ≤ 3) && fieldAt bs 5 1 < 4 &&
    (op != 3 || fieldAt bs 5 1 = 0) && fieldAt bs 6 1 < 4 && fieldAt bs 7 1 = 0 &&
    (op = 1 || allZero (sliceBytes bs 0x50 32)) && (op = 3 || allZero (sliceBytes bs 0x70 1616)) &&
    sliceBytes bs 0x10 32 == digestBytes Config.devid

/-- The signer check (R342). -/
def ownerSigner (s : State) (bs : List Byte) : Bool :=
  let key := sha256 (sliceBytes bs 0x30 32)
  if s.img.owners.all (fun o => o.state = 0) then
    fieldAt bs 4 1 = 1 && fieldAt bs 5 1 = 0 && fieldAt bs 6 1 = 0 && digestOf (sliceBytes bs 0x50 32) == key
  else
    let o := s.img.owners.getD (fieldAt bs 6 1) {}
    o.state = 1 && o.digest == key

/-- A PROGRAM or REVOKE rule is broken (R342). -/
def ownerRefused (s : State) (op slot : Nat) : Bool :=
  let o := s.img.owners.getD slot {}
  match op with
  | 1 => o.state ≠ 0
  | 2 => o.state ≠ 1 || (s.img.loaded && s.img.ownerSlot = slot) ||
    (s.img.owners.filter (fun o => o.state = 1)).length ≤ 1
  | _ => false

/-- The management key a SET_MGMT_KEY brings (R343). -/
def unwrapMgmtKey (bs : List Byte) : Option (List Byte) :=
  let ss := Config.deviceDecaps (sliceBytes bs 0x70 1568)
  gcmOpen (digestBytes (sha256 (ss ++ ascii "MGMTKEY1"))) zeroIv (sliceBytes bs 0 0x70) (sliceBytes bs 0x690 32)
    (sliceBytes bs 0x6B0 16)

/-- An owner command that has passed its checks takes effect, its counter stored. -/
def ownerApply (s : State) (bs : List Byte) (key : Option (List Byte)) : State :=
  let op := fieldAt bs 4 1
  let slot := fieldAt bs 5 1
  let o := s.img.owners.getD slot {}
  let s := { s with sec := { s.sec with owcCount := fieldAt bs 8 8 } }
  match op with
  | 1 => { s with img := { s.img with owners := s.img.owners.set slot { o with state := 1, digest := digestOf (sliceBytes bs 0x50 32) } } }
  | 2 => { s with img := { s.img with owners := s.img.owners.set slot { o with state := 2 } } }
  | _ => { s with sec := { s.sec with mgmtKey := key } }

/-- The checks of R342 in order; the first failure's code, which changes nothing else. -/
def ownerCommand (s : State) (bs : List Byte) : State × Nat :=
  let sig := sliceBytes bs 1728 sigLen
  let msg := digestBytes (sha256 (sliceBytes bs 0 1728))
  if !ownerFormat bs then (s, secBadFormat)
  else if !ownerSigner s bs then (s, secBadOwner)
  else if !slhVerify (sliceBytes bs 0x30 32) (ascii "OWNERCMD") msg sig then (s, secBadSignature)
  else if fieldAt bs 8 8 ≤ s.sec.owcCount then (s, secReplay)
  else if ownerRefused s (fieldAt bs 4 1) (fieldAt bs 5 1) then (s, secRefused)
  else if fieldAt bs 4 1 = 3 then
    match unwrapMgmtKey bs with
    | none => (s, secTag)
    | some k => (ownerApply s bs (some k), secOk)
  else (ownerApply s bs none, secOk)

def ownerGo (s : State) : State :=
  secGo s 3 (fun s =>
    let r := ownerCommand s (stagingBytes s 0 (1728 + sigLen))
    secEnd r.1 r.2)

/-- OWNER (R342). -/
def execOwner (s : State) : Host.Outcome State Fault Refusal := .next (ownerGo s)

/-! ### Sealed weights (R355, R356) -/

/-- The envelope's fixed fields are as R355 gives them. -/
def envelopeOk (bs : List Byte) : Bool :=
  sliceBytes bs 0 4 == [0x53, 0x45, 0x54, 0x31] && decide (1 ≤ fieldAt bs 4 2) && decide (fieldAt bs 4 2 ≤ 256) &&
    fieldAt bs 6 2 = 0 && fieldAt bs 8 8 % 4096 = 0 && allZero (sliceBytes bs 0x30 16)

/-- The member record that carries DEVID. -/
def memberAt (bs : List Byte) : Option Nat :=
  ((List.range (fieldAt bs 4 2)).map (fun i => 64 + 1680 * i)).find? (fun o => sliceBytes bs o 32 == digestBytes Config.devid)

/-- The weight key of a member record. -/
def unwrapWeightKey (bs : List Byte) (o : Nat) : Option (List Byte) :=
  let ss := Config.deviceDecaps (sliceBytes bs (o + 32) 1568)
  gcmOpen (digestBytes (sha256 (ss ++ digestBytes Config.devid ++ ascii "WEIGHTS1"))) zeroIv (sliceBytes bs 0 64)
    (sliceBytes bs (o + 1600) 64) (sliceBytes bs (o + 1664) 16)

/-- The region a SEAL may work on: PINNED, DATA or PUBLISHED, at least LENGTH bytes (R356). -/
def sealRegion (s : State) (p index len : Nat) : Option RegionRec :=
  (regionsOf s.img.layout p).find? (fun r => r.index = index && !r.flash && r.kind ≠ 1 && decide (len ≤ r.size * 2097152))

def inRegion (r : RegionRec) (u : Nat) : Bool := decide (r.start ≤ u) && decide (u < r.start + r.size)

/-- SEC_CMD SEAL: the checks, then the recall of the region's lines (R356). -/
def sealGo (s : State) : State :=
  secGo s 4 (fun s =>
    let p := s.sec.cmdPart
    let head := stagingBytes s 0 64
    let bs := stagingBytes s 0 (64 + 1680 * min 256 (fieldAt head 4 2))
    let len := fieldAt head 8 8
    if !envelopeOk bs then secEnd s secBadFormat
    else if loadFor s p then secEnd s secBusy
    else if (partGet s p).st ≠ .active then secEnd s secState
    else match sealRegion s p s.sec.cmdIndex len, memberAt bs with
      | none, _ => secEnd s secState
      | some _, none => secEnd s secNotMember
      | some r, some o => match unwrapWeightKey bs o with
        | none => secEnd s secTag
        | some w =>
          let x : SealOp := { part := p, index := r.index, length := len, plainDigest := digestOf (sliceBytes bs 0x10 32),
                              envelope := sha256 bs, weightKey := w }
          recallUnits { s with sec := { s.sec with sealing := some x } } p false (inRegion r))

/-- SEAL (R355, R356). -/
def execSeal (s : State) : Host.Outcome State Fault Refusal := .next (sealGo s)

/-- 64 bytes of a region as stored; where no page is mapped the spec gives no byte (log entry 2). -/
def sealLine (s : State) (p off : Nat) : State × List Byte :=
  match placeOf s p off with
  | .pinned _ sl a =>
    let r := readLine s 7 sl a 64
    (r.1, r.2.1)
  | _ =>
    let d := drawBytes s 64
    (d.2, d.1)

def sealRead (s : State) (p off n : Nat) : State × List Byte :=
  (List.range (n / 64)).foldl (fun (acc : State × List Byte) i =>
    let r := sealLine acc.1 p (off + 64 * i)
    (r.1, acc.2 ++ r.2)) (s, [])

def sealWrite (s : State) (p off : Nat) (bs : List Byte) : State :=
  (List.range (bs.length / 64)).foldl (fun s i =>
    match placeOf s p (off + 64 * i) with
    | .pinned _ sl a => (writeLine s 2 sl a (sliceBytes bs (64 * i) 64)).1
    | _ => s) s

/-- The plaintext: each 4 KiB unit under W and its index (R355). -/
def sealPlain (w ct : List Byte) : List Byte :=
  (List.range (ct.length / 4096)).flatMap (fun i => padTo 4096 (xtsDecrypt w i (sliceBytes ct (4096 * i) 4096)))

/-- The end of a SEAL: the plaintext stands, or the region is filled; its entry, its code (R356). -/
def endSeal (s : State) (x : SealOp) (r : RegionRec) : State :=
  let off := r.start * 2097152
  let (s, ct) := sealRead s x.part off x.length
  let plain := sealPlain x.weightKey ct
  let good := sha256 plain == x.plainDigest
  let s := if good then sealWrite s x.part off plain
    else fillPages s x.part ((List.range r.size).filterMap (fun i => mappedTo s x.part (r.start + i)))
  let s := lgSeal s (if good then 0 else 9)
  secEnd { s with sec := { s.sec with sealing := none } } (if good then secOk else secDigest)

/-- SEAL_DONE (R356): once no line of the region is held and no transaction of it is open; lines still held are recalled
first. -/
def execSealDone (s : State) : Host.Outcome State Fault Refusal :=
  match s.sec.sealing with
  | none => .next s
  | some x => match (regionsOf s.img.layout x.part).find? (fun r => r.index = x.index) with
    | none => .next (secEnd (let t := lgSeal s 0x0A; { t with sec := { t.sec with sealing := none } }) secState)
    | some r =>
      if s.coh.txns.any (fun t => t.part = x.part && inRegion r (lineUnit t.line)) then .next s
      else if heldLines s x.part (inRegion r) ≠ [] then .next (recallUnits s x.part false (inRegion r))
      else .next (endSeal s x r)

/-! ### Firmware (R357, R358, R388) -/

/-- A restart of the management core: its own select registers return to their reset values, and what the device keeps
for the path beside them stays: SYS_ACCERR, the latched halves and the word last read (R388). -/
def restartCore (s : State) : State :=
  let c := s.mgmt.core
  { s with mgmt := { s.mgmt with core := { latch := c.latch, held := c.held, ptSub := c.ptSub, acc := c.acc, data := c.data } } }

/-- A firmware file is as R357 lays it out and signed. -/
def firmwareValid (bs : List Byte) : Bool :=
  let len := fieldAt bs 8 4
  sliceBytes bs 0 4 == [0x46, 0x57, 0x5A, 0x31] && fieldAt bs 6 2 = 0 && allZero (sliceBytes bs 12 52) &&
    bs.length = 64 + len + sigLen && decide (bs.length ≤ 2 ^ 22) &&
    slhVerify Config.firmwareKey (ascii "ZBFW1") (digestBytes (sha256 (sliceBytes bs 0 (64 + len))))
      (sliceBytes bs (64 + len) sigLen)

/-- The end of FW_STAGE: the slot that does not run holds `file`. -/
def fwStageEnd (s : State) (file : List Byte) : State :=
  let svn := fieldAt file 4 2
  if !firmwareValid file then secEnd { s with sec := { s.sec with staged := none } } secBadSignature
  else if svn < s.sec.fwFloor then secEnd { s with sec := { s.sec with staged := none } } secSvn
  else
    let f : Firmware := { measure := sha256 (sliceBytes file 0 (64 + fieldAt file 8 4)), svn := svn,
                          slot := 1 - s.sec.running.slot }
    secEnd { s with sec := { s.sec with staged := some f } } secOk

/-- SEC_CMD FW_STAGE. A GO by a register write has set BUSY, and the slot is read now. -/
def fwStageGo (s : State) (file : List Byte) : State :=
  if s.sec.busy ∧ s.sec.op = 5 then fwStageEnd s file else secGo s 5 (fun s => fwStageEnd s file)

/-- FW_STAGE (R358). -/
def execFwStage (file : List Byte) (s : State) : Host.Outcome State Fault Refusal := .next (fwStageGo s file)

/-- SEC_CMD FW_ACTIVATE. -/
def fwActivateGo (s : State) : State :=
  secGo s 6 (fun s => match s.sec.staged with
    | none => secEnd s secState
    | some f =>
      let old := s.sec.running
      let s := restartCore { s with sec := { s.sec with running := f, pendingSince := some (frameOf s) } }
      secEnd (lgFirmware s f old 0) secOk)

/-- FW_ACTIVATE (R358). -/
def execFwActivate (s : State) : Host.Outcome State Fault Refusal := .next (fwActivateGo s)

/-- SEC_CMD FW_COMMIT: a raise of the floor consumes one of its words. -/
def fwCommitGo (s : State) : State :=
  secGo s 7 (fun s =>
    if s.sec.pendingSince.isNone then secEnd s secState
    else
      let old := s.sec.committed
      let f := s.sec.running
      let raise := decide (s.sec.fwFloor < f.svn) && decide (0 < s.sec.fwLeft)
      let s := { s with sec := { s.sec with
        committed := f, pendingSince := none, staged := none, fwFloor := if raise then f.svn else s.sec.fwFloor,
        fwLeft := if raise then s.sec.fwLeft - 1 else s.sec.fwLeft } }
      secEnd (lgFirmware s f old 1) secOk)

/-- FW_COMMIT (R358). -/
def execFwCommit (s : State) : Host.Outcome State Fault Refusal := .next (fwCommitGo s)

/-- The device rolls back to the committed slot (R358). -/
def rollbackFirmware (s : State) : State :=
  let old := s.sec.running
  let s := noteFlags s [6]
  let s := restartCore { s with sec := { s.sec with
    running := s.sec.committed, pendingSince := none, staged := none, rollback := true } }
  lgFirmware s s.sec.committed old 2

/-- FW_ROLLBACK (R358): 2^20 frames after an activation without a commit. -/
def execFwRollback (s : State) : Host.Outcome State Fault Refusal :=
  match s.sec.pendingSince with
  | none => .next s
  | some f => if frameOf s < f + 2 ^ 20 then .next s else .next (rollbackFirmware s)

/-! ### The ledger's held entries (R363, R366) -/

/-- The event behind a held entry that has been appended goes on: the completion is posted, the mapping operation ends. -/
def releaseEvent (s : State) (p : Nat) (h : HeldEntry) : State :=
  if h.event = 1 then
    match (pairGet s p h.queue).waiting with
    | none => s
    | some (st, addr) => writeCompletion s p h.queue st addr
  else if h.event = 2 ∧ (partGet s p).xlOp.any (·.logged) then endMapOp s p else s

/-- LEDGER_HELD_APPEND (R363): the oldest held entry, once a slot is free. -/
def execLedgerHeldAppend (part : Fin 32) (s : State) : Host.Outcome State Fault Refusal :=
  let g := (partGet s part.val).ledger
  match g.held with
  | [] => .next s
  | h :: rest =>
    if lgFull g ∧ g.size ≠ 0 then .next s
    else
      let s := partMod s part.val (fun x => { x with ledger := { x.ledger with held := rest } })
      .next (releaseEvent (lgStore s part.val h.bytes) part.val h)

/-- A write of LG_TAIL: below the stored value or above LG_HEAD it is ignored (R366). -/
def writeTail (s : State) (p v : Nat) : State :=
  let g := (partGet s p).ledger
  if v < g.tail ∨ g.head < v then s else partMod s p (fun x => { x with ledger := { x.ledger with tail := v, batch := [] } })

/-- LG_TAIL_WRITE (R363, R366). -/
def execLgTailWrite (part : Fin 32) (value : DWord) (s : State) : Host.Outcome State Fault Refusal :=
  .next (writeTail s part.val value.toNat)

end Sys2Proof.Machine
end

