-- ==== Sys2Proof/Machine/Twins.lean ====
section
/-! DEFINITION. Twin pairs: heartbeats and bursts, the TWN_LEAD interlock, twin publishes and mirror writes at the
follower, the copy of RESYNC (R367 to R381). -/

namespace Sys2Proof.Machine

/-! ### Hearing the peer (R375 to R377) -/

/-- Bits [63:16] of the burst (R376). -/
def burstFields (node : Nat) (lead : Bool) (state geom : Nat) : Nat :=
  node % 4096 * 2 ^ 36 + bit01 lead * 2 ^ 35 + state % 8 * 2 ^ 32 + geom % 2 ^ 32

/-- CHECK: the low 16 bits of CRC-32C over bits [63:16], most significant byte first (R376). -/
def burstCheck (fields : Nat) : Nat := crc32c (beBytes 6 fields) % 65536

/-- The device can send: it serves, in D0 or D1. -/
def twinAwake (s : State) : Bool := decide (s.pwr.stage = .serving) && decide (s.pwr.state ≤ 1)

/-- HEARTBEAT_SEND (R143, R375): one HEARTBEAT to the twin on each plane, with SEQ bits [31:0] of powered time. -/
def execHeartbeatSend (s : State) : Host.Outcome State Fault Refusal :=
  if !twinEn s.img.layout ∨ !twinAwake s then .next s
  else
    let pkt := newPacket s .heartbeat (twinPeer s) 0 (BitVec.ofNat 32 s.td.ptime) 0 []
    .next (injectOn (injectOn s 0 false pkt) 1 false pkt)

/-- HEARTBEAT (R375, R377): the oldest one sunk counts when it comes from TWIN_PEER. -/
def execHeartbeat (s : State) : Host.Outcome State Fault Refusal :=
  match takeInbox s (fun p => pktOp p = .heartbeat) with
  | none => .next s
  | some (x, s) =>
    if !twinEn s.img.layout ∨ x.pkt.src.toNat ≠ twinPeer s then .next s
    else .next { s with twn := { s.twn with heardNow := true, fabSilent := 0, fabUp := true, declared := false } }

/-- BURST_SEND (R376): in each frame whose powered time is a multiple of 16. -/
def execBurstSend (s : State) : Host.Outcome State Fault Refusal :=
  if !twinEn s.img.layout ∨ !twinAwake s ∨ s.td.ptime % 16 ≠ 0 then .next s
  else
    let f := burstFields (homeNode s) (leads s) s.twn.state s.twn.geom
    .next (emit s (.burst
      { node := BitVec.ofNat 12 (homeNode s), lead := leads s, state := BitVec.ofNat 3 s.twn.state,
        geom := BitVec.ofNat 32 s.twn.geom, check := BitVec.ofNat 16 (burstCheck f) }))

/-! ### Work that a change of state ends (R373, R378 to R380) -/

/-- The copy stops. -/
def stopCopy (s : State) : State :=
  { s with twn := { s.twn with copyBusy := false, copyNext := 0, copyEnded := false, copyOut := [], copyHeld := [] } }

/-- A held PUBLISH or ATOM is served here, and a shadow is answered RESETTING (R379). -/
def serveHeld (s : State) (h : HeldReq) : State :=
  let v := h.svc
  let a := v.req.pkt.addr.toNat
  if h.shadow then finish s v (endWith .resetting (some a))
  else match pktOp v.req.pkt, publishUnit s a with
    | .publish, some (p, u) =>
      if released s v p u ∧ ¬ earlierPublish s v.ticket p u ∧ ¬ ledgerBlocked s p then decidePublish s v p u
      else startPublish s v p u
    | .atom, _ => runAtomic s v []
    | _, _ => finish s v (endWith .fault (some a))

/-- All the follower's held work is served: the PUBLISHes and ATOMs in arrival order, then the shadows; its twin entries
are dropped (R379). -/
def serveAllHeld (s : State) : State :=
  (s.twn.held.filter (fun h => !h.shadow) ++ s.twn.held.filter (·.shadow)).foldl serveHeld { s with twn := { s.twn with held := [], entries := [], turnedAway := [] } }

/-- All the follower's held work ends RESETTING, and its twin entries are dropped (R369, R380). -/
def resetAllHeld (s : State) : State :=
  s.twn.held.foldl (fun s h => finish s h.svc (endWith .resetting (some h.svc.req.pkt.addr.toNat)))
    { s with twn := { s.twn with held := [], entries := [], turnedAway := [] } }

/-- The device gives the line up against its will, or for a reset or a power state: it seeks its twin again (R378,
R409). -/
def loseLead (s : State) : State :=
  let s := stopCopy (stopTwinPackets (sendHeldBack s))
  let s := resetAllHeld s
  { s with twn := { s.twn with
    drives := false, releasing := false, state := if s.twn.state = 0 ∨ s.twn.state = 5 then s.twn.state else 1 } }

/-! ### The burst received (R368, R369, R376, R381) -/

/-- The digests differ: the device enters MISMATCH, serves each region alone, and reports a spare-policy error (R37,
R368, R369). -/
def enterMismatch (s : State) : State :=
  let s := stopCopy (stopTwinPackets (sendHeldBack s))
  let s := serveAllHeld { s with twn := { s.twn with state := 5, drives := false, releasing := false } }
  { s with img := { s.img with code := 0x13, sect := 0xF, record := 0xFFF } }

/-- What a valid burst of the peer does. -/
def takeBurst (s : State) (b : Burst) : State :=
  let s := { s with twn := { s.twn with
    hbSilent := 0, hbUp := true, declared := false, pstate := b.state.toNat, plead := b.lead, peerGeom := b.geom.toNat } }
  let t := s.twn
  if t.state ≠ 0 ∧ t.state ≠ 5 ∧ t.geom ≠ t.peerGeom then enterMismatch s
  else if t.state = 5 ∧ t.geom = t.peerGeom then { s with twn := { t with state := 1 } }
  else if serving s ∧ t.state = 2 ∧ b.state = 3 ∧ ¬ b.lead then { s with twn := { t with state := 3 } }
  else if serving s ∧ t.state = 4 ∧ b.state = 2 ∧ ¬ b.lead then { s with twn := { t with state := 2 } }
  else if serving s ∧ t.state = 3 ∧ b.state = 2 ∧ ¬ b.lead then feedAgain s
  else s

/-- BURST_RECEIVE (R376): a burst whose CHECK fails is ignored, and so is one that is not the twin's. -/
def execBurstReceive (burst : Burst) (s : State) : Host.Outcome State Fault Refusal :=
  let f := burstFields burst.node.toNat burst.lead burst.state.toNat burst.geom.toNat
  if !twinEn s.img.layout ∨ burst.check.toNat ≠ burstCheck f ∨ burst.node.toNat ≠ twinPeer s then .next s
  else .next (takeBurst s burst)

/-- PEER_FAILURE_DECLARE (R377): both paths are silent at a tick. -/
def execPeerFailureDeclare (s : State) : Host.Outcome State Fault Refusal :=
  if !twinEn s.img.layout ∨ s.twn.declared ∨ s.twn.fabSilent < 3 ∨ s.twn.hbSilent < 48 then .next s
  else .next { s with
    twn := { s.twn with declared := true, fails := sat16 s.twn.fails }, di := { s.di with irq := true } }

/-! ### The line (R378, R379) -/

/-- The twinned DATA and SHARED regions: a takeover marks every line of them unverified. -/
def markUnverified (s : State) : State :=
  { s with coh := { s.coh with
    unverified := (s.img.layout.regions.filter (fun r => r.twinned && regionCoherent r)).map regionId, verified := [] } }

/-- R379, with the line taken. -/
def takeOver (s : State) : State :=
  let from_ := decide (s.twn.state = 2 ∨ s.twn.state = 3)
  let s := stopCopy (stopTwinPackets s)
  let s := markUnverified { s with twn := { s.twn with
    state := 4, drives := true, lineHigh := false, highTicks := 0, releasing := false
    takeovers := if from_ then sat16 s.twn.takeovers else s.twn.takeovers } }
  serveAllHeld s

/-- Entry to D2 or D3 is under way: no claim is made any more, since the line is about to be released (R378, R399). -/
def entersSleep (s : State) : Bool := s.pwr.busy && decide (2 ≤ s.pwr.moving)

/-- The clk of the frame at which a node samples the line (R378). -/
def claimClk (s : State) : Nat := if homeNode s < twinPeer s then 8191 else 4095

/-- LEAD_CLAIM (R378, R379): the line read high at the last four ticks and still does at the sample. -/
def execLeadClaim (clk : Nat) (lineHigh : Bool) (s : State) : Host.Outcome State Fault Refusal :=
  let s := seenClk s clk
  let t := s.twn
  if t.state = 0 ∨ t.state = 5 ∨ t.drives ∨ t.highTicks < 4 ∨ ¬ lineHigh ∨ subOf s clk ≠ claimClk s ∨ !twinAwake s ∨
      entersSleep s then
    .next s
  else .next (takeOver s)

/-- TWN_LEAD_RELEASE (R378): two ticks have passed without re-arming. -/
def execTwnLeadRelease (s : State) : Host.Outcome State Fault Refusal :=
  if s.twn.drives then .next (loseLead s) else .next s

/-- TWN_CTRL.RELEASE (R378): ignored unless PAIRED and leading; the line rises at the next tick. -/
def releaseLead (s : State) : State :=
  if s.twn.state = 3 ∧ serving s then
    stopTwinPackets (sendHeldBack { s with twn := { s.twn with releasing := true } })
  else s
def execTwnRelease (s : State) : Host.Outcome State Fault Refusal := .next (releaseLead s)

/-- TWN_CTRL.CLR (R390). -/
def clearTwin (s : State) : State :=
  { s with twn := { s.twn with fabMiss := 0, holdFull := 0, takeovers := 0, fails := 0 } }
def execTwnClear (s : State) : Host.Outcome State Fault Refusal := .next (clearTwin s)

/-! ### Twin packets at the follower (R371, R372) -/

/-- The device follows its twin. -/
def following (s : State) : Bool := (decide (s.twn.state = 2) || decide (s.twn.state = 3)) && !s.twn.drives

/-- CMP to the leader, on the plane its packet came by. -/
def answerTwin (s : State) (x : Sunk) (st : Status) : State :=
  let req : Request := { pkt := x.pkt, origin := .fabric x.port }
  injectOn s (x.port / 4) false (answerPacket s req none { status := st, addr := some x.pkt.addr.toNat })

/-- A packet's address names the partition of its tag (R30). -/
def tagFits (k : Packet) : Bool := decide (k.part.toNat = addrPart k.addr.toNat)

/-- TWIN_PUB (R30, R372): a twin publish of the leader takes a twin entry. -/
def execTwinPub (s : State) : Host.Outcome State Fault Refusal :=
  match takeInbox s (fun p => pktOp p = .twinPub) with
  | none => .next s
  | some (x, s) =>
    if !following s ∨ x.pkt.src.toNat ≠ twinPeer s then .next s
    else if !tagFits x.pkt then .next (answerTwin s x .fault)
    else .next { s with twn := { s.twn with entries := s.twn.entries ++ [x] } }

/-- The follower's held copy of a twin packet's request. -/
def heldCopy (s : State) (o : Op) (pkt : Packet) : Option HeldReq :=
  s.twn.held.find? (fun h => !h.shadow && pktOp h.svc.req.pkt = o && h.svc.req.pkt.seq = pkt.seq &&
    h.svc.req.pkt.addr = pkt.addr)

/-- A twin publish may be decided: its requester's copy is released, or was ended without being held, as every one is in
RESYNC; no copy of the unit's version is on its way; and the ledger takes an entry (R363, R372, R381). -/
def twinReady (s : State) (x : Sunk) : Bool :=
  match publishUnit s x.pkt.addr.toNat with
  | none => true
  | some (p, u) => !ledgerBlocked s p &&
    !s.twn.copyOut.any (fun o => o.version && decide (o.addr / 2097152 = x.pkt.addr.toNat / 2097152)) && (match heldCopy s .publish x.pkt with
    | some h => released s h.svc p u
    | none => s.twn.state = 2 || s.twn.turnedAway.contains x.pkt.seq.toNat)

/-- The first twin publish that may be decided: none earlier waits for its unit. -/
def nextTwinPub (s : State) : List Sunk → List Nat → Option Sunk
  | [], _ => none
  | x :: xs, units =>
    let u := x.pkt.addr.toNat / 2097152
    if !units.contains u && twinReady s x then some x else nextTwinPub s xs (u :: units)

/-- Decide a twin publish: the leader's CMP, then the held PUBLISH with the decision's status and V (R371, R372). -/
def decideTwin (s : State) (x : Sunk) : State :=
  let held := heldCopy s .publish x.pkt
  let seq := x.pkt.seq.toNat
  let s := { s with twn := { s.twn with
    entries := s.twn.entries.filter (fun y => y.pkt.seq ≠ x.pkt.seq || y.pkt.addr ≠ x.pkt.addr)
    held := s.twn.held.filter (fun h => some h ≠ held) } }
  match publishUnit s x.pkt.addr.toNat with
  | none => answerTwin s x .fault
  | some (p, u) =>
    let (s, st, v) := decideUnit s p u x.pkt.aux.toNat false (seq / 2 ^ 20)
    let s := answerTwin s x .ok
    let s := match held with
      | none => s
      | some h => finish s h.svc { status := st, aux := v.v }
    { s with twn := { s.twn with turnedAway := s.twn.turnedAway.filter (· ≠ seq) } }

/-- TWIN_PUBLISH_DECIDE (R372). -/
def execTwinPublishDecide (s : State) : Host.Outcome State Fault Refusal :=
  match nextTwinPub s s.twn.entries [] with
  | none => .next s
  | some x => .next (settle (decideTwin s x))

/-- The pieces of a write of the follower's own at its slices: no admission, no directory, no coherence. -/
def placeBytes (s : State) (addr : Nat) (bs : List Byte) : State × List Piece :=
  (cutAt 65536 (addrOff addr) bs.length).foldl (fun acc c =>
    let r := writeSegment acc.1 0 {} (addrPart addr) c.1 c.2.1 ((bs.drop c.2.1).take c.2.2) false true
    (r.1, acc.2 ++ r.2)) (s, [])

/-- Pieces that wait for a flash granule. -/
def anyRetry (ps : List Piece) : Bool := ps.any (fun x => x.status == .retry)

/-- A mirror write lands, and answers a held ATOM with the word's value just before it; `none` while a flash granule of
its range is not in memory. -/
def landMirror (s : State) (x : Sunk) : State × Bool :=
  let a := x.pkt.addr.toNat
  let held := heldCopy s .atom x.pkt
  let old := match held with
    | none => (s, ([] : List Piece))
    | some _ => readSegment s 0 {} (addrPart a) (addrOff a) 0 8 true
  if anyRetry old.2 then (old.1, false)
  else
    let w := placeBytes old.1 a x.pkt.payload
    if anyRetry w.2 then (w.1, false)
    else
      let s := answerTwin w.1 x .ok
      match held with
      | none => (s, true)
      | some h =>
        let s := { s with twn := { s.twn with held := s.twn.held.filter (fun y => y ≠ h) } }
        match old.2.find? (fun y => y.status != .ok) with
        | some y => (finish s h.svc (endWith y.status (some y.addr)), true)
        | none => (finish s h.svc { status := .ok, data := some (old.2.flatMap (·.bytes)) }, true)

/-- A mirror write touches a 256 B block of a range. -/
def touchesRange (k : Packet) (addr len : Nat) : Bool :=
  decide (k.addr.toNat / 256 ≤ (addr + len - 1) / 256) &&
    decide (addr / 256 ≤ (k.addr.toNat + k.payload.length - 1) / 256)

/-- A mirror write waits for a copy RD of one of its blocks, or behind one that does (R381). -/
def mirrorWaits (s : State) (earlier : List Sunk) (k : Packet) : Bool :=
  s.twn.copyOut.any (fun o => !o.version && touchesRange k o.addr o.len) ||
    earlier.any (fun y => touchesRange k y.pkt.addr.toNat y.pkt.payload.length)

/-- TWIN_WR (R30, R372, R381): the oldest mirror write sunk. -/
def execTwinWr (s : State) : Host.Outcome State Fault Refusal :=
  match takeInbox s (fun p => pktOp p = .twinWr) with
  | none => .next s
  | some (x, t) =>
    if !following t ∨ x.pkt.src.toNat ≠ twinPeer t ∨ x.pkt.payload = [] then .next t
    else if !tagFits x.pkt then .next (answerTwin t x .fault)
    else if mirrorWaits t t.twn.copyHeld x.pkt then
      .next { t with twn := { t.twn with copyHeld := t.twn.copyHeld ++ [x] } }
    else match landMirror t x with
      | (t, true) => .next t
      | (t, false) => .next { t with fab := { t.fab with inbox := s.fab.inbox } }

/-! ### The leader (R373) -/

/-- The packet that waits longest for a place among the 2,048 unanswered leaves. -/
def sendNextTwin (s : State) : State :=
  match s.twn.toSend with
  | [] => s
  | (o, pkt) :: rest =>
    inject { s with twn := { s.twn with toSend := rest, sent := s.twn.sent ++ [{ o with since := frameOf s }] } } pkt

/-- TWIN_CMP (R373): the answers that wait for nothing else leave. -/
def execTwinCmp (s : State) : Host.Outcome State Fault Refusal :=
  match takeInbox s (isTwinCmp s) with
  | none => .next s
  | some (x, s) =>
    match takeFirst (fun o => o.seq = x.pkt.seq.toNat && o.addr = x.pkt.addr.toNat) s.twn.sent with
    | none => .next s
    | some (o, rest) =>
      let answers := s.twn.answers.map (fun a => { a with waits := a.waits.filter (· ≠ o.id) })
      let s := { s with twn := { s.twn with sent := rest, answers := answers.filter (fun a => a.waits ≠ []) } }
      let s := (answers.filter (fun a => a.waits = [])).foldl (fun s a => finish s a.svc a.answer) s
      .next (sendNextTwin s)

/-- FOLLOWER_ACK_TIMEOUT (R373). -/
def execFollowerAckTimeout (s : State) : Host.Outcome State Fault Refusal :=
  if leads s ∧ (s.twn.state = 2 ∨ s.twn.state = 3) ∧
      s.twn.sent.any (fun o => decide (o.since + s.twn.ackto ≤ frameOf s)) then
    .next (sendHeldBack (stopTwinPackets { s with twn := { s.twn with state := 4 } }))
  else .next s

/-- SHADOW_EXPIRY (R371): shadows held for SHADOW frames are discarded, unanswered. -/
def execShadowExpiry (s : State) : Host.Outcome State Fault Refusal :=
  let gone := s.twn.held.filter (fun h => h.shadow && decide (h.since + s.twn.shadow ≤ frameOf s))
  .next (gone.foldl (fun s h => dropSvc s h.svc.ticket)
    { s with twn := { s.twn with held := s.twn.held.filter (fun h => !gone.contains h) } })

/-! ### RESYNC (R381) -/

/-- RESYNC_START (R381): SEEKING, the fabric path hears the peer, the line is low. -/
def execResyncStart (s : State) : Host.Outcome State Fault Refusal :=
  if s.twn.state ≠ 1 ∨ !s.twn.fabUp ∨ s.twn.lineHigh ∨ s.twn.drives then .next s
  else .next { stopCopy s with twn := { (stopCopy s).twn with state := 2, copyBusy := true, copyDone := 0 } }

/-- Bytes of a copy RD: 4 KiB, or 2 KiB where the envelope takes room in a response (R349, R381). -/
def copyBytes (s : State) (p : Nat) : Nat := if fabEnc s p then 2048 else 4096

/-- Item `i` of the version copy: one ACQUIRE for each unit of the twinned PUBLISHED regions. -/
def versionItem : List RegionRec → Nat → Option (Nat × Nat)
  | [], _ => none
  | r :: rs, i =>
    let n := if r.kind = 2 then r.size else 0
    if i < n then some (poolAddr r.part ((r.start + i) * 2097152), 16) else versionItem rs (i - n)

/-- Item `i` of the byte copy. -/
def byteItem (s : State) : List RegionRec → Nat → Option (Nat × Nat)
  | [], _ => none
  | r :: rs, i =>
    let b := copyBytes s r.part
    let n := r.size * 2097152 / b
    if i < n then some (poolAddr r.part (r.start * 2097152 + i * b), b) else byteItem s rs (i - n)

/-- Item `i` of the copy: address, length, whether it is a version. -/
def copyItem (s : State) (i : Nat) : Option (Nat × Nat × Bool) :=
  let rs := s.img.layout.regions.filter (·.twinned)
  let versions := sumNat ((rs.filter (fun r => r.kind = 2)).map (·.size))
  if i < versions then (versionItem rs i).map (fun x => (x.1, x.2, true))
  else (byteItem s rs (i - versions)).map (fun x => (x.1, x.2, false))

/-- The request of a copy item, to the leader. -/
def sendCopy (s : State) (o : CopyReq) : State :=
  let p := addrPart o.addr
  let pkt := newPacket s (if o.version then .acquire else .rd) (twinPeer s) p (BitVec.ofNat 32 o.seq) o.addr []
  inject s { pkt with arg := if o.version then 0 else BitVec.ofNat 16 o.len, aux := BitVec.ofNat 64 o.addr }

/-- Nothing is left to ask for, and nothing is awaited. -/
def copyOver (s : State) : Bool := (copyItem s s.twn.copyNext).isNone && s.twn.copyOut.isEmpty

/-- A block of `u` units fits this frame's COPY units; one that exceeds COPY leaves alone in its frame. -/
def copyAllowed (s : State) (u : Nat) : Bool :=
  decide (s.twn.copyUnits + u ≤ s.twn.copyRate) || decide (s.twn.copyUnits = 0)

/-- TWIN_COPY_READ (R381): the next request of the copy. -/
def execTwinCopyRead (s : State) : Host.Outcome State Fault Refusal :=
  if !s.twn.copyBusy ∨ s.twn.copyEnded ∨ !following s then .next s
  else match copyItem s s.twn.copyNext with
    | none => .next { s with twn := { s.twn with copyEnded := s.twn.copyOut.isEmpty } }
    | some (a, n, version) =>
      let u := if version then 0 else n / 256
      if !version ∧ !copyAllowed s u then .next s
      else
        let (q, s) := drawFree s
        let o : CopyReq := { seq := q % 2 ^ 32, addr := a, len := n, version := version }
        .next (sendCopy { s with twn := { s.twn with
          copyNext := s.twn.copyNext + 1, copyUnits := s.twn.copyUnits + u, copyOut := s.twn.copyOut ++ [o] } } o)

/-- Every word of a range reads marked: the copy could not bring its bytes (R304). -/
def poisonRange (s : State) (addr n : Nat) : State :=
  let p := addrPart addr
  let mark := fun (s : State) (sl a : Nat) => (lineWords sl a).foldl (fun s k => markSet s k { poison := true }) s
  (cutAt 64 (addrOff addr) n).foldl (fun s c =>
    match placeOf s p c.1 with
    | .pinned _ sl a => mark s sl a
    | .flash _ g => match framePlace s p (granGet s p g).frame (c.1 % 65536) with
      | some (sl, a) => if (granGet s p g).st = .dirty ∨ (granGet s p g).st = .writing then mark s sl a else s
      | none => s
    | _ => s) s

/-- Held mirror writes whose blocks have landed are applied, in arrival order (R381). -/
def applyHeld (s : State) : State :=
  s.twn.copyHeld.foldl (fun s x =>
    if mirrorWaits s s.twn.copyHeld x.pkt then { s with twn := { s.twn with copyHeld := s.twn.copyHeld ++ [x] } }
    else match landMirror s x with
      | (s, true) => s
      | (s, false) => { s with twn := { s.twn with copyHeld := s.twn.copyHeld ++ [x] } })
    { s with twn := { s.twn with copyHeld := [] } }

/-- A copy request has been answered for good. -/
def endCopy (s : State) (o : CopyReq) : State :=
  let s := applyHeld { s with twn := { s.twn with
    copyOut := s.twn.copyOut.filter (· ≠ o), copyDone := s.twn.copyDone + (if o.version then 0 else o.len) } }
  { s with twn := { s.twn with copyEnded := copyOver s } }

/-- The answer to a copy request lands, DATA of any status but OK and POISON being none (R14); `false` while a flash granule here is not in memory. -/
def landCopy (s : State) (o : CopyReq) (k : Packet) : State × Bool :=
  let st := statusOf k.status.toNat
  if pktOp k = .cmp then
    match st with
    | .retry | .resetting | .quiesced => (sendCopy s o, true)
    | _ => (endCopy (if o.version then s else poisonRange s o.addr o.len) o, true)
  else if st ≠ .ok ∧ st ≠ .poison then (endCopy (if o.version then s else poisonRange s o.addr o.len) o, true)
  else if o.version then
    let v := fieldAt k.payload 0 8
    let w := fieldAt k.payload 8 4
    (endCopy (versionSet s (addrPart o.addr) (addrOff o.addr / 2097152)
      { v := v, host := decide (v ≠ 0) && w.testBit 15, req := if v = 0 then 0 else w % 4096 }) o, true)
  else
    let w := placeBytes s o.addr (k.payload.take o.len)
    if anyRetry w.2 then (w.1, false)
    else (endCopy (if st = .poison then poisonRange w.1 o.addr o.len else w.1) o, true)

/-- A packet answers a copy request, from the leader or, where R154 removed the request, from this device: SEQ is echoed, DATA names the first address, a CMP one within the range. -/
def answersCopy (s : State) (k : Packet) (o : CopyReq) : Bool :=
  decide (k.src.toNat = twinPeer s ∨ k.src.toNat = homeNode s) && decide (k.seq.toNat = o.seq) &&
    ((pktOp k = .data && decide (k.addr.toNat = o.addr)) ||
      (pktOp k = .cmp && decide (o.addr ≤ k.addr.toNat) && decide (k.addr.toNat < o.addr + max 1 o.len)))

/-- TWIN_COPY_DATA (R381): the oldest answer sunk to a copy request. -/
def execTwinCopyData (s : State) : Host.Outcome State Fault Refusal :=
  match takeInbox s (fun k => s.twn.copyOut.any (answersCopy s k)) with
  | none => .next s
  | some (x, t) => match t.twn.copyOut.find? (answersCopy t x.pkt) with
    | none => .next t
    | some o => match landCopy t o x.pkt with
      | (t, true) => .next t
      | (t, false) => .next { t with fab := { t.fab with inbox := s.fab.inbox } }

/-! ### What the tick does (R377, R378, R380, R381) -/

/-- The twin's part of a tick, at which the line reads `high`. -/
def tickTwin (s : State) (high : Bool) : State :=
  let t := s.twn
  let on := twinEn s.img.layout
  let quiet := on && !t.heardNow
  let fs := if !on ∨ t.heardNow then 0 else min 3 (t.fabSilent + 1)
  let hs := if on then min 48 (t.hbSilent + 1) else 0
  let s := { s with twn := { t with
    lineHigh := high, highTicks := if high then min 4 (t.highTicks + 1) else 0
    drives := t.drives && !t.releasing, releasing := false
    fabSilent := fs, fabUp := t.fabUp && decide (fs < 3), heardNow := false
    fabMiss := if quiet then sat16 t.fabMiss else t.fabMiss
    hbSilent := hs, hbUp := t.hbUp && decide (hs < 48), copyUnits := 0
    state := if t.copyEnded ∧ t.state = 2 then 3 else t.state
    copyBusy := t.copyBusy && !t.copyEnded, copyEnded := false } }
  if following s ∧ s.twn.fabSilent = 3 ∧ ¬ high then
    resetAllHeld (stopCopy { s with twn := { s.twn with state := 1 } })
  else s

end Sys2Proof.Machine
end

