-- ==== Sys2Proof/Machine/Resets.lean ====
section
/-! DEFINITION. Fencing a requester, partial resets, the grafting of spares, and the management core's watchdog
(R184, R382 to R390). -/

namespace Sys2Proof.Machine

/-! ### Fences (R184, R196, R382) -/

/-- FNC_CTRL GO with CLEAR = 0: the lowest free entry, in force from the next tick; a full table, or a requester that
has an entry, takes none. -/
def addFence (s : State) (host : Bool) (req : Nat) : State :=
  let x := (host, req % 4096)
  let t := s.twn
  if (List.range 64).any (fun n => tblGet (fun _ => none) t.fences n = some x) then s
  else match (List.range 64).find? (fun n => (tblGet (fun _ => none) t.fences n).isNone) with
    | none => s
    | some n => { s with twn := { t with
        fences := tblSet (fun _ => none) t.fences n (some x), fenceDue := t.fenceDue ++ [x] } }

/-- FENCE_ADD (R382). -/
def execFenceAdd (host : Bool) (req : BitVec 12) (s : State) : Host.Outcome State Fault Refusal :=
  .next (addFence s host req.toNat)

/-- FNC_CTRL GO with CLEAR = 1: the entry is free at once; the fence ends for new requests from the tick after. -/
def clearFence (s : State) (host : Bool) (req : Nat) : State :=
  let x := (host, req % 4096)
  { s with twn := { s.twn with
    fences := s.twn.fences.filter (fun e => e.2 ≠ some x), fenceDue := s.twn.fenceDue.filter (· ≠ x) } }

/-- FENCE_CLEAR (R382). -/
def execFenceClear (host : Bool) (req : BitVec 12) (s : State) : Host.Outcome State Fault Refusal :=
  .next (clearFence s host req.toNat)

/-- Lines of a partition that an agent is recorded on, or that wait for it. -/
def linesOf (s : State) (p j : Nat) : List Nat :=
  let recorded := (s.coh.dir.filter (fun e => decide (addrPart (e.1 * 64) = p) && e.2.sharers.testBit j)).map (fun e => e.1 * 64)
  let node := agentNode s p j
  let open_ := (s.coh.txns.filter (fun t => decide (t.part = p) && (t.pend.contains j || decide (t.fwd = some j) ||
    decide (t.agent = some j) || decide (t.step = .forwardX j) || t.queued.any (fun q => isAgentOp q.op && decide (q.svc.req.pkt.src.toNat = node))))).map (·.line)
  recorded ++ open_.filter (fun a => !recorded.contains a)

/-- The WBs and EVCTs of an agent that are in service and not yet processed are processed under R180 (R184). -/
def evictFenced (s : State) (p j : Nat) : State :=
  let mine := s.svc.filter (fun v => decide (addrPart v.req.pkt.addr.toNat = p) &&
    decide (v.req.pkt.src.toNat = agentNode s p j))
  mine.foldl (fun s v => match pktOp v.req.pkt with
    | .wb => serveEvict s v.ticket .wb
    | .evct => serveEvict s v.ticket .evct
    | _ => s) s

/-- Agent j of a partition is fenced: its bit is set and the sweep of its lines begins (R184). DESIGN CHOICE (log entry
41): COH_SWEEP names the agent fenced last of those being swept, and is not BUSY for one that holds no line (R187). -/
def fenceAgent (s : State) (p j : Nat) : State :=
  if (partGet s p).fenced.testBit j then s
  else
    let s := evictFenced s p j
    let ls := linesOf s p j
    let s := { s with coh := { s.coh with sweepLeft := s.coh.sweepLeft ++ ls.map (fun a => (p, a, j)) } }
    partMod s p (fun x => { x with fenced := withSharer x.fenced j, sweep := if ls = [] then x.sweep else some j })

/-- Requests of a requester that wait in admission queues, and its FLUSHes, PUBLISHes and ACQUIREs in service that wait,
those that a follower holds among them, end FENCED, or FAULT where R196 puts that first (R196, R382). -/
def endFenced (s : State) (x : Bool × Nat) : State :=
  let mine := fun (k : Nat) => decide (flowHost k = x.1) && decide (flowReq k = x.2)
  let s := (s.flows.map (·.1)).foldl (fun s k =>
    if !mine k then s else emptyFlow s k (fun r => endWith (fencedStatus s r.pkt))) s
  let held := fun (v : Service) => s.twn.held.any (fun h => !h.shadow && h.svc.ticket = v.ticket)
  let open_ := s.svc.filter (fun v => mine v.key && unitOp v.req.pkt &&
    (!begun s v || held v || s.coh.pubWait.any (fun w => w.svc.ticket = v.ticket)))
  let s := { s with twn := { s.twn with
    held := s.twn.held.filter (fun h => !open_.any (fun v => v.ticket = h.svc.ticket)) } }
  open_.foldl (fun s v => finish (dropWait s v.ticket) v (endWith (fencedStatus s v.req.pkt) (some v.req.pkt.addr.toNat))) s

/-- A fence takes effect. -/
def applyFence (s : State) (x : Bool × Nat) : State :=
  let s := endFenced { s with twn := { s.twn with fenced := s.twn.fenced.filter (· ≠ x) ++ [x] } } x
  if x.1 then s
  else s.img.layout.parts.foldl (fun s r =>
    match agentIndex s r.part x.2 with
    | none => s
    | some j => fenceAgent s r.part j) s

/-- The fences that end and begin at a tick. -/
def tickFences (s : State) : State :=
  let named := s.twn.fences.filterMap (·.2)
  s.twn.fenceDue.foldl applyFence { s with twn := { s.twn with
    fenceDue := [], fenced := s.twn.fenced.filter named.contains } }

/-! ### Partial resets (R384 to R386) -/

/-- Partitions with a slice in a half. -/
def partsInHalf (s : State) (h : Nat) : List Nat :=
  (s.img.layout.parts.filter (fun r => (hedgeSlices s.img.layout r.root).any (fun sl => halfOf sl = h))).map (·.part)

/-- Targets of a reset of a KIND: 0 the partition, 1 half 0, 2 half 1. -/
def resetTargets (s : State) (kind part : Nat) : List Nat :=
  if kind = 0 then (if (partGet s part).st = .unused then [] else [part]) else partsInHalf s (kind - 1)

/-- RST_CTRL GO (R390): ignored while BUSY, while a target is QUIESCED or RESETTING, outside D0 and D1, and for KIND
0b11. -/
def startReset (s : State) (kind part : Nat) : State :=
  let ts := resetTargets s kind part
  if s.twn.rstBusy ∨ 3 ≤ kind ∨ !twinAwake s ∨ (kind = 0 ∧ ts = []) ∨
      ts.any (fun p => (partGet s p).st = .quiesced || (partGet s p).st = .resetting) then s
  else { s with twn := { s.twn with
    rstBusy := true, rstFrame := frameOf s, rstCancelled := false, rstLastKind := kind, rstLastPart := part,
    rstCount := 0 } }

/-- HALF_RESET (R385). -/
def execHalfReset (half : Fin 2) (s : State) : Host.Outcome State Fault Refusal :=
  .next (startReset { s with twn := { s.twn with rstKind := half.val + 1 } } (half.val + 1) s.twn.rstPart)

/-- PARTITION_RESET (R386). -/
def execPartitionReset (part : Fin 32) (s : State) : Host.Outcome State Fault Refusal :=
  .next (startReset { s with twn := { s.twn with rstKind := 0, rstPart := part.val } } 0 part.val)

/-- Targets of the reset under way. -/
def resettingParts (s : State) : List Nat :=
  (resetTargets s s.twn.rstLastKind s.twn.rstLastPart).filter (fun p => (partGet s p).st = .resetting)

/-- Tick H + 1: the targets enter RESETTING, their epochs advance, RESET enters their ledgers, and what waits in their
admission queues ends; a half reset releases TWN_LEAD (R378, R385). -/
def beginReset385 (s : State) : State :=
  let ts := (resetTargets s s.twn.rstLastKind s.twn.rstLastPart).filter (fun p => (partGet s p).st = .active)
  let s := ts.foldl (fun s p =>
    let s := advanceEpoch (partMod s p (fun x => { x with st := .resetting, next := none, since := frameOf s })) p
    endQueued (lgReset s p) p .resetting) s
  if s.twn.rstLastKind = 0 then s else loseLead s

/-- The range of a cancelled write is undefined until it is written again in full (R23, R384). -/
def blurWrite (s : State) (v : Service) : State :=
  let k := v.req.pkt
  let write : Bool := match pktOp k with
    | .wr | .atom => true
    | _ => false
  let n := rangeLen k
  if !write ∨ n = 0 then s
  else blurRange s (addrPart k.addr.toNat) (addrOff k.addr.toNat) n

/-- A request whose answer is cancelled: an EPOCH_NOTICE takes its place on the fabric (R384); an Ethernet host is
answered RESETTING (R330). -/
def cancelAnswer (s : State) (v : Service) : State :=
  let s := blurWrite s v
  let k := v.req.pkt
  let p := k.part.toNat
  let s := { s with twn := { s.twn with rstCount := sat16 s.twn.rstCount } }
  match v.req.origin with
  | .fabric port =>
    let s := dropSvc s v.ticket
    let q := newPacket s .epochNotice k.src.toNat p k.seq 0 []
    injectOn s (port / 4) false { q with
      status := BitVec.ofNat 4 (statusCode .resetting), epoch := BitVec.ofNat 16 (partGet s p).epoch,
      load := BitVec.ofNat 4 (loadOf s), headroom := BitVec.ofNat 4 (headroomFor s v.key v.headroom) }
  | _ => finish s v (endWith .resetting (some k.addr.toNat))

/-- An engine resets: it runs nothing, and is not TRAPPED (R385). -/
def resetEngine (e : Engine) : Engine := { freeEngine e with trapped := false }

/-- The engines, caches and controllers of a half reset: its engine counters are zero, its directory cache is empty, its
channels hold their contents in self-refresh and take a training piece (R385, R409). -/
def resetHalf (s : State) (h : Nat) : State :=
  let inHalf := fun (e : Nat) => decide (e < 256 ∧ e / 128 = h) || decide (256 ≤ e ∧ (e - 256) / 8 = h)
  let s := ((s.eng.eng.map (·.1)).filter inHalf).foldl (fun s e => engMod s e (fun x =>
    { resetEngine x with cntPart := 0, cntMac := 0, cntBusy := 0, cntFault := 0, cntEmpty := 0 })) s
  let s := { s with coh := { s.coh with cache := s.coh.cache.filter (fun e => e.1 / 131072 ≠ h) } }
  (List.range 68).foldl (fun s i => chanMod s (68 * h + i) (fun c =>
    oweTraining (selfRefresh s c))) s

/-- The engines of a partition reset, and its lines leave the directory cache (R386, R409). -/
def resetPart (s : State) (p : Nat) : State :=
  let sls := partSlices s.img.layout p
  let mine := fun (e : Engine) => e.logical.any (fun l => sls.contains (l / 2))
  let s := ((s.eng.eng.map (·.1)).filter (fun e => mine (engGet s e))).foldl (fun s e => engMod s e resetEngine) s
  { s with coh := { s.coh with cache :=
    (s.coh.cache.map (fun e => (e.1, e.2.filter (fun w => addrPart w.1 ≠ p)))).filter (fun e => e.2 ≠ []) } }

/-- Tick H + 3 (R384 to R386). -/
def cancelAll (s : State) : State :=
  let ts := resettingParts s
  let s := ts.foldl (fun s p => dropBuffers (endPairs (endServiceBy cancelAnswer s p .resetting) p) p) s
  let s := if s.twn.rstLastKind = 0 then ts.foldl resetPart s else resetHalf s (s.twn.rstLastKind - 1)
  { s with twn := { s.twn with rstCancelled := true } }

/-- RESET_CANCEL (R384, R385). -/
def execResetCancel (s : State) : Host.Outcome State Fault Refusal :=
  if !s.twn.rstBusy ∨ s.twn.rstCancelled ∨ frameOf s < s.twn.rstFrame + 3 then .next s else .next (cancelAll s)

/-- Channels of a half that still await their training piece. -/
def halfTrains (s : State) (h : Nat) : Bool :=
  (List.range 68).any (fun i => let c := chanGet s (68 * h + i); owesTraining c)

/-- RESET_READY (R385, R386): the targets are ACTIVE from the next tick. -/
def execResetReady (s : State) : Host.Outcome State Fault Refusal :=
  let h := s.twn.rstLastKind - 1
  if !s.twn.rstBusy ∨ !s.twn.rstCancelled ∨ (s.twn.rstLastKind ≠ 0 ∧ halfTrains s h) then .next s
  else
    let s := (resettingParts s).foldl (fun s p => partMod s p (fun x => { x with next := some .active })) s
    if s.twn.rstLastKind = 0 then .next s
    else .next ((List.range 68).foldl (fun s i => endSelfRefresh s (68 * h + i)) s)

/-- The reset's part of a tick: it begins in the tick after its write, and ends with the tick that makes the last of its
targets ACTIVE (R385, R386). `s` has its new frame number. -/
def tickReset (s : State) : State :=
  let t := s.twn
  if !t.rstBusy then s
  else if frameOf s = t.rstFrame + 1 then beginReset385 s
  else if t.rstCancelled ∧ t.rstFrame + 3 < frameOf s ∧ resettingParts s = [] ∧
      (t.rstLastKind = 0 ∨ !(List.range 68).any (fun i => inSelfRefresh (chanGet s (68 * (t.rstLastKind - 1) + i)))) then
    { s with twn := { t with rstBusy := false } }
  else s

/-! ### Spares (R387) -/

/-- Grafts that fall due at a tick, of one class. A row repair is STK_ROW_REPAIR's own work (R219). -/
def graftClass (s : State) (c : SpareClass) : State :=
  match c with
  | .engine => tickGraftEngines s
  | .lane => (List.range 8).foldl tickGraftLane s
  | .channel => (List.range 8).foldl (fun s i => tickGraftSpare s (17 * i + 16)) s
  | .row => s
  | .flash => if autoBit s 4 then graftFlash s else s
  | .way => tickGraftWays s
  | .sram => tickGraftRows s

/-- Every class, in ascending AUTO bit order. -/
def tickGrafts (s : State) : State :=
  [SpareClass.engine, .lane, .channel, .row, .flash, .way, .sram].foldl graftClass s

/-- SPARE_GRAFT (R387). -/
def execSpareGraft (cls : SpareClass) (s : State) : Host.Outcome State Fault Refusal := .next (graftClass s cls)

/-! ### The management core (R388, R389) -/

/-- A write of WDT_KICK: 0x5A5A, then 0xA5A5; any other value breaks the pair. -/
def kickWatchdog (s : State) (key : Nat) : State :=
  if key = 0x5A5A then { s with twn := { s.twn with wdtArmed := true } }
  else if key = 0xA5A5 ∧ s.twn.wdtArmed then { s with twn := { s.twn with wdtArmed := false, wdtCount := 0 } }
  else { s with twn := { s.twn with wdtArmed := false } }

/-- WDT_KICK (R389). -/
def execWdtKick (key : BitVec 16) (s : State) : Host.Outcome State Fault Refusal := .next (kickWatchdog s key.toNat)

/-- Log class MGMT. The spec names no reader and no place for it (log entry 2). -/
def logMgmt (s : State) : State :=
  let (n, s) := drawFree s
  let (m, s) := drawFree s
  logError s 9 (n % 9) 0 0 0 (m % 2 ^ 32) none none

/-- The core restarts on its committed firmware; its own select registers return to their reset values (R388). -/
def restartCommitted (s : State) : State :=
  restartCore { s with sec := { s.sec with running := s.sec.committed } }

/-- WATCHDOG_EXPIRY (R389). -/
def execWatchdogExpiry (s : State) : Host.Outcome State Fault Refusal :=
  let t := s.twn
  if !t.wdtEn ∨ t.wdtHeld ∨ t.wdtCount < t.wdtTimeout then .next s
  else
    let n := sat8 t.wdtRestarts
    let s := { s with twn := { t with
      wdtCount := 0, wdtArmed := false, wdtRestarts := n, wdtFires := sat8 t.wdtFires, wdtHeld := decide (4 ≤ n) } }
    let s := if s.sec.pendingSince.isSome then rollbackFirmware s else restartCommitted s
    .next (if 4 ≤ n then logMgmt s else s)

/-- MGMT_PARITY_ERROR (R388). -/
def execMgmtParityError (s : State) : Host.Outcome State Fault Refusal := .next (restartCommitted (logMgmt s))

/-- The watchdog's part of a tick: a frame without a kick; every 2^20 frames a new window of restarts (log
entry 17). -/
def tickWatchdog (s : State) : State :=
  let t := s.twn
  { s with twn := { t with
    wdtCount := if t.wdtHeld then t.wdtCount else satTo 32 (t.wdtCount + 1),
    wdtRestarts := if frameOf s % 2 ^ 20 = 0 then 0 else t.wdtRestarts } }

end Sys2Proof.Machine
end

