-- ==== Sys2Proof/Machine/Power.lean ====
section
/-! DEFINITION. Power, reset, power states and the pins that carry them (R391 to R401, R404 to R409, R412). -/

namespace Sys2Proof.Machine

/-! ### What power-off leaves (R392, R409) -/

/-- Loss of power: what non-volatile storage holds stays, every volatile state is lost. What the fabric and the
environment have been sent, the commands waiting and the model's own counter are not the device's. -/
def losePower (s : State) (stage : Stage) : State :=
  { State.reset with
    img := { owners := s.img.owners }
    parts := tblSetMany (fun _ => {}) [] ((List.range 32).map (fun p => (p, { epoch := (partGet s p).epoch })))
    td := { boot := s.td.boot, now := s.td.now, tickClk := s.td.now }
    stk := { repairLog := s.stk.repairLog }
    fl := restartFl .cold s.fl
    sec := { owcCount := s.sec.owcCount, mgmtKey := s.sec.mgmtKey, committed := s.sec.committed,
             running := s.sec.committed, fwFloor := s.sec.fwFloor, fwLeft := s.sec.fwLeft, nextKey := s.sec.nextKey }
    twn := { lineHigh := s.twn.lineHigh }
    pwr := { stage := stage, rstHigh := s.pwr.rstHigh, tripRecord := s.pwr.tripRecord, voltRecord := s.pwr.voltRecord }
    out := s.out, free := s.free, pending := s.pending }

/-- POWER_LOSS (R392): VIN56 falls below 36.0 V. THERMTRIP_N rises with it. -/
def execPowerLoss (s : State) : Host.Outcome State Fault Refusal := .next (losePower s .off)

/-- Conversion runs: the rails are up. -/
def railsUp (s : State) : Bool :=
  match s.pwr.stage with
  | .waiting | .filling | .serving => true
  | .off | .overvolt | .tripped => false

/-- OVERVOLTAGE_SHUTDOWN (R392): recorded, and held off. -/
def execOvervoltageShutdown (s : State) : Host.Outcome State Fault Refusal :=
  if !railsUp s then .next s
  else
    let s := losePower s .overvolt
    .next { s with pwr := { s.pwr with voltRecord := true } }

/-- OVERVOLTAGE_RELEASE (R392): VIN56 has fallen below 60.0 V. -/
def execOvervoltageRelease (s : State) : Host.Outcome State Fault Refusal :=
  if s.pwr.stage = .overvolt then .next { s with pwr := { s.pwr with stage := .off } } else .next s

/-- A thermal trip (R397): THERMTRIP_N goes low, the trip is recorded, conversion stops. -/
def trip (s : State) : State :=
  if !railsUp s then s
  else
    let s := losePower s .tripped
    { s with pwr := { s.pwr with tripRecord := true, tripLow := true } }

/-- THERMAL_TRIP (R397). -/
def execThermalTrip (s : State) : Host.Outcome State Fault Refusal := .next (trip s)

/-! ### The start (R309, R393, R394) -/

/-- t1: RST_N high, REFCLK stable and the rails in regulation. Every block restarts, the boot counter counts a cold
power-on, the channels that fail training are pruned, and the fill begins. The power block, and the records of accesses
refused since PWRGD rose, stand as SMBus has left them (R393, R417). -/
def tryStart (s : State) : State :=
  if s.pwr.stage ≠ .waiting ∨ !s.pwr.rstHigh ∨ !s.pwr.refclk then s
  else
    let t := restart s.pwr.start s
    let s := if coldLike s.pwr.start then { t with mgmt := s.mgmt, pwr := s.pwr } else t
    let s := s.pwr.untrained.foldl (fun s c =>
      if c < 136 then chanMod s c (fun x => { x with state := 4, readable := false, blank := true }) else s) s
    { s with
      pwr := { s.pwr with stage := .filling, waking := false }
      di := { s.di with fillBusy := true, fillStart := s.td.ptime } }

/-- COLD_POWER_ON (R393): VIN56 rises through 38.0 V. The straps are sampled, and LASTRST tells of a trip or an
overvoltage that storage records (R392, R397). -/
def execColdPowerOn (straps : BitVec 2) (untrained : List Nat) (s : State) : Host.Outcome State Fault Refusal :=
  if s.pwr.stage ≠ .off then .next s
  else
    let w := s.pwr
    .next (tryStart { s with pwr :=
      { stage := .waiting, rstHigh := w.rstHigh, refclk := w.refclk, straps := straps.toNat, untrained := untrained,
        lastRst := if w.tripRecord then 2 else if w.voltRecord then 3 else 0 } })

/-- REFCLK_STABLE (R393). -/
def execRefclkStable (s : State) : Host.Outcome State Fault Refusal :=
  .next (tryStart { s with pwr := { s.pwr with refclk := true } })

/-- RST_N resets: every unit stops and takes its reset values, so that ports, Ethernet and TWN_LEAD are released, and the
device waits for t1 (R394, R407). Where a cold power-on has not reached t1, its own start is still to come (R393). REFCLK
may stop while RST_N is low, so it must be stable for 1 ms anew (R391, log entry 16). -/
def resetPin (s : State) : State :=
  let s := { s with pwr := { s.pwr with rstHigh := false, refclk := false } }
  if !railsUp s then s
  else if s.pwr.stage = .waiting ∧ s.pwr.start = .cold then { s with mgmt := {}, pwr := restartPwr .cold s.pwr }
  else
    let s := restartUnits .rstN s
    { s with
      pwr := { s.pwr with stage := .waiting, start := .rstN }
      eth := { s.eth with ports := s.eth.ports.map (fun p => { p with state := 0 }) } }

/-- RST_N_ASSERT (R394): a pulse under 100 ns is ignored, one of 1 µs or more resets; between the two the spec does not
say which (log entry 2). -/
def execRstNAssert (nanoseconds : Nat) (s : State) : Host.Outcome State Fault Refusal :=
  if nanoseconds < 100 then .next s
  else if 1000 ≤ nanoseconds then .next (resetPin s)
  else
    let (n, s) := drawFree s
    .next (if n % 2 = 1 then resetPin s else s)

/-- RST_N_RELEASE (R394, R402): the straps are sampled, and R393 runs from t1. -/
def execRstNRelease (straps : BitVec 2) (untrained : List Nat) (s : State) : Host.Outcome State Fault Refusal :=
  if railsUp s then
    .next (tryStart { s with pwr := { s.pwr with rstHigh := true, straps := straps.toNat, untrained := untrained } })
  else .next { s with pwr := { s.pwr with rstHigh := true } }

/-- Set PWR_FAULT bits: a further bit drives SMB_ALERT_N anew (R405). -/
def setPwrFault (s : State) (bits : Nat) : State :=
  let w := s.pwr
  let s := noteFlags s ((setBits 5 bits).map (8 + ·))
  { s with pwr := { w with
    fault := w.fault ||| bits, alertAnswered := w.alertAnswered && decide (w.fault ||| bits = w.fault) } }

/-- Channels that have trained serve, and idle spares stand by (R309). -/
def channelsServe (s : State) : State :=
  (List.range 136).foldl (fun s c => chanMod s c (fun x =>
    if x.state = 0 then { x with state := if c % 17 = 16 ∧ x.serves.isNone then 3 else 1 } else x)) s

/-- HARDWARE_FILL_DONE (R309, R393, R404): the management core is released; channels serve, idle spares stand by. After
D3 the device has reached D0. -/
def execHardwareFillDone (s : State) : Host.Outcome State Fault Refusal :=
  if s.pwr.stage ≠ .filling then .next s
  else
    let s := channelsServe s
    let s := { s with
      pwr := { s.pwr with stage := .serving }
      di := { s.di with fillBusy := false, fillFrames := (s.td.ptime - s.di.fillStart) % 65536 }
      img := { s.img with bootDue := true } }
    if s.pwr.start = .d3 then .next (setPwrFault { s with pwr := { s.pwr with state := 0, busy := false } } 1)
    else .next s

/-! ### Power states (R398 to R400) -/

/-- A write of PWR_CTRL.TARGET: ignored during a transition. A write of D1 asks for D1 at the next tick. -/
def writeTarget (s : State) (t : Nat) : State :=
  if s.pwr.busy ∨ !railsUp s ∨ s.pwr.state = 3 then s
  else { s with pwr := { s.pwr with target := t % 4, d1Idle := 17 } }

def execPowerTargetD0 (s : State) : Host.Outcome State Fault Refusal := .next (writeTarget s 0)
def execPowerTargetD1 (s : State) : Host.Outcome State Fault Refusal := .next (writeTarget s 1)
def execPowerTargetD2 (s : State) : Host.Outcome State Fault Refusal := .next (writeTarget s 2)
def execPowerTargetD3 (s : State) : Host.Outcome State Fault Refusal := .next (writeTarget s 3)

/-- Some pair has a command in service. -/
def anyCommand (s : State) : Bool := s.eng.pairs.any (fun e => e.2.service.isSome)

/-- A transition begins. -/
def beginMove (s : State) (t : Nat) : State := { s with pwr := { s.pwr with busy := true, moving := t } }

/-- D1_AUTO_RETURN (R399): at a tick, under TARGET D1, the device leaves D1 once a pair has taken a command, and returns
after 16 frames with none in service. -/
def execD1AutoReturn (s : State) : Host.Outcome State Fault Refusal :=
  let w := s.pwr
  if w.stage ≠ .serving ∨ w.busy ∨ w.target ≠ 1 ∨ s.td.now ≠ s.td.tickClk then .next s
  else if w.state = 1 ∧ anyCommand s then .next (beginMove { s with pwr := { w with d1Idle := 0 } } 0)
  else if w.state = 0 ∧ 16 ≤ w.d1Idle ∧ ¬ anyCommand s then .next (beginMove s 1)
  else .next s

/-- Entry to D2 or D3 begins: partitions are QUIESCED, a partial reset under way is ended. -/
def beginSleep (s : State) : State :=
  let s := { s with twn := { s.twn with rstBusy := false } }
  (List.range 32).foldl (fun s p => if (partGet s p).st = .unused then s else quiesce s p 3) s

/-- The transition that the tick begins, if one is due: a D2 or D3 request waits for a load and for a security operation
(R399). -/
def tickPower (s : State) : State :=
  let w := s.pwr
  let idle := if anyCommand s then 0 else if w.d1Idle = 17 then 17 else min 16 (w.d1Idle + 1)
  let s := { s with pwr := { w with d1Idle := idle } }
  if w.busy ∨ w.stage ≠ .serving ∨ w.state = w.target then s
  else if w.target = 1 ∧ w.state = 0 ∧ w.d1Idle ≠ 17 then s
  else if w.state = 2 ∧ w.target ≠ 3 then
    beginMove ((List.range 136).foldl (fun s c => chanMod s c oweTraining) s) 0
  else if w.target ≤ 1 then beginMove s w.target
  else if s.img.phase ≠ 0 ∨ s.sec.busy then s
  else if w.state = 2 then beginMove s 3
  else beginMove (beginSleep s) w.target

/-- D2 is reached: TWN_LEAD is released, ports and Ethernet stop, channels keep their contents in self-refresh, caches are
off (R398, R399, R409). -/
def enterSleep (s : State) : State :=
  let s := loseLead s
  let s := (List.range 8).foldl (fun s p => if portLive (portGet s p) then portOut s p 1 0 else s) s
  let s := (List.range 136).foldl (fun s c => chanMod s c (selfRefresh s)) s
  { s with
    eth := { s.eth with ports := s.eth.ports.map (fun p => { p with state := 0 }) }
    coh := { s.coh with cache := [] }
    eng := { s.eng with buffers := [], walks := [] } }

/-- D0 is reached from D2: channels serve, every port that is enabled and not held resets with resume offered, Ethernet
trains, the tick state is UNLOCKED, and the partitions are ACTIVE from the next tick (R108, R399). -/
def leaveSleep (s : State) : State :=
  let s := (List.range 136).foldl endSelfRefresh s
  let s := (List.range 8).foldl (fun s p =>
    if portEnabled s p ∧ !(portGet s p).hold then portMod s p (fun x => beginReset s { x with failures := 0 } 0 false)
    else s) s
  let s := (List.range 32).foldl (fun s p => partMod s p (fun x =>
    if x.st = .quiesced ∧ x.why = 3 then { x with next := some .active } else x)) s
  let s := unlockSync { s with eth := { s.eth with ports := s.eth.ports.map (fun p => { p with state := 1 }) } }
  setPwrFault s 1

/-- Every partition that a D2 or D3 entry quiesced has drained. -/
def sleepDrained (s : State) : Bool :=
  (List.range 32).all (fun p => let x := partGet s p; decide (x.st ≠ .quiesced) || decide (x.why ≠ 3) || x.drained)

/-- A channel that leaves self-refresh still owes its training piece (R399). -/
def trainingOwed (s : State) : Bool := (List.range 136).any (fun c => owesTraining (chanGet s c))

/-- The state that a transition moves to is reached. -/
def reachState (s : State) : State := { s with pwr := { s.pwr with state := s.pwr.moving, busy := false } }

/-- POWER_TRANSITION_DONE (R399). -/
def execPowerTransitionDone (s : State) : Host.Outcome State Fault Refusal :=
  let w := s.pwr
  if !w.busy ∨ w.stage ≠ .serving then .next s
  else
    if w.moving ≤ 1 then
      if w.state = 2 then if trainingOwed s then .next s else .next (leaveSleep (reachState s))
      else .next (reachState s)
    else if !sleepDrained s then .next s
    else if w.state = 2 then .next (reachState s) else .next (reachState (enterSleep s))

/-! ### SMBus wake and alert (R402 to R405) -/

/-- The SMBus address. -/
def smbAddress (s : State) : Nat := 0x60 + s.pwr.straps

/-- The device sleeps in D3. -/
def asleep (s : State) : Bool := decide (s.pwr.stage = .serving) && decide (s.pwr.state = 3)

/-- PWRGD is high: the rails are in regulation. They are not in D3, nor, leaving it, before t1, the first event that tells
of them (R393, R398, R404, log entry 62). -/
def pwrgdHigh (s : State) : Bool := railsUp s && !asleep s && !s.pwr.waking

/-- The SMBus slave answers its address: the rails serve, and RST_N is high. -/
def smbServes (s : State) : Bool := pwrgdHigh s && s.pwr.rstHigh

/-- An address match in D3: the address is ACKed, the next byte NACKed, and the exit to D0 starts: its t1 waits for a
stable REFCLK, which may have stopped in D3 (R391, R393). -/
def wake (s : State) : State :=
  emit { s with pwr := { s.pwr with
    stage := .waiting, start := .d3, waking := true, busy := true, moving := 0, refclk := false } } .smbNack

/-- The command codes of R403. -/
def smbCodes : List Byte := [0x01, 0x10, 0x11, 0x12]

/-- SMBUS_WAKE (R403, R404): a match in D3 starts the exit to D0; any other address never wakes the device. Awake, the
device NACKs its address while its rails do not serve, and a command byte that R403 does not list. -/
def execSmbusWake (start : SmbStart) (s : State) : Host.Outcome State Fault Refusal :=
  if start.address.toNat ≠ smbAddress s then .next s
  else if asleep s then .next (wake s)
  else if smbServes s ∧ smbCodes.contains start.code then .next s
  else .next (emit s .smbNack)

/-- The always-on domain drives its outputs: while RST_N is low they are high impedance (R407). -/
def outputsOn (s : State) : Bool := railsUp s && s.pwr.rstHigh

/-- SMB_ALERT_N is low (R405, R407). -/
def alertLow (s : State) : Bool :=
  outputsOn s && !s.pwr.alertAnswered && decide (s.pwr.fault &&& s.pwr.alertMask ≠ 0)

/-- FAULT_N is low (R316, R405, R407). -/
def faultLow (s : State) : Bool :=
  outputsOn s && (diDrivesFault s.di || decide (s.pwr.fault &&& s.pwr.faultMask ≠ 0))

/-- The packet error code of SMBus 3.2: CRC-8 with x^8 + x^2 + x + 1, from 0, over every byte of the transaction (R402,
log entry 65). -/
def smbPec (bytes : List Byte) : Byte :=
  bytes.foldl (fun c b => (List.range 8).foldl (fun (c : Byte) _ =>
    if c.getLsbD 7 then (c <<< 1) ^^^ 0x07 else c <<< 1) (c ^^^ b)) 0

/-- The address byte of a transaction: a write's, or a read's. -/
def smbByte (s : State) (read : Bool) : Byte := BitVec.ofNat 8 (2 * smbAddress s + bit01 read)

/-- The packet error code of a read: the device sends it when the host clocks it. -/
def smbReadPec (s : State) (code : Byte) (bytes : List Byte) : Byte :=
  smbPec ([smbByte s false, code, smbByte s true] ++ bytes)

/-- ALERT_RESPONSE (R405): the device that holds SMB_ALERT_N low returns its address byte and releases the line. -/
def execAlertResponse (s : State) : Host.Outcome State Fault Refusal :=
  if alertLow s then
    .next (emit { s with pwr := { s.pwr with alertAnswered := true } }
      (.smbus [smbByte s false] (smbPec [0x19, smbByte s false])))
  else .next (emit s .smbNack)

/-! ### Readings of a tick (R392, R396, R412) -/

/-- The die throttle acts from its limit until the die is 5 °C below it; the limits are whole degrees. -/
def throttleAt (limit : Nat) (was : Bool) (t : Int) : Bool :=
  decide (8 * (limit : Int) ≤ t) || (was && decide (8 * (limit : Int) - 40 < t))

/-- The readings of the frame just ended. -/
def tickReadings (s : State) (i : TickInputs) : State :=
  let w := s.pwr
  let temp := fun (n : Nat) => i.temps.getD n 0
  let die := max (temp 0) (temp 1)
  let dieOn := throttleAt w.thermThrottle w.throttle die
  let hotStacks := (List.range 8).map (fun n => throttleAt w.stThrottle (w.stackThrottle.getD n false) (temp (n + 2)))
  let s := { s with pwr := { w with
    vin := i.vinMin, amp := i.amp, deciWatt := i.deciWatt, tempNow := (List.range 10).map temp
    tempPeak := (List.range 10).map (fun n => max (temp n) (w.tempPeak.getD n 0))
    throttle := dieOn, stackThrottle := hotStacks } }
  let bits := (if i.vinMax < 4000 then 16 else 0) ||| (if 6000 < i.vinMin then 8 else 0) |||
    (if 8 * (w.warn : Int) ≤ die then 4 else 0) ||| (if 8 * (w.thermThrottle : Int) ≤ die then 2 else 0)
  if bits = 0 then s else setPwrFault s bits

/-- A reading at the trip limit: a die at 120 °C or a stack at 105 °C (R396). -/
def overTrip (i : TickInputs) : Bool :=
  (List.range 10).any (fun n => decide ((if n < 2 then (960 : Int) else 840) ≤ i.temps.getD n 0))

end Sys2Proof.Machine
end

