-- ==== Sys2Proof/Machine/RegRead.lean ====
section
/-! DEFINITION. What a read of each register returns (R9, R10, R38 to R49, R414 to R419, and the register tables of every
chapter): device-wide blocks first, then the four windows, then the whole space. A block's function answers none where no
register table names the offset. -/

namespace Sys2Proof.Machine

/-! ### Access errors and paths (R9, R38, R416, R417) -/

/-- SYS_ACCERR.CAUSE. -/
def accWidth : Nat := 1
def accUnbound : Nat := 2
def accReserved : Nat := 3
def accUnserved : Nat := 4
def accBusy : Nat := 5

def pathGet (s : State) : Path → PathState
  | .core => s.mgmt.core
  | .smbus => s.mgmt.smbus
  | .mgmtQp => s.mgmt.mgmtQp

def pathSet (s : State) (x : PathState) : Path → State
  | .core => { s with mgmt := { s.mgmt with core := x } }
  | .smbus => { s with mgmt := { s.mgmt with smbus := x } }
  | .mgmtQp => { s with mgmt := { s.mgmt with mgmtQp := x } }

def pathMod (s : State) (path : Path) (f : PathState → PathState) : State := pathSet s (f (pathGet s path)) path

/-- SYS_PATH.PATH. -/
def pathCode : Path → Nat
  | .core => 0 | .smbus => 1 | .mgmtQp => 2

/-- What an access error leaves of SYS_ACCERR: one that finds ERR at 0 is recorded; the first of a clk that finds it at 1
waits for a clearing write of that clk (R417). `fresh`: no error of the path has come in this clk. -/
def errAfter (a : AccErr) (fresh : Bool) (cause off : Nat) : AccErr :=
  if !a.err then { err := true, cause := cause, off := off % 2 ^ 25 }
  else if fresh then { a with later := some (cause, off % 2 ^ 25) }
  else a

/-- An access error (R417). -/
def recordErr (s : State) (path : Path) (cause off : Nat) : State :=
  pathMod (noteFlags s [pathCode path]) path
    (fun x => { x with acc := errAfter x.acc (!setNow s (pathCode path)) cause off })

def w32 (n : Nat) : Word := BitVec.ofNat 32 n

/-- A word of two 16-bit fields. -/
def w16 (hi lo : Nat) : Word := packFields [(16, hi % 65536), (0, lo % 65536)]

/-- Position of an offset in an array of `n` registers from `base` on. -/
def arrayAt (o base n : Nat) : Option Nat :=
  if base ≤ o ∧ o < base + 4 * n then some ((o - base) / 4) else none

/-- The 32-bit word that a data window moves at an offset: the byte at the offset is in bits [7:0] (R415). -/
def windowWord (bs : List Byte) : Word := w32 (leNat bs)

/-! ### System block, selects and hedges (R40 to R49, R416) -/

def readSys (s : State) (path : Path) (o : Nat) : Option Word :=
  let a := (pathGet s path).acc
  match o with
  | 0x000 => some 0x8472A100
  | 0x004 => some (packFields [(31, bit01 a.err), (28, a.cause), (0, a.off)])
  | 0x008 => some (w32 (pathCode path))
  | _ => none

/-- The root above a hedge (R19). -/
def hedgeTop (l : Layout) : Nat → Nat → Nat
  | 0, h => h
  | fuel + 1, h => match parentOf l (true, h) with
    | none => h
    | some g => hedgeTop l fuel g

/-- HDG_INFO (R46). -/
def hedgeInfo (l : Layout) (h : Nat) : Word :=
  match hedgeRec l h with
  | none => 0
  | some r =>
    let sls := hedgeSlices l h
    let top := hedgeTop l hedgeFuel h
    let part := match l.parts.find? (fun x => x.root == top) with
      | none => 0
      | some x => x.part
    packFields [(31, 1), (30, bit01 (parentOf l (true, h)).isNone), (24, (parentOf l (true, h)).getD 0), (19, part),
      (16, r.mode), (8, r.members.length),
      (6, bit01 (sls.any (fun sl => halfOf sl = 0)) + 2 * bit01 (sls.any (fun sl => halfOf sl = 1))),
      (0, hedgeDepth l h % 64)]

/-- HDG_GEOM (R47). -/
def hedgeGeom (l : Layout) (h : Nat) : Word :=
  if (hedgeRec l h).isNone then 0 else packFields [(24, (hedgeSlices l h).length), (0, hedgeCap l h)]

def readSelects (s : State) (path : Path) (o : Nat) : Option Word :=
  let x := pathGet s path
  match o with
  | 0x000 => some (w32 x.partSel)
  | 0x004 => some (packFields [(30, x.engMode), (0, x.engIndex)])
  | 0x008 => some (w32 x.kxSel)
  | 0x00C => some (packFields [(31, bit01 x.stkRel), (0, x.stkIndex)])
  | _ =>
    if 0x400 ≤ o ∧ o < 0x600 then
      let n := (o - 0x400) / 8
      some (if o % 8 = 0 then hedgeInfo s.img.layout n else hedgeGeom s.img.layout n)
    else none

/-! ### Image block (R79 to R82) -/

def readImg (s : State) (o : Nat) : Option Word :=
  let g := s.img
  match o with
  | 0x000 => some 0
  | 0x004 => some (packFields [(31, bit01 g.loaded), (28, g.phase), (27, bit01 g.kind), (22, g.part), (16, g.code),
      (12, g.sect), (0, g.record)])
  | 0x008 => some (w32 g.serial)
  | 0x00C => some (packFields [(31, bit01 g.refused), (0, g.refusedCount)])
  | _ =>
    match arrayAt o 0x010 4, arrayAt o 0x020 4, arrayAt o 0x040 8 with
    | some n, _, _ => let w := g.owners.getD n {}; some (packFields [(30, w.state), (23, w.left)])
    | _, some n, _ => some (w32 (g.owners.getD n {}).floor)
    | _, _, some n => some (digestWord g.digest n)
    | _, _, _ => none

/-! ### Traffic block (R111) -/

/-- TD_QHEAD: it moves in clk 1 of a frame (R87). -/
def headShown (s : State) : Nat := if s.td.now ≤ s.td.tickClk then s.td.qheadOld else s.td.qhead

/-- Word n of a window's histories: in clk 0 of a frame those of the tick are not written yet (R87). -/
def histWord (s : State) (h : Tbl Word) (old : List Word) (n : Nat) : Word :=
  if headShown s ≠ s.td.qhead ∧ n % 64 = s.td.qhead then old.getD (n / 64) 0 else tblGet (fun _ => 0) h n

def readTd (s : State) (path : Path) (o : Nat) : Option Word :=
  let t := s.td
  match o with
  | 0x000 => some (w32 (bit01 t.freerun))
  | 0x004 => some (packFields [(30, t.sync), (29, bit01 t.hold), (0, t.lastLen % 2 ^ 14)])
  | 0x008 => some (w16 t.missed t.stray)
  | 0x00C => some (w32 (headShown s))
  | 0x010 => some (w32 t.ptime)
  | 0x014 => some (w32 (t.ptime / 2 ^ 32))
  | 0x018 => some (w32 (pathGet s path).ptSub)
  | 0x01C => some (w32 t.boot)
  | 0x020 =>
    let p := loadParts s 2
    some (packFields [(28, loadAfter s 2), (24, p.1), (20, p.2.1), (16, p.2.2)])
  | _ => (arrayAt o 0x400 256).map (histWord s t.ethHist t.ethOld)

/-! ### Fabric block (R163) and coherence block (R186) -/

def readFab (s : State) (o : Nat) : Option Word :=
  let f := s.fab
  match o with
  | 0x000 => some (match s.img.layout.ring with
    | none => 0
    | some r => packFields [(28, r.dateline), (21, r.colLen), (14, r.rowLen), (0, r.node)])
  | 0x004 => some 0
  | 0x008 => some (w16 f.unroutable f.hops)
  | 0x00C => some (w16 f.opcodeErr f.frameErr)
  | 0x010 => some (w16 f.badMc f.refusedMc)
  | 0x014 => some (w32 f.mcSunk)
  | _ => none

def readCoh (s : State) (o : Nat) : Option Word :=
  let half := fun (h : Nat) => s.coh.halves.getD h {}
  match o with
  | 0x000 => some (w32 s.coh.sto)
  | 0x004 => some 0
  | _ =>
    match (arrayAt o 0x008 12) with
    | none => none
    | some i =>
      let h := i % 2
      let x := half h
      some (match i / 2 with
        | 0 => w16 x.peak (openEntries s h)
        | 1 => w32 x.hit
        | 2 => w32 x.miss
        | 3 => w16 x.retrySet x.retryTxn
        | 4 => w16 x.proto x.poisoned
        | _ => w16 x.lost x.grafted)

/-! ### Stack block (R222), flash block (R245), engine block (R277) -/

/-- STK_DECODE under the pending masks (R204, R205). -/
def stkDecode (x : Stack) : Word :=
  let a := x.decode
  if 0x120000000 ≤ a then 0
  else packFields [(15, dramRow a), (9, dramBank x.xmap a), (5, dramCol a), (0, 1)]

def readStk (s : State) (o : Nat) : Option Word :=
  match o with
  | 0x040 => some (w32 s.stk.decode)
  | 0x044 => some (w32 (s.stk.decode / 2 ^ 32))
  | 0x048 => some (stkDecode s.stk)
  | 0x04C => some (w16 s.stk.repairLog.length s.stk.dropped)
  | _ =>
    match arrayAt o 0x000 6, arrayAt o 0x020 6 with
    | some i, _ => some (w32 (s.stk.xmap.getD i 0))
    | _, some i => some (w32 (s.stk.xmapAct.getD i 0))
    | _, _ => none

/-- A stripe block that FL_WEAR.MIN looks at: good, that is not retired, not defective and no table block. -/
def goodErases (f : Flash) : List Nat := (f.blocks.filter (fun e => !stripeOut e.2)).map (fun e => e.2.erases)

/-- Stripe blocks in use on the targets discovered. -/
def stripeTotal (f : Flash) : Nat := sumNat (f.geom.map (fun g => g.luns * g.blocks))

/-- Lowest erase count of a good stripe block; one that is not listed has been erased no time. -/
def leastErases (f : Flash) : Nat :=
  let out := (f.blocks.filter (fun e => stripeOut e.2)).length
  let listed := goodErases f
  if listed.length + out < stripeTotal f then 0 else (minBy id listed).getD 0

def readFl (s : State) (o : Nat) : Option Word :=
  let f := s.fl
  match o with
  | 0x000 => some (packFields [(28, f.hint), (20, f.rdbits), (12, f.rdlim), (8, f.clean)])
  | 0x004 => some (w16 f.retain f.spread)
  | 0x008 => some 0
  | 0x00C => some (packFields [(29, flashState f), (21, f.groups), (14, flashMargin f)])
  | 0x010 => some (w32 f.rawGiB)
  | 0x014 => some (w32 (flashNow f / 16384))
  | 0x018 => some (w32 f.usable)
  | 0x01C => some (w32 (f.blocks.filter (fun e => e.2.st = 3)).length)
  | 0x020 => some (w16 (satTo 16 ((f.blocks.map (fun e => e.2.erases)).foldl max 0)) (satTo 16 (leastErases f)))
  | 0x024 => some (w16 (satTo 16 (sumNat (f.reserve.map (·.2)))) (satTo 16 (sumNat (f.unreplaced.map (·.2)))))
  | 0x028 => some (w32 f.factoryBad)
  | 0x02C => some (w32 f.badGrown)
  | 0x030 => some (w32 f.relocRet)
  | 0x034 => some (w32 f.relocRd)
  | 0x038 => some (w32 f.relocWl)
  | 0x03C => some (w32 f.eccUncorr)
  | 0x040 => some (w32 f.eccRetry)
  | _ => (arrayAt o 0x100 32).map (fun n =>
      let c := tblGet (fun _ => (0, 0, 0)) f.chans n
      packFields [(30, c.1), (22, c.2.1), (19, c.2.2)])

def readEng (s : State) (o : Nat) : Option Word :=
  match o with
  | 0x040 => some (w16 (maskOf ((List.range 16).filter (fun n => (engGet s (256 + n)).logical.isSome)))
      (maskOf ((List.range 16).filter (fun n => let e := engGet s (256 + n); e.logical.isNone && !e.pruned))))
  | _ =>
    match arrayAt o 0x000 8, arrayAt o 0x020 8 with
    | some c, _ => some (w32 (s.near.coll.getD c 0))
    | _, some c => some (w32 (s.near.atoms.getD c 0))
    | _, _ => none

/-! ### Integrity block (R318), Ethernet block (R336, R337) -/

def readDi (s : State) (path : Path) (o : Nat) : Option Word :=
  let d := s.di
  match o with
  | 0x000 => some 0
  | 0x004 => some (packFields [(31, bit01 d.off), (0, d.period)])
  | 0x008 => some (packFields [(31, bit01 d.late), (24, patrolPercent s), (0, d.passes % 65536)])
  | 0x00C => some (packFields [(31, bit01 d.fillBusy), (0, d.fillFrames % 65536)])
  | 0x010 => some (w32 d.ce)
  | 0x014 => some (w16 d.ueDram d.uePath)
  | 0x018 => some (w16 d.sramCe d.sramUe)
  | 0x01C => some (w16 d.parCfg d.parImem)
  | 0x020 => some (w32 d.poison)
  | 0x024 => some (w16 d.demandDropped d.demandDone)
  | 0x028 => some (packFields [(16, d.logTotal % 65536), (0, d.logHead % 256)])
  | 0x02C => some (w32 (pathGet s path).diLogSel)
  | 0x050 => some (w32 (d.faultStatus &&& 0x3FE))
  | 0x054 => some (w32 ((d.faultMask &&& 0x1FE) ||| 0x200))
  | 0x058 => some (packFields [(31, bit01 d.injArm), (8, d.injBits), (5, d.injStack), (0, d.injChan)])
  | 0x05C => some (w16 d.rowsGrafted d.rowsLost)
  | _ => (arrayAt o 0x030 6).map (fun n => (tblGet (fun _ => []) d.log (pathGet s path).diLogSel).getD n 0)

/-- ETH_QP registers of the queue pair the path names (R337). -/
def readQp (s : State) (qi o : Nat) : Option Word :=
  let q := qpGet (tearDue s) qi
  match o with
  | 0x084 => some (packFields [(30, q.state), (28, q.port), (26, q.mtu), (21, q.part), (18, q.rnrRetry), (15, q.retry),
      (0, q.host)])
  | 0x088 => some (w32 q.dqpn)
  | 0x08C => some (w32 q.rpsn)
  | 0x090 => some (w32 q.spsn)
  | 0x0A4 => some q.macLo
  | 0x0A8 => some q.macHi
  | 0x0AC => some (if qi ≠ 4096 ∧ isConf s q.part then packFields [(28, q.cause)]
      else packFields [(28, q.cause), (16, q.rnr), (0, q.seqErr)])
  | _ => (arrayAt o 0x094 4).map (fun n => q.ip.getD n 0)

/-- An offset of the queue-pair window. -/
def inQpWindow (o : Nat) : Bool := decide (0x084 ≤ o) && decide (o ≤ 0x0AC)

def readEth (s : State) (path : Path) (o : Nat) : Except Nat Word :=
  let some' := fun (w : Option Word) => match w with
    | some w => Except.ok w
    | none => .error accReserved
  let x := pathGet s path
  if o = 0x080 then .ok (w32 x.ethQpSel)
  else if inQpWindow o then
    if 4096 < x.ethQpSel then .error accUnbound else some' (readQp s x.ethQpSel o)
  else
    some' (match arrayAt o 0x000 4, arrayAt o 0x010 4, arrayAt o 0x020 8, arrayAt o 0x100 64 with
      | some p, _, _, _ => some (packFields [(30, (ethPort s p).state), (28, (ethPort s p).phy)])
      | _, some p, _, _ => some (w16 (ethPort s p).fcs (ethPort s p).other)
      | _, _, some i, _ =>
        let m := (Config.factoryMac (i / 2)).toNat
        some (w32 (if i % 2 = 0 then m else m / 2 ^ 32))
      | _, _, _, some n => some (tblGet (fun _ => 0) s.eth.ip n)
      | _, _, _, _ => none)

/-! ### Security block (R365) -/

def stagedDigest (x : Security) : Digest := match x.staged with
  | none => 0
  | some f => f.measure

def readSec (s : State) (o : Nat) : Option Word :=
  let x := s.sec
  match o with
  | 0x000 => some (packFields [(16, x.cmdIndex), (15, bit01 x.cmdDev), (8, x.cmdPart), (0, x.cmdOp)])
  | 0x004 => some (packFields [(31, bit01 x.busy), (16, x.code), (0, x.op)])
  | 0x008 => some (w32 x.tagErr)
  | 0x010 => some (w32 x.owcCount)
  | 0x014 => some (w32 (x.owcCount / 2 ^ 32))
  | 0x040 => some (packFields [(31, bit01 x.staged.isSome), (30, bit01 x.pendingSince.isSome), (29, bit01 x.rollback),
      (28, x.running.slot), (0, x.fwLeft)])
  | 0x044 => some (w16 x.running.svn x.fwFloor)
  | _ =>
    match arrayAt o 0x020 8, arrayAt o 0x060 8, arrayAt o 0x080 8, arrayAt o 0x0A0 3 with
    | some n, _, _, _ => some (digestWord Config.devid n)
    | _, some n, _, _ => some (digestWord x.running.measure n)
    | _, _, some n, _ => some (digestWord (stagedDigest x) n)
    | _, _, _, some n => some (w16 (Config.certLength n) (Config.certOffset n))
    | _, _, _, _ => none

/-! ### Twin and failure block (R390), power block (R412) -/

def fenceWord (e : Option (Bool × Nat)) : Word := match e with
  | none => 0
  | some (host, req) => packFields [(31, 1), (15, bit01 host), (0, req)]

def fencesFull (t : Twin) : Bool := (List.range 64).all (fun n => (tblGet (fun _ => none) t.fences n).isSome)

def readTwn (s : State) (o : Nat) : Option Word :=
  let t := s.twn
  match o with
  | 0x000 => some (packFields [(29, t.state), (28, bit01 (leads s)), (27, bit01 t.lineHigh), (26, bit01 t.fabUp),
      (25, bit01 t.hbUp), (22, t.pstate), (21, bit01 t.plead), (0, twinPeer s)])
  | 0x004 => some (packFields [(24, t.shadow), (16, t.ackto), (0, t.copyRate)])
  | 0x008 => some 0
  | 0x00C => some (w16 t.fabMiss t.holdFull)
  | 0x010 => some (packFields [(31, bit01 t.copyBusy), (0, t.copyDone / 2097152 % 2 ^ 26)])
  | 0x014 => some (w32 t.geom)
  | 0x018 => some (w32 t.peerGeom)
  | 0x01C => some (w16 t.takeovers t.fails)
  | 0x020 => some (packFields [(29, bit01 (fencesFull t))])
  | 0x030 => some (packFields [(29, t.rstKind), (0, t.rstPart)])
  | 0x034 => some (packFields [(31, bit01 t.rstBusy), (29, t.rstLastKind), (24, t.rstLastPart), (0, t.rstCount % 65536)])
  | 0x040 => some (packFields [(31, bit01 t.wdtEn), (0, t.wdtTimeout)])
  | 0x044 => some 0
  | 0x048 => some (packFields [(31, bit01 t.wdtHeld), (8, t.wdtRestarts), (0, t.wdtFires)])
  | _ => (arrayAt o 0x100 64).map (fun n => fenceWord (tblGet (fun _ => none) t.fences n))

/-- A reading in 1/8 °C as a 16-bit two's complement field. -/
def temp16 (t : Int) : Nat := (t % 65536).toNat

/-- PWR_STATUS (R412). -/
def pwrStatus (s : State) : Word :=
  let w := s.pwr
  packFields [(30, w.state), (29, bit01 w.busy), (28, bit01 (w.throttle || w.stackThrottle.any id)), (24, w.lastRst)]

def readPwr (s : State) (o : Nat) : Option Word :=
  let w := s.pwr
  match o with
  | 0x000 => some (w32 w.target)
  | 0x004 => some (pwrStatus s)
  | 0x008 => some (w16 w.vin w.amp)
  | 0x00C => some (w32 (w.deciWatt % 65536))
  | 0x040 => some (packFields [(24, w.warn), (16, w.thermThrottle), (8, w.stThrottle)])
  | 0x044 => some (w32 w.fault)
  | 0x048 => some (packFields [(16, w.alertMask), (0, w.faultMask)])
  | 0x04C => some (packFields [(8, w.pecErr), (0, smbAddress s)])
  | _ => (arrayAt o 0x010 10).map (fun n => w16 (temp16 (w.tempPeak.getD n 0)) (temp16 (w.tempNow.getD n 0)))

/-! ### Partition window (R48, R81, R112, R187, R201, R246, R296, R297, R320, R366) -/

/-- The flow that the path's TD_FLOW_SEL names. -/
def selFlow (x : PathState) : Nat := flowNat x.partSel x.flowHost x.flowReq

/-- CREDIT as its 19-bit field, saturating at −262,144. -/
def creditField (c : Int) : Nat := (max c (-262144) % 524288).toNat

/-- The flow registers at 0x104 to 0x128; `conf` zeroes those that confidential mode hides (R112). -/
def readFlow (s : State) (x : PathState) (conf : Bool) (o : Nat) : Word :=
  let k := selFlow x
  let f := flowGet s k
  let hide := fun (w : Word) => if conf then 0 else w
  match allotOf s.img.layout k with
  | none => 0
  | some r =>
    match o with
    | 0x104 => w16 r.burst r.allot
    | 0x108 => w32 f.limit
    | 0x10C => hide (packFields [(13, creditField f.credit), (6, f.wait), (3, f.queue.length % 8)])
    | 0x110 => hide (match f.wheel with
      | none => 0
      | some t => packFields [(31, 1), (0, t % 1024)])
    | 0x114 => hide (w16 (satTo 16 f.units) f.retry)
    | 0x118 => hide (w16 f.defer f.drop)
    | 0x11C => hide (w32 f.green)
    | 0x120 => hide (w32 f.yellow)
    | 0x124 => hide (w32 f.red)
    | _ => hide (w16 f.tp f.tc)

/-- The pool address of a partition's unit lies in a PUBLISHED region. -/
def unitPublished (l : Layout) (p u : Nat) : Bool := match regionAt l p u with
  | none => false
  | some r => r.kind == 2

/-- XL_PTE of a unit; none where the unit lies in no region. A lost entry shows its page unmapped (R307). -/
def xlPte (s : State) (p u : Nat) : Option Word :=
  (regionAt s.img.layout p u).map (fun r =>
    let g := bit01 r.gib
    if r.flash then packFields [(31, 1), (30, g), (29, 1)]
    else match pteGet s p u with
      | .mapped h => packFields [(31, 1), (30, g), (0, h)]
      | _ => packFields [(30, g)])

/-- The number of the entry that LG_SEL shows: the n in [TAIL, HEAD) with n mod 65,536 = SLOT. -/
def lgShown (g : Ledger) (slot : Nat) : Option Nat :=
  let n := g.tail + (slot + 65536 - g.tail % 65536) % 65536
  if n < g.head then some n else none

/-- The registers of the pair SQ_SEL names (R296). -/
def readSq (s : State) (p q : Nat) (conf : Bool) (o : Nat) : Option Word :=
  let x := pairGet s p q
  let hide := fun (w : Word) => if conf then 0 else w
  match o with
  | 0x604 => some (packFields [(31, bit01 x.enable), (29, x.kind), (24, x.size), (0, x.req)])
  | 0x608 => some (w32 x.ctl)
  | 0x60C => some (w32 x.cmd)
  | 0x610 => some (w32 x.cpl)
  | 0x614 => some (if conf then packFields [(30, x.state), (26, x.cause)]
      else packFields [(30, x.state), (26, x.cause), (13, x.cmdCi), (0, x.cmdPi)])
  | 0x618 => some (hide (packFields [(13, x.cplPi), (0, x.cplCi)]))
  | 0x61C => some (hide (w16 x.corr x.uncorr))
  | 0x620 => some 0
  | 0x624 => some (hide (w32 x.taken))
  | _ => none

/-- COH_AGENT_n (R187). -/
def agentWord (s : State) (p n : Nat) : Word :=
  match (agentsOf s.img.layout p)[n]? with
  | none => 0
  | some node =>
    let x := partGet s p
    packFields [(31, 1), (30, bit01 (x.fenced.testBit n)), (29, bit01 (x.stall.testBit n)), (0, node)]

/-- PART_INFO (R48). -/
def partInfo (s : State) (p : Nat) : Word :=
  let x := partGet s p
  match partRecOf s.img.layout p with
  | none => packFields [(30, pstateCode x.st)]
  | some r =>
    if x.st = .unused then 0
    else packFields [(30, pstateCode x.st), (29, bit01 r.conf), (18, r.root),
      (8, (partSlices s.img.layout p).length), (0, (regionsOf s.img.layout p).length)]

/-- Registers of one partition. -/
def readPartReg (s : State) (x : PathState) (o : Nat) : Option Word :=
  let p := x.partSel
  let y := partGet s p
  let conf := isConf s p
  let hide := fun (w : Word) => if conf then 0 else w
  let g := y.ledger
  match o with
  | 0x000 => some (partInfo s p)
  | 0x008 => some (w32 (partUnits s.img.layout p * 2097152))
  | 0x00C => some (w32 (partUnits s.img.layout p * 2097152 / 2 ^ 32))
  | 0x060 => some (w32 y.serial)
  | 0x100 => some (packFields [(15, bit01 x.flowHost), (0, x.flowReq)])
  | 0x12C => some (hide (w32 y.cnt.viol))
  | 0x300 => some (w32 y.fenced)
  | 0x304 => some (w32 (y.fenced / 2 ^ 32))
  | 0x308 => some (packFields [(31, bit01 y.sweep.isSome), (0, y.sweep.getD 0)])
  | 0x30C => some (hide (w16 y.cnt.poisoned y.cnt.cohRetry))
  | 0x310 => some (hide (w32 y.cnt.poisonAddr))
  | 0x314 => some (hide (w32 (y.cnt.poisonAddr / 2 ^ 32)))
  | 0x400 => some (hide (w32 y.cnt.pubOk))
  | 0x404 => some (hide (w32 y.cnt.pubConflict))
  | 0x408 => some (hide (packFields [(16, y.cnt.pubRetry),
      (0, min 4096 (s.coh.pubWait.filter (fun w => decide (w.svc.req.pkt.part.toNat = p) &&
        !released s w.svc (w.unit / 2 ^ 26) (w.unit % 2 ^ 26))).length)]))
  | 0x40C => some 0
  | 0x410 => some (w32 x.pubUnit)
  | 0x500 => some (hide (w32 y.cnt.flHit))
  | 0x504 => some (hide (w32 y.cnt.flMiss))
  | 0x508 => some (w32 (frameCount s.img.layout p))
  | 0x50C => some (hide (w32 (s.fl.grans.filter (fun e =>
      decide (e.1 / 2 ^ 32 = p) && (decide (e.2.st = .dirty) || decide (e.2.st = .writing)))).length))
  | 0x510 => some (hide (w32 y.cnt.flWb))
  | 0x600 => some (w32 x.sqSel)
  | 0x680 => some (w32 x.xlPage)
  | 0x688 => some (w32 x.xlSrc)
  | 0x68C => some 0
  | 0x690 => some (packFields [(31, bit01 y.xlOp.isSome), (28, y.xlResult), (0, freePages s p)])
  | 0x694 => some (w32 y.mapEpoch)
  | 0x698 => some (hide (w32 y.cnt.xlMiss))
  | 0x69C => some (hide (w16 y.cnt.xlCheck y.cnt.xlTile))
  | 0x700 => some (hide (w16 y.cnt.diCe y.cnt.diUe))
  | 0x900 => some (packFields [(31, bit01 y.keys.keyed), (30, bit01 y.keys.fabEnc), (29, bit01 y.keys.ethEnc),
      (28, bit01 y.exch.isSome)])
  | 0x904 => some (w32 y.epoch)
  | 0x908 => some (w32 g.head)
  | 0x90C => some (w32 (g.head / 2 ^ 32))
  | 0x910 => some (w32 g.tail)
  | 0x914 => some (w32 (g.tail / 2 ^ 32))
  | 0x918 => some (w32 x.lgSel)
  | 0x940 => some (packFields [(31, bit01 (lgFull g && decide (g.size ≠ 0))), (30, bit01 g.broken), (0, g.size)])
  | 0x944 => some (w32 g.lost)
  | _ =>
    if 0x104 ≤ o ∧ o ≤ 0x128 then some (readFlow s x conf o)
    else if 0x604 ≤ o ∧ o ≤ 0x624 then readSq s p x.sqSel conf o
    else match arrayAt o 0x040 8, arrayAt o 0x200 64, arrayAt o 0x800 64, arrayAt o 0x920 8 with
      | some n, _, _, _ => some (digestWord y.digest n)
      | _, some n, _, _ => some (agentWord s p n)
      | _, _, some n, _ => some (hide (histWord s s.td.partHist s.td.partOld (64 * p + n)))
      | _, _, _, some n => some (digestWord g.digest n)
      | _, _, _, _ => none

/-- The partition window, with the registers that a select of its own may leave unbound (R201, R297, R366). -/
def readPartWin (s : State) (path : Path) (o : Nat) : Except Nat Word :=
  let x := pathGet s path
  let p := x.partSel
  if o = 0x414 ∨ o = 0x418 ∨ o = 0x41C then
    if !unitPublished s.img.layout p x.pubUnit then .error accUnbound
    else
      let v := versionGet s p x.pubUnit
      .ok (if isConf s p then 0
        else if o = 0x414 then w32 v.v
        else if o = 0x418 then w32 (v.v / 2 ^ 32)
        else packFields [(15, bit01 v.host), (0, v.req)])
  else if o = 0x684 then
    match xlPte s p x.xlPage with
    | none => .error accUnbound
    | some w => .ok w
  else match arrayAt o 0x980 32 with
    | some i =>
      let g := (partGet s p).ledger
      match lgShown g x.lgSel with
      | none => .error accUnbound
      | some n => .ok (windowWord (sliceBytes (tblGet (fun _ => []) g.entries (n % 65536)) (4 * i) 4))
    | none =>
      match readPartReg s x o with
      | some w => .ok w
      | none => .error accReserved

/-! ### Engine window (R41, R278) -/

/-- The physical engine that serves a logical number. -/
def servesLogical (s : State) (n : Nat) : Option Nat :=
  (List.range 272).find? (fun j => (engGet s j).logical = some n)

/-- The physical engine that the path's ENG_SEL names; none leaves the window unbound (R41, R44). -/
def selEngine (s : State) (x : PathState) : Option Nat :=
  match x.engMode with
  | 0 => if x.engIndex < 256 then servesLogical s x.engIndex else none
  | 1 =>
    let sls := partSlices s.img.layout x.partSel
    if (partGet s x.partSel).st = .unused ∨ 2 * sls.length ≤ x.engIndex then none
    else servesLogical s (2 * sls.getD (x.engIndex / 2) 0 + x.engIndex % 2)
  | _ => if x.engIndex < 272 then some x.engIndex else none

/-- The partition of the slice an engine serves. -/
def engPart (s : State) (e : Engine) : Option Nat := e.logical.bind (fun l => sliceOwner s.img.layout (l / 2))

/-- ENG_STATUS.STATE: an engine is clock-gated on an unassigned slice and outside D0 (R18, R398). -/
def engState (s : State) (e : Engine) : Nat :=
  if e.pruned then 4 else if e.trapped then 2
  else if (engPart s e).isNone ∨ s.pwr.state ≠ 0 then 3 else if e.busy then 1 else 0

def readEngReg (s : State) (i o : Nat) : Option Word :=
  let e := engGet s i
  let conf := match engPart s e with
    | none => false
    | some p => isConf s p
  let hide := fun (w : Word) => if conf then 0 else w
  match o with
  | 0x000 => some (packFields [(29, engState s e), (24, (engPart s e).getD 0), (23, bit01 e.lead),
      (16, if e.lead then e.slot else 0)])
  | 0x004 => some 0
  | 0x008 => some (packFields ((31, bit01 e.trapValid) :: (if conf then [] else [(14, e.trapSlot), (0, e.trapWord)])))
  | 0x010 => some (hide (w32 e.cntPart))
  | 0x014 => some (hide (w32 e.cntMac))
  | 0x018 => some (hide (w32 (e.cntMac / 2 ^ 32)))
  | 0x01C => some (hide (w32 e.cntBusy))
  | 0x020 => some (hide (w16 e.cntFault e.cntEmpty))
  | 0x030 => some (packFields [(30, if e.pruned then 2 else if e.logical.isNone then 1 else 0), (21, i),
      (12, e.logical.getD 0x1FF), (0, satTo 12 e.traps)])
  | _ => none

/-- The engine window. In physical mode the registers that do not respond read zero. -/
def readEngWin (s : State) (path : Path) (o : Nat) : Except Nat Word :=
  let x := pathGet s path
  match selEngine s x with
  | none => .error accUnbound
  | some i =>
    match readEngReg s i o with
    | none => .error accReserved
    | some w => .ok (if x.engMode = 2 ∧ o ≠ 0x030 then 0 else w)

/-! ### Port window (R113, R140, R164) -/

def readPort (s : State) (n o : Nat) : Option Word :=
  let p := portGet s n
  let c := p.cnt
  let cred := fun (i : Nat) => p.credits.getD i {}
  let lane := fun (i : Nat) => p.laneMap.getD i 7
  match o with
  | 0x000 => some 0
  | 0x004 => some (w32 (bit01 p.hold))
  | 0x008 => some (packFields [(24, p.cfg.cto), (22, p.cfg.maxw), (21, bit01 p.cfg.maxs), (19, p.cfg.depth), (3, p.cfg.rto),
      (0, p.cfg.rlim)])
  | 0x00C => some (packFields [(29, p.state), (25, p.cause), (23, p.width), (22, bit01 p.speed), (21, bit01 p.degraded),
      (20, bit01 p.resumed), (0, p.lepoch % 65536)])
  | 0x010 => some (packFields [(12, p.peerPort), (0, p.peerNode)])
  | 0x014 => some (packFields [(27, p.pruned % 32), (22, p.good % 32), (9, lane 3), (6, lane 2), (3, lane 1), (0, lane 0)])
  | 0x018 => some 0
  | 0x01C => some (w32 p.symLim)
  | 0x040 => some (w32 c.corr)
  | 0x044 => some (w32 c.uncorr)
  | 0x048 => some (w32 c.crc)
  | 0x04C => some (w16 c.dup c.gap)
  | 0x050 => some (w16 c.replayTimer c.replayNak)
  | 0x054 => some (w16 c.stale c.nakSent)
  | 0x058 => some (w16 c.resets c.lost)
  | 0x05C => some (w16 c.timeouts c.badRet)
  | 0x060 => some (packFields [(16, p.txNext % 4096), (0, p.rxExp % 4096)])
  | 0x064 => some (packFields [(16, p.replay.length),
      (0, match p.replay with
        | [] => p.txNext % 4096
        | f :: _ => f.seq % 4096)])
  | 0x100 => some (w32 c.thru)
  | 0x104 => some (w32 c.turn)
  | 0x108 => some (w32 c.inj)
  | 0x10C => some (w32 c.sink)
  | 0x110 => some (w32 c.bubble)
  | 0x114 =>
    let held := (portGet s n).state = 2 ∨ (portGet s n).state = 3
    some (w16 (if held then satTo 16 (s.fab.waiting.filter (fun e => e.out = n)).length else 0) c.dropped)
  | _ =>
    match arrayAt o 0x020 5, arrayAt o 0x080 8, arrayAt o 0x0A0 8, arrayAt o 0x0C0 8, arrayAt o 0x800 256 with
    | some i, _, _, _, _ => some (w32 (c.laneErr.getD i 0))
    | _, some i, _, _, _ => some (w16 (cred (2 * i)).avail (cred (2 * i)).peerAdv)
    | _, _, some i, _, _ => some (w16 (cred (2 * i + 1)).avail (cred (2 * i + 1)).peerAdv)
    | _, _, _, some i, _ => some (w16 (cred (2 * i + 1)).adv (cred (2 * i)).adv)
    | _, _, _, _, some i => some (histWord s p.hist p.histOld i)
    | _, _, _, _, _ => none

/-! ### Channel window (R43, R49, R113, R223, R224, R319) -/

/-- The channel that the path's STK_SEL names; none leaves the window unbound (R43, R44). -/
def selChan (s : State) (x : PathState) : Option Nat :=
  if !x.stkRel then
    if x.stkIndex % 32 ≤ 16 then some (17 * (x.stkIndex / 32) + x.stkIndex % 32) else none
  else
    let sls := partSlices s.img.layout x.partSel
    if (partGet s x.partSel).st = .unused ∨ sls.length ≤ x.stkIndex then none
    else some (chanOf s (sls.getD x.stkIndex 0))

/-- The logical slice whose channel this is: one that a spare in service has replaced serves none (R49). -/
def chanSlice (s : State) (c : Nat) : Option Nat :=
  (sliceOfChan s c).bind (fun sl => if chanOf s sl = c then some sl else none)

/-- STK_MAP (R49). -/
def stkMap (s : State) (c : Nat) : Word :=
  match chanSlice s c with
  | none => packFields [(0, 0xFF)]
  | some sl =>
    let l := s.img.layout
    match sliceOwner l sl with
    | none => packFields [(9, reserveOf l sl), (0, sl)]
    | some p => packFields [(31, 1), (25, (parentOf l (false, sl)).getD 0), (20, p), (9, reserveOf l sl), (0, sl)]

def readChanReg (s : State) (n o : Nat) : Option Word :=
  let c := chanGet s n
  let conf := match (chanSlice s n).bind (fun sl => sliceOwner s.img.layout sl) with
    | none => false
    | some p => isConf s p
  let hide := fun (w : Word) => if conf then 0 else w
  let spares := c.banks.map (fun b => b.2.repaired.length)
  match o with
  | 0x000 => some (stkMap s n)
  | 0x004 => some 0
  | 0x008 => some (packFields [(29, c.state), (27, if throttleMode s n then 1 else 2), (26, bit01 c.hot),
      (22, maskOf ((List.range 4).filter (fun i => (c.sids.getD i {}).down))), (21, bit01 c.drain)])
  | 0x00C => some (packFields [(20, c.idle), (8, c.pdn)])
  | 0x010 => some (packFields [(16, c.age), (8, c.whi), (0, c.wlo)])
  | 0x014 => some (packFields [(28, c.prob), (16, c.gap), (0, c.thresh)])
  | 0x018 => some (hide (w32 c.cnt.rhEvents))
  | 0x01C => some (hide (match c.rhLast with
    | none => 0
    | some r => packFields [(31, 1), (0, r)]))
  | 0x020 => some (packFields [(16, c.cnt.forced), (0, c.cnt.peak)])
  | 0x030 => some (hide (w32 c.cnt.rd))
  | 0x034 => some (hide (w32 c.cnt.wr))
  | 0x038 => some (hide (w32 c.cnt.act))
  | 0x03C => some (hide (w32 c.cnt.hit))
  | 0x040 => some (hide (w32 c.cnt.fwd))
  | 0x050 => some (packFields [(24, sumNat spares), (16, (spares.filter (fun k => decide (2 ≤ k))).length)])
  | 0x054 => some (packFields [(16, c.cnt.trainRuns), (8, c.cnt.trainFails)])
  | 0x058 => some (packFields [(31, bit01 (c.copying && decide (c.copied < 2304))), (0, c.copied)])
  | 0x060 => some (w16 c.cnt.ce c.cnt.ue)
  | _ => (arrayAt o 0x800 128).map (fun i => hide (histWord s c.hist c.histOld i))

def readChanWin (s : State) (path : Path) (o : Nat) : Except Nat Word :=
  match selChan s (pathGet s path) with
  | none => .error accUnbound
  | some n =>
    match readChanReg s n o with
    | none => .error accReserved
    | some w => .ok w

/-! ### The register space (R414, R415) -/

/-- The word a read of an offset returns, or the cause of its access error; the latch of R10 stands beside it. -/
def readSpace (s : State) (path : Path) (off : Nat) : Except Nat Word :=
  let o := off % 4096
  let named := fun (w : Option Word) => match w with
    | some w => Except.ok w
    | none => .error accReserved
  match off / 4096 with
  | 0x0 => named (readSys s path o)
  | 0x1 => named (readSelects s path o)
  | 0x2 => named (readImg s o)
  | 0x3 => named (readTd s path o)
  | 0x4 => named (readFab s o)
  | 0x5 => named (readCoh s o)
  | 0x6 => named (readStk s o)
  | 0x7 => named (readFl s o)
  | 0x8 => named (readEng s o)
  | 0x9 => named (readDi s path o)
  | 0xA => readEth s path o
  | 0xB => named (readSec s o)
  | 0xC => named (readTwn s o)
  | 0xD => named (readPwr s o)
  | 0x100 => readPartWin s path o
  | 0x110 => readEngWin s path o
  | 0x120 => named (readPort s (pathGet s path).kxSel o)
  | 0x130 => readChanWin s path o
  | _ =>
    if 0x30000 ≤ off ∧ off < 0x38000 then .ok (windowWord (mailBytes s (off - 0x30000) 4))
    else if 0x40000 ≤ off ∧ off < 0x50000 then .ok (windowWord (sliceBytes Config.certChain (off - 0x40000) 4))
    else if 0x1000000 ≤ off ∧ off < 0x2000000 then .ok (windowWord (stagingBytes s (off - 0x1000000) 4))
    else .error accReserved

/-- A _LO register of a 64-bit quantity (R10): its _HI stands at the next word. -/
def isLo (off : Nat) : Bool :=
  [0x3010, 0x6040, 0xA020, 0xA028, 0xA030, 0xA038, 0xA0A4, 0xB010, 0x100008, 0x100300, 0x100310, 0x100414, 0x100908,
   0x100910, 0x110014].contains off

/-- A _HI register. -/
def isHi (off : Nat) : Bool := decide (4 ≤ off) && isLo (off - 4)

/-- Whether a path can make an access at all: the management core runs, SMBus answers, Ethernet is up (R389, R393, R398,
R403). -/
def pathRuns (s : State) : Path → Bool
  | .core => decide (s.pwr.stage = .serving) && !s.twn.wdtHeld && decide (s.pwr.state < 2)
  | .smbus => smbServes s
  | .mgmtQp => decide (s.pwr.stage = .serving) && decide (s.pwr.state < 2)

/-- What refuses an access before it reaches a register: its width or alignment, or a block that is not served until the
management core is released (R9, R393). -/
def accessRefused (s : State) (off width : Nat) : Option Nat :=
  if width ≠ 4 ∨ off % 4 ≠ 0 then some accWidth
  else if s.pwr.stage ≠ .serving ∧ off / 4096 ≠ 0xD then some accUnserved
  else none

/-- What a path's state keeps of the word a read returned. -/
def took (s : State) (path : Path) (w : Word) : State := pathMod s path (fun x => { x with data := w })

/-- What a read of the partition window's XL_PTE or LG_ENTRY finds in the reserves (R307). -/
def readStored (s : State) (path : Path) (off : Nat) : State :=
  let x := pathGet s path
  let p := x.partSel
  if off = 0x100684 then readUnit s p x.xlPage
  else match arrayAt off 0x100980 32, lgShown (partGet s p).ledger x.lgSel with
    | some i, some n => lgRead s p n i
    | _, _ => s

/-- A read of a register (R9, R10, R415): a read of _LO latches the matching _HI value, and that of TD_PTIME_LO also
TD_PTIME_SUB (R111); a read of _HI takes the latch. -/
def readReg (s : State) (path : Path) (off width clk : Nat) : State × Word :=
  if !pathRuns s path then (s, 0)
  else match accessRefused s off width with
    | some c => (took (recordErr s path c off) path 0, 0)
    | none =>
      let s := readStored s path off
      match readSpace s path off with
      | .error c => (took (recordErr s path c off) path 0, 0)
      | .ok w =>
        if isLo off then
          let hi := match readSpace s path (off + 4) with
            | .ok h => h
            | .error _ => 0
          let s := pathMod s path (fun x => { x with latch := some (off + 4, hi) })
          let s := if off = 0x3010 then pathMod s path (fun x => { x with ptSub := subOf s clk % 2 ^ 14 }) else s
          (took s path w, w)
        else if isHi off then
          match (pathGet s path).latch with
          | some (a, h) =>
            if a = off then (took (pathMod s path (fun x => { x with latch := none })) path h, h) else (took s path w, w)
          | none => (took s path w, w)
        else (took s path w, w)

end Sys2Proof.Machine
end

