-- ==== Sys2Proof/Machine/RegWrite.lean ====
section
/-! DEFINITION. What a write of each register does under its access codes (R9 to R12, R38 to R44, R414 to R418 and the
register tables of every chapter). A block's function answers none where no register table names the offset. -/

namespace Sys2Proof.Machine

/-! ### Fields -/

/-- Field [lo + len − 1 : lo] of a written word. -/
def fld (v : Word) (lo len : Nat) : Nat := bitsOf v.toNat lo len

/-- A field that a written 0 leaves unchanged. -/
def unlessZero (new old : Nat) : Nat := if new = 0 then old else new

/-- A field that one written value leaves unchanged. -/
def unlessVal (bad new old : Nat) : Nat := if new = bad then old else new

/-- A read-only register: the write is ignored where the offset is named (R11, R415). -/
def ignoreIf (s : State) (named : Option Word) : Option State := named.map (fun _ => s)

/-! ### System block and selects (R40 to R43, R416) -/

/-- What a clearing write leaves of SYS_ACCERR: ERR falls and the record stands; with an error in the same clk ERR stays set
and that error is recorded (R11, R417). -/
def errCleared (a : AccErr) (now : Bool) : AccErr :=
  if !now then { a with err := false, later := none }
  else match a.later with
    | none => a
    | some (c, o) => { err := a.err, cause := c, off := o }

def writeSys (s : State) (path : Path) (o : Nat) (v : Word) : Option State :=
  if o = 0x004 then
    some (if v.getLsbD 31 then pathMod s path (fun x => { x with acc := errCleared x.acc (setNow s (pathCode path)) }) else s)
  else ignoreIf s (readSys s path o)

/-- A write of ENG_SEL: the reserved MODE leaves MODE and INDEX (R41). -/
def writeEngSel (s : State) (path : Path) (v : Word) : State :=
  if fld v 30 2 = 3 then s
  else pathMod s path (fun x => { x with engMode := fld v 30 2, engIndex := fld v 0 9 })

def writeSelects (s : State) (path : Path) (o : Nat) (v : Word) : Option State :=
  match o with
  | 0x000 => some (pathMod s path (fun x => { x with partSel := fld v 0 5 }))
  | 0x004 => some (writeEngSel s path v)
  | 0x008 => some (pathMod s path (fun x => { x with kxSel := fld v 0 3 }))
  | 0x00C => some (pathMod s path (fun x => { x with stkRel := v.getLsbD 31, stkIndex := fld v 0 8 }))
  | _ => ignoreIf s (readSelects s path o)

/-! ### Image, traffic, fabric and coherence blocks -/

/-- IMG_CTRL: FLOOR, then ABORT, then GO of one write (R79). -/
def writeImgCtrl (s : State) (v : Word) : State :=
  let s := if v.getLsbD 2 then imageFloor s else s
  let s := if v.getLsbD 1 then imageAbort s else s
  if v.getLsbD 0 then imageGo s else s

def writeImg (s : State) (o : Nat) (v : Word) : Option State :=
  match o with
  | 0x000 => some (writeImgCtrl s v)
  | 0x00C => some (if clears s 3 (v.getLsbD 31) then { s with img := { s.img with refused := false } } else s)
  | _ => ignoreIf s (readImg s o)

def writeTd (s : State) (path : Path) (o : Nat) (v : Word) : Option State :=
  match o with
  | 0x000 =>
    let s := if v.getLsbD 2 then clearSyncErr s else s
    let s := writeFreerun s (v.getLsbD 0)
    some (if v.getLsbD 1 then relock s else s)
  | 0x004 => some (if clears s 4 (v.getLsbD 29) then { s with td := { s.td with hold := false } } else s)
  | _ => ignoreIf s (readTd s path o)

/-- FAB_CTRL.CLR zeroes the counters of R163 and, in every port, those of R164. -/
def clearFab (s : State) : State :=
  let s := { s with fab := { s.fab with
    unroutable := 0, hops := 0, opcodeErr := 0, frameErr := 0, badMc := 0, refusedMc := 0, mcSunk := 0 } }
  (List.range 8).foldl (fun s n => portCnt s n (fun c => { c with
    thru := 0, turn := 0, inj := 0, sink := 0, bubble := 0, dropped := 0 })) s

def writeFab (s : State) (o : Nat) (v : Word) : Option State :=
  if o = 0x004 then some (if v.getLsbD 0 then clearFab s else s) else ignoreIf s (readFab s o)

/-- COH_CTRL.CLR zeroes the counters of R186 and R187; PEAK counts anew from the entries in use. -/
def clearCoh (s : State) : State :=
  let s := { s with coh := { s.coh with halves := (List.range 2).map (fun h =>
    let x := s.coh.halves.getD h {}
    { lost := x.lost, grafted := x.grafted, peak := openEntries s h }) } }
  (List.range 32).foldl (fun s p => partCnt s p (fun c => { c with poisoned := 0, cohRetry := 0 })) s

def writeCoh (s : State) (o : Nat) (v : Word) : Option State :=
  match o with
  | 0x000 => some { s with coh := { s.coh with sto := unlessZero (fld v 0 8) s.coh.sto } }
  | 0x004 => some (if v.getLsbD 0 then clearCoh s else s)
  | _ => ignoreIf s (readCoh s o)

/-! ### Stack, flash, engine and integrity blocks -/

def writeStk (s : State) (o : Nat) (v : Word) : Option State :=
  match arrayAt o 0x000 6 with
  | some i => some { s with stk := { s.stk with xmap := setAt s.stk.xmap i (fld v 0 17) } }
  | none => ignoreIf s (readStk s o)

def writeFl (s : State) (o : Nat) (v : Word) : Option State :=
  let f := s.fl
  match o with
  | 0x000 => some { s with fl := { f with
      hint := unlessZero (fld v 28 4) f.hint, rdbits := fld v 20 8, rdlim := unlessZero (fld v 12 8) f.rdlim,
      clean := fld v 8 4 } }
  | 0x004 => some { s with fl := { f with
      retain := unlessZero (fld v 16 16) f.retain, spread := max 16 (fld v 0 16) } }
  | 0x008 =>
    let s := if v.getLsbD 0 then clearFlash s else s
    some (if v.getLsbD 1 then graftFlash s else s)
  | _ => ignoreIf s (readFl s o)

def writeDi (s : State) (path : Path) (o : Nat) (v : Word) : Option State :=
  let d := s.di
  match o with
  | 0x000 =>
    let s := if v.getLsbD 0 then clearDi s else s
    some (if v.getLsbD 1 then clearLog s else s)
  | 0x004 => some { s with di := { d with off := v.getLsbD 31, period := unlessZero (fld v 0 8) d.period } }
  | 0x008 => some (if clears s 5 (v.getLsbD 31) then { s with di := { d with late := false } } else s)
  | 0x02C => some (pathMod s path (fun x => { x with diLogSel := fld v 0 8 }))
  | 0x050 => some { s with di := { d with
      faultStatus := d.faultStatus - (d.faultStatus &&& clearMask s 16 (v.toNat &&& 0x3FE)) } }
  | 0x054 => some { s with di := { d with faultMask := v.toNat &&& 0x1FE } }
  | 0x058 => some (armInject s v)
  | _ => ignoreIf s (readDi s path o)

/-! ### Ethernet block (R324, R336, R337) -/

/-- A write of ETH_QP_CFG: the fields beside STATE only while the queue pair is in RESET, then STATE (R324). -/
def writeQpCfg (s : State) (qi : Nat) (v : Word) : State :=
  let s := qpMod (tearDue s) qi (fun q =>
    if q.state ≠ 0 then q
    else { q with port := fld v 28 2, mtu := unlessVal 3 (fld v 26 2) q.mtu, part := fld v 21 5, rnrRetry := fld v 18 3,
                  retry := fld v 15 3, host := fld v 0 12 })
  writeQpState s qi (fld v 30 2)

/-- The other registers of a queue pair are written in RESET alone (R324, R337). -/
def writeQpField (s : State) (qi : Nat) (f : Qp → Qp) : State :=
  qpMod (tearDue s) qi (fun q => if q.state ≠ 0 then q else f q)

def writeQp (s : State) (qi o : Nat) (v : Word) : Option State :=
  match o with
  | 0x084 => some (writeQpCfg s qi v)
  | 0x088 => some (writeQpField s qi (fun q => { q with dqpn := fld v 0 24 }))
  | 0x08C => some (writeQpField s qi (fun q => { q with rpsn := fld v 0 24 }))
  | 0x090 => some (writeQpField s qi (fun q => { q with spsn := fld v 0 24 }))
  | _ =>
    match arrayAt o 0x094 4 with
    | some n => some (writeQpField s qi (fun q => { q with ip := setAt q.ip n v }))
    | none => ignoreIf s (readQp s qi o)

def writeEth (s : State) (path : Path) (o : Nat) (v : Word) : Except Nat State :=
  let x := pathGet s path
  if o = 0x080 then .ok (pathMod s path (fun x => { x with ethQpSel := fld v 0 13 }))
  else if inQpWindow o then
    if 4096 < x.ethQpSel then .error accUnbound
    else match writeQp s x.ethQpSel o v with
      | some s => .ok s
      | none => .error accReserved
  else match arrayAt o 0x000 4, arrayAt o 0x100 64 with
    | some p, _ => .ok (writePhy s p (fld v 28 2))
    | _, some n => .ok { s with eth := { s.eth with ip := tblSet (fun _ => 0) s.eth.ip n v } }
    | _, _ =>
      match readEth s path o with
      | .ok _ => .ok s
      | .error c => .error c

/-! ### Security block (R358, R364, R365) -/

/-- SEC_CMD with GO: the operation begins. FW_STAGE is BUSY until the firmware slot has been read. -/
def secOperation (s : State) (op : Nat) : State :=
  match op with
  | 1 => quoteGo s
  | 2 => keysetGo s
  | 3 => ownerGo s
  | 4 => sealGo s
  | 5 => secGo s 5 id
  | 6 => fwActivateGo s
  | 7 => fwCommitGo s
  | n => secGo s n (fun s => secEnd s secBadFormat)

/-- A write of SEC_CMD: the fields are stored; a GO while BUSY is ignored (R364). -/
def writeSecCmd (s : State) (v : Word) : State :=
  let s := { s with sec := { s.sec with
    cmdIndex := fld v 16 8, cmdDev := v.getLsbD 15, cmdPart := fld v 8 5, cmdOp := fld v 0 4 } }
  if v.getLsbD 31 then secOperation s (fld v 0 4) else s

def writeSec (s : State) (o : Nat) (v : Word) : Option State :=
  match o with
  | 0x000 => some (writeSecCmd s v)
  | 0x040 => some (if clears s 6 (v.getLsbD 29) then { s with sec := { s.sec with rollback := false } } else s)
  | _ => ignoreIf s (readSec s o)

/-! ### Twin and failure block (R390), power block (R412) -/

/-- FNC_CTRL: GO applies the write. -/
def writeFence (s : State) (v : Word) : State :=
  if !v.getLsbD 31 then s
  else if v.getLsbD 30 then clearFence s (v.getLsbD 15) (fld v 0 12)
  else addFence s (v.getLsbD 15) (fld v 0 12)

/-- RST_CTRL: KIND and PART are stored, then GO. -/
def writeReset (s : State) (v : Word) : State :=
  let s := { s with twn := { s.twn with rstKind := fld v 29 2, rstPart := fld v 0 5 } }
  if v.getLsbD 31 then startReset s (fld v 29 2) (fld v 0 5) else s

def writeTwn (s : State) (o : Nat) (v : Word) : Option State :=
  let t := s.twn
  match o with
  | 0x004 => some { s with twn := { t with
      shadow := unlessZero (fld v 24 8) t.shadow, ackto := max 4 (fld v 16 8),
      copyRate := unlessZero (fld v 0 16) t.copyRate } }
  | 0x008 =>
    let s := if v.getLsbD 0 then clearTwin s else s
    some (if v.getLsbD 1 then releaseLead s else s)
  | 0x020 => some (writeFence s v)
  | 0x030 => some (writeReset s v)
  | 0x040 => some { s with twn := { t with
      wdtEn := v.getLsbD 31, wdtTimeout := unlessZero (fld v 0 16) t.wdtTimeout } }
  | 0x044 => some (kickWatchdog s (fld v 0 16))
  | _ => ignoreIf s (readTwn s o)

def writePwr (s : State) (o : Nat) (v : Word) : Option State :=
  let w := s.pwr
  match o with
  | 0x000 => some (writeTarget s (fld v 0 2))
  | 0x040 => some { s with pwr := { w with
      warn := min 110 (fld v 24 8), thermThrottle := min 110 (fld v 16 8), stThrottle := min 100 (fld v 8 8) } }
  | 0x044 => some { s with pwr := { w with fault := w.fault - (w.fault &&& clearMask s 8 (v.toNat &&& 0x1F)) } }
  | 0x048 => some { s with pwr := { w with alertMask := fld v 16 5, faultMask := fld v 0 5 } }
  | _ => ignoreIf s (readPwr s o)

/-! ### Partition window -/

/-- A write of SQ_CTL, SQ_CMD or SQ_CPL: only while the pair is DISABLED (R281). -/
def writeSqArea (s : State) (p q : Nat) (f : Pair → Pair) : State :=
  pairMod s p q (fun x => if x.state ≠ 0 ∨ x.enabling then x else f x)

/-- Bits [26:6] of a written word, in place. -/
def areaField (v : Word) : Nat := fld v 6 21 * 64

def writeSq (s : State) (p q o : Nat) (v : Word) : Option State :=
  match o with
  | 0x604 => some (writeSqCfg s p q v)
  | 0x608 => some (writeSqArea s p q (fun x => { x with ctl := areaField v }))
  | 0x60C => some (writeSqArea s p q (fun x => { x with cmd := areaField v }))
  | 0x610 => some (writeSqArea s p q (fun x => { x with cpl := areaField v }))
  | 0x620 =>
    let s := if v.getLsbD 1 then clearPair s p q else s
    some (if v.getLsbD 0 then restartPair s p q else s)
  | _ => ignoreIf s (readSq s p q false o)

/-- W1C of COH_AGENT_n.STALL (R187). -/
def clearStall (s : State) (p n : Nat) (v : Word) : State :=
  if clears s (1024 + 64 * p + n) (v.getLsbD 29) then
    partMod s p (fun x => if x.stall.testBit n then { x with stall := x.stall ^^^ (1 <<< n) } else x)
  else s

def writePartReg (s : State) (path : Path) (o : Nat) (v : Word) (clk : Nat) : Option State :=
  let x := pathGet s path
  let p := x.partSel
  match o with
  | 0x100 => some (pathMod s path (fun x => { x with flowHost := v.getLsbD 15, flowReq := fld v 0 12 }))
  | 0x108 => some (writeFlowLimit s (selFlow x) (fld v 0 16))
  | 0x40C => some (if v.getLsbD 0 then clearPub s p else s)
  | 0x410 => some (pathMod s path (fun x => { x with pubUnit := fld v 0 26 }))
  | 0x600 => some (pathMod s path (fun x => { x with sqSel := fld v 0 6 }))
  | 0x680 => some (pathMod s path (fun x => { x with xlPage := fld v 0 26 }))
  | 0x688 => some (pathMod s path (fun x => { x with xlSrc := fld v 0 26 }))
  | 0x68C => some (startMapOp s p (fld v 30 2) x.xlPage x.xlSrc (fld v 0 19) clk)
  | 0x918 => some (pathMod s path (fun x => { x with lgSel := fld v 0 16 }))
  | _ =>
    if 0x604 ≤ o ∧ o ≤ 0x624 then writeSq s p x.sqSel o v
    else match arrayAt o 0x200 64 with
      | some n => some (clearStall s p n v)
      | none => ignoreIf s (readPartReg s x o)

/-- The partition window: a write where the read finds the registers unbound, or no register, is an access error. -/
def writePart (s : State) (path : Path) (o : Nat) (v : Word) (clk : Nat) : Except Nat State :=
  match readPartWin s path o with
  | .error c => .error c
  | .ok _ => match writePartReg s path o v clk with
    | some s => .ok s
    | none => .ok s

/-! ### Engine, port and channel windows -/

/-- ENG_CTRL: CLR, RESUME and PRUNE; in physical mode PRUNE alone (R278). -/
def writeEngCtrl (s : State) (i : Nat) (physical : Bool) (v : Word) : State :=
  let l := (engGet s i).logical
  let s := match l with
    | none => s
    | some n =>
      if physical then s
      else
        let s := if v.getLsbD 0 then clearEngine s n else s
        if v.getLsbD 1 then resumeEngine s n else s
  if v.getLsbD 2 then pruneEngine s i else s

def writeEngWin (s : State) (path : Path) (o : Nat) (v : Word) : Except Nat State :=
  let x := pathGet s path
  match selEngine s x with
  | none => .error accUnbound
  | some i =>
    if o = 0x004 then .ok (writeEngCtrl s i (decide (x.engMode = 2)) v)
    else match readEngReg s i o with
      | none => .error accReserved
      | some _ => .ok s

/-- KX_CFG (R140). -/
def writeKxCfg (c : KxCfg) (v : Word) : KxCfg :=
  { cto := unlessZero (fld v 24 8) c.cto, maxw := unlessVal 3 (fld v 22 2) c.maxw, maxs := v.getLsbD 21,
    depth := unlessVal 3 (fld v 19 2) c.depth, rto := max 256 (fld v 3 16), rlim := unlessZero (fld v 0 3) c.rlim }

/-- KX_CTRL: CLR, then FRESH on a port that a reset can start from, else RETRAIN (R140). -/
def writeKxCtrl (s : State) (n : Nat) (v : Word) : State :=
  let s := if v.getLsbD 2 then clearPort s n else s
  if v.getLsbD 1 ∧ portLive (portGet s n) then freshReset s n else if v.getLsbD 0 then retrain s n else s

def writePort (s : State) (n o : Nat) (v : Word) : Option State :=
  match o with
  | 0x000 => some (writeKxCtrl s n v)
  | 0x004 => some (writeHold s n (v.getLsbD 0))
  | 0x008 => some (portMod s n (fun p => { p with cfg := writeKxCfg p.cfg v }))
  | 0x018 => some (pruneLanes (restoreLanes s n (fld v 8 5)) n (fld v 0 5))
  | 0x01C => some (portMod s n (fun p => { p with symLim := fld v 0 16 }))
  | _ => ignoreIf s (readPort s n o)

/-- STK_CTRL: CLR, PRUNE, GRAFT (R220, R221, R223). -/
def writeStkCtrl (s : State) (n : Nat) (v : Word) : State :=
  let s := if v.getLsbD 0 then clearChan s n else s
  let s := if v.getLsbD 1 then pruneChan s n true else s
  if v.getLsbD 2 then startGraft s n else s

/-- STK_SCHED: WLO ≥ WHI or WHI > 64 leaves both fields (R223). -/
def writeSched (c : Chan) (v : Word) : Chan :=
  let whi := fld v 8 8
  let wlo := fld v 0 8
  let c := { c with age := max 64 (fld v 16 16) }
  if whi ≤ wlo ∨ 64 < whi then c else updateDrain { c with whi := whi, wlo := wlo }

def writeChanReg (s : State) (n o : Nat) (v : Word) : Option State :=
  match o with
  | 0x004 => some (writeStkCtrl s n v)
  | 0x00C => some (chanMod s n (fun c => { c with idle := fld v 20 12, pdn := fld v 8 12 }))
  | 0x010 => some (chanMod s n (fun c => writeSched c v))
  | 0x014 => some (chanMod s n (fun c => { c with
      prob := max 6 (fld v 28 4), gap := unlessZero (fld v 16 12) c.gap, thresh := max 256 (fld v 0 16) }))
  | _ => ignoreIf s (readChanReg s n o)

def writeChanWin (s : State) (path : Path) (o : Nat) (v : Word) : Except Nat State :=
  match selChan s (pathGet s path) with
  | none => .error accUnbound
  | some n =>
    match writeChanReg s n o v with
    | none => .error accReserved
    | some s => .ok s

/-! ### Data windows (R364, R415, R418) -/

def stagingStore (s : State) : Nat → List Byte → State
  | _, [] => s
  | off, b :: bs => stagingStore { s with staging := tblSet (fun _ => 0) s.staging off b } (off + 1) bs

/-- The staging window is closed while a load runs, and while an OWNER or SEAL operation does. -/
def stagingBusy (s : State) : Bool :=
  decide (s.img.phase ≠ 0) || (s.sec.busy && (decide (s.sec.op = 3) || decide (s.sec.op = 4)))

def writeWindow (s : State) (off : Nat) (v : Word) : Except Nat State :=
  if 0x30000 ≤ off ∧ off < 0x38000 then
    if s.sec.busy then .error accBusy else .ok (mailStore s (off - 0x30000) (leBytes 4 v.toNat))
  else if 0x40000 ≤ off ∧ off < 0x50000 then .ok s
  else if 0x1000000 ≤ off ∧ off < 0x2000000 then
    if stagingBusy s then .error accBusy else .ok (stagingStore s (off - 0x1000000) (leBytes 4 v.toNat))
  else .error accReserved

/-! ### The register space (R414, R415) -/

/-- The state a write of one word leaves, or the cause of its access error; the held write of R10 stands beside it. -/
def writeSpace (s : State) (path : Path) (off : Nat) (v : Word) (clk : Nat) : Except Nat State :=
  let o := off % 4096
  let named := fun (r : Option State) => match r with
    | some s => Except.ok s
    | none => .error accReserved
  match off / 4096 with
  | 0x0 => named (writeSys s path o v)
  | 0x1 => named (writeSelects s path o v)
  | 0x2 => named (writeImg s o v)
  | 0x3 => named (writeTd s path o v)
  | 0x4 => named (writeFab s o v)
  | 0x5 => named (writeCoh s o v)
  | 0x6 => named (writeStk s o v)
  | 0x7 => named (writeFl s o v)
  | 0x8 => named (ignoreIf s (readEng s o))
  | 0x9 => named (writeDi s path o v)
  | 0xA => writeEth s path o v
  | 0xB => named (writeSec s o v)
  | 0xC => named (writeTwn s o v)
  | 0xD => named (writePwr s o v)
  | 0x100 => writePart s path o v clk
  | 0x110 => writeEngWin s path o v
  | 0x120 => named (writePort s (pathGet s path).kxSel o v)
  | 0x130 => writeChanWin s path o v
  | _ => writeWindow s off v

/-- The whole 64-bit value of a pair takes effect: STK_DECODE, ETH_QP_MAC and LG_TAIL are the writable ones (R10). -/
def commitPair (s : State) (path : Path) (lo : Nat) (low high : Word) : State :=
  let x := pathGet s path
  match lo with
  | 0x6040 => { s with stk := { s.stk with decode := low.toNat + 2 ^ 32 * (high.toNat % 2) } }
  | 0xA0A4 => writeQpField s x.ethQpSel (fun q => { q with macLo := low, macHi := high })
  | 0x100910 => writeTail s x.partSel (low.toNat + 2 ^ 32 * high.toNat)
  | _ => s

/-- A _LO that a write holds: the other pairs' are read-only, and a write of them is ignored (R10, R11). -/
def heldLo (off : Nat) : Bool := off = 0x6040 || off = 0xA0A4 || off = 0x100910

/-- The low half of a pair now. -/
def lowNow (s : State) (path : Path) (lo : Nat) : Word := match readSpace s path lo with
  | .ok w => w
  | .error _ => 0

/-- A write of a register (R9, R10, R415): a write of _LO is held on its path; one of _HI commits the pair. -/
def writeReg (s : State) (path : Path) (off width : Nat) (v : Word) (clk : Nat) : State :=
  if !pathRuns s path then s
  else match accessRefused s off width with
    | some c => recordErr s path c off
    | none =>
      if isLo off ∨ isHi off then
        match readSpace s path off with
        | .error c => recordErr s path c off
        | .ok _ =>
          if isLo off then if heldLo off then pathMod s path (fun x => { x with held := some (off, v) }) else s
          else
            let lo := off - 4
            match (pathGet s path).held with
            | some (a, w) =>
              if a = lo then commitPair (pathMod s path (fun x => { x with held := none })) path lo w v
              else commitPair s path lo (lowNow s path lo) v
            | none => commitPair s path lo (lowNow s path lo) v
      else match writeSpace s path off v clk with
        | .error c => recordErr s path c off
        | .ok s => s

end Sys2Proof.Machine
end

