-- ==== Sys2Proof/Machine/Registers.lean ====
section
/-! DEFINITION. The commands of the management paths: register reads and writes (R9 to R12, R38 to R44), SMBus (R402 to
R404) and the management queue pair (R334, R343). -/

namespace Sys2Proof.Machine

/-! ### Register accesses -/

/-- REGISTER_WRITE (R11): a write of any register by a path. -/
def execRegisterWrite (path : Path) (off width : Nat) (value : Word) (clk : Nat) (s : State) :
    Host.Outcome State Fault Refusal :=
  .next (writeReg (seenClk s clk) path off width value clk)

/-- READ_LO_LATCH (R10): a read by a path; one of a _LO register latches the matching _HI value. -/
def execReadLoLatch (path : Path) (off width clk : Nat) (s : State) : Host.Outcome State Fault Refusal :=
  .next (readReg (seenClk s clk) path off width clk).1

/-- WRITE_LO_HELD (R10): a write of a _LO register is held on its path. -/
def execWriteLoHeld (path : Path) (off : Nat) (value : Word) (s : State) : Host.Outcome State Fault Refusal :=
  .next (if isLo off then writeReg s path off 4 value s.td.now else s)

/-- WRITE_HI_COMMIT (R10): a write of a _HI register applies the whole 64-bit value. -/
def execWriteHiCommit (path : Path) (off : Nat) (value : Word) (clk : Nat) (s : State) :
    Host.Outcome State Fault Refusal :=
  .next (if isHi off then writeReg (seenClk s clk) path off 4 value clk else s)

/-- ENG_SEL_WRITE (R41). -/
def execEngSelWrite (path : Path) (value : Word) (s : State) : Host.Outcome State Fault Refusal :=
  .next (writeReg s path 0x1004 4 value s.td.now)

/-! ### SMBus (R402, R403, R404) -/

/-- An addressed SMBus transaction: in D3 the address match wakes the device; while it does not answer, and where its
byte count is not the one listed, it is NACKed; a packet error code that a write carries and that is wrong is NACKed and
counted (R402). -/
def smbTransaction (s : State) (code : Byte) (count : Nat) (bytes : List Byte) (pec : Option Byte) (f : State → State) :
    State :=
  if asleep s then wake s
  else if !smbServes s ∨ bytes.length ≠ count then emit s .smbNack
  else if pec.any (· != smbPec ([smbByte s false, code, BitVec.ofNat 8 bytes.length] ++ bytes)) then emit { s with pwr := { s.pwr with pecErr := sat8 s.pwr.pecErr } } .smbNack
  else f s

/-- SMB_READ_BYTE: command 0x01. -/
def execSmbReadByte (s : State) : Host.Outcome State Fault Refusal :=
  .next (smbTransaction s 0x01 0 [] none (fun s =>
    let b := BitVec.ofNat 8 ((pwrStatus s).toNat / 2 ^ 24)
    emit s (.smbus [b] (smbReadPec s 0x01 [b]))))

/-- SMB_REGISTER_WRITE: command 0x10, offset then data, least significant byte first. -/
def execSmbRegisterWrite (bytes : List Byte) (pec : Option Byte) (clk : Nat) (s : State) :
    Host.Outcome State Fault Refusal :=
  .next (smbTransaction (seenClk s clk) 0x10 8 bytes pec
    (fun s => writeReg s .smbus (leNat (bytes.take 4)) 4 (w32 (leNat (bytes.drop 4))) clk))

/-- SMB_SET_READ_OFFSET: command 0x11. -/
def execSmbSetReadOffset (bytes : List Byte) (pec : Option Byte) (s : State) : Host.Outcome State Fault Refusal :=
  .next (smbTransaction s 0x11 4 bytes pec (fun s => { s with pwr := { s.pwr with smbOffset := leNat bytes } }))

/-- SMB_REGISTER_READ: command 0x12 returns the count and the register at the read offset. -/
def execSmbRegisterRead (clk : Nat) (s : State) : Host.Outcome State Fault Refusal :=
  .next (smbTransaction (seenClk s clk) 0x12 0 [] none (fun s =>
    let (s, w) := readReg s .smbus s.pwr.smbOffset 4 clk
    emit s (.smbus (4 :: leBytes 4 w.toNat) (smbReadPec s 0x12 (4 :: leBytes 4 w.toNat)))))

/-! ### Management queue pair (R331, R334, R335, R343) -/

/-- The oldest kept datagram for the management queue pair, and the state without it. -/
def takeMgmt (s : State) : Option (RocePacket × State) :=
  match takeFirst (fun e => decide (e.2.destQp.toNat = 2)) s.eth.kept with
  | none => none
  | some (e, rest) =>
    some (e.2, noteEthWait { s with eth := { s.eth with kept := rest } } e.1.1 (s.td.now - e.1.2))

/-- Data bytes of one packet at most: every payload is an envelope (R343, R349). -/
def mgmtChunk (q : Qp) : Nat := mtuBytes q - 24

/-- A range the path may name: aligned words below 0x0200_0000. -/
def mgmtRange (va n : Nat) : Bool := decide (va % 4 = 0) && decide (n % 4 = 0) && decide (va + n ≤ 2 ^ 25)

/-- Read the words of a range in ascending offset. -/
def readWords (clk : Nat) : Nat → State → Nat → State × List Byte
  | 0, s, _ => (s, [])
  | n + 1, s, off =>
    let (s, w) := readReg s .mgmtQp off 4 clk
    let (s, bs) := readWords clk n s (off + 4)
    (s, leBytes 4 w.toNat ++ bs)

/-- Write the words of a range in ascending offset. -/
def writeWords (clk : Nat) : Nat → State → Nat → List Byte → State
  | 0, s, _, _ => s
  | n + 1, s, off, bs => writeWords clk n (writeReg s .mgmtQp off 4 (w32 (leNat (bs.take 4))) clk) (off + 4) (bs.drop 4)

/-- A READ: at most 4 KiB but within the staging window. A duplicate is executed again. -/
def mgmtRead (s : State) (clk : Nat) (again : Bool) (p : RocePacket) : State :=
  let q := qpGet s 4096
  let psn := p.psn.toNat
  let va := p.va.toNat
  let n := p.dmaLen.toNat
  if n ≠ 0 ∧ (!mgmtRange va n ∨ (4096 < n ∧ va < 0x1000000)) ∨ 2 ^ 24 < n ∨ (!again ∧ q.msg ≠ 0) then
    fatalNak s 4096 psn 0x61
  else
    let (s, bs) := readWords clk (n / 4) s va
    let ps := readResponses q (mgmtChunk q) psn bs
    let s := if again then s else
      qpMod s 4096 (fun q => { q with epsn := (psn + ps.length) % 2 ^ 24, gap := false })
    ps.foldl (fun s r => sendRoce s 4096 none r) s

/-- A WRITE packet: its words are written, and the last packet of a message, or one with AckReq, is ACKed. -/
def mgmtWrite (s : State) (clk : Nat) (key : List Byte) (p : RocePacket) : State :=
  let q := qpGet s 4096
  let psn := p.psn.toNat
  let op := p.opcode.toNat
  let first := decide (op = 0x06 ∨ op = 0x0A)
  let last := decide (op = 0x08 ∨ op = 0x0A)
  match (if p.payload = [] then some [] else openBytes key 0x4001 (roceAad p) p.payload) with
  | none => roceBadTag s 4096 p
  | some bs =>
    let va := if first then p.va.toNat else q.wrAddr
    let left := if first then p.dmaLen.toNat else q.wrLeft
    let fits := if last then decide (bs.length = left ∧ left ≤ mgmtChunk q)
      else decide (bs.length = mgmtChunk q ∧ mgmtChunk q < left)
    if q.msg ≠ (if first then 0 else 1) ∨ !fits ∨ 2 ^ 24 < left ∨ (left ≠ 0 ∧ !mgmtRange va left) then
      fatalNak s 4096 psn 0x61
    else
      let s := qpMod s 4096 (fun q => { q with
        epsn := (psn + 1) % 2 ^ 24, gap := false, msg := if last then 0 else 1, wrAddr := va + bs.length,
        wrLeft := left - bs.length })
      let s := writeWords clk (bs.length / 4) s va bs
      if last || p.ackReq then sendRoce s 4096 none (rocePacket q 0x11 psn 0x1F []) else s

/-- One datagram of the management queue pair: without a management key every operation is NAKed; only READ and WRITE are
accepted. -/
def mgmtPacket (s : State) (clk : Nat) (p : RocePacket) : State :=
  let q := qpGet s 4096
  let psn := p.psn.toNat
  if roceKind p.opcode.toNat = .ack then s
  else match qpTurn q p, s.sec.mgmtKey with
  | .drop, _ => s
  | _, none => fatalNak s 4096 psn 0x62
  | .gap, _ => seqNak s 4096
  | .duplicate, some _ =>
    match roceKind p.opcode.toNat with
    | .read => mgmtRead s clk true p
    | .write =>
      if p.opcode = 0x08 ∨ p.opcode = 0x0A ∨ p.ackReq then sendRoce s 4096 none (rocePacket q 0x11 psn 0x1F []) else s
    | _ => s
  | .expected, some k =>
    match roceKind p.opcode.toNat with
    | .read => mgmtRead s clk false p
    | .write => mgmtWrite s clk k p
    | _ => fatalNak s 4096 psn 0x61

/-- MGMT_QP_ACCESS (R334). -/
def execMgmtQpAccess (clk : Nat) (s : State) : Host.Outcome State Fault Refusal :=
  let s := seenClk s clk
  if !pathRuns s .mgmtQp then .next s
  else match takeMgmt s with
    | none => .next s
    | some (p, s) => .next (mgmtPacket s clk p)

end Sys2Proof.Machine
end

