-- ==== Sys2Proof/Machine/Tick.lean ====
section
/-! DEFINITION. The frame tick (R83 to R87, R94, R95, R100, R103 to R106): what happens at clk 0 to 2 of a frame, in the
fixed order of R87, and what other blocks do at a tick. -/

namespace Sys2Proof.Machine

/-! ### When a tick falls (R84, R108) -/

/-- Powered time runs: from t1 on, but not in D3. -/
def ticking (s : State) : Bool :=
  (decide (s.pwr.stage = .filling) || decide (s.pwr.stage = .serving)) && !asleep s

/-- The clk of the next tick: 12 clk after the edge taken; else 8,208 clk after the last in LOCKED, 8,192 in UNLOCKED,
in HOLDOVER and by the timer of D2. -/
def tickAt (s : State) : Nat :=
  if s.pwr.state = 2 then s.td.tickClk + 8192
  else match s.td.edgeTick with
    | some c => c
    | none => s.td.tickClk + (if s.td.sync = 1 then 8208 else 8192)

/-- The clock's own part: powered time, the length of the frame just ended, and the lock state. A frame of LOCKED or
HOLDOVER that ended without a valid edge is missed, but in D2, whose timer is free of FRM_SYNC (R108). -/
def tickClock (s : State) (clk : Nat) : State :=
  let t := s.td
  let missed := decide (s.pwr.state ≠ 2) && decide (t.sync ≠ 0) && t.edgeTick.isNone
  let s := if missed ∧ t.sync = 1 then noteFlags (seenClk s clk) [4] else s
  { s with td := { t with
    now := clk, tickClk := clk, qheadOld := t.qhead, ptime := (t.ptime + 1) % 2 ^ 64, lastLen := clk - t.tickClk, edgeTick := none
    missed := if missed then sat16 t.missed else t.missed
    sync := if missed then 2 else t.sync
    hold := t.hold || (missed && decide (t.sync = 1)) } }

/-! ### Histories (R104, R105, R113) -/

/-- A sample: DELAY over DEPTH, both saturated. -/
def sample (delay depth : Nat) : Word := packFields [(16, satTo 16 delay), (0, satTo 16 depth)]

def histPut (h : Tbl Word) (i : Nat) (w : Word) : Tbl Word := tblSet (fun _ => 0) h i w

/-- The samples at index k of the first n histories of a table. -/
def samplesAt (h : Tbl Word) (n k : Nat) : List Word := (List.range n).map (fun i => tblGet (fun _ => 0) h (64 * i + k))

/-- The longest wait of a list of arrival clks, at a clk. -/
def longest (clk : Nat) (since : List Nat) : Nat := since.foldl (fun m a => max m (clk - a)) 0

/-- Packets in a port's input buffer: not yet routed, multicasts at the stop, and those that wait for an output. -/
def inBuffer (s : State) (port : Nat) : List Buffered :=
  (portGet s port).ingress ++
    (s.fab.mcasts.filter (fun x => x.port = port)).map (fun x => { pkt := x.pkt, since := x.since }) ++
    (s.fab.waiting.filter (fun w => w.inPort = port)).map (fun w => { pkt := w.pkt, since := w.since })

/-- A port's ingress, per class: depth in flits. -/
def samplePort (s : State) (port k clk : Nat) : State :=
  portMod s port (fun p =>
    let hist := (List.range 4).foldl (fun h c =>
      let q := (inBuffer s port).filter (fun b => b.pkt.cls.toNat = c)
      let depth := ceilDiv (sumNat (q.map (fun b => chunkBytes b.pkt.len.toNat))) 240
      histPut h (64 * c + k) (sample (max (p.waits.getD c 0) (longest clk (q.map (·.since)))) depth)) p.hist
    { p with hist := hist, histOld := samplesAt p.hist 4 k, waits := [0, 0, 0, 0] })

/-- A channel's read and write queues; a spare only while it is grafted. -/
def sampleChan (s : State) (ch k clk : Nat) : State :=
  let c := chanGet s ch
  let hist := if ch % 17 = 16 ∧ ¬ (c.state = 1 ∧ c.serves.isSome) then c.hist
    else histPut (histPut c.hist k (sample (max c.waitR (longest clk (c.reads.map (·.since)))) c.reads.length))
      (64 + k) (sample (max c.waitW (longest clk (c.writes.map (·.since)))) c.writes.length)
  chanSet s ch { c with hist := hist, histOld := samplesAt c.hist 2 k, waitR := 0, waitW := 0 }

/-- The samples of Ethernet ingress and of the partitions' admission queues; the ring's head moves to the sample. -/
def sampleQueues (s : State) (k clk : Nat) : State :=
  let eth := (List.range 4).foldl (fun h p =>
    let q := s.eth.kept.filter (fun e => e.1.1 = p)
    histPut h (64 * p + k) (sample (max (tblGet (fun _ => 0) s.td.ethWait p) (longest clk (q.map (·.1.2)))) q.length))
    s.td.ethHist
  let part := (List.range 32).foldl (fun h p =>
    let q := (s.flows.filter (fun e => flowPart e.1 = p)).flatMap (fun e => e.2.queue)
    histPut h (64 * p + k)
      (sample (max (tblGet (fun _ => 0) s.td.partWait p) (longest clk (q.map (·.req.arrived)))) q.length)) s.td.partHist
  { s with td := { s.td with
    ethHist := eth, partHist := part, ethWait := [], partWait := [], qhead := k
    ethOld := samplesAt s.td.ethHist 4 k, partOld := samplesAt s.td.partHist 32 k } }

/-- Every history takes the sample of this tick at index TD_QHEAD + 1. -/
def tickHistories (s : State) (clk : Nat) : State :=
  let k := (s.td.qhead + 1) % 64
  let s := (List.range 8).foldl (fun s p => samplePort s p k clk) s
  let s := (List.range 136).foldl (fun s c => sampleChan s c k clk) s
  sampleQueues s k clk

/-! ### Flows (R94, R95, R100, R103) -/

/-- One flow's credit, limit and buckets at a tick. -/
def tickFlow (s : State) (k : Nat) : State :=
  match allotOf s.img.layout k with
  | none => s
  | some r =>
    let a := min r.allot (flowGet s k).limit
    let pol := policerOf s.img.layout k
    flowMod s k (fun f => { f with
      limitNow := f.limit, credit := min (f.credit + a) (a + r.burst), units := satTo 16 f.unitsNow, unitsNow := 0
      tc := match pol with
        | none => f.tc
        | some x => min (f.tc + x.cir) x.cbs
      tp := match pol with
        | none => f.tp
        | some x => min (f.tp + x.pir) x.pbs })

/-- A newly active flow: C = A with LIMIT at ALLOT, NET passed, an empty queue, full buckets, zeroed counters. -/
def newFlow (l : Layout) (r : AllotRec) : Flow :=
  let pol := policerOf l r.key
  { limit := r.allot, limitNow := r.allot, credit := r.allot, tc := (pol.map (·.cbs)).getD 0, tp := (pol.map (·.pbs)).getD 0 }

/-- Every flow of a partition is newly active; a flow without a record is gone (R95, R112). -/
def newFlows (s : State) (p : Nat) : State :=
  let s := { s with flows := s.flows.filter (fun e => flowPart e.1 ≠ p) }
  partCnt ((s.img.layout.allots.filter (fun r => flowPart r.key = p)).foldl
    (fun s r => flowSet s r.key (newFlow s.img.layout r)) s) p (fun c =>
    { c with viol := 0, pubOk := 0, pubConflict := 0, pubRetry := 0, diCe := 0, diUe := 0 })

/-- A partition's change that waited for the tick. One that ends an image load makes its flows newly active, and fixes
its ledger's size (R74, R95, R360). -/
def tickPart (s : State) (p : Nat) : State :=
  let x := partGet s p
  match x.next with
  | none => s
  | some st =>
    let s := partSet s p { x with st := st, next := none, why := 0, drained := false, qpsEnded := false }
    if x.st = .quiesced ∧ (x.why = 1 ∨ x.why = 4) then
      let s := newFlows s p
      if x.ledger.size = ledgerSize s.img.layout p then s else lgResize s p
    else s

def tickParts (s : State) : State :=
  let s := (List.range 32).foldl tickPart s
  if s.img.phase = 4 then { s with img := { s.img with phase := 0 } } else s

/-! ### Load (R106) -/

/-- LOAD's parts from the frame just ended, `len` clk long. A column holds the data bus for half a nanosecond, 1.024
clk. -/
def tickLoad (s : State) (len : Nat) : State :=
  let t := s.td
  let busiest := t.busBusy.foldl (fun m e => max m e.2) 0
  { s with td := { t with
    fabWas := t.fabPart, ethWas := t.ethPart, dramWas := t.dramPart
    fabPart := loadPart t.fabUnits 25000, ethPart := loadPart t.ethUnits 6250
    dramPart := loadPart (busiest * 1024) (len * 1000), fabUnits := 0, ethUnits := 0, busBusy := [] } }

/-! ### Channels and windows of time (R214, R217, R219, R313) -/

/-- A training piece falls due in the channel's turn, or after one that failed. -/
def tickTraining (s : State) : State :=
  (List.range 136).foldl (fun s ch =>
    let turn := decide (s.td.ptime % 16384 = 128 * (ch / 17) + 8 * (ch % 17))
    chanMod s ch (fun c =>
      if (turn && chanUp c) || (c.trainFailed && (c.state ≠ 4 || c.asleep)) then
        { c with trainDue := true } else c)) s

/-- Every bank of every channel. -/
def banksMod (s : State) (f : Bank → Bank) : State :=
  (s.stk.chans.map (·.1)).foldl (fun s ch => chanMod s ch (fun c =>
    { c with banks := tblSetMany (fun _ => {}) [] (c.banks.map (fun e => (e.1, f e.2))) })) s

/-- Trackers clear every 8,000 frames. -/
def tickTrackers (s : State) : State :=
  if s.td.ptime % 8000 = 0 then banksMod s (fun b => { b with tracker := [], throttled := [] }) else s

/-- The row errors that a new window begins with: a repair that is due stays due (R219). -/
def dueRows (s : State) (t : Tbl Nat) : Tbl Nat := (t.filter (fun e => rowDue s e.2)).map (fun e => (e.1, 65536))

/-- Windows of 2^20 frames begin anew, where powered time is a multiple of that (log entry 17). -/
def tickWindows (s : State) : State :=
  if s.td.ptime % 2 ^ 20 ≠ 0 then s
  else
    let s := banksMod s (fun b => { b with rowErrs := dueRows s b.rowErrs })
    let s := (s.stk.chans.map (·.1)).foldl (fun s ch => chanMod s ch (fun c => { c with caErrs := 0 })) s
    let s := (s.eng.eng.map (·.1)).foldl (fun s e => engMod s e (fun x => { x with traps := 0 })) s
    { s with coh := { s.coh with wayErrs := [] }, di := { s.di with rowErrs := [] } }

/-- The temperature band of each stack by the reading of the frame before; a change takes effect at this tick (R211,
R213). Readings stand in eighths of a degree. -/
def tickHeat (s : State) : State :=
  (List.range 136).foldl (fun s ch => chanMod s ch (fun c => { c with
    hot := decide ((680 : Int) < s.pwr.tempNow.getD (ch / 17 + 2) 0) })) s

/-! ### The tick -/

/-- What a running device does at a tick, its clock advanced. -/
def tickRunning (s : State) (clk len : Nat) (inp : TickInputs) : State :=
  let s := tickHistories s clk
  let s := (s.flows.map (·.1)).foldl tickFlow s
  let s := tickParts s
  let s := tickLoad s len
  let s := startPairs s
  let s := (List.range 8).foldl (fun s p => tickCredits (tickLanes s p) p) s
  let s := tickGrafts s
  let s := tickPatrol (tickTraining (tickTrackers (tickWindows s)))
  let s := tickFences s
  let s := tickReset s
  tickTwin s inp.leadHigh

/-- The tick at `clk`. In D2 the always-on timer alone counts. -/
def tick (s : State) (clk : Nat) (inp : TickInputs) : State :=
  let len := clk - s.td.tickClk
  let s := tickClock s clk
  let s := if s.pwr.state = 2 then s else tickRunning s clk len inp
  let s := tickReadings (tickWatchdog (tickPower (tickHeat s))) inp
  if overTrip inp then trip s else s

/-- FRAME_TICK (R84, R87): a tick falls at the clk R84 gives it, and at no other. -/
def execFrameTick (clk : Nat) (inp : TickInputs) (s : State) : Host.Outcome State Fault Refusal :=
  if ticking s ∧ clk = tickAt s then .next (tick s clk inp) else .next s

end Sys2Proof.Machine
end

