-- ==== Sys2Proof/Machine/Dispatch.lean ====
section
/-! DEFINITION. The dispatcher: one arm per command of the table, each a direct call of its meaning. -/

namespace Sys2Proof.Machine

def exec (i : Instr) (s : State) : Host.Outcome State Fault Refusal :=
  match i with
  | .registerWrite path off width value clk => Sys2Proof.Machine.execRegisterWrite path off width value clk s
  | .readLoLatch path off width clk => Sys2Proof.Machine.execReadLoLatch path off width clk s
  | .writeLoHeld path off value => Sys2Proof.Machine.execWriteLoHeld path off value s
  | .writeHiCommit path off value clk => Sys2Proof.Machine.execWriteHiCommit path off value clk s
  | .engSelWrite path value => Sys2Proof.Machine.execEngSelWrite path value s
  | .commandPartEnd part queue idx => Sys2Proof.Machine.execCommandPartEnd part queue idx s
  | .imageGo clk => Sys2Proof.Machine.execImageGo clk s
  | .imageAbort => Sys2Proof.Machine.execImageAbort s
  | .imageFloor => Sys2Proof.Machine.execImageFloor s
  | .imageVerifyDone clk => Sys2Proof.Machine.execImageVerifyDone clk s
  | .partitionDrainDone part => Sys2Proof.Machine.execPartitionDrainDone part s
  | .drainTimeout part => Sys2Proof.Machine.execDrainTimeout part s
  | .partitionFillDone part => Sys2Proof.Machine.execPartitionFillDone part s
  | .wholeDeviceFillDone => Sys2Proof.Machine.execWholeDeviceFillDone s
  | .frmSyncEdge clk => Sys2Proof.Machine.execFrmSyncEdge clk s
  | .frameTick clk inp => Sys2Proof.Machine.execFrameTick clk inp s
  | .relock => Sys2Proof.Machine.execRelock s
  | .freerunWrite value => Sys2Proof.Machine.execFreerunWrite value s
  | .syncErrClear => Sys2Proof.Machine.execSyncErrClear s
  | .requestArrival clk => Sys2Proof.Machine.execRequestArrival clk s
  | .flowAdmit flow clk => Sys2Proof.Machine.execFlowAdmit flow clk s
  | .redRemeter flow => Sys2Proof.Machine.execRedRemeter flow s
  | .wheelRelease clk => Sys2Proof.Machine.execWheelRelease clk s
  | .gateWindowOpen flow clk => Sys2Proof.Machine.execGateWindowOpen flow clk s
  | .flowLimitWrite flow value => Sys2Proof.Machine.execFlowLimitWrite flow value s
  | .fecBlockReceive port block clk => Sys2Proof.Machine.execFecBlockReceive port block clk s
  | .flitSend port clk => Sys2Proof.Machine.execFlitSend port clk s
  | .replayTimeout port clk => Sys2Proof.Machine.execReplayTimeout port clk s
  | .creditTimeout port counter => Sys2Proof.Machine.execCreditTimeout port counter s
  | .trainEnd port clk => Sys2Proof.Machine.execTrainEnd port clk s
  | .initReceive port flit => Sys2Proof.Machine.execInitReceive port flit s
  | .linkResetTimeout port => Sys2Proof.Machine.execLinkResetTimeout port s
  | .laneLossOfLock port lane => Sys2Proof.Machine.execLaneLossOfLock port lane s
  | .kxRetrain port => Sys2Proof.Machine.execKxRetrain port s
  | .kxFresh port => Sys2Proof.Machine.execKxFresh port s
  | .kxClear port => Sys2Proof.Machine.execKxClear port s
  | .kxHoldWrite port value => Sys2Proof.Machine.execKxHoldWrite port value s
  | .kxLanePrune port lanes => Sys2Proof.Machine.execKxLanePrune port lanes s
  | .kxLaneRestore port lanes => Sys2Proof.Machine.execKxLaneRestore port lanes s
  | .packetRoute port => Sys2Proof.Machine.execPacketRoute port s
  | .outputArbitration port => Sys2Proof.Machine.execOutputArbitration port s
  | .mcWr => Sys2Proof.Machine.execMcWr s
  | .mcSig => Sys2Proof.Machine.execMcSig s
  | .rd ticket clk => Sys2Proof.Machine.execRd ticket clk s
  | .wr ticket errs => Sys2Proof.Machine.execWr ticket errs s
  | .atom ticket clk => Sys2Proof.Machine.execAtom ticket clk s
  | .nearBankAccess ticket ownWrites clk => Sys2Proof.Machine.execNearBankAccess ticket ownWrites clk s
  | .rdS ticket clk => Sys2Proof.Machine.execRdS ticket clk s
  | .rdX ticket clk => Sys2Proof.Machine.execRdX ticket clk s
  | .upg ticket clk => Sys2Proof.Machine.execUpg ticket clk s
  | .wb ticket clk => Sys2Proof.Machine.execWb ticket clk s
  | .evct ticket clk => Sys2Proof.Machine.execEvct ticket clk s
  | .snpRsp clk => Sys2Proof.Machine.execSnpRsp clk s
  | .snpData clk => Sys2Proof.Machine.execSnpData clk s
  | .fwdData clk => Sys2Proof.Machine.execFwdData clk s
  | .grantAcknowledgement clk => Sys2Proof.Machine.execGrantAcknowledgement clk s
  | .cohAnswerTimeout txn => Sys2Proof.Machine.execCohAnswerTimeout txn s
  | .fenceSweepLine part line => Sys2Proof.Machine.execFenceSweepLine part line s
  | .flush ticket => Sys2Proof.Machine.execFlush ticket s
  | .flushRelease ticket => Sys2Proof.Machine.execFlushRelease ticket s
  | .publish ticket => Sys2Proof.Machine.execPublish ticket s
  | .publishDecide ticket => Sys2Proof.Machine.execPublishDecide ticket s
  | .acquire ticket => Sys2Proof.Machine.execAcquire ticket s
  | .pubClear part => Sys2Proof.Machine.execPubClear part s
  | .channelRequestEnqueue chan req clk => Sys2Proof.Machine.execChannelRequestEnqueue chan req clk s
  | .dramCommandIssue chan slot => Sys2Proof.Machine.execDramCommandIssue chan slot s
  | .dramReadData chan errs => Sys2Proof.Machine.execDramReadData chan errs s
  | .idlePrecharge chan bank clk => Sys2Proof.Machine.execIdlePrecharge chan bank clk s
  | .refreshAccrual chan bank clk => Sys2Proof.Machine.execRefreshAccrual chan bank clk s
  | .trainingPiece chan passed clk => Sys2Proof.Machine.execTrainingPiece chan passed clk s
  | .sidPowerDown chan sid clk => Sys2Proof.Machine.execSidPowerDown chan sid clk s
  | .rowRepair chan bank row clk => Sys2Proof.Machine.execRowRepair chan bank row clk s
  | .stkPrune chan => Sys2Proof.Machine.execStkPrune chan s
  | .stkGraft chan => Sys2Proof.Machine.execStkGraft chan s
  | .stkClear chan => Sys2Proof.Machine.execStkClear chan s
  | .channelCopyPiece piece => Sys2Proof.Machine.execChannelCopyPiece piece s
  | .flashDiscovery report => Sys2Proof.Machine.execFlashDiscovery report s
  | .flashFetchDone part granule reads => Sys2Proof.Machine.execFlashFetchDone part granule reads s
  | .flashWritebackStart part => Sys2Proof.Machine.execFlashWritebackStart part s
  | .flashWritebackDone part granule => Sys2Proof.Machine.execFlashWritebackDone part granule s
  | .flashReclaim group => Sys2Proof.Machine.execFlashReclaim group s
  | .flashWearLevel group => Sys2Proof.Machine.execFlashWearLevel group s
  | .flashRefreshMove block => Sys2Proof.Machine.execFlashRefreshMove block s
  | .flashProgramFail part granule => Sys2Proof.Machine.execFlashProgramFail part granule s
  | .flashEraseDone block passed => Sys2Proof.Machine.execFlashEraseDone block passed s
  | .flashChannelPrune chan => Sys2Proof.Machine.execFlashChannelPrune chan s
  | .flGraft => Sys2Proof.Machine.execFlGraft s
  | .flClear => Sys2Proof.Machine.execFlClear s
  | .fill part queue clk => Sys2Proof.Machine.execFill part queue clk s
  | .copy part queue clk => Sys2Proof.Machine.execCopy part queue clk s
  | .cmp part queue clk => Sys2Proof.Machine.execCmp part queue clk s
  | .red part queue clk => Sys2Proof.Machine.execRed part queue clk s
  | .score part queue clk => Sys2Proof.Machine.execScore part queue clk s
  | .topk part queue clk => Sys2Proof.Machine.execTopk part queue clk s
  | .gather part queue clk => Sys2Proof.Machine.execGather part queue clk s
  | .cvt part queue clk => Sys2Proof.Machine.execCvt part queue clk s
  | .prog part queue parityError => Sys2Proof.Machine.execProg part queue parityError s
  | .halt part queue => Sys2Proof.Machine.execHalt part queue s
  | .run part queue clk => Sys2Proof.Machine.execRun part queue clk s
  | .adda part queue => Sys2Proof.Machine.execAdda part queue s
  | .setc part queue => Sys2Proof.Machine.execSetc part queue s
  | .loop part queue => Sys2Proof.Machine.execLoop part queue s
  | .mova part queue => Sys2Proof.Machine.execMova part queue s
  | .imemRewriteDone core => Sys2Proof.Machine.execImemRewriteDone core s
  | .engResume engine => Sys2Proof.Machine.execEngResume engine s
  | .engPrune phys => Sys2Proof.Machine.execEngPrune phys s
  | .engClear engine => Sys2Proof.Machine.execEngClear engine s
  | .sqEnable part queue cfg => Sys2Proof.Machine.execSqEnable part queue cfg s
  | .sqDisable part queue => Sys2Proof.Machine.execSqDisable part queue s
  | .sqRestart part queue => Sys2Proof.Machine.execSqRestart part queue s
  | .sqClear part queue => Sys2Proof.Machine.execSqClear part queue s
  | .cmdPiSample part queue => Sys2Proof.Machine.execCmdPiSample part queue s
  | .sqTake part queue clk => Sys2Proof.Machine.execSqTake part queue clk s
  | .completionPop ticket => Sys2Proof.Machine.execCompletionPop ticket s
  | .tileTranslate part queue idx stream tile clk => Sys2Proof.Machine.execTileTranslate part queue idx stream tile clk s
  | .translationWalkDone walk => Sys2Proof.Machine.execTranslationWalkDone walk s
  | .unmap part unit clk => Sys2Proof.Machine.execUnmap part unit clk s
  | .map part unit hpage clk => Sys2Proof.Machine.execMap part unit hpage clk s
  | .move part unit src clk => Sys2Proof.Machine.execMove part unit src clk s
  | .mappingWithdrawDone part clk => Sys2Proof.Machine.execMappingWithdrawDone part clk s
  | .patrolScrubRead chan errs => Sys2Proof.Machine.execPatrolScrubRead chan errs s
  | .demandScrub chan errs => Sys2Proof.Machine.execDemandScrub chan errs s
  | .sramScrub array half index flips => Sys2Proof.Machine.execSramScrub array half index flips s
  | .diLogClear => Sys2Proof.Machine.execDiLogClear s
  | .diClear => Sys2Proof.Machine.execDiClear s
  | .diInjectArm value => Sys2Proof.Machine.execDiInjectArm value s
  | .ethFrameReceive port frame => Sys2Proof.Machine.execEthFrameReceive port frame s
  | .rdmaWrite clk => Sys2Proof.Machine.execRdmaWrite clk s
  | .rdmaRead clk => Sys2Proof.Machine.execRdmaRead clk s
  | .rdmaAtomic clk => Sys2Proof.Machine.execRdmaAtomic clk s
  | .controlSend clk => Sys2Proof.Machine.execControlSend clk s
  | .ethAckReceive => Sys2Proof.Machine.execEthAckReceive s
  | .ethAckTimeout qp => Sys2Proof.Machine.execEthAckTimeout qp s
  | .ethRnrResend qp => Sys2Proof.Machine.execEthRnrResend qp s
  | .ethQpStateWrite qp value => Sys2Proof.Machine.execEthQpStateWrite qp value s
  | .ethPhyWrite port value => Sys2Proof.Machine.execEthPhyWrite port value s
  | .mgmtQpAccess clk => Sys2Proof.Machine.execMgmtQpAccess clk s
  | .quote => Sys2Proof.Machine.execQuote s
  | .quoteDone => Sys2Proof.Machine.execQuoteDone s
  | .keyset => Sys2Proof.Machine.execKeyset s
  | .keysetInstallDone part => Sys2Proof.Machine.execKeysetInstallDone part s
  | .exchangeKeyExpiry part => Sys2Proof.Machine.execExchangeKeyExpiry part s
  | .owner => Sys2Proof.Machine.execOwner s
  | .seal => Sys2Proof.Machine.execSeal s
  | .sealDone => Sys2Proof.Machine.execSealDone s
  | .fwStage file => Sys2Proof.Machine.execFwStage file s
  | .fwActivate => Sys2Proof.Machine.execFwActivate s
  | .fwCommit => Sys2Proof.Machine.execFwCommit s
  | .fwRollback => Sys2Proof.Machine.execFwRollback s
  | .ledgerHeldAppend part => Sys2Proof.Machine.execLedgerHeldAppend part s
  | .lgTailWrite part value => Sys2Proof.Machine.execLgTailWrite part value s
  | .heartbeatSend => Sys2Proof.Machine.execHeartbeatSend s
  | .heartbeat => Sys2Proof.Machine.execHeartbeat s
  | .burstSend => Sys2Proof.Machine.execBurstSend s
  | .burstReceive burst => Sys2Proof.Machine.execBurstReceive burst s
  | .peerFailureDeclare => Sys2Proof.Machine.execPeerFailureDeclare s
  | .leadClaim clk lineHigh => Sys2Proof.Machine.execLeadClaim clk lineHigh s
  | .twnLeadRelease => Sys2Proof.Machine.execTwnLeadRelease s
  | .twnRelease => Sys2Proof.Machine.execTwnRelease s
  | .twnClear => Sys2Proof.Machine.execTwnClear s
  | .twinPub => Sys2Proof.Machine.execTwinPub s
  | .twinPublishDecide => Sys2Proof.Machine.execTwinPublishDecide s
  | .twinWr => Sys2Proof.Machine.execTwinWr s
  | .twinCmp => Sys2Proof.Machine.execTwinCmp s
  | .followerAckTimeout => Sys2Proof.Machine.execFollowerAckTimeout s
  | .shadowExpiry => Sys2Proof.Machine.execShadowExpiry s
  | .resyncStart => Sys2Proof.Machine.execResyncStart s
  | .twinCopyRead => Sys2Proof.Machine.execTwinCopyRead s
  | .twinCopyData => Sys2Proof.Machine.execTwinCopyData s
  | .fenceAdd host req => Sys2Proof.Machine.execFenceAdd host req s
  | .fenceClear host req => Sys2Proof.Machine.execFenceClear host req s
  | .halfReset half => Sys2Proof.Machine.execHalfReset half s
  | .partitionReset part => Sys2Proof.Machine.execPartitionReset part s
  | .resetCancel => Sys2Proof.Machine.execResetCancel s
  | .resetReady => Sys2Proof.Machine.execResetReady s
  | .spareGraft cls => Sys2Proof.Machine.execSpareGraft cls s
  | .wdtKick key => Sys2Proof.Machine.execWdtKick key s
  | .watchdogExpiry => Sys2Proof.Machine.execWatchdogExpiry s
  | .mgmtParityError => Sys2Proof.Machine.execMgmtParityError s
  | .coldPowerOn straps untrained => Sys2Proof.Machine.execColdPowerOn straps untrained s
  | .hardwareFillDone => Sys2Proof.Machine.execHardwareFillDone s
  | .bootImageLoad slotA slotB => Sys2Proof.Machine.execBootImageLoad slotA slotB s
  | .bootImageApply => Sys2Proof.Machine.execBootImageApply s
  | .powerLoss => Sys2Proof.Machine.execPowerLoss s
  | .overvoltageShutdown => Sys2Proof.Machine.execOvervoltageShutdown s
  | .rstNAssert nanoseconds => Sys2Proof.Machine.execRstNAssert nanoseconds s
  | .rstNRelease straps untrained => Sys2Proof.Machine.execRstNRelease straps untrained s
  | .thermalTrip => Sys2Proof.Machine.execThermalTrip s
  | .powerTargetD0 => Sys2Proof.Machine.execPowerTargetD0 s
  | .powerTargetD1 => Sys2Proof.Machine.execPowerTargetD1 s
  | .powerTargetD2 => Sys2Proof.Machine.execPowerTargetD2 s
  | .powerTargetD3 => Sys2Proof.Machine.execPowerTargetD3 s
  | .d1AutoReturn => Sys2Proof.Machine.execD1AutoReturn s
  | .powerTransitionDone => Sys2Proof.Machine.execPowerTransitionDone s
  | .smbusWake start => Sys2Proof.Machine.execSmbusWake start s
  | .smbReadByte => Sys2Proof.Machine.execSmbReadByte s
  | .smbRegisterWrite bytes pec clk => Sys2Proof.Machine.execSmbRegisterWrite bytes pec clk s
  | .smbSetReadOffset bytes pec => Sys2Proof.Machine.execSmbSetReadOffset bytes pec s
  | .smbRegisterRead clk => Sys2Proof.Machine.execSmbRegisterRead clk s
  | .alertResponse => Sys2Proof.Machine.execAlertResponse s
  | .mapDone part clk => Sys2Proof.Machine.execMapDone part clk s
  | .ethPortTrainingDone port => Sys2Proof.Machine.execEthPortTrainingDone port s
  | .ethPortLinkLoss port => Sys2Proof.Machine.execEthPortLinkLoss port s
  | .flashMoveDone part moved => Sys2Proof.Machine.execFlashMoveDone part moved s
  | .refclkStable => Sys2Proof.Machine.execRefclkStable s
  | .overvoltageRelease => Sys2Proof.Machine.execOvervoltageRelease s

end Sys2Proof.Machine
end

