-- ==== Sys2Proof/Safety.lean ====
section
/-! DEFINITION. The predicates that claims are stated in: the canonical form of every byte memory, and which parts of
the state an operation may change. -/

namespace Sys2Proof.Machine

/-- A byte memory in canonical form: addresses strictly rising, no entry equal to 0, which an unlisted address reads
as (R309). -/
def cellsWf (m : List Host.Cell) : Bool := tblWf (fun _ => (0 : Byte)) m

/-- The device's memories are in canonical form: DRAM, the near banks with the flips that stand in their words, the
staging window and the mailbox (R17, R254, R415). -/
def Memory.wf (s : State) : Bool :=
  cellsWf s.stk.dram && cellsWf s.near.mem && tblWf (fun _ => 0) s.near.flips && cellsWf s.staging && cellsWf s.mailbox

/-- Parts of the state, each marked where it may change. Inside a part that may change, five fields are marked on their
own: the boot counter, the structure in force, the owner slots, DRAM and the near banks' bytes. The model's note of the
flags that hardware has set in the present clk (`flagSet`, R11) is no register and is left free. -/
structure Mask where
  mgmt : Bool := false
  img : Bool := false
  parts : Bool := false
  flows : Bool := false
  td : Bool := false
  ports : Bool := false
  fab : Bool := false
  coh : Bool := false
  stk : Bool := false
  near : Bool := false
  fl : Bool := false
  eng : Bool := false
  di : Bool := false
  eth : Bool := false
  sec : Bool := false
  twn : Bool := false
  pwr : Bool := false
  staging : Bool := false
  mailbox : Bool := false
  svc : Bool := false
  nextTicket : Bool := false
  out : Bool := false
  free : Bool := false
  boot : Bool := false
  layout : Bool := false
  owners : Bool := false
  dram : Bool := false
  nearMem : Bool := false
deriving DecidableEq, Repr

/-- Every part that `m` marks is marked in `n`. -/
def Mask.le (m n : Mask) : Bool :=
  (!m.mgmt || n.mgmt) && (!m.img || n.img) && (!m.parts || n.parts) && (!m.flows || n.flows) && (!m.td || n.td) &&
  (!m.ports || n.ports) && (!m.fab || n.fab) && (!m.coh || n.coh) && (!m.stk || n.stk) && (!m.near || n.near) &&
  (!m.fl || n.fl) && (!m.eng || n.eng) && (!m.di || n.di) && (!m.eth || n.eth) && (!m.sec || n.sec) &&
  (!m.twn || n.twn) && (!m.pwr || n.pwr) && (!m.staging || n.staging) && (!m.mailbox || n.mailbox) && (!m.svc || n.svc) &&
  (!m.nextTicket || n.nextTicket) && (!m.out || n.out) && (!m.free || n.free) && (!m.boot || n.boot) && (!m.layout || n.layout) &&
  (!m.owners || n.owners) && (!m.dram || n.dram) && (!m.nearMem || n.nearMem)

/-- `t` with every part that the mask marks as it stands in `s`. -/
def restore (m : Mask) (s t : State) : State :=
  { mgmt := if m.mgmt then s.mgmt else t.mgmt
    img :=
      if m.img then
        { s.img with
          layout := if m.layout then s.img.layout else t.img.layout
          owners := if m.owners then s.img.owners else t.img.owners }
      else t.img
    parts := if m.parts then s.parts else t.parts
    flows := if m.flows then s.flows else t.flows
    td := if m.td then { s.td with boot := if m.boot then s.td.boot else t.td.boot } else t.td
    ports := if m.ports then s.ports else t.ports
    fab := if m.fab then s.fab else t.fab
    coh := if m.coh then s.coh else t.coh
    stk := if m.stk then { s.stk with dram := if m.dram then s.stk.dram else t.stk.dram } else t.stk
    near := if m.near then { s.near with mem := if m.nearMem then s.near.mem else t.near.mem } else t.near
    fl := if m.fl then s.fl else t.fl
    eng := if m.eng then s.eng else t.eng
    di := if m.di then s.di else t.di
    eth := if m.eth then s.eth else t.eth
    sec := if m.sec then s.sec else t.sec
    twn := if m.twn then s.twn else t.twn
    pwr := if m.pwr then s.pwr else t.pwr
    staging := if m.staging then s.staging else t.staging
    mailbox := if m.mailbox then s.mailbox else t.mailbox
    svc := if m.svc then s.svc else t.svc
    nextTicket := if m.nextTicket then s.nextTicket else t.nextTicket
    out := if m.out then s.out else t.out
    free := if m.free then s.free else t.free
    flagSet := s.flagSet
    pending := t.pending }

/-- From `s` to `t` nothing changes but what the mask marks; the queue of waiting commands stands, and the memories keep
their canonical form. -/
def Touches (m : Mask) (s t : State) : Prop := restore m s t = s ∧ (Memory.wf s = true → Memory.wf t = true)

/-- The frame of each command: the parts of the state that it may change. What a mark names is said at `Mask`; a part
without its mark stands as it was, and with `dram` or `nearMem` unmarked every byte of that memory. -/
def mayTouch : Instr → Mask
  | .registerWrite .. | .writeLoHeld .. | .writeHiCommit .. | .engSelWrite .. | .mgmtQpAccess ..
  | .smbRegisterWrite .. =>
    { mgmt := true, img := true, parts := true, flows := true, td := true, ports := true, fab := true,
      coh := true, stk := true, fl := true, eng := true, di := true, eth := true, sec := true, twn := true,
      pwr := true, staging := true, mailbox := true, svc := true, out := true, free := true, owners := true }
  | .readLoLatch .. =>
    { mgmt := true, parts := true, td := true, coh := true, stk := true, eng := true, di := true }
  | .commandPartEnd .. | .ledgerHeldAppend .. =>
    { parts := true, coh := true, stk := true, near := true, eng := true, di := true, svc := true,
      nearMem := true }
  | .imageGo .. =>
    { img := true, td := true }
  | .imageAbort .. | .bootImageLoad .. =>
    { img := true }
  | .imageFloor .. =>
    { img := true, owners := true }
  | .imageVerifyDone .. =>
    { img := true, parts := true, flows := true, td := true, ports := true, fab := true, di := true,
      eth := true, sec := true, twn := true, out := true }
  | .partitionDrainDone .. =>
    { img := true, parts := true, ports := true, fab := true, coh := true, stk := true, di := true, eth := true,
      free := true }
  | .drainTimeout .. | .resetCancel .. =>
    { parts := true, flows := true, ports := true, fab := true, coh := true, stk := true, near := true,
      fl := true, eng := true, di := true, eth := true, sec := true, twn := true, svc := true, out := true,
      free := true, dram := true, nearMem := true }
  | .partitionFillDone .. =>
    { img := true, parts := true, coh := true, stk := true, near := true, fl := true, eng := true, di := true,
      eth := true, sec := true, twn := true, free := true, layout := true, dram := true, nearMem := true }
  | .wholeDeviceFillDone .. | .coldPowerOn .. | .rstNRelease .. | .refclkStable .. =>
    { mgmt := true, img := true, parts := true, flows := true, td := true, ports := true, fab := true,
      coh := true, stk := true, near := true, fl := true, eng := true, di := true, eth := true, sec := true,
      twn := true, pwr := true, staging := true, mailbox := true, svc := true, boot := true, layout := true,
      owners := true, dram := true, nearMem := true }
  | .frmSyncEdge .. | .relock .. | .freerunWrite .. | .syncErrClear .. =>
    { td := true }
  | .frameTick .. =>
    { mgmt := true, img := true, parts := true, flows := true, td := true, ports := true, fab := true,
      coh := true, stk := true, near := true, fl := true, eng := true, di := true, eth := true, sec := true,
      twn := true, pwr := true, staging := true, mailbox := true, svc := true, nextTicket := true, out := true,
      free := true, boot := true, layout := true, dram := true, nearMem := true }
  | .requestArrival .. | .redRemeter .. | .rdmaWrite .. | .rdmaRead .. | .rdmaAtomic .. | .controlSend ..
  | .keyset .. =>
    { parts := true, flows := true, td := true, ports := true, fab := true, eth := true, sec := true,
      twn := true, out := true }
  | .flowAdmit .. =>
    { parts := true, flows := true, td := true, ports := true, fab := true, eth := true, sec := true,
      twn := true, svc := true, nextTicket := true, out := true }
  | .wheelRelease .. | .gateWindowOpen .. =>
    { flows := true, td := true }
  | .flowLimitWrite .. =>
    { flows := true }
  | .fecBlockReceive .. | .replayTimeout .. | .trainEnd .. =>
    { parts := true, td := true, ports := true, fab := true }
  | .flitSend .. =>
    { td := true, ports := true, out := true }
  | .creditTimeout .. | .initReceive .. | .linkResetTimeout .. | .laneLossOfLock .. | .kxRetrain .. | .kxFresh ..
  | .kxHoldWrite .. | .heartbeatSend .. =>
    { parts := true, ports := true, fab := true }
  | .kxClear .. | .kxLanePrune .. | .kxLaneRestore .. =>
    { ports := true }
  | .packetRoute .. =>
    { parts := true, flows := true, ports := true, fab := true, eth := true, sec := true, twn := true,
      svc := true, nextTicket := true, out := true }
  | .outputArbitration .. =>
    { ports := true, fab := true, out := true }
  | .mcWr .. | .mcSig .. =>
    { parts := true, flows := true, td := true, ports := true, fab := true, coh := true, stk := true,
      near := true, fl := true, di := true, eth := true, sec := true, twn := true, svc := true,
      nextTicket := true, out := true, free := true, dram := true, nearMem := true }
  | .rd .. | .wr .. | .atom .. | .nearBankAccess .. | .rdS .. | .rdX .. | .upg .. | .wb .. | .evct .. | .fill ..
  | .copy .. | .cmp .. | .red .. | .score .. | .topk .. | .gather .. | .cvt .. | .run ..
  | .mappingWithdrawDone .. =>
    { parts := true, flows := true, td := true, ports := true, fab := true, coh := true, stk := true,
      near := true, fl := true, eng := true, di := true, eth := true, sec := true, twn := true, svc := true,
      out := true, free := true, dram := true, nearMem := true }
  | .snpRsp .. | .snpData .. | .fwdData .. | .grantAcknowledgement .. | .leadClaim .. =>
    { parts := true, flows := true, td := true, ports := true, fab := true, coh := true, stk := true,
      near := true, fl := true, di := true, eth := true, sec := true, twn := true, svc := true, out := true,
      free := true, dram := true, nearMem := true }
  | .cohAnswerTimeout .. =>
    { parts := true, coh := true, di := true }
  | .fenceSweepLine .. | .twinPublishDecide .. =>
    { parts := true, flows := true, ports := true, fab := true, coh := true, stk := true, near := true,
      fl := true, di := true, eth := true, sec := true, twn := true, svc := true, out := true, free := true,
      dram := true, nearMem := true }
  | .flush .. | .publish .. =>
    { parts := true, flows := true, ports := true, fab := true, coh := true, eth := true, sec := true,
      twn := true, svc := true, out := true }
  | .flushRelease .. | .publishDecide .. =>
    { parts := true, flows := true, ports := true, fab := true, coh := true, stk := true, di := true,
      eth := true, sec := true, twn := true, svc := true, out := true, free := true, dram := true }
  | .acquire .. | .twnLeadRelease .. | .twnRelease .. | .twinCmp .. | .followerAckTimeout .. =>
    { parts := true, flows := true, ports := true, fab := true, eth := true, sec := true, twn := true,
      svc := true, out := true }
  | .pubClear .. | .exchangeKeyExpiry .. | .lgTailWrite .. =>
    { parts := true }
  | .channelRequestEnqueue .. | .idlePrecharge .. | .refreshAccrual .. | .trainingPiece .. | .sidPowerDown .. =>
    { td := true, stk := true }
  | .dramCommandIssue .. =>
    { td := true, stk := true, free := true }
  | .dramReadData .. | .rowRepair .. | .channelCopyPiece .. | .mapDone .. =>
    { parts := true, td := true, stk := true, di := true }
  | .stkPrune .. | .stkGraft .. | .stkClear .. =>
    { stk := true }
  | .flashDiscovery .. | .flashChannelPrune .. =>
    { fl := true, di := true }
  | .flashFetchDone .. =>
    { stk := true, fl := true, di := true, free := true, dram := true }
  | .flashWritebackStart .. | .flashWritebackDone .. | .flashProgramFail .. =>
    { parts := true, stk := true, fl := true, di := true }
  | .flashReclaim .. | .flashWearLevel .. | .flashRefreshMove .. | .flashEraseDone .. | .flGraft ..
  | .flashMoveDone .. =>
    { stk := true, fl := true, di := true }
  | .flClear .. =>
    { parts := true, fl := true }
  | .prog .. | .halt .. | .adda .. | .setc .. | .loop .. | .mova .. =>
    { parts := true, coh := true, stk := true, near := true, eng := true, di := true, svc := true, free := true,
      nearMem := true }
  | .imemRewriteDone .. =>
    { parts := true, stk := true, eng := true, di := true }
  | .engResume .. | .engPrune .. | .engClear .. | .sqEnable .. | .sqDisable .. | .sqRestart .. | .sqClear ..
  | .translationWalkDone .. =>
    { eng := true }
  | .cmdPiSample .. =>
    { parts := true, td := true, near := true, eng := true, di := true }
  | .sqTake .. =>
    { parts := true, td := true, coh := true, stk := true, near := true, eng := true, di := true, svc := true,
      nextTicket := true, free := true, nearMem := true }
  | .completionPop .. =>
    { parts := true, flows := true, ports := true, fab := true, near := true, eng := true, di := true,
      eth := true, sec := true, twn := true, svc := true, out := true, nearMem := true }
  | .tileTranslate .. | .unmap .. | .map .. | .move .. =>
    { parts := true, td := true, coh := true, stk := true, eng := true, di := true }
  | .patrolScrubRead .. | .demandScrub .. =>
    { parts := true, td := true, stk := true, di := true, free := true }
  | .sramScrub .. =>
    { parts := true, coh := true, near := true, eng := true, di := true, nearMem := true }
  | .diLogClear .. | .diClear .. | .diInjectArm .. =>
    { di := true }
  | .ethFrameReceive .. | .ethAckReceive .. =>
    { parts := true, td := true, eth := true, sec := true, out := true }
  | .ethAckTimeout .. | .ethRnrResend .. =>
    { parts := true, eth := true, sec := true, out := true }
  | .ethQpStateWrite .. =>
    { parts := true, eth := true }
  | .ethPhyWrite .. | .ethPortTrainingDone .. | .ethPortLinkLoss .. =>
    { eth := true }
  | .quote .. =>
    { parts := true, sec := true }
  | .quoteDone .. =>
    { sec := true, mailbox := true }
  | .keysetInstallDone .. =>
    { parts := true, coh := true, stk := true, near := true, fl := true, eng := true, di := true, eth := true,
      sec := true, dram := true, nearMem := true }
  | .owner .. =>
    { img := true, sec := true, owners := true }
  | .seal .. =>
    { parts := true, ports := true, fab := true, coh := true, stk := true, di := true, sec := true, free := true
      }
  | .sealDone .. =>
    { parts := true, ports := true, fab := true, coh := true, stk := true, di := true, sec := true,
      free := true, dram := true }
  | .fwStage .. =>
    { sec := true }
  | .fwActivate .. | .fwRollback .. =>
    { mgmt := true, parts := true, stk := true, di := true, sec := true }
  | .fwCommit .. =>
    { parts := true, stk := true, di := true, sec := true }
  | .heartbeat .. =>
    { fab := true, twn := true }
  | .burstSend .. =>
    { out := true }
  | .burstReceive .. =>
    { img := true, parts := true, flows := true, ports := true, fab := true, coh := true, stk := true,
      near := true, fl := true, di := true, eth := true, sec := true, twn := true, svc := true, out := true,
      free := true, dram := true, nearMem := true }
  | .peerFailureDeclare .. =>
    { di := true, twn := true }
  | .twnClear .. | .resyncStart .. | .fenceAdd .. | .fenceClear .. | .halfReset .. | .partitionReset ..
  | .wdtKick .. =>
    { twn := true }
  | .twinPub .. =>
    { parts := true, ports := true, fab := true, twn := true }
  | .twinWr .. =>
    { parts := true, flows := true, ports := true, fab := true, stk := true, near := true, fl := true,
      di := true, eth := true, sec := true, twn := true, svc := true, out := true, dram := true, nearMem := true
      }
  | .shadowExpiry .. =>
    { twn := true, svc := true }
  | .twinCopyRead .. =>
    { parts := true, ports := true, fab := true, twn := true, free := true }
  | .twinCopyData .. =>
    { parts := true, flows := true, ports := true, fab := true, coh := true, stk := true, near := true,
      fl := true, di := true, eth := true, sec := true, twn := true, svc := true, out := true, dram := true,
      nearMem := true }
  | .resetReady .. =>
    { parts := true, stk := true }
  | .spareGraft .. =>
    { parts := true, ports := true, fab := true, coh := true, stk := true, near := true, fl := true,
      eng := true, di := true, nearMem := true }
  | .watchdogExpiry .. =>
    { mgmt := true, parts := true, stk := true, di := true, sec := true, twn := true, free := true }
  | .mgmtParityError .. =>
    { mgmt := true, di := true, sec := true, free := true }
  | .hardwareFillDone .. =>
    { img := true, stk := true, di := true, pwr := true }
  | .bootImageApply .. =>
    { img := true, parts := true, ports := true, fab := true, coh := true, stk := true, near := true,
      eng := true, di := true, twn := true, free := true, layout := true, dram := true, nearMem := true }
  | .powerLoss .. | .overvoltageShutdown .. | .thermalTrip .. =>
    { mgmt := true, img := true, parts := true, flows := true, td := true, ports := true, fab := true,
      coh := true, stk := true, near := true, fl := true, eng := true, di := true, eth := true, sec := true,
      twn := true, pwr := true, staging := true, mailbox := true, svc := true, nextTicket := true,
      layout := true, dram := true, nearMem := true }
  | .rstNAssert .. =>
    { mgmt := true, img := true, flows := true, td := true, ports := true, fab := true, coh := true,
      stk := true, near := true, fl := true, eng := true, di := true, eth := true, sec := true, twn := true,
      pwr := true, staging := true, mailbox := true, svc := true, free := true, boot := true, layout := true,
      owners := true, dram := true, nearMem := true }
  | .powerTargetD0 .. | .powerTargetD1 .. | .powerTargetD2 .. | .powerTargetD3 .. | .d1AutoReturn ..
  | .overvoltageRelease .. =>
    { pwr := true }
  | .powerTransitionDone .. =>
    { parts := true, flows := true, td := true, ports := true, fab := true, coh := true, stk := true,
      eng := true, eth := true, sec := true, twn := true, pwr := true, svc := true, out := true }
  | .smbusWake .. | .smbReadByte .. | .smbSetReadOffset .. | .alertResponse .. =>
    { pwr := true, out := true }
  | .smbRegisterRead .. =>
    { mgmt := true, parts := true, td := true, coh := true, stk := true, eng := true, di := true, pwr := true,
      out := true }

/-- A port after the start of a full link reset (R125, R136, R137, R138): TRAIN with its cause counted, MAXW, MAXS and
DEPTH taken, the lanes named for return back and the prunings that waited in force, resume offered or not by a link that
has something to resume; what it holds in its buffers stands. -/
def Restarted (p q : Port) (cause : Nat) (resume : Bool) : Prop :=
  q.state = 2 ∧ q.cause = cause ∧ q.active = p.cfg ∧
    q.pruned = (p.pruned &&& (0x1F ^^^ (p.restore &&& 0x1F))) ||| p.pruneWait ∧ q.restore = 0 ∧ q.pruneWait = 0 ∧
    q.offerResume = (resume && linkSettled p) ∧ q.cnt.resets = min 65535 (p.cnt.resets + 1) ∧ q.replay = p.replay ∧
    q.txNext = p.txNext ∧ q.rxExp = p.rxExp ∧ q.credits = p.credits ∧ q.ingress = p.ingress ∧ q.tx = p.tx ∧ q.rx = p.rx

/-- A requester's or a host's request in service alone and not begun: no other request, transaction, piece or twin work
stands beside it, and its partition is not in reset. -/
def Alone (s : State) (v : Service) : Prop :=
  s.svc = [v] ∧ (∀ p q, v.req.origin ≠ .engine p q) ∧ s.coh.gathered = [] ∧ s.coh.txns = [] ∧ s.coh.pubWait = [] ∧ s.coh.placing = [] ∧
    s.twn.state = 0 ∧ s.twn.held = [] ∧ s.twn.answers = [] ∧ s.sec.sealing = none ∧
    (partGet s v.req.pkt.part.toNat).st ≠ .resetting

/-- Every byte of DRAM but `n` bytes at an address of a slice reads in `t` as in `s`. -/
def DramKeptBut (s t : State) (sl a n : Nat) : Prop :=
  ∀ sl' a' : Nat, a' < 2 ^ 33 → sl' ≠ sl ∨ a' < a ∨ a + n ≤ a' → dramByte t sl' a' = dramByte s sl' a'

/-- Nothing that a reserve holds is in error: directory and translation entries, programs and ledgers read as written
(R17, R307). -/
def ReservesClean (s : State) : Prop :=
  (∀ sl kind key q, reservePlace s sl kind key = some q → ∀ k ∈ lineWords q.1 q.2, markGet s k = {}) ∧
    ∀ line q, dirPlace s line = some q → ∀ k ∈ lineWords q.1 q.2, markGet s k = {}

/-- The byte that published memory of a partition holds at an offset, 0 at an offset that is none of its. -/
def heldByte (s : State) (p off : Nat) : Byte := match placeOf s p off with
  | .pinned _ sl a => dramByte s sl a
  | _ => 0

/-- Bytes from an offset on. -/
def heldBytes (s : State) (p off n : Nat) : List Byte := (List.range n).map (fun i => heldByte s p (off + i))

/-- A block of an operand that lies within one line of published memory, in a slice that serves. -/
def PlainBlock (s : State) (p : Nat) (b : Blk) : Prop :=
  b.off % 64 + b.len ≤ 64 ∧ ∃ r sl a, placeOf s p b.off = .pinned r sl a ∧ regionCoherent r = false ∧
    sliceFenced s sl = false ∧ a + b.len ≤ 2 ^ 33

/-- Nothing keeps the engines from a descriptor of pair `q` whose blocks are `bs`: the device is in D0 and the partition
ACTIVE, no other command and no request is in service, no line has a transaction, no twin and no SEAL takes part, memory is
without errors, and no engine of the blocks is pruned or TRAPPED. -/
def EnginesFree (s : State) (p q : Nat) (c : Command) (bs : List Blk) : Prop :=
  s.pwr.state = 0 ∧ (partGet s p).st = .active ∧ (∀ v ∈ s.svc, v.ticket = c.ticket ∧ v.req.origin = .engine p q) ∧
    (∀ e ∈ s.eng.pairs, e.2.service = none ∨ e.1 = 64 * p + q ∧ e.2.service = some c) ∧ s.coh.txns = [] ∧
    s.coh.gathered = [] ∧ s.coh.placing = [] ∧ s.twn.state = 0 ∧ s.sec.sealing = none ∧ s.stk.marks = [] ∧
    s.stk.lost = [] ∧ s.di.injArm = false ∧
    ∀ b ∈ bs, (logGet s b.eng).pruned = false ∧ (logGet s b.eng).trapped = false

/-- The home is free to serve one request of agent `j` at a line of a coherent region: the request is alone, the line
rests in a slice that serves, no agent of the partition is fenced, no line awaits a treatment or a recovery, none is
unverified, the line's set has a way in service that holds no entry, the entry keeps its state's invariant, and nothing
that a reserve holds is in error. -/
def AtHome (s : State) (v : Service) (r : RegionRec) (sl a j : Nat) : Prop :=
  let addr := v.req.pkt.addr.toNat
  let p := addrPart addr
  Alone s v ∧ addr % 64 = 0 ∧ placeOf s p (addrOff addr) = .pinned r sl a ∧ regionCoherent r = true ∧
    regionAt s.img.layout p (addrOff addr / 2097152) = some r ∧ a % 64 = 0 ∧ a < 2 ^ 33 ∧
    halfOf sl < s.coh.halves.length ∧ sliceFenced s sl = false ∧
    agentIndex s p v.req.pkt.src.toNat = some j ∧ (partGet s p).fenced = 0 ∧
    s.coh.sweepLeft = [] ∧ s.coh.recoveries = [] ∧ s.coh.unverified = [] ∧
    (List.range 17).any (fun w => wayServes s (halfOf sl) (dirSetIndex addr) w &&
      !(cacheGet s (halfOf sl) addr).any (fun x => x.2 = w)) = true ∧
    dirLegal (lineShared s addr addr) (dirGet s addr) = true ∧ ReservesClean s ∧
    (lineWords sl a).all (fun w => decide (markGet s w = {})) = true ∧ s.di.injArm = false

/-- The start (R109, R309, R393, R394, R404): once the rails are up, RST_N is high and REFCLK is stable, every block
restarts, the epochs advance, DRAM and the near banks fill with zeros, nothing is in service, and the channels reported
untrained are pruned. A cold start alone begins powered time at 0 and counts in the boot counter. -/
def Started (s t : State) (kind : StartKind) (untrained : List Nat) : Prop :=
  t.pwr.stage = .filling ∧ t.di.fillBusy = true ∧ t.di.fillStart = t.td.ptime ∧ t.td.sync = 0 ∧ t.stk.dram = [] ∧
    t.near.mem = [] ∧ t.svc = [] ∧ t.flows = [] ∧ t.img.loaded = false ∧ t.img.owners = s.img.owners ∧
    t.sec.committed = s.sec.committed ∧ t.sec.mgmtKey = s.sec.mgmtKey ∧
    t.td.ptime = (if kind = .cold then 0 else s.td.ptime) ∧
    t.td.boot = (if kind = .cold then min (2 ^ 32 - 1) (s.td.boot + 1) else s.td.boot) ∧
    (∀ p, p < 32 → (partGet t p).epoch = ((partGet s p).epoch + 1) % 2 ^ 32) ∧
    (∀ c ∈ untrained, c < 136 → (chanGet t c).state = 4 ∧ (chanGet t c).readable = false)

end Sys2Proof.Machine
end

