-- ==== Sys2Proof/Certificates/Slice0/Obligations.lean ====
section
/-! DEFINITION. The statements for the provers: what a step does, and what each family of commands does, by the rules of
the spec that each statement names. -/

open Sys2Proof Sys2Proof.Machine

/-! ### The block as a whole -/

/-- The front command of the queue is the one a step runs, on the state with the queue's rest. -/
def Obligations.StepRunsTheFrontCommand : Prop :=
  ∀ (c : Instr) (cs : List Instr) (s : State),
    step { s with pending := c :: cs } = exec c { s with pending := cs }

/-- The model's choice (log entry 9): a step on an empty queue changes nothing. -/
def Obligations.StepIdlesOnAnEmptyQueue : Prop :=
  ∀ s : State, s.pending = [] → step s = .next s

/-- No command of the table stops the device: each answers a next state in every state. -/
def Obligations.EveryCommandAnswersANextState : Prop :=
  ∀ (c : Instr) (s : State), ∃ t, exec c s = .next t

/-- No command touches the queue of waiting commands, nor any part of the state outside its frame `mayTouch`: what that
mask leaves unmarked stands, every byte of an unmarked memory included. The frames follow from the rules of the
commands; the table itself is the model's. -/
def Obligations.CommandsLeaveTheQueue : Prop :=
  ∀ (c : Instr) (s t : State), exec c s = .next t → t.pending = s.pending ∧ Touches (mayTouch c) s t

/-- Every step keeps the canonical form of every byte memory: DRAM, near banks, staging window, mailbox. -/
def Obligations.StepKeepsMemoryCanonical : Prop :=
  ∀ s t : State, Memory.wf s = true → step s = .next t → Memory.wf t = true

/-- The reset state has that form, and lists no byte (R309, R393). -/
def Obligations.ResetMemoryCanonical : Prop :=
  Memory.wf State.reset = true ∧ State.reset.stk.dram = [] ∧ State.reset.near.mem = [] ∧
    State.reset.staging = [] ∧ State.reset.mailbox = [] ∧ State.reset.pending = []

/-- The eight header words name every field of a packet in its own bits, and no bit besides (R144). -/
def Obligations.HeaderWordsRoundTrip : Prop :=
  (∀ p : Packet, packetOf (headerWords p) p.payload = p) ∧
  (∀ (a b c d e f g h : Word) (bs : List Byte), headerWords (packetOf [a, b, c, d, e, f, g, h] bs) = [a, b, c, d, e, f, g, h])

/-- Every byte of DRAM reads back what was last stored there, and a store leaves every other byte of every slice as it
was; the same of the near banks (R17, R51, R254). -/
def Obligations.MemoryReadsBackTheLastStore : Prop :=
  (∀ (s : State) (sl a : Nat) (b : Byte), a < 2 ^ 33 →
    dramByte (dramSetByte s sl a b) sl a = b ∧
    ∀ sl' a' : Nat, a' < 2 ^ 33 → (sl', a') ≠ (sl, a) → dramByte (dramSetByte s sl a b) sl' a' = dramByte s sl' a') ∧
  (∀ (s : State) (sl a : Nat) (b : Byte), a < 2 ^ 20 →
    nearByte (nearSetByte s sl a b) sl a = b ∧
    ∀ sl' a' : Nat, a' < 2 ^ 20 → (sl', a') ≠ (sl, a) → nearByte (nearSetByte s sl a b) sl' a' = nearByte s sl' a')

/-! ### Registers -/

/-- R9 for every register: an access of another width, or off a 4-byte boundary, writes nothing and reads zero; it sets
the access-error flag of its path, with CAUSE 0b001 and the offset where the flag was clear. A clearing write of
SYS_ACCERR takes ERR and leaves the record, but where an error of the path has come in its clk: then ERR stays, and that
error is the record (R417). (`noteFlags` is the model's note, for R11, that hardware has set the flag in this clk, and
`later` the first error of a clk that found ERR at 1.) -/
def Obligations.MisshapenAccessIsIgnored : Prop :=
  ∀ (path : Path) (off width : Nat) (v : Word) (clk : Nat) (s : State), pathRuns s path = true →
    let n := seenClk s clk
    let now := setNow n (pathCode path)
    let flagged := fun (x : PathState) => { x with acc :=
      if x.acc.err = false then { err := true, cause := 1, off := off % 2 ^ 25 }
      else if now then x.acc else { x.acc with later := some (1, off % 2 ^ 25) } }
    (width ≠ 4 ∨ off % 4 ≠ 0 →
      exec (.registerWrite path off width v clk) s = .next (pathMod (noteFlags n [pathCode path]) path flagged) ∧
      exec (.readLoLatch path off width clk) s =
        .next (pathMod (noteFlags n [pathCode path]) path (fun x => { flagged x with data := 0 }))) ∧
    (s.pwr.stage = .serving → v.getLsbD 31 = true →
      (now = false → exec (.registerWrite path 0x004 4 v clk) s =
        .next (pathMod n path (fun x => { x with acc := { x.acc with err := false, later := none } }))) ∧
      (now = true → ∀ a b c o, (pathGet s path).acc = { err := true, cause := a, off := b, later := some (c, o) } →
        exec (.registerWrite path 0x004 4 v clk) s =
          .next (pathMod n path (fun x => { x with acc := { err := true, cause := c, off := o } }))))

/-- R10: a read of _LO latches the matching _HI value; the next read of _HI on the path returns it and consumes it; a
read of _HI without a latch returns the current high half; a write of _LO is held, but of a read-only one ignored
(R11); a write of _HI takes effect with the held low half, or with the current one. -/
def Obligations.PairsLatchAndCommit : Prop :=
  ∀ (path : Path) (lo clk : Nat) (s : State), isLo lo = true → s.pwr.stage = .serving → pathRuns s path = true →
    let n := seenClk s clk
    (∀ w h : Word, readSpace n path lo = .ok w → readSpace n path (lo + 4) = .ok h →
      exec (.readLoLatch path lo 4 clk) s = .next (pathMod n path (fun x => { x with
        latch := some (lo + 4, h), data := w, ptSub := if lo = 0x3010 then subOf n clk % 2 ^ 14 else x.ptSub }))) ∧
    (∀ w h : Word, readSpace n path (lo + 4) = .ok w → (pathGet s path).latch = some (lo + 4, h) →
      exec (.readLoLatch path (lo + 4) 4 clk) s = .next (pathMod n path (fun x => { x with latch := none, data := h }))) ∧
    (∀ w : Word, readSpace n path (lo + 4) = .ok w → (∀ h, (pathGet s path).latch ≠ some (lo + 4, h)) →
      exec (.readLoLatch path (lo + 4) 4 clk) s = .next (pathMod n path (fun x => { x with data := w }))) ∧
    (∀ w v : Word, readSpace s path lo = .ok w →
      exec (.writeLoHeld path lo v) s =
        .next (if heldLo lo then pathMod s path (fun x => { x with held := some (lo, v) }) else s)) ∧
    (∀ w v u : Word, readSpace n path (lo + 4) = .ok w → (pathGet s path).held = some (lo, u) →
      exec (.writeHiCommit path (lo + 4) v clk) s =
        .next (commitPair (pathMod n path (fun x => { x with held := none })) path lo u v)) ∧
    (∀ w u v : Word, readSpace n path (lo + 4) = .ok w → readSpace n path lo = .ok u →
      (∀ x, (pathGet s path).held ≠ some (lo, x)) →
      exec (.writeHiCommit path (lo + 4) v clk) s = .next (commitPair n path lo u v))

/-- R38, R40 to R43: a select write takes the select of its own path, whatever the other fields of the word hold, and
no other path's copy; the reserved MODE of ENG_SEL leaves MODE and INDEX. -/
def Obligations.SelectWritesStayOnTheirPath : Prop :=
  ∀ (path : Path) (v : Word) (clk : Nat) (s : State), s.pwr.stage = .serving → pathRuns s path = true →
    let n := seenClk s clk
    let eng := fun (x : PathState) => if v.extractLsb' 30 2 = 3 then x
      else { x with engMode := (v.extractLsb' 30 2).toNat, engIndex := (v.extractLsb' 0 9).toNat }
    exec (.registerWrite path 0x1000 4 v clk) s =
      .next (pathMod n path (fun x => { x with partSel := (v.extractLsb' 0 5).toNat })) ∧
    exec (.registerWrite path 0x1004 4 v clk) s = .next (pathMod n path eng) ∧
    exec (.engSelWrite path v) s = .next (pathMod s path eng) ∧
    exec (.registerWrite path 0x1008 4 v clk) s =
      .next (pathMod n path (fun x => { x with kxSel := (v.extractLsb' 0 3).toNat })) ∧
    exec (.registerWrite path 0x100C 4 v clk) s =
      .next (pathMod n path (fun x => { x with stkRel := v.getLsbD 31, stkIndex := (v.extractLsb' 0 8).toNat })) ∧
    ∀ (f : PathState → PathState) (other : Path), other ≠ path → pathGet (pathMod s path f) other = pathGet s other

/-! ### Images -/

/-- IMG_CTRL (R69, R70, R78, R82): GO starts verification of what the staging window holds, or counts as refused while
a load is in progress and changes nothing else of it; ABORT ends a load that is still verifying and no other; FLOOR
raises the floor of the slot of the image in force, one word a time, while it has words left and the image in force is
above the floor. (The CODE that GO and ABORT leave is the model's choice, log entry 28; `noteFlags` is its note, for R11, that
hardware has set REFUSED in this clk.) -/
def Obligations.ImageControlWrites : Prop :=
  ∀ (clk : Nat) (s : State),
    let h := imgHeader (stagingBytes s 0 64)
    let o := s.img.owners.getD s.img.ownerSlot {}
    (s.img.phase = 0 → exec (.imageGo clk) s = .next { seenClk s clk with img := { s.img with
      phase := 1, kind := decide (h.kind = 2), part := if h.kind = 2 then h.target % 32 else 0,
      code := if s.twn.state = 5 then 0x13 else 0, sect := 15,
      record := 4095, load := none } }) ∧
    (s.img.phase ≠ 0 → exec (.imageGo clk) s = .next { noteFlags (seenClk s clk) [3] with img := { s.img with
      refused := true, refusedCount := min 65535 (s.img.refusedCount + 1) } }) ∧
    (s.img.phase = 1 → exec .imageAbort s = .next { s with img := { s.img with
      phase := 0, load := none, boot := [], code := if s.twn.state = 5 then 0x13 else 0 } }) ∧
    (s.img.phase ≠ 1 → exec .imageAbort s = .next s) ∧
    (s.img.loaded = true → 0 < o.left → o.floor < s.img.serial →
      exec .imageFloor s = .next { s with img := { s.img with
        owners := s.img.owners.set s.img.ownerSlot { o with floor := s.img.serial, left := o.left - 1 } } }) ∧
    (o.left = 0 → exec .imageFloor s = .next s)

/-- The end of verification (R70, R74, R78): a load that fails leaves the image in force and every other part of the
device as they were, reporting the first failure; a partition image whose target is QUIESCED or RESETTING fails with
BUSY; another sets its target QUIESCED, a whole-device image every partition, and the layout in force stands until the
load ends. Before flash discovery has ended, an image whose header, table and records are right stays in verification,
the rules across its sections being judged when the usable capacity is known (log entry 28). -/
def Obligations.VerificationEndsInReportOrDrain : Prop :=
  ∀ (clk : Nat) (s : State), s.img.phase = 1 → s.img.boot = [] →
    let n := seenClk s clk
    let failed := fun (e : LoadErr) => { n with img := { s.img with
      phase := 0, load := none, boot := [], code := e.code, sect := e.sect, record := e.record } }
    (s.fl.discovered = false → ∃ t, exec (.imageVerifyDone clk) s = .next t ∧
      match readImage s.img (stagedImage s) with
      | .error e => t = failed e
      | .ok _ => t = n) ∧
    (s.fl.discovered = true → ∃ t, exec (.imageVerifyDone clk) s = .next t ∧ t.img.layout = s.img.layout ∧
      match checkImage s.img (some (flashLimit s.fl)) (stagedImage s) with
      | .error e => t = failed e
      | .ok im =>
        if im.partial_ = false then t.img.load = some im ∧ ∀ p < 32, (partGet t p).st = .quiesced
        else if (partGet s im.target).st = .quiesced ∨ (partGet s im.target).st = .resetting then
          t = failed { code := 0x16 }
        else t.img.phase = 2 ∧ t.img.load = some im ∧ (partGet t im.target).st = .quiesced)

/-- The drain of a QUIESCED partition (R74, R75, R384): it ends once nothing of the partition is in service; the load of
a partition image then goes on to its fill, a reset has nothing to wait for but its cause, and of a whole-device load the
partition is drained, the last one beginning the fill. 64 frames after QUIESCED was set what is still in service ends:
nothing of the partition is in service any more, and a request that was in service alone is answered QUIESCED. -/
def Obligations.DrainEnds : Prop :=
  ∀ (part : Fin 32) (s : State),
    let x := partGet s part
    x.st = .quiesced → x.drained = false → x.why ≠ 0 →
    ((∀ v ∈ s.svc, v.req.pkt.part.toNat ≠ part.val) → (∀ t ∈ s.coh.txns, t.part ≠ part.val) →
      (∀ q < 64, (pairGet s part q).service = none) →
      ∃ t, exec (.partitionDrainDone part) s = .next t ∧
        (partGet t part).drained = true ∧ (partGet t part).st = .quiesced ∧
        (x.why = 1 → s.img.load ≠ none → t.img.phase = 3) ∧
        (x.why = 3 → t = partSet s part { x with drained := true }) ∧
        (x.why = 4 → t.img.draining = s.img.draining.filter (· ≠ part.val) ∧
          t.img.phase = if t.img.draining = [] then 3 else s.img.phase)) ∧
    (x.since + 64 ≤ s.td.ptime →
      ∃ t, exec (.drainTimeout part) s = .next t ∧ (∀ v ∈ t.svc, v.req.pkt.part.toNat ≠ part.val) ∧
        (∀ y ∈ t.coh.txns, y.part ≠ part.val) ∧ (∀ q < 64, (pairGet t part q).service = none) ∧
        ∀ v port, s.svc = [v] → v.req.origin = .fabric port → v.req.pkt.part.toNat = part.val →
          s.coh.gathered = [] → s.coh.pubWait = [] → s.coh.placing = [] → s.coh.txns = [] → s.twn.held = [] →
          s.twn.answers = [] → (∀ q < 64, (pairGet s part q).service = none) →
          t = finish s v (endWith .quiesced (some v.req.pkt.addr.toNat)))

/-- A partition image takes effect (R74, R76, R346): its structure is in force, the target waits for the next tick to
become ACTIVE, or UNUSED when it is retired, under a new epoch and without an exchange key. -/
def Obligations.PartitionImageTakesEffect : Prop :=
  ∀ (part : Fin 32) (s : State) (im : Image),
    s.img.phase = 3 → s.img.load = some im → im.partial_ = true → im.target = part.val →
    (partGet s part).why = 1 → (partGet s part).drained = true → (∀ x ∈ s.coh.txns, x.part ≠ part.val) →
    ∃ t, exec (.partitionFillDone part) s = .next t ∧ t.img.layout = im.layout ∧ t.img.phase = 4 ∧ t.img.load = none ∧
      t.img.serial = s.img.serial ∧
      (partGet t part).next = some (if (partRecOf im.layout part).isNone then .unused else .active) ∧
      (partGet t part).epoch = ((partGet s part).epoch + 1) % 2 ^ 32 ∧ (partGet t part).exch = none ∧
      (partGet t part).serial = im.serial ∧ (partGet t part).digest = im.digest

/-- A whole-device image takes effect by a warm start (R73, R77, R108, R109): its structure is in force and LOADED shows,
nothing is in service, and powered time and the boot counter stand. -/
def Obligations.WholeDeviceImageTakesEffect : Prop :=
  ∀ (s : State) (im : Image), s.img.phase = 3 → s.img.load = some im → im.partial_ = false →
    ∃ t, exec .wholeDeviceFillDone s = .next t ∧ t.img.layout = im.layout ∧ t.img.loaded = true ∧ t.img.phase = 4 ∧
      t.img.serial = im.serial ∧ t.img.load = none ∧ t.svc = [] ∧ t.td.ptime = s.td.ptime ∧ t.td.boot = s.td.boot ∧
      t.img.owners = s.img.owners

/-- The boot slots (R72, R228): with neither slot valid no image is in force and the failure of slot B shows; else the
valid images stand, the higher SERIAL first, slot A's on equal SERIAL, until flash discovery has ended; then the first
whose FLASH regions fit is in force. -/
def Obligations.BootSlotsLoad : Prop :=
  ∀ (slotA slotB : List Byte) (s : State), s.pwr.stage = .serving →
    (s.img.bootDue = true → s.img.phase = 0 →
      ∃ t, exec (.bootImageLoad slotA slotB) s = .next t ∧ t.img.bootDue = false ∧ t.img.layout = s.img.layout ∧
        t.img.loaded = s.img.loaded ∧
        ∀ u, u = (if s.fl.discovered then some (flashLimit s.fl) else none) →
          match checkImage s.img u slotA, checkImage s.img u slotB with
          | .error _, .error e => t.img.phase = 0 ∧ t.img.boot = [] ∧ t.img.code = e.code
          | .ok a, .error _ => t.img.phase = 1 ∧ t.img.boot.map (·.1) = [a]
          | .error _, .ok b => t.img.phase = 1 ∧ t.img.boot.map (·.1) = [b]
          | .ok a, .ok b => t.img.phase = 1 ∧
              t.img.boot.map (·.1) = if a.serial < b.serial then [b, a] else [a, b]) ∧
    (s.img.phase = 1 → s.img.boot ≠ [] → s.fl.discovered = true →
      ∃ t, exec .bootImageApply s = .next t ∧
        match s.img.boot.find? (fun b => decide (flashUnits b.1.layout ≤ flashLimit s.fl)) with
        | none => t.img.phase = 0 ∧ t.img.boot = [] ∧ t.img.code = 0x0D ∧ t.img.layout = s.img.layout
        | some b => t.img.layout = b.1.layout ∧ t.img.loaded = true ∧ t.img.serial = b.1.serial ∧ t.img.phase = 4)

/-! ### Frames and admission -/

/-- Registered FRM_SYNC edges and the writes beside them (R84, R85, R108, R111): in UNLOCKED an edge gives a tick 12 clk
later and enters LOCKED; in LOCKED and HOLDOVER one whose tick would fall 8,176 to 8,208 clk after the last does the
same, and any other counts as stray; none counts while FREERUN is 1, or in D2 and D3. RELOCK and FREERUN enter UNLOCKED;
CLR zeroes the counts. (That RELOCK and FREERUN drop an edge already taken is log entry 15's choice.) -/
def Obligations.SyncStateFollowsEdges : Prop :=
  ∀ (clk : Nat) (v : Bool) (s : State),
    let n := seenClk s clk
    let d := clk - s.td.tickClk + 12
    let counts := s.td.freerun = false ∧ s.pwr.state < 2
    let taken := { n with td := { n.td with edgeTick := some (clk + 12), sync := 1 } }
    (¬ counts → exec (.frmSyncEdge clk) s = .next n) ∧
    (counts → s.td.sync = 0 → exec (.frmSyncEdge clk) s = .next (if s.td.edgeTick.isSome then n else taken)) ∧
    (counts → s.td.sync ≠ 0 → s.td.edgeTick = none → 8176 ≤ d → d ≤ 8208 → exec (.frmSyncEdge clk) s = .next taken) ∧
    (counts → s.td.sync ≠ 0 → s.td.edgeTick ≠ none ∨ d < 8176 ∨ 8208 < d →
      exec (.frmSyncEdge clk) s = .next { n with td := { n.td with stray := min 65535 (s.td.stray + 1) } }) ∧
    (s.td.freerun = false → s.td.sync ≠ 0 →
      exec .relock s = .next { s with td := { s.td with sync := 0, edgeTick := none } }) ∧
    (s.td.freerun = true ∨ s.td.sync = 0 → exec .relock s = .next s) ∧
    (v = true → exec (.freerunWrite v) s =
      .next { s with td := { s.td with freerun := true, sync := 0, edgeTick := none } }) ∧
    (v = false → exec (.freerunWrite v) s = .next { s with td := { s.td with freerun := false } }) ∧
    exec .syncErrClear s = .next { s with td := { s.td with missed := 0, stray := 0 } }

/-- A tick falls where R84 puts it and nowhere else: PTIME advances by one, the length of the frame is kept, the edge is
used up; in LOCKED and HOLDOVER a frame without a valid edge is missed, but not in D2, whose timer is free of FRM_SYNC.
The boot counter stands (R108, R109). -/
def Obligations.TickFallsOnItsClkOnly : Prop :=
  ∀ (clk : Nat) (inp : TickInputs) (s : State),
    let runs := s.pwr.stage = .filling ∨ (s.pwr.stage = .serving ∧ s.pwr.state ≠ 3)
    let due := if s.pwr.state = 2 then s.td.tickClk + 8192
      else s.td.edgeTick.getD (s.td.tickClk + if s.td.sync = 1 then 8208 else 8192)
    let missed := s.pwr.state ≠ 2 ∧ s.td.sync ≠ 0 ∧ s.td.edgeTick = none
    (¬ (runs ∧ clk = due) → exec (.frameTick clk inp) s = .next s) ∧
    (runs → clk = due → overTrip inp = false →
      ∃ t, exec (.frameTick clk inp) s = .next t ∧ t.td.ptime = (s.td.ptime + 1) % 2 ^ 64 ∧ t.td.tickClk = clk ∧
        t.td.lastLen = clk - s.td.tickClk ∧ t.td.edgeTick = none ∧ t.td.boot = s.td.boot ∧
        (missed → t.td.sync = 2 ∧ t.td.missed = min 65535 (s.td.missed + 1) ∧
          t.td.hold = (s.td.hold || decide (s.td.sync = 1))) ∧
        (¬ missed → t.td.sync = s.td.sync ∧ t.td.missed = s.td.missed ∧ t.td.hold = s.td.hold))

/-- Credit at a tick and at a charge (R90, R94): each tick adds A = min(ALLOT, LIMIT) up to A + BURST; a charge takes the
whole cost, below zero if need be; neither touches another flow. -/
def Obligations.CreditFollowsAllotment : Prop :=
  ∀ (s : State) (k u j : Nat),
    (∀ r, allotOf s.img.layout k = some r →
      (flowGet (tickFlow s k) k).credit =
        min ((flowGet s k).credit + min r.allot (flowGet s k).limit) (min r.allot (flowGet s k).limit + r.burst)) ∧
    (flowGet (charge s k u) k).credit = (flowGet s k).credit - u ∧
    (j ≠ k → flowGet (tickFlow s k) j = flowGet s j ∧ flowGet (charge s k u) j = flowGet s j)

/-- The order of R92 on arrival, of the request R89 lets arrive next: of those sunk in the clk of the oldest, one of
plane A comes before one of plane B (within a plane the lower port, log entry 13). What R26, R354, R382 or R385 turns
away enters no queue. Any other request: a flow without an allotment ends it and counts VIOL; LIMIT 0 ends it; red
discards it where the policer says so; a fifth packet ends with RETRY; else it enters the queue of its flow, last,
deferred when red. No request is in service yet. -/
def Obligations.ArrivalStepsInOrder : Prop :=
  ∀ (clk : Nat) (r : Request) (s : State),
    let k := requestFlow s r
    let p := flowPart k
    let f := flowGet s k
    let pol := policerOf s.img.layout k
    let m := meter pol f.tc f.tp r.colour (meteredUnits r)
    let allot := ((allotOf s.img.layout k).map (·.allot)).getD 0
    nextArrival s.fab.arrivals = some r →
    ∃ t, exec (.requestArrival clk) s = .next t ∧ t.fab.arrivals = s.fab.arrivals.erase r ∧ t.svc = s.svc ∧
      (isFenced s (flowHost k) (flowReq k) = true ∨ (partGet s p).st ≠ .active ∨
        (halfInReset s ≠ none ∧ halfInReset s = originPlane r.origin) ∨
        (isConf s p = true ∧ (partGet s p).keys.keyed = false) → (flowGet t k).queue = f.queue) ∧
      (isFenced s (flowHost k) (flowReq k) = false → (partGet s p).st = .active →
        (halfInReset s = none ∨ halfInReset s ≠ originPlane r.origin) →
        (isConf s p = true → (partGet s p).keys.keyed = true) →
        (allot = 0 → (partGet t p).cnt.viol = min 65535 ((partGet s p).cnt.viol + 1)) ∧
        (allot = 0 ∨ f.limitNow = 0 → (flowGet t k).queue = f.queue) ∧
        (allot ≠ 0 → f.limitNow ≠ 0 →
          if m.1 = 2 ∧ (pol.map (·.drop)).getD false = true then
            (flowGet t k).queue = f.queue ∧ (flowGet t k).drop = min 65535 (f.drop + 1) ∧ t.out = s.out
          else if 4 ≤ f.queue.length then (flowGet t k).queue = f.queue ∧ (flowGet t k).retry = min 65535 (f.retry + 1)
          else (flowGet t k).queue = f.queue ++ [{ req := { r with arrived := clk }, deferred := decide (m.1 = 2) }]))

/-- Admission (R30, R92, R96, R103): a head whose NET has passed, in a flow with credit, not deferred and within an open
window, leaves the queue; its cost is charged, and it is in service under the next ticket, unless its address names
another partition than its tag, which ends it. A head that an Ethernet queue pair owes no answer any more (`staleReq`; R324, R329)
only leaves. A head that must wait stays. LIMIT is clamped to ALLOT. -/
def Obligations.AdmissionTakesTheHead : Prop :=
  ∀ (flow : FlowKey) (clk : Nat) (v : BitVec 16) (s : State),
    let k := flowKeyNat flow
    let n := seenClk s clk
    let f := flowGet s k
    (∀ h rest, f.queue = h :: rest → f.net ≤ absSlot n clk → 0 < f.credit → h.deferred = false →
      fitsAt n k clk (meteredUnits h.req) (unitTime h.req) = true →
      ∃ t, exec (.flowAdmit flow clk) s = .next t ∧ (flowGet t k).queue = rest ∧
      (staleReq n h.req = true → (flowGet t k).credit = f.credit ∧ t.svc = s.svc) ∧
      (staleReq n h.req = false → (flowGet t k).credit = f.credit - costOf n h.req ∧ t.nextTicket = s.nextTicket + 1 ∧
        (addrPart h.req.pkt.addr.toNat = flowPart k → ∃ v, t.svc = s.svc ++ [v] ∧ v.ticket = s.nextTicket ∧
          v.key = k ∧ v.req = h.req) ∧
        (addrPart h.req.pkt.addr.toNat ≠ flowPart k → ∀ v ∈ t.svc, v.ticket ≠ s.nextTicket))) ∧
    (f.credit ≤ 0 ∨ absSlot n clk < f.net ∨ f.queue = [] → exec (.flowAdmit flow clk) s = .next n) ∧
    (∀ h rest, f.queue = h :: rest →
      h.deferred = true ∨ fitsAt n k clk (meteredUnits h.req) (unitTime h.req) = false →
      exec (.flowAdmit flow clk) s = .next n) ∧
    (∀ r, allotOf s.img.layout k = some r →
      ∃ t, exec (.flowLimitWrite flow v) s = .next t ∧ flowGet t k = { f with limit := min v.toNat r.allot } ∧
        ∀ j ≠ k, flowGet t j = flowGet s j) ∧
    (allotOf s.img.layout k = none → exec (.flowLimitWrite flow v) s = .next s)

/-- What waits in a flow (R87, R97, R98, R99, R102): the second metering of a flow comes after those of the lower flows,
and after it no packet deferred in an earlier frame is deferred any more and no other packet is lost; a window's opening
returns W_end to the clk it opens at; a release takes a flow whose head may be admitted off the wheel, and touches
neither queue nor credit of any flow. -/
def Obligations.WaitingFlowsAreRevisited : Prop :=
  ∀ (flow : FlowKey) (clk : Nat) (s : State),
    let k := flowKeyNat flow
    let n := seenClk s clk
    let f := flowGet s k
    let due := fun (q : QueuedReq) => q.deferred = true ∧ q.req.arrived < s.td.tickClk
    ((∃ e ∈ s.flows, e.1 < k ∧ ∃ q ∈ e.2.queue, due q) → exec (.redRemeter flow) s = .next s) ∧
    ((∀ e ∈ s.flows, e.1 < k → ∀ q ∈ e.2.queue, ¬ due q) →
      ∃ t, exec (.redRemeter flow) s = .next t ∧ (∀ q ∈ (flowGet t k).queue, ¬ due q) ∧
        (∀ q ∈ f.queue, ¬ due q → q ∈ (flowGet t k).queue) ∧ (flowGet t k).credit = f.credit) ∧
    ((gatesOf s.img.layout k).any (fun g => g.opens == slotOf n clk) = true →
      ∃ t, exec (.gateWindowOpen flow clk) s = .next t ∧ (flowGet t k).wEnd = s.td.tickClk + 128 * slotOf n clk ∧
        (flowGet t k).queue = f.queue ∧ ∀ j ≠ k, flowGet t j = flowGet s j) ∧
    (∃ t, exec (.wheelRelease clk) s = .next t ∧
      (∀ j, (flowGet t j).queue = (flowGet s j).queue ∧ (flowGet t j).credit = (flowGet s j).credit) ∧
      (∀ w, f.wheel = some w → w ≤ absSlot n clk → headAdmissible n k clk = true → (flowGet t k).wheel = none) ∧
      (f.wheel = none → flowGet t k = f))

/-! ### The link -/

/-- What a flit does that reaches a port in service (R118, R119, R121, R132): one that fails its CRC or has a reserved
type, or DATA out of sequence, delivers nothing and leaves E; DATA in sequence moves E on by one and ends NAK state;
whatever the flit, E is the number of the next DATA flit taken. -/
def Obligations.FlitsAreTakenInSequence : Prop :=
  ∀ (p : Port) (f : Flit) (clk : Nat),
    let seq := (f.t0.extractLsb' 16 12).toNat
    let q := (receiveFlit p f clk).1
    let ty := (f.t0.extractLsb' 28 4).toNat
    (f.t3 ≠ flitCrc f.data f.t0 f.t1 f.t2 ∨ ty = 0 ∨ 3 < ty →
      q.rxExp = p.rxExp ∧ q.ingress = p.ingress ∧ q.rx = p.rx ∧ q.nakState = true ∧
        q.cnt.crc = min (2 ^ 32 - 1) (p.cnt.crc + 1) ∧ q.replay = p.replay ∧ q.credits = p.credits) ∧
    (f.t3 = flitCrc f.data f.t0 f.t1 f.t2 → ty = 1 →
      (seq = p.rxExp → q.rxExp = (p.rxExp + 1) % 4096 ∧ q.nakState = false) ∧
      (seq ≠ p.rxExp → q.rxExp = p.rxExp ∧ q.ingress = p.ingress ∧ q.rx = p.rx))

/-- Blocks reach a port by its state (R116, R117, R122, R123, R126, R132): a port that is DISABLED, DOWN or FAILED
receives nothing. In TRAIN a training block on an unpruned lane goes on the lane's run of consecutive BSEQ, or starts it
anew, and 64 make the lane good; a block that cannot be decoded ends the run. Before the peer's SEEN no striped block is
taken. In ACTIVE an uncorrectable striped block loses its five flits and starts NAK state; one with the BSEQ expected
gives its flits to the port, in order, and nothing besides its corrected symbols; a slip of BSEQ starts a reset with
cause LANE. -/
def Obligations.BlocksReachTheirPort : Prop :=
  ∀ (port : Fin 8) (lane : Fin 5) (xs : List Nat) (ls : List (List Nat)) (clk : Nat) (s : State),
    let p := portGet s port
    let n := seenClk s clk
    let one := Instr.fecBlockReceive port (.lane lane xs) clk
    let all := Instr.fecBlockReceive port (.striped ls) clk
    let word := decodeSymbols (weave (1088 / ls.length) ls)
    let charged := fun (fixed : List Nat) =>
      chargeSymbols p (fixed.map (fun j => (rxLanes p).getD (j % (rxLanes p).length) 0))
    (p.state = 0 ∨ p.state = 1 ∨ p.state = 5 → exec one s = .next n ∧ exec all s = .next n) ∧
    (p.state = 2 → p.rxSwitched = false → lane.val < p.laneRun.length → lane.val < p.laneBseq.length →
      p.pruned.testBit lane = false →
      (decodeSymbols xs = none → ∃ q, exec one s = .next (portSet n port q) ∧ q.laneRun.getD lane 0 = 0 ∧
        q.cnt.uncorr = min (2 ^ 32 - 1) (p.cnt.uncorr + 1) ∧ q.trained = p.trained) ∧
      (∀ b fixed, decodeSymbols xs = some (b, fixed) → isTraining b = true → b.bht = 0xA →
        ∃ q, exec one s = .next (portSet n port q) ∧
          q.laneRun.getD lane 0 = (if nextBseq (p.laneBseq.getD lane 256) = b.bseq.toNat then p.laneRun.getD lane 0 + 1 else 1) ∧
          q.laneBseq.getD lane 256 = b.bseq.toNat ∧
          q.trained = if 64 ≤ q.laneRun.getD lane 0 then p.trained ||| (1 <<< lane.val) else p.trained)) ∧
    (p.state = 3 → p.peerSeen = false → p.rxSwitched = false → exec all s = .next (portSet n port p)) ∧
    (p.state = 4 → p.rxSwitched = true → word = none →
      ∃ q, exec all s = .next (portSet n port q) ∧ q.nakState = true ∧ q.state = 4 ∧
        q.cnt.uncorr = min (2 ^ 32 - 1) (p.cnt.uncorr + 1) ∧ q.rxExp = p.rxExp ∧ q.ingress = p.ingress ∧ q.rx = p.rx) ∧
    (∀ b fixed, p.state = 4 → word = some (b, fixed) → b.bht = 5 → wantedBseq p = b.bseq.toNat →
      ∀ q, receiveFlits clk b.flits { charged fixed with
          rxBseq := some ((b.bseq.toNat + 1) % 256), rxSwitched := true } = (q, none) → q.state = 4 →
        exec all s = .next (portSet n port q)) ∧
    (∀ b fixed, p.state = 4 → word = some (b, fixed) → b.bht = 5 → wantedBseq p ≠ 256 → wantedBseq p ≠ b.bseq.toNat →
      ioOn s = true → portEnabled s port = true → p.hold = false →
      ∃ q, exec all s = .next (portSet (portSet n port (charged fixed)) port q) ∧ Restarted (charged fixed) q 7 true)

/-- What a port sends in one slot, by its state (R115, R116, R118, R119, R123, R124, R126, R127, R131, R134): five flits
make a block, striped over the transmit lanes; a DATA flit takes the next sequence number and enters the replay buffer,
while one stays within the depth D, and carries the stream in order as far as credits are held; with nothing to send, or
without credit for the next packet, IDLE goes out; a running replay sends its next flit anew; TRAIN and INIT send an
unstriped block on each lane in use, and the sixteenth INIT block after the peer's SEEN is the last; DISABLED, DOWN and
FAILED send nothing. -/
def Obligations.SlotsSendByState : Prop :=
  ∀ (port : Fin 8) (clk : Nat) (s : State),
    let p := portGet s port
    let n := seenClk s clk
    let idle := makeFlit p 2 p.txNext 0 15 (List.replicate 240 0)
    let next := packetOfBytes p.tx.bytes
    let pool := poolOf next.cls.toNat next.vc
    let held := 1 ≤ (p.credits.getD (2 * pool) {}).avail ∧ dataCredits next.len.toNat ≤ (p.credits.getD (2 * pool + 1) {}).avail
    (p.state = 0 ∨ p.state = 1 ∨ p.state = 5 → exec (.flitSend port clk) s = .next n) ∧
    (p.state = 4 → p.block.length < 4 → p.replayPos = none →
      p.tx.bytes = [] ∨ depthOf p ≤ p.replay.length ∨ (p.tx.need = 0 ∧ 32 ≤ p.tx.bytes.length ∧ ¬ held) →
      exec (.flitSend port clk) s = .next (portSet n port { p with
        slotCount := p.slotCount + 1, block := p.block ++ [idle] })) ∧
    (p.state = 4 → p.block.length < 4 → p.replayPos = none → p.tx.bytes ≠ [] → p.replay.length < depthOf p →
      0 < p.tx.need ∨ (32 ≤ p.tx.bytes.length ∧ held) →
      ∃ q f k, exec (.flitSend port clk) s = .next (portSet n port q) ∧ q.block = p.block ++ [f] ∧
        f.t0.extractLsb' 16 12 = BitVec.ofNat 12 p.txNext ∧ q.txNext = (p.txNext + 1) % 4096 ∧
        q.replay.map (·.seq) = p.replay.map (·.seq) ++ [p.txNext] ∧ 0 < k ∧ q.tx.bytes = p.tx.bytes.drop k ∧
        (k ≤ 240 → f.data.take k = p.tx.bytes.take k) ∧ (240 ≤ p.tx.need → q.credits = p.credits)) ∧
    (∀ i f, p.state = 4 → p.block.length < 4 → p.replayPos = some i → p.replayFrom ≤ clk → p.replay[i]? = some f →
      exec (.flitSend port clk) s = .next (portSet n port { p with
        slotCount := p.slotCount + 1, replayPos := if i + 1 < p.replay.length then some (i + 1) else none,
        block := p.block ++ [makeFlit p 1 f.seq f.fill f.pstart f.data] })) ∧
    (p.state = 4 → p.block.length = 4 → p.replayPos = none → p.tx.bytes = [] →
      exec (.flitSend port clk) s = .next (emit
        (portSet n port { p with slotCount := p.slotCount + 1, block := [], txBseq := (p.txBseq + 1) % 256 })
        (.block port 5 p.txBseq (p.block ++ [idle]) (p.txLanes.zip
          (deal p.txLanes.length (1088 / p.txLanes.length) (blockSymbols 5 p.txBseq (p.block ++ [idle]))))))) ∧
    (p.state = 2 → exec (.flitSend port clk) s = .next (emit (portSet n port { p with txBseq := (p.txBseq + 1) % 256 })
      (.block port 0xA p.txBseq (List.replicate 5 trainFlit) ((setBits 5 (0x1F &&& (0x1F ^^^ p.pruned))).map
        (fun l => (l, blockSymbols 0xA p.txBseq (List.replicate 5 trainFlit))))))) ∧
    (∀ r, p.state = 3 → p.txSwitched = false → p.offer = some r →
      ∃ t, exec (.flitSend port clk) s = .next t ∧
        t.out = s.out ++ [.block port 0xA p.txBseq (List.replicate 5 (initFlit p r)) ((setBits 5 p.good).map
          (fun l => (l, blockSymbols 0xA p.txBseq (List.replicate 5 (initFlit p r)))))] ∧
        (portGet t port).initLeft = (if p.peerSeen ∧ p.peerInit.isSome then p.initLeft - 1 else p.initLeft) ∧
        (portGet t port).txSwitched = decide ((portGet t port).initLeft = 0) ∧
        ∀ j : Nat, j ≠ port → portGet t j = portGet s j)

/-- The replay timer (R135): where it has run for RTO clk with flits outstanding a replay starts at the oldest, up to
RLIM replays without an advance; one more starts a reset with cause REPLAY_LIMIT instead; a timer that has not run out
does nothing. A credit counter that has waited for CTO frames starts a reset that may not resume (R130, R137). -/
def Obligations.LinkTimersExpire : Prop :=
  ∀ (port : Fin 8) (c : Fin 16) (clk : Nat) (s : State),
    let p := portGet s port
    let n := seenClk s clk
    let due := p.state = 4 ∧ p.replay ≠ [] ∧ p.cfg.rto ≤ clk - p.timerStart
    (¬ due → exec (.replayTimeout port clk) s = .next n) ∧
    (due → p.replayCount < p.cfg.rlim →
      exec (.replayTimeout port clk) s = .next (portSet n port { p with
        replayCount := p.replayCount + 1, replayPos := some 0, replayFrom := clk + 2, timerStart := clk,
        cnt := { p.cnt with replayTimer := min 65535 (p.cnt.replayTimer + 1) } })) ∧
    (due → p.cfg.rlim ≤ p.replayCount → ioOn s = true → portEnabled s port = true → p.hold = false →
      ∃ q, exec (.replayTimeout port clk) s = .next (portSet n port q) ∧ Restarted p q 9 true) ∧
    (p.state = 4 → p.cfg.cto ≤ (p.credits.getD c {}).timer → ioOn s = true → portEnabled s port = true → p.hold = false →
      ∃ t, exec (.creditTimeout port c) s = .next t ∧ Restarted p (portGet t port) 10 false ∧
        (portGet t port).cnt.timeouts = min 65535 (p.cnt.timeouts + 1) ∧ ∀ j : Nat, j ≠ port → portGet t j = portGet s j) ∧
    (p.state ≠ 4 ∨ (p.credits.getD c {}).timer < p.cfg.cto → exec (.creditTimeout port c) s = .next s)

/-- The steps of a reset (R123, R124, R125, R126, R132): TRAIN goes on until every unpruned lane is good or 40 frames have
passed, then settles the good lanes, or fails with NO_SIGNAL; the first valid INIT takes the port DOWN on a wrong
neighbour or wiring, fails it on a bad parameter, or settles; an INIT flit that fails its CRC is none; an INIT in ACTIVE
is the peer's reset; a reset that has not advanced in 8 or 64 frames fails; the third failure in a row leaves the port
FAILED. -/
def Obligations.ResetsRunTheirSteps : Prop :=
  ∀ (port : Fin 8) (f : Flit) (clk : Nat) (s : State),
    let p := portGet s port
    let lanes := 0x1F &&& (0x1F ^^^ p.pruned)
    let done := p.trained &&& lanes = lanes ∨ p.resetFrame + 40 ≤ s.td.ptime
    let g := p.trained &&& (0x1F ^^^ p.pruned)
    let late := p.state = 3 ∧ p.peerInit = none ∧ p.initFrame + 8 ≤ s.td.ptime
    let r := initOf f.data
    let d := deliver p f s.td.now
    let failing := fun (p : Port) (c : Instr) (code : Nat) (resume : Bool) =>
      (p.failures < 2 → ∃ t, exec c s = .next t ∧ Restarted p (portGet t port) code resume ∧
        (portGet t port).failures = p.failures + 1) ∧
      (2 ≤ p.failures → ∃ t, exec c s = .next t ∧ (portGet t port).state = 5 ∧ (portGet t port).cause = code)
    (p.state = 2 → done → g ≠ 0 → ∃ q, exec (.trainEnd port clk) s = .next (portSet (seenClk s clk) port q) ∧
      q.state = 3 ∧ q.good = g ∧
      q.initFrame = s.td.ptime ∧ q.cause = p.cause ∧ ∃ o, q.offer = some o ∧ o.lanes.toNat = g % 32 ∧ o.seen = false ∧
        o.resume = p.offerResume ∧ o.port.toNat = port) ∧
    (p.state = 2 → done → g = 0 → failing p (.trainEnd port clk) 3 true) ∧
    (p.state ≠ 2 ∨ ¬ done → exec (.trainEnd port clk) s = .next (seenClk s clk)) ∧
    (flitGood f = false ∨ flitType f ≠ .init → exec (.initReceive port f) s = .next s) ∧
    (flitGood f = true → flitType f = .init → p.state = 3 → p.peerInit = none → d.2 = none →
      (initCheck s port r = some .neighbour →
        ∃ t, exec (.initReceive port f) s = .next t ∧ (portGet t port).state = 1 ∧ (portGet t port).cause = 4) ∧
      (initCheck s port r = some .wiring →
        ∃ t, exec (.initReceive port f) s = .next t ∧ (portGet t port).state = 1 ∧ (portGet t port).cause = 5) ∧
      (initCheck s port r = some .param → failing d.1 (.initReceive port f) 6 true) ∧
      (initCheck s port r = none →
        ∃ t, exec (.initReceive port f) s = .next t ∧ (portGet t port).state = 3 ∧ (portGet t port).peerInit = some r ∧
          (portGet t port).peerSeen = r.seen ∧ (portGet t port).peerNode = r.node.toNat ∧
          ∀ j : Nat, j ≠ port → portGet t j = portGet s j)) ∧
    (flitGood f = true → flitType f = .init → p.state = 4 → ioOn s = true → portEnabled s port = true → p.hold = false →
      ∃ t, exec (.initReceive port f) s = .next t ∧ Restarted d.1 (portGet t port) 12 true ∧
        ∀ j : Nat, j ≠ port → portGet t j = portGet s j) ∧
    (late → failing p (.linkResetTimeout port) 3 true) ∧
    (¬ late → p.state = 2 ∨ p.state = 3 → p.resetFrame + 64 ≤ s.td.ptime → failing p (.linkResetTimeout port) p.cause p.offerResume)

/-- Commands to a port (R136, R138, R140): loss of lock prunes the lane and resets at once; RETRAIN offers resume and
starts from no failures, FRESH does not offer it; CLR zeroes the link's counters and keeps those of the stop; a port
held is DOWN, and one let go trains, but HOLD only stands in a port that is DISABLED or that waits for RETRAIN; lanes
pruned and lanes restored wait for the next reset. -/
def Obligations.PortCommandsTakeEffect : Prop :=
  ∀ (port : Fin 8) (lane : Fin 5) (lanes : BitVec 5) (s : State),
    let p := portGet s port
    let live := p.state = 2 ∨ p.state = 3 ∨ p.state = 4
    let ready := ioOn s = true ∧ portEnabled s port = true ∧ p.hold = false
    (live → ready → ∃ t, exec (.laneLossOfLock port lane) s = .next t ∧
      Restarted { p with pruned := p.pruned ||| (1 <<< lane.val), restore := p.restore &&& (0x1F ^^^ (1 <<< lane.val)) }
        (portGet t port) 7 true) ∧
    (¬ live → exec (.laneLossOfLock port lane) s = .next s) ∧
    (ready → ∃ t, exec (.kxRetrain port) s = .next t ∧ Restarted p (portGet t port) 1 true ∧
      (portGet t port).failures = 0) ∧
    (live → ready → ∃ q, exec (.kxFresh port) s = .next (portSet s port q) ∧ Restarted p q 1 false) ∧
    (¬ live → exec (.kxFresh port) s = .next s) ∧
    (∃ q, exec (.kxClear port) s = .next (portSet s port { p with cnt := q }) ∧ q.resets = 0 ∧ q.crc = 0 ∧
      q.replayTimer = 0 ∧ q.thru = p.cnt.thru ∧ q.sink = p.cnt.sink ∧ q.dropped = p.cnt.dropped) ∧
    (p.state ≠ 0 → waitsSoftware p = false → ∃ t, exec (.kxHoldWrite port true) s = .next t ∧ (portGet t port).hold = true ∧
      (portGet t port).state = 1 ∧ (portGet t port).cause = 1) ∧
    (p.state = 1 → p.cause = 1 → ioOn s = true → portEnabled s port = true →
      ∃ t, exec (.kxHoldWrite port false) s = .next t ∧ (portGet t port).hold = false ∧
        Restarted p (portGet t port) 1 true) ∧
    (p.state = 0 ∨ waitsSoftware p = true → ∀ v : Bool,
      exec (.kxHoldWrite port v) s = .next (portSet s port { p with hold := v })) ∧
    (lanes ≠ 0 → exec (.kxLanePrune port lanes) s = .next (portSet s port { p with
      pruneWait := p.pruneWait ||| lanes.toNat, restore := p.restore &&& (0x1F ^^^ lanes.toNat),
      graftDue := p.graftDue || autoBit s 1 })) ∧
    (∃ q, exec (.kxLaneRestore port lanes) s = .next (portSet s port { p with
      restore := p.restore ||| lanes.toNat, pruneWait := p.pruneWait &&& (0x1F ^^^ lanes.toNat), laneErrs := q }) ∧
      q.length = 5 ∧ ∀ i < 5, q.getD i 0 = if lanes.getLsbD i then 0 else p.laneErrs.getD i 0)

/-! ### The ring -/

/-- The oldest packet at a port leaves its input buffer (R144, R148, R149, R154, R155): one whose LEN breaks the framing
is counted and goes no further; one addressed outside the grid, or that has made 127 hops, is counted and goes no
further; a multicast stays for its commands; one for another stop waits at the port of its route; one for this stop that
breaks the rules of its opcode is counted; a request among the others arrives. A unicast behind a multicast of its own
stream waits for it. -/
def Obligations.PacketsAreRouted : Prop :=
  ∀ (port : Fin 8) (b : Buffered) (rest : List Buffered) (s : State),
    let k := b.pkt
    let dest := k.dest.toNat
    let waits := k.mcast = false ∧ k.len.toNat ≤ 4096 ∧ ∃ y ∈ s.fab.mcasts, sameStream y.pkt k (y.port / 4) (port.val / 4) = true
    (portGet s port).ingress = b :: rest →
    (waits → exec (.packetRoute port) s = .next s) ∧
    (4096 < k.len.toNat → ∃ t, exec (.packetRoute port) s = .next t ∧ (portGet t port).ingress = rest ∧
      t.fab.frameErr = min 65535 (s.fab.frameErr + 1) ∧ t.fab.arrivals = s.fab.arrivals ∧ t.fab.inbox = s.fab.inbox ∧
      t.fab.waiting = s.fab.waiting) ∧
    (∀ r, ¬ waits → k.len.toNat ≤ 4096 → s.img.layout.ring = some r →
      ∃ t, exec (.packetRoute port) s = .next t ∧ (portGet t port).ingress = rest ∧
      (inGrid r dest = false → t.fab.unroutable = min 65535 (s.fab.unroutable + 1) ∧ t.fab.arrivals = s.fab.arrivals ∧
        (k.src.toNat ≠ r.node → t.fab.inbox = s.fab.inbox)) ∧
      (inGrid r dest = true → dest ≠ r.node → 127 ≤ k.hops.toNat → t.fab.hops = min 65535 (s.fab.hops + 1) ∧
        t.fab.arrivals = s.fab.arrivals ∧ (k.src.toNat ≠ r.node → t.fab.inbox = s.fab.inbox)) ∧
      (inGrid r dest = true → k.hops.toNat < 127 → k.cls = 3 → k.mcast = true →
        t.fab.mcasts = s.fab.mcasts ++ [{ pkt := k, port := port, since := b.since }]) ∧
      (inGrid r dest = true → k.hops.toNat < 127 → ¬ (k.cls = 3 ∧ k.mcast = true) →
        ∀ out, routeAt r (port.val / 4) dest = .port out → portHolds s out = true →
        ∃ w, t.fab.waiting = s.fab.waiting ++ [w] ∧ w.out = out ∧ w.inPort = port.val ∧ w.pkt = { k with vc := w.pkt.vc }) ∧
      (inGrid r dest = true → dest = r.node → ¬ (k.cls = 3 ∧ k.mcast = true) →
        ¬ (opcodeRule k (fabEnc s k.part.toNat) = true ∧ alignRule k = true) →
        t.fab.opcodeErr = min 65535 (s.fab.opcodeErr + 1) ∧ t.fab.arrivals = s.fab.arrivals ∧
        (k.src.toNat ≠ r.node → t.fab.inbox = s.fab.inbox)) ∧
      (inGrid r dest = true → dest = r.node → opcodeRule k false = true → alignRule k = true →
        fabEnc s k.part.toNat = false → s.twn.state = 0 → k.cls = 0 →
        ∃ q, t.fab.arrivals = s.fab.arrivals ++ [q] ∧ q.origin = .fabric port ∧ q.pkt = { k with status := q.pkt.status }))

/-- An ACTIVE port with less than a flit left to send takes its next packet (R127, R148, R151, R152): of the packets that
are the first of their stream, hold their credits and, when they turn or are injected, leave the bubble, the one of
lowest rank; it makes a hop, and it stands at the end of the port's stream. Where no packet is ready, and in a port that
is not ACTIVE, none is taken. -/
def Obligations.ArbitrationSendsTheFirstByRank : Prop :=
  ∀ (port : Fin 8) (s : State),
    let p := portGet s port
    let ready := fun (w : RingPkt) => w ∈ s.fab.waiting ∧ w.out = port ∧ firstOfStream s w = true ∧
      holdsCredits p w = true ∧ holdsBubble p w = true
    (p.state ≠ 4 ∨ 240 ≤ p.tx.bytes.length → exec (.outputArbitration port) s = .next s) ∧
    (p.state = 4 → p.tx.bytes.length < 240 → (∀ w, ¬ ready w) →
      ∃ t, exec (.outputArbitration port) s = .next t ∧ t.fab = s.fab ∧ t.out = s.out) ∧
    (∀ w, p.state = 4 → p.tx.bytes.length < 240 → ready w → (∀ x, ready x → x = w ∨ arbRank w < arbRank x) →
      ∃ t, exec (.outputArbitration port) s = .next t ∧
        t.out = s.out ++ [.packet port { w.pkt with hops := w.pkt.hops + 1 }] ∧
        t.fab.waiting = s.fab.waiting.filter (fun x => x.age != w.age) ∧
        (portGet t port).tx.bytes = p.tx.bytes ++ packetBytes { w.pkt with hops := w.pkt.hops + 1 })

/-- The answer to a request (R36, R144, R145): it leaves service, and one packet returns to its source with its SEQ, the
status, and the data where there are any. -/
def Obligations.AnswersEchoTheRequest : Prop :=
  ∀ (s : State) (v : Service) (a : Ans) (port out : Nat) (r : RingRec),
    let k := v.req.pkt
    v.req.origin = .fabric port → s.img.layout.ring = some r → routeAt r (port / 4) k.src.toNat = .port out →
    portHolds s out = true → fabEnc s k.part.toNat = false → isFenced s false k.src.toNat = false → a.status ≠ .retry →
    let t := finish s v a
    t.svc = s.svc.filter (fun x => x.ticket ≠ v.ticket) ∧ t.stk = s.stk ∧ t.near = s.near ∧ t.flows = s.flows ∧
    ∃ w, t.fab.waiting = s.fab.waiting ++ [w] ∧ w.out = out ∧ w.pkt.dest = k.src ∧ w.pkt.seq = k.seq ∧
      w.pkt.part = k.part ∧ w.pkt.status = BitVec.ofNat 4 (statusCode a.status) ∧
      pktOp w.pkt = (if a.data.isSome then .data else .cmp) ∧ w.pkt.payload = a.data.getD []

/-- Multicast writes and signals (R148, R154, R159 to R162, R354): the oldest of the opcode that has none of its own
stream before it leaves this stop. One that breaks R159 at its first stop is counted and ends there with MC_DONE, FAULT
and an empty mask; one that breaks the rules of its opcode is counted; one whose bit is clear here takes nothing. A copy
that is refused, with FENCED for a fenced source and the status of a partition that is not ACTIVE, stores and charges
nothing: its bit is cleared, and the status goes into a STATUS that is still OK. One that is accepted is charged at the
flow of its source; the counters of both leave out a confidential partition. At DEST the multicast ends with MC_DONE,
which carries its STATUS and its mask; elsewhere it goes on along its ring. The accepted copy of a write within one line
of published memory without errors leaves its bytes there, that of a signal adds 1 to the word, and no other byte of
memory changes. With none of its opcode standing a command does nothing. -/
def Obligations.MulticastsCopyAndMoveOn : Prop :=
  ∀ (s : State),
    ((∀ y ∈ s.fab.mcasts, pktOp y.pkt = .mcSig) → exec .mcWr s = .next s) ∧
    ((∀ y ∈ s.fab.mcasts, pktOp y.pkt ≠ .mcSig) → exec .mcSig s = .next s) ∧
    ∀ (r : RingRec) (pre post : List Sunk) (x : Sunk),
      let p := x.pkt
      let follows := fun (z y : Sunk) => sameStream z.pkt y.pkt (z.port / 4) (y.port / 4) = true
      s.img.layout.ring = some r → s.fab.mcasts = pre ++ x :: post → (∀ y ∈ pre, ¬ follows y x) →
      (∀ a y b, pre = a ++ y :: b → (pktOp y.pkt = .mcSig ↔ pktOp p = .mcSig) → ∃ z ∈ a, follows z y) →
      let part := p.part.toNat
      let plane := x.port / 4
      let bit := mcPos p.dim r.node
      let k := flowNat part false p.src.toNat
      let out := 4 * plane + 2 * bit01 p.dim + bit01 p.dir
      let bad := p.hops.toNat ≤ 1 ∧ mcWellFormed r p = false
      let rules := opcodeRule p (fabEnc s part) = true ∧ alignRule p = true
      let fenced := isFenced s false p.src.toNat = true ∨ isFenced s false (homeNode s) = true
      ∃ t, (pktOp p = .mcSig → exec .mcSig s = .next t) ∧ (pktOp p ≠ .mcSig → exec .mcWr s = .next t) ∧
        t.fab.mcasts = pre ++ post ∧
        let counts := fun (sunk refused : Nat) => t.fab.mcSunk = sunk ∧ t.fab.refusedMc = refused
        let still := t.stk = s.stk ∧ t.near = s.near ∧ t.flows = s.flows
        let done := fun (st : Status) (mask : BitVec 64) =>
          ∀ o, routeAt r plane p.src.toNat = .port o → portHolds s o = true → fabEnc s part = false →
            ∃ w, t.fab.waiting = s.fab.waiting ++ [w] ∧ w.out = o ∧ pktOp w.pkt = .mcDone ∧ w.pkt.dest = p.src ∧
              w.pkt.seq = p.seq ∧ w.pkt.status = BitVec.ofNat 4 (statusCode st) ∧ w.pkt.aux = mask
        let onward := fun (q : Packet) =>
          (p.dest.toNat = r.node → done (statusOf q.status.toNat) q.aux) ∧
          (p.dest.toNat ≠ r.node → portHolds s out = true →
            ∃ w, t.fab.waiting = s.fab.waiting ++ [w] ∧ w.out = out ∧ w.pkt = { q with vc := w.pkt.vc })
        (bad → t.fab.badMc = min 65535 (s.fab.badMc + 1) ∧ counts s.fab.mcSunk s.fab.refusedMc ∧ still ∧ done .fault 0) ∧
        (¬ bad → p.aux.getLsbD bit = false → counts s.fab.mcSunk s.fab.refusedMc ∧ still ∧ onward p) ∧
        (¬ bad → p.aux.getLsbD bit = true → ¬ rules →
          t.fab.opcodeErr = min 65535 (s.fab.opcodeErr + 1) ∧ counts s.fab.mcSunk s.fab.refusedMc ∧ still) ∧
        (¬ bad → p.aux.getLsbD bit = true → rules →
          (∀ st, mcBar s plane p = some st ∨ (fenced ∧ st = .fenced) ∨ (¬ fenced ∧ partStatus s part = some st) →
            counts s.fab.mcSunk (if isConf s part then s.fab.refusedMc else min 65535 (s.fab.refusedMc + 1)) ∧ still ∧
            onward { p with
              aux := p.aux &&& ~~~(1#64 <<< bit)
              status := if p.status = 0 then BitVec.ofNat 4 (statusCode st) else p.status }) ∧
          (mcBar s plane p = none → fabEnc s part = false →
            counts (if isConf s part then s.fab.mcSunk else (s.fab.mcSunk + 1) % 2 ^ 32) s.fab.refusedMc ∧
            (flowGet t k).credit = (flowGet s k).credit - packetUnits p.len.toNat ∧
            ∀ (reg : RegionRec) (sl a n : Nat),
              n = (if pktOp p = .mcSig then 8 else p.payload.length) → 0 < n → addrOff p.addr.toNat % 64 + n ≤ 64 →
              placeOf s part (addrOff p.addr.toNat) = .pinned reg sl a → regionCoherent reg = false → a + n ≤ 2 ^ 33 →
              (lineWords sl a).all (fun w => decide (markGet s w = {})) = true → ReservesClean s → s.di.injArm = false →
              s.twn.state = 0 → s.svc = [] → s.coh.gathered = [] → s.coh.txns = [] → s.coh.placing = [] →
              onward p ∧ DramKeptBut s t sl a n ∧
              (pktOp p ≠ .mcSig → dramBytes t sl a n = p.payload) ∧
              (pktOp p = .mcSig → leNat (dramBytes t sl a 8) = (leNat (dramBytes s sl a 8) + 1) % 2 ^ 64)))

/-! ### Requests -/

/-- A read (R145, R146, R285, R304): of no bytes it ends EMPTY; of bytes of one line of published memory without errors
it answers DATA with the bytes that stand there, and stores nothing; at an address that nothing maps it ends FAULT. A
read that pops a completion is no read of memory. -/
def Obligations.ReadsReturnWhatIsStored : Prop :=
  ∀ (clk : Nat) (s : State) (v : Service) (r : RegionRec) (sl a : Nat),
    let k := v.req.pkt
    let off := addrOff k.addr.toNat
    let n := readLen k
    Alone s v → pktOp k = .rd →
    (∀ q, popOf (seenClk s clk) k = some q → exec (.rd v.ticket clk) s = .next (seenClk s clk)) ∧
    (popOf (seenClk s clk) k = none →
    (n = 0 → exec (.rd v.ticket clk) s = .next (finish (seenClk s clk) v (endWith .empty (some k.addr.toNat)))) ∧
    (0 < n → off % 64 + n ≤ 64 → placeOf s (addrPart k.addr.toNat) off = .pinned r sl a → regionCoherent r = false →
      sliceFenced s sl = false → ReservesClean s → (lineWords sl a).all (fun w => decide (markGet s w = {})) = true →
      ∃ u, Touches { td := true, eng := true, parts := true } s u ∧
        exec (.rd v.ticket clk) s = .next (finish u v { status := .ok, data := some (dramBytes s sl a n) })) ∧
    (0 < n → off % 64 + n ≤ 64 → placeOf s (addrPart k.addr.toNat) off = .none → ReservesClean s →
      ∃ u ans, Touches { td := true, eng := true, parts := true } s u ∧ ans.status = .fault ∧ ans.data = none ∧
        exec (.rd v.ticket clk) s = .next (finish u v ans)))

/-- A write (R146, R147, R298, R303, R305): of no bytes it ends EMPTY; of bytes of one line of published memory that is
not poisoned it stores them, with a word that one flipped bit met on its way corrected, and no other byte of memory
changes; to a poisoned line, when it does not cover it, it stores nothing and ends POISON. -/
def Obligations.WritesStoreTheirBytes : Prop :=
  ∀ (clk : Nat) (s : State) (v : Service) (r : RegionRec) (sl a : Nat),
    let k := v.req.pkt
    let off := addrOff k.addr.toNat
    let n := k.payload.length
    Alone s v → pktOp k = .wr →
    (n = 0 → exec (.wr v.ticket { clk := clk }) s =
      .next (finish (seenClk s clk) v (endWith .empty (some k.addr.toNat)))) ∧
    (0 < n → off % 64 + n ≤ 64 → placeOf s (addrPart k.addr.toNat) off = .pinned r sl a → regionCoherent r = false →
      sliceFenced s sl = false → a + n ≤ 2 ^ 33 → s.di.injArm = false → ReservesClean s →
      (∀ words : List (Nat × Nat), (∀ e ∈ words, ∃ i < 80, e.2 = 2 ^ i) →
        (lineWords sl a).all (fun w => decide (markGet s w = {})) = true →
        ∃ u, Touches { td := true, eng := true, parts := true, stk := true, dram := true, di := !words.isEmpty } s u ∧
          exec (.wr v.ticket { clk := clk, words := words }) s = .next (finish u v { status := .ok }) ∧
          dramBytes u sl a n = k.payload ∧ DramKeptBut s u sl a n) ∧
      (linePoisoned s sl a = true → n < 64 →
        ∃ u ans, Touches { td := true, eng := true, parts := true, stk := true, di := true } s u ∧ ans.status = .poison ∧
          exec (.wr v.ticket { clk := clk }) s = .next (finish u v ans)))

/-- An atomic on published memory (R145): it answers with the eight bytes that stood there; fetch-add leaves their sum
with the operand, swap the operand, compare-swap the operand where they equal the compare value; no other byte of
memory changes. -/
def Obligations.AtomicsReadModifyWrite : Prop :=
  ∀ (clk : Nat) (s : State) (v : Service) (r : RegionRec) (sl a : Nat),
    let k := v.req.pkt
    let off := addrOff k.addr.toNat
    let old := leNat (dramBytes s sl a 8)
    let operand := fieldAt k.payload 0 8
    Alone s v → pktOp k = .atom → off % 8 = 0 → placeOf s (addrPart k.addr.toNat) off = .pinned r sl a →
    regionCoherent r = false → sliceFenced s sl = false → a + 8 ≤ 2 ^ 33 → s.di.injArm = false → ReservesClean s →
    (lineWords sl a).all (fun w => decide (markGet s w = {})) = true →
    ∃ t u, exec (.atom v.ticket clk) s = .next t ∧
      t = finish u v { status := .ok, data := some (dramBytes s sl a 8) } ∧
      Touches { td := true, eng := true, parts := true, stk := true, dram := true } s u ∧
      (k.arg = 0 → leNat (dramBytes u sl a 8) = (old + operand) % 2 ^ 64) ∧
      (k.arg = 1 → leNat (dramBytes u sl a 8) = operand) ∧
      (k.arg = 2 → leNat (dramBytes u sl a 8) = if old = fieldAt k.payload 8 8 then operand else old) ∧
      DramKeptBut s u sl a 8

/-- The near bank's request port (R254 to R256, R277): a word written stands in the share of its slice, unless the own
port writes the same window word in the clk, when the request ends COLLIDED, is counted outside confidential mode and
stores nothing; a read returns what stands there; a fetch-add and a swap return it and leave the sum and the operand; a
compare-swap ends FAULT. A request outside the window is none of its. -/
def Obligations.NearBankServesOneWord : Prop :=
  ∀ (clk : Nat) (own : List Nat) (s : State) (v : Service) (sl b : Nat),
    let k := v.req.pkt
    let off := addrOff k.addr.toNat
    let c := Instr.nearBankAccess v.ticket own clk
    let old := nearBytes s sl b 8
    let operand := fieldAt k.payload 0 8
    (Alone s v → off < nearBase → exec c s = .next (seenClk s clk)) ∧
    (Alone s v → nearBase ≤ off → off % 8 = 0 → s.eng.pairs = [] → s.near.flips = [] → s.near.lostRows = [] →
      s.near.own = [] → s.near.prior = [] → s.near.busy = [] →
      nearPlace (partSlices s.img.layout (addrPart k.addr.toNat)) (off - nearBase) = some (sl, b) →
      (pktOp k = .wr → k.payload.length = 8 → own.contains ((off - nearBase) / 8) = false →
        ∃ u, Touches { td := true, near := true, nearMem := true } s u ∧
          exec c s = .next (finish u v { status := .ok }) ∧ nearBytes u sl b 8 = k.payload) ∧
      (pktOp k = .wr → k.payload.length = 8 → own.contains ((off - nearBase) / 8) = true →
        ∃ u ans, Touches { td := true, near := true } s u ∧ ans.status = .collided ∧ exec c s = .next (finish u v ans) ∧
          u.near.coll = if isConf s (addrPart k.addr.toNat) then s.near.coll
            else s.near.coll.set (sl / 16) ((s.near.coll.getD (sl / 16) 0 + 1) % 2 ^ 32)) ∧
      (pktOp k = .rd → readLen k = 8 →
        ∃ u, Touches { td := true, near := true } s u ∧ exec c s = .next (finish u v { status := .ok, data := some old })) ∧
      (pktOp k = .atom → k.arg = 0 ∨ k.arg = 1 → own.contains ((off - nearBase) / 8) = false →
        ∃ u, Touches { td := true, near := true, nearMem := true } s u ∧
          exec c s = .next (finish u v { status := .ok, data := some old }) ∧
          leNat (nearBytes u sl b 8) = if k.arg = 0 then (leNat old + operand) % 2 ^ 64 else operand) ∧
      (pktOp k = .atom → k.arg = 2 →
        ∃ u ans, Touches { td := true } s u ∧ ans.status = .fault ∧ exec c s = .next (finish u v ans)))

/-! ### Coherence -/

/-- The rows of R179 in which the home needs no other agent: from I, RD_S and RD_X take the line's bytes from memory and
leave S of the requester, or X of it, with the line in BG; UPG from the one sharer leaves X and answers CMP; a recorded
holder that asks again ends FAULT and is counted, and the record stands; in P the bytes go out with POISON. -/
def Obligations.HomeGrantsFromMemory : Prop :=
  ∀ (clk : Nat) (s : State) (v : Service) (r : RegionRec) (sl a j : Nat),
    let addr := v.req.pkt.addr.toNat
    let e := dirGet s addr
    let line := dramBytes s sl a 64
    let granted := fun (c : Instr) (rec : DirEntry) (data : Option (List Byte)) =>
      ∃ u x, exec c s = .next (finish u v { status := .ok, data := data, addr := some addr }) ∧ dirGet u addr = rec ∧
        u.coh.txns = [x] ∧ x.line = addr ∧ x.busy = .BG ∧ x.agent = some j ∧ u.stk.dram = s.stk.dram
    AtHome s v r sl a j →
    (pktOp v.req.pkt = .rdS → e = {} → granted (.rdS v.ticket clk) { st := .S, sharers := 1 <<< j } (some line)) ∧
    (pktOp v.req.pkt = .rdX → e = {} →
      granted (.rdX v.ticket clk) { st := .X, owner := j, sharers := 1 <<< j } (some line)) ∧
    (pktOp v.req.pkt = .upg → e = {} →
      granted (.upg v.ticket clk) { st := .X, owner := j, sharers := 1 <<< j } (some line)) ∧
    (pktOp v.req.pkt = .upg → e = { st := .S, sharers := 1 <<< j } →
      granted (.upg v.ticket clk) { st := .X, owner := j, sharers := 1 <<< j } none) ∧
    (pktOp v.req.pkt = .rdS → e.sharers.testBit j = true →
      ∃ u, exec (.rdS v.ticket clk) s = .next (finish u v { status := .fault, addr := some addr }) ∧
        dirGet u addr = e ∧ u.coh.txns = [] ∧
        (u.coh.halves.getD (halfOf sl) {}).proto = min 65535 ((s.coh.halves.getD (halfOf sl) {}).proto + 1)) ∧
    (pktOp v.req.pkt = .rdX → e = { st := .P } →
      ∃ u, exec (.rdX v.ticket clk) s = .next (finish u v { status := .poison, data := some line, addr := some addr }) ∧
        dirGet u addr = e ∧ u.coh.txns = [])

/-- The rows of R179 in which the home asks agents: RD_S of a line owned by another sends SNP_FWD_S to the owner and
waits in BF, with the record of its kind of region; RD_X and UPG of a shared line invalidate every other holder and wait
in BI; RD_X of an owned line forwards it. The request stays in service meanwhile. -/
def Obligations.HomeAsksItsHolders : Prop :=
  ∀ (clk : Nat) (s : State) (v : Service) (r : RegionRec) (sl a j k m : Nat),
    let addr := v.req.pkt.addr.toNat
    let e := dirGet s addr
    let waits := fun (c : Instr) (rec : DirEntry) (b : Busy) (pend : List Nat) (fwd : Option Nat) =>
      ∃ t x, exec c s = .next t ∧ dirGet t addr = rec ∧ t.coh.txns = [x] ∧ x.line = addr ∧ x.busy = b ∧
        x.pend = pend ∧ x.fwd = fwd ∧ x.agent = some j ∧ t.svc = [v] ∧ t.stk.dram = s.stk.dram ∧ t.stk.chans = s.stk.chans
    AtHome s v r sl a j →
    (pktOp v.req.pkt = .rdS → e = { st := .X, owner := k, sharers := 1 <<< k } → k < 64 → k ≠ j →
      waits (.rdS v.ticket clk)
        (if r.kind = 1 then { st := .O, owner := k, sharers := (1 <<< k) ||| (1 <<< j) }
         else { st := .S, sharers := (1 <<< k) ||| (1 <<< j) }) .BF [] (some k)) ∧
    (pktOp v.req.pkt = .rdX → e = { st := .X, owner := k, sharers := 1 <<< k } → k < 64 → k ≠ j →
      waits (.rdX v.ticket clk) { st := .X, owner := j, sharers := 1 <<< j } .BF [] (some k)) ∧
    (pktOp v.req.pkt = .rdX → e = { st := .S, sharers := m } → m ≠ 0 → m.testBit j = false →
      waits (.rdX v.ticket clk) { st := .X, owner := j, sharers := 1 <<< j } .BI (setBits 64 m) none) ∧
    (pktOp v.req.pkt = .upg → e = { st := .S, sharers := m } → m.testBit j = true →
      (setBits 64 m).filter (· != j) ≠ [] →
      waits (.upg v.ticket clk) { st := .X, owner := j, sharers := 1 <<< j } .BI ((setBits 64 m).filter (· != j)) none)

/-- WB and EVCT (R180): the owner's line goes to memory and the agent leaves the record; from an agent that does not own
the line the data is dropped; either answers OK at once. -/
def Obligations.EvictionsLeaveTheRecord : Prop :=
  ∀ (clk : Nat) (s : State) (v : Service) (r : RegionRec) (sl a j m : Nat),
    let addr := v.req.pkt.addr.toNat
    let e := dirGet s addr
    AtHome s v r sl a j →
    (pktOp v.req.pkt = .wb → v.req.pkt.payload.length = 64 → e = { st := .X, owner := j, sharers := 1 <<< j } → j < 64 →
      ∃ u, exec (.wb v.ticket clk) s = .next (finish u v { status := .ok }) ∧ dirGet u addr = {} ∧
        dramBytes u sl a 64 = v.req.pkt.payload ∧ DramKeptBut s u sl a 64 ∧ u.coh.txns = []) ∧
    (pktOp v.req.pkt = .evct → e = { st := .S, sharers := m } → m.testBit j = true → m ≠ 1 <<< j →
      ∃ u, exec (.evct v.ticket clk) s = .next (finish u v { status := .ok }) ∧
        dirGet u addr = { st := .S, sharers := m ^^^ (1 <<< j) } ∧ u.stk.dram = s.stk.dram) ∧
    (pktOp v.req.pkt = .wb → e = { st := .S, sharers := m } → m.testBit j = false → m ≠ 0 →
      ∃ u, exec (.wb v.ticket clk) s = .next (finish u v { status := .ok }) ∧ dirGet u addr = e ∧
        u.stk.dram = s.stk.dram)

/-- Answers of agents (R174, R180, R181), with one transaction open, whose snoops or grant they answer: in BI each answer
leaves the list of those awaited, and a returned line goes to memory; a forward's data does so and ends its transaction;
a grant's acknowledgement ends its transaction. An answer that no transaction awaits is counted and does nothing else. -/
def Obligations.AnswersAdvanceTransactions : Prop :=
  ∀ (clk : Nat) (s : State) (x : Sunk) (t : Txn) (a k : Nat),
    let n := seenClk s clk
    let p := x.pkt
    let line := p.addr.toNat / 64 * 64
    let clear := s.coh.sweepLeft = [] ∧ s.coh.recoveries = [] ∧ s.coh.placing = [] ∧ s.svc = [] ∧ s.twn.state = 0 ∧
      s.di.injArm = false
    let counted := fun (c : Instr) (half : Nat) =>
      exec c s = .next (proto { n with fab := { n.fab with inbox := [] } } half)
    s.fab.inbox = [x] →
    (s.coh.txns = [] → s.svc = [] → (pktOp p = .snpRsp → counted (.snpRsp clk) (lineHalf s line)) ∧
      (pktOp p = .snpData → counted (.snpData clk) (lineHalf s line)) ∧ (pktOp p = .fwdData → counted (.fwdData clk) 0) ∧
      (pktOp p = .cmp → s.twn.sent = [] → counted (.grantAcknowledgement clk) (lineHalf s line))) ∧
    (s.coh.txns = [t] → clear → agentIndex s (addrPart line) p.src.toNat = some a → t.pool = line → t.line = line →
      t.part = addrPart line → t.seq = p.seq.toNat → t.owed = [] → t.busy = .BI → t.pend = [a, k] → a ≠ k →
      (pktOp p = .snpRsp →
        exec (.snpRsp clk) s = .next { n with fab := { n.fab with inbox := [] }, coh := { n.coh with txns := [{ t with pend := [k] }] } }) ∧
      (∀ r sl b, pktOp p = .snpData → p.payload.length = 64 → t.step ≠ .discard → line < 2 ^ 52 →
        placeOf s (addrPart line) (addrOff line) = .pinned r sl b → b % 64 = 0 → b < 2 ^ 33 →
        ∃ u, exec (.snpData clk) s = .next u ∧ u.coh.txns = [{ t with pend := [k] }] ∧ u.fab.inbox = [] ∧
          dramBytes u sl b 64 = p.payload ∧ DramKeptBut s u sl b 64)) ∧
    (s.coh.txns = [t] → clear → t.busy = .BR → t.job = none → t.seq = p.seq.toNat → t.aux = p.addr.toNat →
      t.fwd = agentIndex s t.part p.src.toNat → t.owed = [] → t.queued = [] →
      ∀ r sl b, pktOp p = .fwdData → p.payload.length = 64 → t.line < 2 ^ 52 → t.pool = t.line →
        placeOf s (addrPart t.line) (addrOff t.line) = .pinned r sl b → b % 64 = 0 → b < 2 ^ 33 →
        ∃ u, exec (.fwdData clk) s = .next u ∧ u.coh.txns = [] ∧ dramBytes u sl b 64 = p.payload ∧ DramKeptBut s u sl b 64) ∧
    (∀ q, s.coh.txns = [t] → clear → t.busy = .BG → t.pool = line → t.job = some q → q.svc.req.pkt.seq = p.seq →
      q.svc.req.pkt.src = p.src → t.owed = [] → t.queued = [] → pktOp p = .cmp → s.twn.sent = [] →
      ∃ u, exec (.grantAcknowledgement clk) s = .next u ∧ u.coh.txns = [] ∧ u.fab.inbox = [] ∧ u.stk = s.stk ∧
        u.coh.dir = s.coh.dir)

/-- A transaction whose agents have been silent for STO frames raises the interrupt and marks them, and stays open; one
still within its time is left alone (R181). A swept line gives up a fenced sharer; one that a fenced agent owned alone
enters P and is counted (R184). -/
def Obligations.SilentAndFencedAgents : Prop :=
  (∀ (id : Nat) (s : State) (t : Txn), s.coh.txns = [t] → t.id = id →
    (t.stalled = false → t.since + s.coh.sto ≤ s.td.ptime → ∃ u, exec (.cohAnswerTimeout id) s = .next u ∧
      u.di.irq = true ∧ u.coh.txns = [{ t with stalled := true }] ∧
      (∀ j ∈ awaited t, (partGet u t.part).stall.testBit j = true) ∧ u.coh.dir = s.coh.dir) ∧
    (t.stalled = true ∨ s.td.ptime < t.since + s.coh.sto → exec (.cohAnswerTimeout id) s = .next s)) ∧
  (∀ (part : Fin 32) (line j m : Nat) (s : State),
    s.coh.sweepLeft = [(part.val, line, j)] → s.coh.txns = [] → s.svc = [] → addrPart line = part.val → line < 2 ^ 52 →
    line % 64 = 0 → j < 64 → ReservesClean s → dirLegal (lineShared s line line) (dirGet s line) = true →
    (dirGet s line = { st := .S, sharers := m } → m.testBit j = true → m ≠ 1 <<< j →
      ∃ u, exec (.fenceSweepLine part line) s = .next u ∧ dirGet u line = { st := .S, sharers := m ^^^ (1 <<< j) } ∧
        u.coh.sweepLeft = [] ∧ (partGet u part).sweep = none) ∧
    (dirGet s line = { st := .X, owner := j, sharers := 1 <<< j } →
      ∃ u, exec (.fenceSweepLine part line) s = .next u ∧ dirGet u line = { st := .P } ∧ u.coh.sweepLeft = [] ∧
        (partGet u part).sweep = none ∧ (partGet u part).cnt.poisoned = min 65535 ((partGet s part).cnt.poisoned + 1)))

/-! ### Publishing -/

/-- The decision of a released PUBLISH (R193, R194): with the base equal to the unit's version V the version becomes
V + 1, the publisher is the requester, and it ends OK; with another base nothing changes and it ends CONFLICT; at the
highest version it ends FAULT. Either way it reports the version as it now stands; no other unit's version changes. -/
def Obligations.PublishComparesVersions : Prop :=
  ∀ (s : State) (w : PubWait) (p u : Nat),
    let v := w.svc
    let x := versionGet s p u
    let base := v.req.pkt.aux.toNat
    let g := (partGet s p).ledger
    let decided := fun (st : Status) (y : Version) =>
      ∃ t, exec (.publishDecide v.ticket) s = .next (finish t v { status := st, aux := y.v }) ∧ versionGet t p u = y ∧
        (∀ p' u' : Nat, u' < 2 ^ 26 → (p', u') ≠ (p, u) → versionGet t p' u' = versionGet s p' u') ∧
        t.coh.pubWait = [] ∧ t.stk.dram = s.stk.dram ∧ t.near = s.near ∧
        (partGet t p).cnt.pubOk = (if st = .ok then ((partGet s p).cnt.pubOk + 1) % 2 ^ 32 else (partGet s p).cnt.pubOk)
    s.svc = [v] → s.coh.pubWait = [w] → s.coh.placing = [] → s.coh.recoveries = [] → w.publish = true → u < 2 ^ 26 → w.unit = p * 2 ^ 26 + u → s.twn.state = 0 →
    s.fab.leaving = [] → s.sec.sealing = none → (partGet s p).st = .active →
    (partGet s v.req.pkt.part.toNat).st ≠ .resetting → g.held = [] → lgFull g = false →
    (base = x.v → x.v < 2 ^ 64 - 1 → decided .ok { v := x.v + 1, host := flowHost v.key, req := flowReq v.key }) ∧
    (base = x.v → x.v = 2 ^ 64 - 1 → decided .fault x) ∧
    (base ≠ x.v → decided .conflict x)

/-- PUBLISH, FLUSH and ACQUIRE at their unit (R191, R192, R194 to R196): outside published memory each ends FAULT; with
nothing of its flow before it a PUBLISH waits for its decision alone and a FLUSH ends OK; ACQUIRE answers with the
unit's version record; a FLUSH behind a request of its flow to the unit waits, until a release ends it. -/
def Obligations.PublishFamilyAtItsUnit : Prop :=
  ∀ (s : State) (v e : Service) (p u : Nat),
    let k := v.req.pkt
    let fault := endWith .fault (some k.addr.toNat)
    (Alone s v → publishUnit s k.addr.toNat = none →
      (pktOp k = .publish → exec (.publish v.ticket) s = .next (finish s v fault)) ∧
      (pktOp k = .flush → exec (.flush v.ticket) s = .next (finish s v fault)) ∧
      (pktOp k = .acquire → exec (.acquire v.ticket) s = .next (finish s v fault))) ∧
    (Alone s v → s.fab.leaving = [] → publishUnit s k.addr.toNat = some (p, u) →
      (pktOp k = .publish → (partGet s p).ledger.held = [] → lgFull (partGet s p).ledger = false →
        exec (.publish v.ticket) s = .next { s with coh := { s.coh with
          pubWait := [{ svc := v, half := unitHalf s p u, unit := p * 2 ^ 26 + u, publish := true, entry := false }] } }) ∧
      (pktOp k = .flush → exec (.flush v.ticket) s = .next (finish s v { status := .ok })) ∧
      (pktOp k = .acquire → exec (.acquire v.ticket) s = .next (finish s v
        { status := .ok, data := some (leBytes 8 (versionGet s p u).v ++ leBytes 4 (publisherWord (versionGet s p u)) ++
          leBytes 4 0) }))) ∧
    (s.svc = [e, v] → e.key = v.key → e.ticket < v.ticket → e.admitted ≠ v.admitted → touchesUnit e p u = true → pktOp k = .flush →
      publishUnit s k.addr.toNat = some (p, u) → s.coh.gathered = [] → s.coh.txns = [] → s.coh.pubWait = [] →
      s.coh.recoveries = [] → s.twn.state = 0 → s.twn.held = [] → s.twn.answers = [] → s.sec.sealing = none →
      (partGet s k.part.toNat).st ≠ .resetting →
      ∃ t, exec (.flush v.ticket) s = .next t ∧ t.svc = s.svc ∧ t.coh.pubWait =
        [{ svc := v, half := unitHalf s p u, unit := p * 2 ^ 26 + u, publish := false, entry := true }]) ∧
    (∀ w, s.svc = [v] → s.coh.pubWait = [w] → w.svc = v → w.publish = false → s.coh.placing = [] →
      s.coh.recoveries = [] → s.fab.leaving = [] → s.sec.sealing = none → s.twn.state = 0 → (partGet s k.part.toNat).st ≠ .resetting →
      exec (.flushRelease v.ticket) s =
        .next (finish { s with coh := { s.coh with pubWait := [] } } v { status := .ok })) ∧
    ∀ part : Fin 32, exec (.pubClear part) s = .next (partSet s part { partGet s part with
      cnt := { (partGet s part).cnt with pubOk := 0, pubConflict := 0, pubRetry := 0 } })

/-! ### Stack channels -/

/-- A serving channel takes requests and issues one command (R202, R203, R206, R208, R209, R212, R217, R218, R220): a
read is queued, or served from a queued write that covers it; a write is queued, or merged with the queued write of its
block; a full queue accepts nothing; and the channel issues the first command of R209's order that the timing rules
permit, with that command's effect on its bank, or none while a training piece runs. On a parity error the command has
no effect and is counted, and at CE_LIMIT the channel is pruned. A column returns tRL after its command. No other
channel and no stored byte changes. -/
def Obligations.ChannelsTakeRequestsAndIssueCommands : Prop :=
  ∀ (ch : Fin 136) (clk : Nat) (s : State),
    let c := chanGet s ch.val
    let s' := seenClk s clk
    let runs := fun (i : Instr) (P : State → Chan → Prop) =>
      ∃ t, exec i s = .next t ∧ Touches { td := true, stk := true, free := true } s t ∧
        (∀ n, n ≠ ch.val → chanGet t n = chanGet s n) ∧ P t (chanGet t ch.val)
    c.state = 1 →
    (∀ r : ChannelReq, 0 < r.count → r.first < 256 →
      let mask := (2 ^ (min r.count (256 - r.first)) - 1) <<< r.first
      let covers := (c.writes.filter (fun w => w.block = r.block)).foldl (fun m w => m ||| w.mask) 0
      let e : ChanEntry := { write := r.write, block := r.block, mask := mask, cols := maskCols r.block mask,
                             slot := r.slot, since := clk, order := c.nextOrder,
                             rmw := if r.write then partialCols r.block mask else [], newest := c.nextOrder,
                             source := r.source.val }
      (r.write = false → mask &&& covers ≠ mask → c.reads.length < 64 → runs (.channelRequestEnqueue ch r clk) (fun _ x =>
        x.reads = c.reads ++ [e] ∧ x.writes = c.writes)) ∧
      (r.write = false → mask &&& covers = mask → c.reads.length < 64 → runs (.channelRequestEnqueue ch r clk) (fun _ x =>
        x.reads = c.reads ∧ x.writes = c.writes ∧ x.cnt.fwd = (c.cnt.fwd + 1) % 2 ^ 32)) ∧
      (r.write = false → 64 ≤ c.reads.length →
        exec (.channelRequestEnqueue ch r clk) s = .next s') ∧
      (r.write = true → c.writes.find? (fun w => w.block = r.block) = none → c.writes.length < 64 →
        runs (.channelRequestEnqueue ch r clk) (fun _ x => x.reads = c.reads ∧ x.writes = c.writes ++ [e])) ∧
      (r.write = true → 64 ≤ c.writes.length →
        exec (.channelRequestEnqueue ch r clk) s = .next s') ∧
      ∀ w, r.write = true → c.writes = [w] → w.block = r.block → runs (.channelRequestEnqueue ch r clk) (fun _ x =>
        x.reads = c.reads ∧ x.writes = [{ w with mask := w.mask ||| mask, cols := maskCols r.block (w.mask ||| mask),
                                                 rmw := partialCols r.block (w.mask ||| mask), held := [],
                                                 newest := c.nextOrder }])) ∧
    (∀ parity, clk < c.trainUntil → exec (.dramCommandIssue ch { clk := clk, parity := parity }) s = .next s') ∧
    (∀ d, c.trainUntil ≤ clk → (candidates s' c clk).find? (permits s' ch.val c clk) = some d →
      (ceLimit s = 0 ∨ c.caErrs + 1 < ceLimit s →
        exec (.dramCommandIssue ch { clk := clk, parity := true }) s = .next (chanSet s' ch.val { c with caErrs := c.caErrs + 1 })) ∧
      (ceLimit s ≠ 0 → ceLimit s ≤ c.caErrs + 1 → ∃ t, exec (.dramCommandIssue ch { clk := clk, parity := true }) s = .next t ∧
        (chanGet t ch.val).state = 4 ∧ (chanGet t ch.val).readable = true)) ∧
    (c.trainUntil ≤ clk → match (candidates s' c clk).find? (permits s' ch.val c clk) with
      | none => ∀ parity, exec (.dramCommandIssue ch { clk := clk, parity := parity }) s = .next s'
      | some d => runs (.dramCommandIssue ch { clk := clk, parity := false }) (fun _ x => match d with
        | .refresh b => (bankGet c b).row = none ∧ (bankGet x b).busyUntil = clk + 410 ∧ (bankGet x b).forced = false ∧
            (bankGet x b).debt = if (bankGet c b).forced then (bankGet c b).debt else (bankGet c b).debt - 1
        | .neighbour b => (bankGet c b).row = none ∧ (bankGet x b).busyUntil = clk + 410 ∧ (bankGet x b).rfm = none
        | .precharge b => (bankGet c b).row ≠ none ∧ ((bankGet c b).actClk = 0 ∨ (bankGet c b).actClk + 68 ≤ clk) ∧
            (bankGet x b).row = none ∧ (bankGet x b).preClk = clk
        | .activate b row _ => (bankGet c b).row = none ∧ ((bankGet c b).preClk = 0 ∨ (bankGet c b).preClk + 34 ≤ clk) ∧
            (bankGet x b).row = some row ∧ (bankGet x b).actClk = clk ∧ x.cnt.act = (c.cnt.act + 1) % 2 ^ 32
        | .column write _ _ rmw => x.timing.colClk = clk ∧ x.timing.lastWrite = (write && !rmw) ∧
            x.cnt.rd = (if write && !rmw then c.cnt.rd else (c.cnt.rd + 1) % 2 ^ 32) ∧
            x.cnt.wr = (if write && !rmw then (c.cnt.wr + 1) % 2 ^ 32 else c.cnt.wr)
        | .wake sid => x.sids = c.sids.set sid { down := false, idleSince := clk, readyAt := clk + 17 })) ∧
    (∀ (e : ColRead) (rest : List ColRead) (errs : ColumnErrors), c.inflight = e :: rest → errs.clk < e.clk + 44 →
      exec (.dramReadData ch errs) s = .next (seenClk s errs.clk)) ∧
    (∀ e : ColRead, ∀ rest, c.inflight = e :: rest → e.clk + 44 ≤ clk → (∀ sl, cellsOf s ch.val = some sl →
        (lineWords sl (dramAddr s.stk.xmapAct e.row e.bank e.col)).all (fun w => decide (markGet s w = {})) = true) →
      runs (.dramReadData ch { cells := [], transit := [], clk := clk }) (fun _ x => x.inflight = rest))

/-- A channel's upkeep (R207, R211, R212, R214, R215, R219 to R221, R223): an idle row is closed; at the bank's own clk
of each period, and at no other, its refresh debt rises, to 8, and then forces a refresh; a training piece takes 256 clk
with every row closed, and a second failure in a row prunes the channel; a quiet SID powers down; a worn row takes a
spare row, and a bank without one prunes its channel; a pruned channel's contents are copied to the spare piece by
piece. -/
def Obligations.ChannelUpkeep : Prop :=
  ∀ (ch : Fin 136) (clk : Nat) (s : State),
    let c := chanGet s ch.val
    let s' := seenClk s clk
    let spare := 17 * (ch.val / 17) + 16
    let sl := 16 * (ch.val / 17) + ch.val % 17
    let runs := fun (i : Instr) (P : State → Chan → Prop) =>
      ∃ t, exec i s = .next t ∧ Touches { td := true, stk := true } s t ∧ P t (chanGet t ch.val)
    (∀ (b : Fin 64) (r : Nat), (bankGet c b).row = some r →
      (c.reads ++ c.writes).all (fun e => !(blockBank s e.block = b.val && blockRow e.block = r)) = true →
      (bankGet c b).colClk + c.idle ≤ clk → mayPre c b clk = true →
      runs (.idlePrecharge ch b clk) (fun _ x => bankGet x b = { bankGet c b with row := none, preClk := clk })) ∧
    (∀ b : Fin 64, c.state = 1 → clk % tREFI c = accrualAt c b.val → (bankGet c b).accrued ≠ clk + 1 →
      ((bankGet c b).debt < 8 → runs (.refreshAccrual ch b clk) (fun _ x =>
        bankGet x b = { bankGet c b with debt := (bankGet c b).debt + 1, accrued := clk + 1 } ∧
        x.cnt.forced = c.cnt.forced ∧ x.cnt.peak = max c.cnt.peak ((bankGet c b).debt + 1) ∧
        (3 ≤ (bankGet c b).debt → (c.sids.getD (b.val / 16) {}).down = true →
          x.sids = c.sids.set (b.val / 16) { down := false, idleSince := clk, readyAt := clk + 17, owing := true }))) ∧
      ((bankGet c b).debt = 8 → runs (.refreshAccrual ch b clk) (fun _ x =>
        bankGet x b = { bankGet c b with forced := true, accrued := clk + 1 } ∧
        x.cnt.forced = min 65535 (c.cnt.forced + 1)))) ∧
    (∀ b : Fin 64, clk % tREFI c ≠ accrualAt c b.val → exec (.refreshAccrual ch b clk) s = .next s') ∧
    (c.state = 1 → c.trainDue = true → c.drain = false → 32 ≤ slotOf s clk →
      (∀ passed, (passed = true ∨ c.trainFailed = false) → runs (.trainingPiece ch passed clk) (fun _ x =>
        x.state = 1 ∧ x.trainDue = false ∧ x.trainUntil = clk + 256 ∧ x.trainFailed = !passed ∧
        (∀ b, b < 64 → (bankGet x b).row = none) ∧ x.cnt.trainRuns = (c.cnt.trainRuns + 1) % 2 ^ 16 ∧
        x.cnt.trainFails = if passed then c.cnt.trainFails else min 255 (c.cnt.trainFails + 1))) ∧
      (c.trainFailed = true → runs (.trainingPiece ch false clk) (fun _ x => x.state = 4 ∧ x.readable = false))) ∧
    (∀ sid : Fin 4, chanUp c = true → c.pdn ≠ 0 → c.trainUntil ≤ clk → (c.sids.getD sid {}).down = false →
      (c.sids.getD sid {}).owing = false → (c.sids.getD sid {}).idleSince + c.pdn ≤ clk →
      (∀ i, i < 16 → (bankGet c (16 * sid.val + i)).row = none ∧
        (bankGet c (16 * sid.val + i)).busyUntil + c.pdn ≤ clk ∧ bankIdle s c (16 * sid.val + i) = true) →
      runs (.sidPowerDown ch sid clk) (fun _ x =>
        x.sids = c.sids.set sid { c.sids.getD sid {} with down := true })) ∧
    (∀ (b : Fin 64) (row : Nat), autoBit s 3 = true → chanUp c = true → c.trainUntil ≤ clk →
      65536 ≤ tblGet (fun _ => 0) (bankGet c b).rowErrs row →
      (2 ≤ (bankGet c b).repaired.length → runs (.rowRepair ch b row clk) (fun _ x => x.state = 4 ∧ x.readable = true)) ∧
      ((bankGet c b).repaired.length < 2 → s.stk.repairLog.length < 4096 →
        (sliceOfChan s ch.val).any (graftWaits s) = false → (∀ sl', cellsOf s ch.val = some sl' → ∀ col, col < 16 →
          (lineWords sl' (dramAddr s.stk.xmapAct row b col)).all (fun w => decide (markGet s w = {})) = true) →
        runs (.rowRepair ch b row clk) (fun t x => (bankGet x b).repaired = (bankGet c b).repaired ++ [row] ∧
          (bankGet x b).busyUntil = clk + 4096 ∧ (bankGet x b).row = none ∧
          tblGet (fun _ => 0) (bankGet x b).rowErrs row = 0 ∧
          t.stk.repairLog = s.stk.repairLog ++ [(ch.val / 17, ch.val % 17, b.val, row)]))) ∧
    (c.state ≠ 4 → autoBit s 2 = false → runs (.stkPrune ch) (fun _ x =>
      x.state = 4 ∧ x.readable = true ∧ x.reads = [] ∧ x.writes = [] ∧ x.inflight = [])) ∧
    (c.state = 4 → exec (.stkPrune ch) s = .next s) ∧
    (ch.val % 17 ≠ 16 → c.state = 4 → c.copying = false → (chanGet s spare).state = 3 → (chanGet s spare).serves = none →
      (c.readable = true → runs (.stkGraft ch) (fun t x => x = { c with copying := true, copied := 0 } ∧
        chanGet t spare = { chanGet s spare with state := 2, serves := some sl })) ∧
      (c.readable = false → runs (.stkGraft ch) (fun t x => x = c ∧
        chanGet t spare = { chanGet s spare with serves := some sl, graftDue := true }))) ∧
    (runs (.stkClear ch) (fun _ x => x = { c with cnt := {} })) ∧
    (ch.val % 17 ≠ 16 → c.copying = true → c.asleep = false → c.copied < 2304 → (chanGet s spare).state = 2 →
      (chanGet s spare).trainUntil ≤ clk → s.di.injArm = false →
      (∀ e ∈ s.stk.marks, e.1 < wordKey sl (c.copied * 2097152) ∨ wordKey sl (c.copied * 2097152) + 262144 ≤ e.1) →
      runs (.channelCopyPiece { chan := ch, clk := clk }) (fun t x => x = { c with copied := c.copied + 1 } ∧
        chanGet t spare = { chanGet s spare with
          graftDue := (chanGet s spare).graftDue || decide (c.copied = 2303) }))

/-! ### Flash -/

/-- Granules between flash and their frames (R233, R235 to R237, R239, R241, R242). A fetch whose codewords all read right
makes its granule CACHED, counts a read of the stripe block and leaves the copy's bytes in the frame, zero where it has
none; of a group that has left service the whole granule is installed poisoned. Below the clean target the write-back
takes the frame dirtied first, and programs its bytes under the next write stamp to a page of the partition's open stripe
block in the group with the most free ones, or of that group's free block of lowest erase count where none is open; at
its end the granule takes that location, CACHED, or DIRTY where a write came meanwhile, and the old copy is invalid. A
move ends with the map entry taking the new location, its state as it was. A location of a group that has left service is
not taken. A program that fails leaves its stripe block being emptied for retirement, or retired, and the granule is
given another page or none, DIRTY where its frame was being written back. -/
def Obligations.GranulesMoveBetweenFlashAndFrames : Prop :=
  ∀ (p : Fin 32) (n : Nat) (s : State),
    let g := granGet s p n
    let clean := fun (reads : List CodewordRead) =>
      ∀ r ∈ reads, r.levels = 0 ∧ r.uncorrectable = false ∧ r.corrected ≤ s.fl.rdbits
    (∀ (l : FlashLoc) (reads : List CodewordRead), g.st = .filling → g.loc = some l → g.fetchLoc = some l →
      s.fl.groups.testBit (stripeGroup l.block) = true → (copyGet s l).poison = [] → ceLimit s = 0 →
      clean reads → s.di.injArm = false →
      ∃ t, exec (.flashFetchDone p n reads) s = .next t ∧ Touches { fl := true, stk := true, dram := true } s t ∧
        granGet t p n = { g with st := .cached, ref := true, badCw := 0, fetchLoc := none } ∧
        blockGet t l.block = { blockGet s l.block with reads := (blockGet s l.block).reads + 1 } ∧
        (∀ pre i b post sl a, (copyGet s l).bytes = pre ++ (i, b) :: post → framePlace s p g.frame i = some (sl, a) →
          (∀ e ∈ post, ∀ q, framePlace s p g.frame e.1 = some q → byteKey q.1 q.2 ≠ byteKey sl a) → dramByte t sl a = b) ∧
        ∀ i sl a d, i < 1024 → framePlace s p g.frame (64 * i) = some (sl, a) → d < 64 →
          (∀ e ∈ (copyGet s l).bytes, ∀ q, framePlace s p g.frame e.1 = some q → byteKey q.1 q.2 ≠ byteKey sl (a + d)) →
          dramByte t sl (a + d) = 0) ∧
    (∀ (l : FlashLoc) (reads : List CodewordRead), g.st = .filling → g.loc = some l → g.fetchLoc = some l →
      s.fl.groups.testBit (stripeGroup l.block) = false →
      ∃ t, exec (.flashFetchDone p n reads) s = .next t ∧
        granGet t p n = { g with st := .cached, ref := true, badCw := 0xFFFF, fetchLoc := none }) ∧
    (g.st ≠ .filling → ∀ reads, exec (.flashFetchDone p n reads) s = .next s) ∧
    (s.fl.clean * frameCount s.img.layout p ≤ 16 * cachedFrames s p → exec (.flashWritebackStart p) s = .next s) ∧
    (∀ (m k grp : Nat) (x : Granule),
      let opened := fun (e : Nat × StripeBlock) =>
        stripeGroup e.1 = grp ∧ e.2.st = 1 ∧ e.2.owner = p.val ∧ e.2.moving = false
      let l : FlashLoc := { block := k, page := (blockGet s k).pages }
      (partGet s p).st = .active → s.pwr.state ≤ 1 → 16 * cachedFrames s p < s.fl.clean * frameCount s.img.layout p →
      m < 2 ^ 32 → (p.val * 2 ^ 32 + m, x) ∈ s.fl.grans → x.st = .dirty →
      (∀ e ∈ s.fl.grans, e.1 / 2 ^ 32 = p.val → e.2.st = .dirty →
        e = (p.val * 2 ^ 32 + m, x) ∨ x.dirtyOrder < e.2.dirtyOrder) →
      grp < 8 → s.fl.groups.testBit grp = true → allGood s.fl grp ≠ 0 →
      (∀ h, h < 8 → s.fl.groups.testBit h = true → allGood s.fl h ≠ 0 →
        freeCount s.fl h < freeCount s.fl grp ∨ freeCount s.fl h = freeCount s.fl grp ∧ grp ≤ h) →
      ((∃ b, (k, b) ∈ s.fl.blocks ∧ opened (k, b) ∧ ∀ e ∈ s.fl.blocks, opened e → e.1 = k) ∨
        (∀ e ∈ s.fl.blocks, ¬ opened e) ∧ coldestFree s.fl grp = some k) →
      s.stk.marks = [] → s.stk.lost = [] →
      ∃ t, exec (.flashWritebackStart p) s = .next t ∧ t.fl.nextStamp = (s.fl.nextStamp + 1) % 2 ^ 32 ∧
        granGet t p m = { x with st := .writing, next := some l, rewritten := false } ∧
        (blockGet t k).pages = (blockGet s k).pages + 1 ∧ (blockGet t k).owner = p.val ∧
        (copyGet t l).stamp = s.fl.nextStamp ∧ (copyGet t l).poison = [] ∧
        ∀ i b, (i, b) ∈ (copyGet t l).bytes ↔ i < 65536 ∧ b ≠ 0 ∧
          ∃ sl a, framePlace s p x.frame (i / 64 * 64) = some (sl, a) ∧ dramByte s sl (a + i % 64) = b) ∧
    (∀ l, g.st = .writing → g.next = some l →
      (s.fl.groups.testBit (stripeGroup l.block) = true → (blockGet s l.block).moving = false →
        ∃ t, exec (.flashWritebackDone p n) s = .next t ∧
          granGet t p n = { g with st := if g.rewritten then .dirty else .cached, loc := some l, next := none,
                                   rewritten := false, dirtyOrder := s.fl.nextDirty, badCw := 0 } ∧
          (partGet t p).cnt.flWb = ((partGet s p).cnt.flWb + 1) % 2 ^ 32 ∧
          (∀ o, g.loc = some o → copyGet t o = {})) ∧
      (s.fl.groups.testBit (stripeGroup l.block) = false →
        exec (.flashWritebackDone p n) s =
          .next (granSet s p n { g with st := .dirty, next := none, rewritten := false }))) ∧
    (∀ (l o : FlashLoc) (reads : List CodewordRead), g.st ≠ .writing → g.next = some l → g.loc = some o →
      (s.fl.groups.testBit (stripeGroup l.block) = true → (blockGet s l.block).moving = false → ceLimit s = 0 →
        clean reads →
        ∃ t, exec (.flashMoveDone p { granule := n, reads := reads }) s = .next t ∧
          granGet t p n = { g with loc := some l, next := none } ∧ copyGet t o = {} ∧
          (locKey l ≠ locKey o → copyGet t l = copyGet s l)) ∧
      (s.fl.groups.testBit (stripeGroup l.block) = false → (blockGet s o.block).moving = false →
        exec (.flashMoveDone p { granule := n, reads := reads }) s = .next (granSet s p n { g with next := none }))) ∧
    (g.next = none → (∀ reads, exec (.flashMoveDone p { granule := n, reads := reads }) s = .next s) ∧
      exec (.flashProgramFail p n) s = .next s ∧ exec (.flashWritebackDone p n) s = .next s) ∧
    (∀ l, g.next = some l → ∃ t, exec (.flashProgramFail p n) s = .next t ∧
      ((blockGet t l.block).moving = true ∧ (blockGet t l.block).retiring = true ∨ (blockGet t l.block).st = 4) ∧
      (g.st = .writing → t.fl.nextStamp = (s.fl.nextStamp + 1) % 2 ^ 32 ∧
        ((∃ l', granGet t p n = { g with next := some l', rewritten := false }) ∨
          granGet t p n = { g with next := none, st := .dirty, rewritten := false })))

/-- Stripe blocks and channels (R228, R229, R237 to R241): a block is emptied when its group runs short of free blocks,
when its group's erase counts differ by more than SPREAD, when its data has aged or read badly, or when it has been read
too often, and each move is counted; an erase frees the block, or retires it into the defect table; a pruned channel takes
its group out of service; discovery fixes the usable capacity and the spare reserves. -/
def Obligations.StripeBlocksTurnOver : Prop :=
  ∀ (s : State),
    let settled := ∀ e ∈ s.fl.blocks, e.2.moving = false
    let emptied := fun (t : State) (k : Nat) => (blockGet t k).moving = true ∨ (blockGet t k).st = 3 ∨ (blockGet t k).st = 4
    (∀ g : Fin 8, allGood s.fl g ≤ 64 * freeCount s.fl g → exec (.flashReclaim g) s = .next s) ∧
    (∀ (g : Fin 8) (e : Nat × StripeBlock), 64 * freeCount s.fl g < allGood s.fl g →
      minBy (fun x => (validIn s x.1).length * 2 ^ 40 + x.1)
        (filledBlocks s g.val) = some e →
      ∃ t, exec (.flashReclaim g) s = .next t ∧ t.fl.relocWl = (s.fl.relocWl + 1) % 2 ^ 32 ∧ emptied t e.1) ∧
    (∀ g : Fin 8, (eraseSpan s.fl g).1 - (eraseSpan s.fl g).2 ≤ s.fl.spread → exec (.flashWearLevel g) s = .next s) ∧
    (∀ (g : Fin 8) (e : Nat × StripeBlock) (dst : Nat), s.fl.spread < (eraseSpan s.fl g).1 - (eraseSpan s.fl g).2 →
      minBy (fun x => x.2.erases * 2 ^ 40 + x.1)
        (filledBlocks s g.val) = some e →
      hottestFree s.fl g = some dst →
      ∃ t, exec (.flashWearLevel g) s = .next t ∧ t.fl.relocWl = (s.fl.relocWl + 1) % 2 ^ 32 ∧ emptied t e.1) ∧
    (∀ k : Nat,
      let b := blockGet s k
      let used := (b.st = 1 ∨ b.st = 2) ∧ b.moving = false ∧ s.fl.groups.testBit (stripeGroup k) = true ∧
        (partGet s b.owner).st = .active ∧ s.pwr.state ≤ 1
      let aged := b.worn = true ∨ s.fl.retain * 2 ^ 24 ≤ s.td.ptime - b.born
      (used → aged → ∃ t, exec (.flashRefreshMove k) s = .next t ∧ emptied t k ∧
        t.fl.relocRet = (s.fl.relocRet + 1) % 2 ^ 32 ∧ t.fl.relocRd = s.fl.relocRd) ∧
      (used → ¬ aged → s.fl.rdlim * 1024 ≤ b.reads → ∃ t, exec (.flashRefreshMove k) s = .next t ∧ emptied t k ∧
        t.fl.relocRd = (s.fl.relocRd + 1) % 2 ^ 32 ∧ t.fl.relocRet = s.fl.relocRet) ∧
      (used → ¬ aged → b.reads < s.fl.rdlim * 1024 → exec (.flashRefreshMove k) s = .next s) ∧
      (b.st = 3 → s.pwr.state ≤ 1 → b.retiring = false → settled → ∃ t, exec (.flashEraseDone k true) s = .next t ∧ blockGet t k = { erases := b.erases + 1 }) ∧
      (∀ passed, b.st = 3 → s.pwr.state ≤ 1 → passed = false ∨ b.retiring = true → ∃ t, exec (.flashEraseDone k passed) s = .next t ∧
        (blockGet t k).st = 4 ∧
        t.fl.defects = s.fl.defects ++ [(stripeGroup k, k / 524288 % 8, k / 131072 % 4, k % 131072)] ∧
        t.fl.badGrown = min (2 ^ 32 - 1) (s.fl.badGrown + 1)) ∧
      (b.st ≠ 3 → ∀ passed, exec (.flashEraseDone k passed) s = .next s)) ∧
    (∀ c : Fin 32, (tblGet (fun _ => (0, 0, 0)) s.fl.chans c).1 ≠ 2 →
      ∃ t, exec (.flashChannelPrune c) s = .next t ∧ (tblGet (fun _ => (0, 0, 0)) t.fl.chans c).1 = 2 ∧
        (∀ g, t.fl.groups.testBit g = (s.fl.groups.testBit g && !decide (g = c.val / 4))) ∧ t.fl.grans = s.fl.grans) ∧
    (settled → ∃ t, exec .flGraft s = .next t ∧ Touches { fl := true } s t ∧ ∀ g, g < 8 →
      let r := tblGet (fun _ => 0) s.fl.reserve g
      let u := tblGet (fun _ => 0) s.fl.unreplaced g
      tblGet (fun _ => 0) t.fl.reserve g = r - min r u ∧ tblGet (fun _ => 0) t.fl.unreplaced g = u - min r u) ∧
    (∃ t, exec .flClear s = .next t ∧ t.fl = { s.fl with factoryBad := 0, badGrown := 0, relocRet := 0, relocRd := 0, relocWl := 0, eccUncorr := 0, eccRetry := 0 } ∧
      ∀ p, p < 32 → (partGet t p).cnt = { (partGet s p).cnt with flHit := 0, flMiss := 0, flWb := 0 }) ∧
    (s.fl.discovered = true → ∀ r, exec (.flashDiscovery r) s = .next s) ∧
    (s.fl.discovered = false → s.pwr.stage = .serving ∨ s.pwr.stage = .filling → ∀ r,
      ∃ t, exec (.flashDiscovery r) s = .next t ∧ t.fl.discovered = true ∧
        t.fl.defects = (if r.tableValid then s.fl.defects else stripesOf r.factoryBad) ∧
        t.fl.usable = 86 * flashNow t.fl / 3200 ∧
        ∀ g, g < 8 → tblGet (fun _ => 0) t.fl.reserve g = allGood t.fl g / 50)

/-! ### Engine commands and programs -/

/-- The operations (R253, R261, R263, R265 to R272, R274). A command whose descriptor waits for nothing, or a RUN at a word
that gives such a step, reads its operands, each block within a line of published memory, and writes its operation's
result to a destination within one line, no other byte of memory changing; with RDST the result leaves for the
requester with the command's TAG, one packet where it fits. The descriptor then stands with the outcome OK until its
parts end. FILL repeats the eight bytes of IMM by address; COPY gives the source's bytes; CMP names the first mismatch;
of INT8 operands RED sums exactly into INT32 and saturates, or chooses the greatest or least, SCORE does so with the
products, TOPK names the best value of lowest index and CVT extends the sign; GATHER gives the rows its entries name, or
zeros. -/
def Obligations.OperationsWriteTheirResults : Prop :=
  ∀ (s : State) (p : Fin 32) (q : Fin 64) (clk : Nat) (c : Command) (ws : List Word) (i : Instr),
    let d := descOf ws
    let bs := blocksOf s p (runsOf d)
    let held := heldBytes s p
    let ps : List Gathered := (runsA d ++ runsB d).map (fun r =>
      { ticket := c.ticket, idx := r.off, addr := poolAddr p r.off, status := .ok, bytes := held r.off r.len, hint := 1 })
    let out := resultOf ps d
    let req := (pairGet s p q).req
    let command := c.prog = none ∧ c.cur = some ws ∧ c.phase = .ready ∧ c.outcome = none ∧ c.failure = none ∧
      c.fails = [] ∧ c.tiles = [] ∧ c.blocks = bs ∧ c.parts = partsOf s p d bs ∧
      (d.opc, i) ∈ [(1, .fill p q clk), (2, .copy p q clk), (3, .cmp p q clk), (4, .red p q clk),
        (5, .score p q clk), (6, .topk p q clk), (7, .gather p q clk), (8, .cvt p q clk)]
    let step := i = .run p q clk ∧ 1 ≤ d.opc ∧ d.opc ≤ 8 ∧ (logGet s (leadEngine s p)).pruned = false ∧
      ∃ g words w, atWord s p q = some (g, words) ∧ (wordAt g words).map (·.toNat) = some w ∧ bitsOf w 28 4 = 1 ∧
        stepDesc { g with executed := g.executed + 1 } words w = some ws
    serviceOf s p q = some c → command ∨ step → checkDesc s p q d = none → EnginesFree s p q c bs →
    (∀ b ∈ bs, PlainBlock s p b) → partsOf s p d bs ≠ [] → (d.opc = 7 → gatherBad ps p d = none) →
    (d.rdst = true → isFenced s false req = false) →
    (∃ t c', exec i s = .next t ∧ serviceOf t p q = some c' ∧ c'.outcome = some (.ok, 0) ∧ c'.output = c.output ++ out ∧
      (d.rdst = false → ∀ reg sl a, placeOf s p d.dst = .pinned reg sl a → d.dst % 64 + lenDst d ≤ 64 →
        dramBytes t sl a (lenDst d) = out ∧ DramKeptBut s t sl a (lenDst d)) ∧
      (d.rdst = true → t.stk.dram = s.stk.dram ∧ ∀ r o, s.img.layout.ring = some r → req < 4096 →
        routeAt r (planeFor s r req) req = .port o → portHolds s o = true → fabEnc s p = false → lenDst d ≤ 4096 →
        ∃ w, t.fab.waiting = s.fab.waiting ++ [w] ∧ w.out = o ∧ pktOp w.pkt = .data ∧ w.pkt.dest.toNat = req ∧
          w.pkt.seq = c.desc.getD 15 0 ∧ w.pkt.payload = out)) ∧
    let at_ := fun (off j : Nat) => heldByte s p (off + j)
    let word := fun (v : Int) => leBytes 4 (BitVec.ofInt 32 v).toNat
    let saturated := fun (v : Int) => word (max (-2 ^ 31) (min (2 ^ 31 - 1) v))
    let row := fun (j : Nat) => held (d.srca + j * d.stride) d.dim
    (d.opc = 1 → ∀ j, j < d.count → out.getD j 0 = BitVec.ofNat 8 (d.imm / 256 ^ ((d.dst + j) % 8))) ∧
    (d.opc = 2 → out = held d.srca d.count) ∧
    (d.opc = 3 → d.sub = 0 →
      ((∀ j, j < d.count → at_ d.srca j = at_ d.srcb j) → out = leBytes 8 0 ++ leBytes 8 (2 ^ 64 - 1)) ∧
      ∀ j, j < d.count → at_ d.srca j ≠ at_ d.srcb j → (∀ h, h < j → at_ d.srca h = at_ d.srcb h) →
        out = leBytes 8 1 ++ leBytes 8 j) ∧
    (d.opc = 3 → d.sub = 1 → d.fa = 9 → ∀ j, j < d.count → at_ d.srca j ≠ at_ d.srcb j →
      (∀ h, h < j → at_ d.srca h = at_ d.srcb h) →
      out = leBytes 8 (if (at_ d.srca j).toInt < (at_ d.srcb j).toInt then 1 else 2) ++ leBytes 8 j) ∧
    (d.opc = 4 → d.fa = 9 → ∀ j, j < d.count →
      (d.sub = 0 → d.fd = 10 → sliceBytes out (4 * j) 4 = saturated ((row j).map BitVec.toInt).sum) ∧
      (d.sub ≠ 0 → d.fd = 9 → out.getD j 0 ∈ row j ∧ ∀ b ∈ row j,
        if d.sub = 1 then b.toInt ≤ (out.getD j 0).toInt else (out.getD j 0).toInt ≤ b.toInt)) ∧
    (d.opc = 5 → d.fa = 9 → d.fb = 9 → d.fd = 10 → d.comb = 0 → d.shift = 0 → ∀ j k, j < d.count → k < d.kq →
      sliceBytes out (4 * (j * d.kq + k)) 4 =
        saturated ((row j).zipWith (fun x y => x.toInt * y.toInt) (held (d.srcb + k * d.dim) d.dim)).sum) ∧
    (d.opc = 6 → d.fa = 9 → d.kq = 1 → ∀ j, j < d.count →
      let better := fun (x y : Byte) => if d.sub = 1 then x.toInt < y.toInt else y.toInt < x.toInt
      (∀ h, h < d.count → ¬ better (at_ d.srca h) (at_ d.srca j)) → (∀ h, h < j → better (at_ d.srca j) (at_ d.srca h)) →
      out = leBytes 4 (at_ d.srca j).toNat ++ leBytes 4 (d.imm % 2 ^ 32 + j)) ∧
    (d.opc = 7 → ∀ j, j < d.count →
      let x := leNat (held (d.srcb + 8 * j + 4) 4)
      sliceBytes out (j * d.dim) d.dim = if x = 0xFFFFFFFF then List.replicate d.dim 0 else row (x - d.imm % 2 ^ 32)) ∧
    (d.opc = 8 → d.fa = 9 → d.fd = 10 → ∀ j, j < d.count → sliceBytes out (4 * j) 4 = word (at_ d.srca j).toInt)

/-- Programs and engines (R22, R273 to R276, R278, R284): PROG starts a program at word 0 with its registers; each word
has its effect and the program goes on at the next word, LOOP at its target while its counter is not zero; HALT ends it
OK; a word with a reserved code, a place past the slot and the word past 1,048,576 end it FAULT; a parity error traps the
lead engine; a part's end counts on its engine, and after the last the command ends with its outcome; a
pruning takes effect at once, or where the engine runs a part when that part ends. -/
def Obligations.ProgramsStepAndPartsEnd : Prop :=
  ∀ (s : State) (p : Fin 32) (q : Fin 64),
    let goes := fun (i : Instr) (c : Command) (g : Program) =>
      ∃ t, exec i s = .next t ∧ Touches { eng := true } s t ∧ serviceOf t p q = some { c with prog := some g }
    (∀ (c : Command) (g : Program) (ws : List Word) (w : Nat), serviceOf s p q = some c → c.prog = some g →
      atWord s p q = some (g, ws) → (wordAt g ws).map (·.toNat) = some w → (logGet s (leadEngine s p)).pruned = false →
      let g1 := { g with executed := g.executed + 1 }
      let s1 := progMod s p q (fun _ => g1)
      let b := bitsOf w 26 2
      (bitsOf w 28 4 = 0 → bitsOf w 0 28 = 0 → exec (.halt p q) s = .next (endCommand s1 p q .ok 0)) ∧
      (bitsOf w 28 4 = 0 → bitsOf w 0 28 ≠ 0 → exec (.halt p q) s = .next (faultProgram s1 p q)) ∧
      (bitsOf w 28 4 = 2 → w.testBit 24 = false → goes (.adda p q) c
        { g1 with a := g.a.set (bitsOf w 25 3) (addaValue (g.a.getD (bitsOf w 25 3) 0) (bitsOf w 0 24)), pc := g.pc + 1 }) ∧
      (bitsOf w 28 4 = 3 → goes (.setc p q) c { g1 with c := g.c.set b (bitsOf w 0 26), pc := g.pc + 1 }) ∧
      (bitsOf w 28 4 = 4 → bitsOf w 14 12 = 0 → bitsOf w 0 14 < ws.length → goes (.loop p q) c
        { g1 with c := g.c.set b (g.c.getD b 0 - 1), pc := if 2 ≤ g.c.getD b 0 then bitsOf w 0 14 else g.pc + 1 }) ∧
      (bitsOf w 28 4 = 4 → ws.length ≤ bitsOf w 0 14 → exec (.loop p q) s = .next (faultProgram s1 p q)) ∧
      (bitsOf w 28 4 = 5 → bitsOf w 0 22 = 0 → goes (.mova p q) c
        { g1 with a := g.a.set (bitsOf w 25 3) (g.a.getD (bitsOf w 22 3) 0), pc := g.pc + 1 }) ∧
      (bitsOf w 28 4 = 1 → stepDesc g1 ws w = none → ∀ clk, exec (.run p q clk) s =
        .next (faultProgram (progMod (seenClk s clk) p q (fun _ => g1)) p q)) ∧
      (6 ≤ bitsOf w 28 4 → c.cur = none → exec (.prog p q false) s = .next (faultProgram s p q))) ∧
    (∀ (c : Command) (g : Program) (ws : List Word), serviceOf s p q = some c → c.prog = some g → c.cur = none →
      atWord s p q = some (g, ws) → (ws.length ≤ g.pc ∨ 1048576 ≤ g.executed) →
      exec (.prog p q false) s = .next (faultProgram s p q)) ∧
    (∀ (c : Command) (ws : List Word), serviceOf s p q = some c → c.cur = some ws → c.prog = none →
      (descOf ws).opc = 9 → mayFetch s p = true → (logGet s (leadEngine s p)).pruned = false →
      (logGet s (leadEngine s p)).trapped = false → (progWords s p (descOf ws).slot).isSome = true →
      ∃ t, exec (.prog p q false) s = .next t ∧ Touches { eng := true } s t ∧
        serviceOf t p q = some { c with cur := none, prog := some { slot := (descOf ws).slot, a := (startRegs ws).1, c := (startRegs ws).2 } } ∧
        (engGet t (physOf s (leadEngine s p))).lead = true) ∧
    (∀ (g : Program) (ws : List Word) (c : Command), serviceOf s p q = some c → c.prog = some g → c.cur = none →
      atWord s p q = some (g, ws) → ∃ t, exec (.prog p q true) s = .next t ∧
        (engGet t (physOf s (leadEngine s p))).trapped = true ∧ (engGet t (physOf s (leadEngine s p))).trapSlot = g.slot ∧
        (engGet t (physOf s (leadEngine s p))).trapWord = g.pc ∧
        t.eng.rewriting.contains (coreOf (leadEngine s p)) = true) ∧
    (∀ (c : Command) (x : PartRun) (st : Status) (a n : Nat), serviceOf s p q = some c → c.parts[n]? = some x →
      x.ended = false → c.outcome = some (st, a) → (partGet s p).st = .active → (pairGet s p q).waiting = none →
      let c' := { c with parts := c.parts.set n { x with ended := true } }
      let u := endPart (cmdMod s p q (fun _ => c')) p x
      (c'.parts.all (·.ended) = false → exec (.commandPartEnd p q n) s = .next u ∧ serviceOf u p q = some c' ∧
        (isConf s p = false → (logGet u x.engine).cntPart = ((logGet s x.engine).cntPart + 1) % 2 ^ 32 ∧
          (logGet u x.engine).cntMac = ((logGet s x.engine).cntMac + x.mac) % 2 ^ 64)) ∧
      (c'.parts.all (·.ended) = true → c.prog = none → (∀ f ∈ c.fails, f.1 ≠ .poison) →
        exec (.commandPartEnd p q n) s = .next (endCommand u p q st a))) ∧
    (∀ core : Fin 64, ∃ t, exec (.imemRewriteDone core) s = .next t ∧
      t.eng.rewriting = s.eng.rewriting.filter (· != core.val) ∧
      (ReservesClean s → t = { s with eng := { s.eng with rewriting := s.eng.rewriting.filter (· != core.val) } })) ∧
    (∀ e : Fin 256,
      (∃ t, exec (.engResume e) s = .next t ∧ Touches { eng := true } s t ∧
        engGet t (physOf s e) = { engGet s (physOf s e) with trapped := false }) ∧
      ∃ t, exec (.engClear e) s = .next t ∧ Touches { eng := true } s t ∧ engGet t (physOf s e) =
        { engGet s (physOf s e) with cntPart := 0, cntMac := 0, cntBusy := 0, cntFault := 0, cntEmpty := 0 }) ∧
    ∀ e : Fin 272, ∃ t, exec (.engPrune e) s = .next t ∧ Touches { eng := true } s t ∧
      ((∀ x ∈ s.eng.pairs, x.2.service = none) → engGet t e = { engGet s e with pruned := true }) ∧
      ∀ l c y, (engGet s e).logical = some l → serviceOf s p q = some c → c.phase ≠ .ready → y ∈ c.parts → y.engine = l →
        y.ended = false → engGet t e = { engGet s e with pruneDue := true }

/-! ### Queue pairs, translation and mapping -/

/-- Queue pairs (R250, R251, R279, R281 to R286, R296): an enable that keeps R281 is accepted and one that breaks it is
refused with its cause; a disabled pair drains; a halted pair restarts at the next pass, which reads each pair
once in a frame, in the pair's own clk, and makes commands up to CMD_PI eligible or halts the pair; a pair takes its next eligible command, and one with a zero field ends EMPTY; the end
of a command writes its completion entry at CPL_PI; a pop returns the entry at CPL_CI, or says that there is none. -/
def Obligations.QueuePairsTakeAndComplete : Prop :=
  ∀ (s : State) (p : Fin 32) (q : Fin 64),
    let x := pairGet s p q
    let range := 2 ^ (x.size + 1)
    let runs := fun (i : Instr) (y : Pair) => ∃ t, exec i s = .next t ∧ Touches { eng := true } s t ∧ pairGet t p q = y
    (∀ cfg : Word, bitsOf cfg.toNat 29 2 ≠ 3 →
      let y := { x with enable := true, kind := bitsOf cfg.toNat 29 2, size := bitsOf cfg.toNat 24 4, req := bitsOf cfg.toNat 0 12 }
      (x.state = 0 → x.enabling = false → mayEnable s p q y = true →
        runs (.sqEnable p q cfg) { y with enabling := true, cause := 0 }) ∧
      (x.state = 0 → x.enabling = false → mayEnable s p q y = false → runs (.sqEnable p q cfg) { y with cause := 1 })) ∧
    (x.state ≠ 0 → runs (.sqDisable p q) { x with enable := false, restarting := false, state := if x.service.isNone then 0 else 3 }) ∧
    (x.state = 0 → runs (.sqDisable p q) { x with enable := false, enabling := false }) ∧
    (x.state = 2 → runs (.sqRestart p q) { x with restarting := true }) ∧
    runs (.sqClear p q) { x with corr := 0, uncorr := 0, taken := 0 } ∧
    let pass := s.td.tickClk + 16 + (64 * p.val + q.val) / 16
    ((pass < s.td.now ∨ x.passed = some s.td.tickClk) → exec (.cmdPiSample p q) s = .next s) ∧
    (s.td.now ≤ pass → x.passed ≠ some s.td.tickClk → (x.state = 1 ∨ x.state = 2 ∧ x.restarting = true) →
      (partGet s p).st = .active → s.near.flips = [] → s.near.prior = [] → ∀ sl b, queuePlace s p x.ctl = some (sl, b) → b % 8 = 0 →
      let pi := leNat (nearBytes s sl b 8) % range
      let ahead := (pi + range - x.cmdCi) % range
      ∃ t, exec (.cmdPiSample p q) s = .next t ∧ (pairGet t p q).cmdPi = pi ∧ t.td.now = pass ∧
        (pairGet t p q).passed = some s.td.tickClk ∧
        (ahead ≤ 2 ^ x.size → (pairGet t p q).state = 1 ∧ (pairGet t p q).eligible = pi) ∧
        (2 ^ x.size < ahead → (pairGet t p q).state = 2 ∧ (pairGet t p q).cause = 2 ∧ (pairGet t p q).eligible = x.cmdCi)) ∧
    (∀ clk, mayTake s p q = false → exec (.sqTake p q clk) s = .next (seenClk s clk)) ∧
    (∀ clk, mayTake s p q = true → isConf s p = false →
      let r := queueWords (seenClk s clk) p q (x.cmd + 64 * (x.cmdCi % 2 ^ x.size)) 8
      let ws := (List.range 16).map (fun i => BitVec.ofNat 32 (fieldAt r.2.1 (4 * i) 4))
      r.2.2 = none → ∃ t, exec (.sqTake p q clk) s = .next t ∧ (pairGet t p q).cmdCi = (x.cmdCi + 1) % range ∧
        (pairGet t p q).taken = (x.taken + 1) % 2 ^ 32 ∧
        (checkDesc s p q (descOf ws) = none → ∃ c, (pairGet t p q).service = some c ∧ c.desc = ws ∧ c.cur = some ws ∧
          c.index = x.cmdCi ∧ c.ticket = s.nextTicket ∧ c.phase = .ready ∧ (pairGet t p q).cplPi = x.cplPi) ∧
        (zeroField (descOf ws) = true → reservedOpc (descOf ws).opc = false →
          (pairGet t p q).service = none ∧ (pairGet t p q).cplPi = (x.cplPi + 1) % range)) ∧
    (∀ (c : Command) (st : Status) (a : Nat), x.service = some c → (partGet s p).ledger.held = [] →
      lgFull (partGet s p).ledger = false → st ≠ .empty → s.near.own = [] →
      let e := completionEntry (c.desc.getD 15 0) st c.index (if st = .ok then 0 else a)
      let t := endCommand s p q st a
      (pairGet t p q).service = none ∧ (pairGet t p q).cplPi = (x.cplPi + 1) % range ∧
      (pairGet t p q).state = (if x.state = 3 then 0 else x.state) ∧
      ∀ sl b, queuePlace s p (x.cpl + 16 * (x.cplPi % 2 ^ x.size)) = some (sl, b) → b % 16 = 0 → b < 2 ^ 20 →
        queuePlace s p (x.cpl + 16 * (x.cplPi % 2 ^ x.size) + 8) = some (sl, b + 8) →
        (∀ n, queuePlace s p (x.ctl + 16) = some (sl, n) → n < 2 ^ 20 → n + 8 ≤ b ∨ b + 16 ≤ n) →
        (∀ sl' n, queuePlace s p (x.ctl + 16) = some (sl', n) → n + 8 ≤ 2 ^ 20) →
        nearBytes t sl b 16 = e.flatMap (fun w => leBytes 4 w.toNat)) ∧
    ∀ v : Service, Alone s v → v.req.pkt.part.toNat = p.val → popOf s v.req.pkt = some q.val →
      ((x.state = 0 ∨ x.cplCi = x.cplPi) → exec (.completionPop v.ticket) s =
        .next (finish s v { status := .ok, data := some (leBytes 4 0 ++ leBytes 4 0x80000000 ++ leBytes 8 0) })) ∧
      (x.state ≠ 0 → x.cplCi ≠ x.cplPi →
        let r := queueWords s p q (x.cpl + 16 * (x.cplCi % 2 ^ x.size)) 2
        r.2.2 = none → ∃ u, exec (.completionPop v.ticket) s =
          .next (finish u v { status := .ok, data := some r.2.1 }) ∧ (pairGet u p q).cplCi = (x.cplCi + 1) % range)

/-- Translation and mapping (R288 to R291, R293 to R295): a tile whose pages are at hand issues, and one whose pages
miss starts walks of its prefetch slot; a walk's end fills what missed; UNMAP, MAP and MOVE that keep R293 change the page's entries at once,
a withdrawal advancing the mapping epoch, and one that breaks it reports why and changes nothing else; a withdrawal ends
no sooner than 17 clk after it began, and not while an access under the old entry is open before clk 8,192. -/
def Obligations.MappingsChangeAndTilesTranslate : Prop :=
  ∀ (s : State) (p : Fin 32) (clk : Nat),
    let x := partGet s p
    let s' := seenClk s clk
    let page := xlPage s.img.layout p
    let failed := fun (i : Instr) (err : Nat) => ∃ t, exec i s = .next t ∧ Touches { td := true, parts := true } s t ∧
      partGet t p = { x with xlResult := err }
    let begun := fun (i : Instr) (o : XlOp) (epoch : Nat) (P : State → Prop) => ∃ t, exec i s = .next t ∧
      Touches { td := true, parts := true, coh := true, eng := true, stk := true, di := true } s t ∧ (partGet t p).xlOp = some o ∧
      (partGet t p).mapEpoch = epoch ∧ P t
    (∀ unit src hpage, x.xlOp.isSome = true → exec (.unmap p unit clk) s = .next s' ∧
      exec (.map p unit hpage clk) s = .next s' ∧ exec (.move p unit src clk) s = .next s') ∧
    (∀ unit src hpage, x.xlOp = none →
      (mapError s p 1 unit 0 0 ≠ 0 → failed (.unmap p unit clk) (mapError s p 1 unit 0 0)) ∧
      (mapError s p 2 unit 0 hpage ≠ 0 → failed (.map p unit hpage clk) (mapError s p 2 unit 0 hpage)) ∧
      (mapError s p 3 unit src 0 ≠ 0 → failed (.move p unit src clk) (mapError s p 3 unit src 0)) ∧
      (mapError s p 1 unit 0 0 = 0 → begun (.unmap p unit clk)
        { op := 1, unit := unit, src := 0, hpage := (mappedTo s p ((page unit).headD unit)).getD 0, at_ := clk, logged := false }
        ((x.mapEpoch + 1) % 2 ^ 32) (fun t => ∀ u ∈ page unit, pteGet t p u = .unmapped)) ∧
      (mapError s p 2 unit 0 hpage = 0 → begun (.map p unit hpage clk)
        { op := 2, unit := unit, src := 0, hpage := hpage, at_ := clk, logged := false }
        x.mapEpoch (fun t => ∀ n, n < (page unit).length → pteGet t p ((page unit).getD n 0) = .mapped (hpage + n))) ∧
      (mapError s p 3 unit src 0 = 0 →
        let h := (mappedTo s p ((page src).headD src)).getD 0
        begun (.move p unit src clk) { op := 3, unit := unit, src := src, hpage := h, at_ := clk, logged := false }
          ((x.mapEpoch + 1) % 2 ^ 32) (fun t =>
            (∀ n, n < (page unit).length → pteGet t p ((page unit).getD n 0) = .mapped (h + n)) ∧
            ∀ u ∈ page src, u ∉ page unit → pteGet t p u = .unmapped))) ∧
    (∀ o : XlOp, x.xlOp = some o → o.logged = false → x.ledger.held = [] → lgFull x.ledger = false →
      let ended := fun (i : Instr) => ∃ t, exec i s = .next t ∧
        Touches { td := true, parts := true, stk := true, di := true } s t ∧ (partGet t p).xlOp = none ∧ (partGet t p).xlResult = 0
      (o.op = 2 → ended (.mapDone p clk) ∧ exec (.mappingWithdrawDone p clk) s = .next s') ∧
      (o.op ≠ 2 → exec (.mapDone p clk) s = .next s') ∧
      (o.op ≠ 2 → clk < o.at_ + 17 → exec (.mappingWithdrawDone p clk) s = .next s') ∧
      (o.op ≠ 2 → o.at_ + 17 ≤ clk → oldTiles s p o = false → oldRequests s p = false →
        ended (.mappingWithdrawDone p clk)) ∧
      (o.op ≠ 2 → clk < o.at_ + 8192 → (oldTiles s p o = true ∨ oldRequests s p = true) →
        exec (.mappingWithdrawDone p clk) s = .next s')) ∧
    (∀ (q : Fin 64) (c : Command) (y : PartRun) (b : Blk) (n stream tile : Nat), serviceOf s p q = some c →
      ReservesClean s → c.parts[n]? = some y → tileBlock c y.engine stream tile = some b → tileMay c b = true → c.outcome = none →
      let us := tileUnits c.blocks b
      (us.all (tileReady s p b) = true → ∃ t c' z, exec (.tileTranslate p q n stream tile clk) s = .next t ∧
        Touches { td := true, parts := true, eng := true } s t ∧ serviceOf t p q = some c' ∧ c'.tiles = c.tiles ++ [z] ∧
        z.engine = b.eng ∧ z.stream = b.stream ∧ z.tile = b.tile ∧ z.epoch = x.mapEpoch ∧
        z.pages = us.filterMap (fun u => (mappedTo s p u).map (fun h => (u, h)))) ∧
      (us.all (tileReady s p b) = false → ∃ t w, exec (.tileTranslate p q n stream tile clk) s = .next t ∧
        Touches { td := true, parts := true, eng := true } s t ∧ serviceOf t p q = some c ∧
        w ∈ t.eng.walks ∧ w.level = 3 ∧ w.holder = slotHolder b.eng b.stream b.tile ∧ w.part = p.val)) ∧
    ∀ (n : Nat) (w : Walk), s.eng.walks = [w] → w.id = n →
      ∃ t, exec (.translationWalkDone n) s = .next t ∧ Touches { eng := true } s t ∧ t.eng.walks = [] ∧
        (holdable s w.part w.unit = false → t.eng.buffers = s.eng.buffers) ∧
        (holdable s w.part w.unit = true → bufHas t w.level w.holder w.part w.unit = true)

/-! ### Integrity -/

/-- Scrub, its counters and the injector (R299 to R303, R307, R311, R313, R318): the codes correct every single flipped
bit; patrol reads a channel's next column and demand scrub its oldest queued one, each once its row is open and no command
that goes before it may be issued, a single flipped bit found there being counted and written back, the bytes of memory
standing; SRAM scrub corrects a near word, counts a bad cache word, prunes a directory way whose word is uncorrectable,
has a core's memory rewritten after a parity error, and counts one of configuration SRAM. -/
def Obligations.ScrubCorrectsWhatItFinds : Prop :=
  (∀ i, i < 80 → wordDecode (1 <<< i) = some (1, 0)) ∧ (∀ i, i < 72 → nearDecode (1 <<< i) = some (1, 0)) ∧
  ∀ (s : State),
    let found := fun (c : Instr) (sl a : Nat) (P : State → Prop) =>
      (lineWords sl a).all (fun w => decide (markGet s w = {})) = true → s.di.injArm = false →
        ∃ t, exec c s = .next t ∧ Touches { td := true, parts := true, stk := true, di := true } s t ∧
          (∀ w ∈ lineWords sl a, markGet t w = {}) ∧ t.di.ce = (s.di.ce + 1) % 2 ^ 32 ∧ P t
    let mayRead := fun (ch bank row col clk : Nat) =>
      let c := chanGet s ch
      columnHeld c c.nextOrder (dramAddr s.stk.xmapAct row bank col / 256) col = false ∧ (c.sids.getD (bankSid bank) {}).down = false ∧ (bankGet c bank).row = some row ∧ (bankGet c bank).forced = false ∧
        mayCol c (colLimit (seenClk s clk) ch) bank clk false = true
    let waits := fun (ch clk : Nat) (ds : State → Chan → Nat → List DramCmd) =>
      chanUp (chanGet s ch) = false ∨ clk < (chanGet s ch).trainUntil ∨ pieceFirst (seenClk s clk) (chanGet s ch) clk = true ∨
        (ds (seenClk s clk) (chanGet s ch) clk).any (permits (seenClk s clk) ch (chanGet s ch) clk) = true
    (∀ (ch : Fin 136) (sl w i clk : Nat), s.di.off = false →
      (chanGet s ch).patrol < patrolColumns → cellsOf s ch = some sl → underFill s ch = false → w < 8 → i < 80 →
      let n := (chanGet s ch).patrol
      ¬ waits ch clk candidates → mayRead ch (n / 16 % 64) (n / 1024) (n % 16) clk →
      found (.patrolScrubRead ch { cells := [(w, 1 <<< i)], transit := [], clk := clk }) sl
        (dramAddr s.stk.xmapAct (n / 1024) (n / 16 % 64) (n % 16)) (fun t => (chanGet t ch).patrol = n + 1)) ∧
    (∀ (ch : Fin 136) (e : ColumnErrors),
      (s.di.off = true ∨ chanUp (chanGet s ch) = false ∨ patrolColumns ≤ (chanGet s ch).patrol ∨
        (underFill s ch = false ∧ waits ch e.clk candidates)) →
      exec (.patrolScrubRead ch e) s = .next (seenClk s e.clk)) ∧
    (∀ (ch : Fin 136) (sl w i bank row col clk : Nat) (rest : List (Nat × Nat × Nat)),
      (chanGet s ch).scrubQ = (bank, row, col) :: rest → cellsOf s ch = some sl → w < 8 → i < 80 →
      ¬ waits ch clk firstCandidates → mayRead ch bank row col clk →
      found (.demandScrub ch { cells := [(w, 1 <<< i)], transit := [], clk := clk }) sl (dramAddr s.stk.xmapAct row bank col)
        (fun t => (chanGet t ch).scrubQ = rest ∧ t.di.demandDone = (s.di.demandDone + 1) % 2 ^ 16)) ∧
    (∀ (ch : Fin 136) (e : ColumnErrors), ((chanGet s ch).scrubQ = [] ∨ waits ch e.clk firstCandidates) →
      exec (.demandScrub ch e) s = .next (seenClk s e.clk)) ∧
    (∀ (half : Fin 2) (n i : Nat), i < 72 →
      let sl := 64 * half.val + n / 131072 % 64
      let b := n % 131072 * 8
      nearFlips s (nearWordKey sl b) = 0 →
      ∃ t, exec (.sramScrub .nearBank half n (1 <<< i)) s = .next t ∧ Touches { near := true, nearMem := true, parts := true, di := true } s t ∧
        nearFlips t (nearWordKey sl b) = 0 ∧ nearBytes t sl b 8 = nearBytes s sl b 8 ∧
        t.di.sramCe = min 65535 (s.di.sramCe + 1)) ∧
    (∀ (half : Fin 2) (n flips : Nat), flips ≠ 0 →
      (∃ t, exec (.sramScrub .lineCache half n flips) s = .next t ∧ Touches { near := true, di := true } s t ∧
        t.di.sramCe = min 65535 (s.di.sramCe + 1)) ∧
      ∃ t, exec (.sramScrub .directoryCache half n flips) s = .next t ∧ Touches { coh := true, di := true } s t ∧
        t.di.sramCe = min 65535 (s.di.sramCe + 1) ∧
        (wordDecode flips = none →
          let set := if 2 ^ 22 ≤ n then n / 2 % 131072 else n / 32 % 131072
          (tblGet (fun _ => 0) t.coh.waysPruned (half.val * 16 + set / 8192)).testBit
            (if 2 ^ 22 ≤ n then 16 else n / 2 % 16) = true)) ∧
    (∀ (half : Fin 2) (n flips : Nat),
      (parityOf 9 flips = true →
        (∃ t, exec (.sramScrub .instruction half n flips) s = .next t ∧ Touches { eng := true, di := true } s t ∧
          t.di.parImem = min 65535 (s.di.parImem + 1) ∧
          t.eng.rewriting.contains (32 * half.val + n / 65536 % 32) = true) ∧
        ∃ t, exec (.sramScrub .configuration half n flips) s = .next t ∧ Touches { di := true } s t ∧
          t.di.parCfg = min 65535 (s.di.parCfg + 1)) ∧
      (parityOf 9 flips = false → exec (.sramScrub .instruction half n flips) s = .next s ∧
        exec (.sramScrub .configuration half n flips) s = .next s)) ∧
    exec .diLogClear s = .next { s with di := { s.di with log := [] } } ∧
    exec .diClear s = .next { s with di := { s.di with
      passes := 0, ce := 0, ueDram := 0, uePath := 0, sramCe := 0, sramUe := 0, parCfg := 0, parImem := 0, poison := 0,
      demandDropped := 0, demandDone := 0, logTotal := 0, rowsLost := 0 } } ∧
    ∀ v : Word, ∃ t, exec (.diInjectArm v) s = .next t ∧ Touches { di := true } s t ∧
      t.di.injBits = bitsOf v.toNat 8 2 ∧ t.di.injStack = bitsOf v.toNat 5 3 ∧ t.di.injChan = bitsOf v.toNat 0 5 ∧
      (t.di.injArm = true → v.getLsbD 31 = true) ∧
      (v.getLsbD 31 = true → 16 < bitsOf v.toNat 0 5 → t.di.injArm = true)

/-! ### Ethernet -/

/-- Ethernet (R322 to R327, R329 to R332, R334, R336): a frame for a queue pair of the port is kept, an address query for
the port answered, a bad or foreign frame counted, an unsupported request whose turn it is NAKed; the one kept WRITE, READ,
atomic or whole control message whose turn it is becomes a request of its host's flow, and the packet's PSN is passed; the
first packet after a gap is NAKed once and a duplicate WRITE or SEND ACKed again; an acknowledgement ends the answer it
covers, an RNR NAK has it wait and be sent again, a fatal NAK ends the queue pair, and a timeout sends again until RETRY;
queue pairs and ports change state as written; the management queue pair reads a register under its key and NAKs without
one. -/
def Obligations.EthernetPacketsBecomeRequests : Prop :=
  ∀ (s : State) (port : Fin 4) (qi : Nat) (p : RocePacket) (since clk : Nat),
    (∀ n, n < 32 → fillPhase s n = false ∨ (partGet s n).qpsEnded = true) →
    let q := qpGet s qi
    let psn := p.psn.toNat
    let key := flowNat q.part true q.host
    let L := loadOf (seenClk s clk)
    let H := headroomFor s key none
    let leaves := fun (m : Qp) (x : RocePacket) (l h : Nat) => Output.roce m.port (nextHop m) (bthBytes x l h) x l h
    let up := s.eth.ports.length = 4 ∧ (ethPort s port).state = 2
    let kept := qi < 4096 ∧ p.destQp.toNat = 0x1000 + qi ∧ s.eth.kept = [((port.val, since), p)]
    let live := q.state = 1 ∧ p.pkey.toNat % 2 ^ 15 = 2 ^ 15 - 1
    let turn := kept ∧ live ∧ q.epsn = psn ∧ ethEnc s q.part = false ∧ q.host < 4096 ∧ isFenced s true q.host = false ∧
      (partGet s q.part).st = .active ∧ isConf s q.part = false ∧
      ((allotOf s.img.layout key).map (·.allot)).getD 0 ≠ 0 ∧ (flowGet s key).limitNow ≠ 0 ∧
      policerOf s.img.layout key = none ∧ (flowGet s key).queue = []
    let takes := fun (c : Instr) (o : Origin) (P : State → Packet → Prop) => ∃ t k, exec c s = .next t ∧ t.eth.kept = [] ∧
      (flowGet t key).queue = [{ req := { pkt := k, origin := o, colour := dscpColour p.dscp.toNat, arrived := clk, life := q.life }, deferred := false }] ∧
      k.src = BitVec.ofNat 12 q.host ∧ k.part = BitVec.ofNat 5 q.part ∧ P t k
    (∀ f : EthFrame,
      ((ethPort s port).state ≠ 2 → exec (.ethFrameReceive port f) s = .next s) ∧
      (up → f.fcsGood = false → ∃ t, exec (.ethFrameReceive port f) s = .next t ∧ Touches { eth := true } s t ∧
        ethPort t port = { ethPort s port with fcs := min 65535 ((ethPort s port).fcs + 1) }) ∧
      (up → f.fcsGood = true → f.length ≤ 4352 → f.tags ≤ 1 →
        (∀ a, f.content = .arpRequest a ∨ f.content = .neighbourSolicitation a → ethOwns s port a = true →
          exec (.ethFrameReceive port f) s = .next { s with out := s.out ++ [.neighbour port a] }) ∧
        (∀ n, f.content = .roce p → f.udpPort = 4791 → ethOwns s port f.destIp = true → qpIndex p.destQp.toNat = some n →
          (qpGet s n).port = port.val →
          (n = 4096 → qpPeer (qpGet s n) = f.srcIp.toNat ∧ (nextHop (qpGet s n)).mac = f.srcMac.toNat) →
          (roceKind p.opcode.toNat ∈ [.write, .read, .atomic, .send, .ack] → exec (.ethFrameReceive port f) s =
            .next { s with eth := { s.eth with kept := s.eth.kept ++ [((port.val, s.td.now), p)] } }) ∧
          (roceKind p.opcode.toNat = .response → exec (.ethFrameReceive port f) s = .next s) ∧
          (roceKind p.opcode.toNat = .unsupported → n = qi → qi < 4096 → s.eth.kept = [] → live → q.epsn = psn → q.order = [] →
            ∃ t, exec (.ethFrameReceive port f) s = .next t ∧ t.eth.kept = [] ∧ (qpGet t qi).state = 2 ∧
              (qpGet t qi).cause = 1 ∧ t.out = s.out ++ [leaves q (rocePacket q 0x11 psn 0x61 []) (loadOf s) H])) ∧
        (f.content = .roce p →
          (ethOwns s port f.destIp = false ∨ f.udpPort ≠ 4791 ∨ qpIndex p.destQp.toNat = none ∨
            (p.destQp = 2 ∧ (nextHop (qpGet s 4096)).mac ≠ f.srcMac.toNat)) →
          ∃ t, exec (.ethFrameReceive port f) s = .next t ∧ Touches { eth := true } s t ∧
            ethPort t port = { ethPort s port with other := min 65535 ((ethPort s port).other + 1) }))) ∧
    (turn → roceKind p.opcode.toNat = .write →
      let first := decide (p.opcode = 0x06 ∨ p.opcode = 0x0A)
      let last := decide (p.opcode = 0x08 ∨ p.opcode = 0x0A)
      let va := if first then p.va.toNat else q.wrAddr
      let rkey := if first then p.rkey.toNat else q.wrKey
      let left := if first then p.dmaLen.toNat else q.wrLeft
      q.msg = (if first then 0 else 1) → left ≤ 2 ^ 24 → (left = 0 ∨ keyOk s q rkey va left = true) →
      (if last then p.payload.length = left ∧ left ≤ roceData s q
        else p.payload.length = roceData s q ∧ roceData s q < left) →
      takes (.rdmaWrite clk) (.ethWrite qi psn (last || p.ackReq) last false) (fun t k => pktOp k = .wr ∧
        k.payload = p.payload ∧ k.addr = BitVec.ofNat 52 (if left = 0 then nowhere q else va) ∧ qpGet t qi = { q with
          epsn := (psn + 1) % 2 ^ 24, gap := false, order := q.order ++ [{ psn := psn }], msg := if last then 0 else 1
          wrAddr := va + p.payload.length, wrKey := rkey, wrLeft := left - p.payload.length })) ∧
    (turn → roceKind p.opcode.toNat = .read → q.msg = 0 → q.outstanding < 16 → p.dmaLen.toNat ≤ 2 ^ 24 →
      (p.dmaLen = 0 ∨ keyOk s q p.rkey.toNat p.va.toNat p.dmaLen.toNat = true) →
      takes (.rdmaRead clk) (.ethRead qi psn) (fun t k => pktOp k = .rd ∧ readLen k = p.dmaLen.toNat ∧
        k.addr = BitVec.ofNat 52 (if p.dmaLen = 0 then nowhere q else p.va.toNat) ∧ qpGet t qi = { q with
          epsn := (psn + readPackets (mtuBytes q) p.dmaLen.toNat) % 2 ^ 24, gap := false
          order := q.order ++ [{ psn := psn, slot := true }], outstanding := q.outstanding + 1 })) ∧
    (turn → roceKind p.opcode.toNat = .atomic → q.msg = 0 → q.outstanding < 16 → p.va.toNat % 8 = 0 →
      keyOk s q p.rkey.toNat p.va.toNat 8 = true →
      takes (.rdmaAtomic clk) (.ethAtomic qi psn) (fun t k => pktOp k = .atom ∧ k.addr = BitVec.ofNat 52 p.va.toNat ∧
        k.arg = (if p.opcode = 0x13 then 2 else 0) ∧
        k.payload = leBytes 8 p.swapAdd.toNat ++ leBytes 8 (if p.opcode = 0x13 then p.compare.toNat else 0) ∧
        (qpGet t qi).epsn = (psn + 1) % 2 ^ 24 ∧ (qpGet t qi).outstanding = q.outstanding + 1 ∧
        (qpGet t qi).order = q.order ++ [{ psn := psn, slot := true }])) ∧
    (turn → p.opcode = 0x04 → q.msg = 0 → p.payload.length = 32 → q.order = [] →
      takes (.controlSend clk) (.ethControl qi psn (fieldAt p.payload 4 4)) (fun t k =>
        (match controlOf q p.payload with
          | some (o, addr, base) => pktOp k = o ∧ k.addr = BitVec.ofNat 52 addr ∧ k.aux = BitVec.ofNat 64 base
          | none => pktOp k = .flush ∧ k.addr = BitVec.ofNat 52 (nowhere q)) ∧
        (qpGet t qi).epsn = (psn + 1) % 2 ^ 24 ∧ (qpGet t qi).asked = q.asked ++ [{ psn := psn }] ∧
        t.out = s.out ++ [leaves q (rocePacket q 0x11 psn 0x1F []) L H])) ∧
    (∀ c k, kept → live → q.order = [] →
      (k, c) ∈ [(RoceKind.write, Instr.rdmaWrite clk), (.read, .rdmaRead clk), (.atomic, .rdmaAtomic clk), (.send, .controlSend clk)] →
      roceKind p.opcode.toNat = k →
      (q.gap = false → 0 < ringDist q.epsn psn (2 ^ 24) → ringDist q.epsn psn (2 ^ 24) < 2 ^ 23 →
        ∃ t, exec c s = .next t ∧ t.eth.kept = [] ∧ qpGet t qi = { q with gap := true, seqErr := min 65535 (q.seqErr + 1) } ∧
          t.out = s.out ++ [leaves q (rocePacket q 0x11 q.epsn 0x60 []) L H]) ∧
      (q.gap = true → 0 < ringDist q.epsn psn (2 ^ 24) → ringDist q.epsn psn (2 ^ 24) < 2 ^ 23 →
        ∃ t, exec c s = .next t ∧ t.eth.kept = [] ∧ qpGet t qi = q ∧ t.out = s.out) ∧
      (2 ^ 23 ≤ ringDist q.epsn psn (2 ^ 24) → q.again = [] → p.opcode ∈ [0x08, 0x0A, 0x02, 0x04] →
        ∃ t, exec c s = .next t ∧ t.eth.kept = [] ∧ qpGet t qi = q ∧
          t.out = s.out ++ [leaves q (rocePacket q 0x11 psn 0x1F []) L H])) ∧
    (kept → live → roceKind p.opcode.toNat = .ack → bitsOf p.syndrome.toNat 5 2 = 3 → p.syndrome.toNat % 32 ≠ 0 →
      ∃ t, exec .ethAckReceive s = .next t ∧ t.eth.kept = [] ∧ (qpGet t qi).state = 2 ∧ (qpGet t qi).cause = 2 ∧
        (qpGet t qi).answers = [] ∧ t.out = s.out) ∧
    (∀ a : CtrlAnswer, q.answers = [a] → qi < 4096 → ethEnc s q.part = false →
      let resent := leaves q { rocePacket q 0x04 a.psn 0 a.bytes with ackReq := true } (loadOf s) (headroomFor s key a.taken)
      (kept → live → roceKind p.opcode.toNat = .ack → a.psn = psn →
        (bitsOf p.syndrome.toNat 5 2 = 0 → ∃ t, exec .ethAckReceive s = .next t ∧ t.eth.kept = [] ∧
          qpGet t qi = { q with answers := [] } ∧ t.out = s.out) ∧
        (bitsOf p.syndrome.toNat 5 2 = 1 → q.rnrRetry = 7 → ∃ t, exec .ethAckReceive s = .next t ∧
          (qpGet t qi).answers = [{ a with rnrWait := true }] ∧ t.out = s.out) ∧
        (bitsOf p.syndrome.toNat 5 2 = 3 → p.syndrome.toNat % 32 = 0 → a.retries < q.retry → ∃ t,
          exec .ethAckReceive s = .next t ∧ (qpGet t qi).answers = [{ a with retries := a.retries + 1, sent := true }] ∧
          t.out = s.out ++ [resent])) ∧
      (∀ n : Fin 4096, n.val = qi → q.state = 1 →
        (a.rnrWait = false → a.retries < q.retry → ∃ t, exec (.ethAckTimeout n) s = .next t ∧
          (qpGet t qi).answers = [{ a with retries := a.retries + 1, sent := true }] ∧ t.out = s.out ++ [resent]) ∧
        (a.rnrWait = false → q.retry ≤ a.retries → ∃ t, exec (.ethAckTimeout n) s = .next t ∧ (qpGet t qi).state = 2 ∧
          (qpGet t qi).cause = 3 ∧ t.out = s.out) ∧
        (a.rnrWait = true → exec (.ethAckTimeout n) s = .next s ∧ ∃ t, exec (.ethRnrResend n) s = .next t ∧
          (qpGet t qi).answers = [{ a with rnrWait := false, rnrRetries := a.rnrRetries + 1, sent := true }] ∧
          t.out = s.out ++ [resent]))) ∧
    (∀ n : Fin 4097, n.val = qi →
      (∃ t, exec (.ethQpStateWrite n 0) s = .next t ∧ Touches { eth := true } s t ∧ (qpGet t qi).state = 0 ∧
        (qpGet t qi).answers = [] ∧ (qpGet t qi).order = [] ∧ (qpGet t qi).outstanding = 0 ∧ (qpGet t qi).epsn = q.rpsn ∧
        (qpGet t qi).npsn = q.spsn ∧ (qpGet t qi).life = q.life + 1) ∧
      (q.state = 0 → (qi = 4096 ∨ (partGet s q.part).st = .active ∧ (allotOf s.img.layout key).isSome = true) →
        ∃ t, exec (.ethQpStateWrite n 1) s = .next t ∧ Touches { eth := true } s t ∧ (qpGet t qi).state = 1 ∧
          (qpGet t qi).cause = 0 ∧ (qpGet t qi).epsn = q.rpsn) ∧
      (q.state = 0 → qi < 4096 → ((partGet s q.part).st ≠ .active ∨ allotOf s.img.layout key = none) →
        ∃ t, exec (.ethQpStateWrite n 1) s = .next t ∧ Touches { eth := true } s t ∧ qpGet t qi = { q with cause := 5 }) ∧
      (q.state ≠ 0 → exec (.ethQpStateWrite n 1) s = .next s) ∧
      exec (.ethQpStateWrite n 2) s = .next s ∧ exec (.ethQpStateWrite n 3) s = .next s) ∧
    (s.eth.ports.length = 4 →
      (∀ v : BitVec 2, v ≠ 3 → v.toNat ≠ (ethPort s port).phy → ∃ t, exec (.ethPhyWrite port v) s = .next t ∧
        Touches { eth := true } s t ∧ ethPort t port = { ethPort s port with phy := v.toNat, state := 1 }) ∧
      (∀ v : BitVec 2, v = 3 ∨ v.toNat = (ethPort s port).phy → exec (.ethPhyWrite port v) s = .next s) ∧
      ((ethPort s port).state = 1 → ∃ t, exec (.ethPortTrainingDone port) s = .next t ∧ Touches { eth := true } s t ∧
        ethPort t port = { ethPort s port with state := 2 }) ∧
      ((ethPort s port).state = 2 → ∃ t, exec (.ethPortLinkLoss port) s = .next t ∧ Touches { eth := true } s t ∧
        ethPort t port = { ethPort s port with state := 1 })) ∧
    (p.destQp.toNat = 2 → s.eth.kept = [((port.val, since), p)] → pathRuns s .mgmtQp = true →
      let m := qpGet s 4096
      m.state = 1 → p.pkey.toNat % 2 ^ 15 = 2 ^ 15 - 1 → m.epsn = psn → m.msg = 0 → m.order = [] →
      (s.sec.mgmtKey = none → roceKind p.opcode.toNat ≠ .ack → ∃ t, exec (.mgmtQpAccess clk) s = .next t ∧
        t.out = s.out ++ [leaves m (rocePacket m 0x11 psn 0x62 []) 0 0] ∧ t.mgmt = s.mgmt ∧ t.eth.kept = []) ∧
      (∀ k, s.sec.mgmtKey = some k → p.opcode = 0x0C → p.dmaLen = 4 → p.va.toNat % 4 = 0 → p.va.toNat + 4 ≤ 2 ^ 25 →
        let s0 := seenClk s clk
        let s1 := noteEthWait { s0 with eth := { s0.eth with kept := [] } } port.val (s0.td.now - since)
        let word := (readReg s1 .mgmtQp p.va.toNat 4 clk).2
        let r := rocePacket m 0x10 psn 0x1F (leBytes 4 word.toNat)
        let body := sealBytes k 0x4000 (s.td.boot * 2 ^ 32 + s.sec.mgmtCounter) (roceAad r) r.payload
        ∃ t, exec (.mgmtQpAccess clk) s = .next t ∧ (qpGet t 4096).epsn = (psn + 1) % 2 ^ 24 ∧
          t.out = s.out ++ [leaves m { r with payload := body } 0 0] ∧ t.sec.mgmtCounter = s.sec.mgmtCounter + 1))

/-! ### Trust -/

/-- The attestation unit (R341, R342, R347, R351 to R353, R355 to R358, R363, R366): an operation is ignored while
another runs; a quote's body is formed at once, with a fresh exchange key for a partition, and stands in the mailbox
when it is done; a key-set attempt spends the exchange key; an owner command ends with the code of the first check it
fails and then changes nothing, or takes effect; firmware is staged, activated, committed or rolled back; a SEAL ends OK
or DIGEST; a held ledger entry is appended once a slot is free, and LG_TAIL moves between its bounds. -/
def Obligations.AttestationUnitRunsItsOperations : Prop :=
  ∀ (s : State) (part : Fin 32),
    let ends := fun (c : Instr) (code : Nat) (P : State → Prop) =>
      ∃ t, exec c s = .next t ∧ t.sec.busy = false ∧ t.sec.code = code ∧ P t
    let idle := s.sec.busy = false
    let c := s.mgmt.core
    let restarted : Mgmt := { s.mgmt with core := { latch := c.latch, held := c.held, ptSub := c.ptSub, acc := c.acc, data := c.data } }
    let p := s.sec.cmdPart
    let x := partGet s p
    (s.sec.busy = true → exec .quote s = .next s ∧ exec .keyset s = .next s ∧ exec .owner s = .next s ∧
      exec .seal s = .next s ∧ exec .fwActivate s = .next s ∧ exec .fwCommit s = .next s) ∧
    (idle → s.sec.cmdDev = true → ∃ t, exec .quote s = .next t ∧ Touches { sec := true } s t ∧ t.sec.busy = true ∧
      t.sec.quoting = some (quoteBody s true p (mailBytes s 0 32) none, none)) ∧
    (idle → s.sec.cmdDev = false → ∃ t, exec .quote s = .next t ∧ t.sec.busy = true ∧
      let body := quoteBody s false p (mailBytes s 0 32) (some (exchangeKey s.sec.nextKey))
      t.sec.quoting = some (body, some s.sec.nextKey) ∧ t.sec.nextKey = s.sec.nextKey + 1 ∧
      partGet t p = { x with exch := some { keyId := s.sec.nextKey, frame := s.td.ptime, qd := sha256 body } }) ∧
    (∀ body key, s.sec.quoting = some (body, key) → body.length = 320 →
      ends .quoteDone 0 (fun t => t.sec.quoting = none ∧ mailBytes t 0 320 = body ∧ Touches { sec := true, mailbox := true } s t)) ∧
    (s.sec.quoting = none → exec .quoteDone s = .next s) ∧
    (idle → (∀ k, (flowGet s k).queue = []) → ∃ t, exec .keyset s = .next t ∧ (partGet t p).exch = none ∧
      match checkKeyset s p with
      | .error c => t.sec.busy = false ∧ t.sec.code = c ∧ (partGet t p).newKeys = x.newKeys
      | .ok k => t.sec.busy = true ∧ (partGet t p).st = .quiesced ∧ (partGet t p).newKeys = some k) ∧
    (∀ k, (partGet s part).newKeys = some k → (partGet s part).why = 2 → (partGet s part).drained = true →
      s.coh.txns = [] → ends (.keysetInstallDone part) 0 (fun t => (partGet t part).keys = k.1 ∧
        (partGet t part).newKeys = none ∧ (partGet t part).next = some .active ∧
        (partGet t part).epoch = ((partGet s part).epoch + 1) % 2 ^ 32)) ∧
    (∀ e : Exchange, (partGet s part).exch = some e →
      (s.td.ptime < e.frame + 2 ^ 24 → exec (.exchangeKeyExpiry part) s = .next s) ∧
      (e.frame + 2 ^ 24 ≤ s.td.ptime → ∃ t, exec (.exchangeKeyExpiry part) s = .next t ∧ Touches { parts := true } s t ∧
        partGet t part = { partGet s part with exch := none })) ∧
    (idle →
      let bs := stagingBytes s 0 (1728 + sigLen)
      let op := fieldAt bs 4 1
      let slot := fieldAt bs 5 1
      let o := s.img.owners.getD slot {}
      let code :=
        if ownerFormat bs = false then 0x02 else if ownerSigner s bs = false then 0x04
        else if slhVerify (sliceBytes bs 0x30 32) (ascii "OWNERCMD") (digestBytes (sha256 (sliceBytes bs 0 1728)))
          (sliceBytes bs 1728 sigLen) = false then 0x03
        else if fieldAt bs 8 8 ≤ s.sec.owcCount then 0x05 else if ownerRefused s op slot = true then 0x0D
        else if op = 3 ∧ unwrapMgmtKey bs = none then 0x08 else 0x00
      ends .owner code (fun t =>
        t.img.owners = (if code ≠ 0 then s.img.owners
          else if op = 1 then s.img.owners.set slot { o with state := 1, digest := digestOf (sliceBytes bs 0x50 32) }
          else if op = 2 then s.img.owners.set slot { o with state := 2 } else s.img.owners) ∧
        t.sec.owcCount = (if code ≠ 0 then s.sec.owcCount else fieldAt bs 8 8) ∧
        t.sec.mgmtKey = (if code = 0 ∧ op = 3 then unwrapMgmtKey bs else s.sec.mgmtKey))) ∧
    (idle → envelopeOk (stagingBytes s 0 (64 + 1680 * min 256 (fieldAt (stagingBytes s 0 64) 4 2))) = false →
      ends .seal 0x02 (fun t => t.sec.sealing = s.sec.sealing)) ∧
    (idle → loadFor s p = false → x.st = .active → ∀ r,
      let head := stagingBytes s 0 64
      let bs := stagingBytes s 0 (64 + 1680 * min 256 (fieldAt head 4 2))
      envelopeOk bs = true → sealRegion s p s.sec.cmdIndex (fieldAt head 8 8) = some r → heldLines s p (inRegion r) = [] →
      ∃ t, exec .seal s = .next t ∧ match memberAt bs with
        | none => t.sec.busy = false ∧ t.sec.code = 0x06
        | some o => match unwrapWeightKey bs o with
          | none => t.sec.busy = false ∧ t.sec.code = 0x08
          | some w => t.sec.busy = true ∧ ∃ y, t.sec.sealing = some y ∧ y.part = p ∧ y.index = r.index ∧
              y.length = fieldAt head 8 8 ∧ y.plainDigest = digestOf (sliceBytes bs 0x10 32) ∧ y.weightKey = w) ∧
    (∀ (y : SealOp) (r : RegionRec), s.sec.sealing = some y →
      (regionsOf s.img.layout y.part).find? (fun r => r.index = y.index) = some r →
      s.coh.txns = [] → heldLines s y.part (inRegion r) = [] →
      ends .sealDone (if sha256 (sealPlain y.weightKey (sealRead s y.part (r.start * 2097152) y.length).2) = y.plainDigest
        then 0x00 else 0x0B) (fun t => t.sec.sealing = none)) ∧
    (∀ y : SealOp, s.sec.sealing = some y → (regionsOf s.img.layout y.part).find? (fun r => r.index = y.index) = none →
      ends .sealDone 0x0A (fun t => t.sec.sealing = none)) ∧
    (s.sec.sealing = none → exec .sealDone s = .next s) ∧
    (idle → ∀ file : List Byte,
      let svn := fieldAt file 4 2
      ends (.fwStage file) (if firmwareValid file = false then 0x03 else if svn < s.sec.fwFloor then 0x0C else 0x00)
        (fun t => t.sec.staged = (if firmwareValid file = true ∧ s.sec.fwFloor ≤ svn then
          some { measure := sha256 (sliceBytes file 0 (64 + fieldAt file 8 4)), svn := svn, slot := 1 - s.sec.running.slot }
          else none) ∧ t.sec.running = s.sec.running)) ∧
    (idle → s.sec.staged = none → ends .fwActivate 0x0A (fun t => t.sec.running = s.sec.running)) ∧
    (idle → ∀ f, s.sec.staged = some f → ends .fwActivate 0 (fun t => t.sec.running = f ∧
      t.sec.pendingSince = some s.td.ptime ∧ t.sec.committed = s.sec.committed ∧ t.mgmt = restarted)) ∧
    (idle → s.sec.pendingSince = none → ends .fwCommit 0x0A (fun t => t.sec.committed = s.sec.committed)) ∧
    (idle → s.sec.pendingSince ≠ none → 0 < s.sec.fwLeft → ends .fwCommit 0 (fun t =>
      t.sec.committed = s.sec.running ∧ t.sec.pendingSince = none ∧ t.sec.staged = none ∧
      t.sec.fwFloor = max s.sec.fwFloor s.sec.running.svn ∧
      t.sec.fwLeft = (if s.sec.fwFloor < s.sec.running.svn then s.sec.fwLeft - 1 else s.sec.fwLeft))) ∧
    (∀ f, s.sec.pendingSince = some f → s.td.ptime < f + 2 ^ 20 → exec .fwRollback s = .next s) ∧
    (∀ f, s.sec.pendingSince = some f → f + 2 ^ 20 ≤ s.td.ptime → ∃ t, exec .fwRollback s = .next t ∧
      t.sec.running = s.sec.committed ∧ t.sec.pendingSince = none ∧ t.sec.staged = none ∧ t.mgmt = restarted) ∧
    (let g := (partGet s part).ledger;
      (∀ h rest, g.held = h :: rest → lgFull g = false ∨ g.size = 0 → g.clk ≠ s.td.now ∨ g.batch = [] → ∃ t, exec (.ledgerHeldAppend part) s = .next t ∧
        (partGet t part).ledger.held = rest ∧ (partGet t part).ledger.head = g.head + 1 ∧
        (partGet t part).ledger.digest = sha256 (digestBytes g.digest ++ lgEntry h.bytes s.td.boot s.td.ptime g.head)) ∧
      (g.held = [] ∨ lgFull g = true ∧ g.size ≠ 0 → exec (.ledgerHeldAppend part) s = .next s) ∧
      ∀ v : DWord,
        (g.tail ≤ v.toNat → v.toNat ≤ g.head → ∃ t, exec (.lgTailWrite part v) s = .next t ∧ Touches { parts := true } s t ∧
          partGet t part = { partGet s part with ledger := { g with tail := v.toNat, batch := [] } }) ∧
        (v.toNat < g.tail ∨ g.head < v.toNat → exec (.lgTailWrite part v) s = .next s))

/-! ### Twins, fences and resets -/

/-- A twin pair (R143, R369, R371 to R373, R375 to R381): heartbeats and bursts leave and are heard, a burst whose CHECK
fails changing nothing and one whose digest differs ending in MISMATCH; both paths silent declare the peer failed; a
released line that stays high is claimed at the node's clk and the twinned coherent regions become unverified; the
leader releases the line, hears its follower, and stops when it does not; the follower takes twin packets and its copy
in turn. -/
def Obligations.TwinsHearClaimAndMirror : Prop :=
  ∀ (s : State) (clk : Nat),
    let tw := s.twn
    let peer := twinPeer s
    let on := twinEn s.img.layout = true
    let bare := tw.answers = [] ∧ tw.held = []
    let becomes := fun (c : Instr) (P : Twin → Prop) => ∃ t, exec c s = .next t ∧ P t.twn
    let hb := newPacket s .heartbeat peer 0 (BitVec.ofNat 32 s.td.ptime) 0 []
    (on → twinAwake s = true →
      exec .heartbeatSend s = .next (injectOn (injectOn s 0 false hb) 1 false hb) ∧
      (s.td.ptime % 16 = 0 → ∃ b : Burst, exec .burstSend s = .next { s with out := s.out ++ [.burst b] } ∧
        b.node = BitVec.ofNat 12 (homeNode s) ∧ b.lead = leads s ∧ b.state = BitVec.ofNat 3 tw.state ∧
        b.geom = BitVec.ofNat 32 tw.geom ∧
        b.check.toNat = burstCheck (burstFields b.node.toNat b.lead b.state.toNat b.geom.toNat))) ∧
    (¬ on ∨ twinAwake s = false → exec .heartbeatSend s = .next s ∧ exec .burstSend s = .next s) ∧
    (∀ x : Sunk, s.fab.inbox = [x] → pktOp x.pkt = .heartbeat → on →
      (x.pkt.src.toNat = peer → exec .heartbeat s = .next { s with fab := { s.fab with inbox := [] }, twn := { tw with heardNow := true, fabSilent := 0, fabUp := true, declared := false } }) ∧
      (x.pkt.src.toNat ≠ peer → exec .heartbeat s = .next { s with fab := { s.fab with inbox := [] } })) ∧
    (∀ b : Burst,
      let good := b.check.toNat = burstCheck (burstFields b.node.toNat b.lead b.state.toNat b.geom.toNat) ∧ b.node.toNat = peer
      let same := tw.geom = b.geom.toNat
      (¬ good → exec (.burstReceive b) s = .next s) ∧
      (on → good → tw.state ≠ 0 → tw.state ≠ 5 → ¬ same → bare →
        becomes (.burstReceive b) (fun t => t.state = 5 ∧ t.drives = false ∧ t.copyBusy = false)) ∧
      (on → good → same → becomes (.burstReceive b) (fun t => t.hbSilent = 0 ∧ t.hbUp = true ∧ t.pstate = b.state.toNat ∧
        t.plead = b.lead ∧ t.drives = tw.drives ∧ t.state =
          if tw.state = 5 then 1
          else if serving s ∧ tw.state = 2 ∧ b.state = 3 ∧ b.lead = false then 3
          else if serving s ∧ (tw.state = 4 ∨ tw.state = 3) ∧ b.state = 2 ∧ b.lead = false then 2 else tw.state))) ∧
    (on → tw.declared = false → 3 ≤ tw.fabSilent → 48 ≤ tw.hbSilent → exec .peerFailureDeclare s =
      .next { s with twn := { tw with declared := true, fails := min (tw.fails + 1) 65535 }, di := { s.di with irq := true } }) ∧
    (tw.fabSilent < 3 ∨ tw.hbSilent < 48 → exec .peerFailureDeclare s = .next s) ∧
    (tw.state ≠ 0 → tw.state ≠ 5 → tw.drives = false → 4 ≤ tw.highTicks → subOf s clk = claimClk s → twinAwake s = true →
      entersSleep s = false → tw.held = [] → ∃ t, exec (.leadClaim clk true) s = .next t ∧ t.twn.state = 4 ∧ t.twn.drives = true ∧
        t.twn.lineHigh = false ∧ t.twn.sent = [] ∧ t.coh.verified = [] ∧
        t.coh.unverified = (s.img.layout.regions.filter (fun r => r.twinned && regionCoherent r)).map regionId ∧
        t.twn.takeovers = if tw.state = 2 ∨ tw.state = 3 then min 65535 (tw.takeovers + 1) else tw.takeovers) ∧
    (tw.drives = true ∨ tw.highTicks < 4 ∨ subOf s clk ≠ claimClk s ∨ entersSleep s = true → ∀ high, exec (.leadClaim clk high) s = .next (seenClk s clk)) ∧
    exec (.leadClaim clk false) s = .next (seenClk s clk) ∧
    (tw.drives = true → bare → becomes .twnLeadRelease (fun t => t.drives = false ∧ t.sent = [] ∧ t.copyBusy = false ∧
      t.state = if tw.state = 0 ∨ tw.state = 5 then tw.state else 1)) ∧
    (tw.drives = false → exec .twnLeadRelease s = .next s) ∧
    (tw.state = 3 → serving s = true → tw.answers = [] → exec .twnRelease s = .next { s with twn := { tw with releasing := true, sent := [], toSend := [], answers := [] } }) ∧
    (tw.state ≠ 3 ∨ serving s = false → exec .twnRelease s = .next s) ∧
    exec .twnClear s = .next { s with twn := { tw with fabMiss := 0, holdFull := 0, takeovers := 0, fails := 0 } } ∧
    (∀ x : Sunk, s.fab.inbox = [x] → x.pkt.src.toNat = peer → following s = true →
      let u := { s with fab := { s.fab with inbox := [] } }
      (tagFits x.pkt = false → (pktOp x.pkt = .twinPub → exec .twinPub s = .next (answerTwin u x .fault)) ∧
        (pktOp x.pkt = .twinWr → x.pkt.payload ≠ [] → exec .twinWr s = .next (answerTwin u x .fault))) ∧
      (pktOp x.pkt = .twinPub → tagFits x.pkt = true → exec .twinPub s =
        .next { u with twn := { tw with entries := tw.entries ++ [x] } }) ∧
      (∀ (r : RegionRec) (sl a : Nat),
        let k := x.pkt
        let off := addrOff k.addr.toNat
        pktOp k = .twinWr → tagFits k = true → homeNode s ≠ peer → k.payload ≠ [] → tw.copyOut = [] → tw.copyHeld = [] → tw.held = [] →
        off % 64 + k.payload.length ≤ 64 → placeOf s (addrPart k.addr.toNat) off = .pinned r sl a →
        sliceFenced s sl = false → a + k.payload.length ≤ 2 ^ 33 → s.di.injArm = false →
        (lineWords sl a).all (fun w => decide (markGet s w = {})) = true →
        ∃ t, exec .twinWr s = .next t ∧ t.fab.inbox = [] ∧ dramBytes t sl a k.payload.length = k.payload ∧
          DramKeptBut s t sl a k.payload.length)) ∧
    (∀ (x : Sunk) (p u : Nat), tw.entries = [x] → tw.held = [] → tw.turnedAway.contains x.pkt.seq.toNat = true →
      s.coh.gathered = [] → publishUnit s x.pkt.addr.toNat = some (p, u) → ledgerBlocked s p = false → tw.copyOut = [] →
      let w := decide193 (versionGet s p u) x.pkt.aux.toNat false (x.pkt.seq.toNat / 2 ^ 20)
      ∃ t, exec .twinPublishDecide s = .next t ∧ t.twn.entries = [] ∧ versionGet t p u = w.2) ∧
    (∀ (x : Sunk) (o : TwinOut) (v : Service) (a : Ans), s.fab.inbox = [x] → isTwinCmp s x.pkt = true → tw.sent = [o] →
      tw.answers = [{ svc := v, answer := a, waits := [o.id] }] → tw.toSend = [] →
      exec .twinCmp s = .next (finish { s with fab := { s.fab with inbox := [] }, twn := { tw with sent := [], answers := [] } } v a)) ∧
    (leads s = true → tw.state = 2 ∨ tw.state = 3 → tw.answers = [] →
      tw.sent.any (fun o => decide (o.since + tw.ackto ≤ s.td.ptime)) = true →
      becomes .followerAckTimeout (fun t => t.state = 4 ∧ t.sent = [] ∧ t.toSend = [] ∧ t.drives = tw.drives)) ∧
    (∃ t, exec .shadowExpiry s = .next t ∧ Touches { twn := true, svc := true } s t ∧
      t.twn.held = tw.held.filter (fun h => !(h.shadow && decide (h.since + tw.shadow ≤ s.td.ptime)))) ∧
    (tw.state = 1 → tw.fabUp = true → tw.lineHigh = false → tw.drives = false →
      becomes .resyncStart (fun t => t.state = 2 ∧ t.copyBusy = true ∧ t.copyNext = 0 ∧ t.copyDone = 0)) ∧
    (tw.state ≠ 1 ∨ tw.fabUp = false ∨ tw.lineHigh = true ∨ tw.drives = true → exec .resyncStart s = .next s) ∧
    (∀ a n version, tw.copyBusy = true → tw.copyEnded = false → following s = true →
      copyItem s tw.copyNext = some (a, n, version) → (version = true ∨ copyAllowed s (n / 256) = true) →
      becomes .twinCopyRead (fun t => t.copyNext = tw.copyNext + 1 ∧
        ∃ o, t.copyOut = tw.copyOut ++ [o] ∧ o.addr = a ∧ o.len = n ∧ o.version = version)) ∧
    (∀ (x : Sunk) (o : CopyReq), s.fab.inbox = [x] → tw.copyOut = [o] → tw.copyHeld = [] →
      answersCopy s x.pkt o = true → pktOp x.pkt = .data → x.pkt.status = 0 →
      (o.version = true → ∃ t, exec .twinCopyData s = .next t ∧ t.twn.copyOut = [] ∧ t.fab.inbox = [] ∧
        (versionGet t (addrPart o.addr) (addrOff o.addr / 2097152)).v = fieldAt x.pkt.payload 0 8) ∧
      (o.version = false →
        let w := placeBytes { s with fab := { s.fab with inbox := [] } } o.addr (x.pkt.payload.take o.len)
        anyRetry w.2 = false → ∃ t, exec .twinCopyData s = .next t ∧ t.twn.copyOut = [] ∧ t.fab.inbox = [] ∧
          t.twn.copyDone = tw.copyDone + o.len ∧ t.stk = w.1.stk))

/-- Fences, partial resets, spares and the management core (R275, R276, R382, R384 to R390): a fence takes the lowest free
entry and acts from the next tick; a reset is taken unless one runs or a target cannot take it, cancels what is in service
three frames on, and makes its targets ACTIVE; a graft due gives a pruned engine's number to a spare; the watchdog
restarts the core on its committed firmware, and holds it at the fourth restart. -/
def Obligations.FencesResetsAndTheWatchdog : Prop :=
  ∀ (s : State),
    let tw := s.twn
    let c := s.mgmt.core
    let restarted : Mgmt := { s.mgmt with core := { latch := c.latch, held := c.held, ptSub := c.ptSub, acc := c.acc, data := c.data } }
    (∀ (host : Bool) (req : BitVec 12),
      let taken := (List.range 64).any (fun n => tblGet (fun _ => none) tw.fences n = some (host, req.toNat))
      (∀ n, taken = false → (List.range 64).find? (fun n => (tblGet (fun _ => none) tw.fences n).isNone) = some n →
        ∃ t, exec (.fenceAdd host req) s = .next t ∧ Touches { twn := true } s t ∧ t.twn.fenced = tw.fenced ∧
          tblGet (fun _ => none) t.twn.fences n = some (host, req.toNat) ∧ t.twn.fenceDue = tw.fenceDue ++ [(host, req.toNat)] ∧
          ∀ m, m ≠ n → tblGet (fun _ => none) t.twn.fences m = tblGet (fun _ => none) tw.fences m) ∧
      (taken = true → exec (.fenceAdd host req) s = .next s) ∧
      ((List.range 64).all (fun n => (tblGet (fun _ => none) tw.fences n).isSome) = true → exec (.fenceAdd host req) s = .next s) ∧
      ∃ t, exec (.fenceClear host req) s = .next t ∧ Touches { twn := true } s t ∧ t.twn.fenced = tw.fenced ∧
        (∀ e ∈ t.twn.fences, e.2 ≠ some (host, req.toNat)) ∧ (host, req.toNat) ∉ t.twn.fenceDue) ∧
    (∀ (half : Fin 2) (part : Fin 32),
      let ready := fun (p : Nat) => (partGet s p).st ≠ .quiesced ∧ (partGet s p).st ≠ .resetting
      (tw.rstBusy = false → twinAwake s = true → (∀ p ∈ partsInHalf s half, ready p) →
        ∃ t, exec (.halfReset half) s = .next t ∧ Touches { twn := true } s t ∧ t.twn.rstBusy = true ∧
          t.twn.rstFrame = s.td.ptime ∧ t.twn.rstLastKind = half.val + 1 ∧ t.twn.rstCancelled = false) ∧
      (tw.rstBusy = false → twinAwake s = true → ready part → (partGet s part).st ≠ .unused →
        ∃ t, exec (.partitionReset part) s = .next t ∧ Touches { twn := true } s t ∧ t.twn.rstBusy = true ∧
          t.twn.rstFrame = s.td.ptime ∧ t.twn.rstLastKind = 0 ∧ t.twn.rstLastPart = part.val ∧ t.twn.rstCancelled = false) ∧
      (tw.rstBusy = true → exec (.halfReset half) s = .next { s with twn := { tw with rstKind := half.val + 1 } } ∧
        exec (.partitionReset part) s = .next { s with twn := { tw with rstKind := 0, rstPart := part.val } })) ∧
    (tw.rstBusy = false ∨ tw.rstCancelled = true ∨ s.td.ptime < tw.rstFrame + 3 → exec .resetCancel s = .next s) ∧
    (∀ part : Fin 32, tw.rstBusy = true → tw.rstLastKind = 0 → tw.rstLastPart = part.val → (partGet s part).st = .resetting →
      (tw.rstCancelled = false → tw.rstFrame + 3 ≤ s.td.ptime → s.svc = [] → s.coh.txns = [] →
        (∀ q, q < 64 → (pairGet s part q).service = none) →
        ∃ t, exec .resetCancel s = .next t ∧ t.twn.rstCancelled = true ∧
          (∀ q, q < 64 → (pairGet t part q).state = 0 ∧ (pairGet t part q).cause = 4) ∧
          ∀ b ∈ t.eng.buffers, b.part ≠ part.val) ∧
      (tw.rstCancelled = true → ∃ t, exec .resetReady s = .next t ∧ Touches { parts := true } s t ∧
        partGet t part = { partGet s part with next := some .active })) ∧
    (tw.rstBusy = false ∨ tw.rstCancelled = false → exec .resetReady s = .next s) ∧
    (autoBit s 0 = false → exec (.spareGraft .engine) s = .next s) ∧
    (∀ i j l, autoBit s 0 = true → s.eng.eng.map (·.1) = [i] → (engGet s i).pruned = true → (engGet s i).logical = some l →
      graftWaits s (l / 2) = false → i ≠ j →
      [256 + 2 * physCluster i, 257 + 2 * physCluster i].find? (fun j => (engGet s j).logical.isNone && !(engGet s j).pruned) = some j →
      ∃ t, exec (.spareGraft .engine) s = .next t ∧ Touches { eng := true } s t ∧ engGet t j = { engGet s j with logical := some l } ∧
        engGet t i = { engGet s i with logical := none, trapped := false }) ∧
    (∀ key : BitVec 16,
      (key = 0x5A5A → exec (.wdtKick key) s = .next { s with twn := { tw with wdtArmed := true } }) ∧
      (key = 0xA5A5 → tw.wdtArmed = true → exec (.wdtKick key) s = .next { s with twn := { tw with wdtArmed := false, wdtCount := 0 } }) ∧
      (key ≠ 0x5A5A → (key ≠ 0xA5A5 ∨ tw.wdtArmed = false) →
        exec (.wdtKick key) s = .next { s with twn := { tw with wdtArmed := false } })) ∧
    (tw.wdtEn = false ∨ tw.wdtHeld = true ∨ tw.wdtCount < tw.wdtTimeout → exec .watchdogExpiry s = .next s) ∧
    (tw.wdtEn = true → tw.wdtHeld = false → tw.wdtTimeout ≤ tw.wdtCount → ∃ t, exec .watchdogExpiry s = .next t ∧
      t.sec.running = s.sec.committed ∧ t.mgmt = restarted ∧ t.twn = { tw with
        wdtCount := 0, wdtArmed := false, wdtRestarts := min (tw.wdtRestarts + 1) 255,
        wdtFires := min (tw.wdtFires + 1) 255, wdtHeld := decide (3 ≤ tw.wdtRestarts) }) ∧
    (∃ t, exec .mgmtParityError s = .next t ∧ Touches { mgmt := true, sec := true, di := true, free := true } s t ∧
      t.sec.running = s.sec.committed ∧ t.mgmt = restarted ∧ t.di.irq = true ∧
      t.di.faultStatus.testBit 9 = true)

/-! ### Power and SMBus -/

/-- Power and reset (R109, R309, R392 to R394, R397): a rise of VIN56 starts conversion, and the device starts once RST_N
is high and REFCLK is stable; loss of power, an overvoltage and a thermal trip keep only what non-volatile storage holds;
RST_N resets by a pulse of 1 µs and never by one under 100 ns, and REFCLK
is then awaited anew; the end of the fill releases the management core. -/
def Obligations.PowerComesAndGoes : Prop :=
  ∀ (s : State) (straps : BitVec 2) (untrained : List Nat),
    let w := s.pwr
    let kept := fun (t : State) => t.stk.dram = [] ∧ t.near.mem = [] ∧ t.svc = [] ∧ t.flows = [] ∧ t.ports = [] ∧ t.td.boot = s.td.boot ∧
      t.img.owners = s.img.owners ∧ t.img.loaded = false ∧ t.sec.mgmtKey = s.sec.mgmtKey ∧ t.sec.committed = s.sec.committed ∧
      t.sec.owcCount = s.sec.owcCount ∧ t.stk.repairLog = s.stk.repairLog ∧ t.fl.defects = s.fl.defects ∧
      ∀ p, p < 32 → (partGet t p).epoch = (partGet s p).epoch
    let on : Power := { stage := .waiting, rstHigh := w.rstHigh, refclk := w.refclk, straps := straps.toNat, untrained := untrained, lastRst := if w.tripRecord then 2 else if w.voltRecord then 3 else 0 }
    (w.stage ≠ .off → exec (.coldPowerOn straps untrained) s = .next s) ∧
    (w.stage = .off → w.rstHigh = false ∨ w.refclk = false → exec (.coldPowerOn straps untrained) s = .next { s with pwr := on }) ∧
    (w.stage = .off → w.rstHigh = true → w.refclk = true → ∃ t, exec (.coldPowerOn straps untrained) s = .next t ∧
      Started s t .cold untrained ∧ t.pwr.straps = straps.toNat ∧ t.pwr.lastRst = on.lastRst ∧ t.pwr.tripRecord = false) ∧
    (w.stage ≠ .waiting ∨ w.rstHigh = false → exec .refclkStable s = .next { s with pwr := { w with refclk := true } }) ∧
    (w.stage = .waiting → w.rstHigh = true → w.start ≠ .warm → ∃ t, exec .refclkStable s = .next t ∧ Started s t w.start w.untrained) ∧
    (∀ ns, ns < 100 → exec (.rstNAssert ns) s = .next s) ∧
    (∀ ns, 1000 ≤ ns →
      (railsUp s = false → exec (.rstNAssert ns) s = .next { s with pwr := { w with rstHigh := false, refclk := false } }) ∧
      (w.stage = .waiting → w.start = .cold → exec (.rstNAssert ns) s = .next { s with mgmt := {}, pwr :=
        { stage := .waiting, straps := w.straps, untrained := w.untrained, lastRst := w.lastRst, vin := w.vin, amp := w.amp, deciWatt := w.deciWatt,
          tempNow := w.tempNow, tempPeak := w.tempNow, tripRecord := w.tripRecord, voltRecord := w.voltRecord } }) ∧
      (railsUp s = true → (w.stage ≠ .waiting ∨ w.start ≠ .cold) →
        ∃ t, exec (.rstNAssert ns) s = .next t ∧ t.pwr.stage = .waiting ∧ t.pwr.start = .rstN ∧ t.pwr.lastRst = 1 ∧
          t.pwr.rstHigh = false ∧ t.pwr.refclk = false ∧ t.twn.drives = false ∧ t.svc = [] ∧ t.flows = [] ∧ t.fab = {} ∧
          t.stk.dram = [] ∧ t.near.mem = [] ∧ (∀ p, p < 8 → portGet t p = {}) ∧ (∀ p ∈ t.eth.ports, p.state = 0) ∧
          t.parts = s.parts ∧ t.td.ptime = s.td.ptime ∧ t.td.boot = s.td.boot ∧ t.img.owners = s.img.owners ∧
          t.sec.committed = s.sec.committed ∧ t.sec.mgmtKey = s.sec.mgmtKey ∧ t.out = s.out)) ∧
    (∀ ns, 100 ≤ ns → ns < 1000 → ∃ t, exec (.rstNAssert ns) s = .next t ∧
      (t = { s with free := s.free + 1 } ∨ exec (.rstNAssert 1000) { s with free := s.free + 1 } = .next t)) ∧
    (railsUp s = false → exec (.rstNRelease straps untrained) s = .next { s with pwr := { w with rstHigh := true } }) ∧
    (railsUp s = true → w.stage ≠ .waiting ∨ w.refclk = false → exec (.rstNRelease straps untrained) s =
      .next { s with pwr := { w with rstHigh := true, straps := straps.toNat, untrained := untrained } }) ∧
    (w.stage = .waiting → w.refclk = true → w.start ≠ .warm →
      ∃ t, exec (.rstNRelease straps untrained) s = .next t ∧ Started s t w.start untrained ∧ t.pwr.straps = straps.toNat) ∧
    (w.stage ≠ .filling → exec .hardwareFillDone s = .next s) ∧
    (w.stage = .filling → ∃ t, exec .hardwareFillDone s = .next t ∧ Touches { stk := true, pwr := true, di := true, img := true } s t ∧
      t.pwr.stage = .serving ∧ t.di.fillBusy = false ∧ t.di.fillFrames = (s.td.ptime - s.di.fillStart) % 65536 ∧
      t.img.bootDue = true ∧ (w.start = .d3 → t.pwr.state = 0 ∧ t.pwr.busy = false ∧ t.pwr.fault = w.fault ||| 1) ∧
      ∀ c, c < 136 → chanGet t c = { chanGet s c with state := if (chanGet s c).state ≠ 0 then (chanGet s c).state
        else if c % 17 = 16 ∧ (chanGet s c).serves = none then 3 else 1 }) ∧
    (∃ t, exec .powerLoss s = .next t ∧ kept t ∧ t.pwr.stage = .off ∧ t.pwr.tripLow = false) ∧
    (railsUp s = false → exec .overvoltageShutdown s = .next s ∧ exec .thermalTrip s = .next s) ∧
    (railsUp s = true → (∃ t, exec .overvoltageShutdown s = .next t ∧ kept t ∧ t.pwr.stage = .overvolt ∧ t.pwr.voltRecord = true) ∧
      ∃ t, exec .thermalTrip s = .next t ∧ kept t ∧ t.pwr.stage = .tripped ∧ t.pwr.tripRecord = true ∧ t.pwr.tripLow = true) ∧
    (w.stage = .overvolt → exec .overvoltageRelease s = .next { s with pwr := { w with stage := .off } }) ∧
    (w.stage ≠ .overvolt → exec .overvoltageRelease s = .next s)

/-- Power states and SMBus (R398, R399, R402 to R405): a write of TARGET is taken outside a transition; D1 is left for a
command and returned to; D2 stops channels, caches and buffers once the partitions have drained, and leaving it makes
them ACTIVE again; an address match wakes the device from D3, which starts once REFCLK is stable again; a transaction is
served, with its packet error code, or NACKed; the alert is answered once. -/
def Obligations.PowerStatesAndSmbus : Prop :=
  ∀ (s : State) (clk : Nat),
    let w := s.pwr
    let any := s.eng.pairs.any (fun e => e.2.service.isSome)
    let said := fun (o : Output) => ({ s with out := s.out ++ [o] } : State)
    let target := fun (n : Nat) => ({ s with pwr := { w with target := n, d1Idle := 17 } } : State)
    let sleeps := w.stage = .serving ∧ w.state = 3
    let silent := railsUp s = false ∨ w.rstHigh = false ∨ w.waking = true
    let answers := ¬ silent ∧ ¬ sleeps
    let me := BitVec.ofNat 8 (2 * (0x60 + w.straps))
    let pecOf := fun (code : Byte) (bytes : List Byte) => smbPec ([me, code, BitVec.ofNat 8 bytes.length] ++ bytes)
    let moved := fun (n : Nat) => ({ s with pwr := { w with state := n, busy := false } } : State)
    (w.busy = true ∨ railsUp s = false ∨ w.state = 3 → exec .powerTargetD0 s = .next s ∧ exec .powerTargetD1 s = .next s ∧
      exec .powerTargetD2 s = .next s ∧ exec .powerTargetD3 s = .next s) ∧
    (w.busy = false → railsUp s = true → w.state ≠ 3 → exec .powerTargetD0 s = .next (target 0) ∧
      exec .powerTargetD1 s = .next (target 1) ∧ exec .powerTargetD2 s = .next (target 2) ∧ exec .powerTargetD3 s = .next (target 3)) ∧
    (w.stage ≠ .serving ∨ w.busy = true ∨ w.target ≠ 1 ∨ s.td.now ≠ s.td.tickClk → exec .d1AutoReturn s = .next s) ∧
    (w.stage = .serving → w.busy = false → w.target = 1 → s.td.now = s.td.tickClk →
      (w.state = 1 → any = true → exec .d1AutoReturn s = .next { s with pwr := { w with d1Idle := 0, busy := true, moving := 0 } }) ∧
      (w.state = 0 → any = false → 16 ≤ w.d1Idle → exec .d1AutoReturn s = .next { s with pwr := { w with busy := true, moving := 1 } })) ∧
    (w.busy = false ∨ w.stage ≠ .serving → exec .powerTransitionDone s = .next s) ∧
    (w.busy = true → w.stage = .serving →
      (w.moving ≤ 1 → w.state ≠ 2 → exec .powerTransitionDone s = .next (moved w.moving)) ∧
      (2 ≤ w.moving → sleepDrained s = false → exec .powerTransitionDone s = .next s) ∧
      (2 ≤ w.moving → sleepDrained s = true → w.state = 2 → exec .powerTransitionDone s = .next (moved w.moving)) ∧
      (2 ≤ w.moving → sleepDrained s = true → w.state ≠ 2 → ∃ t, exec .powerTransitionDone s = .next t ∧
        t.pwr = (moved w.moving).pwr ∧ t.coh.cache = [] ∧ t.eng.buffers = [] ∧ t.eng.walks = [] ∧ t.stk.dram = s.stk.dram ∧
        (∀ c, c < 136 → (chanGet s c).state = 1 ∨ (chanGet s c).state = 2 ∨ (chanGet s c).state = 3 → (chanGet t c).state = 5) ∧
        t.twn.drives = false ∧ ∀ p ∈ t.eth.ports, p.state = 0) ∧
      (w.moving ≤ 1 → w.state = 2 → (∀ c, c < 136 → owesTraining (chanGet s c) = false) →
        ∃ t, exec .powerTransitionDone s = .next t ∧ t.pwr.state = w.moving ∧ t.pwr.busy = false ∧ t.pwr.fault = w.fault ||| 1 ∧
          t.td.sync = 0 ∧ t.td.edgeTick = none ∧ t.stk.dram = s.stk.dram ∧
          (∀ c, c < 136 → (chanGet s c).state = 5 → (chanGet t c).state = if c % 17 ≠ 16 then 1 else match (chanGet s c).serves with
            | none => 3
            | some sl => if (chanGet s (17 * (sl / 16) + sl % 16)).copying then 2 else if (chanGet s c).graftDue then 3 else 1) ∧
          ∀ p, p < 32 → (partGet s p).st = .quiesced → (partGet s p).why = 3 → (partGet t p).next = some .active)) ∧
    (∀ a : SmbStart,
      (a.address.toNat ≠ 0x60 + w.straps → exec (.smbusWake a) s = .next s) ∧
      (a.address.toNat = 0x60 + w.straps → sleeps → ∃ t, exec (.smbusWake a) s = .next t ∧
        t = { said .smbNack with pwr := { w with stage := .waiting, start := .d3, waking := true, busy := true, moving := 0, refclk := false } } ∧
        exec .smbReadByte t = .next { t with out := t.out ++ [.smbNack] } ∧
        (w.rstHigh = true → ∃ u, exec .refclkStable t = .next u ∧ Started s u .d3 w.untrained ∧ u.pwr.state = 3 ∧
          u.pwr.lastRst = 5 ∧ u.pwr.waking = false)) ∧
      (a.address.toNat = 0x60 + w.straps → answers → a.code ∈ [0x01, 0x10, 0x11, 0x12] → exec (.smbusWake a) s = .next s) ∧
      (a.address.toNat = 0x60 + w.straps → ¬ sleeps → (silent ∨ a.code ∉ [0x01, 0x10, 0x11, 0x12]) →
        exec (.smbusWake a) s = .next (said .smbNack))) ∧
    (sleeps → ∀ a : SmbStart, a.address.toNat = 0x60 + w.straps → ∀ bytes pec, ∃ t, exec (.smbusWake a) s = .next t ∧
      exec .smbReadByte s = .next t ∧ exec (.smbSetReadOffset bytes pec) s = .next t) ∧
    (¬ sleeps → silent → ∀ bytes pec, exec .smbReadByte s = .next (said .smbNack) ∧
      exec (.smbSetReadOffset bytes pec) s = .next (said .smbNack)) ∧
    (answers →
      (let status := BitVec.ofNat 8 (w.state * 64 + bit01 w.busy * 32 + bit01 (w.throttle || w.stackThrottle.any id) * 16 + w.lastRst);
        w.state < 4 → w.lastRst < 16 → exec .smbReadByte s =
          .next (said (.smbus [status] (smbPec [me, 0x01, me + 1, status])))) ∧
      (∀ bytes pec, bytes.length ≠ 4 → exec (.smbSetReadOffset bytes pec) s = .next (said .smbNack)) ∧
      (∀ (bytes : List Byte) pec, bytes.length = 4 →
        (pec = none ∨ pec = some (pecOf 0x11 bytes) →
          exec (.smbSetReadOffset bytes pec) s = .next { s with pwr := { w with smbOffset := leNat bytes } }) ∧
        (pec ≠ none → pec ≠ some (pecOf 0x11 bytes) →
          exec (.smbSetReadOffset bytes pec) s = .next { said .smbNack with pwr := { w with pecErr := min (w.pecErr + 1) 255 } })) ∧
      (∀ (bytes : List Byte) pec, bytes.length = 8 → (pec = none ∨ pec = some (pecOf 0x10 bytes)) → ∃ t,
        exec (.registerWrite .smbus (leNat (bytes.take 4)) 4 (BitVec.ofNat 32 (leNat (bytes.drop 4))) clk) s = .next t ∧
        exec (.smbRegisterWrite bytes pec clk) s = .next t) ∧
      ∃ t, exec (.readLoLatch .smbus w.smbOffset 4 clk) s = .next t ∧
        let bs := 4 :: leBytes 4 t.mgmt.smbus.data.toNat
        exec (.smbRegisterRead clk) s = .next { t with out := t.out ++ [.smbus bs (smbPec ([me, 0x12, me + 1] ++ bs))] }) ∧
    (railsUp s = true → w.rstHigh = true → w.alertAnswered = false → w.fault &&& w.alertMask ≠ 0 →
      exec .alertResponse s = .next { said (.smbus [me] (smbPec [0x19, me])) with pwr := { w with alertAnswered := true } }) ∧
    (railsUp s = false ∨ w.rstHigh = false ∨ w.alertAnswered = true ∨ w.fault &&& w.alertMask = 0 →
      exec .alertResponse s = .next (said .smbNack))

/-- R109: a cold power-on that finds RST_N high and REFCLK stable advances the boot counter by one, short of
saturation, as the hardware fill begins; no command changes it but one that brings a cold power-on to its start. -/
def Obligations.BootCounterCountsColdPowerOnsAlone : Prop :=
  (∀ (straps : BitVec 2) (untrained : List Nat) (s : State),
    s.pwr.stage = .off → s.pwr.rstHigh = true → s.pwr.refclk = true →
    ∃ t, exec (.coldPowerOn straps untrained) s = .next t ∧ t.pwr.stage = .filling ∧
      t.td.boot = min 0xFFFFFFFF (s.td.boot + 1)) ∧
  ∀ (c : Instr) (s t : State), exec c s = .next t →
    t.td.boot = s.td.boot ∨ (t.pwr.stage = .filling ∧ t.pwr.start = .cold ∧ (s.pwr.stage = .off ∨ s.pwr.stage = .waiting) ∧
      t.td.boot = min 0xFFFFFFFF (s.td.boot + 1))
end

