-- ==== Sys2Proof/Laws/Tables.lean ====
section
/-! SUPPORT. Sparse arrays: a write keeps the canonical form; a read after a write. -/

namespace Sys2Proof.Machine

variable {α : Type} {d : Nat → α} {m : Tbl α} {k j : Nat} {x : α}

/-- Keys strictly rising from a bound on, none equal to the default: the canonical form by recursion. -/
def tblFrom [DecidableEq α] (d : Nat → α) : Nat → Tbl α → Prop
  | _, [] => True
  | n, (a, v) :: m => n ≤ a ∧ v ≠ d a ∧ tblFrom d (a + 1) m

theorem tblFrom_mono [DecidableEq α] {n n' : Nat} (h : tblFrom d n m) (le : n' ≤ n) : tblFrom d n' m := by
  cases m with
  | nil => trivial
  | cons e m => exact ⟨le_trans le h.1, h.2⟩

theorem tblWf_iff_from [DecidableEq α] : tblWf d m = true ↔ tblFrom d 0 m := by
  induction m with
  | nil => simp [tblWf, tblFrom]
  | cons e m ih =>
    cases m with
    | nil => simp [tblWf, tblFrom]
    | cons f m =>
      simp only [tblWf, tblFrom, Bool.and_eq_true, decide_eq_true_eq] at ih ⊢
      constructor
      · rintro ⟨⟨hv, hlt⟩, hm⟩
        exact ⟨Nat.zero_le _, hv, hlt, (ih.1 hm).2⟩
      · rintro ⟨-, hv, hlt, hm⟩
        exact ⟨⟨hv, hlt⟩, ih.2 ⟨Nat.zero_le _, hm⟩⟩

theorem tblFrom_put [DecidableEq α] {n : Nat} (h : tblFrom d n m) (hk : n ≤ k) (hx : x ≠ d k) :
    tblFrom d n (tblPut m k x) := by
  induction m generalizing n with
  | nil => exact ⟨hk, hx, trivial⟩
  | cons e m ih =>
    obtain ⟨ha, hv, hm⟩ := h
    unfold tblPut
    split
    · next he => exact ⟨hk, hx, he ▸ hm⟩
    · split
      · next hlt => exact ⟨hk, hx, hlt, hv, hm⟩
      · exact ⟨ha, hv, ih hm (by omega)⟩

theorem tblFrom_erase [DecidableEq α] {n : Nat} (h : tblFrom d n m) : tblFrom d n (tblErase m k) := by
  induction m generalizing n with
  | nil => trivial
  | cons e m ih =>
    obtain ⟨ha, hv, hm⟩ := h
    unfold tblErase
    split
    · exact tblFrom_mono (ih hm) (by omega)
    · exact ⟨ha, hv, ih hm⟩

theorem tblFrom_filter [DecidableEq α] {n : Nat} (p : Nat × α → Bool) (h : tblFrom d n m) :
    tblFrom d n (m.filter p) := by
  induction m generalizing n with
  | nil => trivial
  | cons e m ih =>
    obtain ⟨ha, hv, hm⟩ := h
    rw [List.filter_cons]
    split
    · exact ⟨ha, hv, ih hm⟩
    · exact tblFrom_mono (ih hm) (by omega)

/-- A write keeps the canonical form. -/
theorem tblSet_wf [DecidableEq α] (h : tblWf d m = true) : tblWf d (tblSet d m k x) = true := by
  rw [tblWf_iff_from] at h ⊢
  unfold tblSet
  split
  · exact tblFrom_erase h
  · next hx => exact tblFrom_put h (Nat.zero_le _) hx

/-- Dropping entries keeps the canonical form. -/
theorem tblFilter_wf [DecidableEq α] (p : Nat × α → Bool) (h : tblWf d m = true) : tblWf d (m.filter p) = true := by
  rw [tblWf_iff_from] at h ⊢
  exact tblFrom_filter p h

theorem tblGet_put_same : tblGet d (tblPut m k x) k = x := by
  induction m with
  | nil => simp [tblPut, tblGet]
  | cons e m ih =>
    unfold tblPut
    split
    · simp [tblGet]
    · split
      · simp [tblGet]
      · next h _ => simp only [tblGet, if_neg h, ih]

theorem tblGet_put_other (h : j ≠ k) : tblGet d (tblPut m k x) j = tblGet d m j := by
  induction m with
  | nil => simp [tblPut, tblGet, h.symm]
  | cons e m ih =>
    unfold tblPut
    split
    · next he => simp [tblGet, h.symm, he]
    · split
      · simp [tblGet, h.symm]
      · simp only [tblGet, ih]

theorem tblGet_erase_same : tblGet d (tblErase m k) k = d k := by
  induction m with
  | nil => rfl
  | cons e m ih =>
    unfold tblErase
    split
    · exact ih
    · next h => simp only [tblGet, if_neg h, ih]

theorem tblGet_erase_other (h : j ≠ k) : tblGet d (tblErase m k) j = tblGet d m j := by
  induction m with
  | nil => rfl
  | cons e m ih =>
    unfold tblErase
    split
    · next he => simp [tblGet, ih, he, h.symm]
    · simp only [tblGet, ih]

/-- An entry written reads back, whatever the table. -/
@[simp] theorem tblGet_set_same [DecidableEq α] : tblGet d (tblSet d m k x) k = x := by
  unfold tblSet
  split
  · next hx => rw [hx]; exact tblGet_erase_same
  · exact tblGet_put_same

/-- Another entry reads as before. -/
theorem tblGet_set_other [DecidableEq α] (h : j ≠ k) : tblGet d (tblSet d m k x) j = tblGet d m j := by
  unfold tblSet
  split
  · exact tblGet_erase_other h
  · exact tblGet_put_other h

/-- Reading any entry after a write. -/
theorem tblGet_set [DecidableEq α] : tblGet d (tblSet d m k x) j = if j = k then x else tblGet d m j := by
  split
  · next h => rw [h, tblGet_set_same]
  · next h => exact tblGet_set_other h

end Sys2Proof.Machine
end

