-- ==== Sys2Proof/Laws/Touches.lean ====
section
/-! SUPPORT. The rules by which `Touches` passes through the operations: an update, a write, a choice, a fold; and what
it says of each part. -/

namespace Sys2Proof.Machine

variable {s0 s t : State} {m n : Mask}

theorem Touches.refl (m : Mask) (s : State) : Touches m s s := by
  refine ⟨?_, id⟩
  cases s
  unfold restore
  simp only [ite_self]

theorem restore_restore (u : State) : restore m s u = restore m s (restore m t u) := by
  unfold restore
  simp only [State.mk.injEq]
  refine ⟨?_, ?_, ?_, ?_, ?_, ?_, ?_, ?_, ?_, ?_, ?_, ?_, ?_, ?_, ?_, ?_, ?_, ?_, ?_, ?_, ?_, ?_, ?_, trivial, trivial⟩
  · cases m.mgmt <;> rfl
  · cases m.img <;> cases m.layout <;> cases m.owners <;> rfl
  · cases m.parts <;> rfl
  · cases m.flows <;> rfl
  · cases m.td <;> cases m.boot <;> rfl
  · cases m.ports <;> rfl
  · cases m.fab <;> rfl
  · cases m.coh <;> rfl
  · cases m.stk <;> cases m.dram <;> rfl
  · cases m.near <;> cases m.nearMem <;> rfl
  · cases m.fl <;> rfl
  · cases m.eng <;> rfl
  · cases m.di <;> rfl
  · cases m.eth <;> rfl
  · cases m.sec <;> rfl
  · cases m.twn <;> rfl
  · cases m.pwr <;> rfl
  · cases m.staging <;> rfl
  · cases m.mailbox <;> rfl
  · cases m.svc <;> rfl
  · cases m.nextTicket <;> rfl
  · cases m.out <;> rfl
  · cases m.free <;> rfl

theorem Touches.trans {u : State} (h : Touches m s t) (k : Touches m t u) : Touches m s u :=
  ⟨by rw [restore_restore (t := t), k.1, h.1], fun w => k.2 (h.2 w)⟩

theorem Touches.mgmt (h : Touches m s t) (e : m.mgmt = false) : t.mgmt = s.mgmt := by
  have := congrArg State.mgmt h.1
  simpa only [restore, e, Bool.false_eq_true, if_false] using this

theorem Touches.img (h : Touches m s t) (e : m.img = false) : t.img = s.img := by
  have := congrArg State.img h.1
  simpa only [restore, e, Bool.false_eq_true, if_false] using this

theorem Touches.parts (h : Touches m s t) (e : m.parts = false) : t.parts = s.parts := by
  have := congrArg State.parts h.1
  simpa only [restore, e, Bool.false_eq_true, if_false] using this

theorem Touches.flows (h : Touches m s t) (e : m.flows = false) : t.flows = s.flows := by
  have := congrArg State.flows h.1
  simpa only [restore, e, Bool.false_eq_true, if_false] using this

theorem Touches.td (h : Touches m s t) (e : m.td = false) : t.td = s.td := by
  have := congrArg State.td h.1
  simpa only [restore, e, Bool.false_eq_true, if_false] using this

theorem Touches.ports (h : Touches m s t) (e : m.ports = false) : t.ports = s.ports := by
  have := congrArg State.ports h.1
  simpa only [restore, e, Bool.false_eq_true, if_false] using this

theorem Touches.fab (h : Touches m s t) (e : m.fab = false) : t.fab = s.fab := by
  have := congrArg State.fab h.1
  simpa only [restore, e, Bool.false_eq_true, if_false] using this

theorem Touches.coh (h : Touches m s t) (e : m.coh = false) : t.coh = s.coh := by
  have := congrArg State.coh h.1
  simpa only [restore, e, Bool.false_eq_true, if_false] using this

theorem Touches.stk (h : Touches m s t) (e : m.stk = false) : t.stk = s.stk := by
  have := congrArg State.stk h.1
  simpa only [restore, e, Bool.false_eq_true, if_false] using this

theorem Touches.near (h : Touches m s t) (e : m.near = false) : t.near = s.near := by
  have := congrArg State.near h.1
  simpa only [restore, e, Bool.false_eq_true, if_false] using this

theorem Touches.fl (h : Touches m s t) (e : m.fl = false) : t.fl = s.fl := by
  have := congrArg State.fl h.1
  simpa only [restore, e, Bool.false_eq_true, if_false] using this

theorem Touches.eng (h : Touches m s t) (e : m.eng = false) : t.eng = s.eng := by
  have := congrArg State.eng h.1
  simpa only [restore, e, Bool.false_eq_true, if_false] using this

theorem Touches.di (h : Touches m s t) (e : m.di = false) : t.di = s.di := by
  have := congrArg State.di h.1
  simpa only [restore, e, Bool.false_eq_true, if_false] using this

theorem Touches.eth (h : Touches m s t) (e : m.eth = false) : t.eth = s.eth := by
  have := congrArg State.eth h.1
  simpa only [restore, e, Bool.false_eq_true, if_false] using this

theorem Touches.sec (h : Touches m s t) (e : m.sec = false) : t.sec = s.sec := by
  have := congrArg State.sec h.1
  simpa only [restore, e, Bool.false_eq_true, if_false] using this

theorem Touches.twn (h : Touches m s t) (e : m.twn = false) : t.twn = s.twn := by
  have := congrArg State.twn h.1
  simpa only [restore, e, Bool.false_eq_true, if_false] using this

theorem Touches.pwr (h : Touches m s t) (e : m.pwr = false) : t.pwr = s.pwr := by
  have := congrArg State.pwr h.1
  simpa only [restore, e, Bool.false_eq_true, if_false] using this

theorem Touches.staging (h : Touches m s t) (e : m.staging = false) : t.staging = s.staging := by
  have := congrArg State.staging h.1
  simpa only [restore, e, Bool.false_eq_true, if_false] using this

theorem Touches.mailbox (h : Touches m s t) (e : m.mailbox = false) : t.mailbox = s.mailbox := by
  have := congrArg State.mailbox h.1
  simpa only [restore, e, Bool.false_eq_true, if_false] using this

theorem Touches.svc (h : Touches m s t) (e : m.svc = false) : t.svc = s.svc := by
  have := congrArg State.svc h.1
  simpa only [restore, e, Bool.false_eq_true, if_false] using this

theorem Touches.nextTicket (h : Touches m s t) (e : m.nextTicket = false) : t.nextTicket = s.nextTicket := by
  have := congrArg State.nextTicket h.1
  simpa only [restore, e, Bool.false_eq_true, if_false] using this

theorem Touches.out (h : Touches m s t) (e : m.out = false) : t.out = s.out := by
  have := congrArg State.out h.1
  simpa only [restore, e, Bool.false_eq_true, if_false] using this

theorem Touches.free (h : Touches m s t) (e : m.free = false) : t.free = s.free := by
  have := congrArg State.free h.1
  simpa only [restore, e, Bool.false_eq_true, if_false] using this

theorem Touches.boot (h : Touches m s t) (e : m.boot = false) : t.td.boot = s.td.boot := by
  have k := congrArg (fun x => x.td.boot) h.1
  unfold restore at k
  cases hm : m.td <;> simp only [hm, e, Bool.false_eq_true, if_false, if_true] at k <;> exact k

theorem Touches.layout (h : Touches m s t) (e : m.layout = false) : t.img.layout = s.img.layout := by
  have k := congrArg (fun x => x.img.layout) h.1
  unfold restore at k
  cases hm : m.img <;> simp only [hm, e, Bool.false_eq_true, if_false, if_true] at k <;> exact k

theorem Touches.owners (h : Touches m s t) (e : m.owners = false) : t.img.owners = s.img.owners := by
  have k := congrArg (fun x => x.img.owners) h.1
  unfold restore at k
  cases hm : m.img <;> simp only [hm, e, Bool.false_eq_true, if_false, if_true] at k <;> exact k

theorem Touches.dram (h : Touches m s t) (e : m.dram = false) : t.stk.dram = s.stk.dram := by
  have k := congrArg (fun x => x.stk.dram) h.1
  unfold restore at k
  cases hm : m.stk <;> simp only [hm, e, Bool.false_eq_true, if_false, if_true] at k <;> exact k

theorem Touches.nearMem (h : Touches m s t) (e : m.nearMem = false) : t.near.mem = s.near.mem := by
  have k := congrArg (fun x => x.near.mem) h.1
  unfold restore at k
  cases hm : m.near <;> simp only [hm, e, Bool.false_eq_true, if_false, if_true] at k <;> exact k

theorem Touches.pending (h : Touches m s t) : t.pending = s.pending := by
  have k := congrArg State.pending h.1
  simpa only [restore] using k

theorem Mask.le_trans {k : Mask} (h : Mask.le m n = true) (w : Mask.le n k = true) : Mask.le m k = true := by
  unfold Mask.le at *
  simp only [Bool.and_eq_true] at h w
  obtain ⟨⟨⟨⟨⟨⟨⟨⟨⟨⟨⟨⟨⟨⟨⟨⟨⟨⟨⟨⟨⟨⟨⟨⟨⟨⟨⟨h0, h1⟩, h2⟩, h3⟩, h4⟩, h5⟩, h6⟩, h7⟩, h8⟩, h9⟩, h10⟩, h11⟩, h12⟩, h13⟩, h14⟩, h15⟩, h16⟩, h17⟩, h18⟩, h19⟩, h20⟩, h21⟩, h22⟩, h23⟩, h24⟩, h25⟩, h26⟩, h27⟩ := h
  obtain ⟨⟨⟨⟨⟨⟨⟨⟨⟨⟨⟨⟨⟨⟨⟨⟨⟨⟨⟨⟨⟨⟨⟨⟨⟨⟨⟨w0, w1⟩, w2⟩, w3⟩, w4⟩, w5⟩, w6⟩, w7⟩, w8⟩, w9⟩, w10⟩, w11⟩, w12⟩, w13⟩, w14⟩, w15⟩, w16⟩, w17⟩, w18⟩, w19⟩, w20⟩, w21⟩, w22⟩, w23⟩, w24⟩, w25⟩, w26⟩, w27⟩ := w
  have key : ∀ {a b c : Bool}, (!a || b) = true → (!b || c) = true → (!a || c) = true := by decide
  simp only [Bool.and_eq_true]
  exact ⟨⟨⟨⟨⟨⟨⟨⟨⟨⟨⟨⟨⟨⟨⟨⟨⟨⟨⟨⟨⟨⟨⟨⟨⟨⟨⟨key h0 w0, key h1 w1⟩, key h2 w2⟩, key h3 w3⟩, key h4 w4⟩, key h5 w5⟩, key h6 w6⟩, key h7 w7⟩, key h8 w8⟩, key h9 w9⟩, key h10 w10⟩, key h11 w11⟩, key h12 w12⟩, key h13 w13⟩, key h14 w14⟩, key h15 w15⟩, key h16 w16⟩, key h17 w17⟩, key h18 w18⟩, key h19 w19⟩, key h20 w20⟩, key h21 w21⟩, key h22 w22⟩, key h23 w23⟩, key h24 w24⟩, key h25 w25⟩, key h26 w26⟩, key h27 w27⟩

theorem restore_mono (w : Mask.le m n = true) (e : restore m s t = s) : restore n s t = s := by
  have h : restore n s t = restore n s (restore m s t) := by
    unfold Mask.le at w
    simp only [Bool.and_eq_true] at w
    unfold restore
    simp only [State.mk.injEq]
    obtain ⟨⟨⟨⟨⟨⟨⟨⟨⟨⟨⟨⟨⟨⟨⟨⟨⟨⟨⟨⟨⟨⟨⟨⟨⟨⟨⟨w0, w1⟩, w2⟩, w3⟩, w4⟩, w5⟩, w6⟩, w7⟩, w8⟩, w9⟩, w10⟩, w11⟩, w12⟩, w13⟩, w14⟩, w15⟩, w16⟩, w17⟩, w18⟩, w19⟩, w20⟩, w21⟩, w22⟩, w23⟩, w24⟩, w25⟩, w26⟩, w27⟩ := w
    refine ⟨?_, ?_, ?_, ?_, ?_, ?_, ?_, ?_, ?_, ?_, ?_, ?_, ?_, ?_, ?_, ?_, ?_, ?_, ?_, ?_, ?_, ?_, ?_, trivial, trivial⟩
    · revert w0
      cases m.mgmt <;> cases n.mgmt <;> simp
    · revert w1 w24 w25
      cases m.img <;> cases n.img <;> cases m.layout <;> cases n.layout <;> cases m.owners <;> cases n.owners <;> simp
    · revert w2
      cases m.parts <;> cases n.parts <;> simp
    · revert w3
      cases m.flows <;> cases n.flows <;> simp
    · revert w4 w23
      cases m.td <;> cases n.td <;> cases m.boot <;> cases n.boot <;> simp
    · revert w5
      cases m.ports <;> cases n.ports <;> simp
    · revert w6
      cases m.fab <;> cases n.fab <;> simp
    · revert w7
      cases m.coh <;> cases n.coh <;> simp
    · revert w8 w26
      cases m.stk <;> cases n.stk <;> cases m.dram <;> cases n.dram <;> simp
    · revert w9 w27
      cases m.near <;> cases n.near <;> cases m.nearMem <;> cases n.nearMem <;> simp
    · revert w10
      cases m.fl <;> cases n.fl <;> simp
    · revert w11
      cases m.eng <;> cases n.eng <;> simp
    · revert w12
      cases m.di <;> cases n.di <;> simp
    · revert w13
      cases m.eth <;> cases n.eth <;> simp
    · revert w14
      cases m.sec <;> cases n.sec <;> simp
    · revert w15
      cases m.twn <;> cases n.twn <;> simp
    · revert w16
      cases m.pwr <;> cases n.pwr <;> simp
    · revert w17
      cases m.staging <;> cases n.staging <;> simp
    · revert w18
      cases m.mailbox <;> cases n.mailbox <;> simp
    · revert w19
      cases m.svc <;> cases n.svc <;> simp
    · revert w20
      cases m.nextTicket <;> cases n.nextTicket <;> simp
    · revert w21
      cases m.out <;> cases n.out <;> simp
    · revert w22
      cases m.free <;> cases n.free <;> simp
  rw [h, e]
  exact (Touches.refl n s).1

theorem Touches.mono (h : Touches m s t) (w : Mask.le m n = true) : Touches n s t := ⟨restore_mono w h.1, h.2⟩

/-- An update written out: its queue names the state it starts from. -/
theorem touches_mk {mgmt img parts flows td ports fab coh stk near fl eng di eth sec twn pwr staging mailbox svc nextTicket out free flagSet} (h : Touches m s0 s)
    (e : restore m s ⟨mgmt, img, parts, flows, td, ports, fab, coh, stk, near, fl, eng,
      di, eth, sec, twn, pwr, staging, mailbox, svc, nextTicket, out, free, flagSet, s.pending⟩ = s)
    (k : (stk.dram, near.mem, near.flips, staging, mailbox) =
      (s.stk.dram, s.near.mem, s.near.flips, s.staging, s.mailbox)) :
    Touches m s0 ⟨mgmt, img, parts, flows, td, ports, fab, coh, stk, near, fl, eng,
      di, eth, sec, twn, pwr, staging, mailbox, svc, nextTicket, out, free, flagSet, s.pending⟩ := by
  refine h.trans ⟨e, fun w => ?_⟩
  simp only [Prod.mk.injEq] at k
  obtain ⟨e1, e2, e3, e4, e5⟩ := k
  unfold Memory.wf at *
  dsimp only
  rw [e1, e2, e3, e4, e5]
  exact w

theorem touches_ite {p : Prop} [Decidable p] (h : Touches m s0 s) (k : Touches m s0 t) :
    Touches m s0 (if p then s else t) := by
  split
  · exact h
  · exact k

theorem touches_foldl {α : Type} {f : State → α → State} {l : List α} (h : Touches m s0 s)
    (k : ∀ t, Touches m s0 t → ∀ a, Touches m s0 (f t a)) : Touches m s0 (l.foldl f s) := by
  induction l generalizing s with
  | nil => exact h
  | cons a l ih => exact ih (k s h a)

theorem touches_foldl_fst {α β : Type} {f : State × β → α → State × β} {l : List α} {x : State × β}
    (h : Touches m s0 x.1) (k : ∀ y, Touches m s0 y.1 → ∀ a, Touches m s0 (f y a).1) :
    Touches m s0 (l.foldl f x).1 := by
  induction l generalizing x with
  | nil => exact h
  | cons a l ih => exact ih (k x h a)

theorem touches_foldl_snd {α β : Type} {f : β × State → α → β × State} {l : List α} {x : β × State}
    (h : Touches m s0 x.2) (k : ∀ y, Touches m s0 y.2 → ∀ a, Touches m s0 (f y a).2) :
    Touches m s0 (l.foldl f x).2 := by
  induction l generalizing x with
  | nil => exact h
  | cons a l ih => exact ih (k x h a)

end Sys2Proof.Machine
end

