-- ==== Sys2Proof/Laws/TouchesOps.lean ====
section
/-! SUPPORT. What the operations of Machine/Ops.lean may change. -/

namespace Sys2Proof.Machine

variable {M : Mask} {s0 s t : State}

theorem partSet_touches {p : ℕ} {x : Partition} (h : Touches M s0 s) (w : Mask.le { parts := true } M = true) :
    Touches M s0 (partSet s p x) :=
  h.trans (Touches.mono ⟨rfl, id⟩ w)

theorem partMod_touches {p : ℕ} {f : Partition → Partition} (h : Touches M s0 s)
    (w : Mask.le { parts := true } M = true) : Touches M s0 (partMod s p f) :=
  h.trans (Touches.mono ⟨rfl, id⟩ w)

theorem flowSet_touches {k : ℕ} {x : Flow} (h : Touches M s0 s) (w : Mask.le { flows := true } M = true) :
    Touches M s0 (flowSet s k x) :=
  h.trans (Touches.mono ⟨rfl, id⟩ w)

theorem flowMod_touches {k : ℕ} {f : Flow → Flow} (h : Touches M s0 s) (w : Mask.le { flows := true } M = true) :
    Touches M s0 (flowMod s k f) :=
  h.trans (Touches.mono ⟨rfl, id⟩ w)

theorem portSet_touches {p : ℕ} {x : Port} (h : Touches M s0 s) (w : Mask.le { ports := true } M = true) :
    Touches M s0 (portSet s p x) :=
  h.trans (Touches.mono ⟨rfl, id⟩ w)

theorem portMod_touches {p : ℕ} {f : Port → Port} (h : Touches M s0 s) (w : Mask.le { ports := true } M = true) :
    Touches M s0 (portMod s p f) :=
  h.trans (Touches.mono ⟨rfl, id⟩ w)

theorem chanSet_touches {c : ℕ} {x : Chan} (h : Touches M s0 s) (w : Mask.le { stk := true } M = true) :
    Touches M s0 (chanSet s c x) :=
  h.trans (Touches.mono ⟨rfl, id⟩ w)

theorem chanMod_touches {c : ℕ} {f : Chan → Chan} (h : Touches M s0 s) (w : Mask.le { stk := true } M = true) :
    Touches M s0 (chanMod s c f) :=
  h.trans (Touches.mono ⟨rfl, id⟩ w)

theorem engSet_touches {y_1 : ℕ} {x : Engine} (h : Touches M s0 s) (w : Mask.le { eng := true } M = true) :
    Touches M s0 (engSet s y_1 x) :=
  h.trans (Touches.mono ⟨rfl, id⟩ w)

theorem engMod_touches {y_1 : ℕ} {f : Engine → Engine} (h : Touches M s0 s) (w : Mask.le { eng := true } M = true) :
    Touches M s0 (engMod s y_1 f) :=
  h.trans (Touches.mono ⟨rfl, id⟩ w)

theorem pairSet_touches {p q : ℕ} {x : Pair} (h : Touches M s0 s) (w : Mask.le { eng := true } M = true) :
    Touches M s0 (pairSet s p q x) :=
  h.trans (Touches.mono ⟨rfl, id⟩ w)

theorem pairMod_touches {p q : ℕ} {f : Pair → Pair} (h : Touches M s0 s) (w : Mask.le { eng := true } M = true) :
    Touches M s0 (pairMod s p q f) :=
  h.trans (Touches.mono ⟨rfl, id⟩ w)

theorem qpSet_touches {q : ℕ} {x : Qp} (h : Touches M s0 s) (w : Mask.le { eth := true } M = true) :
    Touches M s0 (qpSet s q x) :=
  h.trans (Touches.mono ⟨rfl, id⟩ w)

theorem qpMod_touches {q : ℕ} {f : Qp → Qp} (h : Touches M s0 s) (w : Mask.le { eth := true } M = true) :
    Touches M s0 (qpMod s q f) :=
  h.trans (Touches.mono ⟨rfl, id⟩ w)

theorem blockSet_touches {b : ℕ} {x : StripeBlock} (h : Touches M s0 s) (w : Mask.le { fl := true } M = true) :
    Touches M s0 (blockSet s b x) :=
  h.trans (Touches.mono ⟨rfl, id⟩ w)

theorem blockMod_touches {b : ℕ} {f : StripeBlock → StripeBlock} (h : Touches M s0 s)
    (w : Mask.le { fl := true } M = true) : Touches M s0 (blockMod s b f) :=
  h.trans (Touches.mono ⟨rfl, id⟩ w)

theorem pteSet_touches {p u : ℕ} {x : Pte} (h : Touches M s0 s) (w : Mask.le { eng := true } M = true) :
    Touches M s0 (pteSet s p u x) :=
  h.trans (Touches.mono ⟨rfl, id⟩ w)

theorem versionSet_touches {p u : ℕ} {x : Version} (h : Touches M s0 s) (w : Mask.le { coh := true } M = true) :
    Touches M s0 (versionSet s p u x) :=
  h.trans (Touches.mono ⟨rfl, id⟩ w)

theorem partCnt_touches {p : ℕ} {f : PartCounters → PartCounters} (h : Touches M s0 s)
    (w : Mask.le { parts := true } M = true) : Touches M s0 (partCnt s p f) :=
  h.trans (Touches.mono ⟨rfl, id⟩ w)

theorem portCnt_touches {p : ℕ} {f : KxCounters → KxCounters} (h : Touches M s0 s)
    (w : Mask.le { ports := true } M = true) : Touches M s0 (portCnt s p f) :=
  h.trans (Touches.mono ⟨rfl, id⟩ w)

theorem emit_touches {o : Output} (h : Touches M s0 s) (w : Mask.le { out := true } M = true) : Touches M s0 (emit s
    o) :=
  h.trans (Touches.mono ⟨rfl, id⟩ w)

theorem drawFree_touches (h : Touches M s0 s) (w : Mask.le { free := true } M = true) : Touches M s0 (drawFree s).2
    :=
  h.trans (Touches.mono ⟨rfl, id⟩ w)

theorem drawBytes_touches {n : ℕ} (h : Touches M s0 s) (w : Mask.le { free := true } M = true) :
    Touches M s0 (drawBytes s n).2 :=
  h.trans (Touches.mono ⟨rfl, id⟩ w)

theorem seenClk_touches {clk : ℕ} (h : Touches M s0 s) (w : Mask.le { td := true } M = true) : Touches M s0 (seenClk
    s clk) :=
  h.trans (Touches.mono ⟨rfl, id⟩ w)

theorem noteFlags_touches {ids : List ℕ} (h : Touches M s0 s) (w : Mask.le {} M = true) : Touches M s0 (noteFlags s
    ids) := by
  refine h.trans (Touches.mono ?_ w)
  have h0 := Touches.refl {} s
  clear h w
  unfold noteFlags
  repeat' (first
    | with_reducible assumption
    | with_reducible apply touches_ite
    | (with_reducible refine touches_foldl ?_ (fun _ _ _ => ?_))
    | (with_reducible refine touches_foldl_fst ?_ (fun _ _ _ => ?_))
    | (with_reducible refine touches_foldl_snd ?_ (fun _ _ _ => ?_))
    | (fail_if_no_progress (with_reducible refine touches_mk ?_ rfl rfl)))

theorem markSet_touches {k : ℕ} {x : WordMark} (h : Touches M s0 s) (w : Mask.le { stk := true } M = true) :
    Touches M s0 (markSet s k x) :=
  h.trans (Touches.mono ⟨rfl, id⟩ w)

theorem injectFlips_touches {sl a : ℕ} (h : Touches M s0 s) (w : Mask.le { stk := true, di := true } M = true) :
    Touches M s0 (injectFlips s sl a) := by
  refine h.trans (Touches.mono ?_ w)
  have h0 := Touches.refl { stk := true, di := true } s
  clear h w
  unfold injectFlips
  repeat' (first
    | with_reducible assumption
    | (((try lift_lets); intro x); (refine (fun (hx : Touches { stk := true, di := true } s x) => ?_) ?_ <;> [clear_value x; (unfold x; clear x)]))
    | (with_reducible refine markSet_touches ?_ rfl)
    | with_reducible apply touches_ite
    | (fail_if_no_progress (with_reducible refine touches_mk ?_ rfl rfl)))

/-- What `granSet` may change. -/
abbrev Mask.granSet : Mask :=
  { stk := true, fl := true, di := true }

theorem granSet_touches {p n : ℕ} {x : Granule} (h : Touches M s0 s) (w : Mask.le Mask.granSet M = true) :
    Touches M s0 (granSet s p n x) := by
  refine h.trans (Touches.mono ?_ w)
  have h0 := Touches.refl Mask.granSet s
  clear h w
  unfold granSet
  repeat' (first
    | with_reducible assumption
    | ((try lift_lets); intro x; first
        | (refine (fun (hx : Touches Mask.granSet s x) => ?_) ?_ <;> [clear_value x; (unfold x; clear x)])
        | clear_value x)
    | (with_reducible refine injectFlips_touches ?_ rfl)
    | (with_reducible refine markSet_touches ?_ rfl)
    | with_reducible apply touches_ite
    | (with_reducible refine touches_foldl ?_ (fun _ _ _ => ?_))
    | (with_reducible refine touches_foldl_fst ?_ (fun _ _ _ => ?_))
    | (with_reducible refine touches_foldl_snd ?_ (fun _ _ _ => ?_))
    | (fail_if_no_progress (with_reducible refine touches_mk ?_ rfl rfl))
    | (split <;> (try (rename_i e1; have e2 := congrArg Prod.fst e1; have e3 := congrArg Prod.snd e1; dsimp only at e2 e3; (try subst e2); (try subst e3)))))

theorem granMod_touches {p n : ℕ} {f : Granule → Granule} (h : Touches M s0 s) (w : Mask.le Mask.granSet M = true) :
    Touches M s0 (granMod s p n f) := by
  refine h.trans (Touches.mono ?_ w)
  have h0 := Touches.refl Mask.granSet s
  clear h w
  unfold granMod
  repeat' (first
    | with_reducible assumption
    | (with_reducible refine granSet_touches ?_ rfl))

theorem dramSetByte_touches {sl : Nat} {a : Nat} {b : Byte} (h : Touches M s0 s) (w : Mask.le { stk := true, dram := true } M = true) :
    Touches M s0 (dramSetByte s sl a b) := by
  refine h.trans (Touches.mono ⟨rfl, fun w => ?_⟩ w)
  simp only [Memory.wf, Bool.and_eq_true] at w ⊢
  exact ⟨⟨⟨⟨tblSet_wf w.1.1.1.1, w.1.1.1.2⟩, w.1.1.2⟩, w.1.2⟩, w.2⟩

/-- Dropping entries of memories keeps the form. -/
theorem touches_filter {m : Mask} {u : State} {p q : Nat × Byte → Bool} {f : Nat × Nat → Bool} (h : Touches m s0 s)
    (r : restore m s u = s)
    (e : (u.stk.dram, u.near.mem, u.near.flips, u.staging, u.mailbox) =
      (s.stk.dram.filter p, s.near.mem.filter q, s.near.flips.filter f, s.staging, s.mailbox)) :
    Touches m s0 u := by
  simp only [Prod.mk.injEq] at e
  obtain ⟨e2, e3, e4, e5, e6⟩ := e
  refine h.trans ⟨r, fun w => ?_⟩
  simp only [Memory.wf, Bool.and_eq_true] at w ⊢
  rw [e2, e3, e4, e5, e6]
  exact ⟨⟨⟨⟨tblFilter_wf p w.1.1.1.1, tblFilter_wf q w.1.1.1.2⟩, tblFilter_wf f w.1.1.2⟩, w.1.2⟩, w.2⟩

theorem dramClear_touches {sl : Nat} {a : Nat} {n : Nat} (h : Touches M s0 s) (w : Mask.le { stk := true, dram := true } M = true) :
    Touches M s0 (dramClear s sl a n) := by
  refine h.trans (Touches.mono ?_ w)
  unfold dramClear
  lift_lets
  intro lo v t
  have ht : Touches { stk := true, dram := true } s t := touches_filter (p := fun e => e.1 < lo || lo + n ≤ e.1) (q := fun _ => true)
    (f := fun _ => true) (Touches.refl _ s) rfl (by simp [t, v])
  clear_value t
  intro wlo count

  split
  · exact touches_foldl ht (fun _ k _ => markSet_touches k rfl)
  · exact touches_mk ht rfl rfl

theorem dramStore_touches {sl : Nat} {a : Nat} {bs : List Byte} (h : Touches M s0 s) (w : Mask.le { stk := true, dram := true } M = true) :
    Touches M s0 (dramStore s sl a bs) := by
  induction bs generalizing a s with
  | nil => exact h
  | cons b bs ih => exact ih (dramSetByte_touches h (Mask.le_trans rfl w))

theorem logError_touches {cls source bits word col loc : ℕ} {part addr : Option ℕ} (h : Touches M s0 s)
    (w : Mask.le { di := true } M = true) : Touches M s0 (logError s cls source bits word col loc part addr) :=
  h.trans (Touches.mono ⟨rfl, id⟩ w)

theorem logDram_touches {cls source bits word sl a : ℕ} (h : Touches M s0 s) (w : Mask.le { di := true } M = true) :
    Touches M s0 (logDram s cls source bits word sl a) :=
  h.trans (Touches.mono ⟨rfl, id⟩ w)

/-- What `countCorrected` may change. -/
abbrev Mask.countCorrected : Mask :=
  { parts := true, stk := true, di := true }

theorem countCorrected_touches {source sl : ℕ} (h : Touches M s0 s) (w : Mask.le Mask.countCorrected M = true) :
    Touches M s0 (countCorrected s source sl) := by
  refine h.trans (Touches.mono ?_ w)
  have h0 := Touches.refl Mask.countCorrected s
  clear h w
  unfold countCorrected
  repeat' (first
    | with_reducible assumption
    | ((try lift_lets); intro x; first
        | (refine (fun (hx : Touches Mask.countCorrected s x) => ?_) ?_ <;> [clear_value x; (unfold x; clear x)])
        | clear_value x)
    | (with_reducible refine chanMod_touches ?_ rfl)
    | (with_reducible refine partCnt_touches ?_ rfl)
    | (fail_if_no_progress (with_reducible refine touches_mk ?_ rfl rfl))
    | split)

theorem queueScrub_touches {sl a : ℕ} (h : Touches M s0 s) (w : Mask.le { stk := true, di := true } M = true) :
    Touches M s0 (queueScrub s sl a) := by
  refine h.trans (Touches.mono ?_ w)
  have h0 := Touches.refl { stk := true, di := true } s
  clear h w
  unfold queueScrub
  repeat' (first
    | with_reducible assumption
    | (with_reducible refine chanSet_touches ?_ rfl)
    | with_reducible apply touches_ite
    | (fail_if_no_progress (with_reducible refine touches_mk ?_ rfl rfl)))

theorem noteRow_touches {sl a n : ℕ} (h : Touches M s0 s) (w : Mask.le { stk := true } M = true) :
    Touches M s0 (noteRow s sl a n) :=
  h.trans (Touches.mono ⟨rfl, id⟩ w)

theorem noteCorrected_touches {source sl a word bits : ℕ} (h : Touches M s0 s)
    (w : Mask.le Mask.countCorrected M = true) : Touches M s0 (noteCorrected s source sl a word bits) := by
  refine h.trans (Touches.mono ?_ w)
  have h0 := Touches.refl Mask.countCorrected s
  clear h w
  unfold noteCorrected
  repeat' (first
    | with_reducible assumption
    | (with_reducible refine countCorrected_touches ?_ rfl)
    | (with_reducible refine logDram_touches ?_ rfl)
    | (with_reducible refine noteRow_touches ?_ rfl)
    | (with_reducible refine queueScrub_touches ?_ rfl)
    | with_reducible apply touches_ite)

theorem storedError_touches {source sl a : ℕ} {ws : List (ℕ × Option (ℕ × Bool × ℕ))} (h : Touches M s0 s)
    (w : Mask.le Mask.countCorrected M = true) : Touches M s0 (storedError s source sl a ws) := by
  refine h.trans (Touches.mono ?_ w)
  have h0 := Touches.refl Mask.countCorrected s
  clear h w
  unfold storedError
  repeat' (first
    | with_reducible assumption
    | (((try lift_lets); intro x); (refine (fun (hx : Touches Mask.countCorrected s x) => ?_) ?_ <;> [clear_value x; (unfold x; clear x)]))
    | (with_reducible refine chanMod_touches ?_ rfl)
    | (with_reducible refine logDram_touches ?_ rfl)
    | (with_reducible refine markSet_touches ?_ rfl)
    | (with_reducible refine noteCorrected_touches ?_ rfl)
    | (with_reducible refine noteRow_touches ?_ rfl)
    | (with_reducible refine touches_foldl ?_ (fun _ _ _ => ?_))
    | (fail_if_no_progress (with_reducible refine touches_mk ?_ rfl rfl))
    | split)

theorem readColumn_touches {source sl a : ℕ} {transit : List (ℕ × ℕ)} (h : Touches M s0 s)
    (w : Mask.le Mask.countCorrected M = true) : Touches M s0 (readColumn s source sl a transit).1 := by
  refine h.trans (Touches.mono ?_ w)
  have h0 := Touches.refl Mask.countCorrected s
  clear h w
  unfold readColumn
  repeat' (first
    | with_reducible assumption
    | ((try lift_lets); intro x; first
        | (have _ := fun a => x a; dsimp only [x]; clear x)
        | clear_value x)
    | (with_reducible refine logDram_touches ?_ rfl)
    | (with_reducible refine noteCorrected_touches ?_ rfl)
    | (with_reducible refine storedError_touches ?_ rfl)
    | (with_reducible refine touches_foldl ?_ (fun _ _ _ => ?_))
    | (fail_if_no_progress (with_reducible refine touches_mk ?_ rfl rfl))
    | split)

theorem readLine_touches {source sl a n : ℕ} (h : Touches M s0 s) (w : Mask.le Mask.countCorrected M = true) :
    Touches M s0 (readLine s source sl a n).1 := by
  refine h.trans (Touches.mono ?_ w)
  have h0 := Touches.refl Mask.countCorrected s
  clear h w
  unfold readLine
  repeat' (first
    | with_reducible assumption
    | (with_reducible refine readColumn_touches ?_ rfl)
    | split)

theorem mergeRead_touches {source sl a n : ℕ} (h : Touches M s0 s) (w : Mask.le Mask.countCorrected M = true) :
    Touches M s0 (mergeRead s source sl a n).1 := by
  refine h.trans (Touches.mono ?_ w)
  have h0 := Touches.refl Mask.countCorrected s
  clear h w
  unfold mergeRead
  repeat' (first
    | with_reducible assumption
    | (with_reducible refine readColumn_touches ?_ rfl)
    | with_reducible apply touches_ite
    | (with_reducible refine touches_foldl ?_ (fun _ _ _ => ?_))
    | (with_reducible refine touches_foldl_fst ?_ (fun _ _ _ => ?_))
    | (with_reducible refine touches_foldl_snd ?_ (fun _ _ _ => ?_))
    | (fail_if_no_progress (with_reducible refine touches_mk ?_ rfl rfl))
    | (split <;> (try (rename_i e1; have e2 := congrArg Prod.fst e1; have e3 := congrArg Prod.snd e1; dsimp only at e2 e3; (try subst e2); (try subst e3)))))

theorem markArrived_touches {sl a : ℕ} {bad : List ℕ} (h : Touches M s0 s) (w : Mask.le { stk := true } M = true) :
    Touches M s0 (markArrived s sl a bad) := by
  refine h.trans (Touches.mono ?_ w)
  have h0 := Touches.refl { stk := true } s
  clear h w
  unfold markArrived
  repeat' (first
    | with_reducible assumption
    | (with_reducible refine chanMod_touches ?_ rfl)
    | (with_reducible refine markSet_touches ?_ rfl)
    | with_reducible apply touches_ite
    | (with_reducible refine touches_foldl ?_ (fun _ _ _ => ?_)))

/-- What `writeLine` may change. -/
abbrev Mask.writeLine : Mask :=
  { parts := true, stk := true, di := true, dram := true }

theorem writeLine_touches {source sl a : ℕ} {bs : List Byte} {bad : optParam (List ℕ) []} (h : Touches M s0 s)
    (w : Mask.le Mask.writeLine M = true) : Touches M s0 (writeLine s source sl a bs bad).1 := by
  refine h.trans (Touches.mono ?_ w)
  have h0 := Touches.refl Mask.writeLine s
  clear h w
  unfold writeLine
  repeat' (first
    | with_reducible assumption
    | (with_reducible refine dramStore_touches ?_ rfl)
    | (with_reducible refine injectFlips_touches ?_ rfl)
    | (with_reducible refine markArrived_touches ?_ rfl)
    | (with_reducible refine markSet_touches ?_ rfl)
    | (with_reducible refine mergeRead_touches ?_ rfl)
    | (with_reducible refine touches_foldl ?_ (fun _ _ _ => ?_))
    | split
    | dsimp only [id])

theorem reserveClean_touches {sl kind key : ℕ} (h : Touches M s0 s)
    (w : Mask.le { stk := true, di := true } M = true) : Touches M s0 (reserveClean s sl kind key) := by
  refine h.trans (Touches.mono ?_ w)
  have h0 := Touches.refl { stk := true, di := true } s
  clear h w
  unfold reserveClean
  repeat' (first
    | with_reducible assumption
    | (with_reducible refine injectFlips_touches ?_ rfl)
    | (with_reducible refine markSet_touches ?_ rfl)
    | with_reducible apply touches_ite
    | (with_reducible refine touches_foldl ?_ (fun _ _ _ => ?_))
    | (with_reducible refine touches_foldl_fst ?_ (fun _ _ _ => ?_))
    | (with_reducible refine touches_foldl_snd ?_ (fun _ _ _ => ?_))
    | (fail_if_no_progress (with_reducible refine touches_mk ?_ rfl rfl))
    | (split <;> (try (rename_i e1; have e2 := congrArg Prod.fst e1; have e3 := congrArg Prod.snd e1; dsimp only at e2 e3; (try subst e2); (try subst e3)))))

theorem reserveRead_touches {source sl kind key : ℕ} (h : Touches M s0 s) (w : Mask.le Mask.countCorrected M = true)
    : Touches M s0 (reserveRead s source sl kind key).1 := by
  refine h.trans (Touches.mono ?_ w)
  have h0 := Touches.refl Mask.countCorrected s
  clear h w
  unfold reserveRead
  repeat' (first
    | with_reducible assumption
    | (with_reducible refine readColumn_touches ?_ rfl)
    | with_reducible apply touches_ite
    | (with_reducible refine touches_foldl ?_ (fun _ _ _ => ?_))
    | (with_reducible refine touches_foldl_fst ?_ (fun _ _ _ => ?_))
    | (with_reducible refine touches_foldl_snd ?_ (fun _ _ _ => ?_))
    | (fail_if_no_progress (with_reducible refine touches_mk ?_ rfl rfl))
    | (split <;> (try (rename_i e1; have e2 := congrArg Prod.fst e1; have e3 := congrArg Prod.snd e1; dsimp only at e2 e3; (try subst e2); (try subst e3)))))

theorem nearSetByte_touches {sl : Nat} {b : Nat} {v : Byte} (h : Touches M s0 s) (w : Mask.le { near := true, nearMem := true } M = true) :
    Touches M s0 (nearSetByte s sl b v) := by
  refine h.trans (Touches.mono ⟨rfl, fun w => ?_⟩ w)
  simp only [Memory.wf, Bool.and_eq_true] at w ⊢
  exact ⟨⟨⟨⟨w.1.1.1.1, tblSet_wf w.1.1.1.2⟩, w.1.1.2⟩, w.1.2⟩, w.2⟩

theorem nearStore_touches {sl : Nat} {b : Nat} {bs : List Byte} (h : Touches M s0 s) (w : Mask.le { near := true, nearMem := true } M = true) :
    Touches M s0 (nearStore s sl b bs) := by
  induction bs generalizing b s with
  | nil => exact h
  | cons v bs ih => exact ih (nearSetByte_touches h (Mask.le_trans rfl w))

theorem nearSetFlips_touches {k : Nat} {v : Nat} (h : Touches M s0 s) (w : Mask.le { near := true } M = true) :
    Touches M s0 (nearSetFlips s k v) := by
  refine h.trans (Touches.mono ⟨rfl, fun w => ?_⟩ w)
  simp only [Memory.wf, Bool.and_eq_true] at w ⊢
  exact ⟨⟨⟨⟨w.1.1.1.1, w.1.1.1.2⟩, tblSet_wf w.1.1.2⟩, w.1.2⟩, w.2⟩

theorem logNear_touches {cls source bits sl b : ℕ} (h : Touches M s0 s) (w : Mask.le { di := true } M = true) :
    Touches M s0 (logNear s cls source bits sl b) :=
  h.trans (Touches.mono ⟨rfl, id⟩ w)

theorem noteSramRow_touches {row : ℕ} {ue : Bool} (h : Touches M s0 s)
    (w : Mask.le { near := true, di := true } M = true) : Touches M s0 (noteSramRow s row ue) := by
  refine h.trans (Touches.mono ?_ w)
  have h0 := Touches.refl { near := true, di := true } s
  clear h w
  unfold noteSramRow
  repeat' (first
    | with_reducible assumption
    | with_reducible apply touches_ite
    | (fail_if_no_progress (with_reducible refine touches_mk ?_ rfl rfl)))

theorem nearEnter_touches {y_1 : ℕ} (h : Touches M s0 s) (w : Mask.le { near := true } M = true) :
    Touches M s0 (nearEnter s y_1) := by
  refine h.trans (Touches.mono ?_ w)
  have h0 := Touches.refl { near := true } s
  clear h w
  unfold nearEnter
  repeat' (first
    | with_reducible assumption
    | ((try lift_lets); intro x; first
        | (have _ : NearBanks := x; dsimp only [x]; clear x)
        | clear_value x)
    | with_reducible apply touches_ite
    | (with_reducible refine touches_foldl ?_ (fun _ _ _ => ?_))
    | (with_reducible refine touches_foldl_fst ?_ (fun _ _ _ => ?_))
    | (with_reducible refine touches_foldl_snd ?_ (fun _ _ _ => ?_))
    | (fail_if_no_progress (with_reducible refine touches_mk ?_ rfl rfl)))

theorem otherBegin_touches {word len : ℕ} {write : Bool} (h : Touches M s0 s)
    (w : Mask.le { near := true } M = true) : Touches M s0 (otherBegin s word len write) := by
  refine h.trans (Touches.mono ?_ w)
  have h0 := Touches.refl { near := true } s
  clear h w
  unfold otherBegin
  repeat' (first
    | with_reducible assumption
    | ((try lift_lets); intro x; first
        | (refine (fun (hx : Touches { near := true } s x) => ?_) ?_ <;> [clear_value x; (unfold x; clear x)])
        | (have _ : NearBanks := x; dsimp only [x]; clear x)
        | clear_value x)
    | (with_reducible refine nearEnter_touches ?_ rfl)
    | with_reducible apply touches_ite
    | (with_reducible refine touches_foldl ?_ (fun _ _ _ => ?_))
    | (with_reducible refine touches_foldl_fst ?_ (fun _ _ _ => ?_))
    | (with_reducible refine touches_foldl_snd ?_ (fun _ _ _ => ?_))
    | (fail_if_no_progress (with_reducible refine touches_mk ?_ rfl rfl)))

theorem ownBegin_touches {word : ℕ} {write : Bool} (h : Touches M s0 s) (w : Mask.le { near := true } M = true) :
    Touches M s0 (ownBegin s word write) := by
  refine h.trans (Touches.mono ?_ w)
  have h0 := Touches.refl { near := true } s
  clear h w
  unfold ownBegin
  repeat' (first
    | with_reducible assumption
    | ((try lift_lets); intro x; first
        | clear_value x)
    | (with_reducible refine nearEnter_touches ?_ rfl))

theorem keepPrior_touches {sl b : ℕ} (h : Touches M s0 s) (w : Mask.le { near := true } M = true) :
    Touches M s0 (keepPrior s sl b) := by
  refine h.trans (Touches.mono ?_ w)
  have h0 := Touches.refl { near := true } s
  clear h w
  unfold keepPrior
  repeat' (first
    | with_reducible assumption
    | ((try lift_lets); intro x; first
        | (refine (fun (hx : Touches { near := true } s x) => ?_) ?_ <;> [clear_value x; (unfold x; clear x)])
        | (have _ : NearBanks := x; dsimp only [x]; clear x)
        | clear_value x)
    | (with_reducible refine nearEnter_touches ?_ rfl)
    | with_reducible apply touches_ite
    | (with_reducible refine touches_foldl ?_ (fun _ _ _ => ?_))
    | (with_reducible refine touches_foldl_fst ?_ (fun _ _ _ => ?_))
    | (with_reducible refine touches_foldl_snd ?_ (fun _ _ _ => ?_))
    | (fail_if_no_progress (with_reducible refine touches_mk ?_ rfl rfl)))

/-- What `nearDeliver` may change. -/
abbrev Mask.nearDeliver : Mask :=
  { parts := true, near := true, di := true }

theorem nearDeliver_touches {source sl b : ℕ} {x : List Byte × ℕ} (h : Touches M s0 s)
    (w : Mask.le Mask.nearDeliver M = true) : Touches M s0 (nearDeliver s source sl b x).1 := by
  refine h.trans (Touches.mono ?_ w)
  have h0 := Touches.refl Mask.nearDeliver s
  clear h w
  unfold nearDeliver
  repeat' (first
    | with_reducible assumption
    | ((try lift_lets); intro x; first
        | clear_value x)
    | (with_reducible refine logNear_touches ?_ rfl)
    | (with_reducible refine noteSramRow_touches ?_ rfl)
    | (with_reducible refine partCnt_touches ?_ rfl)
    | with_reducible apply touches_ite
    | (with_reducible refine touches_foldl ?_ (fun _ _ _ => ?_))
    | (with_reducible refine touches_foldl_fst ?_ (fun _ _ _ => ?_))
    | (with_reducible refine touches_foldl_snd ?_ (fun _ _ _ => ?_))
    | (fail_if_no_progress (with_reducible refine touches_mk ?_ rfl rfl))
    | (split <;> (try (rename_i e1; have e2 := congrArg Prod.fst e1; have e3 := congrArg Prod.snd e1; dsimp only at e2 e3; (try subst e2); (try subst e3))))
    | dsimp only [id])

theorem nearReadWord_touches {source sl b : ℕ} (h : Touches M s0 s) (w : Mask.le Mask.nearDeliver M = true) :
    Touches M s0 (nearReadWord s source sl b).1 := by
  refine h.trans (Touches.mono ?_ w)
  have h0 := Touches.refl Mask.nearDeliver s
  clear h w
  unfold nearReadWord
  repeat' (first
    | with_reducible assumption
    | ((try lift_lets); intro x; clear_value x)
    | (with_reducible refine nearDeliver_touches ?_ rfl))

theorem nearSeeWord_touches {source sl b : ℕ} (h : Touches M s0 s) (w : Mask.le Mask.nearDeliver M = true) :
    Touches M s0 (nearSeeWord s source sl b).1 := by
  refine h.trans (Touches.mono ?_ w)
  have h0 := Touches.refl Mask.nearDeliver s
  clear h w
  unfold nearSeeWord
  repeat' (first
    | with_reducible assumption
    | (with_reducible refine nearDeliver_touches ?_ rfl))

theorem nearRead_touches {own : Bool} {source sl b n : ℕ} (h : Touches M s0 s)
    (w : Mask.le Mask.nearDeliver M = true) : Touches M s0 (nearRead s own source sl b n).1 := by
  refine h.trans (Touches.mono ?_ w)
  have h0 := Touches.refl Mask.nearDeliver s
  clear h w
  unfold nearRead
  repeat' (first
    | with_reducible assumption
    | ((try lift_lets); intro x; first
        | (refine (fun (hx : Touches Mask.nearDeliver s x.1) => ?_) ?_ <;> [clear_value x; (unfold x; clear x)])
        | clear_value x)
    | (with_reducible refine nearSeeWord_touches ?_ rfl)
    | (with_reducible refine otherBegin_touches ?_ rfl)
    | (with_reducible refine ownBegin_touches ?_ rfl)
    | with_reducible apply touches_ite
    | (with_reducible refine touches_foldl ?_ (fun _ _ _ => ?_))
    | (with_reducible refine touches_foldl_fst ?_ (fun _ _ _ => ?_)))

/-- What `nearWriteWord` may change. -/
abbrev Mask.nearWriteWord : Mask :=
  { parts := true, near := true, di := true, nearMem := true }

theorem nearWriteWord_touches {source sl b : ℕ} {bs : List Byte} (h : Touches M s0 s)
    (w : Mask.le Mask.nearWriteWord M = true) : Touches M s0 (nearWriteWord s source sl b bs).1 := by
  refine h.trans (Touches.mono ?_ w)
  have h0 := Touches.refl Mask.nearWriteWord s
  clear h w
  unfold nearWriteWord
  repeat' (first
    | with_reducible assumption
    | ((try lift_lets); intro x; first
        | (refine (fun (hx : Touches Mask.nearWriteWord s x) => ?_) ?_ <;> [clear_value x; (unfold x; clear x)])
        | clear_value x)
    | (with_reducible refine keepPrior_touches ?_ rfl)
    | (with_reducible refine nearReadWord_touches ?_ rfl)
    | (with_reducible refine nearSetFlips_touches ?_ rfl)
    | (with_reducible refine nearStore_touches ?_ rfl)
    | with_reducible apply touches_ite
    | (with_reducible refine touches_foldl ?_ (fun _ _ _ => ?_))
    | (with_reducible refine touches_foldl_fst ?_ (fun _ _ _ => ?_))
    | (with_reducible refine touches_foldl_snd ?_ (fun _ _ _ => ?_))
    | (fail_if_no_progress (with_reducible refine touches_mk ?_ rfl rfl))
    | (split <;> (try (rename_i e1; have e2 := congrArg Prod.fst e1; have e3 := congrArg Prod.snd e1; dsimp only at e2 e3; (try subst e2); (try subst e3)))))

end Sys2Proof.Machine
end

