-- ==== Sys2Proof/Laws/TouchesOperands.lean ====
section
/-! SUPPORT. What the operations of Machine/Operands.lean may change. -/

namespace Sys2Proof.Machine

variable {M : Mask} {s0 s t : State}

theorem sealPacket_touches {p : Packet} (h : Touches M s0 s) (w : Mask.le { parts := true } M = true) :
    Touches M s0 (sealPacket s p).1 := by
  refine h.trans (Touches.mono ?_ w)
  have h0 := Touches.refl { parts := true } s
  clear h w
  unfold sealPacket
  repeat' (first
    | with_reducible assumption
    | ((try lift_lets); intro x; clear_value x)
    | (with_reducible refine partSet_touches ?_ rfl)
    | split)

end Sys2Proof.Machine
end

