-- ==== Sys2Proof/Laws/TouchesAnswer.lean ====
section
/-! SUPPORT. What the operations of Machine/Answer.lean may change. -/

namespace Sys2Proof.Machine

variable {M : Mask} {s0 s t : State}

theorem enqueueOut_touches {r : RingRec} {out kind inPort : ℕ} {p : Packet} {since : ℕ} (h : Touches M s0 s)
    (w : Mask.le { fab := true } M = true) : Touches M s0 (enqueueOut s r out kind inPort p since) :=
  h.trans (Touches.mono ⟨rfl, id⟩ w)

theorem noteRemoved_touches {out : ℕ} (h : Touches M s0 s) (w : Mask.le { ports := true } M = true) :
    Touches M s0 (noteRemoved s out) := by
  refine h.trans (Touches.mono ?_ w)
  have h0 := Touches.refl { ports := true } s
  clear h w
  unfold noteRemoved
  repeat' (first
    | with_reducible assumption
    | (with_reducible refine portCnt_touches ?_ rfl))

theorem ownRemoved_touches {out : ℕ} {p : Packet} {st : Status} (h : Touches M s0 s)
    (w : Mask.le { fab := true } M = true) : Touches M s0 (ownRemoved s out p st) := by
  refine h.trans (Touches.mono ?_ w)
  have h0 := Touches.refl { fab := true } s
  clear h w
  unfold ownRemoved
  repeat' (first
    | with_reducible assumption
    | ((try lift_lets); intro x; first
        | clear_value x)
    | with_reducible apply touches_ite
    | (with_reducible refine touches_foldl ?_ (fun _ _ _ => ?_))
    | (with_reducible refine touches_foldl_fst ?_ (fun _ _ _ => ?_))
    | (with_reducible refine touches_foldl_snd ?_ (fun _ _ _ => ?_))
    | (fail_if_no_progress (with_reducible refine touches_mk ?_ rfl rfl)))

/-- What `injectOn` may change. -/
abbrev Mask.injectOn : Mask :=
  { parts := true, ports := true, fab := true }

theorem injectOn_touches {plane : ℕ} {needActive : Bool} {p : Packet} (h : Touches M s0 s)
    (w : Mask.le Mask.injectOn M = true) : Touches M s0 (injectOn s plane needActive p) := by
  refine h.trans (Touches.mono ?_ w)
  have h0 := Touches.refl Mask.injectOn s
  clear h w
  unfold injectOn
  repeat' (first
    | with_reducible assumption
    | ((try lift_lets); intro x; first
        | clear_value x)
    | (with_reducible refine enqueueOut_touches ?_ rfl)
    | (with_reducible refine noteRemoved_touches ?_ rfl)
    | (with_reducible refine ownRemoved_touches ?_ rfl)
    | (with_reducible refine sealPacket_touches ?_ rfl)
    | with_reducible apply touches_ite
    | (with_reducible refine touches_foldl ?_ (fun _ _ _ => ?_))
    | (with_reducible refine touches_foldl_fst ?_ (fun _ _ _ => ?_))
    | (with_reducible refine touches_foldl_snd ?_ (fun _ _ _ => ?_))
    | (fail_if_no_progress (with_reducible refine touches_mk ?_ rfl rfl))
    | (split <;> (try (rename_i e1; have e2 := congrArg Prod.fst e1; have e3 := congrArg Prod.snd e1; dsimp only at e2 e3; (try subst e2); (try subst e3)))))

theorem inject_touches {p : Packet} (h : Touches M s0 s) (w : Mask.le Mask.injectOn M = true) : Touches M s0 (inject
    s p) := by
  refine h.trans (Touches.mono ?_ w)
  have h0 := Touches.refl Mask.injectOn s
  clear h w
  unfold inject
  repeat' (first
    | with_reducible assumption
    | (with_reducible refine injectOn_touches ?_ rfl)
    | split)

theorem emitRoce_touches {q : Qp} {p : RocePacket} {load headroom : ℕ} (h : Touches M s0 s)
    (w : Mask.le { out := true } M = true) : Touches M s0 (emitRoce s q p load headroom) := by
  refine h.trans (Touches.mono ?_ w)
  have h0 := Touches.refl { out := true } s
  clear h w
  unfold emitRoce
  repeat' (first
    | with_reducible assumption
    | (with_reducible refine emit_touches ?_ rfl))

theorem sendMgmt_touches {p : RocePacket} (h : Touches M s0 s) (w : Mask.le { sec := true, out := true } M = true) :
    Touches M s0 (sendMgmt s p) := by
  refine h.trans (Touches.mono ?_ w)
  have h0 := Touches.refl { sec := true, out := true } s
  clear h w
  unfold sendMgmt
  repeat' (first
    | with_reducible assumption
    | (with_reducible refine emitRoce_touches ?_ rfl)
    | (fail_if_no_progress (with_reducible refine touches_mk ?_ rfl rfl))
    | split)

/-- What `sendRoce` may change. -/
abbrev Mask.sendRoce : Mask :=
  { parts := true, sec := true, out := true }

theorem sendRoce_touches {qi : ℕ} {taken : Option ℕ} {p : RocePacket} (h : Touches M s0 s)
    (w : Mask.le Mask.sendRoce M = true) : Touches M s0 (sendRoce s qi taken p) := by
  refine h.trans (Touches.mono ?_ w)
  have h0 := Touches.refl Mask.sendRoce s
  clear h w
  unfold sendRoce
  repeat' (first
    | with_reducible assumption
    | (((try lift_lets); intro x); (refine (fun (hx : Touches Mask.sendRoce s x) => ?_) ?_ <;> [clear_value x; (unfold x; clear x)]))
    | (with_reducible refine emitRoce_touches ?_ rfl)
    | (with_reducible refine partSet_touches ?_ rfl)
    | (with_reducible refine sendMgmt_touches ?_ rfl)
    | with_reducible apply touches_ite)

theorem qpFatal_touches {qi cause : ℕ} (h : Touches M s0 s) (w : Mask.le { eth := true } M = true) :
    Touches M s0 (qpFatal s qi cause) := by
  refine h.trans (Touches.mono ?_ w)
  have h0 := Touches.refl { eth := true } s
  clear h w
  unfold qpFatal
  repeat' (first
    | with_reducible assumption
    | (with_reducible refine qpMod_touches ?_ rfl)
    | split)

/-- What `sendOwed` may change. -/
abbrev Mask.sendOwed : Mask :=
  { parts := true, eth := true, sec := true, out := true }

theorem sendOwed_touches {qi : ℕ} {y_2 : OwedResp} {ps : List RocePacket} (h : Touches M s0 s)
    (w : Mask.le Mask.sendOwed M = true) : Touches M s0 (sendOwed s qi y_2 ps) := by
  refine h.trans (Touches.mono ?_ w)
  have h0 := Touches.refl Mask.sendOwed s
  clear h w
  unfold sendOwed
  repeat' (first
    | with_reducible assumption
    | (with_reducible refine qpMod_touches ?_ rfl)
    | (with_reducible refine sendRoce_touches ?_ rfl)
    | with_reducible apply touches_ite
    | (with_reducible refine touches_foldl ?_ (fun _ _ _ => ?_)))

theorem flushOrder_touches {qi : Nat} {fuel : Nat} (h : Touches M s0 s) (w : Mask.le Mask.sendOwed M = true) :
    Touches M s0 (flushOrder qi fuel s) := by
  induction fuel generalizing s with
  | zero => exact h
  | succ fuel ih =>
    unfold flushOrder
    dsimp only
    split
    · exact h
    · split
      · exact h
      · have k := fun q e ps => sendOwed_touches (qi := qi) (y_2 := e) (ps := ps)
          (qpSet_touches h (Mask.le_trans rfl w) : Touches M s0 (qpSet s qi q)) (Mask.le_trans rfl w)
        split
        · exact qpFatal_touches (k _ _ _) (Mask.le_trans rfl w)
        · split
          · exact qpMod_touches (k _ _ _) (Mask.le_trans rfl w)
          · exact ih (k _ _ _)

theorem respond_touches {qi : ℕ} {y_2 : OwedResp} (h : Touches M s0 s) (w : Mask.le Mask.sendOwed M = true) :
    Touches M s0 (respond s qi y_2) := by
  refine h.trans (Touches.mono ?_ w)
  have h0 := Touches.refl Mask.sendOwed s
  clear h w
  unfold respond
  repeat' (first
    | with_reducible assumption
    | ((try lift_lets); intro x; first
        | clear_value x)
    | (with_reducible refine flushOrder_touches ?_ rfl)
    | (with_reducible refine qpSet_touches ?_ rfl))

theorem settleOrder_touches {qi psn : ℕ} {f : OwedResp → OwedResp} (h : Touches M s0 s)
    (w : Mask.le Mask.sendOwed M = true) : Touches M s0 (settleOrder s qi psn f) := by
  refine h.trans (Touches.mono ?_ w)
  have h0 := Touches.refl Mask.sendOwed s
  clear h w
  unfold settleOrder
  repeat' (first
    | with_reducible assumption
    | ((try lift_lets); intro x; first
        | clear_value x)
    | (with_reducible refine flushOrder_touches ?_ rfl)
    | (with_reducible refine qpSet_touches ?_ rfl))

/-- What `cutBack` may change. -/
abbrev Mask.cutBack : Mask :=
  { parts := true, flows := true, eth := true, sec := true, out := true }

theorem cutBack_touches {qi psn : ℕ} {ps : List RocePacket} {f : Qp → Qp} (h : Touches M s0 s)
    (w : Mask.le Mask.cutBack M = true) : Touches M s0 (cutBack s qi psn ps f) := by
  refine h.trans (Touches.mono ?_ w)
  have h0 := Touches.refl Mask.cutBack s
  clear h w
  unfold cutBack
  repeat' (first
    | with_reducible assumption
    | ((try lift_lets); intro x; first
        | (refine (fun (hx : Touches Mask.cutBack s x) => ?_) ?_ <;> [clear_value x; (unfold x; clear x)])
        | clear_value x)
    | (with_reducible refine flowMod_touches ?_ rfl)
    | (with_reducible refine qpSet_touches ?_ rfl)
    | (with_reducible refine respond_touches ?_ rfl)
    | (with_reducible refine settleOrder_touches ?_ rfl)
    | with_reducible apply touches_ite)

theorem fatalAnswer_touches {qi psn : ℕ} {st : Status} {taken : Option ℕ} (h : Touches M s0 s)
    (w : Mask.le Mask.sendOwed M = true) : Touches M s0 (fatalAnswer s qi psn st taken) := by
  refine h.trans (Touches.mono ?_ w)
  have h0 := Touches.refl Mask.sendOwed s
  clear h w
  unfold fatalAnswer
  repeat' (first
    | with_reducible assumption
    | ((try lift_lets); intro x; first
        | clear_value x)
    | (with_reducible refine respond_touches ?_ rfl)
    | (with_reducible refine settleOrder_touches ?_ rfl)
    | with_reducible apply touches_ite)

theorem ethAck_touches {qi psn : ℕ} {ack send : Bool} {req : Request} {a : Ans} {taken : Option ℕ}
    (h : Touches M s0 s) (w : Mask.le Mask.cutBack M = true) : Touches M s0 (ethAck s qi psn ack send req a taken)
    := by
  refine h.trans (Touches.mono ?_ w)
  have h0 := Touches.refl Mask.cutBack s
  clear h w
  unfold ethAck
  repeat' (first
    | with_reducible assumption
    | ((try lift_lets); intro x; first
        | clear_value x)
    | (with_reducible refine cutBack_touches ?_ rfl)
    | (with_reducible refine fatalAnswer_touches ?_ rfl)
    | (with_reducible refine qpSet_touches ?_ rfl)
    | (with_reducible refine respond_touches ?_ rfl)
    | (with_reducible refine settleOrder_touches ?_ rfl)
    | with_reducible apply touches_ite
    | (with_reducible refine touches_foldl ?_ (fun _ _ _ => ?_))
    | (with_reducible refine touches_foldl_fst ?_ (fun _ _ _ => ?_))
    | (with_reducible refine touches_foldl_snd ?_ (fun _ _ _ => ?_))
    | (fail_if_no_progress (with_reducible refine touches_mk ?_ rfl rfl))
    | (split <;> (try (rename_i e1; have e2 := congrArg Prod.fst e1; have e3 := congrArg Prod.snd e1; dsimp only at e2 e3; (try subst e2); (try subst e3)))))

theorem ethReply_touches {qi psn : ℕ} {atomic : Bool} {ps : List RocePacket} {req : Request} {a : Ans} {taken :
    Option ℕ} (h : Touches M s0 s) (w : Mask.le Mask.cutBack M = true) : Touches M s0 (ethReply s qi psn atomic ps
    req a taken) := by
  refine h.trans (Touches.mono ?_ w)
  have h0 := Touches.refl Mask.cutBack s
  clear h w
  unfold ethReply
  repeat' (first
    | with_reducible assumption
    | ((try lift_lets); intro x; first
        | (refine (fun (hx : Touches Mask.cutBack s x) => ?_) ?_ <;> [clear_value x; (unfold x; clear x)])
        | clear_value x)
    | (with_reducible refine cutBack_touches ?_ rfl)
    | (with_reducible refine fatalAnswer_touches ?_ rfl)
    | (with_reducible refine qpMod_touches ?_ rfl)
    | (with_reducible refine settleOrder_touches ?_ rfl)
    | with_reducible apply touches_ite
    | (with_reducible refine touches_foldl ?_ (fun _ _ _ => ?_))
    | (with_reducible refine touches_foldl_fst ?_ (fun _ _ _ => ?_))
    | (with_reducible refine touches_foldl_snd ?_ (fun _ _ _ => ?_))
    | (fail_if_no_progress (with_reducible refine touches_mk ?_ rfl rfl))
    | (split <;> (try (rename_i e1; have e2 := congrArg Prod.fst e1; have e3 := congrArg Prod.snd e1; dsimp only at e2 e3; (try subst e2); (try subst e3)))))

theorem sendControl_touches {qi : ℕ} {y_2 : OwedAnswer} {bytes : List Byte} (h : Touches M s0 s)
    (w : Mask.le Mask.sendOwed M = true) : Touches M s0 (sendControl s qi y_2 bytes) := by
  refine h.trans (Touches.mono ?_ w)
  have h0 := Touches.refl Mask.sendOwed s
  clear h w
  unfold sendControl
  repeat' (first
    | with_reducible assumption
    | (((try lift_lets); intro x); (refine (fun (hx : Touches Mask.sendOwed s x) => ?_) ?_ <;> [clear_value x; (unfold x; clear x)]))
    | (with_reducible refine qpSet_touches ?_ rfl)
    | (with_reducible refine sendRoce_touches ?_ rfl)
    | with_reducible apply touches_ite)

theorem flushAsked_touches {qi : Nat} {fuel : Nat} (h : Touches M s0 s) (w : Mask.le Mask.sendOwed M = true) :
    Touches M s0 (flushAsked qi fuel s) := by
  induction fuel generalizing s with
  | zero => exact h
  | succ fuel ih =>
    unfold flushAsked
    dsimp only
    repeat' split
    all_goals first
      | exact h
      | exact ih (sendControl_touches (qpSet_touches h (Mask.le_trans rfl w)) (Mask.le_trans rfl w))

theorem settleAsked_touches {qi psn : ℕ} {taken : Option ℕ} {bytes : List Byte} (h : Touches M s0 s)
    (w : Mask.le Mask.sendOwed M = true) : Touches M s0 (settleAsked s qi psn taken bytes) := by
  refine h.trans (Touches.mono ?_ w)
  have h0 := Touches.refl Mask.sendOwed s
  clear h w
  unfold settleAsked
  repeat' (first
    | with_reducible assumption
    | ((try lift_lets); intro x; first
        | clear_value x)
    | (with_reducible refine flushAsked_touches ?_ rfl)
    | (with_reducible refine qpSet_touches ?_ rfl))

theorem ethControlEnd_touches {qi psn tag : ℕ} {req : Request} {a : Ans} {taken : Option ℕ} (h : Touches M s0 s)
    (w : Mask.le Mask.sendOwed M = true) : Touches M s0 (ethControlEnd s qi psn tag req a taken) := by
  refine h.trans (Touches.mono ?_ w)
  have h0 := Touches.refl Mask.sendOwed s
  clear h w
  unfold ethControlEnd
  repeat' (first
    | with_reducible assumption
    | ((try lift_lets); intro x; first
        | (refine (fun (hx : Touches Mask.sendOwed s x) => ?_) ?_ <;> [clear_value x; (unfold x; clear x)])
        | clear_value x)
    | (with_reducible refine respond_touches ?_ rfl)
    | (with_reducible refine settleAsked_touches ?_ rfl)
    | with_reducible apply touches_ite)

/-- What `answerRequest` may change. -/
abbrev Mask.answerRequest : Mask :=
  { parts := true, flows := true, ports := true, fab := true, eth := true, sec := true, out := true }

theorem answerRequest_touches {req : Request} {taken : Option ℕ} {a : Ans} (h : Touches M s0 s)
    (w : Mask.le Mask.answerRequest M = true) : Touches M s0 (answerRequest s req taken a) := by
  refine h.trans (Touches.mono ?_ w)
  have h0 := Touches.refl Mask.answerRequest s
  clear h w
  unfold answerRequest
  repeat' (first
    | with_reducible assumption
    | (with_reducible refine emit_touches ?_ rfl)
    | (with_reducible refine ethAck_touches ?_ rfl)
    | (with_reducible refine ethControlEnd_touches ?_ rfl)
    | (with_reducible refine ethReply_touches ?_ rfl)
    | (with_reducible refine flowMod_touches ?_ rfl)
    | (with_reducible refine injectOn_touches ?_ rfl)
    | (with_reducible refine qpSet_touches ?_ rfl)
    | split)

theorem noteTurned_touches {req : Request} (h : Touches M s0 s) (w : Mask.le { twn := true } M = true) :
    Touches M s0 (noteTurned s req) := by
  refine h.trans (Touches.mono ?_ w)
  have h0 := Touches.refl { twn := true } s
  clear h w
  unfold noteTurned
  repeat' (first
    | with_reducible assumption
    | with_reducible apply touches_ite
    | (fail_if_no_progress (with_reducible refine touches_mk ?_ rfl rfl)))

/-- What `endArrival` may change. -/
abbrev Mask.endArrival : Mask :=
  { parts := true, flows := true, ports := true, fab := true, eth := true, sec := true, twn := true, out := true
    }

theorem endArrival_touches {req : Request} {a : Ans} (h : Touches M s0 s) (w : Mask.le Mask.endArrival M = true) :
    Touches M s0 (endArrival s req a) := by
  refine h.trans (Touches.mono ?_ w)
  have h0 := Touches.refl Mask.endArrival s
  clear h w
  unfold endArrival
  repeat' (first
    | with_reducible assumption
    | (with_reducible refine answerRequest_touches ?_ rfl)
    | (with_reducible refine ethAck_touches ?_ rfl)
    | (with_reducible refine flowMod_touches ?_ rfl)
    | (with_reducible refine noteTurned_touches ?_ rfl)
    | split)

theorem turnAway_touches {port : ℕ} {p : Packet} {st : Status} (h : Touches M s0 s)
    (w : Mask.le Mask.injectOn M = true) : Touches M s0 (turnAway s port p st) := by
  refine h.trans (Touches.mono ?_ w)
  have h0 := Touches.refl Mask.injectOn s
  clear h w
  unfold turnAway
  repeat' (first
    | with_reducible assumption
    | (with_reducible refine injectOn_touches ?_ rfl))

theorem noteLeaving_touches {v : Service} (h : Touches M s0 s) (w : Mask.le { fab := true } M = true) :
    Touches M s0 (noteLeaving s v) := by
  refine h.trans (Touches.mono ?_ w)
  have h0 := Touches.refl { fab := true } s
  clear h w
  unfold noteLeaving
  repeat' (first
    | with_reducible assumption
    | ((try lift_lets); intro x; first
        | clear_value x)
    | with_reducible apply touches_ite
    | (with_reducible refine touches_foldl ?_ (fun _ _ _ => ?_))
    | (with_reducible refine touches_foldl_fst ?_ (fun _ _ _ => ?_))
    | (with_reducible refine touches_foldl_snd ?_ (fun _ _ _ => ?_))
    | (fail_if_no_progress (with_reducible refine touches_mk ?_ rfl rfl)))

/-- What `finish` may change. -/
abbrev Mask.finish : Mask :=
  { parts := true, flows := true, ports := true, fab := true, eth := true, sec := true, twn := true, svc :=
    true, out := true }

theorem finish_touches {v : Service} {a : Ans} (h : Touches M s0 s) (w : Mask.le Mask.finish M = true) :
    Touches M s0 (finish s v a) := by
  refine h.trans (Touches.mono ?_ w)
  have h0 := Touches.refl Mask.finish s
  clear h w
  unfold finish
  repeat' (first
    | with_reducible assumption
    | (((try lift_lets); intro x); (refine (fun (hx : Touches Mask.finish s x) => ?_) ?_ <;> [clear_value x; (unfold x; clear x)]))
    | (with_reducible refine answerRequest_touches ?_ rfl)
    | (with_reducible refine noteLeaving_touches ?_ rfl)
    | (with_reducible refine noteTurned_touches ?_ rfl)
    | with_reducible apply touches_ite
    | (fail_if_no_progress (with_reducible refine touches_mk ?_ rfl rfl)))

end Sys2Proof.Machine
end

