-- ==== Sys2Proof/Laws/TouchesAccess.lean ====
section
/-! SUPPORT. What the operations of Machine/Access.lean may change. -/

namespace Sys2Proof.Machine

variable {M : Mask} {s0 s t : State}

theorem handSet_touches {p y_2 : ℕ} (h : Touches M s0 s) (w : Mask.le { fl := true } M = true) :
    Touches M s0 (handSet s p y_2) :=
  h.trans (Touches.mono ⟨rfl, id⟩ w)

theorem sweepFrames_touches {p n : Nat} {used : List (Nat × Nat)} {fuel : Nat} (h : Touches M s0 s)
    (w : Mask.le Mask.granSet M = true) : Touches M s0 (sweepFrames p n used fuel s).1 := by
  induction fuel generalizing s with
  | zero => exact h
  | succ fuel ih =>
    have k := handSet_touches (p := p) (y_2 := (handGet s p % n + 1) % n) h (Mask.le_trans rfl w)
    unfold sweepFrames
    dsimp only
    split
    · exact ih k
    · split
      · exact ih (granSet_touches k (Mask.le_trans rfl w))
      · split
        · exact granSet_touches k (Mask.le_trans rfl w)
        · exact ih k

theorem takeFrame_touches {p : ℕ} (h : Touches M s0 s) (w : Mask.le Mask.granSet M = true) : Touches M s0 (takeFrame
    s p).1 := by
  refine h.trans (Touches.mono ?_ w)
  have h0 := Touches.refl Mask.granSet s
  clear h w
  unfold takeFrame
  repeat' (first
    | with_reducible assumption
    | ((try lift_lets); intro x; clear_value x)
    | (with_reducible refine sweepFrames_touches ?_ rfl)
    | split)

/-- What `zeroFrame` may change. -/
abbrev Mask.zeroFrame : Mask :=
  { stk := true, di := true, dram := true }

theorem zeroFrame_touches {p f : ℕ} (h : Touches M s0 s) (w : Mask.le Mask.zeroFrame M = true) :
    Touches M s0 (zeroFrame s p f) := by
  refine h.trans (Touches.mono ?_ w)
  have h0 := Touches.refl Mask.zeroFrame s
  clear h w
  unfold zeroFrame
  repeat' (first
    | with_reducible assumption
    | (with_reducible refine dramClear_touches ?_ rfl)
    | (with_reducible refine injectFlips_touches ?_ rfl)
    | (with_reducible refine touches_foldl ?_ (fun _ _ _ => ?_)))

theorem dirtyGranule_touches {p n f : ℕ} (h : Touches M s0 s) (w : Mask.le Mask.granSet M = true) :
    Touches M s0 (dirtyGranule s p n f) := by
  refine h.trans (Touches.mono ?_ w)
  have h0 := Touches.refl Mask.granSet s
  clear h w
  unfold dirtyGranule
  repeat' (first
    | with_reducible assumption
    | ((try lift_lets); intro x; first
        | (refine (fun (hx : Touches Mask.granSet s x) => ?_) ?_ <;> [clear_value x; (unfold x; clear x)])
        | clear_value x)
    | (with_reducible refine granMod_touches ?_ rfl)
    | with_reducible apply touches_ite
    | (with_reducible refine touches_foldl ?_ (fun _ _ _ => ?_))
    | (with_reducible refine touches_foldl_fst ?_ (fun _ _ _ => ?_))
    | (with_reducible refine touches_foldl_snd ?_ (fun _ _ _ => ?_))
    | (fail_if_no_progress (with_reducible refine touches_mk ?_ rfl rfl)))

theorem countHit_touches {p : ℕ} (h : Touches M s0 s) (w : Mask.le { parts := true } M = true) :
    Touches M s0 (countHit s p) :=
  h.trans (Touches.mono ⟨rfl, id⟩ w)

theorem countMiss_touches {p : ℕ} (h : Touches M s0 s) (w : Mask.le { parts := true } M = true) :
    Touches M s0 (countMiss s p) :=
  h.trans (Touches.mono ⟨rfl, id⟩ w)

theorem issueOnfi_touches {op : OnfiOp} {l : FlashLoc} (h : Touches M s0 s) (w : Mask.le { fl := true } M = true) :
    Touches M s0 (issueOnfi s op l) := by
  refine h.trans (Touches.mono ?_ w)
  have h0 := Touches.refl { fl := true } s
  clear h w
  unfold issueOnfi
  repeat' (first
    | with_reducible assumption
    | ((try lift_lets); intro x; first
        | (have _ := fun a => x a; dsimp only [x]; clear x)
        | clear_value x)
    | with_reducible apply touches_ite
    | (with_reducible refine touches_foldl ?_ (fun _ _ _ => ?_))
    | (with_reducible refine touches_foldl_fst ?_ (fun _ _ _ => ?_))
    | (with_reducible refine touches_foldl_snd ?_ (fun _ _ _ => ?_))
    | (fail_if_no_progress (with_reducible refine touches_mk ?_ rfl rfl)))

theorem startFetch_touches {p n : ℕ} (h : Touches M s0 s) (w : Mask.le Mask.granSet M = true) :
    Touches M s0 (startFetch s p n).1 := by
  refine h.trans (Touches.mono ?_ w)
  have h0 := Touches.refl Mask.granSet s
  clear h w
  unfold startFetch
  repeat' (first
    | with_reducible assumption
    | ((try lift_lets); intro x; first
        | (refine (fun (hx : Touches Mask.granSet s x) => ?_) ?_ <;> [clear_value x; (unfold x; clear x)])
        | clear_value x)
    | (with_reducible refine granMod_touches ?_ rfl)
    | (with_reducible refine issueOnfi_touches ?_ rfl)
    | (with_reducible refine takeFrame_touches ?_ rfl)
    | with_reducible apply touches_ite
    | (with_reducible refine touches_foldl ?_ (fun _ _ _ => ?_))
    | (with_reducible refine touches_foldl_fst ?_ (fun _ _ _ => ?_))
    | (with_reducible refine touches_foldl_snd ?_ (fun _ _ _ => ?_))
    | (fail_if_no_progress (with_reducible refine touches_mk ?_ rfl rfl))
    | (split <;> (try (rename_i e1; have e2 := congrArg Prod.fst e1; have e3 := congrArg Prod.snd e1; dsimp only at e2 e3; (try subst e2); (try subst e3)))))

/-- What `readMap` may change. -/
abbrev Mask.readMap : Mask :=
  { parts := true, stk := true, fl := true, di := true }

theorem readMap_touches {source p n : ℕ} (h : Touches M s0 s) (w : Mask.le Mask.readMap M = true) :
    Touches M s0 (readMap s source p n) := by
  refine h.trans (Touches.mono ?_ w)
  have h0 := Touches.refl Mask.readMap s
  clear h w
  unfold readMap
  repeat' (first
    | with_reducible assumption
    | ((try lift_lets); intro x; first
        | (have _ := fun a => x a; dsimp only [x]; clear x)
        | clear_value x)
    | (with_reducible refine readColumn_touches ?_ rfl)
    | with_reducible apply touches_ite
    | (with_reducible refine touches_foldl ?_ (fun _ _ _ => ?_))
    | (with_reducible refine touches_foldl_fst ?_ (fun _ _ _ => ?_))
    | (with_reducible refine touches_foldl_snd ?_ (fun _ _ _ => ?_))
    | (fail_if_no_progress (with_reducible refine touches_mk ?_ rfl rfl))
    | (split <;> (try (rename_i e1; have e2 := congrArg Prod.fst e1; have e3 := congrArg Prod.snd e1; dsimp only at e2 e3; (try subst e2); (try subst e3)))))

/-- What `flashTouch` may change. -/
abbrev Mask.flashTouch : Mask :=
  { parts := true, stk := true, fl := true, di := true, dram := true }

theorem flashTouch_touches {p n : ℕ} {write whole : Bool} (h : Touches M s0 s)
    (w : Mask.le Mask.flashTouch M = true) : Touches M s0 (flashTouch s p n write whole).1 := by
  refine h.trans (Touches.mono ?_ w)
  have h0 := Touches.refl Mask.flashTouch s
  clear h w
  unfold flashTouch
  repeat' (first
    | with_reducible assumption
    | ((try lift_lets); intro x; clear_value x)
    | (with_reducible refine countHit_touches ?_ rfl)
    | (with_reducible refine dirtyGranule_touches ?_ rfl)
    | (with_reducible refine granSet_touches ?_ rfl)
    | (with_reducible refine startFetch_touches ?_ rfl)
    | (with_reducible refine takeFrame_touches ?_ rfl)
    | (with_reducible refine zeroFrame_touches ?_ rfl)
    | (split <;> (try (rename_i e1; have e2 := congrArg Prod.fst e1; have e3 := congrArg Prod.snd e1; dsimp only at e2 e3; (try subst e2); (try subst e3)))))

theorem dropBadFrame_touches {source p n off len : ℕ} (h : Touches M s0 s) (w : Mask.le Mask.readMap M = true) :
    Touches M s0 (dropBadFrame s source p n off len) := by
  refine h.trans (Touches.mono ?_ w)
  have h0 := Touches.refl Mask.readMap s
  clear h w
  unfold dropBadFrame
  repeat' (first
    | with_reducible assumption
    | ((try lift_lets); intro x; first
        | clear_value x)
    | (with_reducible refine granSet_touches ?_ rfl)
    | (with_reducible refine readLine_touches ?_ rfl)
    | with_reducible apply touches_ite
    | (with_reducible refine touches_foldl ?_ (fun _ _ _ => ?_)))

theorem accessGranule_touches {source p n off len : ℕ} {write whole waits : Bool} (h : Touches M s0 s)
    (w : Mask.le Mask.flashTouch M = true) : Touches M s0 (accessGranule s source p n off len write whole waits).1
    := by
  refine h.trans (Touches.mono ?_ w)
  have h0 := Touches.refl Mask.flashTouch s
  clear h w
  unfold accessGranule
  repeat' (first
    | with_reducible assumption
    | (with_reducible refine countMiss_touches ?_ rfl)
    | (with_reducible refine dropBadFrame_touches ?_ rfl)
    | (with_reducible refine flashTouch_touches ?_ rfl)
    | (with_reducible refine readMap_touches ?_ rfl)
    | with_reducible apply touches_ite
    | (with_reducible refine touches_foldl ?_ (fun _ _ _ => ?_))
    | (with_reducible refine touches_foldl_fst ?_ (fun _ _ _ => ?_))
    | (with_reducible refine touches_foldl_snd ?_ (fun _ _ _ => ?_))
    | (fail_if_no_progress (with_reducible refine touches_mk ?_ rfl rfl))
    | (split <;> (try (rename_i e1; have e2 := congrArg Prod.fst e1; have e3 := congrArg Prod.snd e1; dsimp only at e2 e3; (try subst e2); (try subst e3)))))

theorem readPiece_touches {source p off i n sl a : ℕ} (h : Touches M s0 s)
    (w : Mask.le Mask.countCorrected M = true) : Touches M s0 (readPiece s source p off i n sl a).1 := by
  refine h.trans (Touches.mono ?_ w)
  have h0 := Touches.refl Mask.countCorrected s
  clear h w
  unfold readPiece
  repeat' (first
    | with_reducible assumption
    | (with_reducible refine readLine_touches ?_ rfl)
    | split)

theorem writePiece_touches {source : ℕ} {bad : List ℕ} {p off i sl a : ℕ} {bs : List Byte} (h : Touches M s0 s)
    (w : Mask.le Mask.writeLine M = true) : Touches M s0 (writePiece s source bad p off i sl a bs).1 := by
  refine h.trans (Touches.mono ?_ w)
  have h0 := Touches.refl Mask.writeLine s
  clear h w
  unfold writePiece
  repeat' (first
    | with_reducible assumption
    | (with_reducible refine writeLine_touches ?_ rfl)
    | split)

theorem foldPieces_touches {α : Type} {f : State → α → State × Piece} {l : List α} (h : Touches M s0 s)
    (k : ∀ t, Touches M s0 t → ∀ a, Touches M s0 (f t a).1) : Touches M s0 (foldPieces f s l).1 := by
  unfold foldPieces
  exact touches_foldl_fst h (fun y hy a => k y.1 hy a)

/-- What `readSegment` may change. -/
abbrev Mask.readSegment : Mask :=
  { parts := true, stk := true, near := true, fl := true, di := true, dram := true }

theorem readSegment_touches {source : ℕ} {y_2 : Mover} {p off base n : ℕ} {waits : Bool} (h : Touches M s0 s)
    (w : Mask.le Mask.readSegment M = true) : Touches M s0 (readSegment s source y_2 p off base n waits).1 := by
  refine h.trans (Touches.mono ?_ w)
  have h0 := Touches.refl Mask.readSegment s
  clear h w
  unfold readSegment
  repeat' (first
    | with_reducible assumption
    | (with_reducible refine accessGranule_touches ?_ rfl)
    | (with_reducible refine foldPieces_touches ?_ (fun _ _ _ => ?_))
    | (with_reducible refine nearRead_touches ?_ rfl)
    | (with_reducible refine readPiece_touches ?_ rfl)
    | (split <;> (try (rename_i e1; have e2 := congrArg Prod.fst e1; have e3 := congrArg Prod.snd e1; dsimp only at e2 e3; (try subst e2); (try subst e3)))))

theorem countCollision_touches {p sl : ℕ} (h : Touches M s0 s) (w : Mask.le { near := true } M = true) :
    Touches M s0 (countCollision s p sl) := by
  refine h.trans (Touches.mono ?_ w)
  have h0 := Touches.refl { near := true } s
  clear h w
  unfold countCollision
  repeat' (first
    | with_reducible assumption
    | ((try lift_lets); intro x; first
        | (have _ : NearBanks := x; dsimp only [x]; clear x)
        | clear_value x)
    | with_reducible apply touches_ite
    | (with_reducible refine touches_foldl ?_ (fun _ _ _ => ?_))
    | (with_reducible refine touches_foldl_fst ?_ (fun _ _ _ => ?_))
    | (with_reducible refine touches_foldl_snd ?_ (fun _ _ _ => ?_))
    | (fail_if_no_progress (with_reducible refine touches_mk ?_ rfl rfl)))

theorem countNearAtom_touches {p sl : ℕ} (h : Touches M s0 s) (w : Mask.le { near := true } M = true) :
    Touches M s0 (countNearAtom s p sl) := by
  refine h.trans (Touches.mono ?_ w)
  have h0 := Touches.refl { near := true } s
  clear h w
  unfold countNearAtom
  repeat' (first
    | with_reducible assumption
    | ((try lift_lets); intro x; first
        | (have _ : NearBanks := x; dsimp only [x]; clear x)
        | clear_value x)
    | with_reducible apply touches_ite
    | (with_reducible refine touches_foldl ?_ (fun _ _ _ => ?_))
    | (with_reducible refine touches_foldl_fst ?_ (fun _ _ _ => ?_))
    | (with_reducible refine touches_foldl_snd ?_ (fun _ _ _ => ?_))
    | (fail_if_no_progress (with_reducible refine touches_mk ?_ rfl rfl)))

theorem ownPortWrite_touches {source y_2 sl b : ℕ} {bs : List Byte} (h : Touches M s0 s)
    (w : Mask.le Mask.nearWriteWord M = true) : Touches M s0 (ownPortWrite s source y_2 sl b bs).1 := by
  refine h.trans (Touches.mono ?_ w)
  have h0 := Touches.refl Mask.nearWriteWord s
  clear h w
  unfold ownPortWrite
  repeat' (first
    | with_reducible assumption
    | ((try lift_lets); intro x; first
        | (refine (fun (hx : Touches Mask.nearWriteWord s x) => ?_) ?_ <;> [clear_value x; (unfold x; clear x)])
        | (have _ := fun a => x a; dsimp only [x]; clear x)
        | clear_value x)
    | (with_reducible refine nearWriteWord_touches ?_ rfl)
    | (with_reducible refine ownBegin_touches ?_ rfl)
    | with_reducible apply touches_ite
    | (with_reducible refine touches_foldl ?_ (fun _ _ _ => ?_))
    | (with_reducible refine touches_foldl_fst ?_ (fun _ _ _ => ?_))
    | (with_reducible refine touches_foldl_snd ?_ (fun _ _ _ => ?_))
    | (fail_if_no_progress (with_reducible refine touches_mk ?_ rfl rfl)))

theorem nearWritePiece_touches {source : ℕ} {y_2 : Mover} {p off i : ℕ} {bs : List Byte} (h : Touches M s0 s)
    (w : Mask.le Mask.nearWriteWord M = true) : Touches M s0 (nearWritePiece s source y_2 p off i bs).1 := by
  refine h.trans (Touches.mono ?_ w)
  have h0 := Touches.refl Mask.nearWriteWord s
  clear h w
  unfold nearWritePiece
  repeat' (first
    | with_reducible assumption
    | ((try lift_lets); intro x; first
        | (refine (fun (hx : Touches Mask.nearWriteWord s x) => ?_) ?_ <;> [clear_value x; (unfold x; clear x)])
        | clear_value x)
    | (with_reducible refine countCollision_touches ?_ rfl)
    | (with_reducible refine nearWriteWord_touches ?_ rfl)
    | (with_reducible refine otherBegin_touches ?_ rfl)
    | (with_reducible refine ownPortWrite_touches ?_ rfl)
    | with_reducible apply touches_ite
    | (with_reducible refine touches_foldl ?_ (fun _ _ _ => ?_))
    | (with_reducible refine touches_foldl_fst ?_ (fun _ _ _ => ?_))
    | (with_reducible refine touches_foldl_snd ?_ (fun _ _ _ => ?_))
    | (fail_if_no_progress (with_reducible refine touches_mk ?_ rfl rfl))
    | (split <;> (try (rename_i e1; have e2 := congrArg Prod.fst e1; have e3 := congrArg Prod.snd e1; dsimp only at e2 e3; (try subst e2); (try subst e3)))))

/-- What `writeSegment` may change. -/
abbrev Mask.writeSegment : Mask :=
  { parts := true, stk := true, near := true, fl := true, di := true, dram := true, nearMem := true }

theorem writeSegment_touches {source : ℕ} {y_2 : Mover} {p off base : ℕ} {bs : List Byte} {whole waits : Bool}
    (h : Touches M s0 s) (w : Mask.le Mask.writeSegment M = true) : Touches M s0 (writeSegment s source y_2 p off
    base bs whole waits).1 := by
  refine h.trans (Touches.mono ?_ w)
  have h0 := Touches.refl Mask.writeSegment s
  clear h w
  unfold writeSegment
  repeat' (first
    | with_reducible assumption
    | ((try lift_lets); intro x; first
        | (have _ := fun a => x a; dsimp only [x]; clear x)
        | clear_value x)
    | (with_reducible refine accessGranule_touches ?_ rfl)
    | (with_reducible refine foldPieces_touches ?_ (fun _ _ _ => ?_))
    | (with_reducible refine nearWritePiece_touches ?_ rfl)
    | (with_reducible refine writePiece_touches ?_ rfl)
    | (split <;> (try (rename_i e1; have e2 := congrArg Prod.fst e1; have e3 := congrArg Prod.snd e1; dsimp only at e2 e3; (try subst e2); (try subst e3)))))

/-- What `blurRange` may change. -/
abbrev Mask.blurRange : Mask :=
  { parts := true, stk := true, near := true, fl := true, di := true, free := true, dram := true, nearMem :=
    true }

theorem blurRange_touches {p off n : ℕ} (h : Touches M s0 s) (w : Mask.le Mask.blurRange M = true) :
    Touches M s0 (blurRange s p off n) := by
  refine h.trans (Touches.mono ?_ w)
  have h0 := Touches.refl Mask.blurRange s
  clear h w
  unfold blurRange
  repeat' (first
    | with_reducible assumption
    | (with_reducible refine drawBytes_touches ?_ rfl)
    | (with_reducible refine partCnt_touches ?_ rfl)
    | (with_reducible refine writeSegment_touches ?_ rfl)
    | (with_reducible refine touches_foldl ?_ (fun _ _ _ => ?_))
    | split)

theorem gather_touches {ticket : ℕ} {ps : List Piece} (h : Touches M s0 s) (w : Mask.le { coh := true } M = true) :
    Touches M s0 (gather s ticket ps) :=
  h.trans (Touches.mono ⟨rfl, id⟩ w)

theorem dropPieces_touches {ticket : ℕ} (h : Touches M s0 s) (w : Mask.le { coh := true } M = true) :
    Touches M s0 (dropPieces s ticket) :=
  h.trans (Touches.mono ⟨rfl, id⟩ w)

theorem blurParts_touches {p : Nat} {pos : Nat → Nat} {stop : Nat} {l : List Gathered} (h : Touches M s0 s)
    (w : Mask.le Mask.blurRange M = true) : Touches M s0 (blurParts s p pos stop l) := by
  induction l generalizing s with
  | nil => exact h
  | cons g l ih =>
    unfold blurParts
    dsimp only
    exact ih (touches_ite (blurRange_touches h (Mask.le_trans rfl w)) h)

theorem blurFailed_touches {v : Service} {ps : List Gathered} (h : Touches M s0 s)
    (w : Mask.le Mask.blurRange M = true) : Touches M s0 (blurFailed s v ps) := by
  refine h.trans (Touches.mono ?_ w)
  have h0 := Touches.refl Mask.blurRange s
  clear h w
  unfold blurFailed
  repeat' (first
    | with_reducible assumption
    | (with_reducible refine blurParts_touches ?_ rfl)
    | with_reducible apply touches_ite
    | split)

theorem countPoison_touches {p : ℕ} (h : Touches M s0 s) (w : Mask.le { parts := true, di := true } M = true) :
    Touches M s0 (countPoison s p) := by
  refine h.trans (Touches.mono ?_ w)
  have h0 := Touches.refl { parts := true, di := true } s
  clear h w
  unfold countPoison
  repeat' (first
    | with_reducible assumption
    | ((try lift_lets); intro x; first
        | clear_value x)
    | (with_reducible refine partCnt_touches ?_ rfl)
    | with_reducible apply touches_ite
    | (with_reducible refine touches_foldl ?_ (fun _ _ _ => ?_))
    | (with_reducible refine touches_foldl_fst ?_ (fun _ _ _ => ?_))
    | (with_reducible refine touches_foldl_snd ?_ (fun _ _ _ => ?_))
    | (fail_if_no_progress (with_reducible refine touches_mk ?_ rfl rfl)))

theorem joinPieces_touches {ps : List Gathered} {n : ℕ} (h : Touches M s0 s) (w : Mask.le { free := true } M = true)
    : Touches M s0 (joinPieces s ps n).1 := by
  refine h.trans (Touches.mono ?_ w)
  have h0 := Touches.refl { free := true } s
  clear h w
  unfold joinPieces
  repeat' (first
    | with_reducible assumption
    | ((try lift_lets); intro x; clear_value x)
    | (with_reducible refine drawBytes_touches ?_ rfl)
    | (split <;> (try (rename_i e1; have e2 := congrArg Prod.fst e1; have e3 := congrArg Prod.snd e1; dsimp only at e2 e3; (try subst e2); (try subst e3)))))

/-- What `resolve` may change. -/
abbrev Mask.resolve : Mask :=
  { parts := true, di := true, free := true }

theorem resolve_touches {v : Service} {ps : List Gathered} (h : Touches M s0 s) (w : Mask.le Mask.resolve M = true)
    : Touches M s0 (resolve s v ps).1 := by
  refine h.trans (Touches.mono ?_ w)
  have h0 := Touches.refl Mask.resolve s
  clear h w
  unfold resolve
  repeat' (first
    | with_reducible assumption
    | ((try lift_lets); intro x; first
        | (refine (fun (hx : Touches Mask.resolve s x) => ?_) ?_ <;> [clear_value x; (unfold x; clear x)])
        | clear_value x)
    | (with_reducible refine countPoison_touches ?_ rfl)
    | (with_reducible refine joinPieces_touches ?_ rfl)
    | split)

end Sys2Proof.Machine
end

