-- ==== Sys2Proof/Laws/TouchesTranslate.lean ====
section
/-! SUPPORT. What the operations of Machine/Translate.lean may change. -/

namespace Sys2Proof.Machine

variable {M : Mask} {s0 s t : State}

theorem bufPut_touches {level holder p u : ℕ} (h : Touches M s0 s) (w : Mask.le { eng := true } M = true) :
    Touches M s0 (bufPut s level holder p u) := by
  refine h.trans (Touches.mono ?_ w)
  have h0 := Touches.refl { eng := true } s
  clear h w
  unfold bufPut
  repeat' (first
    | with_reducible assumption
    | (fail_if_no_progress (with_reducible refine touches_mk ?_ rfl rfl))
    | split)

theorem entryWritten_touches {p u : ℕ} (h : Touches M s0 s) (w : Mask.le { stk := true, di := true } M = true) :
    Touches M s0 (entryWritten s p u) := by
  refine h.trans (Touches.mono ?_ w)
  have h0 := Touches.refl { stk := true, di := true } s
  clear h w
  unfold entryWritten
  repeat' (first
    | with_reducible assumption
    | (with_reducible refine reserveClean_touches ?_ rfl)
    | with_reducible apply touches_ite
    | (with_reducible refine touches_foldl ?_ (fun _ _ _ => ?_))
    | (with_reducible refine touches_foldl_fst ?_ (fun _ _ _ => ?_))
    | (with_reducible refine touches_foldl_snd ?_ (fun _ _ _ => ?_))
    | (fail_if_no_progress (with_reducible refine touches_mk ?_ rfl rfl))
    | (split <;> (try (rename_i e1; have e2 := congrArg Prod.fst e1; have e3 := congrArg Prod.snd e1; dsimp only at e2 e3; (try subst e2); (try subst e3)))))

theorem progWritten_touches {r : ProgRec} (h : Touches M s0 s) (w : Mask.le { stk := true, di := true } M = true) :
    Touches M s0 (progWritten s r) := by
  refine h.trans (Touches.mono ?_ w)
  have h0 := Touches.refl { stk := true, di := true } s
  clear h w
  unfold progWritten
  repeat' (first
    | with_reducible assumption
    | (with_reducible refine reserveClean_touches ?_ rfl)
    | with_reducible apply touches_ite
    | (with_reducible refine touches_foldl ?_ (fun _ _ _ => ?_))
    | (with_reducible refine touches_foldl_fst ?_ (fun _ _ _ => ?_))
    | (with_reducible refine touches_foldl_snd ?_ (fun _ _ _ => ?_))
    | (fail_if_no_progress (with_reducible refine touches_mk ?_ rfl rfl))
    | (split <;> (try (rename_i e1; have e2 := congrArg Prod.fst e1; have e3 := congrArg Prod.snd e1; dsimp only at e2 e3; (try subst e2); (try subst e3)))))

/-- What `readUnit` may change. -/
abbrev Mask.readUnit : Mask :=
  { parts := true, coh := true, stk := true, eng := true, di := true }

theorem readUnit_touches {p u : ℕ} (h : Touches M s0 s) (w : Mask.le Mask.readUnit M = true) :
    Touches M s0 (readUnit s p u) := by
  refine h.trans (Touches.mono ?_ w)
  have h0 := Touches.refl Mask.readUnit s
  clear h w
  unfold readUnit
  repeat' (first
    | with_reducible assumption
    | ((try lift_lets); intro x; first
        | clear_value x)
    | (with_reducible refine pteSet_touches ?_ rfl)
    | (with_reducible refine reserveClean_touches ?_ rfl)
    | (with_reducible refine reserveRead_touches ?_ rfl)
    | (with_reducible refine versionSet_touches ?_ rfl)
    | with_reducible apply touches_ite
    | (with_reducible refine touches_foldl ?_ (fun _ _ _ => ?_))
    | (with_reducible refine touches_foldl_fst ?_ (fun _ _ _ => ?_))
    | (with_reducible refine touches_foldl_snd ?_ (fun _ _ _ => ?_))
    | (fail_if_no_progress (with_reducible refine touches_mk ?_ rfl rfl))
    | (split <;> (try (rename_i e1; have e2 := congrArg Prod.fst e1; have e3 := congrArg Prod.snd e1; dsimp only at e2 e3; (try subst e2); (try subst e3)))))

theorem countWalk_touches {p u : ℕ} (h : Touches M s0 s) (w : Mask.le Mask.readUnit M = true) :
    Touches M s0 (countWalk s p u) := by
  refine h.trans (Touches.mono ?_ w)
  have h0 := Touches.refl Mask.readUnit s
  clear h w
  unfold countWalk
  repeat' (first
    | with_reducible assumption
    | (with_reducible refine partCnt_touches ?_ rfl)
    | (with_reducible refine readUnit_touches ?_ rfl))

theorem dropSlots_touches {engine : ℕ} (h : Touches M s0 s) (w : Mask.le { eng := true } M = true) :
    Touches M s0 (dropSlots s engine) := by
  refine h.trans (Touches.mono ?_ w)
  have h0 := Touches.refl { eng := true } s
  clear h w
  unfold dropSlots
  repeat' (first
    | with_reducible assumption
    | ((try lift_lets); intro x; first
        | clear_value x)
    | with_reducible apply touches_ite
    | (with_reducible refine touches_foldl ?_ (fun _ _ _ => ?_))
    | (with_reducible refine touches_foldl_fst ?_ (fun _ _ _ => ?_))
    | (with_reducible refine touches_foldl_snd ?_ (fun _ _ _ => ?_))
    | (fail_if_no_progress (with_reducible refine touches_mk ?_ rfl rfl)))

theorem translateNow_touches {p engine slot u : ℕ} (h : Touches M s0 s) (w : Mask.le Mask.readUnit M = true) :
    Touches M s0 (translateNow s p engine slot u) := by
  refine h.trans (Touches.mono ?_ w)
  have h0 := Touches.refl Mask.readUnit s
  clear h w
  unfold translateNow
  repeat' (first
    | with_reducible assumption
    | (with_reducible refine bufPut_touches ?_ rfl)
    | (with_reducible refine countWalk_touches ?_ rfl)
    | split)

theorem translateRequest_touches {v : Service} {addr n : ℕ} (h : Touches M s0 s)
    (w : Mask.le Mask.readUnit M = true) : Touches M s0 (translateRequest s v addr n) := by
  refine h.trans (Touches.mono ?_ w)
  have h0 := Touches.refl Mask.readUnit s
  clear h w
  unfold translateRequest
  repeat' (first
    | with_reducible assumption
    | (with_reducible refine bufPut_touches ?_ rfl)
    | (with_reducible refine countWalk_touches ?_ rfl)
    | with_reducible apply touches_ite
    | (with_reducible refine touches_foldl ?_ (fun _ _ _ => ?_)))

theorem dropPages_touches {p : ℕ} {us : List ℕ} (h : Touches M s0 s) (w : Mask.le { eng := true } M = true) :
    Touches M s0 (dropPages s p us) :=
  h.trans (Touches.mono ⟨rfl, id⟩ w)

theorem dropBuffers_touches {p : ℕ} (h : Touches M s0 s) (w : Mask.le { eng := true } M = true) :
    Touches M s0 (dropBuffers s p) :=
  h.trans (Touches.mono ⟨rfl, id⟩ w)

end Sys2Proof.Machine
end

