-- ==== Sys2Proof/Laws/TouchesLedger.lean ====
section
/-! SUPPORT. What the operations of Machine/Ledger.lean may change. -/

namespace Sys2Proof.Machine

variable {M : Mask} {s0 s t : State}

theorem storedClean_touches {p n : ℕ} (h : Touches M s0 s) (w : Mask.le { stk := true, di := true } M = true) :
    Touches M s0 (storedClean s p n) := by
  refine h.trans (Touches.mono ?_ w)
  have h0 := Touches.refl { stk := true, di := true } s
  clear h w
  unfold storedClean
  repeat' (first
    | with_reducible assumption
    | (with_reducible refine reserveClean_touches ?_ rfl)
    | with_reducible apply touches_ite
    | (with_reducible refine touches_foldl ?_ (fun _ _ _ => ?_))
    | (with_reducible refine touches_foldl_fst ?_ (fun _ _ _ => ?_))
    | (with_reducible refine touches_foldl_snd ?_ (fun _ _ _ => ?_))
    | (fail_if_no_progress (with_reducible refine touches_mk ?_ rfl rfl))
    | (split <;> (try (rename_i e1; have e2 := congrArg Prod.fst e1; have e3 := congrArg Prod.snd e1; dsimp only at e2 e3; (try subst e2); (try subst e3)))))

theorem lgStore_touches {p : ℕ} {template : List Byte} (h : Touches M s0 s)
    (w : Mask.le Mask.countCorrected M = true) : Touches M s0 (lgStore s p template) := by
  refine h.trans (Touches.mono ?_ w)
  have h0 := Touches.refl Mask.countCorrected s
  clear h w
  unfold lgStore
  repeat' (first
    | with_reducible assumption
    | ((try lift_lets); intro x; first
        | clear_value x)
    | (with_reducible refine partSet_touches ?_ rfl)
    | (with_reducible refine storedClean_touches ?_ rfl))

theorem lgForget_touches {p n : ℕ} (h : Touches M s0 s) (w : Mask.le { parts := true } M = true) :
    Touches M s0 (lgForget s p n) := by
  refine h.trans (Touches.mono ?_ w)
  have h0 := Touches.refl { parts := true } s
  clear h w
  unfold lgForget
  repeat' (first
    | with_reducible assumption
    | (with_reducible refine partMod_touches ?_ rfl))

theorem lgAppend_touches {p : ℕ} {k : LgKind} {status srckind queue req : ℕ} {body extra : List Byte} {event : ℕ}
    (h : Touches M s0 s) (w : Mask.le Mask.countCorrected M = true) : Touches M s0 (lgAppend s p k status srckind
    queue req body extra event).1 := by
  refine h.trans (Touches.mono ?_ w)
  have h0 := Touches.refl Mask.countCorrected s
  clear h w
  unfold lgAppend
  repeat' (first
    | with_reducible assumption
    | ((try lift_lets); intro x; clear_value x)
    | (with_reducible refine lgStore_touches ?_ rfl)
    | (with_reducible refine partMod_touches ?_ rfl)
    | split)

theorem lgStart_touches {p : ℕ} (h : Touches M s0 s) (w : Mask.le { parts := true } M = true) :
    Touches M s0 (lgStart s p) :=
  h.trans (Touches.mono ⟨rfl, id⟩ w)

theorem lgResize_touches {p : ℕ} (h : Touches M s0 s) (w : Mask.le { parts := true } M = true) :
    Touches M s0 (lgResize s p) :=
  h.trans (Touches.mono ⟨rfl, id⟩ w)

theorem lgImage_touches {p srckind : ℕ} {im : Image} (h : Touches M s0 s) (w : Mask.le Mask.countCorrected M = true)
    : Touches M s0 (lgImage s p srckind im) := by
  refine h.trans (Touches.mono ?_ w)
  have h0 := Touches.refl Mask.countCorrected s
  clear h w
  unfold lgImage
  repeat' (first
    | with_reducible assumption
    | (with_reducible refine lgAppend_touches ?_ rfl))

theorem lgReset_touches {p : ℕ} (h : Touches M s0 s) (w : Mask.le Mask.countCorrected M = true) :
    Touches M s0 (lgReset s p) := by
  refine h.trans (Touches.mono ?_ w)
  have h0 := Touches.refl Mask.countCorrected s
  clear h w
  unfold lgReset
  repeat' (first
    | with_reducible assumption
    | (with_reducible refine lgAppend_touches ?_ rfl))

theorem lgFirmware_touches {new old : Firmware} {event : ℕ} (h : Touches M s0 s)
    (w : Mask.le Mask.countCorrected M = true) : Touches M s0 (lgFirmware s new old event) := by
  refine h.trans (Touches.mono ?_ w)
  have h0 := Touches.refl Mask.countCorrected s
  clear h w
  unfold lgFirmware
  repeat' (first
    | with_reducible assumption
    | (with_reducible refine lgAppend_touches ?_ rfl)
    | (with_reducible refine touches_foldl ?_ (fun _ _ _ => ?_))
    | split)

theorem lgSeal_touches {code : ℕ} (h : Touches M s0 s) (w : Mask.le Mask.countCorrected M = true) :
    Touches M s0 (lgSeal s code) := by
  refine h.trans (Touches.mono ?_ w)
  have h0 := Touches.refl Mask.countCorrected s
  clear h w
  unfold lgSeal
  repeat' (first
    | with_reducible assumption
    | ((try lift_lets); intro x; first
        | clear_value x)
    | (with_reducible refine lgAppend_touches ?_ rfl)
    | with_reducible apply touches_ite
    | (with_reducible refine touches_foldl ?_ (fun _ _ _ => ?_))
    | (with_reducible refine touches_foldl_fst ?_ (fun _ _ _ => ?_))
    | (with_reducible refine touches_foldl_snd ?_ (fun _ _ _ => ?_))
    | (fail_if_no_progress (with_reducible refine touches_mk ?_ rfl rfl))
    | (split <;> (try (rename_i e1; have e2 := congrArg Prod.fst e1; have e3 := congrArg Prod.snd e1; dsimp only at e2 e3; (try subst e2); (try subst e3)))))

theorem lgBreak_touches {p first last : ℕ} (h : Touches M s0 s) (w : Mask.le Mask.countCorrected M = true) :
    Touches M s0 (lgBreak s p first last) := by
  refine h.trans (Touches.mono ?_ w)
  have h0 := Touches.refl Mask.countCorrected s
  clear h w
  unfold lgBreak
  repeat' (first
    | with_reducible assumption
    | ((try lift_lets); intro x; first
        | (refine (fun (hx : Touches Mask.countCorrected s x) => ?_) ?_ <;> [clear_value x; (unfold x; clear x)])
        | clear_value x)
    | (with_reducible refine lgAppend_touches ?_ rfl)
    | (with_reducible refine partMod_touches ?_ rfl))

theorem lgRead_touches {p n i : ℕ} (h : Touches M s0 s) (w : Mask.le Mask.countCorrected M = true) :
    Touches M s0 (lgRead s p n i) := by
  refine h.trans (Touches.mono ?_ w)
  have h0 := Touches.refl Mask.countCorrected s
  clear h w
  unfold lgRead
  repeat' (first
    | with_reducible assumption
    | (with_reducible refine lgBreak_touches ?_ rfl)
    | (with_reducible refine lgForget_touches ?_ rfl)
    | (with_reducible refine reserveRead_touches ?_ rfl)
    | with_reducible apply touches_ite
    | (with_reducible refine touches_foldl ?_ (fun _ _ _ => ?_))
    | (with_reducible refine touches_foldl_fst ?_ (fun _ _ _ => ?_))
    | (with_reducible refine touches_foldl_snd ?_ (fun _ _ _ => ?_))
    | (fail_if_no_progress (with_reducible refine touches_mk ?_ rfl rfl))
    | (split <;> (try (rename_i e1; have e2 := congrArg Prod.fst e1; have e3 := congrArg Prod.snd e1; dsimp only at e2 e3; (try subst e2); (try subst e3)))))

end Sys2Proof.Machine
end

