-- ==== Sys2Proof/Laws/TouchesAdmission.lean ====
section
/-! SUPPORT. What the operations of Machine/Admission.lean may change. -/

namespace Sys2Proof.Machine

variable {M : Mask} {s0 s t : State}

theorem placeFlow_touches {k clk : ℕ} (h : Touches M s0 s) (w : Mask.le { flows := true } M = true) :
    Touches M s0 (placeFlow s k clk) := by
  refine h.trans (Touches.mono ?_ w)
  have h0 := Touches.refl { flows := true } s
  clear h w
  unfold placeFlow
  repeat' (first
    | with_reducible assumption
    | (with_reducible refine flowSet_touches ?_ rfl)
    | with_reducible apply touches_ite)

theorem noteWait_touches {p y_2 : ℕ} (h : Touches M s0 s) (w : Mask.le { td := true } M = true) :
    Touches M s0 (noteWait s p y_2) :=
  h.trans (Touches.mono ⟨rfl, id⟩ w)

theorem charge_touches {k units : ℕ} (h : Touches M s0 s) (w : Mask.le { flows := true, td := true } M = true) :
    Touches M s0 (charge s k units) := by
  refine h.trans (Touches.mono ?_ w)
  have h0 := Touches.refl { flows := true, td := true } s
  clear h w
  unfold charge
  repeat' (first
    | with_reducible assumption
    | (with_reducible refine flowMod_touches ?_ rfl)
    | (fail_if_no_progress (with_reducible refine touches_mk ?_ rfl rfl))
    | split)

theorem debtNet_touches {k : ℕ} (h : Touches M s0 s) (w : Mask.le { flows := true } M = true) :
    Touches M s0 (debtNet s k) := by
  refine h.trans (Touches.mono ?_ w)
  have h0 := Touches.refl { flows := true } s
  clear h w
  unfold debtNet
  repeat' (first
    | with_reducible assumption
    | (with_reducible refine flowMod_touches ?_ rfl)
    | split)

/-- What `noteQueued` may change. -/
abbrev Mask.noteQueued : Mask :=
  { parts := true, eth := true, sec := true, twn := true, out := true }

theorem noteQueued_touches {req : Request} (h : Touches M s0 s) (w : Mask.le Mask.noteQueued M = true) :
    Touches M s0 (noteQueued s req) := by
  refine h.trans (Touches.mono ?_ w)
  have h0 := Touches.refl Mask.noteQueued s
  clear h w
  unfold noteQueued
  repeat' (first
    | with_reducible assumption
    | (with_reducible refine qpMod_touches ?_ rfl)
    | (with_reducible refine settleOrder_touches ?_ rfl)
    | (fail_if_no_progress (with_reducible refine touches_mk ?_ rfl rfl))
    | split)

theorem arrive_touches {clk : ℕ} {req : Request} (h : Touches M s0 s) (w : Mask.le Mask.endArrival M = true) :
    Touches M s0 (arrive s clk req) := by
  refine h.trans (Touches.mono ?_ w)
  have h0 := Touches.refl Mask.endArrival s
  clear h w
  unfold arrive
  repeat' (first
    | with_reducible assumption
    | (with_reducible refine endArrival_touches ?_ rfl)
    | (with_reducible refine flowSet_touches ?_ rfl)
    | (with_reducible refine noteQueued_touches ?_ rfl)
    | (with_reducible refine partCnt_touches ?_ rfl)
    | (with_reducible refine placeFlow_touches ?_ rfl)
    | with_reducible apply touches_ite
    | split)

/-- What `endWaiting` may change. -/
abbrev Mask.endWaiting : Mask :=
  { parts := true, flows := true, td := true, ports := true, fab := true, eth := true, sec := true, twn := true,
    out := true }

theorem endWaiting_touches {k : ℕ} {req : Request} {a : Ans} (h : Touches M s0 s)
    (w : Mask.le Mask.endWaiting M = true) : Touches M s0 (endWaiting s k req a) := by
  refine h.trans (Touches.mono ?_ w)
  have h0 := Touches.refl Mask.endWaiting s
  clear h w
  unfold endWaiting
  repeat' (first
    | with_reducible assumption
    | ((try lift_lets); intro x; first
        | (refine (fun (hx : Touches Mask.endWaiting s x) => ?_) ?_ <;> [clear_value x; (unfold x; clear x)])
        | clear_value x)
    | (with_reducible refine answerRequest_touches ?_ rfl)
    | (with_reducible refine noteTurned_touches ?_ rfl)
    | (with_reducible refine noteWait_touches ?_ rfl)
    | with_reducible apply touches_ite)

theorem emptyFlow_touches {k : ℕ} {a : Request → Ans} (h : Touches M s0 s) (w : Mask.le Mask.endWaiting M = true) :
    Touches M s0 (emptyFlow s k a) := by
  refine h.trans (Touches.mono ?_ w)
  have h0 := Touches.refl Mask.endWaiting s
  clear h w
  unfold emptyFlow
  repeat' (first
    | with_reducible assumption
    | ((try lift_lets); intro x; first
        | clear_value x)
    | (with_reducible refine endWaiting_touches ?_ rfl)
    | (with_reducible refine flowSet_touches ?_ rfl)
    | with_reducible apply touches_ite
    | (with_reducible refine touches_foldl ?_ (fun _ _ _ => ?_)))

theorem endQueued_touches {p : ℕ} {st : Status} (h : Touches M s0 s) (w : Mask.le Mask.endWaiting M = true) :
    Touches M s0 (endQueued s p st) := by
  refine h.trans (Touches.mono ?_ w)
  have h0 := Touches.refl Mask.endWaiting s
  clear h w
  unfold endQueued
  repeat' (first
    | with_reducible assumption
    | (with_reducible refine emptyFlow_touches ?_ rfl)
    | (with_reducible refine touches_foldl ?_ (fun _ _ _ => ?_))
    | split)

theorem unlockSync_touches (h : Touches M s0 s) (w : Mask.le { td := true } M = true) : Touches M s0 (unlockSync s)
    := by
  refine h.trans (Touches.mono ?_ w)
  have h0 := Touches.refl { td := true } s
  clear h w
  unfold unlockSync
  repeat' (first
    | with_reducible assumption
    | ((try lift_lets); intro x; first
        | (have _ : Traffic := x; dsimp only [x]; clear x)
        | clear_value x)
    | with_reducible apply touches_ite
    | (with_reducible refine touches_foldl ?_ (fun _ _ _ => ?_))
    | (with_reducible refine touches_foldl_fst ?_ (fun _ _ _ => ?_))
    | (with_reducible refine touches_foldl_snd ?_ (fun _ _ _ => ?_))
    | (fail_if_no_progress (with_reducible refine touches_mk ?_ rfl rfl)))

theorem relock_touches (h : Touches M s0 s) (w : Mask.le { td := true } M = true) : Touches M s0 (relock s) := by
  refine h.trans (Touches.mono ?_ w)
  have h0 := Touches.refl { td := true } s
  clear h w
  unfold relock
  repeat' (first
    | with_reducible assumption
    | (with_reducible refine unlockSync_touches ?_ rfl)
    | split)

theorem writeFreerun_touches {v : Bool} (h : Touches M s0 s) (w : Mask.le { td := true } M = true) :
    Touches M s0 (writeFreerun s v) := by
  refine h.trans (Touches.mono ?_ w)
  have h0 := Touches.refl { td := true } s
  clear h w
  unfold writeFreerun
  repeat' (first
    | with_reducible assumption
    | (with_reducible refine unlockSync_touches ?_ rfl)
    | with_reducible apply touches_ite
    | (fail_if_no_progress (with_reducible refine touches_mk ?_ rfl rfl)))

theorem clearSyncErr_touches (h : Touches M s0 s) (w : Mask.le { td := true } M = true) : Touches M s0 (clearSyncErr
    s) :=
  h.trans (Touches.mono ⟨rfl, id⟩ w)

/-- What `admitHead` may change. -/
abbrev Mask.admitHead : Mask :=
  { parts := true, flows := true, td := true, ports := true, fab := true, eth := true, sec := true, twn := true,
    svc := true, nextTicket := true, out := true }

theorem admitHead_touches {k clk : ℕ} (h : Touches M s0 s) (w : Mask.le Mask.admitHead M = true) :
    Touches M s0 (admitHead s k clk) := by
  refine h.trans (Touches.mono ?_ w)
  have h0 := Touches.refl Mask.admitHead s
  clear h w
  unfold admitHead
  repeat' (first
    | with_reducible assumption
    | (with_reducible refine charge_touches ?_ rfl)
    | (with_reducible refine debtNet_touches ?_ rfl)
    | (with_reducible refine finish_touches ?_ rfl)
    | (with_reducible refine flowSet_touches ?_ rfl)
    | (with_reducible refine noteWait_touches ?_ rfl)
    | (with_reducible refine placeFlow_touches ?_ rfl)
    | (fail_if_no_progress (with_reducible refine touches_mk ?_ rfl rfl))
    | split
    | dsimp only [id])

theorem remeterFlow_touches {k : ℕ} (h : Touches M s0 s) (w : Mask.le Mask.endWaiting M = true) :
    Touches M s0 (remeterFlow s k) := by
  refine h.trans (Touches.mono ?_ w)
  have h0 := Touches.refl Mask.endWaiting s
  clear h w
  unfold remeterFlow
  repeat' (first
    | with_reducible assumption
    | (((try lift_lets); intro x); (refine (fun (hx : Touches Mask.endWaiting s x) => ?_) ?_ <;> [clear_value x; (unfold x; clear x)]))
    | (with_reducible refine endWaiting_touches ?_ rfl)
    | (with_reducible refine flowSet_touches ?_ rfl)
    | (with_reducible refine placeFlow_touches ?_ rfl)
    | (with_reducible refine touches_foldl ?_ (fun _ _ _ => ?_)))

theorem writeFlowLimit_touches {k v : ℕ} (h : Touches M s0 s) (w : Mask.le { flows := true } M = true) :
    Touches M s0 (writeFlowLimit s k v) := by
  refine h.trans (Touches.mono ?_ w)
  have h0 := Touches.refl { flows := true } s
  clear h w
  unfold writeFlowLimit
  repeat' (first
    | with_reducible assumption
    | (with_reducible refine flowMod_touches ?_ rfl)
    | split)

end Sys2Proof.Machine
end

