-- ==== Sys2Proof/Laws/TouchesLink.lean ====
section
/-! SUPPORT. What the operations of Machine/Link.lean may change. -/

namespace Sys2Proof.Machine

variable {M : Mask} {s0 s t : State}

theorem freeAt_touches {port : ℕ} {pkt : Packet} {vc : Bool} {since : ℕ} (h : Touches M s0 s)
    (w : Mask.le { ports := true } M = true) : Touches M s0 (freeAt s port pkt vc since) := by
  refine h.trans (Touches.mono ?_ w)
  have h0 := Touches.refl { ports := true } s
  clear h w
  unfold freeAt
  repeat' (first
    | with_reducible assumption
    | (with_reducible refine portMod_touches ?_ rfl)
    | split)

theorem removeParked_touches {port : ℕ} (h : Touches M s0 s) (w : Mask.le Mask.injectOn M = true) :
    Touches M s0 (removeParked s port) := by
  refine h.trans (Touches.mono ?_ w)
  have h0 := Touches.refl Mask.injectOn s
  clear h w
  unfold removeParked
  repeat' (first
    | with_reducible assumption
    | (((try lift_lets); intro x); (refine (fun (hx : Touches Mask.injectOn s x) => ?_) ?_ <;> [clear_value x; (unfold x; clear x)]))
    | (with_reducible refine freeAt_touches ?_ rfl)
    | (with_reducible refine noteRemoved_touches ?_ rfl)
    | (with_reducible refine ownRemoved_touches ?_ rfl)
    | (with_reducible refine turnAway_touches ?_ rfl)
    | (with_reducible refine touches_foldl ?_ (fun _ _ _ => ?_))
    | (fail_if_no_progress (with_reducible refine touches_mk ?_ rfl rfl))
    | split)

theorem portOut_touches {port st cause : ℕ} (h : Touches M s0 s) (w : Mask.le Mask.injectOn M = true) :
    Touches M s0 (portOut s port st cause) := by
  refine h.trans (Touches.mono ?_ w)
  have h0 := Touches.refl Mask.injectOn s
  clear h w
  unfold portOut
  repeat' (first
    | with_reducible assumption
    | (with_reducible refine portMod_touches ?_ rfl)
    | (with_reducible refine removeParked_touches ?_ rfl))

theorem linkReset_touches {port : ℕ} {cause : KxCause} {fresh : Bool} (h : Touches M s0 s)
    (w : Mask.le Mask.injectOn M = true) : Touches M s0 (linkReset s port cause fresh) := by
  refine h.trans (Touches.mono ?_ w)
  have h0 := Touches.refl Mask.injectOn s
  clear h w
  unfold linkReset
  repeat' (first
    | with_reducible assumption
    | (with_reducible refine portMod_touches ?_ rfl)
    | (with_reducible refine portOut_touches ?_ rfl)
    | split)

theorem resetFailed_touches {port : ℕ} {cause : Option KxCause} (h : Touches M s0 s)
    (w : Mask.le Mask.injectOn M = true) : Touches M s0 (resetFailed s port cause) := by
  refine h.trans (Touches.mono ?_ w)
  have h0 := Touches.refl Mask.injectOn s
  clear h w
  unfold resetFailed
  repeat' (first
    | with_reducible assumption
    | (with_reducible refine portMod_touches ?_ rfl)
    | (with_reducible refine portOut_touches ?_ rfl)
    | with_reducible apply touches_ite)

theorem resetFor_touches {port : ℕ} {c : KxCause} (h : Touches M s0 s) (w : Mask.le Mask.injectOn M = true) :
    Touches M s0 (resetFor s port c) := by
  refine h.trans (Touches.mono ?_ w)
  have h0 := Touches.refl Mask.injectOn s
  clear h w
  unfold resetFor
  repeat' (first
    | with_reducible assumption
    | (with_reducible refine linkReset_touches ?_ rfl))

theorem settlePort_touches {port : ℕ} {r : Port × Option KxCause} (h : Touches M s0 s)
    (w : Mask.le Mask.injectOn M = true) : Touches M s0 (settlePort s port r) := by
  refine h.trans (Touches.mono ?_ w)
  have h0 := Touches.refl Mask.injectOn s
  clear h w
  unfold settlePort
  repeat' (first
    | with_reducible assumption
    | ((try lift_lets); intro x; first
        | (refine (fun (hx : Touches Mask.injectOn s x) => ?_) ?_ <;> [clear_value x; (unfold x; clear x)])
        | clear_value x)
    | (with_reducible refine portSet_touches ?_ rfl)
    | (with_reducible refine resetFor_touches ?_ rfl)
    | with_reducible apply touches_ite
    | (with_reducible refine touches_foldl ?_ (fun _ _ _ => ?_))
    | (with_reducible refine touches_foldl_fst ?_ (fun _ _ _ => ?_))
    | (with_reducible refine touches_foldl_snd ?_ (fun _ _ _ => ?_))
    | (fail_if_no_progress (with_reducible refine touches_mk ?_ rfl rfl))
    | (split <;> (try (rename_i e1; have e2 := congrArg Prod.fst e1; have e3 := congrArg Prod.snd e1; dsimp only at e2 e3; (try subst e2); (try subst e3)))))

theorem receiveBlock_touches {port : ℕ} {b : LaneSymbols} {clk : ℕ} (h : Touches M s0 s)
    (w : Mask.le Mask.injectOn M = true) : Touches M s0 (receiveBlock s port b clk) := by
  refine h.trans (Touches.mono ?_ w)
  have h0 := Touches.refl Mask.injectOn s
  clear h w
  unfold receiveBlock
  repeat' (first
    | with_reducible assumption
    | ((try lift_lets); intro x; first
        | clear_value x)
    | (with_reducible refine settlePort_touches ?_ rfl)
    | split)

theorem laneBlocks_touches {port lanes : ℕ} {f : Flit} (h : Touches M s0 s)
    (w : Mask.le { ports := true, out := true } M = true) : Touches M s0 (laneBlocks s port lanes f) := by
  refine h.trans (Touches.mono ?_ w)
  have h0 := Touches.refl { ports := true, out := true } s
  clear h w
  unfold laneBlocks
  repeat' (first
    | with_reducible assumption
    | (with_reducible refine emit_touches ?_ rfl)
    | (with_reducible refine portSet_touches ?_ rfl))

theorem dataFlit_touches {port : ℕ} {p : Port} {f : Flit} (h : Touches M s0 s)
    (w : Mask.le { ports := true, out := true } M = true) : Touches M s0 (dataFlit s port p f) := by
  refine h.trans (Touches.mono ?_ w)
  have h0 := Touches.refl { ports := true, out := true } s
  clear h w
  unfold dataFlit
  repeat' (first
    | with_reducible assumption
    | ((try lift_lets); intro x; first
        | (refine (fun (hx : Touches { ports := true, out := true } s x) => ?_) ?_ <;> [clear_value x; (unfold x; clear x)])
        | clear_value x)
    | (with_reducible refine emit_touches ?_ rfl)
    | (with_reducible refine portSet_touches ?_ rfl)
    | with_reducible apply touches_ite)

theorem sendInit_touches {port clk : ℕ} {r : InitRecord} (h : Touches M s0 s)
    (w : Mask.le { ports := true, out := true } M = true) : Touches M s0 (sendInit s port clk r) := by
  refine h.trans (Touches.mono ?_ w)
  have h0 := Touches.refl { ports := true, out := true } s
  clear h w
  unfold sendInit
  repeat' (first
    | with_reducible assumption
    | ((try lift_lets); intro x; first
        | (refine (fun (hx : Touches { ports := true, out := true } s x) => ?_) ?_ <;> [clear_value x; (unfold x; clear x)])
        | clear_value x)
    | (with_reducible refine laneBlocks_touches ?_ rfl)
    | (with_reducible refine portMod_touches ?_ rfl))

theorem sendSlot_touches {port clk : ℕ} (h : Touches M s0 s) (w : Mask.le { ports := true, out := true } M = true) :
    Touches M s0 (sendSlot s port clk) := by
  refine h.trans (Touches.mono ?_ w)
  have h0 := Touches.refl { ports := true, out := true } s
  clear h w
  unfold sendSlot
  repeat' (first
    | with_reducible assumption
    | ((try lift_lets); intro x; first
        | clear_value x)
    | (with_reducible refine dataFlit_touches ?_ rfl)
    | (with_reducible refine laneBlocks_touches ?_ rfl)
    | (with_reducible refine sendInit_touches ?_ rfl)
    | with_reducible apply touches_ite
    | (with_reducible refine touches_foldl ?_ (fun _ _ _ => ?_))
    | (with_reducible refine touches_foldl_fst ?_ (fun _ _ _ => ?_))
    | (with_reducible refine touches_foldl_snd ?_ (fun _ _ _ => ?_))
    | (fail_if_no_progress (with_reducible refine touches_mk ?_ rfl rfl))
    | (split <;> (try (rename_i e1; have e2 := congrArg Prod.fst e1; have e3 := congrArg Prod.snd e1; dsimp only at e2 e3; (try subst e2); (try subst e3)))))

theorem receiveRecord_touches {port : ℕ} {r : InitRecord} (h : Touches M s0 s) (w : Mask.le Mask.injectOn M = true)
    : Touches M s0 (receiveRecord s port r) := by
  refine h.trans (Touches.mono ?_ w)
  have h0 := Touches.refl Mask.injectOn s
  clear h w
  unfold receiveRecord
  repeat' (first
    | with_reducible assumption
    | ((try lift_lets); intro x; first
        | (refine (fun (hx : Touches Mask.injectOn s x) => ?_) ?_ <;> [clear_value x; (unfold x; clear x)])
        | clear_value x)
    | (with_reducible refine portMod_touches ?_ rfl)
    | (with_reducible refine portOut_touches ?_ rfl)
    | (with_reducible refine resetFailed_touches ?_ rfl)
    | with_reducible apply touches_ite
    | (with_reducible refine touches_foldl ?_ (fun _ _ _ => ?_))
    | (with_reducible refine touches_foldl_fst ?_ (fun _ _ _ => ?_))
    | (with_reducible refine touches_foldl_snd ?_ (fun _ _ _ => ?_))
    | (fail_if_no_progress (with_reducible refine touches_mk ?_ rfl rfl))
    | (split <;> (try (rename_i e1; have e2 := congrArg Prod.fst e1; have e3 := congrArg Prod.snd e1; dsimp only at e2 e3; (try subst e2); (try subst e3)))))

theorem receiveInit_touches {port : ℕ} {f : Flit} (h : Touches M s0 s) (w : Mask.le Mask.injectOn M = true) :
    Touches M s0 (receiveInit s port f) := by
  refine h.trans (Touches.mono ?_ w)
  have h0 := Touches.refl Mask.injectOn s
  clear h w
  unfold receiveInit
  repeat' (first
    | with_reducible assumption
    | (((try lift_lets); intro x); (refine (fun (hx : Touches Mask.injectOn s x) => ?_) ?_ <;> [clear_value x; (unfold x; clear x)]))
    | (with_reducible refine portSet_touches ?_ rfl)
    | (with_reducible refine receiveRecord_touches ?_ rfl)
    | (with_reducible refine settlePort_touches ?_ rfl)
    | with_reducible apply touches_ite
    | split)

theorem retrain_touches {port : ℕ} (h : Touches M s0 s) (w : Mask.le Mask.injectOn M = true) : Touches M s0 (retrain
    s port) := by
  refine h.trans (Touches.mono ?_ w)
  have h0 := Touches.refl Mask.injectOn s
  clear h w
  unfold retrain
  repeat' (first
    | with_reducible assumption
    | (with_reducible refine linkReset_touches ?_ rfl)
    | (with_reducible refine portMod_touches ?_ rfl))

theorem freshReset_touches {port : ℕ} (h : Touches M s0 s) (w : Mask.le Mask.injectOn M = true) :
    Touches M s0 (freshReset s port) := by
  refine h.trans (Touches.mono ?_ w)
  have h0 := Touches.refl Mask.injectOn s
  clear h w
  unfold freshReset
  repeat' (first
    | with_reducible assumption
    | (with_reducible refine linkReset_touches ?_ rfl)
    | split)

theorem clearPort_touches {port : ℕ} (h : Touches M s0 s) (w : Mask.le { ports := true } M = true) :
    Touches M s0 (clearPort s port) :=
  h.trans (Touches.mono ⟨rfl, id⟩ w)

theorem writeHold_touches {port : ℕ} {v : Bool} (h : Touches M s0 s) (w : Mask.le Mask.injectOn M = true) :
    Touches M s0 (writeHold s port v) := by
  refine h.trans (Touches.mono ?_ w)
  have h0 := Touches.refl Mask.injectOn s
  clear h w
  unfold writeHold
  repeat' (first
    | with_reducible assumption
    | (((try lift_lets); intro x); (refine (fun (hx : Touches Mask.injectOn s x) => ?_) ?_ <;> [clear_value x; (unfold x; clear x)]))
    | (with_reducible refine linkReset_touches ?_ rfl)
    | (with_reducible refine portMod_touches ?_ rfl)
    | (with_reducible refine portOut_touches ?_ rfl)
    | with_reducible apply touches_ite)

theorem pruneLanes_touches {port lanes : ℕ} (h : Touches M s0 s) (w : Mask.le { ports := true } M = true) :
    Touches M s0 (pruneLanes s port lanes) := by
  refine h.trans (Touches.mono ?_ w)
  have h0 := Touches.refl { ports := true } s
  clear h w
  unfold pruneLanes
  repeat' (first
    | with_reducible assumption
    | (with_reducible refine portMod_touches ?_ rfl)
    | split)

theorem restoreLanes_touches {port lanes : ℕ} (h : Touches M s0 s) (w : Mask.le { ports := true } M = true) :
    Touches M s0 (restoreLanes s port lanes) :=
  h.trans (Touches.mono ⟨rfl, id⟩ w)

theorem tickLanes_touches {port : ℕ} (h : Touches M s0 s) (w : Mask.le { ports := true } M = true) :
    Touches M s0 (tickLanes s port) := by
  refine h.trans (Touches.mono ?_ w)
  have h0 := Touches.refl { ports := true } s
  clear h w
  unfold tickLanes
  repeat' (first
    | with_reducible assumption
    | (((try lift_lets); intro x); (refine (fun (hx : Touches { ports := true } s x) => ?_) ?_ <;> [clear_value x; (unfold x; clear x)]))
    | (with_reducible refine portSet_touches ?_ rfl)
    | (with_reducible refine pruneLanes_touches ?_ rfl))

theorem tickCredits_touches {port : ℕ} (h : Touches M s0 s) (w : Mask.le { ports := true } M = true) :
    Touches M s0 (tickCredits s port) := by
  refine h.trans (Touches.mono ?_ w)
  have h0 := Touches.refl { ports := true } s
  clear h w
  unfold tickCredits
  repeat' (first
    | with_reducible assumption
    | (with_reducible refine portMod_touches ?_ rfl)
    | split)

theorem tickGraftLane_touches {port : ℕ} (h : Touches M s0 s) (w : Mask.le Mask.injectOn M = true) :
    Touches M s0 (tickGraftLane s port) := by
  refine h.trans (Touches.mono ?_ w)
  have h0 := Touches.refl Mask.injectOn s
  clear h w
  unfold tickGraftLane
  repeat' (first
    | with_reducible assumption
    | (with_reducible refine resetFor_touches ?_ rfl)
    | with_reducible apply touches_ite)

end Sys2Proof.Machine
end

