-- ==== Sys2Proof/Laws/TouchesHome.lean ====
section
/-! SUPPORT. What the operations of Machine/Home.lean may change. -/

namespace Sys2Proof.Machine

variable {M : Mask} {s0 s t : State}

/-- What `sendTwin` may change. -/
abbrev Mask.sendTwin : Mask :=
  { parts := true, ports := true, fab := true, twn := true }

theorem sendTwin_touches {r : RegionRec} {pkt : Packet} (h : Touches M s0 s) (w : Mask.le Mask.sendTwin M = true) :
    Touches M s0 (sendTwin s r pkt) := by
  refine h.trans (Touches.mono ?_ w)
  have h0 := Touches.refl Mask.sendTwin s
  clear h w
  unfold sendTwin
  repeat' (first
    | with_reducible assumption
    | (with_reducible refine inject_touches ?_ rfl)
    | with_reducible apply touches_ite
    | (fail_if_no_progress (with_reducible refine touches_mk ?_ rfl rfl)))

theorem mirrorWrite_touches {r : RegionRec} {seq : BitVec 32} {addr : ℕ} {bs : List Byte} (h : Touches M s0 s)
    (w : Mask.le Mask.sendTwin M = true) : Touches M s0 (mirrorWrite s r seq addr bs) := by
  refine h.trans (Touches.mono ?_ w)
  have h0 := Touches.refl Mask.sendTwin s
  clear h w
  unfold mirrorWrite
  repeat' (first
    | with_reducible assumption
    | (with_reducible refine sendTwin_touches ?_ rfl))

theorem mirrorAt_touches {always : Bool} {seq : BitVec 32} {p off : ℕ} {bs : List Byte} (h : Touches M s0 s)
    (w : Mask.le Mask.sendTwin M = true) : Touches M s0 (mirrorAt s always seq p off bs) := by
  refine h.trans (Touches.mono ?_ w)
  have h0 := Touches.refl Mask.sendTwin s
  clear h w
  unfold mirrorAt
  repeat' (first
    | with_reducible assumption
    | (with_reducible refine mirrorWrite_touches ?_ rfl)
    | split)

theorem reply_touches {v : Service} {a : Ans} (h : Touches M s0 s) (w : Mask.le Mask.finish M = true) :
    Touches M s0 (reply s v a) := by
  refine h.trans (Touches.mono ?_ w)
  have h0 := Touches.refl Mask.finish s
  clear h w
  unfold reply
  repeat' (first
    | with_reducible assumption
    | ((try lift_lets); intro x; clear_value x)
    | (with_reducible refine finish_touches ?_ rfl)
    | (fail_if_no_progress (with_reducible refine touches_mk ?_ rfl rfl))
    | split)

theorem sendHeldBack_touches (h : Touches M s0 s) (w : Mask.le Mask.finish M = true) : Touches M s0 (sendHeldBack s)
    := by
  refine h.trans (Touches.mono ?_ w)
  have h0 := Touches.refl Mask.finish s
  clear h w
  unfold sendHeldBack
  repeat' (first
    | with_reducible assumption
    | (with_reducible refine finish_touches ?_ rfl)
    | (with_reducible refine touches_foldl ?_ (fun _ _ _ => ?_))
    | (fail_if_no_progress (with_reducible refine touches_mk ?_ rfl rfl)))

theorem stopTwinPackets_touches (h : Touches M s0 s) (w : Mask.le { twn := true } M = true) :
    Touches M s0 (stopTwinPackets s) :=
  h.trans (Touches.mono ⟨rfl, id⟩ w)

theorem feedAgain_touches (h : Touches M s0 s) (w : Mask.le Mask.finish M = true) : Touches M s0 (feedAgain s) := by
  refine h.trans (Touches.mono ?_ w)
  have h0 := Touches.refl Mask.finish s
  clear h w
  unfold feedAgain
  repeat' (first
    | with_reducible assumption
    | ((try lift_lets); intro x; first
        | (refine (fun (hx : Touches Mask.finish s x) => ?_) ?_ <;> [clear_value x; (unfold x; clear x)])
        | clear_value x)
    | (with_reducible refine sendHeldBack_touches ?_ rfl)
    | (with_reducible refine stopTwinPackets_touches ?_ rfl)
    | with_reducible apply touches_ite
    | (with_reducible refine touches_foldl ?_ (fun _ _ _ => ?_))
    | (with_reducible refine touches_foldl_fst ?_ (fun _ _ _ => ?_))
    | (with_reducible refine touches_foldl_snd ?_ (fun _ _ _ => ?_))
    | (fail_if_no_progress (with_reducible refine touches_mk ?_ rfl rfl)))

theorem dropSvc_touches {ticket : ℕ} (h : Touches M s0 s) (w : Mask.le { svc := true } M = true) :
    Touches M s0 (dropSvc s ticket) :=
  h.trans (Touches.mono ⟨rfl, id⟩ w)

theorem entryClean_touches {sl a : ℕ} (h : Touches M s0 s) (w : Mask.le { stk := true, di := true } M = true) :
    Touches M s0 (entryClean s sl a) := by
  refine h.trans (Touches.mono ?_ w)
  have h0 := Touches.refl { stk := true, di := true } s
  clear h w
  unfold entryClean
  repeat' (first
    | with_reducible assumption
    | (with_reducible refine injectFlips_touches ?_ rfl)
    | (with_reducible refine markSet_touches ?_ rfl))

/-- What `dirSet` may change. -/
abbrev Mask.dirSet : Mask :=
  { coh := true, stk := true, di := true }

theorem dirSet_touches {line : ℕ} {y_2 : DirEntry} (h : Touches M s0 s) (w : Mask.le Mask.dirSet M = true) :
    Touches M s0 (dirSet s line y_2) := by
  refine h.trans (Touches.mono ?_ w)
  have h0 := Touches.refl Mask.dirSet s
  clear h w
  unfold dirSet
  repeat' (first
    | with_reducible assumption
    | ((try lift_lets); intro x; first
        | (refine (fun (hx : Touches Mask.dirSet s x) => ?_) ?_ <;> [clear_value x; (unfold x; clear x)])
        | clear_value x)
    | (with_reducible refine entryClean_touches ?_ rfl)
    | with_reducible apply touches_ite
    | (with_reducible refine touches_foldl ?_ (fun _ _ _ => ?_))
    | (with_reducible refine touches_foldl_fst ?_ (fun _ _ _ => ?_))
    | (with_reducible refine touches_foldl_snd ?_ (fun _ _ _ => ?_))
    | (fail_if_no_progress (with_reducible refine touches_mk ?_ rfl rfl))
    | (split <;> (try (rename_i e1; have e2 := congrArg Prod.fst e1; have e3 := congrArg Prod.snd e1; dsimp only at e2 e3; (try subst e2); (try subst e3)))))

theorem halfMod_touches {y_1 : ℕ} {f : CohHalf → CohHalf} (h : Touches M s0 s)
    (w : Mask.le { coh := true } M = true) : Touches M s0 (halfMod s y_1 f) :=
  h.trans (Touches.mono ⟨rfl, id⟩ w)

theorem proto_touches {y_1 : ℕ} (h : Touches M s0 s) (w : Mask.le { coh := true } M = true) : Touches M s0 (proto s
    y_1) :=
  h.trans (Touches.mono ⟨rfl, id⟩ w)

theorem cachePut_touches {half line : ℕ} {l : List (ℕ × ℕ)} (h : Touches M s0 s)
    (w : Mask.le { coh := true } M = true) : Touches M s0 (cachePut s half line l) := by
  refine h.trans (Touches.mono ?_ w)
  have h0 := Touches.refl { coh := true } s
  clear h w
  unfold cachePut
  repeat' (first
    | with_reducible assumption
    | ((try lift_lets); intro x; first
        | clear_value x)
    | with_reducible apply touches_ite
    | (with_reducible refine touches_foldl ?_ (fun _ _ _ => ?_))
    | (with_reducible refine touches_foldl_fst ?_ (fun _ _ _ => ?_))
    | (with_reducible refine touches_foldl_snd ?_ (fun _ _ _ => ?_))
    | (fail_if_no_progress (with_reducible refine touches_mk ?_ rfl rfl)))

/-- What `enterP` may change. -/
abbrev Mask.enterP : Mask :=
  { parts := true, coh := true, stk := true, di := true }

theorem enterP_touches {half p line pool : ℕ} (h : Touches M s0 s) (w : Mask.le Mask.enterP M = true) :
    Touches M s0 (enterP s half p line pool) := by
  refine h.trans (Touches.mono ?_ w)
  have h0 := Touches.refl Mask.enterP s
  clear h w
  unfold enterP
  repeat' (first
    | with_reducible assumption
    | ((try lift_lets); intro x; first
        | (refine (fun (hx : Touches Mask.enterP s x) => ?_) ?_ <;> [clear_value x; (unfold x; clear x)])
        | clear_value x)
    | (with_reducible refine dirSet_touches ?_ rfl)
    | (with_reducible refine halfMod_touches ?_ rfl)
    | (with_reducible refine partCnt_touches ?_ rfl))

/-- What `readBacking` may change. -/
abbrev Mask.readBacking : Mask :=
  { parts := true, coh := true, stk := true, di := true, free := true }

theorem readBacking_touches {half line pool : ℕ} (h : Touches M s0 s) (w : Mask.le Mask.readBacking M = true) :
    Touches M s0 (readBacking s half line pool) := by
  refine h.trans (Touches.mono ?_ w)
  have h0 := Touches.refl Mask.readBacking s
  clear h w
  unfold readBacking
  repeat' (first
    | with_reducible assumption
    | ((try lift_lets); intro x; first
        | clear_value x)
    | (with_reducible refine dirSet_touches ?_ rfl)
    | (with_reducible refine drawFree_touches ?_ rfl)
    | (with_reducible refine enterP_touches ?_ rfl)
    | (with_reducible refine readColumn_touches ?_ rfl)
    | with_reducible apply touches_ite
    | (with_reducible refine touches_foldl ?_ (fun _ _ _ => ?_))
    | (with_reducible refine touches_foldl_fst ?_ (fun _ _ _ => ?_))
    | (with_reducible refine touches_foldl_snd ?_ (fun _ _ _ => ?_))
    | (fail_if_no_progress (with_reducible refine touches_mk ?_ rfl rfl))
    | (split <;> (try (rename_i e1; have e2 := congrArg Prod.fst e1; have e3 := congrArg Prod.snd e1; dsimp only at e2 e3; (try subst e2); (try subst e3)))))

theorem trafficMod_touches {half p : ℕ} {f : CohHalf → CohHalf} (h : Touches M s0 s)
    (w : Mask.le { coh := true } M = true) : Touches M s0 (trafficMod s half p f) := by
  refine h.trans (Touches.mono ?_ w)
  have h0 := Touches.refl { coh := true } s
  clear h w
  unfold trafficMod
  repeat' (first
    | with_reducible assumption
    | (with_reducible refine halfMod_touches ?_ rfl)
    | with_reducible apply touches_ite)

theorem readEntry_touches {half line pool : ℕ} (h : Touches M s0 s) (w : Mask.le Mask.readBacking M = true) :
    Touches M s0 (readEntry s half line pool) := by
  refine h.trans (Touches.mono ?_ w)
  have h0 := Touches.refl Mask.readBacking s
  clear h w
  unfold readEntry
  repeat' (first
    | with_reducible assumption
    | ((try lift_lets); intro x; first
        | (refine (fun (hx : Touches Mask.readBacking s x) => ?_) ?_ <;> [clear_value x; (unfold x; clear x)])
        | clear_value x)
    | (with_reducible refine cachePut_touches ?_ rfl)
    | (with_reducible refine enterP_touches ?_ rfl)
    | (with_reducible refine proto_touches ?_ rfl)
    | (with_reducible refine readBacking_touches ?_ rfl)
    | (with_reducible refine trafficMod_touches ?_ rfl)
    | with_reducible apply touches_ite
    | (with_reducible refine touches_foldl ?_ (fun _ _ _ => ?_))
    | (with_reducible refine touches_foldl_fst ?_ (fun _ _ _ => ?_))
    | (with_reducible refine touches_foldl_snd ?_ (fun _ _ _ => ?_))
    | (fail_if_no_progress (with_reducible refine touches_mk ?_ rfl rfl))
    | (split <;> (try (rename_i e1; have e2 := congrArg Prod.fst e1; have e3 := congrArg Prod.snd e1; dsimp only at e2 e3; (try subst e2); (try subst e3)))))

theorem takeWay_touches {half line : ℕ} (h : Touches M s0 s) (w : Mask.le { coh := true } M = true) :
    Touches M s0 (takeWay s half line).1 := by
  refine h.trans (Touches.mono ?_ w)
  have h0 := Touches.refl { coh := true } s
  clear h w
  unfold takeWay
  repeat' (first
    | with_reducible assumption
    | ((try lift_lets); intro x; first
        | (have _ := fun a => x a; dsimp only [x]; clear x)
        | clear_value x)
    | (with_reducible refine cachePut_touches ?_ rfl)
    | with_reducible apply touches_ite
    | (with_reducible refine touches_foldl ?_ (fun _ _ _ => ?_))
    | (with_reducible refine touches_foldl_fst ?_ (fun _ _ _ => ?_))
    | (with_reducible refine touches_foldl_snd ?_ (fun _ _ _ => ?_))
    | (fail_if_no_progress (with_reducible refine touches_mk ?_ rfl rfl))
    | (split <;> (try (rename_i e1; have e2 := congrArg Prod.fst e1; have e3 := congrArg Prod.snd e1; dsimp only at e2 e3; (try subst e2); (try subst e3)))))

theorem leaveWay_touches {half line : ℕ} (h : Touches M s0 s) (w : Mask.le { coh := true } M = true) :
    Touches M s0 (leaveWay s half line) := by
  refine h.trans (Touches.mono ?_ w)
  have h0 := Touches.refl { coh := true } s
  clear h w
  unfold leaveWay
  repeat' (first
    | with_reducible assumption
    | ((try lift_lets); intro x; first
        | clear_value x)
    | (with_reducible refine cachePut_touches ?_ rfl)
    | with_reducible apply touches_ite)

theorem notePeak_touches {half : ℕ} (h : Touches M s0 s) (w : Mask.le { coh := true } M = true) :
    Touches M s0 (notePeak s half) :=
  h.trans (Touches.mono ⟨rfl, id⟩ w)

/-- What `endJob` may change. -/
abbrev Mask.endJob : Mask :=
  { parts := true, flows := true, ports := true, fab := true, coh := true, di := true, eth := true, sec := true,
    twn := true, svc := true, out := true }

theorem endJob_touches {j : LineJob} {st : Status} {bs : List Byte} {hint : optParam ℕ 1} (h : Touches M s0 s)
    (w : Mask.le Mask.endJob M = true) : Touches M s0 (endJob s j st bs hint) := by
  refine h.trans (Touches.mono ?_ w)
  have h0 := Touches.refl Mask.endJob s
  clear h w
  unfold endJob
  repeat' (first
    | with_reducible assumption
    | (((try lift_lets); intro x); (refine (fun (hx : Touches Mask.endJob s x) => ?_) ?_ <;> [clear_value x; (unfold x; clear x)]))
    | (with_reducible refine countPoison_touches ?_ rfl)
    | (with_reducible refine gather_touches ?_ rfl)
    | (with_reducible refine reply_touches ?_ rfl)
    | split)

theorem retryJob_touches {half : ℕ} {full : Bool} {j : LineJob} (h : Touches M s0 s)
    (w : Mask.le Mask.endJob M = true) : Touches M s0 (retryJob s half full j) := by
  refine h.trans (Touches.mono ?_ w)
  have h0 := Touches.refl Mask.endJob s
  clear h w
  unfold retryJob
  repeat' (first
    | with_reducible assumption
    | ((try lift_lets); intro x; first
        | (refine (fun (hx : Touches Mask.endJob s x) => ?_) ?_ <;> [clear_value x; (unfold x; clear x)])
        | clear_value x)
    | (with_reducible refine endJob_touches ?_ rfl)
    | (with_reducible refine partCnt_touches ?_ rfl)
    | (with_reducible refine trafficMod_touches ?_ rfl)
    | with_reducible apply touches_ite
    | (with_reducible refine touches_foldl ?_ (fun _ _ _ => ?_))
    | (with_reducible refine touches_foldl_fst ?_ (fun _ _ _ => ?_))
    | (with_reducible refine touches_foldl_snd ?_ (fun _ _ _ => ?_))
    | (fail_if_no_progress (with_reducible refine touches_mk ?_ rfl rfl)))

theorem homeRead_touches {source sl a : ℕ} (h : Touches M s0 s) (w : Mask.le Mask.countCorrected M = true) :
    Touches M s0 (homeRead s source sl a).1 := by
  refine h.trans (Touches.mono ?_ w)
  have h0 := Touches.refl Mask.countCorrected s
  clear h w
  unfold homeRead
  repeat' (first
    | with_reducible assumption
    | (with_reducible refine readLine_touches ?_ rfl))

/-- What `homeWrite` may change. -/
abbrev Mask.homeWrite : Mask :=
  { parts := true, ports := true, fab := true, stk := true, di := true, twn := true, dram := true }

theorem homeWrite_touches {source p off sl a : ℕ} {seq : BitVec 32} {bs : List Byte} {bad : optParam (List ℕ) []}
    (h : Touches M s0 s) (w : Mask.le Mask.homeWrite M = true) : Touches M s0 (homeWrite s source p off sl a seq bs
    bad).1 := by
  refine h.trans (Touches.mono ?_ w)
  have h0 := Touches.refl Mask.homeWrite s
  clear h w
  unfold homeWrite
  repeat' (first
    | with_reducible assumption
    | (with_reducible refine mirrorAt_touches ?_ rfl)
    | (with_reducible refine writeLine_touches ?_ rfl)
    | (split <;> (try (rename_i e1; have e2 := congrArg Prod.fst e1; have e3 := congrArg Prod.snd e1; dsimp only at e2 e3; (try subst e2); (try subst e3)))))

/-- What `ownWrite` may change. -/
abbrev Mask.ownWrite : Mask :=
  { parts := true, flows := true, ports := true, fab := true, coh := true, stk := true, di := true, eth := true,
    sec := true, twn := true, svc := true, out := true, dram := true }

theorem ownWrite_touches {j : LineJob} {sl a : ℕ} (h : Touches M s0 s) (w : Mask.le Mask.ownWrite M = true) :
    Touches M s0 (ownWrite s j sl a) := by
  refine h.trans (Touches.mono ?_ w)
  have h0 := Touches.refl Mask.ownWrite s
  clear h w
  unfold ownWrite
  repeat' (first
    | with_reducible assumption
    | (with_reducible refine endJob_touches ?_ rfl)
    | (with_reducible refine homeWrite_touches ?_ rfl)
    | (with_reducible refine readLine_touches ?_ rfl)
    | with_reducible apply touches_ite)

theorem sendSnoop_touches {o : Op} {p agent line seq arg aux : ℕ} (h : Touches M s0 s)
    (w : Mask.le Mask.injectOn M = true) : Touches M s0 (sendSnoop s o p agent line seq arg aux) := by
  refine h.trans (Touches.mono ?_ w)
  have h0 := Touches.refl Mask.injectOn s
  clear h w
  unfold sendSnoop
  repeat' (first
    | with_reducible assumption
    | (with_reducible refine inject_touches ?_ rfl))

theorem snoopTag_touches {j : LineJob} (h : Touches M s0 s) (w : Mask.le { free := true } M = true) :
    Touches M s0 (snoopTag s j).1 := by
  refine h.trans (Touches.mono ?_ w)
  have h0 := Touches.refl { free := true } s
  clear h w
  unfold snoopTag
  repeat' (first
    | with_reducible assumption
    | (with_reducible refine drawFree_touches ?_ rfl)
    | split)

theorem openTxn_touches {y_1 : Txn} (h : Touches M s0 s) (w : Mask.le { coh := true } M = true) :
    Touches M s0 (openTxn s y_1) :=
  h.trans (Touches.mono ⟨rfl, id⟩ w)

theorem putTxn_touches {y_1 : Txn} (h : Touches M s0 s) (w : Mask.le { coh := true } M = true) :
    Touches M s0 (putTxn s y_1) :=
  h.trans (Touches.mono ⟨rfl, id⟩ w)

theorem dropTxn_touches {id : ℕ} (h : Touches M s0 s) (w : Mask.le { coh := true } M = true) : Touches M s0 (dropTxn
    s id) := by
  refine h.trans (Touches.mono ?_ w)
  have h0 := Touches.refl { coh := true } s
  clear h w
  unfold dropTxn
  repeat' (first
    | with_reducible assumption
    | (fail_if_no_progress (with_reducible refine touches_mk ?_ rfl rfl)))

theorem toBusy_touches {y_1 : Txn} {b : Busy} (h : Touches M s0 s) (w : Mask.le { coh := true } M = true) :
    Touches M s0 (toBusy s y_1 b) :=
  h.trans (Touches.mono ⟨rfl, id⟩ w)

/-- What `grantData` may change. -/
abbrev Mask.grantData : Mask :=
  { parts := true, flows := true, ports := true, fab := true, coh := true, stk := true, di := true, eth := true,
    sec := true, twn := true, svc := true, out := true }

theorem grantData_touches {y_1 : Txn} {j : LineJob} {x : Bool} (h : Touches M s0 s)
    (w : Mask.le Mask.grantData M = true) : Touches M s0 (grantData s y_1 j x).1 := by
  refine h.trans (Touches.mono ?_ w)
  have h0 := Touches.refl Mask.grantData s
  clear h w
  unfold grantData
  repeat' (first
    | with_reducible assumption
    | (with_reducible refine dirSet_touches ?_ rfl)
    | (with_reducible refine endJob_touches ?_ rfl)
    | (with_reducible refine homeRead_touches ?_ rfl)
    | (with_reducible refine toBusy_touches ?_ rfl)
    | (split <;> (try (rename_i e1; have e2 := congrArg Prod.fst e1; have e3 := congrArg Prod.snd e1; dsimp only at e2 e3; (try subst e2); (try subst e3)))))

theorem releaseOwed_touches {y_1 : Txn} {who : ℕ → Bool} (h : Touches M s0 s) (w : Mask.le Mask.finish M = true) :
    Touches M s0 (releaseOwed s y_1 who).1 := by
  refine h.trans (Touches.mono ?_ w)
  have h0 := Touches.refl Mask.finish s
  clear h w
  unfold releaseOwed
  repeat' (first
    | with_reducible assumption
    | (with_reducible refine dropSvc_touches ?_ rfl)
    | (with_reducible refine reply_touches ?_ rfl)
    | (with_reducible refine touches_foldl ?_ (fun _ _ _ => ?_))
    | split)

theorem treatStable_touches {half p line j : ℕ} (h : Touches M s0 s) (w : Mask.le Mask.enterP M = true) :
    Touches M s0 (treatStable s half p line j).1 := by
  refine h.trans (Touches.mono ?_ w)
  have h0 := Touches.refl Mask.enterP s
  clear h w
  unfold treatStable
  repeat' (first
    | with_reducible assumption
    | ((try lift_lets); intro x; clear_value x)
    | (with_reducible refine dirSet_touches ?_ rfl)
    | (with_reducible refine enterP_touches ?_ rfl)
    | split)

/-- What `openRecovery` may change. -/
abbrev Mask.openRecovery : Mask :=
  { parts := true, ports := true, fab := true, coh := true, stk := true, di := true, free := true }

theorem openRecovery_touches {half p line j : ℕ} (h : Touches M s0 s) (w : Mask.le Mask.openRecovery M = true) :
    Touches M s0 (openRecovery s half p line j) := by
  refine h.trans (Touches.mono ?_ w)
  have h0 := Touches.refl Mask.openRecovery s
  clear h w
  unfold openRecovery
  repeat' (first
    | with_reducible assumption
    | ((try lift_lets); intro x; clear_value x)
    | (with_reducible refine dirSet_touches ?_ rfl)
    | (with_reducible refine drawFree_touches ?_ rfl)
    | (with_reducible refine enterP_touches ?_ rfl)
    | (with_reducible refine openTxn_touches ?_ rfl)
    | (with_reducible refine sendSnoop_touches ?_ rfl)
    | split)

theorem endSweep_touches {p : ℕ} (h : Touches M s0 s) (w : Mask.le { parts := true } M = true) :
    Touches M s0 (endSweep s p) := by
  refine h.trans (Touches.mono ?_ w)
  have h0 := Touches.refl { parts := true } s
  clear h w
  unfold endSweep
  repeat' (first
    | with_reducible assumption
    | (with_reducible refine partMod_touches ?_ rfl)
    | split)

theorem sweptLine_touches {p line : ℕ} (h : Touches M s0 s) (w : Mask.le { parts := true, coh := true } M = true) :
    Touches M s0 (sweptLine s p line) := by
  refine h.trans (Touches.mono ?_ w)
  have h0 := Touches.refl { parts := true, coh := true } s
  clear h w
  unfold sweptLine
  repeat' (first
    | with_reducible assumption
    | ((try lift_lets); intro x; first
        | clear_value x)
    | (with_reducible refine endSweep_touches ?_ rfl)
    | with_reducible apply touches_ite
    | (with_reducible refine touches_foldl ?_ (fun _ _ _ => ?_))
    | (with_reducible refine touches_foldl_fst ?_ (fun _ _ _ => ?_))
    | (with_reducible refine touches_foldl_snd ?_ (fun _ _ _ => ?_))
    | (fail_if_no_progress (with_reducible refine touches_mk ?_ rfl rfl)))

theorem touchLine_touches {line pool : ℕ} (h : Touches M s0 s) (w : Mask.le Mask.openRecovery M = true) :
    Touches M s0 (touchLine s line pool) := by
  refine h.trans (Touches.mono ?_ w)
  have h0 := Touches.refl Mask.openRecovery s
  clear h w
  unfold touchLine
  repeat' (first
    | with_reducible assumption
    | ((try lift_lets); intro x; first
        | (refine (fun (hx : Touches Mask.openRecovery s x) => ?_) ?_ <;> [clear_value x; (unfold x; clear x)])
        | clear_value x)
    | (with_reducible refine openRecovery_touches ?_ rfl)
    | (with_reducible refine readEntry_touches ?_ rfl)
    | (with_reducible refine sweptLine_touches ?_ rfl)
    | (with_reducible refine treatStable_touches ?_ rfl)
    | with_reducible apply touches_ite
    | (with_reducible refine touches_foldl ?_ (fun _ _ _ => ?_))
    | (with_reducible refine touches_foldl_fst ?_ (fun _ _ _ => ?_))
    | (with_reducible refine touches_foldl_snd ?_ (fun _ _ _ => ?_))
    | (fail_if_no_progress (with_reducible refine touches_mk ?_ rfl rfl))
    | (split <;> (try (rename_i e1; have e2 := congrArg Prod.fst e1; have e3 := congrArg Prod.snd e1; dsimp only at e2 e3; (try subst e2); (try subst e3)))))

theorem startRecovery_touches {half : ℕ} (h : Touches M s0 s) (w : Mask.le Mask.openRecovery M = true) :
    Touches M s0 (startRecovery s half) := by
  refine h.trans (Touches.mono ?_ w)
  have h0 := Touches.refl Mask.openRecovery s
  clear h w
  unfold startRecovery
  repeat' (first
    | with_reducible assumption
    | (with_reducible refine openRecovery_touches ?_ rfl)
    | (fail_if_no_progress (with_reducible refine touches_mk ?_ rfl rfl))
    | split)

theorem memoryRead_touches {j : LineJob} {sl a : ℕ} (h : Touches M s0 s) (w : Mask.le Mask.grantData M = true) :
    Touches M s0 (memoryRead s j sl a) := by
  refine h.trans (Touches.mono ?_ w)
  have h0 := Touches.refl Mask.grantData s
  clear h w
  unfold memoryRead
  repeat' (first
    | with_reducible assumption
    | (with_reducible refine endJob_touches ?_ rfl)
    | (with_reducible refine readLine_touches ?_ rfl))

theorem servePoisoned_touches {j : LineJob} {sl a : ℕ} (h : Touches M s0 s) (w : Mask.le Mask.ownWrite M = true) :
    Touches M s0 (servePoisoned s j sl a) := by
  refine h.trans (Touches.mono ?_ w)
  have h0 := Touches.refl Mask.ownWrite s
  clear h w
  unfold servePoisoned
  repeat' (first
    | with_reducible assumption
    | (with_reducible refine dirSet_touches ?_ rfl)
    | (with_reducible refine endJob_touches ?_ rfl)
    | (with_reducible refine homeRead_touches ?_ rfl)
    | (with_reducible refine ownWrite_touches ?_ rfl)
    | (with_reducible refine readLine_touches ?_ rfl)
    | split)

/-- What `makeMove` may change. -/
abbrev Mask.makeMove : Mask :=
  { parts := true, flows := true, ports := true, fab := true, coh := true, stk := true, di := true, eth := true,
    sec := true, twn := true, svc := true, out := true, free := true, dram := true }

theorem makeMove_touches {half line : ℕ} {j : LineJob} {agent : Option ℕ} {y_5 : DirEntry} {sl a : ℕ} {y_8 :
    FirstMove} (h : Touches M s0 s) (w : Mask.le Mask.makeMove M = true) : Touches M s0 (makeMove s half line j
    agent y_5 sl a y_8) := by
  refine h.trans (Touches.mono ?_ w)
  have h0 := Touches.refl Mask.makeMove s
  clear h w
  unfold makeMove
  repeat' (first
    | with_reducible assumption
    | (((try lift_lets); intro x); (refine (fun (hx : Touches Mask.makeMove s x) => ?_) ?_ <;> [clear_value x; (unfold x; clear x)]))
    | (with_reducible refine dirSet_touches ?_ rfl)
    | (with_reducible refine endJob_touches ?_ rfl)
    | (with_reducible refine homeRead_touches ?_ rfl)
    | (with_reducible refine memoryRead_touches ?_ rfl)
    | (with_reducible refine openTxn_touches ?_ rfl)
    | (with_reducible refine ownWrite_touches ?_ rfl)
    | (with_reducible refine proto_touches ?_ rfl)
    | (with_reducible refine sendSnoop_touches ?_ rfl)
    | (with_reducible refine snoopTag_touches ?_ rfl)
    | (with_reducible refine touches_foldl ?_ (fun _ _ _ => ?_))
    | (split <;> (try (rename_i e1; have e2 := congrArg Prod.fst e1; have e3 := congrArg Prod.snd e1; dsimp only at e2 e3; (try subst e2); (try subst e3)))))

theorem verify_touches {line : ℕ} (h : Touches M s0 s) (w : Mask.le { coh := true } M = true) : Touches M s0 (verify
    s line) := by
  refine h.trans (Touches.mono ?_ w)
  have h0 := Touches.refl { coh := true } s
  clear h w
  unfold verify
  repeat' (first
    | with_reducible assumption
    | (fail_if_no_progress (with_reducible refine touches_mk ?_ rfl rfl))
    | split)

/-- What `openReserve` may change. -/
abbrev Mask.openReserve : Mask :=
  { parts := true, ports := true, fab := true, coh := true, free := true }

theorem openReserve_touches {half line : ℕ} {j : LineJob} (h : Touches M s0 s)
    (w : Mask.le Mask.openReserve M = true) : Touches M s0 (openReserve s half line j) := by
  refine h.trans (Touches.mono ?_ w)
  have h0 := Touches.refl Mask.openReserve s
  clear h w
  unfold openReserve
  repeat' (first
    | with_reducible assumption
    | (with_reducible refine drawFree_touches ?_ rfl)
    | (with_reducible refine openTxn_touches ?_ rfl)
    | (with_reducible refine sendSnoop_touches ?_ rfl)
    | (with_reducible refine touches_foldl ?_ (fun _ _ _ => ?_)))

theorem serveEntry_touches {held : Bool} {half : ℕ} {j : LineJob} {agent : Option ℕ} {sl a : ℕ} (h : Touches M s0 s)
    (w : Mask.le Mask.makeMove M = true) : Touches M s0 (serveEntry s held half j agent sl a) := by
  refine h.trans (Touches.mono ?_ w)
  have h0 := Touches.refl Mask.makeMove s
  clear h w
  unfold serveEntry
  repeat' (first
    | with_reducible assumption
    | ((try lift_lets); intro x; first
        | clear_value x)
    | (with_reducible refine makeMove_touches ?_ rfl)
    | (with_reducible refine retryJob_touches ?_ rfl)
    | (with_reducible refine servePoisoned_touches ?_ rfl)
    | (with_reducible refine takeWay_touches ?_ rfl)
    | with_reducible apply touches_ite
    | (with_reducible refine touches_foldl ?_ (fun _ _ _ => ?_))
    | (with_reducible refine touches_foldl_fst ?_ (fun _ _ _ => ?_))
    | (with_reducible refine touches_foldl_snd ?_ (fun _ _ _ => ?_))
    | (fail_if_no_progress (with_reducible refine touches_mk ?_ rfl rfl))
    | (split <;> (try (rename_i e1; have e2 := congrArg Prod.fst e1; have e3 := congrArg Prod.snd e1; dsimp only at e2 e3; (try subst e2); (try subst e3)))))

theorem serveStable_touches {held : Bool} {j : LineJob} (h : Touches M s0 s) (w : Mask.le Mask.makeMove M = true) :
    Touches M s0 (serveStable s held j) := by
  refine h.trans (Touches.mono ?_ w)
  have h0 := Touches.refl Mask.makeMove s
  clear h w
  unfold serveStable
  repeat' (first
    | with_reducible assumption
    | ((try lift_lets); intro x; first
        | clear_value x)
    | (with_reducible refine dirSet_touches ?_ rfl)
    | (with_reducible refine endJob_touches ?_ rfl)
    | (with_reducible refine openReserve_touches ?_ rfl)
    | (with_reducible refine readEntry_touches ?_ rfl)
    | (with_reducible refine retryJob_touches ?_ rfl)
    | (with_reducible refine serveEntry_touches ?_ rfl)
    | (with_reducible refine takeWay_touches ?_ rfl)
    | (with_reducible refine verify_touches ?_ rfl)
    | with_reducible apply touches_ite
    | (with_reducible refine touches_foldl ?_ (fun _ _ _ => ?_))
    | (with_reducible refine touches_foldl_fst ?_ (fun _ _ _ => ?_))
    | (with_reducible refine touches_foldl_snd ?_ (fun _ _ _ => ?_))
    | (fail_if_no_progress (with_reducible refine touches_mk ?_ rfl rfl))
    | (split <;> (try (rename_i e1; have e2 := congrArg Prod.fst e1; have e3 := congrArg Prod.snd e1; dsimp only at e2 e3; (try subst e2); (try subst e3))))
    | dsimp only [id])

theorem startJob_touches {j : LineJob} (h : Touches M s0 s) (w : Mask.le Mask.makeMove M = true) :
    Touches M s0 (startJob s j) := by
  refine h.trans (Touches.mono ?_ w)
  have h0 := Touches.refl Mask.makeMove s
  clear h w
  unfold startJob
  repeat' (first
    | with_reducible assumption
    | ((try lift_lets); intro x; first
        | (refine (fun (hx : Touches Mask.makeMove s x) => ?_) ?_ <;> [clear_value x; (unfold x; clear x)])
        | clear_value x)
    | (with_reducible refine endJob_touches ?_ rfl)
    | (with_reducible refine notePeak_touches ?_ rfl)
    | (with_reducible refine putTxn_touches ?_ rfl)
    | (with_reducible refine retryJob_touches ?_ rfl)
    | (with_reducible refine serveStable_touches ?_ rfl)
    | (with_reducible refine touchLine_touches ?_ rfl)
    | with_reducible apply touches_ite
    | (with_reducible refine touches_foldl ?_ (fun _ _ _ => ?_))
    | (with_reducible refine touches_foldl_fst ?_ (fun _ _ _ => ?_))
    | (with_reducible refine touches_foldl_snd ?_ (fun _ _ _ => ?_))
    | (fail_if_no_progress (with_reducible refine touches_mk ?_ rfl rfl))
    | (split <;> (try (rename_i e1; have e2 := congrArg Prod.fst e1; have e3 := congrArg Prod.snd e1; dsimp only at e2 e3; (try subst e2); (try subst e3)))))

theorem serveQueue_touches {line : Nat} {l : List LineJob} (h : Touches M s0 s) (w : Mask.le Mask.makeMove M = true) :
    Touches M s0 (serveQueue line l s) := by
  induction l generalizing s with
  | nil => exact h
  | cons j l ih =>
    unfold serveQueue
    split
    · exact putTxn_touches h (Mask.le_trans rfl w)
    · exact ih (serveStable_touches h (Mask.le_trans rfl w))

theorem startPlacing_touches (h : Touches M s0 s) (w : Mask.le Mask.makeMove M = true) : Touches M s0 (startPlacing
    s) := by
  refine h.trans (Touches.mono ?_ w)
  have h0 := Touches.refl Mask.makeMove s
  clear h w
  unfold startPlacing
  repeat' (first
    | with_reducible assumption
    | ((try lift_lets); intro x; first
        | clear_value x)
    | (with_reducible refine startJob_touches ?_ rfl)
    | with_reducible apply touches_ite
    | (with_reducible refine touches_foldl ?_ (fun _ _ _ => ?_))
    | (with_reducible refine touches_foldl_fst ?_ (fun _ _ _ => ?_))
    | (with_reducible refine touches_foldl_snd ?_ (fun _ _ _ => ?_))
    | (fail_if_no_progress (with_reducible refine touches_mk ?_ rfl rfl))
    | (split <;> (try (rename_i e1; have e2 := congrArg Prod.fst e1; have e3 := congrArg Prod.snd e1; dsimp only at e2 e3; (try subst e2); (try subst e3)))))

theorem endTxn_touches {y_1 : Txn} (h : Touches M s0 s) (w : Mask.le Mask.makeMove M = true) : Touches M s0 (endTxn
    s y_1) := by
  refine h.trans (Touches.mono ?_ w)
  have h0 := Touches.refl Mask.makeMove s
  clear h w
  unfold endTxn
  repeat' (first
    | with_reducible assumption
    | (with_reducible refine dropTxn_touches ?_ rfl)
    | (with_reducible refine leaveWay_touches ?_ rfl)
    | (with_reducible refine releaseOwed_touches ?_ rfl)
    | (with_reducible refine serveQueue_touches ?_ rfl)
    | (with_reducible refine startPlacing_touches ?_ rfl)
    | (with_reducible refine startRecovery_touches ?_ rfl)
    | (with_reducible refine touchLine_touches ?_ rfl))

theorem grantOrEnd_touches {y_1 : Txn} {j : LineJob} {x : Bool} (h : Touches M s0 s)
    (w : Mask.le Mask.makeMove M = true) : Touches M s0 (grantOrEnd s y_1 j x) := by
  refine h.trans (Touches.mono ?_ w)
  have h0 := Touches.refl Mask.makeMove s
  clear h w
  unfold grantOrEnd
  repeat' (first
    | with_reducible assumption
    | (with_reducible refine endTxn_touches ?_ rfl)
    | (with_reducible refine grantData_touches ?_ rfl)
    | (split <;> (try (rename_i e1; have e2 := congrArg Prod.fst e1; have e3 := congrArg Prod.snd e1; dsimp only at e2 e3; (try subst e2); (try subst e3)))))

theorem forwardFailed_touches {y_1 : Txn} (h : Touches M s0 s) (w : Mask.le Mask.makeMove M = true) :
    Touches M s0 (forwardFailed s y_1) := by
  refine h.trans (Touches.mono ?_ w)
  have h0 := Touches.refl Mask.makeMove s
  clear h w
  unfold forwardFailed
  repeat' (first
    | with_reducible assumption
    | ((try lift_lets); intro x; first
        | (refine (fun (hx : Touches Mask.makeMove s x) => ?_) ?_ <;> [clear_value x; (unfold x; clear x)])
        | clear_value x)
    | (with_reducible refine endJob_touches ?_ rfl)
    | (with_reducible refine endTxn_touches ?_ rfl)
    | (with_reducible refine enterP_touches ?_ rfl)
    | (with_reducible refine grantOrEnd_touches ?_ rfl)
    | (with_reducible refine homeRead_touches ?_ rfl)
    | (with_reducible refine putTxn_touches ?_ rfl)
    | (with_reducible refine releaseOwed_touches ?_ rfl)
    | with_reducible apply touches_ite
    | (with_reducible refine touches_foldl ?_ (fun _ _ _ => ?_))
    | (with_reducible refine touches_foldl_fst ?_ (fun _ _ _ => ?_))
    | (with_reducible refine touches_foldl_snd ?_ (fun _ _ _ => ?_))
    | (fail_if_no_progress (with_reducible refine touches_mk ?_ rfl rfl))
    | (split <;> (try (rename_i e1; have e2 := congrArg Prod.fst e1; have e3 := congrArg Prod.snd e1; dsimp only at e2 e3; (try subst e2); (try subst e3)))))

theorem meetPoison_touches {y_1 : Txn} {j : LineJob} (h : Touches M s0 s) (w : Mask.le Mask.makeMove M = true) :
    Touches M s0 (meetPoison s y_1 j) := by
  refine h.trans (Touches.mono ?_ w)
  have h0 := Touches.refl Mask.makeMove s
  clear h w
  unfold meetPoison
  repeat' (first
    | with_reducible assumption
    | (with_reducible refine endJob_touches ?_ rfl)
    | (with_reducible refine endTxn_touches ?_ rfl)
    | (with_reducible refine servePoisoned_touches ?_ rfl)
    | with_reducible apply touches_ite
    | (with_reducible refine touches_foldl ?_ (fun _ _ _ => ?_))
    | (with_reducible refine touches_foldl_fst ?_ (fun _ _ _ => ?_))
    | (with_reducible refine touches_foldl_snd ?_ (fun _ _ _ => ?_))
    | (fail_if_no_progress (with_reducible refine touches_mk ?_ rfl rfl))
    | (split <;> (try (rename_i e1; have e2 := congrArg Prod.fst e1; have e3 := congrArg Prod.snd e1; dsimp only at e2 e3; (try subst e2); (try subst e3)))))

theorem nextStep_touches {y_1 : Txn} (h : Touches M s0 s) (w : Mask.le Mask.makeMove M = true) :
    Touches M s0 (nextStep s y_1) := by
  refine h.trans (Touches.mono ?_ w)
  have h0 := Touches.refl Mask.makeMove s
  clear h w
  unfold nextStep
  repeat' (first
    | with_reducible assumption
    | ((try lift_lets); intro x; first
        | (refine (fun (hx : Touches Mask.makeMove s x) => ?_) ?_ <;> [clear_value x; (unfold x; clear x)])
        | clear_value x)
    | (with_reducible refine dirSet_touches ?_ rfl)
    | (with_reducible refine endJob_touches ?_ rfl)
    | (with_reducible refine endTxn_touches ?_ rfl)
    | (with_reducible refine forwardFailed_touches ?_ rfl)
    | (with_reducible refine grantOrEnd_touches ?_ rfl)
    | (with_reducible refine meetPoison_touches ?_ rfl)
    | (with_reducible refine ownWrite_touches ?_ rfl)
    | (with_reducible refine sendSnoop_touches ?_ rfl)
    | (with_reducible refine toBusy_touches ?_ rfl)
    | (with_reducible refine verify_touches ?_ rfl)
    | with_reducible apply touches_ite
    | (with_reducible refine touches_foldl ?_ (fun _ _ _ => ?_))
    | (with_reducible refine touches_foldl_fst ?_ (fun _ _ _ => ?_))
    | (with_reducible refine touches_foldl_snd ?_ (fun _ _ _ => ?_))
    | (fail_if_no_progress (with_reducible refine touches_mk ?_ rfl rfl))
    | (split <;> (try (rename_i e1; have e2 := congrArg Prod.fst e1; have e3 := congrArg Prod.snd e1; dsimp only at e2 e3; (try subst e2); (try subst e3)))))

theorem answerBI_touches {y_1 : Txn} {agent : ℕ} (h : Touches M s0 s) (w : Mask.le Mask.makeMove M = true) :
    Touches M s0 (answerBI s y_1 agent) := by
  refine h.trans (Touches.mono ?_ w)
  have h0 := Touches.refl Mask.makeMove s
  clear h w
  unfold answerBI
  repeat' (first
    | with_reducible assumption
    | (with_reducible refine nextStep_touches ?_ rfl)
    | (with_reducible refine putTxn_touches ?_ rfl)
    | (with_reducible refine releaseOwed_touches ?_ rfl)
    | with_reducible apply touches_ite)

theorem lineToMemory_touches {line pool : ℕ} {seq : BitVec 32} {bs : List Byte} (h : Touches M s0 s)
    (w : Mask.le Mask.homeWrite M = true) : Touches M s0 (lineToMemory s line pool seq bs) := by
  refine h.trans (Touches.mono ?_ w)
  have h0 := Touches.refl Mask.homeWrite s
  clear h w
  unfold lineToMemory
  repeat' (first
    | with_reducible assumption
    | (with_reducible refine homeWrite_touches ?_ rfl)
    | split)

theorem snoopAnswer_touches {pkt : Packet} {data : Option (List Byte)} (h : Touches M s0 s)
    (w : Mask.le Mask.makeMove M = true) : Touches M s0 (snoopAnswer s pkt data) := by
  refine h.trans (Touches.mono ?_ w)
  have h0 := Touches.refl Mask.makeMove s
  clear h w
  unfold snoopAnswer
  repeat' (first
    | with_reducible assumption
    | (with_reducible refine answerBI_touches ?_ rfl)
    | (with_reducible refine endJob_touches ?_ rfl)
    | (with_reducible refine endTxn_touches ?_ rfl)
    | (with_reducible refine forwardFailed_touches ?_ rfl)
    | (with_reducible refine grantOrEnd_touches ?_ rfl)
    | (with_reducible refine lineToMemory_touches ?_ rfl)
    | (with_reducible refine proto_touches ?_ rfl)
    | (with_reducible refine putTxn_touches ?_ rfl)
    | (with_reducible refine releaseOwed_touches ?_ rfl)
    | split
    | dsimp only [id])

theorem forwardData_touches {pkt : Packet} (h : Touches M s0 s) (w : Mask.le Mask.makeMove M = true) :
    Touches M s0 (forwardData s pkt) := by
  refine h.trans (Touches.mono ?_ w)
  have h0 := Touches.refl Mask.makeMove s
  clear h w
  unfold forwardData
  repeat' (first
    | with_reducible assumption
    | (with_reducible refine endJob_touches ?_ rfl)
    | (with_reducible refine endTxn_touches ?_ rfl)
    | (with_reducible refine lineToMemory_touches ?_ rfl)
    | (with_reducible refine proto_touches ?_ rfl)
    | split)

theorem grantAck_touches {pkt : Packet} (h : Touches M s0 s) (w : Mask.le Mask.makeMove M = true) :
    Touches M s0 (grantAck s pkt) := by
  refine h.trans (Touches.mono ?_ w)
  have h0 := Touches.refl Mask.makeMove s
  clear h w
  unfold grantAck
  repeat' (first
    | with_reducible assumption
    | ((try lift_lets); intro x; first
        | (refine (fun (hx : Touches Mask.makeMove s x) => ?_) ?_ <;> [clear_value x; (unfold x; clear x)])
        | clear_value x)
    | (with_reducible refine dropSvc_touches ?_ rfl)
    | (with_reducible refine endTxn_touches ?_ rfl)
    | (with_reducible refine proto_touches ?_ rfl)
    | split)

theorem evict_touches {v : Service} {data : Option (List Byte)} (h : Touches M s0 s)
    (w : Mask.le Mask.makeMove M = true) : Touches M s0 (evict s v data) := by
  refine h.trans (Touches.mono ?_ w)
  have h0 := Touches.refl Mask.makeMove s
  clear h w
  unfold evict
  repeat' (first
    | with_reducible assumption
    | (with_reducible refine dirSet_touches ?_ rfl)
    | (with_reducible refine lineToMemory_touches ?_ rfl)
    | (with_reducible refine putTxn_touches ?_ rfl)
    | (with_reducible refine readEntry_touches ?_ rfl)
    | (with_reducible refine reply_touches ?_ rfl)
    | (with_reducible refine touchLine_touches ?_ rfl)
    | split
    | dsimp only [id])

theorem treatLine_touches {p line j : ℕ} (h : Touches M s0 s) (w : Mask.le Mask.makeMove M = true) :
    Touches M s0 (treatLine s p line j) := by
  refine h.trans (Touches.mono ?_ w)
  have h0 := Touches.refl Mask.makeMove s
  clear h w
  unfold treatLine
  repeat' (first
    | with_reducible assumption
    | (((try lift_lets); intro x); (have _ := fun a => x a; dsimp only [x]; clear x))
    | (with_reducible refine answerBI_touches ?_ rfl)
    | (with_reducible refine dirSet_touches ?_ rfl)
    | (with_reducible refine dropSvc_touches ?_ rfl)
    | (with_reducible refine endJob_touches ?_ rfl)
    | (with_reducible refine endTxn_touches ?_ rfl)
    | (with_reducible refine enterP_touches ?_ rfl)
    | (with_reducible refine forwardFailed_touches ?_ rfl)
    | (with_reducible refine putTxn_touches ?_ rfl)
    | (with_reducible refine touchLine_touches ?_ rfl)
    | (with_reducible refine treatStable_touches ?_ rfl)
    | with_reducible apply touches_ite
    | (with_reducible refine touches_foldl ?_ (fun _ _ _ => ?_))
    | (fail_if_no_progress (with_reducible refine touches_mk ?_ rfl rfl))
    | split)

theorem renameLines_touches {f : ℕ → ℕ} (h : Touches M s0 s) (w : Mask.le { coh := true } M = true) :
    Touches M s0 (renameLines s f) :=
  h.trans (Touches.mono ⟨rfl, id⟩ w)

theorem logPlaced_touches {addr : ℕ} (h : Touches M s0 s) (w : Mask.le { di := true } M = true) :
    Touches M s0 (logPlaced s addr) := by
  refine h.trans (Touches.mono ?_ w)
  have h0 := Touches.refl { di := true } s
  clear h w
  unfold logPlaced
  repeat' (first
    | with_reducible assumption
    | ((try lift_lets); intro x; first
        | (have _ := fun a => x a; dsimp only [x]; clear x)
        | clear_value x)
    | (with_reducible refine logDram_touches ?_ rfl)
    | (with_reducible refine logNear_touches ?_ rfl)
    | with_reducible apply touches_ite
    | (with_reducible refine touches_foldl ?_ (fun _ _ _ => ?_))
    | (with_reducible refine touches_foldl_fst ?_ (fun _ _ _ => ?_))
    | (with_reducible refine touches_foldl_snd ?_ (fun _ _ _ => ?_))
    | (fail_if_no_progress (with_reducible refine touches_mk ?_ rfl rfl))
    | (split <;> (try (rename_i e1; have e2 := congrArg Prod.fst e1; have e3 := congrArg Prod.snd e1; dsimp only at e2 e3; (try subst e2); (try subst e3)))))

theorem logPlacement_touches {v : Service} {ps : List Gathered} (h : Touches M s0 s)
    (w : Mask.le { di := true } M = true) : Touches M s0 (logPlacement s v ps) := by
  refine h.trans (Touches.mono ?_ w)
  have h0 := Touches.refl { di := true } s
  clear h w
  unfold logPlacement
  repeat' (first
    | with_reducible assumption
    | (with_reducible refine logPlaced_touches ?_ rfl)
    | (with_reducible refine touches_foldl ?_ (fun _ _ _ => ?_))
    | split)

/-- What `settle` may change. -/
abbrev Mask.settle : Mask :=
  { parts := true, flows := true, ports := true, fab := true, coh := true, stk := true, near := true, fl :=
    true, di := true, eth := true, sec := true, twn := true, svc := true, out := true, free := true, dram :=
    true, nearMem := true }

theorem settle_touches (h : Touches M s0 s) (w : Mask.le Mask.settle M = true) : Touches M s0 (settle s) := by
  refine h.trans (Touches.mono ?_ w)
  have h0 := Touches.refl Mask.settle s
  clear h w
  unfold settle
  repeat' (first
    | with_reducible assumption
    | (with_reducible refine blurFailed_touches ?_ rfl)
    | (with_reducible refine dropPieces_touches ?_ rfl)
    | (with_reducible refine dropSvc_touches ?_ rfl)
    | (with_reducible refine logPlacement_touches ?_ rfl)
    | (with_reducible refine reply_touches ?_ rfl)
    | (with_reducible refine resolve_touches ?_ rfl)
    | (with_reducible refine touches_foldl ?_ (fun _ _ _ => ?_))
    | split)

theorem cutTxn_touches {y_1 : Txn} (h : Touches M s0 s) (w : Mask.le Mask.makeMove M = true) : Touches M s0 (cutTxn
    s y_1) := by
  refine h.trans (Touches.mono ?_ w)
  have h0 := Touches.refl Mask.makeMove s
  clear h w
  unfold cutTxn
  repeat' (first
    | with_reducible assumption
    | ((try lift_lets); intro x; first
        | (have _ := fun a => x a; dsimp only [x]; clear x)
        | clear_value x)
    | (with_reducible refine endJob_touches ?_ rfl)
    | (with_reducible refine endTxn_touches ?_ rfl)
    | (with_reducible refine enterP_touches ?_ rfl)
    | (with_reducible refine putTxn_touches ?_ rfl)
    | with_reducible apply touches_ite
    | (with_reducible refine touches_foldl ?_ (fun _ _ _ => ?_)))

theorem cutRequests_touches {p : ℕ} (h : Touches M s0 s) (w : Mask.le Mask.settle M = true) :
    Touches M s0 (cutRequests s p) := by
  refine h.trans (Touches.mono ?_ w)
  have h0 := Touches.refl Mask.settle s
  clear h w
  unfold cutRequests
  repeat' (first
    | with_reducible assumption
    | (with_reducible refine cutTxn_touches ?_ rfl)
    | (with_reducible refine settle_touches ?_ rfl)
    | (with_reducible refine touches_foldl ?_ (fun _ _ _ => ?_)))

theorem startRangeAt_touches {v : Service} {y_2 : Mover} {write : Bool} {base addr n : ℕ} {bs : List Byte}
    (h : Touches M s0 s) (w : Mask.le Mask.settle M = true) : Touches M s0 (startRangeAt s v y_2 write base addr n
    bs) := by
  refine h.trans (Touches.mono ?_ w)
  have h0 := Touches.refl Mask.settle s
  clear h w
  unfold startRangeAt
  repeat' (first
    | with_reducible assumption
    | ((try lift_lets); intro x; first
        | (refine (fun (hx : Touches Mask.settle s x.1) => ?_) ?_ <;> [clear_value x; (unfold x; clear x)]))
    | (with_reducible refine gather_touches ?_ rfl)
    | (with_reducible refine mirrorAt_touches ?_ rfl)
    | (with_reducible refine readSegment_touches ?_ rfl)
    | (with_reducible refine startJob_touches ?_ rfl)
    | (with_reducible refine writeSegment_touches ?_ rfl)
    | with_reducible apply touches_ite
    | (with_reducible refine touches_foldl ?_ (fun _ _ _ => ?_)))

theorem startRange_touches {v : Service} {own : List ℕ} {write : Bool} {addr n : ℕ} {bs : List Byte}
    (h : Touches M s0 s) (w : Mask.le Mask.settle M = true) : Touches M s0 (startRange s v own write addr n bs) :=
    by
  refine h.trans (Touches.mono ?_ w)
  have h0 := Touches.refl Mask.settle s
  clear h w
  unfold startRange
  repeat' (first
    | with_reducible assumption
    | (with_reducible refine startRangeAt_touches ?_ rfl))

end Sys2Proof.Machine
end

