-- ==== Sys2Proof/Laws/TouchesRequests.lean ====
section
/-! SUPPORT. What the operations of Machine/Requests.lean may change. -/

namespace Sys2Proof.Machine

variable {M : Mask} {s0 s t : State}

theorem countHoldFull_touches (h : Touches M s0 s) (w : Mask.le { twn := true } M = true) :
    Touches M s0 (countHoldFull s) :=
  h.trans (Touches.mono ⟨rfl, id⟩ w)

theorem holdRequest_touches {v : Service} {half : ℕ} (h : Touches M s0 s) (w : Mask.le Mask.finish M = true) :
    Touches M s0 (holdRequest s v half) := by
  refine h.trans (Touches.mono ?_ w)
  have h0 := Touches.refl Mask.finish s
  clear h w
  unfold holdRequest
  repeat' (first
    | with_reducible assumption
    | (with_reducible refine countHoldFull_touches ?_ rfl)
    | (with_reducible refine finish_touches ?_ rfl)
    | (fail_if_no_progress (with_reducible refine touches_mk ?_ rfl rfl))
    | split)

theorem holdShadow_touches {v : Service} {half : ℕ} (h : Touches M s0 s)
    (w : Mask.le { twn := true, svc := true } M = true) : Touches M s0 (holdShadow s v half) := by
  refine h.trans (Touches.mono ?_ w)
  have h0 := Touches.refl { twn := true, svc := true } s
  clear h w
  unfold holdShadow
  repeat' (first
    | with_reducible assumption
    | (((try lift_lets); intro x); (refine (fun (hx : Touches { twn := true, svc := true } s x) => ?_) ?_ <;> [clear_value x; (unfold x; clear x)]))
    | (with_reducible refine countHoldFull_touches ?_ rfl)
    | (with_reducible refine dropSvc_touches ?_ rfl)
    | with_reducible apply touches_ite
    | (fail_if_no_progress (with_reducible refine touches_mk ?_ rfl rfl))
    | split)

theorem twinFirst_touches {v : Service} {hold : Bool} (e : twinFirst s v hold = some t) (h : Touches M s0 s)
    (w : Mask.le Mask.finish M = true) : Touches M s0 t := by
  refine h.trans (Touches.mono ?_ w)
  have h0 := Touches.refl Mask.finish s
  clear h w
  unfold twinFirst at e
  try dsimp only at e
  repeat' (first | (cases e; done) | (split at e))
  all_goals (try simp only [Option.some.injEq, Except.ok.injEq, Prod.mk.injEq, Option.map_eq_some_iff] at e)
  all_goals (try subst_vars)
  repeat' (first
    | with_reducible assumption
    | (with_reducible refine finish_touches ?_ rfl)
    | (with_reducible refine holdRequest_touches ?_ rfl)
    | (with_reducible refine holdShadow_touches ?_ rfl))

/-- What `serveRead` may change. -/
abbrev Mask.serveRead : Mask :=
  { parts := true, flows := true, ports := true, fab := true, coh := true, stk := true, near := true, fl :=
    true, eng := true, di := true, eth := true, sec := true, twn := true, svc := true, out := true, free :=
    true, dram := true, nearMem := true }

theorem serveRead_touches {v : Service} {own : List ℕ} (h : Touches M s0 s) (w : Mask.le Mask.serveRead M = true) :
    Touches M s0 (serveRead s v own) := by
  refine h.trans (Touches.mono ?_ w)
  have h0 := Touches.refl Mask.serveRead s
  clear h w
  unfold serveRead
  repeat' (first
    | with_reducible assumption
    | (((try lift_lets); intro x); (refine (fun (hx : Touches Mask.serveRead s x) => ?_) ?_ <;> [clear_value x; (unfold x; clear x)]))
    | (with_reducible refine dropPieces_touches ?_ rfl)
    | (with_reducible refine finish_touches ?_ rfl)
    | (with_reducible refine settle_touches ?_ rfl)
    | (with_reducible refine startRange_touches ?_ rfl)
    | (with_reducible refine translateRequest_touches ?_ rfl)
    | (with_reducible refine twinFirst_touches (by assumption) ?_ rfl)
    | with_reducible apply touches_ite
    | split)

theorem arriveWord_touches {source p off flips : ℕ} (h : Touches M s0 s) (w : Mask.le Mask.countCorrected M = true)
    : Touches M s0 (arriveWord s source p off flips).1 := by
  refine h.trans (Touches.mono ?_ w)
  have h0 := Touches.refl Mask.countCorrected s
  clear h w
  unfold arriveWord
  repeat' (first
    | with_reducible assumption
    | (with_reducible refine countCorrected_touches ?_ rfl)
    | (with_reducible refine logDram_touches ?_ rfl)
    | with_reducible apply touches_ite
    | (with_reducible refine touches_foldl ?_ (fun _ _ _ => ?_))
    | (with_reducible refine touches_foldl_fst ?_ (fun _ _ _ => ?_))
    | (with_reducible refine touches_foldl_snd ?_ (fun _ _ _ => ?_))
    | (fail_if_no_progress (with_reducible refine touches_mk ?_ rfl rfl))
    | (split <;> (try (rename_i e1; have e2 := congrArg Prod.fst e1; have e3 := congrArg Prod.snd e1; dsimp only at e2 e3; (try subst e2); (try subst e3)))))

theorem arriveWords_touches {v : Service} {l : List (Nat × Nat)} (h : Touches M s0 s) (w : Mask.le Mask.countCorrected M = true) :
    Touches M s0 (arriveWords s v l).1 := by
  induction l with
  | nil => exact h
  | cons e l ih =>
    unfold arriveWords
    dsimp only
    split
    · exact ih
    · exact arriveWord_touches ih (Mask.le_trans rfl w)

theorem serveWrite_touches {v : Service} {own : List ℕ} {errs : optParam (List (ℕ × ℕ)) []} (h : Touches M s0 s)
    (w : Mask.le Mask.serveRead M = true) : Touches M s0 (serveWrite s v own errs) := by
  refine h.trans (Touches.mono ?_ w)
  have h0 := Touches.refl Mask.serveRead s
  clear h w
  unfold serveWrite
  repeat' (first
    | with_reducible assumption
    | (((try lift_lets); intro x); (refine (fun (hx : Touches Mask.serveRead s x) => ?_) ?_ <;> [clear_value x; (unfold x; clear x)]))
    | (with_reducible refine arriveWords_touches ?_ rfl)
    | (with_reducible refine finish_touches ?_ rfl)
    | (with_reducible refine settle_touches ?_ rfl)
    | (with_reducible refine startRangeAt_touches ?_ rfl)
    | (with_reducible refine translateRequest_touches ?_ rfl)
    | (with_reducible refine twinFirst_touches (by assumption) ?_ rfl)
    | with_reducible apply touches_ite
    | split)

theorem nearAtomic_touches {y_1 : Mover} {source p off kind operand : ℕ} (h : Touches M s0 s)
    (w : Mask.le Mask.nearWriteWord M = true) : Touches M s0 (nearAtomic s y_1 source p off kind operand).1 := by
  refine h.trans (Touches.mono ?_ w)
  have h0 := Touches.refl Mask.nearWriteWord s
  clear h w
  unfold nearAtomic
  repeat' (first
    | with_reducible assumption
    | ((try lift_lets); intro x; first
        | (have _ := fun a => x a; dsimp only [x]; clear x)
        | clear_value x)
    | (with_reducible refine countCollision_touches ?_ rfl)
    | (with_reducible refine countNearAtom_touches ?_ rfl)
    | (with_reducible refine nearSeeWord_touches ?_ rfl)
    | (with_reducible refine nearWriteWord_touches ?_ rfl)
    | (with_reducible refine otherBegin_touches ?_ rfl)
    | with_reducible apply touches_ite
    | (with_reducible refine touches_foldl ?_ (fun _ _ _ => ?_))
    | (with_reducible refine touches_foldl_fst ?_ (fun _ _ _ => ?_))
    | (with_reducible refine touches_foldl_snd ?_ (fun _ _ _ => ?_))
    | (fail_if_no_progress (with_reducible refine touches_mk ?_ rfl rfl))
    | (split <;> (try (rename_i e1; have e2 := congrArg Prod.fst e1; have e3 := congrArg Prod.snd e1; dsimp only at e2 e3; (try subst e2); (try subst e3)))))

theorem sliceAtomic_touches {source p off sl a kind operand compare : ℕ} (h : Touches M s0 s)
    (w : Mask.le Mask.writeLine M = true) : Touches M s0 (sliceAtomic s source p off sl a kind operand compare).1 :=
    by
  refine h.trans (Touches.mono ?_ w)
  have h0 := Touches.refl Mask.writeLine s
  clear h w
  unfold sliceAtomic
  repeat' (first
    | with_reducible assumption
    | (with_reducible refine readPiece_touches ?_ rfl)
    | (with_reducible refine writePiece_touches ?_ rfl)
    | (split <;> (try (rename_i e1; have e2 := congrArg Prod.fst e1; have e3 := congrArg Prod.snd e1; dsimp only at e2 e3; (try subst e2); (try subst e3)))))

theorem plainAtomic_touches {y_1 : Mover} {source p off kind operand compare : ℕ} (h : Touches M s0 s)
    (w : Mask.le Mask.writeSegment M = true) : Touches M s0 (plainAtomic s y_1 source p off kind operand compare).1
    := by
  refine h.trans (Touches.mono ?_ w)
  have h0 := Touches.refl Mask.writeSegment s
  clear h w
  unfold plainAtomic
  repeat' (first
    | with_reducible assumption
    | (with_reducible refine accessGranule_touches ?_ rfl)
    | (with_reducible refine nearAtomic_touches ?_ rfl)
    | (with_reducible refine sliceAtomic_touches ?_ rfl)
    | (split <;> (try (rename_i e1; have e2 := congrArg Prod.fst e1; have e3 := congrArg Prod.snd e1; dsimp only at e2 e3; (try subst e2); (try subst e3)))))

theorem runAtomic_touches {v : Service} {own : List ℕ} (h : Touches M s0 s) (w : Mask.le Mask.settle M = true) :
    Touches M s0 (runAtomic s v own) := by
  refine h.trans (Touches.mono ?_ w)
  have h0 := Touches.refl Mask.settle s
  clear h w
  unfold runAtomic
  repeat' (first
    | with_reducible assumption
    | ((try lift_lets); intro x; first
        | (refine (fun (hx : Touches Mask.settle s x) => ?_) ?_ <;> [clear_value x; (unfold x; clear x)])
        | (refine (fun (hx : Touches Mask.settle s x.1) => ?_) ?_ <;> [clear_value x; (unfold x; clear x)]))
    | (with_reducible refine gather_touches ?_ rfl)
    | (with_reducible refine mirrorAt_touches ?_ rfl)
    | (with_reducible refine plainAtomic_touches ?_ rfl)
    | (with_reducible refine settle_touches ?_ rfl)
    | (with_reducible refine startJob_touches ?_ rfl)
    | with_reducible apply touches_ite)

theorem serveAtomic_touches {v : Service} {own : List ℕ} (h : Touches M s0 s) (w : Mask.le Mask.serveRead M = true)
    : Touches M s0 (serveAtomic s v own) := by
  refine h.trans (Touches.mono ?_ w)
  have h0 := Touches.refl Mask.serveRead s
  clear h w
  unfold serveAtomic
  repeat' (first
    | with_reducible assumption
    | (with_reducible refine runAtomic_touches ?_ rfl)
    | (with_reducible refine translateRequest_touches ?_ rfl)
    | (with_reducible refine twinFirst_touches (by assumption) ?_ rfl)
    | split)

end Sys2Proof.Machine
end

