-- ==== Sys2Proof/Laws/TouchesCoherence.lean ====
section
/-! SUPPORT. What the operations of Machine/Coherence.lean may change. -/

namespace Sys2Proof.Machine

variable {M : Mask} {s0 s t : State}

theorem serveAgent_touches {ticket : ℕ} {o : Op} {op : LineOp} (h : Touches M s0 s)
    (w : Mask.le Mask.serveRead M = true) : Touches M s0 (serveAgent s ticket o op) := by
  refine h.trans (Touches.mono ?_ w)
  have h0 := Touches.refl Mask.serveRead s
  clear h w
  unfold serveAgent
  repeat' (first
    | with_reducible assumption
    | (((try lift_lets); intro x); (refine (fun (hx : Touches Mask.serveRead s x) => ?_) ?_ <;> [clear_value x; (unfold x; clear x)]))
    | (with_reducible refine finish_touches ?_ rfl)
    | (with_reducible refine settle_touches ?_ rfl)
    | (with_reducible refine startJob_touches ?_ rfl)
    | (with_reducible refine translateRequest_touches ?_ rfl)
    | (with_reducible refine twinFirst_touches (by assumption) ?_ rfl)
    | with_reducible apply touches_ite
    | split)

theorem serveEvict_touches {ticket : ℕ} {o : Op} (h : Touches M s0 s) (w : Mask.le Mask.serveRead M = true) :
    Touches M s0 (serveEvict s ticket o) := by
  refine h.trans (Touches.mono ?_ w)
  have h0 := Touches.refl Mask.serveRead s
  clear h w
  unfold serveEvict
  repeat' (first
    | with_reducible assumption
    | (with_reducible refine evict_touches ?_ rfl)
    | (with_reducible refine finish_touches ?_ rfl)
    | (with_reducible refine settle_touches ?_ rfl)
    | (with_reducible refine translateRequest_touches ?_ rfl)
    | (with_reducible refine twinFirst_touches (by assumption) ?_ rfl)
    | with_reducible apply touches_ite
    | split)

theorem takeInbox_touches {f : Packet → Bool} {x} (e : takeInbox s f = some (x, t)) (h : Touches M s0 s)
    (w : Mask.le { fab := true } M = true) : Touches M s0 t := by
  refine h.trans (Touches.mono ?_ w)
  have h0 := Touches.refl { fab := true } s
  clear h w
  unfold takeInbox at e
  all_goals (try simp only [Option.some.injEq, Except.ok.injEq, Prod.mk.injEq, Option.map_eq_some_iff] at e)
  all_goals (try casesm* _ ∧ _, ∃ _, _)
  all_goals (try subst_vars)
  repeat' (first
    | with_reducible assumption
    | (fail_if_no_progress (with_reducible refine touches_mk ?_ rfl rfl)))

end Sys2Proof.Machine
end

