-- ==== Sys2Proof/Laws/TouchesPublish.lean ====
section
/-! SUPPORT. What the operations of Machine/Publish.lean may change. -/

namespace Sys2Proof.Machine

variable {M : Mask} {s0 s t : State}

theorem pubRetry_touches {v : Service} {p : ℕ} (h : Touches M s0 s) (w : Mask.le Mask.finish M = true) :
    Touches M s0 (pubRetry s v p) := by
  refine h.trans (Touches.mono ?_ w)
  have h0 := Touches.refl Mask.finish s
  clear h w
  unfold pubRetry
  repeat' (first
    | with_reducible assumption
    | (with_reducible refine finish_touches ?_ rfl)
    | (with_reducible refine partCnt_touches ?_ rfl))

theorem addWait_touches {v : Service} {half p u : ℕ} {publish entry : Bool} (h : Touches M s0 s)
    (w : Mask.le { coh := true } M = true) : Touches M s0 (addWait s v half p u publish entry) :=
  h.trans (Touches.mono ⟨rfl, id⟩ w)

theorem dropWait_touches {ticket : ℕ} (h : Touches M s0 s) (w : Mask.le Mask.makeMove M = true) :
    Touches M s0 (dropWait s ticket) := by
  refine h.trans (Touches.mono ?_ w)
  have h0 := Touches.refl Mask.makeMove s
  clear h w
  unfold dropWait
  repeat' (first
    | with_reducible assumption
    | ((try lift_lets); intro x; first
        | (refine (fun (hx : Touches Mask.makeMove s x) => ?_) ?_ <;> [clear_value x; (unfold x; clear x)])
        | clear_value x)
    | (with_reducible refine startPlacing_touches ?_ rfl)
    | (with_reducible refine startRecovery_touches ?_ rfl)
    | with_reducible apply touches_ite
    | (with_reducible refine touches_foldl ?_ (fun _ _ _ => ?_))
    | (with_reducible refine touches_foldl_fst ?_ (fun _ _ _ => ?_))
    | (with_reducible refine touches_foldl_snd ?_ (fun _ _ _ => ?_))
    | (fail_if_no_progress (with_reducible refine touches_mk ?_ rfl rfl)))

theorem withUnit_touches {ticket : Nat} {o : Op} {hold : Bool} {f : State → Service → Nat → Nat → State}
    (h : Touches M s0 s) (w : Mask.le Mask.finish M = true)
    (k : ∀ t, Touches M s0 t → ∀ v p u, Touches M s0 (f t v p u)) : Touches M s0 (withUnit s ticket o hold f) := by
  unfold withUnit
  repeat' split
  all_goals first
    | exact h
    | exact finish_touches h (Mask.le_trans rfl w)
    | exact twinFirst_touches (by assumption) h (Mask.le_trans rfl w)
    | exact k _ h _ _ _

/-- What `startFlush` may change. -/
abbrev Mask.startFlush : Mask :=
  { parts := true, flows := true, ports := true, fab := true, coh := true, eth := true, sec := true, twn :=
    true, svc := true, out := true }

theorem startFlush_touches {v : Service} {p u : ℕ} (h : Touches M s0 s) (w : Mask.le Mask.startFlush M = true) :
    Touches M s0 (startFlush s v p u) := by
  refine h.trans (Touches.mono ?_ w)
  have h0 := Touches.refl Mask.startFlush s
  clear h w
  unfold startFlush
  repeat' (first
    | with_reducible assumption
    | (with_reducible refine addWait_touches ?_ rfl)
    | (with_reducible refine finish_touches ?_ rfl)
    | (with_reducible refine notePeak_touches ?_ rfl)
    | (with_reducible refine pubRetry_touches ?_ rfl)
    | with_reducible apply touches_ite)

theorem startPublish_touches {v : Service} {p u : ℕ} (h : Touches M s0 s) (w : Mask.le Mask.startFlush M = true) :
    Touches M s0 (startPublish s v p u) := by
  refine h.trans (Touches.mono ?_ w)
  have h0 := Touches.refl Mask.startFlush s
  clear h w
  unfold startPublish
  repeat' (first
    | with_reducible assumption
    | (with_reducible refine addWait_touches ?_ rfl)
    | (with_reducible refine notePeak_touches ?_ rfl)
    | (with_reducible refine pubRetry_touches ?_ rfl)
    | with_reducible apply touches_ite)

theorem decideUnit_touches {p u base : ℕ} {host : Bool} {req : ℕ} (h : Touches M s0 s)
    (w : Mask.le Mask.enterP M = true) : Touches M s0 (decideUnit s p u base host req).1 := by
  refine h.trans (Touches.mono ?_ w)
  have h0 := Touches.refl Mask.enterP s
  clear h w
  unfold decideUnit
  repeat' (first
    | with_reducible assumption
    | (with_reducible refine lgAppend_touches ?_ rfl)
    | (with_reducible refine partCnt_touches ?_ rfl)
    | (with_reducible refine versionSet_touches ?_ rfl))

theorem sendTwinPub_touches {v : Service} {base : ℕ} (h : Touches M s0 s) (w : Mask.le Mask.sendTwin M = true) :
    Touches M s0 (sendTwinPub s v base) := by
  refine h.trans (Touches.mono ?_ w)
  have h0 := Touches.refl Mask.sendTwin s
  clear h w
  unfold sendTwinPub
  repeat' (first
    | with_reducible assumption
    | ((try lift_lets); intro x; clear_value x)
    | (with_reducible refine sendTwin_touches ?_ rfl)
    | split)

theorem decidePublish_touches {v : Service} {p u : ℕ} (h : Touches M s0 s) (w : Mask.le Mask.makeMove M = true) :
    Touches M s0 (decidePublish s v p u) := by
  refine h.trans (Touches.mono ?_ w)
  have h0 := Touches.refl Mask.makeMove s
  clear h w
  unfold decidePublish
  repeat' (first
    | with_reducible assumption
    | (with_reducible refine decideUnit_touches ?_ rfl)
    | (with_reducible refine dropWait_touches ?_ rfl)
    | (with_reducible refine reply_touches ?_ rfl)
    | (with_reducible refine sendTwinPub_touches ?_ rfl))

theorem clearPub_touches {p : ℕ} (h : Touches M s0 s) (w : Mask.le { parts := true } M = true) :
    Touches M s0 (clearPub s p) :=
  h.trans (Touches.mono ⟨rfl, id⟩ w)

end Sys2Proof.Machine
end

