-- ==== Sys2Proof/Laws/TouchesRing.lean ====
section
/-! SUPPORT. What the operations of Machine/Ring.lean may change. -/

namespace Sys2Proof.Machine

variable {M : Mask} {s0 s t : State}

theorem countBad_touches {k : BadKind} (h : Touches M s0 s) (w : Mask.le { fab := true } M = true) :
    Touches M s0 (countBad s k) := by
  refine h.trans (Touches.mono ?_ w)
  have h0 := Touches.refl { fab := true } s
  clear h w
  unfold countBad
  repeat' (first
    | with_reducible assumption
    | (fail_if_no_progress (with_reducible refine touches_mk ?_ rfl rfl))
    | split)

theorem refusePacket_touches {port : ℕ} {p : Packet} (h : Touches M s0 s) (w : Mask.le Mask.injectOn M = true) :
    Touches M s0 (refusePacket s port p) := by
  refine h.trans (Touches.mono ?_ w)
  have h0 := Touches.refl Mask.injectOn s
  clear h w
  unfold refusePacket
  repeat' (first
    | with_reducible assumption
    | (with_reducible refine injectOn_touches ?_ rfl))

theorem badPacket_touches {port : ℕ} {p : Packet} {k : BadKind} (h : Touches M s0 s)
    (w : Mask.le Mask.injectOn M = true) : Touches M s0 (badPacket s port p k) := by
  refine h.trans (Touches.mono ?_ w)
  have h0 := Touches.refl Mask.injectOn s
  clear h w
  unfold badPacket
  repeat' (first
    | with_reducible assumption
    | (with_reducible refine countBad_touches ?_ rfl)
    | (with_reducible refine refusePacket_touches ?_ rfl)
    | split)

theorem removePacket_touches {port out : ℕ} {p : Packet} (h : Touches M s0 s) (w : Mask.le Mask.injectOn M = true) :
    Touches M s0 (removePacket s port out p) := by
  refine h.trans (Touches.mono ?_ w)
  have h0 := Touches.refl Mask.injectOn s
  clear h w
  unfold removePacket
  repeat' (first
    | with_reducible assumption
    | (with_reducible refine noteRemoved_touches ?_ rfl)
    | (with_reducible refine turnAway_touches ?_ rfl)
    | split)

/-- What `sinkPacket` may change. -/
abbrev Mask.sinkPacket : Mask :=
  { parts := true, flows := true, ports := true, fab := true, eth := true, sec := true, twn := true, svc :=
    true, nextTicket := true, out := true }

theorem sinkPacket_touches {port : ℕ} {p : Packet} (h : Touches M s0 s) (w : Mask.le Mask.sinkPacket M = true) :
    Touches M s0 (sinkPacket s port p) := by
  refine h.trans (Touches.mono ?_ w)
  have h0 := Touches.refl Mask.sinkPacket s
  clear h w
  unfold sinkPacket
  repeat' (first
    | with_reducible assumption
    | (((try lift_lets); intro x); (refine (fun (hx : Touches Mask.sinkPacket s x) => ?_) ?_ <;> [clear_value x; (unfold x; clear x)]))
    | (with_reducible refine badPacket_touches ?_ rfl)
    | (with_reducible refine feedAgain_touches ?_ rfl)
    | (with_reducible refine portCnt_touches ?_ rfl)
    | (with_reducible refine refusePacket_touches ?_ rfl)
    | with_reducible apply touches_ite
    | (fail_if_no_progress (with_reducible refine touches_mk ?_ rfl rfl))
    | split)

theorem sendMcDone_touches {port : ℕ} {p : Packet} {st : Status} {mask : ℕ} (h : Touches M s0 s)
    (w : Mask.le Mask.injectOn M = true) : Touches M s0 (sendMcDone s port p st mask) := by
  refine h.trans (Touches.mono ?_ w)
  have h0 := Touches.refl Mask.injectOn s
  clear h w
  unfold sendMcDone
  repeat' (first
    | with_reducible assumption
    | (with_reducible refine injectOn_touches ?_ rfl))

/-- What `placeCopy` may change. -/
abbrev Mask.placeCopy : Mask :=
  { parts := true, flows := true, ports := true, fab := true, coh := true, stk := true, near := true, fl :=
    true, di := true, eth := true, sec := true, twn := true, svc := true, nextTicket := true, out := true, free
    := true, dram := true, nearMem := true }

theorem placeCopy_touches {p : Packet} (h : Touches M s0 s) (w : Mask.le Mask.placeCopy M = true) :
    Touches M s0 (placeCopy s p) := by
  refine h.trans (Touches.mono ?_ w)
  have h0 := Touches.refl Mask.placeCopy s
  clear h w
  unfold placeCopy
  repeat' (first
    | with_reducible assumption
    | (((try lift_lets); intro x); (refine (fun (hx : Touches Mask.placeCopy s x) => ?_) ?_ <;> [clear_value x; (unfold x; clear x)]))
    | (with_reducible refine dropSvc_touches ?_ rfl)
    | (with_reducible refine runAtomic_touches ?_ rfl)
    | (with_reducible refine settle_touches ?_ rfl)
    | (with_reducible refine startRange_touches ?_ rfl)
    | with_reducible apply touches_ite
    | (fail_if_no_progress (with_reducible refine touches_mk ?_ rfl rfl)))

/-- What `mcCopy` may change. -/
abbrev Mask.mcCopy : Mask :=
  { flows := true, td := true, ports := true, fab := true, sec := true }

theorem mcCopy_touches {port bit : ℕ} {p : Packet} (h : Touches M s0 s) (w : Mask.le Mask.mcCopy M = true) :
    Touches M s0 (mcCopy s port bit p).1 := by
  refine h.trans (Touches.mono ?_ w)
  have h0 := Touches.refl Mask.mcCopy s
  clear h w
  unfold mcCopy
  repeat' (first
    | with_reducible assumption
    | ((try lift_lets); intro x; first
        | (have _ := fun a => x a; dsimp only [x]; clear x)
        | clear_value x)
    | (with_reducible refine charge_touches ?_ rfl)
    | (with_reducible refine debtNet_touches ?_ rfl)
    | (with_reducible refine portCnt_touches ?_ rfl)
    | with_reducible apply touches_ite
    | (with_reducible refine touches_foldl ?_ (fun _ _ _ => ?_))
    | (with_reducible refine touches_foldl_fst ?_ (fun _ _ _ => ?_))
    | (with_reducible refine touches_foldl_snd ?_ (fun _ _ _ => ?_))
    | (fail_if_no_progress (with_reducible refine touches_mk ?_ rfl rfl))
    | (split <;> (try (rename_i e1; have e2 := congrArg Prod.fst e1; have e3 := congrArg Prod.snd e1; dsimp only at e2 e3; (try subst e2); (try subst e3)))))

theorem mcForward_touches {r : RingRec} {port : ℕ} {p : Packet} {since : ℕ} (h : Touches M s0 s)
    (w : Mask.le Mask.injectOn M = true) : Touches M s0 (mcForward s r port p since) := by
  refine h.trans (Touches.mono ?_ w)
  have h0 := Touches.refl Mask.injectOn s
  clear h w
  unfold mcForward
  repeat' (first
    | with_reducible assumption
    | (with_reducible refine enqueueOut_touches ?_ rfl)
    | (with_reducible refine freeAt_touches ?_ rfl)
    | (with_reducible refine removePacket_touches ?_ rfl)
    | (with_reducible refine sendMcDone_touches ?_ rfl)
    | with_reducible apply touches_ite)

/-- What `multicast` may change. -/
abbrev Mask.multicast : Mask :=
  { parts := true, flows := true, td := true, ports := true, fab := true, coh := true, stk := true, near :=
    true, fl := true, di := true, eth := true, sec := true, twn := true, svc := true, nextTicket := true, out :=
    true, free := true, dram := true, nearMem := true }

theorem multicast_touches {port : ℕ} {p : Packet} {since : ℕ} (h : Touches M s0 s)
    (w : Mask.le Mask.multicast M = true) : Touches M s0 (multicast s port p since) := by
  refine h.trans (Touches.mono ?_ w)
  have h0 := Touches.refl Mask.multicast s
  clear h w
  unfold multicast
  repeat' (first
    | with_reducible assumption
    | (((try lift_lets); intro x); (refine (fun (hx : Touches Mask.multicast s x) => ?_) ?_ <;> [clear_value x; (unfold x; clear x)]))
    | (with_reducible refine badPacket_touches ?_ rfl)
    | (with_reducible refine freeAt_touches ?_ rfl)
    | (with_reducible refine mcCopy_touches ?_ rfl)
    | (with_reducible refine mcForward_touches ?_ rfl)
    | (with_reducible refine placeCopy_touches ?_ rfl)
    | (with_reducible refine sendMcDone_touches ?_ rfl)
    | (fail_if_no_progress (with_reducible refine touches_mk ?_ rfl rfl))
    | split
    | dsimp only [id])

theorem takeMulticast_touches {ok : Packet → Bool} (h : Touches M s0 s) (w : Mask.le Mask.multicast M = true) :
    Touches M s0 (takeMulticast s ok) := by
  refine h.trans (Touches.mono ?_ w)
  have h0 := Touches.refl Mask.multicast s
  clear h w
  unfold takeMulticast
  repeat' (first
    | with_reducible assumption
    | (with_reducible refine multicast_touches ?_ rfl)
    | (fail_if_no_progress (with_reducible refine touches_mk ?_ rfl rfl))
    | split)

theorem routeWhole_touches {r : RingRec} {port : ℕ} {p : Packet} {since : ℕ} (h : Touches M s0 s)
    (w : Mask.le Mask.sinkPacket M = true) : Touches M s0 (routeWhole s r port p since) := by
  refine h.trans (Touches.mono ?_ w)
  have h0 := Touches.refl Mask.sinkPacket s
  clear h w
  unfold routeWhole
  repeat' (first
    | with_reducible assumption
    | (with_reducible refine badPacket_touches ?_ rfl)
    | (with_reducible refine enqueueOut_touches ?_ rfl)
    | (with_reducible refine freeAt_touches ?_ rfl)
    | (with_reducible refine removePacket_touches ?_ rfl)
    | (with_reducible refine sinkPacket_touches ?_ rfl)
    | (fail_if_no_progress (with_reducible refine touches_mk ?_ rfl rfl))
    | split)

theorem framingLoss_touches {port : ℕ} {p : Packet} {since : ℕ} (h : Touches M s0 s)
    (w : Mask.le { ports := true, fab := true } M = true) : Touches M s0 (framingLoss s port p since) :=
  h.trans (Touches.mono ⟨rfl, id⟩ w)

/-- What `transmit` may change. -/
abbrev Mask.transmit : Mask :=
  { ports := true, fab := true, out := true }

theorem transmit_touches {port : ℕ} {y_2 : RingPkt} (h : Touches M s0 s) (w : Mask.le Mask.transmit M = true) :
    Touches M s0 (transmit s port y_2) := by
  refine h.trans (Touches.mono ?_ w)
  have h0 := Touches.refl Mask.transmit s
  clear h w
  unfold transmit
  repeat' (first
    | with_reducible assumption
    | (((try lift_lets); intro x); (refine (fun (hx : Touches Mask.transmit s x) => ?_) ?_ <;> [clear_value x; (unfold x; clear x)]))
    | (with_reducible refine emit_touches ?_ rfl)
    | (with_reducible refine freeAt_touches ?_ rfl)
    | (with_reducible refine portMod_touches ?_ rfl)
    | (fail_if_no_progress (with_reducible refine touches_mk ?_ rfl rfl)))

end Sys2Proof.Machine
end

