-- ==== Sys2Proof/Laws/TouchesStackChannels.lean ====
section
/-! SUPPORT. What the operations of Machine/StackChannels.lean may change. -/

namespace Sys2Proof.Machine

variable {M : Mask} {s0 s t : State}

theorem cmdAct_touches {ch bank row : ℕ} {slot : Option ℕ} {clk : ℕ} (h : Touches M s0 s)
    (w : Mask.le { stk := true, free := true } M = true) : Touches M s0 (cmdAct s ch bank row slot clk) := by
  refine h.trans (Touches.mono ?_ w)
  have h0 := Touches.refl { stk := true, free := true } s
  clear h w
  unfold cmdAct
  repeat' (first
    | with_reducible assumption
    | (with_reducible refine chanSet_touches ?_ rfl)
    | (with_reducible refine drawFree_touches ?_ rfl)
    | with_reducible apply touches_ite)

theorem busColumns_touches {ch n : ℕ} (h : Touches M s0 s) (w : Mask.le { td := true } M = true) :
    Touches M s0 (busColumns s ch n) := by
  refine h.trans (Touches.mono ?_ w)
  have h0 := Touches.refl { td := true } s
  clear h w
  unfold busColumns
  repeat' (first
    | with_reducible assumption
    | ((try lift_lets); intro x; first
        | (have _ : Traffic := x; dsimp only [x]; clear x)
        | clear_value x)
    | with_reducible apply touches_ite
    | (with_reducible refine touches_foldl ?_ (fun _ _ _ => ?_))
    | (with_reducible refine touches_foldl_fst ?_ (fun _ _ _ => ?_))
    | (with_reducible refine touches_foldl_snd ?_ (fun _ _ _ => ?_))
    | (fail_if_no_progress (with_reducible refine touches_mk ?_ rfl rfl)))

/-- What `issue` may change. -/
abbrev Mask.issue : Mask :=
  { td := true, stk := true, free := true }

theorem issue_touches {ch : ℕ} {c : Chan} {clk : ℕ} {d : DramCmd} (h : Touches M s0 s)
    (w : Mask.le Mask.issue M = true) : Touches M s0 (issue s ch c clk d) := by
  refine h.trans (Touches.mono ?_ w)
  have h0 := Touches.refl Mask.issue s
  clear h w
  unfold issue
  repeat' (first
    | with_reducible assumption
    | (with_reducible refine busColumns_touches ?_ rfl)
    | (with_reducible refine chanSet_touches ?_ rfl)
    | (with_reducible refine cmdAct_touches ?_ rfl)
    | (fail_if_no_progress (with_reducible refine touches_mk ?_ rfl rfl))
    | split)

theorem scrubStep_touches {ch clk bank row col : ℕ} {f : State → State} (h : Touches M s0 s)
    (w : Mask.le Mask.issue M = true) (k : ∀ t, Touches M s0 t → Touches M s0 (f t)) :
    Touches M s0 (scrubStep s ch clk bank row col f) := by
  unfold scrubStep
  dsimp only
  repeat' split
  all_goals first
    | exact h
    | exact chanSet_touches h (Mask.le_trans rfl w)
    | exact cmdAct_touches h (Mask.le_trans rfl w)
    | exact k _ (Touches.trans (chanSet_touches h (Mask.le_trans rfl w)) (Touches.mono (m := Mask.issue) ⟨rfl, id⟩ w))

theorem startGraft_touches {ch : ℕ} (h : Touches M s0 s) (w : Mask.le { stk := true } M = true) :
    Touches M s0 (startGraft s ch) := by
  refine h.trans (Touches.mono ?_ w)
  have h0 := Touches.refl { stk := true } s
  clear h w
  unfold startGraft
  repeat' (first
    | with_reducible assumption
    | (with_reducible refine chanSet_touches ?_ rfl)
    | with_reducible apply touches_ite)

theorem pruneChan_touches {ch : ℕ} {readable : Bool} (h : Touches M s0 s) (w : Mask.le { stk := true } M = true) :
    Touches M s0 (pruneChan s ch readable) := by
  refine h.trans (Touches.mono ?_ w)
  have h0 := Touches.refl { stk := true } s
  clear h w
  unfold pruneChan
  repeat' (first
    | with_reducible assumption
    | ((try lift_lets); intro x; first
        | (refine (fun (hx : Touches { stk := true } s x) => ?_) ?_ <;> [clear_value x; (unfold x; clear x)])
        | clear_value x)
    | (with_reducible refine chanMod_touches ?_ rfl)
    | (with_reducible refine startGraft_touches ?_ rfl)
    | with_reducible apply touches_ite
    | (with_reducible refine touches_foldl ?_ (fun _ _ _ => ?_)))

theorem loseSlice_touches {sl : ℕ} (h : Touches M s0 s) (w : Mask.le Mask.readUnit M = true) :
    Touches M s0 (loseSlice s sl) := by
  refine h.trans (Touches.mono ?_ w)
  have h0 := Touches.refl Mask.readUnit s
  clear h w
  unfold loseSlice
  repeat' (first
    | with_reducible assumption
    | ((try lift_lets); intro x; first
        | (refine (fun (hx : Touches Mask.readUnit s x) => ?_) ?_ <;> [clear_value x; (unfold x; clear x)])
        | (have _ : Stack := x; dsimp only [x]; clear x)
        | clear_value x)
    | (with_reducible refine chanMod_touches ?_ rfl)
    | (with_reducible refine lgBreak_touches ?_ rfl)
    | (with_reducible refine lgForget_touches ?_ rfl)
    | (with_reducible refine logDram_touches ?_ rfl)
    | (with_reducible refine pteSet_touches ?_ rfl)
    | (with_reducible refine versionSet_touches ?_ rfl)
    | with_reducible apply touches_ite
    | (with_reducible refine touches_foldl ?_ (fun _ _ _ => ?_))
    | (with_reducible refine touches_foldl_fst ?_ (fun _ _ _ => ?_))
    | (with_reducible refine touches_foldl_snd ?_ (fun _ _ _ => ?_))
    | (fail_if_no_progress (with_reducible refine touches_mk ?_ rfl rfl))
    | (split <;> (try (rename_i e1; have e2 := congrArg Prod.fst e1; have e3 := congrArg Prod.snd e1; dsimp only at e2 e3; (try subst e2); (try subst e3)))))

theorem endSelfRefresh_touches {ch : ℕ} (h : Touches M s0 s) (w : Mask.le { stk := true } M = true) :
    Touches M s0 (endSelfRefresh s ch) := by
  refine h.trans (Touches.mono ?_ w)
  have h0 := Touches.refl { stk := true } s
  clear h w
  unfold endSelfRefresh
  repeat' (first
    | with_reducible assumption
    | ((try lift_lets); intro x; first
        | clear_value x)
    | (with_reducible refine chanSet_touches ?_ rfl)
    | with_reducible apply touches_ite)

theorem loseContents_touches {ch : ℕ} (h : Touches M s0 s) (w : Mask.le { stk := true } M = true) :
    Touches M s0 (loseContents s ch) := by
  refine h.trans (Touches.mono ?_ w)
  have h0 := Touches.refl { stk := true } s
  clear h w
  unfold loseContents
  repeat' (first
    | with_reducible assumption
    | ((try lift_lets); intro x; first
        | (refine (fun (hx : Touches { stk := true } s x) => ?_) ?_ <;> [clear_value x; (unfold x; clear x)])
        | clear_value x)
    | (with_reducible refine chanMod_touches ?_ rfl)
    | (with_reducible refine chanSet_touches ?_ rfl)
    | with_reducible apply touches_ite)

theorem adoptCells_touches {sl : ℕ} (h : Touches M s0 s) (w : Mask.le { stk := true } M = true) :
    Touches M s0 (adoptCells s sl) := by
  refine h.trans (Touches.mono ?_ w)
  have h0 := Touches.refl { stk := true } s
  clear h w
  unfold adoptCells
  repeat' (first
    | with_reducible assumption
    | ((try lift_lets); intro x; first
        | (have _ : Stack := x; dsimp only [x]; clear x)
        | clear_value x)
    | (with_reducible refine markSet_touches ?_ rfl)
    | with_reducible apply touches_ite
    | (with_reducible refine touches_foldl ?_ (fun _ _ _ => ?_))
    | (with_reducible refine touches_foldl_fst ?_ (fun _ _ _ => ?_))
    | (with_reducible refine touches_foldl_snd ?_ (fun _ _ _ => ?_))
    | (fail_if_no_progress (with_reducible refine touches_mk ?_ rfl rfl)))

theorem tickGraftSpare_touches {spare : ℕ} (h : Touches M s0 s) (w : Mask.le Mask.readUnit M = true) :
    Touches M s0 (tickGraftSpare s spare) := by
  refine h.trans (Touches.mono ?_ w)
  have h0 := Touches.refl Mask.readUnit s
  clear h w
  unfold tickGraftSpare
  repeat' (first
    | with_reducible assumption
    | ((try lift_lets); intro x; first
        | (refine (fun (hx : Touches Mask.readUnit s x) => ?_) ?_ <;> [clear_value x; (unfold x; clear x)])
        | clear_value x)
    | (with_reducible refine adoptCells_touches ?_ rfl)
    | (with_reducible refine chanMod_touches ?_ rfl)
    | (with_reducible refine chanSet_touches ?_ rfl)
    | (with_reducible refine loseSlice_touches ?_ rfl)
    | split)

theorem columnAt_touches {ch source bank row col : ℕ} {cells transit : List (ℕ × ℕ)} (h : Touches M s0 s)
    (w : Mask.le Mask.countCorrected M = true) : Touches M s0 (columnAt s ch source bank row col cells transit) :=
    by
  refine h.trans (Touches.mono ?_ w)
  have h0 := Touches.refl Mask.countCorrected s
  clear h w
  unfold columnAt
  repeat' (first
    | with_reducible assumption
    | (((try lift_lets); intro x); (refine (fun (hx : Touches Mask.countCorrected s x) => ?_) ?_ <;> [clear_value x; (unfold x; clear x)]))
    | (with_reducible refine markSet_touches ?_ rfl)
    | (with_reducible refine readColumn_touches ?_ rfl)
    | (with_reducible refine touches_foldl ?_ (fun _ _ _ => ?_))
    | split)

theorem writeBackColumn_touches {sl a : ℕ} (h : Touches M s0 s) (w : Mask.le { stk := true, di := true } M = true) :
    Touches M s0 (writeBackColumn s sl a) := by
  refine h.trans (Touches.mono ?_ w)
  have h0 := Touches.refl { stk := true, di := true } s
  clear h w
  unfold writeBackColumn
  repeat' (first
    | with_reducible assumption
    | ((try lift_lets); intro x; first
        | (refine (fun (hx : Touches { stk := true, di := true } s x) => ?_) ?_ <;> [clear_value x; (unfold x; clear x)])
        | clear_value x)
    | (with_reducible refine injectFlips_touches ?_ rfl)
    | (with_reducible refine markSet_touches ?_ rfl)
    | with_reducible apply touches_ite
    | (with_reducible refine touches_foldl ?_ (fun _ _ _ => ?_))
    | (with_reducible refine touches_foldl_fst ?_ (fun _ _ _ => ?_))
    | (with_reducible refine touches_foldl_snd ?_ (fun _ _ _ => ?_))
    | (fail_if_no_progress (with_reducible refine touches_mk ?_ rfl rfl))
    | (split <;> (try (rename_i e1; have e2 := congrArg Prod.fst e1; have e3 := congrArg Prod.snd e1; dsimp only at e2 e3; (try subst e2); (try subst e3)))))

theorem parityError_touches {ch : ℕ} (h : Touches M s0 s) (w : Mask.le { stk := true } M = true) :
    Touches M s0 (parityError s ch) := by
  refine h.trans (Touches.mono ?_ w)
  have h0 := Touches.refl { stk := true } s
  clear h w
  unfold parityError
  repeat' (first
    | with_reducible assumption
    | ((try lift_lets); intro x; first
        | (refine (fun (hx : Touches { stk := true } s x) => ?_) ?_ <;> [clear_value x; (unfold x; clear x)])
        | clear_value x)
    | (with_reducible refine chanMod_touches ?_ rfl)
    | (with_reducible refine pruneChan_touches ?_ rfl)
    | with_reducible apply touches_ite)

theorem clearChan_touches {ch : ℕ} (h : Touches M s0 s) (w : Mask.le { stk := true } M = true) :
    Touches M s0 (clearChan s ch) :=
  h.trans (Touches.mono ⟨rfl, id⟩ w)

end Sys2Proof.Machine
end

