-- ==== Sys2Proof/Laws/TouchesFlashTier.lean ====
section
/-! SUPPORT. What the operations of Machine/FlashTier.lean may change. -/

namespace Sys2Proof.Machine

variable {M : Mask} {s0 s t : State}

theorem copySet_touches {l : FlashLoc} {c : FlashCopy} (h : Touches M s0 s) (w : Mask.le { fl := true } M = true) :
    Touches M s0 (copySet s l c) :=
  h.trans (Touches.mono ⟨rfl, id⟩ w)

theorem noteDegraded_touches (h : Touches M s0 s) (w : Mask.le { fl := true, di := true } M = true) :
    Touches M s0 (noteDegraded s) :=
  h.trans (Touches.mono ⟨rfl, id⟩ w)

theorem retireBlock_touches {k : ℕ} (h : Touches M s0 s) (w : Mask.le { fl := true, di := true } M = true) :
    Touches M s0 (retireBlock s k) :=
  h.trans (Touches.mono ⟨rfl, id⟩ w)

theorem settleBlock_touches {k : ℕ} (h : Touches M s0 s) (w : Mask.le { fl := true, di := true } M = true) :
    Touches M s0 (settleBlock s k) := by
  refine h.trans (Touches.mono ?_ w)
  have h0 := Touches.refl { fl := true, di := true } s
  clear h w
  unfold settleBlock
  repeat' (first
    | with_reducible assumption
    | (with_reducible refine blockSet_touches ?_ rfl)
    | (with_reducible refine retireBlock_touches ?_ rfl)
    | with_reducible apply touches_ite)

theorem pageOf_touches {p k : ℕ} (h : Touches M s0 s) (w : Mask.le { fl := true } M = true) : Touches M s0 (pageOf s
    p k).1 :=
  h.trans (Touches.mono ⟨rfl, id⟩ w)

theorem nextPage_touches {p : Nat} {x} (e : nextPage s p = some (t, x)) (h : Touches M s0 s) (w : Mask.le { fl := true } M = true) :
    Touches M s0 t := by
  have key : ∀ k, pageOf s p k = (t, x) → Touches M s0 t := fun k e => by
    have e2 := congrArg Prod.fst e
    dsimp only at e2
    subst e2
    exact pageOf_touches h (Mask.le_trans rfl w)
  unfold nextPage at e
  repeat' (first | (cases e; done) | (split at e))
  all_goals (try simp only [Option.some.injEq, Option.map_eq_some_iff] at e)
  · exact key _ e
  · obtain ⟨w, -, e⟩ := e
    exact key _ e

theorem frameCopy_touches {p n f : ℕ} (h : Touches M s0 s) (w : Mask.le Mask.readMap M = true) :
    Touches M s0 (frameCopy s p n f).1 := by
  refine h.trans (Touches.mono ?_ w)
  have h0 := Touches.refl Mask.readMap s
  clear h w
  unfold frameCopy
  repeat' (first
    | with_reducible assumption
    | ((try lift_lets); intro x; first
        | (refine (fun (hx : Touches Mask.readMap s x.1) => ?_) ?_ <;> [clear_value x; (unfold x; clear x)]))
    | (with_reducible refine readLine_touches ?_ rfl)
    | (with_reducible refine touches_foldl_fst ?_ (fun _ _ _ => ?_))
    | (fail_if_no_progress (with_reducible refine touches_mk ?_ rfl rfl)))

theorem movedCopy_touches {p n : ℕ} {old : FlashLoc} (h : Touches M s0 s) (w : Mask.le { fl := true } M = true) :
    Touches M s0 (movedCopy s p n old).1 := by
  refine h.trans (Touches.mono ?_ w)
  have h0 := Touches.refl { fl := true } s
  clear h w
  unfold movedCopy
  repeat' (first
    | with_reducible assumption
    | ((try lift_lets); intro x; first
        | clear_value x)
    | (with_reducible refine blockMod_touches ?_ rfl)
    | (with_reducible refine issueOnfi_touches ?_ rfl))

theorem moveGranule_touches {p n : ℕ} (h : Touches M s0 s) (w : Mask.le Mask.granSet M = true) :
    Touches M s0 (moveGranule s p n) := by
  refine h.trans (Touches.mono ?_ w)
  have h0 := Touches.refl Mask.granSet s
  clear h w
  unfold moveGranule
  repeat' (first
    | with_reducible assumption
    | ((try lift_lets); intro x; clear_value x)
    | (with_reducible refine copySet_touches ?_ rfl)
    | (with_reducible refine granSet_touches ?_ rfl)
    | (with_reducible refine movedCopy_touches ?_ rfl)
    | (with_reducible refine nextPage_touches (by assumption) ?_ rfl)
    | split)

theorem resumeMoves_touches (h : Touches M s0 s) (w : Mask.le Mask.granSet M = true) : Touches M s0 (resumeMoves s)
    := by
  refine h.trans (Touches.mono ?_ w)
  have h0 := Touches.refl Mask.granSet s
  clear h w
  unfold resumeMoves
  repeat' (first
    | with_reducible assumption
    | (with_reducible refine moveGranule_touches ?_ rfl)
    | (with_reducible refine settleBlock_touches ?_ rfl)
    | with_reducible apply touches_ite
    | (with_reducible refine touches_foldl ?_ (fun _ _ _ => ?_)))

theorem graftFlash_touches (h : Touches M s0 s) (w : Mask.le Mask.granSet M = true) : Touches M s0 (graftFlash s) :=
    by
  refine h.trans (Touches.mono ?_ w)
  have h0 := Touches.refl Mask.granSet s
  clear h w
  unfold graftFlash
  repeat' (first
    | with_reducible assumption
    | (with_reducible refine resumeMoves_touches ?_ rfl)
    | (with_reducible refine touches_foldl ?_ (fun _ _ _ => ?_))
    | (fail_if_no_progress (with_reducible refine touches_mk ?_ rfl rfl)))

theorem emptyBlock_touches {k : ℕ} {retiring : Bool} (h : Touches M s0 s) (w : Mask.le Mask.granSet M = true) :
    Touches M s0 (emptyBlock s k retiring) := by
  refine h.trans (Touches.mono ?_ w)
  have h0 := Touches.refl Mask.granSet s
  clear h w
  unfold emptyBlock
  repeat' (first
    | with_reducible assumption
    | (with_reducible refine blockMod_touches ?_ rfl)
    | (with_reducible refine moveGranule_touches ?_ rfl)
    | (with_reducible refine settleBlock_touches ?_ rfl)
    | (with_reducible refine touches_foldl ?_ (fun _ _ _ => ?_)))

theorem countWl_touches (h : Touches M s0 s) (w : Mask.le { fl := true } M = true) : Touches M s0 (countWl s) :=
  h.trans (Touches.mono ⟨rfl, id⟩ w)

theorem markLine_touches {sl a : ℕ} (h : Touches M s0 s) (w : Mask.le { stk := true } M = true) :
    Touches M s0 (markLine s sl a) := by
  refine h.trans (Touches.mono ?_ w)
  have h0 := Touches.refl { stk := true } s
  clear h w
  unfold markLine
  repeat' (first
    | with_reducible assumption
    | (with_reducible refine markSet_touches ?_ rfl)
    | (with_reducible refine touches_foldl ?_ (fun _ _ _ => ?_)))

/-- What `blurCodeword` may change. -/
abbrev Mask.blurCodeword : Mask :=
  { stk := true, free := true, dram := true }

theorem blurCodeword_touches {p f i : ℕ} (h : Touches M s0 s) (w : Mask.le Mask.blurCodeword M = true) :
    Touches M s0 (blurCodeword s p f i) := by
  refine h.trans (Touches.mono ?_ w)
  have h0 := Touches.refl Mask.blurCodeword s
  clear h w
  unfold blurCodeword
  repeat' (first
    | with_reducible assumption
    | (with_reducible refine dramSetByte_touches ?_ rfl)
    | (with_reducible refine drawBytes_touches ?_ rfl)
    | with_reducible apply touches_ite
    | (with_reducible refine touches_foldl ?_ (fun _ _ _ => ?_))
    | (with_reducible refine touches_foldl_fst ?_ (fun _ _ _ => ?_))
    | (with_reducible refine touches_foldl_snd ?_ (fun _ _ _ => ?_))
    | (fail_if_no_progress (with_reducible refine touches_mk ?_ rfl rfl))
    | (split <;> (try (rename_i e1; have e2 := congrArg Prod.fst e1; have e3 := congrArg Prod.snd e1; dsimp only at e2 e3; (try subst e2); (try subst e3)))))

/-- What `installCopy` may change. -/
abbrev Mask.installCopy : Mask :=
  { stk := true, di := true, free := true, dram := true }

theorem installCopy_touches {p f : ℕ} {c : FlashCopy} {bad : ℕ → Bool} (h : Touches M s0 s)
    (w : Mask.le Mask.installCopy M = true) : Touches M s0 (installCopy s p f c bad) := by
  refine h.trans (Touches.mono ?_ w)
  have h0 := Touches.refl Mask.installCopy s
  clear h w
  unfold installCopy
  repeat' (first
    | with_reducible assumption
    | (with_reducible refine blurCodeword_touches ?_ rfl)
    | (with_reducible refine dramSetByte_touches ?_ rfl)
    | (with_reducible refine markLine_touches ?_ rfl)
    | (with_reducible refine zeroFrame_touches ?_ rfl)
    | (with_reducible refine touches_foldl ?_ (fun _ _ _ => ?_))
    | split)

theorem noteCodewords_touches {l : FlashLoc} {p n : ℕ} {reads : List CodewordRead} (h : Touches M s0 s)
    (w : Mask.le { fl := true, di := true } M = true) : Touches M s0 (noteCodewords s l p n reads) := by
  refine h.trans (Touches.mono ?_ w)
  have h0 := Touches.refl { fl := true, di := true } s
  clear h w
  unfold noteCodewords
  repeat' (first
    | with_reducible assumption
    | (((try lift_lets); intro x); (refine (fun (hx : Touches { fl := true, di := true } s x) => ?_) ?_ <;> [clear_value x; (unfold x; clear x)]))
    | (with_reducible refine blockMod_touches ?_ rfl)
    | (with_reducible refine logError_touches ?_ rfl)
    | (with_reducible refine touches_foldl ?_ (fun _ _ _ => ?_))
    | (fail_if_no_progress (with_reducible refine touches_mk ?_ rfl rfl))
    | split)

theorem judgeBlock_touches {k : ℕ} {reads : List CodewordRead} (h : Touches M s0 s)
    (w : Mask.le Mask.granSet M = true) : Touches M s0 (judgeBlock s k reads) := by
  refine h.trans (Touches.mono ?_ w)
  have h0 := Touches.refl Mask.granSet s
  clear h w
  unfold judgeBlock
  repeat' (first
    | with_reducible assumption
    | ((try lift_lets); intro x; first
        | clear_value x)
    | (with_reducible refine countWl_touches ?_ rfl)
    | (with_reducible refine emptyBlock_touches ?_ rfl)
    | with_reducible apply touches_ite)

theorem invalidate_touches {old : Option FlashLoc} (h : Touches M s0 s)
    (w : Mask.le { fl := true, di := true } M = true) : Touches M s0 (invalidate s old) := by
  refine h.trans (Touches.mono ?_ w)
  have h0 := Touches.refl { fl := true, di := true } s
  clear h w
  unfold invalidate
  repeat' (first
    | with_reducible assumption
    | (with_reducible refine copySet_touches ?_ rfl)
    | (with_reducible refine settleBlock_touches ?_ rfl)
    | split)

/-- What `fetchDone` may change. -/
abbrev Mask.fetchDone : Mask :=
  { stk := true, fl := true, di := true, free := true, dram := true }

theorem fetchDone_touches {p n : ℕ} {reads : List CodewordRead} (h : Touches M s0 s)
    (w : Mask.le Mask.fetchDone M = true) : Touches M s0 (fetchDone s p n reads) := by
  refine h.trans (Touches.mono ?_ w)
  have h0 := Touches.refl Mask.fetchDone s
  clear h w
  unfold fetchDone
  repeat' (first
    | with_reducible assumption
    | ((try lift_lets); intro x; first
        | (refine (fun (hx : Touches Mask.fetchDone s x) => ?_) ?_ <;> [clear_value x; (unfold x; clear x)])
        | clear_value x)
    | (with_reducible refine blockMod_touches ?_ rfl)
    | (with_reducible refine granSet_touches ?_ rfl)
    | (with_reducible refine installCopy_touches ?_ rfl)
    | (with_reducible refine invalidate_touches ?_ rfl)
    | (with_reducible refine judgeBlock_touches ?_ rfl)
    | (with_reducible refine noteCodewords_touches ?_ rfl)
    | with_reducible apply touches_ite
    | (with_reducible refine touches_foldl ?_ (fun _ _ _ => ?_))
    | (with_reducible refine touches_foldl_fst ?_ (fun _ _ _ => ?_))
    | (with_reducible refine touches_foldl_snd ?_ (fun _ _ _ => ?_))
    | (fail_if_no_progress (with_reducible refine touches_mk ?_ rfl rfl))
    | (split <;> (try (rename_i e1; have e2 := congrArg Prod.fst e1; have e3 := congrArg Prod.snd e1; dsimp only at e2 e3; (try subst e2); (try subst e3)))))

theorem discover_touches {r : FlashReport} (h : Touches M s0 s) (w : Mask.le { fl := true, di := true } M = true) :
    Touches M s0 (discover s r) :=
  h.trans (Touches.mono ⟨rfl, id⟩ w)

theorem moveOn_touches {p n : ℕ} {l : FlashLoc} (h : Touches M s0 s) (w : Mask.le Mask.granSet M = true) :
    Touches M s0 (moveOn s p n l) := by
  refine h.trans (Touches.mono ?_ w)
  have h0 := Touches.refl Mask.granSet s
  clear h w
  unfold moveOn
  repeat' (first
    | with_reducible assumption
    | (with_reducible refine moveGranule_touches ?_ rfl)
    | with_reducible apply touches_ite)

theorem moveInto_touches {src dst : ℕ} (h : Touches M s0 s) (w : Mask.le Mask.granSet M = true) :
    Touches M s0 (moveInto s src dst) := by
  refine h.trans (Touches.mono ?_ w)
  have h0 := Touches.refl Mask.granSet s
  clear h w
  unfold moveInto
  repeat' (first
    | with_reducible assumption
    | ((try lift_lets); intro x; first
        | (refine (fun (hx : Touches Mask.granSet s x) => ?_) ?_ <;> [clear_value x; (unfold x; clear x)])
        | clear_value x)
    | (with_reducible refine blockMod_touches ?_ rfl)
    | (with_reducible refine copySet_touches ?_ rfl)
    | (with_reducible refine granSet_touches ?_ rfl)
    | (with_reducible refine movedCopy_touches ?_ rfl)
    | (with_reducible refine pageOf_touches ?_ rfl)
    | (with_reducible refine settleBlock_touches ?_ rfl)
    | (with_reducible refine touches_foldl ?_ (fun _ _ _ => ?_))
    | split)

theorem clearFlash_touches (h : Touches M s0 s) (w : Mask.le { parts := true, fl := true } M = true) :
    Touches M s0 (clearFlash s) := by
  refine h.trans (Touches.mono ?_ w)
  have h0 := Touches.refl { parts := true, fl := true } s
  clear h w
  unfold clearFlash
  repeat' (first
    | with_reducible assumption
    | (((try lift_lets); intro x); (refine (fun (hx : Touches { parts := true, fl := true } s x) => ?_) ?_ <;> [clear_value x; (unfold x; clear x)]))
    | (with_reducible refine partCnt_touches ?_ rfl)
    | (with_reducible refine touches_foldl ?_ (fun _ _ _ => ?_))
    | (fail_if_no_progress (with_reducible refine touches_mk ?_ rfl rfl)))

end Sys2Proof.Machine
end

