-- ==== Sys2Proof/Laws/TouchesQueues.lean ====
section
/-! SUPPORT. What the operations of Machine/Queues.lean may change. -/

namespace Sys2Proof.Machine

variable {M : Mask} {s0 s t : State}

theorem logMod_touches {y_1 : ℕ} {f : Engine → Engine} (h : Touches M s0 s) (w : Mask.le { eng := true } M = true) :
    Touches M s0 (logMod s y_1 f) :=
  h.trans (Touches.mono ⟨rfl, id⟩ w)

theorem countEng_touches {p y_2 : ℕ} {f : Engine → Engine} (h : Touches M s0 s)
    (w : Mask.le { eng := true } M = true) : Touches M s0 (countEng s p y_2 f) := by
  refine h.trans (Touches.mono ?_ w)
  have h0 := Touches.refl { eng := true } s
  clear h w
  unfold countEng
  repeat' (first
    | with_reducible assumption
    | (with_reducible refine logMod_touches ?_ rfl)
    | split)

/-- What `queueWord` may change. -/
abbrev Mask.queueWord : Mask :=
  { parts := true, near := true, eng := true, di := true }

theorem queueWord_touches {p q n : ℕ} {now : optParam Bool false} (h : Touches M s0 s)
    (w : Mask.le Mask.queueWord M = true) : Touches M s0 (queueWord s p q n now).1 := by
  refine h.trans (Touches.mono ?_ w)
  have h0 := Touches.refl Mask.queueWord s
  clear h w
  unfold queueWord
  repeat' (first
    | with_reducible assumption
    | (with_reducible refine nearEnter_touches ?_ rfl)
    | (with_reducible refine nearSeeWord_touches ?_ rfl)
    | (with_reducible refine otherBegin_touches ?_ rfl)
    | (with_reducible refine pairMod_touches ?_ rfl)
    | split)

theorem queueWords_touches {p q n count : ℕ} (h : Touches M s0 s) (w : Mask.le Mask.queueWord M = true) :
    Touches M s0 (queueWords s p q n count).1 := by
  refine h.trans (Touches.mono ?_ w)
  have h0 := Touches.refl Mask.queueWord s
  clear h w
  unfold queueWords
  repeat' (first
    | with_reducible assumption
    | (with_reducible refine queueWord_touches ?_ rfl)
    | (with_reducible refine touches_foldl_fst ?_ (fun _ _ _ => ?_)))

theorem queueStore_touches {p n v : ℕ} (h : Touches M s0 s) (w : Mask.le Mask.nearWriteWord M = true) :
    Touches M s0 (queueStore s p n v) := by
  refine h.trans (Touches.mono ?_ w)
  have h0 := Touches.refl Mask.nearWriteWord s
  clear h w
  unfold queueStore
  repeat' (first
    | with_reducible assumption
    | ((try lift_lets); intro x; first
        | (refine (fun (hx : Touches Mask.nearWriteWord s x) => ?_) ?_ <;> [clear_value x; (unfold x; clear x)])
        | clear_value x)
    | (with_reducible refine countCollision_touches ?_ rfl)
    | (with_reducible refine nearWriteWord_touches ?_ rfl)
    | (with_reducible refine otherBegin_touches ?_ rfl)
    | with_reducible apply touches_ite
    | (with_reducible refine touches_foldl ?_ (fun _ _ _ => ?_))
    | (with_reducible refine touches_foldl_fst ?_ (fun _ _ _ => ?_))
    | (with_reducible refine touches_foldl_snd ?_ (fun _ _ _ => ?_))
    | (fail_if_no_progress (with_reducible refine touches_mk ?_ rfl rfl))
    | (split <;> (try (rename_i e1; have e2 := congrArg Prod.fst e1; have e3 := congrArg Prod.snd e1; dsimp only at e2 e3; (try subst e2); (try subst e3)))))

theorem disablePair_touches {p q : ℕ} (h : Touches M s0 s) (w : Mask.le { eng := true } M = true) :
    Touches M s0 (disablePair s p q) :=
  h.trans (Touches.mono ⟨rfl, id⟩ w)

theorem writeSqCfg_touches {p q : ℕ} {y_3 : Word} (h : Touches M s0 s) (w : Mask.le { eng := true } M = true) :
    Touches M s0 (writeSqCfg s p q y_3) := by
  refine h.trans (Touches.mono ?_ w)
  have h0 := Touches.refl { eng := true } s
  clear h w
  unfold writeSqCfg
  repeat' (first
    | with_reducible assumption
    | (((try lift_lets); intro x); (refine (fun (hx : Touches { eng := true } s x) => ?_) ?_ <;> [clear_value x; (unfold x; clear x)]))
    | (with_reducible refine disablePair_touches ?_ rfl)
    | (with_reducible refine pairMod_touches ?_ rfl)
    | (with_reducible refine pairSet_touches ?_ rfl)
    | with_reducible apply touches_ite)

/-- What `startPair` may change. -/
abbrev Mask.startPair : Mask :=
  { parts := true, near := true, eng := true, di := true, nearMem := true }

theorem startPair_touches {p q : ℕ} (h : Touches M s0 s) (w : Mask.le Mask.startPair M = true) :
    Touches M s0 (startPair s p q) := by
  refine h.trans (Touches.mono ?_ w)
  have h0 := Touches.refl Mask.startPair s
  clear h w
  unfold startPair
  repeat' (first
    | with_reducible assumption
    | (((try lift_lets); intro x); (refine (fun (hx : Touches Mask.startPair s x) => ?_) ?_ <;> [clear_value x; (unfold x; clear x)]))
    | (with_reducible refine pairSet_touches ?_ rfl)
    | (with_reducible refine queueStore_touches ?_ rfl)
    | with_reducible apply touches_ite
    | (with_reducible refine touches_foldl ?_ (fun _ _ _ => ?_)))

theorem startPairs_touches (h : Touches M s0 s) (w : Mask.le Mask.startPair M = true) : Touches M s0 (startPairs s)
    := by
  refine h.trans (Touches.mono ?_ w)
  have h0 := Touches.refl Mask.startPair s
  clear h w
  unfold startPairs
  repeat' (first
    | with_reducible assumption
    | (with_reducible refine startPair_touches ?_ rfl)
    | (with_reducible refine touches_foldl ?_ (fun _ _ _ => ?_)))

theorem endPairs_touches {p : ℕ} (h : Touches M s0 s) (w : Mask.le { eng := true } M = true) :
    Touches M s0 (endPairs s p) := by
  refine h.trans (Touches.mono ?_ w)
  have h0 := Touches.refl { eng := true } s
  clear h w
  unfold endPairs
  repeat' (first
    | with_reducible assumption
    | (with_reducible refine pairMod_touches ?_ rfl)
    | (with_reducible refine touches_foldl ?_ (fun _ _ _ => ?_)))

theorem haltPair_touches {p q cause : ℕ} (h : Touches M s0 s) (w : Mask.le { eng := true } M = true) :
    Touches M s0 (haltPair s p q cause) :=
  h.trans (Touches.mono ⟨rfl, id⟩ w)

/-- What `writeCompletion` may change. -/
abbrev Mask.writeCompletion : Mask :=
  { parts := true, coh := true, near := true, eng := true, di := true, svc := true, nearMem := true }

theorem writeCompletion_touches {p q : ℕ} {st : Status} {addr : ℕ} (h : Touches M s0 s)
    (w : Mask.le Mask.writeCompletion M = true) : Touches M s0 (writeCompletion s p q st addr) := by
  refine h.trans (Touches.mono ?_ w)
  have h0 := Touches.refl Mask.writeCompletion s
  clear h w
  unfold writeCompletion
  repeat' (first
    | with_reducible assumption
    | ((try lift_lets); intro x; first
        | (refine (fun (hx : Touches Mask.writeCompletion s x) => ?_) ?_ <;> [clear_value x; (unfold x; clear x)])
        | clear_value x)
    | (with_reducible refine dropPieces_touches ?_ rfl)
    | (with_reducible refine dropSvc_touches ?_ rfl)
    | (with_reducible refine pairMod_touches ?_ rfl)
    | (with_reducible refine queueStore_touches ?_ rfl)
    | (with_reducible refine touches_foldl ?_ (fun _ _ _ => ?_))
    | split)

/-- What `postCompletion` may change. -/
abbrev Mask.postCompletion : Mask :=
  { parts := true, coh := true, stk := true, near := true, eng := true, di := true, svc := true, nearMem := true
    }

theorem postCompletion_touches {p q : ℕ} {st : Status} {addr : ℕ} (h : Touches M s0 s)
    (w : Mask.le Mask.postCompletion M = true) : Touches M s0 (postCompletion s p q st addr) := by
  refine h.trans (Touches.mono ?_ w)
  have h0 := Touches.refl Mask.postCompletion s
  clear h w
  unfold postCompletion
  repeat' (first
    | with_reducible assumption
    | ((try lift_lets); intro x; clear_value x)
    | (with_reducible refine lgAppend_touches ?_ rfl)
    | (with_reducible refine pairMod_touches ?_ rfl)
    | (with_reducible refine writeCompletion_touches ?_ rfl)
    | (split <;> (try (rename_i e1; have e2 := congrArg Prod.fst e1; have e3 := congrArg Prod.snd e1; dsimp only at e2 e3; (try subst e2); (try subst e3)))))

theorem applyPrune_touches {phys : ℕ} (h : Touches M s0 s) (w : Mask.le { eng := true } M = true) :
    Touches M s0 (applyPrune s phys) := by
  refine h.trans (Touches.mono ?_ w)
  have h0 := Touches.refl { eng := true } s
  clear h w
  unfold applyPrune
  repeat' (first
    | with_reducible assumption
    | (with_reducible refine engMod_touches ?_ rfl)
    | with_reducible apply touches_ite)

theorem endLead_touches {p q : ℕ} (h : Touches M s0 s) (w : Mask.le { eng := true } M = true) :
    Touches M s0 (endLead s p q) := by
  refine h.trans (Touches.mono ?_ w)
  have h0 := Touches.refl { eng := true } s
  clear h w
  unfold endLead
  repeat' (first
    | with_reducible assumption
    | (with_reducible refine applyPrune_touches ?_ rfl)
    | (with_reducible refine logMod_touches ?_ rfl)
    | split)

theorem endCommand_touches {p q : ℕ} {st : Status} {addr : ℕ} (h : Touches M s0 s)
    (w : Mask.le Mask.postCompletion M = true) : Touches M s0 (endCommand s p q st addr) := by
  refine h.trans (Touches.mono ?_ w)
  have h0 := Touches.refl Mask.postCompletion s
  clear h w
  unfold endCommand
  repeat' (first
    | with_reducible assumption
    | (with_reducible refine countEng_touches ?_ rfl)
    | (with_reducible refine endLead_touches ?_ rfl)
    | (with_reducible refine postCompletion_touches ?_ rfl)
    | split)

theorem noAddress_touches (h : Touches M s0 s) (w : Mask.le { free := true } M = true) : Touches M s0 (noAddress
    s).1 := by
  refine h.trans (Touches.mono ?_ w)
  have h0 := Touches.refl { free := true } s
  clear h w
  unfold noAddress
  repeat' (first
    | with_reducible assumption
    | (with_reducible refine drawFree_touches ?_ rfl))

theorem restartPair_touches {p q : ℕ} (h : Touches M s0 s) (w : Mask.le { eng := true } M = true) :
    Touches M s0 (restartPair s p q) :=
  h.trans (Touches.mono ⟨rfl, id⟩ w)

theorem clearPair_touches {p q : ℕ} (h : Touches M s0 s) (w : Mask.le { eng := true } M = true) :
    Touches M s0 (clearPair s p q) :=
  h.trans (Touches.mono ⟨rfl, id⟩ w)

theorem samplePair_touches {p q : ℕ} (h : Touches M s0 s) (w : Mask.le Mask.queueWord M = true) :
    Touches M s0 (samplePair s p q) := by
  refine h.trans (Touches.mono ?_ w)
  have h0 := Touches.refl Mask.queueWord s
  clear h w
  unfold samplePair
  repeat' (first
    | with_reducible assumption
    | (with_reducible refine haltPair_touches ?_ rfl)
    | (with_reducible refine pairMod_touches ?_ rfl)
    | (with_reducible refine queueWord_touches ?_ rfl)
    | with_reducible apply touches_ite)

/-- What `popCompletion` may change. -/
abbrev Mask.popCompletion : Mask :=
  { parts := true, flows := true, ports := true, fab := true, near := true, eng := true, di := true, eth :=
    true, sec := true, twn := true, svc := true, out := true, nearMem := true }

theorem popCompletion_touches {v : Service} {p q : ℕ} (h : Touches M s0 s) (w : Mask.le Mask.popCompletion M = true)
    : Touches M s0 (popCompletion s v p q) := by
  refine h.trans (Touches.mono ?_ w)
  have h0 := Touches.refl Mask.popCompletion s
  clear h w
  unfold popCompletion
  repeat' (first
    | with_reducible assumption
    | (with_reducible refine countPoison_touches ?_ rfl)
    | (with_reducible refine finish_touches ?_ rfl)
    | (with_reducible refine pairMod_touches ?_ rfl)
    | (with_reducible refine queueStore_touches ?_ rfl)
    | (with_reducible refine queueWords_touches ?_ rfl)
    | with_reducible apply touches_ite)

end Sys2Proof.Machine
end

