-- ==== Sys2Proof/Laws/TouchesEngineCmds.lean ====
section
/-! SUPPORT. What the operations of Machine/EngineCmds.lean may change. -/

namespace Sys2Proof.Machine

variable {M : Mask} {s0 s t : State}

theorem countCheck_touches {p : ℕ} {d : Desc} {r : Status × Option ℕ} (h : Touches M s0 s)
    (w : Mask.le { parts := true } M = true) : Touches M s0 (countCheck s p d r) := by
  refine h.trans (Touches.mono ?_ w)
  have h0 := Touches.refl { parts := true } s
  clear h w
  unfold countCheck
  repeat' (first
    | with_reducible assumption
    | (with_reducible refine partCnt_touches ?_ rfl)
    | split)

theorem cmdMod_touches {p q : ℕ} {f : Command → Command} (h : Touches M s0 s) (w : Mask.le { eng := true } M = true)
    : Touches M s0 (cmdMod s p q f) :=
  h.trans (Touches.mono ⟨rfl, id⟩ w)

theorem underPages_touches {p : Nat} {pages : List (Nat × Nat)} {f : State → State} (h : Touches M s0 s)
    (w : Mask.le { eng := true } M = true) (k : ∀ t, Touches M s0 t → Touches M s0 (f t)) :
    Touches M s0 (underPages s p pages f) := by
  unfold underPages
  have ht := k _ (touches_foldl (l := pages) (f := fun s x => pteSet s p x.1 (.mapped x.2)) h
    (fun _ k _ => pteSet_touches k (Mask.le_trans rfl w)))
  exact ht.trans (Touches.mono (m := { eng := true }) ⟨rfl, id⟩ w)

theorem issueTile_touches {p q : ℕ} {bs : List Blk} {b : Blk} (h : Touches M s0 s)
    (w : Mask.le Mask.readUnit M = true) : Touches M s0 (issueTile s p q bs b) := by
  refine h.trans (Touches.mono ?_ w)
  have h0 := Touches.refl Mask.readUnit s
  clear h w
  unfold issueTile
  repeat' (first
    | with_reducible assumption
    | ((try lift_lets); intro x; first
        | (refine (fun (hx : Touches Mask.readUnit s x) => ?_) ?_ <;> [clear_value x; (unfold x; clear x)])
        | clear_value x)
    | (with_reducible refine cmdMod_touches ?_ rfl)
    | (with_reducible refine partCnt_touches ?_ rfl)
    | (with_reducible refine translateNow_touches ?_ rfl)
    | with_reducible apply touches_ite
    | (with_reducible refine touches_foldl ?_ (fun _ _ _ => ?_))
    | (with_reducible refine touches_foldl_fst ?_ (fun _ _ _ => ?_))
    | (with_reducible refine touches_foldl_snd ?_ (fun _ _ _ => ?_))
    | (fail_if_no_progress (with_reducible refine touches_mk ?_ rfl rfl)))

theorem prefetchNow_touches {p : ℕ} {c : Command} {b : Blk} (h : Touches M s0 s)
    (w : Mask.le Mask.readUnit M = true) : Touches M s0 (prefetchNow s p c b) := by
  refine h.trans (Touches.mono ?_ w)
  have h0 := Touches.refl Mask.readUnit s
  clear h w
  unfold prefetchNow
  repeat' (first
    | with_reducible assumption
    | ((try lift_lets); intro x; first
        | clear_value x)
    | (with_reducible refine bufPut_touches ?_ rfl)
    | (with_reducible refine countWalk_touches ?_ rfl)
    | with_reducible apply touches_ite
    | (with_reducible refine touches_foldl ?_ (fun _ _ _ => ?_))
    | (with_reducible refine touches_foldl_fst ?_ (fun _ _ _ => ?_))
    | (with_reducible refine touches_foldl_snd ?_ (fun _ _ _ => ?_))
    | (fail_if_no_progress (with_reducible refine touches_mk ?_ rfl rfl))
    | (split <;> (try (rename_i e1; have e2 := congrArg Prod.fst e1; have e3 := congrArg Prod.snd e1; dsimp only at e2 e3; (try subst e2); (try subst e3)))))

theorem issueNext_touches {p q : ℕ} {c : Command} {b : Blk} (h : Touches M s0 s)
    (w : Mask.le Mask.readUnit M = true) : Touches M s0 (issueNext s p q c b) := by
  refine h.trans (Touches.mono ?_ w)
  have h0 := Touches.refl Mask.readUnit s
  clear h w
  unfold issueNext
  repeat' (first
    | with_reducible assumption
    | ((try lift_lets); intro x; first
        | (refine (fun (hx : Touches Mask.readUnit s x) => ?_) ?_ <;> [clear_value x; (unfold x; clear x)])
        | clear_value x)
    | (with_reducible refine issueTile_touches ?_ rfl)
    | (with_reducible refine prefetchNow_touches ?_ rfl)
    | with_reducible apply touches_ite
    | (with_reducible refine touches_foldl ?_ (fun _ _ _ => ?_))
    | (with_reducible refine touches_foldl_fst ?_ (fun _ _ _ => ?_))
    | (with_reducible refine touches_foldl_snd ?_ (fun _ _ _ => ?_))
    | (fail_if_no_progress (with_reducible refine touches_mk ?_ rfl rfl))
    | (split <;> (try (rename_i e1; have e2 := congrArg Prod.fst e1; have e3 := congrArg Prod.snd e1; dsimp only at e2 e3; (try subst e2); (try subst e3)))))

theorem moveBlock_touches {v : Service} {p : ℕ} {y_3 : TileRec} {write : Bool} {span : ℕ × ℕ} {b : Blk} {bs : List
    Byte} (h : Touches M s0 s) (w : Mask.le Mask.serveRead M = true) : Touches M s0 (moveBlock s v p y_3 write span
    b bs) := by
  refine h.trans (Touches.mono ?_ w)
  have h0 := Touches.refl Mask.serveRead s
  clear h w
  unfold moveBlock
  repeat' (first
    | with_reducible assumption
    | ((try lift_lets); intro x; first
        | clear_value x)
    | (with_reducible refine gather_touches ?_ rfl)
    | (with_reducible refine startRangeAt_touches ?_ rfl)
    | (with_reducible refine underPages_touches ?_ rfl (fun _ _ => ?_))
    | with_reducible apply touches_ite)

theorem moveTile_touches {v : Service} {p q : ℕ} {write : Bool} {span : ℕ × ℕ} {b : Blk} {out : List Byte}
    (h : Touches M s0 s) (w : Mask.le Mask.serveRead M = true) : Touches M s0 (moveTile s v p q write span b out) :=
    by
  refine h.trans (Touches.mono ?_ w)
  have h0 := Touches.refl Mask.serveRead s
  clear h w
  unfold moveTile
  repeat' (first
    | with_reducible assumption
    | ((try lift_lets); intro x; first
        | (have _ := fun a => x a; dsimp only [x]; clear x)
        | clear_value x)
    | (with_reducible refine cmdMod_touches ?_ rfl)
    | (with_reducible refine moveBlock_touches ?_ rfl)
    | with_reducible apply touches_ite
    | (with_reducible refine touches_foldl ?_ (fun _ _ _ => ?_))
    | (with_reducible refine touches_foldl_fst ?_ (fun _ _ _ => ?_))
    | (with_reducible refine touches_foldl_snd ?_ (fun _ _ _ => ?_))
    | (fail_if_no_progress (with_reducible refine touches_mk ?_ rfl rfl))
    | (split <;> (try (rename_i e1; have e2 := congrArg Prod.fst e1; have e3 := congrArg Prod.snd e1; dsimp only at e2 e3; (try subst e2); (try subst e3)))))

theorem moveBlocks_touches {v : Service} {p q : ℕ} {write : Bool} {span : ℕ × ℕ} {bs : List Blk} {out : Blk → List
    Byte} (h : Touches M s0 s) (w : Mask.le Mask.serveRead M = true) : Touches M s0 (moveBlocks s v p q write span
    bs out) := by
  refine h.trans (Touches.mono ?_ w)
  have h0 := Touches.refl Mask.serveRead s
  clear h w
  unfold moveBlocks
  repeat' (first
    | with_reducible assumption
    | (with_reducible refine issueNext_touches ?_ rfl)
    | (with_reducible refine moveTile_touches ?_ rfl)
    | (with_reducible refine touches_foldl ?_ (fun _ _ _ => ?_))
    | split)

/-- What `sendOutput` may change. -/
abbrev Mask.sendOutput : Mask :=
  { parts := true, flows := true, td := true, ports := true, fab := true }

theorem sendOutput_touches {p q : ℕ} {tag : Word} {d : Desc} {bytes : List Byte} (h : Touches M s0 s)
    (w : Mask.le Mask.sendOutput M = true) : Touches M s0 (sendOutput s p q tag d bytes) := by
  refine h.trans (Touches.mono ?_ w)
  have h0 := Touches.refl Mask.sendOutput s
  clear h w
  unfold sendOutput
  repeat' (first
    | with_reducible assumption
    | (((try lift_lets); intro x); (refine (fun (hx : Touches Mask.sendOutput s x) => ?_) ?_ <;> [clear_value x; (unfold x; clear x)]))
    | (with_reducible refine charge_touches ?_ rfl)
    | (with_reducible refine debtNet_touches ?_ rfl)
    | (with_reducible refine inject_touches ?_ rfl)
    | (with_reducible refine touches_foldl ?_ (fun _ _ _ => ?_)))

/-- What `concludeParts` may change. -/
abbrev Mask.concludeParts : Mask :=
  { parts := true, coh := true, stk := true, near := true, fl := true, eng := true, di := true, free := true,
    dram := true, nearMem := true }

theorem concludeParts_touches {p q : ℕ} {c : Command} {bs : List Blk} (h : Touches M s0 s)
    (w : Mask.le Mask.concludeParts M = true) : Touches M s0 (concludeParts s p q c bs) := by
  refine h.trans (Touches.mono ?_ w)
  have h0 := Touches.refl Mask.concludeParts s
  clear h w
  unfold concludeParts
  repeat' (first
    | with_reducible assumption
    | ((try lift_lets); intro x; first
        | clear_value x)
    | (with_reducible refine blurParts_touches ?_ rfl)
    | (with_reducible refine cmdMod_touches ?_ rfl)
    | (with_reducible refine countPoison_touches ?_ rfl)
    | (with_reducible refine dropPieces_touches ?_ rfl)
    | (with_reducible refine dropSlots_touches ?_ rfl)
    | with_reducible apply touches_ite
    | (with_reducible refine touches_foldl ?_ (fun _ _ _ => ?_)))

/-- What `startWrites` may change. -/
abbrev Mask.startWrites : Mask :=
  { parts := true, flows := true, td := true, ports := true, fab := true, coh := true, stk := true, near :=
    true, fl := true, eng := true, di := true, eth := true, sec := true, twn := true, svc := true, out := true,
    free := true, dram := true, nearMem := true }

theorem startWrites_touches {p q : ℕ} {c : Command} {d : Desc} {bs : List Blk} (h : Touches M s0 s)
    (w : Mask.le Mask.startWrites M = true) : Touches M s0 (startWrites s p q c d bs) := by
  refine h.trans (Touches.mono ?_ w)
  have h0 := Touches.refl Mask.startWrites s
  clear h w
  unfold startWrites
  repeat' (first
    | with_reducible assumption
    | (with_reducible refine cmdMod_touches ?_ rfl)
    | (with_reducible refine drawBytes_touches ?_ rfl)
    | (with_reducible refine dropPieces_touches ?_ rfl)
    | (with_reducible refine moveBlocks_touches ?_ rfl)
    | (with_reducible refine noAddress_touches ?_ rfl)
    | (with_reducible refine sendOutput_touches ?_ rfl)
    | with_reducible apply touches_ite
    | split)

theorem retryFlash_touches {p q : ℕ} {c : Command} {d : Desc} {bs : List Blk} (h : Touches M s0 s)
    (w : Mask.le Mask.serveRead M = true) : Touches M s0 (retryFlash s p q c d bs).1 := by
  refine h.trans (Touches.mono ?_ w)
  have h0 := Touches.refl Mask.serveRead s
  clear h w
  unfold retryFlash
  repeat' (first
    | with_reducible assumption
    | ((try lift_lets); intro x; first
        | (refine (fun (hx : Touches Mask.serveRead s x) => ?_) ?_ <;> [clear_value x; (unfold x; clear x)])
        | clear_value x)
    | (with_reducible refine moveBlocks_touches ?_ rfl)
    | (fail_if_no_progress (with_reducible refine touches_mk ?_ rfl rfl))
    | split)

theorem advance_touches {p q : Nat} {d : Desc} {bs : List Blk} {fuel : Nat} (h : Touches M s0 s)
    (w : Mask.le Mask.startWrites M = true) : Touches M s0 (advance p q d bs fuel s) := by
  refine h.trans (Touches.mono ?_ w)
  suffices k : ∀ z, Touches Mask.startWrites s z → Touches Mask.startWrites s (advance p q d bs fuel z) from k s (Touches.refl _ s)
  clear h w
  induction fuel with
  | zero => exact fun _ h => h
  | succ fuel ih =>
  intro z h
  unfold advance
  repeat' (first
    | with_reducible assumption
    | ((try lift_lets); intro x; first
        | clear_value x)
    | (with_reducible refine ih _ ?_)
    | (with_reducible refine cmdMod_touches ?_ rfl)
    | (with_reducible refine concludeParts_touches ?_ rfl)
    | (with_reducible refine moveBlocks_touches ?_ rfl)
    | (with_reducible refine retryFlash_touches ?_ rfl)
    | (with_reducible refine startWrites_touches ?_ rfl)
    | with_reducible apply touches_ite
    | (with_reducible refine touches_foldl ?_ (fun _ _ _ => ?_))
    | (with_reducible refine touches_foldl_fst ?_ (fun _ _ _ => ?_))
    | (with_reducible refine touches_foldl_snd ?_ (fun _ _ _ => ?_))
    | (fail_if_no_progress (with_reducible refine touches_mk ?_ rfl rfl))
    | (split <;> (try (rename_i e1; have e2 := congrArg Prod.fst e1; have e3 := congrArg Prod.snd e1; dsimp only at e2 e3; (try subst e2); (try subst e3)))))

theorem executeCmd_touches {p q clk : ℕ} (h : Touches M s0 s) (w : Mask.le Mask.startWrites M = true) :
    Touches M s0 (executeCmd s p q clk) := by
  refine h.trans (Touches.mono ?_ w)
  have h0 := Touches.refl Mask.startWrites s
  clear h w
  unfold executeCmd
  repeat' (first
    | with_reducible assumption
    | ((try lift_lets); intro x; first
        | (refine (fun (hx : Touches Mask.startWrites s x) => ?_) ?_ <;> [clear_value x; (unfold x; clear x)])
        | clear_value x)
    | (with_reducible refine advance_touches ?_ rfl)
    | (with_reducible refine cmdMod_touches ?_ rfl)
    | (with_reducible refine logMod_touches ?_ rfl)
    | (with_reducible refine touches_foldl ?_ (fun _ _ _ => ?_))
    | split)

theorem endStep_touches {p q : ℕ} {st : Status} {addr : ℕ} (h : Touches M s0 s)
    (w : Mask.le Mask.postCompletion M = true) : Touches M s0 (endStep s p q st addr) := by
  refine h.trans (Touches.mono ?_ w)
  have h0 := Touches.refl Mask.postCompletion s
  clear h w
  unfold endStep
  repeat' (first
    | with_reducible assumption
    | (with_reducible refine cmdMod_touches ?_ rfl)
    | (with_reducible refine endCommand_touches ?_ rfl)
    | split)

theorem endDesc_touches {p q : ℕ} {st : Status} {addr : ℕ} (h : Touches M s0 s)
    (w : Mask.le Mask.postCompletion M = true) : Touches M s0 (endDesc s p q st addr) := by
  refine h.trans (Touches.mono ?_ w)
  have h0 := Touches.refl Mask.postCompletion s
  clear h w
  unfold endDesc
  repeat' (first
    | with_reducible assumption
    | (with_reducible refine endCommand_touches ?_ rfl)
    | (with_reducible refine endStep_touches ?_ rfl)
    | (with_reducible refine haltPair_touches ?_ rfl)
    | split)

theorem finishIfDone_touches {p q : ℕ} (h : Touches M s0 s) (w : Mask.le Mask.postCompletion M = true) :
    Touches M s0 (finishIfDone s p q) := by
  refine h.trans (Touches.mono ?_ w)
  have h0 := Touches.refl Mask.postCompletion s
  clear h w
  unfold finishIfDone
  repeat' (first
    | with_reducible assumption
    | (with_reducible refine endDesc_touches ?_ rfl)
    | split)

/-- What `endAtCheck` may change. -/
abbrev Mask.endAtCheck : Mask :=
  { parts := true, coh := true, stk := true, near := true, eng := true, di := true, svc := true, free := true,
    nearMem := true }

theorem endAtCheck_touches {p q : ℕ} {d : Desc} {r : Status × Option ℕ} (h : Touches M s0 s)
    (w : Mask.le Mask.endAtCheck M = true) : Touches M s0 (endAtCheck s p q d r) := by
  refine h.trans (Touches.mono ?_ w)
  have h0 := Touches.refl Mask.endAtCheck s
  clear h w
  unfold endAtCheck
  repeat' (first
    | with_reducible assumption
    | (with_reducible refine countCheck_touches ?_ rfl)
    | (with_reducible refine endDesc_touches ?_ rfl)
    | (with_reducible refine noAddress_touches ?_ rfl)
    | split)

theorem beginDesc_touches {p q : ℕ} {ws : List Word} (h : Touches M s0 s) (w : Mask.le Mask.endAtCheck M = true) :
    Touches M s0 (beginDesc s p q ws) := by
  refine h.trans (Touches.mono ?_ w)
  have h0 := Touches.refl Mask.endAtCheck s
  clear h w
  unfold beginDesc
  repeat' (first
    | with_reducible assumption
    | ((try lift_lets); intro x; clear_value x)
    | (with_reducible refine cmdMod_touches ?_ rfl)
    | (with_reducible refine endAtCheck_touches ?_ rfl)
    | split)

/-- What `takeCommand` may change. -/
abbrev Mask.takeCommand : Mask :=
  { parts := true, coh := true, stk := true, near := true, eng := true, di := true, svc := true, nextTicket :=
    true, free := true, nearMem := true }

theorem takeCommand_touches {p : Nat} {q : Nat} (h : Touches M s0 s) (w : Mask.le Mask.takeCommand M = true) :
    Touches M s0 (takeCommand s p q) := by
  refine h.trans (Touches.mono ?_ w)
  unfold takeCommand
  lift_lets
  intro x a ci
  have h1 : Touches Mask.takeCommand s (queueWords s p q a 8).1 := queueWords_touches (Touches.refl _ s) rfl
  generalize queueWords s p q a 8 = r at h1 ⊢
  rcases r with ⟨s1, bs, bad⟩
  rcases bad with _ | n
  · exact beginDesc_touches (touches_mk (pairMod_touches (queueStore_touches h1 rfl) rfl) rfl rfl) rfl
  · exact endCommand_touches (haltPair_touches (touches_mk (pairMod_touches (queueStore_touches h1 rfl) rfl) rfl rfl)
      rfl) rfl

theorem runOp_touches {opc : ℕ} {part : Fin 32} {queue : Fin 64} {clk : ℕ} (h : Touches M s0 s)
    (w : Mask.le Mask.startWrites M = true) : Touches M s0 (runOp s opc part queue clk) := by
  refine h.trans (Touches.mono ?_ w)
  have h0 := Touches.refl Mask.startWrites s
  clear h w
  unfold runOp
  repeat' (first
    | with_reducible assumption
    | (((try lift_lets); intro x); (refine (fun (hx : Touches Mask.startWrites s x) => ?_) ?_ <;> [clear_value x; (unfold x; clear x)]))
    | (with_reducible refine executeCmd_touches ?_ rfl)
    | (with_reducible refine finishIfDone_touches ?_ rfl)
    | (with_reducible refine seenClk_touches ?_ rfl)
    | (with_reducible refine settle_touches ?_ rfl)
    | split)

theorem endPart_touches {p : ℕ} {x : PartRun} (h : Touches M s0 s) (w : Mask.le { eng := true } M = true) :
    Touches M s0 (endPart s p x) := by
  refine h.trans (Touches.mono ?_ w)
  have h0 := Touches.refl { eng := true } s
  clear h w
  unfold endPart
  repeat' (first
    | with_reducible assumption
    | (with_reducible refine applyPrune_touches ?_ rfl)
    | (with_reducible refine countEng_touches ?_ rfl)
    | (with_reducible refine logMod_touches ?_ rfl))

end Sys2Proof.Machine
end

