-- ==== Sys2Proof/Laws/TouchesPrograms.lean ====
section
/-! SUPPORT. What the operations of Machine/Programs.lean may change. -/

namespace Sys2Proof.Machine

variable {M : Mask} {s0 s t : State}

/-- What `readSlot` may change. -/
abbrev Mask.readSlot : Mask :=
  { parts := true, stk := true, eng := true, di := true }

theorem readSlot_touches {r : ProgRec} (h : Touches M s0 s) (w : Mask.le Mask.readSlot M = true) :
    Touches M s0 (readSlot s r) := by
  refine h.trans (Touches.mono ?_ w)
  have h0 := Touches.refl Mask.readSlot s
  clear h w
  unfold readSlot
  repeat' (first
    | with_reducible assumption
    | ((try lift_lets); intro x; first
        | clear_value x)
    | (with_reducible refine reserveRead_touches ?_ rfl)
    | with_reducible apply touches_ite
    | (with_reducible refine touches_foldl ?_ (fun _ _ _ => ?_))
    | (with_reducible refine touches_foldl_fst ?_ (fun _ _ _ => ?_))
    | (with_reducible refine touches_foldl_snd ?_ (fun _ _ _ => ?_))
    | (fail_if_no_progress (with_reducible refine touches_mk ?_ rfl rfl))
    | (split <;> (try (rename_i e1; have e2 := congrArg Prod.fst e1; have e3 := congrArg Prod.snd e1; dsimp only at e2 e3; (try subst e2); (try subst e3)))))

theorem readCopies_touches {core : ℕ} (h : Touches M s0 s) (w : Mask.le Mask.readSlot M = true) :
    Touches M s0 (readCopies s core) := by
  refine h.trans (Touches.mono ?_ w)
  have h0 := Touches.refl Mask.readSlot s
  clear h w
  unfold readCopies
  repeat' (first
    | with_reducible assumption
    | (with_reducible refine readSlot_touches ?_ rfl)
    | with_reducible apply touches_ite
    | (with_reducible refine touches_foldl ?_ (fun _ _ _ => ?_)))

theorem pruneEngine_touches {phys : ℕ} (h : Touches M s0 s) (w : Mask.le { eng := true } M = true) :
    Touches M s0 (pruneEngine s phys) :=
  h.trans (Touches.mono ⟨rfl, id⟩ w)

theorem graftEngine_touches {i : ℕ} (h : Touches M s0 s) (w : Mask.le { eng := true } M = true) :
    Touches M s0 (graftEngine s i) := by
  refine h.trans (Touches.mono ?_ w)
  have h0 := Touches.refl { eng := true } s
  clear h w
  unfold graftEngine
  repeat' (first
    | with_reducible assumption
    | ((try lift_lets); intro x; clear_value x)
    | (with_reducible refine engMod_touches ?_ rfl)
    | split)

theorem tickGraftEngines_touches (h : Touches M s0 s) (w : Mask.le { eng := true } M = true) :
    Touches M s0 (tickGraftEngines s) := by
  refine h.trans (Touches.mono ?_ w)
  have h0 := Touches.refl { eng := true } s
  clear h w
  unfold tickGraftEngines
  repeat' (first
    | with_reducible assumption
    | (with_reducible refine graftEngine_touches ?_ rfl)
    | (with_reducible refine touches_foldl ?_ (fun _ _ _ => ?_))
    | split)

/-- What `trapEngine` may change. -/
abbrev Mask.trapEngine : Mask :=
  { eng := true, di := true, free := true }

theorem trapEngine_touches {p slot word : ℕ} (h : Touches M s0 s) (w : Mask.le Mask.trapEngine M = true) :
    Touches M s0 (trapEngine s p slot word) := by
  refine h.trans (Touches.mono ?_ w)
  have h0 := Touches.refl Mask.trapEngine s
  clear h w
  unfold trapEngine
  repeat' (first
    | with_reducible assumption
    | (((try lift_lets); intro x); (refine (fun (hx : Touches Mask.trapEngine s x) => ?_) ?_ <;> [clear_value x; (unfold x; clear x)]))
    | (with_reducible refine drawFree_touches ?_ rfl)
    | (with_reducible refine logError_touches ?_ rfl)
    | (with_reducible refine logMod_touches ?_ rfl)
    | (with_reducible refine pruneEngine_touches ?_ rfl)
    | with_reducible apply touches_ite
    | (fail_if_no_progress (with_reducible refine touches_mk ?_ rfl rfl)))

theorem faultProgram_touches {p q : ℕ} (h : Touches M s0 s) (w : Mask.le Mask.endAtCheck M = true) :
    Touches M s0 (faultProgram s p q) := by
  refine h.trans (Touches.mono ?_ w)
  have h0 := Touches.refl Mask.endAtCheck s
  clear h w
  unfold faultProgram
  repeat' (first
    | with_reducible assumption
    | (with_reducible refine endCommand_touches ?_ rfl)
    | (with_reducible refine noAddress_touches ?_ rfl))

theorem progMod_touches {p q : ℕ} {f : Program → Program} (h : Touches M s0 s)
    (w : Mask.le { eng := true } M = true) : Touches M s0 (progMod s p q f) :=
  h.trans (Touches.mono ⟨rfl, id⟩ w)

theorem leadLost_touches {p q : ℕ} (h : Touches M s0 s) (w : Mask.le Mask.endAtCheck M = true) :
    Touches M s0 (leadLost s p q) := by
  refine h.trans (Touches.mono ?_ w)
  have h0 := Touches.refl Mask.endAtCheck s
  clear h w
  unfold leadLost
  repeat' (first
    | with_reducible assumption
    | (with_reducible refine endCommand_touches ?_ rfl)
    | (with_reducible refine noAddress_touches ?_ rfl))

theorem runWord_touches {p q code : Nat} {f : State → Program → List Word → Nat → State} (h : Touches M s0 s)
    (w : Mask.le Mask.endAtCheck M = true) (k : ∀ t, Touches M s0 t → ∀ g ws w, Touches M s0 (f t g ws w)) :
    Touches M s0 (runWord s p q code f) := by
  unfold runWord
  repeat' split
  all_goals first
    | exact h
    | exact leadLost_touches h (Mask.le_trans rfl w)
    | exact k _ (progMod_touches h (Mask.le_trans rfl w)) _ _ _

theorem nextWord_touches {p q : ℕ} {f : Program → Program} (h : Touches M s0 s)
    (w : Mask.le { eng := true } M = true) : Touches M s0 (nextWord s p q f) :=
  h.trans (Touches.mono ⟨rfl, id⟩ w)

theorem startProgram_touches {p q : ℕ} {ws : List Word} (h : Touches M s0 s) (w : Mask.le Mask.endAtCheck M = true)
    : Touches M s0 (startProgram s p q ws) := by
  refine h.trans (Touches.mono ?_ w)
  have h0 := Touches.refl Mask.endAtCheck s
  clear h w
  unfold startProgram
  repeat' (first
    | with_reducible assumption
    | (((try lift_lets); intro x); (refine (fun (hx : Touches Mask.endAtCheck s x) => ?_) ?_ <;> [clear_value x; (unfold x; clear x)]))
    | (with_reducible refine cmdMod_touches ?_ rfl)
    | (with_reducible refine endCommand_touches ?_ rfl)
    | (with_reducible refine faultProgram_touches ?_ rfl)
    | (with_reducible refine logMod_touches ?_ rfl)
    | (with_reducible refine noAddress_touches ?_ rfl)
    | with_reducible apply touches_ite
    | split)

theorem parityTrap_touches {p q : ℕ} (h : Touches M s0 s) (w : Mask.le Mask.endAtCheck M = true) :
    Touches M s0 (parityTrap s p q) := by
  refine h.trans (Touches.mono ?_ w)
  have h0 := Touches.refl Mask.endAtCheck s
  clear h w
  unfold parityTrap
  repeat' (first
    | with_reducible assumption
    | (with_reducible refine endCommand_touches ?_ rfl)
    | (with_reducible refine trapEngine_touches ?_ rfl)
    | split)

theorem continueStep_touches {p q clk : ℕ} (h : Touches M s0 s) (w : Mask.le Mask.startWrites M = true) :
    Touches M s0 (continueStep s p q clk) := by
  refine h.trans (Touches.mono ?_ w)
  have h0 := Touches.refl Mask.startWrites s
  clear h w
  unfold continueStep
  repeat' (first
    | with_reducible assumption
    | (with_reducible refine executeCmd_touches ?_ rfl)
    | (with_reducible refine finishIfDone_touches ?_ rfl)
    | (with_reducible refine settle_touches ?_ rfl))

theorem resumeEngine_touches {engine : ℕ} (h : Touches M s0 s) (w : Mask.le { eng := true } M = true) :
    Touches M s0 (resumeEngine s engine) :=
  h.trans (Touches.mono ⟨rfl, id⟩ w)

theorem clearEngine_touches {engine : ℕ} (h : Touches M s0 s) (w : Mask.le { eng := true } M = true) :
    Touches M s0 (clearEngine s engine) :=
  h.trans (Touches.mono ⟨rfl, id⟩ w)

end Sys2Proof.Machine
end

