-- ==== Sys2Proof/Laws/TouchesMapping.lean ====
section
/-! SUPPORT. What the operations of Machine/Mapping.lean may change. -/

namespace Sys2Proof.Machine

variable {M : Mask} {s0 s t : State}

theorem startWalk_touches {level holder p u : ℕ} (h : Touches M s0 s) (w : Mask.le Mask.readUnit M = true) :
    Touches M s0 (startWalk s level holder p u) := by
  refine h.trans (Touches.mono ?_ w)
  have h0 := Touches.refl Mask.readUnit s
  clear h w
  unfold startWalk
  repeat' (first
    | with_reducible assumption
    | (((try lift_lets); intro x); (refine (fun (hx : Touches Mask.readUnit s x) => ?_) ?_ <;> [clear_value x; (unfold x; clear x)]))
    | (with_reducible refine countWalk_touches ?_ rfl)
    | with_reducible apply touches_ite
    | (fail_if_no_progress (with_reducible refine touches_mk ?_ rfl rfl)))

theorem prefetch_touches {p : ℕ} {c : Command} {b : Blk} (h : Touches M s0 s) (w : Mask.le Mask.readUnit M = true) :
    Touches M s0 (prefetch s p c b) := by
  refine h.trans (Touches.mono ?_ w)
  have h0 := Touches.refl Mask.readUnit s
  clear h w
  unfold prefetch
  repeat' (first
    | with_reducible assumption
    | (with_reducible refine bufPut_touches ?_ rfl)
    | (with_reducible refine startWalk_touches ?_ rfl)
    | (with_reducible refine touches_foldl ?_ (fun _ _ _ => ?_))
    | split)

theorem translateTile_touches {p q : ℕ} {c : Command} {b : Blk} (h : Touches M s0 s)
    (w : Mask.le Mask.readUnit M = true) : Touches M s0 (translateTile s p q c b) := by
  refine h.trans (Touches.mono ?_ w)
  have h0 := Touches.refl Mask.readUnit s
  clear h w
  unfold translateTile
  repeat' (first
    | with_reducible assumption
    | (((try lift_lets); intro x); (have _ := fun a => x a; dsimp only [x]; clear x))
    | (with_reducible refine issueTile_touches ?_ rfl)
    | (with_reducible refine prefetch_touches ?_ rfl)
    | (with_reducible refine startWalk_touches ?_ rfl)
    | with_reducible apply touches_ite
    | (with_reducible refine touches_foldl ?_ (fun _ _ _ => ?_)))

/-- What `mapPage` may change. -/
abbrev Mask.mapPage : Mask :=
  { stk := true, eng := true, di := true }

theorem mapPage_touches {p : ℕ} {us : List ℕ} {hpage : ℕ} (h : Touches M s0 s) (w : Mask.le Mask.mapPage M = true) :
    Touches M s0 (mapPage s p us hpage) := by
  refine h.trans (Touches.mono ?_ w)
  have h0 := Touches.refl Mask.mapPage s
  clear h w
  unfold mapPage
  repeat' (first
    | with_reducible assumption
    | (with_reducible refine entryWritten_touches ?_ rfl)
    | (with_reducible refine pteSet_touches ?_ rfl)
    | (with_reducible refine touches_foldl ?_ (fun _ _ _ => ?_)))

theorem unmapPage_touches {p : ℕ} {us : List ℕ} (h : Touches M s0 s) (w : Mask.le Mask.mapPage M = true) :
    Touches M s0 (unmapPage s p us) := by
  refine h.trans (Touches.mono ?_ w)
  have h0 := Touches.refl Mask.mapPage s
  clear h w
  unfold unmapPage
  repeat' (first
    | with_reducible assumption
    | (with_reducible refine entryWritten_touches ?_ rfl)
    | (with_reducible refine pteSet_touches ?_ rfl)
    | (with_reducible refine touches_foldl ?_ (fun _ _ _ => ?_)))

theorem keepLost_touches {p : ℕ} {us : List ℕ} (h : Touches M s0 s) (w : Mask.le { eng := true } M = true) :
    Touches M s0 (keepLost s p us) := by
  refine h.trans (Touches.mono ?_ w)
  have h0 := Touches.refl { eng := true } s
  clear h w
  unfold keepLost
  repeat' (first
    | with_reducible assumption
    | (with_reducible refine touches_foldl ?_ (fun _ _ _ => ?_))
    | (fail_if_no_progress (with_reducible refine touches_mk ?_ rfl rfl))
    | split)

theorem startMapOp_touches {p op unit src hpage clk : ℕ} (h : Touches M s0 s) (w : Mask.le Mask.readUnit M = true) :
    Touches M s0 (startMapOp s p op unit src hpage clk) := by
  refine h.trans (Touches.mono ?_ w)
  have h0 := Touches.refl Mask.readUnit s
  clear h w
  unfold startMapOp
  repeat' (first
    | with_reducible assumption
    | (((try lift_lets); intro x); (refine (fun (hx : Touches Mask.readUnit s x) => ?_) ?_ <;> [clear_value x; (unfold x; clear x)]))
    | (with_reducible refine dropPages_touches ?_ rfl)
    | (with_reducible refine keepLost_touches ?_ rfl)
    | (with_reducible refine mapPage_touches ?_ rfl)
    | (with_reducible refine partMod_touches ?_ rfl)
    | (with_reducible refine renameLines_touches ?_ rfl)
    | (with_reducible refine unmapPage_touches ?_ rfl)
    | with_reducible apply touches_ite)

theorem endMapOp_touches {p : ℕ} (h : Touches M s0 s) (w : Mask.le { parts := true } M = true) :
    Touches M s0 (endMapOp s p) :=
  h.trans (Touches.mono ⟨rfl, id⟩ w)

theorem logMapOp_touches {p : ℕ} {o : XlOp} (h : Touches M s0 s) (w : Mask.le Mask.countCorrected M = true) :
    Touches M s0 (logMapOp s p o) := by
  refine h.trans (Touches.mono ?_ w)
  have h0 := Touches.refl Mask.countCorrected s
  clear h w
  unfold logMapOp
  repeat' (first
    | with_reducible assumption
    | ((try lift_lets); intro x; clear_value x)
    | (with_reducible refine endMapOp_touches ?_ rfl)
    | (with_reducible refine lgAppend_touches ?_ rfl)
    | (with_reducible refine partMod_touches ?_ rfl)
    | (split <;> (try (rename_i e1; have e2 := congrArg Prod.fst e1; have e3 := congrArg Prod.snd e1; dsimp only at e2 e3; (try subst e2); (try subst e3)))))

theorem cutTiles_touches {p : ℕ} {o : XlOp} (h : Touches M s0 s) (w : Mask.le { eng := true } M = true) :
    Touches M s0 (cutTiles s p o) := by
  refine h.trans (Touches.mono ?_ w)
  have h0 := Touches.refl { eng := true } s
  clear h w
  unfold cutTiles
  repeat' (first
    | with_reducible assumption
    | (with_reducible refine cmdMod_touches ?_ rfl)
    | (with_reducible refine touches_foldl ?_ (fun _ _ _ => ?_)))

theorem endWithdrawal_touches {p clk : ℕ} (h : Touches M s0 s) (w : Mask.le Mask.serveRead M = true) :
    Touches M s0 (endWithdrawal s p clk) := by
  refine h.trans (Touches.mono ?_ w)
  have h0 := Touches.refl Mask.serveRead s
  clear h w
  unfold endWithdrawal
  repeat' (first
    | with_reducible assumption
    | (with_reducible refine cutRequests_touches ?_ rfl)
    | (with_reducible refine cutTiles_touches ?_ rfl)
    | (with_reducible refine logMapOp_touches ?_ rfl)
    | split)

end Sys2Proof.Machine
end

