-- ==== Sys2Proof/Laws/TouchesIntegrity.lean ====
section
/-! SUPPORT. What the operations of Machine/Integrity.lean may change. -/

namespace Sys2Proof.Machine

variable {M : Mask} {s0 s t : State}

theorem endPass_touches (h : Touches M s0 s) (w : Mask.le { di := true } M = true) : Touches M s0 (endPass s) := by
  refine h.trans (Touches.mono ?_ w)
  have h0 := Touches.refl { di := true } s
  clear h w
  unfold endPass
  repeat' (first
    | with_reducible assumption
    | (fail_if_no_progress (with_reducible refine touches_mk ?_ rfl rfl))
    | split)

theorem scrubColumn_touches {ch source bank row col : ℕ} {errs : ColumnErrors} (h : Touches M s0 s)
    (w : Mask.le Mask.countCorrected M = true) : Touches M s0 (scrubColumn s ch source bank row col errs) := by
  refine h.trans (Touches.mono ?_ w)
  have h0 := Touches.refl Mask.countCorrected s
  clear h w
  unfold scrubColumn
  repeat' (first
    | with_reducible assumption
    | (((try lift_lets); intro x); (refine (fun (hx : Touches Mask.countCorrected s x) => ?_) ?_ <;> [clear_value x; (unfold x; clear x)]))
    | (with_reducible refine columnAt_touches ?_ rfl)
    | (with_reducible refine writeBackColumn_touches ?_ rfl)
    | split)

theorem beginPass_touches (h : Touches M s0 s) (w : Mask.le { di := true } M = true) : Touches M s0 (beginPass s) :=
    by
  refine h.trans (Touches.mono ?_ w)
  have h0 := Touches.refl { di := true } s
  clear h w
  unfold beginPass
  repeat' (first
    | with_reducible assumption
    | (fail_if_no_progress (with_reducible refine touches_mk ?_ rfl rfl)))

theorem tickPatrol_touches (h : Touches M s0 s) (w : Mask.le { stk := true, di := true } M = true) :
    Touches M s0 (tickPatrol s) := by
  refine h.trans (Touches.mono ?_ w)
  have h0 := Touches.refl { stk := true, di := true } s
  clear h w
  unfold tickPatrol
  repeat' (first
    | with_reducible assumption
    | (with_reducible refine beginPass_touches ?_ rfl)
    | (with_reducible refine chanMod_touches ?_ rfl)
    | (with_reducible refine noteFlags_touches ?_ rfl)
    | (with_reducible refine touches_foldl ?_ (fun _ _ _ => ?_))
    | (fail_if_no_progress (with_reducible refine touches_mk ?_ rfl rfl))
    | split)

theorem scrubNear_touches {half index flips : ℕ} (h : Touches M s0 s) (w : Mask.le Mask.nearWriteWord M = true) :
    Touches M s0 (scrubNear s half index flips) := by
  refine h.trans (Touches.mono ?_ w)
  have h0 := Touches.refl Mask.nearWriteWord s
  clear h w
  unfold scrubNear
  repeat' (first
    | with_reducible assumption
    | ((try lift_lets); intro x; first
        | (refine (fun (hx : Touches Mask.nearWriteWord s x) => ?_) ?_ <;> [clear_value x; (unfold x; clear x)])
        | clear_value x)
    | (with_reducible refine nearReadWord_touches ?_ rfl)
    | (with_reducible refine nearSetFlips_touches ?_ rfl)
    | (with_reducible refine nearStore_touches ?_ rfl)
    | (with_reducible refine otherBegin_touches ?_ rfl)
    | split)

theorem cacheError_touches {half kind index flips : ℕ} (h : Touches M s0 s) (w : Mask.le { di := true } M = true) :
    Touches M s0 (cacheError s half kind index flips) :=
  h.trans (Touches.mono ⟨rfl, id⟩ w)

theorem noteLostWay_touches {half bank : ℕ} (h : Touches M s0 s) (w : Mask.le { coh := true } M = true) :
    Touches M s0 (noteLostWay s half bank) :=
  h.trans (Touches.mono ⟨rfl, id⟩ w)

theorem pruneWay_touches {half bank way : ℕ} (h : Touches M s0 s) (w : Mask.le { coh := true } M = true) :
    Touches M s0 (pruneWay s half bank way) := by
  refine h.trans (Touches.mono ?_ w)
  have h0 := Touches.refl { coh := true } s
  clear h w
  unfold pruneWay
  repeat' (first
    | with_reducible assumption
    | (with_reducible refine noteLostWay_touches ?_ rfl)
    | with_reducible apply touches_ite
    | (fail_if_no_progress (with_reducible refine touches_mk ?_ rfl rfl)))

theorem scrubDirectory_touches {half index flips : ℕ} (h : Touches M s0 s)
    (w : Mask.le { coh := true, di := true } M = true) : Touches M s0 (scrubDirectory s half index flips) := by
  refine h.trans (Touches.mono ?_ w)
  have h0 := Touches.refl { coh := true, di := true } s
  clear h w
  unfold scrubDirectory
  repeat' (first
    | with_reducible assumption
    | (((try lift_lets); intro x); (refine (fun (hx : Touches { coh := true, di := true } s x) => ?_) ?_ <;> [clear_value x; (unfold x; clear x)]))
    | (with_reducible refine cacheError_touches ?_ rfl)
    | (with_reducible refine pruneWay_touches ?_ rfl)
    | with_reducible apply touches_ite
    | (fail_if_no_progress (with_reducible refine touches_mk ?_ rfl rfl)))

theorem graftWay_touches {key : ℕ} (h : Touches M s0 s) (w : Mask.le { coh := true } M = true) :
    Touches M s0 (graftWay s key) := by
  refine h.trans (Touches.mono ?_ w)
  have h0 := Touches.refl { coh := true } s
  clear h w
  unfold graftWay
  repeat' (first
    | with_reducible assumption
    | (with_reducible refine halfMod_touches ?_ rfl)
    | (with_reducible refine noteLostWay_touches ?_ rfl)
    | split)

theorem tickGraftWays_touches (h : Touches M s0 s) (w : Mask.le { coh := true } M = true) :
    Touches M s0 (tickGraftWays s) := by
  refine h.trans (Touches.mono ?_ w)
  have h0 := Touches.refl { coh := true } s
  clear h w
  unfold tickGraftWays
  repeat' (first
    | with_reducible assumption
    | (with_reducible refine graftWay_touches ?_ rfl)
    | (with_reducible refine touches_foldl ?_ (fun _ _ _ => ?_))
    | split)

/-- What `graftRow` may change. -/
abbrev Mask.graftRow : Mask :=
  { near := true, di := true, nearMem := true }

theorem graftRow_touches {row : ℕ} (h : Touches M s0 s) (w : Mask.le Mask.graftRow M = true) :
    Touches M s0 (graftRow s row) := by
  refine h.trans (Touches.mono ?_ w)
  have h0 := Touches.refl Mask.graftRow s
  clear h w
  unfold graftRow
  repeat' (first
    | with_reducible assumption
    | ((try lift_lets); intro x; first
        | (have _ : NearBanks := x; dsimp only [x]; clear x)
        | clear_value x)
    | (with_reducible refine nearSetFlips_touches ?_ rfl)
    | (with_reducible refine nearStore_touches ?_ rfl)
    | with_reducible apply touches_ite
    | (with_reducible refine touches_foldl ?_ (fun _ _ _ => ?_))
    | (with_reducible refine touches_foldl_fst ?_ (fun _ _ _ => ?_))
    | (with_reducible refine touches_foldl_snd ?_ (fun _ _ _ => ?_))
    | (fail_if_no_progress (with_reducible refine touches_mk ?_ rfl rfl))
    | (split <;> (try (rename_i e1; have e2 := congrArg Prod.fst e1; have e3 := congrArg Prod.snd e1; dsimp only at e2 e3; (try subst e2); (try subst e3)))))

theorem tickGraftRows_touches (h : Touches M s0 s) (w : Mask.le Mask.graftRow M = true) :
    Touches M s0 (tickGraftRows s) := by
  refine h.trans (Touches.mono ?_ w)
  have h0 := Touches.refl Mask.graftRow s
  clear h w
  unfold tickGraftRows
  repeat' (first
    | with_reducible assumption
    | (with_reducible refine graftRow_touches ?_ rfl)
    | (with_reducible refine touches_foldl ?_ (fun _ _ _ => ?_))
    | split)

theorem scrubInstruction_touches {half index : ℕ} (h : Touches M s0 s)
    (w : Mask.le { eng := true, di := true } M = true) : Touches M s0 (scrubInstruction s half index) :=
  h.trans (Touches.mono ⟨rfl, id⟩ w)

theorem scrubConfiguration_touches {half index : ℕ} {copyBad : Bool} (h : Touches M s0 s)
    (w : Mask.le { di := true } M = true) : Touches M s0 (scrubConfiguration s half index copyBad) := by
  refine h.trans (Touches.mono ?_ w)
  have h0 := Touches.refl { di := true } s
  clear h w
  unfold scrubConfiguration
  repeat' (first
    | with_reducible assumption
    | ((try lift_lets); intro x; first
        | (refine (fun (hx : Touches { di := true } s x) => ?_) ?_ <;> [clear_value x; (unfold x; clear x)])
        | clear_value x)
    | (with_reducible refine logError_touches ?_ rfl)
    | with_reducible apply touches_ite
    | (with_reducible refine touches_foldl ?_ (fun _ _ _ => ?_))
    | (with_reducible refine touches_foldl_fst ?_ (fun _ _ _ => ?_))
    | (with_reducible refine touches_foldl_snd ?_ (fun _ _ _ => ?_))
    | (fail_if_no_progress (with_reducible refine touches_mk ?_ rfl rfl)))

theorem clearLog_touches (h : Touches M s0 s) (w : Mask.le { di := true } M = true) : Touches M s0 (clearLog s) :=
  h.trans (Touches.mono ⟨rfl, id⟩ w)

theorem clearDi_touches (h : Touches M s0 s) (w : Mask.le { di := true } M = true) : Touches M s0 (clearDi s) :=
  h.trans (Touches.mono ⟨rfl, id⟩ w)

theorem armInject_touches {y_1 : Word} (h : Touches M s0 s) (w : Mask.le { di := true } M = true) :
    Touches M s0 (armInject s y_1) :=
  h.trans (Touches.mono ⟨rfl, id⟩ w)

end Sys2Proof.Machine
end

