-- ==== Sys2Proof/Laws/TouchesEthernet.lean ====
section
/-! SUPPORT. What the operations of Machine/Ethernet.lean may change. -/

namespace Sys2Proof.Machine

variable {M : Mask} {s0 s t : State}

theorem ethPortMod_touches {port : ℕ} {f : EthPort → EthPort} (h : Touches M s0 s)
    (w : Mask.le { eth := true } M = true) : Touches M s0 (ethPortMod s port f) :=
  h.trans (Touches.mono ⟨rfl, id⟩ w)

theorem ethDiscard_touches {port : ℕ} (h : Touches M s0 s) (w : Mask.le { eth := true } M = true) :
    Touches M s0 (ethDiscard s port) :=
  h.trans (Touches.mono ⟨rfl, id⟩ w)

theorem seqNak_touches {qi : ℕ} (h : Touches M s0 s) (w : Mask.le Mask.sendOwed M = true) : Touches M s0 (seqNak s
    qi) := by
  refine h.trans (Touches.mono ?_ w)
  have h0 := Touches.refl Mask.sendOwed s
  clear h w
  unfold seqNak
  repeat' (first
    | with_reducible assumption
    | (with_reducible refine qpSet_touches ?_ rfl)
    | (with_reducible refine respond_touches ?_ rfl)
    | with_reducible apply touches_ite)

theorem fatalNak_touches {qi psn syndrome : ℕ} (h : Touches M s0 s) (w : Mask.le Mask.sendOwed M = true) :
    Touches M s0 (fatalNak s qi psn syndrome) := by
  refine h.trans (Touches.mono ?_ w)
  have h0 := Touches.refl Mask.sendOwed s
  clear h w
  unfold fatalNak
  repeat' (first
    | with_reducible assumption
    | (with_reducible refine respond_touches ?_ rfl))

theorem unsupportedRequest_touches {qi : ℕ} {p : RocePacket} (h : Touches M s0 s)
    (w : Mask.le Mask.sendOwed M = true) : Touches M s0 (unsupportedRequest s qi p) := by
  refine h.trans (Touches.mono ?_ w)
  have h0 := Touches.refl Mask.sendOwed s
  clear h w
  unfold unsupportedRequest
  repeat' (first
    | with_reducible assumption
    | (with_reducible refine fatalNak_touches ?_ rfl)
    | (with_reducible refine seqNak_touches ?_ rfl)
    | split)

theorem keepDatagram_touches {port : ℕ} {p : RocePacket} (h : Touches M s0 s) (w : Mask.le { eth := true } M = true)
    : Touches M s0 (keepDatagram s port p) :=
  h.trans (Touches.mono ⟨rfl, id⟩ w)

theorem noteEthWait_touches {port y_2 : ℕ} (h : Touches M s0 s) (w : Mask.le { td := true } M = true) :
    Touches M s0 (noteEthWait s port y_2) :=
  h.trans (Touches.mono ⟨rfl, id⟩ w)

/-- What `settleKept` may change. -/
abbrev Mask.settleKept : Mask :=
  { parts := true, td := true, eth := true, sec := true, out := true }

theorem settleKept_touches {n qi : ℕ} (h : Touches M s0 s) (w : Mask.le Mask.settleKept M = true) :
    Touches M s0 (settleKept n s qi) := by
  induction n generalizing s with
  | zero => exact h
  | succ n ih =>
    unfold settleKept
    split
    · exact h
    · split
      · exact h
      · exact ih (unsupportedRequest_touches (noteEthWait_touches (h.trans (Touches.mono (m := Mask.settleKept) ⟨rfl, id⟩ w))
          (Mask.le_trans rfl w)) (Mask.le_trans rfl w))

theorem endQps_touches {p : ℕ} (h : Touches M s0 s) (w : Mask.le { eth := true } M = true) : Touches M s0 (endQps s
    p) := by
  refine h.trans (Touches.mono ?_ w)
  have h0 := Touches.refl { eth := true } s
  clear h w
  unfold endQps
  repeat' (first
    | with_reducible assumption
    | (with_reducible refine qpSet_touches ?_ rfl)
    | (with_reducible refine touches_foldl ?_ (fun _ _ _ => ?_))
    | split)

theorem tearDue_touches (h : Touches M s0 s) (w : Mask.le { parts := true, eth := true } M = true) :
    Touches M s0 (tearDue s) := by
  refine h.trans (Touches.mono ?_ w)
  have h0 := Touches.refl { parts := true, eth := true } s
  clear h w
  unfold tearDue
  repeat' (first
    | with_reducible assumption
    | (with_reducible refine endQps_touches ?_ rfl)
    | (with_reducible refine partMod_touches ?_ rfl)
    | with_reducible apply touches_ite
    | (with_reducible refine touches_foldl ?_ (fun _ _ _ => ?_)))

theorem receiveFrame_touches {port : ℕ} {f : EthFrame} (h : Touches M s0 s) (w : Mask.le Mask.settleKept M = true) :
    Touches M s0 (receiveFrame s port f) := by
  refine h.trans (Touches.mono ?_ w)
  have h0 := Touches.refl Mask.settleKept s
  clear h w
  unfold receiveFrame
  repeat' (first
    | with_reducible assumption
    | (with_reducible refine emit_touches ?_ rfl)
    | (with_reducible refine ethDiscard_touches ?_ rfl)
    | (with_reducible refine ethPortMod_touches ?_ rfl)
    | (with_reducible refine keepDatagram_touches ?_ rfl)
    | (with_reducible refine settleKept_touches ?_ rfl)
    | (with_reducible refine tearDue_touches ?_ rfl)
    | with_reducible apply touches_ite
    | split)

theorem roceBadTag_touches {qi : ℕ} {p : RocePacket} (h : Touches M s0 s) (w : Mask.le Mask.sendOwed M = true) :
    Touches M s0 (roceBadTag s qi p) := by
  refine h.trans (Touches.mono ?_ w)
  have h0 := Touches.refl Mask.sendOwed s
  clear h w
  unfold roceBadTag
  repeat' (first
    | with_reducible assumption
    | (with_reducible refine fatalNak_touches ?_ rfl)
    | (fail_if_no_progress (with_reducible refine touches_mk ?_ rfl rfl)))

theorem ackAgain_touches {qi : ℕ} {p : RocePacket} {last : Bool} (h : Touches M s0 s)
    (w : Mask.le Mask.sendOwed M = true) : Touches M s0 (ackAgain s qi p last) := by
  refine h.trans (Touches.mono ?_ w)
  have h0 := Touches.refl Mask.sendOwed s
  clear h w
  unfold ackAgain
  repeat' (first
    | with_reducible assumption
    | (with_reducible refine respond_touches ?_ rfl)
    | with_reducible apply touches_ite)

/-- What `takeKept` may change. -/
abbrev Mask.takeKept : Mask :=
  { parts := true, td := true, eth := true }

theorem takeKept_touches {k : RoceKind} {x y} (e : takeKept s k = some (x, y, t)) (h : Touches M s0 s)
    (w : Mask.le Mask.takeKept M = true) : Touches M s0 t := by
  unfold takeKept at e
  have ht : Touches M s0 (tearDue s) := tearDue_touches h (Mask.le_trans rfl w)
  generalize tearDue s = u at e ht
  dsimp only at e
  repeat' (first | (cases e; done) | (split at e))
  cases e
  exact noteEthWait_touches (ht.trans (Touches.mono (m := Mask.takeKept) ⟨rfl, id⟩ w)) (Mask.le_trans rfl w)

theorem admitWrite_touches {clk qi : ℕ} {again : Option Packet} {p : RocePacket} (h : Touches M s0 s)
    (w : Mask.le Mask.endArrival M = true) : Touches M s0 (admitWrite s clk qi again p) := by
  refine h.trans (Touches.mono ?_ w)
  have h0 := Touches.refl Mask.endArrival s
  clear h w
  unfold admitWrite
  repeat' (first
    | with_reducible assumption
    | (((try lift_lets); intro x); (refine (fun (hx : Touches Mask.endArrival s x) => ?_) ?_ <;> [clear_value x; (unfold x; clear x)]))
    | (with_reducible refine arrive_touches ?_ rfl)
    | (with_reducible refine fatalNak_touches ?_ rfl)
    | (with_reducible refine qpMod_touches ?_ rfl)
    | (with_reducible refine roceBadTag_touches ?_ rfl)
    | with_reducible apply touches_ite
    | split)

theorem writeTurn_touches {clk qi : ℕ} {p : RocePacket} (h : Touches M s0 s) (w : Mask.le Mask.endArrival M = true)
    : Touches M s0 (writeTurn s clk qi p) := by
  refine h.trans (Touches.mono ?_ w)
  have h0 := Touches.refl Mask.endArrival s
  clear h w
  unfold writeTurn
  repeat' (first
    | with_reducible assumption
    | (with_reducible refine ackAgain_touches ?_ rfl)
    | (with_reducible refine admitWrite_touches ?_ rfl)
    | (with_reducible refine seqNak_touches ?_ rfl)
    | with_reducible apply touches_ite
    | (with_reducible refine touches_foldl ?_ (fun _ _ _ => ?_))
    | (with_reducible refine touches_foldl_fst ?_ (fun _ _ _ => ?_))
    | (with_reducible refine touches_foldl_snd ?_ (fun _ _ _ => ?_))
    | (fail_if_no_progress (with_reducible refine touches_mk ?_ rfl rfl))
    | (split <;> (try (rename_i e1; have e2 := congrArg Prod.fst e1; have e3 := congrArg Prod.snd e1; dsimp only at e2 e3; (try subst e2); (try subst e3)))))

theorem admitRead_touches {clk qi : ℕ} {again : Bool} {p : RocePacket} (h : Touches M s0 s)
    (w : Mask.le Mask.endArrival M = true) : Touches M s0 (admitRead s clk qi again p) := by
  refine h.trans (Touches.mono ?_ w)
  have h0 := Touches.refl Mask.endArrival s
  clear h w
  unfold admitRead
  repeat' (first
    | with_reducible assumption
    | (with_reducible refine arrive_touches ?_ rfl)
    | (with_reducible refine fatalNak_touches ?_ rfl)
    | with_reducible apply touches_ite)

theorem readTurn_touches {clk qi : ℕ} {p : RocePacket} (h : Touches M s0 s) (w : Mask.le Mask.endArrival M = true) :
    Touches M s0 (readTurn s clk qi p) := by
  refine h.trans (Touches.mono ?_ w)
  have h0 := Touches.refl Mask.endArrival s
  clear h w
  unfold readTurn
  repeat' (first
    | with_reducible assumption
    | (with_reducible refine admitRead_touches ?_ rfl)
    | (with_reducible refine seqNak_touches ?_ rfl)
    | with_reducible apply touches_ite
    | (with_reducible refine touches_foldl ?_ (fun _ _ _ => ?_))
    | (with_reducible refine touches_foldl_fst ?_ (fun _ _ _ => ?_))
    | (with_reducible refine touches_foldl_snd ?_ (fun _ _ _ => ?_))
    | (fail_if_no_progress (with_reducible refine touches_mk ?_ rfl rfl))
    | (split <;> (try (rename_i e1; have e2 := congrArg Prod.fst e1; have e3 := congrArg Prod.snd e1; dsimp only at e2 e3; (try subst e2); (try subst e3)))))

theorem admitAtomic_touches {clk qi : ℕ} {again : Bool} {p : RocePacket} (h : Touches M s0 s)
    (w : Mask.le Mask.endArrival M = true) : Touches M s0 (admitAtomic s clk qi again p) := by
  refine h.trans (Touches.mono ?_ w)
  have h0 := Touches.refl Mask.endArrival s
  clear h w
  unfold admitAtomic
  repeat' (first
    | with_reducible assumption
    | (with_reducible refine arrive_touches ?_ rfl)
    | (with_reducible refine fatalNak_touches ?_ rfl)
    | with_reducible apply touches_ite)

theorem atomicAgain_touches {qi psn v : ℕ} (h : Touches M s0 s) (w : Mask.le Mask.sendOwed M = true) :
    Touches M s0 (atomicAgain s qi psn v) := by
  refine h.trans (Touches.mono ?_ w)
  have h0 := Touches.refl Mask.sendOwed s
  clear h w
  unfold atomicAgain
  repeat' (first
    | with_reducible assumption
    | ((try lift_lets); intro x; first
        | clear_value x)
    | (with_reducible refine respond_touches ?_ rfl)
    | with_reducible apply touches_ite)

theorem atomicTurn_touches {clk qi : ℕ} {p : RocePacket} (h : Touches M s0 s) (w : Mask.le Mask.endArrival M = true)
    : Touches M s0 (atomicTurn s clk qi p) := by
  refine h.trans (Touches.mono ?_ w)
  have h0 := Touches.refl Mask.endArrival s
  clear h w
  unfold atomicTurn
  repeat' (first
    | with_reducible assumption
    | ((try lift_lets); intro x; first
        | clear_value x)
    | (with_reducible refine admitAtomic_touches ?_ rfl)
    | (with_reducible refine atomicAgain_touches ?_ rfl)
    | (with_reducible refine seqNak_touches ?_ rfl)
    | with_reducible apply touches_ite
    | (with_reducible refine touches_foldl ?_ (fun _ _ _ => ?_))
    | (with_reducible refine touches_foldl_fst ?_ (fun _ _ _ => ?_))
    | (with_reducible refine touches_foldl_snd ?_ (fun _ _ _ => ?_))
    | (fail_if_no_progress (with_reducible refine touches_mk ?_ rfl rfl))
    | (split <;> (try (rename_i e1; have e2 := congrArg Prod.fst e1; have e3 := congrArg Prod.snd e1; dsimp only at e2 e3; (try subst e2); (try subst e3)))))

theorem admitSend_touches {clk qi : ℕ} {p : RocePacket} (h : Touches M s0 s) (w : Mask.le Mask.endArrival M = true)
    : Touches M s0 (admitSend s clk qi p) := by
  refine h.trans (Touches.mono ?_ w)
  have h0 := Touches.refl Mask.endArrival s
  clear h w
  unfold admitSend
  repeat' (first
    | with_reducible assumption
    | (((try lift_lets); intro x); (refine (fun (hx : Touches Mask.endArrival s x) => ?_) ?_ <;> [clear_value x; (unfold x; clear x)]))
    | (with_reducible refine arrive_touches ?_ rfl)
    | (with_reducible refine fatalNak_touches ?_ rfl)
    | (with_reducible refine qpMod_touches ?_ rfl)
    | (with_reducible refine roceBadTag_touches ?_ rfl)
    | with_reducible apply touches_ite
    | split)

theorem repeatSend_touches {clk qi : ℕ} {k : Packet} {p : RocePacket} (h : Touches M s0 s)
    (w : Mask.le Mask.endArrival M = true) : Touches M s0 (repeatSend s clk qi k p) := by
  refine h.trans (Touches.mono ?_ w)
  have h0 := Touches.refl Mask.endArrival s
  clear h w
  unfold repeatSend
  repeat' (first
    | with_reducible assumption
    | ((try lift_lets); intro x; first
        | clear_value x)
    | (with_reducible refine arrive_touches ?_ rfl)
    | (with_reducible refine fatalNak_touches ?_ rfl)
    | with_reducible apply touches_ite)

theorem sendTurn_touches {clk qi : ℕ} {p : RocePacket} (h : Touches M s0 s) (w : Mask.le Mask.endArrival M = true) :
    Touches M s0 (sendTurn s clk qi p) := by
  refine h.trans (Touches.mono ?_ w)
  have h0 := Touches.refl Mask.endArrival s
  clear h w
  unfold sendTurn
  repeat' (first
    | with_reducible assumption
    | (with_reducible refine ackAgain_touches ?_ rfl)
    | (with_reducible refine admitSend_touches ?_ rfl)
    | (with_reducible refine repeatSend_touches ?_ rfl)
    | (with_reducible refine seqNak_touches ?_ rfl)
    | with_reducible apply touches_ite
    | (with_reducible refine touches_foldl ?_ (fun _ _ _ => ?_))
    | (with_reducible refine touches_foldl_fst ?_ (fun _ _ _ => ?_))
    | (with_reducible refine touches_foldl_snd ?_ (fun _ _ _ => ?_))
    | (fail_if_no_progress (with_reducible refine touches_mk ?_ rfl rfl))
    | (split <;> (try (rename_i e1; have e2 := congrArg Prod.fst e1; have e3 := congrArg Prod.snd e1; dsimp only at e2 e3; (try subst e2); (try subst e3)))))

theorem resendFrom_touches {qi psn : ℕ} (h : Touches M s0 s) (w : Mask.le Mask.sendOwed M = true) :
    Touches M s0 (resendFrom s qi psn) := by
  refine h.trans (Touches.mono ?_ w)
  have h0 := Touches.refl Mask.sendOwed s
  clear h w
  unfold resendFrom
  repeat' (first
    | with_reducible assumption
    | (with_reducible refine qpSet_touches ?_ rfl)
    | (with_reducible refine sendRoce_touches ?_ rfl)
    | (with_reducible refine touches_foldl ?_ (fun _ _ _ => ?_)))

theorem retryAnswers_touches {qi : ℕ} (h : Touches M s0 s) (w : Mask.le Mask.sendOwed M = true) :
    Touches M s0 (retryAnswers s qi) := by
  refine h.trans (Touches.mono ?_ w)
  have h0 := Touches.refl Mask.sendOwed s
  clear h w
  unfold retryAnswers
  repeat' (first
    | with_reducible assumption
    | ((try lift_lets); intro x; clear_value x)
    | (with_reducible refine qpFatal_touches ?_ rfl)
    | (with_reducible refine qpSet_touches ?_ rfl)
    | (with_reducible refine resendFrom_touches ?_ rfl)
    | split)

theorem rnrAnswer_touches {qi psn : ℕ} (h : Touches M s0 s) (w : Mask.le { eth := true } M = true) :
    Touches M s0 (rnrAnswer s qi psn) := by
  refine h.trans (Touches.mono ?_ w)
  have h0 := Touches.refl { eth := true } s
  clear h w
  unfold rnrAnswer
  repeat' (first
    | with_reducible assumption
    | ((try lift_lets); intro x; clear_value x)
    | (with_reducible refine qpFatal_touches ?_ rfl)
    | (with_reducible refine qpSet_touches ?_ rfl)
    | split)

theorem writeQpState_touches {qi value : ℕ} (h : Touches M s0 s) (w : Mask.le { eth := true } M = true) :
    Touches M s0 (writeQpState s qi value) := by
  refine h.trans (Touches.mono ?_ w)
  have h0 := Touches.refl { eth := true } s
  clear h w
  unfold writeQpState
  repeat' (first
    | with_reducible assumption
    | (with_reducible refine qpSet_touches ?_ rfl)
    | with_reducible apply touches_ite
    | split)

theorem writePhy_touches {port v : ℕ} (h : Touches M s0 s) (w : Mask.le { eth := true } M = true) :
    Touches M s0 (writePhy s port v) := by
  refine h.trans (Touches.mono ?_ w)
  have h0 := Touches.refl { eth := true } s
  clear h w
  unfold writePhy
  repeat' (first
    | with_reducible assumption
    | (with_reducible refine ethPortMod_touches ?_ rfl)
    | split)

end Sys2Proof.Machine
end

