-- ==== Sys2Proof/Laws/TouchesRebuild.lean ====
section
/-! SUPPORT. What the operations of Machine/Rebuild.lean may change. -/

namespace Sys2Proof.Machine

variable {M : Mask} {s0 s t : State}

theorem cryptoErase_touches {p : ℕ} (h : Touches M s0 s) (w : Mask.le { fl := true } M = true) :
    Touches M s0 (cryptoErase s p) := by
  refine h.trans (Touches.mono ?_ w)
  have h0 := Touches.refl { fl := true } s
  clear h w
  unfold cryptoErase
  repeat' (first
    | with_reducible assumption
    | (((try lift_lets); intro x); (refine (fun (hx : Touches { fl := true } s x) => ?_) ?_ <;> [clear_value x; (unfold x; clear x)]))
    | (with_reducible refine blockMod_touches ?_ rfl)
    | with_reducible apply touches_ite
    | (with_reducible refine touches_foldl ?_ (fun _ _ _ => ?_))
    | (fail_if_no_progress (with_reducible refine touches_mk ?_ rfl rfl)))

theorem setKeys_touches {p : ℕ} {k : KeySet} (h : Touches M s0 s) (w : Mask.le { parts := true } M = true) :
    Touches M s0 (setKeys s p k) :=
  h.trans (Touches.mono ⟨rfl, id⟩ w)

/-- What `destroyKeys` may change. -/
abbrev Mask.destroyKeys : Mask :=
  { parts := true, fl := true, sec := true }

theorem destroyKeys_touches {p : ℕ} (h : Touches M s0 s) (w : Mask.le Mask.destroyKeys M = true) :
    Touches M s0 (destroyKeys s p) := by
  refine h.trans (Touches.mono ?_ w)
  have h0 := Touches.refl Mask.destroyKeys s
  clear h w
  unfold destroyKeys
  repeat' (first
    | with_reducible assumption
    | (with_reducible refine cryptoErase_touches ?_ rfl)
    | (with_reducible refine setKeys_touches ?_ rfl)
    | (fail_if_no_progress (with_reducible refine touches_mk ?_ rfl rfl)))

theorem advanceEpoch_touches {p : ℕ} (h : Touches M s0 s) (w : Mask.le { parts := true } M = true) :
    Touches M s0 (advanceEpoch s p) :=
  h.trans (Touches.mono ⟨rfl, id⟩ w)

/-- What `fillSlice` may change. -/
abbrev Mask.fillSlice : Mask :=
  { stk := true, near := true, di := true, dram := true, nearMem := true }

theorem fillSlice_touches {sl : Nat} (h : Touches M s0 s) (w : Mask.le Mask.fillSlice M = true) : Touches M s0 (fillSlice s sl) := by
  refine h.trans (Touches.mono ?_ w)
  unfold fillSlice
  exact injectFlips_touches (touches_filter (m := Mask.fillSlice) (Touches.refl _ s) rfl rfl) rfl

theorem fillSlices_touches {sls : List ℕ} (h : Touches M s0 s) (w : Mask.le Mask.fillSlice M = true) :
    Touches M s0 (fillSlices s sls) := by
  refine h.trans (Touches.mono ?_ w)
  have h0 := Touches.refl Mask.fillSlice s
  clear h w
  unfold fillSlices
  repeat' (first
    | with_reducible assumption
    | (with_reducible refine fillSlice_touches ?_ rfl)
    | (with_reducible refine touches_foldl ?_ (fun _ _ _ => ?_)))

theorem dropCells_touches {hit : Nat → Nat → Bool} {lost : List Nat} (h : Touches M s0 s) (w : Mask.le { stk := true, dram := true } M = true) :
    Touches M s0 (dropCells s hit lost) := by
  refine h.trans (Touches.mono ⟨rfl, fun w => ?_⟩ w)
  simp only [Memory.wf, Bool.and_eq_true] at w ⊢
  exact ⟨⟨⟨⟨tblFilter_wf _ w.1.1.1.1, w.1.1.1.2⟩, w.1.1.2⟩, w.1.2⟩, w.2⟩

theorem freshEntries_touches {root : ℕ} {pages : List ℕ} (h : Touches M s0 s)
    (w : Mask.le { stk := true, di := true } M = true) : Touches M s0 (freshEntries s root pages) := by
  refine h.trans (Touches.mono ?_ w)
  have h0 := Touches.refl { stk := true, di := true } s
  clear h w
  unfold freshEntries
  repeat' (first
    | with_reducible assumption
    | (with_reducible refine entryClean_touches ?_ rfl)
    | with_reducible apply touches_ite
    | (with_reducible refine touches_foldl ?_ (fun _ _ _ => ?_))
    | (with_reducible refine touches_foldl_fst ?_ (fun _ _ _ => ?_))
    | (with_reducible refine touches_foldl_snd ?_ (fun _ _ _ => ?_))
    | (fail_if_no_progress (with_reducible refine touches_mk ?_ rfl rfl))
    | (split <;> (try (rename_i e1; have e2 := congrArg Prod.fst e1; have e3 := congrArg Prod.snd e1; dsimp only at e2 e3; (try subst e2); (try subst e3)))))

/-- What `fillPages` may change. -/
abbrev Mask.fillPages : Mask :=
  { coh := true, stk := true, di := true, dram := true }

theorem fillPages_touches {p : ℕ} {pages : List ℕ} (h : Touches M s0 s) (w : Mask.le Mask.fillPages M = true) :
    Touches M s0 (fillPages s p pages) := by
  refine h.trans (Touches.mono ?_ w)
  have h0 := Touches.refl Mask.fillPages s
  clear h w
  unfold fillPages
  repeat' (first
    | with_reducible assumption
    | (((try lift_lets); intro x); (have _ := fun a => x a; dsimp only [x]; clear x))
    | (with_reducible refine dramClear_touches ?_ rfl)
    | (with_reducible refine dropCells_touches ?_ rfl)
    | (with_reducible refine freshEntries_touches ?_ rfl)
    | with_reducible apply touches_ite
    | (with_reducible refine touches_foldl ?_ (fun _ _ _ => ?_))
    | (fail_if_no_progress (with_reducible refine touches_mk ?_ rfl rfl))
    | split)

theorem clearUnits_touches {p : ℕ} {test : ℕ → Bool} (h : Touches M s0 s)
    (w : Mask.le { coh := true, eng := true } M = true) : Touches M s0 (clearUnits s p test) :=
  h.trans (Touches.mono ⟨rfl, id⟩ w)

/-- What `mapRegion` may change. -/
abbrev Mask.mapRegion : Mask :=
  { coh := true, stk := true, eng := true, di := true, dram := true }

theorem mapRegion_touches {free : List ℕ} {r : RegionRec} (h : Touches M s0 s) (w : Mask.le Mask.mapRegion M = true)
    : Touches M s0 (mapRegion s free r).1 := by
  refine h.trans (Touches.mono ?_ w)
  have h0 := Touches.refl Mask.mapRegion s
  clear h w
  unfold mapRegion
  repeat' (first
    | with_reducible assumption
    | (((try lift_lets); intro x); (refine (fun (hx : Touches Mask.mapRegion s x) => ?_) ?_ <;> [clear_value x; (unfold x; clear x)]))
    | (with_reducible refine fillPages_touches ?_ rfl)
    | (fail_if_no_progress (with_reducible refine touches_mk ?_ rfl rfl)))

theorem mapSized_touches {p n : ℕ} {rs : List RegionRec} (h : Touches M s0 s) (w : Mask.le Mask.mapRegion M = true)
    : Touches M s0 (mapSized s p n rs) := by
  refine h.trans (Touches.mono ?_ w)
  have h0 := Touches.refl Mask.mapRegion s
  clear h w
  unfold mapSized
  repeat' (first
    | with_reducible assumption
    | (with_reducible refine mapRegion_touches ?_ rfl)
    | (with_reducible refine touches_foldl_fst ?_ (fun _ _ _ => ?_))
    | split)

theorem mapRegions_touches {p : ℕ} {rs : List RegionRec} (h : Touches M s0 s) (w : Mask.le Mask.mapRegion M = true)
    : Touches M s0 (mapRegions s p rs) := by
  refine h.trans (Touches.mono ?_ w)
  have h0 := Touches.refl Mask.mapRegion s
  clear h w
  unfold mapRegions
  repeat' (first
    | with_reducible assumption
    | (with_reducible refine mapSized_touches ?_ rfl))

theorem dropCopy_touches {l : Option FlashLoc} (h : Touches M s0 s) (w : Mask.le { fl := true } M = true) :
    Touches M s0 (dropCopy s l) := by
  refine h.trans (Touches.mono ?_ w)
  have h0 := Touches.refl { fl := true } s
  clear h w
  unfold dropCopy
  repeat' (first
    | with_reducible assumption
    | (with_reducible refine copySet_touches ?_ rfl)
    | with_reducible apply touches_ite
    | (with_reducible refine touches_foldl ?_ (fun _ _ _ => ?_))
    | (with_reducible refine touches_foldl_fst ?_ (fun _ _ _ => ?_))
    | (with_reducible refine touches_foldl_snd ?_ (fun _ _ _ => ?_))
    | (fail_if_no_progress (with_reducible refine touches_mk ?_ rfl rfl))
    | (split <;> (try (rename_i e1; have e2 := congrArg Prod.fst e1; have e3 := congrArg Prod.snd e1; dsimp only at e2 e3; (try subst e2); (try subst e3)))))

theorem takeGranules_touches {p : ℕ} {old new : Layout} {keep : RegionRec → Bool} (h : Touches M s0 s)
    (w : Mask.le Mask.readMap M = true) : Touches M s0 (takeGranules s p old new keep).1 := by
  refine h.trans (Touches.mono ?_ w)
  have h0 := Touches.refl Mask.readMap s
  clear h w
  unfold takeGranules
  repeat' (first
    | with_reducible assumption
    | ((try lift_lets); intro x; first
        | (refine (fun (hx : Touches Mask.readMap s x) => ?_) ?_ <;> [clear_value x; (unfold x; clear x)])
        | clear_value x)
    | (with_reducible refine dropCopy_touches ?_ rfl)
    | (with_reducible refine frameCopy_touches ?_ rfl)
    | (with_reducible refine granSet_touches ?_ rfl)
    | (with_reducible refine touches_foldl_fst ?_ (fun _ _ _ => ?_))
    | split)

theorem putGranule_touches {p : ℕ} {k : KeptGranule} (h : Touches M s0 s) (w : Mask.le Mask.fetchDone M = true) :
    Touches M s0 (putGranule s p k) := by
  refine h.trans (Touches.mono ?_ w)
  have h0 := Touches.refl Mask.fetchDone s
  clear h w
  unfold putGranule
  repeat' (first
    | with_reducible assumption
    | (((try lift_lets); intro x); (refine (fun (hx : Touches Mask.fetchDone s x) => ?_) ?_ <;> [clear_value x; (unfold x; clear x)]))
    | (with_reducible refine copySet_touches ?_ rfl)
    | (with_reducible refine dropCopy_touches ?_ rfl)
    | (with_reducible refine granSet_touches ?_ rfl)
    | (with_reducible refine installCopy_touches ?_ rfl)
    | (with_reducible refine nextPage_touches (by assumption) ?_ rfl)
    | split)

theorem cleanMap_touches {p : ℕ} (h : Touches M s0 s) (w : Mask.le { stk := true } M = true) :
    Touches M s0 (cleanMap s p) := by
  refine h.trans (Touches.mono ?_ w)
  have h0 := Touches.refl { stk := true } s
  clear h w
  unfold cleanMap
  repeat' (first
    | with_reducible assumption
    | ((try lift_lets); intro x; first
        | (have _ := fun a => x a; dsimp only [x]; clear x)
        | clear_value x)
    | with_reducible apply touches_ite
    | (with_reducible refine touches_foldl ?_ (fun _ _ _ => ?_))
    | (with_reducible refine touches_foldl_fst ?_ (fun _ _ _ => ?_))
    | (with_reducible refine touches_foldl_snd ?_ (fun _ _ _ => ?_))
    | (fail_if_no_progress (with_reducible refine touches_mk ?_ rfl rfl)))

theorem queueEmpty_touches {p : ℕ} (h : Touches M s0 s) (w : Mask.le { fl := true } M = true) :
    Touches M s0 (queueEmpty s p) := by
  refine h.trans (Touches.mono ?_ w)
  have h0 := Touches.refl { fl := true } s
  clear h w
  unfold queueEmpty
  repeat' (first
    | with_reducible assumption
    | (with_reducible refine blockMod_touches ?_ rfl)
    | (with_reducible refine touches_foldl ?_ (fun _ _ _ => ?_))
    | split)

theorem recallLine_touches {discard : Bool} {line : ℕ} (h : Touches M s0 s) (w : Mask.le Mask.openRecovery M = true)
    : Touches M s0 (recallLine discard s line) := by
  refine h.trans (Touches.mono ?_ w)
  have h0 := Touches.refl Mask.openRecovery s
  clear h w
  unfold recallLine
  repeat' (first
    | with_reducible assumption
    | (((try lift_lets); intro x); (refine (fun (hx : Touches Mask.openRecovery s x) => ?_) ?_ <;> [clear_value x; (unfold x; clear x)]))
    | (with_reducible refine dirSet_touches ?_ rfl)
    | (with_reducible refine drawFree_touches ?_ rfl)
    | (with_reducible refine openTxn_touches ?_ rfl)
    | (with_reducible refine readEntry_touches ?_ rfl)
    | (with_reducible refine sendSnoop_touches ?_ rfl)
    | (with_reducible refine sweptLine_touches ?_ rfl)
    | (with_reducible refine touchLine_touches ?_ rfl)
    | with_reducible apply touches_ite
    | (with_reducible refine touches_foldl ?_ (fun _ _ _ => ?_)))

theorem recallUnits_touches {p : ℕ} {discard : Bool} {test : ℕ → Bool} (h : Touches M s0 s)
    (w : Mask.le Mask.openRecovery M = true) : Touches M s0 (recallUnits s p discard test) := by
  refine h.trans (Touches.mono ?_ w)
  have h0 := Touches.refl Mask.openRecovery s
  clear h w
  unfold recallUnits
  repeat' (first
    | with_reducible assumption
    | (with_reducible refine recallLine_touches ?_ rfl)
    | (with_reducible refine touches_foldl ?_ (fun _ _ _ => ?_)))

theorem withdrawSvc_touches {y_1 : ℕ} (h : Touches M s0 s) (w : Mask.le { coh := true, twn := true } M = true) :
    Touches M s0 (withdrawSvc s y_1) :=
  h.trans (Touches.mono ⟨rfl, id⟩ w)

theorem endTxns_touches {f : Txn → Bool} (h : Touches M s0 s) (w : Mask.le Mask.enterP M = true) :
    Touches M s0 (endTxns s f) := by
  refine h.trans (Touches.mono ?_ w)
  have h0 := Touches.refl Mask.enterP s
  clear h w
  unfold endTxns
  repeat' (first
    | with_reducible assumption
    | (with_reducible refine dropTxn_touches ?_ rfl)
    | (with_reducible refine enterP_touches ?_ rfl)
    | (with_reducible refine touches_foldl ?_ (fun _ _ _ => ?_)))

theorem forgetHeld_touches {p q : ℕ} (h : Touches M s0 s) (w : Mask.le { parts := true } M = true) :
    Touches M s0 (forgetHeld s p q) :=
  h.trans (Touches.mono ⟨rfl, id⟩ w)

/-- What `endServiceBy` may change. -/
abbrev Mask.endServiceBy : Mask :=
  { parts := true, coh := true, stk := true, near := true, eng := true, di := true, twn := true, svc := true,
    free := true, nearMem := true }

theorem endServiceBy_touches {f : State → Service → State} {p : Nat} {st : Status} (h : Touches M s0 s)
    (w : Mask.le Mask.endServiceBy M = true) (kf : ∀ t, Touches M s0 t → ∀ v, Touches M s0 (f t v)) :
    Touches M s0 (endServiceBy f s p st) := by
  unfold endServiceBy
  repeat' (first
    | with_reducible assumption
    | (((try lift_lets); intro x); (refine (fun (hx : Touches M s0 x) => ?_) ?_ <;> [clear_value x; (unfold x; clear x)]))
    | (with_reducible refine kf _ ?_ _)
    | (with_reducible refine dropPieces_touches ?_ (Mask.le_trans rfl w))
    | (with_reducible refine dropSvc_touches ?_ (Mask.le_trans rfl w))
    | (with_reducible refine endCommand_touches ?_ (Mask.le_trans rfl w))
    | (with_reducible refine endTxns_touches ?_ (Mask.le_trans rfl w))
    | (with_reducible refine forgetHeld_touches ?_ (Mask.le_trans rfl w))
    | (with_reducible refine logMod_touches ?_ (Mask.le_trans rfl w))
    | (with_reducible refine noAddress_touches ?_ (Mask.le_trans rfl w))
    | (with_reducible refine withdrawSvc_touches ?_ (Mask.le_trans rfl w))
    | (with_reducible refine writeCompletion_touches ?_ (Mask.le_trans rfl w))
    | with_reducible apply touches_ite
    | (with_reducible refine touches_foldl ?_ (fun _ _ _ => ?_))
    | (with_reducible refine touches_foldl_fst ?_ (fun _ _ _ => ?_))
    | (with_reducible refine touches_foldl_snd ?_ (fun _ _ _ => ?_))
    | (fail_if_no_progress (with_reducible refine touches_mk ?_ rfl rfl))
    | (split <;> (try (rename_i e1; have e2 := congrArg Prod.fst e1; have e3 := congrArg Prod.snd e1; dsimp only at e2 e3; (try subst e2); (try subst e3))))
    | dsimp only [id])

/-- What `endService` may change. -/
abbrev Mask.endService : Mask :=
  { parts := true, flows := true, ports := true, fab := true, coh := true, stk := true, near := true, eng :=
    true, di := true, eth := true, sec := true, twn := true, svc := true, out := true, free := true, nearMem :=
    true }

theorem endService_touches {p : ℕ} {st : Status} (h : Touches M s0 s) (w : Mask.le Mask.endService M = true) :
    Touches M s0 (endService s p st) := by
  refine h.trans (Touches.mono ?_ w)
  have h0 := Touches.refl Mask.endService s
  clear h w
  unfold endService
  repeat' (first
    | with_reducible assumption
    | (with_reducible refine endServiceBy_touches ?_ rfl (fun _ _ _ => ?_))
    | (with_reducible refine finish_touches ?_ rfl))

theorem quiesce_touches {p why : ℕ} (h : Touches M s0 s) (w : Mask.le Mask.endWaiting M = true) :
    Touches M s0 (quiesce s p why) := by
  refine h.trans (Touches.mono ?_ w)
  have h0 := Touches.refl Mask.endWaiting s
  clear h w
  unfold quiesce
  repeat' (first
    | with_reducible assumption
    | (with_reducible refine endQueued_touches ?_ rfl)
    | (with_reducible refine partMod_touches ?_ rfl))

theorem unfence_touches {p : ℕ} (h : Touches M s0 s) (w : Mask.le { parts := true } M = true) :
    Touches M s0 (unfence s p) :=
  h.trans (Touches.mono ⟨rfl, id⟩ w)

theorem twinImage_touches (h : Touches M s0 s) (w : Mask.le { twn := true } M = true) : Touches M s0 (twinImage s)
    :=
  h.trans (Touches.mono ⟨rfl, id⟩ w)

end Sys2Proof.Machine
end

