-- ==== Sys2Proof/Laws/TouchesStart.lean ====
section
/-! SUPPORT. What the operations of Machine/Start.lean may change. -/

namespace Sys2Proof.Machine

variable {M : Mask} {s0 s t : State}

theorem restartParts_touches (h : Touches M s0 s) (w : Mask.le { parts := true, sec := true } M = true) :
    Touches M s0 (restartParts s) := by
  refine h.trans (Touches.mono ?_ w)
  have h0 := Touches.refl { parts := true, sec := true } s
  clear h w
  unfold restartParts
  repeat' (first
    | with_reducible assumption
    | (((try lift_lets); intro x); (refine (fun (hx : Touches { parts := true, sec := true } s x) => ?_) ?_ <;> [clear_value x; (unfold x; clear x)]))
    | (with_reducible refine partSet_touches ?_ rfl)
    | (with_reducible refine touches_foldl ?_ (fun _ _ _ => ?_))
    | (fail_if_no_progress (with_reducible refine touches_mk ?_ rfl rfl)))

/-- What `restartUnits` may change. -/
abbrev Mask.restartUnits : Mask :=
  { mgmt := true, img := true, flows := true, td := true, ports := true, fab := true, coh := true, stk := true,
    near := true, fl := true, eng := true, di := true, eth := true, sec := true, twn := true, pwr := true,
    staging := true, mailbox := true, svc := true, boot := true, layout := true, owners := true, dram := true,
    nearMem := true }

/-- Memories emptied, or left as they were. -/
theorem touches_emptied {m : Mask} {u : State} (h : Touches m s0 s) (e0 : restore m s u = s)
    (e1 : u.stk.dram = s.stk.dram ∨ u.stk.dram = []) (e2 : u.near.mem = s.near.mem ∨ u.near.mem = [])
    (e3 : u.near.flips = s.near.flips ∨ u.near.flips = []) (e4 : u.staging = s.staging ∨ u.staging = [])
    (e5 : u.mailbox = s.mailbox ∨ u.mailbox = []) : Touches m s0 u := by
  refine h.trans ⟨e0, fun w => ?_⟩
  simp only [Memory.wf, Bool.and_eq_true] at w ⊢
  obtain ⟨⟨⟨⟨w1, w2⟩, w3⟩, w4⟩, w5⟩ := w
  refine ⟨⟨⟨⟨?_, ?_⟩, ?_⟩, ?_⟩, ?_⟩
  · rcases e1 with e | e <;> rw [e] <;> first | exact w1 | rfl
  · rcases e2 with e | e <;> rw [e] <;> first | exact w2 | rfl
  · rcases e3 with e | e <;> rw [e] <;> first | exact w3 | rfl
  · rcases e4 with e | e <;> rw [e] <;> first | exact w4 | rfl
  · rcases e5 with e | e <;> rw [e] <;> first | exact w5 | rfl

theorem restartUnits_touches {k : StartKind} (h : Touches M s0 s) (w : Mask.le Mask.restartUnits M = true) :
    Touches M s0 (restartUnits k s) := by
  refine h.trans (Touches.mono ?_ w)
  refine touches_emptied (Touches.refl Mask.restartUnits s) rfl ?_ (.inr ?_) (.inr ?_) ?_ ?_
  · cases k <;> first | exact .inl rfl | exact .inr rfl
  · cases k <;> rfl
  · cases k <;> rfl
  · cases k <;> first | exact .inl rfl | exact .inr rfl
  · cases k <;> first | exact .inl rfl | exact .inr rfl

/-- What `restart` may change. -/
abbrev Mask.restart : Mask :=
  { mgmt := true, img := true, parts := true, flows := true, td := true, ports := true, fab := true, coh :=
    true, stk := true, near := true, fl := true, eng := true, di := true, eth := true, sec := true, twn := true,
    pwr := true, staging := true, mailbox := true, svc := true, boot := true, layout := true, owners := true,
    dram := true, nearMem := true }

theorem restart_touches {k : StartKind} (h : Touches M s0 s) (w : Mask.le Mask.restart M = true) :
    Touches M s0 (restart k s) := by
  refine h.trans (Touches.mono ?_ w)
  have h0 := Touches.refl Mask.restart s
  clear h w
  unfold restart
  repeat' (first
    | with_reducible assumption
    | (with_reducible refine restartParts_touches ?_ rfl)
    | (with_reducible refine restartUnits_touches ?_ rfl))

/-- What `layPartition` may change. -/
abbrev Mask.layPartition : Mask :=
  { parts := true, coh := true, stk := true, eng := true, di := true, dram := true }

theorem layPartition_touches {im : Image} {r : PartRec} (h : Touches M s0 s)
    (w : Mask.le Mask.layPartition M = true) : Touches M s0 (layPartition im s r) := by
  refine h.trans (Touches.mono ?_ w)
  have h0 := Touches.refl Mask.layPartition s
  clear h w
  unfold layPartition
  repeat' (first
    | with_reducible assumption
    | (((try lift_lets); intro x); (refine (fun (hx : Touches Mask.layPartition s x) => ?_) ?_ <;> [clear_value x; (unfold x; clear x)]))
    | (with_reducible refine lgImage_touches ?_ rfl)
    | (with_reducible refine lgStart_touches ?_ rfl)
    | (with_reducible refine mapRegions_touches ?_ rfl)
    | (with_reducible refine partMod_touches ?_ rfl)
    | (with_reducible refine unfence_touches ?_ rfl))

theorem graftUntrained_touches (h : Touches M s0 s) (w : Mask.le { stk := true } M = true) :
    Touches M s0 (graftUntrained s) := by
  refine h.trans (Touches.mono ?_ w)
  have h0 := Touches.refl { stk := true } s
  clear h w
  unfold graftUntrained
  repeat' (first
    | with_reducible assumption
    | (with_reducible refine chanSet_touches ?_ rfl)
    | with_reducible apply touches_ite
    | (with_reducible refine touches_foldl ?_ (fun _ _ _ => ?_)))

theorem startPorts_touches (h : Touches M s0 s) (w : Mask.le Mask.injectOn M = true) : Touches M s0 (startPorts s)
    := by
  refine h.trans (Touches.mono ?_ w)
  have h0 := Touches.refl Mask.injectOn s
  clear h w
  unfold startPorts
  repeat' (first
    | with_reducible assumption
    | (with_reducible refine portMod_touches ?_ rfl)
    | (with_reducible refine portOut_touches ?_ rfl)
    | (with_reducible refine touches_foldl ?_ (fun _ _ _ => ?_))
    | split)

theorem keepPorts_touches (h : Touches M s0 s) (w : Mask.le Mask.injectOn M = true) : Touches M s0 (keepPorts s) := by
  refine h.trans (Touches.mono ?_ w)
  have h0 := Touches.refl Mask.injectOn s
  clear h w
  unfold keepPorts
  repeat' (first
    | with_reducible assumption
    | ((try lift_lets); intro x; first
        | clear_value x)
    | (with_reducible refine portOut_touches ?_ rfl)
    | (with_reducible refine portSet_touches ?_ rfl)
    | with_reducible apply touches_ite
    | (with_reducible refine touches_foldl ?_ (fun _ _ _ => ?_)))

/-- What `layImage` may change. -/
abbrev Mask.layImage : Mask :=
  { img := true, parts := true, ports := true, fab := true, coh := true, stk := true, eng := true, di := true,
    twn := true, layout := true, dram := true }

theorem layImage_touches {im : Image} {sameRing : Bool} (h : Touches M s0 s) (w : Mask.le Mask.layImage M = true) :
    Touches M s0 (layImage s im sameRing) := by
  refine h.trans (Touches.mono ?_ w)
  have h0 := Touches.refl Mask.layImage s
  clear h w
  unfold layImage
  repeat' (first
    | with_reducible assumption
    | (with_reducible refine graftUntrained_touches ?_ rfl)
    | (with_reducible refine keepPorts_touches ?_ rfl)
    | (with_reducible refine layPartition_touches ?_ rfl)
    | (with_reducible refine startPorts_touches ?_ rfl)
    | (with_reducible refine twinImage_touches ?_ rfl)
    | (with_reducible refine touches_foldl ?_ (fun _ _ _ => ?_))
    | (fail_if_no_progress (with_reducible refine touches_mk ?_ rfl rfl))
    | split)

/-- What `fillDevice` may change. -/
abbrev Mask.fillDevice : Mask :=
  { stk := true, near := true, dram := true, nearMem := true }

theorem fillDevice_touches (h : Touches M s0 s) (w : Mask.le Mask.fillDevice M = true) : Touches M s0 (fillDevice s) :=
  h.trans (Touches.mono (touches_emptied (m := Mask.fillDevice) (Touches.refl _ s) rfl (.inr rfl) (.inr rfl) (.inr rfl) (.inl rfl) (.inl rfl)) w)

end Sys2Proof.Machine
end

