-- ==== Sys2Proof/Laws/TouchesImages.lean ====
section
/-! SUPPORT. What the operations of Machine/Images.lean may change. -/

namespace Sys2Proof.Machine

variable {M : Mask} {s0 s t : State}

theorem imageGo_touches (h : Touches M s0 s) (w : Mask.le { img := true } M = true) : Touches M s0 (imageGo s) := by
  refine h.trans (Touches.mono ?_ w)
  have h0 := Touches.refl { img := true } s
  clear h w
  unfold imageGo
  repeat' (first
    | with_reducible assumption
    | (with_reducible refine noteFlags_touches ?_ rfl)
    | (fail_if_no_progress (with_reducible refine touches_mk ?_ rfl rfl))
    | split)

theorem imageAbort_touches (h : Touches M s0 s) (w : Mask.le { img := true } M = true) : Touches M s0 (imageAbort s)
    := by
  refine h.trans (Touches.mono ?_ w)
  have h0 := Touches.refl { img := true } s
  clear h w
  unfold imageAbort
  repeat' (first
    | with_reducible assumption
    | (fail_if_no_progress (with_reducible refine touches_mk ?_ rfl rfl))
    | split)

theorem imageFloor_touches (h : Touches M s0 s) (w : Mask.le { img := true, owners := true } M = true) :
    Touches M s0 (imageFloor s) := by
  refine h.trans (Touches.mono ?_ w)
  have h0 := Touches.refl { img := true, owners := true } s
  clear h w
  unfold imageFloor
  repeat' (first
    | with_reducible assumption
    | (((try lift_lets); intro x); (have _ : ImgState := x; dsimp only [x]; clear x))
    | with_reducible apply touches_ite
    | (fail_if_no_progress (with_reducible refine touches_mk ?_ rfl rfl)))

theorem loadFailed_touches {y_1 : LoadErr} (h : Touches M s0 s) (w : Mask.le { img := true } M = true) :
    Touches M s0 (loadFailed s y_1) :=
  h.trans (Touches.mono ⟨rfl, id⟩ w)

/-- What `beginDrain` may change. -/
abbrev Mask.beginDrain : Mask :=
  { img := true, parts := true, flows := true, td := true, ports := true, fab := true, di := true, eth := true,
    sec := true, twn := true, out := true }

theorem beginDrain_touches {im : Image} (h : Touches M s0 s) (w : Mask.le Mask.beginDrain M = true) :
    Touches M s0 (beginDrain s im) := by
  refine h.trans (Touches.mono ?_ w)
  have h0 := Touches.refl Mask.beginDrain s
  clear h w
  unfold beginDrain
  repeat' (first
    | with_reducible assumption
    | (with_reducible refine partMod_touches ?_ rfl)
    | (with_reducible refine quiesce_touches ?_ rfl)
    | (with_reducible refine touches_foldl ?_ (fun _ _ _ => ?_))
    | (fail_if_no_progress (with_reducible refine touches_mk ?_ rfl rfl))
    | split)

/-- What `afterDrain` may change. -/
abbrev Mask.afterDrain : Mask :=
  { img := true, parts := true, ports := true, fab := true, coh := true, stk := true, di := true, eth := true,
    free := true }

theorem afterDrain_touches {p : ℕ} (h : Touches M s0 s) (w : Mask.le Mask.afterDrain M = true) :
    Touches M s0 (afterDrain s p) := by
  refine h.trans (Touches.mono ?_ w)
  have h0 := Touches.refl Mask.afterDrain s
  clear h w
  unfold afterDrain
  repeat' (first
    | with_reducible assumption
    | ((try lift_lets); intro x; first
        | (refine (fun (hx : Touches Mask.afterDrain s x) => ?_) ?_ <;> [clear_value x; (unfold x; clear x)])
        | (have _ : ImgState := x; dsimp only [x]; clear x)
        | clear_value x)
    | (with_reducible refine partMod_touches ?_ rfl)
    | (with_reducible refine recallUnits_touches ?_ rfl)
    | (with_reducible refine tearDue_touches ?_ rfl)
    | (fail_if_no_progress (with_reducible refine touches_mk ?_ rfl rfl))
    | split)

/-- What `layEntries` may change. -/
abbrev Mask.layEntries : Mask :=
  { img := true, stk := true, eng := true, di := true, layout := true }

theorem layEntries_touches {layout : Layout} {p : ℕ} (h : Touches M s0 s) (w : Mask.le Mask.layEntries M = true) :
    Touches M s0 (layEntries s layout p) := by
  refine h.trans (Touches.mono ?_ w)
  have h0 := Touches.refl Mask.layEntries s
  clear h w
  unfold layEntries
  repeat' (first
    | with_reducible assumption
    | ((try lift_lets); intro x; first
        | (have _ : ImgState := x; dsimp only [x]; clear x)
        | clear_value x)
    | (with_reducible refine entryWritten_touches ?_ rfl)
    | (with_reducible refine progWritten_touches ?_ rfl)
    | with_reducible apply touches_ite
    | (with_reducible refine touches_foldl ?_ (fun _ _ _ => ?_))
    | (with_reducible refine touches_foldl_fst ?_ (fun _ _ _ => ?_))
    | (with_reducible refine touches_foldl_snd ?_ (fun _ _ _ => ?_))
    | (fail_if_no_progress (with_reducible refine touches_mk ?_ rfl rfl)))

/-- What `cutSeal` may change. -/
abbrev Mask.cutSeal : Mask :=
  { parts := true, stk := true, di := true, sec := true }

theorem cutSeal_touches {p : ℕ} (h : Touches M s0 s) (w : Mask.le Mask.cutSeal M = true) : Touches M s0 (cutSeal s
    p) := by
  refine h.trans (Touches.mono ?_ w)
  have h0 := Touches.refl Mask.cutSeal s
  clear h w
  unfold cutSeal
  repeat' (first
    | with_reducible assumption
    | ((try lift_lets); intro x; first
        | (refine (fun (hx : Touches Mask.cutSeal s x) => ?_) ?_ <;> [clear_value x; (unfold x; clear x)])
        | clear_value x)
    | (with_reducible refine lgSeal_touches ?_ rfl)
    | with_reducible apply touches_ite
    | (with_reducible refine touches_foldl ?_ (fun _ _ _ => ?_))
    | (with_reducible refine touches_foldl_fst ?_ (fun _ _ _ => ?_))
    | (with_reducible refine touches_foldl_snd ?_ (fun _ _ _ => ?_))
    | (fail_if_no_progress (with_reducible refine touches_mk ?_ rfl rfl)))

/-- What `applyPartition` may change. -/
abbrev Mask.applyPartition : Mask :=
  { img := true, parts := true, coh := true, stk := true, near := true, fl := true, eng := true, di := true, eth
    := true, sec := true, twn := true, free := true, layout := true, dram := true, nearMem := true }

theorem applyPartition_touches {im : Image} (h : Touches M s0 s) (w : Mask.le Mask.applyPartition M = true) :
    Touches M s0 (applyPartition s im) := by
  refine h.trans (Touches.mono ?_ w)
  have h0 := Touches.refl Mask.applyPartition s
  clear h w
  unfold applyPartition
  repeat' (first
    | with_reducible assumption
    | ((try lift_lets); intro x; first
        | (refine (fun (hx : Touches Mask.applyPartition s x) => ?_) ?_ <;> [clear_value x; (unfold x; clear x)])
        | (have _ := fun a => x a; dsimp only [x]; clear x)
        | clear_value x)
    | (with_reducible refine advanceEpoch_touches ?_ rfl)
    | (with_reducible refine cleanMap_touches ?_ rfl)
    | (with_reducible refine clearUnits_touches ?_ rfl)
    | (with_reducible refine cutSeal_touches ?_ rfl)
    | (with_reducible refine destroyKeys_touches ?_ rfl)
    | (with_reducible refine dropBuffers_touches ?_ rfl)
    | (with_reducible refine endPairs_touches ?_ rfl)
    | (with_reducible refine endQps_touches ?_ rfl)
    | (with_reducible refine fillSlices_touches ?_ rfl)
    | (with_reducible refine handSet_touches ?_ rfl)
    | (with_reducible refine layEntries_touches ?_ rfl)
    | (with_reducible refine lgImage_touches ?_ rfl)
    | (with_reducible refine lgStart_touches ?_ rfl)
    | (with_reducible refine mapRegions_touches ?_ rfl)
    | (with_reducible refine partMod_touches ?_ rfl)
    | (with_reducible refine putGranule_touches ?_ rfl)
    | (with_reducible refine queueEmpty_touches ?_ rfl)
    | (with_reducible refine takeGranules_touches ?_ rfl)
    | (with_reducible refine twinImage_touches ?_ rfl)
    | (with_reducible refine unfence_touches ?_ rfl)
    | with_reducible apply touches_ite
    | (with_reducible refine touches_foldl ?_ (fun _ _ _ => ?_))
    | (with_reducible refine touches_foldl_fst ?_ (fun _ _ _ => ?_))
    | (with_reducible refine touches_foldl_snd ?_ (fun _ _ _ => ?_))
    | (fail_if_no_progress (with_reducible refine touches_mk ?_ rfl rfl))
    | (split <;> (try (rename_i e1; have e2 := congrArg Prod.fst e1; have e3 := congrArg Prod.snd e1; dsimp only at e2 e3; (try subst e2); (try subst e3)))))

end Sys2Proof.Machine
end

