-- ==== Sys2Proof/Laws/TouchesTrust.lean ====
section
/-! SUPPORT. What the operations of Machine/Trust.lean may change. -/

namespace Sys2Proof.Machine

variable {M : Mask} {s0 s t : State}

theorem secEnd_touches {code : ℕ} (h : Touches M s0 s) (w : Mask.le { sec := true } M = true) : Touches M s0 (secEnd
    s code) :=
  h.trans (Touches.mono ⟨rfl, id⟩ w)

theorem secGo_touches {op : Nat} {f : State → State} (h : Touches M s0 s) (w : Mask.le { sec := true } M = true)
    (k : ∀ t, Touches M s0 t → Touches M s0 (f t)) : Touches M s0 (secGo s op f) := by
  unfold secGo
  exact touches_ite h (k _ (h.trans (Touches.mono (m := { sec := true }) ⟨rfl, id⟩ w)))

theorem mailStore_touches {off : Nat} {bs : List Byte} (h : Touches M s0 s) (w : Mask.le { mailbox := true } M = true) :
    Touches M s0 (mailStore s off bs) := by
  induction bs generalizing off s with
  | nil => exact h
  | cons b bs ih =>
    refine ih (h.trans (Touches.mono (m := { mailbox := true }) ⟨rfl, fun w => ?_⟩ w))
    simp only [Memory.wf, Bool.and_eq_true] at w ⊢
    exact ⟨w.1, tblSet_wf w.2⟩

theorem quoteGo_touches (h : Touches M s0 s) (w : Mask.le { parts := true, sec := true } M = true) :
    Touches M s0 (quoteGo s) := by
  refine h.trans (Touches.mono ?_ w)
  have h0 := Touches.refl { parts := true, sec := true } s
  clear h w
  unfold quoteGo
  repeat' (first
    | with_reducible assumption
    | (with_reducible refine partMod_touches ?_ rfl)
    | (with_reducible refine secGo_touches ?_ rfl (fun _ _ => ?_))
    | (fail_if_no_progress (with_reducible refine touches_mk ?_ rfl rfl))
    | split)

theorem keysetGo_touches (h : Touches M s0 s) (w : Mask.le Mask.endWaiting M = true) : Touches M s0 (keysetGo s) := by
  refine h.trans (Touches.mono ?_ w)
  have h0 := Touches.refl Mask.endWaiting s
  clear h w
  unfold keysetGo
  repeat' (first
    | with_reducible assumption
    | ((try lift_lets); intro x; first
        | (refine (fun (hx : Touches Mask.endWaiting s x) => ?_) ?_ <;> [clear_value x; (unfold x; clear x)])
        | clear_value x)
    | (with_reducible refine partMod_touches ?_ rfl)
    | (with_reducible refine quiesce_touches ?_ rfl)
    | (with_reducible refine secEnd_touches ?_ rfl)
    | (with_reducible refine secGo_touches ?_ rfl (fun _ _ => ?_))
    | split)

/-- What `installKeys` may change. -/
abbrev Mask.installKeys : Mask :=
  { parts := true, coh := true, stk := true, near := true, fl := true, eng := true, di := true, eth := true, sec
    := true, dram := true, nearMem := true }

theorem installKeys_touches {p : ℕ} {k : KeySet} {qd : Digest} (h : Touches M s0 s)
    (w : Mask.le Mask.installKeys M = true) : Touches M s0 (installKeys s p k qd) := by
  refine h.trans (Touches.mono ?_ w)
  have h0 := Touches.refl Mask.installKeys s
  clear h w
  unfold installKeys
  repeat' (first
    | with_reducible assumption
    | ((try lift_lets); intro x; first
        | (refine (fun (hx : Touches Mask.installKeys s x) => ?_) ?_ <;> [clear_value x; (unfold x; clear x)])
        | clear_value x)
    | (with_reducible refine advanceEpoch_touches ?_ rfl)
    | (with_reducible refine clearUnits_touches ?_ rfl)
    | (with_reducible refine cryptoErase_touches ?_ rfl)
    | (with_reducible refine dropBuffers_touches ?_ rfl)
    | (with_reducible refine endPairs_touches ?_ rfl)
    | (with_reducible refine endQps_touches ?_ rfl)
    | (with_reducible refine fillSlices_touches ?_ rfl)
    | (with_reducible refine lgAppend_touches ?_ rfl)
    | (with_reducible refine mapRegions_touches ?_ rfl)
    | (with_reducible refine partMod_touches ?_ rfl)
    | (with_reducible refine secEnd_touches ?_ rfl)
    | (with_reducible refine setKeys_touches ?_ rfl)
    | with_reducible apply touches_ite)

/-- What `ownerApply` may change. -/
abbrev Mask.ownerApply : Mask :=
  { img := true, sec := true, owners := true }

theorem ownerApply_touches {bs : List Byte} {key : Option (List Byte)} (h : Touches M s0 s)
    (w : Mask.le Mask.ownerApply M = true) : Touches M s0 (ownerApply s bs key) := by
  refine h.trans (Touches.mono ?_ w)
  have h0 := Touches.refl Mask.ownerApply s
  clear h w
  unfold ownerApply
  repeat' (first
    | with_reducible assumption
    | ((try lift_lets); intro x; first
        | (refine (fun (hx : Touches Mask.ownerApply s x) => ?_) ?_ <;> [clear_value x; (unfold x; clear x)])
        | (have _ : ImgState := x; dsimp only [x]; clear x)
        | clear_value x)
    | (fail_if_no_progress (with_reducible refine touches_mk ?_ rfl rfl))
    | split)

theorem ownerCommand_touches {bs : List Byte} (h : Touches M s0 s) (w : Mask.le Mask.ownerApply M = true) :
    Touches M s0 (ownerCommand s bs).1 := by
  refine h.trans (Touches.mono ?_ w)
  have h0 := Touches.refl Mask.ownerApply s
  clear h w
  unfold ownerCommand
  repeat' (first
    | with_reducible assumption
    | ((try lift_lets); intro x; clear_value x)
    | (with_reducible refine ownerApply_touches ?_ rfl)
    | split)

theorem ownerGo_touches (h : Touches M s0 s) (w : Mask.le Mask.ownerApply M = true) : Touches M s0 (ownerGo s) := by
  refine h.trans (Touches.mono ?_ w)
  have h0 := Touches.refl Mask.ownerApply s
  clear h w
  unfold ownerGo
  repeat' (first
    | with_reducible assumption
    | (with_reducible refine ownerCommand_touches ?_ rfl)
    | (with_reducible refine secEnd_touches ?_ rfl)
    | (with_reducible refine secGo_touches ?_ rfl (fun _ _ => ?_)))

/-- What `sealGo` may change. -/
abbrev Mask.sealGo : Mask :=
  { parts := true, ports := true, fab := true, coh := true, stk := true, di := true, sec := true, free := true }

theorem sealGo_touches (h : Touches M s0 s) (w : Mask.le Mask.sealGo M = true) : Touches M s0 (sealGo s) := by
  refine h.trans (Touches.mono ?_ w)
  have h0 := Touches.refl Mask.sealGo s
  clear h w
  unfold sealGo
  repeat' (first
    | with_reducible assumption
    | ((try lift_lets); intro x; clear_value x)
    | (with_reducible refine recallUnits_touches ?_ rfl)
    | (with_reducible refine secEnd_touches ?_ rfl)
    | (with_reducible refine secGo_touches ?_ rfl (fun _ _ => ?_))
    | (fail_if_no_progress (with_reducible refine touches_mk ?_ rfl rfl))
    | split)

/-- What `sealLine` may change. -/
abbrev Mask.sealLine : Mask :=
  { parts := true, stk := true, di := true, free := true }

theorem sealLine_touches {p off : ℕ} (h : Touches M s0 s) (w : Mask.le Mask.sealLine M = true) :
    Touches M s0 (sealLine s p off).1 := by
  refine h.trans (Touches.mono ?_ w)
  have h0 := Touches.refl Mask.sealLine s
  clear h w
  unfold sealLine
  repeat' (first
    | with_reducible assumption
    | (with_reducible refine drawBytes_touches ?_ rfl)
    | (with_reducible refine readLine_touches ?_ rfl)
    | split)

theorem sealRead_touches {p off n : ℕ} (h : Touches M s0 s) (w : Mask.le Mask.sealLine M = true) :
    Touches M s0 (sealRead s p off n).1 := by
  refine h.trans (Touches.mono ?_ w)
  have h0 := Touches.refl Mask.sealLine s
  clear h w
  unfold sealRead
  repeat' (first
    | with_reducible assumption
    | (with_reducible refine sealLine_touches ?_ rfl)
    | (with_reducible refine touches_foldl_fst ?_ (fun _ _ _ => ?_)))

theorem sealWrite_touches {p off : ℕ} {bs : List Byte} (h : Touches M s0 s) (w : Mask.le Mask.writeLine M = true) :
    Touches M s0 (sealWrite s p off bs) := by
  refine h.trans (Touches.mono ?_ w)
  have h0 := Touches.refl Mask.writeLine s
  clear h w
  unfold sealWrite
  repeat' (first
    | with_reducible assumption
    | (with_reducible refine writeLine_touches ?_ rfl)
    | (with_reducible refine touches_foldl ?_ (fun _ _ _ => ?_))
    | split)

/-- What `endSeal` may change. -/
abbrev Mask.endSeal : Mask :=
  { parts := true, coh := true, stk := true, di := true, sec := true, free := true, dram := true }

theorem endSeal_touches {x : SealOp} {r : RegionRec} (h : Touches M s0 s) (w : Mask.le Mask.endSeal M = true) :
    Touches M s0 (endSeal s x r) := by
  refine h.trans (Touches.mono ?_ w)
  have h0 := Touches.refl Mask.endSeal s
  clear h w
  unfold endSeal
  repeat' (first
    | with_reducible assumption
    | (with_reducible refine fillPages_touches ?_ rfl)
    | (with_reducible refine lgSeal_touches ?_ rfl)
    | (with_reducible refine sealRead_touches ?_ rfl)
    | (with_reducible refine sealWrite_touches ?_ rfl)
    | (with_reducible refine secEnd_touches ?_ rfl)
    | (fail_if_no_progress (with_reducible refine touches_mk ?_ rfl rfl))
    | split)

theorem restartCore_touches (h : Touches M s0 s) (w : Mask.le { mgmt := true } M = true) : Touches M s0 (restartCore
    s) :=
  h.trans (Touches.mono ⟨rfl, id⟩ w)

theorem fwStageEnd_touches {file : List Byte} (h : Touches M s0 s) (w : Mask.le { sec := true } M = true) :
    Touches M s0 (fwStageEnd s file) := by
  refine h.trans (Touches.mono ?_ w)
  have h0 := Touches.refl { sec := true } s
  clear h w
  unfold fwStageEnd
  repeat' (first
    | with_reducible assumption
    | (with_reducible refine secEnd_touches ?_ rfl)
    | with_reducible apply touches_ite
    | (fail_if_no_progress (with_reducible refine touches_mk ?_ rfl rfl)))

theorem fwStageGo_touches {file : List Byte} (h : Touches M s0 s) (w : Mask.le { sec := true } M = true) :
    Touches M s0 (fwStageGo s file) := by
  refine h.trans (Touches.mono ?_ w)
  have h0 := Touches.refl { sec := true } s
  clear h w
  unfold fwStageGo
  repeat' (first
    | with_reducible assumption
    | (with_reducible refine fwStageEnd_touches ?_ rfl)
    | (with_reducible refine secGo_touches ?_ rfl (fun _ _ => ?_))
    | split)

/-- What `fwActivateGo` may change. -/
abbrev Mask.fwActivateGo : Mask :=
  { mgmt := true, parts := true, stk := true, di := true, sec := true }

theorem fwActivateGo_touches (h : Touches M s0 s) (w : Mask.le Mask.fwActivateGo M = true) :
    Touches M s0 (fwActivateGo s) := by
  refine h.trans (Touches.mono ?_ w)
  have h0 := Touches.refl Mask.fwActivateGo s
  clear h w
  unfold fwActivateGo
  repeat' (first
    | with_reducible assumption
    | (((try lift_lets); intro x); (refine (fun (hx : Touches Mask.fwActivateGo s x) => ?_) ?_ <;> [clear_value x; (unfold x; clear x)]))
    | (with_reducible refine lgFirmware_touches ?_ rfl)
    | (with_reducible refine restartCore_touches ?_ rfl)
    | (with_reducible refine secEnd_touches ?_ rfl)
    | (with_reducible refine secGo_touches ?_ rfl (fun _ _ => ?_))
    | (fail_if_no_progress (with_reducible refine touches_mk ?_ rfl rfl))
    | split)

theorem fwCommitGo_touches (h : Touches M s0 s) (w : Mask.le Mask.cutSeal M = true) : Touches M s0 (fwCommitGo s) :=
    by
  refine h.trans (Touches.mono ?_ w)
  have h0 := Touches.refl Mask.cutSeal s
  clear h w
  unfold fwCommitGo
  repeat' (first
    | with_reducible assumption
    | (((try lift_lets); intro x); (refine (fun (hx : Touches Mask.cutSeal s x) => ?_) ?_ <;> [clear_value x; (unfold x; clear x)]))
    | (with_reducible refine lgFirmware_touches ?_ rfl)
    | (with_reducible refine secEnd_touches ?_ rfl)
    | (with_reducible refine secGo_touches ?_ rfl (fun _ _ => ?_))
    | (fail_if_no_progress (with_reducible refine touches_mk ?_ rfl rfl))
    | split)

theorem rollbackFirmware_touches (h : Touches M s0 s) (w : Mask.le Mask.fwActivateGo M = true) :
    Touches M s0 (rollbackFirmware s) := by
  refine h.trans (Touches.mono ?_ w)
  have h0 := Touches.refl Mask.fwActivateGo s
  clear h w
  unfold rollbackFirmware
  repeat' (first
    | with_reducible assumption
    | (((try lift_lets); intro x); (refine (fun (hx : Touches Mask.fwActivateGo s x) => ?_) ?_ <;> [clear_value x; (unfold x; clear x)]))
    | (with_reducible refine lgFirmware_touches ?_ rfl)
    | (with_reducible refine noteFlags_touches ?_ rfl)
    | (with_reducible refine restartCore_touches ?_ rfl)
    | (fail_if_no_progress (with_reducible refine touches_mk ?_ rfl rfl)))

theorem releaseEvent_touches {p : ℕ} {y_2 : HeldEntry} (h : Touches M s0 s)
    (w : Mask.le Mask.writeCompletion M = true) : Touches M s0 (releaseEvent s p y_2) := by
  refine h.trans (Touches.mono ?_ w)
  have h0 := Touches.refl Mask.writeCompletion s
  clear h w
  unfold releaseEvent
  repeat' (first
    | with_reducible assumption
    | (with_reducible refine endMapOp_touches ?_ rfl)
    | (with_reducible refine writeCompletion_touches ?_ rfl)
    | split)

theorem writeTail_touches {p v : ℕ} (h : Touches M s0 s) (w : Mask.le { parts := true } M = true) :
    Touches M s0 (writeTail s p v) := by
  refine h.trans (Touches.mono ?_ w)
  have h0 := Touches.refl { parts := true } s
  clear h w
  unfold writeTail
  repeat' (first
    | with_reducible assumption
    | (with_reducible refine partMod_touches ?_ rfl)
    | with_reducible apply touches_ite)

end Sys2Proof.Machine
end

