-- ==== Sys2Proof/Laws/TouchesTwins.lean ====
section
/-! SUPPORT. What the operations of Machine/Twins.lean may change. -/

namespace Sys2Proof.Machine

variable {M : Mask} {s0 s t : State}

theorem stopCopy_touches (h : Touches M s0 s) (w : Mask.le { twn := true } M = true) : Touches M s0 (stopCopy s) :=
  h.trans (Touches.mono ⟨rfl, id⟩ w)

theorem serveHeld_touches {y_1 : HeldReq} (h : Touches M s0 s) (w : Mask.le Mask.settle M = true) :
    Touches M s0 (serveHeld s y_1) := by
  refine h.trans (Touches.mono ?_ w)
  have h0 := Touches.refl Mask.settle s
  clear h w
  unfold serveHeld
  repeat' (first
    | with_reducible assumption
    | (with_reducible refine decidePublish_touches ?_ rfl)
    | (with_reducible refine finish_touches ?_ rfl)
    | (with_reducible refine runAtomic_touches ?_ rfl)
    | (with_reducible refine startPublish_touches ?_ rfl)
    | with_reducible apply touches_ite
    | split)

theorem serveAllHeld_touches (h : Touches M s0 s) (w : Mask.le Mask.settle M = true) : Touches M s0 (serveAllHeld s)
    := by
  refine h.trans (Touches.mono ?_ w)
  have h0 := Touches.refl Mask.settle s
  clear h w
  unfold serveAllHeld
  repeat' (first
    | with_reducible assumption
    | (with_reducible refine serveHeld_touches ?_ rfl)
    | (with_reducible refine touches_foldl ?_ (fun _ _ _ => ?_))
    | (fail_if_no_progress (with_reducible refine touches_mk ?_ rfl rfl)))

theorem resetAllHeld_touches (h : Touches M s0 s) (w : Mask.le Mask.finish M = true) : Touches M s0 (resetAllHeld s)
    := by
  refine h.trans (Touches.mono ?_ w)
  have h0 := Touches.refl Mask.finish s
  clear h w
  unfold resetAllHeld
  repeat' (first
    | with_reducible assumption
    | (with_reducible refine finish_touches ?_ rfl)
    | (with_reducible refine touches_foldl ?_ (fun _ _ _ => ?_))
    | (fail_if_no_progress (with_reducible refine touches_mk ?_ rfl rfl)))

theorem loseLead_touches (h : Touches M s0 s) (w : Mask.le Mask.finish M = true) : Touches M s0 (loseLead s) := by
  refine h.trans (Touches.mono ?_ w)
  have h0 := Touches.refl Mask.finish s
  clear h w
  unfold loseLead
  repeat' (first
    | with_reducible assumption
    | (((try lift_lets); intro x); (refine (fun (hx : Touches Mask.finish s x) => ?_) ?_ <;> [clear_value x; (unfold x; clear x)]))
    | (with_reducible refine resetAllHeld_touches ?_ rfl)
    | (with_reducible refine sendHeldBack_touches ?_ rfl)
    | (with_reducible refine stopCopy_touches ?_ rfl)
    | (with_reducible refine stopTwinPackets_touches ?_ rfl)
    | (fail_if_no_progress (with_reducible refine touches_mk ?_ rfl rfl)))

/-- What `enterMismatch` may change. -/
abbrev Mask.enterMismatch : Mask :=
  { img := true, parts := true, flows := true, ports := true, fab := true, coh := true, stk := true, near :=
    true, fl := true, di := true, eth := true, sec := true, twn := true, svc := true, out := true, free := true,
    dram := true, nearMem := true }

theorem enterMismatch_touches (h : Touches M s0 s) (w : Mask.le Mask.enterMismatch M = true) :
    Touches M s0 (enterMismatch s) := by
  refine h.trans (Touches.mono ?_ w)
  have h0 := Touches.refl Mask.enterMismatch s
  clear h w
  unfold enterMismatch
  repeat' (first
    | with_reducible assumption
    | ((try lift_lets); intro x; first
        | (refine (fun (hx : Touches Mask.enterMismatch s x) => ?_) ?_ <;> [clear_value x; (unfold x; clear x)]))
    | (with_reducible refine sendHeldBack_touches ?_ rfl)
    | (with_reducible refine serveAllHeld_touches ?_ rfl)
    | (with_reducible refine stopCopy_touches ?_ rfl)
    | (with_reducible refine stopTwinPackets_touches ?_ rfl)
    | with_reducible apply touches_ite
    | (fail_if_no_progress (with_reducible refine touches_mk ?_ rfl rfl)))

theorem takeBurst_touches {b : Burst} (h : Touches M s0 s) (w : Mask.le Mask.enterMismatch M = true) :
    Touches M s0 (takeBurst s b) := by
  refine h.trans (Touches.mono ?_ w)
  have h0 := Touches.refl Mask.enterMismatch s
  clear h w
  unfold takeBurst
  repeat' (first
    | with_reducible assumption
    | (with_reducible refine enterMismatch_touches ?_ rfl)
    | (with_reducible refine feedAgain_touches ?_ rfl)
    | with_reducible apply touches_ite
    | (fail_if_no_progress (with_reducible refine touches_mk ?_ rfl rfl)))

theorem markUnverified_touches (h : Touches M s0 s) (w : Mask.le { coh := true } M = true) :
    Touches M s0 (markUnverified s) :=
  h.trans (Touches.mono ⟨rfl, id⟩ w)

theorem takeOver_touches (h : Touches M s0 s) (w : Mask.le Mask.settle M = true) : Touches M s0 (takeOver s) := by
  refine h.trans (Touches.mono ?_ w)
  have h0 := Touches.refl Mask.settle s
  clear h w
  unfold takeOver
  repeat' (first
    | with_reducible assumption
    | (((try lift_lets); intro x); (refine (fun (hx : Touches Mask.settle s x) => ?_) ?_ <;> [clear_value x; (unfold x; clear x)]))
    | (with_reducible refine markUnverified_touches ?_ rfl)
    | (with_reducible refine serveAllHeld_touches ?_ rfl)
    | (with_reducible refine stopCopy_touches ?_ rfl)
    | (with_reducible refine stopTwinPackets_touches ?_ rfl)
    | (fail_if_no_progress (with_reducible refine touches_mk ?_ rfl rfl)))

theorem releaseLead_touches (h : Touches M s0 s) (w : Mask.le Mask.finish M = true) : Touches M s0 (releaseLead s)
    := by
  refine h.trans (Touches.mono ?_ w)
  have h0 := Touches.refl Mask.finish s
  clear h w
  unfold releaseLead
  repeat' (first
    | with_reducible assumption
    | (with_reducible refine sendHeldBack_touches ?_ rfl)
    | (with_reducible refine stopTwinPackets_touches ?_ rfl)
    | (fail_if_no_progress (with_reducible refine touches_mk ?_ rfl rfl))
    | split)

theorem clearTwin_touches (h : Touches M s0 s) (w : Mask.le { twn := true } M = true) : Touches M s0 (clearTwin s)
    :=
  h.trans (Touches.mono ⟨rfl, id⟩ w)

theorem answerTwin_touches {x : Sunk} {st : Status} (h : Touches M s0 s) (w : Mask.le Mask.injectOn M = true) :
    Touches M s0 (answerTwin s x st) := by
  refine h.trans (Touches.mono ?_ w)
  have h0 := Touches.refl Mask.injectOn s
  clear h w
  unfold answerTwin
  repeat' (first
    | with_reducible assumption
    | (with_reducible refine injectOn_touches ?_ rfl))

theorem decideTwin_touches {x : Sunk} (h : Touches M s0 s) (w : Mask.le Mask.grantData M = true) :
    Touches M s0 (decideTwin s x) := by
  refine h.trans (Touches.mono ?_ w)
  have h0 := Touches.refl Mask.grantData s
  clear h w
  unfold decideTwin
  repeat' (first
    | with_reducible assumption
    | ((try lift_lets); intro x; first
        | (refine (fun (hx : Touches Mask.grantData s x) => ?_) ?_ <;> [clear_value x; (unfold x; clear x)])
        | clear_value x)
    | (with_reducible refine answerTwin_touches ?_ rfl)
    | (with_reducible refine decideUnit_touches ?_ rfl)
    | (with_reducible refine finish_touches ?_ rfl)
    | (fail_if_no_progress (with_reducible refine touches_mk ?_ rfl rfl))
    | split)

theorem placeBytes_touches {addr : ℕ} {bs : List Byte} (h : Touches M s0 s) (w : Mask.le Mask.writeSegment M = true)
    : Touches M s0 (placeBytes s addr bs).1 := by
  refine h.trans (Touches.mono ?_ w)
  have h0 := Touches.refl Mask.writeSegment s
  clear h w
  unfold placeBytes
  repeat' (first
    | with_reducible assumption
    | (with_reducible refine writeSegment_touches ?_ rfl)
    | (with_reducible refine touches_foldl_fst ?_ (fun _ _ _ => ?_)))

/-- What `landMirror` may change. -/
abbrev Mask.landMirror : Mask :=
  { parts := true, flows := true, ports := true, fab := true, stk := true, near := true, fl := true, di := true,
    eth := true, sec := true, twn := true, svc := true, out := true, dram := true, nearMem := true }

theorem landMirror_touches {x : Sunk} (h : Touches M s0 s) (w : Mask.le Mask.landMirror M = true) :
    Touches M s0 (landMirror s x).1 := by
  refine h.trans (Touches.mono ?_ w)
  have h0 := Touches.refl Mask.landMirror s
  clear h w
  unfold landMirror
  repeat' (first
    | with_reducible assumption
    | ((try lift_lets); intro x; first
        | (refine (fun (hx : Touches Mask.landMirror s x) => ?_) ?_ <;> [clear_value x; (unfold x; clear x)])
        | (refine (fun (hx : Touches Mask.landMirror s x.1) => ?_) ?_ <;> [clear_value x; (unfold x; clear x)])
        | clear_value x)
    | (with_reducible refine answerTwin_touches ?_ rfl)
    | (with_reducible refine finish_touches ?_ rfl)
    | (with_reducible refine placeBytes_touches ?_ rfl)
    | (with_reducible refine readSegment_touches ?_ rfl)
    | (fail_if_no_progress (with_reducible refine touches_mk ?_ rfl rfl))
    | split)

theorem sendNextTwin_touches (h : Touches M s0 s) (w : Mask.le Mask.sendTwin M = true) : Touches M s0 (sendNextTwin
    s) := by
  refine h.trans (Touches.mono ?_ w)
  have h0 := Touches.refl Mask.sendTwin s
  clear h w
  unfold sendNextTwin
  repeat' (first
    | with_reducible assumption
    | (with_reducible refine inject_touches ?_ rfl)
    | (fail_if_no_progress (with_reducible refine touches_mk ?_ rfl rfl))
    | split)

theorem sendCopy_touches {o : CopyReq} (h : Touches M s0 s) (w : Mask.le Mask.injectOn M = true) :
    Touches M s0 (sendCopy s o) := by
  refine h.trans (Touches.mono ?_ w)
  have h0 := Touches.refl Mask.injectOn s
  clear h w
  unfold sendCopy
  repeat' (first
    | with_reducible assumption
    | (with_reducible refine inject_touches ?_ rfl))

theorem poisonRange_touches {addr n : ℕ} (h : Touches M s0 s) (w : Mask.le { stk := true } M = true) :
    Touches M s0 (poisonRange s addr n) := by
  refine h.trans (Touches.mono ?_ w)
  have h0 := Touches.refl { stk := true } s
  clear h w
  unfold poisonRange
  repeat' (first
    | with_reducible assumption
    | (((try lift_lets); intro x); (have _ := fun a => x a; dsimp only [x]; clear x))
    | (with_reducible refine markSet_touches ?_ rfl)
    | (with_reducible refine touches_foldl ?_ (fun _ _ _ => ?_))
    | split)

theorem applyHeld_touches (h : Touches M s0 s) (w : Mask.le Mask.landMirror M = true) : Touches M s0 (applyHeld s)
    := by
  refine h.trans (Touches.mono ?_ w)
  have h0 := Touches.refl Mask.landMirror s
  clear h w
  unfold applyHeld
  repeat' (first
    | with_reducible assumption
    | (with_reducible refine landMirror_touches ?_ rfl)
    | (with_reducible refine touches_foldl ?_ (fun _ _ _ => ?_))
    | (fail_if_no_progress (with_reducible refine touches_mk ?_ rfl rfl))
    | (split <;> (try (rename_i e1; have e2 := congrArg Prod.fst e1; have e3 := congrArg Prod.snd e1; dsimp only at e2 e3; (try subst e2); (try subst e3)))))

theorem endCopy_touches {o : CopyReq} (h : Touches M s0 s) (w : Mask.le Mask.landMirror M = true) :
    Touches M s0 (endCopy s o) := by
  refine h.trans (Touches.mono ?_ w)
  have h0 := Touches.refl Mask.landMirror s
  clear h w
  unfold endCopy
  repeat' (first
    | with_reducible assumption
    | (((try lift_lets); intro x); (refine (fun (hx : Touches Mask.landMirror s x) => ?_) ?_ <;> [clear_value x; (unfold x; clear x)]))
    | (with_reducible refine applyHeld_touches ?_ rfl)
    | (fail_if_no_progress (with_reducible refine touches_mk ?_ rfl rfl)))

/-- What `landCopy` may change. -/
abbrev Mask.landCopy : Mask :=
  { parts := true, flows := true, ports := true, fab := true, coh := true, stk := true, near := true, fl :=
    true, di := true, eth := true, sec := true, twn := true, svc := true, out := true, dram := true, nearMem :=
    true }

theorem landCopy_touches {o : CopyReq} {k : Packet} (h : Touches M s0 s) (w : Mask.le Mask.landCopy M = true) :
    Touches M s0 (landCopy s o k).1 := by
  refine h.trans (Touches.mono ?_ w)
  have h0 := Touches.refl Mask.landCopy s
  clear h w
  unfold landCopy
  repeat' (first
    | with_reducible assumption
    | ((try lift_lets); intro x; first
        | (refine (fun (hx : Touches Mask.landCopy s x.1) => ?_) ?_ <;> [clear_value x; (unfold x; clear x)])
        | clear_value x)
    | (with_reducible refine endCopy_touches ?_ rfl)
    | (with_reducible refine placeBytes_touches ?_ rfl)
    | (with_reducible refine poisonRange_touches ?_ rfl)
    | (with_reducible refine sendCopy_touches ?_ rfl)
    | (with_reducible refine versionSet_touches ?_ rfl)
    | split)

theorem tickTwin_touches {high : Bool} (h : Touches M s0 s) (w : Mask.le Mask.finish M = true) :
    Touches M s0 (tickTwin s high) := by
  refine h.trans (Touches.mono ?_ w)
  have h0 := Touches.refl Mask.finish s
  clear h w
  unfold tickTwin
  repeat' (first
    | with_reducible assumption
    | (((try lift_lets); intro x); (refine (fun (hx : Touches Mask.finish s x) => ?_) ?_ <;> [clear_value x; (unfold x; clear x)]))
    | (with_reducible refine resetAllHeld_touches ?_ rfl)
    | (with_reducible refine stopCopy_touches ?_ rfl)
    | with_reducible apply touches_ite
    | (fail_if_no_progress (with_reducible refine touches_mk ?_ rfl rfl)))

end Sys2Proof.Machine
end

