-- ==== Sys2Proof/Laws/TouchesResets.lean ====
section
/-! SUPPORT. What the operations of Machine/Resets.lean may change. -/

namespace Sys2Proof.Machine

variable {M : Mask} {s0 s t : State}

theorem addFence_touches {host : Bool} {req : ℕ} (h : Touches M s0 s) (w : Mask.le { twn := true } M = true) :
    Touches M s0 (addFence s host req) := by
  refine h.trans (Touches.mono ?_ w)
  have h0 := Touches.refl { twn := true } s
  clear h w
  unfold addFence
  repeat' (first
    | with_reducible assumption
    | with_reducible apply touches_ite
    | (fail_if_no_progress (with_reducible refine touches_mk ?_ rfl rfl))
    | split)

theorem clearFence_touches {host : Bool} {req : ℕ} (h : Touches M s0 s) (w : Mask.le { twn := true } M = true) :
    Touches M s0 (clearFence s host req) :=
  h.trans (Touches.mono ⟨rfl, id⟩ w)

theorem evictFenced_touches {p j : ℕ} (h : Touches M s0 s) (w : Mask.le Mask.serveRead M = true) :
    Touches M s0 (evictFenced s p j) := by
  refine h.trans (Touches.mono ?_ w)
  have h0 := Touches.refl Mask.serveRead s
  clear h w
  unfold evictFenced
  repeat' (first
    | with_reducible assumption
    | (with_reducible refine serveEvict_touches ?_ rfl)
    | (with_reducible refine touches_foldl ?_ (fun _ _ _ => ?_))
    | split)

theorem fenceAgent_touches {p j : ℕ} (h : Touches M s0 s) (w : Mask.le Mask.serveRead M = true) :
    Touches M s0 (fenceAgent s p j) := by
  refine h.trans (Touches.mono ?_ w)
  have h0 := Touches.refl Mask.serveRead s
  clear h w
  unfold fenceAgent
  repeat' (first
    | with_reducible assumption
    | (((try lift_lets); intro x); (refine (fun (hx : Touches Mask.serveRead s x) => ?_) ?_ <;> [clear_value x; (unfold x; clear x)]))
    | (with_reducible refine evictFenced_touches ?_ rfl)
    | (with_reducible refine partMod_touches ?_ rfl)
    | (fail_if_no_progress (with_reducible refine touches_mk ?_ rfl rfl))
    | split)

/-- What `endFenced` may change. -/
abbrev Mask.endFenced : Mask :=
  { parts := true, flows := true, td := true, ports := true, fab := true, coh := true, stk := true, di := true,
    eth := true, sec := true, twn := true, svc := true, out := true, free := true, dram := true }

theorem endFenced_touches {x : Bool × ℕ} (h : Touches M s0 s) (w : Mask.le Mask.endFenced M = true) :
    Touches M s0 (endFenced s x) := by
  refine h.trans (Touches.mono ?_ w)
  have h0 := Touches.refl Mask.endFenced s
  clear h w
  unfold endFenced
  repeat' (first
    | with_reducible assumption
    | ((try lift_lets); intro x; first
        | (refine (fun (hx : Touches Mask.endFenced s x) => ?_) ?_ <;> [clear_value x; (unfold x; clear x)])
        | (have _ := fun a => x a; dsimp only [x]; clear x)
        | clear_value x)
    | (with_reducible refine dropWait_touches ?_ rfl)
    | (with_reducible refine emptyFlow_touches ?_ rfl)
    | (with_reducible refine finish_touches ?_ rfl)
    | with_reducible apply touches_ite
    | (with_reducible refine touches_foldl ?_ (fun _ _ _ => ?_))
    | (with_reducible refine touches_foldl_fst ?_ (fun _ _ _ => ?_))
    | (with_reducible refine touches_foldl_snd ?_ (fun _ _ _ => ?_))
    | (fail_if_no_progress (with_reducible refine touches_mk ?_ rfl rfl)))

theorem applyFence_touches {x : Bool × ℕ} (h : Touches M s0 s) (w : Mask.le Mask.startWrites M = true) :
    Touches M s0 (applyFence s x) := by
  refine h.trans (Touches.mono ?_ w)
  have h0 := Touches.refl Mask.startWrites s
  clear h w
  unfold applyFence
  repeat' (first
    | with_reducible assumption
    | (((try lift_lets); intro x); (refine (fun (hx : Touches Mask.startWrites s x) => ?_) ?_ <;> [clear_value x; (unfold x; clear x)]))
    | (with_reducible refine endFenced_touches ?_ rfl)
    | (with_reducible refine fenceAgent_touches ?_ rfl)
    | (with_reducible refine touches_foldl ?_ (fun _ _ _ => ?_))
    | (fail_if_no_progress (with_reducible refine touches_mk ?_ rfl rfl))
    | split)

theorem tickFences_touches (h : Touches M s0 s) (w : Mask.le Mask.startWrites M = true) : Touches M s0 (tickFences
    s) := by
  refine h.trans (Touches.mono ?_ w)
  have h0 := Touches.refl Mask.startWrites s
  clear h w
  unfold tickFences
  repeat' (first
    | with_reducible assumption
    | (with_reducible refine applyFence_touches ?_ rfl)
    | (with_reducible refine touches_foldl ?_ (fun _ _ _ => ?_))
    | (fail_if_no_progress (with_reducible refine touches_mk ?_ rfl rfl)))

theorem startReset_touches {kind part : ℕ} (h : Touches M s0 s) (w : Mask.le { twn := true } M = true) :
    Touches M s0 (startReset s kind part) := by
  refine h.trans (Touches.mono ?_ w)
  have h0 := Touches.refl { twn := true } s
  clear h w
  unfold startReset
  repeat' (first
    | with_reducible assumption
    | with_reducible apply touches_ite
    | (fail_if_no_progress (with_reducible refine touches_mk ?_ rfl rfl)))

/-- What `beginReset385` may change. -/
abbrev Mask.beginReset385 : Mask :=
  { parts := true, flows := true, td := true, ports := true, fab := true, stk := true, di := true, eth := true,
    sec := true, twn := true, svc := true, out := true }

theorem beginReset385_touches (h : Touches M s0 s) (w : Mask.le Mask.beginReset385 M = true) :
    Touches M s0 (beginReset385 s) := by
  refine h.trans (Touches.mono ?_ w)
  have h0 := Touches.refl Mask.beginReset385 s
  clear h w
  unfold beginReset385
  repeat' (first
    | with_reducible assumption
    | (((try lift_lets); intro x); (refine (fun (hx : Touches Mask.beginReset385 s x) => ?_) ?_ <;> [clear_value x; (unfold x; clear x)]))
    | (with_reducible refine advanceEpoch_touches ?_ rfl)
    | (with_reducible refine endQueued_touches ?_ rfl)
    | (with_reducible refine lgReset_touches ?_ rfl)
    | (with_reducible refine loseLead_touches ?_ rfl)
    | (with_reducible refine partMod_touches ?_ rfl)
    | with_reducible apply touches_ite
    | (with_reducible refine touches_foldl ?_ (fun _ _ _ => ?_)))

theorem blurWrite_touches {v : Service} (h : Touches M s0 s) (w : Mask.le Mask.blurRange M = true) :
    Touches M s0 (blurWrite s v) := by
  refine h.trans (Touches.mono ?_ w)
  have h0 := Touches.refl Mask.blurRange s
  clear h w
  unfold blurWrite
  repeat' (first
    | with_reducible assumption
    | (with_reducible refine blurRange_touches ?_ rfl)
    | with_reducible apply touches_ite)

/-- What `cancelAnswer` may change. -/
abbrev Mask.cancelAnswer : Mask :=
  { parts := true, flows := true, ports := true, fab := true, stk := true, near := true, fl := true, di := true,
    eth := true, sec := true, twn := true, svc := true, out := true, free := true, dram := true, nearMem := true
    }

theorem cancelAnswer_touches {v : Service} (h : Touches M s0 s) (w : Mask.le Mask.cancelAnswer M = true) :
    Touches M s0 (cancelAnswer s v) := by
  refine h.trans (Touches.mono ?_ w)
  have h0 := Touches.refl Mask.cancelAnswer s
  clear h w
  unfold cancelAnswer
  repeat' (first
    | with_reducible assumption
    | (((try lift_lets); intro x); (refine (fun (hx : Touches Mask.cancelAnswer s x) => ?_) ?_ <;> [clear_value x; (unfold x; clear x)]))
    | (with_reducible refine blurWrite_touches ?_ rfl)
    | (with_reducible refine dropSvc_touches ?_ rfl)
    | (with_reducible refine finish_touches ?_ rfl)
    | (with_reducible refine injectOn_touches ?_ rfl)
    | (fail_if_no_progress (with_reducible refine touches_mk ?_ rfl rfl))
    | split)

/-- What `resetHalf` may change. -/
abbrev Mask.resetHalf : Mask :=
  { coh := true, stk := true, eng := true }

theorem resetHalf_touches {y_1 : ℕ} (h : Touches M s0 s) (w : Mask.le Mask.resetHalf M = true) :
    Touches M s0 (resetHalf s y_1) := by
  refine h.trans (Touches.mono ?_ w)
  have h0 := Touches.refl Mask.resetHalf s
  clear h w
  unfold resetHalf
  repeat' (first
    | with_reducible assumption
    | (with_reducible refine chanMod_touches ?_ rfl)
    | (with_reducible refine engMod_touches ?_ rfl)
    | (with_reducible refine touches_foldl ?_ (fun _ _ _ => ?_))
    | (fail_if_no_progress (with_reducible refine touches_mk ?_ rfl rfl)))

theorem resetPart_touches {p : ℕ} (h : Touches M s0 s) (w : Mask.le { coh := true, eng := true } M = true) :
    Touches M s0 (resetPart s p) := by
  refine h.trans (Touches.mono ?_ w)
  have h0 := Touches.refl { coh := true, eng := true } s
  clear h w
  unfold resetPart
  repeat' (first
    | with_reducible assumption
    | ((try lift_lets); intro x; first
        | (have _ := fun a => x a; dsimp only [x]; clear x)
        | clear_value x)
    | (with_reducible refine engMod_touches ?_ rfl)
    | with_reducible apply touches_ite
    | (with_reducible refine touches_foldl ?_ (fun _ _ _ => ?_))
    | (with_reducible refine touches_foldl_fst ?_ (fun _ _ _ => ?_))
    | (with_reducible refine touches_foldl_snd ?_ (fun _ _ _ => ?_))
    | (fail_if_no_progress (with_reducible refine touches_mk ?_ rfl rfl)))

theorem cancelAll_touches (h : Touches M s0 s) (w : Mask.le Mask.serveRead M = true) : Touches M s0 (cancelAll s) :=
    by
  refine h.trans (Touches.mono ?_ w)
  have h0 := Touches.refl Mask.serveRead s
  clear h w
  unfold cancelAll
  repeat' (first
    | with_reducible assumption
    | (((try lift_lets); intro x); (refine (fun (hx : Touches Mask.serveRead s x) => ?_) ?_ <;> [clear_value x; (unfold x; clear x)]))
    | (with_reducible refine cancelAnswer_touches ?_ rfl)
    | (with_reducible refine dropBuffers_touches ?_ rfl)
    | (with_reducible refine endPairs_touches ?_ rfl)
    | (with_reducible refine endServiceBy_touches ?_ rfl (fun _ _ _ => ?_))
    | (with_reducible refine resetHalf_touches ?_ rfl)
    | (with_reducible refine resetPart_touches ?_ rfl)
    | (with_reducible refine touches_foldl ?_ (fun _ _ _ => ?_))
    | (fail_if_no_progress (with_reducible refine touches_mk ?_ rfl rfl))
    | split)

theorem tickReset_touches (h : Touches M s0 s) (w : Mask.le Mask.beginReset385 M = true) : Touches M s0 (tickReset
    s) := by
  refine h.trans (Touches.mono ?_ w)
  have h0 := Touches.refl Mask.beginReset385 s
  clear h w
  unfold tickReset
  repeat' (first
    | with_reducible assumption
    | (with_reducible refine beginReset385_touches ?_ rfl)
    | with_reducible apply touches_ite
    | (fail_if_no_progress (with_reducible refine touches_mk ?_ rfl rfl)))

/-- What `graftClass` may change. -/
abbrev Mask.graftClass : Mask :=
  { parts := true, ports := true, fab := true, coh := true, stk := true, near := true, fl := true, eng := true,
    di := true, nearMem := true }

theorem graftClass_touches {c : SpareClass} (h : Touches M s0 s) (w : Mask.le Mask.graftClass M = true) :
    Touches M s0 (graftClass s c) := by
  refine h.trans (Touches.mono ?_ w)
  have h0 := Touches.refl Mask.graftClass s
  clear h w
  unfold graftClass
  repeat' (first
    | with_reducible assumption
    | (with_reducible refine graftFlash_touches ?_ rfl)
    | (with_reducible refine tickGraftEngines_touches ?_ rfl)
    | (with_reducible refine tickGraftLane_touches ?_ rfl)
    | (with_reducible refine tickGraftRows_touches ?_ rfl)
    | (with_reducible refine tickGraftSpare_touches ?_ rfl)
    | (with_reducible refine tickGraftWays_touches ?_ rfl)
    | (with_reducible refine touches_foldl ?_ (fun _ _ _ => ?_))
    | split)

theorem tickGrafts_touches (h : Touches M s0 s) (w : Mask.le Mask.graftClass M = true) : Touches M s0 (tickGrafts s)
    := by
  refine h.trans (Touches.mono ?_ w)
  have h0 := Touches.refl Mask.graftClass s
  clear h w
  unfold tickGrafts
  repeat' (first
    | with_reducible assumption
    | (with_reducible refine graftClass_touches ?_ rfl)
    | (with_reducible refine touches_foldl ?_ (fun _ _ _ => ?_)))

theorem kickWatchdog_touches {key : ℕ} (h : Touches M s0 s) (w : Mask.le { twn := true } M = true) :
    Touches M s0 (kickWatchdog s key) := by
  refine h.trans (Touches.mono ?_ w)
  have h0 := Touches.refl { twn := true } s
  clear h w
  unfold kickWatchdog
  repeat' (first
    | with_reducible assumption
    | (fail_if_no_progress (with_reducible refine touches_mk ?_ rfl rfl))
    | split)

theorem logMgmt_touches (h : Touches M s0 s) (w : Mask.le { di := true, free := true } M = true) :
    Touches M s0 (logMgmt s) :=
  h.trans (Touches.mono ⟨rfl, id⟩ w)

theorem restartCommitted_touches (h : Touches M s0 s) (w : Mask.le { mgmt := true, sec := true } M = true) :
    Touches M s0 (restartCommitted s) :=
  h.trans (Touches.mono ⟨rfl, id⟩ w)

theorem tickWatchdog_touches (h : Touches M s0 s) (w : Mask.le { twn := true } M = true) :
    Touches M s0 (tickWatchdog s) :=
  h.trans (Touches.mono ⟨rfl, id⟩ w)

end Sys2Proof.Machine
end

