-- ==== Sys2Proof/Laws/TouchesPower.lean ====
section
/-! SUPPORT. What the operations of Machine/Power.lean may change. -/

namespace Sys2Proof.Machine

variable {M : Mask} {s0 s t : State}

/-- What `losePower` may change. -/
abbrev Mask.losePower : Mask :=
  { mgmt := true, img := true, parts := true, flows := true, td := true, ports := true, fab := true, coh :=
    true, stk := true, near := true, fl := true, eng := true, di := true, eth := true, sec := true, twn := true,
    pwr := true, staging := true, mailbox := true, svc := true, nextTicket := true, layout := true, dram :=
    true, nearMem := true }

theorem losePower_touches {stage : Stage} (h : Touches M s0 s) (w : Mask.le Mask.losePower M = true) :
    Touches M s0 (losePower s stage) :=
  h.trans (Touches.mono (touches_emptied (m := Mask.losePower) (Touches.refl _ s) rfl (.inr rfl) (.inr rfl) (.inr rfl) (.inr rfl) (.inr rfl)) w)

theorem trip_touches (h : Touches M s0 s) (w : Mask.le Mask.losePower M = true) : Touches M s0 (trip s) := by
  refine h.trans (Touches.mono ?_ w)
  have h0 := Touches.refl Mask.losePower s
  clear h w
  unfold trip
  repeat' (first
    | with_reducible assumption
    | ((try lift_lets); intro x; first
        | (refine (fun (hx : Touches Mask.losePower s x) => ?_) ?_ <;> [clear_value x; (unfold x; clear x)])
        | clear_value x)
    | (with_reducible refine losePower_touches ?_ rfl)
    | with_reducible apply touches_ite
    | (with_reducible refine touches_foldl ?_ (fun _ _ _ => ?_))
    | (with_reducible refine touches_foldl_fst ?_ (fun _ _ _ => ?_))
    | (with_reducible refine touches_foldl_snd ?_ (fun _ _ _ => ?_))
    | (fail_if_no_progress (with_reducible refine touches_mk ?_ rfl rfl)))

theorem tryStart_touches (h : Touches M s0 s) (w : Mask.le Mask.restart M = true) : Touches M s0 (tryStart s) := by
  refine h.trans (Touches.mono ?_ w)
  have h0 := Touches.refl Mask.restart s
  clear h w
  unfold tryStart
  repeat' (first
    | with_reducible assumption
    | ((try lift_lets); intro x; first
        | (refine (fun (hx : Touches Mask.restart s x) => ?_) ?_ <;> [clear_value x; (unfold x; clear x)])
        | clear_value x)
    | (with_reducible refine chanMod_touches ?_ rfl)
    | (with_reducible refine restart_touches ?_ rfl)
    | with_reducible apply touches_ite
    | (with_reducible refine touches_foldl ?_ (fun _ _ _ => ?_))
    | (with_reducible refine touches_foldl_fst ?_ (fun _ _ _ => ?_))
    | (with_reducible refine touches_foldl_snd ?_ (fun _ _ _ => ?_))
    | (fail_if_no_progress (with_reducible refine touches_mk ?_ rfl rfl)))

theorem resetPin_touches (h : Touches M s0 s) (w : Mask.le Mask.restartUnits M = true) : Touches M s0 (resetPin s)
    := by
  refine h.trans (Touches.mono ?_ w)
  have h0 := Touches.refl Mask.restartUnits s
  clear h w
  unfold resetPin
  repeat' (first
    | with_reducible assumption
    | ((try lift_lets); intro x; first
        | (refine (fun (hx : Touches Mask.restartUnits s x) => ?_) ?_ <;> [clear_value x; (unfold x; clear x)])
        | clear_value x)
    | (with_reducible refine restartUnits_touches ?_ rfl)
    | with_reducible apply touches_ite
    | (with_reducible refine touches_foldl ?_ (fun _ _ _ => ?_))
    | (with_reducible refine touches_foldl_fst ?_ (fun _ _ _ => ?_))
    | (with_reducible refine touches_foldl_snd ?_ (fun _ _ _ => ?_))
    | (fail_if_no_progress (with_reducible refine touches_mk ?_ rfl rfl)))

theorem setPwrFault_touches {bits : ℕ} (h : Touches M s0 s) (w : Mask.le { pwr := true } M = true) :
    Touches M s0 (setPwrFault s bits) :=
  h.trans (Touches.mono ⟨rfl, id⟩ w)

theorem channelsServe_touches (h : Touches M s0 s) (w : Mask.le { stk := true } M = true) :
    Touches M s0 (channelsServe s) := by
  refine h.trans (Touches.mono ?_ w)
  have h0 := Touches.refl { stk := true } s
  clear h w
  unfold channelsServe
  repeat' (first
    | with_reducible assumption
    | (with_reducible refine chanMod_touches ?_ rfl)
    | with_reducible apply touches_ite
    | (with_reducible refine touches_foldl ?_ (fun _ _ _ => ?_)))

theorem writeTarget_touches {y_1 : ℕ} (h : Touches M s0 s) (w : Mask.le { pwr := true } M = true) :
    Touches M s0 (writeTarget s y_1) := by
  refine h.trans (Touches.mono ?_ w)
  have h0 := Touches.refl { pwr := true } s
  clear h w
  unfold writeTarget
  repeat' (first
    | with_reducible assumption
    | ((try lift_lets); intro x; first
        | clear_value x)
    | with_reducible apply touches_ite
    | (with_reducible refine touches_foldl ?_ (fun _ _ _ => ?_))
    | (with_reducible refine touches_foldl_fst ?_ (fun _ _ _ => ?_))
    | (with_reducible refine touches_foldl_snd ?_ (fun _ _ _ => ?_))
    | (fail_if_no_progress (with_reducible refine touches_mk ?_ rfl rfl)))

theorem beginMove_touches {y_1 : ℕ} (h : Touches M s0 s) (w : Mask.le { pwr := true } M = true) :
    Touches M s0 (beginMove s y_1) :=
  h.trans (Touches.mono ⟨rfl, id⟩ w)

theorem beginSleep_touches (h : Touches M s0 s) (w : Mask.le Mask.endWaiting M = true) : Touches M s0 (beginSleep s)
    := by
  refine h.trans (Touches.mono ?_ w)
  have h0 := Touches.refl Mask.endWaiting s
  clear h w
  unfold beginSleep
  repeat' (first
    | with_reducible assumption
    | ((try lift_lets); intro x; first
        | (refine (fun (hx : Touches Mask.endWaiting s x) => ?_) ?_ <;> [clear_value x; (unfold x; clear x)])
        | clear_value x)
    | (with_reducible refine quiesce_touches ?_ rfl)
    | with_reducible apply touches_ite
    | (with_reducible refine touches_foldl ?_ (fun _ _ _ => ?_))
    | (with_reducible refine touches_foldl_fst ?_ (fun _ _ _ => ?_))
    | (with_reducible refine touches_foldl_snd ?_ (fun _ _ _ => ?_))
    | (fail_if_no_progress (with_reducible refine touches_mk ?_ rfl rfl)))

/-- What `tickPower` may change. -/
abbrev Mask.tickPower : Mask :=
  { parts := true, flows := true, td := true, ports := true, fab := true, stk := true, eth := true, sec := true,
    twn := true, pwr := true, out := true }

theorem tickPower_touches (h : Touches M s0 s) (w : Mask.le Mask.tickPower M = true) : Touches M s0 (tickPower s) :=
    by
  refine h.trans (Touches.mono ?_ w)
  have h0 := Touches.refl Mask.tickPower s
  clear h w
  unfold tickPower
  repeat' (first
    | with_reducible assumption
    | ((try lift_lets); intro x; first
        | (refine (fun (hx : Touches Mask.tickPower s x) => ?_) ?_ <;> [clear_value x; (unfold x; clear x)])
        | clear_value x)
    | (with_reducible refine beginMove_touches ?_ rfl)
    | (with_reducible refine beginSleep_touches ?_ rfl)
    | (with_reducible refine chanMod_touches ?_ rfl)
    | with_reducible apply touches_ite
    | (with_reducible refine touches_foldl ?_ (fun _ _ _ => ?_))
    | (with_reducible refine touches_foldl_fst ?_ (fun _ _ _ => ?_))
    | (with_reducible refine touches_foldl_snd ?_ (fun _ _ _ => ?_))
    | (fail_if_no_progress (with_reducible refine touches_mk ?_ rfl rfl)))

/-- What `enterSleep` may change. -/
abbrev Mask.enterSleep : Mask :=
  { parts := true, flows := true, ports := true, fab := true, coh := true, stk := true, eng := true, eth :=
    true, sec := true, twn := true, svc := true, out := true }

theorem enterSleep_touches (h : Touches M s0 s) (w : Mask.le Mask.enterSleep M = true) : Touches M s0 (enterSleep s)
    := by
  refine h.trans (Touches.mono ?_ w)
  have h0 := Touches.refl Mask.enterSleep s
  clear h w
  unfold enterSleep
  repeat' (first
    | with_reducible assumption
    | ((try lift_lets); intro x; first
        | (refine (fun (hx : Touches Mask.enterSleep s x) => ?_) ?_ <;> [clear_value x; (unfold x; clear x)])
        | clear_value x)
    | (with_reducible refine chanMod_touches ?_ rfl)
    | (with_reducible refine loseLead_touches ?_ rfl)
    | (with_reducible refine portOut_touches ?_ rfl)
    | with_reducible apply touches_ite
    | (with_reducible refine touches_foldl ?_ (fun _ _ _ => ?_))
    | (with_reducible refine touches_foldl_fst ?_ (fun _ _ _ => ?_))
    | (with_reducible refine touches_foldl_snd ?_ (fun _ _ _ => ?_))
    | (fail_if_no_progress (with_reducible refine touches_mk ?_ rfl rfl)))

/-- What `leaveSleep` may change. -/
abbrev Mask.leaveSleep : Mask :=
  { parts := true, td := true, ports := true, stk := true, eth := true, pwr := true }

theorem leaveSleep_touches (h : Touches M s0 s) (w : Mask.le Mask.leaveSleep M = true) : Touches M s0 (leaveSleep s)
    := by
  refine h.trans (Touches.mono ?_ w)
  have h0 := Touches.refl Mask.leaveSleep s
  clear h w
  unfold leaveSleep
  repeat' (first
    | with_reducible assumption
    | ((try lift_lets); intro x; first
        | (refine (fun (hx : Touches Mask.leaveSleep s x) => ?_) ?_ <;> [clear_value x; (unfold x; clear x)])
        | clear_value x)
    | (with_reducible refine endSelfRefresh_touches ?_ rfl)
    | (with_reducible refine partMod_touches ?_ rfl)
    | (with_reducible refine portMod_touches ?_ rfl)
    | (with_reducible refine setPwrFault_touches ?_ rfl)
    | (with_reducible refine unlockSync_touches ?_ rfl)
    | with_reducible apply touches_ite
    | (with_reducible refine touches_foldl ?_ (fun _ _ _ => ?_))
    | (with_reducible refine touches_foldl_fst ?_ (fun _ _ _ => ?_))
    | (with_reducible refine touches_foldl_snd ?_ (fun _ _ _ => ?_))
    | (fail_if_no_progress (with_reducible refine touches_mk ?_ rfl rfl)))

theorem reachState_touches (h : Touches M s0 s) (w : Mask.le { pwr := true } M = true) : Touches M s0 (reachState s)
    := by
  refine h.trans (Touches.mono ?_ w)
  have h0 := Touches.refl { pwr := true } s
  clear h w
  unfold reachState
  repeat' (first
    | with_reducible assumption
    | ((try lift_lets); intro x; first
        | clear_value x)
    | with_reducible apply touches_ite
    | (with_reducible refine touches_foldl ?_ (fun _ _ _ => ?_))
    | (with_reducible refine touches_foldl_fst ?_ (fun _ _ _ => ?_))
    | (with_reducible refine touches_foldl_snd ?_ (fun _ _ _ => ?_))
    | (fail_if_no_progress (with_reducible refine touches_mk ?_ rfl rfl)))

theorem wake_touches (h : Touches M s0 s) (w : Mask.le { pwr := true, out := true } M = true) : Touches M s0 (wake
    s) := by
  refine h.trans (Touches.mono ?_ w)
  have h0 := Touches.refl { pwr := true, out := true } s
  clear h w
  unfold wake
  repeat' (first
    | with_reducible assumption
    | ((try lift_lets); intro x; first
        | clear_value x)
    | (with_reducible refine emit_touches ?_ rfl)
    | with_reducible apply touches_ite
    | (with_reducible refine touches_foldl ?_ (fun _ _ _ => ?_))
    | (with_reducible refine touches_foldl_fst ?_ (fun _ _ _ => ?_))
    | (with_reducible refine touches_foldl_snd ?_ (fun _ _ _ => ?_))
    | (fail_if_no_progress (with_reducible refine touches_mk ?_ rfl rfl)))

theorem tickReadings_touches {i : TickInputs} (h : Touches M s0 s) (w : Mask.le { pwr := true } M = true) :
    Touches M s0 (tickReadings s i) := by
  refine h.trans (Touches.mono ?_ w)
  have h0 := Touches.refl { pwr := true } s
  clear h w
  unfold tickReadings
  repeat' (first
    | with_reducible assumption
    | ((try lift_lets); intro x; first
        | (have _ := fun a => x a; dsimp only [x]; clear x)
        | clear_value x)
    | (with_reducible refine setPwrFault_touches ?_ rfl)
    | with_reducible apply touches_ite
    | (with_reducible refine touches_foldl ?_ (fun _ _ _ => ?_))
    | (with_reducible refine touches_foldl_fst ?_ (fun _ _ _ => ?_))
    | (with_reducible refine touches_foldl_snd ?_ (fun _ _ _ => ?_))
    | (fail_if_no_progress (with_reducible refine touches_mk ?_ rfl rfl)))

end Sys2Proof.Machine
end

