-- ==== Sys2Proof/Laws/TouchesTick.lean ====
section
/-! SUPPORT. What the operations of Machine/Tick.lean may change. -/

namespace Sys2Proof.Machine

variable {M : Mask} {s0 s t : State}

theorem tickClock_touches {clk : ℕ} (h : Touches M s0 s) (w : Mask.le { td := true, boot := true } M = true) :
    Touches M s0 (tickClock s clk) := by
  refine h.trans (Touches.mono ?_ w)
  have h0 := Touches.refl { td := true, boot := true } s
  clear h w
  unfold tickClock
  repeat' (first
    | with_reducible assumption
    | ((try lift_lets); intro x; first
        | (refine (fun (hx : Touches { td := true, boot := true } s x) => ?_) ?_ <;> [clear_value x; (unfold x; clear x)])
        | (have _ : Traffic := x; dsimp only [x]; clear x)
        | clear_value x)
    | (with_reducible refine noteFlags_touches ?_ rfl)
    | (with_reducible refine seenClk_touches ?_ rfl)
    | with_reducible apply touches_ite
    | (with_reducible refine touches_foldl ?_ (fun _ _ _ => ?_))
    | (with_reducible refine touches_foldl_fst ?_ (fun _ _ _ => ?_))
    | (with_reducible refine touches_foldl_snd ?_ (fun _ _ _ => ?_))
    | (fail_if_no_progress (with_reducible refine touches_mk ?_ rfl rfl)))

theorem samplePort_touches {port k clk : ℕ} (h : Touches M s0 s) (w : Mask.le { ports := true } M = true) :
    Touches M s0 (samplePort s port k clk) :=
  h.trans (Touches.mono ⟨rfl, id⟩ w)

theorem sampleChan_touches {ch k clk : ℕ} (h : Touches M s0 s) (w : Mask.le { stk := true } M = true) :
    Touches M s0 (sampleChan s ch k clk) :=
  h.trans (Touches.mono ⟨rfl, id⟩ w)

theorem sampleQueues_touches {k clk : ℕ} (h : Touches M s0 s) (w : Mask.le { td := true } M = true) :
    Touches M s0 (sampleQueues s k clk) :=
  h.trans (Touches.mono ⟨rfl, id⟩ w)

/-- What `tickHistories` may change. -/
abbrev Mask.tickHistories : Mask :=
  { td := true, ports := true, stk := true }

theorem tickHistories_touches {clk : ℕ} (h : Touches M s0 s) (w : Mask.le Mask.tickHistories M = true) :
    Touches M s0 (tickHistories s clk) := by
  refine h.trans (Touches.mono ?_ w)
  have h0 := Touches.refl Mask.tickHistories s
  clear h w
  unfold tickHistories
  repeat' (first
    | with_reducible assumption
    | ((try lift_lets); intro x; first
        | (refine (fun (hx : Touches Mask.tickHistories s x) => ?_) ?_ <;> [clear_value x; (unfold x; clear x)])
        | clear_value x)
    | (with_reducible refine sampleChan_touches ?_ rfl)
    | (with_reducible refine samplePort_touches ?_ rfl)
    | (with_reducible refine sampleQueues_touches ?_ rfl)
    | with_reducible apply touches_ite
    | (with_reducible refine touches_foldl ?_ (fun _ _ _ => ?_)))

theorem tickFlow_touches {k : ℕ} (h : Touches M s0 s) (w : Mask.le { flows := true } M = true) :
    Touches M s0 (tickFlow s k) := by
  refine h.trans (Touches.mono ?_ w)
  have h0 := Touches.refl { flows := true } s
  clear h w
  unfold tickFlow
  repeat' (first
    | with_reducible assumption
    | ((try lift_lets); intro x; first
        | clear_value x)
    | (with_reducible refine flowMod_touches ?_ rfl)
    | with_reducible apply touches_ite
    | (with_reducible refine touches_foldl ?_ (fun _ _ _ => ?_))
    | (with_reducible refine touches_foldl_fst ?_ (fun _ _ _ => ?_))
    | (with_reducible refine touches_foldl_snd ?_ (fun _ _ _ => ?_))
    | (fail_if_no_progress (with_reducible refine touches_mk ?_ rfl rfl))
    | (split <;> (try (rename_i e1; have e2 := congrArg Prod.fst e1; have e3 := congrArg Prod.snd e1; dsimp only at e2 e3; (try subst e2); (try subst e3)))))

theorem newFlows_touches {p : ℕ} (h : Touches M s0 s) (w : Mask.le { parts := true, flows := true } M = true) :
    Touches M s0 (newFlows s p) := by
  refine h.trans (Touches.mono ?_ w)
  have h0 := Touches.refl { parts := true, flows := true } s
  clear h w
  unfold newFlows
  repeat' (first
    | with_reducible assumption
    | (((try lift_lets); intro x); (refine (fun (hx : Touches { parts := true, flows := true } s x) => ?_) ?_ <;> [clear_value x; (unfold x; clear x)]))
    | (with_reducible refine flowSet_touches ?_ rfl)
    | (with_reducible refine partCnt_touches ?_ rfl)
    | with_reducible apply touches_ite
    | (with_reducible refine touches_foldl ?_ (fun _ _ _ => ?_))
    | (with_reducible refine touches_foldl_fst ?_ (fun _ _ _ => ?_))
    | (with_reducible refine touches_foldl_snd ?_ (fun _ _ _ => ?_))
    | (fail_if_no_progress (with_reducible refine touches_mk ?_ rfl rfl)))

theorem tickPart_touches {p : ℕ} (h : Touches M s0 s) (w : Mask.le { parts := true, flows := true } M = true) :
    Touches M s0 (tickPart s p) := by
  refine h.trans (Touches.mono ?_ w)
  have h0 := Touches.refl { parts := true, flows := true } s
  clear h w
  unfold tickPart
  repeat' (first
    | with_reducible assumption
    | ((try lift_lets); intro x; first
        | (refine (fun (hx : Touches { parts := true, flows := true } s x) => ?_) ?_ <;> [clear_value x; (unfold x; clear x)])
        | clear_value x)
    | (with_reducible refine lgResize_touches ?_ rfl)
    | (with_reducible refine newFlows_touches ?_ rfl)
    | (with_reducible refine partSet_touches ?_ rfl)
    | with_reducible apply touches_ite
    | (with_reducible refine touches_foldl ?_ (fun _ _ _ => ?_))
    | (with_reducible refine touches_foldl_fst ?_ (fun _ _ _ => ?_))
    | (with_reducible refine touches_foldl_snd ?_ (fun _ _ _ => ?_))
    | (fail_if_no_progress (with_reducible refine touches_mk ?_ rfl rfl))
    | (split <;> (try (rename_i e1; have e2 := congrArg Prod.fst e1; have e3 := congrArg Prod.snd e1; dsimp only at e2 e3; (try subst e2); (try subst e3)))))

/-- What `tickParts` may change. -/
abbrev Mask.tickParts : Mask :=
  { img := true, parts := true, flows := true }

theorem tickParts_touches (h : Touches M s0 s) (w : Mask.le Mask.tickParts M = true) : Touches M s0 (tickParts s) :=
    by
  refine h.trans (Touches.mono ?_ w)
  have h0 := Touches.refl Mask.tickParts s
  clear h w
  unfold tickParts
  repeat' (first
    | with_reducible assumption
    | ((try lift_lets); intro x; first
        | (refine (fun (hx : Touches Mask.tickParts s x) => ?_) ?_ <;> [clear_value x; (unfold x; clear x)])
        | (have _ : ImgState := x; dsimp only [x]; clear x))
    | (with_reducible refine tickPart_touches ?_ rfl)
    | with_reducible apply touches_ite
    | (with_reducible refine touches_foldl ?_ (fun _ _ _ => ?_))
    | (with_reducible refine touches_foldl_fst ?_ (fun _ _ _ => ?_))
    | (with_reducible refine touches_foldl_snd ?_ (fun _ _ _ => ?_))
    | (fail_if_no_progress (with_reducible refine touches_mk ?_ rfl rfl)))

theorem tickLoad_touches {len : ℕ} (h : Touches M s0 s) (w : Mask.le { td := true } M = true) :
    Touches M s0 (tickLoad s len) :=
  h.trans (Touches.mono ⟨rfl, id⟩ w)

theorem tickTraining_touches (h : Touches M s0 s) (w : Mask.le { stk := true } M = true) :
    Touches M s0 (tickTraining s) := by
  refine h.trans (Touches.mono ?_ w)
  have h0 := Touches.refl { stk := true } s
  clear h w
  unfold tickTraining
  repeat' (first
    | with_reducible assumption
    | ((try lift_lets); intro x; first
        | clear_value x)
    | (with_reducible refine chanMod_touches ?_ rfl)
    | with_reducible apply touches_ite
    | (with_reducible refine touches_foldl ?_ (fun _ _ _ => ?_)))

theorem banksMod_touches {f : Bank → Bank} (h : Touches M s0 s) (w : Mask.le { stk := true } M = true) :
    Touches M s0 (banksMod s f) := by
  refine h.trans (Touches.mono ?_ w)
  have h0 := Touches.refl { stk := true } s
  clear h w
  unfold banksMod
  repeat' (first
    | with_reducible assumption
    | (with_reducible refine chanMod_touches ?_ rfl)
    | with_reducible apply touches_ite
    | (with_reducible refine touches_foldl ?_ (fun _ _ _ => ?_)))

theorem tickTrackers_touches (h : Touches M s0 s) (w : Mask.le { stk := true } M = true) :
    Touches M s0 (tickTrackers s) := by
  refine h.trans (Touches.mono ?_ w)
  have h0 := Touches.refl { stk := true } s
  clear h w
  unfold tickTrackers
  repeat' (first
    | with_reducible assumption
    | (with_reducible refine banksMod_touches ?_ rfl)
    | with_reducible apply touches_ite)

/-- What `tickWindows` may change. -/
abbrev Mask.tickWindows : Mask :=
  { coh := true, stk := true, eng := true, di := true }

theorem tickWindows_touches (h : Touches M s0 s) (w : Mask.le Mask.tickWindows M = true) : Touches M s0 (tickWindows
    s) := by
  refine h.trans (Touches.mono ?_ w)
  have h0 := Touches.refl Mask.tickWindows s
  clear h w
  unfold tickWindows
  repeat' (first
    | with_reducible assumption
    | ((try lift_lets); intro x; first
        | (refine (fun (hx : Touches Mask.tickWindows s x) => ?_) ?_ <;> [clear_value x; (unfold x; clear x)])
        | clear_value x)
    | (with_reducible refine banksMod_touches ?_ rfl)
    | (with_reducible refine chanMod_touches ?_ rfl)
    | (with_reducible refine engMod_touches ?_ rfl)
    | with_reducible apply touches_ite
    | (with_reducible refine touches_foldl ?_ (fun _ _ _ => ?_))
    | (with_reducible refine touches_foldl_fst ?_ (fun _ _ _ => ?_))
    | (with_reducible refine touches_foldl_snd ?_ (fun _ _ _ => ?_))
    | (fail_if_no_progress (with_reducible refine touches_mk ?_ rfl rfl)))

theorem tickHeat_touches (h : Touches M s0 s) (w : Mask.le { stk := true } M = true) : Touches M s0 (tickHeat s) := by
  refine h.trans (Touches.mono ?_ w)
  have h0 := Touches.refl { stk := true } s
  clear h w
  unfold tickHeat
  repeat' (first
    | with_reducible assumption
    | (with_reducible refine chanMod_touches ?_ rfl)
    | with_reducible apply touches_ite
    | (with_reducible refine touches_foldl ?_ (fun _ _ _ => ?_)))

/-- What `tickRunning` may change. -/
abbrev Mask.tickRunning : Mask :=
  { img := true, parts := true, flows := true, td := true, ports := true, fab := true, coh := true, stk := true,
    near := true, fl := true, eng := true, di := true, eth := true, sec := true, twn := true, svc := true, out
    := true, free := true, dram := true, nearMem := true }

theorem tickRunning_touches {clk len : ℕ} {inp : TickInputs} (h : Touches M s0 s)
    (w : Mask.le Mask.tickRunning M = true) : Touches M s0 (tickRunning s clk len inp) := by
  refine h.trans (Touches.mono ?_ w)
  have h0 := Touches.refl Mask.tickRunning s
  clear h w
  unfold tickRunning
  repeat' (first
    | with_reducible assumption
    | (((try lift_lets); intro x); (refine (fun (hx : Touches Mask.tickRunning s x) => ?_) ?_ <;> [clear_value x; (unfold x; clear x)]))
    | (with_reducible refine startPairs_touches ?_ rfl)
    | (with_reducible refine tickCredits_touches ?_ rfl)
    | (with_reducible refine tickFences_touches ?_ rfl)
    | (with_reducible refine tickFlow_touches ?_ rfl)
    | (with_reducible refine tickGrafts_touches ?_ rfl)
    | (with_reducible refine tickHistories_touches ?_ rfl)
    | (with_reducible refine tickLanes_touches ?_ rfl)
    | (with_reducible refine tickLoad_touches ?_ rfl)
    | (with_reducible refine tickParts_touches ?_ rfl)
    | (with_reducible refine tickPatrol_touches ?_ rfl)
    | (with_reducible refine tickReset_touches ?_ rfl)
    | (with_reducible refine tickTrackers_touches ?_ rfl)
    | (with_reducible refine tickTraining_touches ?_ rfl)
    | (with_reducible refine tickTwin_touches ?_ rfl)
    | (with_reducible refine tickWindows_touches ?_ rfl)
    | with_reducible apply touches_ite
    | (with_reducible refine touches_foldl ?_ (fun _ _ _ => ?_)))

/-- What `tick` may change. -/
abbrev Mask.tick : Mask :=
  { mgmt := true, img := true, parts := true, flows := true, td := true, ports := true, fab := true, coh :=
    true, stk := true, near := true, fl := true, eng := true, di := true, eth := true, sec := true, twn := true,
    pwr := true, staging := true, mailbox := true, svc := true, nextTicket := true, out := true, free := true,
    boot := true, layout := true, dram := true, nearMem := true }

theorem tick_touches {clk : ℕ} {inp : TickInputs} (h : Touches M s0 s) (w : Mask.le Mask.tick M = true) :
    Touches M s0 (tick s clk inp) := by
  refine h.trans (Touches.mono ?_ w)
  have h0 := Touches.refl Mask.tick s
  clear h w
  unfold tick
  repeat' (first
    | with_reducible assumption
    | ((try lift_lets); intro x; first
        | (refine (fun (hx : Touches Mask.tick s x) => ?_) ?_ <;> [clear_value x; (unfold x; clear x)])
        | clear_value x)
    | (with_reducible refine tickClock_touches ?_ rfl)
    | (with_reducible refine tickHeat_touches ?_ rfl)
    | (with_reducible refine tickPower_touches ?_ rfl)
    | (with_reducible refine tickReadings_touches ?_ rfl)
    | (with_reducible refine tickRunning_touches ?_ rfl)
    | (with_reducible refine tickWatchdog_touches ?_ rfl)
    | (with_reducible refine trip_touches ?_ rfl)
    | with_reducible apply touches_ite)

end Sys2Proof.Machine
end

