-- ==== Sys2Proof/Laws/TouchesRegRead.lean ====
section
/-! SUPPORT. What the operations of Machine/RegRead.lean may change. -/

namespace Sys2Proof.Machine

variable {M : Mask} {s0 s t : State}

theorem pathSet_touches {x : PathState} {path : Path} (h : Touches M s0 s) (w : Mask.le { mgmt := true } M = true) :
    Touches M s0 (pathSet s x path) := by
  refine h.trans (Touches.mono ?_ w)
  cases path <;> exact touches_mk (Touches.refl _ s) rfl rfl

theorem pathMod_touches {path : Path} {f : PathState → PathState} (h : Touches M s0 s)
    (w : Mask.le { mgmt := true } M = true) : Touches M s0 (pathMod s path f) := by
  refine h.trans (Touches.mono ?_ w)
  have h0 := Touches.refl { mgmt := true } s
  clear h w
  unfold pathMod
  repeat' (first
    | with_reducible assumption
    | (with_reducible refine pathSet_touches ?_ rfl))

theorem recordErr_touches {path : Path} {cause off : ℕ} (h : Touches M s0 s) (w : Mask.le { mgmt := true } M = true)
    : Touches M s0 (recordErr s path cause off) := by
  refine h.trans (Touches.mono ?_ w)
  have h0 := Touches.refl { mgmt := true } s
  clear h w
  unfold recordErr
  repeat' (first
    | with_reducible assumption
    | (with_reducible refine noteFlags_touches ?_ rfl)
    | (with_reducible refine pathMod_touches ?_ rfl))

theorem took_touches {path : Path} {y_2 : Word} (h : Touches M s0 s) (w : Mask.le { mgmt := true } M = true) :
    Touches M s0 (took s path y_2) := by
  refine h.trans (Touches.mono ?_ w)
  have h0 := Touches.refl { mgmt := true } s
  clear h w
  unfold took
  repeat' (first
    | with_reducible assumption
    | (with_reducible refine pathMod_touches ?_ rfl))

theorem readStored_touches {path : Path} {off : ℕ} (h : Touches M s0 s) (w : Mask.le Mask.readUnit M = true) :
    Touches M s0 (readStored s path off) := by
  refine h.trans (Touches.mono ?_ w)
  have h0 := Touches.refl Mask.readUnit s
  clear h w
  unfold readStored
  repeat' (first
    | with_reducible assumption
    | ((try lift_lets); intro x; first
        | clear_value x)
    | (with_reducible refine lgRead_touches ?_ rfl)
    | (with_reducible refine readUnit_touches ?_ rfl)
    | with_reducible apply touches_ite
    | (with_reducible refine touches_foldl ?_ (fun _ _ _ => ?_))
    | (with_reducible refine touches_foldl_fst ?_ (fun _ _ _ => ?_))
    | (with_reducible refine touches_foldl_snd ?_ (fun _ _ _ => ?_))
    | (fail_if_no_progress (with_reducible refine touches_mk ?_ rfl rfl))
    | (split <;> (try (rename_i e1; have e2 := congrArg Prod.fst e1; have e3 := congrArg Prod.snd e1; dsimp only at e2 e3; (try subst e2); (try subst e3)))))

/-- What `readReg` may change. -/
abbrev Mask.readReg : Mask :=
  { mgmt := true, parts := true, coh := true, stk := true, eng := true, di := true }

theorem readReg_touches {path : Path} {off width clk : ℕ} (h : Touches M s0 s) (w : Mask.le Mask.readReg M = true) :
    Touches M s0 (readReg s path off width clk).1 := by
  refine h.trans (Touches.mono ?_ w)
  have h0 := Touches.refl Mask.readReg s
  clear h w
  unfold readReg
  repeat' (first
    | with_reducible assumption
    | ((try lift_lets); intro x; first
        | (refine (fun (hx : Touches Mask.readReg s x) => ?_) ?_ <;> [clear_value x; (unfold x; clear x)])
        | clear_value x)
    | (with_reducible refine pathMod_touches ?_ rfl)
    | (with_reducible refine readStored_touches ?_ rfl)
    | (with_reducible refine recordErr_touches ?_ rfl)
    | (with_reducible refine took_touches ?_ rfl)
    | with_reducible apply touches_ite
    | (with_reducible refine touches_foldl ?_ (fun _ _ _ => ?_))
    | (with_reducible refine touches_foldl_fst ?_ (fun _ _ _ => ?_))
    | (with_reducible refine touches_foldl_snd ?_ (fun _ _ _ => ?_))
    | (fail_if_no_progress (with_reducible refine touches_mk ?_ rfl rfl))
    | (split <;> (try (rename_i e1; have e2 := congrArg Prod.fst e1; have e3 := congrArg Prod.snd e1; dsimp only at e2 e3; (try subst e2); (try subst e3)))))

end Sys2Proof.Machine
end

