-- ==== Sys2Proof/Laws/TouchesRegWrite.lean ====
section
/-! SUPPORT. What the operations of Machine/RegWrite.lean may change. -/

namespace Sys2Proof.Machine

variable {M : Mask} {s0 s t : State}

theorem ignoreIf_touches {named : Option Word} (e : ignoreIf s named = some t) (h : Touches M s0 s)
    (w : Mask.le {} M = true) : Touches M s0 t := by
  refine h.trans (Touches.mono ?_ w)
  have h0 := Touches.refl {} s
  clear h w
  unfold ignoreIf at e
  try dsimp only at e
  repeat' (first | (cases e; done) | (split at e))
  all_goals (try simp only [Option.some.injEq, Except.ok.injEq, Prod.mk.injEq, Option.map_eq_some_iff] at e)
  all_goals (try casesm* _ ∧ _, ∃ _, _)
  all_goals (try subst_vars)
  all_goals (try (have e2 := congrArg Prod.fst e; have e3 := congrArg Prod.snd e; dsimp only at e2 e3; (try subst e2); (try subst e3)))
  repeat' (first
    | with_reducible assumption)

theorem writeSys_touches {path : Path} {o : ℕ} {v : Word} (e : writeSys s path o v = some t) (h : Touches M s0 s)
    (w : Mask.le { mgmt := true } M = true) : Touches M s0 t := by
  refine h.trans (Touches.mono ?_ w)
  have h0 := Touches.refl { mgmt := true } s
  clear h w
  unfold writeSys at e
  try dsimp only at e
  repeat' (first | (cases e; done) | (split at e))
  all_goals (try simp only [Option.some.injEq, Except.ok.injEq, Prod.mk.injEq, Option.map_eq_some_iff] at e)
  all_goals (try casesm* _ ∧ _, ∃ _, _)
  all_goals (try subst_vars)
  all_goals (try (have e2 := congrArg Prod.fst e; have e3 := congrArg Prod.snd e; dsimp only at e2 e3; (try subst e2); (try subst e3)))
  repeat' (first
    | with_reducible assumption
    | (with_reducible refine ignoreIf_touches (by assumption) ?_ rfl)
    | (with_reducible refine pathMod_touches ?_ rfl))

theorem writeEngSel_touches {path : Path} {v : Word} (h : Touches M s0 s) (w : Mask.le { mgmt := true } M = true) :
    Touches M s0 (writeEngSel s path v) := by
  refine h.trans (Touches.mono ?_ w)
  have h0 := Touches.refl { mgmt := true } s
  clear h w
  unfold writeEngSel
  repeat' (first
    | with_reducible assumption
    | (with_reducible refine pathMod_touches ?_ rfl)
    | with_reducible apply touches_ite)

theorem writeSelects_touches {path : Path} {o : ℕ} {v : Word} (e : writeSelects s path o v = some t)
    (h : Touches M s0 s) (w : Mask.le { mgmt := true } M = true) : Touches M s0 t := by
  refine h.trans (Touches.mono ?_ w)
  have h0 := Touches.refl { mgmt := true } s
  clear h w
  unfold writeSelects at e
  try dsimp only at e
  repeat' (first | (cases e; done) | (split at e))
  all_goals (try simp only [Option.some.injEq, Except.ok.injEq, Prod.mk.injEq, Option.map_eq_some_iff] at e)
  all_goals (try casesm* _ ∧ _, ∃ _, _)
  all_goals (try subst_vars)
  all_goals (try (have e2 := congrArg Prod.fst e; have e3 := congrArg Prod.snd e; dsimp only at e2 e3; (try subst e2); (try subst e3)))
  repeat' (first
    | with_reducible assumption
    | (with_reducible refine ignoreIf_touches (by assumption) ?_ rfl)
    | (with_reducible refine pathMod_touches ?_ rfl)
    | (with_reducible refine writeEngSel_touches ?_ rfl))

theorem writeImgCtrl_touches {v : Word} (h : Touches M s0 s) (w : Mask.le { img := true, owners := true } M = true)
    : Touches M s0 (writeImgCtrl s v) := by
  refine h.trans (Touches.mono ?_ w)
  have h0 := Touches.refl { img := true, owners := true } s
  clear h w
  unfold writeImgCtrl
  repeat' (first
    | with_reducible assumption
    | (((try lift_lets); intro x); (refine (fun (hx : Touches { img := true, owners := true } s x) => ?_) ?_ <;> [clear_value x; (unfold x; clear x)]))
    | (with_reducible refine imageAbort_touches ?_ rfl)
    | (with_reducible refine imageFloor_touches ?_ rfl)
    | (with_reducible refine imageGo_touches ?_ rfl)
    | with_reducible apply touches_ite)

theorem writeImg_touches {o : ℕ} {v : Word} (e : writeImg s o v = some t) (h : Touches M s0 s)
    (w : Mask.le { img := true, owners := true } M = true) : Touches M s0 t := by
  refine h.trans (Touches.mono ?_ w)
  have h0 := Touches.refl { img := true, owners := true } s
  clear h w
  unfold writeImg at e
  try dsimp only at e
  repeat' (first | (cases e; done) | (split at e))
  all_goals (try simp only [Option.some.injEq, Except.ok.injEq, Prod.mk.injEq, Option.map_eq_some_iff] at e)
  all_goals (try casesm* _ ∧ _, ∃ _, _)
  all_goals (try subst_vars)
  all_goals (try (have e2 := congrArg Prod.fst e; have e3 := congrArg Prod.snd e; dsimp only at e2 e3; (try subst e2); (try subst e3)))
  repeat' (first
    | with_reducible assumption
    | (with_reducible refine ignoreIf_touches (by assumption) ?_ rfl)
    | (with_reducible refine writeImgCtrl_touches ?_ rfl)
    | with_reducible apply touches_ite
    | (with_reducible refine touches_foldl ?_ (fun _ _ _ => ?_))
    | (with_reducible refine touches_foldl_fst ?_ (fun _ _ _ => ?_))
    | (with_reducible refine touches_foldl_snd ?_ (fun _ _ _ => ?_))
    | (fail_if_no_progress (with_reducible refine touches_mk ?_ rfl rfl)))

theorem writeTd_touches {path : Path} {o : ℕ} {v : Word} (e : writeTd s path o v = some t) (h : Touches M s0 s)
    (w : Mask.le { td := true } M = true) : Touches M s0 t := by
  refine h.trans (Touches.mono ?_ w)
  have h0 := Touches.refl { td := true } s
  clear h w
  unfold writeTd at e
  try dsimp only at e
  repeat' (first | (cases e; done) | (split at e))
  all_goals (try simp only [Option.some.injEq, Except.ok.injEq, Prod.mk.injEq, Option.map_eq_some_iff] at e)
  all_goals (try casesm* _ ∧ _, ∃ _, _)
  all_goals (try subst_vars)
  all_goals (try (have e2 := congrArg Prod.fst e; have e3 := congrArg Prod.snd e; dsimp only at e2 e3; (try subst e2); (try subst e3)))
  repeat' (first
    | with_reducible assumption
    | (with_reducible refine clearSyncErr_touches ?_ rfl)
    | (with_reducible refine ignoreIf_touches (by assumption) ?_ rfl)
    | (with_reducible refine relock_touches ?_ rfl)
    | (with_reducible refine writeFreerun_touches ?_ rfl)
    | with_reducible apply touches_ite
    | (with_reducible refine touches_foldl ?_ (fun _ _ _ => ?_))
    | (with_reducible refine touches_foldl_fst ?_ (fun _ _ _ => ?_))
    | (with_reducible refine touches_foldl_snd ?_ (fun _ _ _ => ?_))
    | (fail_if_no_progress (with_reducible refine touches_mk ?_ rfl rfl)))

theorem clearFab_touches (h : Touches M s0 s) (w : Mask.le { ports := true, fab := true } M = true) :
    Touches M s0 (clearFab s) := by
  refine h.trans (Touches.mono ?_ w)
  have h0 := Touches.refl { ports := true, fab := true } s
  clear h w
  unfold clearFab
  repeat' (first
    | with_reducible assumption
    | ((try lift_lets); intro x; first
        | (refine (fun (hx : Touches { ports := true, fab := true } s x) => ?_) ?_ <;> [clear_value x; (unfold x; clear x)])
        | clear_value x)
    | (with_reducible refine portCnt_touches ?_ rfl)
    | with_reducible apply touches_ite
    | (with_reducible refine touches_foldl ?_ (fun _ _ _ => ?_))
    | (with_reducible refine touches_foldl_fst ?_ (fun _ _ _ => ?_))
    | (with_reducible refine touches_foldl_snd ?_ (fun _ _ _ => ?_))
    | (fail_if_no_progress (with_reducible refine touches_mk ?_ rfl rfl)))

theorem writeFab_touches {o : ℕ} {v : Word} (e : writeFab s o v = some t) (h : Touches M s0 s)
    (w : Mask.le { ports := true, fab := true } M = true) : Touches M s0 t := by
  refine h.trans (Touches.mono ?_ w)
  have h0 := Touches.refl { ports := true, fab := true } s
  clear h w
  unfold writeFab at e
  try dsimp only at e
  repeat' (first | (cases e; done) | (split at e))
  all_goals (try simp only [Option.some.injEq, Except.ok.injEq, Prod.mk.injEq, Option.map_eq_some_iff] at e)
  all_goals (try casesm* _ ∧ _, ∃ _, _)
  all_goals (try subst_vars)
  all_goals (try (have e2 := congrArg Prod.fst e; have e3 := congrArg Prod.snd e; dsimp only at e2 e3; (try subst e2); (try subst e3)))
  repeat' (first
    | with_reducible assumption
    | (with_reducible refine clearFab_touches ?_ rfl)
    | (with_reducible refine ignoreIf_touches (by assumption) ?_ rfl))

theorem clearCoh_touches (h : Touches M s0 s) (w : Mask.le { parts := true, coh := true } M = true) :
    Touches M s0 (clearCoh s) := by
  refine h.trans (Touches.mono ?_ w)
  have h0 := Touches.refl { parts := true, coh := true } s
  clear h w
  unfold clearCoh
  repeat' (first
    | with_reducible assumption
    | ((try lift_lets); intro x; first
        | (refine (fun (hx : Touches { parts := true, coh := true } s x) => ?_) ?_ <;> [clear_value x; (unfold x; clear x)])
        | clear_value x)
    | (with_reducible refine partCnt_touches ?_ rfl)
    | with_reducible apply touches_ite
    | (with_reducible refine touches_foldl ?_ (fun _ _ _ => ?_))
    | (with_reducible refine touches_foldl_fst ?_ (fun _ _ _ => ?_))
    | (with_reducible refine touches_foldl_snd ?_ (fun _ _ _ => ?_))
    | (fail_if_no_progress (with_reducible refine touches_mk ?_ rfl rfl)))

theorem writeCoh_touches {o : ℕ} {v : Word} (e : writeCoh s o v = some t) (h : Touches M s0 s)
    (w : Mask.le { parts := true, coh := true } M = true) : Touches M s0 t := by
  refine h.trans (Touches.mono ?_ w)
  have h0 := Touches.refl { parts := true, coh := true } s
  clear h w
  unfold writeCoh at e
  try dsimp only at e
  repeat' (first | (cases e; done) | (split at e))
  all_goals (try simp only [Option.some.injEq, Except.ok.injEq, Prod.mk.injEq, Option.map_eq_some_iff] at e)
  all_goals (try casesm* _ ∧ _, ∃ _, _)
  all_goals (try subst_vars)
  all_goals (try (have e2 := congrArg Prod.fst e; have e3 := congrArg Prod.snd e; dsimp only at e2 e3; (try subst e2); (try subst e3)))
  repeat' (first
    | with_reducible assumption
    | (with_reducible refine clearCoh_touches ?_ rfl)
    | (with_reducible refine ignoreIf_touches (by assumption) ?_ rfl)
    | with_reducible apply touches_ite
    | (with_reducible refine touches_foldl ?_ (fun _ _ _ => ?_))
    | (with_reducible refine touches_foldl_fst ?_ (fun _ _ _ => ?_))
    | (with_reducible refine touches_foldl_snd ?_ (fun _ _ _ => ?_))
    | (fail_if_no_progress (with_reducible refine touches_mk ?_ rfl rfl)))

theorem writeStk_touches {o : ℕ} {v : Word} (e : writeStk s o v = some t) (h : Touches M s0 s)
    (w : Mask.le { stk := true } M = true) : Touches M s0 t := by
  refine h.trans (Touches.mono ?_ w)
  have h0 := Touches.refl { stk := true } s
  clear h w
  unfold writeStk at e
  try dsimp only at e
  repeat' (first | (cases e; done) | (split at e))
  all_goals (try simp only [Option.some.injEq, Except.ok.injEq, Prod.mk.injEq, Option.map_eq_some_iff] at e)
  all_goals (try casesm* _ ∧ _, ∃ _, _)
  all_goals (try subst_vars)
  all_goals (try (have e2 := congrArg Prod.fst e; have e3 := congrArg Prod.snd e; dsimp only at e2 e3; (try subst e2); (try subst e3)))
  repeat' (first
    | with_reducible assumption
    | (with_reducible refine ignoreIf_touches (by assumption) ?_ rfl)
    | with_reducible apply touches_ite
    | (with_reducible refine touches_foldl ?_ (fun _ _ _ => ?_))
    | (with_reducible refine touches_foldl_fst ?_ (fun _ _ _ => ?_))
    | (with_reducible refine touches_foldl_snd ?_ (fun _ _ _ => ?_))
    | (fail_if_no_progress (with_reducible refine touches_mk ?_ rfl rfl)))

theorem writeFl_touches {o : ℕ} {v : Word} (e : writeFl s o v = some t) (h : Touches M s0 s)
    (w : Mask.le Mask.readMap M = true) : Touches M s0 t := by
  refine h.trans (Touches.mono ?_ w)
  have h0 := Touches.refl Mask.readMap s
  clear h w
  unfold writeFl at e
  try dsimp only at e
  repeat' (first | (cases e; done) | (split at e))
  all_goals (try simp only [Option.some.injEq, Except.ok.injEq, Prod.mk.injEq, Option.map_eq_some_iff] at e)
  all_goals (try casesm* _ ∧ _, ∃ _, _)
  all_goals (try subst_vars)
  all_goals (try (have e2 := congrArg Prod.fst e; have e3 := congrArg Prod.snd e; dsimp only at e2 e3; (try subst e2); (try subst e3)))
  repeat' (first
    | with_reducible assumption
    | (with_reducible refine clearFlash_touches ?_ rfl)
    | (with_reducible refine graftFlash_touches ?_ rfl)
    | (with_reducible refine ignoreIf_touches (by assumption) ?_ rfl)
    | with_reducible apply touches_ite
    | (with_reducible refine touches_foldl ?_ (fun _ _ _ => ?_))
    | (with_reducible refine touches_foldl_fst ?_ (fun _ _ _ => ?_))
    | (with_reducible refine touches_foldl_snd ?_ (fun _ _ _ => ?_))
    | (fail_if_no_progress (with_reducible refine touches_mk ?_ rfl rfl)))

theorem writeDi_touches {path : Path} {o : ℕ} {v : Word} (e : writeDi s path o v = some t) (h : Touches M s0 s)
    (w : Mask.le { mgmt := true, di := true } M = true) : Touches M s0 t := by
  refine h.trans (Touches.mono ?_ w)
  have h0 := Touches.refl { mgmt := true, di := true } s
  clear h w
  unfold writeDi at e
  try dsimp only at e
  repeat' (first | (cases e; done) | (split at e))
  all_goals (try simp only [Option.some.injEq, Except.ok.injEq, Prod.mk.injEq, Option.map_eq_some_iff] at e)
  all_goals (try casesm* _ ∧ _, ∃ _, _)
  all_goals (try subst_vars)
  all_goals (try (have e2 := congrArg Prod.fst e; have e3 := congrArg Prod.snd e; dsimp only at e2 e3; (try subst e2); (try subst e3)))
  repeat' (first
    | with_reducible assumption
    | (with_reducible refine armInject_touches ?_ rfl)
    | (with_reducible refine clearDi_touches ?_ rfl)
    | (with_reducible refine clearLog_touches ?_ rfl)
    | (with_reducible refine ignoreIf_touches (by assumption) ?_ rfl)
    | (with_reducible refine pathMod_touches ?_ rfl)
    | with_reducible apply touches_ite
    | (with_reducible refine touches_foldl ?_ (fun _ _ _ => ?_))
    | (with_reducible refine touches_foldl_fst ?_ (fun _ _ _ => ?_))
    | (with_reducible refine touches_foldl_snd ?_ (fun _ _ _ => ?_))
    | (fail_if_no_progress (with_reducible refine touches_mk ?_ rfl rfl)))

theorem writeQpCfg_touches {qi : ℕ} {v : Word} (h : Touches M s0 s)
    (w : Mask.le { parts := true, eth := true } M = true) : Touches M s0 (writeQpCfg s qi v) := by
  refine h.trans (Touches.mono ?_ w)
  have h0 := Touches.refl { parts := true, eth := true } s
  clear h w
  unfold writeQpCfg
  repeat' (first
    | with_reducible assumption
    | (((try lift_lets); intro x); (refine (fun (hx : Touches { parts := true, eth := true } s x) => ?_) ?_ <;> [clear_value x; (unfold x; clear x)]))
    | (with_reducible refine qpMod_touches ?_ rfl)
    | (with_reducible refine tearDue_touches ?_ rfl)
    | (with_reducible refine writeQpState_touches ?_ rfl))

theorem writeQpField_touches {qi : ℕ} {f : Qp → Qp} (h : Touches M s0 s)
    (w : Mask.le { parts := true, eth := true } M = true) : Touches M s0 (writeQpField s qi f) := by
  refine h.trans (Touches.mono ?_ w)
  have h0 := Touches.refl { parts := true, eth := true } s
  clear h w
  unfold writeQpField
  repeat' (first
    | with_reducible assumption
    | (with_reducible refine qpMod_touches ?_ rfl)
    | (with_reducible refine tearDue_touches ?_ rfl))

theorem writeQp_touches {qi o : ℕ} {v : Word} (e : writeQp s qi o v = some t) (h : Touches M s0 s)
    (w : Mask.le { parts := true, eth := true } M = true) : Touches M s0 t := by
  unfold writeQp at e
  repeat' split at e
  all_goals first
    | (simp only [Option.some.injEq] at e; subst e; with_reducible first
        | exact writeQpCfg_touches h (Mask.le_trans rfl w)
        | exact writeQpField_touches h (Mask.le_trans rfl w))
    | exact ignoreIf_touches e h (Mask.le_trans rfl w)

/-- What `writeEth` may change. -/
abbrev Mask.writeEth : Mask :=
  { mgmt := true, parts := true, eth := true }

theorem writeEth_touches {path : Path} {o : ℕ} {v : Word} (e : writeEth s path o v = .ok t) (h : Touches M s0 s)
    (w : Mask.le Mask.writeEth M = true) : Touches M s0 t := by
  refine h.trans (Touches.mono ?_ w)
  have h0 := Touches.refl Mask.writeEth s
  clear h w
  unfold writeEth at e
  try dsimp only at e
  repeat' (first | (cases e; done) | (split at e))
  all_goals (try simp only [Option.some.injEq, Except.ok.injEq, Prod.mk.injEq, Option.map_eq_some_iff] at e)
  all_goals (try casesm* _ ∧ _, ∃ _, _)
  all_goals (try subst_vars)
  all_goals (try (have e2 := congrArg Prod.fst e; have e3 := congrArg Prod.snd e; dsimp only at e2 e3; (try subst e2); (try subst e3)))
  repeat' (first
    | with_reducible assumption
    | (with_reducible refine pathMod_touches ?_ rfl)
    | (with_reducible refine writePhy_touches ?_ rfl)
    | (with_reducible refine writeQp_touches (by assumption) ?_ rfl)
    | with_reducible apply touches_ite
    | (with_reducible refine touches_foldl ?_ (fun _ _ _ => ?_))
    | (with_reducible refine touches_foldl_fst ?_ (fun _ _ _ => ?_))
    | (with_reducible refine touches_foldl_snd ?_ (fun _ _ _ => ?_))
    | (fail_if_no_progress (with_reducible refine touches_mk ?_ rfl rfl)))

/-- What `secOperation` may change. -/
abbrev Mask.secOperation : Mask :=
  { mgmt := true, img := true, parts := true, flows := true, td := true, ports := true, fab := true, coh :=
    true, stk := true, di := true, eth := true, sec := true, twn := true, out := true, free := true, owners :=
    true }

theorem secOperation_touches {op : ℕ} (h : Touches M s0 s) (w : Mask.le Mask.secOperation M = true) :
    Touches M s0 (secOperation s op) := by
  refine h.trans (Touches.mono ?_ w)
  have h0 := Touches.refl Mask.secOperation s
  clear h w
  unfold secOperation
  repeat' (first
    | with_reducible assumption
    | (with_reducible refine fwActivateGo_touches ?_ rfl)
    | (with_reducible refine fwCommitGo_touches ?_ rfl)
    | (with_reducible refine keysetGo_touches ?_ rfl)
    | (with_reducible refine ownerGo_touches ?_ rfl)
    | (with_reducible refine quoteGo_touches ?_ rfl)
    | (with_reducible refine sealGo_touches ?_ rfl)
    | (with_reducible refine secEnd_touches ?_ rfl)
    | (with_reducible refine secGo_touches ?_ rfl (fun _ _ => ?_))
    | with_reducible apply touches_ite
    | (with_reducible refine touches_foldl ?_ (fun _ _ _ => ?_))
    | (with_reducible refine touches_foldl_fst ?_ (fun _ _ _ => ?_))
    | (with_reducible refine touches_foldl_snd ?_ (fun _ _ _ => ?_))
    | (fail_if_no_progress (with_reducible refine touches_mk ?_ rfl rfl))
    | (split <;> (try (rename_i e1; have e2 := congrArg Prod.fst e1; have e3 := congrArg Prod.snd e1; dsimp only at e2 e3; (try subst e2); (try subst e3))))
    | dsimp only [id])

theorem writeSecCmd_touches {v : Word} (h : Touches M s0 s) (w : Mask.le Mask.secOperation M = true) :
    Touches M s0 (writeSecCmd s v) := by
  refine h.trans (Touches.mono ?_ w)
  have h0 := Touches.refl Mask.secOperation s
  clear h w
  unfold writeSecCmd
  repeat' (first
    | with_reducible assumption
    | ((try lift_lets); intro x; first
        | (refine (fun (hx : Touches Mask.secOperation s x) => ?_) ?_ <;> [clear_value x; (unfold x; clear x)])
        | clear_value x)
    | (with_reducible refine secOperation_touches ?_ rfl)
    | with_reducible apply touches_ite
    | (with_reducible refine touches_foldl ?_ (fun _ _ _ => ?_))
    | (with_reducible refine touches_foldl_fst ?_ (fun _ _ _ => ?_))
    | (with_reducible refine touches_foldl_snd ?_ (fun _ _ _ => ?_))
    | (fail_if_no_progress (with_reducible refine touches_mk ?_ rfl rfl)))

theorem writeSec_touches {o : ℕ} {v : Word} (e : writeSec s o v = some t) (h : Touches M s0 s)
    (w : Mask.le Mask.secOperation M = true) : Touches M s0 t := by
  refine h.trans (Touches.mono ?_ w)
  have h0 := Touches.refl Mask.secOperation s
  clear h w
  unfold writeSec at e
  try dsimp only at e
  repeat' (first | (cases e; done) | (split at e))
  all_goals (try simp only [Option.some.injEq, Except.ok.injEq, Prod.mk.injEq, Option.map_eq_some_iff] at e)
  all_goals (try casesm* _ ∧ _, ∃ _, _)
  all_goals (try subst_vars)
  all_goals (try (have e2 := congrArg Prod.fst e; have e3 := congrArg Prod.snd e; dsimp only at e2 e3; (try subst e2); (try subst e3)))
  repeat' (first
    | with_reducible assumption
    | (with_reducible refine ignoreIf_touches (by assumption) ?_ rfl)
    | (with_reducible refine writeSecCmd_touches ?_ rfl)
    | with_reducible apply touches_ite
    | (with_reducible refine touches_foldl ?_ (fun _ _ _ => ?_))
    | (with_reducible refine touches_foldl_fst ?_ (fun _ _ _ => ?_))
    | (with_reducible refine touches_foldl_snd ?_ (fun _ _ _ => ?_))
    | (fail_if_no_progress (with_reducible refine touches_mk ?_ rfl rfl)))

theorem writeFence_touches {v : Word} (h : Touches M s0 s) (w : Mask.le { twn := true } M = true) :
    Touches M s0 (writeFence s v) := by
  refine h.trans (Touches.mono ?_ w)
  have h0 := Touches.refl { twn := true } s
  clear h w
  unfold writeFence
  repeat' (first
    | with_reducible assumption
    | (with_reducible refine addFence_touches ?_ rfl)
    | (with_reducible refine clearFence_touches ?_ rfl)
    | with_reducible apply touches_ite)

theorem writeReset_touches {v : Word} (h : Touches M s0 s) (w : Mask.le { twn := true } M = true) :
    Touches M s0 (writeReset s v) := by
  refine h.trans (Touches.mono ?_ w)
  have h0 := Touches.refl { twn := true } s
  clear h w
  unfold writeReset
  repeat' (first
    | with_reducible assumption
    | ((try lift_lets); intro x; first
        | (refine (fun (hx : Touches { twn := true } s x) => ?_) ?_ <;> [clear_value x; (unfold x; clear x)])
        | clear_value x)
    | (with_reducible refine startReset_touches ?_ rfl)
    | with_reducible apply touches_ite
    | (with_reducible refine touches_foldl ?_ (fun _ _ _ => ?_))
    | (with_reducible refine touches_foldl_fst ?_ (fun _ _ _ => ?_))
    | (with_reducible refine touches_foldl_snd ?_ (fun _ _ _ => ?_))
    | (fail_if_no_progress (with_reducible refine touches_mk ?_ rfl rfl)))

theorem writeTwn_touches {o : ℕ} {v : Word} (e : writeTwn s o v = some t) (h : Touches M s0 s)
    (w : Mask.le Mask.finish M = true) : Touches M s0 t := by
  refine h.trans (Touches.mono ?_ w)
  have h0 := Touches.refl Mask.finish s
  clear h w
  unfold writeTwn at e
  try dsimp only at e
  repeat' (first | (cases e; done) | (split at e))
  all_goals (try simp only [Option.some.injEq, Except.ok.injEq, Prod.mk.injEq, Option.map_eq_some_iff] at e)
  all_goals (try casesm* _ ∧ _, ∃ _, _)
  all_goals (try subst_vars)
  all_goals (try (have e2 := congrArg Prod.fst e; have e3 := congrArg Prod.snd e; dsimp only at e2 e3; (try subst e2); (try subst e3)))
  repeat' (first
    | with_reducible assumption
    | (with_reducible refine clearTwin_touches ?_ rfl)
    | (with_reducible refine ignoreIf_touches (by assumption) ?_ rfl)
    | (with_reducible refine kickWatchdog_touches ?_ rfl)
    | (with_reducible refine releaseLead_touches ?_ rfl)
    | (with_reducible refine writeFence_touches ?_ rfl)
    | (with_reducible refine writeReset_touches ?_ rfl)
    | with_reducible apply touches_ite
    | (with_reducible refine touches_foldl ?_ (fun _ _ _ => ?_))
    | (with_reducible refine touches_foldl_fst ?_ (fun _ _ _ => ?_))
    | (with_reducible refine touches_foldl_snd ?_ (fun _ _ _ => ?_))
    | (fail_if_no_progress (with_reducible refine touches_mk ?_ rfl rfl)))

theorem writePwr_touches {o : ℕ} {v : Word} (e : writePwr s o v = some t) (h : Touches M s0 s)
    (w : Mask.le { pwr := true } M = true) : Touches M s0 t := by
  refine h.trans (Touches.mono ?_ w)
  have h0 := Touches.refl { pwr := true } s
  clear h w
  unfold writePwr at e
  try dsimp only at e
  repeat' (first | (cases e; done) | (split at e))
  all_goals (try simp only [Option.some.injEq, Except.ok.injEq, Prod.mk.injEq, Option.map_eq_some_iff] at e)
  all_goals (try casesm* _ ∧ _, ∃ _, _)
  all_goals (try subst_vars)
  all_goals (try (have e2 := congrArg Prod.fst e; have e3 := congrArg Prod.snd e; dsimp only at e2 e3; (try subst e2); (try subst e3)))
  repeat' (first
    | with_reducible assumption
    | (with_reducible refine ignoreIf_touches (by assumption) ?_ rfl)
    | (with_reducible refine writeTarget_touches ?_ rfl)
    | with_reducible apply touches_ite
    | (with_reducible refine touches_foldl ?_ (fun _ _ _ => ?_))
    | (with_reducible refine touches_foldl_fst ?_ (fun _ _ _ => ?_))
    | (with_reducible refine touches_foldl_snd ?_ (fun _ _ _ => ?_))
    | (fail_if_no_progress (with_reducible refine touches_mk ?_ rfl rfl)))

theorem writeSqArea_touches {p q : ℕ} {f : Pair → Pair} (h : Touches M s0 s) (w : Mask.le { eng := true } M = true)
    : Touches M s0 (writeSqArea s p q f) :=
  h.trans (Touches.mono ⟨rfl, id⟩ w)

theorem writeSq_touches {p q o : ℕ} {v : Word} (e : writeSq s p q o v = some t) (h : Touches M s0 s)
    (w : Mask.le { eng := true } M = true) : Touches M s0 t := by
  refine h.trans (Touches.mono ?_ w)
  have h0 := Touches.refl { eng := true } s
  clear h w
  unfold writeSq at e
  try dsimp only at e
  repeat' (first | (cases e; done) | (split at e))
  all_goals (try simp only [Option.some.injEq, Except.ok.injEq, Prod.mk.injEq, Option.map_eq_some_iff] at e)
  all_goals (try casesm* _ ∧ _, ∃ _, _)
  all_goals (try subst_vars)
  all_goals (try (have e2 := congrArg Prod.fst e; have e3 := congrArg Prod.snd e; dsimp only at e2 e3; (try subst e2); (try subst e3)))
  repeat' (first
    | with_reducible assumption
    | (with_reducible refine clearPair_touches ?_ rfl)
    | (with_reducible refine ignoreIf_touches (by assumption) ?_ rfl)
    | (with_reducible refine restartPair_touches ?_ rfl)
    | (with_reducible refine writeSqArea_touches ?_ rfl)
    | (with_reducible refine writeSqCfg_touches ?_ rfl))

theorem clearStall_touches {p n : ℕ} {v : Word} (h : Touches M s0 s) (w : Mask.le { parts := true } M = true) :
    Touches M s0 (clearStall s p n v) := by
  refine h.trans (Touches.mono ?_ w)
  have h0 := Touches.refl { parts := true } s
  clear h w
  unfold clearStall
  repeat' (first
    | with_reducible assumption
    | (with_reducible refine partMod_touches ?_ rfl)
    | with_reducible apply touches_ite)

/-- What `writePartReg` may change. -/
abbrev Mask.writePartReg : Mask :=
  { mgmt := true, parts := true, flows := true, coh := true, stk := true, eng := true, di := true }

theorem writePartReg_touches {path : Path} {o : ℕ} {v : Word} {clk : ℕ} (e : writePartReg s path o v clk = some t)
    (h : Touches M s0 s) (w : Mask.le Mask.writePartReg M = true) : Touches M s0 t := by
  refine h.trans (Touches.mono ?_ w)
  have h0 := Touches.refl Mask.writePartReg s
  clear h w
  unfold writePartReg at e
  try dsimp only at e
  repeat' (first | (cases e; done) | (split at e))
  all_goals (try simp only [Option.some.injEq, Except.ok.injEq, Prod.mk.injEq, Option.map_eq_some_iff] at e)
  all_goals (try casesm* _ ∧ _, ∃ _, _)
  all_goals (try subst_vars)
  all_goals (try (have e2 := congrArg Prod.fst e; have e3 := congrArg Prod.snd e; dsimp only at e2 e3; (try subst e2); (try subst e3)))
  repeat' (first
    | with_reducible assumption
    | (with_reducible refine clearPub_touches ?_ rfl)
    | (with_reducible refine clearStall_touches ?_ rfl)
    | (with_reducible refine ignoreIf_touches (by assumption) ?_ rfl)
    | (with_reducible refine pathMod_touches ?_ rfl)
    | (with_reducible refine startMapOp_touches ?_ rfl)
    | (with_reducible refine writeFlowLimit_touches ?_ rfl)
    | (with_reducible refine writeSq_touches (by assumption) ?_ rfl))

theorem writePart_touches {path : Path} {o : ℕ} {v : Word} {clk : ℕ} (e : writePart s path o v clk = .ok t)
    (h : Touches M s0 s) (w : Mask.le Mask.writePartReg M = true) : Touches M s0 t := by
  refine h.trans (Touches.mono ?_ w)
  have h0 := Touches.refl Mask.writePartReg s
  clear h w
  unfold writePart at e
  try dsimp only at e
  repeat' (first | (cases e; done) | (split at e))
  all_goals (try simp only [Option.some.injEq, Except.ok.injEq, Prod.mk.injEq, Option.map_eq_some_iff] at e)
  all_goals (try casesm* _ ∧ _, ∃ _, _)
  all_goals (try subst_vars)
  all_goals (try (have e2 := congrArg Prod.fst e; have e3 := congrArg Prod.snd e; dsimp only at e2 e3; (try subst e2); (try subst e3)))
  repeat' (first
    | with_reducible assumption
    | (with_reducible refine writePartReg_touches (by assumption) ?_ rfl))

theorem writeEngCtrl_touches {i : ℕ} {physical : Bool} {v : Word} (h : Touches M s0 s)
    (w : Mask.le { eng := true } M = true) : Touches M s0 (writeEngCtrl s i physical v) := by
  refine h.trans (Touches.mono ?_ w)
  have h0 := Touches.refl { eng := true } s
  clear h w
  unfold writeEngCtrl
  repeat' (first
    | with_reducible assumption
    | ((try lift_lets); intro x; first
        | (refine (fun (hx : Touches { eng := true } s x) => ?_) ?_ <;> [clear_value x; (unfold x; clear x)])
        | clear_value x)
    | (with_reducible refine clearEngine_touches ?_ rfl)
    | (with_reducible refine pruneEngine_touches ?_ rfl)
    | (with_reducible refine resumeEngine_touches ?_ rfl)
    | with_reducible apply touches_ite
    | (with_reducible refine touches_foldl ?_ (fun _ _ _ => ?_))
    | (with_reducible refine touches_foldl_fst ?_ (fun _ _ _ => ?_))
    | (with_reducible refine touches_foldl_snd ?_ (fun _ _ _ => ?_))
    | (fail_if_no_progress (with_reducible refine touches_mk ?_ rfl rfl))
    | (split <;> (try (rename_i e1; have e2 := congrArg Prod.fst e1; have e3 := congrArg Prod.snd e1; dsimp only at e2 e3; (try subst e2); (try subst e3)))))

theorem writeEngWin_touches {path : Path} {o : ℕ} {v : Word} (e : writeEngWin s path o v = .ok t)
    (h : Touches M s0 s) (w : Mask.le { eng := true } M = true) : Touches M s0 t := by
  refine h.trans (Touches.mono ?_ w)
  have h0 := Touches.refl { eng := true } s
  clear h w
  unfold writeEngWin at e
  try dsimp only at e
  repeat' (first | (cases e; done) | (split at e))
  all_goals (try simp only [Option.some.injEq, Except.ok.injEq, Prod.mk.injEq, Option.map_eq_some_iff] at e)
  all_goals (try casesm* _ ∧ _, ∃ _, _)
  all_goals (try subst_vars)
  all_goals (try (have e2 := congrArg Prod.fst e; have e3 := congrArg Prod.snd e; dsimp only at e2 e3; (try subst e2); (try subst e3)))
  repeat' (first
    | with_reducible assumption
    | (with_reducible refine writeEngCtrl_touches ?_ rfl))

theorem writeKxCtrl_touches {n : ℕ} {v : Word} (h : Touches M s0 s) (w : Mask.le Mask.injectOn M = true) :
    Touches M s0 (writeKxCtrl s n v) := by
  refine h.trans (Touches.mono ?_ w)
  have h0 := Touches.refl Mask.injectOn s
  clear h w
  unfold writeKxCtrl
  repeat' (first
    | with_reducible assumption
    | (((try lift_lets); intro x); (refine (fun (hx : Touches Mask.injectOn s x) => ?_) ?_ <;> [clear_value x; (unfold x; clear x)]))
    | (with_reducible refine clearPort_touches ?_ rfl)
    | (with_reducible refine freshReset_touches ?_ rfl)
    | (with_reducible refine retrain_touches ?_ rfl)
    | with_reducible apply touches_ite)

theorem writePort_touches {n o : ℕ} {v : Word} (e : writePort s n o v = some t) (h : Touches M s0 s)
    (w : Mask.le Mask.injectOn M = true) : Touches M s0 t := by
  refine h.trans (Touches.mono ?_ w)
  have h0 := Touches.refl Mask.injectOn s
  clear h w
  unfold writePort at e
  try dsimp only at e
  repeat' (first | (cases e; done) | (split at e))
  all_goals (try simp only [Option.some.injEq, Except.ok.injEq, Prod.mk.injEq, Option.map_eq_some_iff] at e)
  all_goals (try casesm* _ ∧ _, ∃ _, _)
  all_goals (try subst_vars)
  all_goals (try (have e2 := congrArg Prod.fst e; have e3 := congrArg Prod.snd e; dsimp only at e2 e3; (try subst e2); (try subst e3)))
  repeat' (first
    | with_reducible assumption
    | (with_reducible refine ignoreIf_touches (by assumption) ?_ rfl)
    | (with_reducible refine portMod_touches ?_ rfl)
    | (with_reducible refine pruneLanes_touches ?_ rfl)
    | (with_reducible refine restoreLanes_touches ?_ rfl)
    | (with_reducible refine writeHold_touches ?_ rfl)
    | (with_reducible refine writeKxCtrl_touches ?_ rfl))

theorem writeStkCtrl_touches {n : ℕ} {v : Word} (h : Touches M s0 s) (w : Mask.le { stk := true } M = true) :
    Touches M s0 (writeStkCtrl s n v) := by
  refine h.trans (Touches.mono ?_ w)
  have h0 := Touches.refl { stk := true } s
  clear h w
  unfold writeStkCtrl
  repeat' (first
    | with_reducible assumption
    | (((try lift_lets); intro x); (refine (fun (hx : Touches { stk := true } s x) => ?_) ?_ <;> [clear_value x; (unfold x; clear x)]))
    | (with_reducible refine clearChan_touches ?_ rfl)
    | (with_reducible refine pruneChan_touches ?_ rfl)
    | (with_reducible refine startGraft_touches ?_ rfl)
    | with_reducible apply touches_ite)

theorem writeChanReg_touches {n o : ℕ} {v : Word} (e : writeChanReg s n o v = some t) (h : Touches M s0 s)
    (w : Mask.le { stk := true } M = true) : Touches M s0 t := by
  refine h.trans (Touches.mono ?_ w)
  have h0 := Touches.refl { stk := true } s
  clear h w
  unfold writeChanReg at e
  try dsimp only at e
  repeat' (first | (cases e; done) | (split at e))
  all_goals (try simp only [Option.some.injEq, Except.ok.injEq, Prod.mk.injEq, Option.map_eq_some_iff] at e)
  all_goals (try casesm* _ ∧ _, ∃ _, _)
  all_goals (try subst_vars)
  all_goals (try (have e2 := congrArg Prod.fst e; have e3 := congrArg Prod.snd e; dsimp only at e2 e3; (try subst e2); (try subst e3)))
  repeat' (first
    | with_reducible assumption
    | (with_reducible refine chanMod_touches ?_ rfl)
    | (with_reducible refine ignoreIf_touches (by assumption) ?_ rfl)
    | (with_reducible refine writeStkCtrl_touches ?_ rfl))

theorem writeChanWin_touches {path : Path} {o : ℕ} {v : Word} (e : writeChanWin s path o v = .ok t)
    (h : Touches M s0 s) (w : Mask.le { stk := true } M = true) : Touches M s0 t := by
  refine h.trans (Touches.mono ?_ w)
  have h0 := Touches.refl { stk := true } s
  clear h w
  unfold writeChanWin at e
  try dsimp only at e
  repeat' (first | (cases e; done) | (split at e))
  all_goals (try simp only [Option.some.injEq, Except.ok.injEq, Prod.mk.injEq, Option.map_eq_some_iff] at e)
  all_goals (try casesm* _ ∧ _, ∃ _, _)
  all_goals (try subst_vars)
  all_goals (try (have e2 := congrArg Prod.fst e; have e3 := congrArg Prod.snd e; dsimp only at e2 e3; (try subst e2); (try subst e3)))
  repeat' (first
    | with_reducible assumption
    | (with_reducible refine writeChanReg_touches (by assumption) ?_ rfl))

theorem stagingStore_touches {off : Nat} {bs : List Byte} (h : Touches M s0 s) (w : Mask.le { staging := true } M = true) :
    Touches M s0 (stagingStore s off bs) := by
  induction bs generalizing off s with
  | nil => exact h
  | cons b bs ih =>
    refine ih (h.trans (Touches.mono (m := { staging := true }) ⟨rfl, fun w => ?_⟩ w))
    simp only [Memory.wf, Bool.and_eq_true] at w ⊢
    exact ⟨⟨w.1.1, tblSet_wf w.1.2⟩, w.2⟩

theorem writeWindow_touches {off : ℕ} {v : Word} (e : writeWindow s off v = .ok t) (h : Touches M s0 s)
    (w : Mask.le { staging := true, mailbox := true } M = true) : Touches M s0 t := by
  refine h.trans (Touches.mono ?_ w)
  have h0 := Touches.refl { staging := true, mailbox := true } s
  clear h w
  unfold writeWindow at e
  try dsimp only at e
  repeat' (first | (cases e; done) | (split at e))
  all_goals (try simp only [Option.some.injEq, Except.ok.injEq, Prod.mk.injEq, Option.map_eq_some_iff] at e)
  all_goals (try casesm* _ ∧ _, ∃ _, _)
  all_goals (try subst_vars)
  all_goals (try (have e2 := congrArg Prod.fst e; have e3 := congrArg Prod.snd e; dsimp only at e2 e3; (try subst e2); (try subst e3)))
  repeat' (first
    | with_reducible assumption
    | (with_reducible refine mailStore_touches ?_ rfl)
    | (with_reducible refine stagingStore_touches ?_ rfl))

/-- What `writeSpace` may change. -/
abbrev Mask.writeSpace : Mask :=
  { mgmt := true, img := true, parts := true, flows := true, td := true, ports := true, fab := true, coh :=
    true, stk := true, fl := true, eng := true, di := true, eth := true, sec := true, twn := true, pwr := true,
    staging := true, mailbox := true, svc := true, out := true, free := true, owners := true }

theorem writeSpace_touches {path : Path} {off : ℕ} {v : Word} {clk : ℕ} (e : writeSpace s path off v clk = .ok t)
    (h : Touches M s0 s) (w : Mask.le Mask.writeSpace M = true) : Touches M s0 t := by
  refine h.trans (Touches.mono ?_ w)
  have h0 := Touches.refl Mask.writeSpace s
  clear h w
  unfold writeSpace at e
  try dsimp only at e
  repeat' (first | (cases e; done) | (split at e))
  all_goals (try simp only [Option.some.injEq, Except.ok.injEq, Prod.mk.injEq, Option.map_eq_some_iff] at e)
  all_goals (try casesm* _ ∧ _, ∃ _, _)
  all_goals (try subst_vars)
  all_goals (try (have e2 := congrArg Prod.fst e; have e3 := congrArg Prod.snd e; dsimp only at e2 e3; (try subst e2); (try subst e3)))
  repeat' (first
    | with_reducible assumption
    | (with_reducible refine ignoreIf_touches (by assumption) ?_ rfl)
    | (with_reducible refine writeChanWin_touches (by assumption) ?_ rfl)
    | (with_reducible refine writeCoh_touches (by assumption) ?_ rfl)
    | (with_reducible refine writeDi_touches (by assumption) ?_ rfl)
    | (with_reducible refine writeEngWin_touches (by assumption) ?_ rfl)
    | (with_reducible refine writeEth_touches (by assumption) ?_ rfl)
    | (with_reducible refine writeFab_touches (by assumption) ?_ rfl)
    | (with_reducible refine writeFl_touches (by assumption) ?_ rfl)
    | (with_reducible refine writeImg_touches (by assumption) ?_ rfl)
    | (with_reducible refine writePart_touches (by assumption) ?_ rfl)
    | (with_reducible refine writePort_touches (by assumption) ?_ rfl)
    | (with_reducible refine writePwr_touches (by assumption) ?_ rfl)
    | (with_reducible refine writeSec_touches (by assumption) ?_ rfl)
    | (with_reducible refine writeSelects_touches (by assumption) ?_ rfl)
    | (with_reducible refine writeStk_touches (by assumption) ?_ rfl)
    | (with_reducible refine writeSys_touches (by assumption) ?_ rfl)
    | (with_reducible refine writeTd_touches (by assumption) ?_ rfl)
    | (with_reducible refine writeTwn_touches (by assumption) ?_ rfl)
    | (with_reducible refine writeWindow_touches (by assumption) ?_ rfl))

/-- What `commitPair` may change. -/
abbrev Mask.commitPair : Mask :=
  { parts := true, stk := true, eth := true }

theorem commitPair_touches {path : Path} {lo : ℕ} {low high : Word} (h : Touches M s0 s)
    (w : Mask.le Mask.commitPair M = true) : Touches M s0 (commitPair s path lo low high) := by
  refine h.trans (Touches.mono ?_ w)
  have h0 := Touches.refl Mask.commitPair s
  clear h w
  unfold commitPair
  repeat' (first
    | with_reducible assumption
    | ((try lift_lets); intro x; first
        | (have _ : Stack := x; dsimp only [x]; clear x)
        | clear_value x)
    | (with_reducible refine writeQpField_touches ?_ rfl)
    | (with_reducible refine writeTail_touches ?_ rfl)
    | with_reducible apply touches_ite
    | (with_reducible refine touches_foldl ?_ (fun _ _ _ => ?_))
    | (with_reducible refine touches_foldl_fst ?_ (fun _ _ _ => ?_))
    | (with_reducible refine touches_foldl_snd ?_ (fun _ _ _ => ?_))
    | (fail_if_no_progress (with_reducible refine touches_mk ?_ rfl rfl))
    | (split <;> (try (rename_i e1; have e2 := congrArg Prod.fst e1; have e3 := congrArg Prod.snd e1; dsimp only at e2 e3; (try subst e2); (try subst e3)))))

theorem writeReg_touches {path : Path} {off width : ℕ} {v : Word} {clk : ℕ} (h : Touches M s0 s)
    (w : Mask.le Mask.writeSpace M = true) : Touches M s0 (writeReg s path off width v clk) := by
  refine h.trans (Touches.mono ?_ w)
  have h0 := Touches.refl Mask.writeSpace s
  clear h w
  unfold writeReg
  repeat' (first
    | with_reducible assumption
    | ((try lift_lets); intro x; first
        | clear_value x)
    | (with_reducible refine commitPair_touches ?_ rfl)
    | (with_reducible refine pathMod_touches ?_ rfl)
    | (with_reducible refine recordErr_touches ?_ rfl)
    | (with_reducible refine writeSpace_touches (by assumption) ?_ rfl)
    | with_reducible apply touches_ite
    | (with_reducible refine touches_foldl ?_ (fun _ _ _ => ?_))
    | (with_reducible refine touches_foldl_fst ?_ (fun _ _ _ => ?_))
    | (with_reducible refine touches_foldl_snd ?_ (fun _ _ _ => ?_))
    | (fail_if_no_progress (with_reducible refine touches_mk ?_ rfl rfl))
    | (split <;> (try (rename_i e1; have e2 := congrArg Prod.fst e1; have e3 := congrArg Prod.snd e1; dsimp only at e2 e3; (try subst e2); (try subst e3)))))

end Sys2Proof.Machine
end

