-- ==== Sys2Proof/Laws/TouchesRegisters.lean ====
section
/-! SUPPORT. What the operations of Machine/Registers.lean may change. -/

namespace Sys2Proof.Machine

variable {M : Mask} {s0 s t : State}

theorem smbTransaction_touches {code : Byte} {count : Nat} {bytes : List Byte} {pec : Option Byte} {f : State → State}
    (h : Touches M s0 s) (w : Mask.le { pwr := true, out := true } M = true) (k : ∀ t, Touches M s0 t → Touches M s0 (f t)) :
    Touches M s0 (smbTransaction s code count bytes pec f) := by
  unfold smbTransaction
  repeat' split
  all_goals first
    | exact wake_touches h (Mask.le_trans rfl w)
    | exact emit_touches h (Mask.le_trans rfl w)
    | exact emit_touches (h.trans (Touches.mono (m := { pwr := true, out := true }) ⟨rfl, id⟩ w)) (Mask.le_trans rfl w)
    | exact k _ h

theorem takeMgmt_touches {x} (e : takeMgmt s = some (x, t)) (h : Touches M s0 s)
    (w : Mask.le { td := true, eth := true } M = true) : Touches M s0 t := by
  refine h.trans (Touches.mono ?_ w)
  have h0 := Touches.refl { td := true, eth := true } s
  clear h w
  unfold takeMgmt at e
  try dsimp only at e
  repeat' (first | (cases e; done) | (split at e))
  all_goals (try simp only [Option.some.injEq, Except.ok.injEq, Prod.mk.injEq, Option.map_eq_some_iff] at e)
  all_goals (try casesm* _ ∧ _, ∃ _, _)
  all_goals (try subst_vars)
  all_goals (try (have e2 := congrArg Prod.fst e; have e3 := congrArg Prod.snd e; dsimp only at e2 e3; (try subst e2); (try subst e3)))
  repeat' (first
    | with_reducible assumption
    | (with_reducible refine noteEthWait_touches ?_ rfl)
    | with_reducible apply touches_ite
    | (with_reducible refine touches_foldl ?_ (fun _ _ _ => ?_))
    | (with_reducible refine touches_foldl_fst ?_ (fun _ _ _ => ?_))
    | (with_reducible refine touches_foldl_snd ?_ (fun _ _ _ => ?_))
    | (fail_if_no_progress (with_reducible refine touches_mk ?_ rfl rfl)))

theorem readWords_touches {clk n off : Nat} (h : Touches M s0 s) (w : Mask.le Mask.readReg M = true) :
    Touches M s0 (readWords clk n s off).1 := by
  induction n generalizing s off with
  | zero => exact h
  | succ n ih =>
    unfold readWords
    exact ih (readReg_touches h (Mask.le_trans rfl w))

theorem writeWords_touches {clk n off : Nat} {bs : List Byte} (h : Touches M s0 s) (w : Mask.le Mask.writeSpace M = true) :
    Touches M s0 (writeWords clk n s off bs) := by
  induction n generalizing s off bs with
  | zero => exact h
  | succ n ih => exact ih (writeReg_touches h (Mask.le_trans rfl w))

/-- What `mgmtRead` may change. -/
abbrev Mask.mgmtRead : Mask :=
  { mgmt := true, parts := true, coh := true, stk := true, eng := true, di := true, eth := true, sec := true,
    out := true }

theorem mgmtRead_touches {clk : ℕ} {again : Bool} {p : RocePacket} (h : Touches M s0 s)
    (w : Mask.le Mask.mgmtRead M = true) : Touches M s0 (mgmtRead s clk again p) := by
  refine h.trans (Touches.mono ?_ w)
  have h0 := Touches.refl Mask.mgmtRead s
  clear h w
  unfold mgmtRead
  repeat' (first
    | with_reducible assumption
    | ((try lift_lets); intro x; first
        | clear_value x)
    | (with_reducible refine fatalNak_touches ?_ rfl)
    | (with_reducible refine qpMod_touches ?_ rfl)
    | (with_reducible refine readWords_touches ?_ rfl)
    | (with_reducible refine sendRoce_touches ?_ rfl)
    | with_reducible apply touches_ite
    | (with_reducible refine touches_foldl ?_ (fun _ _ _ => ?_)))

theorem mgmtWrite_touches {clk : ℕ} {key : List Byte} {p : RocePacket} (h : Touches M s0 s)
    (w : Mask.le Mask.writeSpace M = true) : Touches M s0 (mgmtWrite s clk key p) := by
  refine h.trans (Touches.mono ?_ w)
  have h0 := Touches.refl Mask.writeSpace s
  clear h w
  unfold mgmtWrite
  repeat' (first
    | with_reducible assumption
    | ((try lift_lets); intro x; first
        | (refine (fun (hx : Touches Mask.writeSpace s x) => ?_) ?_ <;> [clear_value x; (unfold x; clear x)])
        | clear_value x)
    | (with_reducible refine fatalNak_touches ?_ rfl)
    | (with_reducible refine qpMod_touches ?_ rfl)
    | (with_reducible refine roceBadTag_touches ?_ rfl)
    | (with_reducible refine sendRoce_touches ?_ rfl)
    | (with_reducible refine writeWords_touches ?_ rfl)
    | with_reducible apply touches_ite
    | (with_reducible refine touches_foldl ?_ (fun _ _ _ => ?_))
    | (with_reducible refine touches_foldl_fst ?_ (fun _ _ _ => ?_))
    | (with_reducible refine touches_foldl_snd ?_ (fun _ _ _ => ?_))
    | (fail_if_no_progress (with_reducible refine touches_mk ?_ rfl rfl))
    | (split <;> (try (rename_i e1; have e2 := congrArg Prod.fst e1; have e3 := congrArg Prod.snd e1; dsimp only at e2 e3; (try subst e2); (try subst e3)))))

theorem mgmtPacket_touches {clk : ℕ} {p : RocePacket} (h : Touches M s0 s) (w : Mask.le Mask.writeSpace M = true) :
    Touches M s0 (mgmtPacket s clk p) := by
  refine h.trans (Touches.mono ?_ w)
  have h0 := Touches.refl Mask.writeSpace s
  clear h w
  unfold mgmtPacket
  repeat' (first
    | with_reducible assumption
    | ((try lift_lets); intro x; first
        | clear_value x)
    | (with_reducible refine fatalNak_touches ?_ rfl)
    | (with_reducible refine mgmtRead_touches ?_ rfl)
    | (with_reducible refine mgmtWrite_touches ?_ rfl)
    | (with_reducible refine sendRoce_touches ?_ rfl)
    | (with_reducible refine seqNak_touches ?_ rfl)
    | with_reducible apply touches_ite
    | (with_reducible refine touches_foldl ?_ (fun _ _ _ => ?_))
    | (with_reducible refine touches_foldl_fst ?_ (fun _ _ _ => ?_))
    | (with_reducible refine touches_foldl_snd ?_ (fun _ _ _ => ?_))
    | (fail_if_no_progress (with_reducible refine touches_mk ?_ rfl rfl))
    | (split <;> (try (rename_i e1; have e2 := congrArg Prod.fst e1; have e3 := congrArg Prod.snd e1; dsimp only at e2 e3; (try subst e2); (try subst e3)))))

end Sys2Proof.Machine
end

