-- ==== Sys2Proof/Laws/Frames.lean ====
section
/-! SUPPORT. The frame of each command: one lemma a constructor of `Instr`, that its meaning changes nothing outside
`mayTouch`. -/

set_option maxRecDepth 2000

namespace Sys2Proof.Machine

variable {M : Mask} {s0 s t : State}

/-- Whatever next state the outcome answers, nothing outside the mask changes on the way to it. -/
def OutTouches (m : Mask) (s : State) (o : Host.Outcome State Fault Refusal) : Prop :=
  ∀ t, o = .next t → Touches m s t

theorem out_next {m : Mask} (h : Touches m s t) : OutTouches m s (.next t) := by
  intro u e
  cases e
  exact h

theorem out_ite {m : Mask} {p : Prop} [Decidable p] {a b : Host.Outcome State Fault Refusal} (ha : OutTouches m s a)
    (hb : OutTouches m s b) : OutTouches m s (if p then a else b) := by
  split <;> assumption

theorem frame_registerWrite {y0 y1 y2 y3 y4} :
    OutTouches (mayTouch (.registerWrite y0 y1 y2 y3 y4)) s (exec (.registerWrite y0 y1 y2 y3 y4) s) := by
  show OutTouches (mayTouch (.registerWrite y0 y1 y2 y3 y4)) s (execRegisterWrite y0 y1 y2 y3 y4 s)
  have h0 := Touches.refl (mayTouch (.registerWrite y0 y1 y2 y3 y4)) s
  unfold execRegisterWrite
  repeat' (first
    | with_reducible assumption
    | (with_reducible refine out_next ?_)
    | (with_reducible apply out_ite)
    | (with_reducible refine seenClk_touches ?_ rfl)
    | (with_reducible refine writeReg_touches ?_ rfl))

theorem frame_readLoLatch {y0 y1 y2 y3} :
    OutTouches (mayTouch (.readLoLatch y0 y1 y2 y3)) s (exec (.readLoLatch y0 y1 y2 y3) s) := by
  show OutTouches (mayTouch (.readLoLatch y0 y1 y2 y3)) s (execReadLoLatch y0 y1 y2 y3 s)
  have h0 := Touches.refl (mayTouch (.readLoLatch y0 y1 y2 y3)) s
  unfold execReadLoLatch
  repeat' (first
    | with_reducible assumption
    | (with_reducible refine out_next ?_)
    | (with_reducible apply out_ite)
    | (with_reducible refine seenClk_touches ?_ rfl)
    | (with_reducible refine readReg_touches ?_ rfl))

theorem frame_writeLoHeld {y0 y1 y2} :
    OutTouches (mayTouch (.writeLoHeld y0 y1 y2)) s (exec (.writeLoHeld y0 y1 y2) s) := by
  show OutTouches (mayTouch (.writeLoHeld y0 y1 y2)) s (execWriteLoHeld y0 y1 y2 s)
  have h0 := Touches.refl (mayTouch (.writeLoHeld y0 y1 y2)) s
  unfold execWriteLoHeld
  repeat' (first
    | with_reducible assumption
    | (with_reducible refine out_next ?_)
    | (with_reducible apply out_ite)
    | (with_reducible refine writeReg_touches ?_ rfl)
    | with_reducible apply touches_ite)

theorem frame_writeHiCommit {y0 y1 y2 y3} :
    OutTouches (mayTouch (.writeHiCommit y0 y1 y2 y3)) s (exec (.writeHiCommit y0 y1 y2 y3) s) := by
  show OutTouches (mayTouch (.writeHiCommit y0 y1 y2 y3)) s (execWriteHiCommit y0 y1 y2 y3 s)
  have h0 := Touches.refl (mayTouch (.writeHiCommit y0 y1 y2 y3)) s
  unfold execWriteHiCommit
  repeat' (first
    | with_reducible assumption
    | (with_reducible refine out_next ?_)
    | (with_reducible apply out_ite)
    | (with_reducible refine seenClk_touches ?_ rfl)
    | (with_reducible refine writeReg_touches ?_ rfl)
    | with_reducible apply touches_ite)

theorem frame_engSelWrite {y0 y1} : OutTouches (mayTouch (.engSelWrite y0 y1)) s (exec (.engSelWrite y0 y1) s) := by
  show OutTouches (mayTouch (.engSelWrite y0 y1)) s (execEngSelWrite y0 y1 s)
  have h0 := Touches.refl (mayTouch (.engSelWrite y0 y1)) s
  unfold execEngSelWrite
  repeat' (first
    | with_reducible assumption
    | (with_reducible refine out_next ?_)
    | (with_reducible apply out_ite)
    | (with_reducible refine writeReg_touches ?_ rfl))

theorem frame_commandPartEnd {y0 y1 y2} :
    OutTouches (mayTouch (.commandPartEnd y0 y1 y2)) s (exec (.commandPartEnd y0 y1 y2) s) := by
  show OutTouches (mayTouch (.commandPartEnd y0 y1 y2)) s (execCommandPartEnd y0 y1 y2 s)
  have h0 := Touches.refl (mayTouch (.commandPartEnd y0 y1 y2)) s
  unfold execCommandPartEnd
  repeat' (first
    | with_reducible assumption
    | ((try lift_lets); intro x; first
        | (refine (fun (hx : Touches (mayTouch (.commandPartEnd y0 y1 y2)) s x) => ?_) ?_ <;> [clear_value x; (unfold x; clear x)])
        | clear_value x)
    | (with_reducible refine out_next ?_)
    | (with_reducible apply out_ite)
    | (with_reducible refine cmdMod_touches ?_ rfl)
    | (with_reducible refine finishIfDone_touches ?_ rfl)
    | (with_reducible refine endPart_touches ?_ rfl)
    | with_reducible apply touches_ite
    | (with_reducible refine touches_foldl ?_ (fun _ _ _ => ?_))
    | (with_reducible refine touches_foldl_fst ?_ (fun _ _ _ => ?_))
    | (with_reducible refine touches_foldl_snd ?_ (fun _ _ _ => ?_))
    | (fail_if_no_progress (with_reducible refine touches_mk ?_ rfl rfl))
    | (split <;> (try (rename_i e1; have e2 := congrArg Prod.fst e1; have e3 := congrArg Prod.snd e1; dsimp only at e2 e3; (try subst e2); (try subst e3)))))

theorem frame_imageGo {y0} : OutTouches (mayTouch (.imageGo y0)) s (exec (.imageGo y0) s) := by
  show OutTouches (mayTouch (.imageGo y0)) s (execImageGo y0 s)
  have h0 := Touches.refl (mayTouch (.imageGo y0)) s
  unfold execImageGo
  repeat' (first
    | with_reducible assumption
    | (with_reducible refine out_next ?_)
    | (with_reducible apply out_ite)
    | (with_reducible refine seenClk_touches ?_ rfl)
    | (with_reducible refine imageGo_touches ?_ rfl))

theorem frame_imageAbort : OutTouches (mayTouch (.imageAbort)) s (exec (.imageAbort) s) := by
  show OutTouches (mayTouch (.imageAbort)) s (execImageAbort s)
  have h0 := Touches.refl (mayTouch (.imageAbort)) s
  unfold execImageAbort
  repeat' (first
    | with_reducible assumption
    | (with_reducible refine out_next ?_)
    | (with_reducible apply out_ite)
    | (with_reducible refine imageAbort_touches ?_ rfl))

theorem frame_imageFloor : OutTouches (mayTouch (.imageFloor)) s (exec (.imageFloor) s) := by
  show OutTouches (mayTouch (.imageFloor)) s (execImageFloor s)
  have h0 := Touches.refl (mayTouch (.imageFloor)) s
  unfold execImageFloor
  repeat' (first
    | with_reducible assumption
    | (with_reducible refine out_next ?_)
    | (with_reducible apply out_ite)
    | (with_reducible refine imageFloor_touches ?_ rfl))

theorem frame_imageVerifyDone {y0} : OutTouches (mayTouch (.imageVerifyDone y0)) s (exec (.imageVerifyDone y0) s) := by
  show OutTouches (mayTouch (.imageVerifyDone y0)) s (execImageVerifyDone y0 s)
  have h0 := Touches.refl (mayTouch (.imageVerifyDone y0)) s
  unfold execImageVerifyDone
  repeat' (first
    | with_reducible assumption
    | ((try lift_lets); intro x; first
        | (refine (fun (hx : Touches (mayTouch (.imageVerifyDone y0)) s x) => ?_) ?_ <;> [clear_value x; (unfold x; clear x)])
        | clear_value x)
    | (with_reducible refine out_next ?_)
    | (with_reducible apply out_ite)
    | (with_reducible refine seenClk_touches ?_ rfl)
    | (with_reducible refine loadFailed_touches ?_ rfl)
    | (with_reducible refine beginDrain_touches ?_ rfl)
    | with_reducible apply touches_ite
    | (with_reducible refine touches_foldl ?_ (fun _ _ _ => ?_))
    | (with_reducible refine touches_foldl_fst ?_ (fun _ _ _ => ?_))
    | (with_reducible refine touches_foldl_snd ?_ (fun _ _ _ => ?_))
    | (fail_if_no_progress (with_reducible refine touches_mk ?_ rfl rfl))
    | (split <;> (try (rename_i e1; have e2 := congrArg Prod.fst e1; have e3 := congrArg Prod.snd e1; dsimp only at e2 e3; (try subst e2); (try subst e3)))))

theorem frame_partitionDrainDone {y0} :
    OutTouches (mayTouch (.partitionDrainDone y0)) s (exec (.partitionDrainDone y0) s) := by
  show OutTouches (mayTouch (.partitionDrainDone y0)) s (execPartitionDrainDone y0 s)
  have h0 := Touches.refl (mayTouch (.partitionDrainDone y0)) s
  unfold execPartitionDrainDone
  repeat' (first
    | with_reducible assumption
    | ((try lift_lets); intro x; first
        | (refine (fun (hx : Touches (mayTouch (.partitionDrainDone y0)) s x) => ?_) ?_ <;> [clear_value x; (unfold x; clear x)])
        | clear_value x)
    | (with_reducible refine out_next ?_)
    | (with_reducible apply out_ite)
    | (with_reducible refine afterDrain_touches ?_ rfl))

theorem frame_drainTimeout {y0} : OutTouches (mayTouch (.drainTimeout y0)) s (exec (.drainTimeout y0) s) := by
  show OutTouches (mayTouch (.drainTimeout y0)) s (execDrainTimeout y0 s)
  have h0 := Touches.refl (mayTouch (.drainTimeout y0)) s
  unfold execDrainTimeout
  repeat' (first
    | with_reducible assumption
    | ((try lift_lets); intro x; first
        | (refine (fun (hx : Touches (mayTouch (.drainTimeout y0)) s x) => ?_) ?_ <;> [clear_value x; (unfold x; clear x)])
        | clear_value x)
    | (with_reducible refine out_next ?_)
    | (with_reducible apply out_ite)
    | (with_reducible refine settle_touches ?_ rfl)
    | (with_reducible refine endService_touches ?_ rfl))

theorem frame_partitionFillDone {y0} :
    OutTouches (mayTouch (.partitionFillDone y0)) s (exec (.partitionFillDone y0) s) := by
  show OutTouches (mayTouch (.partitionFillDone y0)) s (execPartitionFillDone y0 s)
  have h0 := Touches.refl (mayTouch (.partitionFillDone y0)) s
  unfold execPartitionFillDone
  repeat' (first
    | with_reducible assumption
    | ((try lift_lets); intro x; first
        | (refine (fun (hx : Touches (mayTouch (.partitionFillDone y0)) s x) => ?_) ?_ <;> [clear_value x; (unfold x; clear x)])
        | clear_value x)
    | (with_reducible refine out_next ?_)
    | (with_reducible apply out_ite)
    | (with_reducible refine applyPartition_touches ?_ rfl)
    | with_reducible apply touches_ite
    | (with_reducible refine touches_foldl ?_ (fun _ _ _ => ?_))
    | (with_reducible refine touches_foldl_fst ?_ (fun _ _ _ => ?_))
    | (with_reducible refine touches_foldl_snd ?_ (fun _ _ _ => ?_))
    | (fail_if_no_progress (with_reducible refine touches_mk ?_ rfl rfl))
    | (split <;> (try (rename_i e1; have e2 := congrArg Prod.fst e1; have e3 := congrArg Prod.snd e1; dsimp only at e2 e3; (try subst e2); (try subst e3)))))

theorem frame_wholeDeviceFillDone : OutTouches (mayTouch (.wholeDeviceFillDone)) s (exec (.wholeDeviceFillDone) s) := by
  show OutTouches (mayTouch (.wholeDeviceFillDone)) s (execWholeDeviceFillDone s)
  have h0 := Touches.refl (mayTouch (.wholeDeviceFillDone)) s
  unfold execWholeDeviceFillDone
  repeat' (first
    | with_reducible assumption
    | ((try lift_lets); intro x; first
        | (refine (fun (hx : Touches (mayTouch (.wholeDeviceFillDone)) s x) => ?_) ?_ <;> [clear_value x; (unfold x; clear x)])
        | clear_value x)
    | (with_reducible refine out_next ?_)
    | (with_reducible apply out_ite)
    | (with_reducible refine restart_touches ?_ rfl)
    | (with_reducible refine layImage_touches ?_ rfl)
    | (with_reducible refine fillDevice_touches ?_ rfl)
    | with_reducible apply touches_ite
    | (with_reducible refine touches_foldl ?_ (fun _ _ _ => ?_))
    | (with_reducible refine touches_foldl_fst ?_ (fun _ _ _ => ?_))
    | (with_reducible refine touches_foldl_snd ?_ (fun _ _ _ => ?_))
    | (fail_if_no_progress (with_reducible refine touches_mk ?_ rfl rfl))
    | (split <;> (try (rename_i e1; have e2 := congrArg Prod.fst e1; have e3 := congrArg Prod.snd e1; dsimp only at e2 e3; (try subst e2); (try subst e3)))))

theorem frame_frmSyncEdge {y0} : OutTouches (mayTouch (.frmSyncEdge y0)) s (exec (.frmSyncEdge y0) s) := by
  show OutTouches (mayTouch (.frmSyncEdge y0)) s (execFrmSyncEdge y0 s)
  have h0 := Touches.refl (mayTouch (.frmSyncEdge y0)) s
  unfold execFrmSyncEdge
  dsimp only
  repeat' (first
    | with_reducible assumption
    | (with_reducible refine out_next ?_)
    | (with_reducible apply out_ite)
    | (with_reducible refine seenClk_touches ?_ rfl)
    | with_reducible apply touches_ite
    | (with_reducible refine touches_foldl ?_ (fun _ _ _ => ?_))
    | (with_reducible refine touches_foldl_fst ?_ (fun _ _ _ => ?_))
    | (with_reducible refine touches_foldl_snd ?_ (fun _ _ _ => ?_))
    | (fail_if_no_progress (with_reducible refine touches_mk ?_ rfl rfl)))

theorem frame_frameTick {y0 y1} : OutTouches (mayTouch (.frameTick y0 y1)) s (exec (.frameTick y0 y1) s) := by
  show OutTouches (mayTouch (.frameTick y0 y1)) s (execFrameTick y0 y1 s)
  have h0 := Touches.refl (mayTouch (.frameTick y0 y1)) s
  unfold execFrameTick
  repeat' (first
    | with_reducible assumption
    | (with_reducible refine out_next ?_)
    | (with_reducible apply out_ite)
    | (with_reducible refine tick_touches ?_ rfl))

theorem frame_relock : OutTouches (mayTouch (.relock)) s (exec (.relock) s) := by
  show OutTouches (mayTouch (.relock)) s (execRelock s)
  have h0 := Touches.refl (mayTouch (.relock)) s
  unfold execRelock
  repeat' (first
    | with_reducible assumption
    | (with_reducible refine out_next ?_)
    | (with_reducible apply out_ite)
    | (with_reducible refine relock_touches ?_ rfl))

theorem frame_freerunWrite {y0} : OutTouches (mayTouch (.freerunWrite y0)) s (exec (.freerunWrite y0) s) := by
  show OutTouches (mayTouch (.freerunWrite y0)) s (execFreerunWrite y0 s)
  have h0 := Touches.refl (mayTouch (.freerunWrite y0)) s
  unfold execFreerunWrite
  repeat' (first
    | with_reducible assumption
    | (with_reducible refine out_next ?_)
    | (with_reducible apply out_ite)
    | (with_reducible refine writeFreerun_touches ?_ rfl))

theorem frame_syncErrClear : OutTouches (mayTouch (.syncErrClear)) s (exec (.syncErrClear) s) := by
  show OutTouches (mayTouch (.syncErrClear)) s (execSyncErrClear s)
  have h0 := Touches.refl (mayTouch (.syncErrClear)) s
  unfold execSyncErrClear
  repeat' (first
    | with_reducible assumption
    | (with_reducible refine out_next ?_)
    | (with_reducible apply out_ite)
    | (with_reducible refine clearSyncErr_touches ?_ rfl))

theorem frame_requestArrival {y0} : OutTouches (mayTouch (.requestArrival y0)) s (exec (.requestArrival y0) s) := by
  show OutTouches (mayTouch (.requestArrival y0)) s (execRequestArrival y0 s)
  have h0 := Touches.refl (mayTouch (.requestArrival y0)) s
  unfold execRequestArrival
  repeat' (first
    | with_reducible assumption
    | ((try lift_lets); intro x; first
        | (refine (fun (hx : Touches (mayTouch (.requestArrival y0)) s x) => ?_) ?_ <;> [clear_value x; (unfold x; clear x)])
        | clear_value x)
    | (with_reducible refine out_next ?_)
    | (with_reducible apply out_ite)
    | (with_reducible refine seenClk_touches ?_ rfl)
    | (with_reducible refine arrive_touches ?_ rfl)
    | with_reducible apply touches_ite
    | (with_reducible refine touches_foldl ?_ (fun _ _ _ => ?_))
    | (with_reducible refine touches_foldl_fst ?_ (fun _ _ _ => ?_))
    | (with_reducible refine touches_foldl_snd ?_ (fun _ _ _ => ?_))
    | (fail_if_no_progress (with_reducible refine touches_mk ?_ rfl rfl))
    | (split <;> (try (rename_i e1; have e2 := congrArg Prod.fst e1; have e3 := congrArg Prod.snd e1; dsimp only at e2 e3; (try subst e2); (try subst e3)))))

theorem frame_flowAdmit {y0 y1} : OutTouches (mayTouch (.flowAdmit y0 y1)) s (exec (.flowAdmit y0 y1) s) := by
  show OutTouches (mayTouch (.flowAdmit y0 y1)) s (execFlowAdmit y0 y1 s)
  have h0 := Touches.refl (mayTouch (.flowAdmit y0 y1)) s
  unfold execFlowAdmit
  repeat' (first
    | with_reducible assumption
    | ((try lift_lets); intro x; first
        | (refine (fun (hx : Touches (mayTouch (.flowAdmit y0 y1)) s x) => ?_) ?_ <;> [clear_value x; (unfold x; clear x)])
        | clear_value x)
    | (with_reducible refine out_next ?_)
    | (with_reducible apply out_ite)
    | (with_reducible refine seenClk_touches ?_ rfl)
    | (with_reducible refine admitHead_touches ?_ rfl))

theorem frame_redRemeter {y0} : OutTouches (mayTouch (.redRemeter y0)) s (exec (.redRemeter y0) s) := by
  show OutTouches (mayTouch (.redRemeter y0)) s (execRedRemeter y0 s)
  have h0 := Touches.refl (mayTouch (.redRemeter y0)) s
  unfold execRedRemeter
  repeat' (first
    | with_reducible assumption
    | ((try lift_lets); intro x; first
        | (refine (fun (hx : Touches (mayTouch (.redRemeter y0)) s x) => ?_) ?_ <;> [clear_value x; (unfold x; clear x)])
        | clear_value x)
    | (with_reducible refine out_next ?_)
    | (with_reducible apply out_ite)
    | (with_reducible refine remeterFlow_touches ?_ rfl))

theorem frame_wheelRelease {y0} : OutTouches (mayTouch (.wheelRelease y0)) s (exec (.wheelRelease y0) s) := by
  show OutTouches (mayTouch (.wheelRelease y0)) s (execWheelRelease y0 s)
  have h0 := Touches.refl (mayTouch (.wheelRelease y0)) s
  unfold execWheelRelease
  repeat' (first
    | with_reducible assumption
    | ((try lift_lets); intro x; first
        | (refine (fun (hx : Touches (mayTouch (.wheelRelease y0)) s x) => ?_) ?_ <;> [clear_value x; (unfold x; clear x)])
        | clear_value x)
    | (with_reducible refine out_next ?_)
    | (with_reducible apply out_ite)
    | (with_reducible refine flowMod_touches ?_ rfl)
    | (with_reducible refine seenClk_touches ?_ rfl)
    | (with_reducible refine placeFlow_touches ?_ rfl)
    | with_reducible apply touches_ite
    | (with_reducible refine touches_foldl ?_ (fun _ _ _ => ?_))
    | (with_reducible refine touches_foldl_fst ?_ (fun _ _ _ => ?_))
    | (with_reducible refine touches_foldl_snd ?_ (fun _ _ _ => ?_))
    | (fail_if_no_progress (with_reducible refine touches_mk ?_ rfl rfl))
    | (split <;> (try (rename_i e1; have e2 := congrArg Prod.fst e1; have e3 := congrArg Prod.snd e1; dsimp only at e2 e3; (try subst e2); (try subst e3)))))

theorem frame_gateWindowOpen {y0 y1} :
    OutTouches (mayTouch (.gateWindowOpen y0 y1)) s (exec (.gateWindowOpen y0 y1) s) := by
  show OutTouches (mayTouch (.gateWindowOpen y0 y1)) s (execGateWindowOpen y0 y1 s)
  have h0 := Touches.refl (mayTouch (.gateWindowOpen y0 y1)) s
  unfold execGateWindowOpen
  repeat' (first
    | with_reducible assumption
    | ((try lift_lets); intro x; first
        | (refine (fun (hx : Touches (mayTouch (.gateWindowOpen y0 y1)) s x) => ?_) ?_ <;> [clear_value x; (unfold x; clear x)])
        | clear_value x)
    | (with_reducible refine out_next ?_)
    | (with_reducible apply out_ite)
    | (with_reducible refine flowMod_touches ?_ rfl)
    | (with_reducible refine seenClk_touches ?_ rfl)
    | (with_reducible refine placeFlow_touches ?_ rfl))

theorem frame_flowLimitWrite {y0 y1} :
    OutTouches (mayTouch (.flowLimitWrite y0 y1)) s (exec (.flowLimitWrite y0 y1) s) := by
  show OutTouches (mayTouch (.flowLimitWrite y0 y1)) s (execFlowLimitWrite y0 y1 s)
  have h0 := Touches.refl (mayTouch (.flowLimitWrite y0 y1)) s
  unfold execFlowLimitWrite
  repeat' (first
    | with_reducible assumption
    | (with_reducible refine out_next ?_)
    | (with_reducible apply out_ite)
    | (with_reducible refine writeFlowLimit_touches ?_ rfl))

theorem frame_fecBlockReceive {y0 y1 y2} :
    OutTouches (mayTouch (.fecBlockReceive y0 y1 y2)) s (exec (.fecBlockReceive y0 y1 y2) s) := by
  show OutTouches (mayTouch (.fecBlockReceive y0 y1 y2)) s (execFecBlockReceive y0 y1 y2 s)
  have h0 := Touches.refl (mayTouch (.fecBlockReceive y0 y1 y2)) s
  unfold execFecBlockReceive
  repeat' (first
    | with_reducible assumption
    | (with_reducible refine out_next ?_)
    | (with_reducible apply out_ite)
    | (with_reducible refine seenClk_touches ?_ rfl)
    | (with_reducible refine receiveBlock_touches ?_ rfl))

theorem frame_flitSend {y0 y1} : OutTouches (mayTouch (.flitSend y0 y1)) s (exec (.flitSend y0 y1) s) := by
  show OutTouches (mayTouch (.flitSend y0 y1)) s (execFlitSend y0 y1 s)
  have h0 := Touches.refl (mayTouch (.flitSend y0 y1)) s
  unfold execFlitSend
  repeat' (first
    | with_reducible assumption
    | (with_reducible refine out_next ?_)
    | (with_reducible apply out_ite)
    | (with_reducible refine seenClk_touches ?_ rfl)
    | (with_reducible refine sendSlot_touches ?_ rfl))

theorem frame_replayTimeout {y0 y1} :
    OutTouches (mayTouch (.replayTimeout y0 y1)) s (exec (.replayTimeout y0 y1) s) := by
  show OutTouches (mayTouch (.replayTimeout y0 y1)) s (execReplayTimeout y0 y1 s)
  have h0 := Touches.refl (mayTouch (.replayTimeout y0 y1)) s
  unfold execReplayTimeout
  repeat' (first
    | with_reducible assumption
    | ((try lift_lets); intro x; first
        | (refine (fun (hx : Touches (mayTouch (.replayTimeout y0 y1)) s x) => ?_) ?_ <;> [clear_value x; (unfold x; clear x)])
        | clear_value x)
    | (with_reducible refine out_next ?_)
    | (with_reducible apply out_ite)
    | (with_reducible refine portSet_touches ?_ rfl)
    | (with_reducible refine seenClk_touches ?_ rfl)
    | (with_reducible refine resetFor_touches ?_ rfl)
    | with_reducible apply touches_ite
    | (with_reducible refine touches_foldl ?_ (fun _ _ _ => ?_))
    | (with_reducible refine touches_foldl_fst ?_ (fun _ _ _ => ?_))
    | (with_reducible refine touches_foldl_snd ?_ (fun _ _ _ => ?_))
    | (fail_if_no_progress (with_reducible refine touches_mk ?_ rfl rfl))
    | (split <;> (try (rename_i e1; have e2 := congrArg Prod.fst e1; have e3 := congrArg Prod.snd e1; dsimp only at e2 e3; (try subst e2); (try subst e3)))))

theorem frame_creditTimeout {y0 y1} :
    OutTouches (mayTouch (.creditTimeout y0 y1)) s (exec (.creditTimeout y0 y1) s) := by
  show OutTouches (mayTouch (.creditTimeout y0 y1)) s (execCreditTimeout y0 y1 s)
  have h0 := Touches.refl (mayTouch (.creditTimeout y0 y1)) s
  unfold execCreditTimeout
  repeat' (first
    | with_reducible assumption
    | ((try lift_lets); intro x; first
        | (refine (fun (hx : Touches (mayTouch (.creditTimeout y0 y1)) s x) => ?_) ?_ <;> [clear_value x; (unfold x; clear x)])
        | clear_value x)
    | (with_reducible refine out_next ?_)
    | (with_reducible apply out_ite)
    | (with_reducible refine portCnt_touches ?_ rfl)
    | (with_reducible refine resetFor_touches ?_ rfl))

theorem frame_trainEnd {y0 y1} : OutTouches (mayTouch (.trainEnd y0 y1)) s (exec (.trainEnd y0 y1) s) := by
  show OutTouches (mayTouch (.trainEnd y0 y1)) s (execTrainEnd y0 y1 s)
  have h0 := Touches.refl (mayTouch (.trainEnd y0 y1)) s
  unfold execTrainEnd
  repeat' (first
    | with_reducible assumption
    | ((try lift_lets); intro x; first
        | (refine (fun (hx : Touches (mayTouch (.trainEnd y0 y1)) s x) => ?_) ?_ <;> [clear_value x; (unfold x; clear x)])
        | clear_value x)
    | (with_reducible refine out_next ?_)
    | (with_reducible apply out_ite)
    | (with_reducible refine portMod_touches ?_ rfl)
    | (with_reducible refine seenClk_touches ?_ rfl)
    | (with_reducible refine resetFailed_touches ?_ rfl))

theorem frame_initReceive {y0 y1} : OutTouches (mayTouch (.initReceive y0 y1)) s (exec (.initReceive y0 y1) s) := by
  show OutTouches (mayTouch (.initReceive y0 y1)) s (execInitReceive y0 y1 s)
  have h0 := Touches.refl (mayTouch (.initReceive y0 y1)) s
  unfold execInitReceive
  repeat' (first
    | with_reducible assumption
    | (with_reducible refine out_next ?_)
    | (with_reducible apply out_ite)
    | (with_reducible refine receiveInit_touches ?_ rfl))

theorem frame_linkResetTimeout {y0} :
    OutTouches (mayTouch (.linkResetTimeout y0)) s (exec (.linkResetTimeout y0) s) := by
  show OutTouches (mayTouch (.linkResetTimeout y0)) s (execLinkResetTimeout y0 s)
  have h0 := Touches.refl (mayTouch (.linkResetTimeout y0)) s
  unfold execLinkResetTimeout
  repeat' (first
    | with_reducible assumption
    | ((try lift_lets); intro x; first
        | (refine (fun (hx : Touches (mayTouch (.linkResetTimeout y0)) s x) => ?_) ?_ <;> [clear_value x; (unfold x; clear x)])
        | clear_value x)
    | (with_reducible refine out_next ?_)
    | (with_reducible apply out_ite)
    | (with_reducible refine resetFailed_touches ?_ rfl))

theorem frame_laneLossOfLock {y0 y1} :
    OutTouches (mayTouch (.laneLossOfLock y0 y1)) s (exec (.laneLossOfLock y0 y1) s) := by
  show OutTouches (mayTouch (.laneLossOfLock y0 y1)) s (execLaneLossOfLock y0 y1 s)
  have h0 := Touches.refl (mayTouch (.laneLossOfLock y0 y1)) s
  unfold execLaneLossOfLock
  repeat' (first
    | with_reducible assumption
    | (with_reducible refine out_next ?_)
    | (with_reducible apply out_ite)
    | (with_reducible refine portMod_touches ?_ rfl)
    | (with_reducible refine resetFor_touches ?_ rfl))

theorem frame_kxRetrain {y0} : OutTouches (mayTouch (.kxRetrain y0)) s (exec (.kxRetrain y0) s) := by
  show OutTouches (mayTouch (.kxRetrain y0)) s (execKxRetrain y0 s)
  have h0 := Touches.refl (mayTouch (.kxRetrain y0)) s
  unfold execKxRetrain
  repeat' (first
    | with_reducible assumption
    | (with_reducible refine out_next ?_)
    | (with_reducible apply out_ite)
    | (with_reducible refine retrain_touches ?_ rfl))

theorem frame_kxFresh {y0} : OutTouches (mayTouch (.kxFresh y0)) s (exec (.kxFresh y0) s) := by
  show OutTouches (mayTouch (.kxFresh y0)) s (execKxFresh y0 s)
  have h0 := Touches.refl (mayTouch (.kxFresh y0)) s
  unfold execKxFresh
  repeat' (first
    | with_reducible assumption
    | (with_reducible refine out_next ?_)
    | (with_reducible apply out_ite)
    | (with_reducible refine freshReset_touches ?_ rfl))

theorem frame_kxClear {y0} : OutTouches (mayTouch (.kxClear y0)) s (exec (.kxClear y0) s) := by
  show OutTouches (mayTouch (.kxClear y0)) s (execKxClear y0 s)
  have h0 := Touches.refl (mayTouch (.kxClear y0)) s
  unfold execKxClear
  repeat' (first
    | with_reducible assumption
    | (with_reducible refine out_next ?_)
    | (with_reducible apply out_ite)
    | (with_reducible refine clearPort_touches ?_ rfl))

theorem frame_kxHoldWrite {y0 y1} : OutTouches (mayTouch (.kxHoldWrite y0 y1)) s (exec (.kxHoldWrite y0 y1) s) := by
  show OutTouches (mayTouch (.kxHoldWrite y0 y1)) s (execKxHoldWrite y0 y1 s)
  have h0 := Touches.refl (mayTouch (.kxHoldWrite y0 y1)) s
  unfold execKxHoldWrite
  repeat' (first
    | with_reducible assumption
    | (with_reducible refine out_next ?_)
    | (with_reducible apply out_ite)
    | (with_reducible refine writeHold_touches ?_ rfl))

theorem frame_kxLanePrune {y0 y1} : OutTouches (mayTouch (.kxLanePrune y0 y1)) s (exec (.kxLanePrune y0 y1) s) := by
  show OutTouches (mayTouch (.kxLanePrune y0 y1)) s (execKxLanePrune y0 y1 s)
  have h0 := Touches.refl (mayTouch (.kxLanePrune y0 y1)) s
  unfold execKxLanePrune
  repeat' (first
    | with_reducible assumption
    | (with_reducible refine out_next ?_)
    | (with_reducible apply out_ite)
    | (with_reducible refine pruneLanes_touches ?_ rfl))

theorem frame_kxLaneRestore {y0 y1} :
    OutTouches (mayTouch (.kxLaneRestore y0 y1)) s (exec (.kxLaneRestore y0 y1) s) := by
  show OutTouches (mayTouch (.kxLaneRestore y0 y1)) s (execKxLaneRestore y0 y1 s)
  have h0 := Touches.refl (mayTouch (.kxLaneRestore y0 y1)) s
  unfold execKxLaneRestore
  repeat' (first
    | with_reducible assumption
    | (with_reducible refine out_next ?_)
    | (with_reducible apply out_ite)
    | (with_reducible refine restoreLanes_touches ?_ rfl))

theorem frame_packetRoute {y0} : OutTouches (mayTouch (.packetRoute y0)) s (exec (.packetRoute y0) s) := by
  show OutTouches (mayTouch (.packetRoute y0)) s (execPacketRoute y0 s)
  have h0 := Touches.refl (mayTouch (.packetRoute y0)) s
  unfold execPacketRoute
  repeat' (first
    | with_reducible assumption
    | ((try lift_lets); intro x; first
        | (refine (fun (hx : Touches (mayTouch (.packetRoute y0)) s x) => ?_) ?_ <;> [clear_value x; (unfold x; clear x)])
        | clear_value x)
    | (with_reducible refine out_next ?_)
    | (with_reducible apply out_ite)
    | (with_reducible refine portMod_touches ?_ rfl)
    | (with_reducible refine freeAt_touches ?_ rfl)
    | (with_reducible refine routeWhole_touches ?_ rfl)
    | (with_reducible refine framingLoss_touches ?_ rfl)
    | with_reducible apply touches_ite
    | (with_reducible refine touches_foldl ?_ (fun _ _ _ => ?_))
    | (with_reducible refine touches_foldl_fst ?_ (fun _ _ _ => ?_))
    | (with_reducible refine touches_foldl_snd ?_ (fun _ _ _ => ?_))
    | (fail_if_no_progress (with_reducible refine touches_mk ?_ rfl rfl))
    | (split <;> (try (rename_i e1; have e2 := congrArg Prod.fst e1; have e3 := congrArg Prod.snd e1; dsimp only at e2 e3; (try subst e2); (try subst e3))))
    | dsimp only [id])

theorem frame_outputArbitration {y0} :
    OutTouches (mayTouch (.outputArbitration y0)) s (exec (.outputArbitration y0) s) := by
  show OutTouches (mayTouch (.outputArbitration y0)) s (execOutputArbitration y0 s)
  have h0 := Touches.refl (mayTouch (.outputArbitration y0)) s
  unfold execOutputArbitration
  repeat' (first
    | with_reducible assumption
    | ((try lift_lets); intro x; first
        | (refine (fun (hx : Touches (mayTouch (.outputArbitration y0)) s x) => ?_) ?_ <;> [clear_value x; (unfold x; clear x)])
        | clear_value x)
    | (with_reducible refine out_next ?_)
    | (with_reducible apply out_ite)
    | (with_reducible refine portCnt_touches ?_ rfl)
    | (with_reducible refine transmit_touches ?_ rfl)
    | with_reducible apply touches_ite
    | (with_reducible refine touches_foldl ?_ (fun _ _ _ => ?_))
    | (with_reducible refine touches_foldl_fst ?_ (fun _ _ _ => ?_))
    | (with_reducible refine touches_foldl_snd ?_ (fun _ _ _ => ?_))
    | (fail_if_no_progress (with_reducible refine touches_mk ?_ rfl rfl))
    | (split <;> (try (rename_i e1; have e2 := congrArg Prod.fst e1; have e3 := congrArg Prod.snd e1; dsimp only at e2 e3; (try subst e2); (try subst e3)))))

theorem frame_mcWr : OutTouches (mayTouch (.mcWr)) s (exec (.mcWr) s) := by
  show OutTouches (mayTouch (.mcWr)) s (execMcWr s)
  have h0 := Touches.refl (mayTouch (.mcWr)) s
  unfold execMcWr
  repeat' (first
    | with_reducible assumption
    | (with_reducible refine out_next ?_)
    | (with_reducible apply out_ite)
    | (with_reducible refine takeMulticast_touches ?_ rfl))

theorem frame_mcSig : OutTouches (mayTouch (.mcSig)) s (exec (.mcSig) s) := by
  show OutTouches (mayTouch (.mcSig)) s (execMcSig s)
  have h0 := Touches.refl (mayTouch (.mcSig)) s
  unfold execMcSig
  repeat' (first
    | with_reducible assumption
    | (with_reducible refine out_next ?_)
    | (with_reducible apply out_ite)
    | (with_reducible refine takeMulticast_touches ?_ rfl))

theorem frame_rd {y0 y1} : OutTouches (mayTouch (.rd y0 y1)) s (exec (.rd y0 y1) s) := by
  show OutTouches (mayTouch (.rd y0 y1)) s (execRd y0 y1 s)
  have h0 := Touches.refl (mayTouch (.rd y0 y1)) s
  unfold execRd
  repeat' (first
    | with_reducible assumption
    | ((try lift_lets); intro x; first
        | (refine (fun (hx : Touches (mayTouch (.rd y0 y1)) s x) => ?_) ?_ <;> [clear_value x; (unfold x; clear x)])
        | clear_value x)
    | (with_reducible refine out_next ?_)
    | (with_reducible apply out_ite)
    | (with_reducible refine seenClk_touches ?_ rfl)
    | (with_reducible refine serveRead_touches ?_ rfl)
    | with_reducible apply touches_ite
    | (with_reducible refine touches_foldl ?_ (fun _ _ _ => ?_))
    | (with_reducible refine touches_foldl_fst ?_ (fun _ _ _ => ?_))
    | (with_reducible refine touches_foldl_snd ?_ (fun _ _ _ => ?_))
    | (fail_if_no_progress (with_reducible refine touches_mk ?_ rfl rfl))
    | (split <;> (try (rename_i e1; have e2 := congrArg Prod.fst e1; have e3 := congrArg Prod.snd e1; dsimp only at e2 e3; (try subst e2); (try subst e3)))))

theorem frame_wr {y0 y1} : OutTouches (mayTouch (.wr y0 y1)) s (exec (.wr y0 y1) s) := by
  show OutTouches (mayTouch (.wr y0 y1)) s (execWr y0 y1 s)
  have h0 := Touches.refl (mayTouch (.wr y0 y1)) s
  unfold execWr
  repeat' (first
    | with_reducible assumption
    | ((try lift_lets); intro x; first
        | (refine (fun (hx : Touches (mayTouch (.wr y0 y1)) s x) => ?_) ?_ <;> [clear_value x; (unfold x; clear x)])
        | clear_value x)
    | (with_reducible refine out_next ?_)
    | (with_reducible apply out_ite)
    | (with_reducible refine seenClk_touches ?_ rfl)
    | (with_reducible refine serveWrite_touches ?_ rfl)
    | with_reducible apply touches_ite
    | (with_reducible refine touches_foldl ?_ (fun _ _ _ => ?_))
    | (with_reducible refine touches_foldl_fst ?_ (fun _ _ _ => ?_))
    | (with_reducible refine touches_foldl_snd ?_ (fun _ _ _ => ?_))
    | (fail_if_no_progress (with_reducible refine touches_mk ?_ rfl rfl))
    | (split <;> (try (rename_i e1; have e2 := congrArg Prod.fst e1; have e3 := congrArg Prod.snd e1; dsimp only at e2 e3; (try subst e2); (try subst e3)))))

theorem frame_atom {y0 y1} : OutTouches (mayTouch (.atom y0 y1)) s (exec (.atom y0 y1) s) := by
  show OutTouches (mayTouch (.atom y0 y1)) s (execAtom y0 y1 s)
  have h0 := Touches.refl (mayTouch (.atom y0 y1)) s
  unfold execAtom
  repeat' (first
    | with_reducible assumption
    | ((try lift_lets); intro x; first
        | (refine (fun (hx : Touches (mayTouch (.atom y0 y1)) s x) => ?_) ?_ <;> [clear_value x; (unfold x; clear x)])
        | clear_value x)
    | (with_reducible refine out_next ?_)
    | (with_reducible apply out_ite)
    | (with_reducible refine seenClk_touches ?_ rfl)
    | (with_reducible refine serveAtomic_touches ?_ rfl)
    | with_reducible apply touches_ite
    | (with_reducible refine touches_foldl ?_ (fun _ _ _ => ?_))
    | (with_reducible refine touches_foldl_fst ?_ (fun _ _ _ => ?_))
    | (with_reducible refine touches_foldl_snd ?_ (fun _ _ _ => ?_))
    | (fail_if_no_progress (with_reducible refine touches_mk ?_ rfl rfl))
    | (split <;> (try (rename_i e1; have e2 := congrArg Prod.fst e1; have e3 := congrArg Prod.snd e1; dsimp only at e2 e3; (try subst e2); (try subst e3)))))

theorem frame_nearBankAccess {y0 y1 y2} :
    OutTouches (mayTouch (.nearBankAccess y0 y1 y2)) s (exec (.nearBankAccess y0 y1 y2) s) := by
  show OutTouches (mayTouch (.nearBankAccess y0 y1 y2)) s (execNearBankAccess y0 y1 y2 s)
  have h0 := Touches.refl (mayTouch (.nearBankAccess y0 y1 y2)) s
  unfold execNearBankAccess
  repeat' (first
    | with_reducible assumption
    | ((try lift_lets); intro x; first
        | (refine (fun (hx : Touches (mayTouch (.nearBankAccess y0 y1 y2)) s x) => ?_) ?_ <;> [clear_value x; (unfold x; clear x)])
        | clear_value x)
    | (with_reducible refine out_next ?_)
    | (with_reducible apply out_ite)
    | (with_reducible refine seenClk_touches ?_ rfl)
    | (with_reducible refine serveRead_touches ?_ rfl)
    | (with_reducible refine serveWrite_touches ?_ rfl)
    | (with_reducible refine serveAtomic_touches ?_ rfl)
    | with_reducible apply touches_ite
    | (with_reducible refine touches_foldl ?_ (fun _ _ _ => ?_))
    | (with_reducible refine touches_foldl_fst ?_ (fun _ _ _ => ?_))
    | (with_reducible refine touches_foldl_snd ?_ (fun _ _ _ => ?_))
    | (fail_if_no_progress (with_reducible refine touches_mk ?_ rfl rfl))
    | (split <;> (try (rename_i e1; have e2 := congrArg Prod.fst e1; have e3 := congrArg Prod.snd e1; dsimp only at e2 e3; (try subst e2); (try subst e3)))))

theorem frame_rdS {y0 y1} : OutTouches (mayTouch (.rdS y0 y1)) s (exec (.rdS y0 y1) s) := by
  show OutTouches (mayTouch (.rdS y0 y1)) s (execRdS y0 y1 s)
  have h0 := Touches.refl (mayTouch (.rdS y0 y1)) s
  unfold execRdS
  repeat' (first
    | with_reducible assumption
    | (with_reducible refine out_next ?_)
    | (with_reducible apply out_ite)
    | (with_reducible refine seenClk_touches ?_ rfl)
    | (with_reducible refine serveAgent_touches ?_ rfl))

theorem frame_rdX {y0 y1} : OutTouches (mayTouch (.rdX y0 y1)) s (exec (.rdX y0 y1) s) := by
  show OutTouches (mayTouch (.rdX y0 y1)) s (execRdX y0 y1 s)
  have h0 := Touches.refl (mayTouch (.rdX y0 y1)) s
  unfold execRdX
  repeat' (first
    | with_reducible assumption
    | (with_reducible refine out_next ?_)
    | (with_reducible apply out_ite)
    | (with_reducible refine seenClk_touches ?_ rfl)
    | (with_reducible refine serveAgent_touches ?_ rfl))

theorem frame_upg {y0 y1} : OutTouches (mayTouch (.upg y0 y1)) s (exec (.upg y0 y1) s) := by
  show OutTouches (mayTouch (.upg y0 y1)) s (execUpg y0 y1 s)
  have h0 := Touches.refl (mayTouch (.upg y0 y1)) s
  unfold execUpg
  repeat' (first
    | with_reducible assumption
    | (with_reducible refine out_next ?_)
    | (with_reducible apply out_ite)
    | (with_reducible refine seenClk_touches ?_ rfl)
    | (with_reducible refine serveAgent_touches ?_ rfl))

theorem frame_wb {y0 y1} : OutTouches (mayTouch (.wb y0 y1)) s (exec (.wb y0 y1) s) := by
  show OutTouches (mayTouch (.wb y0 y1)) s (execWb y0 y1 s)
  have h0 := Touches.refl (mayTouch (.wb y0 y1)) s
  unfold execWb
  repeat' (first
    | with_reducible assumption
    | (with_reducible refine out_next ?_)
    | (with_reducible apply out_ite)
    | (with_reducible refine seenClk_touches ?_ rfl)
    | (with_reducible refine serveEvict_touches ?_ rfl))

theorem frame_evct {y0 y1} : OutTouches (mayTouch (.evct y0 y1)) s (exec (.evct y0 y1) s) := by
  show OutTouches (mayTouch (.evct y0 y1)) s (execEvct y0 y1 s)
  have h0 := Touches.refl (mayTouch (.evct y0 y1)) s
  unfold execEvct
  repeat' (first
    | with_reducible assumption
    | (with_reducible refine out_next ?_)
    | (with_reducible apply out_ite)
    | (with_reducible refine seenClk_touches ?_ rfl)
    | (with_reducible refine serveEvict_touches ?_ rfl))

theorem frame_snpRsp {y0} : OutTouches (mayTouch (.snpRsp y0)) s (exec (.snpRsp y0) s) := by
  show OutTouches (mayTouch (.snpRsp y0)) s (execSnpRsp y0 s)
  have h0 := Touches.refl (mayTouch (.snpRsp y0)) s
  unfold execSnpRsp
  repeat' (first
    | with_reducible assumption
    | (with_reducible refine out_next ?_)
    | (with_reducible apply out_ite)
    | (with_reducible refine seenClk_touches ?_ rfl)
    | (with_reducible refine snoopAnswer_touches ?_ rfl)
    | (with_reducible refine settle_touches ?_ rfl)
    | (with_reducible refine takeInbox_touches (by assumption) ?_ rfl)
    | with_reducible apply touches_ite
    | (with_reducible refine touches_foldl ?_ (fun _ _ _ => ?_))
    | (with_reducible refine touches_foldl_fst ?_ (fun _ _ _ => ?_))
    | (with_reducible refine touches_foldl_snd ?_ (fun _ _ _ => ?_))
    | (fail_if_no_progress (with_reducible refine touches_mk ?_ rfl rfl))
    | (split <;> (try (rename_i e1; have e2 := congrArg Prod.fst e1; have e3 := congrArg Prod.snd e1; dsimp only at e2 e3; (try subst e2); (try subst e3)))))

theorem frame_snpData {y0} : OutTouches (mayTouch (.snpData y0)) s (exec (.snpData y0) s) := by
  show OutTouches (mayTouch (.snpData y0)) s (execSnpData y0 s)
  have h0 := Touches.refl (mayTouch (.snpData y0)) s
  unfold execSnpData
  repeat' (first
    | with_reducible assumption
    | (with_reducible refine out_next ?_)
    | (with_reducible apply out_ite)
    | (with_reducible refine seenClk_touches ?_ rfl)
    | (with_reducible refine snoopAnswer_touches ?_ rfl)
    | (with_reducible refine settle_touches ?_ rfl)
    | (with_reducible refine takeInbox_touches (by assumption) ?_ rfl)
    | with_reducible apply touches_ite
    | (with_reducible refine touches_foldl ?_ (fun _ _ _ => ?_))
    | (with_reducible refine touches_foldl_fst ?_ (fun _ _ _ => ?_))
    | (with_reducible refine touches_foldl_snd ?_ (fun _ _ _ => ?_))
    | (fail_if_no_progress (with_reducible refine touches_mk ?_ rfl rfl))
    | (split <;> (try (rename_i e1; have e2 := congrArg Prod.fst e1; have e3 := congrArg Prod.snd e1; dsimp only at e2 e3; (try subst e2); (try subst e3)))))

theorem frame_fwdData {y0} : OutTouches (mayTouch (.fwdData y0)) s (exec (.fwdData y0) s) := by
  show OutTouches (mayTouch (.fwdData y0)) s (execFwdData y0 s)
  have h0 := Touches.refl (mayTouch (.fwdData y0)) s
  unfold execFwdData
  repeat' (first
    | with_reducible assumption
    | (with_reducible refine out_next ?_)
    | (with_reducible apply out_ite)
    | (with_reducible refine seenClk_touches ?_ rfl)
    | (with_reducible refine forwardData_touches ?_ rfl)
    | (with_reducible refine settle_touches ?_ rfl)
    | (with_reducible refine takeInbox_touches (by assumption) ?_ rfl)
    | with_reducible apply touches_ite
    | (with_reducible refine touches_foldl ?_ (fun _ _ _ => ?_))
    | (with_reducible refine touches_foldl_fst ?_ (fun _ _ _ => ?_))
    | (with_reducible refine touches_foldl_snd ?_ (fun _ _ _ => ?_))
    | (fail_if_no_progress (with_reducible refine touches_mk ?_ rfl rfl))
    | (split <;> (try (rename_i e1; have e2 := congrArg Prod.fst e1; have e3 := congrArg Prod.snd e1; dsimp only at e2 e3; (try subst e2); (try subst e3)))))

theorem frame_grantAcknowledgement {y0} :
    OutTouches (mayTouch (.grantAcknowledgement y0)) s (exec (.grantAcknowledgement y0) s) := by
  show OutTouches (mayTouch (.grantAcknowledgement y0)) s (execGrantAcknowledgement y0 s)
  have h0 := Touches.refl (mayTouch (.grantAcknowledgement y0)) s
  unfold execGrantAcknowledgement
  repeat' (first
    | with_reducible assumption
    | (with_reducible refine out_next ?_)
    | (with_reducible apply out_ite)
    | (with_reducible refine seenClk_touches ?_ rfl)
    | (with_reducible refine grantAck_touches ?_ rfl)
    | (with_reducible refine settle_touches ?_ rfl)
    | (with_reducible refine takeInbox_touches (by assumption) ?_ rfl)
    | with_reducible apply touches_ite
    | (with_reducible refine touches_foldl ?_ (fun _ _ _ => ?_))
    | (with_reducible refine touches_foldl_fst ?_ (fun _ _ _ => ?_))
    | (with_reducible refine touches_foldl_snd ?_ (fun _ _ _ => ?_))
    | (fail_if_no_progress (with_reducible refine touches_mk ?_ rfl rfl))
    | (split <;> (try (rename_i e1; have e2 := congrArg Prod.fst e1; have e3 := congrArg Prod.snd e1; dsimp only at e2 e3; (try subst e2); (try subst e3)))))

theorem frame_cohAnswerTimeout {y0} :
    OutTouches (mayTouch (.cohAnswerTimeout y0)) s (exec (.cohAnswerTimeout y0) s) := by
  show OutTouches (mayTouch (.cohAnswerTimeout y0)) s (execCohAnswerTimeout y0 s)
  have h0 := Touches.refl (mayTouch (.cohAnswerTimeout y0)) s
  unfold execCohAnswerTimeout
  repeat' (first
    | with_reducible assumption
    | ((try lift_lets); intro x; first
        | (refine (fun (hx : Touches (mayTouch (.cohAnswerTimeout y0)) s x) => ?_) ?_ <;> [clear_value x; (unfold x; clear x)])
        | clear_value x)
    | (with_reducible refine out_next ?_)
    | (with_reducible apply out_ite)
    | (with_reducible refine partMod_touches ?_ rfl)
    | (with_reducible refine noteFlags_touches ?_ rfl)
    | (with_reducible refine putTxn_touches ?_ rfl)
    | with_reducible apply touches_ite
    | (with_reducible refine touches_foldl ?_ (fun _ _ _ => ?_))
    | (with_reducible refine touches_foldl_fst ?_ (fun _ _ _ => ?_))
    | (with_reducible refine touches_foldl_snd ?_ (fun _ _ _ => ?_))
    | (fail_if_no_progress (with_reducible refine touches_mk ?_ rfl rfl))
    | (split <;> (try (rename_i e1; have e2 := congrArg Prod.fst e1; have e3 := congrArg Prod.snd e1; dsimp only at e2 e3; (try subst e2); (try subst e3)))))

theorem frame_fenceSweepLine {y0 y1} :
    OutTouches (mayTouch (.fenceSweepLine y0 y1)) s (exec (.fenceSweepLine y0 y1) s) := by
  show OutTouches (mayTouch (.fenceSweepLine y0 y1)) s (execFenceSweepLine y0 y1 s)
  have h0 := Touches.refl (mayTouch (.fenceSweepLine y0 y1)) s
  unfold execFenceSweepLine
  repeat' (first
    | with_reducible assumption
    | ((try lift_lets); intro x; first
        | (refine (fun (hx : Touches (mayTouch (.fenceSweepLine y0 y1)) s x) => ?_) ?_ <;> [clear_value x; (unfold x; clear x)])
        | clear_value x)
    | (with_reducible refine out_next ?_)
    | (with_reducible apply out_ite)
    | (with_reducible refine endSweep_touches ?_ rfl)
    | (with_reducible refine treatLine_touches ?_ rfl)
    | (with_reducible refine settle_touches ?_ rfl)
    | with_reducible apply touches_ite
    | (with_reducible refine touches_foldl ?_ (fun _ _ _ => ?_)))

theorem frame_flush {y0} : OutTouches (mayTouch (.flush y0)) s (exec (.flush y0) s) := by
  show OutTouches (mayTouch (.flush y0)) s (execFlush y0 s)
  have h0 := Touches.refl (mayTouch (.flush y0)) s
  unfold execFlush
  repeat' (first
    | with_reducible assumption
    | (with_reducible refine out_next ?_)
    | (with_reducible apply out_ite)
    | (with_reducible refine withUnit_touches ?_ rfl (fun _ _ _ _ _ => ?_))
    | (with_reducible refine startFlush_touches ?_ rfl))

theorem frame_flushRelease {y0} : OutTouches (mayTouch (.flushRelease y0)) s (exec (.flushRelease y0) s) := by
  show OutTouches (mayTouch (.flushRelease y0)) s (execFlushRelease y0 s)
  have h0 := Touches.refl (mayTouch (.flushRelease y0)) s
  unfold execFlushRelease
  repeat' (first
    | with_reducible assumption
    | (with_reducible refine out_next ?_)
    | (with_reducible apply out_ite)
    | (with_reducible refine finish_touches ?_ rfl)
    | (with_reducible refine twinFirst_touches (by assumption) ?_ rfl)
    | (with_reducible refine dropWait_touches ?_ rfl)
    | with_reducible apply touches_ite
    | (with_reducible refine touches_foldl ?_ (fun _ _ _ => ?_))
    | (with_reducible refine touches_foldl_fst ?_ (fun _ _ _ => ?_))
    | (with_reducible refine touches_foldl_snd ?_ (fun _ _ _ => ?_))
    | (fail_if_no_progress (with_reducible refine touches_mk ?_ rfl rfl))
    | (split <;> (try (rename_i e1; have e2 := congrArg Prod.fst e1; have e3 := congrArg Prod.snd e1; dsimp only at e2 e3; (try subst e2); (try subst e3)))))

theorem frame_publish {y0} : OutTouches (mayTouch (.publish y0)) s (exec (.publish y0) s) := by
  show OutTouches (mayTouch (.publish y0)) s (execPublish y0 s)
  have h0 := Touches.refl (mayTouch (.publish y0)) s
  unfold execPublish
  repeat' (first
    | with_reducible assumption
    | (with_reducible refine out_next ?_)
    | (with_reducible apply out_ite)
    | (with_reducible refine withUnit_touches ?_ rfl (fun _ _ _ _ _ => ?_))
    | (with_reducible refine startPublish_touches ?_ rfl))

theorem frame_publishDecide {y0} : OutTouches (mayTouch (.publishDecide y0)) s (exec (.publishDecide y0) s) := by
  show OutTouches (mayTouch (.publishDecide y0)) s (execPublishDecide y0 s)
  have h0 := Touches.refl (mayTouch (.publishDecide y0)) s
  unfold execPublishDecide
  repeat' (first
    | with_reducible assumption
    | ((try lift_lets); intro x; first
        | (refine (fun (hx : Touches (mayTouch (.publishDecide y0)) s x) => ?_) ?_ <;> [clear_value x; (unfold x; clear x)])
        | clear_value x)
    | (with_reducible refine out_next ?_)
    | (with_reducible apply out_ite)
    | (with_reducible refine notePeak_touches ?_ rfl)
    | (with_reducible refine twinFirst_touches (by assumption) ?_ rfl)
    | (with_reducible refine pubRetry_touches ?_ rfl)
    | (with_reducible refine dropWait_touches ?_ rfl)
    | (with_reducible refine decidePublish_touches ?_ rfl)
    | with_reducible apply touches_ite
    | (with_reducible refine touches_foldl ?_ (fun _ _ _ => ?_))
    | (with_reducible refine touches_foldl_fst ?_ (fun _ _ _ => ?_))
    | (with_reducible refine touches_foldl_snd ?_ (fun _ _ _ => ?_))
    | (fail_if_no_progress (with_reducible refine touches_mk ?_ rfl rfl))
    | (split <;> (try (rename_i e1; have e2 := congrArg Prod.fst e1; have e3 := congrArg Prod.snd e1; dsimp only at e2 e3; (try subst e2); (try subst e3)))))

theorem frame_acquire {y0} : OutTouches (mayTouch (.acquire y0)) s (exec (.acquire y0) s) := by
  show OutTouches (mayTouch (.acquire y0)) s (execAcquire y0 s)
  have h0 := Touches.refl (mayTouch (.acquire y0)) s
  unfold execAcquire
  repeat' (first
    | with_reducible assumption
    | (with_reducible refine out_next ?_)
    | (with_reducible apply out_ite)
    | (with_reducible refine finish_touches ?_ rfl)
    | (with_reducible refine withUnit_touches ?_ rfl (fun _ _ _ _ _ => ?_)))

theorem frame_pubClear {y0} : OutTouches (mayTouch (.pubClear y0)) s (exec (.pubClear y0) s) := by
  show OutTouches (mayTouch (.pubClear y0)) s (execPubClear y0 s)
  have h0 := Touches.refl (mayTouch (.pubClear y0)) s
  unfold execPubClear
  repeat' (first
    | with_reducible assumption
    | (with_reducible refine out_next ?_)
    | (with_reducible apply out_ite)
    | (with_reducible refine clearPub_touches ?_ rfl))

theorem frame_channelRequestEnqueue {y0 y1 y2} :
    OutTouches (mayTouch (.channelRequestEnqueue y0 y1 y2)) s (exec (.channelRequestEnqueue y0 y1 y2) s) := by
  show OutTouches (mayTouch (.channelRequestEnqueue y0 y1 y2)) s (execChannelRequestEnqueue y0 y1 y2 s)
  have h0 := Touches.refl (mayTouch (.channelRequestEnqueue y0 y1 y2)) s
  unfold execChannelRequestEnqueue
  repeat' (first
    | with_reducible assumption
    | ((try lift_lets); intro x; first
        | (refine (fun (hx : Touches (mayTouch (.channelRequestEnqueue y0 y1 y2)) s x) => ?_) ?_ <;> [clear_value x; (unfold x; clear x)])
        | clear_value x)
    | (with_reducible refine out_next ?_)
    | (with_reducible apply out_ite)
    | (with_reducible refine chanSet_touches ?_ rfl)
    | (with_reducible refine seenClk_touches ?_ rfl)
    | with_reducible apply touches_ite
    | (with_reducible refine touches_foldl ?_ (fun _ _ _ => ?_))
    | (with_reducible refine touches_foldl_fst ?_ (fun _ _ _ => ?_))
    | (with_reducible refine touches_foldl_snd ?_ (fun _ _ _ => ?_))
    | (fail_if_no_progress (with_reducible refine touches_mk ?_ rfl rfl))
    | (split <;> (try (rename_i e1; have e2 := congrArg Prod.fst e1; have e3 := congrArg Prod.snd e1; dsimp only at e2 e3; (try subst e2); (try subst e3)))))

theorem frame_dramCommandIssue {y0 y1} :
    OutTouches (mayTouch (.dramCommandIssue y0 y1)) s (exec (.dramCommandIssue y0 y1) s) := by
  show OutTouches (mayTouch (.dramCommandIssue y0 y1)) s (execDramCommandIssue y0 y1 s)
  have h0 := Touches.refl (mayTouch (.dramCommandIssue y0 y1)) s
  unfold execDramCommandIssue
  repeat' (first
    | with_reducible assumption
    | ((try lift_lets); intro x; first
        | (refine (fun (hx : Touches (mayTouch (.dramCommandIssue y0 y1)) s x) => ?_) ?_ <;> [clear_value x; (unfold x; clear x)])
        | clear_value x)
    | (with_reducible refine out_next ?_)
    | (with_reducible apply out_ite)
    | (with_reducible refine seenClk_touches ?_ rfl)
    | (with_reducible refine issue_touches ?_ rfl)
    | (with_reducible refine parityError_touches ?_ rfl)
    | with_reducible apply touches_ite
    | (with_reducible refine touches_foldl ?_ (fun _ _ _ => ?_))
    | (with_reducible refine touches_foldl_fst ?_ (fun _ _ _ => ?_))
    | (with_reducible refine touches_foldl_snd ?_ (fun _ _ _ => ?_))
    | (fail_if_no_progress (with_reducible refine touches_mk ?_ rfl rfl))
    | (split <;> (try (rename_i e1; have e2 := congrArg Prod.fst e1; have e3 := congrArg Prod.snd e1; dsimp only at e2 e3; (try subst e2); (try subst e3)))))

theorem frame_dramReadData {y0 y1} : OutTouches (mayTouch (.dramReadData y0 y1)) s (exec (.dramReadData y0 y1) s) := by
  show OutTouches (mayTouch (.dramReadData y0 y1)) s (execDramReadData y0 y1 s)
  have h0 := Touches.refl (mayTouch (.dramReadData y0 y1)) s
  unfold execDramReadData
  repeat' (first
    | with_reducible assumption
    | ((try lift_lets); intro x; first
        | (refine (fun (hx : Touches (mayTouch (.dramReadData y0 y1)) s x) => ?_) ?_ <;> [clear_value x; (unfold x; clear x)])
        | clear_value x)
    | (with_reducible refine out_next ?_)
    | (with_reducible apply out_ite)
    | (with_reducible refine chanSet_touches ?_ rfl)
    | (with_reducible refine seenClk_touches ?_ rfl)
    | (with_reducible refine columnAt_touches ?_ rfl)
    | with_reducible apply touches_ite
    | (with_reducible refine touches_foldl ?_ (fun _ _ _ => ?_))
    | (with_reducible refine touches_foldl_fst ?_ (fun _ _ _ => ?_))
    | (with_reducible refine touches_foldl_snd ?_ (fun _ _ _ => ?_))
    | (fail_if_no_progress (with_reducible refine touches_mk ?_ rfl rfl))
    | (split <;> (try (rename_i e1; have e2 := congrArg Prod.fst e1; have e3 := congrArg Prod.snd e1; dsimp only at e2 e3; (try subst e2); (try subst e3)))))

theorem frame_idlePrecharge {y0 y1 y2} :
    OutTouches (mayTouch (.idlePrecharge y0 y1 y2)) s (exec (.idlePrecharge y0 y1 y2) s) := by
  show OutTouches (mayTouch (.idlePrecharge y0 y1 y2)) s (execIdlePrecharge y0 y1 y2 s)
  have h0 := Touches.refl (mayTouch (.idlePrecharge y0 y1 y2)) s
  unfold execIdlePrecharge
  repeat' (first
    | with_reducible assumption
    | ((try lift_lets); intro x; first
        | (refine (fun (hx : Touches (mayTouch (.idlePrecharge y0 y1 y2)) s x) => ?_) ?_ <;> [clear_value x; (unfold x; clear x)])
        | clear_value x)
    | (with_reducible refine out_next ?_)
    | (with_reducible apply out_ite)
    | (with_reducible refine chanSet_touches ?_ rfl)
    | (with_reducible refine seenClk_touches ?_ rfl)
    | with_reducible apply touches_ite
    | (with_reducible refine touches_foldl ?_ (fun _ _ _ => ?_))
    | (with_reducible refine touches_foldl_fst ?_ (fun _ _ _ => ?_))
    | (with_reducible refine touches_foldl_snd ?_ (fun _ _ _ => ?_))
    | (fail_if_no_progress (with_reducible refine touches_mk ?_ rfl rfl))
    | (split <;> (try (rename_i e1; have e2 := congrArg Prod.fst e1; have e3 := congrArg Prod.snd e1; dsimp only at e2 e3; (try subst e2); (try subst e3)))))

theorem frame_refreshAccrual {y0 y1 y2} :
    OutTouches (mayTouch (.refreshAccrual y0 y1 y2)) s (exec (.refreshAccrual y0 y1 y2) s) := by
  show OutTouches (mayTouch (.refreshAccrual y0 y1 y2)) s (execRefreshAccrual y0 y1 y2 s)
  have h0 := Touches.refl (mayTouch (.refreshAccrual y0 y1 y2)) s
  unfold execRefreshAccrual
  repeat' (first
    | with_reducible assumption
    | ((try lift_lets); intro x; first
        | (refine (fun (hx : Touches (mayTouch (.refreshAccrual y0 y1 y2)) s x) => ?_) ?_ <;> [clear_value x; (unfold x; clear x)])
        | clear_value x)
    | (with_reducible refine out_next ?_)
    | (with_reducible apply out_ite)
    | (with_reducible refine chanSet_touches ?_ rfl)
    | (with_reducible refine seenClk_touches ?_ rfl))

theorem frame_trainingPiece {y0 y1 y2} :
    OutTouches (mayTouch (.trainingPiece y0 y1 y2)) s (exec (.trainingPiece y0 y1 y2) s) := by
  show OutTouches (mayTouch (.trainingPiece y0 y1 y2)) s (execTrainingPiece y0 y1 y2 s)
  have h0 := Touches.refl (mayTouch (.trainingPiece y0 y1 y2)) s
  unfold execTrainingPiece
  repeat' (first
    | with_reducible assumption
    | ((try lift_lets); intro x; first
        | (refine (fun (hx : Touches (mayTouch (.trainingPiece y0 y1 y2)) s x) => ?_) ?_ <;> [clear_value x; (unfold x; clear x)])
        | clear_value x)
    | (with_reducible refine out_next ?_)
    | (with_reducible apply out_ite)
    | (with_reducible refine chanSet_touches ?_ rfl)
    | (with_reducible refine seenClk_touches ?_ rfl)
    | (with_reducible refine pruneChan_touches ?_ rfl)
    | (with_reducible refine loseContents_touches ?_ rfl)
    | with_reducible apply touches_ite)

theorem frame_sidPowerDown {y0 y1 y2} :
    OutTouches (mayTouch (.sidPowerDown y0 y1 y2)) s (exec (.sidPowerDown y0 y1 y2) s) := by
  show OutTouches (mayTouch (.sidPowerDown y0 y1 y2)) s (execSidPowerDown y0 y1 y2 s)
  have h0 := Touches.refl (mayTouch (.sidPowerDown y0 y1 y2)) s
  unfold execSidPowerDown
  repeat' (first
    | with_reducible assumption
    | ((try lift_lets); intro x; first
        | (refine (fun (hx : Touches (mayTouch (.sidPowerDown y0 y1 y2)) s x) => ?_) ?_ <;> [clear_value x; (unfold x; clear x)])
        | clear_value x)
    | (with_reducible refine out_next ?_)
    | (with_reducible apply out_ite)
    | (with_reducible refine chanSet_touches ?_ rfl)
    | (with_reducible refine seenClk_touches ?_ rfl))

theorem frame_rowRepair {y0 y1 y2 y3} :
    OutTouches (mayTouch (.rowRepair y0 y1 y2 y3)) s (exec (.rowRepair y0 y1 y2 y3) s) := by
  show OutTouches (mayTouch (.rowRepair y0 y1 y2 y3)) s (execRowRepair y0 y1 y2 y3 s)
  have h0 := Touches.refl (mayTouch (.rowRepair y0 y1 y2 y3)) s
  unfold execRowRepair
  repeat' (first
    | with_reducible assumption
    | ((try lift_lets); intro x; first
        | (refine (fun (hx : Touches (mayTouch (.rowRepair y0 y1 y2 y3)) s x) => ?_) ?_ <;> [clear_value x; (unfold x; clear x)])
        | (have _ : Stack := x; dsimp only [x]; clear x)
        | clear_value x)
    | (with_reducible refine out_next ?_)
    | (with_reducible apply out_ite)
    | (with_reducible refine chanSet_touches ?_ rfl)
    | (with_reducible refine seenClk_touches ?_ rfl)
    | (with_reducible refine readColumn_touches ?_ rfl)
    | (with_reducible refine busColumns_touches ?_ rfl)
    | (with_reducible refine pruneChan_touches ?_ rfl)
    | (with_reducible refine writeBackColumn_touches ?_ rfl)
    | with_reducible apply touches_ite
    | (with_reducible refine touches_foldl ?_ (fun _ _ _ => ?_))
    | (with_reducible refine touches_foldl_fst ?_ (fun _ _ _ => ?_))
    | (with_reducible refine touches_foldl_snd ?_ (fun _ _ _ => ?_))
    | (fail_if_no_progress (with_reducible refine touches_mk ?_ rfl rfl))
    | (split <;> (try (rename_i e1; have e2 := congrArg Prod.fst e1; have e3 := congrArg Prod.snd e1; dsimp only at e2 e3; (try subst e2); (try subst e3)))))

theorem frame_stkPrune {y0} : OutTouches (mayTouch (.stkPrune y0)) s (exec (.stkPrune y0) s) := by
  show OutTouches (mayTouch (.stkPrune y0)) s (execStkPrune y0 s)
  have h0 := Touches.refl (mayTouch (.stkPrune y0)) s
  unfold execStkPrune
  repeat' (first
    | with_reducible assumption
    | (with_reducible refine out_next ?_)
    | (with_reducible apply out_ite)
    | (with_reducible refine pruneChan_touches ?_ rfl))

theorem frame_stkGraft {y0} : OutTouches (mayTouch (.stkGraft y0)) s (exec (.stkGraft y0) s) := by
  show OutTouches (mayTouch (.stkGraft y0)) s (execStkGraft y0 s)
  have h0 := Touches.refl (mayTouch (.stkGraft y0)) s
  unfold execStkGraft
  repeat' (first
    | with_reducible assumption
    | (with_reducible refine out_next ?_)
    | (with_reducible apply out_ite)
    | (with_reducible refine startGraft_touches ?_ rfl))

theorem frame_stkClear {y0} : OutTouches (mayTouch (.stkClear y0)) s (exec (.stkClear y0) s) := by
  show OutTouches (mayTouch (.stkClear y0)) s (execStkClear y0 s)
  have h0 := Touches.refl (mayTouch (.stkClear y0)) s
  unfold execStkClear
  repeat' (first
    | with_reducible assumption
    | (with_reducible refine out_next ?_)
    | (with_reducible apply out_ite)
    | (with_reducible refine clearChan_touches ?_ rfl))

theorem frame_channelCopyPiece {y0} :
    OutTouches (mayTouch (.channelCopyPiece y0)) s (exec (.channelCopyPiece y0) s) := by
  show OutTouches (mayTouch (.channelCopyPiece y0)) s (execChannelCopyPiece y0 s)
  have h0 := Touches.refl (mayTouch (.channelCopyPiece y0)) s
  unfold execChannelCopyPiece
  repeat' (first
    | with_reducible assumption
    | ((try lift_lets); intro x; first
        | (refine (fun (hx : Touches (mayTouch (.channelCopyPiece y0)) s x) => ?_) ?_ <;> [clear_value x; (unfold x; clear x)])
        | (have _ : Stack := x; dsimp only [x]; clear x)
        | clear_value x)
    | (with_reducible refine out_next ?_)
    | (with_reducible apply out_ite)
    | (with_reducible refine chanMod_touches ?_ rfl)
    | (with_reducible refine seenClk_touches ?_ rfl)
    | (with_reducible refine injectFlips_touches ?_ rfl)
    | (with_reducible refine readColumn_touches ?_ rfl)
    | (with_reducible refine busColumns_touches ?_ rfl)
    | (with_reducible refine writeBackColumn_touches ?_ rfl)
    | with_reducible apply touches_ite
    | (with_reducible refine touches_foldl ?_ (fun _ _ _ => ?_))
    | (with_reducible refine touches_foldl_fst ?_ (fun _ _ _ => ?_))
    | (with_reducible refine touches_foldl_snd ?_ (fun _ _ _ => ?_))
    | (fail_if_no_progress (with_reducible refine touches_mk ?_ rfl rfl)))

theorem frame_flashDiscovery {y0} : OutTouches (mayTouch (.flashDiscovery y0)) s (exec (.flashDiscovery y0) s) := by
  show OutTouches (mayTouch (.flashDiscovery y0)) s (execFlashDiscovery y0 s)
  have h0 := Touches.refl (mayTouch (.flashDiscovery y0)) s
  unfold execFlashDiscovery
  repeat' (first
    | with_reducible assumption
    | (with_reducible refine out_next ?_)
    | (with_reducible apply out_ite)
    | (with_reducible refine discover_touches ?_ rfl))

theorem frame_flashFetchDone {y0 y1 y2} :
    OutTouches (mayTouch (.flashFetchDone y0 y1 y2)) s (exec (.flashFetchDone y0 y1 y2) s) := by
  show OutTouches (mayTouch (.flashFetchDone y0 y1 y2)) s (execFlashFetchDone y0 y1 y2 s)
  have h0 := Touches.refl (mayTouch (.flashFetchDone y0 y1 y2)) s
  unfold execFlashFetchDone
  repeat' (first
    | with_reducible assumption
    | (with_reducible refine out_next ?_)
    | (with_reducible apply out_ite)
    | (with_reducible refine fetchDone_touches ?_ rfl))

theorem frame_flashWritebackStart {y0} :
    OutTouches (mayTouch (.flashWritebackStart y0)) s (exec (.flashWritebackStart y0) s) := by
  show OutTouches (mayTouch (.flashWritebackStart y0)) s (execFlashWritebackStart y0 s)
  have h0 := Touches.refl (mayTouch (.flashWritebackStart y0)) s
  unfold execFlashWritebackStart
  repeat' (first
    | with_reducible assumption
    | ((try lift_lets); intro x; first
        | (refine (fun (hx : Touches (mayTouch (.flashWritebackStart y0)) s x) => ?_) ?_ <;> [clear_value x; (unfold x; clear x)])
        | clear_value x)
    | (with_reducible refine out_next ?_)
    | (with_reducible apply out_ite)
    | (with_reducible refine granSet_touches ?_ rfl)
    | (with_reducible refine copySet_touches ?_ rfl)
    | (with_reducible refine nextPage_touches (by assumption) ?_ rfl)
    | (with_reducible refine frameCopy_touches ?_ rfl)
    | with_reducible apply touches_ite
    | (with_reducible refine touches_foldl ?_ (fun _ _ _ => ?_))
    | (with_reducible refine touches_foldl_fst ?_ (fun _ _ _ => ?_))
    | (with_reducible refine touches_foldl_snd ?_ (fun _ _ _ => ?_))
    | (fail_if_no_progress (with_reducible refine touches_mk ?_ rfl rfl))
    | (split <;> (try (rename_i e1; have e2 := congrArg Prod.fst e1; have e3 := congrArg Prod.snd e1; dsimp only at e2 e3; (try subst e2); (try subst e3))))
    | dsimp only [id])

theorem frame_flashWritebackDone {y0 y1} :
    OutTouches (mayTouch (.flashWritebackDone y0 y1)) s (exec (.flashWritebackDone y0 y1) s) := by
  show OutTouches (mayTouch (.flashWritebackDone y0 y1)) s (execFlashWritebackDone y0 y1 s)
  have h0 := Touches.refl (mayTouch (.flashWritebackDone y0 y1)) s
  unfold execFlashWritebackDone
  repeat' (first
    | with_reducible assumption
    | ((try lift_lets); intro x; first
        | (refine (fun (hx : Touches (mayTouch (.flashWritebackDone y0 y1)) s x) => ?_) ?_ <;> [clear_value x; (unfold x; clear x)])
        | clear_value x)
    | (with_reducible refine out_next ?_)
    | (with_reducible apply out_ite)
    | (with_reducible refine partCnt_touches ?_ rfl)
    | (with_reducible refine granSet_touches ?_ rfl)
    | (with_reducible refine invalidate_touches ?_ rfl)
    | (with_reducible refine moveOn_touches ?_ rfl)
    | with_reducible apply touches_ite
    | (with_reducible refine touches_foldl ?_ (fun _ _ _ => ?_))
    | (with_reducible refine touches_foldl_fst ?_ (fun _ _ _ => ?_))
    | (with_reducible refine touches_foldl_snd ?_ (fun _ _ _ => ?_))
    | (fail_if_no_progress (with_reducible refine touches_mk ?_ rfl rfl))
    | (split <;> (try (rename_i e1; have e2 := congrArg Prod.fst e1; have e3 := congrArg Prod.snd e1; dsimp only at e2 e3; (try subst e2); (try subst e3)))))

theorem frame_flashReclaim {y0} : OutTouches (mayTouch (.flashReclaim y0)) s (exec (.flashReclaim y0) s) := by
  show OutTouches (mayTouch (.flashReclaim y0)) s (execFlashReclaim y0 s)
  have h0 := Touches.refl (mayTouch (.flashReclaim y0)) s
  unfold execFlashReclaim
  repeat' (first
    | with_reducible assumption
    | (with_reducible refine out_next ?_)
    | (with_reducible apply out_ite)
    | (with_reducible refine emptyBlock_touches ?_ rfl)
    | (with_reducible refine countWl_touches ?_ rfl)
    | with_reducible apply touches_ite
    | (with_reducible refine touches_foldl ?_ (fun _ _ _ => ?_))
    | (with_reducible refine touches_foldl_fst ?_ (fun _ _ _ => ?_))
    | (with_reducible refine touches_foldl_snd ?_ (fun _ _ _ => ?_))
    | (fail_if_no_progress (with_reducible refine touches_mk ?_ rfl rfl))
    | (split <;> (try (rename_i e1; have e2 := congrArg Prod.fst e1; have e3 := congrArg Prod.snd e1; dsimp only at e2 e3; (try subst e2); (try subst e3)))))

theorem frame_flashWearLevel {y0} : OutTouches (mayTouch (.flashWearLevel y0)) s (exec (.flashWearLevel y0) s) := by
  show OutTouches (mayTouch (.flashWearLevel y0)) s (execFlashWearLevel y0 s)
  have h0 := Touches.refl (mayTouch (.flashWearLevel y0)) s
  unfold execFlashWearLevel
  repeat' (first
    | with_reducible assumption
    | ((try lift_lets); intro x; first
        | (refine (fun (hx : Touches (mayTouch (.flashWearLevel y0)) s x) => ?_) ?_ <;> [clear_value x; (unfold x; clear x)])
        | clear_value x)
    | (with_reducible refine out_next ?_)
    | (with_reducible apply out_ite)
    | (with_reducible refine countWl_touches ?_ rfl)
    | (with_reducible refine moveInto_touches ?_ rfl)
    | with_reducible apply touches_ite
    | (with_reducible refine touches_foldl ?_ (fun _ _ _ => ?_))
    | (with_reducible refine touches_foldl_fst ?_ (fun _ _ _ => ?_))
    | (with_reducible refine touches_foldl_snd ?_ (fun _ _ _ => ?_))
    | (fail_if_no_progress (with_reducible refine touches_mk ?_ rfl rfl))
    | (split <;> (try (rename_i e1; have e2 := congrArg Prod.fst e1; have e3 := congrArg Prod.snd e1; dsimp only at e2 e3; (try subst e2); (try subst e3)))))

theorem frame_flashRefreshMove {y0} :
    OutTouches (mayTouch (.flashRefreshMove y0)) s (exec (.flashRefreshMove y0) s) := by
  show OutTouches (mayTouch (.flashRefreshMove y0)) s (execFlashRefreshMove y0 s)
  have h0 := Touches.refl (mayTouch (.flashRefreshMove y0)) s
  unfold execFlashRefreshMove
  repeat' (first
    | with_reducible assumption
    | ((try lift_lets); intro x; first
        | (refine (fun (hx : Touches (mayTouch (.flashRefreshMove y0)) s x) => ?_) ?_ <;> [clear_value x; (unfold x; clear x)])
        | clear_value x)
    | (with_reducible refine out_next ?_)
    | (with_reducible apply out_ite)
    | (with_reducible refine emptyBlock_touches ?_ rfl)
    | with_reducible apply touches_ite
    | (with_reducible refine touches_foldl ?_ (fun _ _ _ => ?_))
    | (with_reducible refine touches_foldl_fst ?_ (fun _ _ _ => ?_))
    | (with_reducible refine touches_foldl_snd ?_ (fun _ _ _ => ?_))
    | (fail_if_no_progress (with_reducible refine touches_mk ?_ rfl rfl)))

theorem frame_flashProgramFail {y0 y1} :
    OutTouches (mayTouch (.flashProgramFail y0 y1)) s (exec (.flashProgramFail y0 y1) s) := by
  show OutTouches (mayTouch (.flashProgramFail y0 y1)) s (execFlashProgramFail y0 y1 s)
  have h0 := Touches.refl (mayTouch (.flashProgramFail y0 y1)) s
  unfold execFlashProgramFail
  repeat' (first
    | with_reducible assumption
    | ((try lift_lets); intro x; first
        | (refine (fun (hx : Touches (mayTouch (.flashProgramFail y0 y1)) s x) => ?_) ?_ <;> [clear_value x; (unfold x; clear x)])
        | clear_value x)
    | (with_reducible refine out_next ?_)
    | (with_reducible apply out_ite)
    | (with_reducible refine blockMod_touches ?_ rfl)
    | (with_reducible refine granSet_touches ?_ rfl)
    | (with_reducible refine copySet_touches ?_ rfl)
    | (with_reducible refine nextPage_touches (by assumption) ?_ rfl)
    | (with_reducible refine frameCopy_touches ?_ rfl)
    | (with_reducible refine emptyBlock_touches ?_ rfl)
    | (with_reducible refine countWl_touches ?_ rfl)
    | with_reducible apply touches_ite
    | (with_reducible refine touches_foldl ?_ (fun _ _ _ => ?_))
    | (with_reducible refine touches_foldl_fst ?_ (fun _ _ _ => ?_))
    | (with_reducible refine touches_foldl_snd ?_ (fun _ _ _ => ?_))
    | (fail_if_no_progress (with_reducible refine touches_mk ?_ rfl rfl))
    | (split <;> (try (rename_i e1; have e2 := congrArg Prod.fst e1; have e3 := congrArg Prod.snd e1; dsimp only at e2 e3; (try subst e2); (try subst e3)))))

theorem frame_flashEraseDone {y0 y1} :
    OutTouches (mayTouch (.flashEraseDone y0 y1)) s (exec (.flashEraseDone y0 y1) s) := by
  show OutTouches (mayTouch (.flashEraseDone y0 y1)) s (execFlashEraseDone y0 y1 s)
  have h0 := Touches.refl (mayTouch (.flashEraseDone y0 y1)) s
  unfold execFlashEraseDone
  repeat' (first
    | with_reducible assumption
    | ((try lift_lets); intro x; first
        | (refine (fun (hx : Touches (mayTouch (.flashEraseDone y0 y1)) s x) => ?_) ?_ <;> [clear_value x; (unfold x; clear x)])
        | clear_value x)
    | (with_reducible refine out_next ?_)
    | (with_reducible apply out_ite)
    | (with_reducible refine blockSet_touches ?_ rfl)
    | (with_reducible refine issueOnfi_touches ?_ rfl)
    | (with_reducible refine retireBlock_touches ?_ rfl)
    | (with_reducible refine resumeMoves_touches ?_ rfl))

theorem frame_flashChannelPrune {y0} :
    OutTouches (mayTouch (.flashChannelPrune y0)) s (exec (.flashChannelPrune y0) s) := by
  show OutTouches (mayTouch (.flashChannelPrune y0)) s (execFlashChannelPrune y0 s)
  have h0 := Touches.refl (mayTouch (.flashChannelPrune y0)) s
  unfold execFlashChannelPrune
  repeat' (first
    | with_reducible assumption
    | ((try lift_lets); intro x; first
        | (refine (fun (hx : Touches (mayTouch (.flashChannelPrune y0)) s x) => ?_) ?_ <;> [clear_value x; (unfold x; clear x)])
        | clear_value x)
    | (with_reducible refine out_next ?_)
    | (with_reducible apply out_ite)
    | (with_reducible refine noteDegraded_touches ?_ rfl)
    | with_reducible apply touches_ite
    | (with_reducible refine touches_foldl ?_ (fun _ _ _ => ?_))
    | (with_reducible refine touches_foldl_fst ?_ (fun _ _ _ => ?_))
    | (with_reducible refine touches_foldl_snd ?_ (fun _ _ _ => ?_))
    | (fail_if_no_progress (with_reducible refine touches_mk ?_ rfl rfl)))

theorem frame_flGraft : OutTouches (mayTouch (.flGraft)) s (exec (.flGraft) s) := by
  show OutTouches (mayTouch (.flGraft)) s (execFlGraft s)
  have h0 := Touches.refl (mayTouch (.flGraft)) s
  unfold execFlGraft
  repeat' (first
    | with_reducible assumption
    | (with_reducible refine out_next ?_)
    | (with_reducible apply out_ite)
    | (with_reducible refine graftFlash_touches ?_ rfl))

theorem frame_flClear : OutTouches (mayTouch (.flClear)) s (exec (.flClear) s) := by
  show OutTouches (mayTouch (.flClear)) s (execFlClear s)
  have h0 := Touches.refl (mayTouch (.flClear)) s
  unfold execFlClear
  repeat' (first
    | with_reducible assumption
    | (with_reducible refine out_next ?_)
    | (with_reducible apply out_ite)
    | (with_reducible refine clearFlash_touches ?_ rfl))

theorem frame_fill {y0 y1 y2} : OutTouches (mayTouch (.fill y0 y1 y2)) s (exec (.fill y0 y1 y2) s) := by
  show OutTouches (mayTouch (.fill y0 y1 y2)) s (execFill y0 y1 y2 s)
  have h0 := Touches.refl (mayTouch (.fill y0 y1 y2)) s
  unfold execFill
  repeat' (first
    | with_reducible assumption
    | (with_reducible refine out_next ?_)
    | (with_reducible apply out_ite)
    | (with_reducible refine runOp_touches ?_ rfl))

theorem frame_copy {y0 y1 y2} : OutTouches (mayTouch (.copy y0 y1 y2)) s (exec (.copy y0 y1 y2) s) := by
  show OutTouches (mayTouch (.copy y0 y1 y2)) s (execCopy y0 y1 y2 s)
  have h0 := Touches.refl (mayTouch (.copy y0 y1 y2)) s
  unfold execCopy
  repeat' (first
    | with_reducible assumption
    | (with_reducible refine out_next ?_)
    | (with_reducible apply out_ite)
    | (with_reducible refine runOp_touches ?_ rfl))

theorem frame_cmp {y0 y1 y2} : OutTouches (mayTouch (.cmp y0 y1 y2)) s (exec (.cmp y0 y1 y2) s) := by
  show OutTouches (mayTouch (.cmp y0 y1 y2)) s (execCmp y0 y1 y2 s)
  have h0 := Touches.refl (mayTouch (.cmp y0 y1 y2)) s
  unfold execCmp
  repeat' (first
    | with_reducible assumption
    | (with_reducible refine out_next ?_)
    | (with_reducible apply out_ite)
    | (with_reducible refine runOp_touches ?_ rfl))

theorem frame_red {y0 y1 y2} : OutTouches (mayTouch (.red y0 y1 y2)) s (exec (.red y0 y1 y2) s) := by
  show OutTouches (mayTouch (.red y0 y1 y2)) s (execRed y0 y1 y2 s)
  have h0 := Touches.refl (mayTouch (.red y0 y1 y2)) s
  unfold execRed
  repeat' (first
    | with_reducible assumption
    | (with_reducible refine out_next ?_)
    | (with_reducible apply out_ite)
    | (with_reducible refine runOp_touches ?_ rfl))

theorem frame_score {y0 y1 y2} : OutTouches (mayTouch (.score y0 y1 y2)) s (exec (.score y0 y1 y2) s) := by
  show OutTouches (mayTouch (.score y0 y1 y2)) s (execScore y0 y1 y2 s)
  have h0 := Touches.refl (mayTouch (.score y0 y1 y2)) s
  unfold execScore
  repeat' (first
    | with_reducible assumption
    | (with_reducible refine out_next ?_)
    | (with_reducible apply out_ite)
    | (with_reducible refine runOp_touches ?_ rfl))

theorem frame_topk {y0 y1 y2} : OutTouches (mayTouch (.topk y0 y1 y2)) s (exec (.topk y0 y1 y2) s) := by
  show OutTouches (mayTouch (.topk y0 y1 y2)) s (execTopk y0 y1 y2 s)
  have h0 := Touches.refl (mayTouch (.topk y0 y1 y2)) s
  unfold execTopk
  repeat' (first
    | with_reducible assumption
    | (with_reducible refine out_next ?_)
    | (with_reducible apply out_ite)
    | (with_reducible refine runOp_touches ?_ rfl))

theorem frame_gather {y0 y1 y2} : OutTouches (mayTouch (.gather y0 y1 y2)) s (exec (.gather y0 y1 y2) s) := by
  show OutTouches (mayTouch (.gather y0 y1 y2)) s (execGather y0 y1 y2 s)
  have h0 := Touches.refl (mayTouch (.gather y0 y1 y2)) s
  unfold execGather
  repeat' (first
    | with_reducible assumption
    | (with_reducible refine out_next ?_)
    | (with_reducible apply out_ite)
    | (with_reducible refine runOp_touches ?_ rfl))

theorem frame_cvt {y0 y1 y2} : OutTouches (mayTouch (.cvt y0 y1 y2)) s (exec (.cvt y0 y1 y2) s) := by
  show OutTouches (mayTouch (.cvt y0 y1 y2)) s (execCvt y0 y1 y2 s)
  have h0 := Touches.refl (mayTouch (.cvt y0 y1 y2)) s
  unfold execCvt
  repeat' (first
    | with_reducible assumption
    | (with_reducible refine out_next ?_)
    | (with_reducible apply out_ite)
    | (with_reducible refine runOp_touches ?_ rfl))

theorem frame_prog {y0 y1 y2} : OutTouches (mayTouch (.prog y0 y1 y2)) s (exec (.prog y0 y1 y2) s) := by
  show OutTouches (mayTouch (.prog y0 y1 y2)) s (execProg y0 y1 y2 s)
  have h0 := Touches.refl (mayTouch (.prog y0 y1 y2)) s
  unfold execProg
  repeat' (first
    | with_reducible assumption
    | ((try lift_lets); intro x; first
        | (refine (fun (hx : Touches (mayTouch (.prog y0 y1 y2)) s x) => ?_) ?_ <;> [clear_value x; (unfold x; clear x)])
        | clear_value x)
    | (with_reducible refine out_next ?_)
    | (with_reducible apply out_ite)
    | (with_reducible refine faultProgram_touches ?_ rfl)
    | (with_reducible refine leadLost_touches ?_ rfl)
    | (with_reducible refine startProgram_touches ?_ rfl)
    | (with_reducible refine parityTrap_touches ?_ rfl)
    | with_reducible apply touches_ite
    | (with_reducible refine touches_foldl ?_ (fun _ _ _ => ?_))
    | (with_reducible refine touches_foldl_fst ?_ (fun _ _ _ => ?_))
    | (with_reducible refine touches_foldl_snd ?_ (fun _ _ _ => ?_))
    | (fail_if_no_progress (with_reducible refine touches_mk ?_ rfl rfl))
    | (split <;> (try (rename_i e1; have e2 := congrArg Prod.fst e1; have e3 := congrArg Prod.snd e1; dsimp only at e2 e3; (try subst e2); (try subst e3)))))

theorem frame_halt {y0 y1} : OutTouches (mayTouch (.halt y0 y1)) s (exec (.halt y0 y1) s) := by
  show OutTouches (mayTouch (.halt y0 y1)) s (execHalt y0 y1 s)
  have h0 := Touches.refl (mayTouch (.halt y0 y1)) s
  unfold execHalt
  repeat' (first
    | with_reducible assumption
    | (with_reducible refine out_next ?_)
    | (with_reducible apply out_ite)
    | (with_reducible refine endCommand_touches ?_ rfl)
    | (with_reducible refine faultProgram_touches ?_ rfl)
    | (with_reducible refine runWord_touches ?_ rfl (fun _ _ _ _ _ => ?_))
    | with_reducible apply touches_ite)

theorem frame_run {y0 y1 y2} : OutTouches (mayTouch (.run y0 y1 y2)) s (exec (.run y0 y1 y2) s) := by
  show OutTouches (mayTouch (.run y0 y1 y2)) s (execRun y0 y1 y2 s)
  have h0 := Touches.refl (mayTouch (.run y0 y1 y2)) s
  unfold execRun
  repeat' (first
    | with_reducible assumption
    | ((try lift_lets); intro x; first
        | (refine (fun (hx : Touches (mayTouch (.run y0 y1 y2)) s x) => ?_) ?_ <;> [clear_value x; (unfold x; clear x)])
        | clear_value x)
    | (with_reducible refine out_next ?_)
    | (with_reducible apply out_ite)
    | (with_reducible refine seenClk_touches ?_ rfl)
    | (with_reducible refine beginDesc_touches ?_ rfl)
    | (with_reducible refine faultProgram_touches ?_ rfl)
    | (with_reducible refine runWord_touches ?_ rfl (fun _ _ _ _ _ => ?_))
    | (with_reducible refine continueStep_touches ?_ rfl)
    | with_reducible apply touches_ite
    | (with_reducible refine touches_foldl ?_ (fun _ _ _ => ?_))
    | (with_reducible refine touches_foldl_fst ?_ (fun _ _ _ => ?_))
    | (with_reducible refine touches_foldl_snd ?_ (fun _ _ _ => ?_))
    | (fail_if_no_progress (with_reducible refine touches_mk ?_ rfl rfl))
    | (split <;> (try (rename_i e1; have e2 := congrArg Prod.fst e1; have e3 := congrArg Prod.snd e1; dsimp only at e2 e3; (try subst e2); (try subst e3)))))

theorem frame_adda {y0 y1} : OutTouches (mayTouch (.adda y0 y1)) s (exec (.adda y0 y1) s) := by
  show OutTouches (mayTouch (.adda y0 y1)) s (execAdda y0 y1 s)
  have h0 := Touches.refl (mayTouch (.adda y0 y1)) s
  unfold execAdda
  repeat' (first
    | with_reducible assumption
    | (with_reducible refine out_next ?_)
    | (with_reducible apply out_ite)
    | (with_reducible refine faultProgram_touches ?_ rfl)
    | (with_reducible refine runWord_touches ?_ rfl (fun _ _ _ _ _ => ?_))
    | (with_reducible refine nextWord_touches ?_ rfl)
    | with_reducible apply touches_ite)

theorem frame_setc {y0 y1} : OutTouches (mayTouch (.setc y0 y1)) s (exec (.setc y0 y1) s) := by
  show OutTouches (mayTouch (.setc y0 y1)) s (execSetc y0 y1 s)
  have h0 := Touches.refl (mayTouch (.setc y0 y1)) s
  unfold execSetc
  repeat' (first
    | with_reducible assumption
    | (with_reducible refine out_next ?_)
    | (with_reducible apply out_ite)
    | (with_reducible refine runWord_touches ?_ rfl (fun _ _ _ _ _ => ?_))
    | (with_reducible refine nextWord_touches ?_ rfl))

theorem frame_loop {y0 y1} : OutTouches (mayTouch (.loop y0 y1)) s (exec (.loop y0 y1) s) := by
  show OutTouches (mayTouch (.loop y0 y1)) s (execLoop y0 y1 s)
  have h0 := Touches.refl (mayTouch (.loop y0 y1)) s
  unfold execLoop
  repeat' (first
    | with_reducible assumption
    | ((try lift_lets); intro x; first
        | (refine (fun (hx : Touches (mayTouch (.loop y0 y1)) s x) => ?_) ?_ <;> [clear_value x; (unfold x; clear x)])
        | clear_value x)
    | (with_reducible refine out_next ?_)
    | (with_reducible apply out_ite)
    | (with_reducible refine faultProgram_touches ?_ rfl)
    | (with_reducible refine progMod_touches ?_ rfl)
    | (with_reducible refine runWord_touches ?_ rfl (fun _ _ _ _ _ => ?_))
    | with_reducible apply touches_ite)

theorem frame_mova {y0 y1} : OutTouches (mayTouch (.mova y0 y1)) s (exec (.mova y0 y1) s) := by
  show OutTouches (mayTouch (.mova y0 y1)) s (execMova y0 y1 s)
  have h0 := Touches.refl (mayTouch (.mova y0 y1)) s
  unfold execMova
  repeat' (first
    | with_reducible assumption
    | (with_reducible refine out_next ?_)
    | (with_reducible apply out_ite)
    | (with_reducible refine faultProgram_touches ?_ rfl)
    | (with_reducible refine runWord_touches ?_ rfl (fun _ _ _ _ _ => ?_))
    | (with_reducible refine nextWord_touches ?_ rfl)
    | with_reducible apply touches_ite)

theorem frame_imemRewriteDone {y0} : OutTouches (mayTouch (.imemRewriteDone y0)) s (exec (.imemRewriteDone y0) s) := by
  show OutTouches (mayTouch (.imemRewriteDone y0)) s (execImemRewriteDone y0 s)
  have h0 := Touches.refl (mayTouch (.imemRewriteDone y0)) s
  unfold execImemRewriteDone
  repeat' (first
    | with_reducible assumption
    | ((try lift_lets); intro x; first
        | (refine (fun (hx : Touches (mayTouch (.imemRewriteDone y0)) s x) => ?_) ?_ <;> [clear_value x; (unfold x; clear x)])
        | clear_value x)
    | (with_reducible refine out_next ?_)
    | (with_reducible apply out_ite)
    | (with_reducible refine readCopies_touches ?_ rfl)
    | with_reducible apply touches_ite
    | (with_reducible refine touches_foldl ?_ (fun _ _ _ => ?_))
    | (with_reducible refine touches_foldl_fst ?_ (fun _ _ _ => ?_))
    | (with_reducible refine touches_foldl_snd ?_ (fun _ _ _ => ?_))
    | (fail_if_no_progress (with_reducible refine touches_mk ?_ rfl rfl)))

theorem frame_engResume {y0} : OutTouches (mayTouch (.engResume y0)) s (exec (.engResume y0) s) := by
  show OutTouches (mayTouch (.engResume y0)) s (execEngResume y0 s)
  have h0 := Touches.refl (mayTouch (.engResume y0)) s
  unfold execEngResume
  repeat' (first
    | with_reducible assumption
    | (with_reducible refine out_next ?_)
    | (with_reducible apply out_ite)
    | (with_reducible refine resumeEngine_touches ?_ rfl))

theorem frame_engPrune {y0} : OutTouches (mayTouch (.engPrune y0)) s (exec (.engPrune y0) s) := by
  show OutTouches (mayTouch (.engPrune y0)) s (execEngPrune y0 s)
  have h0 := Touches.refl (mayTouch (.engPrune y0)) s
  unfold execEngPrune
  repeat' (first
    | with_reducible assumption
    | (with_reducible refine out_next ?_)
    | (with_reducible apply out_ite)
    | (with_reducible refine pruneEngine_touches ?_ rfl))

theorem frame_engClear {y0} : OutTouches (mayTouch (.engClear y0)) s (exec (.engClear y0) s) := by
  show OutTouches (mayTouch (.engClear y0)) s (execEngClear y0 s)
  have h0 := Touches.refl (mayTouch (.engClear y0)) s
  unfold execEngClear
  repeat' (first
    | with_reducible assumption
    | (with_reducible refine out_next ?_)
    | (with_reducible apply out_ite)
    | (with_reducible refine clearEngine_touches ?_ rfl))

theorem frame_sqEnable {y0 y1 y2} : OutTouches (mayTouch (.sqEnable y0 y1 y2)) s (exec (.sqEnable y0 y1 y2) s) := by
  show OutTouches (mayTouch (.sqEnable y0 y1 y2)) s (execSqEnable y0 y1 y2 s)
  have h0 := Touches.refl (mayTouch (.sqEnable y0 y1 y2)) s
  unfold execSqEnable
  repeat' (first
    | with_reducible assumption
    | (with_reducible refine out_next ?_)
    | (with_reducible apply out_ite)
    | (with_reducible refine writeSqCfg_touches ?_ rfl))

theorem frame_sqDisable {y0 y1} : OutTouches (mayTouch (.sqDisable y0 y1)) s (exec (.sqDisable y0 y1) s) := by
  show OutTouches (mayTouch (.sqDisable y0 y1)) s (execSqDisable y0 y1 s)
  have h0 := Touches.refl (mayTouch (.sqDisable y0 y1)) s
  unfold execSqDisable
  repeat' (first
    | with_reducible assumption
    | (with_reducible refine out_next ?_)
    | (with_reducible apply out_ite)
    | (with_reducible refine disablePair_touches ?_ rfl))

theorem frame_sqRestart {y0 y1} : OutTouches (mayTouch (.sqRestart y0 y1)) s (exec (.sqRestart y0 y1) s) := by
  show OutTouches (mayTouch (.sqRestart y0 y1)) s (execSqRestart y0 y1 s)
  have h0 := Touches.refl (mayTouch (.sqRestart y0 y1)) s
  unfold execSqRestart
  repeat' (first
    | with_reducible assumption
    | (with_reducible refine out_next ?_)
    | (with_reducible apply out_ite)
    | (with_reducible refine restartPair_touches ?_ rfl))

theorem frame_sqClear {y0 y1} : OutTouches (mayTouch (.sqClear y0 y1)) s (exec (.sqClear y0 y1) s) := by
  show OutTouches (mayTouch (.sqClear y0 y1)) s (execSqClear y0 y1 s)
  have h0 := Touches.refl (mayTouch (.sqClear y0 y1)) s
  unfold execSqClear
  repeat' (first
    | with_reducible assumption
    | (with_reducible refine out_next ?_)
    | (with_reducible apply out_ite)
    | (with_reducible refine clearPair_touches ?_ rfl))

theorem frame_cmdPiSample {y0 y1} : OutTouches (mayTouch (.cmdPiSample y0 y1)) s (exec (.cmdPiSample y0 y1) s) := by
  show OutTouches (mayTouch (.cmdPiSample y0 y1)) s (execCmdPiSample y0 y1 s)
  have h0 := Touches.refl (mayTouch (.cmdPiSample y0 y1)) s
  unfold execCmdPiSample
  repeat' (first
    | with_reducible assumption
    | ((try lift_lets); intro x; first
        | (refine (fun (hx : Touches (mayTouch (.cmdPiSample y0 y1)) s x) => ?_) ?_ <;> [clear_value x; (unfold x; clear x)])
        | clear_value x)
    | (with_reducible refine out_next ?_)
    | (with_reducible apply out_ite)
    | (with_reducible refine pairMod_touches ?_ rfl)
    | (with_reducible refine seenClk_touches ?_ rfl)
    | (with_reducible refine samplePair_touches ?_ rfl))

theorem frame_sqTake {y0 y1 y2} : OutTouches (mayTouch (.sqTake y0 y1 y2)) s (exec (.sqTake y0 y1 y2) s) := by
  show OutTouches (mayTouch (.sqTake y0 y1 y2)) s (execSqTake y0 y1 y2 s)
  have h0 := Touches.refl (mayTouch (.sqTake y0 y1 y2)) s
  unfold execSqTake
  repeat' (first
    | with_reducible assumption
    | ((try lift_lets); intro x; first
        | (refine (fun (hx : Touches (mayTouch (.sqTake y0 y1 y2)) s x) => ?_) ?_ <;> [clear_value x; (unfold x; clear x)])
        | clear_value x)
    | (with_reducible refine out_next ?_)
    | (with_reducible apply out_ite)
    | (with_reducible refine seenClk_touches ?_ rfl)
    | (with_reducible refine takeCommand_touches ?_ rfl))

theorem frame_completionPop {y0} : OutTouches (mayTouch (.completionPop y0)) s (exec (.completionPop y0) s) := by
  show OutTouches (mayTouch (.completionPop y0)) s (execCompletionPop y0 s)
  have h0 := Touches.refl (mayTouch (.completionPop y0)) s
  unfold execCompletionPop
  repeat' (first
    | with_reducible assumption
    | (with_reducible refine out_next ?_)
    | (with_reducible apply out_ite)
    | (with_reducible refine popCompletion_touches ?_ rfl)
    | with_reducible apply touches_ite
    | (with_reducible refine touches_foldl ?_ (fun _ _ _ => ?_))
    | (with_reducible refine touches_foldl_fst ?_ (fun _ _ _ => ?_))
    | (with_reducible refine touches_foldl_snd ?_ (fun _ _ _ => ?_))
    | (fail_if_no_progress (with_reducible refine touches_mk ?_ rfl rfl))
    | (split <;> (try (rename_i e1; have e2 := congrArg Prod.fst e1; have e3 := congrArg Prod.snd e1; dsimp only at e2 e3; (try subst e2); (try subst e3)))))

theorem frame_tileTranslate {y0 y1 y2 y3 y4 y5} :
    OutTouches (mayTouch (.tileTranslate y0 y1 y2 y3 y4 y5)) s (exec (.tileTranslate y0 y1 y2 y3 y4 y5) s) := by
  show OutTouches (mayTouch (.tileTranslate y0 y1 y2 y3 y4 y5)) s (execTileTranslate y0 y1 y2 y3 y4 y5 s)
  have h0 := Touches.refl (mayTouch (.tileTranslate y0 y1 y2 y3 y4 y5)) s
  unfold execTileTranslate
  repeat' (first
    | with_reducible assumption
    | ((try lift_lets); intro x; first
        | (refine (fun (hx : Touches (mayTouch (.tileTranslate y0 y1 y2 y3 y4 y5)) s x) => ?_) ?_ <;> [clear_value x; (unfold x; clear x)])
        | clear_value x)
    | (with_reducible refine out_next ?_)
    | (with_reducible apply out_ite)
    | (with_reducible refine seenClk_touches ?_ rfl)
    | (with_reducible refine translateTile_touches ?_ rfl)
    | with_reducible apply touches_ite
    | (with_reducible refine touches_foldl ?_ (fun _ _ _ => ?_))
    | (with_reducible refine touches_foldl_fst ?_ (fun _ _ _ => ?_))
    | (with_reducible refine touches_foldl_snd ?_ (fun _ _ _ => ?_))
    | (fail_if_no_progress (with_reducible refine touches_mk ?_ rfl rfl))
    | (split <;> (try (rename_i e1; have e2 := congrArg Prod.fst e1; have e3 := congrArg Prod.snd e1; dsimp only at e2 e3; (try subst e2); (try subst e3)))))

theorem frame_translationWalkDone {y0} :
    OutTouches (mayTouch (.translationWalkDone y0)) s (exec (.translationWalkDone y0) s) := by
  show OutTouches (mayTouch (.translationWalkDone y0)) s (execTranslationWalkDone y0 s)
  have h0 := Touches.refl (mayTouch (.translationWalkDone y0)) s
  unfold execTranslationWalkDone
  repeat' (first
    | with_reducible assumption
    | ((try lift_lets); intro x; first
        | (refine (fun (hx : Touches (mayTouch (.translationWalkDone y0)) s x) => ?_) ?_ <;> [clear_value x; (unfold x; clear x)])
        | clear_value x)
    | (with_reducible refine out_next ?_)
    | (with_reducible apply out_ite)
    | (with_reducible refine bufPut_touches ?_ rfl)
    | with_reducible apply touches_ite
    | (with_reducible refine touches_foldl ?_ (fun _ _ _ => ?_))
    | (with_reducible refine touches_foldl_fst ?_ (fun _ _ _ => ?_))
    | (with_reducible refine touches_foldl_snd ?_ (fun _ _ _ => ?_))
    | (fail_if_no_progress (with_reducible refine touches_mk ?_ rfl rfl))
    | (split <;> (try (rename_i e1; have e2 := congrArg Prod.fst e1; have e3 := congrArg Prod.snd e1; dsimp only at e2 e3; (try subst e2); (try subst e3)))))

theorem frame_unmap {y0 y1 y2} : OutTouches (mayTouch (.unmap y0 y1 y2)) s (exec (.unmap y0 y1 y2) s) := by
  show OutTouches (mayTouch (.unmap y0 y1 y2)) s (execUnmap y0 y1 y2 s)
  have h0 := Touches.refl (mayTouch (.unmap y0 y1 y2)) s
  unfold execUnmap
  repeat' (first
    | with_reducible assumption
    | (with_reducible refine out_next ?_)
    | (with_reducible apply out_ite)
    | (with_reducible refine seenClk_touches ?_ rfl)
    | (with_reducible refine startMapOp_touches ?_ rfl))

theorem frame_map {y0 y1 y2 y3} : OutTouches (mayTouch (.map y0 y1 y2 y3)) s (exec (.map y0 y1 y2 y3) s) := by
  show OutTouches (mayTouch (.map y0 y1 y2 y3)) s (execMap y0 y1 y2 y3 s)
  have h0 := Touches.refl (mayTouch (.map y0 y1 y2 y3)) s
  unfold execMap
  repeat' (first
    | with_reducible assumption
    | (with_reducible refine out_next ?_)
    | (with_reducible apply out_ite)
    | (with_reducible refine seenClk_touches ?_ rfl)
    | (with_reducible refine startMapOp_touches ?_ rfl))

theorem frame_move {y0 y1 y2 y3} : OutTouches (mayTouch (.move y0 y1 y2 y3)) s (exec (.move y0 y1 y2 y3) s) := by
  show OutTouches (mayTouch (.move y0 y1 y2 y3)) s (execMove y0 y1 y2 y3 s)
  have h0 := Touches.refl (mayTouch (.move y0 y1 y2 y3)) s
  unfold execMove
  repeat' (first
    | with_reducible assumption
    | (with_reducible refine out_next ?_)
    | (with_reducible apply out_ite)
    | (with_reducible refine seenClk_touches ?_ rfl)
    | (with_reducible refine startMapOp_touches ?_ rfl))

theorem frame_mappingWithdrawDone {y0 y1} :
    OutTouches (mayTouch (.mappingWithdrawDone y0 y1)) s (exec (.mappingWithdrawDone y0 y1) s) := by
  show OutTouches (mayTouch (.mappingWithdrawDone y0 y1)) s (execMappingWithdrawDone y0 y1 s)
  have h0 := Touches.refl (mayTouch (.mappingWithdrawDone y0 y1)) s
  unfold execMappingWithdrawDone
  repeat' (first
    | with_reducible assumption
    | (with_reducible refine out_next ?_)
    | (with_reducible apply out_ite)
    | (with_reducible refine seenClk_touches ?_ rfl)
    | (with_reducible refine endWithdrawal_touches ?_ rfl))

theorem frame_patrolScrubRead {y0 y1} :
    OutTouches (mayTouch (.patrolScrubRead y0 y1)) s (exec (.patrolScrubRead y0 y1) s) := by
  show OutTouches (mayTouch (.patrolScrubRead y0 y1)) s (execPatrolScrubRead y0 y1 s)
  have h0 := Touches.refl (mayTouch (.patrolScrubRead y0 y1)) s
  unfold execPatrolScrubRead
  repeat' (first
    | with_reducible assumption
    | ((try lift_lets); intro x; first
        | (refine (fun (hx : Touches (mayTouch (.patrolScrubRead y0 y1)) s x) => ?_) ?_ <;> [clear_value x; (unfold x; clear x)])
        | (have _ := fun a => x a; dsimp only [x]; clear x)
        | clear_value x)
    | (with_reducible refine out_next ?_)
    | (with_reducible apply out_ite)
    | (with_reducible refine chanMod_touches ?_ rfl)
    | (with_reducible refine seenClk_touches ?_ rfl)
    | (with_reducible refine scrubStep_touches ?_ rfl (fun _ _ => ?_))
    | (with_reducible refine endPass_touches ?_ rfl)
    | (with_reducible refine scrubColumn_touches ?_ rfl))

theorem frame_demandScrub {y0 y1} : OutTouches (mayTouch (.demandScrub y0 y1)) s (exec (.demandScrub y0 y1) s) := by
  show OutTouches (mayTouch (.demandScrub y0 y1)) s (execDemandScrub y0 y1 s)
  have h0 := Touches.refl (mayTouch (.demandScrub y0 y1)) s
  unfold execDemandScrub
  repeat' (first
    | with_reducible assumption
    | ((try lift_lets); intro x; first
        | (refine (fun (hx : Touches (mayTouch (.demandScrub y0 y1)) s x) => ?_) ?_ <;> [clear_value x; (unfold x; clear x)])
        | clear_value x)
    | (with_reducible refine out_next ?_)
    | (with_reducible apply out_ite)
    | (with_reducible refine chanMod_touches ?_ rfl)
    | (with_reducible refine seenClk_touches ?_ rfl)
    | (with_reducible refine scrubStep_touches ?_ rfl (fun _ _ => ?_))
    | (with_reducible refine scrubColumn_touches ?_ rfl)
    | with_reducible apply touches_ite
    | (with_reducible refine touches_foldl ?_ (fun _ _ _ => ?_))
    | (with_reducible refine touches_foldl_fst ?_ (fun _ _ _ => ?_))
    | (with_reducible refine touches_foldl_snd ?_ (fun _ _ _ => ?_))
    | (fail_if_no_progress (with_reducible refine touches_mk ?_ rfl rfl))
    | (split <;> (try (rename_i e1; have e2 := congrArg Prod.fst e1; have e3 := congrArg Prod.snd e1; dsimp only at e2 e3; (try subst e2); (try subst e3)))))

theorem frame_sramScrub {y0 y1 y2 y3} :
    OutTouches (mayTouch (.sramScrub y0 y1 y2 y3)) s (exec (.sramScrub y0 y1 y2 y3) s) := by
  show OutTouches (mayTouch (.sramScrub y0 y1 y2 y3)) s (execSramScrub y0 y1 y2 y3 s)
  have h0 := Touches.refl (mayTouch (.sramScrub y0 y1 y2 y3)) s
  unfold execSramScrub
  repeat' (first
    | with_reducible assumption
    | ((try lift_lets); intro x; first
        | (refine (fun (hx : Touches (mayTouch (.sramScrub y0 y1 y2 y3)) s x) => ?_) ?_ <;> [clear_value x; (unfold x; clear x)])
        | clear_value x)
    | (with_reducible refine out_next ?_)
    | (with_reducible apply out_ite)
    | (with_reducible refine noteSramRow_touches ?_ rfl)
    | (with_reducible refine scrubNear_touches ?_ rfl)
    | (with_reducible refine cacheError_touches ?_ rfl)
    | (with_reducible refine scrubDirectory_touches ?_ rfl)
    | (with_reducible refine scrubInstruction_touches ?_ rfl)
    | (with_reducible refine scrubConfiguration_touches ?_ rfl)
    | with_reducible apply touches_ite
    | (with_reducible refine touches_foldl ?_ (fun _ _ _ => ?_))
    | (with_reducible refine touches_foldl_fst ?_ (fun _ _ _ => ?_))
    | (with_reducible refine touches_foldl_snd ?_ (fun _ _ _ => ?_))
    | (fail_if_no_progress (with_reducible refine touches_mk ?_ rfl rfl))
    | (split <;> (try (rename_i e1; have e2 := congrArg Prod.fst e1; have e3 := congrArg Prod.snd e1; dsimp only at e2 e3; (try subst e2); (try subst e3)))))

theorem frame_diLogClear : OutTouches (mayTouch (.diLogClear)) s (exec (.diLogClear) s) := by
  show OutTouches (mayTouch (.diLogClear)) s (execDiLogClear s)
  have h0 := Touches.refl (mayTouch (.diLogClear)) s
  unfold execDiLogClear
  repeat' (first
    | with_reducible assumption
    | (with_reducible refine out_next ?_)
    | (with_reducible apply out_ite)
    | (with_reducible refine clearLog_touches ?_ rfl))

theorem frame_diClear : OutTouches (mayTouch (.diClear)) s (exec (.diClear) s) := by
  show OutTouches (mayTouch (.diClear)) s (execDiClear s)
  have h0 := Touches.refl (mayTouch (.diClear)) s
  unfold execDiClear
  repeat' (first
    | with_reducible assumption
    | (with_reducible refine out_next ?_)
    | (with_reducible apply out_ite)
    | (with_reducible refine clearDi_touches ?_ rfl))

theorem frame_diInjectArm {y0} : OutTouches (mayTouch (.diInjectArm y0)) s (exec (.diInjectArm y0) s) := by
  show OutTouches (mayTouch (.diInjectArm y0)) s (execDiInjectArm y0 s)
  have h0 := Touches.refl (mayTouch (.diInjectArm y0)) s
  unfold execDiInjectArm
  repeat' (first
    | with_reducible assumption
    | (with_reducible refine out_next ?_)
    | (with_reducible apply out_ite)
    | (with_reducible refine armInject_touches ?_ rfl))

theorem frame_ethFrameReceive {y0 y1} :
    OutTouches (mayTouch (.ethFrameReceive y0 y1)) s (exec (.ethFrameReceive y0 y1) s) := by
  show OutTouches (mayTouch (.ethFrameReceive y0 y1)) s (execEthFrameReceive y0 y1 s)
  have h0 := Touches.refl (mayTouch (.ethFrameReceive y0 y1)) s
  unfold execEthFrameReceive
  repeat' (first
    | with_reducible assumption
    | (with_reducible refine out_next ?_)
    | (with_reducible apply out_ite)
    | (with_reducible refine receiveFrame_touches ?_ rfl))

theorem frame_rdmaWrite {y0} : OutTouches (mayTouch (.rdmaWrite y0)) s (exec (.rdmaWrite y0) s) := by
  show OutTouches (mayTouch (.rdmaWrite y0)) s (execRdmaWrite y0 s)
  have hx : Touches (mayTouch (.rdmaWrite y0)) s (seenClk s y0) := seenClk_touches (Touches.refl _ s) rfl
  unfold execRdmaWrite
  generalize seenClk s y0 = x at hx ⊢
  dsimp only
  split
  · exact out_next hx
  · rename_i e
    exact out_next (settleKept_touches (writeTurn_touches (takeKept_touches e hx rfl) rfl) rfl)

theorem frame_rdmaRead {y0} : OutTouches (mayTouch (.rdmaRead y0)) s (exec (.rdmaRead y0) s) := by
  show OutTouches (mayTouch (.rdmaRead y0)) s (execRdmaRead y0 s)
  have hx : Touches (mayTouch (.rdmaRead y0)) s (seenClk s y0) := seenClk_touches (Touches.refl _ s) rfl
  unfold execRdmaRead
  generalize seenClk s y0 = x at hx ⊢
  dsimp only
  split
  · exact out_next hx
  · rename_i e
    exact out_next (settleKept_touches (readTurn_touches (takeKept_touches e hx rfl) rfl) rfl)

theorem frame_rdmaAtomic {y0} : OutTouches (mayTouch (.rdmaAtomic y0)) s (exec (.rdmaAtomic y0) s) := by
  show OutTouches (mayTouch (.rdmaAtomic y0)) s (execRdmaAtomic y0 s)
  have hx : Touches (mayTouch (.rdmaAtomic y0)) s (seenClk s y0) := seenClk_touches (Touches.refl _ s) rfl
  unfold execRdmaAtomic
  generalize seenClk s y0 = x at hx ⊢
  dsimp only
  split
  · exact out_next hx
  · rename_i e
    exact out_next (settleKept_touches (atomicTurn_touches (takeKept_touches e hx rfl) rfl) rfl)

theorem frame_controlSend {y0} : OutTouches (mayTouch (.controlSend y0)) s (exec (.controlSend y0) s) := by
  show OutTouches (mayTouch (.controlSend y0)) s (execControlSend y0 s)
  have hx : Touches (mayTouch (.controlSend y0)) s (seenClk s y0) := seenClk_touches (Touches.refl _ s) rfl
  unfold execControlSend
  generalize seenClk s y0 = x at hx ⊢
  dsimp only
  split
  · exact out_next hx
  · rename_i e
    exact out_next (settleKept_touches (sendTurn_touches (takeKept_touches e hx rfl) rfl) rfl)

theorem frame_ethAckReceive : OutTouches (mayTouch .ethAckReceive) s (exec .ethAckReceive s) := by
  show OutTouches (mayTouch .ethAckReceive) s (execEthAckReceive s)
  have h0 := Touches.refl (mayTouch .ethAckReceive) s
  unfold execEthAckReceive
  split
  · exact out_next h0
  · rename_i e
    have hx := takeKept_touches e h0 rfl
    dsimp only
    repeat' (first | with_reducible apply out_ite | split)
    all_goals refine out_next ?_
    all_goals first
      | with_reducible exact hx
      | with_reducible exact qpSet_touches hx rfl
      | with_reducible exact qpFatal_touches hx rfl
      | with_reducible refine rnrAnswer_touches (qpSet_touches hx rfl) ?_
      | with_reducible refine retryAnswers_touches (qpSet_touches hx rfl) ?_
    all_goals rfl

theorem frame_ethAckTimeout {y0} : OutTouches (mayTouch (.ethAckTimeout y0)) s (exec (.ethAckTimeout y0) s) := by
  show OutTouches (mayTouch (.ethAckTimeout y0)) s (execEthAckTimeout y0 s)
  have h0 := Touches.refl (mayTouch (.ethAckTimeout y0)) s
  unfold execEthAckTimeout
  repeat' (first
    | with_reducible assumption
    | ((try lift_lets); intro x; first
        | (refine (fun (hx : Touches (mayTouch (.ethAckTimeout y0)) s x) => ?_) ?_ <;> [clear_value x; (unfold x; clear x)])
        | clear_value x)
    | (with_reducible refine out_next ?_)
    | (with_reducible apply out_ite)
    | (with_reducible refine retryAnswers_touches ?_ rfl))

theorem frame_ethRnrResend {y0} : OutTouches (mayTouch (.ethRnrResend y0)) s (exec (.ethRnrResend y0) s) := by
  show OutTouches (mayTouch (.ethRnrResend y0)) s (execEthRnrResend y0 s)
  have h0 := Touches.refl (mayTouch (.ethRnrResend y0)) s
  unfold execEthRnrResend
  repeat' (first
    | with_reducible assumption
    | ((try lift_lets); intro x; first
        | (refine (fun (hx : Touches (mayTouch (.ethRnrResend y0)) s x) => ?_) ?_ <;> [clear_value x; (unfold x; clear x)])
        | clear_value x)
    | (with_reducible refine out_next ?_)
    | (with_reducible apply out_ite)
    | (with_reducible refine qpSet_touches ?_ rfl)
    | (with_reducible refine resendFrom_touches ?_ rfl)
    | with_reducible apply touches_ite
    | (with_reducible refine touches_foldl ?_ (fun _ _ _ => ?_))
    | (with_reducible refine touches_foldl_fst ?_ (fun _ _ _ => ?_))
    | (with_reducible refine touches_foldl_snd ?_ (fun _ _ _ => ?_))
    | (fail_if_no_progress (with_reducible refine touches_mk ?_ rfl rfl))
    | (split <;> (try (rename_i e1; have e2 := congrArg Prod.fst e1; have e3 := congrArg Prod.snd e1; dsimp only at e2 e3; (try subst e2); (try subst e3)))))

theorem frame_ethQpStateWrite {y0 y1} :
    OutTouches (mayTouch (.ethQpStateWrite y0 y1)) s (exec (.ethQpStateWrite y0 y1) s) := by
  show OutTouches (mayTouch (.ethQpStateWrite y0 y1)) s (execEthQpStateWrite y0 y1 s)
  have h0 := Touches.refl (mayTouch (.ethQpStateWrite y0 y1)) s
  unfold execEthQpStateWrite
  repeat' (first
    | with_reducible assumption
    | (with_reducible refine out_next ?_)
    | (with_reducible apply out_ite)
    | (with_reducible refine tearDue_touches ?_ rfl)
    | (with_reducible refine writeQpState_touches ?_ rfl))

theorem frame_ethPhyWrite {y0 y1} : OutTouches (mayTouch (.ethPhyWrite y0 y1)) s (exec (.ethPhyWrite y0 y1) s) := by
  show OutTouches (mayTouch (.ethPhyWrite y0 y1)) s (execEthPhyWrite y0 y1 s)
  have h0 := Touches.refl (mayTouch (.ethPhyWrite y0 y1)) s
  unfold execEthPhyWrite
  repeat' (first
    | with_reducible assumption
    | (with_reducible refine out_next ?_)
    | (with_reducible apply out_ite)
    | (with_reducible refine writePhy_touches ?_ rfl))

theorem frame_mgmtQpAccess {y0} : OutTouches (mayTouch (.mgmtQpAccess y0)) s (exec (.mgmtQpAccess y0) s) := by
  show OutTouches (mayTouch (.mgmtQpAccess y0)) s (execMgmtQpAccess y0 s)
  have h0 := Touches.refl (mayTouch (.mgmtQpAccess y0)) s
  unfold execMgmtQpAccess
  repeat' (first
    | with_reducible assumption
    | ((try lift_lets); intro x; first
        | (refine (fun (hx : Touches (mayTouch (.mgmtQpAccess y0)) s x) => ?_) ?_ <;> [clear_value x; (unfold x; clear x)])
        | clear_value x)
    | (with_reducible refine out_next ?_)
    | (with_reducible apply out_ite)
    | (with_reducible refine seenClk_touches ?_ rfl)
    | (with_reducible refine takeMgmt_touches (by assumption) ?_ rfl)
    | (with_reducible refine mgmtPacket_touches ?_ rfl)
    | with_reducible apply touches_ite
    | (with_reducible refine touches_foldl ?_ (fun _ _ _ => ?_))
    | (with_reducible refine touches_foldl_fst ?_ (fun _ _ _ => ?_))
    | (with_reducible refine touches_foldl_snd ?_ (fun _ _ _ => ?_))
    | (fail_if_no_progress (with_reducible refine touches_mk ?_ rfl rfl))
    | (split <;> (try (rename_i e1; have e2 := congrArg Prod.fst e1; have e3 := congrArg Prod.snd e1; dsimp only at e2 e3; (try subst e2); (try subst e3)))))

theorem frame_quote : OutTouches (mayTouch (.quote)) s (exec (.quote) s) := by
  show OutTouches (mayTouch (.quote)) s (execQuote s)
  have h0 := Touches.refl (mayTouch (.quote)) s
  unfold execQuote
  repeat' (first
    | with_reducible assumption
    | (with_reducible refine out_next ?_)
    | (with_reducible apply out_ite)
    | (with_reducible refine quoteGo_touches ?_ rfl))

theorem frame_quoteDone : OutTouches (mayTouch (.quoteDone)) s (exec (.quoteDone) s) := by
  show OutTouches (mayTouch (.quoteDone)) s (execQuoteDone s)
  have h0 := Touches.refl (mayTouch (.quoteDone)) s
  unfold execQuoteDone
  repeat' (first
    | with_reducible assumption
    | ((try lift_lets); intro x; first
        | (refine (fun (hx : Touches (mayTouch (.quoteDone)) s x) => ?_) ?_ <;> [clear_value x; (unfold x; clear x)])
        | clear_value x)
    | (with_reducible refine out_next ?_)
    | (with_reducible apply out_ite)
    | (with_reducible refine secEnd_touches ?_ rfl)
    | (with_reducible refine mailStore_touches ?_ rfl)
    | with_reducible apply touches_ite
    | (with_reducible refine touches_foldl ?_ (fun _ _ _ => ?_))
    | (with_reducible refine touches_foldl_fst ?_ (fun _ _ _ => ?_))
    | (with_reducible refine touches_foldl_snd ?_ (fun _ _ _ => ?_))
    | (fail_if_no_progress (with_reducible refine touches_mk ?_ rfl rfl))
    | (split <;> (try (rename_i e1; have e2 := congrArg Prod.fst e1; have e3 := congrArg Prod.snd e1; dsimp only at e2 e3; (try subst e2); (try subst e3)))))

theorem frame_keyset : OutTouches (mayTouch (.keyset)) s (exec (.keyset) s) := by
  show OutTouches (mayTouch (.keyset)) s (execKeyset s)
  have h0 := Touches.refl (mayTouch (.keyset)) s
  unfold execKeyset
  repeat' (first
    | with_reducible assumption
    | (with_reducible refine out_next ?_)
    | (with_reducible apply out_ite)
    | (with_reducible refine keysetGo_touches ?_ rfl))

theorem frame_keysetInstallDone {y0} :
    OutTouches (mayTouch (.keysetInstallDone y0)) s (exec (.keysetInstallDone y0) s) := by
  show OutTouches (mayTouch (.keysetInstallDone y0)) s (execKeysetInstallDone y0 s)
  have h0 := Touches.refl (mayTouch (.keysetInstallDone y0)) s
  unfold execKeysetInstallDone
  repeat' (first
    | with_reducible assumption
    | ((try lift_lets); intro x; first
        | (refine (fun (hx : Touches (mayTouch (.keysetInstallDone y0)) s x) => ?_) ?_ <;> [clear_value x; (unfold x; clear x)])
        | clear_value x)
    | (with_reducible refine out_next ?_)
    | (with_reducible apply out_ite)
    | (with_reducible refine installKeys_touches ?_ rfl)
    | with_reducible apply touches_ite
    | (with_reducible refine touches_foldl ?_ (fun _ _ _ => ?_))
    | (with_reducible refine touches_foldl_fst ?_ (fun _ _ _ => ?_))
    | (with_reducible refine touches_foldl_snd ?_ (fun _ _ _ => ?_))
    | (fail_if_no_progress (with_reducible refine touches_mk ?_ rfl rfl))
    | (split <;> (try (rename_i e1; have e2 := congrArg Prod.fst e1; have e3 := congrArg Prod.snd e1; dsimp only at e2 e3; (try subst e2); (try subst e3)))))

theorem frame_exchangeKeyExpiry {y0} :
    OutTouches (mayTouch (.exchangeKeyExpiry y0)) s (exec (.exchangeKeyExpiry y0) s) := by
  show OutTouches (mayTouch (.exchangeKeyExpiry y0)) s (execExchangeKeyExpiry y0 s)
  have h0 := Touches.refl (mayTouch (.exchangeKeyExpiry y0)) s
  unfold execExchangeKeyExpiry
  repeat' (first
    | with_reducible assumption
    | (with_reducible refine out_next ?_)
    | (with_reducible apply out_ite)
    | (with_reducible refine partMod_touches ?_ rfl)
    | with_reducible apply touches_ite
    | (with_reducible refine touches_foldl ?_ (fun _ _ _ => ?_))
    | (with_reducible refine touches_foldl_fst ?_ (fun _ _ _ => ?_))
    | (with_reducible refine touches_foldl_snd ?_ (fun _ _ _ => ?_))
    | (fail_if_no_progress (with_reducible refine touches_mk ?_ rfl rfl))
    | (split <;> (try (rename_i e1; have e2 := congrArg Prod.fst e1; have e3 := congrArg Prod.snd e1; dsimp only at e2 e3; (try subst e2); (try subst e3)))))

theorem frame_owner : OutTouches (mayTouch (.owner)) s (exec (.owner) s) := by
  show OutTouches (mayTouch (.owner)) s (execOwner s)
  have h0 := Touches.refl (mayTouch (.owner)) s
  unfold execOwner
  repeat' (first
    | with_reducible assumption
    | (with_reducible refine out_next ?_)
    | (with_reducible apply out_ite)
    | (with_reducible refine ownerGo_touches ?_ rfl))

theorem frame_seal : OutTouches (mayTouch (.seal)) s (exec (.seal) s) := by
  show OutTouches (mayTouch (.seal)) s (execSeal s)
  have h0 := Touches.refl (mayTouch (.seal)) s
  unfold execSeal
  repeat' (first
    | with_reducible assumption
    | (with_reducible refine out_next ?_)
    | (with_reducible apply out_ite)
    | (with_reducible refine sealGo_touches ?_ rfl))

theorem frame_sealDone : OutTouches (mayTouch (.sealDone)) s (exec (.sealDone) s) := by
  show OutTouches (mayTouch (.sealDone)) s (execSealDone s)
  have h0 := Touches.refl (mayTouch (.sealDone)) s
  unfold execSealDone
  repeat' (first
    | with_reducible assumption
    | ((try lift_lets); intro x; first
        | (refine (fun (hx : Touches (mayTouch (.sealDone)) s x) => ?_) ?_ <;> [clear_value x; (unfold x; clear x)])
        | clear_value x)
    | (with_reducible refine out_next ?_)
    | (with_reducible apply out_ite)
    | (with_reducible refine lgSeal_touches ?_ rfl)
    | (with_reducible refine recallUnits_touches ?_ rfl)
    | (with_reducible refine secEnd_touches ?_ rfl)
    | (with_reducible refine endSeal_touches ?_ rfl)
    | with_reducible apply touches_ite
    | (with_reducible refine touches_foldl ?_ (fun _ _ _ => ?_))
    | (with_reducible refine touches_foldl_fst ?_ (fun _ _ _ => ?_))
    | (with_reducible refine touches_foldl_snd ?_ (fun _ _ _ => ?_))
    | (fail_if_no_progress (with_reducible refine touches_mk ?_ rfl rfl))
    | (split <;> (try (rename_i e1; have e2 := congrArg Prod.fst e1; have e3 := congrArg Prod.snd e1; dsimp only at e2 e3; (try subst e2); (try subst e3)))))

theorem frame_fwStage {y0} : OutTouches (mayTouch (.fwStage y0)) s (exec (.fwStage y0) s) := by
  show OutTouches (mayTouch (.fwStage y0)) s (execFwStage y0 s)
  have h0 := Touches.refl (mayTouch (.fwStage y0)) s
  unfold execFwStage
  repeat' (first
    | with_reducible assumption
    | (with_reducible refine out_next ?_)
    | (with_reducible apply out_ite)
    | (with_reducible refine fwStageGo_touches ?_ rfl))

theorem frame_fwActivate : OutTouches (mayTouch (.fwActivate)) s (exec (.fwActivate) s) := by
  show OutTouches (mayTouch (.fwActivate)) s (execFwActivate s)
  have h0 := Touches.refl (mayTouch (.fwActivate)) s
  unfold execFwActivate
  repeat' (first
    | with_reducible assumption
    | (with_reducible refine out_next ?_)
    | (with_reducible apply out_ite)
    | (with_reducible refine fwActivateGo_touches ?_ rfl))

theorem frame_fwCommit : OutTouches (mayTouch (.fwCommit)) s (exec (.fwCommit) s) := by
  show OutTouches (mayTouch (.fwCommit)) s (execFwCommit s)
  have h0 := Touches.refl (mayTouch (.fwCommit)) s
  unfold execFwCommit
  repeat' (first
    | with_reducible assumption
    | (with_reducible refine out_next ?_)
    | (with_reducible apply out_ite)
    | (with_reducible refine fwCommitGo_touches ?_ rfl))

theorem frame_fwRollback : OutTouches (mayTouch (.fwRollback)) s (exec (.fwRollback) s) := by
  show OutTouches (mayTouch (.fwRollback)) s (execFwRollback s)
  have h0 := Touches.refl (mayTouch (.fwRollback)) s
  unfold execFwRollback
  repeat' (first
    | with_reducible assumption
    | (with_reducible refine out_next ?_)
    | (with_reducible apply out_ite)
    | (with_reducible refine rollbackFirmware_touches ?_ rfl)
    | with_reducible apply touches_ite
    | (with_reducible refine touches_foldl ?_ (fun _ _ _ => ?_))
    | (with_reducible refine touches_foldl_fst ?_ (fun _ _ _ => ?_))
    | (with_reducible refine touches_foldl_snd ?_ (fun _ _ _ => ?_))
    | (fail_if_no_progress (with_reducible refine touches_mk ?_ rfl rfl))
    | (split <;> (try (rename_i e1; have e2 := congrArg Prod.fst e1; have e3 := congrArg Prod.snd e1; dsimp only at e2 e3; (try subst e2); (try subst e3)))))

theorem frame_ledgerHeldAppend {y0} :
    OutTouches (mayTouch (.ledgerHeldAppend y0)) s (exec (.ledgerHeldAppend y0) s) := by
  show OutTouches (mayTouch (.ledgerHeldAppend y0)) s (execLedgerHeldAppend y0 s)
  have h0 := Touches.refl (mayTouch (.ledgerHeldAppend y0)) s
  unfold execLedgerHeldAppend
  repeat' (first
    | with_reducible assumption
    | ((try lift_lets); intro x; first
        | (refine (fun (hx : Touches (mayTouch (.ledgerHeldAppend y0)) s x) => ?_) ?_ <;> [clear_value x; (unfold x; clear x)])
        | clear_value x)
    | (with_reducible refine out_next ?_)
    | (with_reducible apply out_ite)
    | (with_reducible refine partMod_touches ?_ rfl)
    | (with_reducible refine lgStore_touches ?_ rfl)
    | (with_reducible refine releaseEvent_touches ?_ rfl)
    | with_reducible apply touches_ite
    | (with_reducible refine touches_foldl ?_ (fun _ _ _ => ?_))
    | (with_reducible refine touches_foldl_fst ?_ (fun _ _ _ => ?_))
    | (with_reducible refine touches_foldl_snd ?_ (fun _ _ _ => ?_))
    | (fail_if_no_progress (with_reducible refine touches_mk ?_ rfl rfl))
    | (split <;> (try (rename_i e1; have e2 := congrArg Prod.fst e1; have e3 := congrArg Prod.snd e1; dsimp only at e2 e3; (try subst e2); (try subst e3)))))

theorem frame_lgTailWrite {y0 y1} : OutTouches (mayTouch (.lgTailWrite y0 y1)) s (exec (.lgTailWrite y0 y1) s) := by
  show OutTouches (mayTouch (.lgTailWrite y0 y1)) s (execLgTailWrite y0 y1 s)
  have h0 := Touches.refl (mayTouch (.lgTailWrite y0 y1)) s
  unfold execLgTailWrite
  repeat' (first
    | with_reducible assumption
    | (with_reducible refine out_next ?_)
    | (with_reducible apply out_ite)
    | (with_reducible refine writeTail_touches ?_ rfl))

theorem frame_heartbeatSend : OutTouches (mayTouch (.heartbeatSend)) s (exec (.heartbeatSend) s) := by
  show OutTouches (mayTouch (.heartbeatSend)) s (execHeartbeatSend s)
  have h0 := Touches.refl (mayTouch (.heartbeatSend)) s
  unfold execHeartbeatSend
  repeat' (first
    | with_reducible assumption
    | ((try lift_lets); intro x; first
        | (refine (fun (hx : Touches (mayTouch (.heartbeatSend)) s x) => ?_) ?_ <;> [clear_value x; (unfold x; clear x)])
        | clear_value x)
    | (with_reducible refine out_next ?_)
    | (with_reducible apply out_ite)
    | (with_reducible refine injectOn_touches ?_ rfl))

theorem frame_heartbeat : OutTouches (mayTouch (.heartbeat)) s (exec (.heartbeat) s) := by
  show OutTouches (mayTouch (.heartbeat)) s (execHeartbeat s)
  have h0 := Touches.refl (mayTouch (.heartbeat)) s
  unfold execHeartbeat
  repeat' (first
    | with_reducible assumption
    | ((try lift_lets); intro x; first
        | (refine (fun (hx : Touches (mayTouch (.heartbeat)) s x) => ?_) ?_ <;> [clear_value x; (unfold x; clear x)])
        | clear_value x)
    | (with_reducible refine out_next ?_)
    | (with_reducible apply out_ite)
    | (with_reducible refine takeInbox_touches (by assumption) ?_ rfl)
    | with_reducible apply touches_ite
    | (with_reducible refine touches_foldl ?_ (fun _ _ _ => ?_))
    | (with_reducible refine touches_foldl_fst ?_ (fun _ _ _ => ?_))
    | (with_reducible refine touches_foldl_snd ?_ (fun _ _ _ => ?_))
    | (fail_if_no_progress (with_reducible refine touches_mk ?_ rfl rfl))
    | (split <;> (try (rename_i e1; have e2 := congrArg Prod.fst e1; have e3 := congrArg Prod.snd e1; dsimp only at e2 e3; (try subst e2); (try subst e3)))))

theorem frame_burstSend : OutTouches (mayTouch (.burstSend)) s (exec (.burstSend) s) := by
  show OutTouches (mayTouch (.burstSend)) s (execBurstSend s)
  have h0 := Touches.refl (mayTouch (.burstSend)) s
  unfold execBurstSend
  repeat' (first
    | with_reducible assumption
    | ((try lift_lets); intro x; first
        | (refine (fun (hx : Touches (mayTouch (.burstSend)) s x) => ?_) ?_ <;> [clear_value x; (unfold x; clear x)])
        | clear_value x)
    | (with_reducible refine out_next ?_)
    | (with_reducible apply out_ite)
    | (with_reducible refine emit_touches ?_ rfl))

theorem frame_burstReceive {y0} : OutTouches (mayTouch (.burstReceive y0)) s (exec (.burstReceive y0) s) := by
  show OutTouches (mayTouch (.burstReceive y0)) s (execBurstReceive y0 s)
  have h0 := Touches.refl (mayTouch (.burstReceive y0)) s
  unfold execBurstReceive
  repeat' (first
    | with_reducible assumption
    | ((try lift_lets); intro x; first
        | (refine (fun (hx : Touches (mayTouch (.burstReceive y0)) s x) => ?_) ?_ <;> [clear_value x; (unfold x; clear x)])
        | clear_value x)
    | (with_reducible refine out_next ?_)
    | (with_reducible apply out_ite)
    | (with_reducible refine takeBurst_touches ?_ rfl))

theorem frame_peerFailureDeclare : OutTouches (mayTouch (.peerFailureDeclare)) s (exec (.peerFailureDeclare) s) := by
  show OutTouches (mayTouch (.peerFailureDeclare)) s (execPeerFailureDeclare s)
  have h0 := Touches.refl (mayTouch (.peerFailureDeclare)) s
  unfold execPeerFailureDeclare
  repeat' (first
    | with_reducible assumption
    | ((try lift_lets); intro x; first
        | (refine (fun (hx : Touches (mayTouch (.peerFailureDeclare)) s x) => ?_) ?_ <;> [clear_value x; (unfold x; clear x)])
        | clear_value x)
    | (with_reducible refine out_next ?_)
    | (with_reducible apply out_ite)
    | with_reducible apply touches_ite
    | (with_reducible refine touches_foldl ?_ (fun _ _ _ => ?_))
    | (with_reducible refine touches_foldl_fst ?_ (fun _ _ _ => ?_))
    | (with_reducible refine touches_foldl_snd ?_ (fun _ _ _ => ?_))
    | (fail_if_no_progress (with_reducible refine touches_mk ?_ rfl rfl)))

theorem frame_leadClaim {y0 y1} : OutTouches (mayTouch (.leadClaim y0 y1)) s (exec (.leadClaim y0 y1) s) := by
  show OutTouches (mayTouch (.leadClaim y0 y1)) s (execLeadClaim y0 y1 s)
  have h0 := Touches.refl (mayTouch (.leadClaim y0 y1)) s
  unfold execLeadClaim
  repeat' (first
    | with_reducible assumption
    | ((try lift_lets); intro x; first
        | (refine (fun (hx : Touches (mayTouch (.leadClaim y0 y1)) s x) => ?_) ?_ <;> [clear_value x; (unfold x; clear x)])
        | clear_value x)
    | (with_reducible refine out_next ?_)
    | (with_reducible apply out_ite)
    | (with_reducible refine seenClk_touches ?_ rfl)
    | (with_reducible refine takeOver_touches ?_ rfl))

theorem frame_twnLeadRelease : OutTouches (mayTouch (.twnLeadRelease)) s (exec (.twnLeadRelease) s) := by
  show OutTouches (mayTouch (.twnLeadRelease)) s (execTwnLeadRelease s)
  have h0 := Touches.refl (mayTouch (.twnLeadRelease)) s
  unfold execTwnLeadRelease
  repeat' (first
    | with_reducible assumption
    | (with_reducible refine out_next ?_)
    | (with_reducible apply out_ite)
    | (with_reducible refine loseLead_touches ?_ rfl))

theorem frame_twnRelease : OutTouches (mayTouch (.twnRelease)) s (exec (.twnRelease) s) := by
  show OutTouches (mayTouch (.twnRelease)) s (execTwnRelease s)
  have h0 := Touches.refl (mayTouch (.twnRelease)) s
  unfold execTwnRelease
  repeat' (first
    | with_reducible assumption
    | (with_reducible refine out_next ?_)
    | (with_reducible apply out_ite)
    | (with_reducible refine releaseLead_touches ?_ rfl))

theorem frame_twnClear : OutTouches (mayTouch (.twnClear)) s (exec (.twnClear) s) := by
  show OutTouches (mayTouch (.twnClear)) s (execTwnClear s)
  have h0 := Touches.refl (mayTouch (.twnClear)) s
  unfold execTwnClear
  repeat' (first
    | with_reducible assumption
    | (with_reducible refine out_next ?_)
    | (with_reducible apply out_ite)
    | (with_reducible refine clearTwin_touches ?_ rfl))

theorem frame_twinPub : OutTouches (mayTouch (.twinPub)) s (exec (.twinPub) s) := by
  show OutTouches (mayTouch (.twinPub)) s (execTwinPub s)
  have h0 := Touches.refl (mayTouch (.twinPub)) s
  unfold execTwinPub
  repeat' (first
    | with_reducible assumption
    | ((try lift_lets); intro x; first
        | (refine (fun (hx : Touches (mayTouch (.twinPub)) s x) => ?_) ?_ <;> [clear_value x; (unfold x; clear x)])
        | clear_value x)
    | (with_reducible refine out_next ?_)
    | (with_reducible apply out_ite)
    | (with_reducible refine takeInbox_touches (by assumption) ?_ rfl)
    | (with_reducible refine answerTwin_touches ?_ rfl)
    | with_reducible apply touches_ite
    | (with_reducible refine touches_foldl ?_ (fun _ _ _ => ?_))
    | (with_reducible refine touches_foldl_fst ?_ (fun _ _ _ => ?_))
    | (with_reducible refine touches_foldl_snd ?_ (fun _ _ _ => ?_))
    | (fail_if_no_progress (with_reducible refine touches_mk ?_ rfl rfl))
    | (split <;> (try (rename_i e1; have e2 := congrArg Prod.fst e1; have e3 := congrArg Prod.snd e1; dsimp only at e2 e3; (try subst e2); (try subst e3)))))

theorem frame_twinPublishDecide : OutTouches (mayTouch (.twinPublishDecide)) s (exec (.twinPublishDecide) s) := by
  show OutTouches (mayTouch (.twinPublishDecide)) s (execTwinPublishDecide s)
  have h0 := Touches.refl (mayTouch (.twinPublishDecide)) s
  unfold execTwinPublishDecide
  repeat' (first
    | with_reducible assumption
    | (with_reducible refine out_next ?_)
    | (with_reducible apply out_ite)
    | (with_reducible refine settle_touches ?_ rfl)
    | (with_reducible refine decideTwin_touches ?_ rfl)
    | with_reducible apply touches_ite
    | (with_reducible refine touches_foldl ?_ (fun _ _ _ => ?_))
    | (with_reducible refine touches_foldl_fst ?_ (fun _ _ _ => ?_))
    | (with_reducible refine touches_foldl_snd ?_ (fun _ _ _ => ?_))
    | (fail_if_no_progress (with_reducible refine touches_mk ?_ rfl rfl))
    | (split <;> (try (rename_i e1; have e2 := congrArg Prod.fst e1; have e3 := congrArg Prod.snd e1; dsimp only at e2 e3; (try subst e2); (try subst e3)))))

theorem frame_twinWr : OutTouches (mayTouch (.twinWr)) s (exec (.twinWr) s) := by
  show OutTouches (mayTouch (.twinWr)) s (execTwinWr s)
  have h0 := Touches.refl (mayTouch (.twinWr)) s
  unfold execTwinWr
  repeat' (first
    | with_reducible assumption
    | ((try lift_lets); intro x; first
        | (refine (fun (hx : Touches (mayTouch (.twinWr)) s x) => ?_) ?_ <;> [clear_value x; (unfold x; clear x)])
        | clear_value x)
    | (with_reducible refine out_next ?_)
    | (with_reducible apply out_ite)
    | (with_reducible refine takeInbox_touches (by assumption) ?_ rfl)
    | (with_reducible refine answerTwin_touches ?_ rfl)
    | (with_reducible refine landMirror_touches ?_ rfl)
    | with_reducible apply touches_ite
    | (with_reducible refine touches_foldl ?_ (fun _ _ _ => ?_))
    | (with_reducible refine touches_foldl_fst ?_ (fun _ _ _ => ?_))
    | (with_reducible refine touches_foldl_snd ?_ (fun _ _ _ => ?_))
    | (fail_if_no_progress (with_reducible refine touches_mk ?_ rfl rfl))
    | (split <;> (try (rename_i e1; have e2 := congrArg Prod.fst e1; have e3 := congrArg Prod.snd e1; dsimp only at e2 e3; (try subst e2); (try subst e3)))))

theorem frame_twinCmp : OutTouches (mayTouch (.twinCmp)) s (exec (.twinCmp) s) := by
  show OutTouches (mayTouch (.twinCmp)) s (execTwinCmp s)
  have h0 := Touches.refl (mayTouch (.twinCmp)) s
  unfold execTwinCmp
  repeat' (first
    | with_reducible assumption
    | ((try lift_lets); intro x; first
        | (refine (fun (hx : Touches (mayTouch (.twinCmp)) s x) => ?_) ?_ <;> [clear_value x; (unfold x; clear x)])
        | clear_value x)
    | (with_reducible refine out_next ?_)
    | (with_reducible apply out_ite)
    | (with_reducible refine finish_touches ?_ rfl)
    | (with_reducible refine takeInbox_touches (by assumption) ?_ rfl)
    | (with_reducible refine sendNextTwin_touches ?_ rfl)
    | with_reducible apply touches_ite
    | (with_reducible refine touches_foldl ?_ (fun _ _ _ => ?_))
    | (with_reducible refine touches_foldl_fst ?_ (fun _ _ _ => ?_))
    | (with_reducible refine touches_foldl_snd ?_ (fun _ _ _ => ?_))
    | (fail_if_no_progress (with_reducible refine touches_mk ?_ rfl rfl))
    | (split <;> (try (rename_i e1; have e2 := congrArg Prod.fst e1; have e3 := congrArg Prod.snd e1; dsimp only at e2 e3; (try subst e2); (try subst e3))))
    | dsimp only [id])

theorem frame_followerAckTimeout : OutTouches (mayTouch (.followerAckTimeout)) s (exec (.followerAckTimeout) s) := by
  show OutTouches (mayTouch (.followerAckTimeout)) s (execFollowerAckTimeout s)
  have h0 := Touches.refl (mayTouch (.followerAckTimeout)) s
  unfold execFollowerAckTimeout
  repeat' (first
    | with_reducible assumption
    | ((try lift_lets); intro x; first
        | (refine (fun (hx : Touches (mayTouch (.followerAckTimeout)) s x) => ?_) ?_ <;> [clear_value x; (unfold x; clear x)])
        | clear_value x)
    | (with_reducible refine out_next ?_)
    | (with_reducible apply out_ite)
    | (with_reducible refine sendHeldBack_touches ?_ rfl)
    | (with_reducible refine stopTwinPackets_touches ?_ rfl)
    | with_reducible apply touches_ite
    | (with_reducible refine touches_foldl ?_ (fun _ _ _ => ?_))
    | (with_reducible refine touches_foldl_fst ?_ (fun _ _ _ => ?_))
    | (with_reducible refine touches_foldl_snd ?_ (fun _ _ _ => ?_))
    | (fail_if_no_progress (with_reducible refine touches_mk ?_ rfl rfl)))

theorem frame_shadowExpiry : OutTouches (mayTouch (.shadowExpiry)) s (exec (.shadowExpiry) s) := by
  show OutTouches (mayTouch (.shadowExpiry)) s (execShadowExpiry s)
  have h0 := Touches.refl (mayTouch (.shadowExpiry)) s
  unfold execShadowExpiry
  repeat' (first
    | with_reducible assumption
    | ((try lift_lets); intro x; first
        | (refine (fun (hx : Touches (mayTouch (.shadowExpiry)) s x) => ?_) ?_ <;> [clear_value x; (unfold x; clear x)])
        | clear_value x)
    | (with_reducible refine out_next ?_)
    | (with_reducible apply out_ite)
    | (with_reducible refine dropSvc_touches ?_ rfl)
    | with_reducible apply touches_ite
    | (with_reducible refine touches_foldl ?_ (fun _ _ _ => ?_))
    | (with_reducible refine touches_foldl_fst ?_ (fun _ _ _ => ?_))
    | (with_reducible refine touches_foldl_snd ?_ (fun _ _ _ => ?_))
    | (fail_if_no_progress (with_reducible refine touches_mk ?_ rfl rfl)))

theorem frame_resyncStart : OutTouches (mayTouch (.resyncStart)) s (exec (.resyncStart) s) := by
  show OutTouches (mayTouch (.resyncStart)) s (execResyncStart s)
  have h0 := Touches.refl (mayTouch (.resyncStart)) s
  unfold execResyncStart
  repeat' (first
    | with_reducible assumption
    | ((try lift_lets); intro x; first
        | (refine (fun (hx : Touches (mayTouch (.resyncStart)) s x) => ?_) ?_ <;> [clear_value x; (unfold x; clear x)])
        | clear_value x)
    | (with_reducible refine out_next ?_)
    | (with_reducible apply out_ite)
    | (with_reducible refine stopCopy_touches ?_ rfl)
    | with_reducible apply touches_ite
    | (with_reducible refine touches_foldl ?_ (fun _ _ _ => ?_))
    | (with_reducible refine touches_foldl_fst ?_ (fun _ _ _ => ?_))
    | (with_reducible refine touches_foldl_snd ?_ (fun _ _ _ => ?_))
    | (fail_if_no_progress (with_reducible refine touches_mk ?_ rfl rfl)))

theorem frame_twinCopyRead : OutTouches (mayTouch (.twinCopyRead)) s (exec (.twinCopyRead) s) := by
  show OutTouches (mayTouch (.twinCopyRead)) s (execTwinCopyRead s)
  have h0 := Touches.refl (mayTouch (.twinCopyRead)) s
  unfold execTwinCopyRead
  repeat' (first
    | with_reducible assumption
    | ((try lift_lets); intro x; first
        | (refine (fun (hx : Touches (mayTouch (.twinCopyRead)) s x) => ?_) ?_ <;> [clear_value x; (unfold x; clear x)])
        | clear_value x)
    | (with_reducible refine out_next ?_)
    | (with_reducible apply out_ite)
    | (with_reducible refine drawFree_touches ?_ rfl)
    | (with_reducible refine sendCopy_touches ?_ rfl)
    | with_reducible apply touches_ite
    | (with_reducible refine touches_foldl ?_ (fun _ _ _ => ?_))
    | (with_reducible refine touches_foldl_fst ?_ (fun _ _ _ => ?_))
    | (with_reducible refine touches_foldl_snd ?_ (fun _ _ _ => ?_))
    | (fail_if_no_progress (with_reducible refine touches_mk ?_ rfl rfl))
    | (split <;> (try (rename_i e1; have e2 := congrArg Prod.fst e1; have e3 := congrArg Prod.snd e1; dsimp only at e2 e3; (try subst e2); (try subst e3)))))

theorem frame_twinCopyData : OutTouches (mayTouch (.twinCopyData)) s (exec (.twinCopyData) s) := by
  show OutTouches (mayTouch (.twinCopyData)) s (execTwinCopyData s)
  have h0 := Touches.refl (mayTouch (.twinCopyData)) s
  unfold execTwinCopyData
  repeat' (first
    | with_reducible assumption
    | ((try lift_lets); intro x; first
        | (refine (fun (hx : Touches (mayTouch (.twinCopyData)) s x) => ?_) ?_ <;> [clear_value x; (unfold x; clear x)])
        | clear_value x)
    | (with_reducible refine out_next ?_)
    | (with_reducible apply out_ite)
    | (with_reducible refine takeInbox_touches (by assumption) ?_ rfl)
    | (with_reducible refine landCopy_touches ?_ rfl)
    | with_reducible apply touches_ite
    | (with_reducible refine touches_foldl ?_ (fun _ _ _ => ?_))
    | (with_reducible refine touches_foldl_fst ?_ (fun _ _ _ => ?_))
    | (with_reducible refine touches_foldl_snd ?_ (fun _ _ _ => ?_))
    | (fail_if_no_progress (with_reducible refine touches_mk ?_ rfl rfl))
    | (split <;> (try (rename_i e1; have e2 := congrArg Prod.fst e1; have e3 := congrArg Prod.snd e1; dsimp only at e2 e3; (try subst e2); (try subst e3)))))

theorem frame_fenceAdd {y0 y1} : OutTouches (mayTouch (.fenceAdd y0 y1)) s (exec (.fenceAdd y0 y1) s) := by
  show OutTouches (mayTouch (.fenceAdd y0 y1)) s (execFenceAdd y0 y1 s)
  have h0 := Touches.refl (mayTouch (.fenceAdd y0 y1)) s
  unfold execFenceAdd
  repeat' (first
    | with_reducible assumption
    | (with_reducible refine out_next ?_)
    | (with_reducible apply out_ite)
    | (with_reducible refine addFence_touches ?_ rfl))

theorem frame_fenceClear {y0 y1} : OutTouches (mayTouch (.fenceClear y0 y1)) s (exec (.fenceClear y0 y1) s) := by
  show OutTouches (mayTouch (.fenceClear y0 y1)) s (execFenceClear y0 y1 s)
  have h0 := Touches.refl (mayTouch (.fenceClear y0 y1)) s
  unfold execFenceClear
  repeat' (first
    | with_reducible assumption
    | (with_reducible refine out_next ?_)
    | (with_reducible apply out_ite)
    | (with_reducible refine clearFence_touches ?_ rfl))

theorem frame_halfReset {y0} : OutTouches (mayTouch (.halfReset y0)) s (exec (.halfReset y0) s) := by
  show OutTouches (mayTouch (.halfReset y0)) s (execHalfReset y0 s)
  have h0 := Touches.refl (mayTouch (.halfReset y0)) s
  unfold execHalfReset
  repeat' (first
    | with_reducible assumption
    | ((try lift_lets); intro x; first
        | (refine (fun (hx : Touches (mayTouch (.halfReset y0)) s x) => ?_) ?_ <;> [clear_value x; (unfold x; clear x)])
        | clear_value x)
    | (with_reducible refine out_next ?_)
    | (with_reducible apply out_ite)
    | (with_reducible refine startReset_touches ?_ rfl)
    | with_reducible apply touches_ite
    | (with_reducible refine touches_foldl ?_ (fun _ _ _ => ?_))
    | (with_reducible refine touches_foldl_fst ?_ (fun _ _ _ => ?_))
    | (with_reducible refine touches_foldl_snd ?_ (fun _ _ _ => ?_))
    | (fail_if_no_progress (with_reducible refine touches_mk ?_ rfl rfl)))

theorem frame_partitionReset {y0} : OutTouches (mayTouch (.partitionReset y0)) s (exec (.partitionReset y0) s) := by
  show OutTouches (mayTouch (.partitionReset y0)) s (execPartitionReset y0 s)
  have h0 := Touches.refl (mayTouch (.partitionReset y0)) s
  unfold execPartitionReset
  repeat' (first
    | with_reducible assumption
    | ((try lift_lets); intro x; first
        | (refine (fun (hx : Touches (mayTouch (.partitionReset y0)) s x) => ?_) ?_ <;> [clear_value x; (unfold x; clear x)])
        | clear_value x)
    | (with_reducible refine out_next ?_)
    | (with_reducible apply out_ite)
    | (with_reducible refine startReset_touches ?_ rfl)
    | with_reducible apply touches_ite
    | (with_reducible refine touches_foldl ?_ (fun _ _ _ => ?_))
    | (with_reducible refine touches_foldl_fst ?_ (fun _ _ _ => ?_))
    | (with_reducible refine touches_foldl_snd ?_ (fun _ _ _ => ?_))
    | (fail_if_no_progress (with_reducible refine touches_mk ?_ rfl rfl)))

theorem frame_resetCancel : OutTouches (mayTouch (.resetCancel)) s (exec (.resetCancel) s) := by
  show OutTouches (mayTouch (.resetCancel)) s (execResetCancel s)
  have h0 := Touches.refl (mayTouch (.resetCancel)) s
  unfold execResetCancel
  repeat' (first
    | with_reducible assumption
    | (with_reducible refine out_next ?_)
    | (with_reducible apply out_ite)
    | (with_reducible refine cancelAll_touches ?_ rfl))

theorem frame_resetReady : OutTouches (mayTouch (.resetReady)) s (exec (.resetReady) s) := by
  show OutTouches (mayTouch (.resetReady)) s (execResetReady s)
  have h0 := Touches.refl (mayTouch (.resetReady)) s
  unfold execResetReady
  repeat' (first
    | with_reducible assumption
    | ((try lift_lets); intro x; first
        | (refine (fun (hx : Touches (mayTouch (.resetReady)) s x) => ?_) ?_ <;> [clear_value x; (unfold x; clear x)])
        | clear_value x)
    | (with_reducible refine out_next ?_)
    | (with_reducible apply out_ite)
    | (with_reducible refine partMod_touches ?_ rfl)
    | (with_reducible refine endSelfRefresh_touches ?_ rfl)
    | with_reducible apply touches_ite
    | (with_reducible refine touches_foldl ?_ (fun _ _ _ => ?_)))

theorem frame_spareGraft {y0} : OutTouches (mayTouch (.spareGraft y0)) s (exec (.spareGraft y0) s) := by
  show OutTouches (mayTouch (.spareGraft y0)) s (execSpareGraft y0 s)
  have h0 := Touches.refl (mayTouch (.spareGraft y0)) s
  unfold execSpareGraft
  repeat' (first
    | with_reducible assumption
    | (with_reducible refine out_next ?_)
    | (with_reducible apply out_ite)
    | (with_reducible refine graftClass_touches ?_ rfl))

theorem frame_wdtKick {y0} : OutTouches (mayTouch (.wdtKick y0)) s (exec (.wdtKick y0) s) := by
  show OutTouches (mayTouch (.wdtKick y0)) s (execWdtKick y0 s)
  have h0 := Touches.refl (mayTouch (.wdtKick y0)) s
  unfold execWdtKick
  repeat' (first
    | with_reducible assumption
    | (with_reducible refine out_next ?_)
    | (with_reducible apply out_ite)
    | (with_reducible refine kickWatchdog_touches ?_ rfl))

theorem frame_watchdogExpiry : OutTouches (mayTouch (.watchdogExpiry)) s (exec (.watchdogExpiry) s) := by
  show OutTouches (mayTouch (.watchdogExpiry)) s (execWatchdogExpiry s)
  have h0 := Touches.refl (mayTouch (.watchdogExpiry)) s
  unfold execWatchdogExpiry
  repeat' (first
    | with_reducible assumption
    | ((try lift_lets); intro x; first
        | (refine (fun (hx : Touches (mayTouch (.watchdogExpiry)) s x) => ?_) ?_ <;> [clear_value x; (unfold x; clear x)])
        | clear_value x)
    | (with_reducible refine out_next ?_)
    | (with_reducible apply out_ite)
    | (with_reducible refine rollbackFirmware_touches ?_ rfl)
    | (with_reducible refine logMgmt_touches ?_ rfl)
    | (with_reducible refine restartCommitted_touches ?_ rfl)
    | with_reducible apply touches_ite
    | (with_reducible refine touches_foldl ?_ (fun _ _ _ => ?_))
    | (with_reducible refine touches_foldl_fst ?_ (fun _ _ _ => ?_))
    | (with_reducible refine touches_foldl_snd ?_ (fun _ _ _ => ?_))
    | (fail_if_no_progress (with_reducible refine touches_mk ?_ rfl rfl)))

theorem frame_mgmtParityError : OutTouches (mayTouch (.mgmtParityError)) s (exec (.mgmtParityError) s) := by
  show OutTouches (mayTouch (.mgmtParityError)) s (execMgmtParityError s)
  have h0 := Touches.refl (mayTouch (.mgmtParityError)) s
  unfold execMgmtParityError
  repeat' (first
    | with_reducible assumption
    | (with_reducible refine out_next ?_)
    | (with_reducible apply out_ite)
    | (with_reducible refine logMgmt_touches ?_ rfl)
    | (with_reducible refine restartCommitted_touches ?_ rfl))

theorem frame_coldPowerOn {y0 y1} : OutTouches (mayTouch (.coldPowerOn y0 y1)) s (exec (.coldPowerOn y0 y1) s) := by
  show OutTouches (mayTouch (.coldPowerOn y0 y1)) s (execColdPowerOn y0 y1 s)
  have h0 := Touches.refl (mayTouch (.coldPowerOn y0 y1)) s
  unfold execColdPowerOn
  repeat' (first
    | with_reducible assumption
    | ((try lift_lets); intro x; first
        | (refine (fun (hx : Touches (mayTouch (.coldPowerOn y0 y1)) s x) => ?_) ?_ <;> [clear_value x; (unfold x; clear x)])
        | clear_value x)
    | (with_reducible refine out_next ?_)
    | (with_reducible apply out_ite)
    | (with_reducible refine tryStart_touches ?_ rfl)
    | with_reducible apply touches_ite
    | (with_reducible refine touches_foldl ?_ (fun _ _ _ => ?_))
    | (with_reducible refine touches_foldl_fst ?_ (fun _ _ _ => ?_))
    | (with_reducible refine touches_foldl_snd ?_ (fun _ _ _ => ?_))
    | (fail_if_no_progress (with_reducible refine touches_mk ?_ rfl rfl)))

theorem frame_hardwareFillDone : OutTouches (mayTouch .hardwareFillDone) s (exec .hardwareFillDone s) := by
  show OutTouches (mayTouch .hardwareFillDone) s (execHardwareFillDone s)
  have h0 := Touches.refl (mayTouch .hardwareFillDone) s
  have hx : Touches (mayTouch .hardwareFillDone) s (channelsServe s) := channelsServe_touches h0 rfl
  unfold execHardwareFillDone
  apply out_ite
  · exact out_next h0
  · generalize channelsServe s = x at hx ⊢
    dsimp only
    apply out_ite
    · refine out_next (setPwrFault_touches ?_ rfl)
      exact touches_mk hx rfl rfl
    · exact out_next (touches_mk hx rfl rfl)

theorem frame_bootImageLoad {y0 y1} :
    OutTouches (mayTouch (.bootImageLoad y0 y1)) s (exec (.bootImageLoad y0 y1) s) := by
  show OutTouches (mayTouch (.bootImageLoad y0 y1)) s (execBootImageLoad y0 y1 s)
  have h0 := Touches.refl (mayTouch (.bootImageLoad y0 y1)) s
  unfold execBootImageLoad
  repeat' (first
    | with_reducible assumption
    | ((try lift_lets); intro x; first
        | (refine (fun (hx : Touches (mayTouch (.bootImageLoad y0 y1)) s x) => ?_) ?_ <;> [clear_value x; (unfold x; clear x)])
        | (have _ : ImgState := x; dsimp only [x]; clear x)
        | clear_value x)
    | (with_reducible refine out_next ?_)
    | (with_reducible apply out_ite)
    | (with_reducible refine loadFailed_touches ?_ rfl)
    | with_reducible apply touches_ite
    | (with_reducible refine touches_foldl ?_ (fun _ _ _ => ?_))
    | (with_reducible refine touches_foldl_fst ?_ (fun _ _ _ => ?_))
    | (with_reducible refine touches_foldl_snd ?_ (fun _ _ _ => ?_))
    | (fail_if_no_progress (with_reducible refine touches_mk ?_ rfl rfl))
    | (split <;> (try (rename_i e1; have e2 := congrArg Prod.fst e1; have e3 := congrArg Prod.snd e1; dsimp only at e2 e3; (try subst e2); (try subst e3)))))

theorem frame_bootImageApply : OutTouches (mayTouch (.bootImageApply)) s (exec (.bootImageApply) s) := by
  show OutTouches (mayTouch (.bootImageApply)) s (execBootImageApply s)
  have h0 := Touches.refl (mayTouch (.bootImageApply)) s
  unfold execBootImageApply
  repeat' (first
    | with_reducible assumption
    | ((try lift_lets); intro x; first
        | (refine (fun (hx : Touches (mayTouch (.bootImageApply)) s x) => ?_) ?_ <;> [clear_value x; (unfold x; clear x)])
        | clear_value x)
    | (with_reducible refine out_next ?_)
    | (with_reducible apply out_ite)
    | (with_reducible refine drawFree_touches ?_ rfl)
    | (with_reducible refine layImage_touches ?_ rfl)
    | (with_reducible refine fillDevice_touches ?_ rfl)
    | (with_reducible refine loadFailed_touches ?_ rfl)
    | with_reducible apply touches_ite
    | (with_reducible refine touches_foldl ?_ (fun _ _ _ => ?_))
    | (with_reducible refine touches_foldl_fst ?_ (fun _ _ _ => ?_))
    | (with_reducible refine touches_foldl_snd ?_ (fun _ _ _ => ?_))
    | (fail_if_no_progress (with_reducible refine touches_mk ?_ rfl rfl))
    | (split <;> (try (rename_i e1; have e2 := congrArg Prod.fst e1; have e3 := congrArg Prod.snd e1; dsimp only at e2 e3; (try subst e2); (try subst e3)))))

theorem frame_powerLoss : OutTouches (mayTouch (.powerLoss)) s (exec (.powerLoss) s) := by
  show OutTouches (mayTouch (.powerLoss)) s (execPowerLoss s)
  have h0 := Touches.refl (mayTouch (.powerLoss)) s
  unfold execPowerLoss
  repeat' (first
    | with_reducible assumption
    | (with_reducible refine out_next ?_)
    | (with_reducible apply out_ite)
    | (with_reducible refine losePower_touches ?_ rfl))

theorem frame_overvoltageShutdown : OutTouches (mayTouch (.overvoltageShutdown)) s (exec (.overvoltageShutdown) s) := by
  show OutTouches (mayTouch (.overvoltageShutdown)) s (execOvervoltageShutdown s)
  have h0 := Touches.refl (mayTouch (.overvoltageShutdown)) s
  unfold execOvervoltageShutdown
  repeat' (first
    | with_reducible assumption
    | ((try lift_lets); intro x; first
        | (refine (fun (hx : Touches (mayTouch (.overvoltageShutdown)) s x) => ?_) ?_ <;> [clear_value x; (unfold x; clear x)])
        | clear_value x)
    | (with_reducible refine out_next ?_)
    | (with_reducible apply out_ite)
    | (with_reducible refine losePower_touches ?_ rfl)
    | with_reducible apply touches_ite
    | (with_reducible refine touches_foldl ?_ (fun _ _ _ => ?_))
    | (with_reducible refine touches_foldl_fst ?_ (fun _ _ _ => ?_))
    | (with_reducible refine touches_foldl_snd ?_ (fun _ _ _ => ?_))
    | (fail_if_no_progress (with_reducible refine touches_mk ?_ rfl rfl)))

theorem frame_rstNAssert {y0} : OutTouches (mayTouch (.rstNAssert y0)) s (exec (.rstNAssert y0) s) := by
  show OutTouches (mayTouch (.rstNAssert y0)) s (execRstNAssert y0 s)
  have h0 := Touches.refl (mayTouch (.rstNAssert y0)) s
  unfold execRstNAssert
  repeat' (first
    | with_reducible assumption
    | (with_reducible refine out_next ?_)
    | (with_reducible apply out_ite)
    | (with_reducible refine drawFree_touches ?_ rfl)
    | (with_reducible refine resetPin_touches ?_ rfl)
    | with_reducible apply touches_ite)

theorem frame_rstNRelease {y0 y1} : OutTouches (mayTouch (.rstNRelease y0 y1)) s (exec (.rstNRelease y0 y1) s) := by
  show OutTouches (mayTouch (.rstNRelease y0 y1)) s (execRstNRelease y0 y1 s)
  have h0 := Touches.refl (mayTouch (.rstNRelease y0 y1)) s
  unfold execRstNRelease
  repeat' (first
    | with_reducible assumption
    | ((try lift_lets); intro x; first
        | (refine (fun (hx : Touches (mayTouch (.rstNRelease y0 y1)) s x) => ?_) ?_ <;> [clear_value x; (unfold x; clear x)])
        | clear_value x)
    | (with_reducible refine out_next ?_)
    | (with_reducible apply out_ite)
    | (with_reducible refine tryStart_touches ?_ rfl)
    | with_reducible apply touches_ite
    | (with_reducible refine touches_foldl ?_ (fun _ _ _ => ?_))
    | (with_reducible refine touches_foldl_fst ?_ (fun _ _ _ => ?_))
    | (with_reducible refine touches_foldl_snd ?_ (fun _ _ _ => ?_))
    | (fail_if_no_progress (with_reducible refine touches_mk ?_ rfl rfl)))

theorem frame_thermalTrip : OutTouches (mayTouch (.thermalTrip)) s (exec (.thermalTrip) s) := by
  show OutTouches (mayTouch (.thermalTrip)) s (execThermalTrip s)
  have h0 := Touches.refl (mayTouch (.thermalTrip)) s
  unfold execThermalTrip
  repeat' (first
    | with_reducible assumption
    | (with_reducible refine out_next ?_)
    | (with_reducible apply out_ite)
    | (with_reducible refine trip_touches ?_ rfl))

theorem frame_powerTargetD0 : OutTouches (mayTouch (.powerTargetD0)) s (exec (.powerTargetD0) s) := by
  show OutTouches (mayTouch (.powerTargetD0)) s (execPowerTargetD0 s)
  have h0 := Touches.refl (mayTouch (.powerTargetD0)) s
  unfold execPowerTargetD0
  repeat' (first
    | with_reducible assumption
    | (with_reducible refine out_next ?_)
    | (with_reducible apply out_ite)
    | (with_reducible refine writeTarget_touches ?_ rfl))

theorem frame_powerTargetD1 : OutTouches (mayTouch (.powerTargetD1)) s (exec (.powerTargetD1) s) := by
  show OutTouches (mayTouch (.powerTargetD1)) s (execPowerTargetD1 s)
  have h0 := Touches.refl (mayTouch (.powerTargetD1)) s
  unfold execPowerTargetD1
  repeat' (first
    | with_reducible assumption
    | (with_reducible refine out_next ?_)
    | (with_reducible apply out_ite)
    | (with_reducible refine writeTarget_touches ?_ rfl))

theorem frame_powerTargetD2 : OutTouches (mayTouch (.powerTargetD2)) s (exec (.powerTargetD2) s) := by
  show OutTouches (mayTouch (.powerTargetD2)) s (execPowerTargetD2 s)
  have h0 := Touches.refl (mayTouch (.powerTargetD2)) s
  unfold execPowerTargetD2
  repeat' (first
    | with_reducible assumption
    | (with_reducible refine out_next ?_)
    | (with_reducible apply out_ite)
    | (with_reducible refine writeTarget_touches ?_ rfl))

theorem frame_powerTargetD3 : OutTouches (mayTouch (.powerTargetD3)) s (exec (.powerTargetD3) s) := by
  show OutTouches (mayTouch (.powerTargetD3)) s (execPowerTargetD3 s)
  have h0 := Touches.refl (mayTouch (.powerTargetD3)) s
  unfold execPowerTargetD3
  repeat' (first
    | with_reducible assumption
    | (with_reducible refine out_next ?_)
    | (with_reducible apply out_ite)
    | (with_reducible refine writeTarget_touches ?_ rfl))

theorem frame_d1AutoReturn : OutTouches (mayTouch (.d1AutoReturn)) s (exec (.d1AutoReturn) s) := by
  show OutTouches (mayTouch (.d1AutoReturn)) s (execD1AutoReturn s)
  have h0 := Touches.refl (mayTouch (.d1AutoReturn)) s
  unfold execD1AutoReturn
  repeat' (first
    | with_reducible assumption
    | ((try lift_lets); intro x; first
        | (refine (fun (hx : Touches (mayTouch (.d1AutoReturn)) s x) => ?_) ?_ <;> [clear_value x; (unfold x; clear x)])
        | clear_value x)
    | (with_reducible refine out_next ?_)
    | (with_reducible apply out_ite)
    | (with_reducible refine beginMove_touches ?_ rfl)
    | with_reducible apply touches_ite
    | (with_reducible refine touches_foldl ?_ (fun _ _ _ => ?_))
    | (with_reducible refine touches_foldl_fst ?_ (fun _ _ _ => ?_))
    | (with_reducible refine touches_foldl_snd ?_ (fun _ _ _ => ?_))
    | (fail_if_no_progress (with_reducible refine touches_mk ?_ rfl rfl)))

theorem frame_powerTransitionDone : OutTouches (mayTouch (.powerTransitionDone)) s (exec (.powerTransitionDone) s) := by
  show OutTouches (mayTouch (.powerTransitionDone)) s (execPowerTransitionDone s)
  have h0 := Touches.refl (mayTouch (.powerTransitionDone)) s
  unfold execPowerTransitionDone
  repeat' (first
    | with_reducible assumption
    | ((try lift_lets); intro x; first
        | (refine (fun (hx : Touches (mayTouch (.powerTransitionDone)) s x) => ?_) ?_ <;> [clear_value x; (unfold x; clear x)])
        | clear_value x)
    | (with_reducible refine out_next ?_)
    | (with_reducible apply out_ite)
    | (with_reducible refine enterSleep_touches ?_ rfl)
    | (with_reducible refine leaveSleep_touches ?_ rfl)
    | (with_reducible refine reachState_touches ?_ rfl))

theorem frame_smbusWake {y0} : OutTouches (mayTouch (.smbusWake y0)) s (exec (.smbusWake y0) s) := by
  show OutTouches (mayTouch (.smbusWake y0)) s (execSmbusWake y0 s)
  have h0 := Touches.refl (mayTouch (.smbusWake y0)) s
  unfold execSmbusWake
  repeat' (first
    | with_reducible assumption
    | (with_reducible refine out_next ?_)
    | (with_reducible apply out_ite)
    | (with_reducible refine emit_touches ?_ rfl)
    | (with_reducible refine wake_touches ?_ rfl))

theorem frame_smbReadByte : OutTouches (mayTouch (.smbReadByte)) s (exec (.smbReadByte) s) := by
  show OutTouches (mayTouch (.smbReadByte)) s (execSmbReadByte s)
  have h0 := Touches.refl (mayTouch (.smbReadByte)) s
  unfold execSmbReadByte
  repeat' (first
    | with_reducible assumption
    | ((try lift_lets); intro x; first
        | (refine (fun (hx : Touches (mayTouch (.smbReadByte)) s x) => ?_) ?_ <;> [clear_value x; (unfold x; clear x)])
        | clear_value x)
    | (with_reducible refine out_next ?_)
    | (with_reducible apply out_ite)
    | (with_reducible refine emit_touches ?_ rfl)
    | (with_reducible refine smbTransaction_touches ?_ rfl (fun _ _ => ?_)))

theorem frame_smbRegisterWrite {y0 y1 y2} :
    OutTouches (mayTouch (.smbRegisterWrite y0 y1 y2)) s (exec (.smbRegisterWrite y0 y1 y2) s) := by
  show OutTouches (mayTouch (.smbRegisterWrite y0 y1 y2)) s (execSmbRegisterWrite y0 y1 y2 s)
  have h0 := Touches.refl (mayTouch (.smbRegisterWrite y0 y1 y2)) s
  unfold execSmbRegisterWrite
  repeat' (first
    | with_reducible assumption
    | (with_reducible refine out_next ?_)
    | (with_reducible apply out_ite)
    | (with_reducible refine seenClk_touches ?_ rfl)
    | (with_reducible refine writeReg_touches ?_ rfl)
    | (with_reducible refine smbTransaction_touches ?_ rfl (fun _ _ => ?_)))

theorem frame_smbSetReadOffset {y0 y1} :
    OutTouches (mayTouch (.smbSetReadOffset y0 y1)) s (exec (.smbSetReadOffset y0 y1) s) := by
  show OutTouches (mayTouch (.smbSetReadOffset y0 y1)) s (execSmbSetReadOffset y0 y1 s)
  have h0 := Touches.refl (mayTouch (.smbSetReadOffset y0 y1)) s
  unfold execSmbSetReadOffset
  repeat' (first
    | with_reducible assumption
    | ((try lift_lets); intro x; first
        | (refine (fun (hx : Touches (mayTouch (.smbSetReadOffset y0 y1)) s x) => ?_) ?_ <;> [clear_value x; (unfold x; clear x)])
        | clear_value x)
    | (with_reducible refine out_next ?_)
    | (with_reducible apply out_ite)
    | (with_reducible refine smbTransaction_touches ?_ rfl (fun _ _ => ?_))
    | with_reducible apply touches_ite
    | (with_reducible refine touches_foldl ?_ (fun _ _ _ => ?_))
    | (with_reducible refine touches_foldl_fst ?_ (fun _ _ _ => ?_))
    | (with_reducible refine touches_foldl_snd ?_ (fun _ _ _ => ?_))
    | (fail_if_no_progress (with_reducible refine touches_mk ?_ rfl rfl)))

theorem frame_smbRegisterRead {y0} : OutTouches (mayTouch (.smbRegisterRead y0)) s (exec (.smbRegisterRead y0) s) := by
  show OutTouches (mayTouch (.smbRegisterRead y0)) s (execSmbRegisterRead y0 s)
  have h0 := Touches.refl (mayTouch (.smbRegisterRead y0)) s
  unfold execSmbRegisterRead
  repeat' (first
    | with_reducible assumption
    | (with_reducible refine out_next ?_)
    | (with_reducible apply out_ite)
    | (with_reducible refine emit_touches ?_ rfl)
    | (with_reducible refine seenClk_touches ?_ rfl)
    | (with_reducible refine readReg_touches ?_ rfl)
    | (with_reducible refine smbTransaction_touches ?_ rfl (fun _ _ => ?_)))

theorem frame_alertResponse : OutTouches (mayTouch (.alertResponse)) s (exec (.alertResponse) s) := by
  show OutTouches (mayTouch (.alertResponse)) s (execAlertResponse s)
  have h0 := Touches.refl (mayTouch (.alertResponse)) s
  unfold execAlertResponse
  repeat' (first
    | with_reducible assumption
    | ((try lift_lets); intro x; first
        | (refine (fun (hx : Touches (mayTouch (.alertResponse)) s x) => ?_) ?_ <;> [clear_value x; (unfold x; clear x)])
        | clear_value x)
    | (with_reducible refine out_next ?_)
    | (with_reducible apply out_ite)
    | (with_reducible refine emit_touches ?_ rfl)
    | with_reducible apply touches_ite
    | (with_reducible refine touches_foldl ?_ (fun _ _ _ => ?_))
    | (with_reducible refine touches_foldl_fst ?_ (fun _ _ _ => ?_))
    | (with_reducible refine touches_foldl_snd ?_ (fun _ _ _ => ?_))
    | (fail_if_no_progress (with_reducible refine touches_mk ?_ rfl rfl)))

theorem frame_mapDone {y0 y1} : OutTouches (mayTouch (.mapDone y0 y1)) s (exec (.mapDone y0 y1) s) := by
  show OutTouches (mayTouch (.mapDone y0 y1)) s (execMapDone y0 y1 s)
  have h0 := Touches.refl (mayTouch (.mapDone y0 y1)) s
  unfold execMapDone
  repeat' (first
    | with_reducible assumption
    | ((try lift_lets); intro x; first
        | (refine (fun (hx : Touches (mayTouch (.mapDone y0 y1)) s x) => ?_) ?_ <;> [clear_value x; (unfold x; clear x)])
        | clear_value x)
    | (with_reducible refine out_next ?_)
    | (with_reducible apply out_ite)
    | (with_reducible refine seenClk_touches ?_ rfl)
    | (with_reducible refine logMapOp_touches ?_ rfl)
    | with_reducible apply touches_ite
    | (with_reducible refine touches_foldl ?_ (fun _ _ _ => ?_))
    | (with_reducible refine touches_foldl_fst ?_ (fun _ _ _ => ?_))
    | (with_reducible refine touches_foldl_snd ?_ (fun _ _ _ => ?_))
    | (fail_if_no_progress (with_reducible refine touches_mk ?_ rfl rfl))
    | (split <;> (try (rename_i e1; have e2 := congrArg Prod.fst e1; have e3 := congrArg Prod.snd e1; dsimp only at e2 e3; (try subst e2); (try subst e3)))))

theorem frame_ethPortTrainingDone {y0} :
    OutTouches (mayTouch (.ethPortTrainingDone y0)) s (exec (.ethPortTrainingDone y0) s) := by
  show OutTouches (mayTouch (.ethPortTrainingDone y0)) s (execEthPortTrainingDone y0 s)
  have h0 := Touches.refl (mayTouch (.ethPortTrainingDone y0)) s
  unfold execEthPortTrainingDone
  repeat' (first
    | with_reducible assumption
    | (with_reducible refine out_next ?_)
    | (with_reducible apply out_ite)
    | (with_reducible refine ethPortMod_touches ?_ rfl))

theorem frame_ethPortLinkLoss {y0} : OutTouches (mayTouch (.ethPortLinkLoss y0)) s (exec (.ethPortLinkLoss y0) s) := by
  show OutTouches (mayTouch (.ethPortLinkLoss y0)) s (execEthPortLinkLoss y0 s)
  have h0 := Touches.refl (mayTouch (.ethPortLinkLoss y0)) s
  unfold execEthPortLinkLoss
  repeat' (first
    | with_reducible assumption
    | (with_reducible refine out_next ?_)
    | (with_reducible apply out_ite)
    | (with_reducible refine ethPortMod_touches ?_ rfl))

theorem frame_flashMoveDone {y0 y1} :
    OutTouches (mayTouch (.flashMoveDone y0 y1)) s (exec (.flashMoveDone y0 y1) s) := by
  show OutTouches (mayTouch (.flashMoveDone y0 y1)) s (execFlashMoveDone y0 y1 s)
  have h0 := Touches.refl (mayTouch (.flashMoveDone y0 y1)) s
  unfold execFlashMoveDone
  repeat' (first
    | with_reducible assumption
    | ((try lift_lets); intro x; first
        | (refine (fun (hx : Touches (mayTouch (.flashMoveDone y0 y1)) s x) => ?_) ?_ <;> [clear_value x; (unfold x; clear x)])
        | clear_value x)
    | (with_reducible refine out_next ?_)
    | (with_reducible apply out_ite)
    | (with_reducible refine granSet_touches ?_ rfl)
    | (with_reducible refine copySet_touches ?_ rfl)
    | (with_reducible refine noteCodewords_touches ?_ rfl)
    | (with_reducible refine judgeBlock_touches ?_ rfl)
    | (with_reducible refine invalidate_touches ?_ rfl)
    | (with_reducible refine moveOn_touches ?_ rfl)
    | with_reducible apply touches_ite
    | (with_reducible refine touches_foldl ?_ (fun _ _ _ => ?_))
    | (with_reducible refine touches_foldl_fst ?_ (fun _ _ _ => ?_))
    | (with_reducible refine touches_foldl_snd ?_ (fun _ _ _ => ?_))
    | (fail_if_no_progress (with_reducible refine touches_mk ?_ rfl rfl))
    | (split <;> (try (rename_i e1; have e2 := congrArg Prod.fst e1; have e3 := congrArg Prod.snd e1; dsimp only at e2 e3; (try subst e2); (try subst e3))))
    | dsimp only [id])

theorem frame_refclkStable : OutTouches (mayTouch (.refclkStable)) s (exec (.refclkStable) s) := by
  show OutTouches (mayTouch (.refclkStable)) s (execRefclkStable s)
  have h0 := Touches.refl (mayTouch (.refclkStable)) s
  unfold execRefclkStable
  repeat' (first
    | with_reducible assumption
    | ((try lift_lets); intro x; first
        | (refine (fun (hx : Touches (mayTouch (.refclkStable)) s x) => ?_) ?_ <;> [clear_value x; (unfold x; clear x)])
        | clear_value x)
    | (with_reducible refine out_next ?_)
    | (with_reducible apply out_ite)
    | (with_reducible refine tryStart_touches ?_ rfl)
    | with_reducible apply touches_ite
    | (with_reducible refine touches_foldl ?_ (fun _ _ _ => ?_))
    | (with_reducible refine touches_foldl_fst ?_ (fun _ _ _ => ?_))
    | (with_reducible refine touches_foldl_snd ?_ (fun _ _ _ => ?_))
    | (fail_if_no_progress (with_reducible refine touches_mk ?_ rfl rfl)))

theorem frame_overvoltageRelease : OutTouches (mayTouch (.overvoltageRelease)) s (exec (.overvoltageRelease) s) := by
  show OutTouches (mayTouch (.overvoltageRelease)) s (execOvervoltageRelease s)
  have h0 := Touches.refl (mayTouch (.overvoltageRelease)) s
  unfold execOvervoltageRelease
  repeat' (first
    | with_reducible assumption
    | ((try lift_lets); intro x; first
        | (refine (fun (hx : Touches (mayTouch (.overvoltageRelease)) s x) => ?_) ?_ <;> [clear_value x; (unfold x; clear x)])
        | clear_value x)
    | (with_reducible refine out_next ?_)
    | (with_reducible apply out_ite)
    | with_reducible apply touches_ite
    | (with_reducible refine touches_foldl ?_ (fun _ _ _ => ?_))
    | (with_reducible refine touches_foldl_fst ?_ (fun _ _ _ => ?_))
    | (with_reducible refine touches_foldl_snd ?_ (fun _ _ _ => ?_))
    | (fail_if_no_progress (with_reducible refine touches_mk ?_ rfl rfl)))

end Sys2Proof.Machine
end

