-- ==== Sys2Proof/Laws/State.lean ====
section
/-! SUPPORT. The small lemmas of State: for each named update, what it leaves of each part of the state, and what the
matching read gives after it. -/

namespace Sys2Proof.Laws

open Sys2Proof.Machine

variable (s : State)

/-! ### `partSet` -/

@[simp] theorem partSet_mgmt (p : Nat) (x : Partition) : (partSet s p x).mgmt = s.mgmt := rfl
@[simp] theorem partSet_img (p : Nat) (x : Partition) : (partSet s p x).img = s.img := rfl
@[simp] theorem partSet_flows (p : Nat) (x : Partition) : (partSet s p x).flows = s.flows := rfl
@[simp] theorem partSet_td (p : Nat) (x : Partition) : (partSet s p x).td = s.td := rfl
@[simp] theorem partSet_ports (p : Nat) (x : Partition) : (partSet s p x).ports = s.ports := rfl
@[simp] theorem partSet_fab (p : Nat) (x : Partition) : (partSet s p x).fab = s.fab := rfl
@[simp] theorem partSet_coh (p : Nat) (x : Partition) : (partSet s p x).coh = s.coh := rfl
@[simp] theorem partSet_stk (p : Nat) (x : Partition) : (partSet s p x).stk = s.stk := rfl
@[simp] theorem partSet_near (p : Nat) (x : Partition) : (partSet s p x).near = s.near := rfl
@[simp] theorem partSet_fl (p : Nat) (x : Partition) : (partSet s p x).fl = s.fl := rfl
@[simp] theorem partSet_eng (p : Nat) (x : Partition) : (partSet s p x).eng = s.eng := rfl
@[simp] theorem partSet_di (p : Nat) (x : Partition) : (partSet s p x).di = s.di := rfl
@[simp] theorem partSet_eth (p : Nat) (x : Partition) : (partSet s p x).eth = s.eth := rfl
@[simp] theorem partSet_sec (p : Nat) (x : Partition) : (partSet s p x).sec = s.sec := rfl
@[simp] theorem partSet_twn (p : Nat) (x : Partition) : (partSet s p x).twn = s.twn := rfl
@[simp] theorem partSet_pwr (p : Nat) (x : Partition) : (partSet s p x).pwr = s.pwr := rfl
@[simp] theorem partSet_staging (p : Nat) (x : Partition) : (partSet s p x).staging = s.staging := rfl
@[simp] theorem partSet_mailbox (p : Nat) (x : Partition) : (partSet s p x).mailbox = s.mailbox := rfl
@[simp] theorem partSet_svc (p : Nat) (x : Partition) : (partSet s p x).svc = s.svc := rfl
@[simp] theorem partSet_nextTicket (p : Nat) (x : Partition) : (partSet s p x).nextTicket = s.nextTicket := rfl
@[simp] theorem partSet_out (p : Nat) (x : Partition) : (partSet s p x).out = s.out := rfl
@[simp] theorem partSet_free (p : Nat) (x : Partition) : (partSet s p x).free = s.free := rfl
@[simp] theorem partSet_flagSet (p : Nat) (x : Partition) : (partSet s p x).flagSet = s.flagSet := rfl
@[simp] theorem partSet_pending (p : Nat) (x : Partition) : (partSet s p x).pending = s.pending := rfl

/-! ### `partMod` -/

@[simp] theorem partMod_mgmt (p : Nat) (f : Partition → Partition) : (partMod s p f).mgmt = s.mgmt := rfl
@[simp] theorem partMod_img (p : Nat) (f : Partition → Partition) : (partMod s p f).img = s.img := rfl
@[simp] theorem partMod_flows (p : Nat) (f : Partition → Partition) : (partMod s p f).flows = s.flows := rfl
@[simp] theorem partMod_td (p : Nat) (f : Partition → Partition) : (partMod s p f).td = s.td := rfl
@[simp] theorem partMod_ports (p : Nat) (f : Partition → Partition) : (partMod s p f).ports = s.ports := rfl
@[simp] theorem partMod_fab (p : Nat) (f : Partition → Partition) : (partMod s p f).fab = s.fab := rfl
@[simp] theorem partMod_coh (p : Nat) (f : Partition → Partition) : (partMod s p f).coh = s.coh := rfl
@[simp] theorem partMod_stk (p : Nat) (f : Partition → Partition) : (partMod s p f).stk = s.stk := rfl
@[simp] theorem partMod_near (p : Nat) (f : Partition → Partition) : (partMod s p f).near = s.near := rfl
@[simp] theorem partMod_fl (p : Nat) (f : Partition → Partition) : (partMod s p f).fl = s.fl := rfl
@[simp] theorem partMod_eng (p : Nat) (f : Partition → Partition) : (partMod s p f).eng = s.eng := rfl
@[simp] theorem partMod_di (p : Nat) (f : Partition → Partition) : (partMod s p f).di = s.di := rfl
@[simp] theorem partMod_eth (p : Nat) (f : Partition → Partition) : (partMod s p f).eth = s.eth := rfl
@[simp] theorem partMod_sec (p : Nat) (f : Partition → Partition) : (partMod s p f).sec = s.sec := rfl
@[simp] theorem partMod_twn (p : Nat) (f : Partition → Partition) : (partMod s p f).twn = s.twn := rfl
@[simp] theorem partMod_pwr (p : Nat) (f : Partition → Partition) : (partMod s p f).pwr = s.pwr := rfl
@[simp] theorem partMod_staging (p : Nat) (f : Partition → Partition) : (partMod s p f).staging = s.staging := rfl
@[simp] theorem partMod_mailbox (p : Nat) (f : Partition → Partition) : (partMod s p f).mailbox = s.mailbox := rfl
@[simp] theorem partMod_svc (p : Nat) (f : Partition → Partition) : (partMod s p f).svc = s.svc := rfl
@[simp] theorem partMod_nextTicket (p : Nat) (f : Partition → Partition) : (partMod s p f).nextTicket = s.nextTicket :=
    rfl
@[simp] theorem partMod_out (p : Nat) (f : Partition → Partition) : (partMod s p f).out = s.out := rfl
@[simp] theorem partMod_free (p : Nat) (f : Partition → Partition) : (partMod s p f).free = s.free := rfl
@[simp] theorem partMod_flagSet (p : Nat) (f : Partition → Partition) : (partMod s p f).flagSet = s.flagSet := rfl
@[simp] theorem partMod_pending (p : Nat) (f : Partition → Partition) : (partMod s p f).pending = s.pending := rfl

/-! ### `flowSet` -/

@[simp] theorem flowSet_mgmt (k : Nat) (x : Flow) : (flowSet s k x).mgmt = s.mgmt := rfl
@[simp] theorem flowSet_img (k : Nat) (x : Flow) : (flowSet s k x).img = s.img := rfl
@[simp] theorem flowSet_parts (k : Nat) (x : Flow) : (flowSet s k x).parts = s.parts := rfl
@[simp] theorem flowSet_td (k : Nat) (x : Flow) : (flowSet s k x).td = s.td := rfl
@[simp] theorem flowSet_ports (k : Nat) (x : Flow) : (flowSet s k x).ports = s.ports := rfl
@[simp] theorem flowSet_fab (k : Nat) (x : Flow) : (flowSet s k x).fab = s.fab := rfl
@[simp] theorem flowSet_coh (k : Nat) (x : Flow) : (flowSet s k x).coh = s.coh := rfl
@[simp] theorem flowSet_stk (k : Nat) (x : Flow) : (flowSet s k x).stk = s.stk := rfl
@[simp] theorem flowSet_near (k : Nat) (x : Flow) : (flowSet s k x).near = s.near := rfl
@[simp] theorem flowSet_fl (k : Nat) (x : Flow) : (flowSet s k x).fl = s.fl := rfl
@[simp] theorem flowSet_eng (k : Nat) (x : Flow) : (flowSet s k x).eng = s.eng := rfl
@[simp] theorem flowSet_di (k : Nat) (x : Flow) : (flowSet s k x).di = s.di := rfl
@[simp] theorem flowSet_eth (k : Nat) (x : Flow) : (flowSet s k x).eth = s.eth := rfl
@[simp] theorem flowSet_sec (k : Nat) (x : Flow) : (flowSet s k x).sec = s.sec := rfl
@[simp] theorem flowSet_twn (k : Nat) (x : Flow) : (flowSet s k x).twn = s.twn := rfl
@[simp] theorem flowSet_pwr (k : Nat) (x : Flow) : (flowSet s k x).pwr = s.pwr := rfl
@[simp] theorem flowSet_staging (k : Nat) (x : Flow) : (flowSet s k x).staging = s.staging := rfl
@[simp] theorem flowSet_mailbox (k : Nat) (x : Flow) : (flowSet s k x).mailbox = s.mailbox := rfl
@[simp] theorem flowSet_svc (k : Nat) (x : Flow) : (flowSet s k x).svc = s.svc := rfl
@[simp] theorem flowSet_nextTicket (k : Nat) (x : Flow) : (flowSet s k x).nextTicket = s.nextTicket := rfl
@[simp] theorem flowSet_out (k : Nat) (x : Flow) : (flowSet s k x).out = s.out := rfl
@[simp] theorem flowSet_free (k : Nat) (x : Flow) : (flowSet s k x).free = s.free := rfl
@[simp] theorem flowSet_flagSet (k : Nat) (x : Flow) : (flowSet s k x).flagSet = s.flagSet := rfl
@[simp] theorem flowSet_pending (k : Nat) (x : Flow) : (flowSet s k x).pending = s.pending := rfl

/-! ### `flowMod` -/

@[simp] theorem flowMod_mgmt (k : Nat) (f : Flow → Flow) : (flowMod s k f).mgmt = s.mgmt := rfl
@[simp] theorem flowMod_img (k : Nat) (f : Flow → Flow) : (flowMod s k f).img = s.img := rfl
@[simp] theorem flowMod_parts (k : Nat) (f : Flow → Flow) : (flowMod s k f).parts = s.parts := rfl
@[simp] theorem flowMod_td (k : Nat) (f : Flow → Flow) : (flowMod s k f).td = s.td := rfl
@[simp] theorem flowMod_ports (k : Nat) (f : Flow → Flow) : (flowMod s k f).ports = s.ports := rfl
@[simp] theorem flowMod_fab (k : Nat) (f : Flow → Flow) : (flowMod s k f).fab = s.fab := rfl
@[simp] theorem flowMod_coh (k : Nat) (f : Flow → Flow) : (flowMod s k f).coh = s.coh := rfl
@[simp] theorem flowMod_stk (k : Nat) (f : Flow → Flow) : (flowMod s k f).stk = s.stk := rfl
@[simp] theorem flowMod_near (k : Nat) (f : Flow → Flow) : (flowMod s k f).near = s.near := rfl
@[simp] theorem flowMod_fl (k : Nat) (f : Flow → Flow) : (flowMod s k f).fl = s.fl := rfl
@[simp] theorem flowMod_eng (k : Nat) (f : Flow → Flow) : (flowMod s k f).eng = s.eng := rfl
@[simp] theorem flowMod_di (k : Nat) (f : Flow → Flow) : (flowMod s k f).di = s.di := rfl
@[simp] theorem flowMod_eth (k : Nat) (f : Flow → Flow) : (flowMod s k f).eth = s.eth := rfl
@[simp] theorem flowMod_sec (k : Nat) (f : Flow → Flow) : (flowMod s k f).sec = s.sec := rfl
@[simp] theorem flowMod_twn (k : Nat) (f : Flow → Flow) : (flowMod s k f).twn = s.twn := rfl
@[simp] theorem flowMod_pwr (k : Nat) (f : Flow → Flow) : (flowMod s k f).pwr = s.pwr := rfl
@[simp] theorem flowMod_staging (k : Nat) (f : Flow → Flow) : (flowMod s k f).staging = s.staging := rfl
@[simp] theorem flowMod_mailbox (k : Nat) (f : Flow → Flow) : (flowMod s k f).mailbox = s.mailbox := rfl
@[simp] theorem flowMod_svc (k : Nat) (f : Flow → Flow) : (flowMod s k f).svc = s.svc := rfl
@[simp] theorem flowMod_nextTicket (k : Nat) (f : Flow → Flow) : (flowMod s k f).nextTicket = s.nextTicket := rfl
@[simp] theorem flowMod_out (k : Nat) (f : Flow → Flow) : (flowMod s k f).out = s.out := rfl
@[simp] theorem flowMod_free (k : Nat) (f : Flow → Flow) : (flowMod s k f).free = s.free := rfl
@[simp] theorem flowMod_flagSet (k : Nat) (f : Flow → Flow) : (flowMod s k f).flagSet = s.flagSet := rfl
@[simp] theorem flowMod_pending (k : Nat) (f : Flow → Flow) : (flowMod s k f).pending = s.pending := rfl

/-! ### `portSet` -/

@[simp] theorem portSet_mgmt (p : Nat) (x : Port) : (portSet s p x).mgmt = s.mgmt := rfl
@[simp] theorem portSet_img (p : Nat) (x : Port) : (portSet s p x).img = s.img := rfl
@[simp] theorem portSet_parts (p : Nat) (x : Port) : (portSet s p x).parts = s.parts := rfl
@[simp] theorem portSet_flows (p : Nat) (x : Port) : (portSet s p x).flows = s.flows := rfl
@[simp] theorem portSet_td (p : Nat) (x : Port) : (portSet s p x).td = s.td := rfl
@[simp] theorem portSet_fab (p : Nat) (x : Port) : (portSet s p x).fab = s.fab := rfl
@[simp] theorem portSet_coh (p : Nat) (x : Port) : (portSet s p x).coh = s.coh := rfl
@[simp] theorem portSet_stk (p : Nat) (x : Port) : (portSet s p x).stk = s.stk := rfl
@[simp] theorem portSet_near (p : Nat) (x : Port) : (portSet s p x).near = s.near := rfl
@[simp] theorem portSet_fl (p : Nat) (x : Port) : (portSet s p x).fl = s.fl := rfl
@[simp] theorem portSet_eng (p : Nat) (x : Port) : (portSet s p x).eng = s.eng := rfl
@[simp] theorem portSet_di (p : Nat) (x : Port) : (portSet s p x).di = s.di := rfl
@[simp] theorem portSet_eth (p : Nat) (x : Port) : (portSet s p x).eth = s.eth := rfl
@[simp] theorem portSet_sec (p : Nat) (x : Port) : (portSet s p x).sec = s.sec := rfl
@[simp] theorem portSet_twn (p : Nat) (x : Port) : (portSet s p x).twn = s.twn := rfl
@[simp] theorem portSet_pwr (p : Nat) (x : Port) : (portSet s p x).pwr = s.pwr := rfl
@[simp] theorem portSet_staging (p : Nat) (x : Port) : (portSet s p x).staging = s.staging := rfl
@[simp] theorem portSet_mailbox (p : Nat) (x : Port) : (portSet s p x).mailbox = s.mailbox := rfl
@[simp] theorem portSet_svc (p : Nat) (x : Port) : (portSet s p x).svc = s.svc := rfl
@[simp] theorem portSet_nextTicket (p : Nat) (x : Port) : (portSet s p x).nextTicket = s.nextTicket := rfl
@[simp] theorem portSet_out (p : Nat) (x : Port) : (portSet s p x).out = s.out := rfl
@[simp] theorem portSet_free (p : Nat) (x : Port) : (portSet s p x).free = s.free := rfl
@[simp] theorem portSet_flagSet (p : Nat) (x : Port) : (portSet s p x).flagSet = s.flagSet := rfl
@[simp] theorem portSet_pending (p : Nat) (x : Port) : (portSet s p x).pending = s.pending := rfl

/-! ### `portMod` -/

@[simp] theorem portMod_mgmt (p : Nat) (f : Port → Port) : (portMod s p f).mgmt = s.mgmt := rfl
@[simp] theorem portMod_img (p : Nat) (f : Port → Port) : (portMod s p f).img = s.img := rfl
@[simp] theorem portMod_parts (p : Nat) (f : Port → Port) : (portMod s p f).parts = s.parts := rfl
@[simp] theorem portMod_flows (p : Nat) (f : Port → Port) : (portMod s p f).flows = s.flows := rfl
@[simp] theorem portMod_td (p : Nat) (f : Port → Port) : (portMod s p f).td = s.td := rfl
@[simp] theorem portMod_fab (p : Nat) (f : Port → Port) : (portMod s p f).fab = s.fab := rfl
@[simp] theorem portMod_coh (p : Nat) (f : Port → Port) : (portMod s p f).coh = s.coh := rfl
@[simp] theorem portMod_stk (p : Nat) (f : Port → Port) : (portMod s p f).stk = s.stk := rfl
@[simp] theorem portMod_near (p : Nat) (f : Port → Port) : (portMod s p f).near = s.near := rfl
@[simp] theorem portMod_fl (p : Nat) (f : Port → Port) : (portMod s p f).fl = s.fl := rfl
@[simp] theorem portMod_eng (p : Nat) (f : Port → Port) : (portMod s p f).eng = s.eng := rfl
@[simp] theorem portMod_di (p : Nat) (f : Port → Port) : (portMod s p f).di = s.di := rfl
@[simp] theorem portMod_eth (p : Nat) (f : Port → Port) : (portMod s p f).eth = s.eth := rfl
@[simp] theorem portMod_sec (p : Nat) (f : Port → Port) : (portMod s p f).sec = s.sec := rfl
@[simp] theorem portMod_twn (p : Nat) (f : Port → Port) : (portMod s p f).twn = s.twn := rfl
@[simp] theorem portMod_pwr (p : Nat) (f : Port → Port) : (portMod s p f).pwr = s.pwr := rfl
@[simp] theorem portMod_staging (p : Nat) (f : Port → Port) : (portMod s p f).staging = s.staging := rfl
@[simp] theorem portMod_mailbox (p : Nat) (f : Port → Port) : (portMod s p f).mailbox = s.mailbox := rfl
@[simp] theorem portMod_svc (p : Nat) (f : Port → Port) : (portMod s p f).svc = s.svc := rfl
@[simp] theorem portMod_nextTicket (p : Nat) (f : Port → Port) : (portMod s p f).nextTicket = s.nextTicket := rfl
@[simp] theorem portMod_out (p : Nat) (f : Port → Port) : (portMod s p f).out = s.out := rfl
@[simp] theorem portMod_free (p : Nat) (f : Port → Port) : (portMod s p f).free = s.free := rfl
@[simp] theorem portMod_flagSet (p : Nat) (f : Port → Port) : (portMod s p f).flagSet = s.flagSet := rfl
@[simp] theorem portMod_pending (p : Nat) (f : Port → Port) : (portMod s p f).pending = s.pending := rfl

/-! ### `chanSet` -/

@[simp] theorem chanSet_mgmt (c : Nat) (x : Chan) : (chanSet s c x).mgmt = s.mgmt := rfl
@[simp] theorem chanSet_img (c : Nat) (x : Chan) : (chanSet s c x).img = s.img := rfl
@[simp] theorem chanSet_parts (c : Nat) (x : Chan) : (chanSet s c x).parts = s.parts := rfl
@[simp] theorem chanSet_flows (c : Nat) (x : Chan) : (chanSet s c x).flows = s.flows := rfl
@[simp] theorem chanSet_td (c : Nat) (x : Chan) : (chanSet s c x).td = s.td := rfl
@[simp] theorem chanSet_ports (c : Nat) (x : Chan) : (chanSet s c x).ports = s.ports := rfl
@[simp] theorem chanSet_fab (c : Nat) (x : Chan) : (chanSet s c x).fab = s.fab := rfl
@[simp] theorem chanSet_coh (c : Nat) (x : Chan) : (chanSet s c x).coh = s.coh := rfl
@[simp] theorem chanSet_near (c : Nat) (x : Chan) : (chanSet s c x).near = s.near := rfl
@[simp] theorem chanSet_fl (c : Nat) (x : Chan) : (chanSet s c x).fl = s.fl := rfl
@[simp] theorem chanSet_eng (c : Nat) (x : Chan) : (chanSet s c x).eng = s.eng := rfl
@[simp] theorem chanSet_di (c : Nat) (x : Chan) : (chanSet s c x).di = s.di := rfl
@[simp] theorem chanSet_eth (c : Nat) (x : Chan) : (chanSet s c x).eth = s.eth := rfl
@[simp] theorem chanSet_sec (c : Nat) (x : Chan) : (chanSet s c x).sec = s.sec := rfl
@[simp] theorem chanSet_twn (c : Nat) (x : Chan) : (chanSet s c x).twn = s.twn := rfl
@[simp] theorem chanSet_pwr (c : Nat) (x : Chan) : (chanSet s c x).pwr = s.pwr := rfl
@[simp] theorem chanSet_staging (c : Nat) (x : Chan) : (chanSet s c x).staging = s.staging := rfl
@[simp] theorem chanSet_mailbox (c : Nat) (x : Chan) : (chanSet s c x).mailbox = s.mailbox := rfl
@[simp] theorem chanSet_svc (c : Nat) (x : Chan) : (chanSet s c x).svc = s.svc := rfl
@[simp] theorem chanSet_nextTicket (c : Nat) (x : Chan) : (chanSet s c x).nextTicket = s.nextTicket := rfl
@[simp] theorem chanSet_out (c : Nat) (x : Chan) : (chanSet s c x).out = s.out := rfl
@[simp] theorem chanSet_free (c : Nat) (x : Chan) : (chanSet s c x).free = s.free := rfl
@[simp] theorem chanSet_flagSet (c : Nat) (x : Chan) : (chanSet s c x).flagSet = s.flagSet := rfl
@[simp] theorem chanSet_pending (c : Nat) (x : Chan) : (chanSet s c x).pending = s.pending := rfl

/-! ### `engSet` -/

@[simp] theorem engSet_mgmt (e : Nat) (x : Engine) : (engSet s e x).mgmt = s.mgmt := rfl
@[simp] theorem engSet_img (e : Nat) (x : Engine) : (engSet s e x).img = s.img := rfl
@[simp] theorem engSet_parts (e : Nat) (x : Engine) : (engSet s e x).parts = s.parts := rfl
@[simp] theorem engSet_flows (e : Nat) (x : Engine) : (engSet s e x).flows = s.flows := rfl
@[simp] theorem engSet_td (e : Nat) (x : Engine) : (engSet s e x).td = s.td := rfl
@[simp] theorem engSet_ports (e : Nat) (x : Engine) : (engSet s e x).ports = s.ports := rfl
@[simp] theorem engSet_fab (e : Nat) (x : Engine) : (engSet s e x).fab = s.fab := rfl
@[simp] theorem engSet_coh (e : Nat) (x : Engine) : (engSet s e x).coh = s.coh := rfl
@[simp] theorem engSet_stk (e : Nat) (x : Engine) : (engSet s e x).stk = s.stk := rfl
@[simp] theorem engSet_near (e : Nat) (x : Engine) : (engSet s e x).near = s.near := rfl
@[simp] theorem engSet_fl (e : Nat) (x : Engine) : (engSet s e x).fl = s.fl := rfl
@[simp] theorem engSet_di (e : Nat) (x : Engine) : (engSet s e x).di = s.di := rfl
@[simp] theorem engSet_eth (e : Nat) (x : Engine) : (engSet s e x).eth = s.eth := rfl
@[simp] theorem engSet_sec (e : Nat) (x : Engine) : (engSet s e x).sec = s.sec := rfl
@[simp] theorem engSet_twn (e : Nat) (x : Engine) : (engSet s e x).twn = s.twn := rfl
@[simp] theorem engSet_pwr (e : Nat) (x : Engine) : (engSet s e x).pwr = s.pwr := rfl
@[simp] theorem engSet_staging (e : Nat) (x : Engine) : (engSet s e x).staging = s.staging := rfl
@[simp] theorem engSet_mailbox (e : Nat) (x : Engine) : (engSet s e x).mailbox = s.mailbox := rfl
@[simp] theorem engSet_svc (e : Nat) (x : Engine) : (engSet s e x).svc = s.svc := rfl
@[simp] theorem engSet_nextTicket (e : Nat) (x : Engine) : (engSet s e x).nextTicket = s.nextTicket := rfl
@[simp] theorem engSet_out (e : Nat) (x : Engine) : (engSet s e x).out = s.out := rfl
@[simp] theorem engSet_free (e : Nat) (x : Engine) : (engSet s e x).free = s.free := rfl
@[simp] theorem engSet_flagSet (e : Nat) (x : Engine) : (engSet s e x).flagSet = s.flagSet := rfl
@[simp] theorem engSet_pending (e : Nat) (x : Engine) : (engSet s e x).pending = s.pending := rfl

/-! ### `pairSet` -/

@[simp] theorem pairSet_mgmt (p q : Nat) (x : Pair) : (pairSet s p q x).mgmt = s.mgmt := rfl
@[simp] theorem pairSet_img (p q : Nat) (x : Pair) : (pairSet s p q x).img = s.img := rfl
@[simp] theorem pairSet_parts (p q : Nat) (x : Pair) : (pairSet s p q x).parts = s.parts := rfl
@[simp] theorem pairSet_flows (p q : Nat) (x : Pair) : (pairSet s p q x).flows = s.flows := rfl
@[simp] theorem pairSet_td (p q : Nat) (x : Pair) : (pairSet s p q x).td = s.td := rfl
@[simp] theorem pairSet_ports (p q : Nat) (x : Pair) : (pairSet s p q x).ports = s.ports := rfl
@[simp] theorem pairSet_fab (p q : Nat) (x : Pair) : (pairSet s p q x).fab = s.fab := rfl
@[simp] theorem pairSet_coh (p q : Nat) (x : Pair) : (pairSet s p q x).coh = s.coh := rfl
@[simp] theorem pairSet_stk (p q : Nat) (x : Pair) : (pairSet s p q x).stk = s.stk := rfl
@[simp] theorem pairSet_near (p q : Nat) (x : Pair) : (pairSet s p q x).near = s.near := rfl
@[simp] theorem pairSet_fl (p q : Nat) (x : Pair) : (pairSet s p q x).fl = s.fl := rfl
@[simp] theorem pairSet_di (p q : Nat) (x : Pair) : (pairSet s p q x).di = s.di := rfl
@[simp] theorem pairSet_eth (p q : Nat) (x : Pair) : (pairSet s p q x).eth = s.eth := rfl
@[simp] theorem pairSet_sec (p q : Nat) (x : Pair) : (pairSet s p q x).sec = s.sec := rfl
@[simp] theorem pairSet_twn (p q : Nat) (x : Pair) : (pairSet s p q x).twn = s.twn := rfl
@[simp] theorem pairSet_pwr (p q : Nat) (x : Pair) : (pairSet s p q x).pwr = s.pwr := rfl
@[simp] theorem pairSet_staging (p q : Nat) (x : Pair) : (pairSet s p q x).staging = s.staging := rfl
@[simp] theorem pairSet_mailbox (p q : Nat) (x : Pair) : (pairSet s p q x).mailbox = s.mailbox := rfl
@[simp] theorem pairSet_svc (p q : Nat) (x : Pair) : (pairSet s p q x).svc = s.svc := rfl
@[simp] theorem pairSet_nextTicket (p q : Nat) (x : Pair) : (pairSet s p q x).nextTicket = s.nextTicket := rfl
@[simp] theorem pairSet_out (p q : Nat) (x : Pair) : (pairSet s p q x).out = s.out := rfl
@[simp] theorem pairSet_free (p q : Nat) (x : Pair) : (pairSet s p q x).free = s.free := rfl
@[simp] theorem pairSet_flagSet (p q : Nat) (x : Pair) : (pairSet s p q x).flagSet = s.flagSet := rfl
@[simp] theorem pairSet_pending (p q : Nat) (x : Pair) : (pairSet s p q x).pending = s.pending := rfl

/-! ### `pteSet` -/

@[simp] theorem pteSet_mgmt (p u : Nat) (x : Pte) : (pteSet s p u x).mgmt = s.mgmt := rfl
@[simp] theorem pteSet_img (p u : Nat) (x : Pte) : (pteSet s p u x).img = s.img := rfl
@[simp] theorem pteSet_parts (p u : Nat) (x : Pte) : (pteSet s p u x).parts = s.parts := rfl
@[simp] theorem pteSet_flows (p u : Nat) (x : Pte) : (pteSet s p u x).flows = s.flows := rfl
@[simp] theorem pteSet_td (p u : Nat) (x : Pte) : (pteSet s p u x).td = s.td := rfl
@[simp] theorem pteSet_ports (p u : Nat) (x : Pte) : (pteSet s p u x).ports = s.ports := rfl
@[simp] theorem pteSet_fab (p u : Nat) (x : Pte) : (pteSet s p u x).fab = s.fab := rfl
@[simp] theorem pteSet_coh (p u : Nat) (x : Pte) : (pteSet s p u x).coh = s.coh := rfl
@[simp] theorem pteSet_stk (p u : Nat) (x : Pte) : (pteSet s p u x).stk = s.stk := rfl
@[simp] theorem pteSet_near (p u : Nat) (x : Pte) : (pteSet s p u x).near = s.near := rfl
@[simp] theorem pteSet_fl (p u : Nat) (x : Pte) : (pteSet s p u x).fl = s.fl := rfl
@[simp] theorem pteSet_di (p u : Nat) (x : Pte) : (pteSet s p u x).di = s.di := rfl
@[simp] theorem pteSet_eth (p u : Nat) (x : Pte) : (pteSet s p u x).eth = s.eth := rfl
@[simp] theorem pteSet_sec (p u : Nat) (x : Pte) : (pteSet s p u x).sec = s.sec := rfl
@[simp] theorem pteSet_twn (p u : Nat) (x : Pte) : (pteSet s p u x).twn = s.twn := rfl
@[simp] theorem pteSet_pwr (p u : Nat) (x : Pte) : (pteSet s p u x).pwr = s.pwr := rfl
@[simp] theorem pteSet_staging (p u : Nat) (x : Pte) : (pteSet s p u x).staging = s.staging := rfl
@[simp] theorem pteSet_mailbox (p u : Nat) (x : Pte) : (pteSet s p u x).mailbox = s.mailbox := rfl
@[simp] theorem pteSet_svc (p u : Nat) (x : Pte) : (pteSet s p u x).svc = s.svc := rfl
@[simp] theorem pteSet_nextTicket (p u : Nat) (x : Pte) : (pteSet s p u x).nextTicket = s.nextTicket := rfl
@[simp] theorem pteSet_out (p u : Nat) (x : Pte) : (pteSet s p u x).out = s.out := rfl
@[simp] theorem pteSet_free (p u : Nat) (x : Pte) : (pteSet s p u x).free = s.free := rfl
@[simp] theorem pteSet_flagSet (p u : Nat) (x : Pte) : (pteSet s p u x).flagSet = s.flagSet := rfl
@[simp] theorem pteSet_pending (p u : Nat) (x : Pte) : (pteSet s p u x).pending = s.pending := rfl

/-! ### `qpSet` -/

@[simp] theorem qpSet_mgmt (q : Nat) (x : Qp) : (qpSet s q x).mgmt = s.mgmt := rfl
@[simp] theorem qpSet_img (q : Nat) (x : Qp) : (qpSet s q x).img = s.img := rfl
@[simp] theorem qpSet_parts (q : Nat) (x : Qp) : (qpSet s q x).parts = s.parts := rfl
@[simp] theorem qpSet_flows (q : Nat) (x : Qp) : (qpSet s q x).flows = s.flows := rfl
@[simp] theorem qpSet_td (q : Nat) (x : Qp) : (qpSet s q x).td = s.td := rfl
@[simp] theorem qpSet_ports (q : Nat) (x : Qp) : (qpSet s q x).ports = s.ports := rfl
@[simp] theorem qpSet_fab (q : Nat) (x : Qp) : (qpSet s q x).fab = s.fab := rfl
@[simp] theorem qpSet_coh (q : Nat) (x : Qp) : (qpSet s q x).coh = s.coh := rfl
@[simp] theorem qpSet_stk (q : Nat) (x : Qp) : (qpSet s q x).stk = s.stk := rfl
@[simp] theorem qpSet_near (q : Nat) (x : Qp) : (qpSet s q x).near = s.near := rfl
@[simp] theorem qpSet_fl (q : Nat) (x : Qp) : (qpSet s q x).fl = s.fl := rfl
@[simp] theorem qpSet_eng (q : Nat) (x : Qp) : (qpSet s q x).eng = s.eng := rfl
@[simp] theorem qpSet_di (q : Nat) (x : Qp) : (qpSet s q x).di = s.di := rfl
@[simp] theorem qpSet_sec (q : Nat) (x : Qp) : (qpSet s q x).sec = s.sec := rfl
@[simp] theorem qpSet_twn (q : Nat) (x : Qp) : (qpSet s q x).twn = s.twn := rfl
@[simp] theorem qpSet_pwr (q : Nat) (x : Qp) : (qpSet s q x).pwr = s.pwr := rfl
@[simp] theorem qpSet_staging (q : Nat) (x : Qp) : (qpSet s q x).staging = s.staging := rfl
@[simp] theorem qpSet_mailbox (q : Nat) (x : Qp) : (qpSet s q x).mailbox = s.mailbox := rfl
@[simp] theorem qpSet_svc (q : Nat) (x : Qp) : (qpSet s q x).svc = s.svc := rfl
@[simp] theorem qpSet_nextTicket (q : Nat) (x : Qp) : (qpSet s q x).nextTicket = s.nextTicket := rfl
@[simp] theorem qpSet_out (q : Nat) (x : Qp) : (qpSet s q x).out = s.out := rfl
@[simp] theorem qpSet_free (q : Nat) (x : Qp) : (qpSet s q x).free = s.free := rfl
@[simp] theorem qpSet_flagSet (q : Nat) (x : Qp) : (qpSet s q x).flagSet = s.flagSet := rfl
@[simp] theorem qpSet_pending (q : Nat) (x : Qp) : (qpSet s q x).pending = s.pending := rfl

/-! ### `blockSet` -/

@[simp] theorem blockSet_mgmt (b : Nat) (x : StripeBlock) : (blockSet s b x).mgmt = s.mgmt := rfl
@[simp] theorem blockSet_img (b : Nat) (x : StripeBlock) : (blockSet s b x).img = s.img := rfl
@[simp] theorem blockSet_parts (b : Nat) (x : StripeBlock) : (blockSet s b x).parts = s.parts := rfl
@[simp] theorem blockSet_flows (b : Nat) (x : StripeBlock) : (blockSet s b x).flows = s.flows := rfl
@[simp] theorem blockSet_td (b : Nat) (x : StripeBlock) : (blockSet s b x).td = s.td := rfl
@[simp] theorem blockSet_ports (b : Nat) (x : StripeBlock) : (blockSet s b x).ports = s.ports := rfl
@[simp] theorem blockSet_fab (b : Nat) (x : StripeBlock) : (blockSet s b x).fab = s.fab := rfl
@[simp] theorem blockSet_coh (b : Nat) (x : StripeBlock) : (blockSet s b x).coh = s.coh := rfl
@[simp] theorem blockSet_stk (b : Nat) (x : StripeBlock) : (blockSet s b x).stk = s.stk := rfl
@[simp] theorem blockSet_near (b : Nat) (x : StripeBlock) : (blockSet s b x).near = s.near := rfl
@[simp] theorem blockSet_eng (b : Nat) (x : StripeBlock) : (blockSet s b x).eng = s.eng := rfl
@[simp] theorem blockSet_di (b : Nat) (x : StripeBlock) : (blockSet s b x).di = s.di := rfl
@[simp] theorem blockSet_eth (b : Nat) (x : StripeBlock) : (blockSet s b x).eth = s.eth := rfl
@[simp] theorem blockSet_sec (b : Nat) (x : StripeBlock) : (blockSet s b x).sec = s.sec := rfl
@[simp] theorem blockSet_twn (b : Nat) (x : StripeBlock) : (blockSet s b x).twn = s.twn := rfl
@[simp] theorem blockSet_pwr (b : Nat) (x : StripeBlock) : (blockSet s b x).pwr = s.pwr := rfl
@[simp] theorem blockSet_staging (b : Nat) (x : StripeBlock) : (blockSet s b x).staging = s.staging := rfl
@[simp] theorem blockSet_mailbox (b : Nat) (x : StripeBlock) : (blockSet s b x).mailbox = s.mailbox := rfl
@[simp] theorem blockSet_svc (b : Nat) (x : StripeBlock) : (blockSet s b x).svc = s.svc := rfl
@[simp] theorem blockSet_nextTicket (b : Nat) (x : StripeBlock) : (blockSet s b x).nextTicket = s.nextTicket := rfl
@[simp] theorem blockSet_out (b : Nat) (x : StripeBlock) : (blockSet s b x).out = s.out := rfl
@[simp] theorem blockSet_free (b : Nat) (x : StripeBlock) : (blockSet s b x).free = s.free := rfl
@[simp] theorem blockSet_flagSet (b : Nat) (x : StripeBlock) : (blockSet s b x).flagSet = s.flagSet := rfl
@[simp] theorem blockSet_pending (b : Nat) (x : StripeBlock) : (blockSet s b x).pending = s.pending := rfl

/-! ### `copySet` -/

@[simp] theorem copySet_mgmt (l : FlashLoc) (c : FlashCopy) : (copySet s l c).mgmt = s.mgmt := rfl
@[simp] theorem copySet_img (l : FlashLoc) (c : FlashCopy) : (copySet s l c).img = s.img := rfl
@[simp] theorem copySet_parts (l : FlashLoc) (c : FlashCopy) : (copySet s l c).parts = s.parts := rfl
@[simp] theorem copySet_flows (l : FlashLoc) (c : FlashCopy) : (copySet s l c).flows = s.flows := rfl
@[simp] theorem copySet_td (l : FlashLoc) (c : FlashCopy) : (copySet s l c).td = s.td := rfl
@[simp] theorem copySet_ports (l : FlashLoc) (c : FlashCopy) : (copySet s l c).ports = s.ports := rfl
@[simp] theorem copySet_fab (l : FlashLoc) (c : FlashCopy) : (copySet s l c).fab = s.fab := rfl
@[simp] theorem copySet_coh (l : FlashLoc) (c : FlashCopy) : (copySet s l c).coh = s.coh := rfl
@[simp] theorem copySet_stk (l : FlashLoc) (c : FlashCopy) : (copySet s l c).stk = s.stk := rfl
@[simp] theorem copySet_near (l : FlashLoc) (c : FlashCopy) : (copySet s l c).near = s.near := rfl
@[simp] theorem copySet_eng (l : FlashLoc) (c : FlashCopy) : (copySet s l c).eng = s.eng := rfl
@[simp] theorem copySet_di (l : FlashLoc) (c : FlashCopy) : (copySet s l c).di = s.di := rfl
@[simp] theorem copySet_eth (l : FlashLoc) (c : FlashCopy) : (copySet s l c).eth = s.eth := rfl
@[simp] theorem copySet_sec (l : FlashLoc) (c : FlashCopy) : (copySet s l c).sec = s.sec := rfl
@[simp] theorem copySet_twn (l : FlashLoc) (c : FlashCopy) : (copySet s l c).twn = s.twn := rfl
@[simp] theorem copySet_pwr (l : FlashLoc) (c : FlashCopy) : (copySet s l c).pwr = s.pwr := rfl
@[simp] theorem copySet_staging (l : FlashLoc) (c : FlashCopy) : (copySet s l c).staging = s.staging := rfl
@[simp] theorem copySet_mailbox (l : FlashLoc) (c : FlashCopy) : (copySet s l c).mailbox = s.mailbox := rfl
@[simp] theorem copySet_svc (l : FlashLoc) (c : FlashCopy) : (copySet s l c).svc = s.svc := rfl
@[simp] theorem copySet_nextTicket (l : FlashLoc) (c : FlashCopy) : (copySet s l c).nextTicket = s.nextTicket := rfl
@[simp] theorem copySet_out (l : FlashLoc) (c : FlashCopy) : (copySet s l c).out = s.out := rfl
@[simp] theorem copySet_free (l : FlashLoc) (c : FlashCopy) : (copySet s l c).free = s.free := rfl
@[simp] theorem copySet_flagSet (l : FlashLoc) (c : FlashCopy) : (copySet s l c).flagSet = s.flagSet := rfl
@[simp] theorem copySet_pending (l : FlashLoc) (c : FlashCopy) : (copySet s l c).pending = s.pending := rfl

/-! ### `versionSet` -/

@[simp] theorem versionSet_mgmt (p u : Nat) (x : Version) : (versionSet s p u x).mgmt = s.mgmt := rfl
@[simp] theorem versionSet_img (p u : Nat) (x : Version) : (versionSet s p u x).img = s.img := rfl
@[simp] theorem versionSet_parts (p u : Nat) (x : Version) : (versionSet s p u x).parts = s.parts := rfl
@[simp] theorem versionSet_flows (p u : Nat) (x : Version) : (versionSet s p u x).flows = s.flows := rfl
@[simp] theorem versionSet_td (p u : Nat) (x : Version) : (versionSet s p u x).td = s.td := rfl
@[simp] theorem versionSet_ports (p u : Nat) (x : Version) : (versionSet s p u x).ports = s.ports := rfl
@[simp] theorem versionSet_fab (p u : Nat) (x : Version) : (versionSet s p u x).fab = s.fab := rfl
@[simp] theorem versionSet_stk (p u : Nat) (x : Version) : (versionSet s p u x).stk = s.stk := rfl
@[simp] theorem versionSet_near (p u : Nat) (x : Version) : (versionSet s p u x).near = s.near := rfl
@[simp] theorem versionSet_fl (p u : Nat) (x : Version) : (versionSet s p u x).fl = s.fl := rfl
@[simp] theorem versionSet_eng (p u : Nat) (x : Version) : (versionSet s p u x).eng = s.eng := rfl
@[simp] theorem versionSet_di (p u : Nat) (x : Version) : (versionSet s p u x).di = s.di := rfl
@[simp] theorem versionSet_eth (p u : Nat) (x : Version) : (versionSet s p u x).eth = s.eth := rfl
@[simp] theorem versionSet_sec (p u : Nat) (x : Version) : (versionSet s p u x).sec = s.sec := rfl
@[simp] theorem versionSet_twn (p u : Nat) (x : Version) : (versionSet s p u x).twn = s.twn := rfl
@[simp] theorem versionSet_pwr (p u : Nat) (x : Version) : (versionSet s p u x).pwr = s.pwr := rfl
@[simp] theorem versionSet_staging (p u : Nat) (x : Version) : (versionSet s p u x).staging = s.staging := rfl
@[simp] theorem versionSet_mailbox (p u : Nat) (x : Version) : (versionSet s p u x).mailbox = s.mailbox := rfl
@[simp] theorem versionSet_svc (p u : Nat) (x : Version) : (versionSet s p u x).svc = s.svc := rfl
@[simp] theorem versionSet_nextTicket (p u : Nat) (x : Version) : (versionSet s p u x).nextTicket = s.nextTicket := rfl
@[simp] theorem versionSet_out (p u : Nat) (x : Version) : (versionSet s p u x).out = s.out := rfl
@[simp] theorem versionSet_free (p u : Nat) (x : Version) : (versionSet s p u x).free = s.free := rfl
@[simp] theorem versionSet_flagSet (p u : Nat) (x : Version) : (versionSet s p u x).flagSet = s.flagSet := rfl
@[simp] theorem versionSet_pending (p u : Nat) (x : Version) : (versionSet s p u x).pending = s.pending := rfl

/-! ### `halfMod` -/

@[simp] theorem halfMod_mgmt (h : Nat) (f : CohHalf → CohHalf) : (halfMod s h f).mgmt = s.mgmt := rfl
@[simp] theorem halfMod_img (h : Nat) (f : CohHalf → CohHalf) : (halfMod s h f).img = s.img := rfl
@[simp] theorem halfMod_parts (h : Nat) (f : CohHalf → CohHalf) : (halfMod s h f).parts = s.parts := rfl
@[simp] theorem halfMod_flows (h : Nat) (f : CohHalf → CohHalf) : (halfMod s h f).flows = s.flows := rfl
@[simp] theorem halfMod_td (h : Nat) (f : CohHalf → CohHalf) : (halfMod s h f).td = s.td := rfl
@[simp] theorem halfMod_ports (h : Nat) (f : CohHalf → CohHalf) : (halfMod s h f).ports = s.ports := rfl
@[simp] theorem halfMod_fab (h : Nat) (f : CohHalf → CohHalf) : (halfMod s h f).fab = s.fab := rfl
@[simp] theorem halfMod_stk (h : Nat) (f : CohHalf → CohHalf) : (halfMod s h f).stk = s.stk := rfl
@[simp] theorem halfMod_near (h : Nat) (f : CohHalf → CohHalf) : (halfMod s h f).near = s.near := rfl
@[simp] theorem halfMod_fl (h : Nat) (f : CohHalf → CohHalf) : (halfMod s h f).fl = s.fl := rfl
@[simp] theorem halfMod_eng (h : Nat) (f : CohHalf → CohHalf) : (halfMod s h f).eng = s.eng := rfl
@[simp] theorem halfMod_di (h : Nat) (f : CohHalf → CohHalf) : (halfMod s h f).di = s.di := rfl
@[simp] theorem halfMod_eth (h : Nat) (f : CohHalf → CohHalf) : (halfMod s h f).eth = s.eth := rfl
@[simp] theorem halfMod_sec (h : Nat) (f : CohHalf → CohHalf) : (halfMod s h f).sec = s.sec := rfl
@[simp] theorem halfMod_twn (h : Nat) (f : CohHalf → CohHalf) : (halfMod s h f).twn = s.twn := rfl
@[simp] theorem halfMod_pwr (h : Nat) (f : CohHalf → CohHalf) : (halfMod s h f).pwr = s.pwr := rfl
@[simp] theorem halfMod_staging (h : Nat) (f : CohHalf → CohHalf) : (halfMod s h f).staging = s.staging := rfl
@[simp] theorem halfMod_mailbox (h : Nat) (f : CohHalf → CohHalf) : (halfMod s h f).mailbox = s.mailbox := rfl
@[simp] theorem halfMod_svc (h : Nat) (f : CohHalf → CohHalf) : (halfMod s h f).svc = s.svc := rfl
@[simp] theorem halfMod_nextTicket (h : Nat) (f : CohHalf → CohHalf) : (halfMod s h f).nextTicket = s.nextTicket := rfl
@[simp] theorem halfMod_out (h : Nat) (f : CohHalf → CohHalf) : (halfMod s h f).out = s.out := rfl
@[simp] theorem halfMod_free (h : Nat) (f : CohHalf → CohHalf) : (halfMod s h f).free = s.free := rfl
@[simp] theorem halfMod_flagSet (h : Nat) (f : CohHalf → CohHalf) : (halfMod s h f).flagSet = s.flagSet := rfl
@[simp] theorem halfMod_pending (h : Nat) (f : CohHalf → CohHalf) : (halfMod s h f).pending = s.pending := rfl

/-! ### `markSet` -/

@[simp] theorem markSet_mgmt (k : Nat) (x : WordMark) : (markSet s k x).mgmt = s.mgmt := rfl
@[simp] theorem markSet_img (k : Nat) (x : WordMark) : (markSet s k x).img = s.img := rfl
@[simp] theorem markSet_parts (k : Nat) (x : WordMark) : (markSet s k x).parts = s.parts := rfl
@[simp] theorem markSet_flows (k : Nat) (x : WordMark) : (markSet s k x).flows = s.flows := rfl
@[simp] theorem markSet_td (k : Nat) (x : WordMark) : (markSet s k x).td = s.td := rfl
@[simp] theorem markSet_ports (k : Nat) (x : WordMark) : (markSet s k x).ports = s.ports := rfl
@[simp] theorem markSet_fab (k : Nat) (x : WordMark) : (markSet s k x).fab = s.fab := rfl
@[simp] theorem markSet_coh (k : Nat) (x : WordMark) : (markSet s k x).coh = s.coh := rfl
@[simp] theorem markSet_near (k : Nat) (x : WordMark) : (markSet s k x).near = s.near := rfl
@[simp] theorem markSet_fl (k : Nat) (x : WordMark) : (markSet s k x).fl = s.fl := rfl
@[simp] theorem markSet_eng (k : Nat) (x : WordMark) : (markSet s k x).eng = s.eng := rfl
@[simp] theorem markSet_di (k : Nat) (x : WordMark) : (markSet s k x).di = s.di := rfl
@[simp] theorem markSet_eth (k : Nat) (x : WordMark) : (markSet s k x).eth = s.eth := rfl
@[simp] theorem markSet_sec (k : Nat) (x : WordMark) : (markSet s k x).sec = s.sec := rfl
@[simp] theorem markSet_twn (k : Nat) (x : WordMark) : (markSet s k x).twn = s.twn := rfl
@[simp] theorem markSet_pwr (k : Nat) (x : WordMark) : (markSet s k x).pwr = s.pwr := rfl
@[simp] theorem markSet_staging (k : Nat) (x : WordMark) : (markSet s k x).staging = s.staging := rfl
@[simp] theorem markSet_mailbox (k : Nat) (x : WordMark) : (markSet s k x).mailbox = s.mailbox := rfl
@[simp] theorem markSet_svc (k : Nat) (x : WordMark) : (markSet s k x).svc = s.svc := rfl
@[simp] theorem markSet_nextTicket (k : Nat) (x : WordMark) : (markSet s k x).nextTicket = s.nextTicket := rfl
@[simp] theorem markSet_out (k : Nat) (x : WordMark) : (markSet s k x).out = s.out := rfl
@[simp] theorem markSet_free (k : Nat) (x : WordMark) : (markSet s k x).free = s.free := rfl
@[simp] theorem markSet_flagSet (k : Nat) (x : WordMark) : (markSet s k x).flagSet = s.flagSet := rfl
@[simp] theorem markSet_pending (k : Nat) (x : WordMark) : (markSet s k x).pending = s.pending := rfl

/-! ### `dramSetByte` -/

@[simp] theorem dramSetByte_mgmt (sl a : Nat) (b : Byte) : (dramSetByte s sl a b).mgmt = s.mgmt := rfl
@[simp] theorem dramSetByte_img (sl a : Nat) (b : Byte) : (dramSetByte s sl a b).img = s.img := rfl
@[simp] theorem dramSetByte_parts (sl a : Nat) (b : Byte) : (dramSetByte s sl a b).parts = s.parts := rfl
@[simp] theorem dramSetByte_flows (sl a : Nat) (b : Byte) : (dramSetByte s sl a b).flows = s.flows := rfl
@[simp] theorem dramSetByte_td (sl a : Nat) (b : Byte) : (dramSetByte s sl a b).td = s.td := rfl
@[simp] theorem dramSetByte_ports (sl a : Nat) (b : Byte) : (dramSetByte s sl a b).ports = s.ports := rfl
@[simp] theorem dramSetByte_fab (sl a : Nat) (b : Byte) : (dramSetByte s sl a b).fab = s.fab := rfl
@[simp] theorem dramSetByte_coh (sl a : Nat) (b : Byte) : (dramSetByte s sl a b).coh = s.coh := rfl
@[simp] theorem dramSetByte_near (sl a : Nat) (b : Byte) : (dramSetByte s sl a b).near = s.near := rfl
@[simp] theorem dramSetByte_fl (sl a : Nat) (b : Byte) : (dramSetByte s sl a b).fl = s.fl := rfl
@[simp] theorem dramSetByte_eng (sl a : Nat) (b : Byte) : (dramSetByte s sl a b).eng = s.eng := rfl
@[simp] theorem dramSetByte_di (sl a : Nat) (b : Byte) : (dramSetByte s sl a b).di = s.di := rfl
@[simp] theorem dramSetByte_eth (sl a : Nat) (b : Byte) : (dramSetByte s sl a b).eth = s.eth := rfl
@[simp] theorem dramSetByte_sec (sl a : Nat) (b : Byte) : (dramSetByte s sl a b).sec = s.sec := rfl
@[simp] theorem dramSetByte_twn (sl a : Nat) (b : Byte) : (dramSetByte s sl a b).twn = s.twn := rfl
@[simp] theorem dramSetByte_pwr (sl a : Nat) (b : Byte) : (dramSetByte s sl a b).pwr = s.pwr := rfl
@[simp] theorem dramSetByte_staging (sl a : Nat) (b : Byte) : (dramSetByte s sl a b).staging = s.staging := rfl
@[simp] theorem dramSetByte_mailbox (sl a : Nat) (b : Byte) : (dramSetByte s sl a b).mailbox = s.mailbox := rfl
@[simp] theorem dramSetByte_svc (sl a : Nat) (b : Byte) : (dramSetByte s sl a b).svc = s.svc := rfl
@[simp] theorem dramSetByte_nextTicket (sl a : Nat) (b : Byte) : (dramSetByte s sl a b).nextTicket = s.nextTicket := rfl
@[simp] theorem dramSetByte_out (sl a : Nat) (b : Byte) : (dramSetByte s sl a b).out = s.out := rfl
@[simp] theorem dramSetByte_free (sl a : Nat) (b : Byte) : (dramSetByte s sl a b).free = s.free := rfl
@[simp] theorem dramSetByte_flagSet (sl a : Nat) (b : Byte) : (dramSetByte s sl a b).flagSet = s.flagSet := rfl
@[simp] theorem dramSetByte_pending (sl a : Nat) (b : Byte) : (dramSetByte s sl a b).pending = s.pending := rfl

/-! ### `nearSetByte` -/

@[simp] theorem nearSetByte_mgmt (sl a : Nat) (b : Byte) : (nearSetByte s sl a b).mgmt = s.mgmt := rfl
@[simp] theorem nearSetByte_img (sl a : Nat) (b : Byte) : (nearSetByte s sl a b).img = s.img := rfl
@[simp] theorem nearSetByte_parts (sl a : Nat) (b : Byte) : (nearSetByte s sl a b).parts = s.parts := rfl
@[simp] theorem nearSetByte_flows (sl a : Nat) (b : Byte) : (nearSetByte s sl a b).flows = s.flows := rfl
@[simp] theorem nearSetByte_td (sl a : Nat) (b : Byte) : (nearSetByte s sl a b).td = s.td := rfl
@[simp] theorem nearSetByte_ports (sl a : Nat) (b : Byte) : (nearSetByte s sl a b).ports = s.ports := rfl
@[simp] theorem nearSetByte_fab (sl a : Nat) (b : Byte) : (nearSetByte s sl a b).fab = s.fab := rfl
@[simp] theorem nearSetByte_coh (sl a : Nat) (b : Byte) : (nearSetByte s sl a b).coh = s.coh := rfl
@[simp] theorem nearSetByte_stk (sl a : Nat) (b : Byte) : (nearSetByte s sl a b).stk = s.stk := rfl
@[simp] theorem nearSetByte_fl (sl a : Nat) (b : Byte) : (nearSetByte s sl a b).fl = s.fl := rfl
@[simp] theorem nearSetByte_eng (sl a : Nat) (b : Byte) : (nearSetByte s sl a b).eng = s.eng := rfl
@[simp] theorem nearSetByte_di (sl a : Nat) (b : Byte) : (nearSetByte s sl a b).di = s.di := rfl
@[simp] theorem nearSetByte_eth (sl a : Nat) (b : Byte) : (nearSetByte s sl a b).eth = s.eth := rfl
@[simp] theorem nearSetByte_sec (sl a : Nat) (b : Byte) : (nearSetByte s sl a b).sec = s.sec := rfl
@[simp] theorem nearSetByte_twn (sl a : Nat) (b : Byte) : (nearSetByte s sl a b).twn = s.twn := rfl
@[simp] theorem nearSetByte_pwr (sl a : Nat) (b : Byte) : (nearSetByte s sl a b).pwr = s.pwr := rfl
@[simp] theorem nearSetByte_staging (sl a : Nat) (b : Byte) : (nearSetByte s sl a b).staging = s.staging := rfl
@[simp] theorem nearSetByte_mailbox (sl a : Nat) (b : Byte) : (nearSetByte s sl a b).mailbox = s.mailbox := rfl
@[simp] theorem nearSetByte_svc (sl a : Nat) (b : Byte) : (nearSetByte s sl a b).svc = s.svc := rfl
@[simp] theorem nearSetByte_nextTicket (sl a : Nat) (b : Byte) : (nearSetByte s sl a b).nextTicket = s.nextTicket := rfl
@[simp] theorem nearSetByte_out (sl a : Nat) (b : Byte) : (nearSetByte s sl a b).out = s.out := rfl
@[simp] theorem nearSetByte_free (sl a : Nat) (b : Byte) : (nearSetByte s sl a b).free = s.free := rfl
@[simp] theorem nearSetByte_flagSet (sl a : Nat) (b : Byte) : (nearSetByte s sl a b).flagSet = s.flagSet := rfl
@[simp] theorem nearSetByte_pending (sl a : Nat) (b : Byte) : (nearSetByte s sl a b).pending = s.pending := rfl

/-! ### `emit` -/

@[simp] theorem emit_mgmt (o : Output) : (emit s o).mgmt = s.mgmt := rfl
@[simp] theorem emit_img (o : Output) : (emit s o).img = s.img := rfl
@[simp] theorem emit_parts (o : Output) : (emit s o).parts = s.parts := rfl
@[simp] theorem emit_flows (o : Output) : (emit s o).flows = s.flows := rfl
@[simp] theorem emit_td (o : Output) : (emit s o).td = s.td := rfl
@[simp] theorem emit_ports (o : Output) : (emit s o).ports = s.ports := rfl
@[simp] theorem emit_fab (o : Output) : (emit s o).fab = s.fab := rfl
@[simp] theorem emit_coh (o : Output) : (emit s o).coh = s.coh := rfl
@[simp] theorem emit_stk (o : Output) : (emit s o).stk = s.stk := rfl
@[simp] theorem emit_near (o : Output) : (emit s o).near = s.near := rfl
@[simp] theorem emit_fl (o : Output) : (emit s o).fl = s.fl := rfl
@[simp] theorem emit_eng (o : Output) : (emit s o).eng = s.eng := rfl
@[simp] theorem emit_di (o : Output) : (emit s o).di = s.di := rfl
@[simp] theorem emit_eth (o : Output) : (emit s o).eth = s.eth := rfl
@[simp] theorem emit_sec (o : Output) : (emit s o).sec = s.sec := rfl
@[simp] theorem emit_twn (o : Output) : (emit s o).twn = s.twn := rfl
@[simp] theorem emit_pwr (o : Output) : (emit s o).pwr = s.pwr := rfl
@[simp] theorem emit_staging (o : Output) : (emit s o).staging = s.staging := rfl
@[simp] theorem emit_mailbox (o : Output) : (emit s o).mailbox = s.mailbox := rfl
@[simp] theorem emit_svc (o : Output) : (emit s o).svc = s.svc := rfl
@[simp] theorem emit_nextTicket (o : Output) : (emit s o).nextTicket = s.nextTicket := rfl
@[simp] theorem emit_free (o : Output) : (emit s o).free = s.free := rfl
@[simp] theorem emit_flagSet (o : Output) : (emit s o).flagSet = s.flagSet := rfl
@[simp] theorem emit_pending (o : Output) : (emit s o).pending = s.pending := rfl

/-! ### `seenClk` -/

@[simp] theorem seenClk_mgmt (clk : Nat) : (seenClk s clk).mgmt = s.mgmt := rfl
@[simp] theorem seenClk_img (clk : Nat) : (seenClk s clk).img = s.img := rfl
@[simp] theorem seenClk_parts (clk : Nat) : (seenClk s clk).parts = s.parts := rfl
@[simp] theorem seenClk_flows (clk : Nat) : (seenClk s clk).flows = s.flows := rfl
@[simp] theorem seenClk_ports (clk : Nat) : (seenClk s clk).ports = s.ports := rfl
@[simp] theorem seenClk_fab (clk : Nat) : (seenClk s clk).fab = s.fab := rfl
@[simp] theorem seenClk_coh (clk : Nat) : (seenClk s clk).coh = s.coh := rfl
@[simp] theorem seenClk_stk (clk : Nat) : (seenClk s clk).stk = s.stk := rfl
@[simp] theorem seenClk_near (clk : Nat) : (seenClk s clk).near = s.near := rfl
@[simp] theorem seenClk_fl (clk : Nat) : (seenClk s clk).fl = s.fl := rfl
@[simp] theorem seenClk_eng (clk : Nat) : (seenClk s clk).eng = s.eng := rfl
@[simp] theorem seenClk_di (clk : Nat) : (seenClk s clk).di = s.di := rfl
@[simp] theorem seenClk_eth (clk : Nat) : (seenClk s clk).eth = s.eth := rfl
@[simp] theorem seenClk_sec (clk : Nat) : (seenClk s clk).sec = s.sec := rfl
@[simp] theorem seenClk_twn (clk : Nat) : (seenClk s clk).twn = s.twn := rfl
@[simp] theorem seenClk_pwr (clk : Nat) : (seenClk s clk).pwr = s.pwr := rfl
@[simp] theorem seenClk_staging (clk : Nat) : (seenClk s clk).staging = s.staging := rfl
@[simp] theorem seenClk_mailbox (clk : Nat) : (seenClk s clk).mailbox = s.mailbox := rfl
@[simp] theorem seenClk_svc (clk : Nat) : (seenClk s clk).svc = s.svc := rfl
@[simp] theorem seenClk_nextTicket (clk : Nat) : (seenClk s clk).nextTicket = s.nextTicket := rfl
@[simp] theorem seenClk_out (clk : Nat) : (seenClk s clk).out = s.out := rfl
@[simp] theorem seenClk_free (clk : Nat) : (seenClk s clk).free = s.free := rfl
@[simp] theorem seenClk_flagSet (clk : Nat) : (seenClk s clk).flagSet = s.flagSet := rfl
@[simp] theorem seenClk_pending (clk : Nat) : (seenClk s clk).pending = s.pending := rfl

/-! ### `noteFlags` -/

@[simp] theorem noteFlags_mgmt (ids : List Nat) : (noteFlags s ids).mgmt = s.mgmt := rfl
@[simp] theorem noteFlags_img (ids : List Nat) : (noteFlags s ids).img = s.img := rfl
@[simp] theorem noteFlags_parts (ids : List Nat) : (noteFlags s ids).parts = s.parts := rfl
@[simp] theorem noteFlags_flows (ids : List Nat) : (noteFlags s ids).flows = s.flows := rfl
@[simp] theorem noteFlags_td (ids : List Nat) : (noteFlags s ids).td = s.td := rfl
@[simp] theorem noteFlags_ports (ids : List Nat) : (noteFlags s ids).ports = s.ports := rfl
@[simp] theorem noteFlags_fab (ids : List Nat) : (noteFlags s ids).fab = s.fab := rfl
@[simp] theorem noteFlags_coh (ids : List Nat) : (noteFlags s ids).coh = s.coh := rfl
@[simp] theorem noteFlags_stk (ids : List Nat) : (noteFlags s ids).stk = s.stk := rfl
@[simp] theorem noteFlags_near (ids : List Nat) : (noteFlags s ids).near = s.near := rfl
@[simp] theorem noteFlags_fl (ids : List Nat) : (noteFlags s ids).fl = s.fl := rfl
@[simp] theorem noteFlags_eng (ids : List Nat) : (noteFlags s ids).eng = s.eng := rfl
@[simp] theorem noteFlags_di (ids : List Nat) : (noteFlags s ids).di = s.di := rfl
@[simp] theorem noteFlags_eth (ids : List Nat) : (noteFlags s ids).eth = s.eth := rfl
@[simp] theorem noteFlags_sec (ids : List Nat) : (noteFlags s ids).sec = s.sec := rfl
@[simp] theorem noteFlags_twn (ids : List Nat) : (noteFlags s ids).twn = s.twn := rfl
@[simp] theorem noteFlags_pwr (ids : List Nat) : (noteFlags s ids).pwr = s.pwr := rfl
@[simp] theorem noteFlags_staging (ids : List Nat) : (noteFlags s ids).staging = s.staging := rfl
@[simp] theorem noteFlags_mailbox (ids : List Nat) : (noteFlags s ids).mailbox = s.mailbox := rfl
@[simp] theorem noteFlags_svc (ids : List Nat) : (noteFlags s ids).svc = s.svc := rfl
@[simp] theorem noteFlags_nextTicket (ids : List Nat) : (noteFlags s ids).nextTicket = s.nextTicket := rfl
@[simp] theorem noteFlags_out (ids : List Nat) : (noteFlags s ids).out = s.out := rfl
@[simp] theorem noteFlags_free (ids : List Nat) : (noteFlags s ids).free = s.free := rfl
@[simp] theorem noteFlags_pending (ids : List Nat) : (noteFlags s ids).pending = s.pending := rfl

/-! ### `pathMod` -/

@[simp] theorem pathMod_img (path : Path) (f : PathState → PathState) : (pathMod s path f).img = s.img :=
    by cases path <;> rfl
@[simp] theorem pathMod_parts (path : Path) (f : PathState → PathState) : (pathMod s path f).parts = s.parts :=
    by cases path <;> rfl
@[simp] theorem pathMod_flows (path : Path) (f : PathState → PathState) : (pathMod s path f).flows = s.flows :=
    by cases path <;> rfl
@[simp] theorem pathMod_td (path : Path) (f : PathState → PathState) : (pathMod s path f).td = s.td :=
    by cases path <;> rfl
@[simp] theorem pathMod_ports (path : Path) (f : PathState → PathState) : (pathMod s path f).ports = s.ports :=
    by cases path <;> rfl
@[simp] theorem pathMod_fab (path : Path) (f : PathState → PathState) : (pathMod s path f).fab = s.fab :=
    by cases path <;> rfl
@[simp] theorem pathMod_coh (path : Path) (f : PathState → PathState) : (pathMod s path f).coh = s.coh :=
    by cases path <;> rfl
@[simp] theorem pathMod_stk (path : Path) (f : PathState → PathState) : (pathMod s path f).stk = s.stk :=
    by cases path <;> rfl
@[simp] theorem pathMod_near (path : Path) (f : PathState → PathState) : (pathMod s path f).near = s.near :=
    by cases path <;> rfl
@[simp] theorem pathMod_fl (path : Path) (f : PathState → PathState) : (pathMod s path f).fl = s.fl :=
    by cases path <;> rfl
@[simp] theorem pathMod_eng (path : Path) (f : PathState → PathState) : (pathMod s path f).eng = s.eng :=
    by cases path <;> rfl
@[simp] theorem pathMod_di (path : Path) (f : PathState → PathState) : (pathMod s path f).di = s.di :=
    by cases path <;> rfl
@[simp] theorem pathMod_eth (path : Path) (f : PathState → PathState) : (pathMod s path f).eth = s.eth :=
    by cases path <;> rfl
@[simp] theorem pathMod_sec (path : Path) (f : PathState → PathState) : (pathMod s path f).sec = s.sec :=
    by cases path <;> rfl
@[simp] theorem pathMod_twn (path : Path) (f : PathState → PathState) : (pathMod s path f).twn = s.twn :=
    by cases path <;> rfl
@[simp] theorem pathMod_pwr (path : Path) (f : PathState → PathState) : (pathMod s path f).pwr = s.pwr :=
    by cases path <;> rfl
@[simp] theorem pathMod_staging (path : Path) (f : PathState → PathState) : (pathMod s path f).staging = s.staging :=
    by cases path <;> rfl
@[simp] theorem pathMod_mailbox (path : Path) (f : PathState → PathState) : (pathMod s path f).mailbox = s.mailbox :=
    by cases path <;> rfl
@[simp] theorem pathMod_svc (path : Path) (f : PathState → PathState) : (pathMod s path f).svc = s.svc :=
    by cases path <;> rfl
@[simp] theorem pathMod_nextTicket (path : Path) (f : PathState → PathState) : (pathMod s path f).nextTicket = s.nextTicket :=
    by cases path <;> rfl
@[simp] theorem pathMod_out (path : Path) (f : PathState → PathState) : (pathMod s path f).out = s.out :=
    by cases path <;> rfl
@[simp] theorem pathMod_free (path : Path) (f : PathState → PathState) : (pathMod s path f).free = s.free :=
    by cases path <;> rfl
@[simp] theorem pathMod_flagSet (path : Path) (f : PathState → PathState) : (pathMod s path f).flagSet = s.flagSet :=
    by cases path <;> rfl
@[simp] theorem pathMod_pending (path : Path) (f : PathState → PathState) : (pathMod s path f).pending = s.pending :=
    by cases path <;> rfl

/-! ### `injectFlips` -/

@[simp] theorem injectFlips_mgmt (sl a : Nat) : (injectFlips s sl a).mgmt = s.mgmt :=
    by unfold injectFlips; split <;> rfl
@[simp] theorem injectFlips_img (sl a : Nat) : (injectFlips s sl a).img = s.img := by unfold injectFlips; split <;> rfl
@[simp] theorem injectFlips_parts (sl a : Nat) : (injectFlips s sl a).parts = s.parts :=
    by unfold injectFlips; split <;> rfl
@[simp] theorem injectFlips_flows (sl a : Nat) : (injectFlips s sl a).flows = s.flows :=
    by unfold injectFlips; split <;> rfl
@[simp] theorem injectFlips_td (sl a : Nat) : (injectFlips s sl a).td = s.td := by unfold injectFlips; split <;> rfl
@[simp] theorem injectFlips_ports (sl a : Nat) : (injectFlips s sl a).ports = s.ports :=
    by unfold injectFlips; split <;> rfl
@[simp] theorem injectFlips_fab (sl a : Nat) : (injectFlips s sl a).fab = s.fab := by unfold injectFlips; split <;> rfl
@[simp] theorem injectFlips_coh (sl a : Nat) : (injectFlips s sl a).coh = s.coh := by unfold injectFlips; split <;> rfl
@[simp] theorem injectFlips_near (sl a : Nat) : (injectFlips s sl a).near = s.near :=
    by unfold injectFlips; split <;> rfl
@[simp] theorem injectFlips_fl (sl a : Nat) : (injectFlips s sl a).fl = s.fl := by unfold injectFlips; split <;> rfl
@[simp] theorem injectFlips_eng (sl a : Nat) : (injectFlips s sl a).eng = s.eng := by unfold injectFlips; split <;> rfl
@[simp] theorem injectFlips_eth (sl a : Nat) : (injectFlips s sl a).eth = s.eth := by unfold injectFlips; split <;> rfl
@[simp] theorem injectFlips_sec (sl a : Nat) : (injectFlips s sl a).sec = s.sec := by unfold injectFlips; split <;> rfl
@[simp] theorem injectFlips_twn (sl a : Nat) : (injectFlips s sl a).twn = s.twn := by unfold injectFlips; split <;> rfl
@[simp] theorem injectFlips_pwr (sl a : Nat) : (injectFlips s sl a).pwr = s.pwr := by unfold injectFlips; split <;> rfl
@[simp] theorem injectFlips_staging (sl a : Nat) : (injectFlips s sl a).staging = s.staging :=
    by unfold injectFlips; split <;> rfl
@[simp] theorem injectFlips_mailbox (sl a : Nat) : (injectFlips s sl a).mailbox = s.mailbox :=
    by unfold injectFlips; split <;> rfl
@[simp] theorem injectFlips_svc (sl a : Nat) : (injectFlips s sl a).svc = s.svc := by unfold injectFlips; split <;> rfl
@[simp] theorem injectFlips_nextTicket (sl a : Nat) : (injectFlips s sl a).nextTicket = s.nextTicket :=
    by unfold injectFlips; split <;> rfl
@[simp] theorem injectFlips_out (sl a : Nat) : (injectFlips s sl a).out = s.out := by unfold injectFlips; split <;> rfl
@[simp] theorem injectFlips_free (sl a : Nat) : (injectFlips s sl a).free = s.free :=
    by unfold injectFlips; split <;> rfl
@[simp] theorem injectFlips_flagSet (sl a : Nat) : (injectFlips s sl a).flagSet = s.flagSet :=
    by unfold injectFlips; split <;> rfl
@[simp] theorem injectFlips_pending (sl a : Nat) : (injectFlips s sl a).pending = s.pending :=
    by unfold injectFlips; split <;> rfl

/-! ### `granSet` -/

@[simp] theorem granSet_mgmt (p n : Nat) (x : Granule) : (granSet s p n x).mgmt = s.mgmt :=
    by simp only [granSet]; split <;> simp
@[simp] theorem granSet_img (p n : Nat) (x : Granule) : (granSet s p n x).img = s.img :=
    by simp only [granSet]; split <;> simp
@[simp] theorem granSet_parts (p n : Nat) (x : Granule) : (granSet s p n x).parts = s.parts :=
    by simp only [granSet]; split <;> simp
@[simp] theorem granSet_flows (p n : Nat) (x : Granule) : (granSet s p n x).flows = s.flows :=
    by simp only [granSet]; split <;> simp
@[simp] theorem granSet_td (p n : Nat) (x : Granule) : (granSet s p n x).td = s.td :=
    by simp only [granSet]; split <;> simp
@[simp] theorem granSet_ports (p n : Nat) (x : Granule) : (granSet s p n x).ports = s.ports :=
    by simp only [granSet]; split <;> simp
@[simp] theorem granSet_fab (p n : Nat) (x : Granule) : (granSet s p n x).fab = s.fab :=
    by simp only [granSet]; split <;> simp
@[simp] theorem granSet_coh (p n : Nat) (x : Granule) : (granSet s p n x).coh = s.coh :=
    by simp only [granSet]; split <;> simp
@[simp] theorem granSet_near (p n : Nat) (x : Granule) : (granSet s p n x).near = s.near :=
    by simp only [granSet]; split <;> simp
@[simp] theorem granSet_eng (p n : Nat) (x : Granule) : (granSet s p n x).eng = s.eng :=
    by simp only [granSet]; split <;> simp
@[simp] theorem granSet_eth (p n : Nat) (x : Granule) : (granSet s p n x).eth = s.eth :=
    by simp only [granSet]; split <;> simp
@[simp] theorem granSet_sec (p n : Nat) (x : Granule) : (granSet s p n x).sec = s.sec :=
    by simp only [granSet]; split <;> simp
@[simp] theorem granSet_twn (p n : Nat) (x : Granule) : (granSet s p n x).twn = s.twn :=
    by simp only [granSet]; split <;> simp
@[simp] theorem granSet_pwr (p n : Nat) (x : Granule) : (granSet s p n x).pwr = s.pwr :=
    by simp only [granSet]; split <;> simp
@[simp] theorem granSet_staging (p n : Nat) (x : Granule) : (granSet s p n x).staging = s.staging :=
    by simp only [granSet]; split <;> simp
@[simp] theorem granSet_mailbox (p n : Nat) (x : Granule) : (granSet s p n x).mailbox = s.mailbox :=
    by simp only [granSet]; split <;> simp
@[simp] theorem granSet_svc (p n : Nat) (x : Granule) : (granSet s p n x).svc = s.svc :=
    by simp only [granSet]; split <;> simp
@[simp] theorem granSet_nextTicket (p n : Nat) (x : Granule) : (granSet s p n x).nextTicket = s.nextTicket :=
    by simp only [granSet]; split <;> simp
@[simp] theorem granSet_out (p n : Nat) (x : Granule) : (granSet s p n x).out = s.out :=
    by simp only [granSet]; split <;> simp
@[simp] theorem granSet_free (p n : Nat) (x : Granule) : (granSet s p n x).free = s.free :=
    by simp only [granSet]; split <;> simp
@[simp] theorem granSet_flagSet (p n : Nat) (x : Granule) : (granSet s p n x).flagSet = s.flagSet :=
    by simp only [granSet]; split <;> simp
@[simp] theorem granSet_pending (p n : Nat) (x : Granule) : (granSet s p n x).pending = s.pending :=
    by simp only [granSet]; split <;> simp

/-! ### `dirSet` -/

@[simp] theorem dirSet_mgmt (line : Nat) (e : DirEntry) : (dirSet s line e).mgmt = s.mgmt :=
    by simp only [dirSet, entryClean]; split <;> simp
@[simp] theorem dirSet_img (line : Nat) (e : DirEntry) : (dirSet s line e).img = s.img :=
    by simp only [dirSet, entryClean]; split <;> simp
@[simp] theorem dirSet_parts (line : Nat) (e : DirEntry) : (dirSet s line e).parts = s.parts :=
    by simp only [dirSet, entryClean]; split <;> simp
@[simp] theorem dirSet_flows (line : Nat) (e : DirEntry) : (dirSet s line e).flows = s.flows :=
    by simp only [dirSet, entryClean]; split <;> simp
@[simp] theorem dirSet_td (line : Nat) (e : DirEntry) : (dirSet s line e).td = s.td :=
    by simp only [dirSet, entryClean]; split <;> simp
@[simp] theorem dirSet_ports (line : Nat) (e : DirEntry) : (dirSet s line e).ports = s.ports :=
    by simp only [dirSet, entryClean]; split <;> simp
@[simp] theorem dirSet_fab (line : Nat) (e : DirEntry) : (dirSet s line e).fab = s.fab :=
    by simp only [dirSet, entryClean]; split <;> simp
@[simp] theorem dirSet_near (line : Nat) (e : DirEntry) : (dirSet s line e).near = s.near :=
    by simp only [dirSet, entryClean]; split <;> simp
@[simp] theorem dirSet_fl (line : Nat) (e : DirEntry) : (dirSet s line e).fl = s.fl :=
    by simp only [dirSet, entryClean]; split <;> simp
@[simp] theorem dirSet_eng (line : Nat) (e : DirEntry) : (dirSet s line e).eng = s.eng :=
    by simp only [dirSet, entryClean]; split <;> simp
@[simp] theorem dirSet_eth (line : Nat) (e : DirEntry) : (dirSet s line e).eth = s.eth :=
    by simp only [dirSet, entryClean]; split <;> simp
@[simp] theorem dirSet_sec (line : Nat) (e : DirEntry) : (dirSet s line e).sec = s.sec :=
    by simp only [dirSet, entryClean]; split <;> simp
@[simp] theorem dirSet_twn (line : Nat) (e : DirEntry) : (dirSet s line e).twn = s.twn :=
    by simp only [dirSet, entryClean]; split <;> simp
@[simp] theorem dirSet_pwr (line : Nat) (e : DirEntry) : (dirSet s line e).pwr = s.pwr :=
    by simp only [dirSet, entryClean]; split <;> simp
@[simp] theorem dirSet_staging (line : Nat) (e : DirEntry) : (dirSet s line e).staging = s.staging :=
    by simp only [dirSet, entryClean]; split <;> simp
@[simp] theorem dirSet_mailbox (line : Nat) (e : DirEntry) : (dirSet s line e).mailbox = s.mailbox :=
    by simp only [dirSet, entryClean]; split <;> simp
@[simp] theorem dirSet_svc (line : Nat) (e : DirEntry) : (dirSet s line e).svc = s.svc :=
    by simp only [dirSet, entryClean]; split <;> simp
@[simp] theorem dirSet_nextTicket (line : Nat) (e : DirEntry) : (dirSet s line e).nextTicket = s.nextTicket :=
    by simp only [dirSet, entryClean]; split <;> simp
@[simp] theorem dirSet_out (line : Nat) (e : DirEntry) : (dirSet s line e).out = s.out :=
    by simp only [dirSet, entryClean]; split <;> simp
@[simp] theorem dirSet_free (line : Nat) (e : DirEntry) : (dirSet s line e).free = s.free :=
    by simp only [dirSet, entryClean]; split <;> simp
@[simp] theorem dirSet_flagSet (line : Nat) (e : DirEntry) : (dirSet s line e).flagSet = s.flagSet :=
    by simp only [dirSet, entryClean]; split <;> simp
@[simp] theorem dirSet_pending (line : Nat) (e : DirEntry) : (dirSet s line e).pending = s.pending :=
    by simp only [dirSet, entryClean]; split <;> simp

/-! ### What an update leaves of its own part -/

@[simp] theorem chanSet_stk_xmap (c : Nat) (x : Chan) : (chanSet s c x).stk.xmap = s.stk.xmap := rfl
@[simp] theorem chanSet_stk_xmapAct (c : Nat) (x : Chan) : (chanSet s c x).stk.xmapAct = s.stk.xmapAct := rfl
@[simp] theorem chanSet_stk_decode (c : Nat) (x : Chan) : (chanSet s c x).stk.decode = s.stk.decode := rfl
@[simp] theorem chanSet_stk_repairLog (c : Nat) (x : Chan) : (chanSet s c x).stk.repairLog = s.stk.repairLog := rfl
@[simp] theorem chanSet_stk_dropped (c : Nat) (x : Chan) : (chanSet s c x).stk.dropped = s.stk.dropped := rfl
@[simp] theorem chanSet_stk_dram (c : Nat) (x : Chan) : (chanSet s c x).stk.dram = s.stk.dram := rfl
@[simp] theorem chanSet_stk_marks (c : Nat) (x : Chan) : (chanSet s c x).stk.marks = s.stk.marks := rfl
@[simp] theorem chanSet_stk_lost (c : Nat) (x : Chan) : (chanSet s c x).stk.lost = s.stk.lost := rfl

@[simp] theorem markSet_stk_xmap (k : Nat) (x : WordMark) : (markSet s k x).stk.xmap = s.stk.xmap := rfl
@[simp] theorem markSet_stk_xmapAct (k : Nat) (x : WordMark) : (markSet s k x).stk.xmapAct = s.stk.xmapAct := rfl
@[simp] theorem markSet_stk_decode (k : Nat) (x : WordMark) : (markSet s k x).stk.decode = s.stk.decode := rfl
@[simp] theorem markSet_stk_repairLog (k : Nat) (x : WordMark) : (markSet s k x).stk.repairLog = s.stk.repairLog := rfl
@[simp] theorem markSet_stk_dropped (k : Nat) (x : WordMark) : (markSet s k x).stk.dropped = s.stk.dropped := rfl
@[simp] theorem markSet_stk_chans (k : Nat) (x : WordMark) : (markSet s k x).stk.chans = s.stk.chans := rfl
@[simp] theorem markSet_stk_dram (k : Nat) (x : WordMark) : (markSet s k x).stk.dram = s.stk.dram := rfl
@[simp] theorem markSet_stk_lost (k : Nat) (x : WordMark) : (markSet s k x).stk.lost = s.stk.lost := rfl

@[simp] theorem dramSetByte_stk_xmap (sl a : Nat) (b : Byte) : (dramSetByte s sl a b).stk.xmap = s.stk.xmap := rfl
@[simp] theorem dramSetByte_stk_xmapAct (sl a : Nat) (b : Byte) : (dramSetByte s sl a b).stk.xmapAct = s.stk.xmapAct :=
    rfl
@[simp] theorem dramSetByte_stk_decode (sl a : Nat) (b : Byte) : (dramSetByte s sl a b).stk.decode = s.stk.decode := rfl
@[simp] theorem dramSetByte_stk_repairLog (sl a : Nat) (b : Byte) : (dramSetByte s sl a b).stk.repairLog = s.stk.repairLog :=
    rfl
@[simp] theorem dramSetByte_stk_dropped (sl a : Nat) (b : Byte) : (dramSetByte s sl a b).stk.dropped = s.stk.dropped :=
    rfl
@[simp] theorem dramSetByte_stk_chans (sl a : Nat) (b : Byte) : (dramSetByte s sl a b).stk.chans = s.stk.chans := rfl
@[simp] theorem dramSetByte_stk_marks (sl a : Nat) (b : Byte) : (dramSetByte s sl a b).stk.marks = s.stk.marks := rfl
@[simp] theorem dramSetByte_stk_lost (sl a : Nat) (b : Byte) : (dramSetByte s sl a b).stk.lost = s.stk.lost := rfl

@[simp] theorem engSet_eng_rewriting (e : Nat) (x : Engine) : (engSet s e x).eng.rewriting = s.eng.rewriting := rfl
@[simp] theorem engSet_eng_pairs (e : Nat) (x : Engine) : (engSet s e x).eng.pairs = s.eng.pairs := rfl
@[simp] theorem engSet_eng_pte (e : Nat) (x : Engine) : (engSet s e x).eng.pte = s.eng.pte := rfl
@[simp] theorem engSet_eng_buffers (e : Nat) (x : Engine) : (engSet s e x).eng.buffers = s.eng.buffers := rfl
@[simp] theorem engSet_eng_walks (e : Nat) (x : Engine) : (engSet s e x).eng.walks = s.eng.walks := rfl
@[simp] theorem engSet_eng_nextWalk (e : Nat) (x : Engine) : (engSet s e x).eng.nextWalk = s.eng.nextWalk := rfl
@[simp] theorem engSet_eng_lostProgs (e : Nat) (x : Engine) : (engSet s e x).eng.lostProgs = s.eng.lostProgs := rfl
@[simp] theorem engSet_eng_lostPages (e : Nat) (x : Engine) : (engSet s e x).eng.lostPages = s.eng.lostPages := rfl

@[simp] theorem pairSet_eng_eng (p q : Nat) (x : Pair) : (pairSet s p q x).eng.eng = s.eng.eng := rfl
@[simp] theorem pairSet_eng_rewriting (p q : Nat) (x : Pair) : (pairSet s p q x).eng.rewriting = s.eng.rewriting := rfl
@[simp] theorem pairSet_eng_pte (p q : Nat) (x : Pair) : (pairSet s p q x).eng.pte = s.eng.pte := rfl
@[simp] theorem pairSet_eng_buffers (p q : Nat) (x : Pair) : (pairSet s p q x).eng.buffers = s.eng.buffers := rfl
@[simp] theorem pairSet_eng_walks (p q : Nat) (x : Pair) : (pairSet s p q x).eng.walks = s.eng.walks := rfl
@[simp] theorem pairSet_eng_nextWalk (p q : Nat) (x : Pair) : (pairSet s p q x).eng.nextWalk = s.eng.nextWalk := rfl
@[simp] theorem pairSet_eng_lostProgs (p q : Nat) (x : Pair) : (pairSet s p q x).eng.lostProgs = s.eng.lostProgs := rfl
@[simp] theorem pairSet_eng_lostPages (p q : Nat) (x : Pair) : (pairSet s p q x).eng.lostPages = s.eng.lostPages := rfl

@[simp] theorem pteSet_eng_eng (p u : Nat) (x : Pte) : (pteSet s p u x).eng.eng = s.eng.eng := rfl
@[simp] theorem pteSet_eng_rewriting (p u : Nat) (x : Pte) : (pteSet s p u x).eng.rewriting = s.eng.rewriting := rfl
@[simp] theorem pteSet_eng_pairs (p u : Nat) (x : Pte) : (pteSet s p u x).eng.pairs = s.eng.pairs := rfl
@[simp] theorem pteSet_eng_buffers (p u : Nat) (x : Pte) : (pteSet s p u x).eng.buffers = s.eng.buffers := rfl
@[simp] theorem pteSet_eng_walks (p u : Nat) (x : Pte) : (pteSet s p u x).eng.walks = s.eng.walks := rfl
@[simp] theorem pteSet_eng_nextWalk (p u : Nat) (x : Pte) : (pteSet s p u x).eng.nextWalk = s.eng.nextWalk := rfl
@[simp] theorem pteSet_eng_lostProgs (p u : Nat) (x : Pte) : (pteSet s p u x).eng.lostProgs = s.eng.lostProgs := rfl
@[simp] theorem pteSet_eng_lostPages (p u : Nat) (x : Pte) : (pteSet s p u x).eng.lostPages = s.eng.lostPages := rfl

@[simp] theorem blockSet_fl_discovered (b : Nat) (x : StripeBlock) : (blockSet s b x).fl.discovered = s.fl.discovered :=
    rfl
@[simp] theorem blockSet_fl_usable (b : Nat) (x : StripeBlock) : (blockSet s b x).fl.usable = s.fl.usable := rfl
@[simp] theorem blockSet_fl_chans (b : Nat) (x : StripeBlock) : (blockSet s b x).fl.chans = s.fl.chans := rfl
@[simp] theorem blockSet_fl_geom (b : Nat) (x : StripeBlock) : (blockSet s b x).fl.geom = s.fl.geom := rfl
@[simp] theorem blockSet_fl_groups (b : Nat) (x : StripeBlock) : (blockSet s b x).fl.groups = s.fl.groups := rfl
@[simp] theorem blockSet_fl_defects (b : Nat) (x : StripeBlock) : (blockSet s b x).fl.defects = s.fl.defects := rfl
@[simp] theorem blockSet_fl_reserve (b : Nat) (x : StripeBlock) : (blockSet s b x).fl.reserve = s.fl.reserve := rfl
@[simp] theorem blockSet_fl_unreplaced (b : Nat) (x : StripeBlock) : (blockSet s b x).fl.unreplaced = s.fl.unreplaced :=
    rfl
@[simp] theorem blockSet_fl_grans (b : Nat) (x : StripeBlock) : (blockSet s b x).fl.grans = s.fl.grans := rfl
@[simp] theorem blockSet_fl_copies (b : Nat) (x : StripeBlock) : (blockSet s b x).fl.copies = s.fl.copies := rfl

@[simp] theorem copySet_fl_discovered (l : FlashLoc) (c : FlashCopy) : (copySet s l c).fl.discovered = s.fl.discovered :=
    rfl
@[simp] theorem copySet_fl_usable (l : FlashLoc) (c : FlashCopy) : (copySet s l c).fl.usable = s.fl.usable := rfl
@[simp] theorem copySet_fl_chans (l : FlashLoc) (c : FlashCopy) : (copySet s l c).fl.chans = s.fl.chans := rfl
@[simp] theorem copySet_fl_geom (l : FlashLoc) (c : FlashCopy) : (copySet s l c).fl.geom = s.fl.geom := rfl
@[simp] theorem copySet_fl_groups (l : FlashLoc) (c : FlashCopy) : (copySet s l c).fl.groups = s.fl.groups := rfl
@[simp] theorem copySet_fl_blocks (l : FlashLoc) (c : FlashCopy) : (copySet s l c).fl.blocks = s.fl.blocks := rfl
@[simp] theorem copySet_fl_defects (l : FlashLoc) (c : FlashCopy) : (copySet s l c).fl.defects = s.fl.defects := rfl
@[simp] theorem copySet_fl_reserve (l : FlashLoc) (c : FlashCopy) : (copySet s l c).fl.reserve = s.fl.reserve := rfl
@[simp] theorem copySet_fl_unreplaced (l : FlashLoc) (c : FlashCopy) : (copySet s l c).fl.unreplaced = s.fl.unreplaced :=
    rfl
@[simp] theorem copySet_fl_grans (l : FlashLoc) (c : FlashCopy) : (copySet s l c).fl.grans = s.fl.grans := rfl

@[simp] theorem versionSet_coh_sto (p u : Nat) (x : Version) : (versionSet s p u x).coh.sto = s.coh.sto := rfl
@[simp] theorem versionSet_coh_dir (p u : Nat) (x : Version) : (versionSet s p u x).coh.dir = s.coh.dir := rfl
@[simp] theorem versionSet_coh_cache (p u : Nat) (x : Version) : (versionSet s p u x).coh.cache = s.coh.cache := rfl
@[simp] theorem versionSet_coh_waysPruned (p u : Nat) (x : Version) : (versionSet s p u x).coh.waysPruned = s.coh.waysPruned :=
    rfl
@[simp] theorem versionSet_coh_txns (p u : Nat) (x : Version) : (versionSet s p u x).coh.txns = s.coh.txns := rfl
@[simp] theorem versionSet_coh_gathered (p u : Nat) (x : Version) : (versionSet s p u x).coh.gathered = s.coh.gathered :=
    rfl
@[simp] theorem versionSet_coh_halves (p u : Nat) (x : Version) : (versionSet s p u x).coh.halves = s.coh.halves := rfl
@[simp] theorem versionSet_coh_pubWait (p u : Nat) (x : Version) : (versionSet s p u x).coh.pubWait = s.coh.pubWait :=
    rfl
@[simp] theorem versionSet_coh_sweepLeft (p u : Nat) (x : Version) : (versionSet s p u x).coh.sweepLeft = s.coh.sweepLeft :=
    rfl
@[simp] theorem versionSet_coh_recoveries (p u : Nat) (x : Version) : (versionSet s p u x).coh.recoveries = s.coh.recoveries :=
    rfl

@[simp] theorem halfMod_coh_sto (h : Nat) (f : CohHalf → CohHalf) : (halfMod s h f).coh.sto = s.coh.sto := rfl
@[simp] theorem halfMod_coh_dir (h : Nat) (f : CohHalf → CohHalf) : (halfMod s h f).coh.dir = s.coh.dir := rfl
@[simp] theorem halfMod_coh_cache (h : Nat) (f : CohHalf → CohHalf) : (halfMod s h f).coh.cache = s.coh.cache := rfl
@[simp] theorem halfMod_coh_waysPruned (h : Nat) (f : CohHalf → CohHalf) : (halfMod s h f).coh.waysPruned = s.coh.waysPruned :=
    rfl
@[simp] theorem halfMod_coh_txns (h : Nat) (f : CohHalf → CohHalf) : (halfMod s h f).coh.txns = s.coh.txns := rfl
@[simp] theorem halfMod_coh_gathered (h : Nat) (f : CohHalf → CohHalf) : (halfMod s h f).coh.gathered = s.coh.gathered :=
    rfl
@[simp] theorem halfMod_coh_versions (h : Nat) (f : CohHalf → CohHalf) : (halfMod s h f).coh.versions = s.coh.versions :=
    rfl
@[simp] theorem halfMod_coh_pubWait (h : Nat) (f : CohHalf → CohHalf) : (halfMod s h f).coh.pubWait = s.coh.pubWait :=
    rfl
@[simp] theorem halfMod_coh_sweepLeft (h : Nat) (f : CohHalf → CohHalf) : (halfMod s h f).coh.sweepLeft = s.coh.sweepLeft :=
    rfl
@[simp] theorem halfMod_coh_recoveries (h : Nat) (f : CohHalf → CohHalf) : (halfMod s h f).coh.recoveries = s.coh.recoveries :=
    rfl

@[simp] theorem qpSet_eth_ports (q : Nat) (x : Qp) : (qpSet s q x).eth.ports = s.eth.ports := rfl
@[simp] theorem qpSet_eth_ip (q : Nat) (x : Qp) : (qpSet s q x).eth.ip = s.eth.ip := rfl
@[simp] theorem qpSet_eth_kept (q : Nat) (x : Qp) : (qpSet s q x).eth.kept = s.eth.kept := rfl

@[simp] theorem nearSetByte_near_flips (sl a : Nat) (b : Byte) : (nearSetByte s sl a b).near.flips = s.near.flips := rfl
@[simp] theorem nearSetByte_near_lostRows (sl a : Nat) (b : Byte) : (nearSetByte s sl a b).near.lostRows = s.near.lostRows :=
    rfl
@[simp] theorem nearSetByte_near_clk (sl a : Nat) (b : Byte) : (nearSetByte s sl a b).near.clk = s.near.clk := rfl
@[simp] theorem nearSetByte_near_own (sl a : Nat) (b : Byte) : (nearSetByte s sl a b).near.own = s.near.own := rfl
@[simp] theorem nearSetByte_near_coll (sl a : Nat) (b : Byte) : (nearSetByte s sl a b).near.coll = s.near.coll := rfl
@[simp] theorem nearSetByte_near_atoms (sl a : Nat) (b : Byte) : (nearSetByte s sl a b).near.atoms = s.near.atoms := rfl

/-! ### What a read gives after an update -/

@[simp] theorem partGet_partSet (p j : Nat) (x : Partition) : partGet (partSet s p x) j = if j = p then x else partGet s j :=
  tblGet_set
@[simp] theorem partGet_partMod (p j : Nat) (f : Partition → Partition) :
    partGet (partMod s p f) j = if j = p then f (partGet s p) else partGet s j := tblGet_set
@[simp] theorem flowGet_flowSet (k j : Nat) (x : Flow) : flowGet (flowSet s k x) j = if j = k then x else flowGet s j :=
  tblGet_set
@[simp] theorem flowGet_flowMod (k j : Nat) (f : Flow → Flow) :
    flowGet (flowMod s k f) j = if j = k then f (flowGet s k) else flowGet s j := tblGet_set
@[simp] theorem portGet_portSet (p j : Nat) (x : Port) : portGet (portSet s p x) j = if j = p then x else portGet s j :=
  tblGet_set
@[simp] theorem portGet_portMod (p j : Nat) (f : Port → Port) :
    portGet (portMod s p f) j = if j = p then f (portGet s p) else portGet s j := tblGet_set
@[simp] theorem chanGet_chanSet (c j : Nat) (x : Chan) : chanGet (chanSet s c x) j = if j = c then x else chanGet s j :=
  tblGet_set
@[simp] theorem engGet_engSet (e j : Nat) (x : Engine) : engGet (engSet s e x) j = if j = e then x else engGet s j :=
  tblGet_set
@[simp] theorem qpGet_qpSet (q j : Nat) (x : Qp) : qpGet (qpSet s q x) j = if j = q then x else qpGet s j :=
  tblGet_set
@[simp] theorem blockGet_blockSet (b j : Nat) (x : StripeBlock) : blockGet (blockSet s b x) j = if j = b then x else blockGet s j :=
  tblGet_set
@[simp] theorem markGet_markSet (k j : Nat) (x : WordMark) : markGet (markSet s k x) j = if j = k then x else markGet s j :=
  tblGet_set
@[simp] theorem copyGet_copySet (l m : FlashLoc) (c : FlashCopy) :
    copyGet (copySet s l c) m = if locKey m = locKey l then c else copyGet s m := tblGet_set
@[simp] theorem pairGet_pairSet (p q p' q' : Nat) (x : Pair) :
    pairGet (pairSet s p q x) p' q' = if 64 * p' + q' = 64 * p + q then x else pairGet s p' q' := tblGet_set
@[simp] theorem pteGet_pteSet (p u p' u' : Nat) (x : Pte) :
    pteGet (pteSet s p u x) p' u' = if p' * 2 ^ 26 + u' = p * 2 ^ 26 + u then x else pteGet s p' u' := tblGet_set
@[simp] theorem versionGet_versionSet (p u p' u' : Nat) (x : Version) :
    versionGet (versionSet s p u x) p' u' = if p' * 2 ^ 26 + u' = p * 2 ^ 26 + u then x else versionGet s p' u' := tblGet_set
@[simp] theorem dramByte_dramSetByte (sl a sl' a' : Nat) (b : Byte) :
    dramByte (dramSetByte s sl a b) sl' a' = if byteKey sl' a' = byteKey sl a then b else dramByte s sl' a' := tblGet_set
@[simp] theorem nearByte_nearSetByte (sl a sl' a' : Nat) (b : Byte) :
    nearByte (nearSetByte s sl a b) sl' a' = if nearByteKey sl' a' = nearByteKey sl a then b else nearByte s sl' a' := tblGet_set
@[simp] theorem bankGet_bankSet (c : Chan) (b j : Nat) (x : Bank) : bankGet (bankSet c b x) j = if j = b then x else bankGet c j :=
  tblGet_set
@[simp] theorem pathGet_pathMod (path other : Path) (f : PathState → PathState) :
    pathGet (pathMod s path f) other = if other = path then f (pathGet s path) else pathGet s other := by
  cases path <;> cases other <;> rfl
@[simp] theorem granGet_granSet (p n p' n' : Nat) (x : Granule) :
    granGet (granSet s p n x) p' n' = if p' * 2 ^ 32 + n' = p * 2 ^ 32 + n then x else granGet s p' n' := by
  have h : ∀ (t : State) (sl a : Nat), (injectFlips t sl a).fl = t.fl := fun t sl a => by simp
  simp only [granSet, granGet]
  split
  · exact tblGet_set
  · simp only [h, markSet_fl]; exact tblGet_set
@[simp] theorem dirGet_dirSet (line other : Nat) (e : DirEntry) :
    dirGet (dirSet s line e) other = if other / 64 = line / 64 then e else dirGet s other := by
  have h : ∀ (t : State) (sl a : Nat), (entryClean t sl a).coh = t.coh := fun t sl a => by simp [entryClean]
  simp only [dirSet, dirGet]
  split
  · exact tblGet_set
  · simp only [h]; exact tblGet_set

end Sys2Proof.Laws
end

