-- ==== Sys2Proof/WellFormed.lean ====
section
/-! DEFINITION. Which commands are well formed: operands within the widths and lengths that the spec gives what they
stand for. The meanings are total, so an ill-formed command still has one; no claim about the device is made of it. -/

namespace Sys2Proof

/-- Offsets of the register space: 32 MiB (R38). -/
def offsetOk (off : Nat) : Bool := decide (off < 2 ^ 25)

/-- An access is of 1, 2, 4 or 8 bytes; all but 4 are turned away (R9). -/
def widthOk (w : Nat) : Bool := w = 1 || w = 2 || w = 4 || w = 8

/-- A packet's LEN is the length of its payload where a payload travels, 4,096 at most (R144). -/
def Packet.wf (p : Packet) : Bool := decide (p.payload.length ≤ 4096)

/-- A flit carries 240 data bytes (R118). -/
def Flit.wf (f : Flit) : Bool := decide (f.data.length = 240)

/-- A block comes as 1,088 ten-bit symbols, on one lane or shared evenly by one, two or four (R115, R116). -/
def LaneSymbols.wf (b : LaneSymbols) : Bool :=
  match b with
  | .lane _ xs => decide (xs.length = 1088) && xs.all (fun x => decide (x < 1024))
  | .striped ls => (ls.length = 1 || ls.length = 2 || ls.length = 4) &&
      ls.all (fun l => decide (l.length = 1088 / ls.length) && l.all (fun x => decide (x < 1024)))

/-- Ten temperatures, of dies 0 and 1 and stacks 0 to 7 (R412). -/
def TickInputs.wf (i : TickInputs) : Bool := decide (i.temps.length = 10) && decide (i.vinMin ≤ i.vinMax)

/-- A flip mask names a word of the column and bits of its 80 stored bits (R299). -/
def flipOk (e : Nat × Nat) : Bool := decide (e.1 < 8) && decide (e.2 < 2 ^ 80)
def ColumnErrors.wf (e : ColumnErrors) : Bool := e.cells.all flipOk && e.transit.all flipOk

/-- An access of a channel lies within one 256 B block of a slice's 4.5 GiB (R17, R202). -/
def ChannelReq.wf (r : ChannelReq) : Bool :=
  decide (r.block < 18874368) && decide (0 < r.count) && decide (r.first + r.count ≤ 256)

/-- A parameter page names one of 32 channels and 8 targets (R225, R226). -/
def FlashTarget.wf (t : FlashTarget) : Bool := decide (t.channel < 32) && decide (t.chipEnable < 8)
def FlashReport.wf (r : FlashReport) : Bool :=
  r.untrained.all (fun c => decide (c < 32)) && r.targets.all FlashTarget.wf

/-- Flipped bits of an SRAM word: 72 stored bits of a near word, 80 of a cache word, 9 of a parity byte (R299, R301,
R302). -/
def sramOk (a : SramArray) (flips : Nat) : Bool := match a with
  | .instruction | .configuration => decide (flips < 2 ^ 9)
  | .nearBank => decide (flips < 2 ^ 72)
  | .lineCache | .directoryCache => decide (flips < 2 ^ 80)

/-- Well-formed commands. A constructor whose operands have no bound beyond their types is always well formed. -/
def Instr.wf : Instr → Bool
  | .registerWrite _ off width _ _ => offsetOk off && widthOk width
  | .readLoLatch _ off width _ => offsetOk off && widthOk width
  | .writeLoHeld _ off _ => offsetOk off
  | .writeHiCommit _ off _ _ => offsetOk off
  | .frameTick _ inp => inp.wf
  | .fecBlockReceive _ block _ => block.wf
  | .initReceive _ flit => flit.wf
  | .nearBankAccess _ own _ => own.all (fun w => decide (w < 2 ^ 24))
  | .channelRequestEnqueue _ req _ => req.wf
  | .dramReadData _ errs => errs.wf
  | .patrolScrubRead _ errs => errs.wf
  | .demandScrub _ errs => errs.wf
  | .rowRepair _ _ row _ => decide (row < 2 ^ 17)
  | .flashDiscovery report => report.wf
  | .flashFetchDone _ granule reads => decide (granule < 2 ^ 32) && decide (reads.length = 16)
  | .flashWritebackDone _ granule => decide (granule < 2 ^ 32)
  | .flashProgramFail _ granule => decide (granule < 2 ^ 32)
  | .flashMoveDone _ x => decide (x.granule < 2 ^ 32) && decide (x.reads.length = 16)
  | .tileTranslate _ _ idx stream _ _ => decide (idx < 256) && decide (stream < 3)
  | .unmap _ unit _ => decide (unit < 2 ^ 26)
  | .map _ unit hpage _ => decide (unit < 2 ^ 26) && decide (hpage < 2 ^ 19)
  | .move _ unit src _ => decide (unit < 2 ^ 26) && decide (src < 2 ^ 26)
  | .sramScrub array _ _ flips => sramOk array flips
  | .coldPowerOn _ untrained => untrained.all (fun c => decide (c < 136))
  | .rstNRelease _ untrained => untrained.all (fun c => decide (c < 136))
  | .smbRegisterWrite bytes _ _ => decide (bytes.length ≤ 255)
  | .smbSetReadOffset bytes _ => decide (bytes.length ≤ 255)
  | .bootImageLoad a b => decide (a.length ≤ 2 ^ 24) && decide (b.length ≤ 2 ^ 24)
  | .engSelWrite _ _ | .commandPartEnd _ _ _ | .imageGo _ | .imageAbort | .imageFloor | .imageVerifyDone _
  | .partitionDrainDone _ | .drainTimeout _ | .partitionFillDone _ | .wholeDeviceFillDone | .frmSyncEdge _
  | .relock | .freerunWrite _ | .syncErrClear | .requestArrival _ | .flowAdmit _ _ | .redRemeter _
  | .wheelRelease _ | .gateWindowOpen _ _ | .flowLimitWrite _ _ | .flitSend _ _ | .replayTimeout _ _
  | .creditTimeout _ _ | .trainEnd _ _ | .linkResetTimeout _ | .laneLossOfLock _ _ | .kxRetrain _ | .kxFresh _
  | .kxClear _ | .kxHoldWrite _ _ | .kxLanePrune _ _ | .kxLaneRestore _ _ | .packetRoute _
  | .outputArbitration _ | .mcWr | .mcSig | .rd _ _ | .wr _ _ | .atom _ _ | .rdS _ _ | .rdX _ _ | .upg _ _
  | .wb _ _ | .evct _ _ | .snpRsp _ | .snpData _ | .fwdData _ | .grantAcknowledgement _ | .cohAnswerTimeout _
  | .fenceSweepLine _ _ | .flush _ | .flushRelease _ | .publish _ | .publishDecide _ | .acquire _ | .pubClear _
  | .dramCommandIssue _ _ | .idlePrecharge _ _ _ | .refreshAccrual _ _ _ | .trainingPiece _ _ _
  | .sidPowerDown _ _ _ | .stkPrune _ | .stkGraft _ | .stkClear _ | .channelCopyPiece _
  | .flashWritebackStart _ | .flashReclaim _ | .flashWearLevel _ | .flashRefreshMove _ | .flashEraseDone _ _
  | .flashChannelPrune _ | .flGraft | .flClear | .fill _ _ _ | .copy _ _ _ | .cmp _ _ _ | .red _ _ _
  | .score _ _ _ | .topk _ _ _ | .gather _ _ _ | .cvt _ _ _ | .prog _ _ _ | .halt _ _ | .run _ _ _ | .adda _ _
  | .setc _ _ | .loop _ _ | .mova _ _ | .imemRewriteDone _ | .engResume _ | .engPrune _ | .engClear _
  | .sqEnable _ _ _ | .sqDisable _ _ | .sqRestart _ _ | .sqClear _ _ | .cmdPiSample _ _ | .sqTake _ _ _
  | .completionPop _ | .translationWalkDone _ | .mappingWithdrawDone _ _ | .diLogClear | .diClear
  | .diInjectArm _ | .ethFrameReceive _ _ | .rdmaWrite _ | .rdmaRead _ | .rdmaAtomic _ | .controlSend _
  | .ethAckReceive | .ethAckTimeout _ | .ethRnrResend _ | .ethQpStateWrite _ _ | .ethPhyWrite _ _
  | .mgmtQpAccess _ | .quote | .quoteDone | .keyset | .keysetInstallDone _ | .exchangeKeyExpiry _ | .owner
  | .seal | .sealDone | .fwStage _ | .fwActivate | .fwCommit | .fwRollback | .ledgerHeldAppend _
  | .lgTailWrite _ _ | .heartbeatSend | .heartbeat | .burstSend | .burstReceive _ | .peerFailureDeclare
  | .leadClaim _ _ | .twnLeadRelease | .twnRelease | .twnClear | .twinPub | .twinPublishDecide | .twinWr
  | .twinCmp | .followerAckTimeout | .shadowExpiry | .resyncStart | .twinCopyRead | .twinCopyData
  | .fenceAdd _ _ | .fenceClear _ _ | .halfReset _ | .partitionReset _ | .resetCancel | .resetReady
  | .spareGraft _ | .wdtKick _ | .watchdogExpiry | .mgmtParityError | .hardwareFillDone | .bootImageApply
  | .powerLoss | .overvoltageShutdown | .rstNAssert _ | .thermalTrip | .powerTargetD0 | .powerTargetD1
  | .powerTargetD2 | .powerTargetD3 | .d1AutoReturn | .powerTransitionDone | .smbusWake _ | .smbReadByte
  | .smbRegisterRead _ | .alertResponse | .mapDone _ _ | .ethPortTrainingDone _ | .ethPortLinkLoss _
  | .refclkStable | .overvoltageRelease => true

end Sys2Proof
end

