-- ==== Sys2Proof/Tests/Slice0.lean ====
section
/-! SUPPORT. Tests: ill-formed commands are refused by WellFormed; for each statement a state and operands that meet the
hypotheses of its clauses; and single steps whose results the spec's own words and examples give. -/

namespace Sys2Proof.Tests

set_option Elab.async false

open Sys2Proof Sys2Proof.Machine

def demoRegion (kind : Nat) (flash : Bool) (index start : Nat) : RegionRec :=
  { part := 0, kind := kind, flash := flash, gib := false, twinned := false, index := index, start := start, size := 4, twin := 0 }

/-- A small structure: partition 0 over slices 0 and 1, a published region at units 0 to 3, a DATA region at 8 to 11, a
published region in flash at 16 to 19, four requesters of 100 units a frame. -/
def demoLayout : Layout :=
  { hedges := [{ hedge := 0, mode := 0, members := [(false, 0), (false, 1)] }]
    parts := [{ part := 0, conf := false, root := 0, regions := 3, outdig := false, flashCache := 4 }]
    regions := [demoRegion 2 false 0 0, demoRegion 0 false 1 8, demoRegion 2 true 2 16]
    ring := some { dateline := 0, portEn := 255, node := 65, colLen := 4, rowLen := 4, neighbours := [66, 64, 129, 1, 66, 64, 129, 1] }
    allots := [66, 67, 129, 64].map (fun n => { key := flowNat 0 false n, allot := 100, burst := 100 }) }

/-- A device in service with that structure, its ports ACTIVE with room in every pool. -/
def demo : State :=
  { State.reset with
    pwr := { State.reset.pwr with stage := .serving }
    img := { State.reset.img with layout := demoLayout, loaded := true }
    parts := [(0, { st := .active })]
    flows := [66, 67, 129, 64].map (fun n => (flowNat 0 false n, { limit := 100, limitNow := 100, credit := 100 }))
    ports := (List.range 8).map (fun p => (p, { state := 4, good := 31, credits := List.replicate 16 { avail := 1000 } }))
    eng := { State.reset.eng with pte := [(0, .mapped 0), (1, .mapped 1), (2, .mapped 2), (3, .mapped 3), (8, .mapped 4)] } }

/-- A packet of a requester to partition 0. -/
def demoPacket (o : Op) (src addr : Nat) (payload : List Byte) : Packet :=
  { newPacket demo o 65 0 7 addr payload with src := BitVec.ofNat 12 src }

/-- A request in service under ticket 0. -/
def demoSvc (k : Packet) : Service :=
  { ticket := 0, key := flowNat 0 false k.src.toNat, req := { pkt := k, origin := .fabric 0 }, headroom := some 3 }

def demoWith (k : Packet) : State := { demo with svc := [demoSvc k], nextTicket := 1 }

def nextOf (o : Host.Outcome State Fault Refusal) : State := match o with
  | .next t => t
  | _ => State.reset

/-! ### Well-formed commands: one ill-formed command for each check -/

theorem wf_registerOffset : (Instr.registerWrite .core (2 ^ 25) 4 0 0).wf = false := by decide +kernel
theorem wf_registerWidth : (Instr.readLoLatch .core 0 3 0).wf = false := by decide +kernel
theorem wf_pairOffsets : (Instr.writeLoHeld .core (2 ^ 25) 0).wf = false ∧ (Instr.writeHiCommit .core (2 ^ 25) 0 0).wf = false := by decide +kernel
theorem wf_tickInputs : (Instr.frameTick 0 { leadHigh := true, temps := [], vinMin := 0, vinMax := 0, amp := 0, deciWatt := 0 }).wf = false := by decide +kernel
theorem wf_block : (Instr.fecBlockReceive 0 (.striped [[], [], []]) 0).wf = false := by decide +kernel
theorem wf_initRecord : (Instr.initReceive 0 { data := [], t0 := 0, t1 := 0, t2 := 0, t3 := 0 }).wf = false := by decide +kernel
theorem wf_ownWrites : (Instr.nearBankAccess 0 [2 ^ 24] 0).wf = false := by decide +kernel
theorem wf_channelRequest : (Instr.channelRequestEnqueue 0 { write := false, block := 0, first := 250, count := 7, slot := none } 0).wf = false := by decide +kernel
theorem wf_columnErrors : (Instr.dramReadData 0 { cells := [(8, 0)], transit := [], clk := 0 }).wf = false ∧
    (Instr.patrolScrubRead 0 { cells := [], transit := [(0, 2 ^ 80)], clk := 0 }).wf = false ∧
    (Instr.demandScrub 0 { cells := [(8, 0)], transit := [], clk := 0 }).wf = false := by decide +kernel
theorem wf_row : (Instr.rowRepair 0 0 (2 ^ 17) 0).wf = false := by decide +kernel
theorem wf_flashReport : (Instr.flashDiscovery { untrained := [32], targets := [], tableValid := true, factoryBad := [] }).wf = false := by decide +kernel
theorem wf_granule : (Instr.flashFetchDone 0 (2 ^ 32) []).wf = false ∧ (Instr.flashFetchDone 0 0 []).wf = false ∧
    (Instr.flashWritebackDone 0 (2 ^ 32)).wf = false ∧ (Instr.flashProgramFail 0 (2 ^ 32)).wf = false ∧
    (Instr.flashMoveDone 0 { granule := 2 ^ 32, reads := [] }).wf = false := by decide +kernel
theorem wf_tile : (Instr.tileTranslate 0 0 256 0 0 0).wf = false ∧ (Instr.tileTranslate 0 0 0 3 0 0).wf = false := by decide +kernel
theorem wf_units : (Instr.unmap 0 (2 ^ 26) 0).wf = false ∧ (Instr.map 0 0 (2 ^ 19) 0).wf = false ∧ (Instr.move 0 0 (2 ^ 26) 0).wf = false := by decide +kernel
theorem wf_sram : (Instr.sramScrub .instruction 0 0 (2 ^ 9)).wf = false ∧ (Instr.sramScrub .nearBank 0 0 (2 ^ 72)).wf = false := by decide +kernel
theorem wf_channels : (Instr.coldPowerOn 0 [136]).wf = false ∧ (Instr.rstNRelease 0 [136]).wf = false := by decide +kernel
theorem wf_smbus : (Instr.smbRegisterWrite (List.replicate 256 0) none 0).wf = false ∧
    (Instr.smbSetReadOffset (List.replicate 256 0) none).wf = false := by decide +kernel

/-- The demo device with another image block, port 0, tick block, flow of requester 66, twin or power block. -/
def withImg (f : ImgState → ImgState) : State := { demo with img := f demo.img }
def withTd (f : Traffic → Traffic) : State := { demo with td := f demo.td }
def withPort (f : Port → Port) : State := portMod demo 0 f
def withFlow (f : Flow → Flow) : State := flowMod demo (flowNat 0 false 66) f
def withTwn (f : Twin → Twin) : State := { demo with twn := f demo.twn }
def withPwr (f : Power → Power) : State := { demo with pwr := f demo.pwr }
def withPart (f : Partition → Partition) : State := partMod demo 0 f
def withLayout (f : Layout → Layout) : State := withImg (fun g => { g with layout := f g.layout })

/-! ### The block, its registers and its images -/

theorem witness_StepIdlesOnAnEmptyQueue : demo.pending = [] := by decide

theorem witness_CommandsLeaveTheQueue : exec .relock demo = .next (nextOf (exec .relock demo)) := rfl

theorem witness_StepKeepsMemoryCanonical :
    let s := { dramStore demo 0 16 [1] with pending := [.relock] }
    Memory.wf s = true ∧ step s = .next (nextOf (step s)) := ⟨by decide +kernel, rfl⟩

theorem witness_MemoryReadsBackTheLastStore : (2 ^ 33 - 1 < 2 ^ 33) ∧ ((0, 2 ^ 33 - 1) ≠ (0, 0)) ∧ ((1, 0) ≠ (0, 0)) ∧
    (2 ^ 20 - 1 < 2 ^ 20) := by decide

theorem witness_MisshapenAccessIsIgnored :
    let erred := pathMod (noteFlags demo [0]) .core (fun x => { x with acc := { err := true, cause := 2, off := 8, later := some (1, 4) } })
    (8 ≠ 4 ∨ 4 % 4 ≠ 0) ∧ (4 ≠ 4 ∨ 0xD001 % 4 ≠ 0) ∧ pathRuns demo .core = true ∧ demo.pwr.stage = .serving ∧
      (0x80000000 : Word).getLsbD 31 = true ∧ setNow (seenClk demo 0) (pathCode .core) = false ∧ pathRuns erred .core = true ∧
      erred.pwr.stage = .serving ∧ setNow (seenClk erred 0) (pathCode .core) = true ∧
      (pathGet erred .core).acc = { err := true, cause := 2, off := 8, later := some (1, 4) } := by decide +kernel

/-- What a read of a register gives. -/
def reads (s : State) (path : Path) (off : Nat) (w : Word) : Bool := match readSpace s path off with
  | .ok x => x = w
  | .error _ => false

theorem witness_PairsLatchAndCommit :
    let latched := pathMod demo .core (fun x => { x with latch := some (0x3014, 0), held := some (0x3010, 5) })
    isLo 0x3010 = true ∧ demo.pwr.stage = .serving ∧ pathRuns demo .core = true ∧ reads demo .core 0x3010 0 ∧
      reads demo .core 0x3014 0 ∧ (pathGet latched .core).latch = some (0x3010 + 4, 0) ∧
      reads latched .core 0x3014 0 ∧ (pathGet latched .core).held = some (0x3010, 5) ∧
      (pathGet demo .core).latch = none ∧ (pathGet demo .core).held = none := by decide +kernel

theorem witness_SelectWritesStayOnTheirPath : demo.pwr.stage = .serving ∧ pathRuns demo .mgmtQp = true ∧
    Path.smbus ≠ .core := by decide

theorem witness_ImageControlWrites :
    demo.img.phase = 0 ∧ (withImg (fun g => { g with phase := 1 })).img.phase = 1 ∧
    (let s := withImg (fun g => { g with serial := 2 })
     s.img.loaded = true ∧ 0 < (s.img.owners.getD s.img.ownerSlot {}).left ∧
      (s.img.owners.getD s.img.ownerSlot {}).floor < s.img.serial) ∧
    (let s := withImg (fun g => { g with owners := [{ left := 0 }] })
     (s.img.owners.getD s.img.ownerSlot {}).left = 0) := by decide

theorem witness_VerificationEndsInReportOrDrain :
    let s := withImg (fun g => { g with phase := 1 })
    s.img.phase = 1 ∧ s.img.boot = [] ∧ s.fl.discovered = false ∧
      ({ s with fl := { s.fl with discovered := true } } : State).fl.discovered = true := by decide

/-- Partition 0 quiesced for an image, 64 frames ago. -/
def draining : State :=
  { withPart (fun x => { x with st := .quiesced, why := 1 }) with
    img := { demo.img with phase := 2, load := some { partial_ := true, layout := demoLayout } }, td := { demo.td with ptime := 64 } }

theorem witness_DrainEnds :
    let x := partGet draining 0
    x.st = .quiesced ∧ x.drained = false ∧ x.why ≠ 0 ∧ (∀ v ∈ draining.svc, v.req.pkt.part.toNat ≠ 0) ∧
      (∀ x ∈ draining.coh.txns, x.part ≠ 0) ∧ (∀ q < 64, (pairGet draining 0 q).service = none) ∧ x.why = 1 ∧
      draining.img.load ≠ none ∧ x.since + 64 ≤ draining.td.ptime ∧
      (∀ w ∈ [3, 4], (partGet (partMod draining 0 (fun x => { x with why := w })) 0).why = w) ∧
      (let v := demoSvc (demoPacket .wr 66 16 [1])
       let s := { draining with svc := [v] }
       (partGet s 0).st = .quiesced ∧ (partGet s 0).since + 64 ≤ s.td.ptime ∧ v.req.origin = .fabric 0 ∧
         v.req.pkt.part.toNat = 0 ∧ s.coh.gathered = [] ∧ s.coh.pubWait = [] ∧ s.coh.placing = [] ∧ s.coh.txns = [] ∧
         s.twn.held = [] ∧ s.twn.answers = [] ∧ ∀ q < 64, (pairGet s 0 q).service = none) := by decide +kernel

/-- The same, drained, with the image being applied. -/
def applying (whole : Bool) : State :=
  { partMod draining 0 (fun x => { x with drained := true }) with
    img := { demo.img with phase := 3, load := some { partial_ := !whole, layout := demoLayout } } }

theorem witness_PartitionImageTakesEffect :
    let s := applying false
    s.img.phase = 3 ∧ s.img.load = some { partial_ := true, layout := demoLayout } ∧
      ({ partial_ := true, layout := demoLayout } : Image).target = 0 ∧ (partGet s 0).why = 1 ∧
      (partGet s 0).drained = true ∧ (∀ x ∈ s.coh.txns, x.part ≠ 0) := by decide +kernel

theorem witness_WholeDeviceImageTakesEffect :
    (applying true).img.phase = 3 ∧ (applying true).img.load = some { partial_ := false, layout := demoLayout } := by
  decide +kernel

theorem witness_BootSlotsLoad :
    let s := withImg (fun g => { g with bootDue := true })
    let t := { withImg (fun g => { g with phase := 1, boot := [({ layout := demoLayout }, 0)] }) with fl := { demo.fl with discovered := true } }
    s.pwr.stage = .serving ∧ s.img.bootDue = true ∧ s.img.phase = 0 ∧ t.pwr.stage = .serving ∧ t.img.phase = 1 ∧ t.img.boot ≠ [] ∧
      t.fl.discovered = true := by decide

/-! ### Frames and admission -/

theorem witness_SyncStateFollowsEdges :
    let locked := withTd (fun d => { d with sync := 1 })
    (withTd (fun d => { d with freerun := true })).td.freerun = true ∧ ¬ (withPwr (fun w => { w with state := 2 })).pwr.state < 2 ∧
    (demo.td.freerun = false ∧ demo.pwr.state < 2 ∧ demo.td.sync = 0 ∧ demo.td.edgeTick = none) ∧
    (locked.td.freerun = false ∧ locked.pwr.state < 2 ∧ locked.td.sync ≠ 0 ∧ locked.td.edgeTick = none) ∧
    (8176 ≤ 8164 - locked.td.tickClk + 12 ∧ 8164 - locked.td.tickClk + 12 ≤ 8208) ∧
    (8176 ≤ 8196 - locked.td.tickClk + 12 ∧ 8196 - locked.td.tickClk + 12 ≤ 8208) ∧
    (8163 - locked.td.tickClk + 12 < 8176) ∧ (8208 < 8197 - locked.td.tickClk + 12) := by decide

/-- Inputs of a tick: 50 °C, 56 V, the lead line high. -/
def calm : TickInputs :=
  { leadHigh := true, temps := List.replicate 10 400, vinMin := 5600, vinMax := 5600, amp := 0, deciWatt := 0 }

theorem witness_TickFallsOnItsClkOnly :
    let runs := fun (s : State) => s.pwr.stage = .filling ∨ (s.pwr.stage = .serving ∧ s.pwr.state ≠ 3)
    let due := fun (s : State) => if s.pwr.state = 2 then s.td.tickClk + 8192
      else s.td.edgeTick.getD (s.td.tickClk + if s.td.sync = 1 then 8208 else 8192)
    let locked := withTd (fun d => { d with sync := 1 })
    let edge := withTd (fun d => { d with sync := 1, edgeTick := some 8200 })
    let two := withPwr (fun w => { w with state := 2 })
    runs demo ∧ runs locked ∧ runs edge ∧ runs two ∧ overTrip calm = false ∧
      due demo = 8192 ∧ due locked = 8208 ∧ due edge = 8200 ∧ due two = 8192 ∧ ¬ runs (withPwr (fun w => { w with state := 3 })) ∧
      (demo.td.sync = 0 ∧ demo.td.edgeTick = none) ∧ (locked.td.sync ≠ 0 ∧ locked.td.edgeTick = none) ∧
      edge.td.edgeTick ≠ none ∧ two.pwr.state = 2 := by decide

theorem witness_CreditFollowsAllotment :
    allotOf demo.img.layout (flowNat 0 false 66) = some { key := flowNat 0 false 66, allot := 100, burst := 100 } ∧
      flowNat 0 false 67 ≠ flowNat 0 false 66 := by decide +kernel

/-- A request of requester `n` that arrives by port 0. -/
def arriving (n : Nat) (colour : Nat) : Request :=
  { pkt := demoPacket .wr n 16 [1], origin := .fabric 0, colour := colour }

/-- A policer that drops what is red. -/
def policed : Layout :=
  { demoLayout with pols := [{ key := flowNat 0 false 66, drop := true, aware := true, pir := 1, cir := 1, pbs := 1, cbs := 1 }] }

theorem witness_ArrivalStepsInOrder :
    let base := fun (s : State) (r : Request) => isFenced s (flowHost (requestFlow s r)) (flowReq (requestFlow s r)) = false ∧
      (partGet s (flowPart (requestFlow s r))).st = .active ∧ isConf s (flowPart (requestFlow s r)) = false ∧
      halfInReset s = none
    let allot := fun (s : State) (r : Request) => ((allotOf s.img.layout (requestFlow s r)).map (·.allot)).getD 0
    let s := { demo with fab := { demo.fab with arrivals := [arriving 66 0] } }
    let barred := withFlow (fun f => { f with limitNow := 0 })
    let full := withFlow (fun f => { f with queue := List.replicate 4 { req := arriving 66 0 } })
    let red := withLayout (fun _ => policed)
    let r := arriving 66 0
    nextArrival s.fab.arrivals = some (arriving 66 0) ∧ nextArrival [arriving 99 0] = some (arriving 99 0) ∧ base demo r ∧ base demo (arriving 99 0) ∧ base barred r ∧ base full r ∧
      base red (arriving 66 2) ∧ allot demo (arriving 99 0) = 0 ∧ allot demo r ≠ 0 ∧
      (flowGet barred (requestFlow barred r)).limitNow = 0 ∧ (flowGet demo (requestFlow demo r)).limitNow ≠ 0 ∧
      4 ≤ (flowGet full (requestFlow full r)).queue.length ∧
      (let k := requestFlow red (arriving 66 2); let pol := policerOf red.img.layout k
        (meter pol (flowGet red k).tc (flowGet red k).tp 2 (meteredUnits (arriving 66 2))).1 = 2 ∧
          (pol.map (·.drop)).getD false = true) := by decide +kernel

/-- Requester 66 of partition 0. -/
def flow66 : FlowKey := { part := 0, host := false, req := 66 }

theorem witness_AdmissionTakesTheHead :
    let k := flowKeyNat flow66
    let s := withFlow (fun f => { f with queue := [{ req := arriving 66 0 }] })
    let astray := { arriving 66 0 with pkt := { (arriving 66 0).pkt with addr := BitVec.ofNat 52 (2 ^ 47) } }
    let h := (flowGet s k).queue.headD { req := astray }
    (flowGet s k).queue = h :: [] ∧ (flowGet s k).net ≤ absSlot (seenClk s 3) 3 ∧ 0 < (flowGet s k).credit ∧
      h.deferred = false ∧
      ((flowGet (withFlow (fun f => { f with queue := [{ req := arriving 66 0, deferred := true }] })) k).queue.any (·.deferred)) = true ∧
      fitsAt (seenClk s 3) k 3 (meteredUnits h.req) (unitTime h.req) = true ∧
      addrPart h.req.pkt.addr.toNat = flowPart k ∧ addrPart astray.pkt.addr.toNat ≠ flowPart k ∧
      fitsAt (seenClk s 3) k 3 (meteredUnits astray) (unitTime astray) = true ∧
      (flowGet (withFlow (fun f => { f with credit := 0 })) k).credit ≤ 0 ∧
      absSlot (seenClk s 3) 3 < (flowGet (withFlow (fun f => { f with net := 9 })) k).net ∧
      (flowGet demo k).queue = [] ∧
      allotOf demo.img.layout k = some { key := flowNat 0 false 66, allot := 100, burst := 100 } ∧
      allotOf demo.img.layout (flowNat 0 false 99) = none := by decide +kernel

theorem witness_WaitingFlowsAreRevisited :
    let k := flowKeyNat flow66
    let gated := withLayout (fun l => { l with gates := [{ key := flowNat 0 false 66, opens := 0, closes := 8 }] })
    let s := withFlow (fun f => { f with queue := [{ req := arriving 66 0 }], wheel := some 0 })
    let red := fun (f : Flow) => { f with queue := [{ req := { arriving 66 0 with arrived := 5 }, deferred := true }] }
    let lower := { withFlow red with td := { demo.td with tickClk := 8192 } }
    (∃ e ∈ lower.flows, e.1 < flowNat 0 false 67 ∧ ∃ q ∈ e.2.queue, q.deferred = true ∧ q.req.arrived < lower.td.tickClk) ∧
    (∀ e ∈ lower.flows, e.1 < k → ∀ q ∈ e.2.queue, ¬ (q.deferred = true ∧ q.req.arrived < lower.td.tickClk)) ∧
    (gatesOf gated.img.layout k).any (fun g => g.opens == slotOf (seenClk gated 3) 3) = true ∧
      (flowGet s k).wheel = some 0 ∧ 0 ≤ absSlot (seenClk s 3) 3 ∧ headAdmissible (seenClk s 3) k 3 = true ∧
      (flowGet demo k).wheel = none := by decide +kernel

/-! ### The link and the ring -/

/-- A DATA flit of sequence number 0 with its CRC, and one that fails it. -/
def goodFlit : Flit :=
  { data := List.replicate 240 0, t0 := 0x1000FFF0, t1 := 0x0F100000, t2 := 0x00110000, t3 := 0x21192FDE }
def badFlit : Flit := { goodFlit with t3 := goodFlit.t3 + 1 }

theorem next_ne (x : Word) : x + 1 ≠ x := by bv_omega

theorem witness_FlitsAreTakenInSequence :
    badFlit.t3 ≠ flitCrc badFlit.data badFlit.t0 badFlit.t1 badFlit.t2 ∧
    goodFlit.t3 = flitCrc goodFlit.data goodFlit.t0 goodFlit.t1 goodFlit.t2 ∧ (goodFlit.t0.extractLsb' 28 4).toNat = 1 ∧
    (goodFlit.t0.extractLsb' 16 12).toNat = (portGet demo 0).rxExp ∧
    (goodFlit.t0.extractLsb' 16 12).toNat ≠ (portGet (withPort (fun p => { p with rxExp := 4095 })) 0).rxExp :=
  ⟨(show goodFlit.t3 = flitCrc goodFlit.data goodFlit.t0 goodFlit.t1 goodFlit.t2 by decide +kernel) ▸ next_ne _,
    by decide +kernel, by decide +kernel, by decide +kernel, by decide +kernel⟩

/-- The symbols of a block of five data flits, of a training block, and of a word whose header is reserved. -/
def dataSymbols : List Nat := blockSymbols 5 0 (List.replicate 5 goodFlit)
def trainSymbols : List Nat := blockSymbols 0xA 0 (List.replicate 5 trainFlit)
def lostSymbols : List Nat := List.replicate 1088 0

/-- Port 0 in a state of its choice. -/
def inState (n : Nat) (f : Port → Port) : Port := portGet (withPort (fun p => f { p with state := n })) 0

/-- R115: what a block's symbols carry is what was put into them, with nothing to correct. -/
theorem test_blockRoundTrip : decodeSymbols dataSymbols = some ({ bht := 5, bseq := 0, flits := List.replicate 5 goodFlit }, []) ∧
    decodeSymbols trainSymbols = some ({ bht := 0xA, bseq := 0, flits := List.replicate 5 trainFlit }, []) := by decide +kernel

/-- The generator of RS(544,514) has the roots α^0 to α^29 (log entry 65). -/
theorem test_rsGenerator : (List.range 30).all (fun j => gfEval (rsGen.reverse ++ [1]) (gfPow 2 j) == 0) = true := by decide +kernel

theorem witness_BlocksReachTheirPort :
    let data := { bht := 5, bseq := 0, flits := List.replicate 5 goodFlit : FecBlock }
    let expects := fun n => withPort (fun p => { p with rxBseq := some n, rxSwitched := true })
    let p := portGet (expects 0) 0
    let charged := fun (fixed : List Nat) => chargeSymbols p (fixed.map (fun j => (rxLanes p).getD (j % (rxLanes p).length) 0))
    let got := receiveFlits 3 data.flits { charged [] with rxBseq := some 1, rxSwitched := true }
    (∀ n ∈ [0, 1, 5], (inState n id).state = n) ∧
    ((inState 2 id).rxSwitched = false ∧ 4 < (inState 2 id).laneRun.length ∧ 4 < (inState 2 id).laneBseq.length ∧
      (inState 2 id).pruned.testBit 4 = false) ∧
    decodeSymbols lostSymbols = none ∧ isTraining { bht := 0xA, bseq := 0, flits := List.replicate 5 trainFlit } = true ∧
    ((inState 3 id).peerSeen = false ∧ (inState 3 id).rxSwitched = false) ∧
    (p.state = 4 ∧ p.rxSwitched = true ∧ decodeSymbols (weave (1088 / 1) [lostSymbols]) = none) ∧
    wantedBseq p = data.bseq.toNat ∧ got.2 = none ∧ got.1.state = 4 ∧
    (wantedBseq (portGet (expects 255) 0) = 255 ∧ 255 ≠ data.bseq.toNat ∧ portEnabled (expects 255) 0 = true ∧
      (portGet (expects 255) 0).hold = false) := by decide +kernel

/-- The INIT record that the neighbour of port 0 sends. -/
def peerRecord : InitRecord :=
  { iver := 1, seen := false, resume := false, width := 2, speed := true, lanes := 31, port := 1, node := 66, lepoch := 0,
    next := 0, adv := List.replicate 16 100 }

theorem witness_SlotsSendByState :
    let sending := fun (f : Port → Port) => inState 4 (fun p => f { p with tx := { bytes := List.replicate 300 1 } })
    let held := fun (p : Port) =>
      let k := packetOfBytes p.tx.bytes
      let pool := poolOf k.cls.toNat k.vc
      1 ≤ (p.credits.getD (2 * pool) {}).avail ∧ dataCredits k.len.toNat ≤ (p.credits.getD (2 * pool + 1) {}).avail
    let head := fun (p : Port) => { p with tx := { bytes := packetBytes (demoPacket .rd 66 16 []) } }
    let one := { seq := 4095, data := [], fill := 0, pstart := 15 : SentFlit }
    let replaying := inState 4 (fun p => { p with replay := [one], replayPos := some 0 })
    let offering := inState 3 (fun p => { p with offer := some peerRecord })
    ((inState 4 id).block.length < 4 ∧ (inState 4 id).replayPos = none ∧ (inState 4 id).tx.bytes = []) ∧
    (depthOf (sending id) = 1024 ∧ 1024 ≤ (sending (fun p => { p with replay := List.replicate 1024 one })).replay.length) ∧
    (32 ≤ (inState 4 head).tx.bytes.length ∧ (inState 4 head).tx.need = 0 ∧ held (inState 4 head) ∧
      ¬ held (inState 4 (fun p => head { p with credits := List.replicate 16 {} }))) ∧
    ((sending (fun p => { p with tx := { p.tx with need := 300 } })).tx.bytes ≠ [] ∧
      (sending (fun p => { p with tx := { p.tx with need := 300 } })).replay.length < 1024 ∧
      0 < (sending (fun p => { p with tx := { p.tx with need := 300 } })).tx.need) ∧
    (replaying.state = 4 ∧ replaying.block.length < 4 ∧ replaying.replayPos = some 0 ∧ replaying.replayFrom ≤ 3 ∧
      replaying.replay[0]? = some one) ∧
    (inState 4 (fun p => { p with block := List.replicate 4 badFlit })).block.length = 4 ∧
    (offering.state = 3 ∧ offering.txSwitched = false ∧ offering.offer = some peerRecord) ∧
    (∀ n ∈ [0, 1, 2, 3, 5], (inState n id).state = n) := by decide +kernel

theorem witness_LinkTimersExpire :
    let one := { seq := 0, data := [], fill := 0, pstart := 15 : SentFlit }
    let waits := fun n => withPort (fun p => { p with replay := [one], replayCount := n })
    let starved := withPort (fun p => { p with credits := List.replicate 16 { timer := 0x40 } })
    let due := fun (p : Port) (clk : Nat) => p.state = 4 ∧ p.replay ≠ [] ∧ p.cfg.rto ≤ clk - p.timerStart
    ¬ due (portGet demo 0) 9999 ∧ ¬ due (portGet (waits 0) 0) 0xFFF ∧ due (portGet (waits 3) 0) 0x1000 ∧
    (portGet (waits 3) 0).replayCount < (portGet (waits 3) 0).cfg.rlim ∧ due (portGet (waits 4) 0) 0x1000 ∧
    (portGet (waits 4) 0).cfg.rlim ≤ (portGet (waits 4) 0).replayCount ∧ portEnabled (waits 4) 0 = true ∧
    (portGet (waits 4) 0).hold = false ∧ (portGet starved 0).state = 4 ∧
    (portGet starved 0).cfg.cto ≤ ((portGet starved 0).credits.getD 15 {}).timer ∧ portEnabled starved 0 = true ∧
    (portGet starved 0).hold = false ∧ ((portGet demo 0).credits.getD 15 {}).timer < (portGet demo 0).cfg.cto := by
  decide +kernel

/-- Port 0's INIT flit with a record. -/
def recordFlit (r : InitRecord) : Flit := initFlit (inState 3 id) r

theorem witness_ResetsRunTheirSteps :
    let at_ := fun (n t : Nat) (f : Port → Port) => { withPort (fun p => f { p with state := n }) with td := { demo.td with ptime := t } }
    let trained := fun (n : Nat) => fun (p : Port) => { p with trained := n }
    let done := fun (s : State) =>
      let p := portGet s 0
      p.trained &&& (0x1F &&& (0x1F ^^^ p.pruned)) = 0x1F &&& (0x1F ^^^ p.pruned) ∨ p.resetFrame + 40 ≤ s.td.ptime
    let late := fun (s : State) =>
      let p := portGet s 0
      p.state = 3 ∧ p.peerInit = none ∧ p.initFrame + 8 ≤ s.td.ptime
    let check := fun (r : InitRecord) => initCheck (at_ 3 0 id) 0 (initOf (recordFlit r).data)
    let enters := fun (r : InitRecord) => flitGood (recordFlit r) ∧ flitType (recordFlit r) = .init ∧
      (deliver (portGet (at_ 3 0 id) 0) (recordFlit r) 0).2 = none
    (done (at_ 2 0 (trained 31)) ∧ (portGet (at_ 2 0 (trained 31)) 0).trained &&& 31 ≠ 0) ∧
    (done (at_ 2 40 id) ∧ (portGet (at_ 2 40 id) 0).trained &&& 31 = 0) ∧ ¬ done (at_ 2 39 id) ∧
    (portGet demo 0).failures < 2 ∧ 2 ≤ (portGet (at_ 2 40 (fun p => { p with failures := 2 })) 0).failures ∧
    flitGood badFlit = false ∧ flitType goodFlit ≠ .init ∧
    ((portGet (at_ 3 0 id) 0).state = 3 ∧ (portGet (at_ 3 0 id) 0).peerInit = none) ∧
    (enters { peerRecord with node := 67 } ∧ check { peerRecord with node := 67 } = some .neighbour) ∧
    (enters { peerRecord with port := 3 } ∧ check { peerRecord with port := 3 } = some .wiring) ∧
    (enters { peerRecord with iver := 0 } ∧ check { peerRecord with iver := 0 } = some .param) ∧
    (enters peerRecord ∧ check peerRecord = none) ∧
    ((portGet demo 0).state = 4 ∧ portEnabled demo 0 = true ∧ (portGet demo 0).hold = false) ∧
    late (at_ 3 8 id) ∧ ¬ late (at_ 2 64 id) ∧ (portGet (at_ 2 64 id) 0).resetFrame + 64 ≤ (at_ 2 64 id).td.ptime := by
  refine ⟨?_, ?_, ?_, ?_, ?_, ?_, ?_, ?_, ?_, ?_, ?_, ?_, ?_, ?_, ?_, ?_⟩ <;> decide +kernel

theorem witness_PortCommandsTakeEffect :
    let down := inState 1 (fun p => { p with cause := 1 })
    (portGet demo 0).state = 4 ∧ portEnabled demo 0 = true ∧ (portGet demo 0).hold = false ∧
    ¬ (down.state = 2 ∨ down.state = 3 ∨ down.state = 4) ∧ (portGet demo 0).state ≠ 0 ∧ waitsSoftware (portGet demo 0) = false ∧
    down.state = 1 ∧ down.cause = 1 ∧ (inState 0 id).state = 0 ∧ waitsSoftware (inState 5 id) = true ∧
    (16 : BitVec 5) ≠ 0 := by decide +kernel

/-- A packet in port 0's input buffer. -/
def buffered (k : Packet) : State := withPort (fun p => { p with ingress := [{ pkt := k, since := 0 }] })

theorem witness_PacketsAreRouted :
    let k := demoPacket .rd 66 16 []
    let r := demoLayout.ring.getD { dateline := 0, portEn := 0, node := 0, colLen := 0, rowLen := 0, neighbours := [] }
    let toward := fun (n : Nat) => { k with dest := BitVec.ofNat 12 n }
    let waits := fun (s : State) (k : Packet) => k.mcast = false ∧ k.len.toNat ≤ 4096 ∧
      ∃ y ∈ s.fab.mcasts, sameStream y.pkt k (y.port / 4) 0 = true
    let behind := { buffered k with fab := { demo.fab with mcasts := [{ pkt := { k with mcast := true }, port := 3 }] } }
    (portGet (buffered k) 0).ingress = { pkt := k, since := 0 } :: [] ∧ waits behind k ∧ ¬ waits (buffered k) k ∧
    4096 < ({ k with len := 4097 } : Packet).len.toNat ∧ k.src.toNat ≠ r.node ∧
    ¬ (k.cls = 3 ∧ k.mcast = true) ∧ (({ k with cls := 3, mcast := true } : Packet).cls = 3) ∧ demo.img.layout.ring = some r ∧
    k.len.toNat ≤ 4096 ∧ inGrid r (toward 4095).dest.toNat = false ∧
    (inGrid r (toward 66).dest.toNat = true ∧ (66 : Nat) ≠ r.node ∧ 127 ≤ ({ toward 66 with hops := 127 } : Packet).hops.toNat) ∧
    ((toward 66).hops.toNat < 127 ∧ routeAt r 0 66 = .port 0 ∧ portHolds demo 0 = true) ∧
    (inGrid r 65 = true ∧ ¬ (opcodeRule { k with opcode := 63 } (fabEnc demo 0) = true)) ∧
    (opcodeRule { k with arg := 8 } false = true ∧ alignRule { k with arg := 8 } = true ∧ fabEnc demo 0 = false ∧
      demo.twn.state = 0 ∧ k.cls = 0) := by decide +kernel

/-- A packet that waits for port 0. -/
def waitingPkt : RingPkt :=
  { pkt := demoPacket .rd 66 16 [], out := 0, kind := 0, inPort := 0, inVc := false, age := 0, since := 0 }

theorem witness_ArbitrationSendsTheFirstByRank :
    let s := { demo with fab := { demo.fab with waiting := [waitingPkt] } }
    (portGet (withPort (fun p => { p with state := 1 })) 0).state ≠ 4 ∧ (portGet demo 0).state = 4 ∧
    (portGet demo 0).tx.bytes.length < 240 ∧ (∀ w ∈ demo.fab.waiting, w.out ≠ 0) ∧
    waitingPkt ∈ s.fab.waiting ∧ waitingPkt.out = 0 ∧ firstOfStream s waitingPkt = true ∧ holdsCredits (portGet s 0) waitingPkt = true ∧
    holdsBubble (portGet s 0) waitingPkt = true ∧
    240 ≤ (portGet (withPort (fun p => { p with tx := { bytes := List.replicate 240 0 } })) 0).tx.bytes.length := by
  decide +kernel

theorem witness_AnswersEchoTheRequest :
    let v := demoSvc (demoPacket .rd 66 16 [])
    let r := demoLayout.ring.getD { dateline := 0, portEn := 0, node := 0, colLen := 0, rowLen := 0, neighbours := [] }
    v.req.origin = .fabric 0 ∧ demo.img.layout.ring = some r ∧ routeAt r 0 v.req.pkt.src.toNat = .port 0 ∧
    portHolds demo 0 = true ∧ fabEnc demo v.req.pkt.part.toNat = false ∧ isFenced demo false 66 = false ∧
    ({ status := .ok } : Ans).status ≠ .retry := by decide +kernel

/-- A multicast write of requester 66 that names this stop, and one that does not. -/
def mcast (here : Bool) : Packet :=
  { demoPacket .mcWr 66 0 [1, 2, 3, 4, 5, 6, 7, 8] with
    mcast := true, hops := 2, dest := 67, aux := if here then 2 ^ 64 - 1 else 0 }

def signal : Packet := { demoPacket .mcSig 67 8 [] with mcast := true, hops := 2, dest := 65, aux := 2 ^ 64 - 1 }

theorem witness_MulticastsCopyAndMoveOn :
    let x : Sunk := { pkt := mcast true, port := 0 }
    let s := { demo with fab := { demo.fab with mcasts := [x] } }
    let r := demoLayout.ring.getD { dateline := 0, portEn := 0, node := 0, colLen := 0, rowLen := 0, neighbours := [] }
    (∀ y ∈ s.fab.mcasts, pktOp y.pkt ≠ .mcSig) ∧
    (∀ y ∈ [({ pkt := { mcast true with opcode := signal.opcode }, port := 0 } : Sunk)], pktOp y.pkt = .mcSig) ∧
    -- A write behind a signal of another stream: the oldest of each opcode has none of its own stream before it.
    (sameStream signal (mcast true) 0 0 = false ∧ pktOp signal = .mcSig ∧ pktOp (mcast true) ≠ .mcSig) ∧
    (opcodeRule signal false = true ∧ alignRule signal = true ∧ mcBar s 0 signal = none ∧ signal.dest.toNat = r.node ∧
      signal.aux.getLsbD (mcPos signal.dim r.node) = true ∧ isFenced s false 67 = false ∧ isFenced s false (homeNode s) = false ∧
      isFenced (withTwn (fun t => { t with fenced := [(false, 66)] })) false 66 = true) ∧
    -- What an accepted copy stores to.
    (placeOf s 0 0 = .pinned (demoRegion 2 false 0 0) 0 0 ∧ (mcast true).payload.length = 8 ∧
      (lineWords 0 0).all (fun w => decide (markGet s w = {})) = true ∧ s.stk.marks = [] ∧ s.stk.lost = [] ∧
      s.di.injArm = false ∧ s.twn.state = 0 ∧ s.svc = [] ∧ s.coh.gathered = [] ∧ s.coh.txns = [] ∧ s.coh.placing = []) ∧
    (({ mcast true with hops := 1, dest := 66 } : Packet).hops.toNat ≤ 1 ∧
      mcWellFormed r { mcast true with hops := 1, dest := 66 } = false) ∧ s.img.layout.ring = some r ∧
    ¬ x.pkt.hops.toNat ≤ 1 ∧ (mcast false).aux.getLsbD (mcPos (mcast false).dim r.node) = false ∧
    (mcast false).dest.toNat ≠ r.node ∧ portHolds s 0 = true ∧
    (mcast true).aux.getLsbD (mcPos (mcast true).dim r.node) = true ∧ opcodeRule (mcast true) (fabEnc s 0) = true ∧
    alignRule (mcast true) = true ∧ mcBar s 0 (mcast true) = none ∧ fabEnc s 0 = false ∧
    mcBar (withPart (fun x => { x with st := .resetting })) 0 (mcast true) = some .resetting := by decide +kernel

/-! ### Requests and coherence -/

/-- The demo device with one request of requester 66 in service, and bytes at the start of its DRAM. -/
def serving1 (k : Packet) : State := { dramStore demo 0 16 [1, 2, 3, 4, 5, 6, 7, 8] with svc := [demoSvc k], nextTicket := 1 }

/-- A read of `n` bytes, a write and an atomic at an address. -/
def readOf (addr n : Nat) : Packet := { demoPacket .rd 66 addr [] with arg := BitVec.ofNat 16 n }
def writeOf (addr : Nat) (bs : List Byte) : Packet := demoPacket .wr 66 addr bs
def atomOf (addr op : Nat) (bs : List Byte) : Packet := { demoPacket .atom 66 addr bs with arg := BitVec.ofNat 16 op }

/-- The hypotheses that a read, a write or an atomic of one line of published memory share. -/
def published (s : State) (k : Packet) (n : Nat) : Prop :=
  let off := addrOff k.addr.toNat
  off % 64 + n ≤ 64 ∧ placeOf s (addrPart k.addr.toNat) off = .pinned (demoRegion 2 false 0 0) 0 off ∧
    regionCoherent (demoRegion 2 false 0 0) = false ∧ sliceFenced s 0 = false ∧ off + n ≤ 2 ^ 33 ∧ s.di.injArm = false ∧
    (lineWords 0 off).all (fun w => decide (markGet s w = {})) = true

/-- What `Alone` asks of a request that came by the fabric. -/
def aloneBut (s : State) (v : Service) : Prop :=
  s.svc = [v] ∧ s.coh.gathered = [] ∧ s.coh.txns = [] ∧ s.coh.pubWait = [] ∧ s.coh.placing = [] ∧ s.twn.state = 0 ∧
    s.twn.held = [] ∧ s.twn.answers = [] ∧ s.sec.sealing = none ∧ (partGet s v.req.pkt.part.toNat).st ≠ .resetting

theorem alone_of {s : State} {k : Packet} (h : aloneBut s (demoSvc k)) : Alone s (demoSvc k) :=
  And.intro h.1 (And.intro (fun _ _ e => Origin.noConfusion e) h.2)

/-- With no word marked, what the reserves hold is clean. -/
theorem reserves_clean {s : State} (h : s.stk.marks = []) (l : s.stk.lost = []) : ReservesClean s := by
  have c : ∀ k, markGet s k = {} := fun k => by simp [markGet, h, l, tblGet, markDefault]
  exact ⟨fun _ _ _ _ _ k _ => c k, fun _ _ _ k _ => c k⟩

/-- A layout without reserves keeps nothing there. -/
theorem reserves_none {s : State} (h : ∀ sl, reserveOf s.img.layout sl = 0) : ReservesClean s := by
  constructor
  · intro sl kind key q e; simp [reservePlace, h] at e
  · intro line q e
    unfold dirPlace at e
    cases linePlace s line <;> simp [entryPlace, h] at e

theorem clean1 (k : Packet) : ReservesClean (serving1 k) := reserves_clean rfl rfl

/-- The test of `aloneBut`. -/
theorem alone1 (k : Packet) (h : (partGet (serving1 k) k.part.toNat).st ≠ .resetting := by decide +kernel) :
    Alone (serving1 k) (demoSvc k) := alone_of ⟨rfl, rfl, rfl, rfl, rfl, rfl, rfl, rfl, rfl, h⟩

theorem witness_ReadsReturnWhatIsStored :
    (Alone (serving1 (readOf 16 0)) (demoSvc (readOf 16 0)) ∧ readLen (readOf 16 0) = 0) ∧
    (Alone (serving1 (readOf 16 48)) (demoSvc (readOf 16 48)) ∧ ReservesClean (serving1 (readOf 16 48)) ∧
      pktOp (readOf 16 48) = .rd ∧ popOf (seenClk (serving1 (readOf 16 48)) 3) (readOf 16 48) = none ∧
      0 < readLen (readOf 16 48) ∧ published (serving1 (readOf 16 48)) (readOf 16 48) 48) ∧
    (Alone (serving1 (readOf 0x800000 8)) (demoSvc (readOf 0x800000 8)) ∧
      popOf (seenClk (serving1 (readOf 0x800000 8)) 3) (readOf 0x800000 8) = none ∧
      placeOf (serving1 (readOf 0x800000 8)) 0 (addrOff 0x800000) = .none) := by
  refine ⟨⟨alone1 _, ?_⟩, ⟨alone1 _, clean1 _, ?_⟩, ⟨alone1 _, ?_⟩⟩ <;> (try unfold published) <;> decide +kernel

/-- The pop of pair 0, whose state is 1: 16 bytes at its control block's word 32. -/
def popping (cplPi : Nat) : State :=
  pairSet (serving1 (readOf (nearBase + 32) 16)) 0 0 { state := 1, size := 3, cplPi := cplPi }

theorem witness_ReadsReturnWhatIsStored_pop :
    Alone (popping 0) (demoSvc (readOf (nearBase + 32) 16)) ∧
      popOf (seenClk (popping 0) 3) (readOf (nearBase + 32) 16) = some 0 :=
  ⟨alone_of ⟨rfl, rfl, rfl, rfl, rfl, rfl, rfl, rfl, rfl, by decide +kernel⟩, by decide +kernel⟩

/-- The same with the line poisoned. -/
def poisoned1 (k : Packet) : State := (lineWords 0 16).foldl (fun s w => markSet s w { poison := true }) (serving1 k)

theorem witness_WritesStoreTheirBytes :
    let k := writeOf 63 [9]
    (Alone (serving1 (writeOf 16 [])) (demoSvc (writeOf 16 [])) ∧ (writeOf 16 []).payload.length = 0) ∧
    (Alone (serving1 k) (demoSvc k) ∧ ReservesClean (serving1 k) ∧ pktOp k = .wr ∧ 0 < k.payload.length ∧
      published (serving1 k) k 1) ∧
    (Alone (poisoned1 k) (demoSvc k) ∧ linePoisoned (poisoned1 k) 0 63 = true ∧ k.payload.length < 64 ∧
      placeOf (poisoned1 k) 0 63 = .pinned (demoRegion 2 false 0 0) 0 63 ∧ sliceFenced (poisoned1 k) 0 = false ∧
      (poisoned1 k).di.injArm = false ∧ ReservesClean (poisoned1 k)) ∧
    (∀ e ∈ [((0 : Nat), 1), (7, 2 ^ 79)], ∃ i < 80, e.2 = 2 ^ i) := by
  refine ⟨⟨alone1 _, by decide +kernel⟩, ⟨alone1 _, clean1 _, ?_⟩,
    ⟨alone_of ⟨rfl, rfl, rfl, rfl, rfl, rfl, rfl, rfl, rfl, by decide +kernel⟩, ?_, ?_, ?_, ?_, ?_, reserves_none fun sl => rfl⟩, ?_⟩ <;>
    (try unfold published) <;> decide +kernel

theorem witness_AtomicsReadModifyWrite :
    ∀ op ∈ [0, 1, 2], (let k := atomOf 56 op (leBytes 8 5 ++ leBytes 8 0)
      Alone (serving1 k) (demoSvc k) ∧ ReservesClean (serving1 k) ∧ pktOp k = .atom ∧ addrOff k.addr.toNat % 8 = 0 ∧
        k.arg = BitVec.ofNat 16 op ∧ published (serving1 k) k 8) := by
  intro op h
  refine ⟨alone1 _ (show PState.active ≠ .resetting by decide), clean1 _, ?_⟩
  revert op; unfold published; decide +kernel

/-- What every clause about the near bank's request port asks. -/
def nearReady (k : Packet) : Prop :=
  nearBase ≤ addrOff k.addr.toNat ∧ addrOff k.addr.toNat % 8 = 0 ∧ (serving1 k).eng.pairs = [] ∧ (serving1 k).near.flips = [] ∧
    (serving1 k).near.lostRows = [] ∧ (serving1 k).near.own = [] ∧ (serving1 k).near.prior = [] ∧ (serving1 k).near.busy = [] ∧
    nearPlace (partSlices demo.img.layout (addrPart k.addr.toNat)) (addrOff k.addr.toNat - nearBase) = some (0, 8)

theorem witness_NearBankServesOneWord :
    let w := writeOf (nearBase + 8) (leBytes 8 1)
    let a := fun op => atomOf (nearBase + 8) op (leBytes 8 1 ++ leBytes 8 0)
    (Alone (serving1 (readOf 16 8)) (demoSvc (readOf 16 8)) ∧ addrOff (readOf 16 8).addr.toNat < nearBase) ∧
    (Alone (serving1 w) (demoSvc w) ∧ nearReady w ∧ pktOp w = .wr ∧ w.payload.length = 8 ∧
      ([] : List Nat).contains 1 = false ∧ [1].contains 1 = true) ∧
    (Alone (serving1 (readOf (nearBase + 8) 8)) (demoSvc (readOf (nearBase + 8) 8)) ∧ nearReady (readOf (nearBase + 8) 8) ∧
      pktOp (readOf (nearBase + 8) 8) = .rd ∧ readLen (readOf (nearBase + 8) 8) = 8) ∧
    (∀ op ∈ [0, 1, 2], Alone (serving1 (a op)) (demoSvc (a op)) ∧ nearReady (a op) ∧ pktOp (a op) = .atom ∧
      (a op).arg = BitVec.ofNat 16 op) := by
  refine ⟨⟨alone1 _, ?_⟩, ⟨alone1 _, ?_⟩, ⟨alone1 _, ?_⟩, fun op h => ⟨alone1 _ (show PState.active ≠ .resetting by decide), ?_⟩⟩
  · decide +kernel
  · unfold nearReady; decide +kernel
  · unfold nearReady; decide +kernel
  · revert op; unfold nearReady; decide +kernel

/-- A line of the demo device's DATA region; agents 0 to 3 are the nodes 64, 66, 67 and 129. -/
def lineAddr : Nat := 0x1000000

/-- A request of agent 1 at that line, with the line's record. -/
def atLine (o : Op) (bs : List Byte) (e : DirEntry) : State := dirSet (serving1 (demoPacket o 66 lineAddr bs)) lineAddr e

/-- What `AtHome` asks besides, decided. -/
def homeChecks (s : State) (v : Service) (r : RegionRec) (sl a j : Nat) : Prop :=
  let addr := v.req.pkt.addr.toNat
  let p := addrPart addr
  addr % 64 = 0 ∧ placeOf s p (addrOff addr) = .pinned r sl a ∧ regionCoherent r = true ∧
    regionAt s.img.layout p (addrOff addr / 2097152) = some r ∧ a % 64 = 0 ∧ a < 2 ^ 33 ∧
    halfOf sl < s.coh.halves.length ∧ sliceFenced s sl = false ∧
    agentIndex s p v.req.pkt.src.toNat = some j ∧ (partGet s p).fenced = 0 ∧
    s.coh.sweepLeft = [] ∧ s.coh.recoveries = [] ∧ s.coh.unverified = [] ∧
    (List.range 17).any (fun w => wayServes s (halfOf sl) (dirSetIndex addr) w &&
      !(cacheGet s (halfOf sl) addr).any (fun x => x.2 = w)) = true ∧
    dirLegal (lineShared s addr addr) (dirGet s addr) = true ∧ s.stk.marks = [] ∧ s.stk.lost = [] ∧
    (lineWords sl a).all (fun w => decide (markGet s w = {})) = true ∧ s.di.injArm = false

theorem atHome_of {s : State} {k : Packet} {r : RegionRec} {sl a j : Nat} (n : aloneBut s (demoSvc k))
    (h : homeChecks s (demoSvc k) r sl a j) : AtHome s (demoSvc k) r sl a j := by
  obtain ⟨h1, h2, h3, h4, h5, h6, h7, h8, h9, h10, h11, h12, h13, h14, h15, h16, h17, h18, h19⟩ := h
  exact ⟨alone_of n, h1, h2, h3, h4, h5, h6, h7, h8, h9, h10, h11, h12, h13, h14, h15, reserves_clean h16 h17, h18, h19⟩

/-- The home is free to serve a request of agent 1 at that line. -/
def homeFree (o : Op) (bs : List Byte) (e : DirEntry) : Prop :=
  AtHome (atLine o bs e) (demoSvc (demoPacket o 66 lineAddr bs)) (demoRegion 0 false 1 8) 0 0x800000 1

/-- The same, with the request's operation and the record. -/
def homeReady (o : Op) (bs : List Byte) (e : DirEntry) : Prop :=
  homeFree o bs e ∧ pktOp (demoPacket o 66 lineAddr bs) = o ∧ dirGet (atLine o bs e) lineAddr = e

theorem homeReady_of {o : Op} {bs : List Byte} {e : DirEntry} (n : aloneBut (atLine o bs e) (demoSvc (demoPacket o 66 lineAddr bs)))
    (h : homeChecks (atLine o bs e) (demoSvc (demoPacket o 66 lineAddr bs)) (demoRegion 0 false 1 8) 0 0x800000 1)
    (p : pktOp (demoPacket o 66 lineAddr bs) = o) (d : dirGet (atLine o bs e) lineAddr = e) : homeReady o bs e :=
  ⟨atHome_of n h, p, d⟩

theorem witness_HomeGrantsFromMemory :
    homeReady .rdS [] {} ∧ homeReady .rdX [] {} ∧ homeReady .upg [] {} ∧
    homeReady .upg [] { st := .S, sharers := 1 <<< 1 } ∧
    (homeReady .rdS [] { st := .S, sharers := 6 } ∧ (6 : Nat).testBit 1 = true) ∧
    homeReady .rdX [] { st := .P } := by
  refine ⟨?_, ?_, ?_, ?_, ⟨?_, by decide⟩, ?_⟩ <;> apply homeReady_of <;> (try unfold aloneBut) <;> (try unfold homeChecks) <;>
    decide +kernel

theorem witness_HomeAsksItsHolders :
    homeReady .rdS [] { st := .X, owner := 0, sharers := 1 <<< 0 } ∧
    (homeReady .rdX [] { st := .X, owner := 63, sharers := 1 <<< 63 } ∧ (63 : Nat) < 64 ∧ (63 : Nat) ≠ 1) ∧
    (homeReady .rdX [] { st := .S, sharers := 1 } ∧ (1 : Nat).testBit 1 = false) ∧
    (homeReady .upg [] { st := .S, sharers := 3 } ∧ (3 : Nat).testBit 1 = true ∧ (setBits 64 3).filter (· != 1) ≠ []) := by
  refine ⟨?_, ⟨?_, by decide⟩, ⟨?_, by decide⟩, ⟨?_, by decide, by decide +kernel⟩⟩ <;> apply homeReady_of <;> (try unfold aloneBut) <;>
    (try unfold homeChecks) <;> decide +kernel

theorem witness_EvictionsLeaveTheRecord :
    (homeReady .wb (List.replicate 64 7) { st := .X, owner := 1, sharers := 1 <<< 1 } ∧
      (demoPacket .wb 66 lineAddr (List.replicate 64 7)).payload.length = 64) ∧
    (homeReady .evct [] { st := .S, sharers := 3 } ∧ (3 : Nat).testBit 1 = true ∧ 3 ≠ 1 <<< 1) ∧
    (homeReady .wb (List.replicate 64 7) { st := .S, sharers := 1 } ∧ (1 : Nat).testBit 1 = false) := by
  refine ⟨⟨?_, by decide⟩, ⟨?_, by decide⟩, ⟨?_, by decide⟩⟩ <;> apply homeReady_of <;> (try unfold aloneBut) <;>
    (try unfold homeChecks) <;> decide +kernel

/-- An open transaction at that line: agent 2 asked, agents 1 and 0 are awaited. -/
def openTxn1 (b : Busy) : Txn :=
  { id := 0, half := 0, part := 0, line := lineAddr, pool := lineAddr, busy := b, step := .ownRead, job := none,
    agent := none, pend := if b = .BI then [1, 0] else [], fwd := some 1, seq := 7, aux := lineAddr, before := {},
    snooped := true, grantX := false, queued := [], owed := [], since := 0, stalled := false }

/-- An answer of agent 1 in the inbox, with transactions open. -/
def answering (o : Op) (bs : List Byte) (ts : List Txn) : State :=
  { demo with
    fab := { demo.fab with inbox := [{ pkt := demoPacket o 66 lineAddr bs, port := 0 }] }, coh := { demo.coh with txns := ts } }

/-- A grant to agent 1 that awaits its acknowledgement. -/
def granting : Txn :=
  { openTxn1 .BG with
    job := some { svc := demoSvc (demoPacket .rdS 66 lineAddr []), op := .rdS, line := lineAddr, addr := lineAddr, idx := 0, len := 64, bytes := [] } }

theorem witness_AnswersAdvanceTransactions :
    let clear := fun (s : State) => s.coh.sweepLeft = [] ∧ s.coh.recoveries = [] ∧ s.coh.placing = [] ∧ s.svc = [] ∧ s.twn.state = 0 ∧ s.di.injArm = false
    let line := lineAddr / 64 * 64
    (∀ o ∈ [Op.snpRsp, .snpData, .fwdData, .cmp], pktOp (demoPacket o 66 lineAddr []) = o ∧
      (answering o [] []).fab.inbox = [{ pkt := demoPacket o 66 lineAddr [], port := 0 }] ∧ (answering o [] []).coh.txns = [] ∧
      (answering o [] []).svc = [] ∧ (answering o [] []).twn.sent = []) ∧
    (let t := openTxn1 .BI;
      clear (answering .snpRsp [] [t]) ∧ clear (answering .snpData (List.replicate 64 7) [t]) ∧
      agentIndex demo (addrPart line) 66 = some 1 ∧ t.pool = line ∧ t.line = line ∧ t.part = addrPart line ∧ t.seq = 7 ∧
      t.owed = [] ∧ t.busy = .BI ∧ t.pend = [1, 0] ∧ t.step ≠ .discard ∧ line < 2 ^ 52 ∧
      placeOf demo (addrPart line) (addrOff line) = .pinned (demoRegion 0 false 1 8) 0 0x800000) ∧
    (let t := openTxn1 .BR;
      clear (answering .fwdData (List.replicate 64 7) [t]) ∧ t.busy = .BR ∧ t.job = none ∧ t.aux = lineAddr ∧
      t.fwd = agentIndex demo t.part 66 ∧ t.owed = [] ∧ t.queued = []) ∧
    (clear (answering .cmp [] [granting]) ∧ granting.busy = .BG ∧ granting.pool = line ∧
      (granting.job.map (·.svc.req.pkt.seq)) = some 7 ∧ (granting.job.map (·.svc.req.pkt.src)) = some 66 ∧
      granting.owed = [] ∧ granting.queued = []) := by decide +kernel

theorem witness_SilentAndFencedAgents :
    let waitsAt := fun n => { answering .snpRsp [] [openTxn1 .BI] with td := { demo.td with ptime := n } }
    let swept := fun (e : DirEntry) => dirSet { demo with coh := { demo.coh with sweepLeft := [(0, lineAddr, 1)] } } lineAddr e
    (waitsAt 0x40).coh.txns = [openTxn1 .BI] ∧ (openTxn1 .BI).stalled = false ∧
    (openTxn1 .BI).since + (waitsAt 0x40).coh.sto ≤ (waitsAt 0x40).td.ptime ∧
    (waitsAt 0x3F).td.ptime < (openTxn1 .BI).since + (waitsAt 0x3F).coh.sto ∧
    (swept { st := .S, sharers := 3 }).coh.sweepLeft = [(0, lineAddr, 1)] ∧ (swept { st := .S, sharers := 3 }).coh.txns = [] ∧
    (swept { st := .S, sharers := 3 }).svc = [] ∧ addrPart lineAddr = 0 ∧ lineAddr < 2 ^ 52 ∧ lineAddr % 64 = 0 ∧
    ReservesClean (swept { st := .S, sharers := 3 }) ∧ ReservesClean (swept { st := .X, owner := 1, sharers := 1 <<< 1 }) ∧
    (∀ e ∈ [({ st := .S, sharers := 3 } : DirEntry), { st := .X, owner := 1, sharers := 1 <<< 1 }],
      dirLegal (lineShared (swept e) lineAddr lineAddr) (dirGet (swept e) lineAddr) = true) ∧
    dirGet (swept { st := .S, sharers := 3 }) lineAddr = { st := .S, sharers := 3 } ∧ (3 : Nat).testBit 1 = true ∧ 3 ≠ 1 <<< 1 ∧
    dirGet (swept { st := .X, owner := 1, sharers := 1 <<< 1 }) lineAddr = { st := .X, owner := 1, sharers := 1 <<< 1 } := by
  refine ⟨?_, ?_, ?_, ?_, ?_, ?_, ?_, ?_, ?_, ?_, reserves_clean (by decide +kernel) (by decide +kernel),
    reserves_clean (by decide +kernel) (by decide +kernel), ?_, ?_, ?_, ?_, ?_⟩ <;> decide +kernel

/-! ### Publishing and stack channels -/

/-- Partition 0's ledger has room. -/
def roomy (s : State) : State := partMod s 0 (fun x => { x with ledger := { x.ledger with size := 64 } })

/-- A PUBLISH of unit 0 under a base, waiting for its decision, with the unit's version at `n`. -/
def publishing (base n : Nat) : State :=
  let v := demoSvc { demoPacket .publish 66 0 [] with aux := BitVec.ofNat 64 base }
  versionSet { roomy (serving1 v.req.pkt) with coh := { demo.coh with pubWait := [{ svc := v, half := 0, unit := 0, publish := true, entry := false }] } } 0 0 { v := n }

theorem witness_PublishComparesVersions :
    ∀ x ∈ [(4, 4), (2 ^ 64 - 2, 2 ^ 64 - 2), (2 ^ 64 - 1, 2 ^ 64 - 1), (3, 4)], (
      let s := publishing x.1 x.2
      s.svc.length = 1 ∧ s.coh.pubWait.map (fun w => (w.publish, w.unit)) = [(true, 0)] ∧
        s.coh.pubWait.map (·.svc) = s.svc ∧ s.coh.placing = [] ∧ s.coh.recoveries = [] ∧ s.twn.state = 0 ∧ s.fab.leaving = [] ∧ s.sec.sealing = none ∧ (partGet s 0).st = .active ∧
        (∀ v ∈ s.svc, (partGet s v.req.pkt.part.toNat).st ≠ .resetting ∧ v.req.pkt.aux.toNat = x.1) ∧
        (partGet s 0).ledger.held = [] ∧ lgFull (partGet s 0).ledger = false ∧ (versionGet s 0 0).v = x.2) := by
  decide +kernel

/-- A write of the flow to unit 0 ahead of its FLUSH. -/
def behind : State :=
  { demo with svc := [demoSvc (writeOf 16 [1]), { demoSvc (demoPacket .flush 66 0 []) with ticket := 1, admitted := 1 }], nextTicket := 2 }

/-- A FLUSH that waits for its release. -/
def flushing : State :=
  let v := demoSvc (demoPacket .flush 66 0 [])
  { demo with svc := [v], coh := { demo.coh with pubWait := [{ svc := v, half := 0, unit := 0, publish := false, entry := true }] } }

theorem witness_PublishFamilyAtItsUnit :
    (∀ o ∈ [Op.publish, .flush, .acquire], ∀ a ∈ [lineAddr, 0],
      Alone (serving1 (demoPacket o 66 a [])) (demoSvc (demoPacket o 66 a [])) ∧ pktOp (demoPacket o 66 a []) = o ∧
        (serving1 (demoPacket o 66 a [])).fab.leaving = [] ∧
        publishUnit (serving1 (demoPacket o 66 a [])) a = if a = 0 then some (0, 0) else none) ∧
    ((partGet (roomy demo) 0).ledger.held = [] ∧ lgFull (partGet (roomy demo) 0).ledger = false) ∧
    (behind.svc.map (·.key) = [flowNat 0 false 66, flowNat 0 false 66] ∧ behind.svc.map (·.ticket) = [0, 1] ∧
      behind.svc.map (·.admitted) = [0, 1] ∧ touchesUnit (demoSvc (writeOf 16 [1])) 0 0 = true ∧
      behind.coh.gathered = [] ∧ behind.coh.txns = [] ∧ behind.coh.pubWait = [] ∧ behind.coh.recoveries = [] ∧
      behind.twn.state = 0 ∧ behind.twn.held = [] ∧ behind.twn.answers = [] ∧ behind.sec.sealing = none ∧
      (partGet behind 0).st ≠ .resetting) ∧
    (flushing.svc = flushing.coh.pubWait.map (·.svc) ∧ flushing.coh.pubWait.map (·.publish) = [false] ∧
      flushing.coh.placing = [] ∧ flushing.coh.recoveries = [] ∧ flushing.fab.leaving = [] ∧ flushing.sec.sealing = none ∧ flushing.twn.state = 0 ∧ (partGet flushing 0).st ≠ .resetting) := by
  refine ⟨fun o h a g => ⟨alone1 _ (show PState.active ≠ .resetting by decide), ?_⟩, ?_, ?_, ?_⟩
  · revert o a; decide +kernel
  all_goals decide +kernel

/-- The demo device with channel 0 serving, and that channel changed. -/
def withChan (f : Chan → Chan) : State := chanMod demo 0 (fun c => f { c with state := 1 })

/-- An entry of a channel's queue for a whole block. -/
def entryOf (write : Bool) (block mask : Nat) : ChanEntry :=
  { write := write, block := block, mask := mask, cols := maskCols block mask, slot := none, since := 0, order := 0, rmw := [], newest := 0 }

theorem witness_ChannelsTakeRequestsAndIssueCommands :
    let req := fun (w : Bool) => ({ write := w, block := 7, first := 192, count := 64, slot := none } : ChannelReq)
    let mask := fun (r : ChannelReq) => (2 ^ (min r.count (256 - r.first)) - 1) <<< r.first
    let covers := fun (s : State) => ((chanGet s 0).writes.filter (fun w => w.block = 7)).foldl (fun m w => m ||| w.mask) 0
    let quiet := withChan id
    let written := withChan (fun c => { c with writes := [entryOf true 7 (2 ^ 256 - 1)] })
    let full := withChan (fun c => { c with reads := List.replicate 64 (entryOf false 9 1), writes := List.replicate 64 (entryOf true 9 1) })
    let col := ({ bank := 0, row := 0, col := 0, source := 2, clk := 956 } : ColRead)
    let flying := withChan (fun c => { c with inflight := [col] })
    (chanGet quiet 0).state = 1 ∧ (chanGet written 0).state = 1 ∧ (chanGet full 0).state = 1 ∧
    0 < (req false).count ∧ (req false).first < 256 ∧ (req false).first + (req false).count = 256 ∧
    (mask (req false) &&& covers quiet ≠ mask (req false) ∧ (chanGet quiet 0).reads.length < 64) ∧
    (mask (req false) &&& covers written = mask (req false)) ∧
    (mask (req false) &&& covers full ≠ mask (req false) ∧ 64 ≤ (chanGet full 0).reads.length) ∧
    ((chanGet quiet 0).writes.find? (fun w => w.block = 7) = none ∧ (chanGet quiet 0).writes.length < 64) ∧
    (64 ≤ (chanGet full 0).writes.length ∧ (chanGet written 0).reads.length < 64) ∧
    (chanGet written 0).writes = [entryOf true 7 (2 ^ 256 - 1)] ∧
    3 < (chanGet (withChan (fun c => { c with trainUntil := 4 })) 0).trainUntil ∧ (chanGet quiet 0).trainUntil ≤ 0 ∧
    ((chanGet flying 0).inflight = col :: [] ∧ 999 < col.clk + 44 ∧ col.clk + 44 ≤ 1000 ∧ cellsOf flying 0 = some 0 ∧
      (lineWords 0 (dramAddr flying.stk.xmapAct 0 0 0)).all (fun w => decide (markGet flying w = {})) = true) ∧
    ceLimit quiet = 0 ∧
    (let s := withLayout (fun l => { l with spares := some { auto := 0, ceLimit := 4, twinEn := false, twinPeer := 0 } })
     ceLimit s = 4 ∧ (chanGet s 0).caErrs + 1 < ceLimit s ∧
       ceLimit s ≤ (chanGet (chanMod s 0 (fun c => { c with caErrs := 3 })) 0).caErrs + 1) := by decide +kernel

/-- The kind of command that channel 0 issues, with one read of row 0 of its bank queued. -/
def issued (bank : Bank) (down : Bool) : Option Nat :=
  let s := withChan (fun c => bankMod { c with reads := [entryOf false 7 (2 ^ 256 - 1)], sids := List.replicate 4 { down := down } } (blockBank demo 7) (fun _ => bank))
  ((candidates (seenClk s 1000) (chanGet s 0) 1000).find? (permits (seenClk s 1000) 0 (chanGet s 0) 1000)).map (fun d => match d with
    | .refresh _ => 0 | .neighbour _ => 1 | .precharge _ => 2 | .activate _ _ _ => 3 | .column _ _ _ _ => 4 | .wake _ => 5)

theorem witness_EveryKindOfChannelCommandIsIssued :
    issued { forced := true, debt := 8 } false = some 0 ∧ issued { rfm := some 5 } false = some 1 ∧
    issued { row := some 5, actClk := 932 } false = some 2 ∧ issued {} false = some 3 ∧
    issued { row := some 0, actClk := 100 } false = some 4 ∧ issued {} true = some 5 := by decide +kernel

theorem witness_ChannelUpkeep :
    let bank := fun (b : Bank) => withChan (fun c => bankMod c 63 (fun _ => b))
    let open_ := bank { row := some 5, actClk := 1, colClk := 900 }
    let training := fun (failed : Bool) => withChan (fun c => { c with trainDue := true, trainFailed := failed })
    let spared := chanMod demo 16 (fun c => { c with state := 3 })
    let pruned := fun (r : Bool) => chanMod spared 0 (fun c => { c with state := 4, readable := r })
    let copying := chanMod demo 0 (fun c => { c with state := 4, copying := true, copied := 2303 })
    let auto := withLayout (fun l => { l with spares := some { auto := 0xFF, ceLimit := 0, twinEn := false, twinPeer := 0 } })
    let worn := fun (n : Nat) => chanMod auto 0 (fun c => bankMod { c with state := 1 } 63 (fun _ =>
      { rowErrs := [(9, 65536)], repaired := List.replicate n 1 }))
    ((bankGet (chanGet open_ 0) 63).row = some 5 ∧
      ((chanGet open_ 0).reads ++ (chanGet open_ 0).writes).all (fun e => !(blockBank open_ e.block = 63 && blockRow e.block = 5)) = true ∧
      (bankGet (chanGet open_ 0) 63).colClk + (chanGet open_ 0).idle ≤ 1028 ∧ mayPre (chanGet open_ 0) 63 1028 = true) ∧
    ((bankGet (chanGet (bank { debt := 7 }) 0) 63).debt < 8 ∧ (bankGet (chanGet (bank { debt := 8 }) 0) 63).debt = 8 ∧
      (chanGet (bank { debt := 7 }) 0).state = 1 ∧
      7875 % tREFI (chanGet (bank { debt := 7 }) 0) = accrualAt (chanGet (bank { debt := 7 }) 0) 63 ∧
      (bankGet (chanGet (bank { debt := 7 }) 0) 63).accrued ≠ 7875 + 1 ∧
      7876 % tREFI (chanGet (bank { debt := 7 }) 0) ≠ accrualAt (chanGet (bank { debt := 7 }) 0) 63) ∧
    ((chanGet (training false) 0).state = 1 ∧ (chanGet (training false) 0).trainDue = true ∧
      (chanGet (training false) 0).drain = false ∧ 32 ≤ slotOf (training false) 4096 ∧
      (chanGet (training false) 0).trainFailed = false ∧ (chanGet (training true) 0).trainFailed = true) ∧
    ((bankGet (chanGet (bank { debt := 3 }) 0) 63).debt = 3 ∧
      ((chanMod (bank { debt := 3 }) 0 (fun c => { c with sids := List.replicate 4 { down := true } })) |> fun s => ((chanGet s 0).sids.getD 3 {}).down) = true) ∧
    ((chanGet demo 0).pdn ≠ 0 ∧ chanUp (chanGet (withChan id) 0) = true ∧ ((chanGet demo 0).sids.getD 3 {}).owing = false ∧ (chanGet demo 0).trainUntil ≤ 0x800 ∧ (chanGet (worn 2) 0).trainUntil ≤ 0 ∧ ((chanGet demo 0).sids.getD 3 {}).down = false ∧
      ((chanGet demo 0).sids.getD 3 {}).idleSince + (chanGet demo 0).pdn ≤ 0x800 ∧
      (∀ i, i < 16 → (bankGet (chanGet demo 0) (16 * 3 + i)).row = none ∧
        (bankGet (chanGet demo 0) (16 * 3 + i)).busyUntil + (chanGet demo 0).pdn ≤ 0x800 ∧
        bankIdle demo (chanGet demo 0) (16 * 3 + i) = true)) ∧
    (autoBit (worn 2) 3 = true ∧ (chanGet (worn 2) 0).state ≠ 4 ∧
      65536 ≤ tblGet (fun _ => 0) (bankGet (chanGet (worn 2) 0) 63).rowErrs 9 ∧
      2 ≤ (bankGet (chanGet (worn 2) 0) 63).repaired.length ∧ (bankGet (chanGet (worn 1) 0) 63).repaired.length < 2 ∧
      (worn 1).stk.repairLog.length < 4096 ∧ cellsOf (worn 1) 0 = some 0 ∧ chanUp (chanGet (worn 1) 0) = true ∧
      (sliceOfChan (worn 1) 0).any (graftWaits (worn 1)) = false ∧
      (∀ col, col < 16 → (lineWords 0 (dramAddr (worn 1).stk.xmapAct 9 63 col)).all (fun w => decide (markGet (worn 1) w = {})) = true)) ∧
    ((chanGet demo 0).state ≠ 4 ∧ autoBit demo 2 = false ∧ (chanGet (pruned true) 0).state = 4) ∧
    (0 % 17 ≠ 16 ∧ (chanGet (pruned true) 0).copying = false ∧ (chanGet (pruned true) 16).state = 3 ∧
      (chanGet (pruned true) 16).serves = none ∧ (chanGet (pruned true) 0).readable = true ∧
      (chanGet (pruned false) 0).readable = false) ∧
    ((chanGet copying 0).copying = true ∧ (chanGet copying 0).asleep = false ∧ (chanGet copying 0).copied < 2304 ∧ (chanGet (chanMod copying 16 (fun c => { c with state := 2 })) 16).state = 2 ∧ copying.di.injArm = false ∧ copying.stk.marks = [] ∧
      (chanGet copying 16).trainUntil ≤ 0) := by
  refine ⟨?_, ?_, ?_, ?_, ?_, ?_, ?_, ?_, ?_⟩ <;> decide +kernel

/-! ### Flash -/

/-- Flash of one group: two LUNs of 64 stripe blocks of 4 pages, group 0 in service. -/
def flashy (f : Flash → Flash) : State :=
  { demo with fl := f { demo.fl with
      discovered := true, usable := 1, groups := 1, geom := [{ group := 0, target := 0, luns := 2, blocks := 64, pages := 4, planes := 1 }] } }

/-- Granule 0 of partition 0 as given. -/
def gran0 (g : Granule) : State := granSet (flashy id) 0 0 g

theorem witness_GranulesMoveBetweenFlashAndFrames :
    let l : FlashLoc := { block := 3, page := 1 }
    let filling := gran0 { st := .filling, loc := some l, fetchLoc := some l }
    let dirty := gran0 { st := .dirty, loc := some l }
    let writing := gran0 { st := .writing, loc := some l, next := some { block := 4, page := 0 } }
    let moving := gran0 { st := .cached, loc := some l, next := some { block := 4, page := 0 } }
    let open4 := { dirty with fl := { dirty.fl with blocks := [(4, { st := 1, owner := 0 })] } }
    let emptied : Flash → Flash := fun f => { f with groups := 0 }
    let gone := fun (s : State) => { s with fl := emptied s.fl }
    let good : CodewordRead := { corrected := filling.fl.rdbits, levels := 0, uncorrectable := false }
    let stored := copySet filling l { bytes := [(0, 1), (65535, 2)] }
    ((granGet filling 0 0).st = .filling ∧ (granGet filling 0 0).loc = some l ∧ (granGet filling 0 0).fetchLoc = some l ∧ filling.fl.groups.testBit (stripeGroup l.block) = true ∧
      (copyGet stored l).poison = [] ∧ ceLimit filling = 0 ∧ filling.di.injArm = false ∧
      (∀ r ∈ List.replicate 16 good, r.levels = 0 ∧ r.uncorrectable = false ∧ r.corrected ≤ filling.fl.rdbits) ∧
      (granGet stored 0 0).st = .filling ∧ (copyGet stored l).bytes = [(0, 1)] ++ [(65535, 2)] ∧
      (framePlace stored 0 (granGet stored 0 0).frame 65535).isSome = true ∧
      (framePlace stored 0 (granGet stored 0 0).frame (64 * 1023)).isSome = true ∧
      (gone filling).fl.groups.testBit (stripeGroup l.block) = false ∧ (granGet (gone filling) 0 0).fetchLoc = some l) ∧
    ((granGet dirty 0 0).st ≠ .filling ∧ (partGet dirty 0).st = .active ∧ dirty.pwr.state ≤ 1 ∧
      16 * cachedFrames dirty 0 < dirty.fl.clean * frameCount dirty.img.layout 0 ∧
      dirty.fl.grans = [(0, { st := .dirty, loc := some l })] ∧
      dirty.fl.groups = 1 ∧ allGood dirty.fl 0 ≠ 0 ∧ dirty.fl.blocks = [] ∧ (coldestFree dirty.fl 0).isSome = true ∧
      open4.fl.blocks = [(4, { st := 1, owner := 0 })] ∧ dirty.stk.marks = [] ∧ dirty.stk.lost = [] ∧
      (granGet dirty 0 0).next = none) ∧
    ((flashy (fun f => { f with clean := 0 })).fl.clean * frameCount demo.img.layout 0 ≤ 16 * cachedFrames demo 0) ∧
    ((granGet writing 0 0).st = .writing ∧ (granGet writing 0 0).next = some { block := 4, page := 0 } ∧
      (granGet writing 0 0).loc = some l ∧ (blockGet writing 4).moving = false ∧ writing.fl.groups.testBit (stripeGroup 4) = true ∧
      (granGet (gone writing) 0 0).next = some { block := 4, page := 0 } ∧ (gone writing).fl.groups.testBit (stripeGroup 4) = false) ∧
    ((granGet moving 0 0).st ≠ .writing ∧ (granGet moving 0 0).next = some { block := 4, page := 0 } ∧
      (granGet moving 0 0).loc = some l ∧ moving.fl.groups.testBit (stripeGroup 4) = true ∧ (blockGet moving 4).moving = false ∧
      ceLimit moving = 0 ∧ (gone moving).fl.groups.testBit (stripeGroup 4) = false) := by
  refine ⟨?_, ?_, ?_, ?_, ?_⟩ <;> decide +kernel

theorem witness_StripeBlocksTurnOver :
    let full : StripeBlock := { st := 2, pages := 4 }
    let blocks := fun (bs : List (Nat × StripeBlock)) (s : Nat) => flashy (fun f => { f with blocks := bs, spread := s })
    let short := blocks ((List.range 63).map (fun n => (n, full)) ++ (List.range 64).map (fun n => (131072 + n, full))) 0x200
    let uneven := blocks [(0, full), (1, { erases := 600 })] 0x200
    let one := fun (b : StripeBlock) => blocks [(5, b)] 0x200
    (allGood (flashy id).fl 0 ≤ 64 * freeCount (flashy id).fl 0) ∧
    (64 * freeCount short.fl 0 < allGood short.fl 0 ∧
      (minBy (fun x => (validIn short x.1).length * 2 ^ 40 + x.1) (filledBlocks short 0)).isSome = true) ∧
    ((eraseSpan (flashy id).fl 0).1 - (eraseSpan (flashy id).fl 0).2 ≤ (flashy id).fl.spread) ∧
    (uneven.fl.spread < (eraseSpan uneven.fl 0).1 - (eraseSpan uneven.fl 0).2 ∧
      (minBy (fun x => x.2.erases * 2 ^ 40 + x.1) (filledBlocks uneven 0)).isSome = true ∧ (hottestFree uneven.fl 0).isSome = true) ∧
    ((blockGet (one { full with worn := true }) 5).worn = true ∧ (blockGet (one full) 5).worn = false ∧
      (blockGet (one full) 5).st = 2 ∧ (blockGet (one full) 5).moving = false ∧ (one full).fl.groups.testBit (stripeGroup 5) = true ∧
      (partGet (one full) 0).st = .active ∧ (one full).pwr.state ≤ 1 ∧ (∀ e ∈ (one full).fl.blocks, e.2.moving = false) ∧
      (one full).td.ptime - (blockGet (one full) 5).born < (one full).fl.retain * 2 ^ 24 ∧
      (one full).fl.rdlim * 1024 ≤ (blockGet (one { full with reads := 102400 }) 5).reads ∧
      (blockGet (one { full with reads := 102399 }) 5).reads < (one full).fl.rdlim * 1024) ∧
    ((blockGet (one { full with st := 3 }) 5).st = 3 ∧ (blockGet (one { full with st := 3 }) 5).retiring = false ∧
      (blockGet (one { full with st := 3, retiring := true }) 5).retiring = true ∧ (blockGet (one full) 5).st ≠ 3) ∧
    ((tblGet (fun _ => ((0 : Nat), (0 : Nat), (0 : Nat))) demo.fl.chans 31).1 ≠ 2) ∧
    (demo.fl.discovered = false ∧ demo.pwr.stage = .serving ∧ (flashy id).fl.discovered = true) := by
  refine ⟨?_, ?_, ?_, ?_, ?_, ?_, ?_, ?_⟩ <;> decide +kernel

/-! ### Engine commands, programs, queue pairs and mappings -/

/-- The words of a descriptor with its result at 16: FILL, COPY with RDST and to memory, CMP of 8 bytes by bits and by
value, RED, SCORE, TOPK and CVT of two INT8 elements or rows, GATHER of one row of 8 bytes. -/
def opWords (w0 count w2 stride : Word) : List Word := [w0, count, w2, stride, 0, 0, 32, 0, 16, 0, 0, 0, 0, 1, 0, 0]
def opDescriptors : List (List Word) :=
  [opWords 0x10000000 8 0 0, opWords 0x20000400 8 0 0, opWords 0x20000000 8 0 0, opWords 0x30000000 8 0 0,
   opWords 0x31900000 8 0 0, opWords 0x4090A000 2 2 8, opWords 0x41909000 2 2 8, opWords 0x5099A000 2 0x10002 8,
   opWords 0x60900000 2 0x10000 0, opWords 0x61900000 2 0x10000 0, opWords 0x70000000 1 8 8, opWords 0x8090A000 2 0 0]

/-- Pair 0 of partition 0 with a command in service, over memory that holds 77 at 0 and -128 at 35. -/
def running (c : Command) : State :=
  pairSet { demo with stk := { demo.stk with dram := [(0, 77), (35, 128)] } } 0 0 { state := 2, req := 66, service := some c }

/-- The command of a descriptor whose tiles are not translated; and one between steps, under a program of slot 3. -/
def commandOf (ws : List Word) : Command :=
  let bs := blocksOf demo 0 (runsOf (descOf ws))
  { desc := ws, index := 0, ticket := 0, cur := some ws, blocks := bs, parts := partsOf demo 0 (descOf ws) bs }
def stepping : Command := { desc := [], index := 0, ticket := 0, prog := some { slot := 3, a := List.replicate 8 0, c := [2, 0, 0, 0] } }

/-- A block lies within a line of published memory. -/
def plain (s : State) (p : Nat) (b : Blk) : Bool :=
  decide (b.off % 64 + b.len ≤ 64) && match placeOf s p b.off with
  | .pinned r sl a => !regionCoherent r && !sliceFenced s sl && decide (a + b.len ≤ 2 ^ 33)
  | _ => false

theorem plain_of {s : State} {p : Nat} {b : Blk} (h : plain s p b = true) : PlainBlock s p b := by
  unfold plain at h
  split at h <;> simp only [Bool.and_eq_true, decide_eq_true_eq, Bool.not_eq_true', Bool.and_false, Bool.false_eq_true] at h
  rename_i r sl a e
  exact ⟨h.1, r, sl, a, e, h.2.1.1, h.2.1.2, h.2.2⟩

/-- What every command of an operation needs. -/
def operates (s : State) (ws : List Word) (c : Command) : Prop :=
  let d := descOf ws
  let bs := blocksOf s 0 (runsOf d)
  let ps : List Gathered := (runsA d ++ runsB d).map (fun r =>
    { ticket := c.ticket, idx := r.off, addr := poolAddr 0 r.off, status := .ok, bytes := heldBytes s 0 r.off r.len, hint := 1 })
  serviceOf s 0 0 = some c ∧ checkDesc s 0 0 d = none ∧ EnginesFree s 0 0 c bs ∧ bs.all (plain s 0) = true ∧
    partsOf s 0 d bs ≠ [] ∧ (d.opc = 7 → gatherBad ps 0 d = none) ∧ (d.rdst = true → isFenced s false 66 = false)

theorem witness_operations_in_a_pair : ∀ ws ∈ opDescriptors, operates (running (commandOf ws)) ws (commandOf ws) := by
  unfold operates EnginesFree; decide +kernel

/-- A word RUN and its template, under a program of partition 0. -/
def stepState (ws : List Word) : State :=
  let s := running stepping
  { s with img := { s.img with layout := { s.img.layout with progs := [{ part := 0, slot := 3, words := 0x1FFF0001 :: ws }] } } }

theorem witness_operations_in_a_step : ∀ ws ∈ opDescriptors, operates (stepState ws) ws stepping ∧
    atWord (stepState ws) 0 0 = some ({ slot := 3, a := List.replicate 8 0, c := [2, 0, 0, 0] }, 0x1FFF0001 :: ws) ∧
    bitsOf 0x1FFF0001 28 4 = 1 ∧ (logGet (stepState ws) (leadEngine (stepState ws) 0)).pruned = false ∧
    stepDesc { slot := 3, a := List.replicate 8 0, c := [2, 0, 0, 0], executed := 1 } (0x1FFF0001 :: ws) 0x1FFF0001 = some ws := by
  unfold operates EnginesFree; decide +kernel

theorem witness_OperationsWriteTheirResults :
    opDescriptors.map (fun ws => (descOf ws).opc) = [1, 2, 2, 3, 3, 4, 4, 5, 6, 6, 7, 8] ∧
    (∀ ws ∈ opDescriptors, let c := commandOf ws
      c.prog = none ∧ c.cur = some ws ∧ c.phase = .ready ∧ c.outcome = none ∧ c.failure = none ∧ c.fails = [] ∧ c.tiles = [] ∧
        c.blocks = blocksOf (running c) 0 (runsOf (descOf ws)) ∧ c.parts = partsOf (running c) 0 (descOf ws) c.blocks) ∧
    (let s := running stepping
     placeOf s 0 16 = .pinned (demoRegion 2 false 0 0) 0 16 ∧ heldByte s 0 0 = 77 ∧ heldByte s 0 35 = 128 ∧
      heldByte s 0 32 = 0 ∧ (heldByte s 0 35).toInt < (heldByte s 0 1).toInt ∧ leNat (heldBytes s 0 36 4) = 0 ∧
      lenDst (descOf (opWords 0x20000400 8 0 0)) = 8 ∧ fabEnc s 0 = false ∧
      (match routeAt ⟨0, 255, 65, 4, 4, [66, 64, 129, 1, 66, 64, 129, 1]⟩ (planeFor s ⟨0, 255, 65, 4, 4, [66, 64, 129, 1, 66, 64, 129, 1]⟩ 66) 66 with
        | .port o => portHolds s o
        | _ => false) = true) := by
  refine ⟨?_, ?_, ?_⟩ <;> decide +kernel

/-- A program of partition 0 in slot 3, at word `pc`, under a PROG command, its counter 0 at two. -/
def programmed (ws : List Word) (pc executed : Nat) : State :=
  let s := withLayout (fun l => { l with progs := [{ part := 0, slot := 3, words := ws }] })
  pairSet s 0 0 { state := 2, service := some { desc := [], index := 0, ticket := 0, prog := some { slot := 3, pc := pc, a := List.replicate 8 0, c := [2, 0, 0, 0], executed := executed } } }

/-- A program stands at its first word, a word of value `w`, of two. -/
def standsAt (w : Nat) : Bool :=
  let s := programmed [BitVec.ofNat 32 w, 0] 0 0
  match serviceOf s 0 0, atWord s 0 0 with
  | some c, some (g, ws) => decide (c.prog = some g ∧ c.cur = none ∧ (wordAt g ws).map (·.toNat) = some w ∧ ws.length = 2)
  | _, _ => false

theorem witness_ProgramsStepAndPartsEnd :
    let prog : List Word := [0x90000003, 1, 2, 3, 4, 5, 6, 7, 8, 9, 10, 11, 12, 13, 14, 15]
    let s := pairSet (programmed [0] 0 0) 0 0 { state := 2, service := some { desc := prog, index := 0, ticket := 0, cur := some prog } }
    let two := fun (parts : List PartRun) => pairSet demo 0 0
      { state := 2, service := some { desc := [], index := 0, ticket := 0, parts := parts, outcome := some (.ok, 0) } }
    -- A word of each code, LOOP within its slot, at its last word and past it, a template past the slot, a reserved code.
    [0, 1, 0x20000001, 0x30000001, 0x40000001, 0x40000002, 0x50000000, 0x10000000, 0x60000000, 0xF0000000].all standsAt = true ∧
    (bitsOf 1 0 28 ≠ 0 ∧ Nat.testBit 0x20000001 24 = false ∧ bitsOf 0x40000001 14 12 = 0 ∧ bitsOf 0x40000001 0 14 < 2 ∧
      2 ≤ bitsOf 0x40000002 0 14 ∧ bitsOf 0x50000000 0 22 = 0 ∧ stepDesc { slot := 3 } [0x10000000, 0] 0x10000000 = none) ∧
    -- The place past the slot, and the last word that a program may execute.
    ((atWord (programmed [0] 1 0) 0 0).map (fun x => decide (x.2.length ≤ x.1.pc)) = some true ∧
      (atWord (programmed [0] 0 1048576) 0 0).map (fun x => decide (1048576 ≤ x.1.executed)) = some true) ∧
    -- PROG starts.
    ((serviceOf s 0 0).map (fun c => (c.cur, c.prog)) = some (some prog, none) ∧ (descOf prog).opc = 9 ∧ mayFetch s 0 = true ∧
      (logGet s (leadEngine s 0)).pruned = false ∧ (logGet s (leadEngine s 0)).trapped = false ∧
      (progWords s 0 (descOf prog).slot).isSome = true) ∧
    -- Parts end: one of two, and the last.
    (([[{ engine := 0 }, { engine := 1 }], [{ engine := 0 }]] : List (List PartRun)).all (fun ps => decide
        ((serviceOf (two ps) 0 0).map (fun c => (c.parts, c.outcome, c.prog)) = some (ps, some (.ok, 0), none) ∧
          (ps[0]?).map (·.ended) = some false ∧ (partGet (two ps) 0).st = .active ∧ (pairGet (two ps) 0 0).waiting = none)) = true ∧
      isConf (two []) 0 = false) := by
  refine ⟨?_, ?_, ?_, ?_, ?_⟩ <;> decide +kernel

/-! ### Queue pairs and mappings -/

/-- Pair 0 of partition 0 as given: control block at 0, 16 commands from 64, completions from 0x440. -/
def paired (f : Pair → Pair) : State := pairSet demo 0 0 (f { state := 1, size := 4, cmd := 64, cpl := 0x440 })

/-- The same with a descriptor at its CMD_CI. -/
def commanded (ws : List Word) : State :=
  (List.range 8).foldl (fun s i => queueStore s 0 (64 + 8 * i) ((ws.getD (2 * i) 0).toNat + 2 ^ 32 * (ws.getD (2 * i + 1) 0).toNat))
    (paired (fun x => { x with eligible := 1 }))

/-- What is known of the 64 bytes of a descriptor. -/
def descriptorRead (ws : List Word) : Prop :=
  let s := commanded ws
  let r := queueWords (seenClk s 0) 0 0 64 8
  mayTake s 0 0 = true ∧ isConf s 0 = false ∧ r.2.2 = none ∧
    (List.range 16).map (fun i => BitVec.ofNat 32 (fieldAt r.2.1 (4 * i) 4)) = ws

/-- A control word with CMD_PI at `n`. -/
def sampled (n : Nat) : State :=
  let s := queueStore (paired id) 0 0 n
  { s with near := { s.near with prior := [] } }

/-- Pair 0 with a command about to end, its ledger able to hold entries. -/
def ending : State :=
  pairSet (withPart (fun x => { x with ledger := { x.ledger with size := 4096 } })) 0 0
    { state := 3, size := 4, cmd := 64, cpl := 0x440, service := some { desc := opWords 0x10000000 8 0 0, index := 0, ticket := 0 } }

theorem witness_QueuePairsTakeAndComplete :
    let y : Pair := { enable := true, size := 4, req := 66 }
    let cfg : Word := BitVec.ofNat 32 (4 * 2 ^ 24 + 66)
    let set := fun (x : Pair) => pairSet demo 0 0 { x with cmd := 64, cpl := 0x440 }
    -- An enable that keeps R281, and one with its areas on one another.
    (bitsOf cfg.toNat 29 2 = 0 ∧ bitsOf cfg.toNat 24 4 = 4 ∧ bitsOf cfg.toNat 0 12 = 66 ∧ (pairGet (set {}) 0 0).state = 0 ∧
      (pairGet (set {}) 0 0).enabling = false ∧ mayEnable (set {}) 0 0 { y with cmd := 64, cpl := 0x440 } = true ∧
      mayEnable demo 0 0 y = false) ∧
    (pairGet (paired id) 0 0).state ≠ 0 ∧ (pairGet (paired (fun x => { x with state := 2 })) 0 0).state = 2 ∧
    -- A pass that finds a full ring, and one that finds one too many.
    (([0, 16, 17] : List Nat).all (fun n => decide ((pairGet (sampled n) 0 0).state = 1 ∧ (partGet (sampled n) 0).st = .active ∧
      (sampled n).near.flips = [] ∧ (sampled n).near.prior = [] ∧ (sampled n).td.now ≤ (sampled n).td.tickClk + 16 ∧
      (pairGet (sampled n) 0 0).passed ≠ some (sampled n).td.tickClk ∧ (sampled n).near.lostRows = [] ∧ queuePlace (sampled n) 0 0 = some (0, 0) ∧
      leNat (nearBytes (sampled n) 0 0 8) % 32 = n)) = true ∧ 16 ≤ 2 ^ 4 ∧ 2 ^ 4 < 17) ∧
    -- Passes that are over, and one made in the frame.
    (({ paired id with td := { demo.td with now := 17 } } : State).td.tickClk + 16 < 17 ∧
      (pairGet (paired (fun x => { x with passed := some 0 })) 0 0).passed = some demo.td.tickClk) ∧
    -- Taking a command: none is eligible, FILL passes its checks, a FILL of no bytes has a zero field.
    (mayTake (paired id) 0 0 = false ∧ descriptorRead (opWords 0x10000000 8 0 0) ∧
      checkDesc (commanded (opWords 0x10000000 8 0 0)) 0 0 (descOf (opWords 0x10000000 8 0 0)) = none ∧
      descriptorRead (opWords 0x10000000 0 0 0) ∧ zeroField (descOf (opWords 0x10000000 0 0 0)) = true ∧
      reservedOpc (descOf (opWords 0x10000000 0 0 0)).opc = false) ∧
    -- A command ends.
    ((pairGet ending 0 0).service ≠ none ∧ (partGet ending 0).ledger.held = [] ∧ lgFull (partGet ending 0).ledger = false ∧ ending.near.own = [] ∧
      queuePlace ending 0 0x440 = some (0, 576) ∧ queuePlace ending 0 0x448 = some (0, 576 + 8) ∧ 576 % 16 = 0 ∧
      queuePlace ending 0 16 = some (0, 16) ∧ 16 + 8 ≤ 576) := by
  unfold descriptorRead
  refine ⟨?_, ?_, ?_, ?_, ?_, ?_, ?_⟩ <;> decide +kernel

/-- Pops with nothing to give (also of a DISABLED pair with its areas named), and with an entry. -/
theorem witness_QueuePairsTakeAndComplete_pop :
    let k := readOf (nearBase + 32) 16
    let off := pairSet (serving1 k) 0 0 { state := 0, cmd := 64 }
    (Alone (popping 0) (demoSvc k) ∧ k.part = 0 ∧ popOf (popping 0) k = some 0 ∧
      (pairGet (popping 0) 0 0).cplCi = (pairGet (popping 0) 0 0).cplPi) ∧
    (Alone off (demoSvc k) ∧ popOf off k = some 0 ∧ (pairGet off 0 0).state = 0) ∧
    (Alone (popping 1) (demoSvc k) ∧ popOf (popping 1) k = some 0 ∧ (pairGet (popping 1) 0 0).state ≠ 0 ∧
      (pairGet (popping 1) 0 0).cplCi ≠ (pairGet (popping 1) 0 0).cplPi ∧ (queueWords (popping 1) 0 0 0 2).2.2 = none) := by
  refine ⟨⟨alone_of ?_, ?_⟩, ⟨alone_of ?_, ?_⟩, alone_of ?_, ?_⟩ <;> (try unfold aloneBut) <;> decide +kernel

/-- Partition 0 with a mapping operation in progress since clk 100, and a pair whose command has an issued tile of
unit 0, or a tile yet to be issued. -/
def mapping (op : Nat) : State :=
  withPart (fun x => { x with xlOp := some { op := op, unit := 0, src := 0, hpage := 0, at_ := 100, logged := false },
                              ledger := { x.ledger with size := 4096 }, mapEpoch := 1 })
def tiled (s : State) (tiles : List TileRec) : State :=
  pairSet s 0 0 { state := 1, service := some { desc := [], index := 0, ticket := 0, parts := [{ engine := 0 }], tiles := tiles, blocks := [{ stream := 2, off := 16, len := 8, eng := 0, tile := 0 }] } }

theorem witness_MappingsChangeAndTilesTranslate :
    let under : TileRec := { engine := 0, stream := 2, tile := 0, pages := [(0, 0)], epoch := 0, first := 0 }
    let o : XlOp := { op := 1, unit := 0, src := 0, hpage := 0, at_ := 100, logged := false }
    ((partGet (mapping 1) 0).xlOp = some o ∧ (partGet (mapping 2) 0).xlOp ≠ none ∧ o.op ≠ 2 ∧ (partGet demo 0).xlOp = none ∧
      (partGet (mapping 1) 0).ledger.held = [] ∧ lgFull (partGet (mapping 1) 0).ledger = false ∧ 116 < o.at_ + 17 ∧
      o.at_ + 17 ≤ 117 ∧ 8291 < o.at_ + 8192 ∧ oldTiles (mapping 1) 0 o = false ∧ oldRequests (mapping 1) 0 = false ∧
      oldTiles (tiled (mapping 1) [under]) 0 o = true) ∧
    -- A unit that is mapped; one that is not, with a free page; a MOVE to it; and what breaks R293 in each.
    (mapError demo 0 1 0 0 0 = 0 ∧ mapError demo 0 2 9 0 5 = 0 ∧ mapError demo 0 3 9 8 0 = 0 ∧ (xlPage demo.img.layout 0 9).length = 1 ∧
      mapError demo 0 1 4 0 0 ≠ 0 ∧ mapError demo 0 1 16 0 0 ≠ 0 ∧ mapError demo 0 1 9 0 0 ≠ 0 ∧ mapError demo 0 2 8 0 5 ≠ 0 ∧
      mapError demo 0 2 9 0 4 ≠ 0 ∧ mapError demo 0 3 9 9 0 ≠ 0) ∧
    -- A tile whose unit is in the engine's buffer, and one whose unit is in none.
    (let c := ((serviceOf (tiled demo []) 0 0).getD { desc := [], index := 0, ticket := 0 })
     let b : Blk := { stream := 2, off := 16, len := 8, eng := 0, tile := 0 }
     (serviceOf (tiled demo []) 0 0).isSome = true ∧ (c.parts[0]?).map (·.engine) = some 0 ∧ tileBlock c 0 2 0 = some b ∧
      tileMay c b = true ∧ c.outcome = none ∧ tileUnits c.blocks b = [0] ∧
      tileReady (bufPut (tiled demo []) 0 0 0 0) 0 b 0 = true ∧ tileReady (tiled demo []) 0 b 0 = false) ∧
    (mappedTo demo 0 0 ≠ none ∧ mappedTo demo 0 9 = none) := by
  refine ⟨?_, ?_, ?_, ?_⟩ <;> decide +kernel

theorem witness_MappingsChangeAndTilesTranslate_clean : ReservesClean (tiled demo []) := reserves_clean rfl rfl

/-! ### Integrity -/

/-- Channel 0 with bank 5's row 3 open long ago, its patrol at column 15 of that row, and one column to scrub there. -/
def scrubbing : State :=
  withChan (fun c => bankMod { c with patrol := 3 * 1024 + 5 * 16 + 15, scrubQ := [(5, 3, 15)] } 5 (fun _ => { row := some 3, actClk := 100 }))

theorem witness_ScrubCorrectsWhatItFinds :
    let s := scrubbing
    let c := chanGet s 0
    let a := dramAddr s.stk.xmapAct 3 5 15
    let waits := fun (s : State) (ds : State → Chan → Nat → List DramCmd) =>
      (ds (seenClk s 1000) (chanGet s 0) 1000).any (permits (seenClk s 1000) 0 (chanGet s 0) 1000)
    let busy := chanMod s 0 (fun c => { c with trainUntil := 1001 })
    (s.di.off = false ∧ chanUp c = true ∧ cellsOf s 0 = some 0 ∧ c.patrol < patrolColumns ∧ underFill s 0 = false ∧
      waits s candidates = false ∧ waits s firstCandidates = false ∧ c.trainUntil ≤ 1000 ∧ pieceFirst (seenClk s 1000) c 1000 = false ∧ columnHeld c c.nextOrder (a / 256) 15 = false ∧ c.patrol / 16 % 64 = 5 ∧
      c.patrol / 1024 = 3 ∧ c.patrol % 16 = 15 ∧ (c.sids.getD (bankSid 5) {}).down = false ∧ (bankGet c 5).row = some 3 ∧
      (bankGet c 5).forced = false ∧ mayCol c (colLimit (seenClk s 1000) 0) 5 1000 false = true ∧
      (lineWords 0 a).all (fun w => decide (markGet s w = {})) = true ∧ s.di.injArm = false ∧ c.scrubQ = (5, 3, 15) :: []) ∧
    ({ s with di := { s.di with off := true } } : State).di.off = true ∧
    1000 < (chanGet busy 0).trainUntil ∧ underFill busy 0 = false ∧ (chanGet demo 0).scrubQ = [] ∧
    nearFlips demo (nearWordKey 127 (131071 % 131072 * 8)) = 0 ∧
    (parityOf 9 1 = true ∧ parityOf 9 3 = false ∧ wordDecode 7 = none ∧ (1 : Nat) ≠ 0) ∧
    ((0x8000001F : Word).getLsbD 31 = true ∧ 16 < bitsOf (0x80000011 : Word).toNat 0 5 ∧
      (exec (.diInjectArm 0x80000011) demo = .next (nextOf (exec (.diInjectArm 0x80000011) demo)))) := by
  refine ⟨?_, ?_, ?_, ?_, ?_, ?_, ?_, ?_, ?_, rfl⟩ <;> decide +kernel

/-! ### Ethernet -/

/-! ### Ethernet -/

/-- The demo device with its four Ethernet ports up, host 5 of partition 0 admitted, and queue pair `qi` as given. -/
def hosted (qi : Nat) (q : Qp) : State :=
  let k := flowNat 0 true 5
  qpSet { demo with
    img := { demo.img with layout := { demoLayout with allots := [{ key := k, allot := 100, burst := 100 }] } }
    flows := [(k, { limit := 100, limitNow := 100, credit := 100 })]
    eth := { demo.eth with ports := List.replicate 4 { state := 2 }, ip := [(3, 7)] } } qi q

/-- A queue pair of host 5 that expects PSN 9. -/
def hostQp : Qp := { state := 1, mtu := 0, part := 0, host := 5, epsn := 9 }

/-- A packet for queue pair 0 with PSN 9. -/
def rocePkt (op : BitVec 8) (va len : Nat) (payload : List Byte) : RocePacket :=
  { opcode := op, pkey := 0xFFFF, destQp := 0x1000, ackReq := true, psn := 9, dscp := 0, va := BitVec.ofNat 64 va, rkey := 0
    dmaLen := BitVec.ofNat 32 len, compare := 0, swapAdd := 0, syndrome := 0, payload := payload }

/-- The device with queue pair `qi` as given and a packet kept for it since clk 0. -/
def keeping (qi : Nat) (q : Qp) (p : RocePacket) : State :=
  let s := hosted qi q
  { s with eth := { s.eth with kept := [((0, 0), p)] } }

theorem keeping_kept (n : Nat) (q : Qp) (p : RocePacket) : (keeping n q p).eth.kept = [((0, 0), p)] := rfl

/-- A packet stands for its turn. -/
def turnOf (q : Qp) (p : RocePacket) : Prop :=
  let s := keeping 0 q p
  let key := flowNat q.part true q.host
  p.destQp.toNat = 0x1000 + 0 ∧ qpGet s 0 = q ∧ q.state = 1 ∧ p.pkey.toNat % 2 ^ 15 = 2 ^ 15 - 1 ∧
    q.epsn = p.psn.toNat ∧ ethEnc s q.part = false ∧ q.host < 4096 ∧ isFenced s true q.host = false ∧
    (partGet s q.part).st = .active ∧ isConf s q.part = false ∧ ((allotOf s.img.layout key).map (·.allot)).getD 0 ≠ 0 ∧
    (flowGet s key).limitNow ≠ 0 ∧ policerOf s.img.layout key = none ∧ (flowGet s key).queue = []

/-- A WRITE's packet whose message and length are in order. -/
def writeFits (q : Qp) (p : RocePacket) : Prop :=
  let s := keeping 0 q p
  let first := decide (p.opcode = 0x06 ∨ p.opcode = 0x0A)
  let last := decide (p.opcode = 0x08 ∨ p.opcode = 0x0A)
  let va := if first then p.va.toNat else q.wrAddr
  let rkey := if first then p.rkey.toNat else q.wrKey
  let left := if first then p.dmaLen.toNat else q.wrLeft
  turnOf q p ∧ roceKind p.opcode.toNat = .write ∧ q.msg = (if first then 0 else 1) ∧ left ≤ 2 ^ 24 ∧
    (left = 0 ∨ keyOk s q rkey va left = true) ∧
    (if last then p.payload.length = left ∧ left ≤ roceData s q else p.payload.length = roceData s q ∧ roceData s q < left)

theorem witness_EthernetPacketsBecomeRequests_writes :
    writeFits hostQp (rocePkt 0x0A 0 0 []) ∧ writeFits hostQp (rocePkt 0x0A 16 1 [1]) ∧
    writeFits hostQp (rocePkt 0x06 0 (2 ^ 23) (List.replicate 1024 0)) ∧
    writeFits { hostQp with msg := 1, wrLeft := 1025 } (rocePkt 0x07 0 0 (List.replicate 1024 0)) ∧
    writeFits { hostQp with msg := 1, wrLeft := 1024 } (rocePkt 0x08 0 0 (List.replicate 1024 0)) := by
  unfold writeFits turnOf
  refine ⟨?_, ?_, ?_, ?_, ?_⟩ <;> decide +kernel

/-- A control message of FLUSH at the start of the partition, and one of no kind. -/
def controlBytes (kind : Byte) : List Byte := [0, 0, 0, kind] ++ List.replicate 28 0

theorem witness_EthernetPacketsBecomeRequests_requests :
    (∀ n ∈ [0, 2 ^ 23], turnOf hostQp (rocePkt 0x0C 0 n []) ∧ roceKind 0x0C = .read ∧ hostQp.msg = 0 ∧ hostQp.outstanding < 16 ∧
      (rocePkt 0x0C 0 n []).dmaLen.toNat ≤ 2 ^ 24 ∧ ((rocePkt 0x0C 0 n []).dmaLen = 0 ∨ keyOk (hosted 0 hostQp) hostQp 0 0 n = true)) ∧
    (∀ op ∈ [(0x13 : BitVec 8), 0x14], turnOf { hostQp with outstanding := 15 } (rocePkt op 8 0 []) ∧ roceKind op.toNat = .atomic ∧
      hostQp.saved = [] ∧ keyOk (hosted 0 hostQp) hostQp 0 8 8 = true) ∧
    (∀ b ∈ [(1 : Byte), 9], turnOf hostQp (rocePkt 0x04 0 0 (controlBytes b)) ∧ (controlBytes b).length = 32 ∧
      (controlOf hostQp (controlBytes b)).isSome = decide (b = 1)) ∧ hostQp.order = [] := by
  unfold turnOf
  refine ⟨?_, ?_, ?_, rfl⟩ <;> decide +kernel

theorem witness_EthernetPacketsBecomeRequests :
    let p := rocePkt 0x0A 0 0 []
    let s := hosted 0 hostQp
    let early := { hostQp with epsn := 8 }
    let ack := fun (syn : BitVec 8) => { rocePkt 0x11 0 0 [] with syndrome := syn }
    let a : CtrlAnswer := { psn := 9, bytes := [], retries := 6, rnrRetries := 0, rnrWait := false }
    -- Frames: for an address of port 0, and for none of its own.
    ((ethPort s 0).state = 2 ∧ s.eth.ports.length = 4 ∧ (ethPort demo 0).state ≠ 2 ∧ ethOwns s 0 7 = true ∧ ethOwns s 0 6 = false ∧
      p.destQp.toNat = 0x1000 + 0 ∧ (qpGet s 0).port = 0 ∧ (∀ o ∈ [(0x0A : BitVec 8), 0x0C, 0x13, 0x04, 0x11],
        roceKind o.toNat ∈ [.write, .read, .atomic, .send, .ack])) ∧
    -- A packet after a gap.
    (∀ o ∈ [(0x0A : BitVec 8), 0x0C, 0x13, 0x04], (keeping 0 early (rocePkt o 0 0 [])).eth.kept.length = 1 ∧ early.state = 1 ∧
      early.gap = false ∧ early.order = [] ∧ 0 < ringDist early.epsn 9 (2 ^ 24) ∧ ringDist early.epsn 9 (2 ^ 24) < 2 ^ 23 ∧
      2 ^ 23 ≤ ringDist ({ early with epsn := 10 } : Qp).epsn 9 (2 ^ 24) ∧ early.again = []) ∧
    -- No partition is in its fill; a request of no supported kind whose turn it is.
    ((∀ n, n < 32 → fillPhase s n = false) ∧ s.eth.kept = [] ∧ roceKind 0x10 = .response ∧ roceKind 0x03 = .unsupported ∧
      hostQp.epsn = 9 ∧ hostQp.order = []) ∧
    -- Answers of a control request: acknowledged, to wait, refused, and timed out.
    ((∀ y ∈ [0x00, 0x20, 0x61], (keeping 0 { hostQp with answers := [a] } (ack y)).eth.kept.length = 1 ∧
        roceKind (ack y).opcode.toNat = .ack ∧ a.psn = (ack y).psn.toNat) ∧
      bitsOf 0x00 5 2 = 0 ∧ bitsOf 0x20 5 2 = 1 ∧ bitsOf 0x61 5 2 = 3 ∧ 0x61 % 32 ≠ 0 ∧ hostQp.rnrRetry = 7 ∧ hostQp.retry = 7 ∧
      a.retries < hostQp.retry ∧ hostQp.retry ≤ 7 ∧ (qpGet (hosted 0 { hostQp with answers := [a] }) 0).answers = [a] ∧
      ethEnc s 0 = false ∧ ({ a with rnrWait := true } : CtrlAnswer).rnrWait = true) ∧
    -- Queue pair states, and ports.
    ((qpGet (hosted 4095 {}) 4095).state = 0 ∧ (partGet s 0).st = .active ∧ (partGet s 1).st ≠ .active ∧
      (allotOf s.img.layout (flowNat 0 true 5)).isSome = true ∧ (qpGet s 0).state = 1 ∧ (ethPort s 3).phy = 0 ∧
      (ethPort demo 0).state = 0 ∧ (ethPortMod s 3 (fun x => { x with state := 1 })).eth.ports.length = 4) ∧
    -- The management queue pair.
    (let m : Qp := { state := 1, epsn := 9 }
     let k := fun (q : RocePacket) => keeping 4096 m { q with destQp := 2, dmaLen := 4, va := 2 ^ 25 - 4 }
     (k p).eth.kept.length = 1 ∧ pathRuns (k p) .mgmtQp = true ∧ (qpGet (k p) 4096).state = 1 ∧ (qpGet (k p) 4096).epsn = 9 ∧
       (qpGet (k p) 4096).msg = 0 ∧ (k p).sec.mgmtKey = none ∧ roceKind p.opcode.toNat ≠ .ack ∧
       ({ k (rocePkt 0x0C 0 4 []) with sec := { demo.sec with mgmtKey := some (List.replicate 32 0) } } : State).sec.mgmtKey ≠ none) := by
  refine ⟨?_, ?_, ?_, ?_, ?_, ?_⟩ <;> decide +kernel

/-! ### Trust -/

def withSec (f : Security → Security) : State := { demo with sec := f demo.sec }

/-- Partition 0's ledger as given. -/
def withLedger (f : Ledger → Ledger) : State := withPart (fun x => { x with ledger := f x.ledger })

/-- The staging window holds an envelope of one member for a region of 4,096 bytes. -/
def enveloped : State :=
  { withSec (fun c => { c with cmdIndex := 0 }) with staging := [(0, 0x53), (1, 0x45), (2, 0x54), (3, 0x31), (4, 1), (9, 0x10)] }

theorem no_queues (k : Nat) : (flowGet { demo with flows := [] } k).queue = [] := rfl

theorem witness_AttestationUnitRunsItsOperations :
    let key : KeySet := (partGet demo 0).keys
    let installing := withPart (fun x => { x with st := .quiesced, why := 2, drained := true, newKeys := some (key, 0) })
    let exchanging := fun (now : Nat) =>
      ({ withPart (fun x => { x with exch := some { keyId := 0, frame := 0, qd := 0 } }) with td := { demo.td with ptime := now } } : State)
    let op : SealOp := { part := 0, index := 0, length := 4096, plainDigest := 0, envelope := 0, weightKey := [] }
    let pending := fun (now : Nat) => ({ withSec (fun c => { c with pendingSince := some 0 }) with td := { demo.td with ptime := now } } : State)
    let held := fun (size head : Nat) => withLedger (fun g => { g with held := [{ bytes := [], event := 0, queue := 0 }], size := size, head := head })
    (demo.sec.busy = false ∧ (withSec (fun c => { c with busy := true })).sec.busy = true ∧
      (withSec (fun c => { c with cmdDev := true })).sec.cmdDev = true ∧ demo.sec.cmdDev = false ∧ demo.sec.quoting = none ∧
      (withSec (fun c => { c with quoting := some (List.replicate 320 0, some 0) })).sec.quoting.map (·.1.length) = some 320) ∧
    ((partGet installing 0).newKeys = some (key, 0) ∧ (partGet installing 0).why = 2 ∧ (partGet installing 0).drained = true ∧
      installing.coh.txns = []) ∧
    ((partGet (exchanging 0) 0).exch.map (·.frame) = some 0 ∧ (exchanging (2 ^ 24 - 1)).td.ptime < 0 + 2 ^ 24 ∧
      0 + 2 ^ 24 ≤ (exchanging (2 ^ 24)).td.ptime) ∧
    ((withSec (fun c => { c with sealing := some op })).sec.sealing = some op ∧ demo.sec.sealing = none ∧ demo.coh.txns = [] ∧
      (regionsOf demoLayout 0).find? (fun r => r.index = 0) = some (demoRegion 2 false 0 0) ∧
      (regionsOf demoLayout 0).find? (fun r => r.index = 9) = none ∧
      heldLines demo 0 (inRegion (demoRegion 2 false 0 0)) = []) ∧
    (demo.sec.staged = none ∧ demo.sec.pendingSince = none ∧ (pending 0).sec.pendingSince = some 0 ∧ 0 < (pending 0).sec.fwLeft ∧
      (withSec (fun c => { c with staged := some {} })).sec.staged = some {} ∧ (pending (2 ^ 20 - 1)).td.ptime < 0 + 2 ^ 20 ∧
      0 + 2 ^ 20 ≤ (pending (2 ^ 20)).td.ptime) ∧
    ((partGet (held 4 3) 0).ledger.held.length = 1 ∧ lgFull (partGet (held 4 3) 0).ledger = false ∧
      (partGet (held 0 0) 0).ledger.size = 0 ∧ lgFull (partGet (held 4 4) 0).ledger = true ∧ (partGet (held 4 4) 0).ledger.size ≠ 0 ∧
      (partGet demo 0).ledger.held = [] ∧ (partGet (held 4 3) 0).ledger.batch = [] ∧
      (partGet (withLedger (fun g => { g with clk := 1, batch := [[]] })) 0).ledger.clk ≠ demo.td.now) ∧
    (let g := (partGet (withLedger (fun g => { g with tail := 2, head := 5 })) 0).ledger
     g.tail ≤ 2 ∧ 5 ≤ g.head ∧ 1 < g.tail ∧ g.head < 6) := by
  refine ⟨?_, ?_, ?_, ?_, ?_, ?_, ?_⟩ <;> decide +kernel

theorem witness_AttestationUnitRunsItsOperations_seal :
    let bs := fun (s : State) => stagingBytes s 0 (64 + 1680 * min 256 (fieldAt (stagingBytes s 0 64) 4 2))
    envelopeOk (bs demo) = false ∧ envelopeOk (bs enveloped) = true ∧ loadFor enveloped enveloped.sec.cmdPart = false ∧
      (partGet enveloped enveloped.sec.cmdPart).st = .active ∧
      sealRegion enveloped enveloped.sec.cmdPart 0 (fieldAt (stagingBytes enveloped 0 64) 8 8) = some (demoRegion 2 false 0 0) ∧
      heldLines enveloped enveloped.sec.cmdPart (inRegion (demoRegion 2 false 0 0)) = [] := by
  refine ⟨?_, ?_, ?_, ?_, ?_, ?_⟩ <;> decide +kernel

/-! ### Twins, fences and resets -/

/-- The demo device, node 65, as one of a pair with node 67 that twins region 0, with its twin block as given. -/
def pairedWith (f : Twin → Twin) : State :=
  { withLayout (fun l => { l with
      regions := { demoRegion 2 false 0 0 with twinned := true } :: l.regions.tail
      spares := some { auto := 0, ceLimit := 0, twinEn := true, twinPeer := 67 } }) with twn := f demo.twn }

/-- A packet from the twin about address 16 of partition 0, sunk. -/
def fromTwin (o : Op) (payload : List Byte) : Sunk := { pkt := demoPacket o 67 16 payload, port := 0 }
def hears (s : State) (x : Sunk) : State := { s with fab := { s.fab with inbox := [x] } }

/-- A burst of the twin's, its CHECK right. -/
def twinBurst (node state geom : Nat) (lead : Bool) : Burst :=
  { node := BitVec.ofNat 12 node, lead := lead, state := BitVec.ofNat 3 state, geom := BitVec.ofNat 32 geom
    check := BitVec.ofNat 16 (burstCheck (burstFields node lead state geom)) }
def burstGood (s : State) (b : Burst) : Bool :=
  decide (b.check.toNat = burstCheck (burstFields b.node.toNat b.lead b.state.toNat b.geom.toNat)) && decide (b.node.toNat = twinPeer s)

theorem witness_TwinsHearClaimAndMirror_heard :
    let s := pairedWith id
    let of := fun (n : Nat) => pairedWith (fun t => { t with state := n, drives := decide (n = 2 ∨ n = 4), lineHigh := false })
    (twinEn s.img.layout = true ∧ twinAwake s = true ∧ s.td.ptime % 16 = 0 ∧ twinEn demo.img.layout = false ∧ twinPeer s = 67 ∧
      s.twn.answers = [] ∧ s.twn.held = []) ∧
    ((hears s (fromTwin .heartbeat [])).fab.inbox.map (fun x => (pktOp x.pkt, x.pkt.src.toNat)) = [(.heartbeat, 67)] ∧
      (hears s { fromTwin .heartbeat [] with pkt := demoPacket .heartbeat 66 16 [] }).fab.inbox.map (fun x => x.pkt.src.toNat) = [66]) ∧
    -- Bursts: right, with a wrong CHECK, of another node, and of another structure; each change of state that one brings.
    (burstGood s (twinBurst 67 3 0 false) = true ∧ burstGood s { twinBurst 67 3 0 false with check := 0 } = false ∧
      burstGood s (twinBurst 66 3 0 false) = false ∧ s.twn.geom = (twinBurst 67 3 0 false).geom.toNat ∧
      s.twn.geom ≠ (twinBurst 67 3 1 false).geom.toNat ∧ (of 1).twn.state ≠ 0 ∧ (of 1).twn.state ≠ 5 ∧
      serving (of 2) = true ∧ (of 2).twn.state = 2 ∧ (twinBurst 67 3 0 false).lead = false ∧ (twinBurst 67 2 0 false).state = 2 ∧ serving (of 4) = true ∧ (of 4).twn.state = 4 ∧ (of 5).twn.state = 5) ∧
    -- Silence on both paths, the claim, its clk, and what the leader does.
    (let silent := pairedWith (fun t => { t with fabSilent := 3, hbSilent := 48 })
     silent.twn.declared = false ∧ 3 ≤ silent.twn.fabSilent ∧ 48 ≤ silent.twn.hbSilent ∧ s.twn.fabSilent < 3 ∧ s.twn.hbSilent < 48) ∧
    (let high := pairedWith (fun t => { t with state := 3, highTicks := 4 })
     high.twn.state ≠ 0 ∧ high.twn.state ≠ 5 ∧ high.twn.drives = false ∧ 4 ≤ high.twn.highTicks ∧
       subOf high 8191 = claimClk high ∧ subOf high 8190 ≠ claimClk high ∧ twinAwake high = true ∧ high.twn.held = [] ∧
       entersSleep high = false ∧ entersSleep { high with pwr := { high.pwr with busy := true, moving := 2 } } = true ∧
       s.twn.highTicks < 4) ∧
    ((of 2).twn.drives = true ∧ s.twn.drives = false ∧ (of 3).twn.state = 3 ∧
      serving (pairedWith (fun t => { t with state := 3, drives := true, lineHigh := false })) = true ∧ serving s = false) ∧
    (let late := pairedWith (fun t => { t with state := 3, drives := true, lineHigh := false, ackto := 0, sent := [{ id := 0, seq := 7, addr := 16, region := 0, since := 0 }] })
     leads late = true ∧ late.twn.answers = [] ∧ late.twn.state = 3 ∧ late.twn.sent.any (fun o => decide (o.since + late.twn.ackto ≤ late.td.ptime)) = true) := by
  refine ⟨?_, ?_, ?_, ?_, ?_, ?_, ?_⟩ <;> decide +kernel

theorem witness_TwinsHearClaimAndMirror_mirrored :
    let follower := pairedWith (fun t => { t with state := 3 })
    let away := { fromTwin .twinWr [1] with pkt := { demoPacket .twinWr 67 16 [1] with part := 1 } }
    let r := { demoRegion 2 false 0 0 with twinned := true }
    let o : TwinOut := { id := 0, seq := 7, addr := 16, region := 0, since := 0 }
    let copy := fun (next : Nat) => pairedWith (fun t => { t with state := 2, copyBusy := true, copyNext := next })
    let asked := fun (version : Bool) => pairedWith (fun t => { t with state := 2, copyOut := [{ seq := 7, addr := 16, len := 8, version := version }] })
    (following follower = true ∧ (fromTwin .twinWr [1]).pkt.src.toNat = twinPeer follower ∧ tagFits away.pkt = false ∧
      pktOp away.pkt = .twinWr ∧ away.pkt.payload ≠ [] ∧ tagFits (fromTwin .twinPub []).pkt = true ∧
      pktOp (fromTwin .twinPub []).pkt = .twinPub) ∧
    (let k := (fromTwin .twinWr [1]).pkt
     pktOp k = .twinWr ∧ tagFits k = true ∧ homeNode follower ≠ twinPeer follower ∧ k.payload ≠ [] ∧ follower.twn.copyOut = [] ∧
      follower.twn.copyHeld = [] ∧ follower.twn.held = [] ∧ addrOff k.addr.toNat % 64 + k.payload.length ≤ 64 ∧
      placeOf follower (addrPart k.addr.toNat) (addrOff k.addr.toNat) = .pinned r 0 16 ∧ sliceFenced follower 0 = false ∧
      follower.di.injArm = false ∧ (lineWords 0 16).all (fun w => decide (markGet follower w = {})) = true) ∧
    (let x := fromTwin .twinPub []
     let s := pairedWith (fun t => { t with state := 3, entries := [x], turnedAway := [7] })
     s.twn.entries = [x] ∧ s.twn.held = [] ∧ s.twn.turnedAway.contains x.pkt.seq.toNat = true ∧ s.coh.gathered = [] ∧
      publishUnit s x.pkt.addr.toNat = some (0, 0) ∧ ledgerBlocked s 0 = false ∧ s.twn.copyOut = []) ∧
    (let x := fromTwin .cmp []
     let s := hears (pairedWith (fun t => { t with state := 3, drives := true, sent := [o], answers := [{ svc := demoSvc (writeOf 16 [1]), answer := { status := .ok }, waits := [o.id] }] })) x
     s.fab.inbox = [x] ∧ isTwinCmp s x.pkt = true ∧ s.twn.sent = [o] ∧ s.twn.answers.map (·.waits) = [[o.id]] ∧ s.twn.toSend = []) ∧
    (let s := pairedWith (fun t => { t with state := 1, fabUp := true, lineHigh := false })
     s.twn.state = 1 ∧ s.twn.fabUp = true ∧ s.twn.lineHigh = false ∧ s.twn.drives = false ∧ demo.twn.state ≠ 1) ∧
    -- The copy's first version word and its first bytes, and their answers.
    (following (copy 0) = true ∧ (copyItem (copy 0) 0).map (·.2.2) = some true ∧ (copyItem (copy 4) 4).map (·.2.2) = some false ∧
      ((copyItem (copy 4) 4).map (fun i => copyAllowed (copy 4) (i.2.1 / 256))) = some true ∧ (copy 0).twn.copyBusy = true ∧
      (copy 0).twn.copyEnded = false) ∧
    ([true, false].all (fun v => decide ((asked v).twn.copyOut.length = 1 ∧ (asked v).twn.copyHeld = [] ∧
        (asked v).twn.copyOut.all (answersCopy (asked v) (fromTwin .data [1, 2, 3, 4, 5, 6, 7, 8]).pkt) = true)) = true ∧
      pktOp (fromTwin .data []).pkt = .data ∧ (fromTwin .data []).pkt.status = 0 ∧
      anyRetry (placeBytes (asked false) 16 [1, 2, 3, 4, 5, 6, 7, 8]).2 = false) := by
  refine ⟨?_, ?_, ?_, ?_, ?_, ?_, ?_⟩ <;> decide +kernel

theorem witness_FencesResetsAndTheWatchdog :
    let fences := fun (t : Tbl (Option (Bool × Nat))) => withTwn (fun x => { x with fences := t })
    let one := (fences [(0, some (false, 4095))]).twn.fences
    let every := (fences ((List.range 64).map (fun n => (n, some (true, n))))).twn.fences
    let reset := fun (cancelled : Bool) => { withPart (fun x => { x with st := .resetting }) with
      twn := { demo.twn with rstBusy := true, rstCancelled := cancelled }, td := { demo.td with ptime := 3 } }
    let auto := withLayout (fun l => { l with spares := some { auto := 1, ceLimit := 0, twinEn := false, twinPeer := 0 } })
    let pruned := engMod auto 255 (fun e => { e with pruned := true })
    let late := withTwn (fun x => { x with wdtCount := 0x0400 })
    ((List.range 64).any (fun n => tblGet (fun _ => none) one n = some (false, 4095)) = true ∧
      (List.range 64).any (fun n => tblGet (fun _ => none) one n = some (true, 4095)) = false ∧
      (List.range 64).find? (fun n => (tblGet (fun _ => none) one n).isNone) = some 1 ∧
      (List.range 64).all (fun n => (tblGet (fun _ => none) every n).isSome) = true) ∧
    (demo.twn.rstBusy = false ∧ twinAwake demo = true ∧ partsInHalf demo 0 = [0] ∧ (partGet demo 0).st ≠ .quiesced ∧
      (partGet demo 0).st ≠ .resetting ∧ (partGet demo 0).st ≠ .unused ∧ (reset false).twn.rstBusy = true) ∧
    ((reset false).twn.rstLastKind = 0 ∧ (reset false).twn.rstLastPart = 0 ∧ (partGet (reset false) 0).st = .resetting ∧
      (reset false).twn.rstCancelled = false ∧ (reset false).twn.rstFrame + 3 ≤ (reset false).td.ptime ∧ (reset false).svc = [] ∧
      (reset false).coh.txns = [] ∧ (∀ q, q < 64 → (pairGet (reset false) 0 q).service = none) ∧ (reset true).twn.rstCancelled = true) ∧
    (autoBit demo 0 = false ∧ autoBit pruned 0 = true ∧ pruned.eng.eng.map (·.1) = [255] ∧ (engGet pruned 255).pruned = true ∧
      (engGet pruned 255).logical = some 255 ∧ graftWaits pruned (255 / 2) = false ∧
      ([256 + 2 * physCluster 255, 257 + 2 * physCluster 255].find? (fun j => (engGet pruned j).logical.isNone && !(engGet pruned j).pruned)) = some 270) ∧
    ((withTwn (fun x => { x with wdtArmed := true })).twn.wdtArmed = true ∧ demo.twn.wdtArmed = false ∧ demo.twn.wdtCount < demo.twn.wdtTimeout ∧
      late.twn.wdtEn = true ∧ late.twn.wdtHeld = false ∧ late.twn.wdtTimeout ≤ late.twn.wdtCount) := by
  refine ⟨?_, ?_, ?_, ?_, ?_⟩ <;> decide +kernel

/-! ### Power and SMBus -/

theorem witness_PowerComesAndGoes :
    let at_ := fun (st : Stage) (start : StartKind) => withPwr (fun w => { w with stage := st, start := start, rstHigh := true, refclk := true })
    (demo.pwr.stage ≠ .off ∧ (at_ .off .cold).pwr.stage = .off ∧ (withPwr (fun w => { w with stage := .off, rstHigh := false })).pwr.rstHigh = false ∧
      (at_ .off .cold).pwr.rstHigh = true ∧ (at_ .off .cold).pwr.refclk = true) ∧
    ((at_ .waiting .rstN).pwr.stage = .waiting ∧ (at_ .waiting .rstN).pwr.start ≠ .warm ∧ (at_ .waiting .rstN).pwr.rstHigh = true ∧
      (at_ .serving .cold).pwr.stage ≠ .waiting) ∧
    (railsUp (at_ .off .cold) = false ∧ railsUp (at_ .serving .cold) = true ∧ (99 < 100 ∧ 100 ≤ 999 ∧ 999 < 1000) ∧
      (at_ .waiting .cold).pwr.start = .cold) ∧
    ((at_ .filling .cold).pwr.stage = .filling ∧ (at_ .filling .d3).pwr.start = .d3 ∧ demo.pwr.stage ≠ .filling ∧
      (at_ .overvolt .cold).pwr.stage = .overvolt ∧ railsUp (at_ .overvolt .cold) = false) := by
  refine ⟨?_, ?_, ?_, ?_⟩ <;> decide +kernel

theorem witness_PowerStatesAndSmbus :
    let w := fun (f : Power → Power) => withPwr (fun x => f { x with rstHigh := true, refclk := true })
    let busy := fun (state moving : Nat) => w (fun x => { x with busy := true, state := state, moving := moving })
    let quiet := fun (s : State) => partMod s 0 (fun x => { x with st := .quiesced, why := 3, drained := true })
    let running := pairSet (w (fun x => { x with target := 1, state := 1 })) 0 0 { state := 1, service := some { desc := [], index := 0, ticket := 0 } }
    let asleep := w (fun x => { x with state := 3 })
    let alert := fun (answered : Bool) => w (fun x => { x with fault := 1, alertMask := 1, alertAnswered := answered })
    ((busy 0 1).pwr.busy = true ∧ (w id).pwr.busy = false ∧ railsUp (w id) = true ∧ (w id).pwr.state ≠ 3) ∧
    (running.pwr.stage = .serving ∧ running.pwr.busy = false ∧ running.pwr.target = 1 ∧ running.pwr.state = 1 ∧
      running.eng.pairs.any (fun e => e.2.service.isSome) = true ∧
      (let idle := w (fun x => { x with target := 1, d1Idle := 16 })
       idle.td.now = idle.td.tickClk ∧ idle.pwr.state = 0 ∧ idle.eng.pairs.any (fun e => e.2.service.isSome) = false ∧ 16 ≤ idle.pwr.d1Idle)) ∧
    ((busy 0 1).pwr.stage = .serving ∧ (busy 0 1).pwr.moving ≤ 1 ∧ (busy 0 1).pwr.state ≠ 2 ∧ 2 ≤ (busy 0 2).pwr.moving ∧
      sleepDrained (partMod (busy 0 2) 0 (fun x => { x with st := .quiesced, why := 3 })) = false ∧ sleepDrained (quiet (busy 0 2)) = true ∧ (quiet (busy 2 3)).pwr.state = 2 ∧
      sleepDrained (quiet (busy 2 3)) = true ∧ (busy 2 0).pwr.state = 2 ∧
      (∀ c, c < 136 → owesTraining (chanGet (busy 2 0) c) = false)) ∧
    ((partGet (quiet (busy 2 0)) 0).st = .quiesced ∧ (partGet (quiet (busy 2 0)) 0).why = 3) ∧
    (asleep.pwr.stage = .serving ∧ asleep.pwr.state = 3 ∧ (0x60 : BitVec 7).toNat = 0x60 + asleep.pwr.straps ∧ asleep.pwr.straps < 4 ∧
      ((0x01 : Byte) ∈ [0x01, 0x10, 0x11, 0x12] ∧ (0x02 : Byte) ∉ [0x01, 0x10, 0x11, 0x12]) ∧ (w id).pwr.waking = false ∧
      (w (fun x => { x with waking := true })).pwr.waking = true ∧ asleep.pwr.rstHigh = true ∧ asleep.pwr.refclk = true ∧ (withPwr (fun x => { x with state := 3, rstHigh := false })).pwr.rstHigh = false) ∧
    (railsUp (w id) = true ∧ (w id).pwr.state < 4 ∧ (w id).pwr.lastRst < 16 ∧
      railsUp (w (fun x => { x with stage := .off })) = false) ∧
    (railsUp (alert false) = true ∧ (alert false).pwr.alertAnswered = false ∧ (alert false).pwr.fault &&& (alert false).pwr.alertMask ≠ 0 ∧
      (alert true).pwr.alertAnswered = true ∧ (w id).pwr.fault &&& (w id).pwr.alertMask = 0) := by
  refine ⟨?_, ?_, ?_, ?_, ?_, ?_, ?_⟩ <;> decide +kernel

theorem witness_BootCounterCountsColdPowerOnsAlone :
    let s := withPwr (fun w => { w with stage := .off, rstHigh := true, refclk := true })
    s.pwr.stage = .off ∧ s.pwr.rstHigh = true ∧ s.pwr.refclk = true ∧
      exec .relock s = .next (nextOf (exec .relock s)) := ⟨by decide, by decide, by decide, rfl⟩

/-! ### The spec's worked examples -/

/-- "Decoding one address" (spec/08_stack_controllers.md), and its LOC in the log (spec/12_data_integrity.md). -/
theorem test_decodeAddress :
    dramBank demo.stk.xmapAct 0x9ABCD5C0 = 42 ∧ dramRow 0x9ABCD5C0 = 39612 ∧ dramCol 0x9ABCD5C0 = 7 ∧
      bankGroup 42 % 4 = 2 ∧ bankSid 42 = 2 ∧ dramAddr demo.stk.xmapAct 39612 42 7 = 0x9ABCD5C0 ∧
      dramLoc demo 45 0x9ABCD5C0 = 0x4DA89ABC := by decide +kernel

/-- "Decoding a hedge address" (spec/01_pool_structure.md): hedge 12 over hedges 13 and 14 over slices 40 to 47. -/
theorem test_decodeHedgeAddress :
    let four := fun (h a : Nat) => ({ hedge := h, mode := 2, members := (List.range 4).map (fun i => (false, a + i)) } : HedgeRec)
    let l : Layout := { hedges := [{ hedge := 12, mode := 3, members := [(true, 13), (true, 14)] }, four 13 40, four 14 44] }
    hedgePlace l 12 0x31234 = some (45, 0x4234) := by decide +kernel

/-- "A miss in partition 3" (spec/09_flash_tier.md): the map entry before and after the fetch. -/
theorem test_granuleEntry :
    let l : FlashLoc := { block := ((5 * 8 + 2) * 4 + 0) * 131072 + 18437, page := 611 }
    granWord { st := .flash, loc := some l } = 0x2000001504805263 ∧
      granWord { st := .cached, frame := 131077, loc := some l } = 0x404000B504805263 := by decide +kernel

/-- "A flow that saves, spends and borrows" (spec/03_frames_and_allotments.md): a 4 KiB read costs 1 + 17 units, and the
HEADROOM of 6 units is 0x3, of −12 units 0x0. -/
theorem test_readCost :
    costOf demo { pkt := readOf 0 4096, origin := .fabric 0 } = 18 ∧
      headroomNow (withFlow (fun f => { f with credit := 6 })) (flowNat 0 false 66) = 3 ∧
      headroomNow (withFlow (fun f => { f with credit := -12 })) (flowNat 0 false 66) = 0 := by decide +kernel

end Sys2Proof.Tests
end

section
/-! PROOFS. Register accesses of the management paths: misshapen accesses and SYS_ACCERR (R9, R417), the 64-bit pairs
(R10). First the rules of one path's state, then what one read or write of a register does, case by case. -/

namespace Sys2Proof.Proofs

open Sys2Proof.Machine Sys2Proof.Laws

/-! ### The state of one path -/

section PathState

variable (s : State) (path : Path)

@[simp] theorem pathMod_pathMod (f g : PathState → PathState) :
    pathMod (pathMod s path f) path g = pathMod s path (fun x => g (f x)) := by
  cases path <;> rfl

/-- Only what an update makes of the path's present state counts. -/
theorem pathMod_congr {f g : PathState → PathState} (h : f (pathGet s path) = g (pathGet s path)) :
    pathMod s path f = pathMod s path g := by
  unfold pathMod
  rw [h]

@[simp] theorem pathGet_seenClk (clk : Nat) : pathGet (seenClk s clk) path = pathGet s path := by
  cases path <;> rfl

@[simp] theorem pathRuns_seenClk (clk : Nat) : pathRuns (seenClk s clk) path = pathRuns s path := by
  cases path <;> rfl

end PathState

/-! ### Access errors (R9, R417) -/

section AccessErrors

variable {s : State} {path : Path} {off width clk : Nat} {v : Word}

theorem accessRefused_of_misshapen (h : width ≠ 4 ∨ off % 4 ≠ 0) : accessRefused s off width = some accWidth :=
  if_pos h

theorem accessRefused_of_serving (hserv : s.pwr.stage = .serving) (hoff : off % 4 = 0) :
    accessRefused s off 4 = none := by
  simp [accessRefused, hserv, hoff]

theorem writeReg_of_misshapen (hruns : pathRuns s path = true) (h : width ≠ 4 ∨ off % 4 ≠ 0) :
    writeReg s path off width v clk = recordErr s path accWidth off := by
  simp [writeReg, hruns, accessRefused_of_misshapen h]

theorem readReg_of_misshapen (hruns : pathRuns s path = true) (h : width ≠ 4 ∨ off % 4 ≠ 0) :
    readReg s path off width clk = (took (recordErr s path accWidth off) path 0, 0) := by
  simp [readReg, hruns, accessRefused_of_misshapen h]

/-- R417 by cases: the flag was clear; an earlier error of this clk stands; this is the first of the clk. -/
theorem errAfter_eq (a : AccErr) (now : Bool) (cause : Nat) :
    errAfter a (!now) cause off =
      if a.err = false then { err := true, cause := cause, off := off % 2 ^ 25 }
      else if now then a else { a with later := some (cause, off % 2 ^ 25) } := by
  cases herr : a.err <;> cases now <;> simp [errAfter, herr]

/-- A write of 1 to ERR goes to the path's own record. -/
theorem writeReg_sysAccErr (hruns : pathRuns s path = true) (hserv : s.pwr.stage = .serving)
    (hbit : v.getLsbD 31 = true) :
    writeReg s path 0x004 4 v clk =
      pathMod s path (fun x => { x with acc := errCleared x.acc (setNow s (pathCode path)) }) := by
  have hlo : isLo 0x004 = false := by decide
  have hhi : isHi 0x004 = false := by decide
  have hspace : writeSpace s path 0x004 v clk =
      .ok (pathMod s path (fun x => { x with acc := errCleared x.acc (setNow s (pathCode path)) })) := by
    simp [writeSpace, writeSys, hbit]
  simp [writeReg, hruns, accessRefused_of_serving hserv, hlo, hhi, hspace]

/-- In a clk without an error of the path, ERR falls and CAUSE and OFFSET stand. -/
theorem errCleared_of_quiet_clk (a : AccErr) : errCleared a false = { a with err := false, later := none } := rfl

/-- In a clk with an error of the path, ERR stays and that error becomes the record. -/
theorem errCleared_of_later {a b c o : Nat} :
    errCleared { err := true, cause := a, off := b, later := some (c, o) } true =
      { err := true, cause := c, off := o } := rfl

end AccessErrors

/-- Settles O9: a misshapen access is refused before it reaches a register, so its error record is all it leaves; a
write of 1 to ERR reaches that record and does to it what `errCleared` says. -/
theorem misshapenAccessIsIgnored : Obligations.MisshapenAccessIsIgnored := by
  intro path off width v clk s hruns n now flagged
  have hn : pathRuns n path = true := by simpa [n] using hruns
  have hrec : recordErr n path accWidth off = pathMod (noteFlags n [pathCode path]) path flagged := by
    simp only [recordErr, errAfter_eq]
    rfl
  refine ⟨fun hbad => ⟨?_, ?_⟩, fun hserv hbit => ?_⟩
  · exact congrArg _ ((writeReg_of_misshapen hn hbad).trans hrec)
  · show Host.Outcome.next (readReg n path off width clk).1 = _
    rw [readReg_of_misshapen hn hbad, hrec, took, pathMod_pathMod]
  · have hclear : exec (.registerWrite path 0x004 4 v clk) s =
        .next (pathMod n path (fun x => { x with acc := errCleared x.acc now })) :=
      congrArg _ (writeReg_sysAccErr hn hserv hbit)
    refine ⟨fun hquiet => ?_, fun herr a b c o hacc => ?_⟩
    · rw [hclear, hquiet]
      simp only [errCleared_of_quiet_clk]
    · have hacc' : (pathGet n path).acc = { err := true, cause := a, off := b, later := some (c, o) } := by
        simpa [n] using hacc
      rw [hclear, herr]
      exact congrArg _ (pathMod_congr n path (by rw [hacc', errCleared_of_later]))

/-! ### Pairs of registers (R10) -/

section PairOffsets

variable {lo : Nat}

theorem mod_four_of_isLo (h : isLo lo = true) : lo % 4 = 0 := by
  simp [isLo] at h
  omega

/-- The _HI of a pair is no _LO of another. -/
theorem isLo_add_four (h : isLo lo = true) : isLo (lo + 4) = false := by
  simp [isLo] at h ⊢
  omega

theorem isHi_add_four (h : isLo lo = true) : isHi (lo + 4) = true := by
  simpa [isHi] using h

/-- Outside XL_PTE and LG_ENTRY a read finds nothing in the reserves. -/
theorem readStored_of_outside (s : State) (path : Path) {off : Nat} (hpte : off ≠ 0x100684)
    (hentry : off < 0x100980 ∨ 0x100A00 ≤ off) : readStored s path off = s := by
  have hnone : arrayAt off 0x100980 32 = none := by
    simp only [arrayAt, ite_eq_right_iff, reduceCtorEq, imp_false]
    omega
  simp [readStored, hpte, hnone]

theorem readStored_of_isLo (s : State) (path : Path) (h : isLo lo = true) : readStored s path lo = s := by
  simp [isLo] at h
  exact readStored_of_outside s path (by omega) (by omega)

theorem readStored_add_four_of_isLo (s : State) (path : Path) (h : isLo lo = true) :
    readStored s path (lo + 4) = s := by
  simp [isLo] at h
  exact readStored_of_outside s path (by omega) (by omega)

end PairOffsets

section PairAccesses

variable {s : State} {path : Path} {lo clk : Nat} {w h u v : Word}

theorem accessRefused_lo (hserv : s.pwr.stage = .serving) (hlo : isLo lo = true) : accessRefused s lo 4 = none :=
  accessRefused_of_serving hserv (mod_four_of_isLo hlo)

theorem accessRefused_hi (hserv : s.pwr.stage = .serving) (hlo : isLo lo = true) :
    accessRefused s (lo + 4) 4 = none :=
  accessRefused_of_serving hserv (by have := mod_four_of_isLo hlo; omega)

theorem readReg_lo (hruns : pathRuns s path = true) (hserv : s.pwr.stage = .serving) (hlo : isLo lo = true)
    (hw : readSpace s path lo = .ok w) (hh : readSpace s path (lo + 4) = .ok h) :
    (readReg s path lo 4 clk).1 = pathMod s path (fun x => { x with
      latch := some (lo + 4, h), data := w, ptSub := if lo = 0x3010 then subOf s clk % 2 ^ 14 else x.ptSub }) := by
  by_cases hpt : lo = 0x3010
  · subst hpt
    simp [readReg, hruns, accessRefused_lo hserv hlo, readStored_of_isLo s path hlo, hw, hh, hlo, took, subOf]
  · simp [readReg, hruns, accessRefused_lo hserv hlo, readStored_of_isLo s path hlo, hw, hh, hlo, took, hpt]

theorem readReg_hi_of_latch (hruns : pathRuns s path = true) (hserv : s.pwr.stage = .serving) (hlo : isLo lo = true)
    (hw : readSpace s path (lo + 4) = .ok w) (hlatch : (pathGet s path).latch = some (lo + 4, h)) :
    (readReg s path (lo + 4) 4 clk).1 = pathMod s path (fun x => { x with latch := none, data := h }) := by
  simp [readReg, hruns, accessRefused_hi hserv hlo, readStored_add_four_of_isLo s path hlo, hw, isLo_add_four hlo,
    isHi_add_four hlo, hlatch, took]

theorem readReg_hi_of_no_latch (hruns : pathRuns s path = true) (hserv : s.pwr.stage = .serving)
    (hlo : isLo lo = true) (hw : readSpace s path (lo + 4) = .ok w)
    (hlatch : ∀ h, (pathGet s path).latch ≠ some (lo + 4, h)) :
    (readReg s path (lo + 4) 4 clk).1 = pathMod s path (fun x => { x with data := w }) := by
  rcases hl : (pathGet s path).latch with _ | ⟨a, h⟩
  · simp [readReg, hruns, accessRefused_hi hserv hlo, readStored_add_four_of_isLo s path hlo, hw, isLo_add_four hlo,
      isHi_add_four hlo, hl, took]
  · have ha : a ≠ lo + 4 := fun e => hlatch h (e ▸ hl)
    simp [readReg, hruns, accessRefused_hi hserv hlo, readStored_add_four_of_isLo s path hlo, hw, isLo_add_four hlo,
      isHi_add_four hlo, hl, ha, took]

theorem writeReg_lo (hruns : pathRuns s path = true) (hserv : s.pwr.stage = .serving) (hlo : isLo lo = true)
    (hw : readSpace s path lo = .ok w) :
    writeReg s path lo 4 v clk =
      if heldLo lo then pathMod s path (fun x => { x with held := some (lo, v) }) else s := by
  simp [writeReg, hruns, accessRefused_lo hserv hlo, hlo, hw]

theorem writeReg_hi_of_held (hruns : pathRuns s path = true) (hserv : s.pwr.stage = .serving) (hlo : isLo lo = true)
    (hw : readSpace s path (lo + 4) = .ok w) (hheld : (pathGet s path).held = some (lo, u)) :
    writeReg s path (lo + 4) 4 v clk =
      commitPair (pathMod s path (fun x => { x with held := none })) path lo u v := by
  simp [writeReg, hruns, accessRefused_hi hserv hlo, hw, isLo_add_four hlo, isHi_add_four hlo, hheld]

theorem writeReg_hi_of_not_held (hruns : pathRuns s path = true) (hserv : s.pwr.stage = .serving)
    (hlo : isLo lo = true) (hw : readSpace s path (lo + 4) = .ok w) (hu : readSpace s path lo = .ok u)
    (hheld : ∀ x, (pathGet s path).held ≠ some (lo, x)) :
    writeReg s path (lo + 4) 4 v clk = commitPair s path lo u v := by
  rcases hl : (pathGet s path).held with _ | ⟨a, x⟩
  · simp [writeReg, hruns, accessRefused_hi hserv hlo, hw, isLo_add_four hlo, isHi_add_four hlo, hl, lowNow, hu]
  · have ha : a ≠ lo := fun e => hheld x (e ▸ hl)
    simp [writeReg, hruns, accessRefused_hi hserv hlo, hw, isLo_add_four hlo, isHi_add_four hlo, hl, ha, lowNow, hu]

theorem exec_writeLoHeld (hlo : isLo lo = true) :
    exec (.writeLoHeld path lo v) s = .next (writeReg s path lo 4 v s.td.now) :=
  congrArg _ (if_pos hlo)

theorem exec_writeHiCommit (hlo : isLo lo = true) :
    exec (.writeHiCommit path (lo + 4) v clk) s = .next (writeReg (seenClk s clk) path (lo + 4) 4 v clk) :=
  congrArg _ (if_pos (isHi_add_four hlo))

end PairAccesses

/-- Settles O10: no pair overlaps another or a register kept in the reserves, so each access reaches the latch or the
held word of its own pair. -/
theorem pairsLatchAndCommit : Obligations.PairsLatchAndCommit := by
  intro path lo clk s hlo hserv hruns n
  have hn : pathRuns n path = true := by simpa [n] using hruns
  have hget : pathGet n path = pathGet s path := pathGet_seenClk s path clk
  refine ⟨?readLo, ?readHiLatched, ?readHi, ?writeLo, ?writeHiHeld, ?writeHi⟩
  case readLo =>
    intro w h hw hh
    exact congrArg _ (readReg_lo hn hserv hlo hw hh)
  case readHiLatched =>
    intro w h hw hlatch
    exact congrArg _ (readReg_hi_of_latch hn hserv hlo hw (hget ▸ hlatch))
  case readHi =>
    intro w hw hlatch
    exact congrArg _ (readReg_hi_of_no_latch hn hserv hlo hw (hget ▸ hlatch))
  case writeLo =>
    intro w v hw
    rw [exec_writeLoHeld hlo, writeReg_lo hruns hserv hlo hw]
  case writeHiHeld =>
    intro w v u hw hheld
    rw [exec_writeHiCommit hlo, writeReg_hi_of_held hn hserv hlo hw (hget ▸ hheld)]
  case writeHi =>
    intro w u v hw hu hheld
    rw [exec_writeHiCommit hlo, writeReg_hi_of_not_held hn hserv hlo hw hu (hget ▸ hheld)]

end Sys2Proof.Proofs
end

section
/-! PROOFS. The byte memories and the selects: every command keeps to its frame, so every step keeps the memories
canonical (R17, R254, R309, R415); a byte stored reads back (R17, R254); a select write stays on its path (R38, R40 to
R43). -/

namespace Sys2Proof.Proofs

open Sys2Proof.Machine Sys2Proof.Laws

/-! ### Canonical memories -/

/-- Every command keeps to the frame that `mayTouch` gives it. -/
theorem exec_touches (c : Instr) (s : State) : OutTouches (mayTouch c) s (exec c s) :=
  match c with
  | .registerWrite .. => frame_registerWrite
  | .readLoLatch .. => frame_readLoLatch
  | .writeLoHeld .. => frame_writeLoHeld
  | .writeHiCommit .. => frame_writeHiCommit
  | .engSelWrite .. => frame_engSelWrite
  | .commandPartEnd .. => frame_commandPartEnd
  | .imageGo .. => frame_imageGo
  | .imageAbort .. => frame_imageAbort
  | .imageFloor .. => frame_imageFloor
  | .imageVerifyDone .. => frame_imageVerifyDone
  | .partitionDrainDone .. => frame_partitionDrainDone
  | .drainTimeout .. => frame_drainTimeout
  | .partitionFillDone .. => frame_partitionFillDone
  | .wholeDeviceFillDone .. => frame_wholeDeviceFillDone
  | .frmSyncEdge .. => frame_frmSyncEdge
  | .frameTick .. => frame_frameTick
  | .relock .. => frame_relock
  | .freerunWrite .. => frame_freerunWrite
  | .syncErrClear .. => frame_syncErrClear
  | .requestArrival .. => frame_requestArrival
  | .flowAdmit .. => frame_flowAdmit
  | .redRemeter .. => frame_redRemeter
  | .wheelRelease .. => frame_wheelRelease
  | .gateWindowOpen .. => frame_gateWindowOpen
  | .flowLimitWrite .. => frame_flowLimitWrite
  | .fecBlockReceive .. => frame_fecBlockReceive
  | .flitSend .. => frame_flitSend
  | .replayTimeout .. => frame_replayTimeout
  | .creditTimeout .. => frame_creditTimeout
  | .trainEnd .. => frame_trainEnd
  | .initReceive .. => frame_initReceive
  | .linkResetTimeout .. => frame_linkResetTimeout
  | .laneLossOfLock .. => frame_laneLossOfLock
  | .kxRetrain .. => frame_kxRetrain
  | .kxFresh .. => frame_kxFresh
  | .kxClear .. => frame_kxClear
  | .kxHoldWrite .. => frame_kxHoldWrite
  | .kxLanePrune .. => frame_kxLanePrune
  | .kxLaneRestore .. => frame_kxLaneRestore
  | .packetRoute .. => frame_packetRoute
  | .outputArbitration .. => frame_outputArbitration
  | .mcWr .. => frame_mcWr
  | .mcSig .. => frame_mcSig
  | .rd .. => frame_rd
  | .wr .. => frame_wr
  | .atom .. => frame_atom
  | .nearBankAccess .. => frame_nearBankAccess
  | .rdS .. => frame_rdS
  | .rdX .. => frame_rdX
  | .upg .. => frame_upg
  | .wb .. => frame_wb
  | .evct .. => frame_evct
  | .snpRsp .. => frame_snpRsp
  | .snpData .. => frame_snpData
  | .fwdData .. => frame_fwdData
  | .grantAcknowledgement .. => frame_grantAcknowledgement
  | .cohAnswerTimeout .. => frame_cohAnswerTimeout
  | .fenceSweepLine .. => frame_fenceSweepLine
  | .flush .. => frame_flush
  | .flushRelease .. => frame_flushRelease
  | .publish .. => frame_publish
  | .publishDecide .. => frame_publishDecide
  | .acquire .. => frame_acquire
  | .pubClear .. => frame_pubClear
  | .channelRequestEnqueue .. => frame_channelRequestEnqueue
  | .dramCommandIssue .. => frame_dramCommandIssue
  | .dramReadData .. => frame_dramReadData
  | .idlePrecharge .. => frame_idlePrecharge
  | .refreshAccrual .. => frame_refreshAccrual
  | .trainingPiece .. => frame_trainingPiece
  | .sidPowerDown .. => frame_sidPowerDown
  | .rowRepair .. => frame_rowRepair
  | .stkPrune .. => frame_stkPrune
  | .stkGraft .. => frame_stkGraft
  | .stkClear .. => frame_stkClear
  | .channelCopyPiece .. => frame_channelCopyPiece
  | .flashDiscovery .. => frame_flashDiscovery
  | .flashFetchDone .. => frame_flashFetchDone
  | .flashWritebackStart .. => frame_flashWritebackStart
  | .flashWritebackDone .. => frame_flashWritebackDone
  | .flashReclaim .. => frame_flashReclaim
  | .flashWearLevel .. => frame_flashWearLevel
  | .flashRefreshMove .. => frame_flashRefreshMove
  | .flashProgramFail .. => frame_flashProgramFail
  | .flashEraseDone .. => frame_flashEraseDone
  | .flashChannelPrune .. => frame_flashChannelPrune
  | .flGraft .. => frame_flGraft
  | .flClear .. => frame_flClear
  | .fill .. => frame_fill
  | .copy .. => frame_copy
  | .cmp .. => frame_cmp
  | .red .. => frame_red
  | .score .. => frame_score
  | .topk .. => frame_topk
  | .gather .. => frame_gather
  | .cvt .. => frame_cvt
  | .prog .. => frame_prog
  | .halt .. => frame_halt
  | .run .. => frame_run
  | .adda .. => frame_adda
  | .setc .. => frame_setc
  | .loop .. => frame_loop
  | .mova .. => frame_mova
  | .imemRewriteDone .. => frame_imemRewriteDone
  | .engResume .. => frame_engResume
  | .engPrune .. => frame_engPrune
  | .engClear .. => frame_engClear
  | .sqEnable .. => frame_sqEnable
  | .sqDisable .. => frame_sqDisable
  | .sqRestart .. => frame_sqRestart
  | .sqClear .. => frame_sqClear
  | .cmdPiSample .. => frame_cmdPiSample
  | .sqTake .. => frame_sqTake
  | .completionPop .. => frame_completionPop
  | .tileTranslate .. => frame_tileTranslate
  | .translationWalkDone .. => frame_translationWalkDone
  | .unmap .. => frame_unmap
  | .map .. => frame_map
  | .move .. => frame_move
  | .mappingWithdrawDone .. => frame_mappingWithdrawDone
  | .patrolScrubRead .. => frame_patrolScrubRead
  | .demandScrub .. => frame_demandScrub
  | .sramScrub .. => frame_sramScrub
  | .diLogClear .. => frame_diLogClear
  | .diClear .. => frame_diClear
  | .diInjectArm .. => frame_diInjectArm
  | .ethFrameReceive .. => frame_ethFrameReceive
  | .rdmaWrite .. => frame_rdmaWrite
  | .rdmaRead .. => frame_rdmaRead
  | .rdmaAtomic .. => frame_rdmaAtomic
  | .controlSend .. => frame_controlSend
  | .ethAckReceive .. => frame_ethAckReceive
  | .ethAckTimeout .. => frame_ethAckTimeout
  | .ethRnrResend .. => frame_ethRnrResend
  | .ethQpStateWrite .. => frame_ethQpStateWrite
  | .ethPhyWrite .. => frame_ethPhyWrite
  | .mgmtQpAccess .. => frame_mgmtQpAccess
  | .quote .. => frame_quote
  | .quoteDone .. => frame_quoteDone
  | .keyset .. => frame_keyset
  | .keysetInstallDone .. => frame_keysetInstallDone
  | .exchangeKeyExpiry .. => frame_exchangeKeyExpiry
  | .owner .. => frame_owner
  | .seal .. => frame_seal
  | .sealDone .. => frame_sealDone
  | .fwStage .. => frame_fwStage
  | .fwActivate .. => frame_fwActivate
  | .fwCommit .. => frame_fwCommit
  | .fwRollback .. => frame_fwRollback
  | .ledgerHeldAppend .. => frame_ledgerHeldAppend
  | .lgTailWrite .. => frame_lgTailWrite
  | .heartbeatSend .. => frame_heartbeatSend
  | .heartbeat .. => frame_heartbeat
  | .burstSend .. => frame_burstSend
  | .burstReceive .. => frame_burstReceive
  | .peerFailureDeclare .. => frame_peerFailureDeclare
  | .leadClaim .. => frame_leadClaim
  | .twnLeadRelease .. => frame_twnLeadRelease
  | .twnRelease .. => frame_twnRelease
  | .twnClear .. => frame_twnClear
  | .twinPub .. => frame_twinPub
  | .twinPublishDecide .. => frame_twinPublishDecide
  | .twinWr .. => frame_twinWr
  | .twinCmp .. => frame_twinCmp
  | .followerAckTimeout .. => frame_followerAckTimeout
  | .shadowExpiry .. => frame_shadowExpiry
  | .resyncStart .. => frame_resyncStart
  | .twinCopyRead .. => frame_twinCopyRead
  | .twinCopyData .. => frame_twinCopyData
  | .fenceAdd .. => frame_fenceAdd
  | .fenceClear .. => frame_fenceClear
  | .halfReset .. => frame_halfReset
  | .partitionReset .. => frame_partitionReset
  | .resetCancel .. => frame_resetCancel
  | .resetReady .. => frame_resetReady
  | .spareGraft .. => frame_spareGraft
  | .wdtKick .. => frame_wdtKick
  | .watchdogExpiry .. => frame_watchdogExpiry
  | .mgmtParityError .. => frame_mgmtParityError
  | .coldPowerOn .. => frame_coldPowerOn
  | .hardwareFillDone .. => frame_hardwareFillDone
  | .bootImageLoad .. => frame_bootImageLoad
  | .bootImageApply .. => frame_bootImageApply
  | .powerLoss .. => frame_powerLoss
  | .overvoltageShutdown .. => frame_overvoltageShutdown
  | .rstNAssert .. => frame_rstNAssert
  | .rstNRelease .. => frame_rstNRelease
  | .thermalTrip .. => frame_thermalTrip
  | .powerTargetD0 .. => frame_powerTargetD0
  | .powerTargetD1 .. => frame_powerTargetD1
  | .powerTargetD2 .. => frame_powerTargetD2
  | .powerTargetD3 .. => frame_powerTargetD3
  | .d1AutoReturn .. => frame_d1AutoReturn
  | .powerTransitionDone .. => frame_powerTransitionDone
  | .smbusWake .. => frame_smbusWake
  | .smbReadByte .. => frame_smbReadByte
  | .smbRegisterWrite .. => frame_smbRegisterWrite
  | .smbSetReadOffset .. => frame_smbSetReadOffset
  | .smbRegisterRead .. => frame_smbRegisterRead
  | .alertResponse .. => frame_alertResponse
  | .mapDone .. => frame_mapDone
  | .ethPortTrainingDone .. => frame_ethPortTrainingDone
  | .ethPortLinkLoss .. => frame_ethPortLinkLoss
  | .flashMoveDone .. => frame_flashMoveDone
  | .refclkStable .. => frame_refclkStable
  | .overvoltageRelease .. => frame_overvoltageRelease

theorem exec_keeps_wf {c : Instr} {s t : State} (hwf : Memory.wf s = true) (h : exec c s = .next t) :
    Memory.wf t = true := by
  obtain ⟨-, hkeep⟩ := exec_touches c s t h
  exact hkeep hwf

/-- Settles O5: an idle step changes nothing, and any other runs one command, whose frame keeps the memories
canonical. -/
theorem stepKeepsMemoryCanonical : Obligations.StepKeepsMemoryCanonical := by
  intro s t hwf hstep
  unfold step at hstep
  split at hstep
  next => exact Host.Outcome.next.inj hstep ▸ hwf
  next c rest _ => exact exec_keeps_wf (s := { s with pending := rest }) hwf hstep

/-! ### The last store -/

theorem byteKey_eq_iff {sl a sl' a' : Nat} (ha : a < 2 ^ 33) (ha' : a' < 2 ^ 33) :
    byteKey sl' a' = byteKey sl a ↔ (sl', a') = (sl, a) := by
  simp only [byteKey, Prod.mk.injEq]
  omega

theorem nearByteKey_eq_iff {sl a sl' a' : Nat} (ha : a < 2 ^ 20) (ha' : a' < 2 ^ 20) :
    nearByteKey sl' a' = nearByteKey sl a ↔ (sl', a') = (sl, a) := by
  simp only [nearByteKey, Prod.mk.injEq]
  omega

/-- Settles O8: bytes of different places have different keys. -/
theorem memoryReadsBackTheLastStore : Obligations.MemoryReadsBackTheLastStore := by
  refine ⟨fun s sl a b ha => ⟨?_, fun sl' a' ha' hne => ?_⟩, fun s sl a b ha => ⟨?_, fun sl' a' ha' hne => ?_⟩⟩
  · rw [dramByte_dramSetByte, if_pos rfl]
  · rw [dramByte_dramSetByte, if_neg (mt (byteKey_eq_iff ha ha').1 hne)]
  · rw [nearByte_nearSetByte, if_pos rfl]
  · rw [nearByte_nearSetByte, if_neg (mt (nearByteKey_eq_iff ha ha').1 hne)]

/-! ### Selects (R40 to R43) -/

section Selects

variable {s t : State} {path : Path} {off clk : Nat} {v : Word}

theorem fld_eq_toNat_extractLsb' (lo len : Nat) : fld v lo len = (v.extractLsb' lo len).toNat :=
  (BitVec.extractLsb'_toNat ..).symm

@[simp] theorem pathMod_unchanged : pathMod s path (fun x => x) = s := by
  cases path <;> rfl

/-- A write that reaches a register of 32 bits leaves what the register's block makes of it. -/
theorem writeReg_of_writeSpace (hruns : pathRuns s path = true) (hserv : s.pwr.stage = .serving) (halign : off % 4 = 0)
    (hlo : isLo off = false) (hhi : isHi off = false) (hspace : writeSpace s path off v clk = .ok t) :
    writeReg s path off 4 v clk = t := by
  simp [writeReg, hruns, accessRefused_of_serving hserv halign, hlo, hhi, hspace]

/-- What ENG_SEL takes of a written word: MODE and INDEX, unless MODE is the reserved one (R41). -/
def engSelTaken (v : Word) (x : PathState) : PathState :=
  if v.extractLsb' 30 2 = 3 then x
  else { x with engMode := (v.extractLsb' 30 2).toNat, engIndex := (v.extractLsb' 0 9).toNat }

theorem writeEngSel_eq : writeEngSel s path v = pathMod s path (engSelTaken v) := by
  have hmode : fld v 30 2 = 3 ↔ v.extractLsb' 30 2 = 3 := by
    rw [fld_eq_toNat_extractLsb', ← BitVec.toNat_inj]
    rfl
  unfold writeEngSel engSelTaken
  by_cases hres : v.extractLsb' 30 2 = 3
  · simp only [hmode, if_pos hres, pathMod_unchanged]
  · rw [if_neg (mt hmode.1 hres)]
    simp only [if_neg hres, fld_eq_toNat_extractLsb']

theorem writeReg_partSel (hruns : pathRuns s path = true) (hserv : s.pwr.stage = .serving) :
    writeReg s path 0x1000 4 v clk = pathMod s path (fun x => { x with partSel := (v.extractLsb' 0 5).toNat }) := by
  refine writeReg_of_writeSpace hruns hserv rfl (by decide) (by decide) ?_
  rw [← fld_eq_toNat_extractLsb']
  rfl

theorem writeReg_engSel (hruns : pathRuns s path = true) (hserv : s.pwr.stage = .serving) :
    writeReg s path 0x1004 4 v clk = pathMod s path (engSelTaken v) := by
  refine writeReg_of_writeSpace hruns hserv rfl (by decide) (by decide) ?_
  rw [← writeEngSel_eq]
  rfl

theorem writeReg_kxSel (hruns : pathRuns s path = true) (hserv : s.pwr.stage = .serving) :
    writeReg s path 0x1008 4 v clk = pathMod s path (fun x => { x with kxSel := (v.extractLsb' 0 3).toNat }) := by
  refine writeReg_of_writeSpace hruns hserv rfl (by decide) (by decide) ?_
  rw [← fld_eq_toNat_extractLsb']
  rfl

theorem writeReg_stkSel (hruns : pathRuns s path = true) (hserv : s.pwr.stage = .serving) :
    writeReg s path 0x100C 4 v clk =
      pathMod s path (fun x => { x with stkRel := v.getLsbD 31, stkIndex := (v.extractLsb' 0 8).toNat }) := by
  refine writeReg_of_writeSpace hruns hserv rfl (by decide) (by decide) ?_
  rw [← fld_eq_toNat_extractLsb']
  rfl

end Selects

/-- Settles O11: each select stands at an offset of its own, its block's function changes the state of the writing path
alone, and every path's state is a field of its own. -/
theorem selectWritesStayOnTheirPath : Obligations.SelectWritesStayOnTheirPath := by
  intro path v clk s hserv hruns n eng
  have hn : pathRuns n path = true := by simpa [n] using hruns
  refine ⟨?partSel, ?engSel, ?engSelWrite, ?kxSel, ?stkSel, ?otherPath⟩
  case partSel => exact congrArg _ (writeReg_partSel hn hserv)
  case engSel => exact congrArg _ (writeReg_engSel hn hserv)
  case engSelWrite => exact congrArg _ (writeReg_engSel hruns hserv)
  case kxSel => exact congrArg _ (writeReg_kxSel hn hserv)
  case stkSel => exact congrArg _ (writeReg_stkSel hn hserv)
  case otherPath =>
    intro f other hother
    rw [pathGet_pathMod, if_neg hother]

end Sys2Proof.Proofs
end

section
/-! PROOFS. Admission and answers: what ends a request leaves alone, the answer that returns to its source (R36, R144,
R145), and the head that a flow admits (R30, R92, R96, R103). -/

namespace Sys2Proof.Proofs

open Sys2Proof.Machine Sys2Proof.Laws

/-! ### How a request ends -/

section Endings

variable {M : Mask} {s0 s : State} {req : Request} {v : Service} {a : Ans} {taken : Option Nat}

/-- How a request in service ends: out of service, and answered with what it ends with, or with FENCED; where its
requester is fenced, perhaps with nothing (R382). -/
theorem finish_eq_or (s : State) (v : Service) (a : Ans) : finish s v a = dropSvc s v.ticket ∨
    ∃ b : Ans, (b = a ∨ b.status = .fenced) ∧ finish s v a = noteLeaving (answerRequest
      (if b.status = .ok then dropSvc s v.ticket else noteTurned (dropSvc s v.ticket) v.req) v.req v.headroom b) v := by
  unfold finish
  extract_lets u k fenced b
  have hb : b = a ∨ b.status = .fenced := by
    simp only [b]
    split
    · exact .inr rfl
    · exact .inl rfl
  by_cases hnone : fenced = true ∧ b.status ≠ .fenced
  · exact .inl (if_pos hnone)
  · exact .inr ⟨b, hb, if_neg hnone⟩

/-- The request has left service; its answer may still touch what packets and queue pairs are made of. -/
theorem finish_touches_after_service : Touches Mask.endArrival (dropSvc s v.ticket) (finish s v a) := by
  have hdrop := Touches.refl Mask.endArrival (dropSvc s v.ticket)
  rcases finish_eq_or s v a with h | ⟨b, -, h⟩
  · rw [h]
    exact hdrop
  · rw [h]
    exact noteLeaving_touches (answerRequest_touches (touches_ite hdrop (noteTurned_touches hdrop rfl)) rfl) rfl

theorem finish_svc : (finish s v a).svc = s.svc.filter (fun x => x.ticket ≠ v.ticket) :=
  finish_touches_after_service.svc rfl

theorem finish_nextTicket : (finish s v a).nextTicket = s.nextTicket :=
  (finish_touches (Touches.refl Mask.finish s) rfl).nextTicket rfl

/-- A status that gives a host a fatal NAK and asks for nothing again (R330). -/
def Fatal (a : Ans) : Prop := a.status = .fault ∨ a.status = .fenced

theorem Fatal.ne_retry (ha : Fatal a) : a.status ≠ .retry := by
  rcases ha with h | h <;> simp [h]

theorem Fatal.ne_ok (ha : Fatal a) : a.status ≠ .ok := by
  rcases ha with h | h <;> simp [h]

theorem ethAck_touches_of_fatal {qi psn : Nat} {ack send : Bool} (ha : Fatal a) (h : Touches M s0 s)
    (w : Mask.le Mask.sendOwed M = true) : Touches M s0 (ethAck s qi psn ack send req a taken) := by
  unfold ethAck
  dsimp only
  split
  next => exact h
  next => rcases ha with ha | ha <;> simp only [ha] <;> exact fatalAnswer_touches h w

theorem ethReply_touches_of_fatal {qi psn : Nat} {atomic : Bool} {ps : List RocePacket} (ha : Fatal a)
    (h : Touches M s0 s) (w : Mask.le Mask.sendOwed M = true) :
    Touches M s0 (ethReply s qi psn atomic ps req a taken) := by
  unfold ethReply
  dsimp only
  split
  next => exact h
  next =>
    have hleft := touches_ite (p := openOwed (qpGet s qi) psn = true)
      (qpMod_touches (q := qi) (f := fun q => { q with outstanding := q.outstanding - 1 }) h (Mask.le_trans rfl w)) h
    rcases ha with ha | ha <;> simp only [ha] <;> exact fatalAnswer_touches hleft w

/-- What a fatal answer may change: no flow, for nothing is cut back or counted as a RETRY. -/
abbrev fatalMask : Mask :=
  { parts := true, ports := true, fab := true, eth := true, sec := true, out := true }

theorem answerRequest_touches_of_fatal (ha : Fatal a) (h : Touches M s0 s) (w : Mask.le fatalMask M = true) :
    Touches M s0 (answerRequest s req taken a) := by
  have howed : Mask.le Mask.sendOwed M = true := Mask.le_trans rfl w
  unfold answerRequest
  simp only [ha.ne_retry, ha.ne_ok, false_and, if_false]
  split
  next => exact injectOn_touches h (Mask.le_trans rfl w)
  next => exact ethAck_touches_of_fatal ha h howed
  next => exact ethReply_touches_of_fatal ha h howed
  next => exact ethReply_touches_of_fatal ha h howed
  next => exact ethControlEnd_touches h howed
  next => exact h

theorem finish_flows_of_fatal (ha : Fatal a) : (finish s v a).flows = s.flows := by
  have hdrop := Touches.refl { fatalMask with twn := true } (dropSvc s v.ticket)
  have htouches : Touches { fatalMask with twn := true } (dropSvc s v.ticket) (finish s v a) := by
    rcases finish_eq_or s v a with h | ⟨b, hb, h⟩
    · rw [h]
      exact hdrop
    · have hfatal : Fatal b := hb.elim (fun e => e ▸ ha) .inr
      rw [h]
      exact noteLeaving_touches (answerRequest_touches_of_fatal hfatal
        (touches_ite hdrop (noteTurned_touches hdrop rfl)) rfl) rfl
  exact htouches.flows rfl

end Endings

/-! ### The answer to a request of the fabric (R36, R144, R145) -/

section Answers

variable {s : State} {req : Request} {v : Service} {a : Ans} {taken : Option Nat} {p : Packet} {r : RingRec}
  {plane port out : Nat}

@[simp] theorem flowHost_flowNat (part : Nat) (host : Bool) (n : Nat) : flowHost (flowNat part host n) = host := by
  cases host <;> simp [flowHost, flowNat, bit01] <;> omega

@[simp] theorem flowReq_flowNat (part : Nat) (host : Bool) (n : Nat) : flowReq (flowNat part host n) = n % 4096 := by
  cases host <;> simp [flowReq, flowNat, bit01] <;> omega

/-- The state with another list of the publishes that a follower has turned away. -/
def withTurned (s : State) (l : List Nat) : State := { s with twn := { s.twn with turnedAway := l } }

/-- Noting a request that a follower turns away adds to one list of the twin's. -/
theorem noteTurned_eq (s : State) (req : Request) : ∃ l, noteTurned s req = withTurned s l := by
  unfold noteTurned
  extract_lets a twinned publish
  split
  · exact ⟨_, rfl⟩
  · exact ⟨s.twn.turnedAway, rfl⟩

/-- A packet whose port holds packets and whose partition seals none enters that port's queue as it is. -/
theorem injectOn_of_port (hring : s.img.layout.ring = some r) (hroute : routeAt r plane p.dest.toNat = .port out)
    (hholds : portHolds s out = true) (henc : fabEnc s p.part.toNat = false) :
    injectOn s plane false p = enqueueOut s r out 2 8 p s.td.now := by
  simp [injectOn, hring, hroute, hholds, sealPacket, henc]

theorem answerRequest_of_fabric (horigin : req.origin = .fabric port) (hretry : a.status ≠ .retry) :
    answerRequest s req taken a = injectOn s (port / 4) false (answerPacket s req taken a) := by
  simp [answerRequest, horigin, hretry]

/-- A requester that is not fenced is answered. -/
theorem finish_of_unfenced (horigin : v.req.origin = .fabric port)
    (hfence : isFenced s false v.req.pkt.src.toNat = false) :
    ∃ l, finish s v a =
      noteLeaving (answerRequest (withTurned (dropSvc s v.ticket) l) v.req v.headroom a) v := by
  have hsrc : v.req.pkt.src.toNat % 4096 = v.req.pkt.src.toNat := Nat.mod_eq_of_lt v.req.pkt.src.isLt
  unfold finish
  extract_lets u k fenced b
  have hopen : fenced = false := by
    simp only [fenced, k, requestFlow, horigin, flowHost_flowNat, flowReq_flowNat, hsrc]
    exact hfence
  have hb : b = a := if_neg (by simp [hopen])
  obtain ⟨l, hl⟩ : ∃ l, (if a.status = .ok then u else noteTurned u v.req) = withTurned u l := by
    split
    · exact ⟨s.twn.turnedAway, rfl⟩
    · exact noteTurned_eq u v.req
  refine ⟨l, ?_⟩
  rw [if_neg (by simp [hopen]), hb, hl]
  rfl

/-! The fields that an answer takes from its request, and those that it brings. -/

theorem answerPacket_dest : (answerPacket s req taken a).dest = req.pkt.src := by
  cases h : a.data <;> simp [answerPacket, newPacket, h]

theorem answerPacket_seq : (answerPacket s req taken a).seq = req.pkt.seq := by
  cases h : a.data <;> simp [answerPacket, newPacket, h]

theorem answerPacket_part : (answerPacket s req taken a).part = req.pkt.part := by
  cases h : a.data <;> simp [answerPacket, newPacket, h]

theorem answerPacket_status : (answerPacket s req taken a).status = BitVec.ofNat 4 (statusCode a.status) := rfl

theorem answerPacket_pktOp : pktOp (answerPacket s req taken a) = if a.data.isSome then .data else .cmp := by
  cases h : a.data <;> simp [answerPacket, newPacket, h, pktOp] <;> rfl

theorem answerPacket_payload : (answerPacket s req taken a).payload = a.data.getD [] := by
  cases h : a.data <;> simp [answerPacket, newPacket, h]

end Answers

/-- Settles O32: a request of an unfenced requester leaves service, and its answer enters the queue of the port towards
its source, where only the virtual channel is written into it. -/
theorem answersEchoTheRequest : Obligations.AnswersEchoTheRequest := by
  intro s v a port out r k horigin hring hroute hholds henc hfence hretry t
  obtain ⟨l, hfinish⟩ := finish_of_unfenced (a := a) horigin hfence
  let u := withTurned (dropSvc s v.ticket) l
  let p := answerPacket u v.req v.headroom a
  have hinject : injectOn u (port / 4) false p = enqueueOut u r out 2 8 p u.td.now :=
    injectOn_of_port hring (by rw [answerPacket_dest]; exact hroute) hholds (by rw [answerPacket_part]; exact henc)
  have ht : t = noteLeaving (enqueueOut u r out 2 8 p u.td.now) v := by
    rw [← hinject, ← answerRequest_of_fabric horigin hretry]
    exact hfinish
  rw [ht]
  refine ⟨rfl, rfl, rfl, rfl, _, rfl, rfl, ?dest, ?seq, ?part, ?status, ?op, ?payload⟩
  case dest => exact (answerPacket_dest : p.dest = _)
  case seq => exact (answerPacket_seq : p.seq = _)
  case part => exact (answerPacket_part : p.part = _)
  case status => exact (answerPacket_status : p.status = _)
  case op => exact (answerPacket_pktOp : pktOp p = _)
  case payload => exact (answerPacket_payload : p.payload = _)

/-! ### The head of a flow (R92, R96) -/

section Admission

variable {s t : State} {k u clk : Nat} {h : QueuedReq} {rest : List QueuedReq}

theorem flowGet_of_flows (e : t.flows = s.flows) : flowGet t k = flowGet s k := by
  unfold flowGet
  rw [e]

theorem flowGet_charge : flowGet (charge s k u) k =
    { flowGet s k with credit := (flowGet s k).credit - u, unitsNow := (flowGet s k).unitsNow + u } := by
  unfold charge
  split <;> exact tblGet_set_same

@[simp] theorem flowGet_noteWait {p n : Nat} : flowGet (noteWait s p n) k = flowGet s k := rfl

theorem debtNet_queue : (flowGet (debtNet s k) k).queue = (flowGet s k).queue := by
  unfold debtNet
  split <;> simp

theorem debtNet_credit : (flowGet (debtNet s k) k).credit = (flowGet s k).credit := by
  unfold debtNet
  split <;> simp

theorem placeFlow_queue : (flowGet (placeFlow s k clk) k).queue = (flowGet s k).queue := by
  unfold placeFlow
  dsimp only
  split <;> simp

theorem placeFlow_credit : (flowGet (placeFlow s k clk) k).credit = (flowGet s k).credit := by
  unfold placeFlow
  dsimp only
  split <;> simp

theorem placeFlow_svc : (placeFlow s k clk).svc = s.svc :=
  (placeFlow_touches (Touches.refl { flows := true } s) rfl).svc rfl

theorem placeFlow_nextTicket : (placeFlow s k clk).nextTicket = s.nextTicket :=
  (placeFlow_touches (Touches.refl { flows := true } s) rfl).nextTicket rfl

theorem headAdmissible_of_cons (hq : (flowGet s k).queue = h :: rest) :
    headAdmissible s k clk = (decide ((flowGet s k).net ≤ absSlot s clk) && decide (0 < (flowGet s k).credit) &&
      !h.deferred && fitsAt s k clk (meteredUnits h.req) (unitTime h.req)) := by
  simp only [headAdmissible, hq]

theorem headAdmissible_of_nil (hq : (flowGet s k).queue = []) : headAdmissible s k clk = false := by
  simp only [headAdmissible, hq]

/-- Without credit, or before NET, no head is admitted. -/
theorem headAdmissible_of_waiting (hwait : (flowGet s k).credit ≤ 0 ∨ absSlot s clk < (flowGet s k).net) :
    headAdmissible s k clk = false := by
  rcases hq : (flowGet s k).queue with _ | ⟨h, rest⟩
  · exact headAdmissible_of_nil hq
  · rw [headAdmissible_of_cons hq]
    rcases hwait with hcredit | hnet
    · simp [not_lt.2 hcredit]
    · simp [not_le.2 hnet]

theorem exec_flowAdmit {flow : FlowKey} : exec (.flowAdmit flow clk) s =
    .next (if headAdmissible (seenClk s clk) (flowKeyNat flow) clk then admitHead (seenClk s clk) (flowKeyNat flow) clk
      else seenClk s clk) := by
  show execFlowAdmit flow clk s = _
  unfold execFlowAdmit
  dsimp only
  split <;> rfl

/-- The flow without its head, whose cost is charged and whose wait is noted (R90, R96, R99, R104). -/
def chargedHead (s : State) (k clk : Nat) (h : QueuedReq) (rest : List QueuedReq) : State :=
  let f := flowGet s k
  let wEnd := if (gatesOf s.img.layout k).isEmpty then f.wEnd
    else max clk f.wEnd + meteredUnits h.req * unitTime h.req
  noteWait (debtNet (charge (flowSet s k { f with queue := rest, wEnd := wEnd, wheel := none, wait := 0 }) k
    (costOf s h.req)) k) (flowPart k) (clk - h.req.arrived)

/-- The service that a head enters. -/
def headService (s : State) (k clk : Nat) (h : QueuedReq) : Service :=
  { ticket := s.nextTicket, key := k, req := h.req, headroom := some (headroomCode (flowGet s k).credit), admitted := clk }

/-- The head in service under the next ticket. -/
def servedHead (s : State) (k clk : Nat) (h : QueuedReq) : State :=
  { s with svc := s.svc ++ [headService s k clk h], nextTicket := s.nextTicket + 1 }

theorem admitHead_of_stale (hq : (flowGet s k).queue = h :: rest) (hstale : staleReq s h.req = true) :
    admitHead s k clk = placeFlow (flowSet s k { flowGet s k with queue := rest, wheel := none, wait := 0 }) k clk := by
  unfold admitHead
  simp only [hq, hstale, if_true]

theorem admitHead_of_fresh (hq : (flowGet s k).queue = h :: rest) (hfresh : staleReq s h.req = false) :
    admitHead s k clk =
      let c := chargedHead s k clk h rest
      placeFlow (if addrPart h.req.pkt.addr.toNat = flowPart k then servedHead c k clk h
        else finish (servedHead c k clk h) (headService c k clk h) (endWith .fault)) k clk := by
  unfold admitHead
  simp only [hq, hfresh, Bool.false_eq_true, if_false]
  rfl

theorem chargedHead_touches : Touches { flows := true, td := true } s (chargedHead s k clk h rest) :=
  noteWait_touches (debtNet_touches (charge_touches (flowSet_touches (Touches.refl _ s) rfl) rfl) rfl) rfl

theorem flowGet_chargedHead : (flowGet (chargedHead s k clk h rest) k).queue = rest ∧
    (flowGet (chargedHead s k clk h rest) k).credit = (flowGet s k).credit - costOf s h.req := by
  simp [chargedHead, debtNet_queue, debtNet_credit, flowGet_charge]

/-- What admission does to the flow, whichever way its head ends: the head has left, its cost is charged. -/
theorem admitHead_flow_of_fresh (hq : (flowGet s k).queue = h :: rest) (hfresh : staleReq s h.req = false) :
    (flowGet (admitHead s k clk) k).queue = rest ∧
      (flowGet (admitHead s k clk) k).credit = (flowGet s k).credit - costOf s h.req ∧
      (admitHead s k clk).nextTicket = s.nextTicket + 1 := by
  have hticket : (chargedHead s k clk h rest).nextTicket = s.nextTicket := chargedHead_touches.nextTicket rfl
  obtain ⟨hqueue, hcredit⟩ := flowGet_chargedHead (s := s) (k := k) (clk := clk) (h := h) (rest := rest)
  simp only [admitHead_of_fresh hq hfresh, placeFlow_queue, placeFlow_credit, placeFlow_nextTicket]
  split
  next => exact ⟨hqueue, hcredit, congrArg (· + 1) hticket⟩
  next =>
    rw [flowGet_of_flows (finish_flows_of_fatal (.inl rfl)), finish_nextTicket]
    exact ⟨hqueue, hcredit, congrArg (· + 1) hticket⟩

/-- A head of its own partition is in service. -/
theorem admitHead_svc_of_own (hq : (flowGet s k).queue = h :: rest) (hfresh : staleReq s h.req = false)
    (hown : addrPart h.req.pkt.addr.toNat = flowPart k) :
    (admitHead s k clk).svc = s.svc ++ [headService (chargedHead s k clk h rest) k clk h] := by
  have hsvc : (chargedHead s k clk h rest).svc = s.svc := chargedHead_touches.svc rfl
  simp only [admitHead_of_fresh hq hfresh, placeFlow_svc, if_pos hown, servedHead, hsvc]

/-- A head that names another partition is in service no more (R30). -/
theorem admitHead_svc_of_astray (hq : (flowGet s k).queue = h :: rest) (hfresh : staleReq s h.req = false)
    (hastray : addrPart h.req.pkt.addr.toNat ≠ flowPart k) :
    ∀ v ∈ (admitHead s k clk).svc, v.ticket ≠ s.nextTicket := by
  have hticket : (chargedHead s k clk h rest).nextTicket = s.nextTicket := chargedHead_touches.nextTicket rfl
  simp only [admitHead_of_fresh hq hfresh, placeFlow_svc, if_neg hastray, finish_svc]
  intro v hv
  rw [← hticket]
  exact of_decide_eq_true (List.mem_filter.1 hv).2

theorem admitHead_of_stale_keeps (hq : (flowGet s k).queue = h :: rest) (hstale : staleReq s h.req = true) :
    (flowGet (admitHead s k clk) k).queue = rest ∧ (flowGet (admitHead s k clk) k).credit = (flowGet s k).credit ∧
      (admitHead s k clk).svc = s.svc := by
  rw [admitHead_of_stale hq hstale, placeFlow_queue, placeFlow_credit, placeFlow_svc]
  simp

end Admission

/-- Settles O22: the conditions of R92 are those of `headAdmissible`, and `admitHead` says what becomes of a head that is
stale, of its own partition, or astray; the end of one that is astray touches no flow. -/
theorem admissionTakesTheHead : Obligations.AdmissionTakesTheHead := by
  intro flow clk v s k n f
  refine ⟨?admitted, ?waiting, ?held, ?limit, ?noLimit⟩
  case admitted =>
    intro h rest hq hnet hcredit hdeferred hfits
    have hq' : (flowGet n k).queue = h :: rest := hq
    have hadm : headAdmissible n k clk = true := by
      rw [headAdmissible_of_cons hq']
      simp only [hfits, hdeferred, Bool.not_false, Bool.and_true, Bool.and_eq_true, decide_eq_true_eq]
      exact ⟨hnet, hcredit⟩
    refine ⟨admitHead n k clk, ?_, ?_⟩
    · rw [exec_flowAdmit, if_pos hadm]
    cases hstale : staleReq n h.req with
    | true =>
      obtain ⟨hqueue, hkept, hsvc⟩ := admitHead_of_stale_keeps (clk := clk) hq' hstale
      exact ⟨hqueue, fun _ => ⟨hkept, hsvc⟩, fun e => absurd e (by simp)⟩
    | false =>
      obtain ⟨hqueue, hcharged, hticket⟩ := admitHead_flow_of_fresh (clk := clk) hq' hstale
      refine ⟨hqueue, fun e => absurd e (by simp), fun _ => ⟨hcharged, hticket, fun hown => ?_, fun hastray => ?_⟩⟩
      · exact ⟨_, admitHead_svc_of_own hq' hstale hown, chargedHead_touches.nextTicket rfl, rfl, rfl⟩
      · exact admitHead_svc_of_astray hq' hstale hastray
  case waiting =>
    intro hwait
    have hadm : headAdmissible n k clk = false := by
      rcases hwait with hcredit | hnet | hq
      · exact headAdmissible_of_waiting (.inl hcredit)
      · exact headAdmissible_of_waiting (.inr hnet)
      · exact headAdmissible_of_nil hq
    rw [exec_flowAdmit, if_neg (by rw [hadm]; decide)]
  case held =>
    intro h rest hq hheld
    have hadm : headAdmissible n k clk = false := by
      rw [headAdmissible_of_cons (s := n) hq]
      rcases hheld with hdeferred | hfits
      · simp [hdeferred]
      · simp [hfits]
    rw [exec_flowAdmit, if_neg (by rw [hadm]; decide)]
  case limit =>
    intro r hr
    refine ⟨flowMod s k (fun f => { f with limit := min v.toNat r.allot }), ?_, ?_, fun j hj => ?_⟩
    · show Host.Outcome.next (writeFlowLimit s k v.toNat) = _
      simp only [writeFlowLimit, hr]
    · rw [flowGet_flowMod, if_pos rfl]
    · rw [flowGet_flowMod, if_neg hj]
  case noLimit =>
    intro hr
    show Host.Outcome.next (writeFlowLimit s k v.toNat) = _
    simp only [writeFlowLimit, hr]

end Sys2Proof.Proofs
end

section
/-! PROOFS. Programs and engines (R22, R273 to R276, R278, R284): the words of a program, the trap of a lead, the end of
a part, the engine window's commands. First the rules of a pair's command and of an engine's entry. -/

namespace Sys2Proof.Proofs

open Sys2Proof.Machine Sys2Proof.Laws

/-! ### The command of a pair -/

section Commands

variable {s t : State} {p q : Nat} {c : Command} {g : Program}

@[simp] theorem serviceOf_cmdMod (f : Command → Command) :
    serviceOf (cmdMod s p q f) p q = (serviceOf s p q).map f := by
  simp [serviceOf, cmdMod, pairMod]

theorem serviceOf_of_pairs (e : t.eng.pairs = s.eng.pairs) : serviceOf t p q = serviceOf s p q := by
  unfold serviceOf pairGet
  rw [e]

theorem waiting_cmdMod (f : Command → Command) :
    (pairGet (cmdMod s p q f) p q).waiting = (pairGet s p q).waiting := by
  simp [cmdMod, pairMod]

/-- Only what an update makes of the present command counts. -/
theorem cmdMod_of_service (hs : serviceOf s p q = some c) (f : Command → Command) :
    cmdMod s p q f = cmdMod s p q (fun _ => f c) := by
  have hs' : (pairGet s p q).service = some c := hs
  simp only [cmdMod, pairMod, hs', Option.map_some]

theorem progMod_of_prog (hs : serviceOf s p q = some c) (hg : c.prog = some g) (f : Program → Program) :
    progMod s p q f = progMod s p q (fun _ => f g) := by
  unfold progMod
  rw [cmdMod_of_service hs, cmdMod_of_service hs (fun c => { c with prog := c.prog.map fun _ => f g }), hg]
  rfl

theorem serviceOf_progMod (hs : serviceOf s p q = some c) (hg : c.prog = some g) (f : Program → Program) :
    serviceOf (progMod s p q f) p q = some { c with prog := some (f g) } := by
  simp [progMod, hs, hg]

theorem progMod_touches (f : Program → Program) : Touches { eng := true } s (progMod s p q f) :=
  cmdMod_touches (Touches.refl _ s) rfl

end Commands

/-! ### Engines by number -/

section Engines

variable {s t : State} {p e i : Nat} {f : Engine → Engine}

theorem engGet_engMod : engGet (engMod s e f) i = if i = e then f (engGet s e) else engGet s i :=
  engGet_engSet ..

theorem engGet_of_eng (h : t.eng.eng = s.eng.eng) : engGet t i = engGet s i := by
  unfold engGet
  rw [h]

/-- Which engine serves a number depends on the engines' numbers alone. -/
theorem physOf_of_logical (h : ∀ i, (engGet t i).logical = (engGet s i).logical) : physOf t e = physOf s e := by
  simp only [physOf, h]

theorem logical_engMod (hf : ∀ x, (f x).logical = x.logical) :
    (engGet (engMod s e f) i).logical = (engGet s i).logical := by
  rw [engGet_engMod]
  split
  next h => rw [hf, h]
  next => rfl

theorem physOf_logMod {j : Nat} (hf : ∀ x, (f x).logical = x.logical) : physOf (logMod s e f) j = physOf s j :=
  physOf_of_logical fun _ => logical_engMod hf

theorem logGet_logMod (hf : ∀ x, (f x).logical = x.logical) : logGet (logMod s e f) e = f (logGet s e) := by
  rw [logGet, physOf_logMod hf, logMod, engGet_engMod, if_pos rfl, logGet]

theorem engGet_logMod : engGet (logMod s e f) (physOf s e) = f (engGet s (physOf s e)) := by
  rw [logMod, engGet_engMod, if_pos rfl]

@[simp] theorem serviceOf_logMod {q : Nat} : serviceOf (logMod s e f) p q = serviceOf s p q := rfl

@[simp] theorem engGet_cmdMod {q : Nat} {g : Command → Command} : engGet (cmdMod s p q g) i = engGet s i := rfl

theorem logMod_touches_eng (s : State) (e : Nat) (f : Engine → Engine) : Touches { eng := true } s (logMod s e f) :=
  logMod_touches (Touches.refl _ s) rfl

end Engines

/-! ### Running parts (R276) -/

section Running

variable {α : Type} {d : Nat → α} {m : Tbl α} {k : Nat} {s : State} {p q e l : Nat} {c : Command} {y : PartRun}

/-- An entry that differs from the default is listed. -/
theorem mem_of_tblGet_ne (h : tblGet d m k ≠ d k) : (k, tblGet d m k) ∈ m := by
  induction m with
  | nil => exact absurd rfl h
  | cons x m ih =>
    simp only [tblGet] at h ⊢
    split
    next hk => simp [← hk]
    next hk => exact List.mem_cons_of_mem _ (ih (by rwa [if_neg hk] at h))

theorem pair_mem_of_service (hs : serviceOf s p q = some c) : (64 * p + q, pairGet s p q) ∈ s.eng.pairs := by
  refine mem_of_tblGet_ne fun hnone => ?_
  have hs' : (pairGet s p q).service = some c := hs
  rw [pairGet, hnone] at hs'
  simp at hs'

theorem runsPart_of_idle (hidle : ∀ x ∈ s.eng.pairs, x.2.service = none) : runsPart s e = false := by
  have hnone : ∀ l, partRunning s l = false := by
    intro l
    simp only [partRunning, List.any_eq_false]
    intro x hx
    simp [hidle x hx]
  cases h : (engGet s e).logical <;> simp [runsPart, h, hnone]

theorem runsPart_of_part (hl : (engGet s e).logical = some l) (hs : serviceOf s p q = some c) (hphase : c.phase ≠ .ready)
    (hy : y ∈ c.parts) (heng : y.engine = l) (hended : y.ended = false) : runsPart s e = true := by
  have hs' : (pairGet s p q).service = some c := hs
  have hrun : partRunning s l = true := by
    refine List.any_eq_true.2 ⟨_, pair_mem_of_service hs, ?_⟩
    simp only [hs', Bool.and_eq_true, decide_eq_true_eq, List.any_eq_true]
    exact ⟨hphase, y, hy, by simp [heng, hended]⟩
  simp [runsPart, hl, hrun]

/-- R276: an idle engine is pruned at once, one that runs a part when that part ends. -/
theorem engGet_pruneEngine : engGet (pruneEngine s e) e =
    if runsPart s e then { engGet s e with pruneDue := true } else { engGet s e with pruned := true } := by
  simp only [pruneEngine]
  rw [engGet_engMod, if_pos rfl]

end Running

/-! ### Program words (R273, R274) -/

section Words

variable {s : State} {part : Fin 32} {queue : Fin 64} {c : Command} {g : Program} {ws : List Word} {w code : Nat}

/-- The program with one more word executed. -/
def counted (g : Program) : Program := { g with executed := g.executed + 1 }

/-- Between two steps no descriptor is in execution. -/
theorem cur_of_atWord {p q : Nat} (hs : serviceOf s p q = some c) (hat : atWord s p q = some (g, ws)) : c.cur = none := by
  cases hcur : c.cur with
  | none => rfl
  | some d => cases hprog : c.prog <;> simp [atWord, hs, hprog, hcur] at hat

/-- A word that its operation's code names is counted, and has its effect; another operation's does nothing. -/
theorem runWord_of_atWord {p q : Nat} {f : State → Program → List Word → Nat → State} (hs : serviceOf s p q = some c)
    (hg : c.prog = some g) (hat : atWord s p q = some (g, ws)) (hw : (wordAt g ws).map (·.toNat) = some w)
    (hlead : (logGet s (leadEngine s p)).pruned = false) :
    runWord s p q code f =
      if bitsOf w 28 4 = code then f (progMod s p q fun _ => counted g) (counted g) ws w else s := by
  obtain ⟨x, hx, rfl⟩ := Option.map_eq_some_iff.1 hw
  simp only [runWord, hat, hx, hlead, Bool.false_eq_true, if_false]
  rw [progMod_of_prog hs hg]
  rfl

/-- What a word leaves where the program goes on: the program with the word's effect, and nothing besides. -/
theorem progMod_goes {p q : Nat} (hs : serviceOf s p q = some c) (hg : c.prog = some g) (f : Program → Program) :
    let t := progMod (progMod s p q fun _ => counted g) p q f
    Touches { eng := true } s t ∧ serviceOf t p q = some { c with prog := some (f (counted g)) } :=
  ⟨(progMod_touches _).trans (progMod_touches f), serviceOf_progMod (serviceOf_progMod hs hg _) rfl f⟩

variable (hs : serviceOf s part queue = some c) (hg : c.prog = some g) (hat : atWord s part queue = some (g, ws))
  (hw : (wordAt g ws).map (·.toNat) = some w) (hlead : (logGet s (leadEngine s part)).pruned = false)

include hs hg hat hw hlead

theorem exec_halt (hcode : bitsOf w 28 4 = 0) : exec (.halt part queue) s =
    .next (if bitsOf w 0 28 ≠ 0 then faultProgram (progMod s part queue fun _ => counted g) part queue
      else endCommand (progMod s part queue fun _ => counted g) part queue .ok 0) := by
  show execHalt part queue s = _
  rw [execHalt, runWord_of_atWord hs hg hat hw hlead, if_pos hcode]

theorem exec_adda (hcode : bitsOf w 28 4 = 2) (hbit : w.testBit 24 = false) : exec (.adda part queue) s =
    .next (progMod (progMod s part queue fun _ => counted g) part queue (fun g => { g with
      a := g.a.set (bitsOf w 25 3) (addaValue (g.a.getD (bitsOf w 25 3) 0) (bitsOf w 0 24)), pc := g.pc + 1 })) := by
  show execAdda part queue s = _
  rw [execAdda, runWord_of_atWord hs hg hat hw hlead, if_pos hcode, if_neg (by simp [hbit])]
  rfl

theorem exec_setc (hcode : bitsOf w 28 4 = 3) : exec (.setc part queue) s =
    .next (progMod (progMod s part queue fun _ => counted g) part queue (fun g => { g with
      c := g.c.set (bitsOf w 26 2) (bitsOf w 0 26), pc := g.pc + 1 })) := by
  show execSetc part queue s = _
  rw [execSetc, runWord_of_atWord hs hg hat hw hlead, if_pos hcode]
  rfl

theorem exec_loop (hcode : bitsOf w 28 4 = 4) : exec (.loop part queue) s =
    .next (if bitsOf w 14 12 ≠ 0 ∨ ws.length ≤ bitsOf w 0 14 then
        faultProgram (progMod s part queue fun _ => counted g) part queue
      else progMod (progMod s part queue fun _ => counted g) part queue (fun x => { x with
        c := x.c.set (bitsOf w 26 2) (g.c.getD (bitsOf w 26 2) 0 - 1)
        pc := if g.c.getD (bitsOf w 26 2) 0 - 1 ≠ 0 then bitsOf w 0 14 else x.pc + 1 })) := by
  show execLoop part queue s = _
  rw [execLoop, runWord_of_atWord hs hg hat hw hlead, if_pos hcode]
  rfl

theorem exec_mova (hcode : bitsOf w 28 4 = 5) (hzero : bitsOf w 0 22 = 0) : exec (.mova part queue) s =
    .next (progMod (progMod s part queue fun _ => counted g) part queue (fun g => { g with
      a := g.a.set (bitsOf w 25 3) (g.a.getD (bitsOf w 22 3) 0), pc := g.pc + 1 })) := by
  show execMova part queue s = _
  rw [execMova, runWord_of_atWord hs hg hat hw hlead, if_pos hcode, if_neg (by simp [hzero])]
  rfl

/-- A RUN whose word or template breaks a rule ends the program. -/
theorem exec_run_of_bad_step (hcode : bitsOf w 28 4 = 1) (hstep : stepDesc (counted g) ws w = none) (clk : Nat) :
    exec (.run part queue clk) s =
      .next (faultProgram (progMod (seenClk s clk) part queue fun _ => counted g) part queue) := by
  have hs' : serviceOf (seenClk s clk) part queue = some c := hs
  have hat' : atWord (seenClk s clk) part queue = some (g, ws) := hat
  have hlead' : (logGet (seenClk s clk) (leadEngine (seenClk s clk) part)).pruned = false := hlead
  show execRun part queue clk s = _
  simp only [execRun, hs', cur_of_atWord hs hat, Option.isSome_none, Bool.false_eq_true, and_false, if_false]
  rw [runWord_of_atWord hs' hg hat' hw hlead', if_pos hcode, hstep]

/-- PROG decodes the words that no other name has (R274). -/
theorem exec_prog_of_reserved (hcode : 6 ≤ bitsOf w 28 4) :
    exec (.prog part queue false) s = .next (faultProgram s part queue) := by
  obtain ⟨x, hx, rfl⟩ := Option.map_eq_some_iff.1 hw
  show execProg part queue false s = _
  simp [execProg, hs, cur_of_atWord hs hat, hg, hat, hx, hlead, hcode]

omit hw hlead in
/-- A place past the slot, and the word past the limit, end the program (R274). -/
theorem exec_prog_of_no_word (hnone : ws.length ≤ g.pc ∨ 1048576 ≤ g.executed) :
    exec (.prog part queue false) s = .next (faultProgram s part queue) := by
  have hword : wordAt g ws = none := by
    unfold wordAt
    rcases hnone with hpc | hlimit
    · simp [hpc]
    · rw [if_neg (by omega)]
  show execProg part queue false s = _
  simp [execProg, hs, cur_of_atWord hs hat, hg, hat, hword]

end Words

/-! ### The start of a program (R273, R274) -/

section Starts

variable {s : State} {part : Fin 32} {queue : Fin 64} {c : Command} {ws : List Word}

theorem startProgram_of_lead {p q : Nat} (hpruned : (logGet s (leadEngine s p)).pruned = false)
    (htrapped : (logGet s (leadEngine s p)).trapped = false) (hslot : (progWords s p (descOf ws).slot).isSome = true) :
    startProgram s p q ws = cmdMod
      (logMod s (leadEngine s p) (fun e => { e with lead := true, busy := true, slot := (descOf ws).slot })) p q
      (fun c => { c with
        cur := none, prog := some { slot := (descOf ws).slot, a := (startRegs ws).1, c := (startRegs ws).2 } }) := by
  obtain ⟨words, hwords⟩ := Option.isSome_iff_exists.1 hslot
  simp [startProgram, hpruned, htrapped, hwords]

theorem exec_prog_of_start (hs : serviceOf s part queue = some c) (hcur : c.cur = some ws) (hprog : c.prog = none)
    (hopc : (descOf ws).opc = 9) (hfetch : mayFetch s part = true) :
    exec (.prog part queue false) s = .next (startProgram s part queue ws) := by
  show execProg part queue false s = _
  simp [execProg, hs, hcur, hprog, hopc, hfetch]

end Starts

/-! ### The trap of a lead (R275) -/

section Traps

variable {s t : State} {p q e slot word core i : Nat} {f : Engine → Engine}

/-- Engine `e` stands TRAPPED with its record, and the memory of `core` is being rewritten. -/
def StandsTrapped (e slot word core : Nat) (s : State) : Prop :=
  (engGet s e).trapped = true ∧ (engGet s e).trapSlot = slot ∧ (engGet s e).trapWord = word ∧
    s.eng.rewriting.contains core = true

/-- An update that leaves an engine's trap alone. -/
def KeepsTrap (f : Engine → Engine) : Prop :=
  ∀ x, (f x).trapped = x.trapped ∧ (f x).trapSlot = x.trapSlot ∧ (f x).trapWord = x.trapWord

theorem StandsTrapped.of_eng (h : StandsTrapped e slot word core s) (heng : t.eng.eng = s.eng.eng)
    (hrewriting : t.eng.rewriting = s.eng.rewriting) : StandsTrapped e slot word core t := by
  simp only [StandsTrapped, engGet_of_eng heng, hrewriting]
  exact h

theorem StandsTrapped.engMod (h : StandsTrapped e slot word core s) (hf : KeepsTrap f) :
    StandsTrapped e slot word core (engMod s i f) := by
  obtain ⟨htrapped, hslot, hword, hcore⟩ := h
  rw [StandsTrapped, engGet_engMod]
  split
  next hi =>
    obtain ⟨ft, fs, fw⟩ := hf (engGet s i)
    rw [ft, fs, fw, ← hi]
    exact ⟨htrapped, hslot, hword, hcore⟩
  next => exact ⟨htrapped, hslot, hword, hcore⟩

theorem StandsTrapped.countEng {n : Nat} (h : StandsTrapped e slot word core s) (hf : KeepsTrap f) :
    StandsTrapped e slot word core (countEng s p n f) := by
  unfold Machine.countEng
  split
  · exact h
  · exact h.engMod hf

theorem StandsTrapped.applyPrune (h : StandsTrapped e slot word core s) :
    StandsTrapped e slot word core (applyPrune s i) := by
  unfold Machine.applyPrune
  split
  · exact h
  · exact h.engMod fun x => by split <;> exact ⟨rfl, rfl, rfl⟩

theorem StandsTrapped.pruneEngine (h : StandsTrapped e slot word core s) :
    StandsTrapped e slot word core (pruneEngine s i) :=
  h.engMod fun x => by split <;> exact ⟨rfl, rfl, rfl⟩

theorem StandsTrapped.logMod {n : Nat} (h : StandsTrapped e slot word core s) (hf : KeepsTrap f) :
    StandsTrapped e slot word core (logMod s n f) :=
  h.engMod hf

theorem StandsTrapped.endLead (h : StandsTrapped e slot word core s) :
    StandsTrapped e slot word core (endLead s p q) := by
  unfold Machine.endLead
  split
  · exact h
  · dsimp only
    split
    · exact h.logMod fun _ => ⟨rfl, rfl, rfl⟩
    · refine StandsTrapped.applyPrune (h.logMod ?_)
      exact fun _ => ⟨rfl, rfl, rfl⟩

/-! Of what writes a completion, nothing reaches an engine's entry. -/

theorem StandsTrapped.queueStore {n v : Nat} (h : StandsTrapped e slot word core s) :
    StandsTrapped e slot word core (queueStore s p n v) := by
  have heng : (Machine.queueStore s p n v).eng = s.eng :=
    (queueStore_touches (Touches.refl Mask.nearWriteWord s) rfl).eng rfl
  exact h.of_eng (congrArg (·.eng) heng) (congrArg (·.rewriting) heng)

theorem StandsTrapped.lgAppend {k : LgKind} {status srckind queue req event : Nat} {body extra : List Byte}
    (h : StandsTrapped e slot word core s) :
    StandsTrapped e slot word core (lgAppend s p k status srckind queue req body extra event).1 := by
  have heng : (Machine.lgAppend s p k status srckind queue req body extra event).1.eng = s.eng :=
    (lgAppend_touches (Touches.refl Mask.countCorrected s) rfl).eng rfl
  exact h.of_eng (congrArg (·.eng) heng) (congrArg (·.rewriting) heng)

theorem StandsTrapped.dropPieces {n : Nat} (h : StandsTrapped e slot word core s) :
    StandsTrapped e slot word core (dropPieces s n) :=
  h.of_eng rfl rfl

theorem StandsTrapped.dropSvc {n : Nat} (h : StandsTrapped e slot word core s) :
    StandsTrapped e slot word core (dropSvc s n) :=
  h.of_eng rfl rfl

theorem StandsTrapped.pairMod {f : Pair → Pair} (h : StandsTrapped e slot word core s) :
    StandsTrapped e slot word core (pairMod s p q f) :=
  h.of_eng rfl rfl

theorem StandsTrapped.writeCompletion {st : Status} {addr : Nat} (h : StandsTrapped e slot word core s) :
    StandsTrapped e slot word core (writeCompletion s p q st addr) := by
  unfold Machine.writeCompletion
  dsimp only
  split
  next => exact h
  next => exact h.queueStore.queueStore.queueStore.dropPieces.dropSvc.pairMod

theorem StandsTrapped.postCompletion {st : Status} {addr : Nat} (h : StandsTrapped e slot word core s) :
    StandsTrapped e slot word core (postCompletion s p q st addr) := by
  unfold Machine.postCompletion
  dsimp only
  split
  next => exact h
  next =>
    split
    next hu => exact (congrArg Prod.fst hu ▸ h.lgAppend).writeCompletion
    next hu => exact (congrArg Prod.fst hu ▸ h.lgAppend).pairMod

/-- The end of a command leaves a trap as it stands. -/
theorem StandsTrapped.endCommand {st : Status} {addr : Nat} (h : StandsTrapped e slot word core s) :
    StandsTrapped e slot word core (endCommand s p q st addr) := by
  unfold Machine.endCommand
  refine StandsTrapped.postCompletion (StandsTrapped.endLead ?_)
  split
  · exact h.countEng fun _ => ⟨rfl, rfl, rfl⟩
  · exact h

/-- What the trap writes into its engine's entry. -/
def trapMark (slot word : Nat) (x : Engine) : Engine :=
  { x with trapped := true, trapValid := true, trapSlot := slot, trapWord := word, traps := satTo 16 (x.traps + 1) }

/-- Engine `e` with its trap written, and its core named for the rewriting. -/
def withTrap (s : State) (e slot word : Nat) : State :=
  let u := logMod s e (trapMark slot word)
  { u with eng := { u.eng with rewriting := u.eng.rewriting.filter (· != coreOf e) ++ [coreOf e] } }

theorem withTrap_standsTrapped (s : State) (e slot word : Nat) :
    StandsTrapped (physOf s e) slot word (coreOf e) (withTrap s e slot word) := by
  have hget : engGet (withTrap s e slot word) (physOf s e) = trapMark slot word (engGet s (physOf s e)) :=
    (engGet_of_eng rfl).trans engGet_logMod
  rw [StandsTrapped, hget]
  exact ⟨rfl, rfl, rfl, by simp [withTrap]⟩

/-- The trap is recorded, whether or not the engine is pruned for its traps. -/
theorem trapEngine_standsTrapped (s : State) (p slot word : Nat) :
    StandsTrapped (physOf s (leadEngine s p)) slot word (coreOf (leadEngine s p)) (trapEngine s p slot word) := by
  have htrap := withTrap_standsTrapped s (leadEngine s p) slot word
  unfold trapEngine
  dsimp only [drawFree]
  split
  next => exact StandsTrapped.pruneEngine (htrap.of_eng rfl rfl)
  next => exact htrap.of_eng rfl rfl

end Traps

/-! ### The end of a part (R22, R278, R284) -/

section Parts

variable {s : State} {part : Fin 32} {queue : Fin 64} {p q e n : Nat} {c : Command} {x : PartRun} {f : Engine → Engine}
  {st : Status} {a : Nat}

theorem countEng_pairs : (countEng s p e f).eng.pairs = s.eng.pairs := by
  unfold countEng
  split <;> rfl

theorem applyPrune_pairs : (applyPrune s e).eng.pairs = s.eng.pairs := by
  unfold applyPrune
  split <;> rfl

/-- The end of a part reaches no pair. -/
theorem endPart_pairs : (endPart s p x).eng.pairs = s.eng.pairs := by
  simp only [endPart, applyPrune_pairs, countEng_pairs]
  rfl

theorem countEng_of_open (hopen : isConf s p = false) : countEng s p e f = logMod s e f := by
  simp [countEng, hopen]

/-- A pruning leaves the counters, and which engine serves a number. -/
theorem logGet_applyPrune {i : Nat} : (logGet (applyPrune s i) e).cntPart = (logGet s e).cntPart ∧
    (logGet (applyPrune s i) e).cntMac = (logGet s e).cntMac := by
  unfold applyPrune
  split
  next => exact ⟨rfl, rfl⟩
  next =>
    rw [logGet, physOf_of_logical (fun _ => logical_engMod fun x => by split <;> rfl), engGet_engMod]
    split
    next h =>
      rw [← h]
      split <;> exact ⟨rfl, rfl⟩
    next => exact ⟨rfl, rfl⟩

/-- R278: a part that ends counts on its engine, unless its partition is confidential. -/
theorem logGet_endPart (hopen : isConf s p = false) :
    (logGet (endPart s p x) x.engine).cntPart = ((logGet s x.engine).cntPart + 1) % 2 ^ 32 ∧
      (logGet (endPart s p x) x.engine).cntMac = ((logGet s x.engine).cntMac + x.mac) % 2 ^ 64 := by
  unfold endPart
  extract_lets s1 s2
  obtain ⟨hpart, hmac⟩ := logGet_applyPrune (s := s2) (e := x.engine) (i := physOf s2 x.engine)
  rw [hpart, hmac]
  have hopen' : isConf s1 p = false := hopen
  have hcounted : logGet s2 x.engine = _ := (congrArg (logGet · x.engine) (countEng_of_open hopen')).trans
    (logGet_logMod fun _ => rfl)
  have hbusy : logGet s1 x.engine = _ := logGet_logMod fun _ => rfl
  rw [hcounted, hbusy]
  exact ⟨rfl, rfl⟩

/-- While a part runs the command stays in service. -/
theorem finishIfDone_of_running (hs : serviceOf s p q = some c) (hrun : c.parts.all (·.ended) = false) :
    finishIfDone s p q = s := by
  simp only [finishIfDone, hs]
  split
  next => rfl
  next => rw [if_neg (by simp [hrun])]

/-- After the last part a command that is no program and read no bad line ends with its outcome. -/
theorem finishIfDone_of_ended (hs : serviceOf s p q = some c) (hout : c.outcome = some (st, a))
    (hend : c.parts.all (·.ended) = true) (hwait : (pairGet s p q).waiting = none) (hprog : c.prog = none)
    (hfails : ∀ f ∈ c.fails, f.1 ≠ .poison) : finishIfDone s p q = endCommand s p q st a := by
  have hclean : readPoison c = false := by
    simpa [readPoison] using fun st a h => hfails (st, a) h
  simp only [finishIfDone, hs, hout]
  rw [if_pos ⟨hend, by simp [hwait]⟩]
  simp [endDesc, hs, hclean, hprog]

theorem stoppedEngines_of_active {es : List Nat} (h : (partGet s p).st = .active) : stoppedEngines s p es = false := by
  simp [stoppedEngines, h]

/-- A part of an executed command ends: the command takes note, its engine counts, and the command ends if it can. -/
theorem exec_commandPartEnd (hs : serviceOf s part queue = some c) (hx : c.parts[n]? = some x) (hrun : x.ended = false)
    (hout : c.outcome = some (st, a)) (hactive : (partGet s part).st = .active) :
    exec (.commandPartEnd part queue n) s = .next (finishIfDone (endPart
      (cmdMod s part queue fun _ => { c with parts := c.parts.set n { x with ended := true } }) part x) part queue) := by
  have hdone : c.outcome.isNone = false := by rw [hout]; rfl
  show execCommandPartEnd part queue n s = _
  simp only [execCommandPartEnd, hs, hx, hdone, hrun, stoppedEngines_of_active hactive, Bool.false_eq_true, or_false,
    if_false]
  rw [cmdMod_of_service hs]
  rfl

end Parts

/-! ### The copies of an instruction memory (R275, R307) -/

section Copies

variable {s : State} {source sl kind key core : Nat} {r : ProgRec}

theorem reserveRead_of_clean (hclean : ReservesClean s) : reserveRead s source sl kind key = (s, false) := by
  obtain ⟨hwords, -⟩ := hclean
  unfold reserveRead
  split
  next => rfl
  next sl' a hplace =>
    refine if_pos (List.all_eq_true.2 fun k hk => ?_)
    exact decide_eq_true (hwords sl kind key (sl', a) hplace k hk)

/-- The pieces of a program's copy are read one after another, and whether one was bad is kept. -/
def readCopyPiece (sl : Nat) (r : ProgRec) (acc : State × Bool) (i : Nat) : State × Bool :=
  let (s, bad) := reserveRead acc.1 2 sl 2 (progPiece r i)
  (s, acc.2 || bad)

theorem readSlot_of_none (h : reserveSlice s r.part r.slot = none) : readSlot s r = s := by
  simp only [readSlot, h]

theorem readSlot_of_some (h : reserveSlice s r.part r.slot = some sl) : readSlot s r =
    let x := (List.range ((r.words.length + 3) / 4)).foldl (readCopyPiece sl r) (s, false)
    if x.2 then { x.1 with eng := { x.1.eng with lostProgs := x.1.eng.lostProgs ++ [r.part * 16 + r.slot] } } else x.1 := by
  simp only [readSlot, h]
  rfl

theorem readSlot_of_clean (hclean : ReservesClean s) : readSlot s r = s := by
  cases h : reserveSlice s r.part r.slot with
  | none => exact readSlot_of_none h
  | some sl =>
    have hfold (is : List Nat) : is.foldl (readCopyPiece sl r) (s, false) = (s, false) :=
      List.foldl_fixed' (fun i => by simp [readCopyPiece, reserveRead_of_clean hclean]) is
    rw [readSlot_of_some h, hfold]
    rfl

theorem readCopies_of_clean (hclean : ReservesClean s) : readCopies s core = s :=
  List.foldl_fixed' (fun _ => readSlot_of_clean hclean) _

/-- Reading a program's copy may lose the program, and changes nothing of what is being rewritten. -/
theorem readSlot_rewriting : (readSlot s r).eng.rewriting = s.eng.rewriting := by
  cases h : reserveSlice s r.part r.slot with
  | none => rw [readSlot_of_none h]
  | some sl =>
    have hfold (is : List Nat) : Touches Mask.countCorrected s (is.foldl (readCopyPiece sl r) (s, false)).1 :=
      touches_foldl_fst (Touches.refl _ s) fun acc hacc i =>
        (reserveRead_touches hacc rfl : Touches _ s (reserveRead acc.1 2 sl 2 (progPiece r i)).1)
    rw [readSlot_of_some h]
    dsimp only
    split <;> exact congrArg (·.rewriting) ((hfold _).eng rfl)

theorem readCopies_rewriting : (readCopies s core).eng.rewriting = s.eng.rewriting := by
  unfold readCopies
  generalize s.img.layout.progs.filter _ = rs
  induction rs generalizing s with
  | nil => rfl
  | cons r rs ih => exact (ih (s := readSlot s r)).trans readSlot_rewriting

end Copies

/-! ### The statement -/

/-- Settles O50: `runWord` counts a word and gives it its effect, so a word that goes on changes the program alone; a trap
outlasts the end of its command; the end of a part reaches its engine and no pair. -/
theorem programsStepAndPartsEnd : Obligations.ProgramsStepAndPartsEnd := by
  intro s p q goes
  refine ⟨?words, ?noWord, ?start, ?parity, ?parts, ?rewrite, ?engine, ?prune⟩
  case words =>
    intro c g ws w hs hg hat hw hlead g1 s1 b
    refine ⟨?halt, ?haltBad, ?adda, ?setc, ?loop, ?loopBad, ?mova, ?run, ?reserved⟩
    case halt =>
      intro hcode hzero
      rw [exec_halt hs hg hat hw hlead hcode, if_neg (by simp [hzero])]
      rfl
    case haltBad =>
      intro hcode hbits
      rw [exec_halt hs hg hat hw hlead hcode, if_pos hbits]
      rfl
    case adda => exact fun hcode hbit => ⟨_, exec_adda hs hg hat hw hlead hcode hbit, progMod_goes hs hg _⟩
    case setc => exact fun hcode => ⟨_, exec_setc hs hg hat hw hlead hcode, progMod_goes hs hg _⟩
    case loop =>
      intro hcode hzero htarget
      have hexec := exec_loop hs hg hat hw hlead hcode
      have hmore : g.c.getD b 0 - 1 ≠ 0 ↔ 2 ≤ g.c.getD b 0 := by omega
      rw [if_neg (by simp [hzero, htarget])] at hexec
      obtain ⟨htouches, hservice⟩ := progMod_goes hs hg (fun x => { x with
        c := x.c.set b (g.c.getD b 0 - 1), pc := if g.c.getD b 0 - 1 ≠ 0 then bitsOf w 0 14 else x.pc + 1 })
      refine ⟨_, hexec, htouches, hservice.trans ?_⟩
      simp only [hmore]
      rfl
    case loopBad =>
      intro hcode htarget
      rw [exec_loop hs hg hat hw hlead hcode, if_pos (.inr htarget)]
      rfl
    case mova => exact fun hcode hzero => ⟨_, exec_mova hs hg hat hw hlead hcode hzero, progMod_goes hs hg _⟩
    case run => exact fun hcode hstep clk => exec_run_of_bad_step hs hg hat hw hlead hcode hstep clk
    case reserved => exact fun hcode _ => exec_prog_of_reserved hs hg hat hw hlead hcode
  case noWord => exact fun c g ws hs hg _ hat hnone => exec_prog_of_no_word hs hg hat hnone
  case start =>
    intro c ws hs hcur hprog hopc hfetch hpruned htrapped hslot
    refine ⟨_, exec_prog_of_start hs hcur hprog hopc hfetch, ?_⟩
    rw [startProgram_of_lead hpruned htrapped hslot]
    refine ⟨cmdMod_touches (logMod_touches_eng s _ _) rfl, ?_, ?_⟩
    · rw [serviceOf_cmdMod, serviceOf_logMod, hs]
      rfl
    · rw [engGet_cmdMod, engGet_logMod]
  case parity =>
    intro g ws c hs hg hcur hat
    refine ⟨endCommand (trapEngine s p g.slot g.pc) p q .fault 0, ?_,
      (trapEngine_standsTrapped s p g.slot g.pc).endCommand⟩
    show execProg p q true s = _
    simp [execProg, hs, hcur, hg, parityTrap, hat]
  case parts =>
    intro c x st a n hs hx hrun hout hactive hwait c' u
    have hexec := exec_commandPartEnd hs hx hrun hout hactive
    have hservice : serviceOf u p q = some c' := by
      rw [serviceOf_of_pairs endPart_pairs, serviceOf_cmdMod, hs]
      rfl
    refine ⟨fun hmore => ⟨?_, hservice, fun hopen => logGet_endPart hopen⟩, fun hlast hprog hfails => ?_⟩
    · rw [hexec, finishIfDone_of_running hservice hmore]
    · have hwait' : (pairGet u p q).waiting = none := by
        rw [pairGet, endPart_pairs]
        exact (waiting_cmdMod _).trans hwait
      rw [hexec, finishIfDone_of_ended hservice hout hlast hwait' hprog hfails]
  case rewrite =>
    intro core
    refine ⟨_, rfl, congrArg (List.filter _) readCopies_rewriting, fun hclean => ?_⟩
    rw [readCopies_of_clean hclean]
  case engine =>
    intro e
    exact ⟨⟨_, rfl, logMod_touches_eng s e _, engGet_logMod⟩, ⟨_, rfl, logMod_touches_eng s e _, engGet_logMod⟩⟩
  case prune =>
    intro e
    refine ⟨pruneEngine s e, rfl, pruneEngine_touches (Touches.refl _ s) rfl, fun hidle => ?_,
      fun l c y hl hs hphase hy heng hended => ?_⟩
    · rw [engGet_pruneEngine, runsPart_of_idle hidle, if_neg (by decide)]
    · rw [engGet_pruneEngine, runsPart_of_part hl hs hphase hy heng hended, if_pos rfl]

end Sys2Proof.Proofs
end

section
/-! PROOFS. Loading images (R69 to R78, R228): what the writes of IMG_CTRL do, how a whole-device image and a boot image
take effect. -/

namespace Sys2Proof.Proofs

open Sys2Proof.Machine Sys2Proof.Laws

/-! ### IMG_CTRL (R69, R70, R78, R82) -/

section ImageControl

variable {s : State}

theorem imageGo_of_idle (h : s.img.phase = 0) :
    imageGo s = { s with img := { s.img with
      phase := 1, kind := decide ((imgHeader (stagingBytes s 0 64)).kind = 2),
      part := if (imgHeader (stagingBytes s 0 64)).kind = 2 then (imgHeader (stagingBytes s 0 64)).target % 32 else 0,
      code := codeNow s, sect := 15, record := 4095, load := none } } :=
  if_neg (not_not.mpr h)

theorem imageGo_of_busy (h : s.img.phase ≠ 0) :
    imageGo s = { noteFlags s [3] with img := { s.img with
      refused := true, refusedCount := min 65535 (s.img.refusedCount + 1) } } := by
  rw [Nat.min_comm]
  exact if_pos h

theorem imageAbort_of_verifying (h : s.img.phase = 1) :
    imageAbort s = { s with img := { s.img with phase := 0, load := none, boot := [], code := codeNow s } } :=
  if_pos h

theorem imageAbort_of_other (h : s.img.phase ≠ 1) : imageAbort s = s := if_neg h

theorem imageFloor_of_above (hloaded : s.img.loaded = true) (hleft : 0 < (s.img.owners.getD s.img.ownerSlot {}).left)
    (hfloor : (s.img.owners.getD s.img.ownerSlot {}).floor < s.img.serial) :
    imageFloor s = { s with img := { s.img with
      owners := s.img.owners.set s.img.ownerSlot { s.img.owners.getD s.img.ownerSlot {} with
        floor := s.img.serial, left := (s.img.owners.getD s.img.ownerSlot {}).left - 1 } } } := by
  refine if_neg ?_
  rintro (hno | hno | hno)
  · simp [hloaded] at hno
  · omega
  · omega

theorem imageFloor_of_no_word (hleft : (s.img.owners.getD s.img.ownerSlot {}).left = 0) : imageFloor s = s :=
  if_pos (.inr (.inl hleft))

end ImageControl

/-- Settles O12: each write is one choice on the phase, or on the words that the owner's slot has left. -/
theorem imageControlWrites : Obligations.ImageControlWrites := by
  intro clk s h o
  refine ⟨fun hidle => ?go, fun hbusy => ?refused, fun hverify => ?abort, fun hother => ?keep,
    fun hloaded hleft hfloor => ?floor, fun hleft => ?noWord⟩
  case go => exact congrArg _ (imageGo_of_idle (s := seenClk s clk) hidle)
  case refused => exact congrArg _ (imageGo_of_busy (s := seenClk s clk) hbusy)
  case abort => exact congrArg _ (imageAbort_of_verifying hverify)
  case keep => exact congrArg _ (imageAbort_of_other hother)
  case floor => exact congrArg _ (imageFloor_of_above hloaded hleft hfloor)
  case noWord => exact congrArg _ (imageFloor_of_no_word hleft)

/-! ### A structure in force (R72, R73, R77, R95) -/

section WholeDevice

variable {s : State} {im : Image} {same : Bool}

/-- The image block of a device whose image has taken effect. -/
def loadedImg (g : ImgState) (im : Image) : ImgState :=
  { g with
    loaded := true, phase := 4, kind := false, part := 0, code := 0, sect := 0xF, record := 0xFFF, serial := im.serial,
    digest := im.digest, ownerSlot := im.ownerSlot, load := none, draining := [], boot := [], bootDue := false,
    layout := im.layout }

/-- What follows the writing of the image block leaves that block alone. -/
theorem layImage_img : (layImage s im same).img = loadedImg s.img im := by
  have hparts : Touches Mask.layPartition { s with img := loadedImg s.img im }
      (im.layout.parts.foldl (layPartition im) { s with img := loadedImg s.img im }) :=
    touches_foldl (Touches.refl _ _) (fun _ h _ => layPartition_touches h rfl)
  have hgraft := graftUntrained_touches (twinImage_touches (M := { Mask.layImage with img := false, layout := false })
    (hparts.mono rfl) rfl) rfl
  have hports : Touches { Mask.layImage with img := false, layout := false } { s with img := loadedImg s.img im }
      (layImage s im same) := by
    unfold layImage
    cases same
    · exact startPorts_touches hgraft rfl
    · exact keepPorts_touches hgraft rfl
  exact hports.img rfl

theorem layImage_touches_self : Touches Mask.layImage s (layImage s im same) :=
  layImage_touches (Touches.refl _ s) rfl

end WholeDevice

/-- Settles O16: the warm start leaves powered time, the boot counter and the owner slots, and ends what is in service;
the image's structure is then written over it. -/
theorem wholeDeviceImageTakesEffect : Obligations.WholeDeviceImageTakesEffect := by
  intro s im hphase hload hwhole
  let u := restart .warm (fillDevice s)
  let w : State := { u with di := { u.di with fillFrames := (s.td.ptime - s.di.fillStart) % 65536 } }
  let t := layImage w im (s.img.layout.ring == im.layout.ring)
  have hrun : exec .wholeDeviceFillDone s = .next t := by
    show execWholeDeviceFillDone s = _
    simp only [execWholeDeviceFillDone, hload, hphase, hwhole]
    rfl
  have hparts : Touches { parts := true, sec := true } (fillDevice s) (restartParts (fillDevice s)) :=
    restartParts_touches (Touches.refl _ _) rfl
  have himg : t.img = loadedImg (restartImg .warm s.img) im :=
    layImage_img.trans (congrArg (fun g => loadedImg (restartImg .warm g) im) (hparts.img rfl))
  have htd : t.td = restartTd .warm s.td :=
    (layImage_touches_self.td rfl).trans (congrArg (restartTd .warm) (hparts.td rfl))
  refine ⟨t, hrun, congrArg ImgState.layout himg, congrArg ImgState.loaded himg, congrArg ImgState.phase himg,
    congrArg ImgState.serial himg, congrArg ImgState.load himg, layImage_touches_self.svc rfl,
    (congrArg Traffic.ptime htd :), (congrArg Traffic.boot htd :), (congrArg ImgState.owners himg :)⟩

/-! ### The boot slots (R72, R228) -/

section Boot

variable {s : State} {g g' : ImgState} {usable : Option Nat} {bs : List Byte} {e : LoadErr}

/-- Verification reads of the image block the owner slots, the slot and whether an image is in force, and the structure
in force. -/
theorem checkImage_congr (howners : g.owners = g'.owners) (hloaded : g.loaded = g'.loaded)
    (hslot : g.ownerSlot = g'.ownerSlot) (hlayout : g.layout = g'.layout) :
    checkImage g usable bs = checkImage g' usable bs := by
  have hfault : ownerFault g bs = ownerFault g' bs := by
    unfold ownerFault
    rw [howners, hloaded, hslot]
  have hread : readImage g bs = readImage g' bs := by
    unfold readImage
    rw [hfault]
  unfold checkImage
  rw [hread, hlayout]

/-- The device once the loader of the boot slots has begun. -/
def bootBegun (s : State) : State :=
  { s with img := { s.img with bootDue := false, phase := 1, kind := false, part := 0 } }

/-- The capacity that an image is judged by: none before discovery has ended. -/
def usableNow (s : State) : Option Nat := if s.fl.discovered then some (flashLimit s.fl) else none

theorem checkImage_bootBegun : checkImage (bootBegun s).img usable bs = checkImage s.img usable bs :=
  checkImage_congr rfl rfl rfl rfl

/-- The images that stand after verification, each with the place of its REGIONS section. -/
def withBoot (s : State) (l : List (Image × Nat)) : State := { s with img := { s.img with boot := l } }

/-- A valid image with the place of its REGIONS section. -/
def slotImage (bs : List Byte) (im : Image) : Image × Nat := (im, entryOf (sectionsOf bs) 4)

/-- What verification of the boot slots leaves, by what each slot holds. -/
def bootVerified (s : State) (slotA slotB : List Byte) : State :=
  match checkImage s.img (usableNow s) slotA, checkImage s.img (usableNow s) slotB with
  | .error _, .error e => loadFailed (bootBegun s) e
  | .ok a, .error _ => withBoot (bootBegun s) [slotImage slotA a]
  | .error _, .ok b => withBoot (bootBegun s) [slotImage slotB b]
  | .ok a, .ok b => withBoot (bootBegun s)
      (if a.serial < b.serial then [slotImage slotB b, slotImage slotA a] else [slotImage slotA a, slotImage slotB b])

/-- Whatever the slots hold, the loader has run, and the structure in force stands. -/
theorem bootVerified_keeps {slotA slotB : List Byte} : (bootVerified s slotA slotB).img.bootDue = false ∧
    (bootVerified s slotA slotB).img.layout = s.img.layout ∧ (bootVerified s slotA slotB).img.loaded = s.img.loaded := by
  unfold bootVerified
  split <;> exact ⟨rfl, rfl, rfl⟩

theorem exec_bootImageLoad {slotA slotB : List Byte} (hserv : s.pwr.stage = .serving) (hdue : s.img.bootDue = true)
    (hidle : s.img.phase = 0) : exec (.bootImageLoad slotA slotB) s = .next (bootVerified s slotA slotB) := by
  have hrun : ¬(s.pwr.stage ≠ .serving ∨ ¬s.img.bootDue ∨ s.img.phase ≠ 0) := by simp [hserv, hdue, hidle]
  have hA := checkImage_bootBegun (s := s) (usable := usableNow s) (bs := slotA)
  have hB := checkImage_bootBegun (s := s) (usable := usableNow s) (bs := slotB)
  show execBootImageLoad slotA slotB s = _
  refine (if_neg hrun).trans ?_
  unfold bootVerified
  simp only [bootBegun, usableNow] at hA hB ⊢
  simp only [hA, hB]
  cases checkImage s.img (if s.fl.discovered then some (flashLimit s.fl) else none) slotA <;>
    cases checkImage s.img (if s.fl.discovered then some (flashLimit s.fl) else none) slotB <;> rfl

theorem exec_bootImageApply_of_none (hphase : s.img.phase = 1) (hboot : s.img.boot ≠ [])
    (hdisc : s.fl.discovered = true)
    (hnone : s.img.boot.find? (fun b => decide (flashUnits b.1.layout ≤ flashLimit s.fl)) = none) :
    ∃ e, exec .bootImageApply s = .next (loadFailed s { code := 0x0D, sect := e }) := by
  refine ⟨((s.img.boot.map (·.2)).getLast?).getD 0xF, ?_⟩
  show execBootImageApply s = _
  simp [execBootImageApply, hphase, hboot, hdisc, hnone]

/-- The first image that fits is written, over the memory as it stands or filled anew under the bank masks in force. -/
theorem exec_bootImageApply_of_some {b : Image × Nat} (hphase : s.img.phase = 1) (hboot : s.img.boot ≠ [])
    (hdisc : s.fl.discovered = true)
    (hsome : s.img.boot.find? (fun b => decide (flashUnits b.1.layout ≤ flashLimit s.fl)) = some b) :
    ∃ u, exec .bootImageApply s = .next (layImage u b.1 false) := by
  by_cases hmap : s.stk.xmap = s.stk.xmapAct
  · refine ⟨s, ?_⟩
    show execBootImageApply s = _
    simp [execBootImageApply, hphase, hboot, hdisc, hsome, hmap]
  · refine ⟨fillDevice { (drawFree s).2 with
      stk := { s.stk with xmapAct := s.stk.xmap }, di := { s.di with fillFrames := (drawFree s).1 % 2 ^ 16 } }, ?_⟩
    show execBootImageApply s = _
    simp only [execBootImageApply, hphase, hboot, hdisc, hsome, hmap]
    rfl

end Boot

/-- Settles O17: what the slots hold decides the order, by cases on their verification; once discovery has ended the first
that fits is written. -/
theorem bootSlotsLoad : Obligations.BootSlotsLoad := by
  intro slotA slotB s hserv
  refine ⟨fun hdue hidle => ?load, fun hphase hboot hdisc => ?apply⟩
  case load =>
    obtain ⟨hran, hlayout, hloaded⟩ := bootVerified_keeps (s := s) (slotA := slotA) (slotB := slotB)
    refine ⟨_, exec_bootImageLoad hserv hdue hidle, hran, hlayout, hloaded, fun u hu => ?_⟩
    obtain rfl : u = usableNow s := hu
    unfold bootVerified
    cases checkImage s.img (usableNow s) slotA with
    | error e =>
      cases checkImage s.img (usableNow s) slotB with
      | error e' => exact ⟨rfl, rfl, rfl⟩
      | ok b => exact ⟨rfl, rfl⟩
    | ok a =>
      cases checkImage s.img (usableNow s) slotB with
      | error e' => exact ⟨rfl, rfl⟩
      | ok b => exact ⟨rfl, apply_ite (List.map Prod.fst) (a.serial < b.serial)
          [slotImage slotB b, slotImage slotA a] [slotImage slotA a, slotImage slotB b]⟩
  case apply =>
    split
    next hnone =>
      obtain ⟨e, hrun⟩ := exec_bootImageApply_of_none hphase hboot hdisc hnone
      exact ⟨_, hrun, rfl, rfl, rfl, rfl⟩
    next b hsome =>
      obtain ⟨u, hrun⟩ := exec_bootImageApply_of_some hphase hboot hdisc hsome
      refine ⟨_, hrun, ?_⟩
      rw [layImage_img]
      exact ⟨rfl, rfl, rfl, rfl⟩

end Sys2Proof.Proofs
end

section
/-! PROOFS. What stands of every partition (R26, R74, R346): packets, answers, reads of memory, recalls and ledger entries
leave alone what loads, key sets, resets and power states decide of a partition. -/

namespace Sys2Proof.Proofs

open Sys2Proof.Machine Sys2Proof.Laws

/-! ### What loads decide of a partition -/

/-- What image loads, key sets, resets and power states decide of a partition. -/
structure Standing where
  st : PState
  next : Option PState
  why : Nat
  drained : Bool
  epoch : Nat
  digest : Digest
  serial : Nat
  exch : Option Exchange

def standing (x : Partition) : Standing :=
  { st := x.st, next := x.next, why := x.why, drained := x.drained, epoch := x.epoch, digest := x.digest,
    serial := x.serial, exch := x.exch }

/-- How each partition of a table stands. -/
def stands (ps : Tbl Partition) (p : Nat) : Standing := standing (tblGet (fun _ => {}) ps p)

section Standings

variable {s t : State} {M : Mask} {p : Nat}

theorem stands_eq (s : State) (p : Nat) : stands s.parts p = standing (partGet s p) := rfl

theorem stands_partSet {x : Partition} (hx : standing x = standing (partGet s p)) :
    stands (partSet s p x).parts = stands s.parts := by
  funext j
  rw [stands_eq, stands_eq, partGet_partSet]
  split
  next h => rw [hx, h]
  next => rfl

theorem stands_partMod {f : Partition → Partition} (hf : ∀ x, standing (f x) = standing x) :
    stands (partMod s p f).parts = stands s.parts :=
  stands_partSet (hf _)

@[simp] theorem stands_partCnt {f : PartCounters → PartCounters} :
    stands (partCnt s p f).parts = stands s.parts :=
  stands_partMod (fun _ => rfl)

theorem stands_foldl {α : Type} {f : State → α → State} {l : List α}
    (hf : ∀ t a, stands (f t a).parts = stands t.parts) : stands (l.foldl f s).parts = stands s.parts := by
  induction l generalizing s with
  | nil => rfl
  | cons a l ih => exact ih.trans (hf s a)

theorem stands_foldl_fst {α β : Type} {f : State × β → α → State × β} {l : List α} {x : State × β}
    (hf : ∀ y a, stands (f y a).1.parts = stands y.1.parts) : stands (l.foldl f x).1.parts = stands x.1.parts := by
  induction l generalizing x with
  | nil => rfl
  | cons a l ih => exact ih.trans (hf x a)

end Standings

/-! ### Operations that touch no partition -/

section Apart

variable (s : State)

@[simp] theorem emitRoce_parts {q : Qp} {p : RocePacket} {load headroom : Nat} :
    (emitRoce s q p load headroom).parts = s.parts :=
  (emitRoce_touches (Touches.refl { out := true, eth := true } s) rfl).parts rfl

@[simp] theorem sendMgmt_parts {p : RocePacket} : (sendMgmt s p).parts = s.parts :=
  (sendMgmt_touches (Touches.refl { sec := true, out := true, eth := true } s) rfl).parts rfl

@[simp] theorem noteRemoved_parts {out : Nat} : (noteRemoved s out).parts = s.parts :=
  (noteRemoved_touches (Touches.refl { ports := true } s) rfl).parts rfl

@[simp] theorem ownRemoved_parts {out : Nat} {p : Packet} {st : Status} : (ownRemoved s out p st).parts = s.parts :=
  (ownRemoved_touches (Touches.refl { fab := true } s) rfl).parts rfl

@[simp] theorem qpMod_parts {q : Nat} {f : Qp → Qp} : (qpMod s q f).parts = s.parts := rfl

@[simp] theorem qpFatal_parts {qi cause : Nat} : (qpFatal s qi cause).parts = s.parts :=
  (qpFatal_touches (Touches.refl { eth := true } s) rfl).parts rfl

@[simp] theorem noteWait_parts {p n : Nat} : (noteWait s p n).parts = s.parts := rfl

@[simp] theorem noteTurned_parts {req : Request} : (noteTurned s req).parts = s.parts :=
  (noteTurned_touches (Touches.refl { twn := true } s) rfl).parts rfl

@[simp] theorem chanMod_parts {c : Nat} {f : Chan → Chan} : (chanMod s c f).parts = s.parts := rfl

@[simp] theorem logDram_parts {cls source bits word sl a : Nat} :
    (logDram s cls source bits word sl a).parts = s.parts := rfl

@[simp] theorem noteRow_parts {sl a n : Nat} : (noteRow s sl a n).parts = s.parts := rfl

@[simp] theorem queueScrub_parts {sl a : Nat} : (queueScrub s sl a).parts = s.parts :=
  (queueScrub_touches (Touches.refl { stk := true, di := true } s) rfl).parts rfl

@[simp] theorem drawFree_parts : (drawFree s).2.parts = s.parts := rfl

@[simp] theorem cachePut_parts {half line : Nat} {l : List (Nat × Nat)} : (cachePut s half line l).parts = s.parts := rfl

@[simp] theorem trafficMod_parts {half p : Nat} {f : CohHalf → CohHalf} : (trafficMod s half p f).parts = s.parts :=
  (trafficMod_touches (Touches.refl { coh := true } s) rfl).parts rfl

@[simp] theorem proto_parts {h : Nat} : (proto s h).parts = s.parts := rfl

@[simp] theorem openTxn_parts {t : Txn} : (openTxn s t).parts = s.parts := rfl

@[simp] theorem storedClean_parts {p n : Nat} : (storedClean s p n).parts = s.parts :=
  (storedClean_touches (Touches.refl { stk := true, di := true } s) rfl).parts rfl

@[simp] theorem endQps_parts {p : Nat} : (endQps s p).parts = s.parts :=
  (endQps_touches (Touches.refl { eth := true } s) rfl).parts rfl

@[simp] theorem cryptoErase_parts {p : Nat} : (cryptoErase s p).parts = s.parts :=
  (cryptoErase_touches (Touches.refl { fl := true } s) rfl).parts rfl

end Apart

/-! ### Packets and answers -/

section Packets

variable (s : State)

@[simp] theorem stands_sealPacket {p : Packet} : stands (sealPacket s p).1.parts = stands s.parts := by
  unfold sealPacket
  dsimp only
  split
  · exact stands_partSet rfl
  · rfl

@[simp] theorem stands_injectOn {plane : Nat} {needActive : Bool} {p : Packet} :
    stands (injectOn s plane needActive p).parts = stands s.parts := by
  unfold injectOn
  split
  next => rfl
  next =>
    split
    next =>
      split
      · rfl
      · split
        · exact stands_sealPacket s
        · simp
    next => split <;> rfl
    next => rfl

@[simp] theorem stands_inject {p : Packet} : stands (inject s p).parts = stands s.parts := by
  unfold inject
  split <;> simp

@[simp] theorem stands_sendRoce {qi : Nat} {taken : Option Nat} {p : RocePacket} :
    stands (sendRoce s qi taken p).parts = stands s.parts := by
  unfold sendRoce
  dsimp only
  split
  · simp
  · split
    · rw [emitRoce_parts]
      exact stands_partSet rfl
    · simp

@[simp] theorem stands_sendOwed {qi : Nat} {e : OwedResp} {ps : List RocePacket} :
    stands (sendOwed s qi e ps).parts = stands s.parts :=
  stands_foldl (fun t p => by simp)

@[simp] theorem stands_flushOrder {qi fuel : Nat} : stands (flushOrder qi fuel s).parts = stands s.parts := by
  induction fuel generalizing s with
  | zero => rfl
  | succ fuel ih =>
    unfold flushOrder
    dsimp only
    repeat' split
    all_goals simp [ih]

@[simp] theorem stands_respond {qi : Nat} {e : OwedResp} : stands (respond s qi e).parts = stands s.parts := by
  simp [respond]

@[simp] theorem stands_settleOrder {qi psn : Nat} {f : OwedResp → OwedResp} :
    stands (settleOrder s qi psn f).parts = stands s.parts := by
  simp [settleOrder]

@[simp] theorem stands_cutBack {qi psn : Nat} {ps : List RocePacket} {f : Qp → Qp} :
    stands (cutBack s qi psn ps f).parts = stands s.parts := by
  unfold cutBack
  dsimp only
  split <;> simp

@[simp] theorem stands_fatalAnswer {qi psn : Nat} {st : Status} {taken : Option Nat} :
    stands (fatalAnswer s qi psn st taken).parts = stands s.parts := by
  unfold fatalAnswer
  dsimp only
  repeat' split
  all_goals simp

@[simp] theorem stands_ethAck {qi psn : Nat} {ack send : Bool} {req : Request} {a : Ans} {taken : Option Nat} :
    stands (ethAck s qi psn ack send req a taken).parts = stands s.parts := by
  unfold ethAck
  dsimp only
  repeat' split
  all_goals simp

@[simp] theorem stands_ethReply {qi psn : Nat} {atomic : Bool} {ps : List RocePacket} {req : Request} {a : Ans}
    {taken : Option Nat} : stands (ethReply s qi psn atomic ps req a taken).parts = stands s.parts := by
  unfold ethReply
  dsimp only
  repeat' split
  all_goals simp

@[simp] theorem stands_sendControl {qi : Nat} {e : OwedAnswer} {bytes : List Byte} :
    stands (sendControl s qi e bytes).parts = stands s.parts := by
  unfold sendControl
  dsimp only
  split <;> simp

@[simp] theorem stands_flushAsked {qi fuel : Nat} : stands (flushAsked qi fuel s).parts = stands s.parts := by
  induction fuel generalizing s with
  | zero => rfl
  | succ fuel ih =>
    unfold flushAsked
    dsimp only
    repeat' split
    all_goals simp [ih]

@[simp] theorem stands_ethControlEnd {qi psn tag : Nat} {req : Request} {a : Ans} {taken : Option Nat} :
    stands (ethControlEnd s qi psn tag req a taken).parts = stands s.parts := by
  unfold ethControlEnd settleAsked
  dsimp only
  repeat' split
  all_goals simp

@[simp] theorem stands_answerRequest {req : Request} {taken : Option Nat} {a : Ans} :
    stands (answerRequest s req taken a).parts = stands s.parts := by
  unfold answerRequest
  extract_lets k u
  have hcount : stands u.parts = stands s.parts := by
    simp only [u]
    split <;> simp
  rw [← hcount]
  split
  next => dsimp only; split <;> simp
  next => simp
  next => simp
  next => simp only [stands_ethReply]; split <;> simp
  next => simp
  next => rfl

/-- What waits in admission queues ends with answers alone. -/
@[simp] theorem stands_endQueued {p : Nat} {st : Status} : stands (endQueued s p st).parts = stands s.parts := by
  have hwaiting : ∀ (t : State) (k : Nat) (req : Request) (a : Ans),
      stands (endWaiting t k req a).parts = stands t.parts := fun t k req a => by
    unfold endWaiting
    dsimp only
    split <;> simp
  refine stands_foldl (fun t k => ?_)
  split
  · rfl
  · exact (stands_foldl (fun u q => hwaiting u k _ _)).trans (by simp)

end Packets

/-! ### Reads of memory -/

section Reads

variable (s : State)

@[simp] theorem stands_countCorrected {source sl : Nat} :
    stands (countCorrected s source sl).parts = stands s.parts := by
  unfold countCorrected
  dsimp only
  split <;> split <;> simp

@[simp] theorem stands_noteCorrected {source sl a word bits : Nat} :
    stands (noteCorrected s source sl a word bits).parts = stands s.parts := by
  unfold noteCorrected
  dsimp only
  repeat' split
  all_goals simp

@[simp] theorem stands_storedError {source sl a : Nat} {ws : List (Nat × Option (Nat × Bool × Nat))} :
    stands (storedError s source sl a ws).parts = stands s.parts := by
  refine stands_foldl (fun t w => ?_)
  dsimp only
  repeat' split
  all_goals simp

@[simp] theorem stands_readColumn {source sl a : Nat} {transit : List (Nat × Nat)} :
    stands (readColumn s source sl a transit).1.parts = stands s.parts := by
  unfold readColumn
  extract_lets first clean deliver
  have hdeliver : ∀ t ws, stands (deliver t ws).1.parts = stands t.parts := fun t ws => by
    have hnoted : ∀ u : State, stands (ws.foldl (fun s w => match w.2 with
        | none => s
        | some (n, _, _) => noteCorrected s source sl a w.1 n) u).parts = stands u.parts := fun u =>
      stands_foldl (fun v w => by split <;> simp)
    simp only [deliver]
    split
    · exact hnoted t
    · exact hnoted t
  split
  · exact hdeliver s first
  · split
    · exact hdeliver _ _
    · exact stands_storedError s

@[simp] theorem stands_readLine {source sl a n : Nat} : stands (readLine s source sl a n).1.parts = stands s.parts := by
  unfold readLine
  dsimp only
  split
  · rfl
  · exact stands_readColumn s

@[simp] theorem stands_frameCopy {p n f : Nat} : stands (frameCopy s p n f).1.parts = stands s.parts :=
  stands_foldl_fst (fun y _ => stands_readLine y.1)

end Reads

/-! ### Recalls (R74, R184, R347) -/

section Recalls

variable (s : State)

@[simp] theorem stands_enterP {half p line pool : Nat} : stands (enterP s half p line pool).parts = stands s.parts := by
  unfold enterP
  dsimp only
  simp

@[simp] theorem stands_readBacking {half line pool : Nat} :
    stands (readBacking s half line pool).parts = stands s.parts := by
  unfold readBacking
  split
  next => rfl
  next sl a _ =>
    split
    next => rfl
    next =>
      have hread := stands_readColumn s (source := 3) (sl := sl) (a := a) (transit := [])
      rcases hcolumn : readColumn s 3 sl a [] with ⟨u, bad, masks⟩
      rw [hcolumn] at hread
      rw [← hread]
      dsimp only
      repeat' split
      all_goals simp

@[simp] theorem stands_readEntry {half line pool : Nat} :
    stands (readEntry s half line pool).parts = stands s.parts := by
  unfold readEntry
  extract_lets ways u
  have hview : stands u.parts = stands s.parts := by
    simp only [u]
    split <;> simp
  rw [← hview]
  split <;> simp

@[simp] theorem stands_sweptLine {p line : Nat} : stands (sweptLine s p line).parts = stands s.parts := by
  unfold sweptLine endSweep
  split
  · rfl
  · exact stands_partMod (fun _ => rfl)

@[simp] theorem stands_sendSnoop {o : Op} {p agent line seq arg aux : Nat} :
    stands (sendSnoop s o p agent line seq arg aux).parts = stands s.parts := by
  simp [sendSnoop]

/-- A recall that discards the line's data. -/
theorem stands_recallLine {line : Nat} : stands (recallLine true s line).parts = stands s.parts := by
  unfold recallLine
  extract_lets p due s1 s2 e live owner inv own
  have h1 : stands s1.parts = stands s.parts := by
    simp only [s1, if_true]
    repeat' split
    all_goals simp
  have h2 : stands s2.parts = stands s.parts := by
    rw [← h1]
    simp only [s2]
    split <;> simp
  rw [← h2]
  split
  next => rfl
  next =>
    split
    next => simp
    next =>
      dsimp only
      refine (stands_foldl (fun t j => stands_sendSnoop t)).trans ?_
      refine (stands_foldl (fun t j => stands_sendSnoop t)).trans ?_
      simp

theorem stands_recallUnits {p : Nat} {test : Nat → Bool} :
    stands (recallUnits s p true test).parts = stands s.parts :=
  stands_foldl (fun t _ => stands_recallLine t)

/-- Only the note that the queue pairs have ended changes. -/
theorem stands_tearDue : stands (tearDue s).parts = stands s.parts := by
  refine stands_foldl (fun t p => ?_)
  split
  · refine (stands_partMod ?_).trans ?_
    · exact fun _ => rfl
    · simp
  · rfl

end Recalls

/-! ### Keys and ledgers (R344, R360) -/

section Ledgers

variable (s : State)

@[simp] theorem stands_destroyKeys {p : Nat} : stands (destroyKeys s p).parts = stands s.parts := by
  unfold destroyKeys setKeys
  dsimp only
  refine (stands_partMod ?_).trans ?_
  · exact fun _ => rfl
  · simp

@[simp] theorem stands_lgStart {p : Nat} : stands (lgStart s p).parts = stands s.parts := stands_partMod (fun _ => rfl)

@[simp] theorem stands_lgAppend {p : Nat} {k : LgKind} {status srckind queue req : Nat} {body extra : List Byte}
    {event : Nat} : stands (lgAppend s p k status srckind queue req body extra event).1.parts = stands s.parts := by
  unfold lgAppend lgStore
  dsimp only
  split
  · rw [storedClean_parts]
    exact stands_partSet rfl
  · exact stands_partMod (fun _ => rfl)

@[simp] theorem stands_lgImage {p srckind : Nat} {im : Image} :
    stands (lgImage s p srckind im).parts = stands s.parts := by
  simp [lgImage]

@[simp] theorem stands_cutSeal {p : Nat} : stands (cutSeal s p).parts = stands s.parts := by
  have hseal : stands (lgSeal s 0x0A).parts = stands s.parts := by
    unfold lgSeal
    split
    · rfl
    · simp
  unfold cutSeal
  dsimp only
  split
  · exact hseal
  · rfl

end Ledgers

end Sys2Proof.Proofs
end

section
/-! PROOFS. The end of verification (R70, R73, R74, R78) and a partition image's effect (R74, R76, R346). -/

namespace Sys2Proof.Proofs

open Sys2Proof.Machine Sys2Proof.Laws

/-! ### The drain begins (R73, R74) -/

section Quiesce

variable {s t : State} {p q why : Nat} {im : Image}

theorem partGet_partMod_self {f : Partition → Partition} : partGet (partMod s p f) p = f (partGet s p) := by
  rw [partGet_partMod, if_pos rfl]

theorem partGet_st_of_stands (h : stands t.parts = stands s.parts) : (partGet t p).st = (partGet s p).st :=
  congrArg Standing.st (congrFun h p)

theorem quiesce_st : (partGet (quiesce s p why) q).st = if q = p then .quiesced else (partGet s q).st := by
  refine (partGet_st_of_stands (stands_endQueued _)).trans ?_
  rw [partGet_partMod]
  split <;> rfl

theorem quiesce_img : (quiesce s p why).img = s.img :=
  (quiesce_touches (Touches.refl Mask.endWaiting s) rfl).img rfl

theorem quiesceAll_st {l : List Nat} :
    (partGet (l.foldl (fun s p => quiesce s p why) s) q).st = if q ∈ l then .quiesced else (partGet s q).st := by
  induction l generalizing s with
  | nil => rfl
  | cons p l ih =>
    rw [List.foldl_cons, ih, quiesce_st]
    by_cases hl : q ∈ l <;> simp [hl]

theorem beginDrain_of_partial (h : im.partial_ = true) :
    beginDrain s im = quiesce { s with img := { s.img with phase := 2, load := some im } } im.target 1 :=
  if_pos h

theorem beginDrain_load : (beginDrain s im).img.load = some im := by
  unfold beginDrain
  split
  · rw [quiesce_img]
  · rfl

theorem beginDrain_layout : (beginDrain s im).img.layout = s.img.layout :=
  (beginDrain_touches (Touches.refl Mask.beginDrain s) rfl).layout rfl

theorem beginDrain_st_of_whole (h : im.partial_ = false) (hp : p < 32) :
    (partGet (beginDrain s im) p).st = .quiesced := by
  unfold beginDrain
  rw [if_neg (by simp [h])]
  extract_lets ps u v
  have hquiesced : (partGet u p).st = .quiesced := by
    rw [quiesceAll_st, if_pos (List.mem_range.mpr hp)]
  have hkept : ∀ l : List Nat, ∀ w : State, (partGet (l.foldl (fun s p =>
      if ps.contains p then s else partMod s p (fun x => { x with drained := true })) w) p).st = (partGet w p).st := by
    intro l
    induction l with
    | nil => intro w; rfl
    | cons a l ih =>
      intro w
      rw [List.foldl_cons, ih]
      split
      · rfl
      · rw [partGet_partMod]
        split
        next h => rw [h]
        next => rfl
  exact (hkept _ u).trans hquiesced

end Quiesce

/-! ### The end of verification (R70, R74, R78) -/

section Verify

variable {s : State} {clk : Nat} {e : LoadErr} {im : Image} {r : ImgHeader × ImgRecords} {g : ImgState}
  {usable : Option Nat} {bs : List Byte}

theorem checkImage_of_unread (h : readImage g bs = .error e) : checkImage g usable bs = .error e := by
  unfold checkImage
  rw [h]

theorem readImage_of_checked (h : checkImage g usable bs = .ok im) : ∃ r, readImage g bs = .ok r := by
  cases hread : readImage g bs with
  | error e => rw [checkImage_of_unread hread] at h; cases h
  | ok r => exact ⟨r, rfl⟩

section
variable (hphase : s.img.phase = 1) (hboot : s.img.boot = [])
include hphase hboot

theorem exec_imageVerifyDone_of_unread (h : readImage s.img (stagedImage s) = .error e) :
    exec (.imageVerifyDone clk) s = .next (loadFailed (seenClk s clk) e) := by
  have hread : readImage (seenClk s clk).img (stagedImage (seenClk s clk)) = .error e := h
  refine (if_neg (by simp [hphase, hboot])).trans ?_
  rw [hread]

theorem exec_imageVerifyDone_of_undiscovered (h : readImage s.img (stagedImage s) = .ok r)
    (hdisc : s.fl.discovered = false) : exec (.imageVerifyDone clk) s = .next (seenClk s clk) := by
  have hread : readImage (seenClk s clk).img (stagedImage (seenClk s clk)) = .ok r := h
  refine (if_neg (by simp [hphase, hboot])).trans ?_
  rw [hread]
  split
  next heq => cases heq
  next => exact if_neg (by simp [hdisc])
  next => exact if_pos (by simp [hdisc])

variable (hdisc : s.fl.discovered = true)
include hdisc

theorem exec_imageVerifyDone_of_fault (h : checkImage s.img (some (flashLimit s.fl)) (stagedImage s) = .error e) :
    exec (.imageVerifyDone clk) s = .next (loadFailed (seenClk s clk) e) := by
  cases hread : readImage s.img (stagedImage s) with
  | error e' =>
    have he : e' = e := Except.error.inj ((checkImage_of_unread hread).symm.trans h)
    rw [exec_imageVerifyDone_of_unread hphase hboot hread, he]
  | ok r =>
    have hread' : readImage (seenClk s clk).img (stagedImage (seenClk s clk)) = .ok r := hread
    have hcheck : checkImage (seenClk s clk).img (some (flashLimit (seenClk s clk).fl)) (stagedImage (seenClk s clk)) =
      .error e := h
    refine (if_neg (by simp [hphase, hboot])).trans ?_
    rw [hread', hcheck]
    exact if_pos (by simp [hdisc])

/-- An image that passes fails only where its target is busy; else the drain begins. -/
theorem exec_imageVerifyDone_of_image (h : checkImage s.img (some (flashLimit s.fl)) (stagedImage s) = .ok im) :
    exec (.imageVerifyDone clk) s =
      if im.partial_ = true ∧ ((partGet s im.target).st = .quiesced ∨ (partGet s im.target).st = .resetting) then
        .next (loadFailed (seenClk s clk) { code := 0x16 })
      else .next (beginDrain (seenClk s clk) im) := by
  obtain ⟨r, hread⟩ := readImage_of_checked h
  have hread' : readImage (seenClk s clk).img (stagedImage (seenClk s clk)) = .ok r := hread
  have hcheck : checkImage (seenClk s clk).img (some (flashLimit (seenClk s clk).fl)) (stagedImage (seenClk s clk)) =
    .ok im := h
  refine (if_neg (by simp [hphase, hboot])).trans ?_
  rw [hread', hcheck]
  exact if_neg (by simp [hdisc])

end

end Verify

/-- Settles O13: verification ends in one of four ways, and the drain leaves the structure in force. -/
theorem verificationEndsInReportOrDrain : Obligations.VerificationEndsInReportOrDrain := by
  intro clk s hphase hboot n failed
  refine ⟨fun hdisc => ?early, fun hdisc => ?ended⟩
  case early =>
    cases hread : readImage s.img (stagedImage s) with
    | error e => exact ⟨_, exec_imageVerifyDone_of_unread hphase hboot hread, rfl⟩
    | ok r => exact ⟨_, exec_imageVerifyDone_of_undiscovered hphase hboot hread hdisc, rfl⟩
  case ended =>
    cases hcheck : checkImage s.img (some (flashLimit s.fl)) (stagedImage s) with
    | error e => exact ⟨_, exec_imageVerifyDone_of_fault hphase hboot hdisc hcheck, rfl, rfl⟩
    | ok im =>
      have hrun := exec_imageVerifyDone_of_image (clk := clk) hphase hboot hdisc hcheck
      cases hpart : im.partial_ with
      | false =>
        rw [if_neg (by simp [hpart])] at hrun
        refine ⟨_, hrun, beginDrain_layout, ?_⟩
        dsimp only
        rw [if_pos hpart]
        exact ⟨beginDrain_load, fun p hp => beginDrain_st_of_whole hpart hp⟩
      | true =>
        have hnotWhole : ¬im.partial_ = false := by simp [hpart]
        by_cases hbusy : (partGet s im.target).st = .quiesced ∨ (partGet s im.target).st = .resetting
        · rw [if_pos ⟨hpart, hbusy⟩] at hrun
          refine ⟨_, hrun, rfl, ?_⟩
          dsimp only
          rw [if_neg hnotWhole, if_pos hbusy]
          rfl
        · rw [if_neg (fun h => hbusy h.2)] at hrun
          refine ⟨_, hrun, beginDrain_layout, ?_⟩
          dsimp only
          rw [if_neg hnotWhole, if_neg hbusy]
          refine ⟨?_, beginDrain_load, ?_⟩
          · rw [beginDrain_of_partial hpart, quiesce_img]
          · rw [beginDrain_of_partial hpart, quiesce_st, if_pos rfl]

/-! ### A partition image takes effect (R74, R76, R346) -/

section Apply

variable {s : State} {im : Image} {l : Layout} {p : Nat}

@[simp] theorem dropCopy_parts {c : Option FlashLoc} : (dropCopy s c).parts = s.parts :=
  (dropCopy_touches (Touches.refl { fl := true } s) rfl).parts rfl

theorem stands_takeGranules {old new : Layout} {keep : RegionRec → Bool} :
    stands (takeGranules s p old new keep).1.parts = stands s.parts := by
  refine stands_foldl_fst (fun y e => ?_)
  dsimp only
  split
  · split
    · split <;> simp
    · simp
  · simp

/-- The entries written anew are no part of the image block. -/
theorem layEntries_img : (layEntries s l p).img = { s.img with layout := l } := by
  unfold layEntries
  extract_lets lost _ _ u
  have hwritten : Touches { Mask.layEntries with img := false, layout := false } u
      (lost.foldl (fun s k => entryWritten s p k) ((l.progs.filter (fun r => r.part = p)).foldl progWritten u)) :=
    touches_foldl (touches_foldl (Touches.refl _ u) (fun _ h _ => progWritten_touches h rfl))
      (fun _ h _ => entryWritten_touches h rfl)
  exact hwritten.img rfl

/-- The masks of a rebuild, without the image block and without the partitions. -/
abbrev rebuildMask : Mask := { Mask.applyPartition with img := false, layout := false }
abbrev unitsMask : Mask := { Mask.applyPartition with parts := false }

/-- The image block once a partition image is in force. -/
def appliedImg (g : ImgState) (im : Image) (code : Nat) : ImgState :=
  { g with layout := im.layout, phase := 4, load := none, kind := true, part := im.target, code := code }

/-- How the target stands then: it waits for the next tick under a new epoch, without an exchange key. -/
def appliedStanding (x : Standing) (im : Image) : Standing :=
  { x with
    next := some (if (partRecOf im.layout im.target).isNone then .unused else .active)
    epoch := (x.epoch + 1) % 2 ^ 32, exch := none, serial := im.serial, digest := im.digest }

/-- Nothing of the rebuild is of the image block but the structure that `layEntries` puts in force. -/
theorem applyPartition_img : ∃ code, (applyPartition s im).img = appliedImg s.img im code := by
  unfold applyPartition
  extract_lets p old new retire fresh keep s1 same
  split
  next u kept hu =>
  extract_lets s2 s3 s4 s5 s6 s7 s8 s9 s10 s11 s12 s13
  have htaken : (if same = true then (s1, []) else takeGranules s1 p old new keep).1 = u := by rw [hu]
  have himg : s13.img = { s.img with layout := im.layout } := by
    have hkeys : Touches rebuildMask s s1 :=
      touches_ite (destroyKeys_touches (Touches.refl _ s) rfl) (Touches.refl _ s)
    have hgranules : Touches rebuildMask s u := by
      rw [← htaken]
      split
      · exact hkeys
      · exact takeGranules_touches hkeys rfl
    have hbefore : Touches rebuildMask s s3 := clearUnits_touches (fillSlices_touches hgranules rfl) rfl
    have hmap : Touches rebuildMask s4 s5 :=
      touches_ite (Touches.refl _ s4) (queueEmpty_touches (touches_foldl
        (handSet_touches (cleanMap_touches (Touches.refl _ s4) rfl) rfl) (fun _ h _ => putGranule_touches h rfl)) rfl)
    have hpairs : Touches rebuildMask s4 s7 :=
      dropBuffers_touches (endPairs_touches (mapRegions_touches hmap rfl) rfl) rfl
    have hseal : Touches rebuildMask s4 s9 := cutSeal_touches (touches_ite hpairs (endQps_touches hpairs rfl)) rfl
    have hepoch : Touches rebuildMask s4 s11 :=
      advanceEpoch_touches (unfence_touches (partMod_touches hseal rfl) rfl) rfl
    have hafter : Touches rebuildMask s4 s13 :=
      twinImage_touches (lgImage_touches (touches_ite (lgStart_touches hepoch rfl) hepoch) rfl) rfl
    rw [hafter.img rfl, layEntries_img, hbefore.img rfl]
  refine ⟨codeNow s13, ?_⟩
  show { s13.img with phase := 4, load := none, kind := true, part := im.target, code := codeNow s13 } = _
  rw [himg]
  rfl

/-- The rebuild leaves every partition as it stands; the target's record then takes the image's. -/
theorem applyPartition_stands :
    stands (applyPartition s im).parts im.target = appliedStanding (stands s.parts im.target) im := by
  unfold applyPartition
  extract_lets p old new retire fresh keep s1 same
  split
  next u kept hu =>
  extract_lets s2 s3 s4 s5 s6 s7 s8 s9 s10 s11 s12 s13
  have htaken : (if same = true then (s1, []) else takeGranules s1 p old new keep).1 = u := by rw [hu]
  have hkept : stands s9.parts = stands s.parts := by
    have hkeys : stands s1.parts = stands s.parts := by
      simp only [s1]
      split <;> simp
    have hgranules : stands u.parts = stands s.parts := by
      rw [← hkeys, ← htaken]
      split
      · rfl
      · exact stands_takeGranules
    have hlaid : Touches unitsMask u s4 :=
      layEntries_touches (clearUnits_touches (fillSlices_touches (Touches.refl _ u) rfl) rfl) rfl
    have hmap : Touches unitsMask u s5 :=
      touches_ite hlaid (queueEmpty_touches (touches_foldl
        (handSet_touches (cleanMap_touches hlaid rfl) rfl) (fun _ h _ => putGranule_touches h rfl)) rfl)
    have hpairs : Touches unitsMask u s7 :=
      dropBuffers_touches (endPairs_touches (mapRegions_touches hmap rfl) rfl) rfl
    have hrebuilt : Touches unitsMask u s8 := touches_ite hpairs (endQps_touches hpairs rfl)
    rw [← hgranules, ← hrebuilt.parts rfl]
    exact stands_cutSeal s8
  have htarget : stands s11.parts im.target = appliedStanding (stands s9.parts im.target) im := by
    show standing (partGet s11 p) = _
    simp only [s11, s10, advanceEpoch, unfence, partGet_partMod_self]
    rfl
  have hended : stands s13.parts = stands s11.parts := by
    show stands s12.parts = _
    simp only [s12, stands_lgImage]
    split <;> simp
  show stands s13.parts im.target = _
  rw [hended, htarget, hkept]

end Apply

/-- Settles O15: the fill has ended, so the image is applied, and both of its parts are read off. -/
theorem partitionImageTakesEffect : Obligations.PartitionImageTakesEffect := by
  intro part s im hphase hload hpart htarget hwhy hdrained htxns
  have hrun : exec (.partitionFillDone part) s = .next (applyPartition s im) := by
    have hnone : s.coh.txns.any (fun t => t.part = part.val) = false := by simpa using htxns
    show execPartitionFillDone part s = _
    simp [execPartitionFillDone, hload, hphase, hpart, htarget, hwhy, hdrained, hnone]
  obtain ⟨code, himg⟩ := applyPartition_img (s := s) (im := im)
  have hstands := applyPartition_stands (s := s) (im := im)
  rw [htarget] at hstands
  refine ⟨_, hrun, ?_⟩
  rw [himg]
  exact ⟨rfl, rfl, rfl, rfl, (congrArg Standing.next hstands).trans (by rw [appliedStanding, htarget]),
    congrArg Standing.epoch hstands, congrArg Standing.exch hstands, congrArg Standing.serial hstands,
    congrArg Standing.digest hstands⟩

end Sys2Proof.Proofs
end

section
/-! PROOFS. The drain of a partition (R74, R75, R384): what follows its end, and what a drain that lasts too long ends. -/

namespace Sys2Proof.Proofs

open Sys2Proof.Machine Sys2Proof.Laws

/-! ### The end of a drain (R74, R75, R347) -/

section Drained

variable {s : State} {p : Nat}

theorem drained_of_nothing (hsvc : ∀ v ∈ s.svc, v.req.pkt.part.toNat ≠ p) (htxns : ∀ t ∈ s.coh.txns, t.part ≠ p)
    (hpairs : ∀ q < 64, (pairGet s p q).service = none) : drained s p = true := by
  simp only [drained, Bool.and_eq_true, Bool.not_eq_true', List.any_eq_false, List.all_eq_true, List.mem_range,
    decide_eq_true_eq]
  exact ⟨⟨hsvc, htxns⟩, fun q hq => by rw [hpairs q hq]; rfl⟩

theorem exec_partitionDrainDone {part : Fin 32} (hst : (partGet s part).st = .quiesced)
    (hdrained : (partGet s part).drained = false) (hwhy : (partGet s part).why ≠ 0) (hnothing : drained s part = true) :
    exec (.partitionDrainDone part) s = .next (afterDrain s part) :=
  if_neg (by simp [hst, hdrained, hwhy, hnothing])

/-- Recalls and the end of queue pairs leave the image block. -/
theorem tearDue_recallUnits_img {test : Nat → Bool} : (tearDue (recallUnits s p true test)).img = s.img :=
  (tearDue_touches (M := { Mask.openRecovery with eth := true })
    (recallUnits_touches (Touches.refl _ s) rfl) rfl).img rfl

theorem stands_tearDue_recallUnits {test : Nat → Bool} :
    stands (tearDue (recallUnits s p true test)).parts = stands s.parts :=
  (stands_tearDue _).trans (stands_recallUnits s)

/-- Whatever the drain was for, the partition is drained and stays as it was. -/
theorem afterDrain_stands : stands (afterDrain s p).parts =
    stands (partMod s p (fun x => { x with drained := true })).parts := by
  unfold afterDrain
  extract_lets x u
  split
  next => exact stands_tearDue_recallUnits
  next => exact stands_tearDue_recallUnits
  next => rfl
  next => rfl

theorem afterDrain_drained : (partGet (afterDrain s p) p).drained = true := by
  refine (congrArg Standing.drained (congrFun afterDrain_stands p)).trans ?_
  rw [stands_eq, partGet_partMod_self]
  rfl

theorem afterDrain_st : (partGet (afterDrain s p) p).st = (partGet s p).st := by
  refine (partGet_st_of_stands afterDrain_stands).trans ?_
  rw [partGet_partMod_self]

theorem afterDrain_of_image (hwhy : (partGet s p).why = 1) (hload : s.img.load ≠ none) :
    (afterDrain s p).img.phase = 3 := by
  obtain ⟨im, him⟩ := Option.ne_none_iff_exists'.mp hload
  unfold afterDrain
  extract_lets x u
  split
  next => exact congrArg ImgState.phase tearDue_recallUnits_img
  next h => exact absurd (hwhy.symm.trans h) (by decide)
  next h => exact absurd (hwhy.symm.trans h) (by decide)
  next h => exact (h im hwhy him).elim

theorem afterDrain_of_reset (hwhy : (partGet s p).why = 3) :
    afterDrain s p = partSet s p { partGet s p with drained := true } := by
  unfold afterDrain
  extract_lets x u
  split
  next h _ => exact absurd (hwhy.symm.trans h) (by decide)
  next h => exact absurd (hwhy.symm.trans h) (by decide)
  next h => exact absurd (hwhy.symm.trans h) (by decide)
  next => rfl

theorem afterDrain_of_device (hwhy : (partGet s p).why = 4) :
    (afterDrain s p).img = { s.img with
      draining := s.img.draining.filter (· ≠ p)
      phase := if s.img.draining.filter (· ≠ p) = [] then 3 else s.img.phase } := by
  unfold afterDrain
  extract_lets x u
  split
  next h _ => exact absurd (hwhy.symm.trans h) (by decide)
  next h => exact absurd (hwhy.symm.trans h) (by decide)
  next => rfl
  next h _ => exact (h hwhy).elim

end Drained

/-! ### The end of what is in service (R75, R281, R385) -/

/-- `t` serves no request that `s` does not, and has the same transactions open. -/
def ServesWithin (s t : State) : Prop := t.svc ⊆ s.svc ∧ t.coh.txns = s.coh.txns

section Serving

variable {s t u : State} {M : Mask} {p q : Nat} {v : Service} {a : Ans} {st : Status} {addr : Nat}

theorem ServesWithin.refl (s : State) : ServesWithin s s := ⟨List.Subset.refl _, rfl⟩

theorem ServesWithin.trans (h : ServesWithin s t) (k : ServesWithin t u) : ServesWithin s u :=
  ⟨List.Subset.trans k.1 h.1, k.2.trans h.2⟩

theorem ServesWithin.foldl {α : Type} {f : State → α → State} {l : List α} (hf : ∀ t a, ServesWithin t (f t a)) :
    ServesWithin s (l.foldl f s) := by
  induction l generalizing s with
  | nil => exact .refl s
  | cons a l ih => exact (hf s a).trans ih

theorem servesWithin_of_touches (h : Touches M s t) (hsvc : M.svc = false) (hcoh : M.coh = false) :
    ServesWithin s t :=
  ⟨by rw [h.svc hsvc]; exact List.Subset.refl _, by rw [h.coh hcoh]⟩

theorem servesWithin_dropSvc {k : Nat} : ServesWithin s (dropSvc s k) := ⟨List.filter_subset_self _, rfl⟩

theorem servesWithin_dropPieces {k : Nat} : ServesWithin s (dropPieces s k) := ⟨List.Subset.refl _, rfl⟩

theorem servesWithin_finish : ServesWithin s (finish s v a) :=
  ⟨by rw [finish_svc]; exact List.filter_subset_self _,
    by rw [(finish_touches (Touches.refl Mask.finish s) rfl).coh rfl]⟩

theorem servesWithin_reply : ServesWithin s (reply s v a) := by
  unfold reply
  dsimp only
  split
  · exact servesWithin_finish
  · split
    · exact ⟨List.Subset.refl _, rfl⟩
    · exact servesWithin_finish

theorem servesWithin_resolve {k : Nat} {ps : List Gathered} :
    ServesWithin s (resolve (blurFailed (dropPieces s k) v ps) v ps).1 :=
  servesWithin_dropPieces.trans (servesWithin_of_touches
    (resolve_touches (blurFailed_touches (Touches.refl Mask.blurRange _) rfl) rfl) rfl rfl)

/-- Answering what has all its pieces takes requests out of service only. -/
theorem servesWithin_settle : ServesWithin s (settle s) := by
  refine .foldl (fun t v => ?_)
  split
  · exact .refl t
  · split
    · split
      · exact servesWithin_dropPieces.trans ((servesWithin_of_touches
          (logPlacement_touches (Touches.refl { di := true } _) rfl) rfl rfl).trans servesWithin_dropSvc)
      · exact .refl t
    · exact servesWithin_resolve.trans servesWithin_reply

/-! #### Commands of a partition's pairs -/

theorem pairGet_pairMod_other {f : Pair → Pair} {j : Nat} (h : j ≠ q) :
    pairGet (pairMod s p q f) p j = pairGet s p j := by
  rw [pairMod, pairGet_pairSet, if_neg (by omega)]

theorem pairGet_pairMod_self {f : Pair → Pair} : pairGet (pairMod s p q f) p q = f (pairGet s p q) := by
  rw [pairMod, pairGet_pairSet, if_pos rfl]

theorem pairGet_of_pairs (h : t.eng.pairs = s.eng.pairs) {j : Nat} : pairGet t p j = pairGet s p j := by
  rw [pairGet, pairGet, h]

/-- From `s` to `t` work of pair `q` may end, and nothing else of the partition's pairs changes. -/
def EndsPair (p q : Nat) (s t : State) : Prop :=
  ServesWithin s t ∧ ∀ j, j ≠ q → pairGet t p j = pairGet s p j

theorem EndsPair.refl (s : State) : EndsPair p q s s := ⟨.refl s, fun _ _ => rfl⟩

theorem EndsPair.trans (h : EndsPair p q s t) (k : EndsPair p q t u) : EndsPair p q s u :=
  ⟨h.1.trans k.1, fun j hj => (k.2 j hj).trans (h.2 j hj)⟩

theorem EndsPair.foldl {α : Type} {f : State → α → State} {l : List α} (hf : ∀ t a, EndsPair p q t (f t a)) :
    EndsPair p q s (l.foldl f s) := by
  induction l generalizing s with
  | nil => exact .refl s
  | cons a l ih => exact (hf s a).trans ih

theorem endsPair_of_touches (h : Touches M s t) (hsvc : M.svc = false) (hcoh : M.coh = false)
    (hpairs : t.eng.pairs = s.eng.pairs) : EndsPair p q s t :=
  ⟨servesWithin_of_touches h hsvc hcoh, fun _ _ => pairGet_of_pairs hpairs⟩

theorem endsPair_pairMod {f : Pair → Pair} : EndsPair p q s (pairMod s p q f) :=
  ⟨servesWithin_of_touches (pairMod_touches (Touches.refl { eng := true } s) rfl) rfl rfl,
    fun _ hj => pairGet_pairMod_other hj⟩

theorem endsPair_queueStore {n x : Nat} : EndsPair p q s (queueStore s p n x) :=
  have h := queueStore_touches (Touches.refl Mask.nearWriteWord s) rfl
  endsPair_of_touches h rfl rfl (congrArg Engines.pairs (h.eng rfl))

theorem endsPair_dropPieces {k : Nat} : EndsPair p q s (dropPieces s k) := ⟨servesWithin_dropPieces, fun _ _ => rfl⟩

theorem endsPair_dropSvc {k : Nat} : EndsPair p q s (dropSvc s k) := ⟨servesWithin_dropSvc, fun _ _ => rfl⟩

theorem endsPair_lgAppend {k : LgKind} {status srckind queue req event : Nat} {body extra : List Byte} :
    EndsPair p q s (lgAppend s p k status srckind queue req body extra event).1 :=
  have h := lgAppend_touches (Touches.refl Mask.countCorrected s) rfl
  endsPair_of_touches h rfl rfl (congrArg Engines.pairs (h.eng rfl))

theorem endsPair_writeCompletion : EndsPair p q s (writeCompletion s p q st addr) := by
  unfold writeCompletion
  extract_lets x
  split
  · exact .refl s
  · dsimp only
    exact ((((endsPair_queueStore.trans endsPair_queueStore).trans endsPair_queueStore).trans
      endsPair_dropPieces).trans endsPair_dropSvc).trans endsPair_pairMod

theorem writeCompletion_service : (pairGet (writeCompletion s p q st addr) p q).service = none := by
  unfold writeCompletion
  extract_lets x
  split
  next h => exact h
  next => dsimp only; rw [pairGet_pairMod_self]

theorem endsPair_endLead : EndsPair p q s (endLead s p q) := by
  refine endsPair_of_touches (endLead_touches (Touches.refl { eng := true } s) rfl) rfl rfl ?_
  unfold endLead
  split
  · rfl
  · dsimp only
    split
    · rfl
    · exact applyPrune_pairs

theorem endsPair_postCompletion : EndsPair p q s (postCompletion s p q st addr) := by
  unfold postCompletion
  extract_lets x
  split
  · exact .refl s
  · extract_lets extra
    split
    next h => exact (h ▸ endsPair_lgAppend).trans endsPair_writeCompletion
    next h => exact (h ▸ endsPair_lgAppend).trans endsPair_pairMod

/-- A command that ends has left its pair, or waits there for its ledger entry. -/
theorem postCompletion_service : (pairGet (postCompletion s p q st addr) p q).service = none ∨
    ∃ w, (pairGet (postCompletion s p q st addr) p q).waiting = some w := by
  unfold postCompletion
  extract_lets x
  split
  next h => exact .inl h
  next =>
    extract_lets extra
    split
    next => exact .inl writeCompletion_service
    next => exact .inr ⟨_, by rw [pairGet_pairMod_self]⟩

theorem endsPair_endCommand : EndsPair p q s (endCommand s p q .quiesced addr) :=
  endsPair_endLead.trans endsPair_postCompletion

theorem endCommand_service : (pairGet (endCommand s p q .quiesced addr) p q).service = none ∨
    ∃ w, (pairGet (endCommand s p q .quiesced addr) p q).waiting = some w :=
  postCompletion_service

end Serving

/-! #### The steps of the end -/

/-- A request of the partition leaves service: withdrawn, and answered QUIESCED where it is no engine's. -/
def endRequest (s : State) (v : Service) : State := match v.req.origin with
  | .engine _ _ => dropSvc (withdrawSvc s v.ticket) v.ticket
  | _ => finish (withdrawSvc s v.ticket) v (endWith .quiesced (some v.req.pkt.addr.toNat))

/-- The command of a pair ends QUIESCED, its completion posted whether or not its ledger entry is held. -/
def endPair (p : Nat) (s : State) (q : Nat) : State := match (pairGet s p q).service with
  | none => s
  | some c => match (pairGet s p q).waiting with
    | some (st, a) => writeCompletion (forgetHeld s p q) p q st a
    | none =>
      let t := endCommand (dropPieces (c.parts.foldl (fun s x => logMod s x.engine freeEngine) (noAddress s).1) c.ticket)
        p q .quiesced (noAddress s).2
      match (pairGet t p q).waiting with
      | some (st, a) => writeCompletion (forgetHeld t p q) p q st a
      | none => t

/-- The requests of the partition in service. -/
def ownRequests (s : State) (p : Nat) : List Service := s.svc.filter (fun v => v.req.pkt.part.toNat = p)

theorem endService_eq (s : State) (p : Nat) : endService s p .quiesced =
    (List.range 64).foldl (endPair p) ((ownRequests (endTxns s (fun t => t.part = p)) p).foldl endRequest
      (endTxns s (fun t => t.part = p))) := rfl

section Steps

variable {s t : State} {p q : Nat} {v : Service} {f : Txn → Bool}

/-! Transactions. -/

theorem enterP_txns {half line pool : Nat} : (enterP s half p line pool).coh.txns = s.coh.txns := by
  have hdir : (dirSet s line { st := .P }).coh.txns = s.coh.txns := by
    unfold dirSet
    dsimp only
    split
    · rfl
    · exact (congrArg Coh.txns ((entryClean_touches (Touches.refl { stk := true, di := true } _) rfl).coh rfl) :)
  exact hdir

/-- One transaction is dropped, its line enters P. -/
def endOne (s : State) (t : Txn) : State := enterP (dropTxn s t.id) t.half t.part t.line t.pool

theorem mem_txns_endOnes {l : List Txn} {y : Txn} (hy : y ∈ (l.foldl endOne s).coh.txns) :
    y ∈ s.coh.txns ∧ ∀ t ∈ l, y.id ≠ t.id := by
  induction l generalizing s with
  | nil => exact ⟨hy, by simp⟩
  | cons t l ih =>
    obtain ⟨hmem, hids⟩ := ih hy
    rw [endOne, enterP_txns] at hmem
    obtain ⟨hold, hid⟩ := List.mem_filter.mp hmem
    exact ⟨hold, List.forall_mem_cons.mpr ⟨by simpa using hid, hids⟩⟩

theorem endTxns_txns {y : Txn} (hy : y ∈ (endTxns s f).coh.txns) : f y = false := by
  obtain ⟨hmem, hids⟩ := mem_txns_endOnes (s := s) (l := s.coh.txns.filter f) hy
  by_contra hf
  exact hids y (List.mem_filter.mpr ⟨hmem, by simpa using hf⟩) rfl

/-! Requests. -/

theorem endRequest_svc : (endRequest s v).svc = s.svc.filter (fun x => x.ticket ≠ v.ticket) := by
  unfold endRequest
  split
  · rfl
  · rw [finish_svc]
    rfl

/-- A withdrawn request leaves every transaction open in its partition. -/
theorem endRequest_txns : (endRequest s v).coh.txns.map (·.part) = s.coh.txns.map (·.part) := by
  have hdrawn : (withdrawSvc s v.ticket).coh.txns.map (·.part) = s.coh.txns.map (·.part) := by
    simp [withdrawSvc, dropPieces]
  rw [← hdrawn]
  unfold endRequest
  split
  · rfl
  · rw [(finish_touches (Touches.refl Mask.finish (withdrawSvc s v.ticket)) rfl).coh rfl]

theorem endRequests_txns {l : List Service} :
    (l.foldl endRequest s).coh.txns.map (·.part) = s.coh.txns.map (·.part) := by
  induction l generalizing s with
  | nil => rfl
  | cons v l ih => exact ih.trans endRequest_txns

theorem mem_svc_endRequests {l : List Service} {y : Service} (hy : y ∈ (l.foldl endRequest s).svc) :
    y ∈ s.svc ∧ ∀ v ∈ l, y.ticket ≠ v.ticket := by
  induction l generalizing s with
  | nil => exact ⟨hy, by simp⟩
  | cons v l ih =>
    obtain ⟨hmem, htickets⟩ := ih hy
    rw [endRequest_svc] at hmem
    obtain ⟨hold, hticket⟩ := List.mem_filter.mp hmem
    exact ⟨hold, List.forall_mem_cons.mpr ⟨by simpa using hticket, htickets⟩⟩

theorem endOwnRequests_svc {y : Service} (hy : y ∈ ((ownRequests s p).foldl endRequest s).svc) :
    y.req.pkt.part.toNat ≠ p := by
  obtain ⟨hmem, htickets⟩ := mem_svc_endRequests hy
  intro hp
  exact htickets y (List.mem_filter.mpr ⟨hmem, by simpa using hp⟩) rfl

/-! Commands. -/

theorem endsPair_endPair : EndsPair p q s (endPair p s q) := by
  have hwritten : ∀ u : State, ∀ st a, EndsPair p q u (writeCompletion (forgetHeld u p q) p q st a) := fun u st a =>
    (endsPair_of_touches (forgetHeld_touches (Touches.refl { parts := true } u) rfl) rfl rfl rfl).trans
      endsPair_writeCompletion
  unfold endPair
  split
  · exact .refl s
  next c _ =>
    split
    · exact hwritten s _ _
    · extract_lets t
      have hdrawn : EndsPair p q s (noAddress s).1 :=
        have h := noAddress_touches (Touches.refl { free := true } s) rfl
        endsPair_of_touches h rfl rfl (congrArg Engines.pairs (h.eng rfl))
      have hfreed : EndsPair p q (noAddress s).1
          (c.parts.foldl (fun s x => logMod s x.engine freeEngine) (noAddress s).1) :=
        .foldl (fun u _ => endsPair_of_touches (logMod_touches (Touches.refl { eng := true } u) rfl) rfl rfl rfl)
      have hended : EndsPair p q s t := ((hdrawn.trans hfreed).trans endsPair_dropPieces).trans endsPair_endCommand
      split
      · exact hended.trans (hwritten t _ _)
      · exact hended

theorem endPair_service : (pairGet (endPair p s q) p q).service = none := by
  unfold endPair
  split
  next h => exact h
  next c _ =>
    split
    · exact writeCompletion_service
    · extract_lets t
      split
      · exact writeCompletion_service
      next hwait =>
        rcases endCommand_service with h | ⟨w, h⟩
        · exact h
        · exact absurd (hwait.symm.trans h) (by simp)

/-- A pair that has nothing in service stays so, and each pair of a list comes to it. -/
theorem endPairs_service {l : List Nat} (h : q ∈ l ∨ (pairGet s p q).service = none) :
    (pairGet (l.foldl (endPair p) s) p q).service = none := by
  induction l generalizing s with
  | nil => simpa using h
  | cons j l ih =>
    refine ih ?_
    by_cases hj : q = j
    · exact .inr (hj ▸ endPair_service)
    · refine h.imp (fun hmem => (List.mem_cons.mp hmem).resolve_left hj) (fun hnone => ?_)
      rw [endsPair_endPair.2 q hj, hnone]

theorem servesWithin_endPairs {l : List Nat} : ServesWithin s (l.foldl (endPair p) s) :=
  .foldl (fun _ _ => endsPair_endPair.1)

/-! The whole. -/

theorem endService_svc : ∀ v ∈ (endService s p .quiesced).svc, v.req.pkt.part.toNat ≠ p := fun _ hv =>
  endOwnRequests_svc ((endService_eq s p ▸ servesWithin_endPairs).1 hv)

theorem endService_txns : ∀ y ∈ (endService s p .quiesced).coh.txns, y.part ≠ p := by
  intro y hy
  rw [endService_eq, servesWithin_endPairs.2] at hy
  have hpart := List.mem_map_of_mem (f := (·.part)) hy
  rw [endRequests_txns] at hpart
  obtain ⟨x, hx, hxy⟩ := List.mem_map.mp hpart
  rw [← hxy]
  simpa using endTxns_txns hx

theorem endService_pairs {j : Nat} (hj : j < 64) : (pairGet (endService s p .quiesced) p j).service = none := by
  rw [endService_eq]
  exact endPairs_service (.inl (List.mem_range.mpr hj))

/-- Answering the requests of others begins nothing of the partition's. -/
theorem settled_endService : (∀ v ∈ (settle (endService s p .quiesced)).svc, v.req.pkt.part.toNat ≠ p) ∧
    (∀ y ∈ (settle (endService s p .quiesced)).coh.txns, y.part ≠ p) ∧
    ∀ j < 64, (pairGet (settle (endService s p .quiesced)) p j).service = none := by
  obtain ⟨hsvc, htxns⟩ := servesWithin_settle (s := endService s p .quiesced)
  have heng := (settle_touches (Touches.refl Mask.settle (endService s p .quiesced)) rfl).eng rfl
  refine ⟨fun v hv => endService_svc v (hsvc hv), ?_, fun j hj => ?_⟩
  · rw [htxns]
    exact endService_txns
  · rw [pairGet_of_pairs (congrArg Engines.pairs heng)]
    exact endService_pairs hj

theorem exec_drainTimeout {part : Fin 32} (hst : (partGet s part).st = .quiesced)
    (hdrained : (partGet s part).drained = false) (hwhy : (partGet s part).why ≠ 0)
    (htime : (partGet s part).since + 64 ≤ s.td.ptime) :
    exec (.drainTimeout part) s = .next (settle (endService s part .quiesced)) :=
  if_neg (by simpa [hst, hdrained, hwhy, frameOf] using htime)

end Steps

/-! #### A request in service alone -/

section AloneEnds

variable {s : State} {p : Nat} {v : Service} {port : Nat}

/-- No piece, transaction, wait or twin's work stands beside what is in service. -/
structure NothingBeside (s : State) : Prop where
  gathered : s.coh.gathered = []
  pubWait : s.coh.pubWait = []
  placing : s.coh.placing = []
  txns : s.coh.txns = []
  held : s.twn.held = []
  answers : s.twn.answers = []

theorem coh_of_nothing {c : Coh} (hgathered : c.gathered = []) (hpub : c.pubWait = []) (hplacing : c.placing = [])
    (htxns : c.txns = []) : { c with gathered := [], pubWait := [], placing := [], txns := [] } = c := by
  cases c
  simp_all

theorem twin_of_nothing {w : Twin} (hheld : w.held = []) (hanswers : w.answers = []) :
    { w with held := [], answers := [] } = w := by
  cases w
  simp_all

theorem withdrawSvc_of_nothingBeside (h : NothingBeside s) {k : Nat} : withdrawSvc s k = s := by
  obtain ⟨hgathered, hpub, hplacing, htxns, hheld, hanswers⟩ := h
  simp only [withdrawSvc, dropPieces, hgathered, hpub, hplacing, htxns, hheld, hanswers, List.filter_nil, List.map_nil,
    coh_of_nothing hgathered hpub hplacing htxns, twin_of_nothing hheld hanswers]

theorem endTxns_of_none {f : Txn → Bool} (h : s.coh.txns = []) : endTxns s f = s := by
  rw [endTxns, h]
  rfl

theorem endPairs_of_none {l : List Nat} (h : ∀ q ∈ l, (pairGet s p q).service = none) :
    l.foldl (endPair p) s = s := by
  induction l with
  | nil => rfl
  | cons q l ih =>
    have hq : endPair p s q = s := by rw [endPair, h q List.mem_cons_self]
    rw [List.foldl_cons, hq]
    exact ih (fun j hj => h j (List.mem_cons_of_mem q hj))

theorem settle_of_none (h : s.svc = []) : settle s = s := by
  rw [settle, h]
  rfl

theorem endService_of_alone (hsvc : s.svc = [v]) (horigin : v.req.origin = .fabric port)
    (hpart : v.req.pkt.part.toNat = p) (hbeside : NothingBeside s) (hpairs : ∀ q < 64, (pairGet s p q).service = none) :
    settle (endService s p .quiesced) = finish s v (endWith .quiesced (some v.req.pkt.addr.toNat)) := by
  have hown : ownRequests s p = [v] := by simp [ownRequests, hsvc, hpart]
  have hended : endRequest s v = finish s v (endWith .quiesced (some v.req.pkt.addr.toNat)) := by
    rw [endRequest, horigin, withdrawSvc_of_nothingBeside hbeside]
  rw [endService_eq, endTxns_of_none hbeside.txns, hown, List.foldl_cons, List.foldl_nil, hended, endPairs_of_none,
    settle_of_none]
  · rw [finish_svc, hsvc]
    simp
  · intro q hq
    rw [pairGet_of_pairs (congrArg Engines.pairs ((finish_touches (Touches.refl Mask.finish s) rfl).eng rfl))]
    exact hpairs q (List.mem_range.mp hq)

end AloneEnds

/-- Settles O14: a drain that has ended goes on as its cause asks; one that lasts too long ends transactions, requests and
commands in turn, each step adding nothing to what is in service. -/
theorem drainEnds : Obligations.DrainEnds := by
  intro part s x hst hdrained hwhy
  refine ⟨fun hsvc htxns hpairs => ?ended, fun htime => ?timeout⟩
  case ended =>
    refine ⟨_, exec_partitionDrainDone hst hdrained hwhy (drained_of_nothing hsvc htxns hpairs), afterDrain_drained,
      afterDrain_st.trans hst, afterDrain_of_image, afterDrain_of_reset, fun h => ?_⟩
    rw [afterDrain_of_device h]
    exact ⟨rfl, rfl⟩
  case timeout =>
    obtain ⟨hsvc, htxns, hpairs⟩ := settled_endService (s := s) (p := part)
    refine ⟨_, exec_drainTimeout hst hdrained hwhy htime, hsvc, htxns, hpairs, ?_⟩
    intro v port hv horigin hpart hgathered hpub hplacing htxns' hheld hanswers hnone
    exact endService_of_alone hv horigin hpart ⟨hgathered, hpub, hplacing, htxns', hheld, hanswers⟩ hnone

end Sys2Proof.Proofs
end

section
/-! PROOFS. The start, from t1 to the beginning of the hardware fill, and the boot counter that counts it (R109, R309,
R393, R394). -/

namespace Sys2Proof.Proofs

open Sys2Proof.Machine Sys2Proof.Laws

/-! ### The start (R109, R309, R393) -/

section Start

variable {s : State} {k : StartKind} {p c : Nat} {l : List Nat}

/-- A start's part for one partition: its epoch advances under a new transient key set (R344, R346). -/
def restartPart (s : State) (p : Nat) : State :=
  partSet { s with sec := { s.sec with nextKey := s.sec.nextKey + 1 } } p
    { epoch := ((partGet s p).epoch + 1) % 2 ^ 32, keys := transientSet s.sec.nextKey }

theorem restartParts_eq : restartParts s = (List.range 32).foldl restartPart s := rfl

theorem restartPart_epoch {j : Nat} : (partGet (restartPart s p) j).epoch =
    if j = p then ((partGet s p).epoch + 1) % 2 ^ 32 else (partGet s j).epoch := by
  rw [restartPart, partGet_partSet]
  split <;> rfl

theorem epoch_foldl_restartPart {n : Nat} : (partGet ((List.range n).foldl restartPart s) p).epoch =
    if p < n then ((partGet s p).epoch + 1) % 2 ^ 32 else (partGet s p).epoch := by
  induction n with
  | zero => rfl
  | succ n ih =>
    rw [List.range_succ, List.foldl_append, List.foldl_cons, List.foldl_nil, restartPart_epoch]
    by_cases hp : p = n
    · subst hp
      rw [if_pos rfl, ih, if_neg (lt_irrefl p), if_pos (Nat.lt_succ_self p)]
    · rw [if_neg hp, ih]
      exact if_congr (by omega) rfl rfl

theorem restartParts_epoch (hp : p < 32) :
    (partGet (restartParts s) p).epoch = ((partGet s p).epoch + 1) % 2 ^ 32 := by
  rw [restartParts_eq, epoch_foldl_restartPart, if_pos hp]

theorem restartParts_touches_self : Touches { parts := true, sec := true } s (restartParts s) :=
  restartParts_touches (Touches.refl _ s) rfl

theorem restart_td : (restart k s).td = restartTd k s.td :=
  congrArg (restartTd k) (restartParts_touches_self.td rfl)

theorem restart_pwr : (restart k s).pwr = restartPwr k s.pwr :=
  congrArg (restartPwr k) (restartParts_touches_self.pwr rfl)

/-- The blocks as the start under way leaves them: where it is like a cold one, the power block and the management
core's records stand as SMBus has left them (R393, R417). -/
def restartedBlocks (s : State) : State :=
  if coldLike s.pwr.start then { restart s.pwr.start s with mgmt := s.mgmt, pwr := s.pwr } else restart s.pwr.start s

/-- The channels that failed training are pruned, their cells blank (R214, R309). -/
def pruneUntrained (s : State) (l : List Nat) : State :=
  l.foldl (fun s c =>
    if c < 136 then chanMod s c (fun x => { x with state := 4, readable := false, blank := true }) else s) s

/-- The hardware fill begins. -/
def deviceFilling (s : State) : State :=
  { s with
    pwr := { s.pwr with stage := .filling, waking := false }
    di := { s.di with fillBusy := true, fillStart := s.td.ptime } }

/-- What t1 waits for (R393). -/
def StartReady (s : State) : Prop := s.pwr.stage = .waiting ∧ s.pwr.rstHigh = true ∧ s.pwr.refclk = true

theorem tryStart_of_unready (h : ¬ StartReady s) : tryStart s = s := by
  refine if_pos ?_
  by_contra hready
  exact h (by simpa [StartReady] using hready)

theorem tryStart_of_ready (h : StartReady s) :
    tryStart s = deviceFilling (pruneUntrained (restartedBlocks s) (restartedBlocks s).pwr.untrained) := by
  obtain ⟨hstage, hrst, hclk⟩ := h
  exact if_neg (by simp [hstage, hrst, hclk])

theorem pruneUntrained_touches : Touches { stk := true } s (pruneUntrained s l) :=
  touches_foldl (Touches.refl _ s) (fun _ ht _ => touches_ite (chanMod_touches ht rfl) ht)

/-- A channel that failed training: pruned, and nothing in it can be read. -/
def Untrained (x : Chan) : Prop := x.state = 4 ∧ x.readable = false

theorem untrained_pruneUntrained_of_untrained (h : Untrained (chanGet s c)) :
    Untrained (chanGet (pruneUntrained s l) c) := by
  induction l generalizing s with
  | nil => exact h
  | cons j l ih =>
    refine ih (s := if j < 136 then chanMod s j _ else s) ?_
    split
    · rw [chanMod, chanGet_chanSet]
      split
      · exact ⟨rfl, rfl⟩
      · exact h
    · exact h

theorem untrained_pruneUntrained (hmem : c ∈ l) (hc : c < 136) : Untrained (chanGet (pruneUntrained s l) c) := by
  induction l generalizing s with
  | nil => exact absurd hmem List.not_mem_nil
  | cons j l ih =>
    rcases List.mem_cons.mp hmem with rfl | hl
    · refine untrained_pruneUntrained_of_untrained (s := if c < 136 then chanMod s c _ else s) ?_
      rw [if_pos hc, chanMod, chanGet_chanSet, if_pos rfl]
      exact ⟨rfl, rfl⟩
    · exact ih hl

theorem restartedBlocks_td : (restartedBlocks s).td = restartTd s.pwr.start s.td := by
  unfold restartedBlocks
  split <;> exact restart_td

theorem restartedBlocks_pwr_of_coldLike (h : coldLike s.pwr.start = true) : (restartedBlocks s).pwr = s.pwr := by
  rw [restartedBlocks, if_pos h]

theorem restartedBlocks_pwr : (restartedBlocks s).pwr.start = s.pwr.start ∧
    (restartedBlocks s).pwr.untrained = s.pwr.untrained ∧ (restartedBlocks s).pwr.straps = s.pwr.straps := by
  unfold restartedBlocks
  split
  next => exact ⟨rfl, rfl, rfl⟩
  next h =>
    rw [restart_pwr]
    cases hk : s.pwr.start
    case cold => simp [hk, coldLike] at h
    case rstN => simp [hk, coldLike] at h
    case warm => exact ⟨hk, rfl, rfl⟩
    case d3 => exact ⟨rfl, rfl, rfl⟩

/-- The power block once the fill has begun. -/
theorem tryStart_pwr_of_ready (h : StartReady s) :
    (tryStart s).pwr = { (restartedBlocks s).pwr with stage := .filling, waking := false } := by
  rw [tryStart_of_ready h]
  exact congrArg (fun w : Power => { w with stage := .filling, waking := false }) (pruneUntrained_touches.pwr rfl)

theorem tryStart_td_of_ready (h : StartReady s) : (tryStart s).td = restartTd s.pwr.start s.td := by
  rw [tryStart_of_ready h, ← restartedBlocks_td]
  exact pruneUntrained_touches.td rfl

end Start

/-! ### The boot counter (R109) -/

section BootCounter

variable {s t : State} {k : StartKind}

theorem restartTd_boot {x : Traffic} :
    (restartTd k x).boot = if k = .cold then min 0xFFFFFFFF (x.boot + 1) else x.boot := by
  cases k <;> rfl

/-- A cold power-on has come to its start, and is counted. -/
def CountsColdPowerOn (s t : State) : Prop :=
  t.pwr.stage = .filling ∧ t.pwr.start = .cold ∧ (s.pwr.stage = .off ∨ s.pwr.stage = .waiting) ∧
    t.td.boot = min 0xFFFFFFFF (s.td.boot + 1)

theorem tryStart_boot (hstage : t.pwr.stage = .waiting → s.pwr.stage = .off ∨ s.pwr.stage = .waiting)
    (hboot : t.td.boot = s.td.boot) : (tryStart t).td.boot = s.td.boot ∨ CountsColdPowerOn s (tryStart t) := by
  by_cases hready : StartReady t
  · by_cases hcold : t.pwr.start = .cold
    · refine .inr ⟨?_, ?_, hstage hready.1, ?_⟩
      · rw [tryStart_pwr_of_ready hready]
      · rw [tryStart_pwr_of_ready hready]
        exact restartedBlocks_pwr.1.trans hcold
      · rw [tryStart_td_of_ready hready, restartTd_boot, if_pos hcold, hboot]
    · refine .inl ?_
      rw [tryStart_td_of_ready hready, restartTd_boot, if_neg hcold, hboot]
  · exact .inl (by rw [tryStart_of_unready hready, hboot])

theorem restart_boot (h : k ≠ .cold) : (restart k s).td.boot = s.td.boot := by
  rw [restart_td, restartTd_boot, if_neg h]

theorem execWholeDeviceFillDone_boot (h : exec .wholeDeviceFillDone s = .next t) : t.td.boot = s.td.boot := by
  change execWholeDeviceFillDone s = _ at h
  unfold execWholeDeviceFillDone at h
  split at h
  next im _ =>
    split at h
    next => exact Host.Outcome.next.inj h ▸ rfl
    next =>
      rw [← Host.Outcome.next.inj h]
      exact (layImage_touches_self.boot rfl).trans (restart_boot (s := fillDevice s) (k := .warm) (by decide))
  next => exact Host.Outcome.next.inj h ▸ rfl

theorem tickClock_boot {clk : Nat} : (tickClock s clk).td.boot = s.td.boot := rfl

/-- What follows the clock's own part of a tick leaves the boot counter. -/
theorem tick_touches_after_clock {clk : Nat} {inp : TickInputs} :
    Touches { Mask.tick with boot := false } (tickClock s clk) (tick s clk inp) := by
  have hself := Touches.refl { Mask.tick with boot := false } (tickClock s clk)
  have hrun := touches_ite (p := (tickClock s clk).pwr.state = 2) hself
    (tickRunning_touches (clk := clk) (len := clk - s.td.tickClk) (inp := inp) hself rfl)
  have hafter := tickReadings_touches (i := inp)
    (tickWatchdog_touches (tickPower_touches (tickHeat_touches hrun rfl) rfl) rfl) rfl
  exact touches_ite (trip_touches hafter rfl) hafter

theorem execFrameTick_boot {clk : Nat} {inp : TickInputs} (h : exec (.frameTick clk inp) s = .next t) :
    t.td.boot = s.td.boot := by
  change (if ticking s ∧ clk = tickAt s then Host.Outcome.next (tick s clk inp) else .next s) = _ at h
  split at h
  · rw [← Host.Outcome.next.inj h]
    exact (tick_touches_after_clock.boot rfl).trans tickClock_boot
  · exact Host.Outcome.next.inj h ▸ rfl

theorem resetPin_boot : (resetPin s).td.boot = s.td.boot := by
  unfold resetPin
  extract_lets u
  split
  · rfl
  · split <;> rfl

theorem execRstNAssert_boot {ns : Nat} (h : exec (.rstNAssert ns) s = .next t) : t.td.boot = s.td.boot := by
  change execRstNAssert ns s = _ at h
  unfold execRstNAssert at h
  split at h
  · exact Host.Outcome.next.inj h ▸ rfl
  · split at h
    · exact Host.Outcome.next.inj h ▸ resetPin_boot
    · rw [← Host.Outcome.next.inj h]
      split
      · exact resetPin_boot
      · rfl

/-- A device without power whose VIN56 rises: conversion runs, and LASTRST tells what ended the time before (R393). -/
def poweredOn (s : State) (straps : BitVec 2) (untrained : List Nat) : State :=
  { s with pwr :=
    { stage := .waiting, rstHigh := s.pwr.rstHigh, refclk := s.pwr.refclk, straps := straps.toNat,
      untrained := untrained,
      lastRst := if s.pwr.tripRecord then 2 else if s.pwr.voltRecord then 3 else 0 } }

theorem exec_coldPowerOn_of_on {straps : BitVec 2} {untrained : List Nat} (hon : s.pwr.stage ≠ .off) :
    exec (.coldPowerOn straps untrained) s = .next s :=
  if_pos hon

theorem exec_coldPowerOn_of_off {straps : BitVec 2} {untrained : List Nat} (hoff : s.pwr.stage = .off) :
    exec (.coldPowerOn straps untrained) s = .next (tryStart (poweredOn s straps untrained)) :=
  if_neg (not_not.mpr hoff)

theorem execColdPowerOn_boot {straps : BitVec 2} {untrained : List Nat}
    (h : exec (.coldPowerOn straps untrained) s = .next t) : t.td.boot = s.td.boot ∨ CountsColdPowerOn s t := by
  by_cases hoff : s.pwr.stage = .off
  · rw [exec_coldPowerOn_of_off hoff] at h
    exact Host.Outcome.next.inj h ▸ tryStart_boot (fun _ => .inl hoff) rfl
  · rw [exec_coldPowerOn_of_on hoff] at h
    exact .inl (Host.Outcome.next.inj h ▸ rfl)

theorem execRefclkStable_boot (h : exec .refclkStable s = .next t) :
    t.td.boot = s.td.boot ∨ CountsColdPowerOn s t := by
  rw [← Host.Outcome.next.inj h]
  exact tryStart_boot .inr rfl

theorem execRstNRelease_boot {straps : BitVec 2} {untrained : List Nat}
    (h : exec (.rstNRelease straps untrained) s = .next t) : t.td.boot = s.td.boot ∨ CountsColdPowerOn s t := by
  change execRstNRelease straps untrained s = _ at h
  unfold execRstNRelease at h
  split at h
  · rw [← Host.Outcome.next.inj h]
    exact tryStart_boot .inr rfl
  · exact .inl (Host.Outcome.next.inj h ▸ rfl)

end BootCounter

/-- Settles O60: the frames of all but six commands leave the boot counter; of those six, a whole-device image, the tick
and RST_N keep it, and the three that may bring t1 count a cold power-on and nothing else. -/
theorem bootCounterCountsColdPowerOnsAlone : Obligations.BootCounterCountsColdPowerOnsAlone := by
  refine ⟨fun straps untrained s hoff hrst hclk => ?counted, fun c s t h => ?kept⟩
  case counted =>
    have hready : StartReady (poweredOn s straps untrained) := ⟨rfl, hrst, hclk⟩
    exact ⟨_, exec_coldPowerOn_of_off hoff, congrArg Power.stage (tryStart_pwr_of_ready hready),
      congrArg Traffic.boot (tryStart_td_of_ready hready)⟩
  case kept =>
    by_cases hmark : (mayTouch c).boot = false
    · exact .inl ((exec_touches c s t h).boot hmark)
    · cases c with
      | wholeDeviceFillDone => exact .inl (execWholeDeviceFillDone_boot h)
      | frameTick clk inp => exact .inl (execFrameTick_boot h)
      | rstNAssert ns => exact .inl (execRstNAssert_boot h)
      | coldPowerOn straps untrained => exact execColdPowerOn_boot h
      | refclkStable => exact execRefclkStable_boot h
      | rstNRelease straps untrained => exact execRstNRelease_boot h
      | _ => exact absurd rfl hmark

end Sys2Proof.Proofs
end

section
/-! PROOFS. Frames and credit: registered FRM_SYNC edges (R84, R85, R111), what a tick makes of the clock (R84, R87,
R108, R109), and credit at a tick and at a charge (R90, R94). -/

namespace Sys2Proof.Proofs

open Sys2Proof.Machine Sys2Proof.Laws

theorem sat16_eq (n : Nat) : sat16 n = min 65535 (n + 1) := Nat.min_comm ..

/-! ### Edges and the writes beside them (R84, R85, R108, R111) -/

section Edges

variable {s : State} {clk : Nat}

/-- An edge counts: FREERUN is 0, and the device is in D0 or D1 (R85, R108). -/
def EdgesCount (s : State) : Prop := s.td.freerun = false ∧ s.pwr.state < 2

/-- An edge is taken: its tick falls 12 clk later (R84). -/
def edgeTaken (s : State) (clk : Nat) : State :=
  let n := seenClk s clk
  { n with td := { n.td with edgeTick := some (clk + 12), sync := 1 } }

/-- An edge counts as stray (R85). -/
def edgeStray (s : State) (clk : Nat) : State :=
  let n := seenClk s clk
  { n with td := { n.td with stray := sat16 s.td.stray } }

theorem exec_frmSyncEdge_of_free (h : ¬ EdgesCount s) : exec (.frmSyncEdge clk) s = .next (seenClk s clk) := by
  refine if_pos ?_
  by_contra hcount
  refine h ?_
  simpa [EdgesCount, seenClk] using hcount

/-- R84, R85: what an edge that counts does in each lock state. -/
theorem exec_frmSyncEdge_of_count (h : EdgesCount s) : exec (.frmSyncEdge clk) s =
    if s.td.sync = 0 then .next (if s.td.edgeTick.isSome then seenClk s clk else edgeTaken s clk)
    else if s.td.edgeTick.isNone ∧ 8176 ≤ clk - s.td.tickClk + 12 ∧ clk - s.td.tickClk + 12 ≤ 8208 then
      .next (edgeTaken s clk)
    else .next (edgeStray s clk) := by
  obtain ⟨hfree, hstate⟩ := h
  refine (if_neg (by simpa [seenClk, hfree] using hstate)).trans ?_
  exact if_congr Iff.rfl (apply_ite Host.Outcome.next _ _ _).symm rfl

theorem relock_of_locked (hfree : s.td.freerun = false) (hsync : s.td.sync ≠ 0) : relock s = unlockSync s := by
  simp [relock, hfree, hsync]

theorem relock_of_unlocked (h : s.td.freerun = true ∨ s.td.sync = 0) : relock s = s := by
  unfold relock
  rcases h with hfree | hsync
  · rw [if_pos hfree]
  · rw [if_pos hsync, ite_self]

/-- FREERUN enters UNLOCKED, whatever the lock state (R85). -/
theorem writeFreerun_true : writeFreerun s true =
    { s with td := { s.td with freerun := true, sync := 0, edgeTick := none } } := by
  by_cases hsync : s.td.sync = 0
  · refine (if_neg (by simpa using hsync)).trans ?_
    rw [if_pos rfl, ← hsync]
  · exact if_pos ⟨rfl, hsync⟩

end Edges

/-- Settles O18: an edge does nothing, is taken, or counts as stray, by whether edges count, by the lock state and by
where its tick would fall; RELOCK, FREERUN and CLR by their equations. -/
theorem syncStateFollowsEdges : Obligations.SyncStateFollowsEdges := by
  intro clk v s n d counts taken
  have hcount (h : counts) := exec_frmSyncEdge_of_count (clk := clk) h
  refine ⟨exec_frmSyncEdge_of_free, fun h hsync => ?unlocked, fun h hsync hedge hlo hhi => ?window,
    fun h hsync hout => ?stray, fun hfree hsync => ?relock, fun h => ?stays, fun hv => ?freerun, fun hv => ?bound,
    rfl⟩
  case unlocked => rw [hcount h, if_pos hsync]; rfl
  case window => rw [hcount h, if_neg hsync, if_pos ⟨Option.isNone_iff_eq_none.mpr hedge, hlo, hhi⟩]; rfl
  case stray =>
    rw [hcount h, if_neg hsync, if_neg ?_]
    · rw [edgeStray, sat16_eq]
    · rintro ⟨hnone, hlo, hhi⟩
      rcases hout with hedge | hfar
      · exact hedge (Option.isNone_iff_eq_none.mp hnone)
      · omega
  case relock => exact congrArg _ (relock_of_locked hfree hsync)
  case stays => exact congrArg _ (relock_of_unlocked h)
  case freerun => rw [hv]; exact congrArg _ writeFreerun_true
  case bound => rw [hv]; rfl

/-! ### Credit (R90, R94) -/

section Credit

variable {s : State} {k j u : Nat} {r : AllotRec}

theorem tickFlow_credit (h : allotOf s.img.layout k = some r) : (flowGet (tickFlow s k) k).credit =
    min ((flowGet s k).credit + min r.allot (flowGet s k).limit) (min r.allot (flowGet s k).limit + r.burst) := by
  simp only [tickFlow, h, flowGet_flowMod, if_true]

theorem tickFlow_other (h : j ≠ k) : flowGet (tickFlow s k) j = flowGet s j := by
  unfold tickFlow
  split
  · rfl
  · rw [flowGet_flowMod, if_neg h]

theorem charge_other (h : j ≠ k) : flowGet (charge s k u) j = flowGet s j := by
  unfold charge
  split <;> exact tblGet_set_other h

end Credit

/-- Settles O20: the credit after a tick and after a charge, and that each writes one flow alone. -/
theorem creditFollowsAllotment : Obligations.CreditFollowsAllotment := fun _ _ _ _ =>
  ⟨fun _ hr => tickFlow_credit hr, congrArg Flow.credit flowGet_charge,
    fun hj => ⟨tickFlow_other hj, charge_other hj⟩⟩

/-! ### What a tick makes of the clock (R84, R87, R108, R109) -/

/-- The clock of the traffic block: powered time, the boot counter, the last tick and its frame, and the lock state. -/
def clockPart (t : Traffic) : Traffic :=
  { tickClk := t.tickClk, ptime := t.ptime, boot := t.boot, sync := t.sync, hold := t.hold, lastLen := t.lastLen,
    missed := t.missed, edgeTick := t.edgeTick }

/-- From `s` to `t` the clock stands. -/
def KeepsClock (s t : State) : Prop := clockPart t.td = clockPart s.td

section Clock

variable {s t u : State} {M : Mask} {p : Nat}

theorem KeepsClock.refl (s : State) : KeepsClock s s := rfl

theorem KeepsClock.trans (h : KeepsClock s t) (k : KeepsClock t u) : KeepsClock s u := Eq.trans k h

theorem KeepsClock.foldl {α : Type} {f : State → α → State} {l : List α} (hf : ∀ u a, KeepsClock u (f u a)) :
    KeepsClock s (l.foldl f s) := by
  induction l generalizing s with
  | nil => exact .refl s
  | cons a l ih => exact (hf s a).trans ih

theorem keepsClock_of_touches (h : Touches M s t) (e : M.td = false) : KeepsClock s t := congrArg clockPart (h.td e)

/-! What waits in admission queues may end at a tick, and its wait is noted (R75, R104). -/

theorem keepsClock_endWaiting {k : Nat} {req : Request} {a : Ans} : KeepsClock s (endWaiting s k req a) := by
  have hnote : KeepsClock s (noteWait s (flowPart k) (s.td.now - req.arrived)) := rfl
  unfold endWaiting
  extract_lets n
  split
  · exact hnote
  · exact hnote.trans (keepsClock_of_touches
      (answerRequest_touches (noteTurned_touches (Touches.refl Mask.endArrival n) rfl) rfl) rfl)

theorem keepsClock_emptyFlow {k : Nat} {a : Request → Ans} : KeepsClock s (emptyFlow s k a) :=
  .foldl (fun _ _ => keepsClock_endWaiting)

theorem keepsClock_endQueued {st : Status} : KeepsClock s (endQueued s p st) :=
  .foldl (fun u k => by split <;> [exact .refl u; exact keepsClock_emptyFlow])

theorem keepsClock_quiesce {why : Nat} : KeepsClock s (quiesce s p why) :=
  .trans (t := partMod s p _) rfl keepsClock_endQueued

/-! Fences and resets that begin at a tick (R382, R385). -/

theorem keepsClock_endFenced {x : Bool × Nat} : KeepsClock s (endFenced s x) := by
  unfold endFenced
  extract_lets mine u held open_ _ w
  have hu : KeepsClock s u := .foldl (fun v k => by split <;> [exact .refl v; exact keepsClock_emptyFlow])
  exact hu.trans (.trans (t := w) rfl (.foldl (fun v y => keepsClock_of_touches
    (finish_touches (dropWait_touches (Touches.refl { Mask.endFenced with td := false } v) rfl) rfl) rfl)))

theorem keepsClock_applyFence {x : Bool × Nat} : KeepsClock s (applyFence s x) := by
  unfold applyFence
  extract_lets _ u
  have hu : KeepsClock s u := .trans (t := { s with twn := _ }) rfl keepsClock_endFenced
  split
  · exact hu
  · refine hu.trans (.foldl (fun v r => ?_))
    split
    · exact .refl v
    · exact keepsClock_of_touches (fenceAgent_touches (Touches.refl Mask.serveRead v) rfl) rfl

theorem keepsClock_tickFences : KeepsClock s (tickFences s) :=
  .trans (t := { s with twn := _ }) rfl (.foldl (fun _ _ => keepsClock_applyFence))

theorem keepsClock_beginReset385 : KeepsClock s (beginReset385 s) := by
  unfold beginReset385
  extract_lets ts u
  have hu : KeepsClock s u := .foldl (fun v j => .trans
    (keepsClock_of_touches (lgReset_touches (advanceEpoch_touches (partMod_touches
      (Touches.refl { parts := true, stk := true, di := true } v) rfl) rfl) rfl) rfl) keepsClock_endQueued)
  split
  · exact hu
  · exact hu.trans (keepsClock_of_touches (loseLead_touches (Touches.refl Mask.finish u) rfl) rfl)

theorem keepsClock_tickReset : KeepsClock s (tickReset s) := by
  unfold tickReset
  extract_lets t
  split
  · exact .refl s
  · split
    · exact keepsClock_beginReset385
    · split <;> rfl

/-! Power transitions that begin at a tick (R399). -/

theorem keepsClock_beginMove {n : Nat} : KeepsClock s (beginMove s n) := rfl

theorem keepsClock_beginSleep : KeepsClock s (beginSleep s) := by
  unfold beginSleep
  extract_lets _ u
  have hu : KeepsClock s u := rfl
  exact hu.trans (.foldl (fun v j => by split <;> [exact .refl v; exact keepsClock_quiesce]))

theorem keepsClock_oweTraining {l : List Nat} : KeepsClock s (l.foldl (fun s c => chanMod s c oweTraining) s) :=
  .foldl (fun _ _ => rfl)

theorem keepsClock_tickPower : KeepsClock s (tickPower s) := by
  unfold tickPower
  extract_lets w idle u
  have hu : KeepsClock s u := rfl
  clear_value u
  refine hu.trans ?_
  split
  · exact .refl u
  split
  · exact .refl u
  split
  · exact keepsClock_oweTraining.trans keepsClock_beginMove
  split
  · exact keepsClock_beginMove
  split
  · exact .refl u
  split
  · exact keepsClock_beginMove
  · exact keepsClock_beginSleep.trans keepsClock_beginMove

/-! The whole tick. -/

theorem keepsClock_sampleQueues {k clk : Nat} : KeepsClock s (sampleQueues s k clk) := rfl

theorem keepsClock_tickLoad {len : Nat} : KeepsClock s (tickLoad s len) := rfl

theorem keepsClock_tickHistories {clk : Nat} : KeepsClock s (tickHistories s clk) := by
  have hports (l : List Nat) (k) : KeepsClock s (l.foldl (fun s p => samplePort s p k clk) s) :=
    .foldl (fun _ _ => rfl)
  have hchans (u) (l : List Nat) (k) : KeepsClock u (l.foldl (fun s c => sampleChan s c k clk) u) :=
    .foldl (fun _ _ => rfl)
  exact (hports _ _).trans ((hchans _ _ _).trans keepsClock_sampleQueues)

theorem keepsClock_tickRunning {clk len : Nat} {inp : TickInputs} : KeepsClock s (tickRunning s clk len inp) := by
  unfold tickRunning
  extract_lets s1 s2 s3 s4 s5 s6 s7 s8 s9 s10
  have h1 : KeepsClock s s1 := keepsClock_tickHistories
  have h3 : Touches Mask.tickParts s1 s3 :=
    tickParts_touches (touches_foldl (Touches.refl _ s1) (fun _ h _ => tickFlow_touches h rfl)) rfl
  have h4 : KeepsClock s3 s4 := keepsClock_tickLoad
  have h8 : Touches { Mask.tickRunning with td := false } s4 s8 := by
    refine tickPatrol_touches (tickTraining_touches (tickTrackers_touches (tickWindows_touches (tickGrafts_touches
      (touches_foldl (startPairs_touches (Touches.refl _ s4) rfl) (fun _ h _ =>
        tickCredits_touches (tickLanes_touches h rfl) rfl)) rfl) rfl) rfl) rfl) rfl
  have h9 : KeepsClock s8 s9 := keepsClock_tickFences
  have h10 : KeepsClock s9 s10 := keepsClock_tickReset
  have h11 : Touches Mask.finish s10 (tickTwin s10 inp.leadHigh) := tickTwin_touches (Touches.refl _ s10) rfl
  exact h1.trans ((keepsClock_of_touches h3 rfl).trans (h4.trans ((keepsClock_of_touches h8 rfl).trans
    (h9.trans (h10.trans (keepsClock_of_touches h11 rfl))))))

theorem keepsClock_tick {clk : Nat} {inp : TickInputs} (h : overTrip inp = false) :
    KeepsClock (tickClock s clk) (tick s clk inp) := by
  unfold tick
  extract_lets len u v w
  rw [h, if_neg Bool.false_ne_true]
  have hv : KeepsClock u v := by
    simp only [v]
    split
    · exact .refl u
    · exact keepsClock_tickRunning
  have hheat : KeepsClock v (tickHeat v) :=
    keepsClock_of_touches (tickHeat_touches (Touches.refl { stk := true } v) rfl) rfl
  have hw : KeepsClock (tickPower (tickHeat v)) w := keepsClock_of_touches (tickReadings_touches
    (tickWatchdog_touches (Touches.refl { twn := true, pwr := true } _) rfl) rfl) rfl
  exact hv.trans (hheat.trans (keepsClock_tickPower.trans hw))

/-- A frame without a valid edge in LOCKED or HOLDOVER, but not in D2, whose timer is free of FRM_SYNC (R84, R108). -/
def FrameMissed (s : State) : Prop := s.pwr.state ≠ 2 ∧ s.td.sync ≠ 0 ∧ s.td.edgeTick = none

/-- The clock of a new frame. -/
def nextFrame (t : Traffic) (clk : Nat) : Traffic :=
  { clockPart t with tickClk := clk, ptime := (t.ptime + 1) % 2 ^ 64, lastLen := clk - t.tickClk, edgeTick := none }

theorem tickClock_of_missed {clk : Nat} (h : FrameMissed s) : clockPart (tickClock s clk).td =
    { nextFrame s.td clk with
      sync := 2, missed := sat16 s.td.missed, hold := s.td.hold || decide (s.td.sync = 1) } := by
  obtain ⟨hstate, hsync, hedge⟩ := h
  simp [tickClock, clockPart, nextFrame, hstate, hsync, hedge]

theorem tickClock_of_kept {clk : Nat} (h : ¬ FrameMissed s) :
    clockPart (tickClock s clk).td = nextFrame s.td clk := by
  have hmissed : (decide (s.pwr.state ≠ 2) && decide (s.td.sync ≠ 0) && s.td.edgeTick.isNone) = false := by
    by_contra hm
    refine h ?_
    simpa [FrameMissed, and_assoc] using hm
  simp only [tickClock, hmissed, clockPart, nextFrame, Bool.false_eq_true, if_false, Bool.false_and, Bool.or_false]

theorem exec_frameTick {clk : Nat} {inp : TickInputs} : exec (.frameTick clk inp) s =
    if ticking s = true ∧ clk = tickAt s then .next (tick s clk inp) else .next s := rfl

theorem ticking_iff : ticking s = true ↔
    s.pwr.stage = .filling ∨ (s.pwr.stage = .serving ∧ s.pwr.state ≠ 3) := by
  cases hstage : s.pwr.stage <;> simp [ticking, asleep, hstage]

theorem tickAt_eq (s : State) : tickAt s = if s.pwr.state = 2 then s.td.tickClk + 8192
    else s.td.edgeTick.getD (s.td.tickClk + if s.td.sync = 1 then 8208 else 8192) := by
  unfold tickAt
  cases s.td.edgeTick <;> rfl

/-- What a state's clock says of the next state's, field by field. -/
theorem clock_fields {x : Traffic} (h : clockPart t.td = x) : t.td.ptime = x.ptime ∧ t.td.tickClk = x.tickClk ∧
    t.td.lastLen = x.lastLen ∧ t.td.edgeTick = x.edgeTick ∧ t.td.boot = x.boot ∧ t.td.sync = x.sync ∧
    t.td.missed = x.missed ∧ t.td.hold = x.hold := by
  subst h
  exact ⟨rfl, rfl, rfl, rfl, rfl, rfl, rfl, rfl⟩

end Clock

/-- Settles O19: the tick's clk is that of `tickAt`; what follows the clock's own part of a tick leaves the clock as
that part has set it. -/
theorem tickFallsOnItsClkOnly : Obligations.TickFallsOnItsClkOnly := by
  intro clk inp s runs due missed
  have hdue : clk = tickAt s ↔ clk = due := by rw [tickAt_eq]
  rw [exec_frameTick]
  refine ⟨fun h => if_neg (fun ht => h ⟨ticking_iff.mp ht.1, hdue.mp ht.2⟩), fun hruns hclk htrip => ?tick⟩
  case tick =>
    have hkeeps := keepsClock_tick (s := s) (clk := clk) htrip
    refine ⟨tick s clk inp, if_pos ⟨ticking_iff.mpr hruns, hdue.mpr hclk⟩, ?_⟩
    by_cases hmissed : missed
    · obtain ⟨hptime, htick, hlen, hedge, hboot, hsync, hcount, hhold⟩ :=
        clock_fields (Eq.trans hkeeps (tickClock_of_missed hmissed))
      exact ⟨hptime, htick, hlen, hedge, hboot, fun _ => ⟨hsync, hcount.trans (sat16_eq _), hhold⟩,
        absurd hmissed⟩
    · obtain ⟨hptime, htick, hlen, hedge, hboot, hsync, hcount, hhold⟩ :=
        clock_fields (Eq.trans hkeeps (tickClock_of_kept hmissed))
      exact ⟨hptime, htick, hlen, hedge, hboot, fun h => absurd h hmissed, fun _ => ⟨hsync, hcount, hhold⟩⟩

end Sys2Proof.Proofs
end

section
/-! PROOFS. Two statements about what waits in a flow, refuted: a packet that ends with RETRY before its admission takes
the later packets of its queue pair out of the flow's queue with it (R329, R331). -/

namespace Sys2Proof.Proofs

open Sys2Proof.Machine Sys2Proof.Laws

/-! ### A host whose WRITE packets wait behind each other -/

/-- The flow of Ethernet host 0 in partition 0, as a command names it, and its number. -/
def hostZero : FlowKey := { part := 0, host := true, req := 0 }
def hostFlow : Nat := flowKeyNat hostZero

/-- A WRITE packet of queue pair 0 by its PSN, which arrived at clk 0. -/
def hostWrite (psn : Nat) : Request :=
  { pkt := newPacket State.reset .wr 0 0 0 0 [], origin := .ethWrite 0 psn true true false }

/-- The host's queue pair in RTS, which has taken PSN 0 and 1 and owes the answers to both. -/
def owingQp : Qp := { state := 1, epsn := 2, order := [{ psn := 0 }, { psn := 1 }] }

/-- PSN 0 was red in the frame before and waits deferred, before PSN 1, which was not; the policer's empty buckets find
PSN 0 red again. -/
def redBeforeGreen : State :=
  { State.reset with
    td := { tickClk := 8192 }
    img := { layout := {
      pols := [{ key := hostFlow, drop := false, aware := false, pir := 0, cir := 0, pbs := 0, cbs := 0 }] } }
    eth := { qps := [(0, owingQp)] }
    flows := [(hostFlow, { queue := [{ req := hostWrite 0, deferred := true }, { req := hostWrite 1 }] })] }

/-- PSN 1 waits in its flow; PSN 0, which the queue pair still owes, arrives for a partition that is QUIESCED. -/
def arrivingBarred : State :=
  { State.reset with
    parts := [(0, { st := .quiesced })]
    fab := { arrivals := [hostWrite 0] }
    eth := { qps := [(0, owingQp)] }
    flows := [(hostFlow, { queue := [{ req := hostWrite 1 }] })] }

/-! ### Second metering (R102) -/

/-- R87, R102: nothing while a lower flow has a packet due. -/
theorem exec_redRemeter {s : State} {flow : FlowKey} : exec (.redRemeter flow) s =
    if s.flows.any (fun e => decide (e.1 < flowKeyNat flow) && e.2.queue.any (remeterDue s)) then .next s
    else .next (remeterFlow s (flowKeyNat flow)) := rfl

theorem exec_redRemeter_redBeforeGreen :
    exec (.redRemeter hostZero) redBeforeGreen = .next (remeterFlow redBeforeGreen hostFlow) := by
  rw [exec_redRemeter, if_neg (by decide +kernel)]
  rfl

/-- PSN 0 ends with RETRY, and PSN 1 is then out of sequence. -/
theorem remeterFlow_redBeforeGreen_queue :
    (flowGet (remeterFlow redBeforeGreen hostFlow) hostFlow).queue = [] := by decide +kernel

/-- Refutes O23: in its second clause, a packet that is not due is lost. Where the packet due is a host's WRITE and red
again, it ends with RETRY before its admission, and the later packets of its queue pair leave the queue with it, as they
are out of sequence (R329). -/
theorem not_waitingFlowsAreRevisited : ¬ Obligations.WaitingFlowsAreRevisited := by
  intro h
  obtain ⟨-, hremeter, -⟩ := h hostZero 0 redBeforeGreen
  obtain ⟨t, hrun, -, hkept, -⟩ := hremeter (by decide +kernel)
  obtain rfl := Host.Outcome.next.inj (exec_redRemeter_redBeforeGreen.symm.trans hrun)
  have hwaits : ({ req := hostWrite 1 } : QueuedReq) ∈ (flowGet redBeforeGreen hostFlow).queue := by decide +kernel
  have hlost := hkept _ hwaits (by decide)
  exact absurd (remeterFlow_redBeforeGreen_queue ▸ hlost) List.not_mem_nil

/-! ### A barred arrival (R26, R92) -/

theorem exec_requestArrival_arrivingBarred_queue {t : State}
    (h : exec (.requestArrival 0) arrivingBarred = .next t) : (flowGet t hostFlow).queue = [] := by
  have hrun : exec (.requestArrival 0) arrivingBarred = .next (arrive (seenClk
      { arrivingBarred with fab := { arrivingBarred.fab with arrivals := [] } } 0) 0 (hostWrite 0)) := rfl
  rw [← Host.Outcome.next.inj (hrun.symm.trans h)]
  decide +kernel

/-- Refutes O21: in its first clause, the queue of the flow changes. The statement quantifies over every state, one with
a host's WRITE among the requests sunk included. Where the host's queue pair still owes the answer to that PSN, the bar
(R26) ends the request as one that waited for admission, and the later packets of its queue pair leave the queue
(R329). -/
theorem not_arrivalStepsInOrder : ¬ Obligations.ArrivalStepsInOrder := by
  intro h
  obtain ⟨t, hrun, -, -, hbarred, -⟩ := h 0 (hostWrite 0) arrivingBarred (by decide +kernel)
  have hkept := hbarred (.inr (.inl (by decide +kernel)))
  have hflow : requestFlow arrivingBarred (hostWrite 0) = hostFlow := by decide +kernel
  rw [hflow, exec_requestArrival_arrivingBarred_queue hrun] at hkept
  exact absurd hkept (by decide +kernel)

end Sys2Proof.Proofs
end

section
/-! PROOFS. Power and reset: what a start, the end of the fill, RST_N and a loss of power leave (R309, R392 to R394,
R397). -/

namespace Sys2Proof.Proofs

open Sys2Proof.Machine Sys2Proof.Laws

/-! ### The device once it has started (R309, R393) -/

section Started

variable {s : State} {k : StartKind} {l : List Nat}

theorem foldl_restartPart_sec : (l.foldl restartPart s).sec.committed = s.sec.committed ∧
    (l.foldl restartPart s).sec.mgmtKey = s.sec.mgmtKey := by
  induction l generalizing s with
  | nil => exact ⟨rfl, rfl⟩
  | cons p l ih => exact ih (s := restartPart s p)

theorem restartSec_keeps {x : Security} : (restartSec k x).committed = x.committed ∧
    (restartSec k x).mgmtKey = x.mgmtKey := by
  cases k <;> exact ⟨rfl, rfl⟩

theorem restart_sec : (restart k s).sec.committed = s.sec.committed ∧ (restart k s).sec.mgmtKey = s.sec.mgmtKey := by
  obtain ⟨hcommitted, hkey⟩ := restartSec_keeps (k := k) (x := (restartParts s).sec)
  obtain ⟨hcommitted', hkey'⟩ := foldl_restartPart_sec (s := s) (l := List.range 32)
  exact ⟨hcommitted.trans hcommitted', hkey.trans hkey'⟩

theorem restart_img : (restart k s).img.loaded = false ∧ (restart k s).img.owners = s.img.owners := by
  have himg : (restart k s).img = restartImg k s.img := congrArg (restartImg k) (restartParts_touches_self.img rfl)
  rw [himg]
  unfold restartImg
  split <;> exact ⟨rfl, rfl⟩

theorem restartUnits_parts : (restartUnits k s).parts = s.parts := rfl

theorem restart_parts : (restart k s).parts = (restartParts s).parts := restartUnits_parts

theorem restart_near_mem : (restart k s).near.mem = [] := by
  cases k <;> rfl

theorem restart_stk_dram : (restart k s).stk.dram = [] := by
  show (restartStk k (restartParts s)).dram = []
  unfold restartStk
  extract_lets
  split <;> rfl

theorem restartTd_of_start {x : Traffic} (hk : k ≠ .warm) : (restartTd k x).sync = 0 ∧
    (restartTd k x).ptime = if k = .cold then 0 else x.ptime := by
  cases k
  case warm => exact absurd rfl hk
  all_goals exact ⟨rfl, rfl⟩

/-- The blocks but the power block and the management core's records are those of the restart. -/
theorem restartedBlocks_eq (s : State) :
    ∃ m w, restartedBlocks s = { restart s.pwr.start s with mgmt := m, pwr := w } := by
  unfold restartedBlocks
  generalize restart s.pwr.start s = u
  split
  · exact ⟨s.mgmt, s.pwr, rfl⟩
  · exact ⟨u.mgmt, u.pwr, rfl⟩

theorem restartedBlocks_parts : (restartedBlocks s).parts = (restartParts s).parts := by
  obtain ⟨m, w, hblocks⟩ := restartedBlocks_eq s
  rw [hblocks]
  dsimp only
  exact restart_parts

theorem started_tryStart (h : StartReady s) (hk : s.pwr.start ≠ .warm) :
    Started s (tryStart s) s.pwr.start s.pwr.untrained := by
  obtain ⟨m, w, hblocks⟩ := restartedBlocks_eq s
  have hpruned := pruneUntrained_touches (s := restartedBlocks s) (l := (restartedBlocks s).pwr.untrained)
  have htd := tryStart_td_of_ready h
  obtain ⟨hsync, hptime⟩ := restartTd_of_start (x := s.td) hk
  obtain ⟨-, huntrained, -⟩ := restartedBlocks_pwr (s := s)
  have hstart := tryStart_of_ready h
  refine ⟨?stage, ?busy, ?fill, ?sync, ?dram, ?near, ?svc, ?flows, ?loaded, ?owners, ?committed, ?key, ?ptime, ?boot,
    fun p hp => ?epoch, fun c hc hlt => ?chans⟩
  case stage => rw [hstart]; rfl
  case busy => rw [hstart]; rfl
  case fill => rw [hstart]; rfl
  case sync => rw [htd, hsync]
  case dram =>
    rw [hstart]
    exact (hpruned.dram rfl).trans (hblocks ▸ restart_stk_dram)
  case near =>
    rw [hstart]
    exact (hpruned.nearMem rfl).trans (hblocks ▸ restart_near_mem)
  case svc => rw [hstart]; exact (hpruned.svc rfl).trans (hblocks ▸ rfl)
  case flows => rw [hstart]; exact (hpruned.flows rfl).trans (hblocks ▸ rfl)
  case loaded => rw [hstart]; exact (congrArg ImgState.loaded (hpruned.img rfl)).trans (hblocks ▸ restart_img.1)
  case owners => rw [hstart]; exact (congrArg ImgState.owners (hpruned.img rfl)).trans (hblocks ▸ restart_img.2)
  case committed => rw [hstart]; exact (congrArg Security.committed (hpruned.sec rfl)).trans (hblocks ▸ restart_sec.1)
  case key => rw [hstart]; exact (congrArg Security.mgmtKey (hpruned.sec rfl)).trans (hblocks ▸ restart_sec.2)
  case ptime => rw [htd, hptime]
  case boot => rw [htd, restartTd_boot]; rfl
  case epoch =>
    have hparts : (tryStart s).parts = (restartParts s).parts := by
      rw [hstart]
      exact (hpruned.parts rfl).trans restartedBlocks_parts
    exact (congrArg (fun ps => (tblGet (fun _ => {}) ps p).epoch) hparts).trans (restartParts_epoch hp)
  case chans =>
    rw [hstart, huntrained]
    exact untrained_pruneUntrained hc hlt

end Started

/-! ### Tables and channels written one entry after another -/

section Entries

theorem tblGet_tblSetMany_range {α : Type} [DecidableEq α] {d f : Nat → α} {n p : Nat} :
    tblGet d (tblSetMany d [] ((List.range n).map (fun p => (p, f p)))) p = if p < n then f p else d p := by
  induction n with
  | zero => rfl
  | succ n ih =>
    rw [tblSetMany] at ih ⊢
    rw [List.range_succ, List.map_append, List.foldl_append, List.map_singleton, List.foldl_cons, List.foldl_nil,
      tblGet_set, ih]
    by_cases hp : p = n
    · rw [if_pos hp, if_pos (by omega), hp]
    · rw [if_neg hp]
      exact if_congr (by omega) rfl rfl

theorem chanGet_foldl_chanMod {s : State} {f : Nat → Chan → Chan} {n c : Nat} :
    chanGet ((List.range n).foldl (fun s c => chanMod s c (f c)) s) c =
      if c < n then f c (chanGet s c) else chanGet s c := by
  induction n with
  | zero => rfl
  | succ n ih =>
    rw [List.range_succ, List.foldl_append, List.foldl_cons, List.foldl_nil, chanMod, chanGet_chanSet]
    by_cases hc : c = n
    · subst hc
      rw [if_pos rfl, if_pos (Nat.lt_succ_self c), ih, if_neg (lt_irrefl c)]
    · rw [if_neg hc, ih]
      exact if_congr (by omega) rfl rfl

end Entries

/-! ### RST_N and REFCLK (R391, R393, R394) -/

section ResetPin

variable {s : State} {ns : Nat} {straps : BitVec 2} {untrained : List Nat}

theorem railsUp_of_waiting (h : s.pwr.stage = .waiting) : railsUp s = true := by
  rw [railsUp, h]

theorem not_startReady_of (h : s.pwr.stage ≠ .waiting ∨ s.pwr.rstHigh = false ∨ s.pwr.refclk = false) :
    ¬ StartReady s := by
  rintro ⟨hstage, hrst, hclk⟩
  simp [hstage, hrst, hclk] at h

theorem exec_refclkStable :
    exec .refclkStable s = .next (tryStart { s with pwr := { s.pwr with refclk := true } }) := rfl

theorem exec_rstNAssert_of_long (h : 1000 ≤ ns) : exec (.rstNAssert ns) s = .next (resetPin s) := by
  show execRstNAssert ns s = _
  rw [execRstNAssert, if_neg (by omega), if_pos h]

theorem exec_rstNAssert_of_between (hlo : 100 ≤ ns) (hhi : ns < 1000) : exec (.rstNAssert ns) s =
    .next (if Config.freeNat s.free % 2 = 1 then resetPin { s with free := s.free + 1 }
      else { s with free := s.free + 1 }) := by
  show execRstNAssert ns s = _
  rw [execRstNAssert, if_neg (by omega), if_neg (by omega)]
  rfl

/-- RST_N is low, and REFCLK is to be stable anew (R391). -/
def pinLow (s : State) : State := { s with pwr := { s.pwr with rstHigh := false, refclk := false } }

/-- A cold power-on that has not reached its start begins to wait for it anew. -/
def coldAgain (s : State) : State := { pinLow s with mgmt := {}, pwr := restartPwr .cold (pinLow s).pwr }

/-- The device that RST_N holds: its units take their reset values, its rails are up, and Ethernet is released. -/
def heldInReset (s : State) : State :=
  let t := restartUnits .rstN (pinLow s)
  { t with
    pwr := { t.pwr with stage := .waiting, start := .rstN }
    eth := { t.eth with ports := t.eth.ports.map (fun p => { p with state := 0 }) } }

theorem resetPin_eq (s : State) : resetPin s = if !railsUp s then pinLow s
    else if s.pwr.stage = .waiting ∧ s.pwr.start = .cold then coldAgain s else heldInReset s := rfl

theorem resetPin_of_down (h : railsUp s = false) : resetPin s = pinLow s := by
  rw [resetPin_eq, h]
  rfl

theorem resetPin_of_cold (hstage : s.pwr.stage = .waiting) (hstart : s.pwr.start = .cold) :
    resetPin s = coldAgain s := by
  rw [resetPin_eq, railsUp_of_waiting hstage, if_neg (by decide), if_pos ⟨hstage, hstart⟩]

theorem resetPin_of_up (hup : railsUp s = true) (h : s.pwr.stage ≠ .waiting ∨ s.pwr.start ≠ .cold) :
    resetPin s = heldInReset s := by
  rw [resetPin_eq, hup, if_neg (show ¬ (s.pwr.stage = .waiting ∧ s.pwr.start = .cold) by tauto)]
  rfl

theorem heldInReset_port {p : Nat} : portGet (heldInReset s) p = {} := by
  have hports : (heldInReset s).ports = tblSetMany (fun _ => {}) []
      ((List.range 8).map (fun p => (p, restartPort .rstN (portGet (pinLow s) p)))) := rfl
  rw [portGet, hports, tblGet_tblSetMany_range]
  split <;> rfl

theorem heldInReset_eth : ∀ p ∈ (heldInReset s).eth.ports, p.state = 0 := by
  intro p hp
  obtain ⟨q, -, rfl⟩ := List.mem_map.mp hp
  rfl

/-- RST_N is high, and the straps are sampled (R394, R402). -/
def pinHigh (s : State) (straps : BitVec 2) (untrained : List Nat) : State :=
  { s with pwr := { s.pwr with rstHigh := true, straps := straps.toNat, untrained := untrained } }

theorem exec_rstNRelease_of_up (h : railsUp s = true) :
    exec (.rstNRelease straps untrained) s = .next (tryStart (pinHigh s straps untrained)) :=
  if_pos h

theorem exec_rstNRelease_of_down (h : railsUp s = false) : exec (.rstNRelease straps untrained) s =
    .next { s with pwr := { s.pwr with rstHigh := true } } :=
  if_neg (by simp [h])

end ResetPin

/-! ### The end of the fill (R309, R393, R404) -/

section FillDone

variable {s : State}

/-- The management core is released once the fill has ended (R309, R393). -/
def coreReleased (s : State) : State :=
  { s with
    pwr := { s.pwr with stage := .serving }
    di := { s.di with fillBusy := false, fillFrames := (s.td.ptime - s.di.fillStart) % 65536 }
    img := { s.img with bootDue := true } }

theorem coreReleased_touches : Touches { pwr := true, di := true, img := true } s (coreReleased s) := ⟨rfl, id⟩

/-- The device once the fill has ended. -/
def fillEnded (s : State) : State := coreReleased (channelsServe s)

theorem chanGet_coreReleased {c : Nat} : chanGet (coreReleased s) c = chanGet s c := rfl

/-- D0 is reached from D3, which is an event of PWR_FAULT (R404, R405). -/
def wakeDone (s : State) : State := setPwrFault { s with pwr := { s.pwr with state := 0, busy := false } } 1

theorem chanGet_wakeDone {c : Nat} : chanGet (wakeDone s) c = chanGet s c := rfl

theorem wakeDone_pwr : (wakeDone s).pwr.state = 0 ∧ (wakeDone s).pwr.busy = false ∧
    (wakeDone s).pwr.fault = s.pwr.fault ||| 1 ∧ (wakeDone s).pwr.stage = s.pwr.stage := ⟨rfl, rfl, rfl, rfl⟩

theorem wakeDone_touches : Touches { pwr := true } s (wakeDone s) := ⟨rfl, id⟩

theorem exec_hardwareFillDone_of_filling (h : s.pwr.stage = .filling) : exec .hardwareFillDone s =
    if (fillEnded s).pwr.start = .d3 then .next (wakeDone (fillEnded s)) else .next (fillEnded s) :=
  if_neg (not_not.mpr h)

theorem channelsServe_touches_self : Touches { stk := true } s (channelsServe s) :=
  channelsServe_touches (Touches.refl _ s) rfl

theorem fillEnded_touches : Touches { stk := true, pwr := true, di := true, img := true } s (fillEnded s) :=
  (channelsServe_touches_self.mono rfl).trans (coreReleased_touches.mono rfl)

theorem coreReleased_pwr : (coreReleased s).pwr = { s.pwr with stage := .serving } := rfl

theorem fillEnded_pwr (s : State) : (fillEnded s).pwr = { s.pwr with stage := .serving } := by
  rw [fillEnded, coreReleased_pwr, channelsServe_touches_self.pwr rfl]

theorem fillEnded_frames : (fillEnded s).di.fillFrames = (s.td.ptime - s.di.fillStart) % 65536 := by
  show ((channelsServe s).td.ptime - (channelsServe s).di.fillStart) % 65536 = _
  rw [channelsServe_touches_self.td rfl, channelsServe_touches_self.di rfl]

theorem chanGet_fillEnded {c : Nat} (hc : c < 136) : chanGet (fillEnded s) c =
    { chanGet s c with state := if (chanGet s c).state ≠ 0 then (chanGet s c).state
      else if c % 17 = 16 ∧ (chanGet s c).serves = none then 3 else 1 } := by
  rw [fillEnded, chanGet_coreReleased]
  refine chanGet_foldl_chanMod.trans ?_
  rw [if_pos hc]
  by_cases hstate : (chanGet s c).state = 0
  · simp [hstate]
  · simp [hstate]

end FillDone

/-! ### What a loss of power leaves (R392, R397) -/

section PowerLost

variable {s : State} {stage : Stage}

/-- Only what non-volatile storage holds is left. -/
def PowerKept (s t : State) : Prop :=
  t.stk.dram = [] ∧ t.near.mem = [] ∧ t.svc = [] ∧ t.flows = [] ∧ t.ports = [] ∧ t.td.boot = s.td.boot ∧
    t.img.owners = s.img.owners ∧ t.img.loaded = false ∧ t.sec.mgmtKey = s.sec.mgmtKey ∧
    t.sec.committed = s.sec.committed ∧ t.sec.owcCount = s.sec.owcCount ∧ t.stk.repairLog = s.stk.repairLog ∧
    t.fl.defects = s.fl.defects ∧ ∀ p, p < 32 → (partGet t p).epoch = (partGet s p).epoch

theorem losePower_kept : PowerKept s (losePower s stage) := by
  refine ⟨rfl, rfl, rfl, rfl, rfl, rfl, rfl, rfl, rfl, rfl, rfl, rfl, rfl, fun p hp => ?_⟩
  have hpart : partGet (losePower s stage) p = { epoch := (partGet s p).epoch } :=
    tblGet_tblSetMany_range.trans (if_pos hp)
  rw [hpart]

theorem trip_of_up (h : railsUp s = true) : trip s =
    { losePower s .tripped with pwr := { (losePower s .tripped).pwr with tripRecord := true, tripLow := true } } :=
  if_neg (by simp [h])

theorem trip_of_down (h : railsUp s = false) : trip s = s :=
  if_pos (by simp [h])

theorem exec_overvoltageShutdown_of_up (h : railsUp s = true) : exec .overvoltageShutdown s =
    .next { losePower s .overvolt with pwr := { (losePower s .overvolt).pwr with voltRecord := true } } :=
  if_neg (by simp [h])

theorem exec_overvoltageShutdown_of_down (h : railsUp s = false) : exec .overvoltageShutdown s = .next s :=
  if_pos (by simp [h])

end PowerLost

/-- Settles O58: whatever brings the device to t1 leaves what `started_tryStart` says; the end of the fill, RST_N by its
three cases, and the losses of power by what each leaves. -/
theorem powerComesAndGoes : Obligations.PowerComesAndGoes := by
  intro s straps untrained w kept on
  refine ⟨exec_coldPowerOn_of_on, fun hoff hlow => ?risesUnready, fun hoff hrst hclk => ?risesReady,
    fun h => ?clockUnready, fun hstage hrst hwarm => ?clockReady, fun ns h => if_pos h, fun ns h => ?pulse,
    fun ns hlo hhi => ?glitch, exec_rstNRelease_of_down, fun hup h => ?releaseUnready,
    fun hstage hclk hwarm => ?release, fun h => if_pos h, fun h => ?filled, ?loss, fun h => ?down, fun h => ?up,
    fun h => if_pos h, fun h => if_neg h⟩
  case risesUnready =>
    exact (exec_coldPowerOn_of_off hoff).trans
      (congrArg Host.Outcome.next (tryStart_of_unready (not_startReady_of (.inr hlow))))
  case risesReady =>
    have hready : StartReady (poweredOn s straps untrained) := ⟨rfl, hrst, hclk⟩
    have hcold : (poweredOn s straps untrained).pwr.start ≠ .warm := show StartKind.cold ≠ .warm by decide
    refine ⟨_, exec_coldPowerOn_of_off hoff, started_tryStart hready hcold, ?_⟩
    rw [tryStart_pwr_of_ready hready, restartedBlocks_pwr_of_coldLike rfl]
    exact ⟨rfl, rfl, rfl⟩
  case clockUnready =>
    exact congrArg Host.Outcome.next (tryStart_of_unready (not_startReady_of (h.imp_right .inl)))
  case clockReady =>
    exact ⟨_, exec_refclkStable, started_tryStart ⟨hstage, hrst, rfl⟩ hwarm⟩
  case pulse =>
    rw [exec_rstNAssert_of_long h]
    refine ⟨fun hdown => congrArg Host.Outcome.next (resetPin_of_down hdown), fun hstage hstart => ?_,
      fun hup h => ?_⟩
    · rw [resetPin_of_cold hstage hstart]
      simp only [coldAgain, restartPwr, pinLow, hstage, w]
    · exact ⟨_, congrArg Host.Outcome.next (resetPin_of_up hup h), rfl, rfl, rfl, rfl, rfl, rfl, rfl, rfl, rfl, rfl,
        rfl, fun p _ => heldInReset_port, heldInReset_eth, rfl, rfl, rfl, rfl, rfl, rfl, rfl⟩
  case glitch =>
    refine ⟨_, exec_rstNAssert_of_between hlo hhi, ?_⟩
    rw [exec_rstNAssert_of_long le_rfl]
    split
    · exact .inr rfl
    · exact .inl rfl
  case releaseUnready =>
    exact (exec_rstNRelease_of_up hup).trans
      (congrArg Host.Outcome.next (tryStart_of_unready (not_startReady_of (h.imp_right .inr))))
  case release =>
    have hready : StartReady (pinHigh s straps untrained) := ⟨hstage, rfl, hclk⟩
    refine ⟨_, exec_rstNRelease_of_up (railsUp_of_waiting hstage), started_tryStart hready hwarm, ?_⟩
    rw [tryStart_pwr_of_ready hready]
    exact restartedBlocks_pwr.2.2
  case filled =>
    have hpwr := fillEnded_pwr s
    have hrun := exec_hardwareFillDone_of_filling h
    by_cases hd3 : w.start = .d3
    · rw [hpwr, if_pos hd3] at hrun
      obtain ⟨hstate, hbusy, hfault, hstage⟩ := wakeDone_pwr (s := fillEnded s)
      have hdi : (wakeDone (fillEnded s)).di = (fillEnded s).di := wakeDone_touches.di rfl
      have himg : (wakeDone (fillEnded s)).img = (fillEnded s).img := wakeDone_touches.img rfl
      rw [hpwr] at hfault hstage
      exact ⟨_, hrun, fillEnded_touches.trans (wakeDone_touches.mono rfl), hstage, congrArg Integrity.fillBusy hdi,
        (congrArg Integrity.fillFrames hdi).trans fillEnded_frames, congrArg ImgState.bootDue himg,
        fun _ => ⟨hstate, hbusy, hfault⟩, fun c hc => chanGet_wakeDone.trans (chanGet_fillEnded hc)⟩
    · rw [hpwr, if_neg hd3] at hrun
      exact ⟨_, hrun, fillEnded_touches, congrArg Power.stage hpwr, rfl, fillEnded_frames, rfl,
        fun h => absurd h hd3, fun c hc => chanGet_fillEnded hc⟩
  case loss => exact ⟨_, rfl, losePower_kept, rfl, rfl⟩
  case down => exact ⟨exec_overvoltageShutdown_of_down h, congrArg Host.Outcome.next (trip_of_down h)⟩
  case up =>
    exact ⟨⟨_, exec_overvoltageShutdown_of_up h, losePower_kept (stage := .overvolt), rfl, rfl⟩,
      _, congrArg Host.Outcome.next (trip_of_up h), losePower_kept (stage := .tripped), rfl, rfl, rfl⟩

end Sys2Proof.Proofs
end

section
/-! PROOFS. Full link resets (R122, R125, R135 to R138, R140, R154): what one makes of a port, what a reset that fails
and a port that leaves service keep, the link's timers, and the commands to a port. -/

namespace Sys2Proof.Proofs

open Sys2Proof.Machine Sys2Proof.Laws

/-! ### A port's entry -/

section Entries

variable {s : State} {port : Nat}

@[simp] theorem portGet_seenClk (clk j : Nat) : portGet (seenClk s clk) j = portGet s j := rfl

@[simp] theorem portGet_emit (o : Output) (j : Nat) : portGet (emit s o) j = portGet s j := rfl

theorem portGet_portSet_self (p : Port) : portGet (portSet s port p) port = p := tblGet_set_same

theorem portGet_portSet_other (p : Port) {j : Nat} (h : j ≠ port) : portGet (portSet s port p) j = portGet s j :=
  tblGet_set_other h

end Entries

/-! ### What a port that leaves service keeps (R154) -/

/-- A port's link as software sees it: STATE, CAUSE and HOLD. -/
def linkPart (p : Port) : Nat × Nat × Bool := (p.state, p.cause, p.hold)

/-- From `s` to `t` every port keeps its STATE, CAUSE and HOLD. -/
def KeepsLinks (s t : State) : Prop := ∀ j, linkPart (portGet t j) = linkPart (portGet s j)

section Links

variable {s t u : State} {M : Mask} {port : Nat}

theorem KeepsLinks.refl (s : State) : KeepsLinks s s := fun _ => rfl

theorem KeepsLinks.trans (h : KeepsLinks s t) (k : KeepsLinks t u) : KeepsLinks s u := fun j => (k j).trans (h j)

theorem KeepsLinks.foldl {α : Type} {f : State → α → State} {l : List α} (hf : ∀ u a, KeepsLinks u (f u a)) :
    KeepsLinks s (l.foldl f s) := by
  induction l generalizing s with
  | nil => exact .refl s
  | cons a l ih => exact (hf s a).trans ih

theorem keepsLinks_of_touches (h : Touches M s t) (e : M.ports = false) : KeepsLinks s t := fun j => by
  simp only [portGet, h.ports e]

theorem keepsLinks_portMod {f : Port → Port} (hf : ∀ x, linkPart (f x) = linkPart x) :
    KeepsLinks s (portMod s port f) := fun j => by
  rw [portGet_portMod]
  split
  · next h => rw [hf, h]
  · rfl

theorem keepsLinks_freeAt {k : Packet} {vc : Bool} {since : Nat} : KeepsLinks s (freeAt s port k vc since) := by
  unfold freeAt
  split
  · exact keepsLinks_portMod fun _ => rfl
  · exact .refl s

theorem keepsLinks_noteRemoved : KeepsLinks s (noteRemoved s port) := keepsLinks_portMod fun _ => rfl

theorem keepsLinks_ownRemoved {k : Packet} {st : Status} : KeepsLinks s (ownRemoved s port k st) :=
  keepsLinks_of_touches (ownRemoved_touches (.refl { fab := true } s) rfl) rfl

theorem keepsLinks_injectOn {plane : Nat} {needActive : Bool} {k : Packet} :
    KeepsLinks s (injectOn s plane needActive k) := by
  unfold injectOn
  split
  · exact .refl s
  · split
    · split
      · exact .refl s
      · split
        · exact keepsLinks_of_touches
            (enqueueOut_touches (sealPacket_touches (.refl { parts := true, fab := true } s) rfl) rfl) rfl
        · exact keepsLinks_noteRemoved.trans keepsLinks_ownRemoved
    · split
      · exact fun _ => rfl
      · exact .refl s
    · exact .refl s

theorem keepsLinks_removeParked : KeepsLinks s (removeParked s port) := by
  unfold removeParked
  extract_lets gone st _ n
  refine .trans (t := n) (fun _ => rfl) (.foldl fun u w => ?_)
  have hfree : KeepsLinks u (freeAt (noteRemoved u port) w.inPort w.pkt w.inVc w.since) :=
    keepsLinks_noteRemoved.trans keepsLinks_freeAt
  split
  · exact hfree.trans keepsLinks_ownRemoved
  · split
    · exact hfree.trans keepsLinks_injectOn
    · exact hfree

/-- What leaves service stands in the state and with the cause it is given. -/
theorem portOut_link {st cause : Nat} :
    linkPart (portGet (portOut s port st cause) port) = (st, cause, (portGet s port).hold) :=
  (keepsLinks_removeParked port).trans (by rw [portGet_portMod, if_pos rfl]; rfl)

theorem portOut_state {st cause : Nat} : (portGet (portOut s port st cause) port).state = st :=
  congrArg Prod.fst portOut_link

theorem portOut_cause {st cause : Nat} : (portGet (portOut s port st cause) port).cause = cause :=
  congrArg (·.2.1) portOut_link

theorem portOut_hold {st cause : Nat} : (portGet (portOut s port st cause) port).hold = (portGet s port).hold :=
  congrArg (·.2.2) portOut_link

end Links

/-! ### The start of a reset, and a reset that fails (R125, R136, R137) -/

section Resets

variable {s : State} {p : Port} {port code : Nat} {c : KxCause} {fresh : Bool}

/-- A reset starts when it is called for: D0 or D1, enabled by the image, not held (R122, R140, R398). -/
def ResetStarts (s : State) (port : Nat) : Prop :=
  ioOn s = true ∧ portEnabled s port = true ∧ (portGet s port).hold = false

theorem beginReset_restarted : Restarted p (beginReset s p code fresh) code (!fresh) :=
  ⟨rfl, rfl, rfl, rfl, rfl, rfl, rfl, sat16_eq _, rfl, rfl, rfl, rfl, rfl, rfl, rfl⟩

theorem linkReset_of_starts (h : ResetStarts s port) :
    linkReset s port c fresh = portSet s port (beginReset s (portGet s port) (causeCode c) fresh) := by
  obtain ⟨hio, hen, hhold⟩ := h
  simp [linkReset, hio, hen, hhold, portMod]

/-- A reset that starts from a port's changed entry. -/
theorem linkReset_portSet (hio : ioOn s = true) (hen : portEnabled s port = true) (hhold : p.hold = false) :
    linkReset (portSet s port p) port c fresh =
      portSet (portSet s port p) port (beginReset s p (causeCode c) fresh) := by
  have h := linkReset_of_starts (s := portSet s port p) (c := c) (fresh := fresh)
    ⟨hio, hen, by rw [portGet_portSet_self]; exact hhold⟩
  rwa [portGet_portSet_self] at h

/-- What a command that lets a reset fail leaves, by the failures in a row before it. -/
def ResetFails (p : Port) (port : Nat) (o : Host.Outcome State Fault Refusal) (code : Nat) (resume : Bool) : Prop :=
  (p.failures < 2 → ∃ t, o = .next t ∧ Restarted p (portGet t port) code resume ∧
    (portGet t port).failures = p.failures + 1) ∧
  (2 ≤ p.failures → ∃ t, o = .next t ∧ (portGet t port).state = 5 ∧ (portGet t port).cause = code)

theorem resetFails_resetFailed {cause : Option KxCause} (hp : portGet s port = p) :
    ResetFails p port (.next (resetFailed s port cause)) ((cause.map causeCode).getD p.cause)
      (!(cause.isNone && !p.offerResume)) := by
  subst hp
  refine ⟨fun hfew => ⟨_, rfl, ?_⟩, fun hmany => ⟨_, rfl, ?_⟩⟩
  · unfold resetFailed
    rw [if_neg (by omega), portGet_portMod, if_pos rfl]
    exact ⟨beginReset_restarted (s := s), rfl⟩
  · unfold resetFailed
    rw [if_pos hmany]
    exact ⟨portOut_state, portOut_cause⟩

end Resets

/-! ### The timers (R130, R135) -/

section Timers

variable {s : State} {port : Fin 8} {counter : Fin 16} {clk : Nat}

/-- The replay timer has run out with flits outstanding (R135). -/
def ReplayDue (p : Port) (clk : Nat) : Prop := p.state = 4 ∧ p.replay ≠ [] ∧ p.cfg.rto ≤ clk - p.timerStart

/-- A replay that the timer starts, at the oldest flit (R135, log entry 37). -/
def replayStarted (p : Port) (clk : Nat) : Port :=
  { p with replayCount := p.replayCount + 1, replayPos := some 0, replayFrom := clk + 2, timerStart := clk,
           cnt := { p.cnt with replayTimer := min 65535 (p.cnt.replayTimer + 1) } }

theorem replayDue_iff {p : Port} : ReplayDue p clk ↔
    p.state = 4 ∧ 0 < outstanding p ∧ p.cfg.rto ≤ clk - p.timerStart := by
  rw [ReplayDue, outstanding, List.length_pos_iff]

theorem exec_replayTimeout_of_idle (h : ¬ ReplayDue (portGet s port) clk) :
    exec (.replayTimeout port clk) s = .next (seenClk s clk) :=
  if_neg (mt replayDue_iff.mpr h)

theorem startReplay_of_few {p : Port} {ack : Option Nat} (h : p.replayCount < p.cfg.rlim) :
    startReplay p clk ack = ({ p with
      replayCount := p.replayCount + 1, replayPos := some 0, replayFrom := clk + 2, timerStart := clk,
      replayAck := ack }, none) :=
  if_neg (Nat.not_lt.mpr h)

theorem startReplay_of_limit {p : Port} {ack : Option Nat} (h : p.cfg.rlim ≤ p.replayCount) :
    startReplay p clk ack = (p, some .replayLimit) :=
  if_pos (Nat.lt_succ_of_le h)

theorem exec_replayTimeout_of_few (h : ReplayDue (portGet s port) clk)
    (hfew : (portGet s port).replayCount < (portGet s port).cfg.rlim) :
    exec (.replayTimeout port clk) s = .next (portSet (seenClk s clk) port (replayStarted (portGet s port) clk)) := by
  refine (if_pos (replayDue_iff.mp h)).trans ?_
  simp only [portGet_seenClk, startReplay_of_few hfew, replayStarted, sat16_eq]

theorem exec_replayTimeout_of_limit (h : ReplayDue (portGet s port) clk)
    (hlim : (portGet s port).cfg.rlim ≤ (portGet s port).replayCount) :
    exec (.replayTimeout port clk) s = .next (resetFor (seenClk s clk) port .replayLimit) := by
  refine (if_pos (replayDue_iff.mp h)).trans ?_
  simp only [portGet_seenClk, startReplay_of_limit hlim]

/-- A port that counts a credit timeout (R130). -/
def creditLate (p : Port) : Port := { p with cnt := { p.cnt with timeouts := sat16 p.cnt.timeouts } }

theorem exec_creditTimeout_of_idle
    (h : ¬ ((portGet s port).state = 4 ∧ (portGet s port).cfg.cto ≤ ((portGet s port).credits.getD counter {}).timer)) :
    exec (.creditTimeout port counter) s = .next s :=
  if_neg h

theorem exec_creditTimeout_of_due (hstate : (portGet s port).state = 4)
    (hcto : (portGet s port).cfg.cto ≤ ((portGet s port).credits.getD counter {}).timer) :
    exec (.creditTimeout port counter) s =
      .next (linkReset (portSet s port (creditLate (portGet s port))) port .creditTimeout true) :=
  if_pos ⟨hstate, hcto⟩

end Timers

/-- Settles O27: each timer by whether it has run out; the resets by `beginReset_restarted`. -/
theorem linkTimersExpire : Obligations.LinkTimersExpire := by
  intro port c clk s p n due
  refine ⟨exec_replayTimeout_of_idle, exec_replayTimeout_of_few, fun hdue hlim hio hen hhold => ?limit,
    fun hstate hcto hio hen hhold => ?credit, fun h => exec_creditTimeout_of_idle fun hdue => ?waits⟩
  case waits => exact h.elim (· hdue.1) (Nat.not_lt.mpr hdue.2)
  case limit =>
    exact ⟨_, (exec_replayTimeout_of_limit hdue hlim).trans
      (congrArg Host.Outcome.next (linkReset_of_starts ⟨hio, hen, hhold⟩)), beginReset_restarted⟩
  case credit =>
    refine ⟨_, (exec_creditTimeout_of_due hstate hcto).trans
      (congrArg Host.Outcome.next (linkReset_portSet hio hen hhold)), ?_⟩
    rw [portGet_portSet_self]
    refine ⟨beginReset_restarted (p := creditLate p), sat16_eq _, fun j hj => ?_⟩
    rw [portGet_portSet_other _ hj, portGet_portSet_other _ hj]

/-! ### Commands to a port (R136, R138, R140) -/

section Commands

variable {s : State} {p : Port} {port : Nat} {lane : Fin 5}

theorem portLive_iff : portLive p = true ↔ p.state = 2 ∨ p.state = 3 ∨ p.state = 4 := by
  simp only [portLive, Bool.or_eq_true, decide_eq_true_eq, or_assoc]

theorem toNat_and_lanes (lanes : BitVec 5) : lanes.toNat &&& 0x1F = lanes.toNat := by
  rw [show 0x1F = 2 ^ 5 - 1 from rfl, Nat.and_two_pow_sub_one_eq_mod, Nat.mod_eq_of_lt lanes.isLt]

/-- A port whose lane `lane` has lost lock (R138). -/
def lockLost (p : Port) (lane : Nat) : Port :=
  { p with pruned := p.pruned ||| (1 <<< lane), restore := p.restore &&& (0x1F ^^^ (1 <<< lane)) }

theorem exec_laneLossOfLock_of_live {port : Fin 8} (h : portLive (portGet s port) = true) :
    exec (.laneLossOfLock port lane) s =
      .next (linkReset (portSet s port (lockLost (portGet s port) lane)) port .lane false) :=
  if_pos h

theorem exec_laneLossOfLock_of_silent {port : Fin 8} (h : ¬ portLive (portGet s port) = true) :
    exec (.laneLossOfLock port lane) s = .next s :=
  if_neg h

theorem retrain_eq :
    retrain s port = linkReset (portSet s port { portGet s port with failures := 0 }) port .software false := rfl

theorem freshReset_of_live (h : portLive (portGet s port) = true) :
    freshReset s port = linkReset s port .software true :=
  if_pos h

theorem freshReset_of_silent (h : ¬ portLive (portGet s port) = true) : freshReset s port = s := if_neg h

/-- A disabled port, or one that waits for RETRAIN, only keeps the bit. -/
theorem writeHold_of_still {v : Bool} (h : (portGet s port).state = 0 ∨ waitsSoftware (portGet s port) = true) :
    writeHold s port v = portSet s port { portGet s port with hold := v } :=
  if_pos h

theorem writeHold_true (h : ¬ ((portGet s port).state = 0 ∨ waitsSoftware (portGet s port) = true)) :
    writeHold s port true = portOut (portSet s port { portGet s port with hold := true }) port 1 1 :=
  (if_neg h).trans (if_pos rfl)

theorem writeHold_false (h : ¬ ((portGet s port).state = 0 ∨ waitsSoftware (portGet s port) = true)) :
    writeHold s port false = linkReset (portSet s port { portGet s port with hold := false }) port .software false :=
  (if_neg h).trans (if_neg Bool.false_ne_true)

theorem pruneLanes_of_some {lanes : BitVec 5} (h : lanes ≠ 0) : pruneLanes s port lanes.toNat =
    portSet s port { portGet s port with
      pruneWait := (portGet s port).pruneWait ||| lanes.toNat,
      restore := (portGet s port).restore &&& (0x1F ^^^ lanes.toNat),
      graftDue := (portGet s port).graftDue || autoBit s 1 } := by
  have hne : lanes.toNat ≠ 0 := fun h0 => h (BitVec.eq_of_toNat_eq h0)
  simp only [pruneLanes, toNat_and_lanes, if_neg hne, portMod]

/-- The lane errors that a restore of lanes leaves (R138). -/
def errsRestored (p : Port) (lanes : Nat) : List Nat :=
  (List.range 5).map (fun i => if lanes.testBit i then 0 else p.laneErrs.getD i 0)

theorem errsRestored_getD {lanes i : Nat} (h : i < 5) :
    (errsRestored p lanes).getD i 0 = if lanes.testBit i then 0 else p.laneErrs.getD i 0 := by
  rw [errsRestored, List.getD_eq_getElem?_getD, List.getElem?_map, List.getElem?_range h]
  rfl

theorem restoreLanes_eq {lanes : BitVec 5} : restoreLanes s port lanes.toNat =
    portSet s port { portGet s port with
      restore := (portGet s port).restore ||| lanes.toNat,
      pruneWait := (portGet s port).pruneWait &&& (0x1F ^^^ lanes.toNat),
      laneErrs := errsRestored (portGet s port) lanes.toNat } := by
  simp only [restoreLanes, toNat_and_lanes, portMod, errsRestored]

end Commands

/-- Settles O29: each command is a reset of the port, a port taken out of service, or one write of its entry. -/
theorem portCommandsTakeEffect : Obligations.PortCommandsTakeEffect := by
  intro port lane lanes s p live ready
  refine ⟨fun hlive ⟨hio, hen, hhold⟩ => ?lossOfLock, fun h => exec_laneLossOfLock_of_silent (mt portLive_iff.mp h),
    fun ⟨hio, hen, hhold⟩ => ?retrain, fun hlive hready => ?fresh,
    fun h => congrArg Host.Outcome.next (freshReset_of_silent (mt portLive_iff.mp h)),
    ⟨_, rfl, rfl, rfl, rfl, rfl, rfl, rfl⟩, fun hstate hwaits => ?held, fun hstate hcause hio hen => ?released,
    fun h v => congrArg Host.Outcome.next (writeHold_of_still h),
    fun h => congrArg Host.Outcome.next (pruneLanes_of_some h),
    ⟨_, congrArg Host.Outcome.next restoreLanes_eq, rfl, fun i hi => errsRestored_getD hi⟩⟩
  case lossOfLock =>
    refine ⟨_, (exec_laneLossOfLock_of_live (portLive_iff.mpr hlive)).trans
      (congrArg Host.Outcome.next (linkReset_portSet hio hen hhold)), ?_⟩
    rw [portGet_portSet_self]
    exact beginReset_restarted
  case retrain =>
    refine ⟨_, congrArg Host.Outcome.next (retrain_eq.trans (linkReset_portSet hio hen hhold)), ?_⟩
    rw [portGet_portSet_self]
    exact ⟨beginReset_restarted (p := { p with failures := 0 }), rfl⟩
  case fresh =>
    exact ⟨_, congrArg Host.Outcome.next ((freshReset_of_live (portLive_iff.mpr hlive)).trans
      (linkReset_of_starts hready)), beginReset_restarted⟩
  case held =>
    have h : ¬ ((portGet s port).state = 0 ∨ waitsSoftware (portGet s port) = true) := by
      simpa only [not_or, Bool.not_eq_true] using ⟨hstate, hwaits⟩
    refine ⟨_, congrArg Host.Outcome.next (writeHold_true h), ?_, portOut_state, portOut_cause⟩
    rw [portOut_hold, portGet_portSet_self]
  case released =>
    have h : ¬ ((portGet s port).state = 0 ∨ waitsSoftware (portGet s port) = true) := by
      simp [waitsSoftware, show (portGet s port).state = 1 from hstate, show (portGet s port).cause = 1 from hcause,
        causeCode]
    refine ⟨_, congrArg Host.Outcome.next ((writeHold_false h).trans (linkReset_portSet hio hen rfl)), ?_⟩
    rw [portGet_portSet_self]
    exact ⟨rfl, beginReset_restarted (p := { p with hold := false })⟩

end Sys2Proof.Proofs
end

section
/-! PROOFS. The steps of a full link reset (R123 to R126, R132): the end of TRAIN, the INIT flits, and what a reset that
does not advance comes to. -/

namespace Sys2Proof.Proofs

open Sys2Proof.Machine Sys2Proof.Laws

/-! ### What acknowledgements and credits move (R129, R132 to R134) -/

section Sending

variable {p q r : Port} {clk : Nat}

/-- A port with the sending side of another: replay buffer and timer, credits and counters. -/
def withSending (p q : Port) : Port :=
  { q with replay := p.replay, replayPos := p.replayPos, replayFrom := p.replayFrom, replayAck := p.replayAck,
           replayCount := p.replayCount, timerStart := p.timerStart, credits := p.credits, cnt := p.cnt }

/-- From `p` to `q` nothing moved but the sending side. -/
def KeepsReceiving (p q : Port) : Prop := withSending p q = p

theorem KeepsReceiving.trans (h : KeepsReceiving p q) (k : KeepsReceiving q r) : KeepsReceiving p r :=
  (congrArg (withSending p) (Eq.trans (a := withSending q r) k rfl)).trans h

/-- What does not read the sending side stands. -/
theorem KeepsReceiving.read {α : Type} (h : KeepsReceiving p q) (f : Port → α)
    (hf : ∀ x y, f (withSending x y) = f y := by exact fun _ _ => rfl) : f q = f p :=
  (hf p q).symm.trans (congrArg f h)

theorem keepsReceiving_advanceOldest {n : Nat} : KeepsReceiving p (advanceOldest p n clk) := by
  unfold advanceOldest
  split <;> rfl

theorem keepsReceiving_startReplay {ack : Option Nat} : KeepsReceiving p (startReplay p clk ack).1 := by
  unfold startReplay
  split <;> rfl

theorem keepsReceiving_receiveAck {a : Nat} {nak : Bool} : KeepsReceiving p (receiveAck p a nak clk).1 := by
  unfold receiveAck
  split
  · rfl
  · extract_lets q
    have hq : KeepsReceiving p q := by
      unfold q
      split
      · exact keepsReceiving_advanceOldest
      · rfl
    have hr : KeepsReceiving q (startReplay q clk (some a)).1 := keepsReceiving_startReplay
    split
    · exact hq
    · split
      · next h =>
        rw [h] at hr
        exact hq.trans hr
      · exact hq.trans hr

theorem keepsReceiving_receiveCredit {valid : Bool} {n count : Nat} :
    KeepsReceiving p (receiveCredit p valid n count).1 := by
  unfold receiveCredit
  split
  · rfl
  · extract_lets c d
    split <;> rfl

theorem keepsReceiving_deliver {f : Flit} : KeepsReceiving p (deliver p f clk).1 :=
  keepsReceiving_receiveAck.trans (keepsReceiving_receiveCredit.trans keepsReceiving_receiveCredit)

end Sending

/-! ### The steps of a reset (R123 to R126, R132) -/

section Steps

variable {s : State} {p : Port} {port clk : Nat} {f : Flit} {r : InitRecord}

/-- TRAIN is over: every unpruned lane is good, or 40 frames have passed (R123). -/
def TrainDone (s : State) (p : Port) : Prop :=
  p.trained &&& (0x1F &&& (0x1F ^^^ p.pruned)) = 0x1F &&& (0x1F ^^^ p.pruned) ∨ p.resetFrame + 40 ≤ s.td.ptime

theorem trainOver_iff : trainOver s p = true ↔ TrainDone s p := by
  simp only [trainOver, Bool.or_eq_true, decide_eq_true_eq]
  exact Iff.rfl

/-- The lanes that have trained and are not pruned (R123). -/
def trainedLanes (p : Port) : Nat := p.trained &&& (0x1F ^^^ p.pruned)

/-- A port that has left TRAIN for INIT with the lanes that trained, before its INIT record is formed. -/
def lanesSettled (s : State) (p : Port) : Port :=
  { p with state := 3, good := trainedLanes p, initFrame := frameOf s,
           laneMap := (List.range 4).map (fun i => (setBits 5 (trainedLanes p)).getD i 7) }

/-- The same with the INIT record it sends. -/
def initEntered (s : State) (port : Nat) (p : Port) : Port :=
  { lanesSettled s p with
    offer := some (initRecord s port (lanesSettled s p)), offerFreed := p.credits.map (·.freed) }

theorem exec_trainEnd_of_going {port : Fin 8} (h : (portGet s port).state ≠ 2 ∨ ¬ TrainDone s (portGet s port)) :
    exec (.trainEnd port clk) s = .next (seenClk s clk) := by
  refine if_pos (h.imp_right fun hgoing => ?_)
  rw [Bool.not_eq_true', Bool.eq_false_iff]
  exact mt trainOver_iff.mp hgoing

theorem exec_trainEnd_of_done {port : Fin 8} (hstate : (portGet s port).state = 2)
    (h : TrainDone s (portGet s port)) : exec (.trainEnd port clk) s =
    if trainedLanes (portGet s port) = 0 then
      .next (resetFailed (portSet (seenClk s clk) port { portGet s port with good := 0 }) port (some .noSignal))
    else .next (portSet (seenClk s clk) port (initEntered (seenClk s clk) port (portGet s port))) := by
  refine if_neg ?_
  rintro (hne | hgoing)
  · exact hne hstate
  · rw [Bool.not_eq_true', Bool.eq_false_iff] at hgoing
    exact hgoing (trainOver_iff.mpr h)

/-- The INIT record that a port offers names its lanes, its number and whether it resumes. -/
theorem initEntered_offer (hport : port < 8) : ∃ o, (initEntered s port p).offer = some o ∧
    o.lanes.toNat = trainedLanes p % 32 ∧ o.seen = false ∧ o.resume = p.offerResume ∧ o.port.toNat = port :=
  ⟨_, rfl, BitVec.toNat_ofNat .., rfl, rfl, by rw [initRecord, BitVec.toNat_ofNat, Nat.mod_eq_of_lt hport]⟩

/-- No valid INIT has come within 8 frames of the port's own (R125). -/
def InitLate (s : State) (p : Port) : Prop := p.state = 3 ∧ p.peerInit = none ∧ p.initFrame + 8 ≤ s.td.ptime

theorem exec_linkResetTimeout_of_late {port : Fin 8} (h : InitLate s (portGet s port)) :
    exec (.linkResetTimeout port) s = .next (resetFailed s port (some .noSignal)) :=
  if_pos h

theorem exec_linkResetTimeout_of_stuck {port : Fin 8} (h : ¬ InitLate s (portGet s port))
    (hstate : (portGet s port).state = 2 ∨ (portGet s port).state = 3)
    (hframe : (portGet s port).resetFrame + 64 ≤ s.td.ptime) :
    exec (.linkResetTimeout port) s = .next (resetFailed s port none) :=
  (if_neg h).trans (if_pos ⟨hstate, hframe⟩)

/-! INIT flits (R125, R126, R132). -/

theorem receiveInit_of_none (h : flitGood f = false ∨ flitType f ≠ .init) : receiveInit s port f = s :=
  if_pos (h.imp_left fun hbad => by rw [hbad]; rfl)

theorem not_none_of_init (hgood : flitGood f = true) (htype : flitType f = .init) :
    ¬ ((!flitGood f) = true ∨ flitType f ≠ .init) := by
  simp [hgood, htype]

theorem flitStands_of_init (hgood : flitGood f = true) (htype : flitType f = .init) : flitStands f = true := by
  simp [flitStands, hgood, htype]

/-- An INIT flit in ACTIVE is the peer's reset, after its ACK, NAK and credits. -/
theorem receiveFlit_of_init (hgood : flitGood f = true) (htype : flitType f = .init) (hstate : p.state = 4) :
    receiveFlit p f clk = ((deliver p f clk).1, some .peerReset) := by
  rw [receiveFlit, if_pos (flitStands_of_init hgood htype)]
  simp only [flitTable, htype, if_pos hstate, thenPort, Option.orElse_some]

theorem receiveInit_of_active (hgood : flitGood f = true) (htype : flitType f = .init)
    (hstate : (portGet s port).state = 4) : receiveInit s port f =
      linkReset (portSet s port (deliver (portGet s port) f s.td.now).1) port .peerReset false := by
  refine (if_neg (not_none_of_init hgood htype)).trans ((if_pos hstate).trans ?_)
  rw [receiveFlit_of_init hgood htype hstate]
  rfl

/-- In INIT the record is taken after the ACK, NAK and credits, unless those call for a reset. -/
theorem receiveInit_of_init (hgood : flitGood f = true) (htype : flitType f = .init)
    (hstate : (portGet s port).state = 3) (hfine : (deliver (portGet s port) f s.td.now).2 = none) :
    receiveInit s port f =
      receiveRecord (portSet s port (deliver (portGet s port) f s.td.now).1) port (initOf f.data) := by
  have hdeliver : deliver (portGet s port) f s.td.now = ((deliver (portGet s port) f s.td.now).1, none) :=
    Prod.ext rfl hfine
  refine (if_neg (not_none_of_init hgood htype)).trans ?_
  rw [if_neg (by omega), if_neg (by omega), if_neg (not_not.mpr hstate), hdeliver]

/-- A port that knows which port and node its peer has named. -/
def peerNamed (p : Port) (r : InitRecord) : Port := { p with peerPort := r.port.toNat, peerNode := r.node.toNat }

theorem portMod_peerNamed :
    portMod (portSet s port p) port (fun x => { x with peerPort := r.port.toNat, peerNode := r.node.toNat }) =
      portSet (portSet s port p) port (peerNamed p r) := by
  rw [portMod, portGet_portSet_self, peerNamed]

theorem initCheck_portSet : initCheck (portSet s port p) port r = initCheck s port r := rfl

/-! The first record of a reset is checked, and settles the link where it passes (R125). -/

section FirstRecord

variable (h : p.peerInit = none)
include h

theorem receiveRecord_of_param (hcheck : initCheck s port r = some .param) :
    receiveRecord (portSet s port p) port r =
      resetFailed (portSet (portSet s port p) port (peerNamed p r)) port (some .param) := by
  have hnamed : (peerNamed p r).peerInit = none := h
  rw [receiveRecord]
  simp only [portMod_peerNamed, portGet_portSet_self, initCheck_portSet, hnamed, hcheck]

theorem receiveRecord_of_wrong {c : KxCause} (hcheck : initCheck s port r = some c) (hc : c ≠ .param) :
    receiveRecord (portSet s port p) port r =
      portOut (portSet (portSet s port p) port (peerNamed p r)) port 1 (causeCode c) := by
  have hnamed : (peerNamed p r).peerInit = none := h
  rw [receiveRecord]
  simp only [portMod_peerNamed, portGet_portSet_self, initCheck_portSet, hnamed, hcheck]

theorem receiveRecord_of_settled (hcheck : initCheck s port r = none) :
    receiveRecord (portSet s port p) port r = portSet (portSet (portSet s port p) port (peerNamed p r)) port
      { settleInit (peerNamed p r) r s.td.now with peerSeen := r.seen } := by
  have hnamed : (peerNamed p r).peerInit = none := h
  rw [receiveRecord]
  simp only [portMod_peerNamed, portGet_portSet_self, initCheck_portSet, hnamed, hcheck]
  rw [portMod, portGet_portSet_self]
  rfl

end FirstRecord

theorem resumeFrom_keeps : (resumeFrom p r clk).state = p.state ∧ (resumeFrom p r clk).peerInit = p.peerInit ∧
    (resumeFrom p r clk).peerNode = p.peerNode := by
  have hkeeps (n : Nat) : KeepsReceiving p (advanceOldest p n clk) := keepsReceiving_advanceOldest
  unfold resumeFrom
  dsimp only
  split
  · next n _ => exact ⟨(hkeeps n).read (·.state), (hkeeps n).read (·.peerInit), (hkeeps n).read (·.peerNode)⟩
  · exact ⟨rfl, rfl, rfl⟩

theorem settleInit_keeps : (settleInit p r clk).state = p.state ∧ (settleInit p r clk).peerInit = some r ∧
    (settleInit p r clk).peerNode = p.peerNode := by
  unfold settleInit
  extract_lets w lanes rx q test
  split
  · exact resumeFrom_keeps (p := q)
  · exact ⟨rfl, rfl, rfl⟩

end Steps

/-- Settles O28: every step ends in a settled link, a port out of service, a new reset or a reset that fails, which
`ResetFails` says once. -/
theorem resetsRunTheirSteps : Obligations.ResetsRunTheirSteps := by
  intro port f clk s p lanes done g late r d failing
  have hkeeps : KeepsReceiving p d.1 := keepsReceiving_deliver
  have hfirst (h : p.peerInit = none) : d.1.peerInit = none := (hkeeps.read (·.peerInit)).trans h
  refine ⟨fun hstate hdone hg => ?trained, fun hstate hdone hg => ?untrained, exec_trainEnd_of_going,
    fun h => congrArg Host.Outcome.next (receiveInit_of_none h),
    fun hgood htype hstate hnone hfine => ?first, fun hgood htype hstate hio hen hhold => ?peerReset,
    fun hlate => ?noInit, fun hlate hstate hframe => ?stuck⟩
  case trained =>
    exact ⟨_, (exec_trainEnd_of_done hstate hdone).trans (if_neg hg), rfl, rfl, rfl, rfl, initEntered_offer port.isLt⟩
  case untrained =>
    have h := resetFails_resetFailed (s := portSet (seenClk s clk) port { p with good := 0 }) (cause := some .noSignal)
      (portGet_portSet_self _)
    rw [← (exec_trainEnd_of_done hstate hdone).trans (if_pos hg)] at h
    exact h
  case first =>
    have hrun : exec (.initReceive port f) s = .next (receiveRecord (portSet s port d.1) port r) :=
      congrArg Host.Outcome.next (receiveInit_of_init hgood htype hstate hfine)
    have hd := hfirst hnone
    refine ⟨fun hcheck => ?neighbour, fun hcheck => ?wiring, fun hcheck => ?param, fun hcheck => ?settled⟩
    case neighbour =>
      rw [receiveRecord_of_wrong hd hcheck (by decide)] at hrun
      exact ⟨_, hrun, portOut_state, portOut_cause⟩
    case wiring =>
      rw [receiveRecord_of_wrong hd hcheck (by decide)] at hrun
      exact ⟨_, hrun, portOut_state, portOut_cause⟩
    case param =>
      have h := resetFails_resetFailed (s := portSet (portSet s port d.1) port (peerNamed d.1 r)) (cause := some .param)
        (portGet_portSet_self _)
      rw [← receiveRecord_of_param hd hcheck, ← hrun] at h
      exact h
    case settled =>
      obtain ⟨hst, hpeer, hnode⟩ := settleInit_keeps (p := peerNamed d.1 r) (r := r) (clk := s.td.now)
      rw [receiveRecord_of_settled hd hcheck] at hrun
      refine ⟨_, hrun, ?_⟩
      rw [portGet_portSet_self]
      refine ⟨hst.trans ((hkeeps.read (·.state)).trans hstate), hpeer, rfl, hnode, fun j hj => ?_⟩
      rw [portGet_portSet_other _ hj, portGet_portSet_other _ hj, portGet_portSet_other _ hj]
  case peerReset =>
    refine ⟨_, congrArg Host.Outcome.next ((receiveInit_of_active hgood htype hstate).trans
      (linkReset_portSet hio hen ((hkeeps.read (·.hold)).trans hhold))), ?_⟩
    rw [portGet_portSet_self]
    refine ⟨beginReset_restarted, fun j hj => ?_⟩
    rw [portGet_portSet_other _ hj, portGet_portSet_other _ hj]
  case noInit =>
    have h := resetFails_resetFailed (s := s) (port := port) (cause := some .noSignal) rfl
    rw [← exec_linkResetTimeout_of_late hlate] at h
    exact h
  case stuck =>
    have h := resetFails_resetFailed (s := s) (port := port) (cause := none) rfl
    rw [← exec_linkResetTimeout_of_stuck hlate hstate hframe] at h
    rw [Option.isNone_none, Bool.true_and, Bool.not_not] at h
    exact h

end Sys2Proof.Proofs
end

section
/-! PROOFS. Receiving on a Keaxel port (R115 to R123, R126, R132): what one flit does, and what a block does by the
port's state. -/

namespace Sys2Proof.Proofs

open Sys2Proof.Machine Sys2Proof.Laws

/-! ### What the parts of receiving leave alone -/

section Reading

variable {α : Type} {p : Port} {clk : Nat}

/-- What reads neither NAK state nor the counters is not changed by entering NAK state. -/
theorem enterNak_read {gap : Bool} (f : Port → α)
    (hf : ∀ x b c, f { x with nakState := b, cnt := c } = f x := by exact fun _ _ _ => rfl) :
    f (enterNak p gap) = f p := by
  unfold enterNak
  split
  · rfl
  · exact hf ..

theorem enterNak_nakState {gap : Bool} : (enterNak p gap).nakState = true := by
  unfold enterNak
  split
  · next h => exact h
  · rfl

/-- Entering NAK state counts in its own counters alone. -/
theorem enterNak_cnt {gap : Bool} :
    (enterNak p gap).cnt.crc = p.cnt.crc ∧ (enterNak p gap).cnt.uncorr = p.cnt.uncorr := by
  unfold enterNak
  split <;> exact ⟨rfl, rfl⟩

/-- What reads neither the credits, the stream, the framing nor the input buffer is not changed by cutting packets. -/
theorem assemble_read {n : Nat} (f : Port → α)
    (hf : ∀ x cr rx fr i, f { x with credits := cr, rx := rx, framing := fr, ingress := i } = f x) :
    f (assemble clk n p) = f p := by
  induction n generalizing p with
  | zero => rfl
  | succ n ih =>
    unfold assemble
    split
    · rfl
    · extract_lets k rest pool q m
      split
      · exact hf p _ _ _ _
      · split
        · exact hf p p.credits _ p.framing p.ingress
        · exact ih.trans (hf p _ _ _ _)

theorem acceptChunks_read {g : Flit} (f : Port → α)
    (hf : ∀ x cr rx fr i, f { x with credits := cr, rx := rx, framing := fr, ingress := i } = f x :=
      by exact fun _ _ _ _ _ => rfl) :
    f (acceptChunks p g clk) = f p := by
  unfold acceptChunks
  extract_lets fill pstart bytes
  split
  · exact (assemble_read f hf).trans (hf p p.credits _ p.framing p.ingress)
  · split
    · exact hf p _ p.rx p.framing p.ingress
    · exact (assemble_read f hf).trans (hf p _ _ _ p.ingress)

/-- Charging corrected symbols moves the lanes' counts and the counters alone. -/
theorem chargeSymbols_read {lanes : List Nat} (f : Port → α)
    (hf : ∀ x l c, f { x with laneFrame := l, cnt := c } = f x := by exact fun _ _ _ => rfl) :
    f (chargeSymbols p lanes) = f p := by
  unfold chargeSymbols
  split
  · rfl
  · exact hf ..

end Reading

/-! ### One flit (R117 to R119, R121, R132) -/

section Flits

variable {p : Port} {f : Flit} {clk : Nat}

theorem satTo_thirtyTwo (n : Nat) : satTo 32 n = min (2 ^ 32 - 1) n := Nat.min_comm ..

theorem flitType_of_reserved (h : (f.t0.extractLsb' 28 4).toNat = 0 ∨ 3 < (f.t0.extractLsb' 28 4).toNat) :
    flitType f = .reserved := by
  unfold flitType
  split
  · omega
  · omega
  · omega
  · rfl

theorem flitType_of_data (h : (f.t0.extractLsb' 28 4).toNat = 1) : flitType f = .data := by
  simp only [flitType, h]

theorem flitGood_iff : flitGood f = true ↔ f.t3 = flitCrc f.data f.t0 f.t1 f.t2 := beq_iff_eq

/-- A flit that fails its CRC or has a reserved type is discarded (R117, R119). -/
theorem receiveFlit_of_discarded (h : flitGood f = false ∨ flitType f = .reserved) :
    receiveFlit p f clk = (discardFlit p, none) := by
  refine if_neg ?_
  rcases h with h | h <;> simp [flitStands, h]

theorem receiveFlit_of_standing (h : flitStands f = true) :
    (receiveFlit p f clk).1 = (deliver (flitTable p f clk).1 f clk).1 := by
  rw [receiveFlit, if_pos h]
  rfl

theorem flitStands_of_data (hgood : flitGood f = true) (htype : flitType f = .data) : flitStands f = true := by
  simp [flitStands, hgood, htype]

theorem flitTable_of_next (htype : flitType f = .data) (hseq : (f.t0.extractLsb' 16 12).toNat = p.rxExp) :
    flitTable p f clk = (acceptChunks { p with rxExp := (p.rxExp + 1) % 4096, nakState := false } f clk, none) := by
  simp only [flitTable, htype, if_pos hseq]

/-- DATA out of sequence moves NAK state and the counters alone. -/
theorem flitTable_read_of_astray {α : Type} (htype : flitType f = .data)
    (hseq : (f.t0.extractLsb' 16 12).toNat ≠ p.rxExp) (g : Port → α)
    (hg : ∀ x b c, g { x with nakState := b, cnt := c } = g x := by exact fun _ _ _ => rfl) :
    g (flitTable p f clk).1 = g p := by
  simp only [flitTable, htype, if_neg hseq]
  split
  · exact hg p p.nakState _
  · exact enterNak_read g hg

end Flits

/-- Settles O24: a flit is discarded, taken or out of sequence; its ACK, NAK and credits then move only what the port
sends. -/
theorem flitsAreTakenInSequence : Obligations.FlitsAreTakenInSequence := by
  intro p f clk seq q ty
  refine ⟨fun h => ?discarded, fun hgood hty => ?data⟩
  case discarded =>
    have hbad : flitGood f = false ∨ flitType f = .reserved :=
      h.imp (fun hcrc => by rwa [Bool.eq_false_iff, Ne, flitGood_iff]) flitType_of_reserved
    have hq : q = discardFlit p := congrArg Prod.fst (receiveFlit_of_discarded hbad)
    rw [hq]
    exact ⟨enterNak_read (·.rxExp), enterNak_read (·.ingress), enterNak_read (·.rx), enterNak_nakState,
      enterNak_cnt.1.trans (satTo_thirtyTwo _), enterNak_read (·.replay), enterNak_read (·.credits)⟩
  case data =>
    have htype : flitType f = .data := flitType_of_data hty
    have hq : q = (deliver (flitTable p f clk).1 f clk).1 :=
      receiveFlit_of_standing (flitStands_of_data (flitGood_iff.mpr hgood) htype)
    have hkeeps : KeepsReceiving (flitTable p f clk).1 q := hq ▸ keepsReceiving_deliver
    refine ⟨fun hseq => ?_, fun hseq => ?_⟩
    · rw [flitTable_of_next htype hseq] at hkeeps
      exact ⟨(hkeeps.read (·.rxExp)).trans (acceptChunks_read (·.rxExp)),
        (hkeeps.read (·.nakState)).trans (acceptChunks_read (·.nakState))⟩
    · exact ⟨(hkeeps.read (·.rxExp)).trans (flitTable_read_of_astray htype hseq (·.rxExp)),
        (hkeeps.read (·.ingress)).trans (flitTable_read_of_astray htype hseq (·.ingress)),
        (hkeeps.read (·.rx)).trans (flitTable_read_of_astray htype hseq (·.rx))⟩

/-! ### Blocks on one lane (R117, R123) -/

section LaneBlocks

variable {p : Port} {lane clk : Nat} {b : FecBlock} {fixed : List Nat}

/-- The run of consecutive training blocks on a lane with the next of them (R123). -/
def trainingRun (p : Port) (lane : Nat) (b : FecBlock) : Nat :=
  if nextBseq (p.laneBseq.getD lane 256) = b.bseq.toNat then p.laneRun.getD lane 0 + 1 else 1

/-- A port that has taken a training block, which is the lane's 64th or a later one of its run or not (R123). -/
def trainingTaken (p : Port) (lane : Nat) (b : FecBlock) (fixed : List Nat) : Port :=
  { chargeSymbols p (fixed.map (fun _ => lane)) with
    laneRun := p.laneRun.set lane (trainingRun p lane b), laneBseq := p.laneBseq.set lane b.bseq.toNat,
    trained := if 64 ≤ trainingRun p lane b then p.trained ||| (1 <<< lane) else p.trained }

/-- A port whose lane has lost its run to a block that cannot be decoded (R117, R123). -/
def runLost (p : Port) (lane : Nat) : Port :=
  { p with laneRun := p.laneRun.set lane 0,
           laneBseq := p.laneBseq.set lane (nextBseq (p.laneBseq.getD lane 256)) }

theorem getD_set_self {l : List Nat} {x d : Nat} (h : lane < l.length) : (l.set lane x).getD lane d = x := by
  rw [List.getD_eq_getElem?_getD, List.getElem?_set_self h, Option.getD_some]

section Unswitched

variable (hpruned : p.pruned.testBit lane = false) (hstate : p.state ≠ 4) (hrx : p.rxSwitched = false)
include hpruned hstate hrx

theorem laneBlock_of_lost : laneBlock p lane none clk = (lostBlock (runLost p lane), none) := by
  simp [laneBlock, hpruned, hstate, hrx, runLost]

theorem laneBlock_of_training (htrain : isTraining b = true) (hbht : b.bht = 0xA) :
    laneBlock p lane (some (b, fixed)) clk = (trainingTaken p lane b fixed, none) := by
  have hrun (l : List Nat) : (chargeSymbols p l).laneRun = p.laneRun := chargeSymbols_read (·.laneRun)
  have hbseq (l : List Nat) : (chargeSymbols p l).laneBseq = p.laneBseq := chargeSymbols_read (·.laneBseq)
  have htrained (l : List Nat) : (chargeSymbols p l).trained = p.trained := chargeSymbols_read (·.trained)
  simp [laneBlock, hpruned, hstate, hrx, htrain, hbht, hrun, hbseq, htrained, trainingTaken, trainingRun]

end Unswitched

end LaneBlocks

/-! ### Striped blocks (R117, R126) -/

section StripedBlocks

variable {p : Port} {clk : Nat} {b : FecBlock} {fixed : List Nat}

/-- A port with the corrected symbols of a striped block charged to their lanes (R116, R138). -/
def stripeCharged (p : Port) (fixed : List Nat) : Port :=
  chargeSymbols p (fixed.map (fun j => (rxLanes p).getD (j % (rxLanes p).length) 0))

/-- A port that has lost the next striped block: its own BSEQ is taken for it (log entry 38). -/
def blockMissed (p : Port) : Port := { p with rxBseq := p.rxBseq.map (fun n => (n + 1) % 256) }

theorem lostBlock_read {α : Type} (f : Port → α)
    (hf : ∀ x b c, f { x with nakState := b, cnt := c } = f x := by exact fun _ _ _ => rfl) :
    f (lostBlock p) = f p :=
  (enterNak_read f hf).trans (hf p p.nakState _)

theorem lostBlock_uncorr : (lostBlock p).cnt.uncorr = min (2 ^ 32 - 1) (p.cnt.uncorr + 1) :=
  enterNak_cnt.2.trans (satTo_thirtyTwo _)

theorem wantedBseq_chargeSymbols {l : List Nat} : wantedBseq (chargeSymbols p l) = wantedBseq p :=
  chargeSymbols_read wantedBseq

theorem stripedBlock_of_unseen {x : Option (FecBlock × List Nat)} (hstate : p.state = 3) (hseen : p.peerSeen = false) :
    stripedBlock p x clk = (p, none) :=
  if_pos ⟨by omega, fun h => Bool.false_ne_true (hseen.symm.trans h.2)⟩

theorem stripedBlock_of_lost (hstate : p.state = 4) (hrx : p.rxSwitched = true) :
    stripedBlock p none clk = (lostBlock (blockMissed p), none) := by
  simp [stripedBlock, hstate, hrx, blockMissed]

variable (hstate : p.state = 4) (hbht : b.bht = 5)
include hstate hbht

theorem stripedBlock_of_wanted (h : wantedBseq p = b.bseq.toNat) : stripedBlock p (some (b, fixed)) clk =
    receiveFlits clk b.flits { stripeCharged p fixed with
      rxBseq := some ((b.bseq.toNat + 1) % 256), rxSwitched := true } := by
  simp [stripedBlock, hstate, hbht, wantedBseq_chargeSymbols, h, stripeCharged]

theorem stripedBlock_of_slip (hnone : wantedBseq p ≠ 256) (h : wantedBseq p ≠ b.bseq.toNat) :
    stripedBlock p (some (b, fixed)) clk = (stripeCharged p fixed, some .lane) := by
  simp [stripedBlock, hstate, hbht, wantedBseq_chargeSymbols, hnone, h, stripeCharged]

end StripedBlocks

/-! ### A block at its port (R122) -/

section Blocks

variable {s : State} {port : Fin 8} {q : Port} {lane : Fin 5} {xs : List Nat} {ls : List (List Nat)} {clk : Nat}

theorem enterIfSwitched_of_not (h : ¬ (q.state = 3 ∧ q.rxSwitched = true)) : enterIfSwitched q clk = q :=
  if_neg fun hall => h ⟨hall.1, hall.2.2⟩

theorem exec_fecBlockReceive_of_silent {block : LaneSymbols} (h : ¬ portLive (portGet s port) = true) :
    exec (.fecBlockReceive port block clk) s = .next (seenClk s clk) :=
  congrArg Host.Outcome.next (if_pos (by simpa using h))

variable (hlive : portLive (portGet s port) = true)
include hlive

theorem exec_fecBlockReceive_lane : exec (.fecBlockReceive port (.lane lane xs) clk) s =
    .next (settlePort (seenClk s clk) port
      (enterIfSwitched (laneBlock (portGet s port) lane (decodeSymbols xs) clk).1 clk,
        (laneBlock (portGet s port) lane (decodeSymbols xs) clk).2)) :=
  congrArg Host.Outcome.next (if_neg (by rw [portGet_seenClk, hlive]; decide))

theorem exec_fecBlockReceive_striped : exec (.fecBlockReceive port (.striped ls) clk) s =
    .next (settlePort (seenClk s clk) port
      (enterIfSwitched (stripedBlock (portGet s port) (decodeSymbols (weave (1088 / ls.length) ls)) clk).1 clk,
        (stripedBlock (portGet s port) (decodeSymbols (weave (1088 / ls.length) ls)) clk).2)) :=
  congrArg Host.Outcome.next (if_neg (by rw [portGet_seenClk, hlive]; decide))

/-- What a block on one lane leaves, where it neither starts the link nor resets it. -/
theorem exec_fecBlockReceive_lane_of_quiet (h : laneBlock (portGet s port) lane (decodeSymbols xs) clk = (q, none))
    (hq : ¬ (q.state = 3 ∧ q.rxSwitched = true)) :
    exec (.fecBlockReceive port (.lane lane xs) clk) s = .next (portSet (seenClk s clk) port q) := by
  rw [exec_fecBlockReceive_lane hlive, h, enterIfSwitched_of_not hq]
  rfl

/-- What a striped block leaves, where it neither starts the link nor resets it. -/
theorem exec_fecBlockReceive_striped_of_quiet
    (h : stripedBlock (portGet s port) (decodeSymbols (weave (1088 / ls.length) ls)) clk = (q, none))
    (hq : ¬ (q.state = 3 ∧ q.rxSwitched = true)) :
    exec (.fecBlockReceive port (.striped ls) clk) s = .next (portSet (seenClk s clk) port q) := by
  rw [exec_fecBlockReceive_striped hlive, h, enterIfSwitched_of_not hq]
  rfl

/-- What a striped block leaves that calls for a reset. -/
theorem exec_fecBlockReceive_striped_of_reset {c : KxCause}
    (h : stripedBlock (portGet s port) (decodeSymbols (weave (1088 / ls.length) ls)) clk = (q, some c))
    (hq : ¬ (q.state = 3 ∧ q.rxSwitched = true)) :
    exec (.fecBlockReceive port (.striped ls) clk) s = .next (resetFor (portSet (seenClk s clk) port q) port c) := by
  rw [exec_fecBlockReceive_striped hlive, h, enterIfSwitched_of_not hq]
  rfl

end Blocks

/-- Settles O25: by the port's state, through what `laneBlock` and `stripedBlock` do. -/
theorem blocksReachTheirPort : Obligations.BlocksReachTheirPort := by
  intro port lane xs ls clk s p n one all word charged
  have hlive (h : p.state = 2 ∨ p.state = 3 ∨ p.state = 4) : portLive p = true := portLive_iff.mpr h
  refine ⟨fun h => ?silent, fun hstate hrx hrun hbseq hpruned =>
      have hne : p.state ≠ 4 := by omega
      ⟨fun hnone => ?lost, fun b fixed hsome htrain hbht => ?training⟩,
    fun hstate hseen hrx => ?unseen, fun hstate hrx hnone => ?uncorrectable,
    fun b fixed hstate hsome hbht hwanted q hq hq4 => ?wanted,
    fun b fixed hstate hsome hbht hnone hslip hio hen hhold => ?slip⟩
  case silent =>
    have hsilent : ¬ portLive p = true := by rw [portLive_iff]; omega
    exact ⟨exec_fecBlockReceive_of_silent hsilent, exec_fecBlockReceive_of_silent hsilent⟩
  case lost =>
    have hblock : laneBlock p lane (decodeSymbols xs) clk = (lostBlock (runLost p lane), none) := by
      rw [hnone]
      exact laneBlock_of_lost hpruned hne hrx
    have hst : (lostBlock (runLost p lane)).state = 2 := (lostBlock_read (·.state)).trans hstate
    refine ⟨_, exec_fecBlockReceive_lane_of_quiet (hlive (.inl hstate)) hblock (by omega), ?_, lostBlock_uncorr,
      lostBlock_read (·.trained)⟩
    rw [lostBlock_read (·.laneRun)]
    exact getD_set_self hrun
  case training =>
    have hblock : laneBlock p lane (decodeSymbols xs) clk = (trainingTaken p lane b fixed, none) := by
      rw [hsome]
      exact laneBlock_of_training hpruned hne hrx htrain hbht
    have hst : (trainingTaken p lane b fixed).state = 2 := (chargeSymbols_read (·.state)).trans hstate
    have hgood : (trainingTaken p lane b fixed).laneRun.getD lane 0 = trainingRun p lane b := getD_set_self hrun
    refine ⟨_, exec_fecBlockReceive_lane_of_quiet (hlive (.inl hstate)) hblock (by omega), hgood,
      getD_set_self hbseq, ?_⟩
    rw [hgood]
    rfl
  case unseen =>
    exact exec_fecBlockReceive_striped_of_quiet (hlive (.inr (.inl hstate))) (stripedBlock_of_unseen hstate hseen)
      fun h => Bool.false_ne_true (hrx.symm.trans h.2)
  case uncorrectable =>
    have hblock : stripedBlock p word clk = (lostBlock (blockMissed p), none) := by
      rw [hnone]
      exact stripedBlock_of_lost hstate hrx
    have hst : (lostBlock (blockMissed p)).state = 4 := (lostBlock_read (·.state)).trans hstate
    exact ⟨_, exec_fecBlockReceive_striped_of_quiet (hlive (.inr (.inr hstate))) hblock (by omega), enterNak_nakState,
      hst, lostBlock_uncorr, lostBlock_read (·.rxExp), lostBlock_read (·.ingress), lostBlock_read (·.rx)⟩
  case wanted =>
    have hblock : stripedBlock p word clk = (q, none) := by
      rw [hsome]
      exact (stripedBlock_of_wanted hstate hbht hwanted).trans hq
    exact exec_fecBlockReceive_striped_of_quiet (hlive (.inr (.inr hstate))) hblock (by omega)
  case slip =>
    have hblock : stripedBlock p word clk = (stripeCharged p fixed, some .lane) := by
      rw [hsome]
      exact stripedBlock_of_slip hstate hbht hnone hslip
    have hst : (stripeCharged p fixed).state = 4 := (chargeSymbols_read (·.state)).trans hstate
    have hheld : (stripeCharged p fixed).hold = false := (chargeSymbols_read (·.hold)).trans hhold
    exact ⟨_, (exec_fecBlockReceive_striped_of_reset (hlive (.inr (.inr hstate))) hblock (by omega)).trans
      (congrArg Host.Outcome.next (linkReset_portSet hio hen hheld)), beginReset_restarted⟩

end Sys2Proof.Proofs
end

section
/-! PROOFS. Sending on a Keaxel port (R115, R116, R118 to R120, R123, R124, R126, R127, R131, R134): how much of the
stream a flit takes, the flit of a slot, and the block it joins. -/

namespace Sys2Proof.Proofs

open Sys2Proof.Machine Sys2Proof.Laws

/-! ### The cut of the stream (R120, R127) -/

section Cut

variable {p : Port} {fuel room need : Nat} {bs : List Byte}

/-- The credits of R127 that a packet needs are held. -/
def creditsHeld (p : Port) (k : Packet) : Bool :=
  decide (1 ≤ (p.credits.getD (2 * poolOf k.cls.toNat k.vc) {}).avail) &&
    decide (dataCredits k.len.toNat ≤ (p.credits.getD (2 * poolOf k.cls.toNat k.vc + 1) {}).avail)

theorem creditsHeld_iff {k : Packet} : creditsHeld p k = true ↔
    1 ≤ (p.credits.getD (2 * poolOf k.cls.toNat k.vc) {}).avail ∧
      dataCredits k.len.toNat ≤ (p.credits.getD (2 * poolOf k.cls.toNat k.vc + 1) {}).avail := by
  rw [creditsHeld, Bool.and_eq_true, decide_eq_true_eq, decide_eq_true_eq]

/-- A cut that reaches the next packet, whose credits are held. -/
def cutOn (fuel room need : Nat) (bs : List Byte) (p : Port) : Nat × Port :=
  let k := packetOfBytes (bs.drop need)
  cutStream fuel (room - need) (chunkBytes k.len.toNat) (bs.drop need)
    (chargePool p (poolOf k.cls.toNat k.vc) k.len.toNat)

/-- A cut by its cases: within the packet begun, the last of the stream, no credit for the next packet, and on into
it. -/
theorem cutStream_succ : cutStream (fuel + 1) room need bs p =
    if room ≤ need then (min room bs.length, p)
    else if (bs.drop need).length < 32 then (bs.length, p)
    else if creditsHeld p (packetOfBytes (bs.drop need)) = false then (need, p)
    else (need + (cutOn fuel room need bs p).1, (cutOn fuel room need bs p).2) := by
  have hheld (k : Packet) : ((p.credits.getD (2 * poolOf k.cls.toNat k.vc) {}).avail < 1 ∨
      (p.credits.getD (2 * poolOf k.cls.toNat k.vc + 1) {}).avail < dataCredits k.len.toNat) ↔
        creditsHeld p k = false := by
    rw [← Bool.not_eq_true, creditsHeld_iff]
    omega
  simp only [cutStream, hheld, cutOn]

theorem chunkBytes_pos (n : Nat) : 0 < chunkBytes n := by
  rw [chunkBytes, ceilDiv, if_neg (by decide)]
  omega

/-- A cut takes no more than the stream holds. -/
theorem cutStream_le : (cutStream fuel room need bs p).1 ≤ bs.length := by
  induction fuel generalizing room need bs p with
  | zero => exact Nat.zero_le _
  | succ fuel ih =>
    rw [cutStream_succ]
    split
    · exact Nat.min_le_right ..
    · split
      · exact le_rfl
      · next hlong =>
        rw [List.length_drop] at hlong
        split
        · show need ≤ bs.length
          omega
        · have hrest : (cutOn fuel room need bs p).1 ≤ (bs.drop need).length := ih
          rw [List.length_drop] at hrest
          show need + _ ≤ bs.length
          omega

/-- What does not read the credits is not changed by a cut. -/
theorem cutStream_read {α : Type} (f : Port → α)
    (hf : ∀ x c, f { x with credits := c } = f x := by exact fun _ _ => rfl) :
    f (cutStream fuel room need bs p).2 = f p := by
  induction fuel generalizing room need bs p with
  | zero => rfl
  | succ fuel ih =>
    rw [cutStream_succ]
    split
    · rfl
    · split
      · rfl
      · split
        · rfl
        · exact ih.trans (hf p _)

/-- Within the packet begun no credit is charged. -/
theorem cutStream_of_begun (h : room ≤ need) : (cutStream (fuel + 1) room need bs p).2 = p := by
  rw [cutStream_succ, if_pos h]

theorem cutStream_nil : (cutStream (fuel + 1) room need [] p).1 = 0 := Nat.le_zero.mp cutStream_le

/-- Without credit for the next packet nothing of it leaves. -/
theorem cutStream_of_unheld (hlong : 32 ≤ bs.length) (h : creditsHeld p (packetOfBytes bs) = false) :
    (cutStream (fuel + 1) (room + 1) 0 bs p).1 = 0 := by
  rw [cutStream_succ, if_neg (by omega), List.drop_zero, if_neg (by omega), if_pos h]

/-- Of a packet begun something leaves. -/
theorem cutStream_pos_of_need (hroom : 0 < room) (hbs : bs ≠ []) (hneed : 0 < need) :
    0 < (cutStream (fuel + 1) room need bs p).1 := by
  have hlen : 0 < bs.length := List.length_pos_iff.mpr hbs
  rw [cutStream_succ]
  split
  · exact Nat.lt_min.mpr ⟨hroom, hlen⟩
  · split
    · exact hlen
    · split
      · exact hneed
      · exact Nat.add_pos_left hneed _

/-- Of a packet whose credits are held something leaves. -/
theorem cutStream_pos_of_held (hlong : 32 ≤ bs.length) (h : creditsHeld p (packetOfBytes bs) = true) :
    0 < (cutStream (fuel + 2) (room + 1) 0 bs p).1 := by
  rw [cutStream_succ, if_neg (by omega), List.drop_zero, if_neg (by omega), if_neg (by simp [h])]
  refine Nat.add_pos_right _ (cutStream_pos_of_need (by omega) ?_ (chunkBytes_pos _))
  rintro rfl
  exact absurd hlong (by decide)

end Cut

/-! ### The flit of a slot (R118, R119, R131, R134) -/

section SlotFlits

variable {p : Port} {clk : Nat}

theorem testBit_of_lt {a k j : Nat} (h : a < 2 ^ k) (hj : k ≤ j) : a.testBit j = false :=
  Nat.testBit_eq_false_of_lt (h.trans_le (Nat.pow_le_pow_right (by decide) hj))

/-- SEQ of a trailer (R118). -/
theorem trailer0_seq {ty seq ack : Nat} {nak : Bool} (h : ack < 4096) :
    (trailer0 ty seq ack nak).extractLsb' 16 12 = BitVec.ofNat 12 seq := by
  have hnak : bit01 nak < 2 ^ 1 := by cases nak <;> decide
  ext i hi
  have hty : decide (28 ≤ 16 + i) = false := by simp; omega
  have hlow : 16 + i < 32 := by omega
  simp only [trailer0, packFields, List.foldl_cons, List.foldl_nil, BitVec.getElem_extractLsb', BitVec.getLsbD_ofNat,
    Nat.testBit_or, Nat.testBit_shiftLeft, hty, hlow]
  rw [testBit_of_lt (k := 12) h (by omega), testBit_of_lt hnak (by omega), ← BitVec.getLsbD_eq_getElem,
    BitVec.getLsbD_ofNat]
  simp [hi]

theorem idleFlit_eq (hstate : p.state = 4) (hreplay : p.replayPos = none) :
    idleFlit p = makeFlit p 2 p.txNext 0 15 (List.replicate 240 0) := by
  simp only [idleFlit, idleSeq, hreplay, if_pos hstate]

/-- A running replay sends its flit anew (R134). -/
theorem nextFlit_of_replay {i : Nat} {f : SentFlit} (hpos : p.replayPos = some i) (hfrom : p.replayFrom ≤ clk)
    (hf : p.replay[i]? = some f) : nextFlit p clk =
      ({ p with replayPos := if i + 1 < p.replay.length then some (i + 1) else none },
        makeFlit p 1 f.seq f.fill f.pstart f.data) := by
  simp only [nextFlit, hpos, if_pos hfrom, List.getD_eq_getElem?_getD, hf, Option.getD_some]

/-- The bytes of the stream that the next DATA flit takes, and the port with their packets charged. -/
def nextCut (p : Port) : Nat × Port := cutStream 17 240 p.tx.need p.tx.bytes p

/-- A DATA flit of the next `n` bytes of the stream, as it is kept for replay (R131). -/
def flitCut (p : Port) (n : Nat) : SentFlit :=
  { seq := p.txNext, data := sliceBytes (p.tx.bytes.take n) 0 240, fill := n / 16,
    pstart := if p.tx.need < n then p.tx.need / 16 else 15 }

/-- A port that has sent its next DATA flit. -/
def dataSent (p : Port) (clk : Nat) : Port :=
  { (nextCut p).2 with
    tx := { bytes := p.tx.bytes.drop (nextCut p).1, need := needAfter 17 p.tx.need (nextCut p).1 p.tx.bytes },
    txNext := (p.txNext + 1) % 4096, replay := p.replay ++ [flitCut p (nextCut p).1],
    timerStart := if p.replay.isEmpty then clk else p.timerStart }

/-- The DATA flit that a port sends next. -/
def dataFlitOf (p : Port) : Flit :=
  let f := flitCut p (nextCut p).1
  makeFlit (nextCut p).2 1 f.seq f.fill f.pstart f.data

section NoReplay

variable (hreplay : p.replayPos = none)
include hreplay

/-- Past the depth D, or with nothing to take, IDLE goes out (R119, R131). -/
theorem nextFlit_of_idle (h : depthOf p ≤ p.replay.length ∨ (nextCut p).1 = 0) : nextFlit p clk = (p, idleFlit p) := by
  simp only [nextFlit, hreplay, outstanding]
  split
  · rfl
  · next hdepth => exact if_pos (h.resolve_left hdepth)

theorem nextFlit_of_data (hdepth : p.replay.length < depthOf p) (h : 0 < (nextCut p).1) :
    nextFlit p clk = (dataSent p clk, dataFlitOf p) := by
  simp only [nextFlit, hreplay, outstanding, if_neg (Nat.not_le.mpr hdepth)]
  exact if_neg h.ne'

end NoReplay

theorem nextCut_of_nothing (h : p.tx.bytes = [] ∨
    (p.tx.need = 0 ∧ 32 ≤ p.tx.bytes.length ∧ creditsHeld p (packetOfBytes p.tx.bytes) = false)) :
    (nextCut p).1 = 0 := by
  rcases h with hnil | ⟨hneed, hlong, hheld⟩
  · rw [nextCut, hnil]
    exact cutStream_nil
  · rw [nextCut, hneed]
    exact cutStream_of_unheld hlong hheld

theorem nextCut_of_begun (h : 240 ≤ p.tx.need) : (nextCut p).2 = p := cutStream_of_begun h

theorem nextCut_pos (hbytes : p.tx.bytes ≠ []) (h : 0 < p.tx.need ∨
    (32 ≤ p.tx.bytes.length ∧ creditsHeld p (packetOfBytes p.tx.bytes) = true)) : 0 < (nextCut p).1 := by
  by_cases hneed : p.tx.need = 0
  · obtain ⟨hlong, hheld⟩ := h.resolve_left (by omega)
    rw [nextCut, hneed]
    exact cutStream_pos_of_held hlong hheld
  · exact cutStream_pos_of_need (by decide) hbytes (by omega)

/-- A flit carries the bytes it takes, in order. -/
theorem flitCut_data {n : Nat} (hn : n ≤ p.tx.bytes.length) (h : n ≤ 240) :
    (flitCut p n).data.take n = p.tx.bytes.take n := by
  have hlen : ((p.tx.bytes.take n).take 240).length = n := by simp; omega
  rw [flitCut, sliceBytes, List.drop_zero, List.take_append_of_le_length hlen.ge, List.take_take, List.take_take]
  congr 1
  omega

end SlotFlits

/-! ### The slot by the port's state (R115, R116, R122 to R126) -/

section Slots

variable {s : State} {p : Port} {port : Fin 8} {f : Flit} {clk : Nat}

theorem dataFlit_of_room {n : Nat} (h : p.block.length < 4) :
    dataFlit s n p f = portSet s n { p with block := p.block ++ [f] } := by
  simp only [dataFlit, List.length_append, List.length_singleton, if_pos (show p.block.length + 1 < 5 by omega)]

/-- The fifth flit completes the block, which leaves striped over the transmit lanes. -/
theorem dataFlit_of_full {n : Nat} (h : p.block.length = 4) : dataFlit s n p f =
    emit (portSet s n { p with block := [], txBseq := (p.txBseq + 1) % 256 })
      (.block n 5 p.txBseq (p.block ++ [f]) (p.txLanes.zip
        (deal p.txLanes.length (1088 / p.txLanes.length) (blockSymbols 5 p.txBseq (p.block ++ [f]))))) := by
  simp only [dataFlit, List.length_append, List.length_singleton, h, if_neg (show ¬ 4 + 1 < 5 by decide)]

/-- A port that has used a slot of ACTIVE (R129). -/
def slotUsed (p : Port) : Port := { p with slotCount := p.slotCount + 1 }

theorem exec_flitSend : exec (.flitSend port clk) s = .next (sendSlot (seenClk s clk) port clk) := rfl

theorem exec_flitSend_of_silent (h : ¬ portLive (portGet s port) = true) :
    exec (.flitSend port clk) s = .next (seenClk s clk) := by
  rw [portLive_iff] at h
  rw [exec_flitSend, sendSlot]
  split
  · next hstate => exact absurd (.inr (.inr hstate)) h
  · next hstate => exact absurd (.inr (.inl hstate)) h
  · next hstate => exact absurd (.inl hstate) h
  · rfl

theorem exec_flitSend_of_active {q : Port} (h : (portGet s port).state = 4)
    (hflit : nextFlit (portGet s port) clk = (q, f)) :
    exec (.flitSend port clk) s = .next (dataFlit (seenClk s clk) port (slotUsed q) f) := by
  simp only [exec_flitSend, sendSlot, portGet_seenClk, h, hflit, slotUsed]

theorem exec_flitSend_of_train (h : (portGet s port).state = 2) : exec (.flitSend port clk) s =
    .next (laneBlocks (seenClk s clk) port (0x1F &&& (0x1F ^^^ (portGet s port).pruned)) trainFlit) := by
  simp only [exec_flitSend, sendSlot, portGet_seenClk, h]

theorem exec_flitSend_of_init {r : InitRecord} (h : (portGet s port).state = 3)
    (hswitched : (portGet s port).txSwitched = false) (hoffer : (portGet s port).offer = some r) :
    exec (.flitSend port clk) s = .next (sendInit (seenClk s clk) port clk r) := by
  simp only [exec_flitSend, sendSlot, portGet_seenClk, h, hswitched, hoffer]

/-- INIT blocks still to send, counted from the peer's SEEN (R126). -/
def initBlocksLeft (p : Port) : Nat := if p.peerSeen ∧ p.peerInit.isSome then p.initLeft - 1 else p.initLeft

theorem enterIfSwitched_keeps : (enterIfSwitched p clk).initLeft = p.initLeft ∧
    (enterIfSwitched p clk).txSwitched = p.txSwitched := by
  unfold enterIfSwitched enterActive
  split
  · split <;> exact ⟨rfl, rfl⟩
  · exact ⟨rfl, rfl⟩

theorem sendInit_out {n : Nat} {r : InitRecord} : (sendInit s n clk r).out = s.out ++
    [.block n 0xA (portGet s n).txBseq (List.replicate 5 (initFlit (portGet s n) r)) ((setBits 5 (portGet s n).good).map
      (fun l => (l, blockSymbols 0xA (portGet s n).txBseq (List.replicate 5 (initFlit (portGet s n) r)))))] := rfl

theorem sendInit_port {n : Nat} {r : InitRecord} :
    (portGet (sendInit s n clk r) n).initLeft = initBlocksLeft (portGet s n) ∧
    (portGet (sendInit s n clk r) n).txSwitched = decide (initBlocksLeft (portGet s n) = 0) := by
  simp only [sendInit, laneBlocks, portGet_portMod, portGet_emit, portGet_portSet_self, if_true]
  exact enterIfSwitched_keeps

theorem sendInit_other {n j : Nat} {r : InitRecord} (h : j ≠ n) :
    portGet (sendInit s n clk r) j = portGet s j := by
  simp only [sendInit, laneBlocks, portGet_portMod, portGet_emit, portGet_portSet_other _ h, if_neg h]

end Slots

/-- Settles O26: by the port's state, through the flit of the slot (`nextFlit`) and the block that it joins. -/
theorem slotsSendByState : Obligations.SlotsSendByState := by
  intro port clk s p n idle next pool held
  have hheld : creditsHeld p next = true ↔ held := creditsHeld_iff
  refine ⟨fun h => ?silent, fun hstate hroom hreplay h => ?idles, fun hstate hroom hreplay hbytes hdepth h => ?data,
    fun i f hstate hroom hpos hfrom hf => ?replays, fun hstate hfull hreplay hnil => ?full, fun hstate => ?trains,
    fun r hstate hswitched hoffer => ?inits⟩
  case silent =>
    have hsilent : ¬ portLive p = true := by rw [portLive_iff]; omega
    exact exec_flitSend_of_silent hsilent
  case idles =>
    have hflit : nextFlit p clk = (p, idle) := by
      rw [nextFlit_of_idle hreplay ?_, idleFlit_eq hstate hreplay]
      rcases h with hnil | hdepth | ⟨hneed, hlong, hno⟩
      · exact .inr (nextCut_of_nothing (.inl hnil))
      · exact .inl hdepth
      · exact .inr (nextCut_of_nothing (.inr ⟨hneed, hlong, by rwa [Bool.eq_false_iff, Ne, hheld]⟩))
    exact (exec_flitSend_of_active hstate hflit).trans
      (congrArg Host.Outcome.next (dataFlit_of_room (p := slotUsed p) hroom))
  case data =>
    have hpos : 0 < (nextCut p).1 := nextCut_pos hbytes (h.imp_right fun h => ⟨h.1, hheld.mpr h.2⟩)
    have hflit : nextFlit p clk = (dataSent p clk, dataFlitOf p) := nextFlit_of_data hreplay hdepth hpos
    have hblock : (dataSent p clk).block = p.block := cutStream_read (·.block)
    have hroom' : (slotUsed (dataSent p clk)).block.length < 4 := by rw [slotUsed, hblock]; exact hroom
    refine ⟨{ slotUsed (dataSent p clk) with block := (dataSent p clk).block ++ [dataFlitOf p] }, dataFlitOf p,
      (nextCut p).1, ?_, ?_, trailer0_seq (Nat.mod_lt _ (by decide)), rfl, ?_, hpos, rfl,
      flitCut_data cutStream_le, fun hneed => ?_⟩
    · exact (exec_flitSend_of_active hstate hflit).trans (congrArg Host.Outcome.next (dataFlit_of_room hroom'))
    · exact congrArg (· ++ [dataFlitOf p]) hblock
    · exact List.map_append ..
    · show (nextCut p).2.credits = p.credits
      rw [nextCut_of_begun hneed]
  case replays =>
    exact (exec_flitSend_of_active hstate (nextFlit_of_replay hpos hfrom hf)).trans
      (congrArg Host.Outcome.next (dataFlit_of_room (p := slotUsed _) hroom))
  case full =>
    have hflit : nextFlit p clk = (p, idle) := by
      rw [nextFlit_of_idle hreplay (.inr (nextCut_of_nothing (.inl hnil))), idleFlit_eq hstate hreplay]
    exact (exec_flitSend_of_active hstate hflit).trans
      (congrArg Host.Outcome.next (dataFlit_of_full (p := slotUsed p) hfull))
  case trains => exact exec_flitSend_of_train hstate
  case inits =>
    obtain ⟨hleft, hdone⟩ := sendInit_port (s := n) (n := port) (r := r) (clk := clk)
    refine ⟨_, exec_flitSend_of_init hstate hswitched hoffer, sendInit_out, hleft, ?_, fun j hj => sendInit_other hj⟩
    rw [hleft]
    exact hdone

end Sys2Proof.Proofs
end

section
/-! PROOFS. Arbitration at a port (R127, R148, R151, R152): the least of a list by rank, the count of packets
that lack only the bubble, and what the packet chosen leaves. -/

namespace Sys2Proof.Proofs

open Sys2Proof.Machine Sys2Proof.Laws

/-! ### The least of a list -/

section Least

variable {α : Type} {f : α → Nat} {l : List α} {w x : α}

theorem mem_of_minBy (h : minBy f l = some x) : x ∈ l := by
  induction l generalizing x with
  | nil => cases h
  | cons a l ih =>
    simp only [minBy] at h
    split at h
    · rw [← Option.some.inj h]
      exact List.mem_cons_self
    · next y hy =>
      split at h
      · rw [← Option.some.inj h]
        exact List.mem_cons_of_mem a (ih hy)
      · rw [← Option.some.inj h]
        exact List.mem_cons_self

theorem minBy_of_least (hmem : w ∈ l) (hleast : ∀ x ∈ l, x = w ∨ f w < f x) : minBy f l = some w := by
  induction l with
  | nil => cases hmem
  | cons a l ih =>
    have htail : ∀ x ∈ l, x = w ∨ f w < f x := fun x hx => hleast x (List.mem_cons_of_mem a hx)
    simp only [minBy]
    rcases hleast a List.mem_cons_self with rfl | hlt
    · split
      · rfl
      · next y hy =>
        rw [if_neg]
        rcases htail y (mem_of_minBy hy) with rfl | hlt <;> omega
    · have hw : w ∈ l := (List.mem_cons.mp hmem).resolve_left (by rintro rfl; omega)
      rw [ih hw htail]
      exact if_pos hlt

end Least

/-! ### The packet that a port sends next (R148, R151, R152) -/

section Arbitration

variable {s : State} {port : Nat} {w : RingPkt}

/-- A packet that may leave by a port: the first of its stream, with its credits and the bubble (R127, R148, R151). -/
def MayLeave (s : State) (port : Nat) (w : RingPkt) : Prop :=
  w ∈ s.fab.waiting ∧ w.out = port ∧ firstOfStream s w = true ∧ holdsCredits (portGet s port) w = true ∧
    holdsBubble (portGet s port) w = true

theorem chooseNext_of_none (h : ∀ w, ¬ MayLeave s port w) : chooseNext s port = none := by
  have hnil : s.fab.waiting.filter (fun w => w.out == port && firstOfStream s w && holdsCredits (portGet s port) w &&
      holdsBubble (portGet s port) w) = [] := by
    refine List.filter_eq_nil_iff.mpr fun w hw hall => h w ?_
    simp only [Bool.and_eq_true, beq_iff_eq, and_assoc] at hall
    exact ⟨hw, hall⟩
  rw [chooseNext, hnil]
  rfl

theorem chooseNext_of_first (h : MayLeave s port w) (hfirst : ∀ x, MayLeave s port x → x = w ∨ arbRank w < arbRank x) :
    chooseNext s port = some w := by
  have hmem (x : RingPkt) : x ∈ s.fab.waiting.filter (fun w => w.out == port && firstOfStream s w &&
      holdsCredits (portGet s port) w && holdsBubble (portGet s port) w) ↔ MayLeave s port x := by
    simp only [List.mem_filter, Bool.and_eq_true, beq_iff_eq, and_assoc, MayLeave]
  exact minBy_of_least ((hmem w).mpr h) fun x hx => hfirst x ((hmem x).mp hx)

/-- The stop once it has counted a packet that lacks only the bubble (R151, R164). -/
def bubbleNoted (s : State) (port : Nat) : State :=
  if s.fab.waiting.any (fun w => w.out == port && firstOfStream s w && holdsCredits (portGet s port) w &&
      !holdsBubble (portGet s port) w) then
    portCnt s port (fun c => { c with bubble := wrap32 c.bubble })
  else s

theorem bubbleNoted_touches : Touches { ports := true } s (bubbleNoted s port) :=
  touches_ite (portCnt_touches (.refl _ s) rfl) (.refl _ s)

/-- Counting leaves the port's stream and credits alone, so the choice stands. -/
theorem bubbleNoted_port : (portGet (bubbleNoted s port) port).tx = (portGet s port).tx ∧
    chooseNext (bubbleNoted s port) port = chooseNext s port := by
  unfold bubbleNoted
  split
  · have hport : portGet (portCnt s port fun c => { c with bubble := wrap32 c.bubble }) port =
        { portGet s port with cnt := { (portGet s port).cnt with bubble := wrap32 (portGet s port).cnt.bubble } } :=
      portGet_portSet_self _
    refine ⟨by rw [hport], ?_⟩
    rw [chooseNext, hport]
    rfl
  · exact ⟨rfl, rfl⟩

theorem exec_outputArbitration_of_still {port : Fin 8}
    (h : (portGet s port).state ≠ 4 ∨ 240 ≤ (portGet s port).tx.bytes.length) :
    exec (.outputArbitration port) s = .next s :=
  if_pos h

section Free

variable {port : Fin 8} (hstate : (portGet s port).state = 4) (hroom : (portGet s port).tx.bytes.length < 240)
include hstate hroom

theorem exec_outputArbitration_of_none (h : chooseNext s port = none) :
    exec (.outputArbitration port) s = .next (bubbleNoted s port) := by
  have hchoice := bubbleNoted_port.2.trans h
  refine (if_neg (by omega)).trans ?_
  rw [bubbleNoted] at hchoice ⊢
  simp only [hchoice]

theorem exec_outputArbitration_of_some (h : chooseNext s port = some w) :
    exec (.outputArbitration port) s = .next (transmit (bubbleNoted s port) port w) := by
  have hchoice := bubbleNoted_port.2.trans h
  refine (if_neg (by omega)).trans ?_
  rw [bubbleNoted] at hchoice ⊢
  simp only [hchoice]

end Free

theorem freeAt_tx {n j since : Nat} {k : Packet} {vc : Bool} :
    (portGet (freeAt s n k vc since) j).tx = (portGet s j).tx := by
  unfold freeAt
  split
  · rw [portGet_portMod]
    split
    · next h => rw [h]; rfl
    · rfl
  · rfl

/-- A packet that has made one hop more (R149). -/
def hopMade (k : Packet) : Packet := { k with hops := k.hops + 1 }

/-- A stop at which a packet waits no more. -/
def unqueued (s : State) (w : RingPkt) : State :=
  { s with fab := { s.fab with waiting := s.fab.waiting.filter (fun x => x.age != w.age) } }

/-- A port with a packet at the end of its stream, counted by its kind (R164). -/
def streamEntered (w : RingPkt) (p : Port) : Port :=
  { p with
    tx := { p.tx with bytes := p.tx.bytes ++ packetBytes (hopMade w.pkt) }
    cnt := if w.kind = 0 then { p.cnt with thru := wrap32 p.cnt.thru }
      else if w.kind = 1 then { p.cnt with turn := wrap32 p.cnt.turn }
      else { p.cnt with inj := wrap32 p.cnt.inj } }

/-- What leaves in the packet's own right, before the place it held at this stop is freed. -/
def packetSent (s : State) (port : Nat) (w : RingPkt) : State :=
  emit (portMod (unqueued s w) port (streamEntered w)) (.packet port (hopMade w.pkt))

theorem transmit_eq : transmit s port w = freeAt (packetSent s port w) w.inPort w.pkt w.inVc w.since := rfl

/-- One output, one entry fewer that waits, and the packet's bytes at the end of the stream. -/
theorem transmit_leaves : (transmit s port w).out = s.out ++ [.packet port (hopMade w.pkt)] ∧
    (transmit s port w).fab.waiting = s.fab.waiting.filter (fun x => x.age != w.age) ∧
    (portGet (transmit s port w) port).tx.bytes = (portGet s port).tx.bytes ++ packetBytes (hopMade w.pkt) := by
  have hfree : Touches { ports := true } (packetSent s port w) (transmit s port w) := freeAt_touches (.refl _ _) rfl
  refine ⟨hfree.out rfl, congrArg Fabric.waiting (hfree.fab rfl), ?_⟩
  rw [transmit_eq, freeAt_tx, packetSent, portGet_emit, portGet_portMod, if_pos rfl]
  rfl

end Arbitration

/-- Settles O31: the choice is the one packet of least rank among those that may leave, and `transmit_leaves` says what
its leaving does. -/
theorem arbitrationSendsTheFirstByRank : Obligations.ArbitrationSendsTheFirstByRank := by
  intro port s p ready
  have hnoted : Touches { ports := true } s (bubbleNoted s port) := bubbleNoted_touches
  refine ⟨exec_outputArbitration_of_still, fun hstate hroom hnone => ?none, fun w hstate hroom hw hfirst => ?some⟩
  case none =>
    exact ⟨_, exec_outputArbitration_of_none hstate hroom (chooseNext_of_none hnone), hnoted.fab rfl, hnoted.out rfl⟩
  case some =>
    obtain ⟨hout, hwaiting, hbytes⟩ := transmit_leaves (s := bubbleNoted s port) (port := port) (w := w)
    refine ⟨_, exec_outputArbitration_of_some hstate hroom (chooseNext_of_first hw hfirst), ?_, ?_, ?_⟩
    · rw [hout, hnoted.out rfl]
      rfl
    · rw [hwaiting, hnoted.fab rfl]
    · rw [hbytes, bubbleNoted_port.1]
      rfl

end Sys2Proof.Proofs
end

section
/-! PROOFS. The header of a packet (R144): the fields stand in their words one beside the other, with no bit between them
and none over. -/

namespace Sys2Proof.Proofs

open Sys2Proof.Machine

/-! ### The header words (R144) -/

section Words

variable (p : Packet)

/-- A flag is the one bit of its place. -/
theorem ofBool_getLsbD {n : Nat} (w : BitVec n) (i : Nat) : BitVec.ofBool (w.getLsbD i) = w.extractLsb' i 1 := by
  apply BitVec.eq_of_getLsbD_eq
  intro j hj
  obtain rfl : j = 0 := by omega
  simp

/-- H0 with its fields' widths in view. -/
abbrev h0Fields : BitVec (2 + 1 + 1 + 2 + 1 + 1 + 12 + 12) :=
  p.cls ++ BitVec.ofBool p.vc ++ BitVec.ofBool p.mcast ++ p.colour ++ BitVec.ofBool p.dim ++ BitVec.ofBool p.dir ++
    p.dest ++ p.src

theorem headerH0_fields :
    (headerH0 p).extractLsb' 30 2 = p.cls ∧ (headerH0 p).getLsbD 29 = p.vc ∧ (headerH0 p).getLsbD 28 = p.mcast ∧
      (headerH0 p).extractLsb' 26 2 = p.colour ∧ (headerH0 p).getLsbD 25 = p.dim ∧ (headerH0 p).getLsbD 24 = p.dir ∧
      (headerH0 p).extractLsb' 12 12 = p.dest ∧ (headerH0 p).extractLsb' 0 12 = p.src := by
  have hbits : ∀ i k, (headerH0 p).extractLsb' i k = (h0Fields p).extractLsb' i k := fun _ _ => rfl
  have hbit : ∀ i, (headerH0 p).getLsbD i = (h0Fields p).getLsbD i := fun _ => rfl
  simp (disch := decide) only [hbits, hbit, BitVec.extractLsb'_append_eq_of_le, BitVec.extractLsb'_append_eq_of_add_le,
    BitVec.extractLsb'_eq_self, BitVec.getLsbD_append, BitVec.getLsbD_ofBool, Nat.reduceSub, Nat.reduceLT, if_true, if_false,
    decide_true, Bool.true_and, and_self]

theorem headerH1_fields : (headerH1 p).extractLsb' 26 6 = p.opcode ∧ (headerH1 p).extractLsb' 13 13 = p.len ∧
    (headerH1 p).extractLsb' 8 5 = p.part ∧ (headerH1 p).extractLsb' 0 8 = p.hops := by
  have hbits : ∀ i k, (headerH1 p).extractLsb' i k =
      BitVec.extractLsb' (n := 6 + 13 + 5 + 8) i k (p.opcode ++ p.len ++ p.part ++ p.hops) := fun _ _ => rfl
  simp (disch := decide) only [hbits, BitVec.extractLsb'_append_eq_of_le, BitVec.extractLsb'_append_eq_of_add_le,
    BitVec.extractLsb'_eq_self, Nat.reduceSub, and_self]

theorem headerH4_fields : (headerH4 p).extractLsb' 28 4 = p.status ∧ (headerH4 p).extractLsb' 24 4 = p.load ∧
    (headerH4 p).extractLsb' 20 4 = p.headroom ∧ (headerH4 p).extractLsb' 0 20 = p.addr.extractLsb' 32 20 := by
  have hbits : ∀ i k, (headerH4 p).extractLsb' i k =
      BitVec.extractLsb' (n := 4 + 4 + 4 + 20) i k (p.status ++ p.load ++ p.headroom ++ p.addr.extractLsb' 32 20) :=
    fun _ _ => rfl
  simp (disch := decide) only [hbits, BitVec.extractLsb'_append_eq_of_le, BitVec.extractLsb'_append_eq_of_add_le,
    BitVec.extractLsb'_eq_self, Nat.reduceSub, and_self]

theorem headerH5_fields : (headerH5 p).extractLsb' 16 16 = p.epoch ∧ (headerH5 p).extractLsb' 0 16 = p.arg := by
  have hbits : ∀ i k, (headerH5 p).extractLsb' i k = BitVec.extractLsb' (n := 16 + 16) i k (p.epoch ++ p.arg) :=
    fun _ _ => rfl
  simp (disch := decide) only [hbits, BitVec.extractLsb'_append_eq_of_le, BitVec.extractLsb'_append_eq_of_add_le,
    BitVec.extractLsb'_eq_self, Nat.reduceSub, and_self]

/-- A number in two words is put together again. -/
theorem append_extractLsb'_low {n k : Nat} (x : BitVec (k + n)) : x.extractLsb' n k ++ x.extractLsb' 0 n = x := by
  rw [BitVec.extractLsb'_append_extractLsb'_eq_extractLsb' (Nat.zero_add n).symm, BitVec.extractLsb'_eq_self]

theorem packetOf_headerWords : packetOf (headerWords p) p.payload = p := by
  obtain ⟨hcls, hvc, hmcast, hcolour, hdim, hdir, hdest, hsrc⟩ := headerH0_fields p
  obtain ⟨hopcode, hlen, hpart, hhops⟩ := headerH1_fields p
  obtain ⟨hstatus, hload, hheadroom, hhigh⟩ := headerH4_fields p
  obtain ⟨hepoch, harg⟩ := headerH5_fields p
  have haddr : p.addr.extractLsb' 32 20 ++ p.addr.extractLsb' 0 32 = p.addr :=
    append_extractLsb'_low (n := 32) (k := 20) p.addr
  have haux : p.aux.extractLsb' 32 32 ++ p.aux.extractLsb' 0 32 = p.aux :=
    append_extractLsb'_low (n := 32) (k := 32) p.aux
  simp only [packetOf, headerWords, List.getD_cons_zero, List.getD_cons_succ, hcls, hvc, hmcast, hcolour, hdim, hdir, hdest,
    hsrc, hopcode, hlen, hpart, hhops, hstatus, hload, hheadroom, hhigh, hepoch, harg, haddr, haux]

end Words

/-! ### The packet of eight words (R144) -/

section Packets

variable (a b c d e f g h : Word) (bs : List Byte)

theorem headerH0_packetOf : headerH0 (packetOf [a, b, c, d, e, f, g, h] bs) = a := by
  simp only [headerH0, packetOf, List.getD_cons_zero, ofBool_getLsbD]
  simp (disch := decide) only [BitVec.extractLsb'_append_extractLsb'_eq_extractLsb']
  exact BitVec.extractLsb'_eq_self

theorem headerH1_packetOf : headerH1 (packetOf [a, b, c, d, e, f, g, h] bs) = b := by
  simp only [headerH1, packetOf, List.getD_cons_zero, List.getD_cons_succ]
  simp (disch := decide) only [BitVec.extractLsb'_append_extractLsb'_eq_extractLsb']
  exact BitVec.extractLsb'_eq_self

theorem headerH4_packetOf : headerH4 (packetOf [a, b, c, d, e, f, g, h] bs) = e := by
  have hhigh : (e.extractLsb' 0 20 ++ d).extractLsb' 32 20 = e.extractLsb' 0 20 :=
    (BitVec.extractLsb'_append_eq_of_le (Nat.le_refl 32)).trans BitVec.extractLsb'_eq_self
  simp only [headerH4, packetOf, List.getD_cons_zero, List.getD_cons_succ, hhigh]
  simp (disch := decide) only [BitVec.extractLsb'_append_extractLsb'_eq_extractLsb']
  exact BitVec.extractLsb'_eq_self

theorem headerH5_packetOf : headerH5 (packetOf [a, b, c, d, e, f, g, h] bs) = f := by
  simp only [headerH5, packetOf, List.getD_cons_zero, List.getD_cons_succ]
  exact append_extractLsb'_low (n := 16) (k := 16) f

theorem headerWords_packetOf : headerWords (packetOf [a, b, c, d, e, f, g, h] bs) = [a, b, c, d, e, f, g, h] := by
  have hlow : ∀ {m : Nat} (x : BitVec m) (y : Word), (x ++ y).extractLsb' 0 32 = y := fun x y =>
    (BitVec.extractLsb'_append_eq_of_add_le (Nat.le_refl 32)).trans BitVec.extractLsb'_eq_self
  have hhigh : (h ++ g).extractLsb' 32 32 = h :=
    (BitVec.extractLsb'_append_eq_of_le (Nat.le_refl 32)).trans BitVec.extractLsb'_eq_self
  simp only [headerWords, headerH0_packetOf, headerH1_packetOf, headerH4_packetOf, headerH5_packetOf]
  simp only [packetOf, List.getD_cons_zero, List.getD_cons_succ, hlow, hhigh]

end Packets

/-- Settles O7: each field is the bits of its place, and the fields of a word follow one another without a gap. -/
theorem headerWordsRoundTrip : Obligations.HeaderWordsRoundTrip := ⟨packetOf_headerWords, headerWords_packetOf⟩

end Sys2Proof.Proofs
end

section
/-! PROOFS. The ring stop (R144, R148, R149, R154, R155): what a packet that is injected or refused leaves alone there, and
where the oldest packet of a port goes. -/

namespace Sys2Proof.Proofs

open Sys2Proof.Machine Sys2Proof.Laws

/-! ### What sending leaves alone at a stop -/

section Kept

variable {s s0 t u : State} {M : Mask} {p : Packet} {plane n : Nat}

/-- Of the stop, packets that leave or come back change only the queues of packets and of answers; no packet of an input
buffer moves, and no flow's credit. -/
def StopKept (s t : State) : Prop :=
  t.fab = { s.fab with
    waiting := t.fab.waiting, nextAge := t.fab.nextAge, inbox := t.fab.inbox, leaving := t.fab.leaving } ∧
  (∀ j, (portGet t j).ingress = (portGet s j).ingress) ∧ ∀ k, (flowGet t k).credit = (flowGet s k).credit

theorem StopKept.refl (s : State) : StopKept s s := ⟨rfl, fun _ => rfl, fun _ => rfl⟩

theorem StopKept.trans (h : StopKept s t) (k : StopKept t u) : StopKept s u := by
  obtain ⟨hfab, hports, hflows⟩ := h
  obtain ⟨kfab, kports, kflows⟩ := k
  refine ⟨?_, fun j => (kports j).trans (hports j), fun j => (kflows j).trans (hflows j)⟩
  rw [kfab, hfab]

theorem StopKept.mcasts (h : StopKept s t) : t.fab.mcasts = s.fab.mcasts :=
  (congrArg Fabric.mcasts h.1).trans rfl

theorem StopKept.arrivals (h : StopKept s t) : t.fab.arrivals = s.fab.arrivals :=
  (congrArg Fabric.arrivals h.1).trans rfl

theorem StopKept.ingress (h : StopKept s t) (j : Nat) : (portGet t j).ingress = (portGet s j).ingress := h.2.1 j

theorem StopKept.credit (h : StopKept s t) (k : Nat) : (flowGet t k).credit = (flowGet s k).credit := h.2.2 k

/-- What touches neither the stop nor ports nor flows keeps the stop. -/
theorem StopKept.of_touches (h : Touches M s t) (hfab : M.fab = false) (hports : M.ports = false)
    (hflows : M.flows = false) : StopKept s t := by
  refine ⟨by rw [h.fab hfab], fun j => ?_, fun k => ?_⟩
  · unfold portGet
    rw [h.ports hports]
  · rw [flowGet_of_flows (h.flows hflows)]

theorem StopKept.of_portMod {f : Port → Port} (hf : ∀ x, (f x).ingress = x.ingress) : StopKept s (portMod s n f) := by
  refine ⟨rfl, fun j => ?_, fun _ => rfl⟩
  rw [portGet_portMod]
  split
  next h => rw [hf, h]
  next => rfl

theorem stopKept_freeAt {vc : Bool} {since : Nat} : StopKept s (freeAt s n p vc since) := by
  unfold freeAt
  split
  next => exact .of_portMod fun _ => rfl
  next => exact .refl s

theorem stopKept_noteRemoved {out : Nat} : StopKept s (noteRemoved s out) := .of_portMod fun _ => rfl

theorem stopKept_ownRemoved {out : Nat} {st : Status} : StopKept s (ownRemoved s out p st) := by
  unfold ownRemoved
  split
  next => exact ⟨rfl, fun _ => rfl, fun _ => rfl⟩
  next => exact .refl s

theorem stopKept_injectOn {needActive : Bool} : StopKept s (injectOn s plane needActive p) := by
  unfold injectOn
  split
  next => exact .refl s
  next r _ =>
    split
    next out _ =>
      split
      · exact .refl s
      · split
        · have hseal : Touches { parts := true } s (sealPacket s p).1 := sealPacket_touches (.refl _ s) rfl
          exact (StopKept.of_touches hseal rfl rfl rfl).trans ⟨rfl, fun _ => rfl, fun _ => rfl⟩
        · exact stopKept_noteRemoved.trans stopKept_ownRemoved
    next =>
      split
      · exact ⟨rfl, fun _ => rfl, fun _ => rfl⟩
      · exact .refl s
    next => exact .refl s

/-- Nothing comes back of a packet that is no request and is bound for another stop. -/
theorem injectOn_inbox {needActive : Bool} {r : RingRec} (hring : s.img.layout.ring = some r)
    (hdest : p.dest.toNat ≠ r.node) (hcls : p.cls ≠ 0) :
    (injectOn s plane needActive p).fab.inbox = s.fab.inbox := by
  unfold injectOn
  simp only [hring]
  split
  next out _ =>
    split
    · rfl
    · split
      · have hseal : Touches { parts := true } s (sealPacket s p).1 := sealPacket_touches (.refl _ s) rfl
        have hinbox := congrArg Fabric.inbox (hseal.fab rfl)
        exact hinbox
      · rw [ownRemoved, if_neg hcls]
        rfl
  next hsink =>
    unfold routeAt at hsink
    rw [if_neg hdest] at hsink
    repeat' split at hsink
    all_goals cases hsink
  next => rfl

/-! Answers: of the flows they move only what waits and what is counted (R112, R330). -/

section Answering

variable {req : Request} {taken : Option Nat} {a : Ans} {v : Service} {qi psn : Nat}

theorem StopKept.of_flowMod {f : Flow → Flow} (hf : ∀ x, (f x).credit = x.credit) : StopKept s (flowMod s n f) := by
  refine ⟨rfl, fun _ => rfl, fun k => ?_⟩
  rw [flowGet_flowMod]
  split
  next h => rw [hf, h]
  next => rfl

theorem StopKept.ite {c : Prop} [Decidable c] (h : StopKept s t) (k : StopKept s u) : StopKept s (if c then t else u) := by
  split
  · exact h
  · exact k

theorem StopKept.of_foldl {α : Type} {f : State → α → State} (hf : ∀ s x, StopKept s (f s x)) (l : List α) :
    StopKept s (l.foldl f s) := by
  induction l generalizing s with
  | nil => exact .refl s
  | cons x l ih => exact (hf s x).trans ih

/-- What only a queue pair owes. -/
theorem StopKept.of_owed (h : Touches Mask.sendOwed s t) : StopKept s t := .of_touches h rfl rfl rfl

theorem stopKept_cutBack {ps : List RocePacket} {f : Qp → Qp} : StopKept s (cutBack s qi psn ps f) := by
  unfold cutBack
  extract_lets q gone s1 s2 s3
  have h1 : StopKept s s1 := .of_owed (qpSet_touches (.refl _ s) rfl)
  have h2 : StopKept s1 s2 := .of_flowMod fun _ => rfl
  have h3 : StopKept s2 s3 := .of_owed (settleOrder_touches (.refl _ s2) rfl)
  have h4 : StopKept s s3 := (h1.trans h2).trans h3
  exact h4.ite (h4.trans (.of_owed (respond_touches (.refl _ s3) rfl)))

theorem stopKept_fatalAnswer {st : Status} : StopKept s (fatalAnswer s qi psn st taken) :=
  .of_owed (fatalAnswer_touches (.refl _ s) rfl)

theorem stopKept_ethAck {ack send : Bool} : StopKept s (ethAck s qi psn ack send req a taken) := by
  have hrespond : ∀ e, StopKept s (respond s qi e) := fun e => .of_owed (respond_touches (.refl _ s) rfl)
  have hsettle : ∀ q f, StopKept s (settleOrder (qpSet s qi q) qi psn f) := fun q f =>
    .of_owed (settleOrder_touches (qpSet_touches (.refl _ s) rfl) rfl)
  have hsettled : ∀ f, StopKept s (settleOrder s qi psn f) := fun f => .of_owed (settleOrder_touches (.refl _ s) rfl)
  refine (StopKept.refl s).ite ?_
  split
  iterate 3
    · exact ((hsettle _ _).ite (.refl s)).ite (stopKept_cutBack.ite ((hrespond _).ite (.refl s)))
  iterate 2
    · exact hsettled _
  · exact stopKept_fatalAnswer

theorem stopKept_ethReply {atomic : Bool} {ps : List RocePacket} :
    StopKept s (ethReply s qi psn atomic ps req a taken) := by
  refine (StopKept.refl s).ite ?_
  extract_lets entered s1
  have h1 : StopKept s s1 := StopKept.ite (.of_owed (qpMod_touches (.refl _ s) rfl)) (.refl s)
  have hsettle : ∀ g f, StopKept s1 (settleOrder (qpMod s1 qi g) qi psn f) := fun g f =>
    .of_owed (settleOrder_touches (qpMod_touches (.refl _ s1) rfl) rfl)
  refine h1.trans ?_
  split
  iterate 3
    · exact (StopKept.refl s1).ite (stopKept_cutBack.ite (hsettle _ _))
  iterate 2
    · exact .of_owed (settleOrder_touches (.refl _ s1) rfl)
  · exact stopKept_fatalAnswer

theorem stopKept_answerRequest : StopKept s (answerRequest s req taken a) := by
  unfold answerRequest
  extract_lets k s1
  have h1 : StopKept s s1 := StopKept.ite (.of_flowMod fun _ => rfl) (.refl s)
  refine h1.trans ?_
  split
  next =>
    split
    · exact stopKept_injectOn.trans ⟨rfl, fun _ => rfl, fun _ => rfl⟩
    · exact stopKept_injectOn
  next => exact stopKept_ethAck
  next => exact stopKept_ethReply
  next => exact (StopKept.ite (.of_owed (qpSet_touches (.refl _ s1) rfl)) (.refl s1)).trans stopKept_ethReply
  next => exact .of_owed (ethControlEnd_touches (.refl _ s1) rfl)
  next => exact .refl s1

theorem stopKept_noteLeaving : StopKept s (noteLeaving s v) := ⟨rfl, fun _ => rfl, fun _ => rfl⟩

theorem stopKept_finish : StopKept s (finish s v a) := by
  have hdrop : StopKept s (dropSvc s v.ticket) := ⟨rfl, fun _ => rfl, fun _ => rfl⟩
  rcases finish_eq_or s v a with h | ⟨b, -, h⟩
  · rw [h]
    exact hdrop
  · have hturned : StopKept (dropSvc s v.ticket) (noteTurned (dropSvc s v.ticket) v.req) :=
      .of_touches (M := { twn := true }) (noteTurned_touches (.refl _ _) rfl) rfl rfl rfl
    rw [h]
    exact (hdrop.trans (((StopKept.refl _).ite hturned).trans stopKept_answerRequest)).trans stopKept_noteLeaving

theorem stopKept_feedAgain : StopKept s (feedAgain s) := by
  have hstop : StopKept s { stopTwinPackets s with twn := { (stopTwinPackets s).twn with answers := [] } } :=
    ⟨rfl, fun _ => rfl, fun _ => rfl⟩
  exact (hstop.trans (.of_foldl (fun _ _ => stopKept_finish) _)).trans ⟨rfl, fun _ => rfl, fun _ => rfl⟩

end Answering

end Kept

/-! ### Packets that are turned away (R154, R155) -/

section TurnedAway

variable {s t u : State} {r : RingRec} {p : Packet} {port : Nat} {k : BadKind}

/-- A packet goes no further: of the stop only the queues move, and nothing of it comes back where it came from another
stop. -/
def TurnedAway (r : RingRec) (p : Packet) (s t : State) : Prop :=
  StopKept s t ∧ (p.src.toNat ≠ r.node → t.fab.inbox = s.fab.inbox)

theorem answerPacket_cls {req : Request} {taken : Option Nat} {a : Ans} : (answerPacket s req taken a).cls = 1 := by
  cases h : a.data <;> simp [answerPacket, newPacket, h, opCode]

theorem refusePacket_turnsAway (hring : s.img.layout.ring = some r) : TurnedAway r p s (refusePacket s port p) :=
  ⟨stopKept_injectOn, fun hsrc => injectOn_inbox hring (by rw [answerPacket_dest]; exact hsrc)
    (by rw [answerPacket_cls]; decide)⟩

theorem countBad_img : (countBad s k).img = s.img := by cases k <;> rfl

theorem badPacket_turnsAway (hring : s.img.layout.ring = some r) :
    TurnedAway r p (countBad s k) (badPacket s port p k) := by
  unfold badPacket
  split
  · exact refusePacket_turnsAway (by rw [countBad_img]; exact hring)
  · exact ⟨.refl _, fun _ => rfl⟩

end TurnedAway

/-! ### The oldest packet of a port (R148, R149, R154, R155) -/

section Routes

variable {s : State} {r : RingRec} {p : Packet} {b : Buffered} {rest : List Buffered} {n since : Nat} {port : Fin 8}

/-- A multicast of the packet's own stream stands at this stop, and the packet waits for it (R148). -/
def Waits (s : State) (k : Packet) (port : Nat) : Prop :=
  k.mcast = false ∧ k.len.toNat ≤ 4096 ∧ ∃ y ∈ s.fab.mcasts, sameStream y.pkt k (y.port / 4) (port / 4) = true

/-- The stop once the oldest packet has left its port's input buffer. -/
def headTaken (s : State) (port : Nat) (rest : List Buffered) : State :=
  portMod s port (fun x => { x with ingress := rest })

theorem headTaken_ingress : (portGet (headTaken s n rest) n).ingress = rest := by
  rw [headTaken, portGet_portMod, if_pos rfl]

theorem portHolds_headTaken {out : Nat} : portHolds (headTaken s n rest) out = portHolds s out := by
  simp only [portHolds, headTaken, portGet_portMod]
  split
  next h => rw [h]
  next => rfl

theorem portHolds_freeAt {vc : Bool} {out : Nat} : portHolds (freeAt s n p vc since) out = portHolds s out := by
  unfold freeAt
  split
  · simp only [portHolds, portGet_portMod]
    split
    next h => rw [h]; rfl
    next => rfl
  · rfl

/-- The packet of the state, without the place it held here. -/
abbrev leftPort (s : State) (port : Nat) (p : Packet) (since : Nat) : State := freeAt s port p p.vc since

theorem leftPort_fab : (leftPort s n p since).fab = s.fab :=
  (freeAt_touches (M := { ports := true }) (.refl _ s) rfl).fab rfl

theorem leftPort_img : (leftPort s n p since).img = s.img :=
  (freeAt_touches (M := { ports := true }) (.refl _ s) rfl).img rfl

theorem fabEnc_leftPort {q : Nat} : fabEnc (leftPort s n p since) q = fabEnc s q := by
  unfold fabEnc partGet
  rw [(freeAt_touches (M := { ports := true }) (.refl _ s) rfl).parts rfl]

theorem routeWhole_of_outside (hgrid : inGrid r p.dest.toNat = false) :
    routeWhole s r n p since = badPacket (leftPort s n p since) n p .unroutable := by
  simp [routeWhole, hgrid]

section InGrid

variable (hgrid : inGrid r p.dest.toNat = true)
include hgrid

theorem routeWhole_of_hops (hdest : p.dest.toNat ≠ r.node) (hhops : 127 ≤ p.hops.toNat) :
    routeWhole s r n p since = badPacket (leftPort s n p since) n p .hops := by
  simp [routeWhole, hgrid, hdest, hhops]

theorem routeWhole_of_mcast (hhops : p.hops.toNat < 127 ∨ p.dest.toNat = r.node) (hmcast : p.cls = 3 ∧ p.mcast = true) :
    routeWhole s r n p since =
      { s with fab := { s.fab with mcasts := s.fab.mcasts ++ [{ pkt := p, port := n, since := since }] } } := by
  have hstays : ¬ (127 ≤ p.hops.toNat ∧ p.dest.toNat ≠ r.node) := by omega
  simp only [routeWhole, hgrid, Bool.not_true, Bool.false_eq_true, if_false, if_neg hstays, if_pos hmcast]

theorem routeWhole_of_port {out : Nat} (hhops : p.hops.toNat < 127) (hmcast : ¬ (p.cls = 3 ∧ p.mcast = true))
    (hroute : routeAt r (n / 4) p.dest.toNat = .port out) (hholds : portHolds s out = true) :
    routeWhole s r n p since = enqueueOut s r out (if out = facingPort n then 0 else 1) n p since := by
  have hstays : ¬ (127 ≤ p.hops.toNat ∧ p.dest.toNat ≠ r.node) := by omega
  simp only [routeWhole, hgrid, Bool.not_true, Bool.false_eq_true, if_false, if_neg hstays, if_neg hmcast, hroute,
    hholds, if_true]

theorem routeWhole_of_sink (hdest : p.dest.toNat = r.node) (hmcast : ¬ (p.cls = 3 ∧ p.mcast = true)) :
    routeWhole s r n p since = sinkPacket (leftPort s n p since) n p := by
  have hstays : ¬ (127 ≤ p.hops.toNat ∧ p.dest.toNat ≠ r.node) := by omega
  have hroute : routeAt r (n / 4) p.dest.toNat = .sink := if_pos hdest
  simp only [routeWhole, hgrid, Bool.not_true, Bool.false_eq_true, if_false, if_neg hstays, if_neg hmcast, hroute]

end InGrid

theorem sinkPacket_of_broken (h : ¬ (opcodeRule p (fabEnc s p.part.toNat) = true ∧ alignRule p = true)) :
    sinkPacket s n p = badPacket s n p .opcode := by
  refine if_pos ?_
  simpa [imp_iff_not_or] using h

/-- A request that keeps the rules of its opcode arrives, where no twin makes it a request of the copy (R91, R155). -/
theorem sinkPacket_of_request (hopcode : opcodeRule p false = true) (halign : alignRule p = true)
    (henc : fabEnc s p.part.toNat = false) (htwin : s.twn.state = 0) (hcls : p.cls = 0) :
    ∃ q : Request, (sinkPacket s n p).fab.arrivals = s.fab.arrivals ++ [q] ∧ q.origin = .fabric n ∧
      q.pkt = { p with status := q.pkt.status } := by
  have hopen : openPacket s p = some p := if_neg (by simp [henc])
  have hcopy : ∀ q, isCopyRequest (portCnt s n (fun c => { c with sink := wrap32 c.sink })) q = false := fun q => by
    simp [isCopyRequest, portCnt, htwin]
  refine ⟨{ pkt := { p with status := BitVec.ofNat 4 (statusCode (statusOf p.status.toNat)) }, origin := .fabric n,
            colour := if p.colour = 3 then 0 else p.colour.toNat, arrived := s.td.now }, ?_, rfl, rfl⟩
  simp only [sinkPacket, henc, hopcode, halign, hopen, hcls, hcopy]
  rfl

/-! Whatever becomes of the packet, the packets behind it stay in the input buffer. -/

theorem countBad_ingress {k : BadKind} {j : Nat} : (portGet (countBad s k) j).ingress = (portGet s j).ingress := by
  cases k <;> rfl

theorem refusePacket_ingress {j : Nat} : (portGet (refusePacket s n p) j).ingress = (portGet s j).ingress :=
  stopKept_injectOn.ingress j

theorem badPacket_ingress {k : BadKind} {j : Nat} : (portGet (badPacket s n p k) j).ingress = (portGet s j).ingress := by
  unfold badPacket
  split
  · rw [refusePacket_ingress, countBad_ingress]
  · exact countBad_ingress

theorem removePacket_ingress {out j : Nat} : (portGet (removePacket s n out p) j).ingress = (portGet s j).ingress :=
  ((stopKept_noteRemoved.trans stopKept_injectOn).ite stopKept_noteRemoved).ingress j

theorem sinkPacket_ingress {j : Nat} : (portGet (sinkPacket s n p) j).ingress = (portGet s j).ingress := by
  unfold sinkPacket
  split
  · exact badPacket_ingress
  · split
    · split
      · exact refusePacket_ingress
      · rfl
    next q _ =>
      extract_lets q s1 colour r s2
      have hport : (portGet s1 j).ingress = (portGet s j).ingress :=
        (StopKept.of_portMod (s := s) (n := n) (f := fun x => { x with cnt := { x.cnt with sink := wrap32 x.cnt.sink } })
          fun _ => rfl).ingress j
      have hfeed : (portGet s2 j).ingress = (portGet s j).ingress :=
        (((StopKept.refl s1).ite stopKept_feedAgain).ingress j).trans hport
      split
      · split
        · exact hfeed
        · exact hport
      · split <;> exact hport

theorem routeWhole_ingress {j : Nat} : (portGet (routeWhole s r n p since) j).ingress = (portGet s j).ingress := by
  have hleft : (portGet (leftPort s n p since) j).ingress = (portGet s j).ingress := stopKept_freeAt.ingress j
  unfold routeWhole
  extract_lets left
  split
  · exact badPacket_ingress.trans hleft
  · split
    · exact badPacket_ingress.trans hleft
    · split
      · rfl
      · split
        · exact sinkPacket_ingress.trans hleft
        · exact badPacket_ingress.trans hleft
        · split
          · rfl
          · exact removePacket_ingress.trans hleft

theorem framingLoss_fab : (framingLoss s n p since).fab = { s.fab with frameErr := sat16 s.fab.frameErr } := rfl

theorem framingLoss_ingress {j : Nat} : (portGet (framingLoss s n p since) j).ingress = (portGet s j).ingress := by
  simp only [framingLoss, portMod, portSet, portGet, tblGet_set]
  split
  next h => rw [h]; rfl
  next => rfl

theorem exec_packetRoute_of_waits (hhead : (portGet s port).ingress = b :: rest) (h : Waits s b.pkt port) :
    exec (.packetRoute port) s = .next s := by
  obtain ⟨hmcast, hlen, hstream⟩ := h
  have hany : s.fab.mcasts.any (fun y => sameStream y.pkt b.pkt (y.port / 4) (port.val / 4)) = true :=
    List.any_eq_true.mpr hstream
  refine (?_ : execPacketRoute port s = _)
  simp [execPacketRoute, hhead, hmcast, hlen, hany]

theorem not_waiting (h : ¬ Waits s b.pkt port) :
    (!b.pkt.mcast && s.fab.mcasts.any (fun y => sameStream y.pkt b.pkt (y.port / 4) (port.val / 4)) &&
      decide (b.pkt.len.toNat ≤ 4096)) = false := by
  rw [Bool.eq_false_iff]
  intro hwaits
  simp only [Bool.and_eq_true, Bool.not_eq_true', decide_eq_true_eq, List.any_eq_true] at hwaits
  obtain ⟨⟨hmcast, hstream⟩, hlen⟩ := hwaits
  exact h ⟨hmcast, hlen, hstream⟩

theorem exec_packetRoute_of_framing (hhead : (portGet s port).ingress = b :: rest) (hlen : 4096 < b.pkt.len.toNat) :
    exec (.packetRoute port) s = .next (framingLoss (headTaken s port rest) port b.pkt b.since) := by
  have hfree : ¬ Waits s b.pkt port := fun h => by have := h.2.1; omega
  refine (?_ : execPacketRoute port s = _)
  simp only [execPacketRoute, hhead, not_waiting hfree, hlen, Bool.false_eq_true, if_false, if_true]
  rfl

theorem exec_packetRoute_of_whole (hhead : (portGet s port).ingress = b :: rest) (hfree : ¬ Waits s b.pkt port)
    (hlen : b.pkt.len.toNat ≤ 4096) (hring : s.img.layout.ring = some r) :
    exec (.packetRoute port) s = .next (routeWhole (headTaken s port rest) r port b.pkt b.since) := by
  have hwhole : ¬ 4096 < b.pkt.len.toNat := by omega
  refine (?_ : execPacketRoute port s = _)
  simp only [execPacketRoute, hhead, not_waiting hfree, hwhole, Bool.false_eq_true, if_false, portMod_img, hring]
  rfl

end Routes

/-- Settles O30: the oldest packet waits for a multicast of its stream, is lost with its framing, or goes where its header
sends it, by the cases of `routeWhole`. -/
theorem packetsAreRouted : Obligations.PacketsAreRouted := by
  intro port b rest s k dest waits hhead
  let u := headTaken s port rest
  let left := leftPort u port k b.since
  have hfab : left.fab = s.fab := leftPort_fab
  refine ⟨exec_packetRoute_of_waits hhead, fun hlen => ?framing, fun r hfree hlen hring => ?whole⟩
  case framing =>
    refine ⟨_, exec_packetRoute_of_framing hhead hlen, framingLoss_ingress.trans headTaken_ingress, ?_, ?_, ?_, ?_⟩ <;>
      rw [framingLoss_fab]
    · exact sat16_eq _
    all_goals rfl
  case whole =>
    have hring' : left.img.layout.ring = some r := by rw [leftPort_img]; exact hring
    have hbad (kind : BadKind) : TurnedAway r k (countBad left kind) (badPacket left port k kind) :=
      badPacket_turnsAway hring'
    refine ⟨_, exec_packetRoute_of_whole hhead hfree hlen hring, routeWhole_ingress.trans headTaken_ingress,
      fun hgrid => ?outside, fun hgrid hdest hhops => ?hops, fun hgrid hhops hcls hmcast => ?mcast,
      fun hgrid hhops hmcast out hroute hholds => ?port, fun hgrid hdest hmcast hrules => ?broken,
      fun hgrid hdest hopcode halign henc htwin hcls => ?request⟩
    case outside =>
      obtain ⟨hkept, hinbox⟩ := hbad .unroutable
      rw [routeWhole_of_outside hgrid, ← hfab, ← sat16_eq]
      exact ⟨congrArg Fabric.unroutable hkept.1, hkept.arrivals, hinbox⟩
    case hops =>
      obtain ⟨hkept, hinbox⟩ := hbad .hops
      rw [routeWhole_of_hops hgrid hdest hhops, ← hfab, ← sat16_eq]
      exact ⟨congrArg Fabric.hops hkept.1, hkept.arrivals, hinbox⟩
    case mcast =>
      rw [routeWhole_of_mcast hgrid (.inl hhops) ⟨hcls, hmcast⟩]
      rfl
    case port =>
      rw [routeWhole_of_port hgrid hhops hmcast hroute (portHolds_headTaken.trans hholds)]
      exact ⟨_, rfl, rfl, rfl, rfl⟩
    case broken =>
      obtain ⟨hkept, hinbox⟩ := hbad .opcode
      rw [routeWhole_of_sink hgrid hdest hmcast,
        sinkPacket_of_broken (by rw [fabEnc_leftPort]; exact hrules), ← hfab, ← sat16_eq]
      exact ⟨congrArg Fabric.opcodeErr hkept.1, hkept.arrivals, hinbox⟩
    case request =>
      have hmcast : ¬ (k.cls = 3 ∧ k.mcast = true) := fun h => by simp [hcls] at h
      have htwin' : left.twn.state = 0 := by
        rw [(freeAt_touches (M := { ports := true }) (.refl _ u) rfl).twn rfl]
        exact htwin
      obtain ⟨q, hq, hrequest⟩ := sinkPacket_of_request (s := left) (n := port) hopcode halign
        (fabEnc_leftPort.trans henc) htwin' hcls
      rw [routeWhole_of_sink hgrid hdest hmcast, ← hfab]
      exact ⟨q, hq, hrequest⟩

end Sys2Proof.Proofs
end

section
/-! PROOFS. One line of published memory without errors (R145, R146, R300 to R305): what a read of it finds and what a
write of it leaves, from the cells up to the answer of a request that stands alone. -/

namespace Sys2Proof.Proofs

open Sys2Proof.Machine Sys2Proof.Laws

/-! ### Ranges and bytes -/

section Bytes

variable {s t : State} {g off n sl a : Nat} {bs : List Byte}

/-- A range that crosses no multiple of `g` is one piece. -/
theorem cutAt_of_within (hn : 0 < n) (hfit : off % g + n ≤ g) : cutAt g off n = [(off, 0, n)] := by
  have hg : g ≠ 0 := by omega
  have hlen : min n (g - off % g) = n := by omega
  show piecesAt g (n / g + 1 + 1) off 0 n = _
  rw [piecesAt, if_neg (by omega), hlen]
  simp [piecesAt]

theorem mod_add_le_of_line {g : Nat} (h64 : 64 ∣ g) (hg : 0 < g) (hfit : off % 64 + n ≤ 64) : off % g + n ≤ g := by
  obtain ⟨m, rfl⟩ := h64
  have hlow : off % (64 * m) % 64 = off % 64 := Nat.mod_mul_right_mod ..
  have hlt : off % (64 * m) < 64 * m := Nat.mod_lt _ hg
  have hquot : off % (64 * m) / 64 < m := (Nat.div_lt_iff_lt_mul (by norm_num)).2 (by omega)
  omega

theorem leBytes_length (n v : Nat) : (leBytes n v).length = n := by
  induction n generalizing v with
  | zero => rfl
  | succ n ih => rw [leBytes, List.length_cons, ih]

theorem leNat_leBytes (n v : Nat) : leNat (leBytes n v) = v % 256 ^ n := by
  induction n generalizing v with
  | zero => rw [pow_zero, Nat.mod_one]; rfl
  | succ n ih => rw [leBytes, leNat, ih, BitVec.toNat_ofNat, pow_succ' 256 n, Nat.mod_mul (a := 256)]

theorem leNat_lt (bs : List Byte) : leNat bs < 256 ^ bs.length := by
  induction bs with
  | nil => exact Nat.one_pos
  | cons b bs ih =>
    have hb := b.isLt
    rw [leNat, List.length_cons, pow_succ']
    omega

theorem sliceBytes_length {off : Nat} : (sliceBytes bs off n).length = n := by
  simp only [sliceBytes, List.length_append, List.length_replicate, List.length_take]
  omega

theorem fieldAt_lt {off : Nat} : fieldAt bs off n < 256 ^ n := by
  have h := leNat_lt (sliceBytes bs off n)
  rwa [sliceBytes_length] at h

theorem leNat_leBytes_atomNew {kind old operand compare : Nat} (hold : old < 2 ^ 64) (hoperand : operand < 2 ^ 64) :
    leNat (leBytes 8 (atomNew kind old operand compare)) = atomNew kind old operand compare := by
  have hlt : atomNew kind old operand compare < 2 ^ 64 := by
    unfold atomNew
    split
    · exact Nat.mod_lt _ (by norm_num)
    · exact hoperand
    · split <;> assumption
  rw [leNat_leBytes]
  exact Nat.mod_eq_of_lt (hlt.trans_eq (by norm_num))

theorem dramBytes_length : (dramBytes s sl a n).length = n := by
  rw [dramBytes, List.length_map, List.length_range]

theorem dramBytes_congr (h : t.stk.dram = s.stk.dram) : dramBytes t sl a n = dramBytes s sl a n := by
  unfold dramBytes dramByte
  rw [h]

theorem dramBytes_succ : dramBytes s sl a (n + 1) = dramByte s sl a :: dramBytes s sl (a + 1) n := by
  simp only [dramBytes, List.range_succ_eq_map, List.map_cons, List.map_map, Nat.add_zero, List.cons.injEq, true_and]
  exact List.map_congr_left fun i _ => by rw [Function.comp_apply, Nat.succ_eq_add_one, Nat.add_right_comm, Nat.add_assoc]

/-! ### A store of bytes -/

theorem dramStore_dram_congr (h : t.stk.dram = s.stk.dram) :
    (dramStore t sl a bs).stk.dram = (dramStore s sl a bs).stk.dram := by
  induction bs generalizing s t a with
  | nil => exact h
  | cons b bs ih => exact ih (by simp only [dramSetByte, h])

theorem dramByte_dramStore_of_outside {sl' a' : Nat} (hfit : a + bs.length ≤ 2 ^ 33) (ha' : a' < 2 ^ 33)
    (hout : sl' ≠ sl ∨ a' < a ∨ a + bs.length ≤ a') : dramByte (dramStore s sl a bs) sl' a' = dramByte s sl' a' := by
  induction bs generalizing s a with
  | nil => rfl
  | cons b bs ih =>
    rw [List.length_cons] at hfit hout
    have hkey : byteKey sl' a' ≠ byteKey sl a := by
      rw [ne_eq, byteKey_eq_iff (by omega) ha', Prod.mk.injEq]
      omega
    rw [dramStore, ih (by omega) (by omega), dramByte_dramSetByte, if_neg hkey]

theorem dramBytes_dramStore (hfit : a + bs.length ≤ 2 ^ 33) :
    dramBytes (dramStore s sl a bs) sl a bs.length = bs := by
  induction bs generalizing s a with
  | nil => rfl
  | cons b bs ih =>
    rw [List.length_cons] at hfit
    rw [List.length_cons, dramBytes_succ, dramStore, ih (by omega),
      dramByte_dramStore_of_outside (by omega) (by omega) (by omega), dramByte_dramSetByte, if_pos rfl]

theorem dramBytes_of_store (h : t.stk.dram = (dramStore s sl a bs).stk.dram) (hfit : a + bs.length ≤ 2 ^ 33) :
    dramBytes t sl a bs.length = bs := by
  rw [dramBytes_congr h, dramBytes_dramStore hfit]

theorem dramKeptBut_of_store (h : t.stk.dram = (dramStore s sl a bs).stk.dram) (hfit : a + bs.length ≤ 2 ^ 33) :
    DramKeptBut s t sl a bs.length := by
  intro sl' a' ha' hout
  have hbyte := dramByte_dramStore_of_outside (s := s) hfit ha' hout
  rwa [dramByte, ← h] at hbyte

/-- From `s` to `t` bytes have been stored at an address of a slice, and nothing else has changed but the words' marks. -/
def Stored (s t : State) (sl a : Nat) (bs : List Byte) : Prop :=
  Touches { stk := true, dram := true } s t ∧ t.stk.dram = (dramStore s sl a bs).stk.dram

theorem Stored.bytes (h : Stored s t sl a bs) (hfit : a + bs.length ≤ 2 ^ 33) : dramBytes t sl a bs.length = bs :=
  dramBytes_of_store h.2 hfit

theorem Stored.keptBut (h : Stored s t sl a bs) (hfit : a + bs.length ≤ 2 ^ 33) : DramKeptBut s t sl a bs.length :=
  dramKeptBut_of_store h.2 hfit

end Bytes

/-! ### Cells of a line without errors -/

section Lines

variable {s : State} {source sl a n p off i : Nat} {bs : List Byte}

/-- The words of the line that holds an address are without errors. -/
abbrev LineClean (s : State) (sl a : Nat) : Prop := (lineWords sl a).all (fun w => decide (markGet s w = {})) = true

theorem lineClean_of_stk {t : State} (h : t.stk = s.stk) (hclean : LineClean s sl a) : LineClean t sl a := by
  unfold LineClean markGet
  rw [h]
  exact hclean

theorem sliceFenced_of_stk {t : State} (h : t.stk = s.stk) : sliceFenced t sl = sliceFenced s sl := by
  unfold sliceFenced chanOf spareInService chanGet
  rw [h]

theorem linePoisoned_of_clean (hclean : LineClean s sl a) : linePoisoned s sl a = false := by
  refine List.any_eq_false.2 fun k hk => ?_
  rw [of_decide_eq_true (List.all_eq_true.1 hclean k hk)]
  decide

theorem readLine_of_clean (hclean : LineClean s sl a) : readLine s source sl a n = (s, dramBytes s sl a n, false) :=
  if_pos hclean

theorem mergeRead_of_clean (hclean : LineClean s sl a) : mergeRead s source sl a n = (s, false, []) := by
  unfold mergeRead
  rw [linePoisoned_of_clean hclean, if_pos hclean, ite_self]

theorem injectFlips_of_unarmed (harm : s.di.injArm = false) : injectFlips s sl a = s := by
  unfold injectFlips
  rw [if_neg (by simp [harm])]

theorem clearWords_touches {keys : List Nat} {f : Nat → Nat} :
    Touches { stk := true } s (keys.foldl (fun s k => markSet s (f k) {}) s) :=
  touches_foldl (.refl _ s) fun _ h _ => markSet_touches h rfl

theorem writeLine_of_clean (hclean : LineClean s sl a) (harm : s.di.injArm = false) :
    (writeLine s source sl a bs).2 = false ∧ Stored s (writeLine s source sl a bs).1 sl a bs := by
  have hunarmed {t : State} (h : Touches { stk := true, dram := true } s t) {sl a : Nat} : injectFlips t sl a = t :=
    injectFlips_of_unarmed (by rw [h.di rfl, harm])
  unfold writeLine
  extract_lets whole r masks keys s1 s2 s3
  have hr : r = (s, false, []) := mergeRead_of_clean hclean
  have hs1 : s1 = s := by simp [s1, masks, hr]
  have hclear : Touches { stk := true } s (keys.foldl (fun s k => markSet s k {}) s) := clearWords_touches (f := id)
  have hstored : Stored s s2 sl a bs := by
    simp only [s2, hs1]
    exact ⟨dramStore_touches (hclear.mono rfl) rfl, dramStore_dram_congr (hclear.dram rfl)⟩
  have hs3 : s3 = s2 := hunarmed hstored.1
  rw [if_neg (by simp [hr])]
  refine ⟨rfl, ?_⟩
  rw [hs3]
  dsimp only
  split
  next => exact hstored
  next q _ =>
    have hcopy : Touches { stk := true } s2 (keys.foldl (fun s k => markSet s (k % 2 ^ 30 + q * 2 ^ 30) {}) s2) :=
      clearWords_touches (f := fun k => k % 2 ^ 30 + q * 2 ^ 30)
    have hall := hstored.1.trans (hcopy.mono (n := { stk := true, dram := true }) rfl)
    show Stored s (injectFlips (keys.foldl (fun s k => markSet s (k % 2 ^ 30 + q * 2 ^ 30) {}) s2) q a) sl a bs
    rw [hunarmed hall]
    exact ⟨hall, (hcopy.dram rfl).trans hstored.2⟩

/-- The piece of a run that ended OK. -/
def okPiece (p off i : Nat) (bs : List Byte) : Piece :=
  { idx := i, addr := poolAddr p (off + i), status := .ok, bytes := bs }

theorem readPiece_of_clean (hserves : sliceFenced s sl = false) (hclean : LineClean s sl a) :
    readPiece s source p off i n sl a = (s, okPiece p off i (dramBytes s sl a n)) := by
  simp only [readPiece, hserves, readLine_of_clean hclean, Bool.false_eq_true, if_false]
  rfl

theorem writePiece_of_clean (hserves : sliceFenced s sl = false) (hclean : LineClean s sl a)
    (harm : s.di.injArm = false) :
    ∃ t, Stored s t sl a bs ∧ writePiece s source [] p off i sl a bs = (t, okPiece p off i []) := by
  obtain ⟨hgood, hstored⟩ := writeLine_of_clean (source := source) (bs := bs) hclean harm
  refine ⟨_, hstored, ?_⟩
  have hbad : badIn [] (off + i) = [] := rfl
  simp only [writePiece, hserves, hbad, hgood, Bool.false_eq_true, if_false]
  rfl

end Lines

end Sys2Proof.Proofs
end

section
/-! PROOFS. Reads, writes and atomics (R145 to R147, R303 to R305): a request that stands alone, from its translation to
its answer. -/

namespace Sys2Proof.Proofs

open Sys2Proof.Machine Sys2Proof.Laws

/-! ### Runs within one line -/

section Segments

variable {s : State} {r : RegionRec} {m : Mover} {source sl a n p off base : Nat} {bs : List Byte} {waits whole : Bool}

theorem pinnedLines_of_pinned (hplace : placeOf s p off = .pinned r sl a) (hn : 0 < n) (hfit : off % 64 + n ≤ 64) :
    pinnedLines s p off n = [(0, n, some (sl, a))] := by
  simp [pinnedLines, cutAt_of_within hn hfit, hplace]

theorem readSegment_of_none (hplace : placeOf s p off = .none) :
    readSegment s source m p off base n waits = (s, [faultPiece p off base .fault]) := by
  simp only [readSegment, hplace]

theorem readSegment_of_clean (hplace : placeOf s p off = .pinned r sl a) (hn : 0 < n) (hfit : off % 64 + n ≤ 64)
    (hserves : sliceFenced s sl = false) (hclean : LineClean s sl a) :
    readSegment s source m p off 0 n waits = (s, [okPiece p off 0 (dramBytes s sl a n)]) := by
  simp [readSegment, hplace, pinnedLines_of_pinned hplace hn hfit, foldPieces, readPiece_of_clean hserves hclean, okPiece]

/-- A write of a run within one line is the write of one piece. -/
theorem writeSegment_of_pinned (hplace : placeOf s p off = .pinned r sl a) (hn : 0 < bs.length)
    (hfit : off % 64 + bs.length ≤ 64) :
    writeSegment s source m p off 0 bs whole waits =
      ((writePiece s source m.bad p off 0 sl a bs).1, [(writePiece s source m.bad p off 0 sl a bs).2]) := by
  simp [writeSegment, hplace, pinnedLines_of_pinned hplace hn hfit, foldPieces]

end Segments

/-! ### A request that stands alone -/

section Standing

variable {s : State} {v : Service} {x : Piece} {t p off clk : Nat}

theorem twinnedAt_of_off (htwin : s.twn.state = 0) : twinnedAt s p off = none := if_pos (.inl htwin)

theorem mirrorAt_of_off {always : Bool} {seq : BitVec 32} {bs : List Byte} (htwin : s.twn.state = 0) :
    mirrorAt s always seq p off bs = s := by
  simp only [mirrorAt, twinnedAt_of_off htwin]

theorem reply_of_off {a : Ans} (htwin : s.twn.state = 0) : reply s v a = finish s v a := by
  simp only [reply, twinnedAt_of_off htwin]

theorem requestGate_of_off {k : Packet} (htwin : s.twn.state = 0) : requestGate s k = .serve := by
  have hserve : twinGate s (addrPart k.addr.toNat) = fun _ => .serve := by
    funext off
    simp only [twinGate, twinnedAt_of_off htwin]
  have hfind (n : Nat) (f : TwinGate → Bool) (hf : f .serve = false) : (List.replicate n .serve).find? f = none :=
    List.find?_eq_none.2 fun g hg => by rw [List.eq_of_mem_replicate hg, hf]; exact Bool.false_ne_true
  simp [requestGate, hserve, hfind]

theorem twinFirst_of_off {hold : Bool} (htwin : s.twn.state = 0) (hseal : s.sec.sealing = none) :
    twinFirst s v hold = none := by
  have hopen : sealedAt s = fun _ _ => false := by
    funext p off
    simp only [sealedAt, hseal]
  have hunsealed (l : List Nat) : l.any (fun _ => false) = false := List.any_eq_false.2 fun _ _ => Bool.false_ne_true
  simp [twinFirst, hopen, requestGate_of_off htwin, htwin]

/-- The requests, pieces and transactions of a state in which request `v` stands alone. -/
structure Single (s : State) (v : Service) : Prop where
  svc : s.svc = [v]
  gathered : s.coh.gathered = []
  txns : s.coh.txns = []
  placing : s.coh.placing = []
  twin : s.twn.state = 0

/-- A piece as it waits for the others of its request. -/
@[simps] def gatheredOf (t : Nat) (x : Piece) : Gathered :=
  { ticket := t, idx := x.idx, addr := x.addr, status := x.status, bytes := x.bytes, hint := x.hint }

theorem piecesOf_gather (h : s.coh.gathered = []) : piecesOf (gather s t [x]) t = [gatheredOf t x] := by
  simp [piecesOf, gather, h, sortBy, insertBy, gatheredOf]

theorem dropPieces_gather (h : s.coh.gathered = []) : dropPieces (gather s t [x]) t = s := by
  have hrest : (gather s t [x]).coh.gathered.filter (fun g => g.ticket != t) = s.coh.gathered := by simp [gather, h]
  rw [dropPieces, hrest]
  rfl

theorem blurFailed_of_one {g : Gathered} : blurFailed s v [g] = s := by
  by_cases hok : g.status = .ok <;> simp [blurFailed, firstFailed, blurParts, hok]

/-- The request ends with its one piece. -/
theorem settle_gather (h : Single s v) (horigin : ∀ p q, v.req.origin ≠ .engine p q) : settle (gather s v.ticket [x]) =
    finish (resolve s v [gatheredOf v.ticket x]).1 v (resolve s v [gatheredOf v.ticket x]).2 := by
  have hopen : isOpen (gather s v.ticket [x]) v.ticket = false := by simp [isOpen, gather, h.txns]
  have htwin : (resolve s v [gatheredOf v.ticket x]).1.twn.state = 0 := by
    rw [(resolve_touches (.refl _ s) rfl : Touches Mask.resolve s _).twn rfl, h.twin]
  have hsvc : (gather s v.ticket [x]).svc = [v] := h.svc
  have hplacing : (gather s v.ticket [x]).coh.placing = [] := h.placing
  rw [settle, hsvc, List.foldl_cons, List.foldl_nil]
  simp only [hopen, hplacing, piecesOf_gather h.gathered, dropPieces_gather h.gathered, blurFailed_of_one]
  rw [if_neg (by simp)]
  exact reply_of_off htwin

/-- The one piece of a multicast copy, once it has ended OK, leaves nothing to do. -/
theorem settle_placement (h : Single s v) (horigin : v.req.origin = .engine p 64) (hok : x.status = .ok) :
    settle (gather s v.ticket [x]) = dropSvc s v.ticket := by
  have hopen : isOpen (gather s v.ticket [x]) v.ticket = false := by simp [isOpen, gather, h.txns]
  have hsvc : (gather s v.ticket [x]).svc = [v] := h.svc
  have hplacing : (gather s v.ticket [x]).coh.placing = [] := h.placing
  have hlog : logPlacement s v [gatheredOf v.ticket x] = s := by simp [logPlacement, hok]
  rw [settle, hsvc, List.foldl_cons, List.foldl_nil]
  simp only [hopen, hplacing, piecesOf_gather h.gathered, dropPieces_gather h.gathered, horigin, if_true, hlog]
  exact if_neg (by simp)

theorem Single.of_touches {M : Mask} {u : State} (h : Single s v) (k : Touches M s u) (hsvc : M.svc = false)
    (hcoh : M.coh = false) (htwn : M.twn = false) : Single u v where
  svc := (k.svc hsvc).trans h.svc
  gathered := (congrArg (·.gathered) (k.coh hcoh)).trans h.gathered
  txns := (congrArg (·.txns) (k.coh hcoh)).trans h.txns
  placing := (congrArg (·.placing) (k.coh hcoh)).trans h.placing
  twin := (congrArg (·.state) (k.twn htwn)).trans h.twin

end Standing

/-! ### Translation of a request (R291, R292) -/

section Translation

variable {s u w : State} {v : Service} {p off n level holder addr clk : Nat}

/-- Translation that meets no error moves the buffers and counts its walks. -/
def Walked (s u : State) : Prop :=
  ∃ (buffers : List Buffer) (parts : Tbl Partition),
    u = { s with eng := { s.eng with buffers := buffers }, parts := parts }

theorem Walked.refl (s : State) : Walked s s := ⟨_, _, rfl⟩

theorem Walked.trans (h : Walked s u) (k : Walked u w) : Walked s w := by
  obtain ⟨b, ps, rfl⟩ := h
  obtain ⟨c, qs, rfl⟩ := k
  exact ⟨c, qs, rfl⟩

theorem Walked.touches (h : Walked s u) : Touches { eng := true, parts := true } s u := by
  obtain ⟨b, ps, rfl⟩ := h
  exact ⟨rfl, id⟩

theorem Walked.placeOf_eq (h : Walked s u) : placeOf u p off = placeOf s p off := by
  obtain ⟨b, ps, rfl⟩ := h
  rfl

theorem Walked.sliceFenced_eq {sl : Nat} (h : Walked s u) : sliceFenced u sl = sliceFenced s sl := by
  obtain ⟨b, ps, rfl⟩ := h
  rfl

theorem Walked.line {sl a : Nat} (h : Walked s u) (hline : LineClean s sl a) : LineClean u sl a := by
  obtain ⟨b, ps, rfl⟩ := h
  exact hline

theorem Walked.linePoisoned_eq {sl a : Nat} (h : Walked s u) : linePoisoned u sl a = linePoisoned s sl a := by
  obtain ⟨b, ps, rfl⟩ := h
  rfl

theorem Walked.clean (h : Walked s u) (hclean : ReservesClean s) : ReservesClean u := by
  obtain ⟨b, ps, rfl⟩ := h
  exact hclean

theorem bufPut_walks {q : Nat} : Walked s (bufPut s level holder p q) := by
  unfold bufPut
  split
  · exact .refl s
  · exact ⟨_, _, rfl⟩

theorem readUnit_of_clean {q : Nat} (hclean : ReservesClean s) : readUnit s p q = s := by
  unfold readUnit
  split
  · rfl
  · simp only [reserveRead_of_clean hclean, Bool.not_false, if_true]

theorem countWalk_walks {q : Nat} (hclean : ReservesClean s) : Walked s (countWalk s p q) := by
  have hcount : Walked s (partCnt s p fun c => { c with xlMiss := wrap32 c.xlMiss }) := ⟨_, _, rfl⟩
  rw [countWalk, readUnit_of_clean (hcount.clean hclean)]
  exact hcount

theorem translateRequest_walks (hclean : ReservesClean s) : Walked s (translateRequest s v addr n) := by
  unfold translateRequest
  extract_lets q
  generalize cutAt 2097152 (addrOff addr) (max 1 n) = cs
  induction cs generalizing s with
  | nil => exact .refl s
  | cons c cs ih =>
    rw [List.foldl_cons]
    suffices hstep : Walked s _ from hstep.trans (ih (hstep.clean hclean))
    dsimp only
    split
    · exact .refl s
    · split
      · exact bufPut_walks
      · exact (countWalk_walks hclean).trans bufPut_walks

end Translation

/-! ### Requests that stand alone -/

section Requests

variable {s u : State} {v : Service} {r : RegionRec} {x : Piece} {m : Mover} {own bad : List Nat} {bs : List Byte}
  {sl a clk addr n : Nat}

/-- No publish unit, no coherent region: what is at the address is served at its slice or not at all. -/
def NotCoherent (s : State) (p off : Nat) : Prop := ∀ r sl a, placeOf s p off = .pinned r sl a → regionCoherent r = false

theorem NotCoherent.of_pinned {p off : Nat} (hplace : placeOf s p off = .pinned r sl a) (hkind : regionCoherent r = false) :
    NotCoherent s p off := by
  intro r' sl' a' h
  cases hplace.symm.trans h
  exact hkind

theorem NotCoherent.of_none {p off : Nat} (hplace : placeOf s p off = .none) : NotCoherent s p off :=
  fun r sl a h => by cases hplace.symm.trans h

section Alone

variable (halone : Alone s v)
include halone

theorem svcFind_of_alone : svcFind (seenClk s clk) v.ticket = some v := by
  obtain ⟨hsvc, -⟩ := halone
  show s.svc.find? _ = some v
  rw [hsvc]
  simp

theorem single_of_alone : Single s v := by
  obtain ⟨hsvc, -, hgathered, htxns, -, hplacing, htwin, -⟩ := halone
  exact ⟨hsvc, hgathered, htxns, hplacing, htwin⟩

theorem notEngine_of_alone : ∀ p q, v.req.origin ≠ .engine p q := by
  obtain ⟨-, horigin, -⟩ := halone
  exact horigin

theorem notStopped_of_alone : stopped s v = false := by
  obtain ⟨-, -, -, -, -, -, -, -, -, -, hactive⟩ := halone
  simp [stopped, hactive]

theorem notBegun_of_alone : begun s v = false := by
  obtain ⟨-, -, hgathered, htxns, hpub, -, -, hheld, hanswers, -⟩ := halone
  simp [begun, isOpen, piecesOf, sortBy, hgathered, htxns, hpub, hheld, hanswers]

theorem noneEarlier_of_alone : earlierSame s v = false ∧ earlierHome s v = false := by
  obtain ⟨hsvc, -⟩ := halone
  simp [earlierSame, earlierHome, hsvc]

theorem twinFirst_of_alone {hold : Bool} : twinFirst s v hold = none := by
  obtain ⟨-, -, -, -, -, -, htwin, -, -, hseal, -⟩ := halone
  exact twinFirst_of_off htwin hseal

end Alone

theorem isCopyRead_of_off (htwin : s.twn.state = 0) : isCopyRead s v = false := by simp [isCopyRead, htwin]

/-- The pieces of a read of memory that is not coherent, within one block of 64 KiB. -/
theorem startRangeAt_read (horigin : ∀ p q, v.req.origin ≠ .engine p q) (htwin : s.twn.state = 0) (hn : 0 < n)
    (hfit : addrOff addr % 65536 + n ≤ 65536) (hkind : NotCoherent s (addrPart addr) (addrOff addr)) :
    startRangeAt s v m false 0 addr n bs =
      let y := readSegment s (sourceOf v.req.origin) m (addrPart addr) (addrOff addr) 0 n false
      gather y.1 v.ticket y.2 := by
  rw [startRangeAt, cutAt_of_within hn hfit]
  simp only [List.foldl_cons, List.foldl_nil, Nat.add_zero, Bool.false_eq_true, if_false]
  rw [if_neg]
  case hnc =>
    split
    next r sl a hplace => rw [hkind r sl a hplace]; exact Bool.false_ne_true
    next => exact Bool.false_ne_true
  split
  next p q h => exact absurd h (horigin p q)
  next => rw [isCopyRead_of_off htwin]
  next => rfl

/-- The piece of a write within one line of published memory. -/
theorem startRangeAt_write (htwin : s.twn.state = 0) (hn : 0 < bs.length) (hfit : addrOff addr % 64 + bs.length ≤ 64)
    (hplace : placeOf s (addrPart addr) (addrOff addr) = .pinned r sl a) (hkind : regionCoherent r = false) :
    startRangeAt s v m true 0 addr bs.length bs =
      let w := writePiece s (sourceOf v.req.origin) m.bad (addrPart addr) (addrOff addr) 0 sl a bs
      gather w.1 v.ticket [w.2] := by
  have hmirror (w : State × Piece) (hw : Touches Mask.writeLine s w.1) {seq : BitVec 32} {p off : Nat} :
      mirrorAt w.1 false seq p off bs = w.1 := mirrorAt_of_off (by rw [hw.twn rfl, htwin])
  have htouches : Touches Mask.writeLine s
      (writePiece s (sourceOf v.req.origin) m.bad (addrPart addr) (addrOff addr) 0 sl a bs).1 :=
    writePiece_touches (.refl _ s) rfl
  rw [startRangeAt, cutAt_of_within hn (mod_add_le_of_line (by decide) (by decide) hfit)]
  simp only [List.foldl_cons, List.foldl_nil, Nat.add_zero, if_true, List.drop_zero, List.take_length, hplace, hkind,
    Bool.false_eq_true, if_false, writeSegment_of_pinned hplace hn hfit, hmirror _ htouches, ite_self]

/-! The answer of a request that has one piece (R22, R23). -/

section Resolving

variable {k : Packet} {t p off : Nat}

theorem joinPieces_of_one (hlen : bs.length = n) :
    joinPieces s [gatheredOf t (okPiece p off 0 bs)] n = (s, bs) := by
  simp [joinPieces, gatheredOf, okPiece, hlen]

theorem resolve_of_read (hop : pktOp v.req.pkt = .rd) (hlen : bs.length = readLen v.req.pkt) :
    resolve s v [gatheredOf t (okPiece p off 0 bs)] = (s, { status := .ok, data := some bs }) := by
  have hok : firstFailed [gatheredOf t (okPiece p off 0 bs)] = none := rfl
  simp [resolve, hok, hop, joinPieces_of_one hlen]

theorem resolve_of_atomic (hop : pktOp v.req.pkt = .atom) (hlen : bs.length = 8) :
    resolve s v [gatheredOf t (okPiece p off 0 bs)] = (s, { status := .ok, data := some bs }) := by
  have hok : firstFailed [gatheredOf t (okPiece p off 0 bs)] = none := rfl
  simp [resolve, hok, hop, joinPieces_of_one hlen]

theorem resolve_of_write (hop : pktOp v.req.pkt = .wr) (hok : x.status = .ok) :
    resolve s v [gatheredOf t x] = (s, { status := .ok }) := by
  have hnone : firstFailed [gatheredOf t x] = none := by simp [firstFailed, gatheredOf, hok]
  simp [resolve, hnone, hop]

/-- A piece that failed ends its request, and a read that met no poison too, with its status and no data. -/
theorem resolve_of_failed (hbad : x.status ≠ .ok) (hop : pktOp v.req.pkt = .wr ∨ x.status ≠ .poison) :
    resolve s v [gatheredOf t x] = (s, { status := x.status, addr := some x.addr, hint := x.hint }) := by
  have hfirst : firstFailed [gatheredOf t x] = some (gatheredOf t x) := by simp [firstFailed, gatheredOf, hbad]
  rcases hop with hwr | hpoison
  · simp [resolve, hfirst, hwr]
  · simp [resolve, hfirst, hpoison]

end Resolving

end Requests

/-! ### Reads -/

section Reads

variable {s u : State} {v : Service} {r : RegionRec} {own : List Nat} {sl a clk q : Nat}

theorem exec_rd (halone : Alone s v) : exec (.rd v.ticket clk) s = .next (serveRead (seenClk s clk) v []) := by
  show execRd v.ticket clk s = _
  simp only [execRd, svcFind_of_alone halone]

theorem serveRead_of_pop (hpop : popOf s v.req.pkt = some q) : serveRead s v own = s := if_pos (by simp [hpop])

section Alone

variable (halone : Alone s v) (hop : pktOp v.req.pkt = .rd) (hpop : popOf s v.req.pkt = none)
include halone hop hpop

theorem serveRead_of_empty (hlen : readLen v.req.pkt = 0) :
    serveRead s v own = finish s v (endWith .empty (some v.req.pkt.addr.toNat)) := by
  obtain ⟨hsame, hhome⟩ := noneEarlier_of_alone halone
  simp [serveRead, hop, hpop, notStopped_of_alone halone, notBegun_of_alone halone, hsame, hhome, hlen]

theorem serveRead_of_some (hlen : 0 < readLen v.req.pkt) (hroom : readLen v.req.pkt ≤ 4072) :
    serveRead s v own = settle (startRange (translateRequest s v v.req.pkt.addr.toNat (readLen v.req.pkt)) v own false
      v.req.pkt.addr.toNat (readLen v.req.pkt) []) := by
  obtain ⟨hsame, hhome⟩ := noneEarlier_of_alone halone
  have htranslate : Touches Mask.readUnit s (translateRequest s v v.req.pkt.addr.toNat (readLen v.req.pkt)) :=
    translateRequest_touches (.refl _ s) rfl
  have hcopy : isCopyRead (translateRequest s v v.req.pkt.addr.toNat (readLen v.req.pkt)) v = false :=
    isCopyRead_of_off (by rw [htranslate.twn rfl, (single_of_alone halone).twin])
  simp [serveRead, hop, hpop, notStopped_of_alone halone, notBegun_of_alone halone, hsame, hhome, hlen.ne', Nat.not_lt.2 hroom,
    twinFirst_of_alone halone, hcopy]

/-- A read of memory that is not coherent, within one line: the piece that its segment reads, and the answer. -/
theorem serveRead_of_segment {ps : State → Piece} (hlen : 0 < readLen v.req.pkt)
    (hfit : addrOff v.req.pkt.addr.toNat % 64 + readLen v.req.pkt ≤ 64) (hclean : ReservesClean s)
    (hkind : NotCoherent s (addrPart v.req.pkt.addr.toNat) (addrOff v.req.pkt.addr.toNat))
    (hread : ∀ u m, Walked s u → readSegment u (sourceOf v.req.origin) m (addrPart v.req.pkt.addr.toNat)
      (addrOff v.req.pkt.addr.toNat) 0 (readLen v.req.pkt) false = (u, [ps u])) :
    ∃ u, Walked s u ∧ serveRead s v own =
      let y := resolve u v [gatheredOf v.ticket (ps u)]
      finish y.1 v y.2 := by
  have hwalk : Walked s (translateRequest s v v.req.pkt.addr.toNat (readLen v.req.pkt)) :=
    translateRequest_walks hclean
  have hsingle : Single _ v := (single_of_alone halone).of_touches hwalk.touches rfl rfl rfl
  refine ⟨_, hwalk, ?_⟩
  rw [serveRead_of_some halone hop hpop hlen (by omega), startRange,
    startRangeAt_read (notEngine_of_alone halone) hsingle.twin hlen
      (mod_add_le_of_line (by decide) (by decide) hfit), hread _ _ hwalk]
  · exact settle_gather hsingle (notEngine_of_alone halone)
  · exact fun r sl a h => hkind r sl a (hwalk.placeOf_eq.symm.trans h)

end Alone

/-- Settles O34: a read that stands alone takes its bytes at once from the line that translation names. -/
theorem readsReturnWhatIsStored : Obligations.ReadsReturnWhatIsStored := by
  intro clk s v r sl a k off n halone hop
  have hseen : Alone (seenClk s clk) v := halone
  have hwalked {u : State} (h : Walked (seenClk s clk) u) : Touches { td := true, eng := true, parts := true } s u :=
    Touches.trans (seenClk_touches (.refl _ s) rfl) (h.touches.mono rfl)
  refine ⟨fun q hpop => by rw [exec_rd halone, serveRead_of_pop hpop], fun hpop => ⟨?empty, ?published, ?unmapped⟩⟩
  case empty =>
    intro hlen
    rw [exec_rd halone, serveRead_of_empty hseen hop hpop hlen]
  case published =>
    intro hlen hfit hplace hkind hserves hclean hline
    obtain ⟨u, hu, hserve⟩ := serveRead_of_segment (own := []) (ps := fun u => okPiece (addrPart k.addr.toNat) off 0
      (dramBytes u sl a n)) hseen hop hpop hlen hfit hclean (.of_pinned hplace hkind) fun u m hu => by
        refine readSegment_of_clean (hu.placeOf_eq.trans hplace) hlen hfit ?_ ?_
        · rw [hu.sliceFenced_eq]
          exact hserves
        · exact hu.line hline
    refine ⟨u, hwalked hu, ?_⟩
    rw [exec_rd halone, hserve, resolve_of_read hop dramBytes_length, dramBytes_congr (hu.touches.dram rfl)]
    rfl
  case unmapped =>
    intro hlen hfit hplace hclean
    obtain ⟨u, hu, hserve⟩ := serveRead_of_segment (own := []) (ps := fun _ => faultPiece (addrPart k.addr.toNat) off 0
      .fault) hseen hop hpop hlen hfit hclean (.of_none hplace) fun u m hu =>
        readSegment_of_none (hu.placeOf_eq.trans hplace)
    rw [exec_rd halone, hserve, resolve_of_failed Status.noConfusion (.inr Status.noConfusion)]
    exact ⟨u, _, hwalked hu, rfl, rfl, rfl⟩

end Reads

/-! ### Atomics -/

section Atomics

variable {s : State} {v : Service} {r : RegionRec} {own : List Nat} {source sl a p off kind operand compare clk : Nat}

theorem leNat_dramBytes_lt : leNat (dramBytes s sl a 8) < 2 ^ 64 := by
  have h := leNat_lt (dramBytes s sl a 8)
  rw [dramBytes_length] at h
  exact h.trans_eq (by norm_num)

theorem atomOperand_lt {k : Packet} : atomOperand k < 2 ^ 64 := fieldAt_lt.trans_eq (by norm_num)

/-- The bytes that an atomic leaves in its word. -/
def atomBytes (s : State) (sl a kind operand compare : Nat) : List Byte :=
  leBytes 8 (atomNew kind (leNat (dramBytes s sl a 8)) operand compare)

theorem atomBytes_length : (atomBytes s sl a kind operand compare).length = 8 := leBytes_length 8 _

theorem leNat_atomBytes (hoperand : operand < 2 ^ 64) : leNat (atomBytes s sl a kind operand compare) =
    atomNew kind (leNat (dramBytes s sl a 8)) operand compare :=
  leNat_leBytes_atomNew leNat_dramBytes_lt hoperand

theorem sliceAtomic_of_clean (hserves : sliceFenced s sl = false) (hclean : LineClean s sl a)
    (harm : s.di.injArm = false) :
    ∃ t, Stored s t sl a (atomBytes s sl a kind operand compare) ∧
      sliceAtomic s source p off sl a kind operand compare = (t, okPiece p off 0 (dramBytes s sl a 8)) := by
  obtain ⟨t, hstored, hwrite⟩ := writePiece_of_clean (source := source) (p := p) (off := off) (i := 0)
    (bs := atomBytes s sl a kind operand compare) hserves hclean harm
  have hold : (okPiece p off 0 (dramBytes s sl a 8)).bytes = dramBytes s sl a 8 := rfl
  refine ⟨t, hstored, ?_⟩
  rw [atomBytes] at hwrite
  simp only [sliceAtomic, readPiece_of_clean hserves hclean, hold, hwrite]
  simp [okPiece]

/-- An atomic in published memory without errors has one piece. -/
theorem runAtomic_gathers (htwin : s.twn.state = 0)
    (hplace : placeOf s (addrPart v.req.pkt.addr.toNat) (addrOff v.req.pkt.addr.toNat) = .pinned r sl a)
    (hkind : regionCoherent r = false) (hserves : sliceFenced s sl = false) (hclean : LineClean s sl a)
    (harm : s.di.injArm = false) :
    ∃ t, Stored s t sl a
        (atomBytes s sl a v.req.pkt.arg.toNat (atomOperand v.req.pkt) (atomCompare v.req.pkt)) ∧
      runAtomic s v own = settle (gather t v.ticket [okPiece (addrPart v.req.pkt.addr.toNat)
        (addrOff v.req.pkt.addr.toNat) 0 (dramBytes s sl a 8)]) := by
  obtain ⟨t, hstored, hatomic⟩ := sliceAtomic_of_clean (source := sourceOf v.req.origin)
    (p := addrPart v.req.pkt.addr.toNat) (off := addrOff v.req.pkt.addr.toNat) (kind := v.req.pkt.arg.toNat)
    (operand := atomOperand v.req.pkt) (compare := atomCompare v.req.pkt) hserves hclean harm
  have htoff : t.twn.state = 0 := by rw [hstored.1.twn rfl, htwin]
  refine ⟨t, hstored, ?_⟩
  simp only [runAtomic, hplace, hkind, plainAtomic, hatomic, mirrorAt_of_off htoff, ite_self, Bool.false_eq_true, if_false]

theorem exec_atom (halone : Alone s v) : exec (.atom v.ticket clk) s = .next (serveAtomic (seenClk s clk) v []) := by
  show execAtom v.ticket clk s = _
  simp only [execAtom, svcFind_of_alone halone]

theorem serveAtomic_of_alone (halone : Alone s v) (hop : pktOp v.req.pkt = .atom) :
    serveAtomic s v own = runAtomic (translateRequest s v v.req.pkt.addr.toNat 8) v own := by
  obtain ⟨hsame, hhome⟩ := noneEarlier_of_alone halone
  simp [serveAtomic, hop, notStopped_of_alone halone, notBegun_of_alone halone, hsame, hhome, twinFirst_of_alone halone]

/-- Settles O36: the atomic's one piece is the word as it stood, and its store is the word that `atomNew` makes of it. -/
theorem atomicsReadModifyWrite : Obligations.AtomicsReadModifyWrite := by
  intro clk s v r sl a k off old operand halone hop _ hplace hkind hserves hfit harm hclean hline
  have hseen : Alone (seenClk s clk) v := halone
  have hwalk : Walked (seenClk s clk) (translateRequest (seenClk s clk) v k.addr.toNat 8) := translateRequest_walks hclean
  have hsingle := (single_of_alone hseen).of_touches hwalk.touches rfl rfl rfl
  obtain ⟨u, hstored, hrun⟩ := runAtomic_gathers (own := []) hsingle.twin (hwalk.placeOf_eq.trans hplace) hkind
    (hwalk.sliceFenced_eq.trans hserves) (hwalk.line hline) ((congrArg (·.injArm) (hwalk.touches.di rfl)).trans harm)
  have hwalked : Touches { td := true, eng := true, parts := true } s _ :=
    Touches.trans (seenClk_touches (.refl _ s) rfl) (hwalk.touches.mono rfl)
  have hold : dramBytes (translateRequest (seenClk s clk) v k.addr.toNat 8) sl a 8 = dramBytes s sl a 8 :=
    dramBytes_congr (hwalked.dram rfl)
  have hbytes : leNat (dramBytes u sl a 8) = atomNew k.arg.toNat old operand (fieldAt k.payload 8 8) := by
    have h := hstored.bytes (by rw [atomBytes_length]; exact hfit)
    rw [atomBytes_length] at h
    rw [h, leNat_atomBytes atomOperand_lt, hold]
    rfl
  refine ⟨_, u, ?_, rfl, (hwalked.mono rfl).trans (hstored.1.mono rfl), fun harg => ?add, fun harg => ?swap,
    fun harg => ?compareSwap, ?kept⟩
  · rw [exec_atom halone, serveAtomic_of_alone hseen hop, hrun, settle_gather (hsingle.of_touches hstored.1 rfl rfl rfl)
      (notEngine_of_alone halone), resolve_of_atomic hop dramBytes_length, hold]
  case add => rw [hbytes, harg]; rfl
  case swap => rw [hbytes, harg]; rfl
  case compareSwap => rw [hbytes, harg]; rfl
  case kept =>
    have hkept := hstored.keptBut (by rw [atomBytes_length]; exact hfit)
    rw [atomBytes_length] at hkept
    intro sl' a' ha' hout
    rw [hkept sl' a' ha' hout, dramByte, hwalked.dram rfl]
    rfl

end Atomics

/-! ### Words that are corrected on their way (R298, R303) -/

section Arriving

variable {s t u : State} {v : Service} {source sl a p off i : Nat} {words : List (Nat × Nat)}

/-- Words have been corrected on their way: counted and logged. No cell and no mark has changed, and the slices serve as
they did. -/
structure Corrected (s t : State) : Prop where
  touches : Touches Mask.countCorrected s t
  dram : t.stk.dram = s.stk.dram
  marks : ∀ k, markGet t k = markGet s k
  armed : t.di.injArm = s.di.injArm
  fenced : ∀ sl, sliceFenced t sl = sliceFenced s sl

theorem Corrected.refl (s : State) : Corrected s s := ⟨.refl _ s, rfl, fun _ => rfl, rfl, fun _ => rfl⟩

theorem Corrected.trans (h : Corrected s t) (k : Corrected t u) : Corrected s u where
  touches := h.touches.trans k.touches
  dram := k.dram.trans h.dram
  marks := fun w => (k.marks w).trans (h.marks w)
  armed := k.armed.trans h.armed
  fenced := fun sl => (k.fenced sl).trans (h.fenced sl)

theorem placeOf_of_touches {M : Mask} (h : Touches M s t) (himg : M.img = false) (heng : M.eng = false) :
    placeOf t p off = placeOf s p off := by
  unfold placeOf pteGet
  rw [h.img himg, h.eng heng]

theorem Corrected.placeOf_eq (h : Corrected s t) : placeOf t p off = placeOf s p off :=
  placeOf_of_touches h.touches rfl rfl

theorem Corrected.line (h : Corrected s t) (hline : LineClean s sl a) : LineClean t sl a := by
  simpa only [LineClean, h.marks] using hline

/-- A count at a channel takes no slice out of service. -/
theorem sliceFenced_chanMod {c : Nat} {f : Chan → Chan} (hf : ∀ x, ∃ y, f x = { x with cnt := y }) :
    sliceFenced (chanMod s c f) sl = sliceFenced s sl := by
  have hchan (j : Nat) : ∃ y, chanGet (chanMod s c f) j = { chanGet s j with cnt := y } := by
    rw [chanMod, chanGet_chanSet]
    split
    next h => rw [h]; exact hf _
    next => exact ⟨_, rfl⟩
  choose y hy using hchan
  have hspare (x : Nat) : spareInService (chanMod s c f) x = spareInService s x := by
    simp only [spareInService, hy]
  have hchan : chanOf (chanMod s c f) sl = chanOf s sl := by
    simp only [chanOf, hspare, hy]
  simp only [sliceFenced, hchan, hy]

theorem logDram_corrects {cls bits word : Nat} : Corrected s (logDram s cls source bits word sl a) where
  touches := logDram_touches (.refl _ s) rfl
  dram := rfl
  marks := fun _ => rfl
  armed := rfl
  fenced := fun _ => rfl

theorem chanMod_corrects {c : Nat} {f : Chan → Chan} (hf : ∀ x, ∃ y, f x = { x with cnt := y }) :
    Corrected s (chanMod s c f) where
  touches := chanMod_touches (.refl _ s) rfl
  dram := rfl
  marks := fun _ => rfl
  armed := rfl
  fenced := fun _ => sliceFenced_chanMod hf

theorem countCorrected_corrects : Corrected s (countCorrected s source sl) := by
  unfold countCorrected
  extract_lets d s1 s2
  have h1 : Corrected s s1 := by
    simp only [s1]
    split
    · exact .refl s
    · exact ⟨⟨rfl, id⟩, rfl, fun _ => rfl, rfl, fun _ => rfl⟩
  have h2 : Corrected s1 s2 := chanMod_corrects fun x => ⟨_, rfl⟩
  refine h1.trans (h2.trans ?_)
  split
  · exact .refl s2
  · exact ⟨partCnt_touches (.refl _ s2) rfl, rfl, fun _ => rfl, rfl, fun _ => rfl⟩

theorem wordDecode_of_one_flip : ∀ i < 80, wordDecode (2 ^ i) = some (1, 0) := by decide +kernel

/-- A word that one flipped bit met is corrected whole. -/
theorem arriveWord_of_one_flip (hi : i < 80) :
    ∃ t, Corrected s t ∧ arriveWord s source p off (2 ^ i) = (t, 0, false) := by
  have hwidth : 2 ^ i % 2 ^ 80 = 2 ^ i := Nat.mod_eq_of_lt (Nat.pow_lt_pow_right (by decide) hi)
  unfold arriveWord
  split
  next => exact ⟨s, .refl s, rfl⟩
  next sl a _ =>
    simp only [hwidth, wordDecode_of_one_flip i hi]
    exact ⟨_, countCorrected_corrects.trans logDram_corrects, rfl⟩

theorem map_getD_range {bs : List Byte} : (List.range bs.length).map (fun i => bs[i]?.getD 0#8) = bs := by
  refine List.ext_getElem (by simp) fun i h _ => ?_
  rw [List.length_map, List.length_range] at h
  simp [h]

theorem arriveWords_of_one_flip (hwords : ∀ e ∈ words, ∃ i < 80, e.2 = 2 ^ i) :
    ∃ t, Corrected s t ∧ (words = [] → t = s) ∧ arriveWords s v words = (t, v.req.pkt.payload, []) := by
  induction words with
  | nil => exact ⟨s, .refl s, fun _ => rfl, rfl⟩
  | cons e rest ih =>
    obtain ⟨w, flips⟩ := e
    obtain ⟨t, hrest, -, harrive⟩ := ih fun e he => hwords e (List.mem_cons_of_mem _ he)
    obtain ⟨i, hi, rfl⟩ := hwords _ List.mem_cons_self
    obtain ⟨u, hword, hclean⟩ := arriveWord_of_one_flip (s := t) (source := sourceOf v.req.origin)
      (p := addrPart v.req.pkt.addr.toNat) (off := 8 * (addrOff v.req.pkt.addr.toNat / 8 + w)) hi
    simp only [arriveWords, harrive, hclean]
    split
    · exact ⟨t, hrest, (nomatch ·), rfl⟩
    · refine ⟨u, hrest.trans hword, (nomatch ·), ?_⟩
      simp [map_getD_range]

end Arriving

/-! ### Poisoned lines (R300, R305) -/

section Poisoned

variable {s : State} {m : WordMark} {source sl a n p off e : Nat} {bs : List Byte} {bad : List Nat}

theorem parityOf_mod {w k n : Nat} (h : w ≤ k) : parityOf w (n % 2 ^ k) = parityOf w n := by
  induction w with
  | zero => rfl
  | succ w ih => rw [parityOf, parityOf, ih (by omega), Nat.testBit_mod_two_pow, decide_eq_true (by omega), Bool.true_and]

/-- The decoder looks at the 80 bits of a word only. -/
theorem wordDecode_mod : (wordDecode (e % 2 ^ 80)).map (fun x => x.2.testBit 78) =
    (wordDecode e).map (fun x => x.2.testBit 78) := by
  have hlow : e % 2 ^ 80 % 2 ^ 79 = e % 2 ^ 79 := Nat.mod_mod_of_dvd _ (pow_dvd_pow 2 (by decide))
  have hbit : (e % 2 ^ 80).testBit 78 = e.testBit 78 := by
    rw [Nat.testBit_mod_two_pow, decide_eq_true (by decide), Bool.true_and]
  have hodd : parityOf 80 (e % 2 ^ 80) = parityOf 80 e := parityOf_mod (Nat.le_refl 80)
  generalize e % 2 ^ 80 = d at hlow hbit hodd
  simp only [wordDecode, hlow, hodd]
  split
  · split <;> simp [hbit, Nat.testBit_xor]
  · split
    · simp [hbit, Nat.testBit_xor, Function.comp_def]
    · cases locateTwo (polyModG 65 (e % 2 ^ 79)) <;> simp [hbit, Nat.testBit_xor]

/-- A word that can be decoded reads poisoned exactly when it is. -/
theorem readWord_poison {k corrected mask : Nat} {p : Bool}
    (h : readWord s k ((markGet s k).flips % 2 ^ 80) = some (corrected, p, mask)) : p = markPoisoned (markGet s k) := by
  have hmod := wordDecode_mod (e := (markGet s k).flips)
  unfold readWord at h
  cases hread : wordDecode ((markGet s k).flips % 2 ^ 80) with
  | none =>
    rw [hread] at h
    cases h
  | some x =>
    obtain ⟨-, rfl, -⟩ : x.1 = corrected ∧ decodedPoison s k x.2 = p ∧ bitsOf x.2 14 64 = mask := by
      rw [hread] at h
      simpa using h
    rw [hread, Option.map_some, eq_comm, Option.map_eq_some_iff] at hmod
    obtain ⟨y, hstored, hbit⟩ := hmod
    unfold decodedPoison markPoisoned
    split
    next hzero =>
      rw [hzero, show wordDecode (0 % 2 ^ 80) = some (0, 0) by decide +kernel] at hread
      rw [← Option.some.inj hread, Nat.zero_testBit, Bool.xor_false]
    next => rw [hstored, ← hbit]

theorem readColumn_bad_of_poisoned (h : linePoisoned s sl a = true) : (readColumn s source sl a []).2.1 = true := by
  obtain ⟨k, hk, hpoison⟩ := List.any_eq_true.1 h
  obtain ⟨w, hw, rfl⟩ := List.mem_map.1 hk
  unfold readColumn
  extract_lets first clean deliver
  have hmem : (w, readWord s (wordKey sl (a / 64 * 64) + w) ((markGet s (wordKey sl (a / 64 * 64) + w)).flips % 2 ^ 80)) ∈
      first := List.mem_map.2 ⟨w, hw, rfl⟩
  split
  next hclean =>
    have hsome := List.all_eq_true.1 hclean _ hmem
    obtain ⟨⟨corrected, p, mask⟩, hread⟩ := Option.isSome_iff_exists.1 hsome
    show (!(List.filter _ first).isEmpty) = true
    rw [Bool.not_eq_true', List.isEmpty_eq_false_iff]
    refine List.ne_nil_of_mem (List.mem_filter.2 ⟨hmem, ?_⟩)
    rw [hread]
    exact (readWord_poison hread).trans hpoison
  next => rfl

theorem mergeRead_bad_of_poisoned (h : linePoisoned s sl a = true) : (mergeRead s source sl a n).2.1 = true := by
  unfold mergeRead
  split
  · exact h
  · split
    next hclean => exact absurd ((linePoisoned_of_clean hclean).symm.trans h) Bool.false_ne_true
    next => exact readColumn_bad_of_poisoned h

/-- A write that does not cover a poisoned line stores nothing. -/
theorem writeLine_of_poisoned (h : linePoisoned s sl a = true) (hn : bs.length < 64) :
    writeLine s source sl a bs bad = ((mergeRead s source sl a bs.length).1, true) :=
  if_pos ⟨mergeRead_bad_of_poisoned h, by omega⟩

theorem writePiece_of_poisoned {i : Nat} (hserves : sliceFenced s sl = false) (h : linePoisoned s sl a = true)
    (hn : bs.length < 64) :
    Touches Mask.countCorrected s (writePiece s source bad p off i sl a bs).1 ∧
      (writePiece s source bad p off i sl a bs).2.status = .poison := by
  simp only [writePiece, hserves, writeLine_of_poisoned h hn, Bool.false_eq_true, if_false]
  exact ⟨mergeRead_touches (.refl _ s) rfl, rfl⟩

end Poisoned

/-! ### Writes -/

section Writes

variable {s : State} {v : Service} {r : RegionRec} {own : List Nat} {words : List (Nat × Nat)} {sl a clk : Nat}

theorem exec_wr (halone : Alone s v) {errs : WriteErrors} :
    exec (.wr v.ticket errs) s = .next (serveWrite (seenClk s errs.clk) v [] errs.words) := by
  show execWr v.ticket errs s = _
  simp only [execWr, svcFind_of_alone halone]

section Alone

variable (halone : Alone s v) (hop : pktOp v.req.pkt = .wr)
include halone hop

theorem serveWrite_of_empty (hlen : v.req.pkt.payload.length = 0) :
    serveWrite s v own words = finish s v (endWith .empty (some v.req.pkt.addr.toNat)) := by
  obtain ⟨hsame, hhome⟩ := noneEarlier_of_alone halone
  simp [serveWrite, hop, notStopped_of_alone halone, notBegun_of_alone halone, hsame, hhome, List.length_eq_zero_iff.1 hlen]

/-- A write within one line of published memory: its piece, once the words that one flip met are corrected. -/
theorem serveWrite_of_pinned (hlen : 0 < v.req.pkt.payload.length)
    (hfit : addrOff v.req.pkt.addr.toNat % 64 + v.req.pkt.payload.length ≤ 64) (hclean : ReservesClean s)
    (hplace : placeOf s (addrPart v.req.pkt.addr.toNat) (addrOff v.req.pkt.addr.toNat) = .pinned r sl a)
    (hkind : regionCoherent r = false) (hwords : ∀ e ∈ words, ∃ i < 80, e.2 = 2 ^ i) :
    ∃ u w, Walked s u ∧ Corrected u w ∧ (words = [] → w = u) ∧ serveWrite s v own words =
      let x := writePiece w (sourceOf v.req.origin) [] (addrPart v.req.pkt.addr.toNat) (addrOff v.req.pkt.addr.toNat) 0 sl
        a v.req.pkt.payload
      settle (gather x.1 v.ticket [x.2]) := by
  obtain ⟨hsame, hhome⟩ := noneEarlier_of_alone halone
  have hwalk : Walked s (translateRequest s v v.req.pkt.addr.toNat v.req.pkt.payload.length) :=
    translateRequest_walks hclean
  obtain ⟨w, hcorrected, hsame', harrive⟩ := arriveWords_of_one_flip
    (s := translateRequest s v v.req.pkt.addr.toNat v.req.pkt.payload.length) (v := v) hwords
  refine ⟨_, w, hwalk, hcorrected, hsame', ?_⟩
  have hsingle : Single w v :=
    ((single_of_alone halone).of_touches hwalk.touches rfl rfl rfl).of_touches hcorrected.touches rfl rfl rfl
  have hplaced := (hcorrected.placeOf_eq (p := addrPart v.req.pkt.addr.toNat)).trans (hwalk.placeOf_eq.trans hplace)
  rw [serveWrite, if_neg (by simp [hop, notStopped_of_alone halone, notBegun_of_alone halone, hsame, hhome]),
    if_neg (List.ne_nil_of_length_pos hlen)]
  simp only [twinFirst_of_alone halone, harrive, startRangeAt_write hsingle.twin hlen hfit hplaced hkind]

end Alone

/-- Settles O35: the one piece of the write is the payload, stored in a line that no error keeps from it; a narrow write
of a poisoned line reads it first and stores nothing. -/
theorem writesStoreTheirBytes : Obligations.WritesStoreTheirBytes := by
  intro clk s v r sl a k off n halone hop
  have hseen : Alone (seenClk s clk) v := halone
  refine ⟨fun hlen => ?empty, fun hlen hfit hplace hkind hserves hroom harm hclean => ⟨fun words hwords hline => ?stored,
    fun hpoison hnarrow => ?poisoned⟩⟩
  case empty => rw [exec_wr halone, serveWrite_of_empty hseen hop hlen]
  case stored =>
    obtain ⟨u, w, hwalk, hcorrected, hsame, hserve⟩ := serveWrite_of_pinned (own := []) hseen hop hlen hfit hclean hplace
      hkind hwords
    have hwalked : Touches { td := true, eng := true, parts := true } s u :=
      Touches.trans (seenClk_touches (.refl _ s) rfl) (hwalk.touches.mono rfl)
    have harrived : Touches { td := true, eng := true, parts := true, stk := true, dram := true, di := !words.isEmpty }
        s w := by
      cases words with
      | nil => rw [hsame rfl]; exact hwalked.mono rfl
      | cons e rest => exact (hwalked.mono rfl).trans (hcorrected.touches.mono rfl)
    have hdram : w.stk.dram = s.stk.dram := hcorrected.dram.trans (hwalked.dram rfl)
    obtain ⟨t, hstored, hwrite⟩ := writePiece_of_clean (source := sourceOf v.req.origin) (p := addrPart k.addr.toNat)
      (off := off) (i := 0) (bs := k.payload) (((hcorrected.fenced sl).trans hwalk.sliceFenced_eq).trans hserves)
      (hcorrected.line (hwalk.line hline))
      (hcorrected.armed.trans ((congrArg (·.injArm) (hwalked.di rfl)).trans harm))
    have hsingle : Single t v := (((single_of_alone hseen).of_touches hwalk.touches rfl rfl rfl).of_touches
      hcorrected.touches rfl rfl rfl).of_touches hstored.1 rfl rfl rfl
    refine ⟨t, harrived.trans (hstored.1.mono (by cases words <;> rfl)), ?_, hstored.bytes hroom, ?_⟩
    · rw [exec_wr halone, hserve, hwrite, settle_gather hsingle (notEngine_of_alone halone), resolve_of_write hop rfl]
    · intro sl' a' ha' hout
      rw [hstored.keptBut hroom sl' a' ha' hout, dramByte, hdram]
      rfl
  case poisoned =>
    obtain ⟨u, w, hwalk, -, hsame, hserve⟩ := serveWrite_of_pinned (own := []) (words := []) hseen hop hlen hfit hclean
      hplace hkind (by simp)
    obtain rfl := hsame rfl
    have hpoisoned : linePoisoned w sl a = true := hwalk.linePoisoned_eq.trans hpoison
    obtain ⟨htouches, hstatus⟩ := writePiece_of_poisoned (source := sourceOf v.req.origin) (bad := [])
      (p := addrPart k.addr.toNat) (off := off) (i := 0) (bs := k.payload) (hwalk.sliceFenced_eq.trans hserves) hpoisoned
      hnarrow
    have hsingle := ((single_of_alone hseen).of_touches hwalk.touches rfl rfl rfl).of_touches htouches rfl rfl rfl
    rw [exec_wr halone, hserve, settle_gather hsingle (notEngine_of_alone halone),
      resolve_of_failed (by rw [hstatus]; decide) (.inl hop)]
    exact ⟨_, _, Touches.trans (seenClk_touches (.refl _ s) rfl) ((hwalk.touches.mono rfl).trans (htouches.mono rfl)),
      hstatus, rfl⟩

end Writes

end Sys2Proof.Proofs
end

section
/-! PROOFS. What the placing of an accepted multicast copy leaves alone at the stop (R160, R161): whatever the home and the
memories do with it, no multicast moves, nothing is counted as sunk or refused, and no flow's credit changes. -/

namespace Sys2Proof.Proofs

open Sys2Proof.Machine Sys2Proof.Laws

section Placing

variable {s s0 t u : State} {j : LineJob} {v : Service} {st : Status} {bs : List Byte} {e : DirEntry}
  {half line pool p off sl a : Nat}

/-- Everything but the stop itself: its queues, its ports and the flows. -/
abbrev Mask.offStop : Mask :=
  { mgmt := true, img := true, parts := true, td := true, coh := true, stk := true, near := true, fl := true, eng := true,
    di := true, eth := true, sec := true, twn := true, pwr := true, staging := true, mailbox := true, svc := true,
    nextTicket := true, out := true, free := true, boot := true, layout := true, owners := true, dram := true,
    nearMem := true }

theorem StopKept.thenTouch (h : StopKept s0 s) (k : Touches Mask.offStop s t) : StopKept s0 t :=
  h.trans (.of_touches k rfl rfl rfl)

/-- The same of an operation that gives a result besides the state. -/
theorem StopKept.thenPair {α : Type} {x : State × α} {b : α} (h : StopKept s0 s) (k : Touches Mask.offStop s x.1)
    (hx : x = (t, b)) : StopKept s0 t :=
  h.thenTouch (by rw [hx] at k; exact k)

theorem StopKept.thenFoldl {α : Type} {f : State → α → State} {l : List α} (h : StopKept s0 s)
    (hf : ∀ s x, StopKept s (f s x)) : StopKept s0 (l.foldl f s) := h.trans (.of_foldl hf l)

/-! ### Packets and answers -/

theorem stopKept_inject {q : Packet} : StopKept s (inject s q) := by
  unfold inject
  split
  · exact .refl s
  · exact stopKept_injectOn

theorem stopKept_sendTwin {r : RegionRec} {q : Packet} : StopKept s (sendTwin s r q) := by
  unfold sendTwin
  extract_lets o twin s1
  have h1 : StopKept s s1 := (StopKept.refl s).thenTouch ⟨rfl, id⟩
  split
  · exact (h1.thenTouch ⟨rfl, id⟩).trans stopKept_inject
  · exact h1.thenTouch ⟨rfl, id⟩

theorem StopKept.thenMirrorAt {always : Bool} {seq : BitVec 32} (h : StopKept s0 s) :
    StopKept s0 (mirrorAt s always seq p off bs) := by
  unfold mirrorAt
  split
  · exact h
  · exact h.trans (stopKept_sendTwin.ite (.refl s))

theorem StopKept.thenReply {ans : Ans} (h : StopKept s0 s) : StopKept s0 (reply s v ans) := by
  refine h.trans ?_
  unfold reply
  extract_lets addr
  split
  · exact stopKept_finish
  · exact StopKept.ite ((StopKept.refl s).thenTouch ⟨rfl, id⟩) stopKept_finish

theorem StopKept.thenEndJob {hint : Nat} (h : StopKept s0 s) : StopKept s0 (endJob s j st bs hint) := by
  unfold endJob
  split
  · extract_lets data s1
    have h1 : StopKept s s1 := StopKept.ite ((StopKept.refl s).thenTouch (countPoison_touches (.refl _ s) rfl)) (.refl s)
    exact (h.trans h1).thenReply
  · exact h.thenTouch (gather_touches (.refl _ s) rfl)

theorem StopKept.thenRetryJob {full : Bool} (h : StopKept s0 s) : StopKept s0 (retryJob s half full j) := by
  unfold retryJob
  split
  · exact h.thenTouch ⟨rfl, id⟩
  · exact (h.thenTouch (partCnt_touches (trafficMod_touches (.refl _ s) rfl) rfl)).thenEndJob

/-! ### The home's memory -/

theorem StopKept.thenHomeWrite {source : Nat} {seq : BitVec 32} {bad : List Nat} (h : StopKept s0 s) :
    StopKept s0 (homeWrite s source p off sl a seq bs bad).1 := by
  unfold homeWrite
  have hline := h.thenTouch (writeLine_touches (source := source) (sl := sl) (a := a) (bs := bs) (bad := bad) (.refl _ s) rfl)
  dsimp only
  split
  · exact hline
  · exact hline.thenMirrorAt

theorem StopKept.thenOwnWrite (h : StopKept s0 s) : StopKept s0 (ownWrite s j sl a) := by
  unfold ownWrite
  extract_lets p off at_ seq
  split
  · have hread := h.thenTouch (readLine_touches (source := sourceOf j.svc.req.origin) (sl := sl) (a := at_) (n := 8)
      (.refl _ s) rfl)
    dsimp only
    split
    · exact hread.thenEndJob
    · exact hread.thenHomeWrite.thenEndJob
  · dsimp only
    split <;> exact h.thenHomeWrite.thenEndJob

theorem StopKept.thenMemoryRead (h : StopKept s0 s) : StopKept s0 (memoryRead s j sl a) :=
  (h.thenTouch (readLine_touches (.refl _ s) rfl)).thenEndJob

theorem StopKept.thenServePoisoned (h : StopKept s0 s) : StopKept s0 (servePoisoned s j sl a) := by
  unfold servePoisoned
  split
  · exact h.thenEndJob
  iterate 2 exact (h.thenTouch (homeRead_touches (.refl _ s) rfl)).thenEndJob
  · exact (h.thenTouch (readLine_touches (.refl _ s) rfl)).thenEndJob
  · exact h.thenEndJob
  · split
    · exact (h.thenTouch (dirSet_touches (.refl _ s) rfl)).thenOwnWrite
    · exact h.thenEndJob

/-! ### Transactions -/

theorem stopKept_sendSnoop {o : Op} {agent seq arg aux : Nat} : StopKept s (sendSnoop s o p agent line seq arg aux) :=
  stopKept_inject

theorem StopKept.thenOpenRecovery {k : Nat} (h : StopKept s0 s) : StopKept s0 (openRecovery s half p line k) := by
  unfold openRecovery
  extract_lets e m
  split
  · exact h.thenTouch (enterP_touches (.refl _ s) rfl)
  · exact (h.thenTouch (openTxn_touches (dirSet_touches (drawFree_touches (drawFree_touches (.refl _ s) rfl) rfl) rfl)
      rfl)).trans stopKept_sendSnoop

theorem StopKept.thenTouchLine (h : StopKept s0 s) : StopKept s0 (touchLine s line pool) := by
  unfold touchLine
  extract_lets p half
  split
  · exact h
  · refine (h.thenTouch (readEntry_touches (sweptLine_touches (.refl _ s) rfl) rfl)).thenFoldl fun s x => ?_
    split
    next t hx => exact (StopKept.refl s).thenPair (treatStable_touches (.refl _ s) rfl) hx
    next t hx =>
      have ht := (StopKept.refl s).thenPair (treatStable_touches (.refl _ s) rfl) hx
      split
      · exact ht.thenOpenRecovery
      · exact ht.thenTouch ⟨rfl, id⟩

theorem StopKept.thenMakeMove {agent : Option Nat} {m : FirstMove} (h : StopKept s0 s) :
    StopKept s0 (makeMove s half line j agent e sl a m) := by
  have hopen (rec : DirEntry) (t : Txn) : StopKept s0 (openTxn (dirSet (snoopTag s j).1 line rec) t) :=
    h.thenTouch (openTxn_touches (dirSet_touches (snoopTag_touches (.refl _ s) rfl) rfl) rfl)
  unfold makeMove
  extract_lets p pool
  cases m with
  | done st stray =>
    dsimp only
    split
    · exact (h.thenTouch (proto_touches (.refl _ s) rfl)).thenEndJob
    · exact h.thenEndJob
  | memory rec =>
    dsimp only
    split
    · exact h.thenMemoryRead
    · exact (h.thenTouch (dirSet_touches (.refl _ s) rfl)).thenOwnWrite
  | data rec x =>
    have hread := h.thenTouch (homeRead_touches (source := 3) (sl := sl) (a := a)
      (snoopTag_touches (j := j) (.refl _ s) rfl) rfl)
    dsimp only
    split
    · exact hread.thenEndJob
    · exact (hread.thenTouch (openTxn_touches (dirSet_touches (.refl _ _) rfl) rfl)).thenEndJob
  | cmp rec => exact (hopen _ _).thenEndJob
  | forward rec f x => exact (hopen _ _).trans stopKept_sendSnoop
  | ownRead rec f => exact (hopen _ _).trans stopKept_sendSnoop
  | invalidate rec inv rcl step =>
    dsimp only
    split
    · exact (hopen _ _).thenFoldl fun _ _ => stopKept_sendSnoop
    · exact ((hopen _ _).thenFoldl fun _ _ => stopKept_sendSnoop).trans stopKept_sendSnoop

theorem StopKept.thenOpenReserve (h : StopKept s0 s) : StopKept s0 (openReserve s half line j) := by
  unfold openReserve
  exact (h.thenTouch (openTxn_touches (drawFree_touches (.refl _ s) rfl) rfl)).thenFoldl fun _ _ => stopKept_sendSnoop

/-! ### Jobs at their home -/

theorem StopKept.thenServeEntry {held : Bool} {agent : Option Nat} (h : StopKept s0 s) :
    StopKept s0 (serveEntry s held half j agent sl a) := by
  unfold serveEntry
  extract_lets line shared e j' m
  split
  · split
    next t hx => exact (h.thenPair (takeWay_touches (.refl _ s) rfl) hx).thenRetryJob
    next t hx => exact (h.thenPair (takeWay_touches (.refl _ s) rfl) hx).thenServePoisoned
  · split
    · exact h.thenRetryJob
    · split
      · exact h.thenMakeMove
      · split
        next t hx => exact (h.thenPair (takeWay_touches (.refl _ s) rfl) hx).thenRetryJob
        next t hx => exact (h.thenPair (takeWay_touches (.refl _ s) rfl) hx).thenMakeMove

theorem StopKept.thenServeStable {held : Bool} (h : StopKept s0 s) : StopKept s0 (serveStable s held j) := by
  unfold serveStable
  extract_lets line p
  split
  · exact h.thenEndJob
  · extract_lets half agent
    split
    · exact h.thenEndJob
    · split
      · exact h.thenEndJob
      · split
        · split
          · exact h.thenRetryJob
          · split
            next t hx => exact (h.thenPair (takeWay_touches (.refl _ s) rfl) hx).thenRetryJob
            next t hx => exact (h.thenPair (takeWay_touches (.refl _ s) rfl) hx).thenOpenReserve
        · exact (h.thenTouch (readEntry_touches (touches_ite (dirSet_touches (verify_touches (.refl _ s) rfl) rfl)
            (.refl _ s)) rfl)).thenServeEntry

theorem StopKept.thenStartJob (h : StopKept s0 s) : StopKept s0 (startJob s j) := by
  unfold startJob
  extract_lets line s1
  have h1 : StopKept s0 s1 := h.trans (StopKept.ite (.refl s) (StopKept.refl s).thenTouchLine)
  split
  · exact h1.thenEndJob
  · split
    · exact h1.thenServeStable
    · split
      · exact h1.thenTouch (notePeak_touches (putTxn_touches (.refl _ s1) rfl) rfl)
      · exact h1.thenRetryJob

/-! ### The placing of a copy -/

theorem StopKept.thenSettle (h : StopKept s0 s) : StopKept s0 (settle s) := by
  unfold settle
  refine h.thenFoldl fun s v => ?_
  split
  · exact .refl s
  · split
    · split
      · exact (StopKept.refl s).thenTouch
          (dropSvc_touches (logPlacement_touches (dropPieces_touches (.refl _ s) rfl) rfl) rfl)
      · exact .refl s
    · exact ((StopKept.refl s).thenTouch
        (resolve_touches (blurFailed_touches (dropPieces_touches (.refl _ s) rfl) rfl) rfl)).thenReply

theorem StopKept.thenRunAtomic {own : List Nat} (h : StopKept s0 s) : StopKept s0 (runAtomic s v own) := by
  unfold runAtomic
  extract_lets k p off coherent
  split
  next => exact h.thenStartJob.thenSettle
  next r s1 _ =>
    have hr : StopKept s0 r.1 := h.thenTouch (plainAtomic_touches (.refl _ s) rfl)
    have h1 : StopKept s0 s1 := hr.trans (StopKept.ite (StopKept.refl r.1).thenMirrorAt (.refl r.1))
    exact (h1.thenTouch (gather_touches (.refl _ s1) rfl)).thenSettle

theorem StopKept.thenStartRange {own : List Nat} {write : Bool} {addr n : Nat} (h : StopKept s0 s) :
    StopKept s0 (startRange s v own write addr n bs) := by
  unfold startRange startRangeAt
  extract_lets p waits
  refine h.thenFoldl fun s c => ?_
  extract_lets coherent
  split
  next => exact (StopKept.refl s).thenFoldl fun s l => (StopKept.refl s).thenStartJob
  next part whole r s1 _ _ =>
    split
    · have hr : StopKept s r.1 := (StopKept.refl s).thenTouch (writeSegment_touches (.refl _ s) rfl)
      have h1 : StopKept s s1 := hr.trans (StopKept.ite (StopKept.refl r.1).thenMirrorAt (.refl r.1))
      exact h1.thenTouch (gather_touches (.refl _ s1) rfl)
    · exact (StopKept.refl s).thenTouch (gather_touches (readSegment_touches (.refl _ s) rfl) rfl)

theorem stopKept_placeCopy {q : Packet} : StopKept s (placeCopy s q) := by
  unfold placeCopy
  extract_lets sig k v s1
  have h1 : StopKept s s1 := (StopKept.refl s).thenTouch ⟨rfl, id⟩
  split
  · exact h1.thenRunAtomic
  · split
    · exact h1.thenTouch (dropSvc_touches (.refl _ s1) rfl)
    · exact h1.thenStartRange.thenSettle

end Placing

end Sys2Proof.Proofs
end

section
/-! PROOFS. Multicasts (R148, R154, R159 to R162, R354): which one a command takes, where it goes on, and what its copy
counts, charges and leaves in memory. -/

namespace Sys2Proof.Proofs

open Sys2Proof.Machine Sys2Proof.Laws

/-! ### The multicast that a command takes (R148) -/

section Taking

variable {ok : Packet → Bool} {past pre post : List Sunk} {x : Sunk} {s : State}

/-- Two multicasts of one stream (R148). -/
def Follows (z y : Sunk) : Prop := sameStream z.pkt y.pkt (z.port / 4) (y.port / 4) = true

theorem takeMc_of_none (h : ∀ y ∈ pre, ok y.pkt = false) : takeMc ok past pre = none := by
  induction pre generalizing past with
  | nil => rfl
  | cons y pre ih =>
    rw [takeMc, h y List.mem_cons_self, Bool.false_and, if_neg Bool.false_ne_true]
    exact ih fun z hz => h z (List.mem_cons_of_mem y hz)

theorem takeMc_of_first (hok : ok x.pkt = true) (hfree : ∀ y ∈ past ++ pre, ¬ Follows y x)
    (hheld : ∀ a y b, pre = a ++ y :: b → ok y.pkt = true → ∃ z ∈ past ++ a, Follows z y) :
    takeMc ok past (pre ++ x :: post) = some (x, past ++ pre ++ post) := by
  have hany (l : List Sunk) (y : Sunk) :
      l.any (fun z => sameStream z.pkt y.pkt (z.port / 4) (y.port / 4)) = true ↔ ∃ z ∈ l, Follows z y := List.any_eq_true
  induction pre generalizing past with
  | nil =>
    have hclear : ¬ ∃ z ∈ past, Follows z x := fun ⟨z, hz, h⟩ => hfree z (List.mem_append_left _ hz) h
    rw [List.nil_append, takeMc, if_pos]
    · rw [List.append_nil]
    · rw [hok, Bool.true_and, Bool.not_eq_true', Bool.eq_false_iff, ne_eq, hany]
      exact hclear
  | cons y pre ih =>
    rw [List.cons_append, takeMc, if_neg]
    · rw [ih (by simpa using hfree), List.append_assoc past [y] pre]
      · rfl
      · intro a z b hsplit hz
        rw [List.append_assoc]
        exact hheld (y :: a) z b (by rw [hsplit]; rfl) hz
    · intro htake
      obtain ⟨hy, hstream⟩ := Bool.and_eq_true_iff.1 htake
      obtain ⟨z, hz, hfollows⟩ := hheld [] y pre rfl hy
      rw [List.append_nil] at hz
      rw [Bool.not_eq_true', Bool.eq_false_iff, ne_eq, hany] at hstream
      exact hstream ⟨z, hz, hfollows⟩

/-- The stop without a multicast that it handles now. -/
def mcastsLeft (s : State) (ms : List Sunk) : State := { s with fab := { s.fab with mcasts := ms } }

theorem takeMulticast_of_none (h : ∀ y ∈ s.fab.mcasts, ok y.pkt = false) : takeMulticast s ok = s := by
  simp only [takeMulticast, takeMc_of_none h]

theorem takeMulticast_of_first (hms : s.fab.mcasts = pre ++ x :: post) (hok : ok x.pkt = true)
    (hfree : ∀ y ∈ pre, ¬ Follows y x)
    (hheld : ∀ a y b, pre = a ++ y :: b → ok y.pkt = true → ∃ z ∈ a, Follows z y) :
    takeMulticast s ok = multicast (mcastsLeft s (pre ++ post)) x.port x.pkt x.since := by
  rw [takeMulticast, hms, takeMc_of_first hok (by simpa using hfree) (by simpa using hheld)]
  rfl

end Taking

/-! ### Where a multicast goes (R159, R161) -/

section Moving

variable {s t : State} {r : RingRec} {p q : Packet} {st : Status} {mask : BitVec 64} {port plane since : Nat}

/-- MC_DONE for a multicast waits at the port of its way to SRC. -/
def DoneSent (s t : State) (r : RingRec) (plane : Nat) (p : Packet) (st : Status) (mask : BitVec 64) : Prop :=
  ∀ o, routeAt r plane p.src.toNat = .port o → portHolds s o = true → fabEnc s p.part.toNat = false →
    ∃ w, t.fab.waiting = s.fab.waiting ++ [w] ∧ w.out = o ∧ pktOp w.pkt = .mcDone ∧ w.pkt.dest = p.src ∧
      w.pkt.seq = p.seq ∧ w.pkt.status = BitVec.ofNat 4 (statusCode st) ∧ w.pkt.aux = mask

/-- At DEST a multicast ends with MC_DONE; elsewhere it waits at the next port of its ring. -/
def MovedOn (s t : State) (r : RingRec) (port : Nat) (p : Packet) : Prop :=
  (p.dest.toNat = r.node → DoneSent s t r (port / 4) p (statusOf p.status.toNat) p.aux) ∧
    (p.dest.toNat ≠ r.node → portHolds s (4 * (port / 4) + 2 * bit01 p.dim + bit01 p.dir) = true →
      ∃ w, t.fab.waiting = s.fab.waiting ++ [w] ∧ w.out = 4 * (port / 4) + 2 * bit01 p.dim + bit01 p.dir ∧
        w.pkt = { p with vc := w.pkt.vc })

theorem MovedOn.of_same {u : State} (h : MovedOn u t r port p) (hwaiting : u.fab.waiting = s.fab.waiting)
    (hports : ∀ o, portHolds u o = portHolds s o) (henc : ∀ q, fabEnc u q = fabEnc s q) : MovedOn s t r port p := by
  simpa only [MovedOn, DoneSent, hwaiting, hports, henc] using h

theorem MovedOn.of_fab {u : State} (h : MovedOn s u r port p) (hfab : t.fab = u.fab) : MovedOn s t r port p := by
  simpa only [MovedOn, DoneSent, hfab] using h

theorem sendMcDone_sends (hring : s.img.layout.ring = some r) :
    DoneSent s (sendMcDone (freeAt s port q q.vc since) port p st mask.toNat) r (port / 4) p st mask := by
  intro o hroute hholds henc
  have hfab : (freeAt s port q q.vc since).fab = s.fab := leftPort_fab
  have hring' : (freeAt s port q q.vc since).img.layout.ring = some r :=
    (congrArg (·.layout.ring) (leftPort_img (p := q) (since := since))).trans hring
  have hholds' : portHolds (freeAt s port q q.vc since) o = true := portHolds_freeAt.trans hholds
  have henc' : fabEnc (freeAt s port q q.vc since) p.part.toNat = false := fabEnc_leftPort.trans henc
  unfold sendMcDone
  extract_lets part k
  have hdest : k.dest = p.src := BitVec.ofNat_toNat .. |>.trans (BitVec.setWidth_eq _)
  have hpart : k.part = p.part := BitVec.ofNat_toNat .. |>.trans (BitVec.setWidth_eq _)
  rw [injectOn_of_port hring' (by rw [← hdest] at hroute; exact hroute) hholds' (by rw [← hpart] at henc'; exact henc')]
  simp only [enqueueOut, hfab]
  exact ⟨_, rfl, rfl, rfl, hdest, rfl, rfl, BitVec.ofNat_toNat .. |>.trans (BitVec.setWidth_eq _)⟩

theorem stopKept_mcForward : StopKept s (mcForward s r port p since) := by
  unfold mcForward
  split
  · exact stopKept_freeAt.trans stopKept_injectOn
  · extract_lets out
    split
    · exact ⟨rfl, fun _ => rfl, fun _ => rfl⟩
    · exact stopKept_freeAt.trans ((stopKept_noteRemoved.trans stopKept_injectOn).ite stopKept_noteRemoved)

theorem mcForward_movesOn (hring : s.img.layout.ring = some r) : MovedOn s (mcForward s r port p since) r port p := by
  refine ⟨fun hdest => ?_, fun hdest hholds => ?_⟩
  · rw [mcForward, if_pos hdest]
    exact sendMcDone_sends hring
  · rw [mcForward, if_neg hdest]
    simp only [hholds, if_true]
    exact ⟨_, rfl, rfl, rfl⟩

theorem StopKept.counts (h : StopKept s t) : t.fab.mcSunk = s.fab.mcSunk ∧ t.fab.refusedMc = s.fab.refusedMc :=
  ⟨(congrArg Fabric.mcSunk h.1).trans rfl, (congrArg Fabric.refusedMc h.1).trans rfl⟩

/-- Of memories and flows a multicast that goes on, or is turned away, changes nothing. -/
def Still (s t : State) : Prop := t.stk = s.stk ∧ t.near = s.near ∧ t.flows = s.flows

theorem still_of_touches (h : Touches Mask.injectOn s t) : Still s t :=
  ⟨h.stk rfl, h.near rfl, h.flows rfl⟩

end Moving

theorem ofNat_withoutSharer {m : BitVec 64} {j : Nat} (h : m.getLsbD j = true) :
    BitVec.ofNat 64 (withoutSharer m.toNat j) = m &&& ~~~(1#64 <<< j) := by
  have hset : m.toNat.testBit j = true := h
  refine BitVec.eq_of_getLsbD_eq fun i hi => ?_
  have hone : (1 <<< j).testBit i = decide (j = i) := by rw [Nat.one_shiftLeft, Nat.testBit_two_pow]
  rw [withoutSharer, if_pos hset, BitVec.getLsbD_ofNat, Nat.testBit_xor, bitOf, hone]
  by_cases hij : i = j
  · subst hij
    simp [hi, hset]
  · have hshift : (1#64 <<< j).getLsbD i = false := by
      rw [BitVec.getLsbD_shiftLeft, BitVec.getLsbD_one]
      simp
      omega
    rw [BitVec.getLsbD_and, BitVec.getLsbD_not, hshift]
    simp [hi, Ne.symm hij, BitVec.getLsbD]

/-! ### An accepted copy (R160, R354) -/

section Accepted

variable {s t : State} {r : RingRec} {p : Packet} {st : Status} {port plane sl a n : Nat}

/-- The stop that has taken an accepted copy: charged and counted. -/
def sunkCopy (s : State) (port : Nat) (p : Packet) : State :=
  let k := flowNat p.part.toNat false p.src.toNat
  let u := portCnt (debtNet (charge s k (packetUnits p.len.toNat)) k) port (fun c => { c with sink := wrap32 c.sink })
  if isConf u p.part.toNat then u else { u with fab := { u.fab with mcSunk := wrap32 u.fab.mcSunk } }

theorem sunkCopy_touches :
    Touches { flows := true, td := true, ports := true, fab := true } s (sunkCopy s port p) := by
  unfold sunkCopy
  extract_lets k u
  have hu : Touches { flows := true, td := true, ports := true, fab := true } s u :=
    portCnt_touches (debtNet_touches (charge_touches (.refl _ s) rfl) rfl) rfl
  split
  · exact hu
  · exact hu.trans ⟨rfl, id⟩

theorem sunkCopy_fab : (sunkCopy s port p).fab =
    { s.fab with mcSunk := if isConf s p.part.toNat then s.fab.mcSunk else (s.fab.mcSunk + 1) % 2 ^ 32 } := by
  unfold sunkCopy
  extract_lets k u
  have hu : Touches { flows := true, td := true, ports := true } s u :=
    portCnt_touches (debtNet_touches (charge_touches (.refl _ s) rfl) rfl) rfl
  have hconf : isConf u p.part.toNat = isConf s p.part.toNat := by
    unfold isConf
    rw [hu.img rfl]
  rw [hconf]
  split
  · exact hu.fab rfl
  · show { u.fab with mcSunk := wrap32 u.fab.mcSunk } = _
    rw [hu.fab rfl]
    rfl

theorem sunkCopy_credit {k : Nat} (hk : k = flowNat p.part.toNat false p.src.toNat) :
    (flowGet (sunkCopy s port p) k).credit = (flowGet s k).credit - packetUnits p.len.toNat := by
  subst hk
  have hcharged : (flowGet (debtNet (charge s (flowNat p.part.toNat false p.src.toNat) (packetUnits p.len.toNat))
      (flowNat p.part.toNat false p.src.toNat)) (flowNat p.part.toNat false p.src.toNat)).credit =
      (flowGet s (flowNat p.part.toNat false p.src.toNat)).credit - packetUnits p.len.toNat := by
    rw [debtNet_credit, flowGet_charge]
  unfold sunkCopy
  extract_lets k u
  split <;> exact hcharged

theorem portHolds_sunkCopy {o : Nat} : portHolds (sunkCopy s port p) o = portHolds s o := by
  have hcharged : (debtNet (charge s (flowNat p.part.toNat false p.src.toNat) (packetUnits p.len.toNat))
      (flowNat p.part.toNat false p.src.toNat)).ports = s.ports :=
    (debtNet_touches (charge_touches (.refl { flows := true, td := true } s) rfl) rfl).ports rfl
  have hport (u : State) (hu : u.ports = s.ports) :
      portHolds (portCnt u port (fun c => { c with sink := wrap32 c.sink })) o = portHolds s o := by
    have hget : portGet u = portGet s := by
      funext j
      rw [portGet, hu]
      rfl
    simp only [portHolds, portCnt, portGet_portMod, hget]
    split
    next h => rw [h]
    next => rfl
  unfold sunkCopy
  extract_lets k u
  split <;> exact hport _ hcharged

theorem fabEnc_sunkCopy {q : Nat} : fabEnc (sunkCopy s port p) q = fabEnc s q := by
  unfold fabEnc partGet
  rw [sunkCopy_touches.parts rfl]

/-! What the checks of R160 say of a copy that none of them refuses. -/

theorem mcBar_of_fenced (h : isFenced s false p.src.toNat = true ∨ isFenced s false (homeNode s) = true) :
    mcBar s plane p = some .fenced := if_pos h

theorem mcBar_of_inactive (h : ¬ (isFenced s false p.src.toNat = true ∨ isFenced s false (homeNode s) = true))
    (hstatus : partStatus s p.part.toNat = some st) : mcBar s plane p = some st := by
  simp only [mcBar]
  rw [if_neg h, hstatus]

theorem placesWithin_of_mcBar (h : mcBar s plane p = none) : addrPart p.addr.toNat = p.part.toNat ∧
    (cutAt 65536 (addrOff p.addr.toNat) (max 1 (mcBytes s p))).all (fun c => mcBlockOk s p.part.toNat c.1 c.2.2) = true := by
  have hnext {c : Prop} [Decidable c] {x : Status} {o : Option Status} (h : (if c then some x else o) = none) :
      ¬ c ∧ o = none := by
    split at h
    · cases h
    · exact ⟨‹_›, h⟩
  obtain ⟨-, h⟩ := hnext h
  split at h
  · cases h
  · obtain ⟨-, h⟩ := hnext h
    obtain ⟨-, h⟩ := hnext h
    obtain ⟨haddr, h⟩ := hnext h
    obtain ⟨hblocks, -⟩ := hnext h
    exact ⟨by simpa using haddr, by simpa using hblocks⟩

/-- A copy within one line of published memory that nothing refuses meets a slice that serves. -/
theorem serves_of_mcBar {reg : RegionRec} (h : mcBar s plane p = none) (hlen : mcBytes s p = n) (hn : 0 < n)
    (hfit : addrOff p.addr.toNat % 64 + n ≤ 64)
    (hplace : placeOf s p.part.toNat (addrOff p.addr.toNat) = .pinned reg sl a) : sliceFenced s sl = false := by
  obtain ⟨-, hblocks⟩ := placesWithin_of_mcBar h
  have hmax : max 1 n = n := by omega
  rw [hlen, hmax, cutAt_of_within hn (mod_add_le_of_line (by decide) (by decide) hfit)] at hblocks
  simpa [mcBlockOk, hplace, pinnedLines_of_pinned hplace hn hfit] using hblocks

/-! The bytes of an accepted copy in published memory (R147, R161). -/

/-- Nothing is in service, no piece and no transaction stands, and no twin takes part. -/
def FreeToPlace (s : State) : Prop :=
  s.svc = [] ∧ s.coh.gathered = [] ∧ s.coh.txns = [] ∧ s.coh.placing = [] ∧ s.twn.state = 0

theorem freeToPlace_of_touches {M : Mask} (h : Touches M s t) (hfree : FreeToPlace s) (hsvc : M.svc = false := by rfl)
    (hcoh : M.coh = false := by rfl) (htwn : M.twn = false := by rfl) : FreeToPlace t := by
  unfold FreeToPlace
  rw [h.svc hsvc, h.coh hcoh, h.twn htwn]
  exact hfree

section Plain

variable {reg : RegionRec} (hfree : FreeToPlace s)
  (hplace : placeOf s (addrPart p.addr.toNat) (addrOff p.addr.toNat) = .pinned reg sl a) (hkind : regionCoherent reg = false)
  (hserves : sliceFenced s sl = false) (hclean : LineClean s sl a) (harm : s.di.injArm = false)
include hfree hplace hkind hserves hclean harm

/-- A copy places its bytes and nothing else of the stop or of DRAM changes. -/
def Placed (s t : State) (sl a : Nat) (bs : List Byte) : Prop :=
  t.fab = s.fab ∧ t.stk.dram = (dramStore s sl a bs).stk.dram

theorem placeCopy_of_write (hop : pktOp p ≠ .mcSig) (hlen : 0 < p.payload.length)
    (hfit : addrOff p.addr.toNat % 64 + p.payload.length ≤ 64) : Placed s (placeCopy s p) sl a p.payload := by
  obtain ⟨hsvc, hgathered, htxns, hplacing, htwin⟩ := hfree
  unfold placeCopy
  extract_lets sig k v u
  have hsingle : Single u v := ⟨by simp [u, hsvc], hgathered, htxns, hplacing, htwin⟩
  obtain ⟨w, hstored, hwrite⟩ := writePiece_of_clean (s := u) (source := sourceOf v.req.origin)
    (p := addrPart p.addr.toNat) (off := addrOff p.addr.toNat) (i := 0) (bs := p.payload) hserves hclean harm
  rw [if_neg (by simpa [sig] using hop), if_neg (List.ne_nil_of_length_pos hlen), startRange,
    startRangeAt_write hsingle.twin hlen hfit hplace hkind]
  simp only [hwrite]
  rw [settle_placement (hsingle.of_touches hstored.1 rfl rfl rfl) rfl rfl]
  exact ⟨hstored.1.fab rfl, hstored.2.trans (dramStore_dram_congr rfl)⟩

theorem placeCopy_of_signal (hop : pktOp p = .mcSig) :
    Placed s (placeCopy s p) sl a (atomBytes s sl a 0 1 0) := by
  obtain ⟨hsvc, hgathered, htxns, hplacing, htwin⟩ := hfree
  unfold placeCopy
  extract_lets sig k v u
  have hsingle : Single u v := ⟨by simp [u, hsvc], hgathered, htxns, hplacing, htwin⟩
  have hsig : sig = true := by simp [sig, hop]
  obtain ⟨w, hstored, hrun⟩ := runAtomic_gathers (s := u) (v := v) (own := []) hsingle.twin hplace hkind hserves hclean harm
  rw [if_pos hsig, hrun, settle_placement (hsingle.of_touches hstored.1 rfl rfl rfl) rfl rfl]
  have hpayload : v.req.pkt.payload = leBytes 8 1 ++ leBytes 8 0 := if_pos hsig
  have hone : atomOperand v.req.pkt = 1 := by
    rw [atomOperand, hpayload]
    decide
  have hzero : atomCompare v.req.pkt = 0 := by
    rw [atomCompare, hpayload]
    decide
  have hbytes : atomBytes u sl a v.req.pkt.arg.toNat (atomOperand v.req.pkt) (atomCompare v.req.pkt) =
      atomBytes s sl a 0 1 0 := by
    rw [hone, hzero]
    rfl
  refine ⟨hstored.1.fab rfl, hstored.2.trans ?_⟩
  rw [hbytes]
  exact dramStore_dram_congr rfl

end Plain

end Accepted

/-! ### The cases of a multicast at a stop (R154, R159 to R162) -/

/-- The stop once it has counted a multicast that breaks R159. -/
def malformedCounted (s : State) : State := { s with fab := { s.fab with badMc := sat16 s.fab.badMc } }

/-- The stop once it has counted a copy that it refuses; one of a confidential partition is not counted (R354). -/
def refusalCounted (s : State) (p : Packet) : State :=
  if isConf s p.part.toNat then s else { s with fab := { s.fab with refusedMc := sat16 s.fab.refusedMc } }

theorem refusalCounted_touches {s : State} {p : Packet} : Touches { fab := true } s (refusalCounted s p) := by
  unfold refusalCounted
  split
  · exact .refl _ s
  · exact ⟨rfl, id⟩

theorem refusalCounted_fab {s : State} {p : Packet} : (refusalCounted s p).fab =
    { s.fab with refusedMc := if isConf s p.part.toNat then s.fab.refusedMc else min 65535 (s.fab.refusedMc + 1) } := by
  unfold refusalCounted
  split
  · rfl
  · rw [← sat16_eq]

section Cases

variable {s : State} {r : RingRec} {p : Packet} {st : Status} {port since : Nat} (hring : s.img.layout.ring = some r)
include hring

/-- A multicast that breaks R159 at its first stop ends there. -/
theorem multicast_of_malformed (hbad : p.hops.toNat ≤ 1 ∧ mcWellFormed r p = false) :
    multicast s port p since = sendMcDone (leftPort (malformedCounted s) port p since) port p .fault 0 := by
  simp only [multicast, hring]
  rw [if_pos ⟨hbad.1, by rw [hbad.2]; rfl⟩]
  rfl

section Formed

variable (hformed : ¬ (p.hops.toNat ≤ 1 ∧ mcWellFormed r p = false))
include hformed

theorem multicast_of_passing (hbit : p.aux.getLsbD (mcPos p.dim r.node) = false) :
    multicast s port p since = mcForward s r port p since := by
  simp only [multicast, hring]
  rw [if_neg (by simpa using hformed), if_pos (by rw [hbit]; rfl)]

variable (hbit : p.aux.getLsbD (mcPos p.dim r.node) = true)
include hbit

theorem multicast_of_broken (hrules : ¬ (opcodeRule p (fabEnc s p.part.toNat) = true ∧ alignRule p = true)) :
    multicast s port p since = badPacket (leftPort s port p since) port p .opcode := by
  simp only [multicast, hring]
  rw [if_neg (by simpa using hformed), if_neg (by rw [hbit]; decide), if_pos (by simpa [imp_iff_not_or] using hrules)]

variable (hrules : opcodeRule p (fabEnc s p.part.toNat) = true ∧ alignRule p = true)
include hrules

/-- A copy that is refused is counted, and the multicast goes on without its bit and with the status. -/
theorem multicast_of_refused (hbar : mcBar s (port / 4) p = some st) :
    multicast s port p since =
      mcForward (refusalCounted s p) r port { p with
        aux := p.aux &&& ~~~(1#64 <<< mcPos p.dim r.node)
        status := if p.status = 0 then BitVec.ofNat 4 (statusCode st) else p.status } since := by
  simp only [multicast, hring]
  rw [if_neg (by simpa using hformed), if_neg (by rw [hbit]; decide), if_neg (by simp [hrules])]
  simp only [mcCopy, hbar, ofNat_withoutSharer hbit]
  by_cases hok : p.status = 0
  · simp only [if_pos hok, refusalCounted]
  · simp only [if_neg hok, refusalCounted]

theorem multicast_of_accepted (hbar : mcBar s (port / 4) p = none) (henc : fabEnc s p.part.toNat = false) :
    multicast s port p since = placeCopy (mcForward (sunkCopy s port p) r port p since) p := by
  have hopen : openPacket s p = some p := if_neg (by simp [henc])
  simp only [multicast, hring]
  rw [if_neg (by simpa using hformed), if_neg (by rw [hbit]; decide), if_neg (by simp [hrules])]
  simp only [mcCopy, hbar, hopen]
  rfl

end Formed

end Cases

section Always

variable {s : State} {r : RingRec} {p : Packet} {port bit since : Nat}

theorem mcCopy_mcasts : (mcCopy s port bit p).1.fab.mcasts = s.fab.mcasts := by
  cases hbar : mcBar s (port / 4) p with
  | some st =>
    simp only [mcCopy, hbar]
    split <;> rfl
  | none =>
    cases hopen : openPacket s p with
    | none =>
      simp only [mcCopy, hbar, hopen]
      split <;> rfl
    | some q =>
      have hsunk : (sunkCopy s port p).fab.mcasts = s.fab.mcasts := by rw [sunkCopy_fab]
      simp only [mcCopy, hbar, hopen]
      exact hsunk

theorem countBad_mcasts {k : BadKind} : (countBad s k).fab.mcasts = s.fab.mcasts := by cases k <;> rfl

theorem multicast_mcasts (hring : s.img.layout.ring = some r) :
    (multicast s port p since).fab.mcasts = s.fab.mcasts := by
  have hring' : (leftPort s port p since).img.layout.ring = some r := by rw [leftPort_img, hring]
  simp only [multicast, hring]
  split
  · rw [(stopKept_freeAt.trans stopKept_injectOn : StopKept _ (sendMcDone _ port p .fault 0)).mcasts]
  · split
    · exact stopKept_mcForward.mcasts
    · split
      · rw [(badPacket_turnsAway hring').1.mcasts, countBad_mcasts, leftPort_fab]
      · split
        · rw [stopKept_mcForward.mcasts, mcCopy_mcasts]
        · rw [stopKept_placeCopy.mcasts, stopKept_mcForward.mcasts, mcCopy_mcasts]

end Always

/-! ### What each case leaves (R154, R159 to R162, R354) -/

section Effects

variable {s t : State} {r : RingRec} {p : Packet} {st : Status} {port since sl a n : Nat} {reg : RegionRec}

/-- What the stop has counted of copies. -/
abbrev Counts (t : State) (sunk refused : Nat) : Prop := t.fab.mcSunk = sunk ∧ t.fab.refusedMc = refused

theorem sendMcDone_kept {q : Packet} {mask : Nat} :
    StopKept s (sendMcDone (leftPort s port q since) port p st mask) := stopKept_freeAt.trans stopKept_injectOn

variable (hring : s.img.layout.ring = some r)
include hring

theorem malformed_effect (hbad : p.hops.toNat ≤ 1 ∧ mcWellFormed r p = false) :
    let t := multicast s port p since
    t.fab.badMc = min 65535 (s.fab.badMc + 1) ∧ Counts t s.fab.mcSunk s.fab.refusedMc ∧ Still s t ∧
      DoneSent s t r (port / 4) p .fault 0 := by
  intro t
  have ht : t = sendMcDone (leftPort (malformedCounted s) port p since) port p .fault 0 := multicast_of_malformed hring hbad
  have hkept : StopKept (malformedCounted s) t := ht ▸ sendMcDone_kept
  have hsent : DoneSent (malformedCounted s) t r (port / 4) p .fault 0 := ht ▸ sendMcDone_sends (mask := 0) hring
  have htouches : Touches Mask.injectOn s t := by
    rw [ht]
    exact Touches.trans ⟨rfl, id⟩ (sendMcDone_touches (freeAt_touches (.refl _ _) rfl) rfl)
  exact ⟨(congrArg Fabric.badMc hkept.1).trans (sat16_eq _), hkept.counts, still_of_touches htouches, hsent⟩

section Formed

variable (hformed : ¬ (p.hops.toNat ≤ 1 ∧ mcWellFormed r p = false))
include hformed

theorem passing_effect (hbit : p.aux.getLsbD (mcPos p.dim r.node) = false) :
    let t := multicast s port p since
    Counts t s.fab.mcSunk s.fab.refusedMc ∧ Still s t ∧ MovedOn s t r port p := by
  rw [multicast_of_passing hring hformed hbit]
  exact ⟨stopKept_mcForward.counts, still_of_touches (mcForward_touches (.refl _ _) rfl), mcForward_movesOn hring⟩

variable (hbit : p.aux.getLsbD (mcPos p.dim r.node) = true)
include hbit

theorem broken_effect (hrules : ¬ (opcodeRule p (fabEnc s p.part.toNat) = true ∧ alignRule p = true)) :
    let t := multicast s port p since
    t.fab.opcodeErr = min 65535 (s.fab.opcodeErr + 1) ∧ Counts t s.fab.mcSunk s.fab.refusedMc ∧ Still s t := by
  intro t
  have ht : t = badPacket (leftPort s port p since) port p .opcode := multicast_of_broken hring hformed hbit hrules
  have hkept : StopKept (countBad (leftPort s port p since) .opcode) t :=
    ht ▸ (badPacket_turnsAway (by rw [leftPort_img]; exact hring)).1
  have hfab : (countBad (leftPort s port p since) .opcode).fab = { s.fab with opcodeErr := sat16 s.fab.opcodeErr } := by
    show { (leftPort s port p since).fab with opcodeErr := sat16 (leftPort s port p since).fab.opcodeErr } = _
    rw [leftPort_fab]
  have hcounts := hkept.counts
  have htouches : Touches Mask.injectOn s t := by
    rw [ht]
    exact badPacket_touches (freeAt_touches (.refl _ _) rfl) rfl
  rw [hfab] at hcounts
  refine ⟨(congrArg Fabric.opcodeErr hkept.1).trans ?_, hcounts, still_of_touches htouches⟩
  rw [hfab]
  exact sat16_eq _

variable (hrules : opcodeRule p (fabEnc s p.part.toNat) = true ∧ alignRule p = true)
include hrules

theorem refused_effect (hbar : mcBar s (port / 4) p = some st) :
    let t := multicast s port p since
    Counts t s.fab.mcSunk (if isConf s p.part.toNat then s.fab.refusedMc else min 65535 (s.fab.refusedMc + 1)) ∧
      Still s t ∧ MovedOn s t r port { p with
        aux := p.aux &&& ~~~(1#64 <<< mcPos p.dim r.node)
        status := if p.status = 0 then BitVec.ofNat 4 (statusCode st) else p.status } := by
  rw [multicast_of_refused hring hformed hbit hrules hbar]
  intro t
  have hcounted : Touches { fab := true } s (refusalCounted s p) := refusalCounted_touches
  have hcounts := (stopKept_mcForward : StopKept (refusalCounted s p) t).counts
  rw [refusalCounted_fab] at hcounts
  refine ⟨hcounts, still_of_touches ((hcounted.mono rfl).trans (mcForward_touches (.refl _ _) rfl)), ?_⟩
  refine (mcForward_movesOn ((congrArg (·.layout.ring) (hcounted.img rfl)).trans hring)).of_same ?_ (fun o => ?_) fun q => ?_
  · rw [refusalCounted_fab]
  · unfold portHolds portGet
    rw [hcounted.ports rfl]
  · unfold fabEnc partGet
    rw [hcounted.parts rfl]

variable (hbar : mcBar s (port / 4) p = none) (henc : fabEnc s p.part.toNat = false)
include hbar henc

theorem accepted_effect :
    let t := multicast s port p since
    Counts t (if isConf s p.part.toNat then s.fab.mcSunk else (s.fab.mcSunk + 1) % 2 ^ 32) s.fab.refusedMc ∧
      (flowGet t (flowNat p.part.toNat false p.src.toNat)).credit =
        (flowGet s (flowNat p.part.toNat false p.src.toNat)).credit - packetUnits p.len.toNat := by
  rw [multicast_of_accepted hring hformed hbit hrules hbar henc]
  intro t
  have hkept : StopKept (sunkCopy s port p) t := stopKept_mcForward.trans stopKept_placeCopy
  have hcounts := hkept.counts
  rw [sunkCopy_fab] at hcounts
  exact ⟨hcounts, (hkept.credit _).trans (sunkCopy_credit rfl)⟩

/-- The copy of a write or a signal within one line of published memory without errors. -/
theorem accepted_places
    (hlen : n = if pktOp p = .mcSig then 8 else p.payload.length) (hn : 0 < n) (hfit : addrOff p.addr.toNat % 64 + n ≤ 64)
    (hplace : placeOf s p.part.toNat (addrOff p.addr.toNat) = .pinned reg sl a) (hkind : regionCoherent reg = false)
    (hclean : LineClean s sl a) (harm : s.di.injArm = false)
    (hfree : FreeToPlace s) :
    let t := multicast s port p since
    MovedOn s t r port p ∧
      t.stk.dram = (dramStore s sl a (if pktOp p = .mcSig then atomBytes s sl a 0 1 0 else p.payload)).stk.dram := by
  obtain ⟨hpart, -⟩ := placesWithin_of_mcBar hbar
  have hserves : sliceFenced s sl = false := by
    refine serves_of_mcBar hbar ?_ hn hfit hplace
    rw [mcBytes, henc, hlen]
    rfl
  rw [multicast_of_accepted hring hformed hbit hrules hbar henc]
  intro t
  have hmoved : Touches { parts := true, flows := true, td := true, ports := true, fab := true } s
      (mcForward (sunkCopy s port p) r port p since) :=
    (sunkCopy_touches.mono rfl).trans (mcForward_touches (.refl _ _) rfl)
  have hon : MovedOn s (mcForward (sunkCopy s port p) r port p since) r port p :=
    (mcForward_movesOn ((congrArg (·.layout.ring) (sunkCopy_touches.img rfl)).trans hring)).of_same
      (by rw [sunkCopy_fab]) (fun _ => portHolds_sunkCopy) fun _ => fabEnc_sunkCopy
  have hplace' : placeOf (mcForward (sunkCopy s port p) r port p since) (addrPart p.addr.toNat) (addrOff p.addr.toNat) =
      .pinned reg sl a := by
    rw [hpart, placeOf_of_touches hmoved rfl rfl, hplace]
  have hfree' := freeToPlace_of_touches hmoved hfree
  have hserves' := (sliceFenced_of_stk (hmoved.stk rfl)).trans hserves
  have hclean' := lineClean_of_stk (hmoved.stk rfl) hclean
  have harm' : (mcForward (sunkCopy s port p) r port p since).di.injArm = false :=
    (congrArg (·.injArm) (hmoved.di rfl)).trans harm
  have hplaced : Placed (mcForward (sunkCopy s port p) r port p since) t sl a
      (if pktOp p = .mcSig then atomBytes s sl a 0 1 0 else p.payload) := by
    split
    next hsig =>
      have hbytes : atomBytes s sl a 0 1 0 = atomBytes (mcForward (sunkCopy s port p) r port p since) sl a 0 1 0 := by
        rw [atomBytes, atomBytes, dramBytes_congr (hmoved.dram rfl)]
      rw [hbytes]
      exact placeCopy_of_signal hfree' hplace' hkind hserves' hclean' harm' hsig
    next hsig =>
      rw [if_neg hsig] at hlen
      subst hlen
      exact placeCopy_of_write hfree' hplace' hkind hserves' hclean' harm' hsig hn hfit
  exact ⟨hon.of_fab hplaced.1, hplaced.2.trans (dramStore_dram_congr (hmoved.dram rfl))⟩

/-- The same, as the bytes that stand in memory afterwards. -/
theorem accepted_memory
    (hlen : n = if pktOp p = .mcSig then 8 else p.payload.length) (hn : 0 < n) (hfit : addrOff p.addr.toNat % 64 + n ≤ 64)
    (hplace : placeOf s p.part.toNat (addrOff p.addr.toNat) = .pinned reg sl a) (hkind : regionCoherent reg = false)
    (hclean : LineClean s sl a) (harm : s.di.injArm = false) (hfree : FreeToPlace s) (hroom : a + n ≤ 2 ^ 33) :
    let t := multicast s port p since
    MovedOn s t r port p ∧ DramKeptBut s t sl a n ∧ (pktOp p ≠ .mcSig → dramBytes t sl a n = p.payload) ∧
      (pktOp p = .mcSig → leNat (dramBytes t sl a 8) = (leNat (dramBytes s sl a 8) + 1) % 2 ^ 64) := by
  obtain ⟨hon, hdram⟩ := accepted_places hring hformed hbit hrules hbar henc hlen hn hfit hplace hkind hclean harm hfree
    (since := since)
  have hbytes : (if pktOp p = .mcSig then atomBytes s sl a 0 1 0 else p.payload).length = n := by
    rw [hlen]
    split
    · exact atomBytes_length
    · rfl
  have hstored := dramBytes_of_store hdram (hbytes ▸ hroom)
  have hkept := dramKeptBut_of_store hdram (hbytes ▸ hroom)
  rw [hbytes] at hstored hkept
  refine ⟨hon, hkept, fun hop => ?_, fun hop => ?_⟩
  · rw [hstored, if_neg hop]
  · rw [if_pos hop] at hlen hstored
    subst hlen
    rw [hstored]
    exact leNat_atomBytes (by norm_num)

end Formed

end Effects

/-- Settles O33: a command takes the first multicast of its opcode that none of its stream precedes, and what becomes of it
is one of five cases; the placing of an accepted copy changes nothing of the stop. -/
theorem multicastsCopyAndMoveOn : Obligations.MulticastsCopyAndMoveOn := by
  intro s
  refine ⟨fun hall => ?_, fun hall => ?_, ?_⟩
  · exact congrArg _ (takeMulticast_of_none fun y hy => by simp [hall y hy])
  · exact congrArg _ (takeMulticast_of_none fun y hy => by simp [hall y hy])
  intro r pre post x p follows hring hms hfree hheld part plane bit k out bad rules fenced
  have htake (ok : Packet → Bool) (hok : ∀ q, ok q = true ↔ (pktOp q = .mcSig ↔ pktOp p = .mcSig)) :
      takeMulticast s ok = multicast (mcastsLeft s (pre ++ post)) x.port p x.since :=
    takeMulticast_of_first hms ((hok p).2 Iff.rfl) hfree fun a y b hsplit hy => hheld a y b hsplit ((hok _).1 hy)
  have hring' : (mcastsLeft s (pre ++ post)).img.layout.ring = some r := hring
  refine ⟨multicast (mcastsLeft s (pre ++ post)) x.port p x.since, fun hsig => ?_, fun hsig => ?_, ?_⟩
  · exact congrArg _ (htake _ fun q => by simp [hsig])
  · exact congrArg _ (htake _ fun q => by simp [hsig])
  refine ⟨multicast_mcasts hring', fun hbad => ?malformed, fun hformed hbit => ?passing, fun hformed hbit hrules => ?broken,
    fun hformed hbit hrules => ⟨fun st hst => ?refused, fun hbar henc => ?accepted⟩⟩
  case malformed => exact malformed_effect hring' hbad
  case passing => exact passing_effect hring' hformed hbit
  case broken => exact broken_effect hring' hformed hbit hrules
  case refused =>
    refine refused_effect hring' hformed hbit hrules ?_
    rcases hst with hbar | ⟨hfenced, rfl⟩ | ⟨hopen, hstatus⟩
    · exact hbar
    · exact mcBar_of_fenced hfenced
    · exact mcBar_of_inactive hopen hstatus
  case accepted =>
    obtain ⟨hcounts, hcredit⟩ := accepted_effect hring' hformed hbit hrules hbar henc (since := x.since)
    refine ⟨hcounts, hcredit, ?_⟩
    intro reg sl a n hlen hn hfit hplace hkind hroom hclean _ harm htwin hsvc hgathered htxns hplacing
    exact accepted_memory hring' hformed hbit hrules hbar henc hlen hn hfit hplace hkind hclean harm
      ⟨hsvc, hgathered, htxns, hplacing, htwin⟩ hroom

end Sys2Proof.Proofs
end

section
/-! PROOFS. Twin pairs (R143, R369, R371 to R373, R375 to R381): what each command of a pair does where nothing is held back
and nothing is held. -/

namespace Sys2Proof.Proofs

open Sys2Proof.Machine Sys2Proof.Laws

/-! ### Answers and held work -/

section HeldBack

variable {s t u : State} {v : Service} {a : Ans}

/-- Of the twin's state only the list of requests that were turned away changes. -/
def OnlyTurned (s t : State) : Prop := t.twn = { s.twn with turnedAway := t.twn.turnedAway }

theorem OnlyTurned.refl (s : State) : OnlyTurned s s := rfl

theorem OnlyTurned.trans (h : OnlyTurned s t) (k : OnlyTurned t u) : OnlyTurned s u := by
  unfold OnlyTurned at *
  rw [k, h]

theorem OnlyTurned.of_twn (h : t.twn = s.twn) : OnlyTurned s t := by
  unfold OnlyTurned
  rw [h]

theorem onlyTurned_finish : OnlyTurned s (finish s v a) := by
  rcases finish_eq_or s v a with h | ⟨b, -, h⟩
  · rw [h]
    exact .refl s
  · have hturned :
        OnlyTurned s (if b.status = .ok then dropSvc s v.ticket else noteTurned (dropSvc s v.ticket) v.req) := by
      obtain ⟨l, hl⟩ := noteTurned_eq (dropSvc s v.ticket) v.req
      rw [hl]
      split <;> rfl
    rw [h]
    exact hturned.trans (.of_twn ((answerRequest_touches (.refl Mask.answerRequest _) rfl).twn rfl))

theorem sendHeldBack_onlyTurned : OnlyTurned { s with twn := { s.twn with answers := [] } } (sendHeldBack s) := by
  unfold sendHeldBack
  generalize { s with twn := { s.twn with answers := [] } } = u
  induction s.twn.answers generalizing u with
  | nil => exact .refl u
  | cons x l ih => exact onlyTurned_finish.trans (ih _)

theorem sendHeldBack_of_none (h : s.twn.answers = []) :
    sendHeldBack s = { s with twn := { s.twn with answers := [] } } := by
  rw [sendHeldBack, h]
  rfl

theorem serveAllHeld_of_none (h : s.twn.held = []) :
    serveAllHeld s = { s with twn := { s.twn with held := [], entries := [], turnedAway := [] } } := by
  rw [serveAllHeld, h]
  rfl

theorem resetAllHeld_of_none (h : s.twn.held = []) :
    resetAllHeld s = { s with twn := { s.twn with held := [], entries := [], turnedAway := [] } } := by
  rw [resetAllHeld, h]
  rfl

end HeldBack

/-! ### Sunk packets -/

section Sunk

variable {s t : State} {x : Sunk} {f : Packet → Bool} {st : Status}

/-- The stop without sunk packets. -/
def inboxEmptied (s : State) : State := { s with fab := { s.fab with inbox := [] } }

theorem takeInbox_of_one (hin : s.fab.inbox = [x]) (hf : f x.pkt = true) : takeInbox s f = some (x, inboxEmptied s) := by
  simp [takeInbox, hin, takeFirst, hf, inboxEmptied]

/-- The answer to the twin goes to another stop: nothing of it comes back. -/
theorem answerTwin_inbox (h : homeNode s ≠ x.pkt.src.toNat) : (answerTwin s x st).fab.inbox = s.fab.inbox := by
  cases hring : s.img.layout.ring with
  | none => simp [answerTwin, injectOn, hring]
  | some r =>
    have hnode : homeNode s = r.node := by simp [homeNode, nodeId, hring]
    refine injectOn_inbox hring ?_ (by rw [answerPacket_cls]; decide)
    rw [answerPacket_dest, ← hnode]
    exact Ne.symm h

end Sunk

/-! ### Heartbeats and bursts (R143, R375, R376) -/

section Hearing

variable {s : State} {x : Sunk} {b : Burst}

theorem burst_of_state (n st geom : Nat) (lead : Bool) :
    burstFields (BitVec.ofNat 12 n).toNat lead (BitVec.ofNat 3 st).toNat (BitVec.ofNat 32 geom).toNat =
      burstFields n lead st geom := by
  simp [burstFields]

theorem burstCheck_toNat (fields : Nat) : (BitVec.ofNat 16 (burstCheck fields)).toNat = burstCheck fields := by
  rw [BitVec.toNat_ofNat]
  exact Nat.mod_eq_of_lt (Nat.mod_lt _ (by decide))

theorem exec_heartbeatSend_of_off (hoff : ¬ twinEn s.img.layout = true ∨ twinAwake s = false) :
    exec .heartbeatSend s = .next s ∧ exec .burstSend s = .next s := by
  have hstop : (!twinEn s.img.layout) = true ∨ (!twinAwake s) = true := by simpa using hoff
  exact ⟨if_pos hstop, if_pos (by rw [← or_assoc]; exact .inl hstop)⟩

theorem exec_heartbeatSend_of_on (hon : twinEn s.img.layout = true) (hawake : twinAwake s = true) :
    exec .heartbeatSend s =
      let hb := newPacket s .heartbeat (twinPeer s) 0 (BitVec.ofNat 32 s.td.ptime) 0 []
      .next (injectOn (injectOn s 0 false hb) 1 false hb) :=
  if_neg (by simp [hon, hawake])

/-- The burst of a device names its node, its lead, its state and its structure, under a CHECK that fits (R376). -/
theorem exec_burstSend_of_on (hon : twinEn s.img.layout = true) (hawake : twinAwake s = true)
    (hframe : s.td.ptime % 16 = 0) : ∃ b : Burst, exec .burstSend s = .next { s with out := s.out ++ [.burst b] } ∧
      b.node = BitVec.ofNat 12 (homeNode s) ∧ b.lead = leads s ∧ b.state = BitVec.ofNat 3 s.twn.state ∧
      b.geom = BitVec.ofNat 32 s.twn.geom ∧
      b.check.toNat = burstCheck (burstFields b.node.toNat b.lead b.state.toNat b.geom.toNat) := by
  refine ⟨_, if_neg (by simp [hon, hawake, hframe]), rfl, rfl, rfl, rfl, ?_⟩
  rw [burst_of_state, burstCheck_toNat]

theorem exec_heartbeat_of_one (hin : s.fab.inbox = [x]) (hop : pktOp x.pkt = .heartbeat)
    (hon : twinEn s.img.layout = true) : exec .heartbeat s = .next (if x.pkt.src.toNat = twinPeer s then
      { inboxEmptied s with twn := { s.twn with heardNow := true, fabSilent := 0, fabUp := true, declared := false } }
      else inboxEmptied s) := by
  show execHeartbeat s = _
  simp only [execHeartbeat, takeInbox_of_one (f := fun p => decide (pktOp p = .heartbeat)) hin (decide_eq_true hop)]
  by_cases hsrc : x.pkt.src.toNat = twinPeer s
  · rw [if_pos hsrc]
    exact if_neg (not_or.2 ⟨by rw [show (inboxEmptied s).img = s.img from rfl, hon]; decide, not_not.2 hsrc⟩)
  · rw [if_neg hsrc]
    exact if_pos (.inr hsrc)

/-- The state once a valid burst has been heard. -/
def burstHeard (s : State) (b : Burst) : State :=
  { s with twn := { s.twn with
    hbSilent := 0, hbUp := true, declared := false, pstate := b.state.toNat, plead := b.lead, peerGeom := b.geom.toNat } }

theorem exec_burstReceive_of_good (hon : twinEn s.img.layout = true)
    (hgood : b.check.toNat = burstCheck (burstFields b.node.toNat b.lead b.state.toNat b.geom.toNat) ∧
      b.node.toNat = twinPeer s) : exec (.burstReceive b) s = .next (takeBurst s b) :=
  if_neg (by simp [hon, hgood])

theorem exec_burstReceive_of_bad (hbad : ¬ (b.check.toNat = burstCheck (burstFields b.node.toNat b.lead b.state.toNat
    b.geom.toNat) ∧ b.node.toNat = twinPeer s)) : exec (.burstReceive b) s = .next s :=
  if_pos (.inr (not_and_or.1 hbad))

theorem takeBurst_of_mismatch (hoff : s.twn.state ≠ 0) (hmismatch : s.twn.state ≠ 5)
    (hgeom : s.twn.geom ≠ b.geom.toNat) : takeBurst s b = enterMismatch (burstHeard s b) := if_pos ⟨hoff, hmismatch, hgeom⟩

/-- A device that nothing is held back at enters MISMATCH and serves alone. -/
theorem enterMismatch_twn (hanswers : s.twn.answers = []) (hheld : s.twn.held = []) :
    (enterMismatch s).twn.state = 5 ∧ (enterMismatch s).twn.drives = false ∧ (enterMismatch s).twn.copyBusy = false := by
  simp only [enterMismatch, sendHeldBack_of_none hanswers]
  rw [serveAllHeld_of_none]
  · exact ⟨rfl, rfl, rfl⟩
  · exact hheld

theorem feedAgain_twn : OnlyTurned { s with twn := { s.twn with sent := [], toSend := [], answers := [], state := 2 } }
    (feedAgain s) := by
  have h : OnlyTurned _ (sendHeldBack (stopTwinPackets s)) := sendHeldBack_onlyTurned
  unfold OnlyTurned at h ⊢
  show { (sendHeldBack (stopTwinPackets s)).twn with state := 2 } = _
  rw [h]
  rfl

/-- The state with another state of the pair. -/
def pairIn (s : State) (n : Nat) : State := { s with twn := { s.twn with state := n } }

/-- What a burst of a twin with the same structure does (R369, R381). -/
theorem takeBurst_of_geom (hgeom : s.twn.geom = b.geom.toNat) : takeBurst s b =
    if s.twn.state = 5 then pairIn (burstHeard s b) 1
    else if serving s ∧ s.twn.state = 2 ∧ b.state = 3 ∧ b.lead = false then pairIn (burstHeard s b) 3
    else if serving s ∧ s.twn.state = 4 ∧ b.state = 2 ∧ b.lead = false then pairIn (burstHeard s b) 2
    else if serving s ∧ s.twn.state = 3 ∧ b.state = 2 ∧ b.lead = false then feedAgain (burstHeard s b)
    else burstHeard s b := by
  have hfive : s.twn.state = 5 ∧ s.twn.geom = b.geom.toNat ↔ s.twn.state = 5 := and_iff_left hgeom
  have hlead : b.lead = false ↔ ¬ b.lead = true := Bool.eq_false_iff
  rw [if_congr hfive.symm rfl rfl]
  simp only [hlead]
  exact if_neg fun h => h.2.2 hgeom

/-- The state that a burst of a twin with the same structure leads to (R381). -/
theorem takeBurst_of_same (hgeom : s.twn.geom = b.geom.toNat) : let t := takeBurst s b
    t.twn.hbSilent = 0 ∧ t.twn.hbUp = true ∧ t.twn.pstate = b.state.toNat ∧ t.twn.plead = b.lead ∧
      t.twn.drives = s.twn.drives ∧ t.twn.state =
        if s.twn.state = 5 then 1
        else if serving s ∧ s.twn.state = 2 ∧ b.state = 3 ∧ b.lead = false then 3
        else if serving s ∧ (s.twn.state = 4 ∨ s.twn.state = 3) ∧ b.state = 2 ∧ b.lead = false then 2
        else s.twn.state := by
  rw [takeBurst_of_geom hgeom]
  split
  next => exact ⟨rfl, rfl, rfl, rfl, rfl, rfl⟩
  next =>
    split
    next => exact ⟨rfl, rfl, rfl, rfl, rfl, rfl⟩
    next =>
      split
      next h => exact ⟨rfl, rfl, rfl, rfl, rfl, (if_pos ⟨h.1, .inl h.2.1, h.2.2⟩).symm⟩
      next h4 =>
        split
        next h =>
          have hfed := feedAgain_twn (s := burstHeard s b)
          unfold OnlyTurned at hfed
          dsimp only
          rw [hfed, if_pos ⟨h.1, .inr h.2.1, h.2.2⟩]
          exact ⟨rfl, rfl, rfl, rfl, rfl, rfl⟩
        next h3 =>
          refine ⟨rfl, rfl, rfl, rfl, rfl, (if_neg ?_).symm⟩
          rintro ⟨hserving, hstate | hstate, hpeer⟩
          · exact h4 ⟨hserving, hstate, hpeer⟩
          · exact h3 ⟨hserving, hstate, hpeer⟩

end Hearing

/-! ### Failure and the line (R377 to R379) -/

section Line

variable {s : State} {clk : Nat} {high : Bool}

theorem exec_peerFailureDeclare_of_silent (hon : twinEn s.img.layout = true) (hnew : s.twn.declared = false)
    (hfab : 3 ≤ s.twn.fabSilent) (hburst : 48 ≤ s.twn.hbSilent) : exec .peerFailureDeclare s =
      .next { s with
        twn := { s.twn with declared := true, fails := min (s.twn.fails + 1) 65535 }
        di := { s.di with irq := true } } :=
  if_neg (by simp [hon, hnew, hfab, hburst])

/-- The line is taken where nothing is held (R379). -/
theorem takeOver_twn (hheld : s.twn.held = []) : let t := takeOver s
    t.twn.state = 4 ∧ t.twn.drives = true ∧ t.twn.lineHigh = false ∧ t.twn.sent = [] ∧ t.coh.verified = [] ∧
      t.coh.unverified = (s.img.layout.regions.filter (fun r => r.twinned && regionCoherent r)).map regionId ∧
      t.twn.takeovers = if s.twn.state = 2 ∨ s.twn.state = 3 then min 65535 (s.twn.takeovers + 1) else s.twn.takeovers := by
  simp only [takeOver]
  rw [serveAllHeld_of_none]
  · exact ⟨rfl, rfl, rfl, rfl, rfl, rfl, if_congr decide_eq_true_iff (sat16_eq s.twn.takeovers) rfl⟩
  · exact hheld

theorem exec_leadClaim_of_high (hstate : s.twn.state ≠ 0) (hmismatch : s.twn.state ≠ 5) (hdrives : s.twn.drives = false)
    (hhigh : 4 ≤ s.twn.highTicks) (hclk : subOf s clk = claimClk s) (hawake : twinAwake s = true)
    (hsleep : entersSleep s = false) : exec (.leadClaim clk true) s = .next (takeOver (seenClk s clk)) := by
  refine if_neg ?_
  rintro (h | h | h | h | h | h | h | h)
  · exact hstate h
  · exact hmismatch h
  · exact Bool.eq_false_iff.1 hdrives h
  · exact absurd hhigh (Nat.not_le.2 h)
  · exact h rfl
  · exact h hclk
  · exact Bool.eq_false_iff.1 (congrArg not hawake) h
  · exact Bool.eq_false_iff.1 hsleep h

theorem exec_leadClaim_of_none (hcase : s.twn.drives = true ∨ s.twn.highTicks < 4 ∨ subOf s clk ≠ claimClk s ∨
    entersSleep s = true) : exec (.leadClaim clk high) s = .next (seenClk s clk) := by
  refine if_pos ?_
  rcases hcase with h | h | h | h
  · exact .inr (.inr (.inl h))
  · exact .inr (.inr (.inr (.inl h)))
  · exact .inr (.inr (.inr (.inr (.inr (.inl h)))))
  · exact .inr (.inr (.inr (.inr (.inr (.inr (.inr h))))))

theorem loseLead_twn (hanswers : s.twn.answers = []) (hheld : s.twn.held = []) : let t := loseLead s
    t.twn.drives = false ∧ t.twn.sent = [] ∧ t.twn.copyBusy = false ∧
      t.twn.state = if s.twn.state = 0 ∨ s.twn.state = 5 then s.twn.state else 1 := by
  simp only [loseLead, sendHeldBack_of_none hanswers]
  rw [resetAllHeld_of_none]
  · exact ⟨trivial, rfl, rfl, rfl⟩
  · exact hheld

theorem exec_twnRelease_of_none (hstate : s.twn.state = 3) (hserving : serving s = true) (hanswers : s.twn.answers = []) :
    exec .twnRelease s =
      .next { s with twn := { s.twn with releasing := true, sent := [], toSend := [], answers := [] } } := by
  refine congrArg _ ((if_pos ⟨hstate, hserving⟩).trans ?_)
  rw [sendHeldBack_of_none]
  · rfl
  · exact hanswers

end Line

/-! ### Twin packets at the follower (R371, R372) -/

section Follower

variable {s t : State} {x : Sunk} {r : RegionRec} {p u sl a : Nat}

theorem fromTwin (hsrc : x.pkt.src.toNat = twinPeer s) (hfollowing : following s = true) :
    ¬ ((!following (inboxEmptied s)) = true ∨ x.pkt.src.toNat ≠ twinPeer (inboxEmptied s)) :=
  not_or.2 ⟨Bool.eq_false_iff.1 (congrArg not hfollowing), not_not.2 hsrc⟩

theorem exec_twinPub_of_unfit (hin : s.fab.inbox = [x]) (hop : pktOp x.pkt = .twinPub) (hsrc : x.pkt.src.toNat = twinPeer s)
    (hfollowing : following s = true) (hunfit : tagFits x.pkt = false) :
    exec .twinPub s = .next (answerTwin (inboxEmptied s) x .fault) := by
  show execTwinPub s = _
  simp only [execTwinPub, takeInbox_of_one (f := fun p => decide (pktOp p = .twinPub)) hin (decide_eq_true hop)]
  exact (if_neg (fromTwin hsrc hfollowing)).trans (if_pos (by rw [hunfit]; rfl))

theorem exec_twinPub_of_fit (hin : s.fab.inbox = [x]) (hop : pktOp x.pkt = .twinPub) (hsrc : x.pkt.src.toNat = twinPeer s)
    (hfollowing : following s = true) (hfits : tagFits x.pkt = true) :
    exec .twinPub s = .next { inboxEmptied s with twn := { s.twn with entries := s.twn.entries ++ [x] } } := by
  show execTwinPub s = _
  simp only [execTwinPub, takeInbox_of_one (f := fun p => decide (pktOp p = .twinPub)) hin (decide_eq_true hop)]
  exact (if_neg (fromTwin hsrc hfollowing)).trans (if_neg (by rw [hfits]; decide))

/-- The mirror write of a device's twin with bytes. -/
theorem exec_twinWr_of_twin (hin : s.fab.inbox = [x]) (hop : pktOp x.pkt = .twinWr) (hsrc : x.pkt.src.toNat = twinPeer s)
    (hfollowing : following s = true) (hsome : x.pkt.payload ≠ []) : exec .twinWr s =
      if (!tagFits x.pkt) = true then .next (answerTwin (inboxEmptied s) x .fault)
      else if mirrorWaits (inboxEmptied s) s.twn.copyHeld x.pkt then
        .next { inboxEmptied s with twn := { s.twn with copyHeld := s.twn.copyHeld ++ [x] } }
      else match landMirror (inboxEmptied s) x with
        | (t, true) => .next t
        | (t, false) => .next { t with fab := { t.fab with inbox := s.fab.inbox } } := by
  show execTwinWr s = _
  simp only [execTwinWr, takeInbox_of_one (f := fun p => decide (pktOp p = .twinWr)) hin (decide_eq_true hop)]
  refine if_neg ?_
  rw [← or_assoc]
  exact not_or.2 ⟨fromTwin hsrc hfollowing, hsome⟩

theorem heldCopy_of_none {op : Op} {k : Packet} (hheld : s.twn.held = []) : heldCopy s op k = none := by
  rw [heldCopy, hheld]
  rfl

/-- A write of bytes of one line at a follower. -/
theorem placeBytes_of_clean {addr : Nat} {bs : List Byte}
    (hplace : placeOf s (addrPart addr) (addrOff addr) = .pinned r sl a) (hn : 0 < bs.length)
    (hfit : addrOff addr % 64 + bs.length ≤ 64) (hserves : sliceFenced s sl = false) (hclean : LineClean s sl a)
    (harm : s.di.injArm = false) :
    ∃ t, Stored s t sl a bs ∧ placeBytes s addr bs = (t, [okPiece (addrPart addr) (addrOff addr) 0 []]) := by
  obtain ⟨t, hstored, hpiece⟩ :=
    writePiece_of_clean (source := 0) (p := addrPart addr) (off := addrOff addr) (i := 0) (bs := bs) hserves hclean harm
  refine ⟨t, hstored, ?_⟩
  have hcut := cutAt_of_within hn (mod_add_le_of_line (g := 65536) (by decide) (by decide) hfit)
  simp [placeBytes, hcut, writeSegment_of_pinned hplace hn hfit, hpiece]

/-- A mirror write that no held request waits for. -/
theorem landMirror_of_unheld (hheld : s.twn.held = [])
    (hretry : anyRetry (placeBytes s x.pkt.addr.toNat x.pkt.payload).2 = false) :
    landMirror s x = (answerTwin (placeBytes s x.pkt.addr.toNat x.pkt.payload).1 x .ok, true) := by
  have hnone : heldCopy s .atom x.pkt = none := heldCopy_of_none hheld
  have hplain : anyRetry [] = false := rfl
  simp [landMirror, hnone, hplain, hretry]

theorem exec_twinWr_of_unfit (hin : s.fab.inbox = [x]) (hop : pktOp x.pkt = .twinWr) (hsrc : x.pkt.src.toNat = twinPeer s)
    (hfollowing : following s = true) (hsome : x.pkt.payload ≠ []) (hunfit : tagFits x.pkt = false) :
    exec .twinWr s = .next (answerTwin (inboxEmptied s) x .fault) := by
  rw [exec_twinWr_of_twin hin hop hsrc hfollowing hsome]
  exact if_pos (by rw [hunfit]; rfl)

theorem exec_twinWr_of_clean (hin : s.fab.inbox = [x]) (hop : pktOp x.pkt = .twinWr) (hsrc : x.pkt.src.toNat = twinPeer s)
    (hfollowing : following s = true) (hfits : tagFits x.pkt = true) (hother : homeNode s ≠ twinPeer s)
    (hsome : x.pkt.payload ≠ []) (hout : s.twn.copyOut = []) (hcopies : s.twn.copyHeld = []) (hheld : s.twn.held = [])
    (hfit : addrOff x.pkt.addr.toNat % 64 + x.pkt.payload.length ≤ 64)
    (hplace : placeOf s (addrPart x.pkt.addr.toNat) (addrOff x.pkt.addr.toNat) = .pinned r sl a)
    (hserves : sliceFenced s sl = false) (hroom : a + x.pkt.payload.length ≤ 2 ^ 33) (harm : s.di.injArm = false)
    (hclean : LineClean s sl a) :
    ∃ t, exec .twinWr s = .next t ∧ t.fab.inbox = [] ∧ dramBytes t sl a x.pkt.payload.length = x.pkt.payload ∧
      DramKeptBut s t sl a x.pkt.payload.length := by
  have hn : 0 < x.pkt.payload.length := List.length_pos_iff.2 hsome
  obtain ⟨t, hstored, hbytes⟩ := placeBytes_of_clean (s := inboxEmptied s) hplace hn hfit hserves hclean harm
  have hlands : landMirror (inboxEmptied s) x = (answerTwin t x .ok, true) := by
    rw [landMirror_of_unheld (s := inboxEmptied s) (x := x) hheld (by rw [hbytes]; rfl), hbytes]
  have hanswered : Touches Mask.injectOn t (answerTwin t x .ok) := answerTwin_touches (.refl _ t) rfl
  have hhome : homeNode t ≠ x.pkt.src.toNat := by
    rw [homeNode, nodeId, hstored.1.img rfl, hsrc]
    exact hother
  have hstore : (answerTwin t x .ok).stk.dram = (dramStore s sl a x.pkt.payload).stk.dram :=
    (hanswered.dram rfl).trans (hstored.2.trans (dramStore_dram_congr rfl))
  refine ⟨answerTwin t x .ok, ?_, ?_, dramBytes_of_store hstore hroom, dramKeptBut_of_store hstore hroom⟩
  · rw [exec_twinWr_of_twin hin hop hsrc hfollowing hsome, if_neg (by rw [hfits]; decide),
      if_neg (by simp [mirrorWaits, inboxEmptied, hout, hcopies]), hlands]
  · rw [answerTwin_inbox hhome, hstored.1.fab rfl]
    rfl

/-- A twin publish whose requester's copy was ended is ready (R381). -/
theorem twinReady_of_ended (hheld : s.twn.held = []) (haway : s.twn.turnedAway.contains x.pkt.seq.toNat = true)
    (hunit : publishUnit s x.pkt.addr.toNat = some (p, u)) (hledger : ledgerBlocked s p = false)
    (hcopy : s.twn.copyOut = []) : twinReady s x = true := by
  simp only [twinReady, hunit, hledger, hcopy, heldCopy_of_none hheld, haway]
  simp

/-- A decision stores the version of its unit and nothing else of the coherent state (R193). -/
theorem decideUnit_coh {base req : Nat} {host : Bool} : (decideUnit s p u base host req).1.coh =
    (versionSet s p u (decide193 (versionGet s p u) base host req).2).coh := by
  unfold decideUnit
  generalize decide193 (versionGet s p u) base host req = d
  obtain ⟨st, y⟩ := d
  exact (lgAppend_touches (.refl Mask.countCorrected _) rfl).coh rfl

/-- Nothing has ended of a request: none is answered. -/
theorem settle_of_ungathered (hgathered : s.coh.gathered = []) : settle s = s := by
  have hpieces (n : Nat) : (piecesOf s n).isEmpty = true := by rw [piecesOf, hgathered]; rfl
  unfold settle
  generalize s.svc = l
  induction l with
  | nil => rfl
  | cons v l ih =>
    rw [List.foldl_cons, if_pos (.inr (.inr (hpieces _)))]
    exact ih

/-- The decision of a twin publish that no held request waits for. -/
theorem decideTwin_of_unheld (hheld : s.twn.held = []) (hunit : publishUnit s x.pkt.addr.toNat = some (p, u))
    (ht : decideTwin s x = t) :
    t.twn.entries = s.twn.entries.filter (fun y => y.pkt.seq ≠ x.pkt.seq || y.pkt.addr ≠ x.pkt.addr) ∧
      versionGet t p u = (decide193 (versionGet s p u) x.pkt.aux.toNat false (x.pkt.seq.toNat / 2 ^ 20)).2 ∧
      t.coh.gathered = s.coh.gathered := by
  unfold decideTwin at ht
  extract_lets held seq _ z at ht
  split at ht
  next hnone => exact absurd (hunit.symm.trans hnone) (by simp)
  next p' u' hsome =>
    obtain ⟨rfl, rfl⟩ : p = p' ∧ u = u' := by simpa using hunit.symm.trans hsome
    have hheldNone : held = none := heldCopy_of_none hheld
    rw [hheldNone] at ht
    subst ht
    have hdecided := decideUnit_touches (p := p) (u := u) (base := x.pkt.aux.toNat) (host := false) (req := seq / 2 ^ 20)
      (.refl Mask.enterP z) rfl
    have hanswered := answerTwin_touches (x := x) (st := .ok)
      (.refl Mask.injectOn (decideUnit z p u x.pkt.aux.toNat false (seq / 2 ^ 20)).1) rfl
    have hcoh := (hanswered.coh rfl).trans decideUnit_coh
    refine ⟨?_, ?_, ?_⟩
    · exact congrArg Twin.entries ((hanswered.twn rfl).trans (hdecided.twn rfl))
    · refine (congrArg (fun c : Coh => tblGet (fun _ => {}) c.versions (p * 2 ^ 26 + u)) hcoh).trans ?_
      exact (versionGet_versionSet ..).trans (if_pos rfl)
    · exact (congrArg Coh.gathered hcoh :)

theorem exec_twinPublishDecide_of_one (hentries : s.twn.entries = [x]) (hheld : s.twn.held = [])
    (haway : s.twn.turnedAway.contains x.pkt.seq.toNat = true) (hgathered : s.coh.gathered = [])
    (hunit : publishUnit s x.pkt.addr.toNat = some (p, u)) (hledger : ledgerBlocked s p = false)
    (hcopy : s.twn.copyOut = []) : ∃ t, exec .twinPublishDecide s = .next t ∧ t.twn.entries = [] ∧ versionGet t p u =
      (decide193 (versionGet s p u) x.pkt.aux.toNat false (x.pkt.seq.toNat / 2 ^ 20)).2 := by
  obtain ⟨hgone, hversion, hnone⟩ := decideTwin_of_unheld hheld hunit rfl
  refine ⟨decideTwin s x, ?_, ?_, hversion⟩
  · show execTwinPublishDecide s = _
    have hready := twinReady_of_ended hheld haway hunit hledger hcopy
    have hfirst : nextTwinPub s s.twn.entries [] = some x := by simp [hentries, nextTwinPub, hready]
    simp only [execTwinPublishDecide, hfirst, settle_of_ungathered (hnone.trans hgathered)]
  · rw [hgone, hentries]
    simp

end Follower

/-! ### The leader's answers (R373) and shadows (R371) -/

section Answers

variable {s : State} {x : Sunk} {o : TwinOut} {v : Service} {a : Ans}

theorem sendNextTwin_of_none (hnext : s.twn.toSend = []) : sendNextTwin s = s := by
  unfold sendNextTwin
  rw [hnext]

theorem exec_twinCmp_of_one (hin : s.fab.inbox = [x]) (hcmp : isTwinCmp s x.pkt = true) (hsent : s.twn.sent = [o])
    (hanswers : s.twn.answers = [{ svc := v, answer := a, waits := [o.id] }]) (hnext : s.twn.toSend = []) :
    exec .twinCmp s = .next (finish { inboxEmptied s with twn := { s.twn with sent := [], answers := [] } } v a) := by
  have hnamed : (decide (o.seq = x.pkt.seq.toNat) && decide (o.addr = x.pkt.addr.toNat)) = true := by
    have hany := (Bool.and_eq_true_iff.1 hcmp).2
    simpa [hsent] using hany
  show execTwinCmp s = _
  have hfirst : takeFirst (fun o => decide (o.seq = x.pkt.seq.toNat) && decide (o.addr = x.pkt.addr.toNat))
      (inboxEmptied s).twn.sent = some (o, []) := by
    show takeFirst _ s.twn.sent = _
    simp only [hsent, takeFirst, hnamed, if_true]
  have hfreed : (inboxEmptied s).twn.answers.map (fun a => { a with waits := a.waits.filter (· ≠ o.id) }) =
      [{ svc := v, answer := a, waits := [] }] := by
    show s.twn.answers.map _ = _
    rw [hanswers]
    simp
  simp only [execTwinCmp, takeInbox_of_one hin hcmp, hfirst, hfreed]
  refine congrArg _ ((sendNextTwin_of_none ?_).trans rfl)
  exact (congrArg Twin.toSend onlyTurned_finish).trans hnext

theorem exec_shadowExpiry : ∃ t, exec .shadowExpiry s = .next t ∧ Touches { twn := true, svc := true } s t ∧
    t.twn.held = s.twn.held.filter (fun h => !(h.shadow && decide (h.since + s.twn.shadow ≤ s.td.ptime))) := by
  have hdropped (l : List HeldReq) (u : State) :
      Touches { svc := true } u (l.foldl (fun s h => dropSvc s h.svc.ticket) u) := touches_foldl (.refl _ u) fun _ h _ => dropSvc_touches h rfl
  refine ⟨_, rfl, ?_, ?_⟩
  · exact touches_foldl (touches_mk (.refl _ s) rfl rfl) fun _ h _ => dropSvc_touches h rfl
  · refine (congrArg Twin.held ((hdropped _ _).twn rfl)).trans (List.filter_congr fun h hh => ?_)
    refine congrArg not ?_
    show (s.twn.held.filter _).contains h = (h.shadow && decide (h.since + s.twn.shadow ≤ frameOf s))
    simp [hh]

end Answers

/-! ### RESYNC (R381) -/

section Resync

variable {s : State} {x : Sunk} {o : CopyReq} {a n : Nat} {version : Bool}

theorem exec_twinCopyRead_of_item (hbusy : s.twn.copyBusy = true) (hended : s.twn.copyEnded = false)
    (hfollowing : following s = true) (hitem : copyItem s s.twn.copyNext = some (a, n, version))
    (hallowed : version = true ∨ copyAllowed s (n / 256) = true) :
    ∃ t, exec .twinCopyRead s = .next t ∧ t.twn.copyNext = s.twn.copyNext + 1 ∧
      ∃ o, t.twn.copyOut = s.twn.copyOut ++ [o] ∧ o.addr = a ∧ o.len = n ∧ o.version = version := by
  have hroom : ¬ ((!version) = true ∧ (!copyAllowed s (if version then 0 else n / 256)) = true) := by
    cases version <;> simp_all
  show ∃ t, execTwinCopyRead s = _ ∧ _
  unfold execTwinCopyRead
  rw [if_neg (by simp [hbusy, hended, hfollowing]), hitem]
  dsimp only
  rw [if_neg hroom]
  refine ⟨_, rfl, ?_⟩
  rw [(sendCopy_touches (.refl Mask.injectOn _) rfl).twn rfl]
  exact ⟨rfl, _, rfl, rfl, rfl, rfl⟩

/-- The answer to a copy request leaves no held mirror write to apply. -/
theorem endCopy_of_none (hheld : s.twn.copyHeld = []) : ∃ ended, endCopy s o = { s with twn := { s.twn with
    copyOut := s.twn.copyOut.filter (· ≠ o), copyDone := s.twn.copyDone + (if o.version then 0 else o.len)
    copyHeld := [], copyEnded := ended } } := by
  refine ⟨copyOver (applyHeld { s with twn := { s.twn with
    copyOut := s.twn.copyOut.filter (· ≠ o), copyDone := s.twn.copyDone + (if o.version then 0 else o.len) } }), ?_⟩
  simp only [endCopy, applyHeld, hheld, List.foldl_nil]

/-- The version that the record of an answer names (R195). -/
def copiedVersion (k : Packet) : Version :=
  let v := fieldAt k.payload 0 8
  let w := fieldAt k.payload 8 4
  { v := v, host := decide (v ≠ 0) && w.testBit 15, req := if v = 0 then 0 else w % 4096 }

section Answered

variable (hin : s.fab.inbox = [x]) (hout : s.twn.copyOut = [o]) (hheld : s.twn.copyHeld = [])
  (hanswers : answersCopy s x.pkt o = true) (hop : pktOp x.pkt = .data) (hstatus : x.pkt.status = 0)

include hin hout hanswers in
/-- The answer to the one copy request that is awaited lands. -/
theorem exec_twinCopyData_of_one {t : State} (hlands : landCopy (inboxEmptied s) o x.pkt = (t, true)) :
    exec .twinCopyData s = .next t := by
  have hany : s.twn.copyOut.any (answersCopy s x.pkt) = true := by simp [hout, hanswers]
  have hfind : (inboxEmptied s).twn.copyOut.find? (answersCopy (inboxEmptied s) x.pkt) = some o := by
    show s.twn.copyOut.find? (answersCopy s x.pkt) = some o
    simp [hout, hanswers]
  show execTwinCopyData s = _
  simp only [execTwinCopyData, takeInbox_of_one (f := fun k => s.twn.copyOut.any (answersCopy s k)) hin hany, hfind, hlands]

include hop hstatus in
theorem landCopy_of_version (hversion : o.version = true) : landCopy s o x.pkt =
    (endCopy (versionSet s (addrPart o.addr) (addrOff o.addr / 2097152) (copiedVersion x.pkt)) o, true) := by
  have hok : statusOf x.pkt.status.toNat = .ok := by rw [hstatus]; rfl
  simp [landCopy, hop, hok, hversion, copiedVersion]

include hop hstatus in
theorem landCopy_of_bytes (hversion : o.version = false)
    (hretry : anyRetry (placeBytes s o.addr (x.pkt.payload.take o.len)).2 = false) :
    landCopy s o x.pkt = (endCopy (placeBytes s o.addr (x.pkt.payload.take o.len)).1 o, true) := by
  have hok : statusOf x.pkt.status.toNat = .ok := by rw [hstatus]; rfl
  simp [landCopy, hop, hok, hversion, hretry]

include hin hout hheld hanswers hop hstatus

theorem exec_twinCopyData_of_version (hversion : o.version = true) :
    ∃ t, exec .twinCopyData s = .next t ∧ t.twn.copyOut = [] ∧ t.fab.inbox = [] ∧
      (versionGet t (addrPart o.addr) (addrOff o.addr / 2097152)).v = fieldAt x.pkt.payload 0 8 := by
  refine ⟨_, exec_twinCopyData_of_one hin hout hanswers (landCopy_of_version hop hstatus hversion), ?_⟩
  obtain ⟨ended, hend⟩ := endCopy_of_none (o := o)
    (s := versionSet (inboxEmptied s) (addrPart o.addr) (addrOff o.addr / 2097152) (copiedVersion x.pkt)) hheld
  rw [hend]
  refine ⟨?_, rfl, ?_⟩
  · show s.twn.copyOut.filter (· ≠ o) = []
    simp [hout]
  · exact congrArg Version.v ((versionGet_versionSet ..).trans (if_pos rfl))

theorem exec_twinCopyData_of_bytes (hversion : o.version = false)
    (hretry : anyRetry (placeBytes (inboxEmptied s) o.addr (x.pkt.payload.take o.len)).2 = false) :
    ∃ t, exec .twinCopyData s = .next t ∧ t.twn.copyOut = [] ∧ t.fab.inbox = [] ∧
      t.twn.copyDone = s.twn.copyDone + o.len ∧
      t.stk = (placeBytes (inboxEmptied s) o.addr (x.pkt.payload.take o.len)).1.stk := by
  refine ⟨_, exec_twinCopyData_of_one hin hout hanswers (landCopy_of_bytes hop hstatus hversion hretry), ?_⟩
  have hplaced := placeBytes_touches (addr := o.addr) (bs := x.pkt.payload.take o.len)
    (.refl Mask.writeSegment (inboxEmptied s)) rfl
  generalize placeBytes (inboxEmptied s) o.addr (x.pkt.payload.take o.len) = w at hplaced ⊢
  have htwn : w.1.twn = s.twn := hplaced.twn rfl
  obtain ⟨ended, hend⟩ := endCopy_of_none (s := w.1) (o := o) (by rw [htwn, hheld])
  rw [hend, htwn, hplaced.fab rfl]
  refine ⟨?_, rfl, ?_, rfl⟩
  · show s.twn.copyOut.filter (· ≠ o) = []
    simp [hout]
  · show s.twn.copyDone + (if o.version then 0 else o.len) = _
    simp [hversion]

end Answered

theorem exec_resyncStart_of_ready (hstate : s.twn.state = 1) (hfab : s.twn.fabUp = true) (hline : s.twn.lineHigh = false)
    (hdrives : s.twn.drives = false) : ∃ t, exec .resyncStart s = .next t ∧
      t.twn.state = 2 ∧ t.twn.copyBusy = true ∧ t.twn.copyNext = 0 ∧ t.twn.copyDone = 0 :=
  ⟨_, if_neg (by simp [hstate, hfab, hline, hdrives]), rfl, rfl, rfl, rfl⟩

end Resync

/-! ### The statement -/

/-- Settles O56: each command of a pair, case by case. -/
theorem twinsHearClaimAndMirror : Obligations.TwinsHearClaimAndMirror := by
  intro s clk tw peer on bare becomes hb
  refine ⟨?sends, ?sendsNot, ?heartbeat, ?burst, ?declare, ?declareNot, ?claim, ?claimNot, ?lineLow, ?lead, ?leadNot,
    ?release, ?releaseNot, rfl, ?packets, ?decide, ?cmp, ?ack, ?shadow, ?resync, ?resyncNot, ?copyRead, ?copyData⟩
  case sends =>
    intro hon hawake
    exact ⟨exec_heartbeatSend_of_on hon hawake, exec_burstSend_of_on hon hawake⟩
  case sendsNot => exact exec_heartbeatSend_of_off
  case heartbeat =>
    intro x hin hop hon
    refine ⟨fun hsrc => ?_, fun hsrc => ?_⟩
    · rw [exec_heartbeat_of_one hin hop hon, if_pos hsrc]
      rfl
    · rw [exec_heartbeat_of_one hin hop hon, if_neg hsrc]
      rfl
  case burst =>
    intro b good same
    refine ⟨exec_burstReceive_of_bad, fun hon hgood hstate hmismatch hdiffers hbare => ?_, fun hon hgood hsame => ?_⟩
    · obtain ⟨hanswers, hheld⟩ := hbare
      refine ⟨_, exec_burstReceive_of_good hon hgood, ?_⟩
      rw [takeBurst_of_mismatch hstate hmismatch hdiffers]
      exact enterMismatch_twn hanswers hheld
    · exact ⟨_, exec_burstReceive_of_good hon hgood, takeBurst_of_same hsame⟩
  case declare =>
    intro hon hnew hfab hburst
    exact exec_peerFailureDeclare_of_silent hon hnew hfab hburst
  case declareNot =>
    intro hheard
    exact if_pos (.inr (.inr hheard))
  case claim =>
    intro hstate hmismatch hdrives hhigh hclk hawake hsleep hheld
    refine ⟨_, exec_leadClaim_of_high hstate hmismatch hdrives hhigh hclk hawake hsleep, ?_⟩
    exact takeOver_twn (s := seenClk s clk) hheld
  case claimNot =>
    intro hcase high
    exact exec_leadClaim_of_none hcase
  case lineLow => exact if_pos (by simp)
  case lead =>
    intro hdrives hbare
    obtain ⟨hanswers, hheld⟩ := hbare
    exact ⟨_, if_pos hdrives, loseLead_twn hanswers hheld⟩
  case leadNot =>
    intro hdrives
    exact if_neg (Bool.eq_false_iff.1 hdrives)
  case release =>
    intro hstate hserving hanswers
    exact exec_twnRelease_of_none hstate hserving hanswers
  case releaseNot =>
    intro hcase
    exact congrArg _ (if_neg (by rwa [not_and_or, Bool.not_eq_true]))
  case packets =>
    intro x hin hsrc hfollowing u
    refine ⟨fun hunfit => ⟨fun hop => ?_, fun hop hsome => ?_⟩, fun hop hfits => ?_, ?_⟩
    · exact exec_twinPub_of_unfit hin hop hsrc hfollowing hunfit
    · exact exec_twinWr_of_unfit hin hop hsrc hfollowing hsome hunfit
    · exact exec_twinPub_of_fit hin hop hsrc hfollowing hfits
    · intro r sl a k off hop hfits hother hsome hout hcopies hheld hfit hplace hserves hroom harm hclean
      exact exec_twinWr_of_clean hin hop hsrc hfollowing hfits hother hsome hout hcopies hheld hfit hplace hserves hroom
        harm hclean
  case decide =>
    intro x p u hentries hheld haway hgathered hunit hledger hcopy w
    exact exec_twinPublishDecide_of_one hentries hheld haway hgathered hunit hledger hcopy
  case cmp =>
    intro x o v a hin hcmp hsent hanswers hnext
    exact exec_twinCmp_of_one hin hcmp hsent hanswers hnext
  case ack =>
    intro hleads hstate hanswers hlate
    refine ⟨_, if_pos ⟨hleads, hstate, hlate⟩, ?_⟩
    rw [sendHeldBack_of_none]
    · exact ⟨rfl, rfl, rfl, rfl⟩
    · exact hanswers
  case shadow => exact exec_shadowExpiry
  case resync =>
    intro hstate hfab hline hdrives
    exact exec_resyncStart_of_ready hstate hfab hline hdrives
  case resyncNot =>
    intro hcase
    exact if_pos (by simpa using hcase)
  case copyRead =>
    intro a n version hbusy hended hfollowing hitem hallowed
    exact exec_twinCopyRead_of_item hbusy hended hfollowing hitem hallowed
  case copyData =>
    intro x o hin hout hheld hanswers hop hstatus
    exact ⟨exec_twinCopyData_of_version hin hout hheld hanswers hop hstatus,
      exec_twinCopyData_of_bytes hin hout hheld hanswers hop hstatus⟩

end Sys2Proof.Proofs
end

section
/-! PROOFS. The directory (R170, R171, R180, R185): what a look-up of an entry that is in order leaves, and the write of
a whole line that an agent returns. -/

namespace Sys2Proof.Proofs

open Sys2Proof.Machine Sys2Proof.Laws

/-! ### Entries -/

section Entries

variable {s t u : State} {e : DirEntry} {half line pool p sl a : Nat}

theorem dirSet_coh : (dirSet s line e).coh = { s.coh with dir := tblSet (fun _ => {}) s.coh.dir (line / 64) e } := by
  simp only [dirSet]
  split
  · rfl
  · simp [entryClean]

theorem dirGet_dirSet_self : dirGet (dirSet s line e) line = e := by rw [dirGet_dirSet, if_pos rfl]

theorem dirSet_dram : (dirSet s line e).stk.dram = s.stk.dram := (dirSet_touches (.refl Mask.dirSet s) rfl).dram rfl

/-- A look-up moves the line to the front of its set and counts a hit or a miss. -/
def LookedUp (s u : State) : Prop :=
  ∃ (cache : Tbl (List (Nat × Nat))) (halves : List CohHalf),
    u = { s with coh := { s.coh with cache := cache, halves := halves } }

theorem LookedUp.refl (s : State) : LookedUp s s := ⟨_, _, rfl⟩

theorem LookedUp.trans (h : LookedUp s t) (k : LookedUp t u) : LookedUp s u := by
  obtain ⟨c, l, rfl⟩ := h
  obtain ⟨d, m, rfl⟩ := k
  exact ⟨d, m, rfl⟩

theorem LookedUp.touches (h : LookedUp s u) : Touches { coh := true } s u := by
  obtain ⟨c, l, rfl⟩ := h
  exact ⟨rfl, id⟩

theorem LookedUp.dirGet_eq (h : LookedUp s u) : dirGet u line = dirGet s line := by
  obtain ⟨c, l, rfl⟩ := h
  rfl

theorem LookedUp.partGet_eq (h : LookedUp s u) : partGet u p = partGet s p := by
  obtain ⟨c, l, rfl⟩ := h
  rfl

theorem LookedUp.sweepLeft (h : LookedUp s u) : u.coh.sweepLeft = s.coh.sweepLeft := by
  obtain ⟨c, l, rfl⟩ := h
  rfl

theorem trafficMod_looksUp {f : CohHalf → CohHalf} : LookedUp s (trafficMod s half p f) := by
  unfold trafficMod
  split
  · exact .refl s
  · exact ⟨_, _, rfl⟩

theorem readBacking_of_clean (hclean : ReservesClean s) : readBacking s half line pool = s := by
  obtain ⟨-, hentries⟩ := hclean
  unfold readBacking
  split
  next => rfl
  next sl a hplace => exact if_pos (List.all_eq_true.2 fun k hk => decide_eq_true (hentries line _ hplace k hk))

/-- An entry that keeps its state's invariant is read as it stands. -/
theorem readEntry_of_legal (hclean : ReservesClean s)
    (hlegal : dirLegal (lineShared s line pool) (dirGet s line) = true) :
    LookedUp s (readEntry s half line pool) := by
  unfold readEntry
  extract_lets ways s1
  have hlook : LookedUp s s1 := by
    simp only [s1]
    split
    next => exact trafficMod_looksUp.trans ⟨_, _, rfl⟩
    next =>
      have hmiss : LookedUp s (trafficMod s half (addrPart line) fun x => { x with miss := wrap32 x.miss }) :=
        trafficMod_looksUp
      rw [readBacking_of_clean]
      · exact hmiss
      · obtain ⟨c, l, heq⟩ := hmiss
        rw [heq]
        exact hclean
  have hkept : dirLegal (lineShared s1 line pool) (dirGet s1 line) = true := by
    obtain ⟨c, l, heq⟩ := hlook
    rw [heq]
    exact hlegal
  rw [if_pos hkept]
  exact hlook

theorem touchLine_of_unswept (h : s.coh.sweepLeft = []) : touchLine s line pool = s := by
  simp [touchLine, h]

end Entries

/-! ### A line that an agent returns (R180, R181) -/

section Returned

variable {s t u : State} {source sl a line pool : Nat} {seq : BitVec 32} {bs : List Byte}

theorem Stored.thenStk (h : Stored s t sl a bs) (k : Touches { stk := true } t u) : Stored s u sl a bs :=
  ⟨h.1.trans (k.mono rfl), (k.dram rfl).trans h.2⟩

/-- A write of a whole line needs nothing of what the line held, poison included (R305). -/
theorem writeLine_of_whole (hlen : bs.length = 64) (ha : a % 64 = 0) (harm : s.di.injArm = false) :
    (writeLine s source sl a bs).2 = false ∧ Stored s (writeLine s source sl a bs).1 sl a bs := by
  have hunarmed {t : State} (h : Stored s t sl a bs) (q : Nat) : injectFlips t q a = t :=
    injectFlips_of_unarmed ((congrArg (·.injArm) (h.1.di rfl)).trans harm)
  unfold writeLine
  extract_lets whole r masks keys s1 s2 s3
  have hwhole : whole := ⟨hlen, ha⟩
  have hr : r = (s, linePoisoned s sl a, []) := if_pos (by omega)
  have hs1 : s1 = s := by simp [s1, masks, hr]
  have hclear : Touches { stk := true } s (keys.foldl (fun s k => markSet s k {}) s) := clearWords_touches (f := id)
  have hs2 : Stored s s2 sl a bs := by
    simp only [s2, hs1]
    exact ⟨dramStore_touches (hclear.mono rfl) rfl, dramStore_dram_congr (hclear.dram rfl)⟩
  have hs3 : s3 = s2 := hunarmed hs2 sl
  rw [if_neg (fun h => h.2 hwhole), hs3]
  refine ⟨rfl, ?_⟩
  dsimp only
  split
  next => exact hs2
  next q _ =>
    have hcopy : Stored s (keys.foldl (fun s k => markSet s (k % 2 ^ 30 + q * 2 ^ 30) {}) s2) sl a bs :=
      hs2.thenStk (clearWords_touches (f := fun k => k % 2 ^ 30 + q * 2 ^ 30))
    have hmarked := hunarmed hcopy q
    exact hmarked.symm ▸ hcopy

theorem lineToMemory_of_whole (hlen : bs.length = 64) (ha : a % 64 = 0) (harm : s.di.injArm = false)
    (htwin : s.twn.state = 0) (hplace : linePlace s line = some (sl, a)) :
    Stored s (lineToMemory s line pool seq bs) sl a bs := by
  have hbs : sliceBytes bs 0 64 = bs := by simp [sliceBytes, hlen, List.take_of_length_le]
  have halign : a / 64 * 64 = a := by omega
  obtain ⟨hgood, hstored⟩ := writeLine_of_whole (source := 3) (sl := sl) hlen ha harm
  have hoff : (writeLine s 3 sl a bs).1.twn.state = 0 := by rw [hstored.1.twn rfl, htwin]
  simp only [lineToMemory, hplace, hbs, halign, homeWrite, hgood, mirrorAt_of_off hoff]
  exact hstored

theorem lineToMemory_touches_of_off (htwin : s.twn.state = 0) :
    Touches Mask.writeLine s (lineToMemory s line pool seq bs) := by
  unfold lineToMemory
  split
  next => exact .refl _ s
  next sl a _ =>
    have hwrite : Touches Mask.writeLine s (writeLine s 3 sl (a / 64 * 64) (sliceBytes bs 0 64)).1 :=
      writeLine_touches (.refl _ s) rfl
    have hoff : (writeLine s 3 sl (a / 64 * 64) (sliceBytes bs 0 64)).1.twn.state = 0 := by rw [hwrite.twn rfl, htwin]
    simp only [homeWrite, mirrorAt_of_off hoff]
    split <;> exact hwrite

end Returned

end Sys2Proof.Proofs
end

section
/-! PROOFS. Requests of agents at the home (R167, R180): evictions, and the two statements about RD_S, RD_X and UPG that
leave out where a request comes from. -/

namespace Sys2Proof.Proofs

open Sys2Proof.Machine Sys2Proof.Laws

/-! ### A line at rest -/

section Resting

variable {s u : State} {v : Service} {r : RegionRec} {line sl a j : Nat} {seq : BitVec 32} {data : Option (List Byte)}

/-- A line that no transaction holds, in a slice that serves, with an entry in order that awaits no treatment. -/
structure Resting (s : State) (line sl a : Nat) : Prop where
  place : linePlace s line = some (sl, a)
  serves : sliceFenced s sl = false
  legal : dirLegal (lineShared s line line) (dirGet s line) = true
  clean : ReservesClean s
  idle : s.coh.txns = []
  unswept : s.coh.sweepLeft = []
  verified : s.coh.unverified = []

theorem Resting.of_lookedUp (h : Resting s line sl a) (k : LookedUp s u) : Resting u line sl a := by
  obtain ⟨c, l, rfl⟩ := k
  exact ⟨h.place, h.serves, h.legal, h.clean, h.idle, h.unswept, h.verified⟩

theorem Resting.unverified_eq (h : Resting s line sl a) : unverified s line = false := by
  unfold unverified
  split
  · rfl
  · simp [h.verified]

/-- What the data of a WB does to memory: the line of its owner is stored, any other is dropped (R180). -/
def takeReturned (s : State) (line : Nat) (owner : Bool) (seq : BitVec 32) : Option (List Byte) → State
  | none => s
  | some bs => if owner then lineToMemory s line line seq bs else s

theorem takeReturned_touches {owner : Bool} (htwin : s.twn.state = 0) :
    Touches Mask.writeLine s (takeReturned s line owner seq data) := by
  unfold takeReturned
  split
  · exact .refl _ s
  · exact touches_ite (lineToMemory_touches_of_off htwin) (.refl _ s)

/-- The state in which a WB or EVCT of agent `j` has left the record. -/
def evicted (s : State) (line j : Nat) (seq : BitVec 32) (data : Option (List Byte)) : State :=
  dirSet (takeReturned s line (owns (dirGet s line) j) seq data) line (withoutAgent (dirGet s line) j)

theorem evicted_touches (htwin : s.twn.state = 0) :
    Touches { coh := true, stk := true, di := true, dram := true, parts := true } s (evicted s line j seq data) :=
  dirSet_touches ((takeReturned_touches htwin).mono rfl) rfl

theorem evicted_keeps (htwin : s.twn.state = 0) : (evicted s line j seq data).coh.txns = s.coh.txns ∧
    (evicted s line j seq data).coh.gathered = s.coh.gathered := by
  rw [evicted, dirSet_coh, (takeReturned_touches htwin).coh rfl]
  exact ⟨rfl, rfl⟩

/-- R180: an eviction of a resting line that is not poisoned is answered OK at once. -/
theorem evict_of_resting (h : Resting s line sl a) (hline : v.req.pkt.addr.toNat / 64 * 64 = line)
    (htwin : s.twn.state = 0) (hagent : agentIndex s (addrPart line) v.req.pkt.src.toNat = some j)
    (hlive : (dirGet s line).st ≠ .P) :
    ∃ u, LookedUp s u ∧ evict s v data = finish (evicted u line j v.req.pkt.seq data) v { status := .ok } := by
  have hlook := readEntry_of_legal (half := halfOf sl) h.clean h.legal
  refine ⟨_, hlook, ?_⟩
  simp only [evict, hline, h.place, hagent, h.serves, touchLine_of_unswept h.unswept, ite_self,
    Bool.false_eq_true, if_false]
  generalize readEntry s (halfOf sl) line line = u at hlook
  have hu := h.of_lookedUp hlook
  have hstays : (dirGet u line).st ≠ .P := by
    obtain ⟨c, l, rfl⟩ := hlook
    exact hlive
  have hutwin : u.twn.state = 0 := by rw [hlook.touches.twn rfl, htwin]
  have hidle : (evicted u line j v.req.pkt.seq data).coh.txns = [] := (evicted_keeps hutwin).1.trans hu.idle
  have hoff : (evicted u line j v.req.pkt.seq data).twn.state = 0 := by
    rw [(evicted_touches hutwin).twn rfl, hutwin]
  simp only [hu.unverified_eq, Bool.false_eq_true, if_false, hstays, ← reply_of_off hoff]
  cases data <;> exact hidle ▸ rfl

end Resting

/-! ### A request that its home has taken up -/

section Prepared

variable {s t u : State} {line sl a clk p n : Nat}

/-- The home is about to act: the request has been translated, and the entry of its line looked up. -/
def Prepared (s u : State) : Prop :=
  ∃ (now : Nat) (buffers : List Buffer) (parts : Tbl Partition) (cache : Tbl (List (Nat × Nat)))
      (halves : List CohHalf),
    u = { s with td := { s.td with now := now }, eng := { s.eng with buffers := buffers }, parts := parts,
                 coh := { s.coh with cache := cache, halves := halves } }

theorem prepared_of_walked (h : Walked (seenClk s clk) u) : Prepared s u := by
  obtain ⟨b, ps, rfl⟩ := h
  exact ⟨_, b, ps, _, _, rfl⟩

theorem Prepared.lookedUp (h : Prepared s t) (k : LookedUp t u) : Prepared s u := by
  obtain ⟨n, b, ps, _, _, rfl⟩ := h
  obtain ⟨c, l, rfl⟩ := k
  exact ⟨n, b, ps, c, l, rfl⟩

theorem Prepared.resting (h : Prepared s u) (k : Resting s line sl a) : Resting u line sl a := by
  obtain ⟨_, _, _, _, _, rfl⟩ := h
  exact ⟨k.place, k.serves, k.legal, k.clean, k.idle, k.unswept, k.verified⟩

theorem Prepared.dirGet_eq (h : Prepared s u) : dirGet u line = dirGet s line := by
  obtain ⟨_, _, _, _, _, rfl⟩ := h
  rfl

theorem Prepared.stk (h : Prepared s u) : u.stk = s.stk := by
  obtain ⟨_, _, _, _, _, rfl⟩ := h
  rfl

theorem Prepared.twn (h : Prepared s u) : u.twn = s.twn := by
  obtain ⟨_, _, _, _, _, rfl⟩ := h
  rfl

theorem Prepared.di (h : Prepared s u) : u.di = s.di := by
  obtain ⟨_, _, _, _, _, rfl⟩ := h
  rfl

theorem Prepared.agentIndex_eq (h : Prepared s u) : agentIndex u p n = agentIndex s p n := by
  obtain ⟨_, _, _, _, _, rfl⟩ := h
  rfl

theorem Prepared.gathered (h : Prepared s u) : u.coh.gathered = s.coh.gathered := by
  obtain ⟨_, _, _, _, _, rfl⟩ := h
  rfl

end Prepared

/-! ### A request at its home -/

section Home

variable {s : State} {v : Service} {r : RegionRec} {sl a j clk : Nat} (h : AtHome s v r sl a j)
include h

theorem line_of_atHome : v.req.pkt.addr.toNat / 64 * 64 = v.req.pkt.addr.toNat := by
  obtain ⟨-, halign, -⟩ := h
  omega

theorem linePlace_of_atHome : linePlace s v.req.pkt.addr.toNat = some (sl, a) := by
  obtain ⟨-, -, hplace, -⟩ := h
  rw [linePlace, if_pos v.req.pkt.addr.isLt]
  simp only [hplace]

theorem resting_of_atHome : Resting s v.req.pkt.addr.toNat sl a := by
  have hplace := linePlace_of_atHome h
  obtain ⟨⟨-, -, -, htxns, -⟩, -, -, -, -, -, -, -, hserves, -, -, hsweep, -, hverified, -, hlegal, hclean, -⟩ := h
  exact ⟨hplace, hserves, hlegal, hclean, htxns, hsweep, hverified⟩

theorem coherentLine_of_atHome : coherentLine s v.req.pkt.addr.toNat = true := by
  obtain ⟨-, -, hplace, hkind, -⟩ := h
  simp only [coherentLine, hplace, hkind]

theorem agentFenced_of_atHome : agentFenced s v = false := by
  obtain ⟨-, -, -, -, -, -, -, -, -, hagent, hfenced, -⟩ := h
  simp [agentFenced, hagent, hfenced]

theorem agentIndex_of_atHome : agentIndex s (addrPart v.req.pkt.addr.toNat) v.req.pkt.src.toNat = some j := by
  obtain ⟨-, -, -, -, -, -, -, -, -, hagent, -⟩ := h
  exact hagent

theorem unarmed_of_atHome : s.di.injArm = false := by
  obtain ⟨-, -, -, -, -, -, -, -, -, -, -, -, -, -, -, -, -, -, harm⟩ := h
  exact harm

theorem localAddress_of_atHome : a % 64 = 0 ∧ a < 2 ^ 33 := by
  obtain ⟨-, -, -, -, -, ha, hroom, -⟩ := h
  exact ⟨ha, hroom⟩

theorem serveEvict_of_atHome {o : Op} (hop : pktOp v.req.pkt = o) : serveEvict (seenClk s clk) v.ticket o =
    settle (evict (translateRequest (seenClk s clk) v v.req.pkt.addr.toNat 64) v
      (if o = .wb then some v.req.pkt.payload else none)) := by
  have hseen : AtHome (seenClk s clk) v r sl a j := h
  have halone := hseen.1
  have hsvc : s.svc = [v] := (single_of_alone h.1).svc
  have htxns : s.coh.txns = [] := (single_of_alone h.1).txns
  have hunserved : earlierUnserved (seenClk s clk) v = false := by simp [earlierUnserved, hsvc]
  simp [serveEvict, svcFind_of_alone h.1, hop, notStopped_of_alone halone, notBegun_of_alone halone, hunserved,
    (noneEarlier_of_alone halone).2, htxns, coherentLine_of_atHome hseen, agentFenced_of_atHome hseen,
    twinFirst_of_alone halone]

theorem prepared_translateRequest : Prepared s (translateRequest (seenClk s clk) v v.req.pkt.addr.toNat 64) := by
  have hclean : ReservesClean (seenClk s clk) := (resting_of_atHome h).clean
  exact prepared_of_walked (translateRequest_walks hclean)

/-- R180: an eviction of a line in a live state leaves the record, and is answered OK at once. -/
theorem serveEvict_evicts {o : Op} {e : DirEntry} {data : Option (List Byte)} (hop : pktOp v.req.pkt = o)
    (hdata : (if o = .wb then some v.req.pkt.payload else none) = data) (he : dirGet s v.req.pkt.addr.toNat = e)
    (hlive : e.st ≠ .P) :
    ∃ u, Prepared s u ∧ serveEvict (seenClk s clk) v.ticket o =
      finish (evicted u v.req.pkt.addr.toNat j v.req.pkt.seq data) v { status := .ok } := by
  have hsingle : Single s v := single_of_alone h.1
  have hw := prepared_translateRequest h (clk := clk)
  obtain ⟨u, hlook, hevict⟩ := evict_of_resting (data := data) (hw.resting (resting_of_atHome h)) (line_of_atHome h)
    ((congrArg (·.state) hw.twn).trans hsingle.twin) (hw.agentIndex_eq.trans (agentIndex_of_atHome h))
    (by rwa [hw.dirGet_eq, he])
  have hu := hw.lookedUp hlook
  have htwin : u.twn.state = 0 := (congrArg (·.state) hu.twn).trans hsingle.twin
  refine ⟨u, hu, ?_⟩
  rw [serveEvict_of_atHome h hop, hdata, hevict, settle_of_ungathered]
  rw [(finish_touches (.refl Mask.finish _) rfl).coh rfl, (evicted_keeps htwin).2, hu.gathered, hsingle.gathered]

end Home

/-! ### What an eviction leaves of the record -/

section Records

variable {s : State} {line j m : Nat} {seq : BitVec 32} {bs : List Byte}

theorem evicted_of_owner (he : dirGet s line = { st := .X, owner := j, sharers := 1 <<< j }) :
    evicted s line j seq (some bs) = dirSet (lineToMemory s line line seq bs) line {} := by
  simp [evicted, he, takeReturned, owns, withoutAgent, withoutSharer, bitOf]

theorem evicted_of_sharer (he : dirGet s line = { st := .S, sharers := m }) (hj : m.testBit j = true)
    (hm : m ≠ 1 <<< j) :
    evicted s line j seq none = dirSet s line { st := .S, sharers := m ^^^ (1 <<< j) } := by
  simp [evicted, he, takeReturned, withoutAgent, withoutSharer, bitOf, hj, hm]

theorem evicted_of_stranger (he : dirGet s line = { st := .S, sharers := m }) (hj : m.testBit j = false) (hm : m ≠ 0) :
    evicted s line j seq (some bs) = dirSet s line { st := .S, sharers := m } := by
  simp [evicted, he, takeReturned, owns, withoutAgent, withoutSharer, hj, hm]

end Records

theorem exec_wb {ticket clk : Nat} {s : State} :
    exec (.wb ticket clk) s = .next (serveEvict (seenClk s clk) ticket .wb) := rfl

theorem exec_evct {ticket clk : Nat} {s : State} :
    exec (.evct ticket clk) s = .next (serveEvict (seenClk s clk) ticket .evct) := rfl

/-- Settles O40: the home looks the entry up and takes the agent out of the record; only an owner's line is stored. -/
theorem evictionsLeaveTheRecord : Obligations.EvictionsLeaveTheRecord := by
  intro clk s v r sl a j m addr e h
  refine ⟨fun hop hlen he _ => ?owner, fun hop he hj hm => ?sharer, fun hop he hj hm => ?stranger⟩
  case owner =>
    obtain ⟨u, hu, hserve⟩ := serveEvict_evicts (clk := clk) h hop (if_pos rfl) he DirState.noConfusion
    have hrest := hu.resting (resting_of_atHome h)
    obtain ⟨ha, hroom⟩ := localAddress_of_atHome h
    have hfit : a + v.req.pkt.payload.length ≤ 2 ^ 33 := by omega
    have hstored : Stored u (lineToMemory u addr addr v.req.pkt.seq v.req.pkt.payload) sl a v.req.pkt.payload :=
      lineToMemory_of_whole hlen ha ((congrArg (·.injArm) hu.di).trans (unarmed_of_atHome h))
        ((congrArg (·.state) hu.twn).trans (single_of_alone h.1).twin) hrest.place
    have hdram : (dirSet (lineToMemory u addr addr v.req.pkt.seq v.req.pkt.payload) addr {}).stk.dram =
        (dramStore s sl a v.req.pkt.payload).stk.dram := by
      rw [dirSet_dram, hstored.2]
      exact dramStore_dram_congr (congrArg (·.dram) hu.stk)
    refine ⟨_, ?_, dirGet_dirSet_self, hlen ▸ dramBytes_of_store hdram hfit, hlen ▸ dramKeptBut_of_store hdram hfit, ?_⟩
    · rw [exec_wb, hserve, evicted_of_owner (hu.dirGet_eq.trans he)]
    · rw [dirSet_coh, hstored.1.coh rfl]
      exact hrest.idle
  case sharer =>
    obtain ⟨u, hu, hserve⟩ := serveEvict_evicts (clk := clk) h hop (if_neg Op.noConfusion) he DirState.noConfusion
    refine ⟨_, ?_, dirGet_dirSet_self, dirSet_dram.trans (congrArg (·.dram) hu.stk)⟩
    rw [exec_evct, hserve, evicted_of_sharer (hu.dirGet_eq.trans he) hj hm]
  case stranger =>
    obtain ⟨u, hu, hserve⟩ := serveEvict_evicts (clk := clk) h hop (if_pos rfl) he DirState.noConfusion
    refine ⟨_, ?_, dirGet_dirSet_self.trans he.symm, dirSet_dram.trans (congrArg (·.dram) hu.stk)⟩
    rw [exec_wb, hserve, evicted_of_stranger (hu.dirGet_eq.trans he) hj hm]

end Sys2Proof.Proofs
end

section
/-! PROOFS. Coherent requests of an Ethernet host (R167): they end FAULT at any line, so two statements about RD_S, RD_X
and UPG do not hold of every request that `AtHome` admits. -/

namespace Sys2Proof.Proofs

open Sys2Proof.Machine Sys2Proof.Laws

/-! ### A requester that is not a node of the fabric -/

section Hosts

variable {s : State} {v : Service} {r : RegionRec} {sl a j clk : Nat}

theorem jobRequester_of_host {q : LineJob} (hhost : ∀ port, q.svc.req.origin ≠ .fabric port) :
    jobRequester s q = none := by
  unfold jobRequester
  split
  next port h => exact absurd h (hhost port)
  next => rfl

/-- R167: a coherent request of no caching agent ends FAULT, whatever its line. -/
theorem startJob_of_host {q : LineJob} (hhost : ∀ port, q.svc.req.origin ≠ .fabric port) (hop : isAgentOp q.op = true)
    (hsweep : s.coh.sweepLeft = []) (htwin : s.twn.state = 0) :
    startJob s q = finish s q.svc { status := .fault, addr := some q.addr } := by
  have hkept : (if hasTxn s q.line then s else touchLine s q.line (q.addr / 64 * 64)) = s := by
    rw [touchLine_of_unswept hsweep, ite_self]
  rw [← reply_of_off htwin]
  simp [startJob, hkept, jobRequester_of_host hhost, hop, endJob]

/-- The one piece of an agent's request: the whole line. -/
def agentJob (v : Service) (op : LineOp) : LineJob :=
  { svc := v, op := op, line := v.req.pkt.addr.toNat / 64 * 64, addr := v.req.pkt.addr.toNat, idx := 0, len := 64,
    bytes := [] }

theorem serveAgent_of_atHome {o : Op} {op : LineOp} (h : AtHome s v r sl a j) (hop : pktOp v.req.pkt = o) :
    serveAgent (seenClk s clk) v.ticket o op =
      settle (startJob (translateRequest (seenClk s clk) v v.req.pkt.addr.toNat 64) (agentJob v op)) := by
  have hseen : AtHome (seenClk s clk) v r sl a j := h
  have halone := hseen.1
  obtain ⟨hsame, hhome⟩ := noneEarlier_of_alone halone
  simp [serveAgent, svcFind_of_alone h.1, hop, notStopped_of_alone halone, notBegun_of_alone halone, hsame, hhome,
    coherentLine_of_atHome hseen, agentFenced_of_atHome hseen, twinFirst_of_alone halone, agentJob]

/-- An RD_S of an Ethernet host opens no transaction. -/
theorem exec_rdS_of_host (h : AtHome s v r sl a j) (hop : pktOp v.req.pkt = .rdS)
    (hhost : ∀ port, v.req.origin ≠ .fabric port) :
    ∃ t, exec (.rdS v.ticket clk) s = .next t ∧ t.coh.txns = [] := by
  have hsingle : Single s v := single_of_alone h.1
  have hu := prepared_translateRequest h (clk := clk)
  have hrest := hu.resting (resting_of_atHome h)
  have hcoh (ans : Ans) : (finish (translateRequest (seenClk s clk) v v.req.pkt.addr.toNat 64) v ans).coh =
      (translateRequest (seenClk s clk) v v.req.pkt.addr.toNat 64).coh :=
    (finish_touches (.refl Mask.finish _) rfl).coh rfl
  refine ⟨_, congrArg Host.Outcome.next (serveAgent_of_atHome h hop), ?_⟩
  rw [startJob_of_host (q := agentJob v .rdS) hhost rfl hrest.unswept ((congrArg (·.state) hu.twn).trans hsingle.twin),
    settle_of_ungathered]
  · exact (congrArg (·.txns) (hcoh _)).trans hrest.idle
  · exact (congrArg (·.gathered) (hcoh _)).trans (hu.gathered.trans hsingle.gathered)

end Hosts

/-! ### Where it happens -/

/-- A region of one unit, coherent. -/
def hostRegion : RegionRec :=
  { part := 0, kind := 0, flash := false, gib := false, twinned := false, index := 0, start := 0, size := 1, twin := 0 }

/-- An RD_S of an Ethernet host at line 0, whose packet names node 0, agent 0 of partition 0, as its source. -/
def hostRdS : Service :=
  { ticket := 0, key := 0, req := { pkt := newPacket State.reset .rdS 0 0 0 0 [], origin := .ethRead 0 0 },
    headroom := none }

/-- The home, free to serve that request at a line whose directory is given. -/
def hostAsks (dir : Tbl DirEntry) : State :=
  { State.reset with
    svc := [hostRdS]
    coh := { dir := dir }
    eng := { pte := [(0, .mapped 0)] }
    img := { layout := {
      hedges := [{ hedge := 0, mode := 0, members := [(false, 0)] }]
      parts := [{ part := 0, conf := false, root := 0, regions := 1, outdig := false, flashCache := 0 }]
      regions := [hostRegion]
      allots := [{ key := flowNat 0 false 0, allot := 1, burst := 1 }] } } }

theorem atHome_hostAsks {dir : Tbl DirEntry}
    (hlegal : dirLegal (lineShared (hostAsks dir) 0 0) (dirGet (hostAsks dir) 0) = true) :
    AtHome (hostAsks dir) hostRdS hostRegion 0 0 0 := by
  have hidle : (partGet (hostAsks dir) 0).st ≠ .resetting := (PState.noConfusion : PState.unused ≠ .resetting)
  refine ⟨⟨rfl, fun _ _ => Origin.noConfusion, rfl, rfl, rfl, rfl, rfl, rfl, rfl, rfl, hidle⟩, rfl, rfl, rfl, rfl, rfl,
    by decide, Nat.zero_lt_two, rfl, rfl, rfl, rfl, rfl, rfl, ?_, hlegal,
    ⟨fun _ _ _ _ _ _ _ => rfl, fun _ _ _ _ _ => rfl⟩, rfl, rfl⟩
  exact List.any_eq_true.2 ⟨0, by decide, by simp [wayServes, cacheGet, hostAsks, tblGet]⟩

/-- Refutes O38: `AtHome` rules out an engine's request, but not an Ethernet host's. A host's RD_S of a line in I, whose
packet names the node of agent 0 as its source, ends FAULT (R167) and opens no transaction. -/
theorem not_homeGrantsFromMemory : ¬ Obligations.HomeGrantsFromMemory := by
  intro h
  have hhome := atHome_hostAsks (dir := []) rfl
  obtain ⟨hgranted, -⟩ := h 0 (hostAsks []) hostRdS hostRegion 0 0 0 hhome
  obtain ⟨u, x, hrun, -, htxns, -⟩ := hgranted (by decide) (by decide +kernel)
  obtain ⟨t, hran, hnone⟩ := exec_rdS_of_host (clk := 0) hhome (by decide) (fun _ => Origin.noConfusion)
  have hopen := Host.Outcome.next.inj (hran.symm.trans hrun)
  rw [hopen, (finish_touches (.refl Mask.finish u) rfl).coh rfl, htxns] at hnone
  exact absurd hnone (List.cons_ne_nil x [])

/-- An entry of a line that agent 1 owns. -/
def ownedByOne : DirEntry := { st := .X, owner := 1, sharers := 1 <<< 1 }

/-- Refutes O39: the host's RD_S of O38, at a line that agent 1 owns. It ends FAULT (R167): no snoop is sent, and no
transaction waits in BF. -/
theorem not_homeAsksItsHolders : ¬ Obligations.HomeAsksItsHolders := by
  intro h
  have hhome := atHome_hostAsks (dir := [(0, ownedByOne)]) (by decide +kernel)
  obtain ⟨hwaits, -⟩ := h 0 (hostAsks [(0, ownedByOne)]) hostRdS hostRegion 0 0 0 1 0 hhome
  obtain ⟨t, x, hrun, -, htxns, -⟩ := hwaits (by decide) (by decide +kernel) (by decide) (by decide)
  obtain ⟨u, hran, hnone⟩ := exec_rdS_of_host (clk := 0) hhome (by decide) (fun _ => Origin.noConfusion)
  rw [Host.Outcome.next.inj (hran.symm.trans hrun), htxns] at hnone
  exact absurd hnone (List.cons_ne_nil x [])

end Sys2Proof.Proofs
end

section
/-! PROOFS. Silent and fenced agents (R181, R184): the answer timeout, and the sweep of one line of a fenced agent. -/

namespace Sys2Proof.Proofs

open Sys2Proof.Machine Sys2Proof.Laws

/-! ### Silent agents (R181) -/

section Silent

variable {s : State} {t : Txn} {l : List Nat} {j m : Nat}

theorem testBit_foldl_withSharer : (l.foldl withSharer m).testBit j = (m.testBit j || decide (j ∈ l)) := by
  induction l generalizing m with
  | nil => simp
  | cons k l ih =>
    have hbit : (bitOf k).testBit j = decide (j = k) := by
      rw [bitOf, Nat.one_shiftLeft, Nat.testBit_two_pow]
      exact decide_eq_decide.2 eq_comm
    rw [List.foldl_cons, ih, withSharer, Nat.testBit_or, hbit]
    simp [Bool.or_assoc]

/-- The awaited agents of a transaction are marked, and the interrupt is raised. -/
def markSilent (s : State) (t : Txn) : State :=
  partMod { noteFlags s ((awaited t).map (fun n => 1024 + 64 * t.part + n)) with
      di := { s.di with irq := true }, coh := { s.coh with txns := [{ t with stalled := true }] } }
    t.part (fun x => { x with stall := (awaited t).foldl withSharer x.stall })

/-- R181: STO frames bound the silence of a transaction's agents. -/
theorem exec_cohAnswerTimeout_of_one (htxns : s.coh.txns = [t]) : exec (.cohAnswerTimeout t.id) s =
    if t.stalled ∨ s.td.ptime < t.since + s.coh.sto then .next s else .next (markSilent s t) := by
  show execCohAnswerTimeout t.id s = _
  simp [execCohAnswerTimeout, htxns, putTxn, frameOf, markSilent]

theorem stall_markSilent (h : j ∈ awaited t) : (partGet (markSilent s t) t.part).stall.testBit j = true := by
  rw [markSilent, partGet_partMod_self, testBit_foldl_withSharer, decide_eq_true h, Bool.or_true]

end Silent

/-! ### A line of a fenced agent (R184) -/

section Swept

variable {s u w : State} {half p line pool j m : Nat}

/-- The partition has no sweep under way. -/
def sweepEnded (s : State) (p : Nat) : State := partMod s p (fun x => { x with sweep := none })

theorem partGet_sweepEnded : partGet (sweepEnded s p) p = { partGet s p with sweep := none } := partGet_partMod_self

theorem sweepEnded_sweep : (partGet (sweepEnded s p) p).sweep = none := by rw [partGet_sweepEnded]

theorem dirGet_sweepEnded : dirGet (sweepEnded s p) line = dirGet s line := rfl

theorem endSweep_of_swept (h : s.coh.sweepLeft = []) : endSweep s p = sweepEnded s p := if_neg (by simp [h])

/-- The last line to be swept awaits no treatment any more. -/
theorem sweptLine_of_one (h : s.coh.sweepLeft = [(p, line, j)]) :
    sweptLine s p line = sweepEnded { s with coh := { s.coh with sweepLeft := [] } } p := by
  simp only [sweptLine, h, List.filter_cons, List.filter_nil, decide_true, Bool.and_self, Bool.not_true,
    Bool.false_eq_true, if_false]
  exact endSweep_of_swept rfl

/-- A line with one treatment due, which needs no recovery. -/
theorem touchLine_of_one (h : s.coh.sweepLeft = [(addrPart line, line, j)])
    (htreat : treatStable (readEntry (sweptLine s (addrPart line) line) (lineHalf s line) line pool) (lineHalf s line)
      (addrPart line) line j = (w, false)) : touchLine s line pool = w := by
  have horder (k : Nat) (x : Nat × Nat × Nat) : [x].filter (fun x => decide (x.2.2 ≠ k)) ++
      [x].filter (fun x => decide (x.2.2 = k)) = [x] := by
    by_cases hx : x.2.2 = k <;> simp [hx]
  have hdue : s.coh.sweepLeft.filter (fun x => x.1 = addrPart line && x.2.1 = line) = [(addrPart line, line, j)] := by
    simp [h]
  simp only [touchLine, hdue, horder, List.foldl_cons, List.foldl_nil, htreat]

theorem treatStable_of_sharer (he : dirGet s line = { st := .S, sharers := m }) (hj : m.testBit j = true)
    (hm : m ≠ 1 <<< j) :
    treatStable s half p line j = (dirSet s line { st := .S, sharers := m ^^^ (1 <<< j) }, false) := by
  simp [treatStable, he, withoutSharer, bitOf, hj, hm]

theorem treatStable_of_owner (he : dirGet s line = { st := .X, owner := j, sharers := 1 <<< j }) :
    treatStable s half p line j = (enterP s half p line (line % 2 ^ 52), false) := by
  simp only [treatStable, he, if_true]

theorem enterP_partGet : partGet (enterP s half p line pool) p = { partGet s p with
    cnt := { (partGet s p).cnt with poisoned := sat16 (partGet s p).cnt.poisoned, poisonAddr := pool } } := by
  have hparts : partGet (halfMod (dirSet s line { st := .P }) half fun x => { x with poisoned := sat16 x.poisoned }) p =
      partGet s p := by
    show tblGet _ (dirSet s line { st := .P }).parts p = _
    rw [dirSet_parts]
    rfl
  rw [enterP, partCnt, partGet_partMod_self, hparts]

theorem enterP_dirGet : dirGet (enterP s half p line pool) line = { st := .P } := dirGet_dirSet_self

theorem enterP_keeps : (enterP s half p line pool).coh.sweepLeft = s.coh.sweepLeft ∧
    (enterP s half p line pool).svc = s.svc := by
  refine ⟨?_, (enterP_touches (.refl Mask.enterP s) rfl).svc rfl⟩
  show (dirSet s line { st := .P }).coh.sweepLeft = _
  rw [dirSet_coh]

/-- The home has looked up the entry of the last line that awaits the treatment of a fenced agent. -/
theorem looksUp_sweptLine (h : s.coh.sweepLeft = [(p, line, j)]) (hclean : ReservesClean s)
    (hlegal : dirLegal (lineShared s line pool) (dirGet s line) = true) :
    LookedUp (sweepEnded { s with coh := { s.coh with sweepLeft := [] } } p)
      (readEntry (sweptLine s p line) half line pool) := by
  rw [sweptLine_of_one h]
  exact readEntry_of_legal hclean hlegal

/-- R184: the sweep of the last line that awaits it. -/
theorem exec_fenceSweepLine_of_one {part : Fin 32} (h : s.coh.sweepLeft = [(part.val, line, j)])
    (htxns : s.coh.txns = []) (hpart : addrPart line = part.val) (hline : line < 2 ^ 52)
    (htreat : treatStable (readEntry (sweptLine s part line) (lineHalf s line) line line) (lineHalf s line)
      part line j = (w, false)) (hleft : w.coh.sweepLeft = []) (hsvc : w.svc = []) :
    exec (.fenceSweepLine part line) s = .next (sweepEnded w part) := by
  have htouch : treatLine s part line j = w := by
    simp only [treatLine, htxns, List.find?_nil, Nat.mod_eq_of_lt hline]
    exact touchLine_of_one (by rw [hpart]; exact h) (by rw [hpart]; exact htreat)
  show execFenceSweepLine part line s = _
  simp only [execFenceSweepLine, h, List.filter_cons, List.filter_nil, decide_true, Bool.and_self, if_true,
    List.map_cons, List.map_nil, List.foldl_cons, List.foldl_nil, htouch, endSweep_of_swept hleft]
  exact congrArg _ (settle_of_none hsvc)

end Swept

/-- Settles O42: the timeout marks the agents awaited once; the sweep of the last line treats its one agent by the
record, which a look-up has left as it stood. -/
theorem silentAndFencedAgents : Obligations.SilentAndFencedAgents := by
  refine ⟨fun id s t htxns hid => ⟨fun hstall hsilent => ?silent, fun hwaits => ?waits⟩,
    fun part line j m s hsweep htxns hsvc hpart hline _ _ hclean hlegal => ?swept⟩
  case silent =>
    subst hid
    rw [exec_cohAnswerTimeout_of_one htxns, if_neg (by simp [hstall, hsilent])]
    exact ⟨_, rfl, rfl, rfl, fun j => stall_markSilent, rfl⟩
  case waits =>
    subst hid
    rw [exec_cohAnswerTimeout_of_one htxns, if_pos hwaits]
  case swept =>
    have hlook := looksUp_sweptLine (half := lineHalf s line) hsweep hclean hlegal
    have hsweeps {w : State} := exec_fenceSweepLine_of_one (w := w) hsweep htxns hpart hline
    generalize readEntry (sweptLine s part line) (lineHalf s line) line line = u at hlook hsweeps
    have hentry : dirGet u line = dirGet s line := hlook.dirGet_eq
    have hparts : partGet u part = { partGet s part with sweep := none } := hlook.partGet_eq.trans partGet_sweepEnded
    have hleft : u.coh.sweepLeft = [] := hlook.sweepLeft
    have husvc : u.svc = [] := (hlook.touches.svc rfl).trans hsvc
    refine ⟨fun he hbit hm => ?sharer, fun he => ?owner⟩
    case sharer =>
      have htreat := treatStable_of_sharer (half := lineHalf s line) (p := part) (hentry.trans he) hbit hm
      have hkept : (dirSet u line { st := .S, sharers := m ^^^ (1 <<< j) }).coh.sweepLeft = [] := by
        rw [dirSet_coh, hleft]
      exact ⟨_, hsweeps htreat hkept ((dirSet_svc ..).trans husvc),
        dirGet_sweepEnded.trans dirGet_dirSet_self, hkept, sweepEnded_sweep⟩
    case owner =>
      have htreat := treatStable_of_owner (half := lineHalf s line) (p := part) (hentry.trans he)
      obtain ⟨hkept, hserves⟩ := enterP_keeps (s := u) (half := lineHalf s line) (p := part) (line := line)
        (pool := line % 2 ^ 52)
      have hcount :
          (partGet (sweepEnded (enterP u (lineHalf s line) part line (line % 2 ^ 52)) part) part).cnt.poisoned =
            min 65535 ((partGet s part).cnt.poisoned + 1) := by
        rw [partGet_sweepEnded, enterP_partGet, hparts]
        exact sat16_eq _
      exact ⟨_, hsweeps htreat (hkept.trans hleft) (hserves.trans husvc), dirGet_sweepEnded.trans enterP_dirGet,
        hkept.trans hleft, sweepEnded_sweep, hcount⟩

end Sys2Proof.Proofs
end

section
/-! PROOFS. Answers of agents to the home (R174, R180, R181): with one transaction open, what each answer does to it. -/

namespace Sys2Proof.Proofs

open Sys2Proof.Machine Sys2Proof.Laws

/-! ### The end of a transaction (R181) -/

section Ends

variable {s : State} {t : Txn} {who : Nat → Bool} {half line : Nat}

/-- Nothing waits at the home: no line for a treatment, no recovery, no copy. -/
structure Quiet (s : State) : Prop where
  unswept : s.coh.sweepLeft = []
  recovered : s.coh.recoveries = []
  placed : s.coh.placing = []

theorem releaseOwed_of_none (h : t.owed = []) : releaseOwed s t who = (s, t) := by
  cases t
  cases h
  rfl

theorem leaveWay_eq : ∃ cache, leaveWay s half line = { s with coh := { s.coh with cache := cache } } := by
  unfold leaveWay
  extract_lets ways keep
  split
  · exact ⟨_, rfl⟩
  · split
    · exact ⟨_, rfl⟩
    · exact ⟨_, rfl⟩

theorem startRecovery_of_none (h : s.coh.recoveries = []) : startRecovery s half = s := by
  simp only [startRecovery, h, takeFirst]

theorem startPlacing_of_none (h : s.coh.placing = []) : startPlacing s = s := by simp only [startPlacing, h]

/-- Without transactions, and with the ways of a line that had to be kept while one was open given up. -/
def ended (s : State) (cache : Tbl (List (Nat × Nat))) : State :=
  { s with coh := { s.coh with txns := [], cache := cache } }

/-- The only transaction ends, with nothing owed and nothing behind it. -/
theorem endTxn_of_one (hquiet : Quiet s) (htxns : s.coh.txns = [t]) (howed : t.owed = []) (hqueued : t.queued = []) :
    ∃ cache, endTxn s t = ended s cache := by
  obtain ⟨hsweep, hrecovered, hplaced⟩ := hquiet
  obtain ⟨cache, hleave⟩ := leaveWay_eq (s := dropTxn s t.id) (half := t.half) (line := t.line)
  have hdrop : dropTxn s t.id = { s with coh := { s.coh with txns := [] } } := by simp [dropTxn, htxns]
  refine ⟨cache, ?_⟩
  rw [endTxn, releaseOwed_of_none howed]
  dsimp only
  rw [startRecovery_of_none (s := dropTxn s t.id) hrecovered, touchLine_of_unswept (s := dropTxn s t.id) hsweep,
    hqueued, serveQueue, hleave, startPlacing_of_none (by exact hplaced), hdrop]
  rfl

end Ends

/-! ### Sunk answers -/

section Sunk

variable {s : State} {x : Sunk} {clk : Nat}

/-- The state in which the home meets the one sunk packet. -/
def met (s : State) (clk : Nat) : State := inboxEmptied (seenClk s clk)

theorem exec_snpRsp_of_one (hin : s.fab.inbox = [x]) (hop : pktOp x.pkt = .snpRsp) :
    exec (.snpRsp clk) s = .next (settle (snoopAnswer (met s clk) x.pkt none)) := by
  show execSnpRsp clk s = _
  simp only [execSnpRsp,
    takeInbox_of_one (s := seenClk s clk) (f := fun p => pktOp p = .snpRsp) hin (decide_eq_true hop), met]

theorem exec_snpData_of_one (hin : s.fab.inbox = [x]) (hop : pktOp x.pkt = .snpData) :
    exec (.snpData clk) s = .next (settle (snoopAnswer (met s clk) x.pkt (some x.pkt.payload))) := by
  show execSnpData clk s = _
  simp only [execSnpData,
    takeInbox_of_one (s := seenClk s clk) (f := fun p => pktOp p = .snpData) hin (decide_eq_true hop), met]

theorem exec_fwdData_of_one (hin : s.fab.inbox = [x]) (hop : pktOp x.pkt = .fwdData) :
    exec (.fwdData clk) s = .next (settle (forwardData (met s clk) x.pkt)) := by
  show execFwdData clk s = _
  simp only [execFwdData,
    takeInbox_of_one (s := seenClk s clk) (f := fun p => pktOp p = .fwdData) hin (decide_eq_true hop), met]

/-- A CMP is a grant acknowledgement where no twin packet is unanswered. -/
theorem exec_grantAcknowledgement_of_one (hin : s.fab.inbox = [x]) (hop : pktOp x.pkt = .cmp)
    (hsent : s.twn.sent = []) :
    exec (.grantAcknowledgement clk) s = .next (settle (grantAck (met s clk) x.pkt)) := by
  have hgrant : (pktOp x.pkt = .cmp && !isTwinCmp s x.pkt) = true := by simp [hop, isTwinCmp, hsent]
  show execGrantAcknowledgement clk s = _
  simp only [execGrantAcknowledgement,
    takeInbox_of_one (s := seenClk s clk) (f := fun p => pktOp p = .cmp && !isTwinCmp s p) hin hgrant, met]

end Sunk

/-! ### What each answer does -/

section Answers

variable {s : State} {t : Txn} {p : Packet} {q : LineJob} {data : Option (List Byte)} {a k : Nat}

theorem snoopAnswer_of_stray (htxns : s.coh.txns = []) :
    snoopAnswer s p data = proto s (lineHalf s (p.addr.toNat / 64 * 64)) := by
  simp [snoopAnswer, htxns]

theorem forwardData_of_stray (htxns : s.coh.txns = []) : forwardData s p = proto s 0 := by simp [forwardData, htxns]

theorem grantAck_of_stray (htxns : s.coh.txns = []) : grantAck s p = proto s (lineHalf s (p.addr.toNat / 64 * 64)) := by
  simp [grantAck, htxns]

/-- What an answer in BI brings goes to memory, where the transaction keeps it. -/
def storeAnswer (s : State) (t : Txn) (seq : BitVec 32) : Option (List Byte) → State
  | none => s
  | some bs => if t.step = .discard then s else lineToMemory s t.line t.pool (causeSeq t seq) bs

/-- The first of two answers awaited in BI. -/
theorem snoopAnswer_of_first (htxns : s.coh.txns = [t])
    (hagent : agentIndex s (addrPart (p.addr.toNat / 64 * 64)) p.src.toNat = some a)
    (hpool : t.pool = p.addr.toNat / 64 * 64) (hseq : t.seq = p.seq.toNat) (howed : t.owed = []) (hbusy : t.busy = .BI)
    (hpend : t.pend = [a, k]) (hne : a ≠ k) :
    snoopAnswer s p data = putTxn (storeAnswer s t p.seq data) { t with pend := [k] } := by
  have hrest : [a, k].filter (· != a) = [k] := by simp [hne.symm]
  have hmeets : t.busy = .BI ∧ t.pend.contains a := ⟨hbusy, by simp [hpend]⟩
  have hfind : s.coh.txns.find? (fun t => t.pool = p.addr.toNat / 64 * 64 && t.seq = p.seq.toNat) = some t := by
    simp [htxns, hpool, hseq]
  have hanswer (u : State) : answerBI u t a = putTxn u { t with pend := [k] } := by
    rw [answerBI, hpend, hrest, releaseOwed_of_none (t := { t with pend := [k] }) howed]
    rfl
  simp only [snoopAnswer, hagent, hfind, if_pos hmeets, hanswer]
  cases data <;> rfl

/-- FWD_DATA that the home asked for on its own behalf: its line goes to memory. -/
theorem forwardData_of_recovery (htxns : s.coh.txns = [t]) (hbusy : t.busy = .BR) (hjob : t.job = none)
    (hseq : t.seq = p.seq.toNat) (haux : t.aux = p.addr.toNat) (hfwd : t.fwd = agentIndex s t.part p.src.toNat) :
    forwardData s p = endTxn (lineToMemory s t.line t.pool p.seq p.payload) t := by
  simp [forwardData, htxns, hbusy, hjob, hseq, haux, hfwd]

theorem grantAck_of_granted (htxns : s.coh.txns = [t]) (hbusy : t.busy = .BG) (hpool : t.pool = p.addr.toNat / 64 * 64)
    (hjob : t.job = some q) (hseq : q.svc.req.pkt.seq = p.seq) (hsrc : q.svc.req.pkt.src = p.src) :
    grantAck s p = endTxn s t := by
  simp [grantAck, htxns, hbusy, hpool, hjob, hseq, hsrc]

end Answers

/-! ### Every answer -/

section Every

variable {s : State} {x : Sunk} {t : Txn} {q : LineJob} {r : RegionRec} {clk a k sl b : Nat}

/-- With one transaction open. -/
def nowOpen (s : State) (t : Txn) : State := { s with coh := { s.coh with txns := [t] } }

theorem putTxn_of_one {u : Txn} (htxns : s.coh.txns = [t]) (hid : u.id = t.id) : putTxn s u = nowOpen s u := by
  simp [putTxn, htxns, hid, nowOpen]

theorem linePlace_of_pinned {line : Nat} (hline : line < 2 ^ 52)
    (hplace : placeOf s (addrPart line) (addrOff line) = .pinned r sl b) : linePlace s line = some (sl, b) := by
  rw [linePlace, if_pos hline]
  simp only [hplace]

/-- The line that an answer brings is stored at its address of a slice. -/
theorem stored_of_returned {line pool : Nat} {seq : BitVec 32} {bs : List Byte} (htwin : s.twn.state = 0)
    (harm : s.di.injArm = false) (hlen : bs.length = 64) (hline : line < 2 ^ 52)
    (hplace : placeOf s (addrPart line) (addrOff line) = .pinned r sl b) (hb : b % 64 = 0) :
    Stored (met s clk) (lineToMemory (met s clk) line pool seq bs) sl b bs :=
  lineToMemory_of_whole hlen hb harm htwin (linePlace_of_pinned (s := met s clk) hline hplace)

theorem dram_of_returned {u : State} {bs : List Byte} (h : u.stk.dram = (dramStore (met s clk) sl b bs).stk.dram)
    (hlen : bs.length = 64) (hb : b % 64 = 0) (hroom : b < 2 ^ 33) :
    dramBytes u sl b 64 = bs ∧ DramKeptBut s u sl b 64 := by
  have hdram : u.stk.dram = (dramStore s sl b bs).stk.dram := h.trans (dramStore_dram_congr rfl)
  have hfit : b + bs.length ≤ 2 ^ 33 := by omega
  exact ⟨hlen ▸ dramBytes_of_store hdram hfit, hlen ▸ dramKeptBut_of_store hdram hfit⟩

end Every

/-- Settles O41: each of the four packets meets the one transaction, or none. A line that it brings is stored whole, and
a transaction that ends leaves nothing behind at a home where nothing waits. -/
theorem answersAdvanceTransactions : Obligations.AnswersAdvanceTransactions := by
  unfold Obligations.AnswersAdvanceTransactions
  intro clk s x t a k n p line clear counted hin
  refine ⟨?stray, ?awaited, ?returned, ?granted⟩
  case stray =>
    intro htxns hsvc
    have hstay (half : Nat) : settle (proto (met s clk) half) = proto (met s clk) half := settle_of_none hsvc
    refine ⟨fun hop => ?_, fun hop => ?_, fun hop => ?_, fun hop hsent => ?_⟩
    · exact (exec_snpRsp_of_one hin hop).trans (by rw [snoopAnswer_of_stray (s := met s clk) htxns, hstay]; rfl)
    · exact (exec_snpData_of_one hin hop).trans (by rw [snoopAnswer_of_stray (s := met s clk) htxns, hstay]; rfl)
    · exact (exec_fwdData_of_one hin hop).trans (by rw [forwardData_of_stray (s := met s clk) htxns, hstay]; rfl)
    · exact (exec_grantAcknowledgement_of_one hin hop hsent).trans
        (by rw [grantAck_of_stray (s := met s clk) htxns, hstay]; rfl)
  case awaited =>
    rintro htxns ⟨-, -, -, hsvc, htwin, harm⟩ hagent hpool hline - hseq howed hbusy hpend hne
    have hmeets (data : Option (List Byte)) : snoopAnswer (met s clk) p data =
        putTxn (storeAnswer (met s clk) t p.seq data) { t with pend := [k] } :=
      snoopAnswer_of_first htxns hagent hpool hseq howed hbusy hpend hne
    refine ⟨fun hop => ?_, fun r sl b hop hlen hstep hbound hplace hb hroom => ?_⟩
    · rw [exec_snpRsp_of_one hin hop, hmeets, storeAnswer,
        putTxn_of_one (s := met s clk) (u := { t with pend := [k] }) htxns rfl, settle_of_none (by exact hsvc)]
      rfl
    · have hstored : Stored (met s clk) (lineToMemory (met s clk) t.line t.pool (causeSeq t p.seq) p.payload) sl b
          p.payload := stored_of_returned htwin harm hlen (hline ▸ hbound) (hline ▸ hplace) hb
      have hput := putTxn_of_one (t := t) (u := { t with pend := [k] })
        ((congrArg (·.txns) (hstored.1.coh rfl)).trans htxns) rfl
      refine ⟨nowOpen _ { t with pend := [k] }, ?_, rfl, congrArg (·.inbox) (hstored.1.fab rfl),
        dram_of_returned hstored.2 hlen hb hroom⟩
      rw [exec_snpData_of_one hin hop, hmeets, storeAnswer, if_neg hstep, hput,
        settle_of_none (by exact (hstored.1.svc rfl).trans hsvc)]
  case returned =>
    rintro htxns ⟨hsweep, hrecovered, hplaced, hsvc, htwin, harm⟩ hbusy hjob hseq haux hfwd howed hqueued r sl b hop
      hlen hbound - hplace hb hroom
    have hstored : Stored (met s clk) (lineToMemory (met s clk) t.line t.pool p.seq p.payload) sl b p.payload :=
      stored_of_returned htwin harm hlen hbound hplace hb
    have hcoh := hstored.1.coh rfl
    have hserved := (hstored.1.svc rfl).trans hsvc
    obtain ⟨cache, hend⟩ := endTxn_of_one (s := lineToMemory (met s clk) t.line t.pool p.seq p.payload)
      ⟨(congrArg (·.sweepLeft) hcoh).trans hsweep, (congrArg (·.recoveries) hcoh).trans hrecovered,
        (congrArg (·.placing) hcoh).trans hplaced⟩ ((congrArg (·.txns) hcoh).trans htxns) howed hqueued
    refine ⟨ended _ cache, ?_, rfl, dram_of_returned hstored.2 hlen hb hroom⟩
    rw [exec_fwdData_of_one hin hop, forwardData_of_recovery (s := met s clk) htxns hbusy hjob hseq haux hfwd, hend,
      settle_of_none (by exact hserved)]
  case granted =>
    rintro q htxns ⟨hsweep, hrecovered, hplaced, hsvc, -, -⟩ hbusy hpool hjob hseq hsrc howed hqueued hop hsent
    obtain ⟨cache, hend⟩ := endTxn_of_one (s := met s clk) ⟨hsweep, hrecovered, hplaced⟩ htxns howed hqueued
    refine ⟨ended (met s clk) cache, ?_, rfl, rfl, rfl, rfl⟩
    rw [exec_grantAcknowledgement_of_one hin hop hsent,
      grantAck_of_granted (s := met s clk) htxns hbusy hpool hjob hseq hsrc, hend, settle_of_none (by exact hsvc)]

end Sys2Proof.Proofs
end

section
/-! PROOFS. Published regions at the home of their units (R191 to R196, R201): what a request that waits there leaves
behind, how the home takes up FLUSH, PUBLISH and ACQUIRE, and the decision of a PUBLISH. -/

namespace Sys2Proof.Proofs

open Sys2Proof.Machine Sys2Proof.Laws

/-! ### Requests that wait at the home of their unit (R192 to R194) -/

section Waiting

variable {s : State} {v e : Service} {w : PubWait} {p u half : Nat}

/-- No PUBLISH or FLUSH waits at its unit's home. -/
def noneWaits (s : State) : State := { s with coh := { s.coh with pubWait := [] } }

/-- The only request that waits does so no more: no recovery and no placing takes the entry that it gives up. -/
theorem dropWait_of_one (hwait : s.coh.pubWait = [w]) (hplacing : s.coh.placing = []) (hrecoveries : s.coh.recoveries = []) :
    dropWait s w.svc.ticket = noneWaits s := by
  have hentry : startPlacing (startRecovery (noneWaits s) w.half) = noneWaits s := by
    rw [startRecovery_of_none (s := noneWaits s) hrecoveries, startPlacing_of_none (s := noneWaits s) hplacing]
  have hnone : { s with coh := { s.coh with pubWait := [w].filter (fun x => x.svc.ticket != w.svc.ticket) } } =
      noneWaits s := by simp [noneWaits]
  rw [dropWait, hwait, hnone]
  cases hheld : w.entry
  · simp [hheld]
  · simp [hheld, hentry]

/-- R192: a request is released where it stands alone and no answer is about to leave. -/
theorem released_of_one (hsvc : s.svc = [v]) (hleaving : s.fab.leaving = []) : released s v p u = true := by
  simp [released, hsvc, hleaving]

/-- R192: an earlier request of the flow to the unit keeps a request from its release. -/
theorem released_of_behind (hsvc : s.svc = [e, v]) (hkey : e.key = v.key) (hbefore : e.ticket < v.ticket)
    (htouches : touchesUnit e p u = true) : released s v p u = false := by
  simp [released, hsvc, hkey, hbefore, htouches]

theorem earlierPublish_of_none {ticket : Nat} (hwait : s.coh.pubWait = []) : earlierPublish s ticket p u = false := by
  simp [earlierPublish, hwait]

theorem earlierPublish_of_one (hwait : s.coh.pubWait = [w]) : earlierPublish s w.svc.ticket p u = false := by
  simp [earlierPublish, hwait]

theorem ledgerBlocked_of_room (hheld : (partGet s p).ledger.held = []) (hroom : lgFull (partGet s p).ledger = false) :
    ledgerBlocked s p = false := by
  simp [ledgerBlocked, hheld, hroom]

theorem notStopped_of_going (hgoing : (partGet s v.req.pkt.part.toNat).st ≠ .resetting) : stopped s v = false := by
  simp [stopped, hgoing]

theorem mayOpen_of_none (htxns : s.coh.txns = []) (hwait : s.coh.pubWait = []) (hrecoveries : s.coh.recoveries = []) :
    mayOpen s half = true := by
  simp [mayOpen, openEntries, htxns, hwait, hrecoveries, sumNat]

theorem notePeak_pubWait : (notePeak s half).coh.pubWait = s.coh.pubWait := halfMod_coh_pubWait ..

theorem notePeak_svc : (notePeak s half).svc = s.svc := (notePeak_touches (.refl { coh := true } s) rfl).svc rfl

end Waiting

/-! ### Requests that their unit's home takes up (R190, R196) -/

section TakenUp

variable {s : State} {v e : Service} {o : Op} {hold : Bool} {f : State → Service → Nat → Nat → State} {p u : Nat}

/-- The home takes up request `v` in this clk: it is in service, not begun and not stopped, and no other comes first. -/
structure TakenUp (s : State) (v : Service) : Prop where
  found : svcFind s v.ticket = some v
  going : stopped s v = false
  fresh : begun s v = false
  first : earlierHome s v = false

theorem takenUp_of_alone (halone : Alone s v) : TakenUp s v where
  found := (svcFind_of_alone (clk := 0) halone :)
  going := notStopped_of_alone halone
  fresh := notBegun_of_alone halone
  first := (noneEarlier_of_alone halone).2

theorem svcFind_of_behind (hsvc : s.svc = [e, v]) (hbefore : e.ticket < v.ticket) : svcFind s v.ticket = some v := by
  simp [svcFind, hsvc, hbefore.ne]

theorem earlierHome_of_behind (hsvc : s.svc = [e, v]) (hclk : e.admitted ≠ v.admitted) : earlierHome s v = false := by
  simp [earlierHome, hsvc, hclk]

theorem notBegun_of_none (hgathered : s.coh.gathered = []) (htxns : s.coh.txns = []) (hwait : s.coh.pubWait = [])
    (hheld : s.twn.held = []) (hanswers : s.twn.answers = []) : begun s v = false := by
  simp [begun, isOpen, piecesOf, sortBy, hgathered, htxns, hwait, hheld, hanswers]

/-- R196: a request that names no publish unit ends FAULT. -/
theorem withUnit_of_outside (h : TakenUp s v) (hop : pktOp v.req.pkt = o)
    (hunit : publishUnit s v.req.pkt.addr.toNat = none) :
    withUnit s v.ticket o hold f = finish s v (endWith .fault (some v.req.pkt.addr.toNat)) := by
  simp [withUnit, h.found, h.going, h.fresh, h.first, hop, hunit]

/-- R190: a request that names a unit, and that no twin holds back, has its operation done there. -/
theorem withUnit_of_unit (h : TakenUp s v) (hop : pktOp v.req.pkt = o)
    (hunit : publishUnit s v.req.pkt.addr.toNat = some (p, u)) (hoff : s.twn.state = 0) (hseal : s.sec.sealing = none) :
    withUnit s v.ticket o hold f = f s v p u := by
  simp [withUnit, h.found, h.going, h.fresh, h.first, hop, hunit, twinFirst_of_off hoff hseal]

end TakenUp

/-! ### The operations at their unit (R192 to R196, R201) -/

section Operations

variable {s : State} {v e : Service} {w : PubWait} {p u : Nat}

/-- A released FLUSH ends OK (R192). -/
theorem startFlush_of_released (hrel : released s v p u = true) : startFlush s v p u = finish s v { status := .ok } :=
  if_pos hrel

/-- A FLUSH that is not released takes an entry, where there is one (R192, R194). -/
theorem startFlush_of_unreleased (hrel : released s v p u = false) (hopen : mayOpen s (unitHalf s p u) = true) :
    startFlush s v p u = notePeak (addWait s v (unitHalf s p u) p u false true) (unitHalf s p u) := by
  simp [startFlush, hrel, hopen]

/-- A released PUBLISH that nothing else holds back takes no entry (R193, R194, R363). -/
theorem startPublish_of_released (hrel : released s v p u = true) (hfirst : earlierPublish s v.ticket p u = false)
    (hroom : ledgerBlocked s p = false) : startPublish s v p u = addWait s v (unitHalf s p u) p u true false := by
  simp [startPublish, hrel, hfirst, hroom]

/-- The request that FLUSH_RELEASE ends (R192). -/
theorem exec_flushRelease_of_one (hsvc : s.svc = [w.svc]) (hwait : s.coh.pubWait = [w]) (hflush : w.publish = false)
    (hplacing : s.coh.placing = []) (hrecoveries : s.coh.recoveries = []) (hleaving : s.fab.leaving = [])
    (hseal : s.sec.sealing = none) (hoff : s.twn.state = 0)
    (hgoing : (partGet s w.svc.req.pkt.part.toNat).st ≠ .resetting) :
    exec (.flushRelease w.svc.ticket) s = .next (finish (noneWaits s) w.svc { status := .ok }) := by
  have hfind : s.coh.pubWait.find? (fun x => x.svc.ticket == w.svc.ticket && !x.publish) = some w := by
    simp [hwait, hflush]
  have htwin : twinFirst (noneWaits s) w.svc false = none := twinFirst_of_off hoff hseal
  show execFlushRelease w.svc.ticket s = _
  simp [execFlushRelease, hfind, released_of_one hsvc hleaving, notStopped_of_going hgoing,
    dropWait_of_one hwait hplacing hrecoveries, htwin]

end Operations

/-! ### The decision of a PUBLISH (R193, R199, R201) -/

section Decision

variable {s : State} {v : Service} {w : PubWait} {x : Version} {p u q n base req : Nat} {host : Bool}

theorem decide193_of_next (hbase : base = x.v) (hroom : x.v < 2 ^ 64 - 1) :
    decide193 x base host req = (.ok, { v := x.v + 1, host := host, req := req }) := by
  rw [decide193, if_pos hbase, if_pos hroom]

theorem decide193_of_last (hbase : base = x.v) (hlast : x.v = 2 ^ 64 - 1) : decide193 x base host req = (.fault, x) := by
  rw [decide193, if_pos hbase, if_neg hlast.not_lt]

theorem decide193_of_other (hbase : base ≠ x.v) : decide193 x base host req = (.conflict, x) := if_neg hbase

theorem partGet_storedClean : partGet (storedClean s q n) p = partGet s p := by
  simp only [partGet, storedClean_parts]

/-- A ledger entry leaves every partition's counters as they stand. -/
theorem lgAppend_cnt {k : LgKind} {status srckind queue req event : Nat} {body extra : List Byte} :
    (partGet (lgAppend s q k status srckind queue req body extra event).1 p).cnt = (partGet s p).cnt := by
  unfold lgAppend lgStore
  dsimp only
  split
  · rw [partGet_storedClean, partGet_partSet]
    split
    next h => rw [h]
    next => rfl
  · rw [partGet_partMod]
    split
    next h => rw [h]
    next => rfl

/-- The answer of a decision is that of R193, whatever the ledger does with its entry. -/
theorem decideUnit_outcome : (decideUnit s p u base host req).2 = decide193 (versionGet s p u) base host req := rfl

theorem decideUnit_pubOk : (partGet (decideUnit s p u base host req).1 p).cnt.pubOk =
    if (decide193 (versionGet s p u) base host req).1 = .ok then ((partGet s p).cnt.pubOk + 1) % 2 ^ 32
    else (partGet s p).cnt.pubOk := by
  unfold decideUnit
  generalize decide193 (versionGet s p u) base host req = d
  obtain ⟨st, y⟩ := d
  dsimp only
  have hparts : partGet (versionSet s p u y) p = partGet s p := rfl
  rw [lgAppend_cnt, partCnt, partGet_partMod_self, hparts]
  by_cases hok : st = .ok
  · simp only [hok, if_true]
    rfl
  · simp only [hok, if_false]
    split <;> rfl

/-- The decision writes the version of its unit alone: units of other numbers have other places (R189). -/
theorem decideUnit_version {p' u' : Nat} : versionGet (decideUnit s p u base host req).1 p' u' =
    if p' * 2 ^ 26 + u' = p * 2 ^ 26 + u then (decide193 (versionGet s p u) base host req).2 else versionGet s p' u' :=
  (congrArg (fun c : Coh => tblGet (fun _ => {}) c.versions (p' * 2 ^ 26 + u')) decideUnit_coh).trans
    (versionGet_versionSet ..)

theorem sendTwinPub_of_off (hoff : s.twn.state = 0) : sendTwinPub s v base = s := by
  simp only [sendTwinPub, twinnedAt_of_off hoff]

/-- A PUBLISH of unit `u` of partition `p` waits alone for its decision, and nothing keeps it waiting. -/
structure AwaitsDecision (s : State) (w : PubWait) (p u : Nat) : Prop where
  svc : s.svc = [w.svc]
  wait : s.coh.pubWait = [w]
  publish : w.publish = true
  inPart : u < 2 ^ 26
  unit : w.unit = p * 2 ^ 26 + u
  placing : s.coh.placing = []
  recoveries : s.coh.recoveries = []
  leaving : s.fab.leaving = []
  off : s.twn.state = 0
  sealing : s.sec.sealing = none
  active : (partGet s p).st = .active
  going : (partGet s w.svc.req.pkt.part.toNat).st ≠ .resetting
  held : (partGet s p).ledger.held = []
  room : lgFull (partGet s p).ledger = false

theorem exec_publishDecide_of_awaits (h : AwaitsDecision s w p u) :
    exec (.publishDecide w.svc.ticket) s = .next (decidePublish s w.svc p u) := by
  have hfind : s.coh.pubWait.find? (fun x => x.svc.ticket == w.svc.ticket && x.publish) = some w := by
    simp [h.wait, h.publish]
  have hp : w.unit / 2 ^ 26 = p := by rw [h.unit]; have := h.inPart; omega
  have hu : w.unit % 2 ^ 26 = u := by rw [h.unit]; have := h.inPart; omega
  have htwin : twinFirst (noneWaits s) w.svc true = none := twinFirst_of_off h.off h.sealing
  show execPublishDecide w.svc.ticket s = _
  simp only [execPublishDecide, hfind, hp, hu]
  simp [released_of_one h.svc h.leaving, earlierPublish_of_one h.wait, notStopped_of_going h.going, h.active,
    dropWait_of_one h.wait h.placing h.recoveries, htwin, ledgerBlocked_of_room h.held h.room]

/-- The state that the decision leaves, before its answer. -/
def decidedState (s : State) (w : PubWait) (p u : Nat) : State :=
  (decideUnit (noneWaits s) p u w.svc.req.pkt.aux.toNat (flowHost w.svc.key) (flowReq w.svc.key)).1

theorem decidedState_touches : Touches Mask.enterP (noneWaits s) (decidedState s w p u) :=
  decideUnit_touches (.refl _ _) rfl

theorem decidePublish_of_awaits {st : Status} {y : Version} (h : AwaitsDecision s w p u)
    (hdecide : decide193 (versionGet s p u) w.svc.req.pkt.aux.toNat (flowHost w.svc.key) (flowReq w.svc.key) = (st, y)) :
    decidePublish s w.svc p u = finish (decidedState s w p u) w.svc { status := st, aux := y.v } := by
  have hoff : (decidedState s w p u).twn.state = 0 := (congrArg (·.state) (decidedState_touches.twn rfl)).trans h.off
  have houtcome : decideUnit (noneWaits s) p u w.svc.req.pkt.aux.toNat (flowHost w.svc.key) (flowReq w.svc.key) =
      (decidedState s w p u, st, y) := Prod.ext rfl (decideUnit_outcome.trans hdecide)
  rw [decidePublish, dropWait_of_one h.wait h.placing h.recoveries]
  simp only [publisherOf, houtcome, sendTwinPub_of_off hoff, reply_of_off hoff]

/-- R193: a PUBLISH that awaits its decision ends as `decide193` gives, with its unit's version alone written. -/
theorem publishDecide_of_awaits {st : Status} {y : Version} (h : AwaitsDecision s w p u)
    (hdecide : decide193 (versionGet s p u) w.svc.req.pkt.aux.toNat (flowHost w.svc.key) (flowReq w.svc.key) = (st, y)) :
    ∃ t, exec (.publishDecide w.svc.ticket) s = .next (finish t w.svc { status := st, aux := y.v }) ∧
      versionGet t p u = y ∧
      (∀ p' u' : Nat, u' < 2 ^ 26 → (p', u') ≠ (p, u) → versionGet t p' u' = versionGet s p' u') ∧
      t.coh.pubWait = [] ∧ t.stk.dram = s.stk.dram ∧ t.near = s.near ∧
      (partGet t p).cnt.pubOk =
        (if st = .ok then ((partGet s p).cnt.pubOk + 1) % 2 ^ 32 else (partGet s p).cnt.pubOk) := by
  have hdecide' : decide193 (versionGet (noneWaits s) p u) w.svc.req.pkt.aux.toNat (flowHost w.svc.key)
      (flowReq w.svc.key) = (st, y) := hdecide
  refine ⟨decidedState s w p u, ?_, ?version, ?others, congrArg Coh.pubWait decideUnit_coh, decidedState_touches.dram rfl,
    decidedState_touches.near rfl, ?count⟩
  · rw [exec_publishDecide_of_awaits h, decidePublish_of_awaits h hdecide]
  case version => rw [decidedState, decideUnit_version, if_pos rfl, hdecide']
  case others =>
    intro p' u' hu' hne
    have hplace : p' * 2 ^ 26 + u' ≠ p * 2 ^ 26 + u := by
      intro heq
      have hu := h.inPart
      exact hne (Prod.ext (by simp only; omega) (by simp only; omega))
    rw [decidedState, decideUnit_version, if_neg hplace]
    rfl
  case count =>
    rw [decidedState, decideUnit_pubOk, hdecide']
    rfl

end Decision

/-- Settles O43: nothing keeps the PUBLISH waiting, so it is decided; the three decisions are those of `decide193`. -/
theorem publishComparesVersions : Obligations.PublishComparesVersions := by
  unfold Obligations.PublishComparesVersions
  intro s w p u v x base g decided hsvc hwait hplacing hrecoveries hpublish hu hunit hoff hleaving hseal hactive hgoing
    hheld hroom
  have h : AwaitsDecision s w p u := ⟨hsvc, hwait, hpublish, hu, hunit, hplacing, hrecoveries, hleaving, hoff, hseal,
    hactive, hgoing, hheld, hroom⟩
  refine ⟨fun hbase hlt => ?next, fun hbase hlast => ?last, fun hbase => ?other⟩
  case next => exact publishDecide_of_awaits h (decide193_of_next hbase hlt)
  case last => exact publishDecide_of_awaits h (decide193_of_last hbase hlast)
  case other => exact publishDecide_of_awaits h (decide193_of_other hbase)

/-- Settles O44: each of the three is taken up at once, so it ends FAULT without a unit, and otherwise its operation at the
unit is done; what that is turns on whether a request of its flow stands before it. -/
theorem publishFamilyAtItsUnit : Obligations.PublishFamilyAtItsUnit := by
  unfold Obligations.PublishFamilyAtItsUnit
  intro s v e p u k fault
  refine ⟨?outside, ?inside, ?behind, ?release, fun part => rfl⟩
  case outside =>
    intro halone hunit
    have hfaults {o : Op} {hold : Bool} {f : State → Service → Nat → Nat → State} (hop : pktOp k = o) :
        withUnit s v.ticket o hold f = finish s v fault := withUnit_of_outside (takenUp_of_alone halone) hop hunit
    exact ⟨fun hop => congrArg Host.Outcome.next (hfaults hop), fun hop => congrArg Host.Outcome.next (hfaults hop),
      fun hop => congrArg Host.Outcome.next (hfaults hop)⟩
  case inside =>
    intro halone hleaving hunit
    have htaken := takenUp_of_alone halone
    obtain ⟨hsvc, -, -, -, hwait, -, hoff, -, -, hseal, -⟩ := halone
    have hserves {o : Op} {hold : Bool} {f : State → Service → Nat → Nat → State} (hop : pktOp k = o) :
        withUnit s v.ticket o hold f = f s v p u := withUnit_of_unit htaken hop hunit hoff hseal
    have hrel : released s v p u = true := released_of_one hsvc hleaving
    refine ⟨fun hop hheld hroom => congrArg Host.Outcome.next ((hserves hop).trans ?_),
      fun hop => congrArg Host.Outcome.next ((hserves hop).trans (startFlush_of_released hrel)),
      fun hop => congrArg Host.Outcome.next (hserves hop)⟩
    rw [startPublish_of_released hrel (earlierPublish_of_none hwait) (ledgerBlocked_of_room hheld hroom), addWait, hwait]
    rfl
  case behind =>
    intro hsvc hkey hbefore hclk htouches hop hunit hgathered htxns hwait hrecoveries hoff hheld hanswers hseal hgoing
    have htaken : TakenUp s v := ⟨svcFind_of_behind hsvc hbefore, notStopped_of_going hgoing,
      notBegun_of_none hgathered htxns hwait hheld hanswers, earlierHome_of_behind hsvc hclk⟩
    refine ⟨_, congrArg Host.Outcome.next ((withUnit_of_unit htaken hop hunit hoff hseal).trans
      (startFlush_of_unreleased (released_of_behind hsvc hkey hbefore htouches) (mayOpen_of_none htxns hwait hrecoveries))),
      notePeak_svc, notePeak_pubWait.trans ?_⟩
    rw [addWait, hwait]
    rfl
  case release =>
    rintro w hsvc hwait rfl hflush hplacing hrecoveries hleaving hseal hoff hgoing
    exact exec_flushRelease_of_one hsvc hwait hflush hplacing hrecoveries hleaving hseal hoff hgoing

end Sys2Proof.Proofs
end

section
/-! PROOFS. What the operations of a stack channel leave of it (R206 to R221): its banks after a command, a pruned
channel, and columns whose words are without errors. -/

namespace Sys2Proof.Proofs

open Sys2Proof.Machine Sys2Proof.Laws

/-! ### Channels of a state -/

section Channels

variable {s : State} {ch clk n : Nat} {x : Chan}

theorem chanGet_seenClk : chanGet (seenClk s clk) n = chanGet s n := rfl

theorem chanGet_chanSet_self : chanGet (chanSet s ch x) ch = x := by
  rw [chanGet_chanSet, if_pos rfl]

theorem chanGet_chanMod_self {f : Chan → Chan} : chanGet (chanMod s ch f) ch = f (chanGet s ch) := chanGet_chanSet_self

theorem chanGet_busColumns {k : Nat} : chanGet (busColumns s ch k) n = chanGet s n := rfl

theorem chanGet_chanSet_of_ne (h : n ≠ ch) : chanGet (chanSet s ch x) n = chanGet s n := by
  rw [chanGet_chanSet, if_neg h]

/-- The cells that a channel reads stand where its state and what it serves do. -/
theorem cellsOf_chanSet (hstate : x.state = (chanGet s ch).state) (hserves : x.serves = (chanGet s ch).serves)
    (hgraft : x.graftDue = (chanGet s ch).graftDue) (hcopy : x.copying = (chanGet s ch).copying) :
    cellsOf (chanSet s ch x) n = cellsOf s n := by
  have hfield {α : Type} (f : Chan → α) (h : f x = f (chanGet s ch)) (j : Nat) :
      f (chanGet (chanSet s ch x) j) = f (chanGet s j) := by
    rw [chanGet_chanSet]
    split
    next hj => rw [hj, h]
    next => rfl
  have hspare : spareInService (chanSet s ch x) n = spareInService s n := by
    simp only [spareInService, hfield Chan.state hstate, hfield Chan.serves hserves, hfield Chan.graftDue hgraft,
      hfield Chan.copying hcopy]
  simp only [cellsOf, sliceOfChan, hspare, hfield Chan.state hstate, hfield Chan.serves hserves]

/-- A channel written after the clk has been seen: the traffic block and the channels are all that changes. -/
theorem chanSet_seenClk_touches : Touches { td := true, stk := true } s (chanSet (seenClk s clk) ch x) := ⟨rfl, id⟩

end Channels

/-! ### Banks of a channel -/

section Banks

variable {c : Chan} {b k clk : Nat} {f : Bank → Bank}

theorem bankGet_bankMod : bankGet (bankMod c k f) b = if b = k then f (bankGet c k) else bankGet c b :=
  bankGet_bankSet c k b _

theorem bankGet_bankMod_self : bankGet (bankMod c b f) b = f (bankGet c b) := by
  rw [bankGet_bankMod, if_pos rfl]

theorem bankGet_touchSid : bankGet (touchSid c k clk) b = bankGet c b := rfl

/-- A change made at one bank after another is made at each of them, where making it again does nothing more. -/
theorem bankGet_foldl {g : Chan → Nat → Chan}
    (hstep : ∀ c k b, bankGet (g c k) b = if b = k then f (bankGet c k) else bankGet c b)
    (hagain : ∀ y, f (f y) = f y) (l : List Nat) :
    bankGet (l.foldl g c) b = if b ∈ l then f (bankGet c b) else bankGet c b := by
  induction l generalizing c with
  | nil => rfl
  | cons k l ih =>
    rw [List.foldl_cons, ih, hstep]
    by_cases hk : b = k
    · subst hk
      simp [hagain]
    · simp [hk]

end Banks

/-! ### Pruning (R220, R221) -/

section Pruned

variable {s : State} {c : Chan} {ch n : Nat} {readable : Bool}

theorem spare_ne (h : ch % 17 ≠ 16) : ch ≠ 17 * (ch / 17) + 16 := by omega

/-- A channel that is pruned, before a graft is begun. -/
def prunedChan (s : State) (c : Chan) (readable : Bool) : Chan :=
  { emptyQueues s c with
    state := 4, readable := readable, copying := false, asleep := false, trainDue := false, trainFailed := false,
    graftDue := false, serves := none }

/-- A channel with its contents' copy elsewhere. -/
def withCopy (c : Chan) (copying : Bool) (copied : Nat) : Chan := { c with copying := copying, copied := copied }

/-- Of a data channel a graft changes its copy alone. -/
theorem chanGet_startGraft : ∃ y z, chanGet (startGraft s ch) ch = withCopy (chanGet s ch) y z := by
  unfold startGraft
  extract_lets c spare x sl
  split
  next => exact ⟨_, _, rfl⟩
  next h =>
    have hne : ch ≠ spare := spare_ne fun hch => h (.inl hch)
    split
    · exact ⟨_, _, (chanGet_chanSet_of_ne hne).trans chanGet_chanSet_self⟩
    · exact ⟨_, _, chanGet_chanSet_of_ne hne⟩

/-- A spare that is pruned ends the copies of its stack's channels, none of which it is itself. -/
theorem chanGet_foldl_copying {l : List Nat} (h : ∀ n ∈ l, ch ≠ ch - 16 + n) :
    chanGet (l.foldl (fun s n => if (chanGet s (ch - 16 + n)).copying then
      chanMod s (ch - 16 + n) (fun c => { c with copying := false }) else s) s) ch = chanGet s ch := by
  induction l generalizing s with
  | nil => rfl
  | cons n l ih =>
    rw [List.foldl_cons, ih fun m hm => h m (List.mem_cons_of_mem _ hm)]
    split
    · exact chanGet_chanSet_of_ne (h n List.mem_cons_self)
    · rfl

theorem chanGet_pruneChan (h : (chanGet s ch).state ≠ 4) :
    ∃ y z, chanGet (pruneChan s ch readable) ch = withCopy (prunedChan s (chanGet s ch) readable) y z := by
  unfold pruneChan
  rw [if_neg h]
  extract_lets s1 s2
  have h1 : chanGet s1 ch = prunedChan s (chanGet s ch) readable := chanGet_chanSet_self
  have h2 : chanGet s2 ch = prunedChan s (chanGet s ch) readable := by
    simp only [s2]
    split
    next hspare =>
      rw [chanGet_foldl_copying, h1]
      intro n hn
      rw [List.mem_range] at hn
      omega
    next => exact h1
  split
  · rw [← h2]
    exact chanGet_startGraft
  · exact ⟨_, _, h2⟩

theorem pruneChan_of_pruned (h : (chanGet s ch).state = 4) : pruneChan s ch readable = s := if_pos h

/-- A pruned channel is in state PRUNED, and nothing waits at it. -/
theorem pruneChan_self (h : (chanGet s ch).state ≠ 4) :
    let x := chanGet (pruneChan s ch readable) ch
    x.state = 4 ∧ x.readable = readable ∧ x.reads = [] ∧ x.writes = [] ∧ x.inflight = [] := by
  obtain ⟨y, z, hx⟩ := chanGet_pruneChan (readable := readable) h
  rw [hx]
  exact ⟨rfl, rfl, rfl, rfl, rfl⟩

end Pruned

/-! ### Columns without errors (R219, R303) -/

section Columns

variable {s : State} {ch source sl a row bank col : Nat}

theorem readWord_of_clean {k : Nat} (h : markGet s k = {}) (w : Nat) :
    readWord s k (wordFlips s k [] w) = some (0, false, 0) := by
  have hflips : wordFlips s k [] w = 0 := by rw [wordFlips, h]; rfl
  rw [hflips, readWord, show wordDecode 0 = some (0, 0) by decide +kernel]
  show some (0, xor (markGet s k).poison _, _) = _
  rw [h]
  rfl

theorem lineDecode_of_clean (hclean : LineClean s sl a) :
    lineDecode s sl a [] = (List.range 8).map (fun w => (w, some (0, false, 0))) := by
  refine List.map_congr_left fun w hw => ?_
  have hword := List.all_eq_true.1 hclean _ (List.mem_map_of_mem hw)
  exact congrArg (Prod.mk w) (readWord_of_clean (of_decide_eq_true hword) w)

/-- A column without errors is read without a trace. -/
theorem readColumn_of_clean (hclean : LineClean s sl a) : (readColumn s source sl a []).1 = s := by
  rw [readColumn, lineDecode_of_clean hclean]
  rfl

theorem writeBackColumn_of_clean (hclean : LineClean s sl a) : writeBackColumn s sl a = s := by
  rw [writeBackColumn, lineDecode_of_clean hclean]
  rfl

theorem columnAt_of_clean
    (hclean : ∀ sl, cellsOf s ch = some sl → LineClean s sl (dramAddr s.stk.xmapAct row bank col)) :
    columnAt s ch source bank row col [] [] = s := by
  unfold columnAt
  split
  next => rfl
  next sl hsl => exact readColumn_of_clean (hclean sl hsl)

end Columns

end Sys2Proof.Proofs
end

section
/-! PROOFS. Requests and commands of a stack channel (R202, R206, R208, R209, R212, R217, R218, R220): what a channel
makes of a request, what each of its DRAM commands leaves of the bank, and how a column returns. -/

namespace Sys2Proof.Proofs

open Sys2Proof.Machine Sys2Proof.Laws

/-! ### Requests (R202, R208) -/

section Requests

variable {s : State} {c : Chan} {ch : Fin 136} {r : ChannelReq} {w : ChanEntry} {clk : Nat}

/-- The bytes of its block that a request asks for. -/
def requestMask (r : ChannelReq) : Nat := (2 ^ (min r.count (256 - r.first)) - 1) <<< r.first

/-- The bytes of a block that stand in queued writes. -/
def queuedMask (c : Chan) (block : Nat) : Nat :=
  (c.writes.filter (fun w => w.block = block)).foldl (fun m w => m ||| w.mask) 0

/-- The entry of a request that is queued. -/
def requestEntry (c : Chan) (r : ChannelReq) (clk : Nat) : ChanEntry :=
  { write := r.write, block := r.block, mask := requestMask r, cols := maskCols r.block (requestMask r), slot := r.slot,
    since := clk, order := c.nextOrder, rmw := if r.write then partialCols r.block (requestMask r) else [],
    newest := c.nextOrder, source := r.source.val }

/-- A queued write once a request's bytes have merged into it. -/
def mergedEntry (c : Chan) (r : ChannelReq) (w : ChanEntry) : ChanEntry :=
  { w with
    mask := w.mask ||| requestMask r, cols := maskCols r.block (w.mask ||| requestMask r),
    rmw := partialCols r.block (w.mask ||| requestMask r), held := [], newest := c.nextOrder }

/-- A channel that a request has reached. -/
def requested (s : State) (c : Chan) (r : ChannelReq) (clk : Nat) : Chan :=
  touchSid { c with nextOrder := c.nextOrder + 1 } (blockBank s r.block) clk

/-- A read that takes bytes from the write queue is counted. -/
def forwarded (x : Chan) : Chan := { x with cnt := { x.cnt with fwd := wrap32 x.cnt.fwd } }

theorem requestMask_ne_zero (hcount : 0 < r.count) (hfirst : r.first < 256) : requestMask r ≠ 0 := by
  have hpow : 2 ^ 1 ≤ 2 ^ (min r.count (256 - r.first)) := Nat.pow_le_pow_right (by decide) (by omega)
  rw [requestMask, Nat.shiftLeft_eq]
  exact Nat.mul_ne_zero (by omega) (by positivity)

/-- A full queue accepts nothing of its kind. -/
theorem exec_channelRequestEnqueue_of_full
    (h : 64 ≤ (if r.write then (chanGet s ch.val).writes else (chanGet s ch.val).reads).length) :
    exec (.channelRequestEnqueue ch r clk) s = .next (seenClk s clk) :=
  if_pos (.inr (.inr h))

section Taken

variable (hstate : (chanGet s ch.val).state = 1) (hcount : 0 < r.count) (hfirst : r.first < 256)

include hstate hcount hfirst

theorem not_refused (hroom : (if r.write then (chanGet s ch.val).writes else (chanGet s ch.val).reads).length < 64) :
    ¬ ((!chanServes (chanGet s ch.val) r.write) = true ∨ requestMask r = 0 ∨
      64 ≤ (if r.write then (chanGet s ch.val).writes else (chanGet s ch.val).reads).length) := by
  rintro (hserves | hmask | hfull)
  · simp [chanServes, hstate] at hserves
  · exact requestMask_ne_zero hcount hfirst hmask
  · omega

/-- A read whose bytes all stand in queued writes is served from them. -/
theorem exec_channelRequestEnqueue_of_covered (hread : r.write = false) (hroom : (chanGet s ch.val).reads.length < 64)
    (hcovered : requestMask r &&& queuedMask (chanGet s ch.val) r.block = requestMask r) :
    exec (.channelRequestEnqueue ch r clk) s =
      .next (chanSet (seenClk s clk) ch.val (forwarded (requested s (chanGet s ch.val) r clk))) := by
  have hgo := not_refused hstate hcount hfirst (by simpa [hread] using hroom)
  show execChannelRequestEnqueue ch r clk s = _
  rw [execChannelRequestEnqueue, Nat.mod_eq_of_lt hfirst]
  exact (if_neg hgo).trans ((if_neg (by simp [hread])).trans (if_pos hcovered))

/-- Any other read is queued, and counted where queued writes hold a part of its bytes. -/
theorem exec_channelRequestEnqueue_of_uncovered (hread : r.write = false) (hroom : (chanGet s ch.val).reads.length < 64)
    (hopen : requestMask r &&& queuedMask (chanGet s ch.val) r.block ≠ requestMask r) :
    exec (.channelRequestEnqueue ch r clk) s =
      let c := chanGet s ch.val
      let x := requested s c r clk
      .next (chanSet (seenClk s clk) ch.val
        { (if requestMask r &&& queuedMask c r.block ≠ 0 then forwarded x else x) with
          reads := c.reads ++ [requestEntry c r clk] }) := by
  have hgo := not_refused hstate hcount hfirst (by simpa [hread] using hroom)
  show execChannelRequestEnqueue ch r clk s = _
  rw [execChannelRequestEnqueue, Nat.mod_eq_of_lt hfirst]
  exact (if_neg hgo).trans ((if_neg (by simp [hread])).trans (if_neg hopen))

/-- A write to a block that no queued write has is queued. -/
theorem exec_channelRequestEnqueue_of_new (hwrite : r.write = true) (hroom : (chanGet s ch.val).writes.length < 64)
    (hfind : (chanGet s ch.val).writes.find? (fun w => w.block = r.block) = none) :
    exec (.channelRequestEnqueue ch r clk) s =
      let c := chanGet s ch.val
      .next (chanSet (seenClk s clk) ch.val
        (updateDrain { requested s c r clk with writes := c.writes ++ [requestEntry c r clk] })) := by
  have hgo := not_refused hstate hcount hfirst (by simpa [hwrite] using hroom)
  show execChannelRequestEnqueue ch r clk s = _
  rw [execChannelRequestEnqueue, Nat.mod_eq_of_lt hfirst]
  refine (if_neg hgo).trans ((if_pos hwrite).trans ?_)
  rw [show (chanGet (seenClk s clk) ch.val).writes.find? (fun w => w.block = r.block) = none from hfind]
  rfl

/-- A write to the block of the one queued write merges into it. -/
theorem exec_channelRequestEnqueue_of_merged (hwrite : r.write = true) (hone : (chanGet s ch.val).writes = [w])
    (hblock : w.block = r.block) :
    exec (.channelRequestEnqueue ch r clk) s =
      let c := chanGet s ch.val
      .next (chanSet (seenClk s clk) ch.val { requested s c r clk with writes := [mergedEntry c r w] }) := by
  have hgo := not_refused hstate hcount hfirst (by simp [hwrite, hone])
  have hwrites : (chanGet (seenClk s clk) ch.val).writes = [w] := hone
  show execChannelRequestEnqueue ch r clk s = _
  rw [execChannelRequestEnqueue, Nat.mod_eq_of_lt hfirst]
  refine (if_neg hgo).trans ((if_pos hwrite).trans ?_)
  rw [hwrites, List.find?_cons_of_pos (by simpa using hblock)]
  simp only [List.map_cons, List.map_nil, if_true]
  rfl

end Taken

end Requests

/-! ### What each command leaves of its bank (R206, R211, R212, R217, R218) -/

section Commands

variable {s : State} {c x y z : Chan} {e : ChanEntry} {ch bank row clk order col n : Nat} {slot : Option Nat}
  {d : DramCmd} {write rmw : Bool}

theorem bankGet_cmdRef : bankGet (cmdRef c bank clk) bank =
    { bankGet c bank with
      busyUntil := clk + 410, forced := false
      debt := if (bankGet c bank).forced then (bankGet c bank).debt else (bankGet c bank).debt - 1 } := by
  unfold cmdRef
  extract_lets c1 paid
  have hc1 := bankGet_bankMod_self (c := c) (b := bank) (f := fun b => { b with
    busyUntil := clk + tRFC, forced := false, debt := if b.forced then b.debt else b.debt - 1 })
  split
  · exact hc1
  · exact hc1

theorem bankGet_cmdRfm :
    bankGet (cmdRfm c bank clk) bank = { bankGet c bank with busyUntil := clk + 410, rfm := none } :=
  bankGet_bankMod_self (c := c) (f := fun b => { b with busyUntil := clk + tRFC, rfm := none })

theorem bankGet_cmdPre : bankGet (cmdPre c bank clk) bank = { bankGet c bank with row := none, preClk := clk } :=
  bankGet_bankMod_self (c := c) (f := fun b => { b with row := none, preClk := clk })

/-- What the protection of neighbour rows leaves of an activate: the row that is open, its clk and the count. -/
structure KeepsAct (x y : Chan) (bank : Nat) : Prop where
  row : (bankGet y bank).row = (bankGet x bank).row
  actClk : (bankGet y bank).actClk = (bankGet x bank).actClk
  act : y.cnt.act = x.cnt.act

theorem KeepsAct.refl : KeepsAct x x bank := ⟨rfl, rfl, rfl⟩

theorem KeepsAct.trans (h : KeepsAct x y bank) (k : KeepsAct y z bank) : KeepsAct x z bank :=
  ⟨k.row.trans h.row, k.actClk.trans h.actClk, k.act.trans h.act⟩

/-- A change to a bank that leaves its open row alone. -/
theorem keepsAct_of_banks {b : Bank} (hbanks : y.banks = (bankSet x bank b).banks) (hrow : b.row = (bankGet x bank).row)
    (hclk : b.actClk = (bankGet x bank).actClk) (hact : y.cnt.act = x.cnt.act) : KeepsAct x y bank := by
  have hbank : bankGet y bank = b := by
    rw [bankGet, hbanks]
    exact tblGet_set_same
  exact ⟨by rw [hbank, hrow], by rw [hbank, hclk], hact⟩

theorem throttleAct_keepsAct : KeepsAct c (throttleAct s ch c bank row slot) bank := by
  unfold throttleAct
  extract_lets
  split
  have htrack (t : List (Nat × Nat × List Nat)) :
      KeepsAct c (bankSet c bank { bankGet c bank with tracker := t }) bank :=
    keepsAct_of_banks rfl rfl rfl rfl
  dsimp only
  split
  · exact htrack _
  · exact (htrack _).trans (keepsAct_of_banks rfl rfl rfl rfl)

/-- A bank whose row an activate opens. -/
def openedBank (row clk : Nat) (b : Bank) : Bank :=
  { b with row := some row, actClk := clk, colClk := 0, rowActs := tblSet (fun _ => 0) b.rowActs row clk }

/-- A channel that has activated a row, before the protection of its neighbours. -/
def activated (c : Chan) (bank row clk : Nat) : Chan :=
  touchSid { bankMod c bank (openedBank row clk) with
    cnt := { c.cnt with act := wrap32 c.cnt.act }
    timing := { c.timing with
      acts := c.timing.acts.filter (fun a => decide (clk < a.1 + tFAW)) ++ [(clk, bankSid bank)] } } bank clk

theorem bankGet_activated : bankGet (activated c bank row clk) bank = openedBank row clk (bankGet c bank) :=
  bankGet_bankMod_self (c := c) (f := openedBank row clk)

/-- An activate writes its channel alone, whichever protection of its neighbours the channel uses. -/
theorem cmdAct_eq : ∃ u x, cmdAct s ch bank row slot clk = chanSet u ch x ∧ u.stk = s.stk ∧
    KeepsAct (activated (chanGet s ch) bank row clk) x bank := by
  unfold cmdAct drawFree
  extract_lets
  split
  · exact ⟨s, _, rfl, rfl, throttleAct_keepsAct⟩
  · dsimp only
    split
    · exact ⟨_, _, rfl, rfl, keepsAct_of_banks rfl rfl rfl rfl⟩
    · exact ⟨_, _, rfl, rfl, .refl⟩

/-- A column command of a queued entry is counted in its direction, which the turn-around times count from (R206). -/
theorem cmdCol_of_entry (h : (if write then c.writes else c.reads).find? (fun e => e.order = order) = some e) :
    let x := cmdCol s c write order col rmw clk
    x.timing.colClk = clk ∧ x.timing.lastWrite = (write && !rmw) ∧
      x.cnt.rd = (if write && !rmw then c.cnt.rd else (c.cnt.rd + 1) % 2 ^ 32) ∧
      x.cnt.wr = (if write && !rmw then (c.cnt.wr + 1) % 2 ^ 32 else c.cnt.wr) := by
  rw [cmdCol, h]
  exact ⟨rfl, rfl, rfl, rfl⟩

/-- A command of a channel leaves every other channel as it was. -/
theorem chanGet_issue_of_ne (h : n ≠ ch) : chanGet (issue s ch c clk d) n = chanGet s n := by
  cases d with
  | activate b row slot =>
    obtain ⟨u, x, hact, hu, -⟩ :=
      cmdAct_eq (s := chanSet s ch c) (ch := ch) (bank := b) (row := row) (slot := slot) (clk := clk)
    rw [issue, hact, chanGet_chanSet_of_ne h, chanGet, hu]
    exact chanGet_chanSet_of_ne h
  | column write order col rmw => exact chanGet_chanSet_of_ne h
  | refresh | neighbour | precharge | wake => exact chanGet_chanSet_of_ne h

end Commands

/-! ### What the timing rules ask of a bank (R206) -/

section Permission

variable {s : State} {c : Chan} {bank clk n d : Nat}

theorem okAfter_iff : okAfter n d clk = true ↔ n = 0 ∨ n + d ≤ clk := by simp [okAfter]

theorem closed_of_mayRef (h : mayRef c bank clk = true) : (bankGet c bank).row = none := by
  simp only [mayRef, Bool.and_eq_true, Option.isNone_iff_eq_none] at h
  exact h.1.1.1

theorem open_of_mayPre (h : mayPre c bank clk = true) : (bankGet c bank).row ≠ none ∧
    ((bankGet c bank).actClk = 0 ∨ (bankGet c bank).actClk + 68 ≤ clk) := by
  simp only [mayPre, Bool.and_eq_true, Option.isSome_iff_ne_none] at h
  obtain ⟨⟨⟨⟨hrow, hact⟩, -⟩, -⟩, -⟩ := h
  exact ⟨hrow, okAfter_iff.1 hact⟩

theorem closed_of_mayAct (h : mayAct c bank clk = true) : (bankGet c bank).row = none ∧
    ((bankGet c bank).preClk = 0 ∨ (bankGet c bank).preClk + 34 ≤ clk) := by
  simp only [mayAct, Bool.and_eq_true, Option.isNone_iff_eq_none] at h
  obtain ⟨⟨⟨⟨⟨⟨hrow, hpre⟩, -⟩, -⟩, -⟩, -⟩, -⟩ := h
  exact ⟨hrow, okAfter_iff.1 hpre⟩

end Permission

/-! ### What a permitted command does (R206, R211, R212, R217, R218) -/

section Effects

variable {s : State} {c : Chan} {n b clk row order col : Nat} {slot : Option Nat} {write rmw : Bool}

theorem issue_refresh (h : permits s n c clk (.refresh b) = true) :
    let x := chanGet (issue s n c clk (.refresh b)) n
    (bankGet c b).row = none ∧ (bankGet x b).busyUntil = clk + 410 ∧ (bankGet x b).forced = false ∧
      (bankGet x b).debt = if (bankGet c b).forced then (bankGet c b).debt else (bankGet c b).debt - 1 := by
  rw [show chanGet (issue s n c clk (.refresh b)) n = cmdRef c b clk from chanGet_chanSet_self]
  dsimp only
  rw [bankGet_cmdRef]
  exact ⟨closed_of_mayRef h, rfl, rfl, rfl⟩

theorem issue_neighbour (h : permits s n c clk (.neighbour b) = true) :
    let x := chanGet (issue s n c clk (.neighbour b)) n
    (bankGet c b).row = none ∧ (bankGet x b).busyUntil = clk + 410 ∧ (bankGet x b).rfm = none := by
  rw [show chanGet (issue s n c clk (.neighbour b)) n = cmdRfm c b clk from chanGet_chanSet_self]
  dsimp only
  rw [bankGet_cmdRfm]
  exact ⟨closed_of_mayRef h, rfl, rfl⟩

theorem issue_precharge (h : permits s n c clk (.precharge b) = true) :
    let x := chanGet (issue s n c clk (.precharge b)) n
    (bankGet c b).row ≠ none ∧ ((bankGet c b).actClk = 0 ∨ (bankGet c b).actClk + 68 ≤ clk) ∧
      (bankGet x b).row = none ∧ (bankGet x b).preClk = clk := by
  rw [show chanGet (issue s n c clk (.precharge b)) n = cmdPre c b clk from chanGet_chanSet_self]
  dsimp only
  rw [bankGet_cmdPre]
  obtain ⟨hopen, hact⟩ := open_of_mayPre h
  exact ⟨hopen, hact, rfl, rfl⟩

theorem issue_activate (h : permits s n c clk (.activate b row slot) = true) :
    let x := chanGet (issue s n c clk (.activate b row slot)) n
    (bankGet c b).row = none ∧ ((bankGet c b).preClk = 0 ∨ (bankGet c b).preClk + 34 ≤ clk) ∧
      (bankGet x b).row = some row ∧ (bankGet x b).actClk = clk ∧ x.cnt.act = (c.cnt.act + 1) % 2 ^ 32 := by
  obtain ⟨u, x, hact, -, hkeeps⟩ :=
    cmdAct_eq (s := chanSet s n c) (ch := n) (bank := b) (row := row) (slot := slot) (clk := clk)
  rw [show chanGet (issue s n c clk (.activate b row slot)) n = x from
    (congrArg (chanGet · n) hact).trans chanGet_chanSet_self]
  rw [chanGet_chanSet_self] at hkeeps
  obtain ⟨hrow, hclk, hcount⟩ := hkeeps
  rw [bankGet_activated] at hrow hclk
  simp only [permits, Bool.and_eq_true] at h
  obtain ⟨⟨hmay, -⟩, -⟩ := h
  obtain ⟨hclosed, hpre⟩ := closed_of_mayAct hmay
  exact ⟨hclosed, hpre, hrow, hclk, hcount⟩

theorem issue_column (h : permits s n c clk (.column write order col rmw) = true) :
    let x := chanGet (issue s n c clk (.column write order col rmw)) n
    x.timing.colClk = clk ∧ x.timing.lastWrite = (write && !rmw) ∧
      x.cnt.rd = (if write && !rmw then c.cnt.rd else (c.cnt.rd + 1) % 2 ^ 32) ∧
      x.cnt.wr = (if write && !rmw then (c.cnt.wr + 1) % 2 ^ 32 else c.cnt.wr) := by
  rw [show chanGet (issue s n c clk (.column write order col rmw)) n = cmdCol s c write order col rmw clk
    from chanGet_chanSet_self]
  cases hfind : (if write then c.writes else c.reads).find? (fun e => e.order = order) with
  | none => simp [permits, hfind] at h
  | some e => exact cmdCol_of_entry hfind

end Effects

/-! ### The command of a clk (R203, R209, R214, R220) -/

section Issue

variable {s : State} {ch : Fin 136} {clk : Nat} {parity : Bool} {d : DramCmd}

/-- The first command of R209's order that the timing rules permit. -/
def nextCommand (s : State) (ch clk : Nat) : Option DramCmd :=
  (candidates (seenClk s clk) (chanGet s ch) clk).find? (permits (seenClk s clk) ch (chanGet s ch) clk)

theorem exec_dramCommandIssue_of_training (h : clk < (chanGet s ch.val).trainUntil) :
    exec (.dramCommandIssue ch { clk := clk, parity := parity }) s = .next (seenClk s clk) :=
  if_pos (.inr h)

section Running

variable (hstate : (chanGet s ch.val).state = 1) (hrun : (chanGet s ch.val).trainUntil ≤ clk)

include hstate hrun

theorem runs_of_serving : ¬ ((!chanRefreshes (chanGet s ch.val)) = true ∨ clk < (chanGet s ch.val).trainUntil) := by
  rintro (hdown | htrain)
  · simp [chanRefreshes, chanUp, hstate] at hdown
  · omega

theorem exec_dramCommandIssue_of_none (h : nextCommand s ch.val clk = none) :
    exec (.dramCommandIssue ch { clk := clk, parity := parity }) s = .next (seenClk s clk) := by
  unfold nextCommand at h
  refine (if_neg (runs_of_serving hstate hrun)).trans ?_
  dsimp only
  rw [chanGet_seenClk, h]

theorem exec_dramCommandIssue_of_some (h : nextCommand s ch.val clk = some d) :
    exec (.dramCommandIssue ch { clk := clk, parity := parity }) s =
      .next (if parity then parityError (seenClk s clk) ch.val
        else issue (seenClk s clk) ch.val (chanGet s ch.val) clk d) := by
  unfold nextCommand at h
  refine (if_neg (runs_of_serving hstate hrun)).trans ?_
  dsimp only
  rw [chanGet_seenClk, h]

end Running

/-- Below CE_LIMIT a parity error is counted and does nothing else (R203, R220). -/
theorem parityError_of_below {n : Nat} (h : ceLimit s = 0 ∨ (chanGet s n).caErrs + 1 < ceLimit s) :
    parityError s n = chanSet s n { chanGet s n with caErrs := (chanGet s n).caErrs + 1 } := by
  refine if_neg ?_
  rintro ⟨hpos, hle⟩
  rw [chanMod, chanGet_chanSet_self] at hle
  change 0 < ceLimit s at hpos
  change ceLimit s ≤ (chanGet s n).caErrs + 1 at hle
  omega

/-- At CE_LIMIT a parity error prunes the channel, its contents readable (R220). -/
theorem parityError_of_limit {n : Nat} (hstate : (chanGet s n).state ≠ 4) (hpos : ceLimit s ≠ 0)
    (hlimit : ceLimit s ≤ (chanGet s n).caErrs + 1) :
    (chanGet (parityError s n) n).state = 4 ∧ (chanGet (parityError s n) n).readable = true := by
  unfold parityError
  extract_lets s1
  have h1 : chanGet s1 n = { chanGet s n with caErrs := (chanGet s n).caErrs + 1 } := chanGet_chanSet_self
  rw [if_pos ⟨Nat.pos_of_ne_zero hpos, by rw [h1]; exact hlimit⟩]
  obtain ⟨hpruned, hreadable, -⟩ := pruneChan_self (s := s1) (ch := n) (readable := true) (by rw [h1]; exact hstate)
  exact ⟨hpruned, hreadable⟩

end Issue

/-! ### Columns that return (R206, R303) -/

section Returns

variable {s : State} {ch : Fin 136} {errs : ColumnErrors} {e : ColRead} {rest : List ColRead} {clk : Nat}

theorem exec_dramReadData_of_early (h : (chanGet s ch.val).inflight = e :: rest) (hearly : errs.clk < e.clk + 44) :
    exec (.dramReadData ch errs) s = .next (seenClk s errs.clk) := by
  show execDramReadData ch errs s = _
  unfold execDramReadData
  extract_lets s' c
  rw [show c.inflight = e :: rest from h]
  exact if_pos hearly

theorem exec_dramReadData_of_clean (h : (chanGet s ch.val).inflight = e :: rest) (hdue : e.clk + 44 ≤ clk)
    (hclean : ∀ sl, cellsOf s ch.val = some sl → LineClean s sl (dramAddr s.stk.xmapAct e.row e.bank e.col)) :
    exec (.dramReadData ch { cells := [], transit := [], clk := clk }) s =
      .next (chanSet (seenClk s clk) ch.val { chanGet s ch.val with inflight := rest }) := by
  show execDramReadData ch _ s = _
  unfold execDramReadData
  extract_lets s' c
  rw [show c.inflight = e :: rest from h]
  have hcells : cellsOf (chanSet s' ch.val { c with inflight := rest }) ch.val = cellsOf s ch.val :=
    cellsOf_chanSet rfl rfl rfl rfl
  exact (if_neg (Nat.not_lt.2 hdue)).trans
    (congrArg Host.Outcome.next (columnAt_of_clean fun sl hsl => hclean sl (hcells.symm.trans hsl)))

end Returns

/-! ### The statement -/

section Statement

variable {s : State} {ch : Fin 136} {i : Instr} {clk n : Nat} {c x : Chan} {d : DramCmd} {P : State → Chan → Prop}

/-- A command runs at its channel alone: no other channel and no stored byte changes, and the channel is left as `P`
says. -/
def RunsAlone (s : State) (ch : Nat) (i : Instr) (P : State → Chan → Prop) : Prop :=
  ∃ t, exec i s = .next t ∧ Touches { td := true, stk := true, free := true } s t ∧
    (∀ n, n ≠ ch → chanGet t n = chanGet s n) ∧ P t (chanGet t ch)

theorem runsAlone_of_chanSet (hexec : exec i s = .next (chanSet (seenClk s clk) n x))
    (hleft : P (chanSet (seenClk s clk) n x) x) : RunsAlone s n i P :=
  ⟨_, hexec, chanSet_seenClk_touches.mono rfl, fun _ hne => chanGet_chanSet_of_ne hne,
    chanGet_chanSet_self.symm ▸ hleft⟩

theorem runsAlone_of_issue (hexec : exec i s = .next (issue (seenClk s clk) n c clk d))
    (hleft : P (issue (seenClk s clk) n c clk d) (chanGet (issue (seenClk s clk) n c clk d) n)) : RunsAlone s n i P :=
  ⟨_, hexec, issue_touches (seenClk_touches (.refl _ s) rfl) rfl, fun _ hne => chanGet_issue_of_ne hne, hleft⟩

end Statement

/-- Settles O45: a request that is not refused is queued, forwarded or merged; the command that is issued is one that
the timing rules permit, and what it leaves of its bank is said by one lemma a command. A command lost to a parity error
and a merge that keeps its first writer are the model's reading (log entry 68). -/
theorem channelsTakeRequestsAndIssueCommands : Obligations.ChannelsTakeRequestsAndIssueCommands := by
  unfold Obligations.ChannelsTakeRequestsAndIssueCommands
  intro ch clk s c s' runs hstate
  have hruns : runs = RunsAlone s ch.val := rfl
  clear_value runs
  subst hruns
  refine ⟨?requests, ?training, ?parity, ?command, ?early, ?late⟩
  case requests =>
    intro r hcount hfirst mask covers e
    refine ⟨fun hread hopen hroom => ?queued, fun hread hcovered hroom => ?covered, fun hread hfull => ?fullReads,
      fun hwrite hfind hroom => ?new, fun hwrite hfull => ?fullWrites, fun w hwrite hone hblock => ?merged⟩
    case queued =>
      refine runsAlone_of_chanSet
        (exec_channelRequestEnqueue_of_uncovered hstate hcount hfirst hread hroom hopen) ⟨rfl, ?_⟩
      dsimp only
      split <;> rfl
    case covered =>
      exact runsAlone_of_chanSet
        (exec_channelRequestEnqueue_of_covered hstate hcount hfirst hread hroom hcovered) ⟨rfl, rfl, rfl⟩
    case fullReads => exact exec_channelRequestEnqueue_of_full (by simpa [hread] using hfull)
    case new =>
      exact runsAlone_of_chanSet
        (exec_channelRequestEnqueue_of_new hstate hcount hfirst hwrite hroom hfind) ⟨rfl, rfl⟩
    case fullWrites => exact exec_channelRequestEnqueue_of_full (by simpa [hwrite] using hfull)
    case merged =>
      exact runsAlone_of_chanSet
        (exec_channelRequestEnqueue_of_merged hstate hcount hfirst hwrite hone hblock) ⟨rfl, rfl⟩
  case training => exact fun parity => exec_dramCommandIssue_of_training
  case parity =>
    intro d hrun hd
    have hexec := exec_dramCommandIssue_of_some (parity := true) hstate hrun hd
    refine ⟨fun hbelow => ?_, fun hpos hlimit => ⟨_, hexec, ?_⟩⟩
    · exact hexec.trans (congrArg Host.Outcome.next (parityError_of_below hbelow))
    · exact parityError_of_limit (s := s') (by rw [show chanGet s' ch.val = c from rfl, hstate]; decide) hpos hlimit
  case command =>
    intro hrun
    split
    next hnone => exact fun parity => exec_dramCommandIssue_of_none hstate hrun hnone
    next d hd =>
      have hmay := List.find?_some hd
      refine runsAlone_of_issue (exec_dramCommandIssue_of_some (parity := false) hstate hrun hd) ?_
      cases d with
      | refresh b => exact issue_refresh hmay
      | neighbour b => exact issue_neighbour hmay
      | precharge b => exact issue_precharge hmay
      | activate b row slot => exact issue_activate hmay
      | column write order col rmw => exact issue_column hmay
      | wake sid => exact congrArg Chan.sids chanGet_chanSet_self
  case early => exact fun e rest errs h hearly => exec_dramReadData_of_early h hearly
  case late => exact fun e rest h hdue hclean => runsAlone_of_chanSet (exec_dramReadData_of_clean h hdue hclean) rfl

end Sys2Proof.Proofs
end

section
/-! PROOFS. The upkeep of a stack channel (R207, R211, R212, R214, R215, R219 to R221, R223): idle rows, refresh debts,
training pieces, power-down, row repair, and the spare that takes a pruned channel's contents. -/

namespace Sys2Proof.Proofs

open Sys2Proof.Machine Sys2Proof.Laws

section Upkeep

variable {s : State} {ch : Fin 136} {i : Instr} {n clk : Nat} {x : Chan} {P : State → Chan → Prop}

/-- A piece of upkeep runs within the stack and traffic blocks, no stored byte among them, and leaves its channel as `P`
says. -/
def RunsWithin (s : State) (ch : Nat) (i : Instr) (P : State → Chan → Prop) : Prop :=
  ∃ t, exec i s = .next t ∧ Touches { td := true, stk := true } s t ∧ P t (chanGet t ch)

theorem runsWithin_of_chanSet (hexec : exec i s = .next (chanSet (seenClk s clk) n x))
    (hleft : P (chanSet (seenClk s clk) n x) x) : RunsWithin s n i P :=
  ⟨_, hexec, chanSet_seenClk_touches, chanGet_chanSet_self.symm ▸ hleft⟩

end Upkeep

/-! ### Idle rows (R207) -/

section Idle

variable {s : State} {ch : Fin 136} {b : Fin 64} {r clk : Nat}

theorem exec_idlePrecharge_of_idle (hrow : (bankGet (chanGet s ch.val) b).row = some r)
    (hquiet : ((chanGet s ch.val).reads ++ (chanGet s ch.val).writes).all
      (fun e => !(blockBank s e.block = b.val && blockRow e.block = r)) = true)
    (hidle : (bankGet (chanGet s ch.val) b).colClk + (chanGet s ch.val).idle ≤ clk)
    (hmay : mayPre (chanGet s ch.val) b clk = true) :
    exec (.idlePrecharge ch b clk) s = .next (chanSet (seenClk s clk) ch.val (cmdPre (chanGet s ch.val) b clk)) := by
  show execIdlePrecharge ch b clk s = _
  unfold execIdlePrecharge
  extract_lets s' c y
  rw [show y.row = some r from hrow]
  refine if_neg ?_
  rintro (hwanted | hearly | hnot)
  · rw [← List.not_any_eq_all_not, Bool.not_eq_true'] at hquiet
    exact Bool.false_ne_true (hquiet.symm.trans hwanted)
  · exact Nat.not_lt.2 hidle hearly
  · rw [show mayPre c b clk = true from hmay] at hnot
    cases hnot

end Idle

/-! ### Refresh debts (R211, R212, R215) -/

section Accrual

variable {s : State} {c : Chan} {ch : Fin 136} {b : Fin 64} {bank clk : Nat}

/-- A channel whose bank has accrued a debt: a ninth one forces a refresh. -/
def indebted (c : Chan) (bank clk : Nat) : Chan :=
  let c := bankMod c bank (fun b => { b with accrued := clk + 1 })
  let b := bankGet c bank
  if b.debt < 8 then bankSet c bank { b with debt := b.debt + 1 }
  else { bankSet c bank { b with forced := true } with cnt := { c.cnt with forced := sat16 c.cnt.forced } }

/-- A channel whose bank's debt has been noted: PEAK holds the highest, and a debt of 4 wakes the SID. -/
def peaked (c : Chan) (bank clk : Nat) : Chan :=
  let d := (bankGet c bank).debt
  let c := { c with cnt := { c.cnt with peak := max c.cnt.peak d } }
  if 4 ≤ d ∧ (c.sids.getD (bankSid bank) {}).down then wakeSid c (bankSid bank) clk true else c

theorem indebted_of_below (h : (bankGet c bank).debt < 8) :
    bankGet (indebted c bank clk) bank =
      { bankGet c bank with debt := (bankGet c bank).debt + 1, accrued := clk + 1 } ∧
      (indebted c bank clk).cnt = c.cnt ∧ (indebted c bank clk).sids = c.sids := by
  have hnoted := bankGet_bankMod_self (c := c) (b := bank) (f := fun b => { b with accrued := clk + 1 })
  unfold indebted
  extract_lets c1 b
  have hb : b = { bankGet c bank with accrued := clk + 1 } := hnoted
  rw [if_pos (by rw [hb]; exact h), bankGet_bankSet, if_pos rfl, hb]
  exact ⟨rfl, rfl, rfl⟩

theorem indebted_of_full (h : (bankGet c bank).debt = 8) :
    bankGet (indebted c bank clk) bank = { bankGet c bank with forced := true, accrued := clk + 1 } ∧
      (indebted c bank clk).cnt = { c.cnt with forced := min 65535 (c.cnt.forced + 1) } := by
  have hnoted := bankGet_bankMod_self (c := c) (b := bank) (f := fun b => { b with accrued := clk + 1 })
  unfold indebted
  extract_lets c1 b
  have hb : b = { bankGet c bank with accrued := clk + 1 } := hnoted
  rw [if_neg (by rw [hb]; simp [h])]
  refine ⟨(bankGet_bankSet c1 bank bank { b with forced := true }).trans ?_, ?_⟩
  · rw [if_pos rfl, hb]
  · rw [min_comm]
    rfl

theorem peaked_eq : ∃ sids, peaked c bank clk =
    { c with sids := sids, cnt := { c.cnt with peak := max c.cnt.peak (bankGet c bank).debt } } ∧
    (4 ≤ (bankGet c bank).debt → (c.sids.getD (bankSid bank) {}).down = true →
      sids = c.sids.set (bankSid bank) { down := false, idleSince := clk, readyAt := clk + 17, owing := true }) := by
  unfold peaked
  extract_lets d c1
  split
  next => exact ⟨_, rfl, fun _ _ => rfl⟩
  next h => exact ⟨c.sids, rfl, fun hd hdown => absurd ⟨hd, hdown⟩ h⟩

/-- A refresh debt rises at the bank's own clk of each period and at no other. -/
theorem exec_refreshAccrual_of_other (h : clk % tREFI (chanGet s ch.val) ≠ accrualAt (chanGet s ch.val) b.val) :
    exec (.refreshAccrual ch b clk) s = .next (seenClk s clk) :=
  if_pos (.inr (.inl h))

section Due

variable (hstate : (chanGet s ch.val).state = 1)
  (hdue : clk % tREFI (chanGet s ch.val) = accrualAt (chanGet s ch.val) b.val)
  (hnew : (bankGet (chanGet s ch.val) b).accrued ≠ clk + 1)

include hstate hdue hnew

theorem accrues_of_due : ¬ ((!chanRefreshes (chanGet s ch.val)) = true ∨
    clk % tREFI (chanGet s ch.val) ≠ accrualAt (chanGet s ch.val) b.val ∨
    (bankGet (chanGet s ch.val) b).accrued = clk + 1) := by
  rintro (hdown | hother | hagain)
  · simp [chanRefreshes, chanUp, hstate] at hdown
  · exact hother hdue
  · exact hnew hagain

theorem exec_refreshAccrual_of_due : exec (.refreshAccrual ch b clk) s =
    .next (chanSet (seenClk s clk) ch.val (peaked (indebted (chanGet s ch.val) b clk) b clk)) :=
  if_neg (accrues_of_due hstate hdue hnew)

end Due

end Accrual

/-! ### Training pieces (R214, R220) -/

section Training

variable {s : State} {c : Chan} {ch : Fin 136} {clk b : Nat} {passed : Bool}

/-- Every bank of a channel is precharged. -/
def closedBanks (c : Chan) : Chan := (List.range 64).foldl (fun c b => bankMod c b (fun x => { x with row := none })) c

theorem row_of_closedBanks {x : Chan} (hbanks : x.banks = (closedBanks c).banks) (hb : b < 64) :
    (bankGet x b).row = none := by
  have hfold := bankGet_foldl (c := c) (b := b) (g := fun c b => bankMod c b (fun x => { x with row := none }))
    (f := fun x => { x with row := none }) (fun _ _ _ => bankGet_bankMod) (fun _ => rfl) (List.range 64)
  rw [if_pos (List.mem_range.2 hb)] at hfold
  rw [bankGet, hbanks]
  exact congrArg Bank.row hfold

/-- A channel that a training piece has begun to occupy. -/
def trainingChan (c : Chan) (passed : Bool) (clk : Nat) : Chan :=
  { c with
    banks := (closedBanks c).banks
    sids := (List.range 4).map (fun i => let x := c.sids.getD i {}
      if (List.range 16).any (fun b => (bankGet c (16 * i + b)).row.isSome) then { x with idleSince := clk } else x)
    trainDue := false, trainUntil := clk + 256
    cnt := { c.cnt with
      trainRuns := wrap16 c.cnt.trainRuns, trainFails := if passed then c.cnt.trainFails else sat8 c.cnt.trainFails } }

theorem trainingChan_state : (trainingChan c passed clk).state = c.state := by
  unfold trainingChan
  dsimp only

/-- The piece's channel serves on, its rows closed, and knows how the piece ended. -/
def trainedChan (c : Chan) (passed : Bool) (clk : Nat) : Chan :=
  { trainingChan c passed clk with trainFailed := !passed }

theorem trainedChan_left (hstate : c.state = 1) :
    let x := trainedChan c passed clk
    x.state = 1 ∧ x.trainDue = false ∧ x.trainUntil = clk + 256 ∧ x.trainFailed = !passed ∧
      (∀ b, b < 64 → (bankGet x b).row = none) ∧ x.cnt.trainRuns = (c.cnt.trainRuns + 1) % 2 ^ 16 ∧
      x.cnt.trainFails = if passed then c.cnt.trainFails else min 255 (c.cnt.trainFails + 1) := by
  unfold trainedChan trainingChan
  refine ⟨hstate, rfl, rfl, rfl, fun b hb => ?_, rfl, ?_⟩
  · refine row_of_closedBanks (c := c) ?_ hb
    dsimp only
  · rw [min_comm]
    rfl

section Begins

variable (hstate : (chanGet s ch.val).state = 1) (hdue : (chanGet s ch.val).trainDue = true)
  (hdrain : (chanGet s ch.val).drain = false) (hslot : 32 ≤ slotOf s clk)

include hstate hdue hdrain hslot

theorem begins_of_due : ¬ ((!pieceDue (seenClk s clk) (chanGet s ch.val) clk) = true ∨
    ((chanGet s ch.val).state = 4 ∧ (!(chanGet s ch.val).asleep) = true)) := by
  have hpiece : pieceDue (seenClk s clk) (chanGet s ch.val) clk = true := by
    rw [pieceDue, hdue, hdrain]
    exact decide_eq_true hslot
  rw [hpiece, hstate]
  simp

theorem exec_trainingPiece_of_first (h : passed = true ∨ (chanGet s ch.val).trainFailed = false) :
    exec (.trainingPiece ch passed clk) s =
      .next (chanSet (seenClk s clk) ch.val (trainedChan (chanGet s ch.val) passed clk)) := by
  refine (if_neg (begins_of_due hstate hdue hdrain hslot)).trans ?_
  cases passed with
  | true => rfl
  | false =>
    have hfirst : ¬ (chanGet s ch.val).trainFailed = true := by simpa using h
    exact if_neg hfirst

theorem exec_trainingPiece_of_second (h : (chanGet s ch.val).trainFailed = true) :
    exec (.trainingPiece ch false clk) s =
      .next (pruneChan (chanSet (seenClk s clk) ch.val (trainingChan (chanGet s ch.val) false clk)) ch.val false) := by
  refine (if_neg (begins_of_due hstate hdue hdrain hslot)).trans ((if_pos h).trans (congrArg Host.Outcome.next ?_))
  exact if_neg (by rw [chanGet_seenClk, hstate]; decide)

end Begins

end Training

/-! ### Power-down (R215) -/

section PowerDown

variable {s : State} {ch : Fin 136} {sid : Fin 4} {clk : Nat}

theorem foldl_max_le {f : Nat → Nat} {k : Nat} {l : List Nat} {m : Nat} (hm : m ≤ k) (hl : ∀ b ∈ l, f b ≤ k) :
    l.foldl (fun m b => max m (f b)) m ≤ k := by
  induction l generalizing m with
  | nil => exact hm
  | cons b l ih =>
    exact ih (max_le hm (hl b List.mem_cons_self)) fun a ha => hl a (List.mem_cons_of_mem _ ha)

theorem exec_sidPowerDown_of_quiet (hup : chanUp (chanGet s ch.val) = true) (hpdn : (chanGet s ch.val).pdn ≠ 0)
    (htrain : (chanGet s ch.val).trainUntil ≤ clk) (hdown : ((chanGet s ch.val).sids.getD sid {}).down = false)
    (howing : ((chanGet s ch.val).sids.getD sid {}).owing = false)
    (hidle : ((chanGet s ch.val).sids.getD sid {}).idleSince + (chanGet s ch.val).pdn ≤ clk)
    (hbanks : ∀ i, i < 16 → (bankGet (chanGet s ch.val) (16 * sid.val + i)).row = none ∧
      (bankGet (chanGet s ch.val) (16 * sid.val + i)).busyUntil + (chanGet s ch.val).pdn ≤ clk ∧
      bankIdle s (chanGet s ch.val) (16 * sid.val + i) = true) :
    exec (.sidPowerDown ch sid clk) s = .next (chanSet (seenClk s clk) ch.val { chanGet s ch.val with
      sids := (chanGet s ch.val).sids.set sid { (chanGet s ch.val).sids.getD sid {} with down := true } }) := by
  have hrefreshes : chanRefreshes (chanGet s ch.val) = true := by rw [chanRefreshes, hup, Bool.true_or]
  have hmem {b : Nat} (hb : b ∈ (List.range 16).map (fun i => 16 * sid.val + i)) :
      ∃ i, i < 16 ∧ 16 * sid.val + i = b := by simpa using hb
  show execSidPowerDown ch sid clk s = _
  unfold execSidPowerDown
  extract_lets s' c x banks quiet
  have hquiet : quiet = true := by
    refine List.all_eq_true.2 fun b hb => ?_
    obtain ⟨i, hi, rfl⟩ := hmem hb
    obtain ⟨hrow, hbusy, hwait⟩ := hbanks i hi
    simp [show bankGet c _ = bankGet (chanGet s ch.val) (16 * sid.val + i) from rfl, hrow,
      show bankIdle s' c _ = true from hwait]
    omega
  have hsince : banks.foldl (fun m b => max m (bankGet c b).busyUntil) 0 ≤ clk - c.pdn := by
    refine foldl_max_le (Nat.zero_le _) fun b hb => ?_
    obtain ⟨i, hi, rfl⟩ := hmem hb
    exact Nat.le_sub_of_add_le (hbanks i hi).2.1
  refine if_neg ?_
  rintro (h | h | h | h | h | h | h)
  · rw [show chanRefreshes c = true from hrefreshes] at h
    cases h
  · exact hpdn h
  · exact Bool.false_ne_true (hdown.symm.trans h)
  · exact Bool.false_ne_true (howing.symm.trans h)
  · simp [hquiet] at h
  · exact Nat.not_lt.2 htrain h
  · have hpdnle : x.idleSince + c.pdn ≤ clk := hidle
    omega

end PowerDown

/-! ### Row repair (R219, R220) -/

section Repair

variable {s : State} {c : Chan} {ch : Fin 136} {b : Fin 64} {sl a row bank clk : Nat}

theorem foldl_of_fixed {α β : Type} {f : α → β → α} {y : α} {l : List β} (h : ∀ z ∈ l, f y z = y) :
    l.foldl f y = y := by
  induction l with
  | nil => rfl
  | cons z l ih =>
    rw [List.foldl_cons, h z List.mem_cons_self]
    exact ih fun w hw => h w (List.mem_cons_of_mem _ hw)

/-- The banks of the bank group of a bank (R204). -/
def groupBanks (bank : Nat) : List Nat := (List.range 4).map (fun i => bankSid bank * 16 + i * 4 + bank % 4)

theorem mem_groupBanks : bank ∈ groupBanks bank := by
  refine List.mem_map.2 ⟨bank % 16 / 4, List.mem_range.2 (by omega), ?_⟩
  rw [bankSid]
  omega

/-- A channel whose bank group is closed until a repair in it ends. -/
def groupClosed (c : Chan) (bank clk : Nat) : Chan :=
  (groupBanks bank).foldl
    (fun c g => touchSid (bankMod c g (fun x => { x with row := none, busyUntil := clk + 4096 })) g clk) c

theorem bankGet_groupClosed : bankGet (groupClosed c bank clk) bank =
    { bankGet c bank with row := none, busyUntil := clk + 4096 } := by
  have hfold := bankGet_foldl (c := c) (b := bank)
    (g := fun c g => touchSid (bankMod c g (fun x => { x with row := none, busyUntil := clk + 4096 })) g clk)
    (f := fun x => { x with row := none, busyUntil := clk + 4096 })
    (fun _ _ _ => bankGet_touchSid.trans bankGet_bankMod) (fun _ => rfl) (groupBanks bank)
  rwa [if_pos mem_groupBanks] at hfold

/-- A channel whose row has been given a spare row. -/
def repairedChan (c : Chan) (bank row clk : Nat) : Chan :=
  bankMod (groupClosed c bank clk) bank (fun x => { x with
    repaired := x.repaired ++ [row], rowErrs := tblErase x.rowErrs row })

theorem bankGet_repairedChan : bankGet (repairedChan c bank row clk) bank =
    { bankGet c bank with
      row := none, busyUntil := clk + 4096, repaired := (bankGet c bank).repaired ++ [row]
      rowErrs := tblErase (bankGet c bank).rowErrs row } := by
  rw [repairedChan, bankGet_bankMod_self, bankGet_groupClosed]

/-- An entry of the repair log. -/
def repairLogged (s : State) (e : Nat × Nat × Nat × Nat) : State :=
  { s with stk := { s.stk with repairLog := s.stk.repairLog ++ [e] } }

theorem repairLogged_touches {e : Nat × Nat × Nat × Nat} : Touches { td := true, stk := true } s (repairLogged s e) :=
  ⟨rfl, id⟩

/-- The state once a row has been given a spare row. -/
def repairedState (s : State) (ch bank row clk : Nat) : State :=
  repairLogged (chanSet (busColumns (seenClk s clk) ch 32) ch (repairedChan (chanGet s ch) bank row clk))
    (ch / 17, ch % 17, bank, row)

theorem repairedState_touches {n : Nat} : Touches { td := true, stk := true } s (repairedState s n bank row clk) :=
  (chanSet_touches (busColumns_touches (seenClk_touches (.refl _ s) rfl) rfl) rfl).trans repairLogged_touches

theorem chanGet_repairedState {n : Nat} :
    chanGet (repairedState s n bank row clk) n = repairedChan (chanGet s n) bank row clk :=
  tblGet_set_same

theorem not_pruned_of_up (h : chanUp c = true) : c.state ≠ 4 := by
  intro hpruned
  simp [chanUp, hpruned] at h

section Due

variable (hauto : autoBit s 3 = true) (hup : chanUp (chanGet s ch.val) = true)
  (htrain : (chanGet s ch.val).trainUntil ≤ clk)
  (hworn : 65536 ≤ tblGet (fun _ => 0) (bankGet (chanGet s ch.val) b).rowErrs row)

include hauto hup htrain hworn

theorem repairs_of_worn : ¬ ((!autoBit s 3) = true ∨ (!chanUp (chanGet s ch.val)) = true ∨
    clk < (chanGet s ch.val).trainUntil ∨
    (!rowDue s (tblGet (fun _ => 0) (bankGet (chanGet s ch.val) b).rowErrs row)) = true) := by
  simp [hauto, hup, rowDue, hworn]
  omega

theorem exec_rowRepair_of_full (hfull : 2 ≤ (bankGet (chanGet s ch.val) b).repaired.length) :
    exec (.rowRepair ch b row clk) s = .next (pruneChan (seenClk s clk) ch.val true) :=
  (if_neg (repairs_of_worn hauto hup htrain hworn)).trans (if_pos hfull)

theorem exec_rowRepair_of_spare (hspare : (bankGet (chanGet s ch.val) b).repaired.length < 2)
    (hlog : s.stk.repairLog.length < 4096) (hwaits : (sliceOfChan s ch.val).any (graftWaits s) = false)
    (hclean : ∀ sl, cellsOf s ch.val = some sl → ∀ col, col < 16 → LineClean s sl (dramAddr s.stk.xmapAct row b col)) :
    exec (.rowRepair ch b row clk) s = .next (repairedState s ch.val b.val row clk) := by
  refine (if_neg (repairs_of_worn hauto hup htrain hworn)).trans ((if_neg (Nat.not_le.2 hspare)).trans
    ((if_neg (Bool.eq_false_iff.1 hwaits)).trans ?_))
  extract_lets s1 s2 group c1 c2 s3
  have hs2 : s2 = s1 := by
    simp only [s2]
    split
    next => rfl
    next sl hsl =>
      refine foldl_of_fixed fun col hcol => ?_
      have hline : LineClean s1 sl (dramAddr s1.stk.xmapAct row b.val col) := hclean sl hsl col (List.mem_range.1 hcol)
      rw [readColumn_of_clean hline, writeBackColumn_of_clean hline]
  clear_value s2
  subst hs2
  exact if_pos hlog

end Due

end Repair

/-! ### The spare (R220, R221) -/

section Spare

variable {s : State} {c : Chan} {n clk : Nat}

/-- The spare of a channel's stack, and the slice that a data channel serves (R4, R5). -/
def spareOf (n : Nat) : Nat := 17 * (n / 17) + 16
def ownSlice (n : Nat) : Nat := 16 * (n / 17) + n % 17

/-- A pruned data channel that its idle spare can replace. -/
structure Graftable (s : State) (n : Nat) : Prop where
  data : n % 17 ≠ 16
  pruned : (chanGet s n).state = 4
  notCopying : (chanGet s n).copying = false
  idle : (chanGet s (spareOf n)).state = 3
  free : (chanGet s (spareOf n)).serves = none

theorem Graftable.grafts (h : Graftable s n) : ¬ (n % 17 = 16 ∨ (chanGet s n).state ≠ 4 ∨ (chanGet s n).copying = true ∨
    (chanGet s (spareOf n)).state ≠ 3 ∨ (chanGet s (spareOf n)).serves.isSome = true) := by
  simp [h.data, h.pruned, h.notCopying, h.idle, h.free]

theorem startGraft_of_readable (h : Graftable s n) (hreadable : (chanGet s n).readable = true) :
    startGraft s n = chanSet (chanSet s n { chanGet s n with copying := true, copied := 0 }) (spareOf n)
      { chanGet s (spareOf n) with state := 2, serves := some (ownSlice n) } :=
  (if_neg h.grafts).trans (if_pos hreadable)

theorem startGraft_of_unreadable (h : Graftable s n) (hlost : (chanGet s n).readable = false) :
    startGraft s n = chanSet s (spareOf n)
      { chanGet s (spareOf n) with serves := some (ownSlice n), graftDue := true } :=
  (if_neg h.grafts).trans (if_neg (by rw [hlost]; decide))

/-- The marks of a piece's words in the spare are gone: they are written anew. -/
def pieceCleared (s : State) (lo : Nat) : State :=
  { s with stk := { s.stk with marks := s.stk.marks.filter (fun e => e.1 < lo || lo + 262144 ≤ e.1) } }

theorem pieceCleared_touches {lo : Nat} : Touches { td := true, stk := true } s (pieceCleared s lo) := ⟨rfl, id⟩

/-- The state once a piece of a channel's contents has reached the spare. -/
def pieceCopied (s : State) (n clk : Nat) : State :=
  chanMod (pieceCleared (busColumns (busColumns (seenClk s clk) n 32768) (spareOf n) 32768)
    (wordKey (spareCells (n / 17)) ((chanGet s n).copied * 2097152))) n (fun c => { c with copied := c.copied + 1 })

theorem pieceCopied_touches : Touches { td := true, stk := true } s (pieceCopied s n clk) :=
  chanMod_touches ((busColumns_touches (busColumns_touches (seenClk_touches (.refl _ s) rfl) rfl) rfl).trans
    pieceCleared_touches) rfl

theorem chanGet_pieceCleared {lo k : Nat} : chanGet (pieceCleared s lo) k = chanGet s k := rfl

theorem chanGet_pieceCopied :
    chanGet (pieceCopied s n clk) n = { chanGet s n with copied := (chanGet s n).copied + 1 } := by
  rw [pieceCopied, chanGet_chanMod_self, chanGet_pieceCleared, chanGet_busColumns, chanGet_busColumns, chanGet_seenClk]

theorem chanGet_pieceCopied_of_ne {k : Nat} (h : k ≠ n) : chanGet (pieceCopied s n clk) k = chanGet s k := by
  rw [pieceCopied, chanMod, chanGet_chanSet_of_ne h, chanGet_pieceCleared, chanGet_busColumns, chanGet_busColumns,
    chanGet_seenClk]

/-- A piece without errors is copied as it stands; the last one lets the spare wait for the tick. -/
theorem exec_channelCopyPiece_of_clean {ch : Fin 136} (hcopying : (chanGet s ch.val).copying = true)
    (hawake : (chanGet s ch.val).asleep = false) (hleft : (chanGet s ch.val).copied < 2304)
    (hspare : (chanGet s (spareOf ch.val)).state = 2) (htrain : (chanGet s (spareOf ch.val)).trainUntil ≤ clk)
    (harm : s.di.injArm = false)
    (hclean : ∀ e ∈ s.stk.marks, e.1 < wordKey (ownSlice ch.val) ((chanGet s ch.val).copied * 2097152) ∨
      wordKey (ownSlice ch.val) ((chanGet s ch.val).copied * 2097152) + 262144 ≤ e.1) :
    exec (.channelCopyPiece { chan := ch, clk := clk }) s =
      .next (if (chanGet s ch.val).copied + 1 = 2304
        then chanMod (pieceCopied s ch.val clk) (spareOf ch.val) (fun x => { x with graftDue := true })
        else pieceCopied s ch.val clk) := by
  have hgo : ¬ ((!(chanGet s ch.val).copying) = true ∨ (chanGet s ch.val).asleep = true ∨
      (chanGet s (spareOf ch.val)).state ≠ 2 ∨ 2304 ≤ (chanGet s ch.val).copied ∨
      clk < (chanGet s (spareOf ch.val)).trainUntil) := by
    simp [hcopying, hawake, hspare]
    omega
  show execChannelCopyPiece _ s = _
  unfold execChannelCopyPiece
  extract_lets chan s1 c spare sl q qlo s2 _ s3 s4 lo lines s5 s6
  have hs4 : s4 = s3 := injectFlips_of_unarmed harm
  have hmarks : s4.stk.marks.filter (fun e => lo ≤ e.1 && e.1 < lo + 262144) = [] := by
    rw [hs4]
    refine List.filter_eq_nil_iff.2 fun e he => ?_
    have hout : e.1 < lo ∨ lo + 262144 ≤ e.1 := hclean e (List.mem_of_mem_filter he)
    simp only [Bool.and_eq_true, decide_eq_true_eq]
    omega
  have hlines : lines = [] := by
    simp only [lines, hmarks]
    rfl
  have hs5 : s5 = s3 := by
    simp only [s5, hlines]
    exact hs4
  have hs6 : s6 = pieceCopied s ch.val clk := by
    simp only [s6, hs5]
    rfl
  rw [apply_ite Host.Outcome.next, ← hs6]
  exact if_neg hgo

end Spare

/-- Settles O46: each command's guard is met, or is not, by the hypotheses of its clause; what the command then leaves
is one channel written, a prune, a graft or a piece copied. Periods that count from clk 0 (log entry 68) and an
uncorrectable error that counts 65,536 at its row (log entry 45) are the model's reading. -/
theorem channelUpkeep : Obligations.ChannelUpkeep := by
  unfold Obligations.ChannelUpkeep
  intro ch clk s c s' spare sl runs
  have hruns : runs = RunsWithin s ch.val := rfl
  clear_value runs
  subst hruns
  refine ⟨?idle, ?accrual, ?other, ?training, ?powerDown, ?repair, ?prune, ?pruned, ?graft, ?clear, ?copy⟩
  case idle =>
    intro b r hrow hquiet hidle hmay
    exact runsWithin_of_chanSet (exec_idlePrecharge_of_idle hrow hquiet hidle hmay) bankGet_cmdPre
  case accrual =>
    intro b hstate hdue hnew
    obtain ⟨sids, hpeaked, hwake⟩ := peaked_eq (c := indebted c b clk) (bank := b.val) (clk := clk)
    refine ⟨fun hdebt => runsWithin_of_chanSet (exec_refreshAccrual_of_due hstate hdue hnew) ?_,
      fun hdebt => runsWithin_of_chanSet (exec_refreshAccrual_of_due hstate hdue hnew) ?_⟩
    · obtain ⟨hbank, hcnt, hsids⟩ := indebted_of_below (clk := clk) hdebt
      rw [hbank, hsids] at hwake
      rw [hpeaked, hcnt, hbank]
      exact ⟨hbank, rfl, rfl, fun hthree hdown => hwake (Nat.succ_le_succ hthree) hdown⟩
    · obtain ⟨hbank, hcnt⟩ := indebted_of_full (clk := clk) hdebt
      rw [hpeaked, hcnt]
      exact ⟨hbank, rfl⟩
  case other => exact fun b => exec_refreshAccrual_of_other
  case training =>
    intro hstate hdue hdrain hslot
    refine ⟨fun passed h => ?_, fun h => ?_⟩
    · exact runsWithin_of_chanSet (exec_trainingPiece_of_first hstate hdue hdrain hslot h) (trainedChan_left hstate)
    · have hserving : (chanGet (chanSet s' ch.val (trainingChan c false clk)) ch.val).state ≠ 4 := by
        rw [chanGet_chanSet_self, trainingChan_state, hstate]
        decide
      obtain ⟨hpruned, hlost, -⟩ := pruneChan_self (readable := false) hserving
      exact ⟨_, exec_trainingPiece_of_second hstate hdue hdrain hslot h, pruneChan_touches chanSet_seenClk_touches rfl,
        hpruned, hlost⟩
  case powerDown =>
    intro sid hup hpdn htrain hdown howing hidle hbanks
    exact runsWithin_of_chanSet (exec_sidPowerDown_of_quiet hup hpdn htrain hdown howing hidle hbanks) rfl
  case repair =>
    intro b row hauto hup htrain hworn
    refine ⟨fun hfull => ?_, fun hspare hlog hwaits hclean => ?_⟩
    · obtain ⟨hpruned, hreadable, -⟩ := pruneChan_self (s := s') (readable := true) (not_pruned_of_up hup)
      exact ⟨_, exec_rowRepair_of_full hauto hup htrain hworn hfull,
        pruneChan_touches (seenClk_touches (.refl _ s) rfl) rfl, hpruned, hreadable⟩
    · refine ⟨_, exec_rowRepair_of_spare hauto hup htrain hworn hspare hlog hwaits hclean, repairedState_touches, ?_⟩
      dsimp only
      rw [chanGet_repairedState, bankGet_repairedChan]
      exact ⟨rfl, rfl, rfl, tblGet_erase_same, rfl⟩
  case prune =>
    intro hstate _
    obtain ⟨hpruned, hreadable, hreads, hwrites, hinflight⟩ := pruneChan_self (readable := true) hstate
    exact ⟨_, rfl, pruneChan_touches (.refl _ s) rfl, hpruned, hreadable, hreads, hwrites, hinflight⟩
  case pruned => exact fun h => congrArg Host.Outcome.next (pruneChan_of_pruned h)
  case graft =>
    intro hdata hstate hcopying hidle hserves
    have hgraft : Graftable s ch.val := ⟨hdata, hstate, hcopying, hidle, hserves⟩
    refine ⟨fun hreadable => ⟨_, rfl, startGraft_touches (.refl _ s) rfl, ?_⟩,
      fun hlost => ⟨_, rfl, startGraft_touches (.refl _ s) rfl, ?_⟩⟩
    · rw [startGraft_of_readable hgraft hreadable]
      exact ⟨(chanGet_chanSet_of_ne (spare_ne hdata)).trans chanGet_chanSet_self, chanGet_chanSet_self⟩
    · rw [startGraft_of_unreadable hgraft hlost]
      exact ⟨chanGet_chanSet_of_ne (spare_ne hdata), chanGet_chanSet_self⟩
  case clear => exact ⟨_, rfl, clearChan_touches (.refl _ s) rfl, chanGet_chanSet_self⟩
  case copy =>
    intro hdata hcopying hawake hleft hspare htrain harm hclean
    have hexec := exec_channelCopyPiece_of_clean hcopying hawake hleft hspare htrain harm hclean
    have hne : ch.val ≠ spareOf ch.val := spare_ne hdata
    by_cases hlast : c.copied + 1 = 2304
    · rw [if_pos hlast] at hexec
      refine ⟨_, hexec, chanMod_touches pieceCopied_touches rfl, ?_⟩
      refine ⟨(chanGet_chanSet_of_ne hne).trans chanGet_pieceCopied, ?_⟩
      rw [decide_eq_true (show c.copied = 2303 by omega), Bool.or_true]
      exact chanGet_chanMod_self.trans
        (congrArg (fun x : Chan => { x with graftDue := true }) (chanGet_pieceCopied_of_ne hne.symm))
    · rw [if_neg hlast] at hexec
      refine ⟨_, hexec, pieceCopied_touches, chanGet_pieceCopied, ?_⟩
      rw [decide_eq_false (show ¬ c.copied = 2303 by omega), Bool.or_false]
      exact chanGet_pieceCopied_of_ne hne.symm

end Sys2Proof.Proofs
end

section
/-! PROOFS. A program that fails (R239), refuted: a granule number of more than 32 bits names a granule of the next
partition in the map, which finds a page where the partition of the command has none. -/

namespace Sys2Proof.Proofs

open Sys2Proof.Machine Sys2Proof.Laws

/-! ### A granule that two partitions name -/

/-- Granule 0 of partition 1 while its frame is written back: its old copy on page 0 of stripe block 0, its new one on
page 1. In the map it has the key of granule 2^32 of partition 0 as well. -/
def writingGranule : Granule :=
  { st := .writing, loc := some { block := 0, page := 0 }, next := some { block := 0, page := 1 } }

/-- One group of two stripe blocks, both in use: block 0 is partition 0's, and block 1 is open for partition 1. -/
def sharedGroup : State :=
  { State.reset with
    fl := {
      groups := 1
      geom := [{ group := 0, target := 0, luns := 1, blocks := 2, pages := 4, planes := 1 }]
      blocks := [(0, { st := 1, pages := 2 }), (1, { st := 1, owner := 1 })]
      grans := [(2 ^ 32, writingGranule)] } }

/-- Partition 0 has no page for the granule, so its write-back ends; block 0 is then emptied, and the granule, which is
partition 1's there, starts to move to a page of block 1. -/
theorem exec_flashProgramFail_sharedGroup : ∃ t, exec (.flashProgramFail 0 (2 ^ 32)) sharedGroup = .next t ∧
    granGet t 0 (2 ^ 32) =
      { writingGranule with st := .dirty, next := some { block := 1, page := 0 } } := by
  refine ⟨_, rfl, ?_⟩
  decide +kernel

/-- Refutes O47: in its last clause, the granule ends DIRTY with a new location, neither of the two cases. The statement
quantifies over every granule number, one of more than 32 bits included, which no well-formed command names. -/
theorem not_granulesMoveBetweenFlashAndFrames : ¬ Obligations.GranulesMoveBetweenFlashAndFrames := by
  intro h
  obtain ⟨-, -, -, -, -, -, -, -, hfails⟩ := h 0 (2 ^ 32) sharedGroup
  have hgran : granGet sharedGroup 0 (2 ^ 32) = writingGranule := by decide +kernel
  obtain ⟨t, hrun, -, hends⟩ := hfails { block := 0, page := 1 } (by rw [Fin.val_zero, hgran]; rfl)
  obtain ⟨u, hran, hdirty⟩ := exec_flashProgramFail_sharedGroup
  obtain rfl := Host.Outcome.next.inj (hran.symm.trans hrun)
  obtain ⟨-, ⟨l, hpage⟩ | hnone⟩ := hends (by rw [Fin.val_zero, hgran]; rfl)
  · have hst := congrArg Granule.st (hdirty.symm.trans hpage)
    rw [Fin.val_zero, hgran] at hst
    cases hst
  · cases congrArg Granule.next (hdirty.symm.trans hnone)

end Sys2Proof.Proofs
end

section
/-! PROOFS. Stripe blocks and flash channels (R228, R229, R237 to R241): what the moves out of a block keep, what
becomes of a block that is emptied, and the end of its erase. -/

namespace Sys2Proof.Proofs

open Sys2Proof.Machine Sys2Proof.Laws

/-! ### Moves out of a stripe block (R236, R237) -/

section Moves

variable {s t u : State} {k p n : Nat} {x : Granule} {b : StripeBlock} {l old : FlashLoc} {c : FlashCopy}

theorem granSet_fl : (granSet s p n x).fl =
    { s.fl with grans := tblSet (fun _ => {}) s.fl.grans (p * 2 ^ 32 + n) x } := by
  unfold granSet
  dsimp only
  split
  · rfl
  · rw [injectFlips_fl, markSet_fl]

/-- The counts of blocks emptied, by cause: wear and reclaim, retention, read disturb (R237, R238). -/
def moveCounts (s : State) : Nat × Nat × Nat := (s.fl.relocWl, s.fl.relocRet, s.fl.relocRd)

theorem moveCounts_ext (h : moveCounts t = moveCounts s) :
    t.fl.relocWl = s.fl.relocWl ∧ t.fl.relocRet = s.fl.relocRet ∧ t.fl.relocRd = s.fl.relocRd := by
  simpa [moveCounts] using h

/-- What moving granules keeps: a block that is being emptied stays so, and no block more is counted. -/
structure KeepsEmptying (s t : State) : Prop where
  moving : ∀ k, (blockGet s k).moving = true → (blockGet t k).moving = true
  counts : moveCounts t = moveCounts s

theorem KeepsEmptying.refl (s : State) : KeepsEmptying s s := ⟨fun _ h => h, rfl⟩

theorem KeepsEmptying.trans (h : KeepsEmptying s t) (h' : KeepsEmptying t u) : KeepsEmptying s u :=
  ⟨fun k hk => h'.moving k (h.moving k hk), h'.counts.trans h.counts⟩

theorem KeepsEmptying.foldl {α : Type} {f : State → α → State} {l : List α} (hf : ∀ t a, KeepsEmptying t (f t a)) :
    KeepsEmptying s (l.foldl f s) := by
  induction l generalizing s with
  | nil => exact .refl s
  | cons a l ih => exact (hf s a).trans ih

theorem keepsEmptying_blockSet (h : (blockGet s k).moving = true → b.moving = true) :
    KeepsEmptying s (blockSet s k b) := by
  refine ⟨fun j hj => ?_, rfl⟩
  rw [blockGet_blockSet]
  split
  next hjk => exact h (hjk ▸ hj)
  next => exact hj

theorem keepsEmptying_granSet : KeepsEmptying s (granSet s p n x) := by
  have hblock (k : Nat) : blockGet (granSet s p n x) k = blockGet s k := by rw [blockGet, granSet_fl, ← blockGet]
  exact ⟨fun k hk => (hblock k).symm ▸ hk, by simp only [moveCounts, granSet_fl]⟩

theorem keepsEmptying_copySet : KeepsEmptying s (copySet s l c) := ⟨fun _ h => h, rfl⟩

theorem keepsEmptying_issueOnfi {op : OnfiOp} : KeepsEmptying s (issueOnfi s op l) := ⟨fun _ h => h, rfl⟩

theorem keepsEmptying_pageOf : KeepsEmptying s (pageOf s p k).1 := by
  unfold pageOf
  refine .trans ?_ keepsEmptying_issueOnfi
  exact keepsEmptying_blockSet id

theorem keepsEmptying_nextPage (h : nextPage s p = some (t, l)) : KeepsEmptying s t := by
  have hpage (k : Nat) (hk : pageOf s p k = (t, l)) : KeepsEmptying s t := by
    rw [show t = (pageOf s p k).1 by rw [hk]]
    exact keepsEmptying_pageOf
  unfold nextPage at h
  split at h
  next => cases h
  next =>
    split at h
    next k _ => exact hpage k (Option.some.inj h)
    next =>
      obtain ⟨k, -, hk⟩ := Option.map_eq_some_iff.1 h
      exact hpage k hk

/-- A granule takes a page that has been found for it, and its copy is read. -/
theorem keepsEmptying_place : KeepsEmptying s
    (copySet (granSet (movedCopy s p n old).1 p n x) l (movedCopy s p n old).2) := by
  have hread : KeepsEmptying s (movedCopy s p n old).1 := by
    unfold movedCopy
    refine .trans ?_ keepsEmptying_issueOnfi
    exact keepsEmptying_blockSet id
  exact hread.trans (keepsEmptying_granSet.trans keepsEmptying_copySet)

theorem keepsEmptying_moveGranule : KeepsEmptying s (moveGranule s p n) := by
  unfold moveGranule
  dsimp only
  split
  case h_1 => exact .refl s
  case h_3 => exact .refl s
  case h_2 =>
    split
    · exact .refl s
    · split
      next => exact .refl s
      next t l hpage => exact (keepsEmptying_nextPage hpage).trans keepsEmptying_place

end Moves

/-! ### A block that is emptied (R237 to R239) -/

section Emptied

variable {s t : State} {k src dst : Nat} {retiring : Bool}

/-- The block is being emptied still, or it holds nothing more and is queued for erase, or retired. -/
def Emptied (t : State) (k : Nat) : Prop := (blockGet t k).moving = true ∨ (blockGet t k).st = 3 ∨ (blockGet t k).st = 4

theorem blockGet_retireBlock :
    blockGet (retireBlock s k) k = { blockGet s k with st := 4, moving := false, retiring := false } := by
  have hblock := blockGet_blockSet s k k { blockGet s k with st := 4, moving := false, retiring := false }
  rw [if_pos rfl] at hblock
  exact hblock

theorem emptied_settleBlock (h : (blockGet s k).moving = true) : Emptied (settleBlock s k) k := by
  unfold settleBlock
  dsimp only
  split
  · exact .inl h
  · split
    · exact .inr (.inr (by rw [blockGet_retireBlock]))
    · exact .inr (.inl (by rw [blockGet_blockSet, if_pos rfl]))

theorem moveCounts_settleBlock : moveCounts (settleBlock s k) = moveCounts s := by
  unfold settleBlock
  dsimp only
  split
  · rfl
  · split <;> rfl

/-- A block that is being emptied, once granules have moved, is settled. -/
theorem emptied_of_moves (hmoving : (blockGet s k).moving = true) (hkept : KeepsEmptying s t) :
    Emptied (settleBlock t k) k ∧ moveCounts (settleBlock t k) = moveCounts s :=
  ⟨emptied_settleBlock (hkept.moving k hmoving), moveCounts_settleBlock.trans hkept.counts⟩

theorem emptyBlock_emptied : Emptied (emptyBlock s k retiring) k ∧
    moveCounts (emptyBlock s k retiring) = moveCounts s := by
  refine emptied_of_moves (s := blockMod s k _) ?_ (.foldl fun _ _ => keepsEmptying_moveGranule)
  rw [blockMod, blockGet_blockSet, if_pos rfl]

theorem moveInto_emptied : Emptied (moveInto s src dst) src ∧ moveCounts (moveInto s src dst) = moveCounts s := by
  unfold moveInto
  extract_lets p s1 other s2
  have hmoves : KeepsEmptying s1 s2 := .foldl fun t e => by
    dsimp only
    split
    · exact .refl t
    · exact keepsEmptying_pageOf.trans keepsEmptying_place
    · exact .refl t
  have hmoving : (blockGet s1 src).moving = true := by
    rw [show s1 = blockSet s src _ from rfl, blockGet_blockSet, if_pos rfl]
  refine emptied_of_moves (s := s1) hmoving (hmoves.trans ?_)
  split
  · exact keepsEmptying_blockSet id
  · exact .refl s2

end Emptied

/-! ### When a block is emptied (R237, R238) -/

section Causes

variable {s : State} {g : Fin 8} {e : Nat × StripeBlock} {k dst : Nat}

theorem exec_flashReclaim_of_enough (h : allGood s.fl g ≤ 64 * freeCount s.fl g) :
    exec (.flashReclaim g) s = .next s := if_pos h

theorem exec_flashReclaim_of_short (hshort : 64 * freeCount s.fl g < allGood s.fl g)
    (hleast : minBy (fun x => (validIn s x.1).length * 2 ^ 40 + x.1) (filledBlocks s g.val) = some e) :
    exec (.flashReclaim g) s = .next (emptyBlock (countWl s) e.1 false) := by
  show execFlashReclaim g s = _
  rw [execFlashReclaim, if_neg (Nat.not_le.2 hshort), hleast]

theorem exec_flashWearLevel_of_even (h : (eraseSpan s.fl g).1 - (eraseSpan s.fl g).2 ≤ s.fl.spread) :
    exec (.flashWearLevel g) s = .next s := if_pos h

theorem exec_flashWearLevel_of_uneven (huneven : s.fl.spread < (eraseSpan s.fl g).1 - (eraseSpan s.fl g).2)
    (hcold : minBy (fun x => x.2.erases * 2 ^ 40 + x.1) (filledBlocks s g.val) = some e)
    (hhot : hottestFree s.fl g = some dst) :
    exec (.flashWearLevel g) s = .next (moveInto (countWl s) e.1 dst) := by
  show execFlashWearLevel g s = _
  rw [execFlashWearLevel, if_neg (Nat.not_le.2 huneven), hcold, hhot]

/-- A block that holds granules of an active partition, in a group in service while the flash I/O has its rails. -/
def Holding (s : State) (k : Nat) : Prop :=
  ((blockGet s k).st = 1 ∨ (blockGet s k).st = 2) ∧ (blockGet s k).moving = false ∧
    s.fl.groups.testBit (stripeGroup k) = true ∧ (partGet s (blockGet s k).owner).st = .active ∧ s.pwr.state ≤ 1

theorem movesStart_of_active {p : Nat} (h : (partGet s p).st = .active) : movesStart s p = true := by
  simp [movesStart, scrubbed, h]

/-- A block more that is emptied for its age, and for read disturb. -/
def countRet (s : State) : State := { s with fl := { s.fl with relocRet := wrap32 s.fl.relocRet } }
def countRd (s : State) : State := { s with fl := { s.fl with relocRd := wrap32 s.fl.relocRd } }

/-- R238: age, a bad read among it, comes before read disturb. -/
theorem exec_flashRefreshMove_of_holding (h : Holding s k) : exec (.flashRefreshMove k) s =
    if (blockGet s k).worn ∨ s.fl.retain * 2 ^ 24 ≤ s.td.ptime - (blockGet s k).born then
      .next (emptyBlock (countRet s) k false)
    else if s.fl.rdlim * 1024 ≤ (blockGet s k).reads then .next (emptyBlock (countRd s) k false)
    else .next s := by
  obtain ⟨hst, hstill, hgroup, hactive, hio⟩ := h
  refine if_neg ?_
  simp [hst, hstill, hgroup, movesStart_of_active hactive, ioOn, hio]

end Causes

/-! ### The end of an erase (R239, R244) -/

section Erased

variable {α : Type} {d : Nat → α} {m : Tbl α} {x : α} {a : Nat × α} {s : State} {k : Nat} {passed : Bool}

theorem mem_of_mem_tblErase (h : a ∈ tblErase m k) : a ∈ m := by
  induction m with
  | nil => cases h
  | cons e m ih =>
    rw [tblErase] at h
    split at h
    · exact List.mem_cons_of_mem e (ih h)
    · exact (List.mem_cons.1 h).elim (fun he => he ▸ List.mem_cons_self) fun hm => List.mem_cons_of_mem e (ih hm)

theorem mem_or_eq_of_mem_tblPut (h : a ∈ tblPut m k x) : a ∈ m ∨ a = (k, x) := by
  induction m with
  | nil => exact .inr (List.mem_singleton.1 h)
  | cons e m ih =>
    rw [tblPut] at h
    split at h
    · exact (List.mem_cons.1 h).elim .inr fun hm => .inl (List.mem_cons_of_mem e hm)
    · split at h
      · exact (List.mem_cons.1 h).elim .inr .inl
      · exact (List.mem_cons.1 h).elim (fun he => .inl (he ▸ List.mem_cons_self))
          fun hm => (ih hm).imp_left (List.mem_cons_of_mem e)

variable [DecidableEq α]

/-- A write lists nothing new but the entry written. -/
theorem mem_or_eq_of_mem_tblSet (h : a ∈ tblSet d m k x) : a ∈ m ∨ a = (k, x) := by
  unfold tblSet at h
  split at h
  · exact .inl (mem_of_mem_tblErase h)
  · exact mem_or_eq_of_mem_tblPut h

/-- No block is being emptied. -/
def NoneMoving (s : State) : Prop := ∀ e ∈ s.fl.blocks, e.2.moving = false

theorem resumeMoves_of_noneMoving (h : NoneMoving s) : resumeMoves s = s := by
  have hnone : s.fl.blocks.filter (fun e => e.2.moving) = [] :=
    List.filter_eq_nil_iff.2 fun e he => by simp [h e he]
  rw [resumeMoves, hnone, List.foldl_nil]

theorem noneMoving_blockSet {b : StripeBlock} (h : NoneMoving s) (hb : b.moving = false) :
    NoneMoving (blockSet s k b) :=
  fun _ he => (mem_or_eq_of_mem_tblSet (d := fun _ => {}) he).elim (h _) fun heq => heq ▸ hb

/-- The command that erases a block, to the four channels of its group. -/
def eraseIssued (s : State) (k : Nat) : State :=
  issueOnfi s (if planePartner s k then .eraseBlockMultiPlane else .eraseBlock) { block := k, page := 0 }

theorem noneMoving_erased (h : NoneMoving s) :
    NoneMoving (blockSet (eraseIssued s k) k { erases := (blockGet s k).erases + 1 }) :=
  noneMoving_blockSet (s := eraseIssued s k) h rfl

theorem exec_flashEraseDone_of_idle (h : (blockGet s k).st ≠ 3) : exec (.flashEraseDone k passed) s = .next s :=
  if_pos (.inl h)

theorem exec_flashEraseDone_of_queued (hst : (blockGet s k).st = 3) (hio : s.pwr.state ≤ 1) :
    exec (.flashEraseDone k passed) s =
      if passed ∧ !(blockGet s k).retiring then
        .next (resumeMoves (blockSet (eraseIssued s k) k { erases := (blockGet s k).erases + 1 }))
      else .next (retireBlock (eraseIssued s k) k) :=
  if_neg (by simp [hst, ioOn, hio])

end Erased

/-! ### Channels, spares and counters (R239, R241, R245) -/

section Channels

variable {s t : State} {c : Fin 32} {g k m n p : Nat}

/-- Entries 0 to n − 1 changed one after another, each once. -/
theorem read_foldl_range {β : Type} {read : State → Nat → β} {change : State → Nat → State} {f : β → β}
    (hread : ∀ s k j, read (change s k) j = if j = k then f (read s k) else read s j) :
    read ((List.range n).foldl change s) g = if g < n then f (read s g) else read s g := by
  induction n with
  | zero => rfl
  | succ n ih =>
    rw [List.range_succ, List.foldl_append, List.foldl_cons, List.foldl_nil, hread]
    by_cases hg : g = n
    · subst hg
      rw [if_pos rfl, if_pos (Nat.lt_succ_self g), ih, if_neg (lt_irrefl g)]
    · rw [if_neg hg, ih]
      exact if_congr (by omega) rfl rfl

/-- A mask without one of its bits. -/
theorem testBit_withoutBit :
    (if m.testBit k then m ^^^ (1 <<< k) else m).testBit g = (m.testBit g && !decide (g = k)) := by
  split
  next hset =>
    rw [Nat.testBit_xor, Nat.one_shiftLeft, Nat.testBit_two_pow]
    by_cases hg : g = k
    · simp [hg, hset]
    · simp [hg, Ne.symm hg]
  next hclear =>
    by_cases hg : g = k
    · simp [hg, hclear]
    · simp [hg]

theorem exec_flashChannelPrune_of_live (h : (tblGet (fun _ => (0, 0, 0)) s.fl.chans c).1 ≠ 2) :
    ∃ t, exec (.flashChannelPrune c) s = .next t ∧ (tblGet (fun _ => (0, 0, 0)) t.fl.chans c).1 = 2 ∧
      (∀ g, t.fl.groups.testBit g = (s.fl.groups.testBit g && !decide (g = c.val / 4))) ∧ t.fl.grans = s.fl.grans :=
  ⟨_, if_neg h, congrArg Prod.fst (tblGet_set_same (x := (2, 0, 0))), fun _ => testBit_withoutBit, rfl⟩

/-- The retired blocks of a group are replaced, while its reserve lasts (R239). -/
def replaceRetired (s : State) (g : Nat) : State :=
  { s with fl := { s.fl with
    reserve := tblMod (fun _ => 0) s.fl.reserve g
      (fun x => x - min (reserveLeft s.fl g) (tblGet (fun _ => 0) s.fl.unreplaced g))
    unreplaced := tblMod (fun _ => 0) s.fl.unreplaced g
      (fun x => x - min (reserveLeft s.fl g) (tblGet (fun _ => 0) s.fl.unreplaced g)) } }

theorem graftFlash_eq : graftFlash s = resumeMoves ((List.range 8).foldl replaceRetired s) := rfl

theorem replaceRetired_foldl_blocks {l : List Nat} : (l.foldl replaceRetired s).fl.blocks = s.fl.blocks := by
  induction l generalizing s with
  | nil => rfl
  | cons g l ih => exact ih

theorem replaceRetired_foldl_touches {l : List Nat} : Touches { fl := true } s (l.foldl replaceRetired s) :=
  touches_foldl (.refl _ s) fun t h _ => h.trans (t := t) ⟨rfl, id⟩

/-- What a group has left to replace with, and to replace. -/
def spares (s : State) (g : Nat) : Nat × Nat :=
  (tblGet (fun _ => 0) s.fl.reserve g, tblGet (fun _ => 0) s.fl.unreplaced g)

/-- The same once as many are replaced as the reserve lasts. -/
def afterGraft (x : Nat × Nat) : Nat × Nat := (x.1 - min x.1 x.2, x.2 - min x.1 x.2)

theorem spares_afterGraft (h : spares t g = afterGraft (spares s g)) :
    let r := tblGet (fun _ => 0) s.fl.reserve g
    let u := tblGet (fun _ => 0) s.fl.unreplaced g
    tblGet (fun _ => 0) t.fl.reserve g = r - min r u ∧ tblGet (fun _ => 0) t.fl.unreplaced g = u - min r u :=
  Prod.ext_iff.1 h

theorem spares_replaceRetired : spares (replaceRetired s k) g =
    if g = k then afterGraft (spares s k) else spares s g := by
  simp only [spares, afterGraft, replaceRetired, tblMod, tblGet_set, reserveLeft]
  split <;> rfl

theorem spares_foldl_replaceRetired : spares ((List.range n).foldl replaceRetired s) g =
    if g < n then afterGraft (spares s g) else spares s g :=
  read_foldl_range fun _ _ _ => spares_replaceRetired

theorem exec_flGraft_of_noneMoving (h : NoneMoving s) :
    exec .flGraft s = .next ((List.range 8).foldl replaceRetired s) := by
  have hnone : NoneMoving ((List.range 8).foldl replaceRetired s) := fun e he => h e (replaceRetired_foldl_blocks ▸ he)
  exact congrArg Host.Outcome.next (graftFlash_eq.trans (resumeMoves_of_noneMoving hnone))

/-- The event counters of the tier (R245). -/
def eventsCleared (s : State) : State :=
  { s with fl := { s.fl with
    factoryBad := 0, badGrown := 0, relocRet := 0, relocRd := 0, relocWl := 0, eccUncorr := 0, eccRetry := 0 } }

/-- The event counters of a partition (R246). -/
def hitsCleared (s : State) (p : Nat) : State := partCnt s p (fun c => { c with flHit := 0, flMiss := 0, flWb := 0 })

/-- Hits, misses and write-backs at zero, the rest of the partition as it was. -/
def withoutHits (x : Partition) : Partition := { x with cnt := { x.cnt with flHit := 0, flMiss := 0, flWb := 0 } }

theorem partGet_hitsCleared : partGet (hitsCleared s k) p = if p = k then withoutHits (partGet s k) else partGet s p :=
  partGet_partMod s k p withoutHits

theorem clearFlash_eq : clearFlash s = (List.range 32).foldl hitsCleared (eventsCleared s) := rfl

theorem clearFlash_fl : (clearFlash s).fl = (eventsCleared s).fl := by
  have htouches : Touches { parts := true } (eventsCleared s) (clearFlash s) :=
    touches_foldl (.refl _ _) fun _ h _ => partCnt_touches h rfl
  exact htouches.fl rfl

theorem partGet_clearFlash (h : p < 32) : (partGet (clearFlash s) p).cnt =
    { (partGet s p).cnt with flHit := 0, flMiss := 0, flWb := 0 } := by
  rw [clearFlash_eq, read_foldl_range fun _ _ _ => partGet_hitsCleared, if_pos h]
  rfl

end Channels

/-! ### Discovery (R228, R229) -/

section Discovery

variable {s : State} {r : FlashReport} {g : Nat}

theorem exec_flashDiscovery_of_discovered (h : s.fl.discovered = true) : exec (.flashDiscovery r) s = .next s :=
  if_pos (.inl h)

theorem exec_flashDiscovery_of_fresh (h : s.fl.discovered = false)
    (hstage : s.pwr.stage = .serving ∨ s.pwr.stage = .filling) : exec (.flashDiscovery r) s = .next (discover s r) := by
  refine if_neg ?_
  rcases hstage with hstage | hstage <;> simp [h, hstage]

theorem discover_usable : (discover s r).fl.usable = 86 * flashNow (discover s r).fl / 3200 := rfl

theorem discover_reserve (h : g < 8) :
    tblGet (fun _ => 0) (discover s r).fl.reserve g = allGood (discover s r).fl g / 50 :=
  tblGet_tblSetMany_range.trans (if_pos h)

end Discovery

/-- Settles O48: a block that is emptied is settled after its granules' moves, of which none ends its emptying or counts
another; the end of an erase, a graft, a channel that leaves service, and discovery by what each writes. -/
theorem stripeBlocksTurnOver : Obligations.StripeBlocksTurnOver := by
  intro s settled emptied
  refine ⟨fun g h => exec_flashReclaim_of_enough h, fun g e hshort hleast => ?reclaim,
    fun g h => exec_flashWearLevel_of_even h, fun g e dst huneven hcold hhot => ?wear, fun k => ?block,
    fun c h => exec_flashChannelPrune_of_live h, fun hsettled => ?graft,
    ⟨_, rfl, clearFlash_fl, fun p hp => partGet_clearFlash hp⟩, fun h r => exec_flashDiscovery_of_discovered h,
    fun h hstage r => ⟨_, exec_flashDiscovery_of_fresh h hstage, rfl, rfl, discover_usable, fun g => discover_reserve⟩⟩
  case reclaim =>
    obtain ⟨hemptied, hcounts⟩ := emptyBlock_emptied (s := countWl s) (k := e.1) (retiring := false)
    exact ⟨_, exec_flashReclaim_of_short hshort hleast, congrArg Prod.fst hcounts, hemptied⟩
  case wear =>
    obtain ⟨hemptied, hcounts⟩ := moveInto_emptied (s := countWl s) (src := e.1) (dst := dst)
    exact ⟨_, exec_flashWearLevel_of_uneven huneven hcold hhot, congrArg Prod.fst hcounts, hemptied⟩
  case block =>
    intro b used aged
    refine ⟨fun hused haged => ?ageing, fun hused hfresh hread => ?disturbed, fun hused hfresh hread => ?resting,
      fun hst hio hkept hsettled => ?erased, fun passed hst hio hbad => ?retired,
      fun hst passed => exec_flashEraseDone_of_idle hst⟩
    case ageing =>
      obtain ⟨hemptied, hcounts⟩ := emptyBlock_emptied (s := countRet s) (k := k) (retiring := false)
      obtain ⟨-, hret, hrd⟩ := moveCounts_ext hcounts
      exact ⟨_, (exec_flashRefreshMove_of_holding hused).trans (if_pos haged), hemptied, hret, hrd⟩
    case disturbed =>
      obtain ⟨hemptied, hcounts⟩ := emptyBlock_emptied (s := countRd s) (k := k) (retiring := false)
      obtain ⟨-, hret, hrd⟩ := moveCounts_ext hcounts
      exact ⟨_, (exec_flashRefreshMove_of_holding hused).trans ((if_neg hfresh).trans (if_pos hread)), hemptied, hrd,
        hret⟩
    case resting =>
      exact (exec_flashRefreshMove_of_holding hused).trans ((if_neg hfresh).trans (if_neg (Nat.not_le.2 hread)))
    case erased =>
      have hexec := exec_flashEraseDone_of_queued (passed := true) hst hio
      rw [if_pos (by simp [show (blockGet s k).retiring = false from hkept]),
        resumeMoves_of_noneMoving (noneMoving_erased hsettled)] at hexec
      exact ⟨_, hexec, (blockGet_blockSet _ k k _).trans (if_pos rfl)⟩
    case retired =>
      have hretired : ¬ (passed = true ∧ (!(blockGet s k).retiring) = true) := by
        rcases hbad with hfailed | hretiring
        · simp [hfailed]
        · simp [show (blockGet s k).retiring = true from hretiring]
      exact ⟨_, (exec_flashEraseDone_of_queued hst hio).trans (if_neg hretired), by rw [blockGet_retireBlock], rfl,
        satTo_thirtyTwo _⟩
  case graft =>
    refine ⟨_, exec_flGraft_of_noneMoving hsettled, replaceRetired_foldl_touches, fun g hg => ?_⟩
    exact spares_afterGraft (spares_foldl_replaceRetired.trans (if_pos hg))

end Sys2Proof.Proofs
end

section
/-! PROOFS. The near bank's request port (R254 to R256, R277): one aligned word of a bank without errors, as the request
port reads and writes it, and the request that asks for it. -/

namespace Sys2Proof.Proofs

open Sys2Proof.Machine Sys2Proof.Laws

/-! ### One near word -/

section NearWords

variable {s t : State} {source sl b n p off : Nat} {bs : List Byte} {v : Byte}

/-- Nothing of the near banks stands in the way of an access: no stored bit is flipped, no row is lost, and nothing has
been written in the clk. -/
structure NearQuiet (s : State) : Prop where
  flips : s.near.flips = []
  lostRows : s.near.lostRows = []
  own : s.near.own = []
  prior : s.near.prior = []

/-- A port has taken up an access: the banks have moved to its clk. -/
def PortTaken (s t : State) : Prop :=
  ∃ clk busy, t = { s with near := { s.near with clk := clk, busy := busy } }

theorem PortTaken.touches (h : PortTaken s t) : Touches { near := true } s t := by
  obtain ⟨clk, busy, rfl⟩ := h
  exact ⟨rfl, id⟩

theorem PortTaken.quiet (h : PortTaken s t) (hquiet : NearQuiet s) : NearQuiet t := by
  obtain ⟨clk, busy, rfl⟩ := h
  exact ⟨hquiet.flips, hquiet.lostRows, hquiet.own, hquiet.prior⟩

theorem PortTaken.nearBytes_eq (h : PortTaken s t) : nearBytes t sl b n = nearBytes s sl b n := by
  obtain ⟨clk, busy, rfl⟩ := h
  rfl

/-- Outside confidential mode a collision is counted at the slice's tile. -/
theorem PortTaken.countCollision_coll (h : PortTaken s t) : (countCollision t p sl).near.coll =
    if isConf s p then s.near.coll
    else s.near.coll.set (sl / 16) ((s.near.coll.getD (sl / 16) 0 + 1) % 2 ^ 32) := by
  obtain ⟨clk, busy, rfl⟩ := h
  unfold countCollision
  split
  next hconf => exact (if_pos hconf).symm
  next hconf => exact (if_neg hconf).symm

theorem otherBegin_takes_port {word len : Nat} {write : Bool} (hquiet : NearQuiet s) :
    PortTaken s (otherBegin s word len write) := by
  have henter : PortTaken s (nearEnter s (freeOf s word false)) := by
    unfold nearEnter
    split
    · exact ⟨_, _, rfl⟩
    · exact ⟨freeOf s word false, _, by rw [← hquiet.own, ← hquiet.prior]⟩
  obtain ⟨clk, busy, hport⟩ := henter
  unfold otherBegin
  rw [hport]
  exact ⟨_, _, rfl⟩

theorem nearBytes_length : (nearBytes s sl b n).length = n := by
  rw [nearBytes, List.length_map, List.length_range]

theorem nearBytes_succ : nearBytes s sl b (n + 1) = nearByte s sl b :: nearBytes s sl (b + 1) n := by
  simp [nearBytes, List.range_succ_eq_map, Nat.add_comm, Nat.add_left_comm]

theorem nearByte_nearStore_of_before {c : Nat} (h : b < c) :
    nearByte (nearStore s sl c bs) sl b = nearByte s sl b := by
  induction bs generalizing s c with
  | nil => rfl
  | cons v bs ih =>
    rw [nearStore, ih (Nat.lt_succ_of_lt h), nearByte_nearSetByte, if_neg (by unfold nearByteKey; omega)]

theorem nearBytes_nearStore : nearBytes (nearStore s sl b bs) sl b bs.length = bs := by
  induction bs generalizing s b with
  | nil => rfl
  | cons v bs ih =>
    rw [nearStore, List.length_cons, nearBytes_succ, ih, nearByte_nearStore_of_before (Nat.lt_succ_self b),
      nearByte_nearSetByte, if_pos rfl]

/-- R254: a byte of the window stands at the same place of its word in the share. -/
theorem nearPlace_mod_eight {slices : List Nat} (h : nearPlace slices n = some (sl, b)) : b % 8 = n % 8 := by
  unfold nearPlace at h
  extract_lets c at h
  split at h
  next => cases h
  next =>
    obtain ⟨-, rfl⟩ := Prod.mk.inj (Option.some.inj h)
    generalize n / (256 * c) = row
    omega

theorem flipBytes_zero : flipBytes bs 0 = bs := by
  refine List.ext_getElem (by simp [flipBytes]) fun i h _ => ?_
  have hi : i < bs.length := by simpa [flipBytes] using h
  simp [flipBytes, hi]

theorem nearDeliver_of_no_flip : nearDeliver s source sl b (bs, 0) = (s, bs, false, nearRowLost s sl b) := by
  have hdecode : nearDecode 0 = some (0, 0) := by decide +kernel
  simp only [nearDeliver, hdecode, if_true, Nat.zero_mod, flipBytes_zero]

theorem nearSeeWord_of_quiet (hquiet : NearQuiet s) (hb : b % 8 = 0) :
    nearSeeWord s source sl b = (s, nearBytes s sl b 8, false, false) := by
  have hseen : nearSeen s sl b = (nearBytes s sl b 8, 0) := by
    simp [nearSeen, hquiet.prior, nearFlips, hquiet.flips, tblGet, show b / 8 * 8 = b by omega]
  rw [nearSeeWord, hseen, nearDeliver_of_no_flip]
  simp [nearRowLost, hquiet.lostRows]

theorem sliceBytes_whole (h : bs.length = n) : sliceBytes bs 0 n = bs := by
  simp [sliceBytes, ← h]

/-- The request port reads one word. -/
theorem nearRead_of_quiet (hquiet : NearQuiet s) (hb : b % 8 = 0) :
    ∃ t, PortTaken s t ∧ nearRead s false source sl b 8 = (t, nearBytes s sl b 8, none) := by
  have hport := otherBegin_takes_port (word := nearWordKey sl (8 * (b / 8))) (len := 1) (write := false) hquiet
  refine ⟨_, hport, ?_⟩
  have hcount : (b + 8 + 7) / 8 - b / 8 = 1 := by omega
  have hword : 8 * (b / 8) = b := by omega
  simp only [nearRead, hcount, List.range_one, List.foldl_cons, List.foldl_nil, Nat.add_zero, hword, Bool.false_eq_true,
    if_false]
  rw [hword] at hport
  rw [nearSeeWord_of_quiet (hport.quiet hquiet) hb, hport.nearBytes_eq, hb]
  simp [sliceBytes_whole nearBytes_length]

/-- A word written whole: its bytes stand in the share. -/
theorem nearWriteWord_of_whole (hlen : bs.length = 8) :
    ∃ t, Touches { near := true, nearMem := true } s t ∧ nearBytes t sl b 8 = bs ∧
      nearWriteWord s source sl b bs = (t, false) := by
  refine ⟨_, ?_, ?_, if_pos hlen⟩
  · exact nearStore_touches (nearSetFlips_touches (keepPrior_touches (.refl _ s) rfl) rfl) rfl
  · rw [← hlen]
    exact nearBytes_nearStore

end NearWords

/-! ### The pieces of a request for one word -/

section NearPieces

variable {s t : State} {m : Mover} {source sl b p off kind operand : Nat} {bs : List Byte} {waits whole : Bool}

/-- An aligned word of a partition's near window, its place in the share of a slice, and nothing in an access's way: no
pair has its pop words there. -/
structure NearWord (s : State) (p off sl b : Nat) : Prop where
  window : nearBase ≤ off
  place : nearPlace (partSlices s.img.layout p) (off - nearBase) = some (sl, b)
  aligned : off % 8 = 0
  quiet : NearQuiet s
  noPairs : s.eng.pairs = []

theorem NearWord.share_aligned (h : NearWord s p off sl b) : b % 8 = 0 := by
  have hbase : nearBase % 8 = 0 := by decide
  have hmod := nearPlace_mod_eight h.place
  have hwindow := h.window
  have haligned := h.aligned
  omega

theorem NearWord.placeOf_eq (h : NearWord s p off sl b) : placeOf s p off = .near sl b := by
  simp [placeOf, h.window, h.place]

theorem NearWord.isPopByte_eq {n : Nat} (h : NearWord s p off sl b) : isPopByte s p n = false := by
  simp [isPopByte, h.noPairs]

theorem NearWord.nearRowLost_eq (h : NearWord s p off sl b) : nearRowLost s sl b = false := by
  simp [nearRowLost, h.quiet.lostRows]

theorem NearWord.taken (h : NearWord s p off sl b) (k : PortTaken s t) : NearWord t p off sl b where
  window := h.window
  place := by rw [k.touches.img rfl, h.place]
  aligned := h.aligned
  quiet := k.quiet h.quiet
  noPairs := (congrArg Engines.pairs (k.touches.eng rfl)).trans h.noPairs

theorem NearWord.collides_eq {n : Nat} (h : NearWord s p off sl b) : collides s m n sl b = m.own.contains (n / 8) := by
  simp [collides, h.quiet.own]

theorem readSegment_of_near (h : NearWord s p off sl b) (hport : m.eng = none) :
    ∃ t, PortTaken s t ∧
      readSegment s source m p off 0 8 waits = (t, [okPiece p off 0 (nearBytes s sl b 8)]) := by
  obtain ⟨t, ht, hread⟩ := nearRead_of_quiet (source := source) (sl := sl) h.quiet h.share_aligned
  have hmask : maskPop t p (off - nearBase) (nearBytes s sl b 8) = nearBytes s sl b 8 := by
    simp [maskPop, (h.taken ht).isPopByte_eq, map_getD_range]
  have hcut : cutAt 256 off 8 = [(off, 0, 8)] := cutAt_of_within (by decide) (by have := h.aligned; omega)
  refine ⟨t, ht, ?_⟩
  simp [readSegment, h.placeOf_eq, hcut, foldPieces, h.place, ownPort, hport, hread, hmask, okPiece]

/-- The piece of a write of one word. -/
def wordPiece (p off : Nat) (st : Status) : Piece :=
  { idx := 0, addr := poolAddr p (off / 8 * 8), status := st, bytes := [] }

/-- A whole word written by the request port, where the own port does not write it. -/
theorem nearWritePiece_of_word (h : NearWord s p off sl b) (hport : m.eng = none)
    (hown : m.own.contains ((off - nearBase) / 8) = false) (hlen : bs.length = 8) :
    ∃ t, Touches { near := true, nearMem := true } s t ∧ nearBytes t sl b 8 = bs ∧
      nearWritePiece s source m p off 0 bs = (t, wordPiece p off .ok) := by
  have htaken := otherBegin_takes_port (word := nearWordKey sl b) (len := 1) (write := true) h.quiet
  obtain ⟨t, ht, hbytes, hwrite⟩ := nearWriteWord_of_whole (s := otherBegin s (nearWordKey sl b) 1 true)
    (source := source) (sl := sl) (b := b) hlen
  refine ⟨t, (htaken.touches.mono rfl).trans ht, hbytes, ?_⟩
  simp only [nearWritePiece, Nat.add_zero, h.place, h.isPopByte_eq, h.nearRowLost_eq, ownPort, hport,
    (h.taken htaken).collides_eq, hown, hwrite, Bool.false_eq_true, if_false, Bool.not_false, Bool.and_false]
  rfl

/-- A word that the own port writes in the clk: the request's write is lost and counted. -/
theorem nearWritePiece_of_collision (h : NearWord s p off sl b) (hport : m.eng = none)
    (hown : m.own.contains ((off - nearBase) / 8) = true) :
    ∃ t, PortTaken s t ∧
      nearWritePiece s source m p off 0 bs = (countCollision t p sl, wordPiece p off .collided) := by
  have htaken := otherBegin_takes_port (word := nearWordKey sl b) (len := 1) (write := true) h.quiet
  refine ⟨_, htaken, ?_⟩
  simp only [nearWritePiece, Nat.add_zero, h.place, h.isPopByte_eq, h.nearRowLost_eq, ownPort, hport,
    (h.taken htaken).collides_eq, hown, Bool.false_eq_true, if_false, if_true, Bool.not_false, Bool.and_true]
  rfl

theorem writeSegment_of_near (h : NearWord s p off sl b) (hlen : bs.length = 8) :
    writeSegment s source m p off 0 bs whole waits =
      ((nearWritePiece s source m p off 0 bs).1, [(nearWritePiece s source m p off 0 bs).2]) := by
  have hcut : cutAt 8 off 8 = [(off, 0, 8)] := cutAt_of_within (by decide) (by have := h.aligned; omega)
  have htake : bs.take 8 = bs := List.take_of_length_le hlen.le
  simp [writeSegment, h.placeOf_eq, hlen, hcut, foldPieces, htake]

/-- A fetch-add or a swap of a word that the own port does not write. -/
theorem nearAtomic_of_word (h : NearWord s p off sl b) (hkind : kind ≠ 2)
    (hown : m.own.contains ((off - nearBase) / 8) = false) :
    ∃ t, Touches { near := true, nearMem := true } s t ∧
      nearBytes t sl b 8 = leBytes 8 (atomNew kind (leNat (nearBytes s sl b 8)) operand 0) ∧
      nearAtomic s m source p off kind operand = (t, okPiece p off 0 (nearBytes s sl b 8)) := by
  have htaken := otherBegin_takes_port (word := nearWordKey sl b) (len := 2) (write := true) h.quiet
  obtain ⟨t, ht, hbytes, hwrite⟩ := nearWriteWord_of_whole (s := otherBegin s (nearWordKey sl b) 2 true)
    (source := source) (sl := sl) (b := b)
    (leBytes_length 8 (atomNew kind (leNat (nearBytes s sl b 8)) operand 0))
  have hcount : Touches { near := true } t (countNearAtom t p sl) := countNearAtom_touches (.refl _ t) rfl
  have hmem : nearBytes (countNearAtom t p sl) sl b 8 = nearBytes t sl b 8 := by
    unfold countNearAtom
    split <;> rfl
  refine ⟨_, (htaken.touches.mono rfl).trans (ht.trans (hcount.mono rfl)), hmem.trans hbytes, ?_⟩
  simp only [nearAtomic, h.place, hkind, h.isPopByte_eq, (h.taken htaken).collides_eq, hown,
    nearSeeWord_of_quiet (htaken.quiet h.quiet) h.share_aligned, htaken.nearBytes_eq, hwrite, Bool.false_eq_true, if_false]
  rfl

theorem nearAtomic_of_compare (h : NearWord s p off sl b) :
    nearAtomic s m source p off 2 operand = (s, faultPiece p off 0 .fault) := by
  simp only [nearAtomic, h.place, if_true]

end NearPieces

/-! ### A request for one word that stands alone -/

section NearRequests

variable {s t u : State} {v : Service} {x : Piece} {own : List Nat} {sl b n clk : Nat}

/-- The word that a request names. -/
abbrev AsksWord (s : State) (v : Service) (sl b : Nat) : Prop :=
  NearWord s (addrPart v.req.pkt.addr.toNat) (addrOff v.req.pkt.addr.toNat) sl b

theorem exec_nearBankAccess_of_outside (halone : Alone s v) (hoff : addrOff v.req.pkt.addr.toNat < nearBase) :
    exec (.nearBankAccess v.ticket own clk) s = .next (seenClk s clk) := by
  show execNearBankAccess v.ticket own clk s = _
  simp only [execNearBankAccess, svcFind_of_alone halone, hoff, if_true]

section Alone

variable (halone : Alone s v) (hword : AsksWord s v sl b)
include halone hword

theorem exec_nearBankAccess_of_read (hop : pktOp v.req.pkt = .rd) :
    exec (.nearBankAccess v.ticket own clk) s = .next (serveRead (seenClk s clk) v own) := by
  show execNearBankAccess v.ticket own clk s = _
  simp only [execNearBankAccess, svcFind_of_alone halone, if_neg (Nat.not_lt.2 hword.window), hop]

theorem exec_nearBankAccess_of_write (hop : pktOp v.req.pkt = .wr) :
    exec (.nearBankAccess v.ticket own clk) s = .next (serveWrite (seenClk s clk) v own) := by
  show execNearBankAccess v.ticket own clk s = _
  simp only [execNearBankAccess, svcFind_of_alone halone, if_neg (Nat.not_lt.2 hword.window), hop]

theorem exec_nearBankAccess_of_atomic (hop : pktOp v.req.pkt = .atom) :
    exec (.nearBankAccess v.ticket own clk) s = .next (serveAtomic (seenClk s clk) v own) := by
  show execNearBankAccess v.ticket own clk s = _
  simp only [execNearBankAccess, svcFind_of_alone halone, if_neg (Nat.not_lt.2 hword.window), hop]

omit halone in
theorem translateRequest_of_near : translateRequest s v v.req.pkt.addr.toNat 8 = s := by
  have hcut : cutAt 2097152 (addrOff v.req.pkt.addr.toNat) 8 = [(addrOff v.req.pkt.addr.toNat, 0, 8)] :=
    cutAt_of_within (by decide) (by have := hword.aligned; omega)
  simp [translateRequest, hcut, hword.window]

omit halone in
theorem notCoherent_of_near : NotCoherent s (addrPart v.req.pkt.addr.toNat) (addrOff v.req.pkt.addr.toNat) :=
  fun r sl a h => by cases hword.placeOf_eq.symm.trans h

theorem serveRead_of_near (hop : pktOp v.req.pkt = .rd) (hlen : readLen v.req.pkt = 8) :
    ∃ u, PortTaken s u ∧ serveRead s v own = finish u v { status := .ok, data := some (nearBytes s sl b 8) } := by
  have hpop : popOf s v.req.pkt = none := by simp [popOf, hlen]
  have hfit := hword.aligned
  obtain ⟨u, hu, hread⟩ := readSegment_of_near (source := sourceOf v.req.origin) (waits := false)
    (m := { own := own, first := addrOff v.req.pkt.addr.toNat, len := 8 }) hword rfl
  refine ⟨u, hu, ?_⟩
  rw [serveRead_of_some halone hop hpop (by omega) (by omega), hlen, translateRequest_of_near hword, startRange,
    startRangeAt_read (notEngine_of_alone halone) (single_of_alone halone).twin (by decide) (by omega)
      (notCoherent_of_near hword), hread]
  rw [settle_gather ((single_of_alone halone).of_touches hu.touches rfl rfl rfl) (notEngine_of_alone halone),
    resolve_of_read hop (by rw [nearBytes_length, hlen])]

/-- A write of one word is its one piece. -/
theorem serveWrite_of_near (hop : pktOp v.req.pkt = .wr) (hlen : v.req.pkt.payload.length = 8)
    (hpiece : nearWritePiece s (sourceOf v.req.origin)
      { own := own, first := addrOff v.req.pkt.addr.toNat, len := v.req.pkt.payload.length } (addrPart v.req.pkt.addr.toNat)
      (addrOff v.req.pkt.addr.toNat) 0 v.req.pkt.payload = (u, x))
    (hu : Touches { near := true, nearMem := true } s u) :
    serveWrite s v own = settle (gather u v.ticket [x]) := by
  obtain ⟨hsame, hhome⟩ := noneEarlier_of_alone halone
  have hcut : cutAt 65536 (addrOff v.req.pkt.addr.toNat) 8 = [(addrOff v.req.pkt.addr.toNat, 0, 8)] :=
    cutAt_of_within (by decide) (by have := hword.aligned; omega)
  have hmirror {always : Bool} {seq : BitVec 32} {p off : Nat} {bs : List Byte} : mirrorAt u always seq p off bs = u :=
    mirrorAt_of_off (by rw [hu.twn rfl, (single_of_alone halone).twin])
  have hsome : v.req.pkt.payload ≠ [] := List.ne_nil_of_length_pos (by omega)
  rw [serveWrite, if_neg (by simp [hop, notStopped_of_alone halone, notBegun_of_alone halone, hsame, hhome]), if_neg hsome]
  simp only [twinFirst_of_alone halone, hlen, translateRequest_of_near hword, arriveWords, startRangeAt, hcut,
    List.foldl_cons, List.foldl_nil, hword.placeOf_eq, Nat.add_zero, List.drop_zero, if_true, Bool.false_eq_true, if_false]
  rw [List.take_of_length_le (by omega), writeSegment_of_near hword hlen, ← hlen, hpiece]
  simp only [hmirror, ite_self]

/-- An atomic at the near bank is its one piece. -/
theorem serveAtomic_of_near (hop : pktOp v.req.pkt = .atom)
    (hpiece : nearAtomic s { own := own } (sourceOf v.req.origin) (addrPart v.req.pkt.addr.toNat)
      (addrOff v.req.pkt.addr.toNat) v.req.pkt.arg.toNat (atomOperand v.req.pkt) = (u, x))
    (hu : Touches { near := true, nearMem := true } s u) :
    serveAtomic s v own = settle (gather u v.ticket [x]) := by
  have hmirror {always : Bool} {seq : BitVec 32} {p off : Nat} {bs : List Byte} : mirrorAt u always seq p off bs = u :=
    mirrorAt_of_off (by rw [hu.twn rfl, (single_of_alone halone).twin])
  rw [serveAtomic_of_alone halone hop, translateRequest_of_near hword]
  simp only [runAtomic, plainAtomic, hword.placeOf_eq, hpiece, hmirror, ite_self, Bool.false_eq_true, if_false]

end Alone

end NearRequests

/-- Settles O37: a request for one word of the near window has one piece, which its port reads, writes or refuses. -/
theorem nearBankServesOneWord : Obligations.NearBankServesOneWord := by
  intro clk own s v sl b k off c old operand
  refine ⟨fun halone hoff => exec_nearBankAccess_of_outside halone hoff,
    fun halone hwindow halign hpairs hflips hrows hown hprior _ hplace => ?_⟩
  have hseen : Alone (seenClk s clk) v := halone
  have hstands : AsksWord s v sl b := ⟨hwindow, hplace, halign, ⟨hflips, hrows, hown, hprior⟩, hpairs⟩
  have hword : AsksWord (seenClk s clk) v sl b := ⟨hwindow, hplace, halign, ⟨hflips, hrows, hown, hprior⟩, hpairs⟩
  have hclk : Touches { td := true } s (seenClk s clk) := seenClk_touches (.refl _ s) rfl
  have hends {u : State} {x : Piece} (hu : Touches { near := true, nearMem := true } (seenClk s clk) u) :
      settle (gather u v.ticket [x]) =
        finish (resolve u v [gatheredOf v.ticket x]).1 v (resolve u v [gatheredOf v.ticket x]).2 :=
    settle_gather ((single_of_alone hseen).of_touches hu rfl rfl rfl) (notEngine_of_alone halone)
  refine ⟨fun hop hlen hfree => ?write, fun hop hlen hmeets => ?collision, fun hop hlen => ?read,
    fun hop harg hfree => ?atomic, fun hop harg => ?compareSwap⟩
  case write =>
    obtain ⟨u, hu, hbytes, hpiece⟩ := nearWritePiece_of_word (source := sourceOf v.req.origin)
      (m := { own := own, first := off, len := k.payload.length }) hword rfl hfree hlen
    refine ⟨u, (hclk.mono rfl).trans (hu.mono rfl), ?_, hbytes⟩
    rw [exec_nearBankAccess_of_write halone hstands hop, serveWrite_of_near hseen hword hop hlen hpiece hu,
      hends hu, resolve_of_write hop rfl]
  case collision =>
    obtain ⟨u, hu, hpiece⟩ := nearWritePiece_of_collision (source := sourceOf v.req.origin) (bs := k.payload)
      (m := { own := own, first := off, len := k.payload.length }) hword rfl hmeets
    have hcount : Touches { near := true } (seenClk s clk) (countCollision u (addrPart k.addr.toNat) sl) :=
      countCollision_touches hu.touches rfl
    refine ⟨_, { status := .collided, addr := some (wordPiece (addrPart k.addr.toNat) off .collided).addr },
      (hclk.mono rfl).trans (hcount.mono rfl), rfl, ?_, ?_⟩
    · rw [exec_nearBankAccess_of_write halone hstands hop, serveWrite_of_near hseen hword hop hlen hpiece
        (hcount.mono rfl), hends (hcount.mono rfl), resolve_of_failed Status.noConfusion (.inl hop)]
      rfl
    · exact hu.countCollision_coll
  case read =>
    obtain ⟨u, hu, hserve⟩ := serveRead_of_near (own := own) hseen hword hop hlen
    refine ⟨u, (hclk.mono rfl).trans (hu.touches.mono rfl), ?_⟩
    exact (exec_nearBankAccess_of_read halone hstands hop).trans (congrArg Host.Outcome.next hserve)
  case atomic =>
    have hkind : k.arg.toNat ≠ 2 := by rcases harg with h | h <;> rw [h] <;> decide
    obtain ⟨u, hu, hbytes, hpiece⟩ := nearAtomic_of_word (source := sourceOf v.req.origin) (operand := atomOperand k)
      (m := { own := own }) hword hkind hfree
    refine ⟨u, (hclk.mono rfl).trans (hu.mono rfl), ?_, ?_⟩
    · rw [exec_nearBankAccess_of_atomic halone hstands hop, serveAtomic_of_near hseen hword hop hpiece hu,
        hends hu, resolve_of_atomic hop nearBytes_length]
      rfl
    · have hold : leNat (nearBytes (seenClk s clk) sl b 8) < 2 ^ 64 := by
        have h := leNat_lt (nearBytes (seenClk s clk) sl b 8)
        rw [nearBytes_length] at h
        exact h.trans_eq (by norm_num)
      rw [hbytes, leNat_leBytes_atomNew hold atomOperand_lt]
      rcases harg with h | h <;> rw [h] <;> rfl
  case compareSwap =>
    have hpiece := nearAtomic_of_compare (source := sourceOf v.req.origin) (operand := atomOperand k)
      (m := { own := own }) hword
    refine ⟨_, { status := .fault, addr := some (faultPiece (addrPart k.addr.toNat) off 0 .fault).addr }, hclk, rfl, ?_⟩
    rw [exec_nearBankAccess_of_atomic halone hstands hop, serveAtomic_of_near hseen hword hop
      (x := faultPiece (addrPart k.addr.toNat) off 0 .fault) ?_ (.refl _ _), hends (.refl _ _),
      resolve_of_failed Status.noConfusion (.inr Status.noConfusion)]
    · rfl
    · rw [show v.req.pkt.arg.toNat = 2 by rw [show v.req.pkt.arg = 2 from harg]; rfl]
      exact hpiece

end Sys2Proof.Proofs
end

section
/-! PROOFS. Queue pairs (R282, R286): a pass that reads CMD_PI from a lost row of the near bank. -/

namespace Sys2Proof.Proofs

open Sys2Proof.Machine

/-- Partition 0 is ACTIVE over slice 0, its pair 0 ACTIVE with the control block at near offset 0, and the row of the
near bank that holds the control block is lost. -/
def passOverLostRow : State :=
  { State.reset with
    img := { layout := {
      hedges := [{ hedge := 0, mode := 0, members := [(false, 0)] }]
      parts := [{ part := 0, conf := false, root := 0, regions := 0, outdig := false, flashCache := 0 }] } }
    parts := [(0, { st := .active })]
    near := { lostRows := [0] }
    eng := { pairs := [(0, { state := 1, size := 4 })] } }

/-- R282, R286: the word is uncorrectable, so the pass halts the pair with cause 3. -/
theorem exec_cmdPiSample_passOverLostRow {t : State} (h : exec (.cmdPiSample 0 0) passOverLostRow = .next t) :
    (pairGet t 0 0).state = 2 ∧ (pairGet t 0 0).cause = 3 := by
  have hrun : exec (.cmdPiSample 0 0) passOverLostRow =
      .next (samplePair (pairMod (seenClk passOverLostRow 16) 0 0 (fun x => { x with passed := some 0 })) 0 0) := rfl
  rw [← Host.Outcome.next.inj (hrun.symm.trans h)]
  decide +kernel

/-- Refutes O51: its clause of the pass excludes flipped bits of the near bank, but not lost rows. Where the word of
CMD_PI stands in a lost row it is uncorrectable, and the pass halts the pair (R286) although CMD_PI is in range. -/
theorem not_queuePairsTakeAndComplete : ¬ Obligations.QueuePairsTakeAndComplete := by
  intro h
  obtain ⟨-, -, -, -, -, -, hpass, -⟩ := h passOverLostRow 0 0
  obtain ⟨t, hrun, -, -, -, hinRange, -⟩ := hpass (by decide +kernel) (by decide +kernel) (.inl (by decide +kernel)) rfl rfl
    rfl 0 0 (by decide +kernel) rfl
  obtain ⟨hactive, -⟩ := hinRange (by decide +kernel)
  exact absurd ((exec_cmdPiSample_passOverLostRow hrun).1.symm.trans hactive) (by decide)

end Sys2Proof.Proofs
end

section
/-! PROOFS. Fences, partial resets, the grafting of spare engines and the management core's watchdog (R275, R276, R382,
R384 to R390). -/

namespace Sys2Proof.Proofs

open Sys2Proof.Machine Sys2Proof.Laws

/-! ### Fences -/

section Fences

variable {s : State} {host : Bool} {req : BitVec 12} {n : Nat}

/-- FNC_CTRL names a requester by 12 bits. -/
theorem requester_mod : req.toNat % 4096 = req.toNat := Nat.mod_eq_of_lt req.isLt

/-- A requester has an entry. -/
def hasFence (s : State) (host : Bool) (req : BitVec 12) : Bool :=
  (List.range 64).any (fun n => tblGet (fun _ => none) s.twn.fences n = some (host, req.toNat))

/-- The lowest free entry. -/
def freeFence (s : State) : Option Nat :=
  (List.range 64).find? (fun n => (tblGet (fun _ => none) s.twn.fences n).isNone)

/-- A requester takes an entry: it is in force from the next tick. -/
def fenceAdded (s : State) (host : Bool) (req : BitVec 12) (n : Nat) : State :=
  { s with twn := { s.twn with
    fences := tblSet (fun _ => none) s.twn.fences n (some (host, req.toNat))
    fenceDue := s.twn.fenceDue ++ [(host, req.toNat)] } }

theorem tblGet_fenceAdded {m : Nat} : tblGet (fun _ => none) (fenceAdded s host req n).twn.fences m =
    if m = n then some (host, req.toNat) else tblGet (fun _ => none) s.twn.fences m := by
  have hfences : (fenceAdded s host req n).twn.fences =
      tblSet (fun _ => none) s.twn.fences n (some (host, req.toNat)) := rfl
  rw [hfences, tblGet_set]

theorem exec_fenceAdd : exec (.fenceAdd host req) s = .next
    (if hasFence s host req then s
     else match freeFence s with
      | none => s
      | some n => fenceAdded s host req n) := by
  show Host.Outcome.next (addFence s host req.toNat) = _
  unfold addFence
  rw [requester_mod]
  rfl

theorem exec_fenceAdd_of_taken (h : hasFence s host req = true) : exec (.fenceAdd host req) s = .next s := by
  rw [exec_fenceAdd, if_pos h]

theorem exec_fenceAdd_of_full (h : freeFence s = none) : exec (.fenceAdd host req) s = .next s := by
  rw [exec_fenceAdd, h, ite_self]

theorem exec_fenceAdd_of_free (hnew : hasFence s host req = false) (hfree : freeFence s = some n) :
    exec (.fenceAdd host req) s = .next (fenceAdded s host req n) := by
  rw [exec_fenceAdd, hnew, if_neg Bool.false_ne_true, hfree]

theorem freeFence_of_full (h : (List.range 64).all (fun n => (tblGet (fun _ => none) s.twn.fences n).isSome) = true) :
    freeFence s = none := by
  refine List.find?_eq_none.2 fun n hn hfree => ?_
  have hheld := List.all_eq_true.1 h n hn
  rw [Option.isNone_iff_eq_none.1 hfree] at hheld
  exact Bool.false_ne_true hheld

/-- A cleared fence stands neither in the table nor among those that wait for the tick. -/
theorem clearFence_clears : (∀ e ∈ (clearFence s host req.toNat).twn.fences, e.2 ≠ some (host, req.toNat)) ∧
    (host, req.toNat) ∉ (clearFence s host req.toNat).twn.fenceDue := by
  unfold clearFence
  rw [requester_mod]
  exact ⟨fun e he => of_decide_eq_true (List.mem_filter.1 he).2, fun he => of_decide_eq_true (List.mem_filter.1 he).2 rfl⟩

end Fences

/-! ### Partial resets -/

section Resets

variable {s : State} {p kind part : Nat} {f : State → Service → State} {st : Status}

/-- A partition that a reset may take (R390). -/
def takesReset (s : State) (p : Nat) : Prop := (partGet s p).st ≠ .quiesced ∧ (partGet s p).st ≠ .resetting

theorem startReset_of_busy (h : s.twn.rstBusy = true) : startReset s kind part = s := if_pos (.inl h)

/-- A reset of a KIND is BUSY from this frame on. -/
def resetBegun (s : State) (kind part : Nat) : State :=
  { s with twn := { s.twn with
    rstBusy := true, rstFrame := frameOf s, rstCancelled := false, rstLastKind := kind, rstLastPart := part,
    rstCount := 0 } }

theorem startReset_of_ready (hidle : s.twn.rstBusy = false) (hkind : kind < 3) (hawake : twinAwake s = true)
    (hsome : kind = 0 → resetTargets s kind part ≠ []) (hready : ∀ p ∈ resetTargets s kind part, takesReset s p) :
    startReset s kind part = resetBegun s kind part := by
  refine if_neg ?_
  rintro (hbusy | hreserved | hasleep | ⟨hpart, hnone⟩ | hany)
  · exact absurd hbusy (by rw [hidle]; decide)
  · exact absurd hkind (Nat.not_lt.2 hreserved)
  · exact absurd hasleep (by rw [hawake]; decide)
  · exact hsome hpart hnone
  · obtain ⟨p, hp, hst⟩ := List.any_eq_true.1 hany
    obtain ⟨hquiesced, hresetting⟩ := hready p hp
    simp [hquiesced, hresetting] at hst

theorem resetTargets_part (h : (partGet s part).st ≠ .unused) : resetTargets s 0 part = [part] := if_neg h

/-- The one target of a partition reset under way. -/
theorem resettingParts_of_part (hkind : s.twn.rstLastKind = 0) (hpart : s.twn.rstLastPart = p)
    (hst : (partGet s p).st = .resetting) : resettingParts s = [p] := by
  rw [resettingParts, hkind, hpart, resetTargets_part (by rw [hst]; exact PState.noConfusion)]
  simp [hst]

/-- Where nothing is in service, nothing ends. -/
theorem endServiceBy_of_idle (hsvc : s.svc = []) (htxns : s.coh.txns = [])
    (hpairs : ∀ q, q < 64 → (pairGet s p q).service = none) : endServiceBy f s p st = s := by
  have hkept : endTxns s (fun t => t.part = p) = s := endTxns_of_none htxns
  simp only [endServiceBy, hkept, hsvc, List.filter_nil, List.foldl_nil]
  exact foldl_of_fixed (fun q hq => by rw [hpairs q (List.mem_range.1 hq)])

/-- A pair as the end of its partition leaves it (R281). -/
def endedPair (x : Pair) : Pair :=
  { x with state := 0, cause := 4, enable := false, enabling := false, restarting := false, ctl := 0, cmd := 0, cpl := 0,
           cmdCi := 0, cmdPi := 0, cplPi := 0, cplCi := 0, eligible := 0, service := none, waiting := none }

theorem pairGet_foldl_endedPair {l : List Nat} {q : Nat} :
    pairGet (l.foldl (fun s q => pairMod s p q endedPair) s) p q =
      if q ∈ l then endedPair (pairGet s p q) else pairGet s p q := by
  induction l generalizing s with
  | nil => rfl
  | cons j l ih =>
    rw [List.foldl_cons, ih]
    by_cases hj : q = j
    · subst hj
      rw [pairGet_pairMod_self, if_pos List.mem_cons_self]
      split <;> rfl
    · simp [pairGet_pairMod_other hj, hj]

theorem pairGet_endPairs {q : Nat} (hq : q < 64) : pairGet (endPairs s p) p q = endedPair (pairGet s p q) :=
  pairGet_foldl_endedPair.trans (if_pos (List.mem_range.2 hq))

/-- The cancellation of a partition reset with nothing in service. -/
def partCancelled (s : State) (p : Nat) : State :=
  let t := resetPart (dropBuffers (endPairs s p) p) p
  { t with twn := { t.twn with rstCancelled := true } }

theorem cancelAll_of_part (hkind : s.twn.rstLastKind = 0) (hpart : s.twn.rstLastPart = p)
    (hst : (partGet s p).st = .resetting) (hsvc : s.svc = []) (htxns : s.coh.txns = [])
    (hpairs : ∀ q, q < 64 → (pairGet s p q).service = none) : cancelAll s = partCancelled s p := by
  have hkept : (dropBuffers (endPairs s p) p).twn.rstLastKind = 0 := by
    rw [(dropBuffers_touches (endPairs_touches (.refl { eng := true } s) rfl) rfl).twn rfl, hkind]
  simp only [cancelAll, resettingParts_of_part hkind hpart hst, List.foldl_cons, List.foldl_nil,
    endServiceBy_of_idle hsvc htxns hpairs, if_pos hkept]
  rfl

/-- The reset of a partition's engines leaves its pairs and its buffers. -/
theorem resetPart_keeps : (resetPart s p).eng.pairs = s.eng.pairs ∧ (resetPart s p).eng.buffers = s.eng.buffers := by
  have hfold : ∀ (l : List Nat) (t : State), (l.foldl (fun s e => engMod s e resetEngine) t).eng.pairs = t.eng.pairs ∧
      (l.foldl (fun s e => engMod s e resetEngine) t).eng.buffers = t.eng.buffers := by
    intro l
    induction l with
    | nil => exact fun _ => ⟨rfl, rfl⟩
    | cons e l ih => exact fun t => ih (engMod t e resetEngine)
  exact hfold _ s

theorem dropBuffers_pairs : (dropBuffers s p).eng.pairs = s.eng.pairs := rfl

theorem partCancelled_eng : (partCancelled s p).eng = (resetPart (dropBuffers (endPairs s p) p) p).eng := by
  rw [partCancelled]

theorem pairGet_partCancelled {q : Nat} (hq : q < 64) : pairGet (partCancelled s p) p q = endedPair (pairGet s p q) := by
  obtain ⟨hpairs, -⟩ := resetPart_keeps (s := dropBuffers (endPairs s p) p) (p := p)
  rw [← pairGet_endPairs hq]
  refine pairGet_of_pairs ?_
  rw [partCancelled_eng, hpairs, dropBuffers_pairs]

theorem part_ne_of_mem_partCancelled {b : Buffer} (hb : b ∈ (partCancelled s p).eng.buffers) : b.part ≠ p := by
  obtain ⟨-, hbuffers⟩ := resetPart_keeps (s := dropBuffers (endPairs s p) p) (p := p)
  rw [partCancelled_eng, hbuffers] at hb
  exact bne_iff_ne.1 (List.mem_filter.1 hb).2

theorem exec_halfReset_of_ready {half : Fin 2} (hidle : s.twn.rstBusy = false) (hawake : twinAwake s = true)
    (hready : ∀ p ∈ partsInHalf s half, takesReset s p) : exec (.halfReset half) s =
      .next (resetBegun { s with twn := { s.twn with rstKind := half.val + 1 } } (half.val + 1) s.twn.rstPart) :=
  congrArg Host.Outcome.next (startReset_of_ready hidle (Nat.succ_lt_succ half.isLt) hawake
    (fun h => absurd h (Nat.succ_ne_zero _)) hready)

theorem exec_partitionReset_of_ready {part : Fin 32} (hidle : s.twn.rstBusy = false) (hawake : twinAwake s = true)
    (hready : takesReset s part) (hused : (partGet s part).st ≠ .unused) : exec (.partitionReset part) s =
      .next (resetBegun { s with twn := { s.twn with rstKind := 0, rstPart := part.val } } 0 part.val) := by
  have htargets : resetTargets { s with twn := { s.twn with rstKind := 0, rstPart := part.val } } 0 part.val = [part.val] :=
    resetTargets_part hused
  refine congrArg Host.Outcome.next (startReset_of_ready hidle (by decide) hawake (fun _ => ?_) fun p hp => ?_)
  · rw [htargets]
    exact List.cons_ne_nil _ _
  · rw [htargets, List.mem_singleton] at hp
    subst hp
    exact hready

theorem exec_resetCancel_of_not_due
    (h : s.twn.rstBusy = false ∨ s.twn.rstCancelled = true ∨ s.td.ptime < s.twn.rstFrame + 3) :
    exec .resetCancel s = .next s := by
  refine if_pos ?_
  rcases h with hidle | hrest
  · exact .inl (by rw [hidle]; rfl)
  · exact .inr hrest

theorem exec_resetCancel_of_due (hbusy : s.twn.rstBusy = true) (hopen : s.twn.rstCancelled = false)
    (hdue : s.twn.rstFrame + 3 ≤ s.td.ptime) : exec .resetCancel s = .next (cancelAll s) := by
  refine if_neg ?_
  rintro (hidle | hcancelled | hearly)
  · exact absurd hidle (by rw [hbusy]; decide)
  · exact absurd hcancelled (by rw [hopen]; decide)
  · exact absurd hearly (Nat.not_lt.2 hdue)

/-- A partition reset waits for no training: its target is ACTIVE from the next tick. -/
theorem exec_resetReady_of_part (hbusy : s.twn.rstBusy = true) (hcancelled : s.twn.rstCancelled = true)
    (hkind : s.twn.rstLastKind = 0) (hpart : s.twn.rstLastPart = p) (hst : (partGet s p).st = .resetting) :
    exec .resetReady s = .next (partMod s p (fun x => { x with next := some .active })) := by
  show execResetReady s = _
  have hkept : (partMod s p (fun x => { x with next := some .active })).twn.rstLastKind = 0 := hkind
  simp only [execResetReady, hbusy, hcancelled, hkind, resettingParts_of_part hkind hpart hst, List.foldl_cons,
    List.foldl_nil, Bool.not_true, Bool.false_eq_true, ne_eq, not_true_eq_false, false_and, or_self, if_false, if_pos hkept]

theorem exec_resetReady_of_not_cancelled (h : s.twn.rstBusy = false ∨ s.twn.rstCancelled = false) :
    exec .resetReady s = .next s := by
  refine if_pos ?_
  rcases h with hidle | hopen
  · exact .inl (by rw [hidle]; rfl)
  · exact .inr (.inl (by rw [hopen]; rfl))

end Resets

/-! ### Spare engines -/

section Spares

variable {s : State} {i j l : Nat}

theorem graftEngine_of_spare (hpruned : (engGet s i).pruned = true) (hnumber : (engGet s i).logical = some l)
    (hfree : graftWaits s (l / 2) = false)
    (hspare : [256 + 2 * physCluster i, 257 + 2 * physCluster i].find?
      (fun j => (engGet s j).logical.isNone && !(engGet s j).pruned) = some j) :
    graftEngine s i = engMod (engMod s i (fun e => { e with logical := none, trapped := false })) j
      (fun x => { x with logical := some l }) := by
  unfold graftEngine
  extract_lets e
  have hnumber' : e.logical = some l := hnumber
  have hpruned' : e.pruned = true := hpruned
  rw [hnumber']
  simp only [hpruned', hfree, Bool.not_true, Bool.false_eq_true, or_self, if_false]
  rw [hspare]

/-- R276: the one engine in use that is pruned gives its number to the spare. -/
theorem exec_spareGraft_of_spare (hauto : autoBit s 0 = true) (hone : s.eng.eng.map (·.1) = [i])
    (hpruned : (engGet s i).pruned = true) (hnumber : (engGet s i).logical = some l)
    (hfree : graftWaits s (l / 2) = false)
    (hspare : [256 + 2 * physCluster i, 257 + 2 * physCluster i].find?
      (fun j => (engGet s j).logical.isNone && !(engGet s j).pruned) = some j) :
    exec (.spareGraft .engine) s = .next (engMod (engMod s i (fun e => { e with logical := none, trapped := false })) j
      (fun x => { x with logical := some l })) := by
  show Host.Outcome.next (tickGraftEngines s) = _
  rw [tickGraftEngines, if_pos hauto, hone, List.foldl_cons, List.foldl_nil,
    graftEngine_of_spare hpruned hnumber hfree hspare]

end Spares

/-! ### The management core -/

section Core

variable {s : State}

/-- The core as it restarts: its own select registers at their reset values (R388). -/
def restartedMgmt (m : Mgmt) : Mgmt :=
  { m with core := { latch := m.core.latch, held := m.core.held, ptSub := m.core.ptSub, acc := m.core.acc,
                     data := m.core.data } }

/-- What the core's restart comes to: it runs the committed firmware, its registers are reset, and the watchdog
stands. -/
structure CoreRestarts (s t : State) : Prop where
  running : t.sec.running = s.sec.committed
  mgmt : t.mgmt = restartedMgmt s.mgmt
  twn : t.twn = s.twn

theorem coreRestarts_restartCommitted : CoreRestarts s (restartCommitted s) := ⟨rfl, rfl, rfl⟩

theorem coreRestarts_rollbackFirmware : CoreRestarts s (rollbackFirmware s) := by
  have hlogged {t : State} {new old : Firmware} {event : Nat} :
      Touches Mask.countCorrected t (lgFirmware t new old event) := lgFirmware_touches (.refl _ t) rfl
  have hnoted : Touches {} s (noteFlags s [6]) := noteFlags_touches (.refl _ s) rfl
  refine ⟨?_, ?_, ?_⟩
  · rw [rollbackFirmware, hlogged.sec rfl]
    exact congrArg Security.committed (hnoted.sec rfl)
  · rw [rollbackFirmware, hlogged.mgmt rfl]
    exact congrArg restartedMgmt (hnoted.mgmt rfl)
  · rw [rollbackFirmware, hlogged.twn rfl]
    exact hnoted.twn rfl

theorem CoreRestarts.logMgmt {t : State} (h : CoreRestarts s t) : CoreRestarts s (logMgmt t) := by
  have hlogged : Touches { di := true, free := true } t (Machine.logMgmt t) := logMgmt_touches (.refl _ t) rfl
  exact ⟨(congrArg Security.running (hlogged.sec rfl)).trans h.running, (hlogged.mgmt rfl).trans h.mgmt,
    (hlogged.twn rfl).trans h.twn⟩

/-- The watchdog as its expiry leaves it: at the fourth restart it holds the core (R389). -/
def expired (tw : Twin) : Twin :=
  { tw with
    wdtCount := 0, wdtArmed := false, wdtRestarts := sat8 tw.wdtRestarts, wdtFires := sat8 tw.wdtFires,
    wdtHeld := decide (4 ≤ sat8 tw.wdtRestarts) }

theorem sat8_eq {n : Nat} : sat8 n = min (n + 1) 255 := by
  unfold sat8 satTo
  rfl

theorem expired_eq {tw : Twin} : expired tw = { tw with
    wdtCount := 0, wdtArmed := false, wdtRestarts := min (tw.wdtRestarts + 1) 255,
    wdtFires := min (tw.wdtFires + 1) 255, wdtHeld := decide (3 ≤ tw.wdtRestarts) } := by
  have hfourth : 4 ≤ min (tw.wdtRestarts + 1) 255 ↔ 3 ≤ tw.wdtRestarts := by omega
  simp only [expired, sat8_eq, hfourth]

theorem exec_watchdogExpiry_of_quiet
    (h : s.twn.wdtEn = false ∨ s.twn.wdtHeld = true ∨ s.twn.wdtCount < s.twn.wdtTimeout) :
    exec .watchdogExpiry s = .next s := by
  refine if_pos ?_
  rcases h with hoff | hrest
  · exact .inl (by rw [hoff]; rfl)
  · exact .inr hrest

/-- The expiry of the watchdog restarts the core, whether a firmware awaits its commit or not. -/
theorem exec_watchdogExpiry_of_due (hon : s.twn.wdtEn = true) (hfree : s.twn.wdtHeld = false)
    (hdue : s.twn.wdtTimeout ≤ s.twn.wdtCount) :
    ∃ t, exec .watchdogExpiry s = .next t ∧ CoreRestarts { s with twn := expired s.twn } t := by
  have hruns : ¬ ((!s.twn.wdtEn) = true ∨ s.twn.wdtHeld = true ∨ s.twn.wdtCount < s.twn.wdtTimeout) := by
    simp [hon, hfree, hdue]
  refine ⟨_, if_neg hruns, ?_⟩
  have hrestarts : CoreRestarts { s with twn := expired s.twn } (if s.sec.pendingSince.isSome
      then rollbackFirmware { s with twn := expired s.twn } else restartCommitted { s with twn := expired s.twn }) := by
    split
    · exact coreRestarts_rollbackFirmware
    · exact coreRestarts_restartCommitted
  show CoreRestarts _ (if _ then _ else _)
  split
  · exact hrestarts.logMgmt
  · exact hrestarts

/-- The log entry of class MGMT raises the management interrupt. -/
theorem logMgmt_di : (logMgmt s).di.irq = true ∧ (logMgmt s).di.faultStatus.testBit 9 = true := by
  refine ⟨Bool.or_true _, ?_⟩
  show (_ ||| 1 <<< 9).testBit 9 = true
  rw [Nat.testBit_or, show (1 <<< 9).testBit 9 = true by decide, Bool.or_true]

end Core


/-- Settles O57: each command's branch by the lemmas above. -/
theorem fencesResetsAndTheWatchdog : Obligations.FencesResetsAndTheWatchdog := by
  intro s tw c restarted
  refine ⟨fun host req => ⟨fun n hnew hfree => ?add, fun htaken => ?taken, fun hfull => ?full, ?clear⟩,
    fun half part => ⟨fun hidle hawake hready => ?halfReset, fun hidle hawake hready hused => ?partReset,
      fun hbusy => ?busy⟩,
    ?notYet, fun part hbusy hkind hpart hst => ⟨fun hopen hdue hsvc htxns hpairs => ?cancel, fun hcancelled => ?ready⟩,
    ?notReady, ?noAuto, ?graft, fun key => ⟨?kick1, ?kick2, ?kickBad⟩, ?quiet, ?expiry, ?parity⟩
  case add =>
    refine ⟨_, exec_fenceAdd_of_free hnew hfree, ⟨rfl, id⟩, rfl, ?_, rfl, fun m hm => ?_⟩
    · rw [tblGet_fenceAdded, if_pos rfl]
    · rw [tblGet_fenceAdded, if_neg hm]
  case taken => exact exec_fenceAdd_of_taken htaken
  case full => exact exec_fenceAdd_of_full (freeFence_of_full hfull)
  case clear => exact ⟨clearFence s host req.toNat, rfl, ⟨rfl, id⟩, rfl, clearFence_clears⟩
  case halfReset =>
    exact ⟨_, exec_halfReset_of_ready hidle hawake hready, ⟨rfl, id⟩, rfl, rfl, rfl, rfl⟩
  case partReset =>
    exact ⟨_, exec_partitionReset_of_ready hidle hawake hready hused, ⟨rfl, id⟩, rfl, rfl, rfl, rfl, rfl⟩
  case busy =>
    exact ⟨congrArg Host.Outcome.next (startReset_of_busy hbusy), congrArg Host.Outcome.next (startReset_of_busy hbusy)⟩
  case notYet => exact exec_resetCancel_of_not_due
  case cancel =>
    refine ⟨partCancelled s part, ?_, by rw [partCancelled], fun q hq => ?_, fun b => part_ne_of_mem_partCancelled⟩
    · rw [exec_resetCancel_of_due hbusy hopen hdue, cancelAll_of_part hkind hpart hst hsvc htxns hpairs]
    · rw [pairGet_partCancelled hq]
      exact ⟨rfl, rfl⟩
  case ready =>
    exact ⟨_, exec_resetReady_of_part hbusy hcancelled hkind hpart hst, ⟨rfl, id⟩, partGet_partMod_self⟩
  case notReady => exact exec_resetReady_of_not_cancelled
  case noAuto => exact fun h => congrArg Host.Outcome.next (if_neg (by rw [h]; decide))
  case graft =>
    intro i j l hauto hone hpruned hnumber hfree hij hspare
    refine ⟨_, exec_spareGraft_of_spare hauto hone hpruned hnumber hfree hspare, ⟨rfl, id⟩, ?_, ?_⟩
    · rw [engGet_engMod, if_pos rfl, engGet_engMod, if_neg (Ne.symm hij)]
    · rw [engGet_engMod, if_neg hij, engGet_engMod, if_pos rfl]
  case kick1 =>
    rintro rfl
    rfl
  case kick2 =>
    rintro rfl harmed
    exact congrArg Host.Outcome.next ((if_neg (by decide)).trans (if_pos ⟨rfl, harmed⟩))
  case kickBad =>
    intro hfirst hsecond
    have hone : key.toNat ≠ 0x5A5A := fun h => hfirst (BitVec.eq_of_toNat_eq h)
    have htwo : ¬ (key.toNat = 0xA5A5 ∧ s.twn.wdtArmed = true) := by
      rintro ⟨hkey, harmed⟩
      rcases hsecond with h | h
      · exact h (BitVec.eq_of_toNat_eq hkey)
      · exact Bool.false_ne_true (h.symm.trans harmed)
    exact congrArg Host.Outcome.next ((if_neg hone).trans (if_neg htwo))
  case quiet => exact exec_watchdogExpiry_of_quiet
  case expiry =>
    intro hon hfree hdue
    obtain ⟨t, hrun, hrestarts⟩ := exec_watchdogExpiry_of_due hon hfree hdue
    exact ⟨t, hrun, hrestarts.running, hrestarts.mgmt, hrestarts.twn.trans expired_eq⟩
  case parity =>
    have hlogged : Touches { di := true, free := true } s (logMgmt s) := logMgmt_touches (.refl _ s) rfl
    obtain ⟨hirq, hstatus⟩ := logMgmt_di (s := s)
    refine ⟨restartCommitted (logMgmt s), rfl, (hlogged.mono rfl).trans ⟨rfl, id⟩, ?_, ?_, hirq, hstatus⟩
    · exact congrArg Security.committed (hlogged.sec rfl)
    · exact congrArg restartedMgmt (hlogged.mgmt rfl)

end Sys2Proof.Proofs
end

section
/-! PROOFS. What an engine's operation reads (R252, R265 to R272): the bytes that its pieces bring are those that memory
holds, and a row of INT8 elements is the row of its bytes' values. -/

namespace Sys2Proof.Proofs

open Sys2Proof.Machine Sys2Proof.Laws

/-! ### Bytes that pieces bring -/

section Pieces

variable {s : State} {p off n x y : Nat} {ps qs : List Gathered} {d : Desc}

/-- Each piece brings the bytes that published memory holds at its place. -/
def BringsHeld (s : State) (p : Nat) (ps : List Gathered) : Prop :=
  ∀ g ∈ ps, g.bytes = heldBytes s p g.idx g.bytes.length

/-- A piece brings the byte of an offset. -/
def brought (ps : List Gathered) (x : Nat) : Bool :=
  ps.any (fun g => decide (g.idx ≤ x) && decide (x < g.idx + g.bytes.length))

theorem heldBytes_length : (heldBytes s p off n).length = n := by
  rw [heldBytes, List.length_map, List.length_range]

theorem heldBytes_getD {i : Nat} (h : i < n) : (heldBytes s p off n).getD i 0 = heldByte s p (off + i) := by
  simp [heldBytes, h]

theorem bytesRead_length : (bytesRead ps off n).length = n := by
  rw [bytesRead, List.length_map, List.length_range]

/-- An offset's byte reads as memory holds it where a piece brings it, and zero elsewhere. -/
theorem bytesRead_of_held (h : BringsHeld s p ps) : bytesRead ps off n =
    (List.range n).map (fun i => if brought ps (off + i) then heldByte s p (off + i) else 0) := by
  refine List.map_congr_left fun i _ => ?_
  split
  next hnone =>
    have hout : brought ps (off + i) = false := by
      rw [brought, List.any_eq_false]
      exact List.find?_eq_none.1 hnone
    rw [hout, if_neg Bool.false_ne_true]
  next g hsome =>
    have hcover := List.find?_some hsome
    have hmem := List.mem_of_find?_eq_some hsome
    have hin : brought ps (off + i) = true := List.any_eq_true.2 ⟨g, hmem, hcover⟩
    simp only [Bool.and_eq_true, decide_eq_true_eq] at hcover
    obtain ⟨hlow, hhigh⟩ := hcover
    rw [hin, if_pos rfl, h g hmem, heldBytes_getD (by omega), Nat.add_sub_cancel' hlow]

theorem bytesRead_of_brought (h : BringsHeld s p ps) (hin : ∀ i, i < n → brought ps (off + i) = true) :
    bytesRead ps off n = heldBytes s p off n := by
  rw [bytesRead_of_held h]
  exact List.map_congr_left fun i hi => if_pos (hin i (List.mem_range.1 hi))

theorem bytesRead_congr (hps : BringsHeld s p ps) (hqs : BringsHeld s p qs) (h : ∀ x, brought ps x = brought qs x) :
    bytesRead ps = bytesRead qs := by
  funext off n
  simp only [bytesRead_of_held hps, bytesRead_of_held hqs, h]

/-- The result depends on the pieces by the bytes they bring alone. -/
theorem resultOf_congr (h : bytesRead ps = bytesRead qs) : resultOf ps d = resultOf qs d := by
  unfold resultOf resultCmp resultRed resultScore resultTopk resultGather gatherRows gatherIndex resultCvt rowAt
  rw [h]

end Pieces

/-! ### The length of a result -/

section Lengths

variable {ps : List Gathered} {d : Desc}

theorem flatMap_length_of_const {α β : Type} {f : α → List β} {k : Nat} {l : List α} (h : ∀ x ∈ l, (f x).length = k) :
    (l.flatMap f).length = l.length * k := by
  rw [List.length_flatMap, List.map_congr_left h, List.map_const', List.sum_replicate, smul_eq_mul]

theorem packPairs_length : ∀ l : List Nat, (packPairs l).length = (l.length + 1) / 2
  | [] => rfl
  | [_] => by rw [packPairs, List.length_singleton, List.length_singleton]
  | _ :: _ :: rest => by
    rw [packPairs, List.length_cons, packPairs_length rest, List.length_cons, List.length_cons]
    omega

theorem mxBlock_length {f : Nat} {vs : List Machine.Num} : (mxBlock f vs).2.length = vs.length := by
  unfold mxBlock
  split
  · exact List.length_map _
  · split <;> exact List.length_map _

theorem decodeRow_length {f n : Nat} {bs : List Byte} : (decodeRow f n bs).length = n := by
  unfold decodeRow
  split <;> rw [List.length_map, List.length_range]

/-- A row of whole blocks takes its row's bytes. -/
theorem encodeRow_length {f : Nat} {sat : Bool} {vs : List Machine.Num} (h : fmtMx f = true → vs.length % 32 = 0) :
    (encodeRow f sat vs).length = rowBytes f vs.length := by
  unfold encodeRow
  split
  next hmx =>
    have hblocks := h hmx
    have hcodes : ((List.range ((vs.length + 31) / 32)).flatMap
        (fun b => (mxBlock f ((vs.drop (32 * b)).take 32)).2)).length = vs.length := by
      rw [flatMap_length_of_const (k := 32), List.length_range]
      · omega
      · intro b hb
        have hlt := List.mem_range.1 hb
        rw [mxBlock_length, List.length_take, List.length_drop]
        omega
    extract_lets blocks codes
    have hlen : codes.length = vs.length := by
      simpa only [codes, blocks, List.flatMap_map] using hcodes
    have hcount : blocks.length = (vs.length + 31) / 32 := by simp [blocks]
    rw [List.length_append, List.length_map, hcount, rowBytes, if_pos hmx, elemBytes]
    split
    · rw [packPairs_length, hlen]
      omega
    next height =>
      have hsize : fmtSize f = 1 := by
        simp only [fmtMx, Bool.and_eq_true, decide_eq_true_eq] at hmx
        obtain ⟨hlow, hhigh⟩ := hmx
        interval_cases f <;> rfl
      rw [List.length_map, hlen, hsize]
      omega
  next hplain =>
    have height : f ≠ 8 := by
      rintro rfl
      exact hplain rfl
    rw [flatMap_length_of_const (k := fmtSize f) fun v _ => leBytes_length _ _, rowBytes, if_neg hplain, elemBytes,
      if_neg height]

theorem cmpRecord_length {r : Nat} {i : Option Nat} : (cmpRecord r i).length = 16 := by
  simp [cmpRecord, leBytes_length]

theorem rowAt_length {f n off : Nat} : (rowAt ps f n off).length = n := decodeRow_length

/-- An operation writes as many bytes as its destination has. -/
theorem resultOf_length (hlow : 1 ≤ d.opc) (hhigh : d.opc ≤ 8) (hmx : mxRowsOk d = true) :
    (resultOf ps d).length = lenDst d := by
  obtain hopc | hopc | hopc | hopc | hopc | hopc | hopc | hopc : d.opc = 1 ∨ d.opc = 2 ∨ d.opc = 3 ∨ d.opc = 4 ∨
    d.opc = 5 ∨ d.opc = 6 ∨ d.opc = 7 ∨ d.opc = 8 := by omega
  all_goals simp only [resultOf, lenDst, hopc]
  case inl => simp [resultFill]
  case inr.inl => exact bytesRead_length
  case inr.inr.inl =>
    unfold resultCmp
    split <;> extract_lets <;> split <;> exact cmpRecord_length
  case inr.inr.inr.inl =>
    rw [resultRed, flatMap_length_of_const (k := fmtSize d.fd) fun i _ => leBytes_length _ _, List.length_range]
  case inr.inr.inr.inr.inl =>
    unfold resultScore
    extract_lets queries sum
    rw [flatMap_length_of_const (k := (if d.comb = 0 then d.kq else 1) * fmtSize d.fd), List.length_range]
    · split <;> ring
    · intro i _
      extract_lets key products
      split
      next hcomb =>
        rw [flatMap_length_of_const (k := fmtSize d.fd) fun ts _ => leBytes_length _ _]
        simp [products, queries, hcomb]
      next hcomb => rw [leBytes_length, hcomb, if_neg Nat.one_ne_zero, one_mul]
      next hzero _ => rw [leBytes_length, if_neg hzero, one_mul]
  case inr.inr.inr.inr.inr.inl =>
    unfold resultTopk
    extract_lets bytes entries sorted
    rw [flatMap_length_of_const (k := 8), List.length_range, mul_comm]
    intro k _
    split <;> rw [List.length_append, leBytes_length, leBytes_length]
  case inr.inr.inr.inr.inr.inr.inl =>
    rw [resultGather, flatMap_length_of_const (k := d.dim), gatherRows, List.length_map, List.length_range]
    intro g _
    split
    · exact bytesRead_length
    · exact List.length_replicate
  case inr.inr.inr.inr.inr.inr.inr =>
    rw [resultCvt, encodeRow_length, rowAt_length]
    intro hfd
    rw [rowAt_length]
    simpa [mxRowsOk, hopc, hfd] using hmx

end Lengths

/-! ### Integers as numbers -/

section Integers

variable {v w : Int} {ts : List Machine.Num}

/-- A whole number, at the exponent 0 of the integer formats. -/
def IsWhole (t : Machine.Num) : Prop := ∃ neg m, t = .fin neg m 0

theorem isWhole_numOfInt : IsWhole (numOfInt v) := ⟨_, _, rfl⟩

theorem atScale_numOfInt : atScale (numOfInt v) 0 = v := by
  simp only [atScale, numOfInt, sub_zero, Int.toNat_zero, Nat.shiftLeft_zero, decide_eq_true_eq]
  split <;> omega

theorem isNan_numOfInt : isNan (numOfInt v) = false := rfl

theorem numLt_numOfInt : numLt (numOfInt v) (numOfInt w) = decide (v < w) := by
  show decide (atScale (numOfInt v) (numMin 0 0) < atScale (numOfInt w) (numMin 0 0)) = _
  rw [show numMin 0 0 = 0 from rfl, atScale_numOfInt, atScale_numOfInt]

theorem isZero_numOfInt : isZero (numOfInt v) = decide (v = 0) := by
  simp [isZero, numOfInt]

/-- A product of integers is whole, and its value is their product. -/
theorem mulNum_numOfInt : IsWhole (mulNum (numOfInt v) (numOfInt w)) ∧
    atScale (mulNum (numOfInt v) (numOfInt w)) 0 = v * w := by
  refine ⟨⟨_, _, rfl⟩, ?_⟩
  simp only [mulNum, numOfInt, atScale, add_zero, sub_zero, Int.toNat_zero, Nat.shiftLeft_zero, Nat.cast_mul]
  rcases lt_or_ge v 0 with hv | hv <;> rcases lt_or_ge w 0 with hw | hw
  · simp [hv, hw, abs_of_neg]
  · simp [hv, not_lt.2 hw, abs_of_neg, abs_of_nonneg hw]
  · simp [hw, not_lt.2 hv, abs_of_neg, abs_of_nonneg hv]
  · simp [not_lt.2 hv, not_lt.2 hw, abs_of_nonneg hv, abs_of_nonneg hw]

theorem leastExp_of_whole (h : ∀ t ∈ ts, IsWhole t) : leastExp ts = 0 := by
  refine List.foldlRecOn (motive := (· = 0)) ts _ rfl fun acc hacc t ht => ?_
  obtain ⟨neg, m, rfl⟩ := h t ht
  subst hacc
  rfl

theorem foldl_add_eq_sum {α : Type} {f : α → Int} {l : List α} {k : Int} :
    l.foldl (fun acc t => acc + f t) k = k + (l.map f).sum := by
  induction l generalizing k with
  | nil => simp
  | cons x l ih => rw [List.foldl_cons, ih, List.map_cons, List.sum_cons, add_assoc]

/-- R261: the sum of whole numbers is exact, and zero has no sign. -/
theorem sumOn_of_whole {tree : Nat} {products : Bool} {l : List (Machine.Num × Machine.Num)}
    (hts : l.map (fun t => if products then mulNum t.1 t.2 else t.1) = ts) (h : ∀ t ∈ ts, IsWhole t) :
    sumOn 1 tree 0 products l = numOfInt (ts.map (fun t => atScale t 0)).sum := by
  have hnan : ts.any isNan = false := List.any_eq_false.2 fun t ht => by
    obtain ⟨neg, m, rfl⟩ := h t ht
    exact Bool.false_ne_true
  have hinf : ∀ neg, ts.contains (.inf neg) = false := fun neg => by
    rw [List.contains_eq_mem, decide_eq_false_iff_not]
    intro hmem
    obtain ⟨neg', m, heq⟩ := h _ hmem
    cases heq
  have hsum : exactSum ts 0 = if (ts.map (fun t => atScale t 0)).sum = 0
      then .fin (ts.all (fun t => isZero t && numNeg t)) 0 0 else numOfInt (ts.map (fun t => atScale t 0)).sum := by
    simp only [exactSum, hnan, hinf, leastExp_of_whole h, foldl_add_eq_sum, zero_add, Bool.false_and, Bool.or_self,
      Bool.false_eq_true, if_false, add_zero]
    rfl
  simp only [sumOn, hts, hsum, OfNat.one_ne_ofNat, if_false, decide_true, Bool.true_and]
  split
  next hzero => rw [hzero]; rfl
  next hsome => rw [isZero_numOfInt, if_neg (by simpa using hsome)]

/-- R263: an integer into INT32 saturates. -/
theorem toInteger_numOfInt : toInteger 32 (numOfInt v) = (BitVec.ofInt 32 (max (-2 ^ 31) (min (2 ^ 31 - 1) v))).toNat := by
  simp only [toInteger, numOfInt, roundMag, BitVec.toNat_ofInt, decide_eq_true_eq, le_refl, if_true, Int.toNat_zero,
    Nat.shiftLeft_zero]
  split
  · split <;> omega
  · omega

/-- An INT8 value back to its byte. -/
theorem toInteger_byte {b : Byte} : toInteger 8 (numOfInt b.toInt) = b.toNat := by
  revert b
  decide

/-- An INT8 value as an INT32. -/
theorem toInteger_of_byte {b : Byte} : toInteger 32 (numOfInt b.toInt) = (BitVec.ofInt 32 b.toInt).toNat := by
  have hlow := BitVec.le_toInt b
  have hhigh := BitVec.toInt_lt (x := b)
  rw [toInteger_numOfInt, max_eq_right (by omega), min_eq_right (by omega)]

end Integers

end Sys2Proof.Proofs
end

section
/-! PROOFS. The values of an engine's operations on INT8 operands and bytes (R257, R261, R263, R266 to R272). -/

namespace Sys2Proof.Proofs

open Sys2Proof.Machine Sys2Proof.Laws

/-! ### Fields of bytes -/

section Fields

variable {bs : List Byte} {n k i j o : Nat} {f : Nat → List Byte}

theorem sliceBytes_of_within (h : o + n ≤ bs.length) : sliceBytes bs o n = (bs.drop o).take n := by
  have hlen : ((bs.drop o).take n).length = n := by
    rw [List.length_take, List.length_drop]
    omega
  rw [sliceBytes, hlen, Nat.sub_self, List.replicate_zero, List.append_nil]

theorem fieldAt_one (h : i < bs.length) : fieldAt bs i 1 = (bs.getD i 0).toNat := by
  rw [fieldAt, sliceBytes_of_within (by omega), List.take_one_drop_eq_of_lt_length h]
  simp [leNat, h]

/-- The item of a place among items of one length. -/
theorem sliceBytes_flatMap (h : ∀ i, i < n → (f i).length = k) (hj : j < n) :
    sliceBytes ((List.range n).flatMap f) (k * j) k = f j := by
  have hlen : ∀ m, m ≤ n → ((List.range m).flatMap f).length = k * m := fun m hm => by
    rw [flatMap_length_of_const (k := k) fun i hi => h i ((List.mem_range.1 hi).trans_le hm), List.length_range, mul_comm]
  have hsplit : (List.range n).flatMap f =
      (List.range j).flatMap f ++ (f j ++ (List.range (n - (j + 1))).flatMap (fun i => f (j + 1 + i))) := by
    obtain ⟨m, rfl⟩ := Nat.exists_eq_add_of_lt hj
    rw [show j + m + 1 = j + (1 + m) by omega, List.range_add, List.flatMap_append, List.flatMap_map, List.range_add,
      List.flatMap_append, List.flatMap_map, show j + (1 + m) - (j + 1) = m by omega]
    simp [Nat.add_assoc]
  rw [sliceBytes_of_within (by rw [hlen n le_rfl]; nlinarith), hsplit, ← hlen j hj.le, List.drop_left, ← h j hj,
    List.take_left]

theorem sliceBytes_sliceBytes {m : Nat} (hin : o + m ≤ n) (h : i + n ≤ bs.length) :
    sliceBytes (sliceBytes bs i n) o m = sliceBytes bs (i + o) m := by
  have hlen : (sliceBytes bs i n).length = n := sliceBytes_length
  rw [sliceBytes_of_within (by rw [hlen]; exact hin), sliceBytes_of_within h, sliceBytes_of_within (by omega),
    List.drop_take, List.take_take, List.drop_drop, min_eq_left (by omega)]

end Fields

/-! ### The operands' bytes -/

section Operands

variable {s : State} {p ticket x j : Nat} {d : Desc} {r : Run}

/-- The bytes of a descriptor's operands, a piece to a run, as memory holds them. -/
def operandPieces (s : State) (p ticket : Nat) (d : Desc) : List Gathered :=
  (runsA d ++ runsB d).map (fun r =>
    { ticket := ticket, idx := r.off, addr := poolAddr p r.off, status := .ok, bytes := heldBytes s p r.off r.len,
      hint := 1 })

theorem bringsHeld_operandPieces : BringsHeld s p (operandPieces s p ticket d) := by
  intro g hg
  obtain ⟨r, -, rfl⟩ := List.mem_map.1 hg
  rw [heldBytes_length]

theorem brought_operandPieces : brought (operandPieces s p ticket d) x = true ↔
    ∃ r ∈ runsA d ++ runsB d, r.off ≤ x ∧ x < r.off + r.len := by
  simp only [brought, operandPieces, List.any_map, List.any_eq_true, Function.comp_apply, heldBytes_length,
    Bool.and_eq_true, decide_eq_true_eq]

/-- A range of one run of an operand reads as memory holds it. -/
theorem bytesRead_operandPieces {off n : Nat} (hr : r ∈ runsA d ++ runsB d) (hlow : r.off ≤ off)
    (hhigh : off + n ≤ r.off + r.len) : bytesRead (operandPieces s p ticket d) off n = heldBytes s p off n :=
  bytesRead_of_brought bringsHeld_operandPieces fun _ _ => brought_operandPieces.2 ⟨r, hr, by omega, by omega⟩

theorem bytesRead_row (hstrided : isStrided d = true) (hj : j < rowCountA d) :
    bytesRead (operandPieces s p ticket d) (d.srca + j * d.stride) (rowLenA d) =
      heldBytes s p (d.srca + j * d.stride) (rowLenA d) := by
  have hrow : (⟨0, d.srca + j * d.stride, rowLenA d⟩ : Run) ∈ runsA d := by
    rw [runsA, if_pos hstrided]
    exact List.mem_map_of_mem (List.mem_range.2 hj)
  exact bytesRead_operandPieces (List.mem_append_left _ hrow) le_rfl le_rfl

theorem bytesRead_plain (hstrided : isStrided d = false) :
    bytesRead (operandPieces s p ticket d) d.srca (plainLenA d) = heldBytes s p d.srca (plainLenA d) := by
  rcases Nat.eq_zero_or_pos (plainLenA d) with hzero | hpos
  · rw [hzero]
    rfl
  · have hrun : (⟨0, d.srca, plainLenA d⟩ : Run) ∈ runsA d := by
      rw [runsA, if_neg (by rw [hstrided]; exact Bool.false_ne_true), if_neg hpos.ne']
      exact List.mem_singleton_self _
    exact bytesRead_operandPieces (List.mem_append_left _ hrun) le_rfl le_rfl

theorem bytesRead_second {off n : Nat} (hlow : d.srcb ≤ off) (hhigh : off + n ≤ d.srcb + lenB d) :
    bytesRead (operandPieces s p ticket d) off n = heldBytes s p off n := by
  rcases Nat.eq_zero_or_pos n with rfl | hpos
  · rfl
  · have hrun : (⟨1, d.srcb, lenB d⟩ : Run) ∈ runsB d := by
      rw [runsB, if_neg (by omega)]
      exact List.mem_singleton_self _
    exact bytesRead_operandPieces (List.mem_append_right _ hrun) hlow hhigh

/-- A row of INT8 elements, from its bytes. -/
theorem rowAt_int8 {ps : List Gathered} {n off : Nat} :
    rowAt ps 9 n off = (bytesRead ps off n).map (fun b => numOfInt b.toInt) := by
  refine List.ext_getElem (by rw [rowAt_length, List.length_map, bytesRead_length]) fun i hi _ => ?_
  rw [rowAt_length] at hi
  have hbytes : rowBytes 9 n = n := Nat.mul_one n
  simp only [rowAt, hbytes, decodeRow, fmtMx, fmtSize, decodeElem, Nat.mul_one]
  have hfield : fieldAt (bytesRead ps off n) i 1 = ((bytesRead ps off n).getD i 0).toNat :=
    fieldAt_one (by rw [bytesRead_length]; exact hi)
  simp [hfield, bytesRead_length, hi]

end Operands

/-! ### FILL, COPY and GATHER -/

section Bytes

variable {s : State} {p ticket j : Nat} {d : Desc}

theorem resultFill_getD (hj : j < d.count) :
    (resultFill d).getD j 0 = BitVec.ofNat 8 (d.imm / 256 ^ ((d.dst + j) % 8)) := by
  simp [resultFill, hj]

theorem resultOf_copy (hopc : d.opc = 2) : resultOf (operandPieces s p ticket d) d = heldBytes s p d.srca d.count := by
  have hplain := bytesRead_plain (s := s) (p := p) (ticket := ticket) (d := d) (by simp [isStrided, hopc])
  have hlen : plainLenA d = d.count := by simp only [plainLenA, hopc]
  rw [hlen] at hplain
  simpa only [resultOf, hopc] using hplain

/-- Index of an entry of a GATHER, as memory holds it. -/
theorem gatherIndex_operandPieces (hopc : d.opc = 7) (hj : j < d.count) :
    gatherIndex (operandPieces s p ticket d) d j = leNat (heldBytes s p (d.srcb + 8 * j + 4) 4) := by
  have hlen : lenB d = 8 * d.count := by simp only [lenB, hopc]
  rw [gatherIndex, bytesRead_second (by omega) (by omega)]

/-- R271: no entry is out of range: each names zeros, or a row that the source has. -/
theorem gatherRow_of_good {ps : List Gathered} (hgood : gatherBad ps p d = none) (hj : j < d.count) :
    gatherIndex ps d j = 0xFFFFFFFF ∧ gatherRow d (gatherIndex ps d j) = .zeros ∨
      gatherIndex ps d j ≠ 0xFFFFFFFF ∧ gatherIndex ps d j - d.imm % 2 ^ 32 < d.rows ∧
        gatherRow d (gatherIndex ps d j) = .row (gatherIndex ps d j - d.imm % 2 ^ 32) := by
  have hnone := List.find?_eq_none.1 (Option.map_eq_none_iff.1 hgood) j (List.mem_range.2 hj)
  simp only [decide_eq_true_eq] at hnone
  revert hnone
  unfold gatherRow
  intro hnone
  split
  next hzeros => exact .inl ⟨hzeros, rfl⟩
  next hrow =>
    refine .inr ⟨hrow, ?_⟩
    split
    next hbad => exact absurd (by rw [if_neg hrow, if_pos hbad]) hnone
    next hgood => exact ⟨by omega, rfl⟩

/-- The bytes that an entry of a GATHER gives. -/
def gatheredRow (ps : List Gathered) (d : Desc) (g : GatherRow) : List Byte := match g with
  | .row r => bytesRead ps (d.srca + r * d.stride) d.dim
  | _ => List.replicate d.dim 0

theorem gatheredRow_length {ps : List Gathered} {g : GatherRow} : (gatheredRow ps d g).length = d.dim := by
  unfold gatheredRow
  split
  · exact bytesRead_length
  · exact List.length_replicate

theorem resultGather_eq {ps : List Gathered} : resultGather ps d =
    (List.range d.count).flatMap (fun k => gatheredRow ps d (gatherRow d (gatherIndex ps d k))) := by
  rw [resultGather, gatherRows, List.flatMap_map]
  rfl

theorem resultOf_gather (hopc : d.opc = 7) (hgood : gatherBad (operandPieces s p ticket d) p d = none) (hj : j < d.count) :
    sliceBytes (resultOf (operandPieces s p ticket d) d) (j * d.dim) d.dim =
      if leNat (heldBytes s p (d.srcb + 8 * j + 4) 4) = 0xFFFFFFFF then List.replicate d.dim 0
      else heldBytes s p (d.srca + (leNat (heldBytes s p (d.srcb + 8 * j + 4) 4) - d.imm % 2 ^ 32) * d.stride) d.dim := by
  have hindex := gatherIndex_operandPieces (s := s) (p := p) (ticket := ticket) hopc hj
  have hresult : resultOf (operandPieces s p ticket d) d = resultGather (operandPieces s p ticket d) d := by
    simp only [resultOf, hopc]
  have hlen : ∀ i, i < d.count →
      (gatheredRow (operandPieces s p ticket d) d (gatherRow d (gatherIndex (operandPieces s p ticket d) d i))).length =
        d.dim := fun i _ => gatheredRow_length
  rw [hresult, resultGather_eq, mul_comm, sliceBytes_flatMap hlen hj, ← hindex]
  obtain ⟨hzeros, hrow⟩ | ⟨hsome, hrange, hrow⟩ := gatherRow_of_good hgood hj
  · rw [hrow, if_pos hzeros]
    rfl
  · have hcount : rowCountA d = d.rows := by simp only [rowCountA, hopc, if_true]
    have hbytes : rowLenA d = d.dim := by simp only [rowLenA, hopc, if_true]
    have hread := bytesRead_row (s := s) (p := p) (ticket := ticket) (d := d) (by simp [isStrided, hopc])
      (hcount ▸ hrange)
    rw [hbytes] at hread
    rw [hrow, if_neg hsome]
    exact hread

end Bytes

end Sys2Proof.Proofs
end

section
/-! PROOFS. The operations of INT8 operands (R261, R263, R267 to R270, R272): comparison, sums, scores, selection and
conversion. -/

namespace Sys2Proof.Proofs

open Sys2Proof.Machine Sys2Proof.Laws

variable {s : State} {p ticket j : Nat} {d : Desc}

/-- The value of an INT8 element. -/
def int8 (b : Byte) : Machine.Num := numOfInt b.toInt

/-- The bytes of an INT32 that a sum gives: it saturates (R263). -/
def saturated (v : Int) : List Byte := leBytes 4 (BitVec.ofInt 32 (max (-2 ^ 31) (min (2 ^ 31 - 1) v))).toNat

/-! ### CMP -/

section Compare

theorem bytes_getD_first (hopc : d.opc = 3) (hlen : plainLenA d = d.count) (hj : j < d.count) :
    (bytesRead (operandPieces s p ticket d) d.srca d.count).getD j 0 = heldByte s p (d.srca + j) := by
  have hread := bytesRead_plain (s := s) (p := p) (ticket := ticket) (d := d) (by simp [isStrided, hopc])
  rw [hlen] at hread
  rw [hread, heldBytes_getD hj]

theorem bytes_getD_second (hlen : lenB d = d.count) (hj : j < d.count) :
    (bytesRead (operandPieces s p ticket d) d.srcb d.count).getD j 0 = heldByte s p (d.srcb + j) := by
  rw [bytesRead_second le_rfl (by omega), heldBytes_getD hj]

/-- The record of CMP, by the code of each place: that of the first place whose code is not 0 (R267). -/
def cmpOf (n : Nat) (code : Nat → Nat) : List Byte := match (List.range n).find? (fun i => code i != 0) with
  | none => cmpRecord 0 none
  | some i => cmpRecord (code i) (some i)

theorem cmpOf_of_equal {n : Nat} {code : Nat → Nat} (h : ∀ i, i < n → code i = 0) :
    cmpOf n code = leBytes 8 0 ++ leBytes 8 (2 ^ 64 - 1) := by
  have hnone : (List.range n).find? (fun i => code i != 0) = none :=
    List.find?_eq_none.2 fun i hi => by simp [h i (List.mem_range.1 hi)]
  rw [cmpOf, hnone]
  show cmpRecord 0 none = _
  decide

theorem cmpOf_of_first {n : Nat} {code : Nat → Nat} (hj : j < n) (hcode : code j ≠ 0) (hsmall : code j < 256)
    (h : ∀ i, i < j → code i = 0) : cmpOf n code = leBytes 8 (code j) ++ leBytes 8 j := by
  have hsome : (List.range n).find? (fun i => code i != 0) = some j := by
    rw [List.find?_range_eq_some]
    exact ⟨by simpa using hcode, List.mem_range.2 hj, fun i hi => by simp [h i hi]⟩
  rw [cmpOf, hsome]
  have hrecord : cmpRecord (code j) (some j) = leBytes 4 (code j) ++ leBytes 4 0 ++ leBytes 8 j := rfl
  have hwide : leBytes 8 (code j) = leBytes 4 (code j) ++ leBytes 4 0 := by
    have hzero : code j / 256 = 0 := Nat.div_eq_of_lt hsmall
    simp [leBytes, hzero]
  exact hrecord.trans (congrArg (· ++ leBytes 8 j) hwide.symm)

/-- The code of a place of a bytewise CMP. -/
def byteCode (a b : Byte) : Nat := if a = b then 0 else 1

/-- The code of a place of a CMP of INT8 elements. -/
def int8Code (a b : Byte) : Nat := if a.toInt < b.toInt then 1 else if b.toInt < a.toInt then 2 else 0

theorem resultOf_cmp_bytes (hopc : d.opc = 3) (hsub : d.sub = 0) : resultOf (operandPieces s p ticket d) d =
    cmpOf d.count (fun i => byteCode (heldByte s p (d.srca + i)) (heldByte s p (d.srcb + i))) := by
  have hresult : resultOf (operandPieces s p ticket d) d = resultCmp (operandPieces s p ticket d) d := by
    simp only [resultOf, hopc]
  have hfirst : plainLenA d = d.count := by simp only [plainLenA, hopc, hsub, if_true]
  have hsecond : lenB d = d.count := by simp only [lenB, hopc, hsub, if_true]
  rw [hresult, resultCmp, if_pos hsub, cmpOf]
  extract_lets a b
  have hfind : (List.range d.count).find? (fun i => a.getD i 0 != b.getD i 0) = (List.range d.count).find?
      (fun i => byteCode (heldByte s p (d.srca + i)) (heldByte s p (d.srcb + i)) != 0) := by
    refine List.find?_congr fun i hi => ?_
    have hi := List.mem_range.1 hi
    rw [bytes_getD_first hopc hfirst hi, bytes_getD_second hsecond hi]
    by_cases heq : heldByte s p (d.srca + i) = heldByte s p (d.srcb + i) <;> simp [byteCode, heq]
  rw [hfind]
  cases hsome : (List.range d.count).find?
      (fun i => byteCode (heldByte s p (d.srca + i)) (heldByte s p (d.srcb + i)) != 0) with
  | none => rfl
  | some i =>
    have hcode := List.find?_some hsome
    simp only [byteCode, bne_iff_ne, ne_eq, ite_eq_left_iff, one_ne_zero, imp_false, not_not] at hcode
    simp only [byteCode, if_neg hcode]

/-- An INT8 element of a row that memory holds. -/
theorem rowAt_getD_int8 {off : Nat} {def_ : Machine.Num}
    (hread : bytesRead (operandPieces s p ticket d) off d.count = heldBytes s p off d.count) (hj : j < d.count) :
    (rowAt (operandPieces s p ticket d) 9 d.count off).getD j def_ = int8 (heldByte s p (off + j)) := by
  rw [rowAt_int8, hread, ← heldBytes_getD hj]
  have hlen : j < (heldBytes s p off d.count).length := by rw [heldBytes_length]; exact hj
  simp [int8, hlen]

theorem resultOf_cmp_int8 (hopc : d.opc = 3) (hsub : d.sub = 1) (hfa : d.fa = 9) :
    resultOf (operandPieces s p ticket d) d =
      cmpOf d.count (fun i => int8Code (heldByte s p (d.srca + i)) (heldByte s p (d.srcb + i))) := by
  have hresult : resultOf (operandPieces s p ticket d) d = resultCmp (operandPieces s p ticket d) d := by
    simp only [resultOf, hopc]
  have hfirst : plainLenA d = d.count := by simp [plainLenA, hopc, hsub, hfa, fmtSize]
  have hsecond : lenB d = d.count := by simp [lenB, hopc, hsub, hfa, fmtSize]
  have hreadA := bytesRead_plain (s := s) (p := p) (ticket := ticket) (d := d) (by simp [isStrided, hopc])
  rw [hfirst] at hreadA
  have hreadB := bytesRead_second (s := s) (p := p) (ticket := ticket) (d := d) (off := d.srcb) (n := d.count) le_rfl
    (by omega)
  rw [hresult, resultCmp, if_neg (by omega), cmpOf, hfa]
  extract_lets a b code
  have hcode : ∀ i, i < d.count → code i = int8Code (heldByte s p (d.srca + i)) (heldByte s p (d.srcb + i)) := by
    intro i hi
    simp only [code, a, b, rowAt_getD_int8 hreadA hi, rowAt_getD_int8 hreadB hi, int8, isNan_numOfInt, numLt_numOfInt,
      int8Code, Bool.or_self, Bool.false_eq_true, if_false, decide_eq_true_eq]
  have hfind : (List.range d.count).find? (fun i => code i != 0) = (List.range d.count).find?
      (fun i => int8Code (heldByte s p (d.srca + i)) (heldByte s p (d.srcb + i)) != 0) :=
    List.find?_congr fun i hi => by rw [hcode i (List.mem_range.1 hi)]
  rw [← hfind]
  cases hsome : (List.range d.count).find? (fun i => code i != 0) with
  | none => rfl
  | some i => simp only [hcode i (List.mem_range.1 (List.mem_of_find?_eq_some hsome))]

end Compare

/-! ### RED and SCORE -/

section Sums

variable {l m : List Byte} {tree : Nat}

theorem sumOn_elements : sumOn 1 tree 0 false ((l.map int8).map (fun x => (x, x))) = numOfInt (l.map BitVec.toInt).sum := by
  have hterms : ((l.map int8).map (fun x => (x, x))).map (fun t => if false then mulNum t.1 t.2 else t.1) = l.map int8 := by
    simp
  rw [sumOn_of_whole hterms fun t ht => ?_]
  · simp [int8, atScale_numOfInt, Function.comp_def]
  · obtain ⟨b, -, rfl⟩ := List.mem_map.1 ht
    exact isWhole_numOfInt

theorem sumOn_products : sumOn 1 tree 0 true ((l.map int8).zip (m.map int8)) =
    numOfInt (l.zipWith (fun x y => x.toInt * y.toInt) m).sum := by
  have hterms : ((l.map int8).zip (m.map int8)).map (fun t => if true then mulNum t.1 t.2 else t.1) =
      (l.zip m).map (fun t => mulNum (int8 t.1) (int8 t.2)) := by
    rw [List.zip_map, List.map_map]
    rfl
  rw [sumOn_of_whole hterms fun t ht => ?_]
  · simp only [List.map_map, Function.comp_def, int8, mulNum_numOfInt.2]
    rw [List.zip_eq_zipWith, List.map_zipWith]
  · obtain ⟨b, -, rfl⟩ := List.mem_map.1 ht
    exact mulNum_numOfInt.1

/-- A row of source A as memory holds it. -/
theorem rowAt_row {row : Nat} (hstrided : isStrided d = true) (hgather : d.opc ≠ 7) (hfa : d.fa = 9)
    (hrow : row < d.count) : rowAt (operandPieces s p ticket d) 9 d.dim (d.srca + row * d.stride) =
      (heldBytes s p (d.srca + row * d.stride) d.dim).map int8 := by
  have hbytes : rowLenA d = d.dim := by
    rw [rowLenA, if_neg hgather, hfa]
    exact Nat.mul_one d.dim
  have hcount : rowCountA d = d.count := if_neg hgather
  have hread := bytesRead_row (s := s) (p := p) (ticket := ticket) (d := d) hstrided (hcount ▸ hrow)
  rw [hbytes] at hread
  rw [rowAt_int8, hread]
  rfl

/-- The bytes that RED gives for a row. -/
def redBytes (ps : List Gathered) (d : Desc) (i : Nat) : List Byte :=
  let row := rowAt ps d.fa d.dim (d.srca + i * d.stride)
  let v := if d.sub = 0 then sumOn (fmtPath d.fa) d.tree 0 false (row.map (fun x => (x, x))) else extreme (d.sub = 1) row
  leBytes (fmtSize d.fd) (toElem d.fd false v)

theorem resultOf_red {ps : List Gathered} (hopc : d.opc = 4) :
    resultOf ps d = (List.range d.count).flatMap (redBytes ps d) := by
  simp only [resultOf, hopc]
  rfl

theorem resultOf_red_sum (hopc : d.opc = 4) (hfa : d.fa = 9) (hsub : d.sub = 0) (hfd : d.fd = 10) (hj : j < d.count) :
    sliceBytes (resultOf (operandPieces s p ticket d) d) (4 * j) 4 =
      saturated ((heldBytes s p (d.srca + j * d.stride) d.dim).map BitVec.toInt).sum := by
  have hitem : ∀ i, redBytes (operandPieces s p ticket d) d i = leBytes 4 (toElem 10 false (sumOn 1 d.tree 0 false
      ((rowAt (operandPieces s p ticket d) 9 d.dim (d.srca + i * d.stride)).map (fun x => (x, x))))) := fun i => by
    simp only [redBytes, hsub, hfa, hfd, if_true, fmtSize]
    rfl
  rw [resultOf_red hopc, sliceBytes_flatMap (fun i _ => by rw [hitem, leBytes_length]) hj, hitem,
    rowAt_row (by simp [isStrided, hopc]) (by omega) hfa hj, sumOn_elements]
  exact congrArg (leBytes 4) toInteger_numOfInt

/-- The bytes that SCORE gives for a row and a query, where it keeps each sum. -/
def scoreBytes (ps : List Gathered) (d : Desc) (i q : Nat) : List Byte :=
  leBytes (fmtSize d.fd) (toElem d.fd false (sumOn (fmtPath d.fa) d.tree d.shift true
    ((rowAt ps d.fa d.dim (d.srca + i * d.stride)).zip (rowAt ps d.fb d.dim (d.srcb + q * rowBytes d.fb d.dim)))))

theorem resultOf_score_each {ps : List Gathered} (hopc : d.opc = 5) (hcomb : d.comb = 0) :
    resultOf ps d = (List.range d.count).flatMap (fun i => (List.range d.kq).flatMap (scoreBytes ps d i)) := by
  simp only [resultOf, hopc, resultScore, hcomb, List.flatMap_map]
  rfl

theorem resultOf_score (hopc : d.opc = 5) (hfa : d.fa = 9) (hfb : d.fb = 9) (hfd : d.fd = 10) (hcomb : d.comb = 0)
    (hshift : d.shift = 0) {k : Nat} (hj : j < d.count) (hk : k < d.kq) :
    sliceBytes (resultOf (operandPieces s p ticket d) d) (4 * (j * d.kq + k)) 4 =
      saturated ((heldBytes s p (d.srca + j * d.stride) d.dim).zipWith (fun x y => x.toInt * y.toInt)
        (heldBytes s p (d.srcb + k * d.dim) d.dim)).sum := by
  have hbytes : rowBytes d.fb d.dim = d.dim := by rw [hfb]; exact Nat.mul_one d.dim
  have hsecond : lenB d = d.kq * d.dim := by simp only [lenB, hopc, hbytes]
  have hquery : rowAt (operandPieces s p ticket d) 9 d.dim (d.srcb + k * d.dim) =
      (heldBytes s p (d.srcb + k * d.dim) d.dim).map int8 := by
    rw [rowAt_int8, bytesRead_second (by omega) (by rw [hsecond]; nlinarith)]
    rfl
  have hrow := rowAt_row (s := s) (p := p) (ticket := ticket) (by simp [isStrided, hopc]) (by omega) hfa hj
  have hitem : ∀ i q, scoreBytes (operandPieces s p ticket d) d i q = leBytes 4 (toElem 10 false (sumOn 1 d.tree 0 true
      ((rowAt (operandPieces s p ticket d) 9 d.dim (d.srca + i * d.stride)).zip
        (rowAt (operandPieces s p ticket d) 9 d.dim (d.srcb + q * d.dim))))) := fun i q => by
    rw [scoreBytes, hbytes, hfa, hfb, hfd, hshift]
    rfl
  have hlen : ∀ i, i < d.count →
      ((List.range d.kq).flatMap (scoreBytes (operandPieces s p ticket d) d i)).length = 4 * d.kq := fun i _ => by
    rw [flatMap_length_of_const (k := 4) fun q _ => by rw [hitem, leBytes_length], List.length_range, mul_comm]
  have htotal : (resultOf (operandPieces s p ticket d) d).length = d.count * (4 * d.kq) := by
    rw [resultOf_score_each hopc hcomb, flatMap_length_of_const (k := 4 * d.kq) fun i hi => hlen i (List.mem_range.1 hi),
      List.length_range]
  rw [show 4 * (j * d.kq + k) = 4 * d.kq * j + 4 * k by ring,
    ← sliceBytes_sliceBytes (n := 4 * d.kq) (by omega) (by rw [htotal]; nlinarith), resultOf_score_each hopc hcomb,
    sliceBytes_flatMap hlen hj, sliceBytes_flatMap (fun q _ => by rw [hitem, leBytes_length]) hk, hitem, hrow, hquery,
    sumOn_products]
  exact congrArg (leBytes 4) toInteger_numOfInt

end Sums

end Sys2Proof.Proofs
end

section
/-! PROOFS. RED's greatest and least, TOPK and CVT of INT8 operands (R265, R268, R270, R272). -/

namespace Sys2Proof.Proofs

open Sys2Proof.Machine Sys2Proof.Laws

variable {s : State} {p ticket j : Nat} {d : Desc}

/-! ### The greatest and the least -/

section Extremes

variable {top : Bool} {a b : Byte} {l : List Byte}

/-- An INT8 element is no better than another, for the greatest or for the least. -/
def NoBetter (top : Bool) (b a : Byte) : Prop := if top then b.toInt ≤ a.toInt else a.toInt ≤ b.toInt

theorem NoBetter.refl : NoBetter top a a := by
  unfold NoBetter
  split <;> exact le_rfl

theorem NoBetter.trans {c : Byte} (h : NoBetter top a b) (k : NoBetter top b c) : NoBetter top a c := by
  unfold NoBetter at *
  split <;> simp_all <;> omega

/-- Of two INT8 elements one is picked, and the other is no better. -/
theorem pickNum_int8 :
    ∃ c, (c = a ∨ c = b) ∧ pickNum top (int8 a) (int8 b) = int8 c ∧ NoBetter top a c ∧ NoBetter top b c := by
  unfold pickNum int8
  simp only [numLt_numOfInt, isZero_numOfInt]
  cases top
  · by_cases hless : b.toInt < a.toInt
    · exact ⟨b, .inr rfl, by simp [hless], by simp [NoBetter]; omega, .refl⟩
    · refine ⟨a, .inl rfl, ?_, .refl, by simp [NoBetter]; omega⟩
      by_cases hzero : a.toInt = 0 ∧ b.toInt = 0
      · simp [hzero.1, hzero.2]
      · simp only [hless, decide_false, Bool.false_eq_true, if_false]
        rw [if_neg]
        simp only [Bool.and_eq_true, decide_eq_true_eq]
        exact fun h => hzero h.1
  · by_cases hless : a.toInt < b.toInt
    · exact ⟨b, .inr rfl, by simp [hless], by simp [NoBetter]; omega, .refl⟩
    · refine ⟨a, .inl rfl, ?_, .refl, by simp [NoBetter]; omega⟩
      by_cases hzero : a.toInt = 0 ∧ b.toInt = 0
      · simp [hzero.1, hzero.2]
      · simp only [hless, decide_false, Bool.false_eq_true, if_false, if_true]
        rw [if_neg]
        simp only [Bool.and_eq_true, decide_eq_true_eq]
        exact fun h => hzero h.1

theorem foldl_pickNum_int8 : ∃ c ∈ a :: l, (l.map int8).foldl (pickNum top) (int8 a) = int8 c ∧
    ∀ b ∈ a :: l, NoBetter top b c := by
  induction l generalizing a with
  | nil => exact ⟨a, List.mem_singleton_self a, rfl, fun b hb => List.mem_singleton.1 hb ▸ .refl⟩
  | cons x l ih =>
    obtain ⟨y, hy, hpick, ha, hx⟩ := pickNum_int8 (top := top) (a := a) (b := x)
    obtain ⟨c, hc, hfold, hbest⟩ := ih (a := y)
    have hyc := hbest y List.mem_cons_self
    refine ⟨c, ?_, by rw [List.map_cons, List.foldl_cons, hpick, hfold], ?_⟩
    · rcases List.mem_cons.1 hc with rfl | hc
      · rcases hy with rfl | rfl <;> simp
      · exact List.mem_cons_of_mem _ (List.mem_cons_of_mem _ hc)
    · intro b hb
      rcases List.mem_cons.1 hb with rfl | hb
      · exact ha.trans hyc
      · rcases List.mem_cons.1 hb with rfl | hb
        · exact hx.trans hyc
        · exact hbest b (List.mem_cons_of_mem _ hb)

theorem extreme_int8 (h : l ≠ []) : ∃ c ∈ l, extreme top (l.map int8) = int8 c ∧ ∀ b ∈ l, NoBetter top b c := by
  obtain ⟨a, l, rfl⟩ := List.exists_cons_of_ne_nil h
  obtain ⟨c, hc, hfold, hbest⟩ := foldl_pickNum_int8 (top := top) (a := a) (l := l)
  refine ⟨c, hc, ?_, hbest⟩
  have hnan : ((a :: l).map int8).any isNan = false := List.any_eq_false.2 fun t ht => by
    obtain ⟨b, -, rfl⟩ := List.mem_map.1 ht
    exact Bool.false_ne_true
  exact (if_neg (by rw [hnan]; exact Bool.false_ne_true)).trans hfold

theorem leBytes_one {n : Nat} : leBytes 1 n = [BitVec.ofNat 8 n] := rfl

theorem flatMap_getD_of_single {α : Type} {f : Nat → α} {n : Nat} {z : α} (hj : j < n) :
    ((List.range n).flatMap (fun i => [f i])).getD j z = f j := by
  simp [← List.map_eq_flatMap, hj]

/-- The byte of an INT8 destination. -/
theorem leBytes_toElem_int8 : leBytes 1 (toElem 9 false (int8 a)) = [a] := by
  show leBytes 1 (toInteger 8 (numOfInt a.toInt)) = _
  rw [toInteger_byte, leBytes_one, BitVec.ofNat_toNat, BitVec.setWidth_eq]

theorem resultOf_red_extreme (hopc : d.opc = 4) (hfa : d.fa = 9) (hsub : d.sub ≠ 0) (hfd : d.fd = 9) (hdim : d.dim ≠ 0)
    (hj : j < d.count) : ∃ c ∈ heldBytes s p (d.srca + j * d.stride) d.dim,
      (resultOf (operandPieces s p ticket d) d).getD j 0 = c ∧
        ∀ b ∈ heldBytes s p (d.srca + j * d.stride) d.dim, NoBetter (d.sub = 1) b c := by
  have hsome : ∀ i, heldBytes s p (d.srca + i * d.stride) d.dim ≠ [] := fun i =>
    List.ne_nil_of_length_pos (by rw [heldBytes_length]; omega)
  obtain ⟨c, hc, hextreme, hbest⟩ := extreme_int8 (top := d.sub = 1) (hsome j)
  have hitem : ∀ i, redBytes (operandPieces s p ticket d) d i = leBytes 1 (toElem 9 false (extreme (d.sub = 1)
      (rowAt (operandPieces s p ticket d) 9 d.dim (d.srca + i * d.stride)))) := fun i => by
    simp only [redBytes, hsub, hfa, hfd, if_false]
    rfl
  refine ⟨c, hc, ?_, hbest⟩
  have hresult : resultOf (operandPieces s p ticket d) d = (List.range d.count).flatMap (fun i => [BitVec.ofNat 8
      (toElem 9 false (extreme (d.sub = 1) (rowAt (operandPieces s p ticket d) 9 d.dim (d.srca + i * d.stride))))]) := by
    rw [resultOf_red hopc]
    exact List.flatMap_congr fun i _ => hitem i
  rw [hresult, flatMap_getD_of_single hj, rowAt_row (by simp [isStrided, hopc]) (by omega) hfa hj, hextreme]
  exact (List.singleton_inj.1 leBytes_toElem_int8)

end Extremes

/-! ### TOPK -/

section Selection

variable {α : Type} {le : α → α → Bool} {e x : α} {l m : List α}

theorem mem_insertBy : e ∈ insertBy le x l ↔ e = x ∨ e ∈ l := by
  induction l with
  | nil => simp [insertBy]
  | cons y l ih =>
    unfold insertBy
    split
    · rw [List.mem_cons, ih, List.mem_cons]
      tauto
    · exact List.mem_cons

/-- An item that comes before every other one heads the list, once it is in it. -/
theorem head_insertBy (hrefl : le e e = true) (hx : x ≠ e → le e x = true ∧ le x e = false)
    (hl : ∀ y ∈ l, y ≠ e → le y e = false) (hhead : e ∈ l → l.head? = some e) (hmem : e ∈ insertBy le x l) :
    (insertBy le x l).head? = some e := by
  cases l with
  | nil => simpa [insertBy, eq_comm] using hmem
  | cons y l =>
    rw [mem_insertBy] at hmem
    by_cases hy : y = e
    · subst hy
      by_cases hxy : x = y
      · simp [insertBy, hxy, hrefl]
      · simp [insertBy, (hx hxy).1]
    · have hxe : e = x := hmem.resolve_right fun h => hy (Option.some.inj (hhead h))
      subst hxe
      simp [insertBy, hl y List.mem_cons_self hy]

theorem head_sortBy (hrefl : le e e = true) (hbest : ∀ z ∈ l, z ≠ e → le e z = true ∧ le z e = false) (hmem : e ∈ l) :
    (sortBy le l).head? = some e := by
  have hfold : ∀ l m : List α, (∀ z ∈ l, z ≠ e → le e z = true ∧ le z e = false) → (∀ y ∈ m, y ≠ e → le y e = false) →
      (e ∈ m → m.head? = some e) → e ∈ l ∨ e ∈ m →
      (l.foldl (fun acc x => insertBy le x acc) m).head? = some e := by
    intro l
    induction l with
    | nil => exact fun m _ _ hhead hin => hhead (hin.resolve_left List.not_mem_nil)
    | cons x l ih =>
      intro m hbest hlow hhead hin
      have hx := hbest x List.mem_cons_self
      refine ih (insertBy le x m) (fun z hz => hbest z (List.mem_cons_of_mem x hz)) (fun y hy hne => ?_)
        (head_insertBy hrefl hx hlow hhead) ?_
      · rcases mem_insertBy.1 hy with rfl | hy
        · exact (hx hne).2
        · exact hlow y hy hne
      · rw [mem_insertBy]
        rcases hin with hin | hin
        · exact (List.mem_cons.1 hin).elim (fun h => .inr (.inl h)) .inl
        · exact .inr (.inr hin)
  exact hfold l [] hbest (fun _ h => absurd h List.not_mem_nil) (fun h => absurd h List.not_mem_nil) (.inl hmem)

end Selection

section Topk

variable {smallest : Bool} {a b : Byte} {i k m n : Nat}

/-- An INT8 value comes before another (R270). -/
def Before (smallest : Bool) (a b : Byte) : Prop := if smallest then a.toInt < b.toInt else b.toInt < a.toInt

theorem topBefore_int8_of_before (h : Before smallest a b) : topBefore smallest (int8 a, i, m) (int8 b, k, n) = true := by
  simp only [topBefore, int8, isNan_numOfInt, numLt_numOfInt, Bool.false_eq_true, if_false]
  rw [if_pos]
  unfold Before at h
  split <;> simp_all

theorem topBefore_int8_of_after (h : Before smallest b a) : topBefore smallest (int8 a, i, m) (int8 b, k, n) = false := by
  simp only [topBefore, int8, isNan_numOfInt, numLt_numOfInt, Bool.false_eq_true, if_false]
  unfold Before at h
  cases smallest <;> simp_all [le_of_lt]

theorem topBefore_int8_of_equal (h : ¬ Before smallest a b) (k' : ¬ Before smallest b a) :
    topBefore smallest (int8 a, i, m) (int8 b, k, n) = decide (i ≤ k) := by
  simp only [topBefore, int8, isNan_numOfInt, numLt_numOfInt, Bool.false_eq_true, if_false]
  unfold Before at h k'
  cases smallest <;> simp_all [not_lt.2]

/-- The entry of a place of TOPK's row. -/
def topEntry (s : State) (p off i : Nat) : Machine.Num × Nat × Nat :=
  (int8 (heldByte s p (off + i)), i, (heldByte s p (off + i)).toNat)

/-- The best value of lowest index heads TOPK's order. -/
theorem head_topEntries {off : Nat} (hj : j < n)
    (hbest : ∀ h, h < n → ¬ Before smallest (heldByte s p (off + h)) (heldByte s p (off + j)))
    (hfirst : ∀ h, h < j → Before smallest (heldByte s p (off + j)) (heldByte s p (off + h))) :
    (sortBy (topBefore smallest) ((List.range n).map (topEntry s p off))).head? = some (topEntry s p off j) := by
  refine head_sortBy ?_ ?_ (List.mem_map_of_mem (List.mem_range.2 hj))
  · exact (topBefore_int8_of_equal (hbest j hj) (hbest j hj)).trans (decide_eq_true le_rfl)
  · intro z hz hne
    obtain ⟨i, hi, rfl⟩ := List.mem_map.1 hz
    have hin := List.mem_range.1 hi
    have hij : i ≠ j := fun h => hne (by rw [h])
    by_cases hbefore : Before smallest (heldByte s p (off + j)) (heldByte s p (off + i))
    · exact ⟨topBefore_int8_of_before hbefore, topBefore_int8_of_after hbefore⟩
    · have hlater : j < i := by
        rcases Nat.lt_or_ge i j with h | h
        · exact absurd (hfirst i h) hbefore
        · omega
      exact ⟨(topBefore_int8_of_equal hbefore (hbest i hin)).trans (decide_eq_true hlater.le),
        (topBefore_int8_of_equal (hbest i hin) hbefore).trans (decide_eq_false (by omega))⟩

theorem resultOf_topk (hopc : d.opc = 6) (hfa : d.fa = 9) (hkq : d.kq = 1) (hj : j < d.count)
    (hbest : ∀ h, h < d.count → ¬ Before (d.sub = 1) (heldByte s p (d.srca + h)) (heldByte s p (d.srca + j)))
    (hfirst : ∀ h, h < j → Before (d.sub = 1) (heldByte s p (d.srca + j)) (heldByte s p (d.srca + h))) :
    resultOf (operandPieces s p ticket d) d =
      leBytes 4 (heldByte s p (d.srca + j)).toNat ++ leBytes 4 (d.imm % 2 ^ 32 + j) := by
  have hlen : plainLenA d = d.count := by simp [plainLenA, hopc, hfa, fmtSize]
  have hread := bytesRead_plain (s := s) (p := p) (ticket := ticket) (d := d) (by simp [isStrided, hopc])
  rw [hlen] at hread
  have hentries : (List.range d.count).map (fun i =>
      (decodeElem 9 (fieldAt (bytesRead (operandPieces s p ticket d) d.srca d.count) i 1), i,
        fieldAt (bytesRead (operandPieces s p ticket d) d.srca d.count) i 1)) =
      (List.range d.count).map (topEntry s p d.srca) := by
    refine List.map_congr_left fun i hi => ?_
    have hi := List.mem_range.1 hi
    rw [hread, fieldAt_one (by rw [heldBytes_length]; exact hi), heldBytes_getD hi]
    simp [topEntry, decodeElem, int8]
  have hhead := head_topEntries (smallest := d.sub = 1) hj hbest hfirst
  rw [List.head?_eq_getElem?] at hhead
  simp only [resultOf, hopc, resultTopk, hfa, hkq, fmtSize, Nat.mul_one, hentries, List.range_one, List.flatMap_cons,
    List.flatMap_nil, List.append_nil, hhead]
  rfl

end Topk

/-! ### CVT -/

theorem resultOf_cvt (hopc : d.opc = 8) (hfa : d.fa = 9) (hfd : d.fd = 10) (hj : j < d.count) :
    sliceBytes (resultOf (operandPieces s p ticket d) d) (4 * j) 4 =
      leBytes 4 (BitVec.ofInt 32 (heldByte s p (d.srca + j)).toInt).toNat := by
  have hlen : plainLenA d = d.count := by simp [plainLenA, hopc, hfa, rowBytes, fmtMx, elemBytes, fmtSize]
  have hread := bytesRead_plain (s := s) (p := p) (ticket := ticket) (d := d) (by simp [isStrided, hopc])
  rw [hlen] at hread
  have hresult : resultOf (operandPieces s p ticket d) d =
      (List.range d.count).flatMap (fun i => leBytes 4 (toInteger 32 (int8 (heldByte s p (d.srca + i))))) := by
    simp only [resultOf, hopc, resultCvt, hfa, hfd, rowAt_int8, hread, encodeRow, heldBytes, List.map_map,
      List.flatMap_map]
    rfl
  rw [hresult, sliceBytes_flatMap (fun i _ => leBytes_length _ _) hj, int8, toInteger_of_byte]

end Sys2Proof.Proofs
end

section
/-! PROOFS. The bytes of a line lie side by side (R20, R29): every step of the mapping keeps the 64 bytes of a line
together. -/

namespace Sys2Proof.Proofs

open Sys2Proof.Machine Sys2Proof.Laws

variable {s : State} {l : Layout} {p off sl a b i j k g : Nat} {r : RegionRec}

theorem add_div_of_line (hk : 64 ∣ k) (h : a % 64 + j < 64) : (a + j) / k = a / k := by
  obtain ⟨c, rfl⟩ := hk
  rw [← Nat.div_div_eq_div_mul, ← Nat.div_div_eq_div_mul, show (a + j) / 64 = a / 64 by omega]

theorem add_mod_of_line (hk : 64 ∣ k) (h : a % 64 + j < 64) : (a + j) % k = a % k + j := by
  have hwhole := Nat.div_add_mod (a + j) k
  have hpart := Nat.div_add_mod a k
  rw [add_div_of_line hk h] at hwhole
  omega

theorem concatPlace_of_line {caps : List Nat} (hcaps : ∀ c ∈ caps, 64 ∣ c) (h : concatPlace caps a k = some (i, b)) :
    b % 64 = a % 64 ∧ ∀ j, a % 64 + j < 64 → concatPlace caps (a + j) k = some (i, b + j) := by
  induction caps generalizing a k with
  | nil => cases h
  | cons c caps ih =>
    obtain ⟨m, rfl⟩ := hcaps c List.mem_cons_self
    unfold concatPlace at h ⊢
    split at h
    next hin =>
      obtain ⟨rfl, rfl⟩ := Prod.mk.inj (Option.some.inj h)
      exact ⟨rfl, fun j hj => if_pos (by omega)⟩
    next hout =>
      obtain ⟨hmod, hline⟩ := ih (fun c hc => hcaps c (List.mem_cons_of_mem _ hc)) h
      refine ⟨by omega, fun j hj => ?_⟩
      rw [if_neg (by omega), show a + j - 64 * m = a - 64 * m + j by omega]
      exact hline j (by omega)

theorem placeInHedge_of_line {h : HedgeRec} {caps : List Nat} (hcaps : ∀ c ∈ caps, 64 ∣ c)
    (hplace : placeInHedge h caps a = some (i, b)) :
    b % 64 = a % 64 ∧ ∀ j, a % 64 + j < 64 → placeInHedge h caps (a + j) = some (i, b + j) := by
  have hgranule : 64 ∣ modeGranule h.mode := by
    unfold modeGranule
    split <;> decide
  unfold placeInHedge at hplace ⊢
  extract_lets g m at hplace
  split at hplace
  next hzero =>
    simp only [g] at hzero
    simp only [hzero, if_true]
    exact concatPlace_of_line hcaps hplace
  next hsome =>
    split at hplace
    next => cases hplace
    next hmembers =>
      obtain ⟨rfl, rfl⟩ := Prod.mk.inj (Option.some.inj hplace)
      have hrows : a / (g * m) * g % 64 = 0 := Nat.mod_eq_zero_of_dvd (hgranule.mul_left _)
      have hmod : a % g % 64 = a % 64 := Nat.mod_mod_of_dvd a hgranule
      refine ⟨by omega, fun j hj => ?_⟩
      rw [if_neg hsome, if_neg hmembers, add_div_of_line hgranule hj, add_div_of_line (hgranule.mul_right m) hj,
        add_mod_of_line hgranule hj, Nat.add_assoc]

theorem placeDown_of_line {fuel : Nat} {m : Bool × Nat} (h : placeDown l fuel m a = some (sl, b)) :
    b % 64 = a % 64 ∧ ∀ j, a % 64 + j < 64 → placeDown l fuel m (a + j) = some (sl, b + j) := by
  induction fuel generalizing m a with
  | zero =>
    obtain ⟨_ | _, n⟩ := m
    · obtain ⟨rfl, rfl⟩ := Prod.mk.inj (Option.some.inj h)
      exact ⟨rfl, fun _ _ => rfl⟩
    · cases h
  | succ fuel ih =>
    obtain ⟨_ | _, n⟩ := m
    · obtain ⟨rfl, rfl⟩ := Prod.mk.inj (Option.some.inj h)
      exact ⟨rfl, fun _ _ => rfl⟩
    · unfold placeDown at h ⊢
      cases hrec : hedgeRec l n with
      | none => simp [hrec] at h
      | some r =>
        simp only [hrec] at h ⊢
        have hcaps : ∀ c ∈ r.members.map (fun m => 2097152 * memberCap l fuel m), 64 ∣ c := by
          intro c hc
          obtain ⟨m, -, rfl⟩ := List.mem_map.1 hc
          exact Dvd.dvd.mul_right (by decide) _
        cases hstep : placeInHedge r (r.members.map (fun m => 2097152 * memberCap l fuel m)) a with
        | none => simp [hstep] at h
        | some place =>
          obtain ⟨i, a'⟩ := place
          simp only [hstep] at h
          obtain ⟨hmod, hline⟩ := placeInHedge_of_line hcaps hstep
          obtain ⟨hmod', hline'⟩ := ih h
          refine ⟨hmod'.trans hmod, fun j hj => ?_⟩
          simp only [hline j hj]
          exact hline' j (by omega)

/-- The bytes of a line of published memory stand side by side in its slice. -/
theorem placeOf_of_line (h : placeOf s p off = .pinned r sl a) (hj : off % 64 + j < 64) :
    placeOf s p (off + j) = .pinned r sl (a + j) := by
  have hunit : (off + j) / 2097152 = off / 2097152 := add_div_of_line (by decide) hj
  have hbase : nearBase ≤ off + j ↔ nearBase ≤ off := by
    have halign : nearBase % 64 = 0 := by decide
    omega
  unfold placeOf at h ⊢
  simp only [hunit, hbase] at h ⊢
  by_cases hnear : nearBase ≤ off
  · rw [if_pos hnear] at h
    split at h <;> cases h
  rw [if_neg hnear] at h ⊢
  cases hregion : regionAt s.img.layout p (off / 2097152) with
  | none => simp [hregion] at h
  | some g =>
    simp only [hregion] at h ⊢
    by_cases hflash : g.flash = true
    · simp [hflash] at h
    rw [if_neg hflash] at h ⊢
    cases hpte : pteGet s p (off / 2097152) with
    | mapped hp =>
      cases hpart : partRecOf s.img.layout p with
      | none => simp [hpte, hpart] at h
      | some pr =>
        simp only [hpte, hpart] at h ⊢
        cases hplace : hedgePlace s.img.layout pr.root (hp * 2097152 + off % 2097152) with
        | none => simp [hplace] at h
        | some place =>
          obtain ⟨sl', a'⟩ := place
          simp only [hplace] at h
          obtain ⟨rfl, rfl, rfl⟩ := Place.pinned.inj h
          have hmod : (off + j) % 2097152 = off % 2097152 + j := add_mod_of_line (by decide) hj
          have hline : (hp * 2097152 + off % 2097152) % 64 + j < 64 := by omega
          have hnext : hedgePlace s.img.layout pr.root (hp * 2097152 + (off + j) % 2097152) = some (sl', a' + j) := by
            rw [hmod, ← Nat.add_assoc]
            exact (placeDown_of_line hplace).2 j hline
          simp only [hnext]
    | _ => simp [hpte] at h

/-- Memory's bytes within a line of a slice. -/
theorem heldBytes_of_line {n : Nat} (h : placeOf s p off = .pinned r sl a) (hfit : off % 64 + n ≤ 64) :
    heldBytes s p off n = dramBytes s sl a n := by
  refine List.map_congr_left fun i hi => ?_
  have hi := List.mem_range.1 hi
  simp only [heldByte, placeOf_of_line h (show off % 64 + i < 64 by omega)]

end Sys2Proof.Proofs
end

section
/-! PROOFS. The blocks of an operand (R248, R288): they are the runs cut into pieces, and hold the runs' bytes. -/

namespace Sys2Proof.Proofs

open Sys2Proof.Machine Sys2Proof.Laws

/-! ### Cutting a range -/

section Cutting

variable {g fuel a i n x : Nat} {c : Nat × Nat × Nat}

/-- A piece of a range: it lies where its index says, is not empty, and stays within the range. -/
theorem piece_of_mem_piecesAt (h : c ∈ piecesAt g fuel a i n) :
    c.1 + i = a + c.2.1 ∧ i ≤ c.2.1 ∧ 0 < c.2.2 ∧ c.2.1 + c.2.2 ≤ i + n := by
  induction fuel generalizing a i n with
  | zero => cases h
  | succ fuel ih =>
    unfold piecesAt at h
    split at h
    next => cases h
    next hsome =>
      rw [not_or] at hsome
      obtain ⟨hn, hg⟩ := hsome
      have hrest := Nat.mod_lt a (Nat.pos_of_ne_zero hg)
      rcases List.mem_cons.1 h with rfl | h
      · refine ⟨Nat.add_comm _ _ ▸ rfl, le_rfl, ?_, ?_⟩ <;> dsimp only <;> omega
      · obtain ⟨hplace, hlow, hpos, hhigh⟩ := ih h
        exact ⟨by omega, by omega, hpos, by omega⟩

theorem piecesAt_covers (hg : 0 < g) (hfuel : a % g + n ≤ fuel * g) (hlow : i ≤ x) (hhigh : x < i + n) :
    ∃ c ∈ piecesAt g fuel a i n, c.2.1 ≤ x ∧ x < c.2.1 + c.2.2 := by
  induction fuel generalizing a i n with
  | zero => omega
  | succ fuel ih =>
    have hrest := Nat.mod_lt a hg
    have hsome : ¬ (n = 0 ∨ g = 0) := by omega
    unfold piecesAt
    rw [if_neg hsome]
    by_cases hfirst : x < i + min n (g - a % g)
    · exact ⟨_, List.mem_cons_self, hlow, hfirst⟩
    · have hmod : (a + min n (g - a % g)) % g = 0 := by
        rw [min_eq_right (by omega)]
        have hwhole := Nat.div_add_mod a g
        rw [show a + (g - a % g) = g * (a / g) + g by omega, ← Nat.mul_succ, Nat.mul_mod_right]
      have hleft : (fuel + 1) * g = fuel * g + g := Nat.succ_mul fuel g
      obtain ⟨c, hc, hin⟩ := ih (a := a + min n (g - a % g)) (i := i + min n (g - a % g)) (n := n - min n (g - a % g))
        (by omega) (by omega) (by omega)
      exact ⟨c, List.mem_cons_of_mem _ hc, hin⟩

theorem piece_of_mem_cutAt (h : c ∈ cutAt g a n) : c.1 = a + c.2.1 ∧ 0 < c.2.2 ∧ c.2.1 + c.2.2 ≤ n := by
  obtain ⟨hplace, -, hpos, hhigh⟩ := piece_of_mem_piecesAt h
  exact ⟨hplace, hpos, by omega⟩

theorem cutAt_covers (hg : 0 < g) (hx : x < n) : ∃ c ∈ cutAt g a n, c.2.1 ≤ x ∧ x < c.2.1 + c.2.2 := by
  refine piecesAt_covers hg ?_ (Nat.zero_le x) (by omega)
  have hrest := Nat.mod_lt a hg
  have hwhole := Nat.div_add_mod n g
  have hpart := Nat.mod_lt n hg
  rw [Nat.add_mul, mul_comm]
  omega

end Cutting

/-! ### Blocks -/

section Blocks

variable {s : State} {p x : Nat} {rs : List Run} {r : Run} {b : Blk}

/-- A block lies in a run. -/
structure InRun (r : Run) (b : Blk) : Prop where
  stream : b.stream = r.stream
  low : r.off ≤ b.off
  high : b.off + b.len ≤ r.off + r.len
  some : 0 < b.len

/-- What stands at 256 B of a run, cut into the engine's tiles from byte `n` of its stream on. -/
def tilesOf (stream off len eng n : Nat) : List Blk :=
  (cutAt 65536 n len).map (fun c =>
    { stream := stream, off := off + c.2.1, len := c.2.2, eng := eng, tile := c.1 / 65536 })

/-- The stretches of 256 B of runs. -/
def stretchesOf (rs : List Run) : List (Nat × Nat × Nat) :=
  rs.flatMap (fun r => (cutAt 256 r.off r.len).map (fun c => (r.stream, c.1, c.2.2)))

/-- Blocks are taken up stretch by stretch. -/
def takeStretch (s : State) (p : Nat) (acc : List Blk × Tbl Nat) (b : Nat × Nat × Nat) : List Blk × Tbl Nat :=
  let e := engineAt s p b.2.1
  let n := tblGet (fun _ => 0) acc.2 (b.1 * 1024 + e)
  (acc.1 ++ tilesOf b.1 b.2.1 b.2.2 e n, tblSet (fun _ => 0) acc.2 (b.1 * 1024 + e) (n + b.2.2))

theorem blocksOf_eq : blocksOf s p rs = ((stretchesOf rs).foldl (takeStretch s p) ([], [])).1 := rfl

theorem mem_foldl_takeStretch_of_mem {l : List (Nat × Nat × Nat)} {acc : List Blk × Tbl Nat} (h : b ∈ acc.1) :
    b ∈ (l.foldl (takeStretch s p) acc).1 := by
  induction l generalizing acc with
  | nil => exact h
  | cons t l ih => exact ih (List.mem_append_left _ h)

theorem stretch_of_mem_foldl_takeStretch {l : List (Nat × Nat × Nat)} {acc : List Blk × Tbl Nat}
    (h : b ∈ (l.foldl (takeStretch s p) acc).1) : b ∈ acc.1 ∨ ∃ t ∈ l, ∃ e n, b ∈ tilesOf t.1 t.2.1 t.2.2 e n := by
  induction l generalizing acc with
  | nil => exact .inl h
  | cons t l ih =>
    rcases ih h with h | ⟨t', ht', hb⟩
    · rcases List.mem_append.1 h with h | h
      · exact .inl h
      · exact .inr ⟨t, List.mem_cons_self, _, _, h⟩
    · exact .inr ⟨t', List.mem_cons_of_mem t ht', hb⟩

theorem tiles_subset_foldl_takeStretch {l : List (Nat × Nat × Nat)} {acc : List Blk × Tbl Nat} {t : Nat × Nat × Nat}
    (ht : t ∈ l) : ∃ e n, ∀ b ∈ tilesOf t.1 t.2.1 t.2.2 e n, b ∈ (l.foldl (takeStretch s p) acc).1 := by
  induction l generalizing acc with
  | nil => cases ht
  | cons t' l ih =>
    rcases List.mem_cons.1 ht with rfl | ht
    · refine ⟨engineAt s p t.2.1, tblGet (fun _ => 0) acc.2 (t.1 * 1024 + engineAt s p t.2.1), fun b hb => ?_⟩
      rw [List.foldl_cons]
      exact mem_foldl_takeStretch_of_mem (List.mem_append_right _ hb)
    · exact ih ht

theorem tile_in_stretch {stream off len eng n : Nat} (h : b ∈ tilesOf stream off len eng n) :
    b.stream = stream ∧ off ≤ b.off ∧ b.off + b.len ≤ off + len ∧ 0 < b.len := by
  obtain ⟨c, hc, rfl⟩ := List.mem_map.1 h
  obtain ⟨-, hpos, hhigh⟩ := piece_of_mem_cutAt hc
  exact ⟨rfl, Nat.le_add_right _ _, by dsimp only; omega, hpos⟩

/-- A block lies in one of the runs. -/
theorem inRun_of_mem_blocksOf (h : b ∈ blocksOf s p rs) : ∃ r ∈ rs, InRun r b := by
  rw [blocksOf_eq] at h
  obtain h | ⟨t, ht, e, n, hb⟩ := stretch_of_mem_foldl_takeStretch h
  · cases h
  · obtain ⟨r, hr, ht⟩ := List.mem_flatMap.1 ht
    obtain ⟨c, hc, rfl⟩ := List.mem_map.1 ht
    obtain ⟨hplace, -, hhigh⟩ := piece_of_mem_cutAt hc
    obtain ⟨hstream, hlow, hend, hpos⟩ := tile_in_stretch hb
    dsimp only at hlow hend
    exact ⟨r, hr, hstream, by omega, by omega, hpos⟩

/-- Every byte of a run lies in a block of the run. -/
theorem blocksOf_covers (hr : r ∈ rs) (hlow : r.off ≤ x) (hhigh : x < r.off + r.len) :
    ∃ b ∈ blocksOf s p rs, InRun r b ∧ b.off ≤ x ∧ x < b.off + b.len := by
  obtain ⟨c, hc, hcLow, hcHigh⟩ := cutAt_covers (g := 256) (a := r.off) (x := x - r.off) (n := r.len) (by decide) (by omega)
  obtain ⟨hplace, hcPos, hcEnd⟩ := piece_of_mem_cutAt hc
  have hstretch : (r.stream, c.1, c.2.2) ∈ stretchesOf rs := List.mem_flatMap.2 ⟨r, hr, List.mem_map_of_mem hc⟩
  obtain ⟨e, n, htiles⟩ := tiles_subset_foldl_takeStretch (s := s) (p := p) (acc := ([], [])) hstretch
  obtain ⟨k, hk, hkLow, hkHigh⟩ := cutAt_covers (g := 65536) (a := n) (x := x - c.1) (n := c.2.2) (by decide) (by omega)
  obtain ⟨-, hkPos, hkEnd⟩ := piece_of_mem_cutAt hk
  refine ⟨_, htiles _ (List.mem_map_of_mem hk), ⟨rfl, ?_, ?_, hkPos⟩, ?_, ?_⟩ <;> dsimp only <;> omega

end Blocks

end Sys2Proof.Proofs
end

section
/-! PROOFS. One block of an operand (R288, R289, R303, R305): what its read brings and what its write leaves, where
memory is without errors. -/

namespace Sys2Proof.Proofs

open Sys2Proof.Machine Sys2Proof.Laws

/-! ### Stores in memory without errors -/

section Stores

variable {s : State} {p off base i source sl a : Nat} {bs : List Byte} {m : Mover} {r : RegionRec}

/-- No word of memory is marked, no row is lost, and no error is to be injected. -/
structure MemoryClean (s : State) : Prop where
  marks : s.stk.marks = []
  lost : s.stk.lost = []
  unarmed : s.di.injArm = false

theorem MemoryClean.markDefault_eq {k : Nat} (h : MemoryClean s) : markDefault s.stk.lost k = {} := by
  simp [markDefault, h.lost]

theorem MemoryClean.markSet_eq {k : Nat} (h : MemoryClean s) : markSet s k {} = s := by
  have hmarks : tblSet (markDefault s.stk.lost) s.stk.marks k {} = s.stk.marks := by
    rw [tblSet, if_pos h.markDefault_eq.symm, h.marks]
    rfl
  rw [markSet, hmarks]

theorem MemoryClean.foldl_markSet {f : Nat → Nat} {l : List Nat} (h : MemoryClean s) :
    l.foldl (fun s k => markSet s (f k) {}) s = s :=
  foldl_of_fixed fun _ _ => h.markSet_eq

theorem MemoryClean.markGet_eq {k : Nat} (h : MemoryClean s) : markGet s k = {} := by
  rw [markGet, h.marks]
  exact h.markDefault_eq

theorem MemoryClean.line (h : MemoryClean s) : LineClean s sl a :=
  List.all_eq_true.2 fun _ _ => decide_eq_true h.markGet_eq

theorem MemoryClean.reserves (h : MemoryClean s) : ReservesClean s :=
  ⟨fun _ _ _ _ _ _ _ => h.markGet_eq, fun _ _ _ _ _ => h.markGet_eq⟩

theorem dramStore_eq : dramStore s sl a bs = { s with stk := { s.stk with dram := (dramStore s sl a bs).stk.dram } } := by
  induction bs generalizing s a with
  | nil => rfl
  | cons b bs ih => exact ih

theorem MemoryClean.stored (h : MemoryClean s) : MemoryClean (dramStore s sl a bs) := by
  rw [dramStore_eq]
  exact ⟨h.marks, h.lost, h.unarmed⟩

/-- A write of a line stores its bytes, and that is all. -/
theorem MemoryClean.writeLine_eq (h : MemoryClean s) : writeLine s source sl a bs = (dramStore s sl a bs, false) := by
  have hstored : MemoryClean (dramStore s sl a bs) := h.stored
  unfold writeLine
  extract_lets whole r masks keys s1 s2 s3
  have hr : r = (s, false, []) := mergeRead_of_clean h.line
  have hs1 : s1 = s := by simp [s1, masks, hr]
  have hs2 : s2 = dramStore s sl a bs := by
    simp only [s2, hs1]
    exact congrArg (dramStore · sl a bs) (h.foldl_markSet (f := id))
  have hs3 : s3 = dramStore s sl a bs := by
    simp only [s3, hs2]
    exact injectFlips_of_unarmed hstored.unarmed
  rw [if_neg (by simp [hr]), hs3]
  refine Prod.ext ?_ rfl
  dsimp only
  split
  next => rfl
  next q _ =>
    rw [hstored.foldl_markSet (f := fun k => k % 2 ^ 30 + q * 2 ^ 30)]
    exact injectFlips_of_unarmed hstored.unarmed

theorem MemoryClean.writePiece_eq (h : MemoryClean s) (hserves : sliceFenced s sl = false) :
    writePiece s source [] p off i sl a bs = (dramStore s sl a bs, okPiece p off i []) := by
  simp only [writePiece, hserves, show badIn [] (off + i) = [] from rfl, h.writeLine_eq, Bool.false_eq_true, if_false]
  rfl

/-- A read within one line, whose place among the pieces is `base`. -/
theorem readSegment_of_memoryClean {n : Nat} {waits : Bool} (h : MemoryClean s) (hplace : placeOf s p off = .pinned r sl a)
    (hn : 0 < n) (hfit : off % 64 + n ≤ 64) (hserves : sliceFenced s sl = false) :
    readSegment s source m p off base n waits =
      (s, [{ idx := base, addr := poolAddr p off, status := .ok, bytes := dramBytes s sl a n }]) := by
  simp [readSegment, hplace, pinnedLines_of_pinned hplace hn hfit, foldPieces, readPiece_of_clean hserves h.line, okPiece]

/-- A write within one line, whose place among the pieces is `base`. -/
theorem writeSegment_of_memoryClean {whole waits : Bool} (h : MemoryClean s)
    (hplace : placeOf s p off = .pinned r sl a) (hn : 0 < bs.length) (hfit : off % 64 + bs.length ≤ 64)
    (hserves : sliceFenced s sl = false) (hgood : m.bad = []) :
    writeSegment s source m p off base bs whole waits =
      (dramStore s sl a bs, [{ idx := base, addr := poolAddr p off, status := .ok, bytes := [] }]) := by
  simp [writeSegment, hplace, pinnedLines_of_pinned hplace hn hfit, foldPieces, hgood, h.writePiece_eq hserves, okPiece]

end Stores

end Sys2Proof.Proofs
end

section
/-! PROOFS. A block under its tile's pages (R169, R288, R294): the pages are those that stand, so the block moves as its
place has it. -/

namespace Sys2Proof.Proofs

open Sys2Proof.Machine Sys2Proof.Laws

/-! ### Names of offsets -/

section Names

variable {s : State} {p off sl a : Nat} {r : RegionRec}

theorem lt_nearBase_of_pinned (h : placeOf s p off = .pinned r sl a) : off < nearBase := by
  by_contra hnear
  unfold placeOf at h
  simp only [if_pos (Nat.not_lt.1 hnear)] at h
  split at h <;> cases h

theorem addrPart_poolAddr (hp : p < 32) : addrPart (poolAddr p off) = p := by
  simp only [addrPart, poolAddr, bitsOf, Nat.shiftRight_eq_div_pow]
  omega

theorem addrOff_poolAddr (hoff : off < nearBase) : addrOff (poolAddr p off) = off := by
  simp only [nearBase] at hoff
  simp only [addrOff, poolAddr, bitsOf, Nat.shiftRight_eq_div_pow]
  omega

/-- A byte of published memory lies in a unit of a region that is not flash, and that has a page. -/
theorem page_of_pinned (h : placeOf s p off = .pinned r sl a) :
    regionAt s.img.layout p (off / 2097152) = some r ∧ r.flash = false ∧
      (mappedTo s p (off / 2097152)).isSome = true := by
  have hlow := lt_nearBase_of_pinned h
  unfold placeOf at h
  simp only [if_neg (Nat.not_le.2 hlow)] at h
  cases hregion : regionAt s.img.layout p (off / 2097152) with
  | none => simp [hregion] at h
  | some g =>
    simp only [hregion] at h
    by_cases hflash : g.flash = true
    · simp [hflash] at h
    rw [if_neg hflash] at h
    cases hpte : pteGet s p (off / 2097152) with
    | mapped hp =>
      cases hpart : partRecOf s.img.layout p with
      | none => simp [hpte, hpart] at h
      | some pr =>
        simp only [hpte, hpart] at h
        split at h
        next => cases h
        next =>
          obtain ⟨rfl, -, -⟩ := Place.pinned.inj h
          exact ⟨rfl, by simpa using hflash, by simp [mappedTo, hpte]⟩
    | _ => simp [hpte] at h

end Names

/-! ### Pages that stand -/

section Pages

variable {s w : State} {p off sl : Nat} {pages : List (Nat × Nat)}

/-- Each page named is the one its unit has. -/
def PagesStand (s : State) (p : Nat) (pages : List (Nat × Nat)) : Prop := ∀ x ∈ pages, mappedTo s p x.1 = some x.2

/-- From `s` to `w` the table of pages is written anew, and says the same. -/
def PagesAs (s w : State) : Prop :=
  ∃ pte : Tbl Pte, w = { s with eng := { s.eng with pte := pte } } ∧
    ∀ k, tblGet (fun _ => .unmapped) pte k = tblGet (fun _ => Pte.unmapped) s.eng.pte k

theorem PagesAs.refl (s : State) : PagesAs s s := ⟨_, rfl, fun _ => rfl⟩

theorem PagesAs.trans {u : State} (h : PagesAs s w) (k : PagesAs w u) : PagesAs s u := by
  obtain ⟨pte, rfl, hsame⟩ := h
  obtain ⟨pte', rfl, hsame'⟩ := k
  exact ⟨pte', rfl, fun k => (hsame' k).trans (hsame k)⟩

theorem PagesAs.mappedTo_eq {u : Nat} (h : PagesAs s w) : mappedTo w p u = mappedTo s p u := by
  obtain ⟨pte, rfl, hsame⟩ := h
  simp only [mappedTo, pteGet, hsame]

theorem PagesAs.placeOf_eq (h : PagesAs s w) : placeOf w p off = placeOf s p off := by
  obtain ⟨pte, rfl, hsame⟩ := h
  simp only [placeOf, pteGet, hsame]

theorem pteSet_as {x : Nat × Nat} (h : mappedTo s p x.1 = some x.2) : PagesAs s (pteSet s p x.1 (.mapped x.2)) := by
  have hpte : pteGet s p x.1 = .mapped x.2 := by
    unfold mappedTo at h
    split at h
    next g hpte => rw [hpte, Option.some.inj h]
    next => cases h
  refine ⟨_, rfl, fun k => ?_⟩
  rw [tblGet_set]
  split
  next hk =>
    rw [hk]
    exact hpte.symm
  next => rfl

theorem PagesStand.foldl_pteSet (h : PagesStand s p pages) :
    PagesAs s (pages.foldl (fun s x => pteSet s p x.1 (.mapped x.2)) s) := by
  induction pages generalizing s with
  | nil => exact .refl s
  | cons x pages ih =>
    have hstep := pteSet_as (h x List.mem_cons_self)
    refine hstep.trans (ih fun y hy => ?_)
    rw [hstep.mappedTo_eq]
    exact h y (List.mem_cons_of_mem x hy)

end Pages

/-! ### A block's bytes -/

section Blocks

variable {s w : State} {p sl a : Nat} {v : Service} {t : TileRec} {span : Nat × Nat} {b : Blk} {bs : List Byte}
  {r : RegionRec}

/-- Nothing keeps an engine from memory: there are no errors, no twin, and no SEAL. -/
structure Unhindered (s : State) : Prop where
  memory : MemoryClean s
  twin : s.twn.state = 0
  unsealed : s.sec.sealing = none

/-- The piece that the read of a block brings. -/
def readPieceOf (s : State) (p : Nat) (b : Blk) : Piece :=
  { idx := b.off, addr := poolAddr p b.off, status := .ok, bytes := heldBytes s p b.off b.len }

/-- The piece of the write of a block. -/
def writePieceOf (p : Nat) (b : Blk) : Piece :=
  { idx := writeBase + b.off, addr := poolAddr p b.off, status := .ok, bytes := [] }

theorem twinGate_of_off {off : Nat} (htwin : s.twn.state = 0) : twinGate s p off = .serve := by
  simp only [twinGate, twinnedAt_of_off htwin]

theorem sealedAt_of_none {off : Nat} (hseal : s.sec.sealing = none) : sealedAt s p off = false := by
  simp only [sealedAt, hseal]

/-- How a block reaches memory. -/
def blockMover (s : State) (p : Nat) (t : TileRec) (span : Nat × Nat) (b : Blk) : Mover :=
  { eng := some b.eng, first := span.1, len := span.2, name := some (nameUnder s p t.pages b.off), epoch := some t.epoch }

/-- A state with the table of pages of another. -/
def withPagesOf (s u : State) : State := { u with eng := { u.eng with pte := s.eng.pte } }

/-- Under no twin and no SEAL a block moves, and the table of pages stands. -/
theorem moveBlock_of_unhindered {write : Bool} (h : Unhindered s) (hpages : PagesStand s p t.pages) :
    ∃ w, PagesAs s w ∧ moveBlock s v p t write span b bs = withPagesOf s (startRangeAt w v (blockMover s p t span b) write
      (if write then writeBase + b.off else b.off) (poolAddr p b.off) b.len bs) := by
  have hstand : PagesStand s p (t.pages.filter (fun x => x.1 = b.off / 2097152)) :=
    fun x hx => hpages x (List.mem_filter.1 hx).1
  refine ⟨_, hstand.foldl_pteSet, ?_⟩
  unfold moveBlock
  rw [if_neg (by rw [twinGate_of_off h.twin]; exact TwinGate.noConfusion),
    if_neg (by rw [sealedAt_of_none h.unsealed]; exact Bool.false_ne_true)]
  rfl

theorem PagesAs.memory (h : PagesAs s w) (hclean : MemoryClean s) : MemoryClean w := by
  obtain ⟨pte, rfl, -⟩ := h
  exact ⟨hclean.marks, hclean.lost, hclean.unarmed⟩

theorem PagesAs.sliceFenced_eq (h : PagesAs s w) : sliceFenced w sl = sliceFenced s sl := by
  obtain ⟨pte, rfl, -⟩ := h
  rfl

theorem PagesAs.twin (h : PagesAs s w) (htwin : s.twn.state = 0) : w.twn.state = 0 := by
  obtain ⟨pte, rfl, -⟩ := h
  exact htwin

theorem PagesAs.withPagesOf_gather {ticket : Nat} {ps : List Piece} (h : PagesAs s w) :
    withPagesOf s (gather w ticket ps) = gather s ticket ps := by
  obtain ⟨pte, rfl, -⟩ := h
  rfl

theorem PagesAs.dramBytes_eq {n : Nat} (h : PagesAs s w) : dramBytes w sl a n = dramBytes s sl a n := by
  obtain ⟨pte, rfl, -⟩ := h
  rfl

theorem PagesAs.withPagesOf_gather_dramStore {ticket : Nat} {ps : List Piece} (h : PagesAs s w) :
    withPagesOf s (gather (dramStore w sl a bs) ticket ps) = gather (dramStore s sl a bs) ticket ps := by
  obtain ⟨pte, rfl, -⟩ := h
  have hdram : (dramStore { s with eng := { s.eng with pte := pte } } sl a bs).stk.dram = (dramStore s sl a bs).stk.dram :=
    dramStore_dram_congr rfl
  rw [dramStore_eq, hdram, dramStore_eq (s := s)]
  rfl

section Placed

variable (h : Unhindered s) (hpages : PagesStand s p t.pages) (hp : p < 32) (hplace : placeOf s p b.off = .pinned r sl a)
  (hkind : regionCoherent r = false) (hserves : sliceFenced s sl = false) (hpos : 0 < b.len)
  (hfit : b.off % 64 + b.len ≤ 64)
include h hpages hp hplace hkind hserves hpos hfit

/-- The read of a block brings its bytes, and changes nothing. -/
theorem moveBlock_read : moveBlock s v p t false span b bs = gather s v.ticket [readPieceOf s p b] := by
  obtain ⟨w, hw, hmove⟩ := moveBlock_of_unhindered (v := v) (write := false) (span := span) (b := b) (bs := bs) h hpages
  have hplace' : placeOf w p b.off = .pinned r sl a := hw.placeOf_eq.trans hplace
  have hread {waits : Bool} : readSegment w (sourceOf v.req.origin) (blockMover s p t span b) p b.off b.off b.len waits =
      (w, [readPieceOf s p b]) := by
    rw [readSegment_of_memoryClean (hw.memory h.memory) hplace' hpos hfit (hw.sliceFenced_eq.trans hserves),
      hw.dramBytes_eq, readPieceOf, heldBytes_of_line hplace hfit]
  rw [hmove, startRangeAt, addrPart_poolAddr hp, addrOff_poolAddr (lt_nearBase_of_pinned hplace),
    cutAt_of_within hpos (mod_add_le_of_line (by decide) (by decide) hfit)]
  simp only [List.foldl_cons, List.foldl_nil, Nat.add_zero, hplace', hkind, Bool.false_eq_true, if_false, hread]
  exact hw.withPagesOf_gather

/-- The write of a block stores its bytes. -/
theorem moveBlock_write (hlen : bs.length = b.len) : moveBlock s v p t true span b bs =
    gather (dramStore s sl a bs) v.ticket [writePieceOf p b] := by
  obtain ⟨w, hw, hmove⟩ := moveBlock_of_unhindered (v := v) (write := true) (span := span) (b := b) (bs := bs) h hpages
  have hplace' : placeOf w p b.off = .pinned r sl a := hw.placeOf_eq.trans hplace
  have hwrite {whole waits : Bool} : writeSegment w (sourceOf v.req.origin) (blockMover s p t span b) p b.off
      (writeBase + b.off) bs whole waits = (dramStore w sl a bs, [writePieceOf p b]) :=
    writeSegment_of_memoryClean (hw.memory h.memory) hplace' (hlen ▸ hpos) (hlen ▸ hfit) (hw.sliceFenced_eq.trans hserves)
      rfl
  have hmirror {seq : BitVec 32} {off : Nat} : mirrorAt (dramStore w sl a bs) false seq p off bs = dramStore w sl a bs :=
    mirrorAt_of_off (by rw [dramStore_eq]; exact hw.twin h.twin)
  rw [hmove, startRangeAt, addrPart_poolAddr hp, addrOff_poolAddr (lt_nearBase_of_pinned hplace),
    cutAt_of_within hpos (mod_add_le_of_line (by decide) (by decide) hfit)]
  simp only [List.foldl_cons, List.foldl_nil, Nat.add_zero, hplace', hkind, Bool.false_eq_true, if_false, if_true,
    List.drop_zero, ← hlen, List.take_length, hwrite, hmirror, ite_self]
  exact hw.withPagesOf_gather_dramStore

end Placed

end Blocks

end Sys2Proof.Proofs
end

section
/-! PROOFS. An engine's work on a descriptor (R288 to R292): its tiles issue without a fault, and its blocks move one
after another. -/

namespace Sys2Proof.Proofs

open Sys2Proof.Machine Sys2Proof.Laws

/-! ### What the work changes -/

section Working

variable {s u w : State} {p q off sl a n : Nat} {c : Command} {b : Blk} {r : RegionRec}

/-- From `s` to `u` translations have been fetched: the buffers and the counters move. -/
structure Fetched (s u : State) : Prop where
  walked : Walked s u
  keys : ∀ j, (partGet u j).keys = (partGet s j).keys

theorem Fetched.refl (s : State) : Fetched s s := ⟨.refl s, fun _ => rfl⟩

theorem Fetched.trans (h : Fetched s u) (k : Fetched u w) : Fetched s w :=
  ⟨h.walked.trans k.walked, fun j => (k.keys j).trans (h.keys j)⟩

theorem bufPut_fetches {level holder : Nat} : Fetched s (bufPut s level holder p n) := by
  refine ⟨bufPut_walks, fun j => ?_⟩
  unfold bufPut
  split <;> rfl

theorem countWalk_fetches (hclean : ReservesClean s) : Fetched s (countWalk s p n) := by
  refine ⟨countWalk_walks hclean, fun j => ?_⟩
  have hcount : Walked s (partCnt s p fun c => { c with xlMiss := wrap32 c.xlMiss }) := ⟨_, _, rfl⟩
  rw [countWalk, readUnit_of_clean (hcount.clean hclean), partCnt, partGet_partMod]
  split
  next hj => rw [hj]
  next => rfl

/-- The work of pair `q`'s command: the engines' state, the counters, the pieces and memory's bytes change, while the
pages, the partitions' keys and the pair's requester stand. -/
def Worked (p q : Nat) (s u : State) : Prop :=
  ∃ (e : Engines) (ps : Tbl Partition) (g : List Gathered) (d : Tbl Byte),
    u = { s with eng := e, parts := ps, coh := { s.coh with gathered := g }, stk := { s.stk with dram := d } } ∧
      e.pte = s.eng.pte ∧ (pairGet u p q).req = (pairGet s p q).req ∧ ∀ j, (partGet u j).keys = (partGet s j).keys

theorem Worked.refl (s : State) : Worked p q s s := ⟨_, _, _, _, rfl, rfl, rfl, fun _ => rfl⟩

theorem Worked.trans (h : Worked p q s u) (k : Worked p q u w) : Worked p q s w := by
  obtain ⟨e, ps, g, d, rfl, hpte, hreq, hkeys⟩ := h
  obtain ⟨e', ps', g', d', rfl, hpte', hreq', hkeys'⟩ := k
  exact ⟨e', ps', g', d', rfl, hpte'.trans hpte, hreq'.trans hreq, fun j => (hkeys' j).trans (hkeys j)⟩

theorem Worked.of_fetched (h : Fetched s u) : Worked p q s u := by
  obtain ⟨⟨buffers, ps, rfl⟩, hkeys⟩ := h
  exact ⟨_, _, _, _, rfl, rfl, rfl, hkeys⟩

theorem worked_cmdMod {f : Command → Command} : Worked p q s (cmdMod s p q f) := by
  refine ⟨_, _, _, _, rfl, rfl, ?_, fun _ => rfl⟩
  rw [cmdMod, pairGet_pairMod_self]

theorem worked_gather {ticket : Nat} {ps : List Piece} : Worked p q s (gather s ticket ps) :=
  ⟨_, _, _, _, rfl, rfl, rfl, fun _ => rfl⟩

theorem worked_dramStore {bs : List Byte} : Worked p q s (dramStore s sl a bs) := by
  rw [dramStore_eq]
  exact ⟨_, _, _, _, rfl, rfl, rfl, fun _ => rfl⟩

theorem Worked.placeOf_eq (h : Worked p q s u) {p' : Nat} : placeOf u p' off = placeOf s p' off := by
  obtain ⟨e, ps, g, d, rfl, hpte, -, -⟩ := h
  simp only [placeOf, pteGet, hpte]

theorem Worked.mappedTo_eq (h : Worked p q s u) {p' : Nat} : mappedTo u p' n = mappedTo s p' n := by
  obtain ⟨e, ps, g, d, rfl, hpte, -⟩ := h
  simp only [mappedTo, pteGet, hpte]

theorem Worked.sliceFenced_eq (h : Worked p q s u) : sliceFenced u sl = sliceFenced s sl := by
  obtain ⟨e, ps, g, d, rfl, -, -⟩ := h
  rfl

theorem Worked.unhindered (h : Worked p q s u) (k : Unhindered s) : Unhindered u := by
  obtain ⟨e, ps, g, d, rfl, -, -⟩ := h
  exact ⟨⟨k.memory.marks, k.memory.lost, k.memory.unarmed⟩, k.twin, k.unsealed⟩

theorem Worked.plainBlock (h : Worked p q s u) (k : PlainBlock s p b) : PlainBlock u p b := by
  obtain ⟨hfit, r, sl, a, hplace, hkind, hserves, hend⟩ := k
  exact ⟨hfit, r, sl, a, h.placeOf_eq.trans hplace, hkind, h.sliceFenced_eq.trans hserves, hend⟩

theorem Worked.heldBytes_eq (h : Worked p q s u) (hdram : u.stk.dram = s.stk.dram) {p' : Nat} :
    heldBytes u p' off n = heldBytes s p' off n := by
  have hbyte {sl a : Nat} : dramByte u sl a = dramByte s sl a := by simp only [dramByte, hdram]
  simp only [heldBytes, heldByte, h.placeOf_eq, hbyte]

end Working

/-! ### Tiles -/

section Tiles

variable {s u : State} {p q : Nat} {c : Command} {b : Blk} {bs : List Blk} {t : TileRec}

/-- Every tile of a command issued without a fault, under pages that stand. -/
def TilesStand (s : State) (p : Nat) (c : Command) : Prop := ∀ t ∈ c.tiles, t.faulted = none ∧ PagesStand s p t.pages

/-- Every block of a list is within a line of published memory, and holds a byte. -/
def PlainBlocks (s : State) (p : Nat) (bs : List Blk) : Prop := ∀ b ∈ bs, PlainBlock s p b ∧ 0 < b.len

theorem Worked.plainBlocks (h : Worked p q s u) (k : PlainBlocks s p bs) : PlainBlocks u p bs :=
  fun b hb => ⟨h.plainBlock (k b hb).1, (k b hb).2⟩

theorem Worked.pagesStand (h : Worked p q s u) {pages : List (Nat × Nat)} (k : PagesStand s p pages) :
    PagesStand u p pages := fun x hx => h.mappedTo_eq.trans (k x hx)

theorem Worked.tilesStand (h : Worked p q s u) (k : TilesStand s p c) : TilesStand u p c :=
  fun t ht => ⟨(k t ht).1, h.pagesStand (k t ht).2⟩

/-- A plain block has no byte in an unmapped page. -/
theorem badByte_of_plain {stream : Nat} (h : PlainBlock s p b) (hpos : 0 < b.len) :
    badByte s p ⟨stream, b.off, b.len⟩ = none := by
  obtain ⟨hfit, r, sl, a, hplace, -⟩ := h
  obtain ⟨hregion, -, hmapped⟩ := page_of_pinned hplace
  have hlow := lt_nearBase_of_pinned hplace
  rw [badByte, cutAt_of_within hpos (mod_add_le_of_line (by decide) (by decide) hfit)]
  simp [hregion, hmapped, hlow]

theorem translateNow_fetches {engine slot n : Nat} (hclean : ReservesClean s) :
    Fetched s (translateNow s p engine slot n) := by
  unfold translateNow
  split
  · exact bufPut_fetches
  split
  · exact bufPut_fetches.trans bufPut_fetches
  split
  · exact bufPut_fetches.trans bufPut_fetches
  · exact (countWalk_fetches hclean).trans (bufPut_fetches.trans bufPut_fetches)

/-- A fold of steps that fetch fetches. -/
theorem fetched_foldl {α : Type} {f : State → α → State} {l : List α} (hclean : ReservesClean s)
    (h : ∀ t, ReservesClean t → ∀ x, Fetched t (f t x)) : Fetched s (l.foldl f s) := by
  induction l generalizing s with
  | nil => exact .refl s
  | cons x l ih =>
    have hstep := h s hclean x
    exact hstep.trans (ih (hstep.walked.clean hclean))

theorem prefetchNow_fetches (hclean : ReservesClean s) : Fetched s (prefetchNow s p c b) := by
  refine fetched_foldl hclean fun t ht i => ?_
  dsimp only
  split
  · exact .refl t
  · refine fetched_foldl ht fun w hw n => ?_
    split
    · exact .refl w
    · split
      · exact bufPut_fetches
      · exact (countWalk_fetches hw).trans bufPut_fetches

/-- The tile of a block issues: no block of it lies in an unmapped page. -/
theorem issueTile_issues (hclean : ReservesClean s) (hplain : PlainBlocks s p bs) :
    ∃ w t, Fetched s w ∧ issueTile s p q bs b = cmdMod w p q (fun c => { c with tiles := c.tiles ++ [t] }) ∧
      t.engine = b.eng ∧ t.stream = b.stream ∧ t.tile = b.tile ∧ t.faulted = none ∧ PagesStand s p t.pages := by
  unfold issueTile
  extract_lets us first bad slot s1 engines s2 s3 t
  have hbad : bad = none := by
    refine Option.map_eq_none_iff.2 (List.find?_eq_none.2 fun x hx => ?_)
    obtain ⟨hblock, hpos⟩ := hplain x hx
    simp [badByte_of_plain hblock hpos]
  have hs1 : Fetched s s1 := fetched_foldl hclean fun _ ht _ => translateNow_fetches ht
  have hs2 : Fetched s s2 := hs1.trans ⟨⟨_, _, rfl⟩, fun _ => rfl⟩
  have hs3 : s3 = s2 := by simp [s3, hbad]
  refine ⟨s3, t, hs3 ▸ hs2, rfl, rfl, rfl, rfl, hbad, fun x hx => ?_⟩
  obtain ⟨n, -, hn⟩ := List.mem_filterMap.1 hx
  obtain ⟨h, hmapped, rfl⟩ := Option.map_eq_some_iff.1 hn
  have hfetched : Fetched s s3 := hs3 ▸ hs2
  rw [← (Worked.of_fetched (p := p) (q := q) hfetched).mappedTo_eq]
  exact hmapped

end Tiles

end Sys2Proof.Proofs
end

section
/-! PROOFS. The blocks of a descriptor move in order (R288, R289): reads bring their bytes, writes store theirs. -/

namespace Sys2Proof.Proofs

open Sys2Proof.Machine Sys2Proof.Laws

variable {s u w : State} {p q : Nat} {c : Command} {b : Blk} {bs : List Blk} {t : TileRec} {v : Service}
  {span : Nat × Nat}

/-! ### A tile at hand -/

theorem tileOf_of_mem {x : TileRec} (h : tileOf c b = some x) : x ∈ c.tiles := List.mem_of_find?_eq_some h

/-- A block's tile issues where it has not: the command has it, and its bytes may move. -/
theorem issueNext_issues (hclean : ReservesClean s) (hs : serviceOf s p q = some c) (htiles : TilesStand s p c)
    (hplain : PlainBlocks s p c.blocks) (hnone : tileOf c b = none) :
    ∃ ts x, Worked p q s (issueNext s p q c b) ∧ serviceOf (issueNext s p q c b) p q = some { c with tiles := ts } ∧
      (issueNext s p q c b).coh = s.coh ∧ (issueNext s p q c b).stk = s.stk ∧
      TilesStand s p { c with tiles := ts } ∧ tileOf { c with tiles := ts } b = some x := by
  obtain ⟨w, t, hw, hissue, hengine, hstream, htile, hgood, hpages⟩ := issueTile_issues (q := q) (b := b) hclean hplain
  have hfaulted : c.tiles.any (fun t => t.engine = b.eng && t.faulted.isSome) = false :=
    List.any_eq_false.2 fun x hx => by simp [(htiles x hx).1]
  have hlater : Fetched (issueTile s p q c.blocks b) (issueNext s p q c b) := by
    have hreserves : ReservesClean (issueTile s p q c.blocks b) := by
      rw [hissue]
      exact hw.walked.clean hclean
    unfold issueNext
    rw [if_neg (by rw [hfaulted]; exact Bool.false_ne_true)]
    dsimp only
    split
    · split
      · exact .refl _
      · exact prefetchNow_fetches hreserves
    · exact .refl _
  have hservice : serviceOf (issueTile s p q c.blocks b) p q = some { c with tiles := c.tiles ++ [t] } := by
    have hsw : serviceOf w p q = some c := by
      obtain ⟨⟨buffers, ps, rfl⟩, -⟩ := hw
      exact hs
    rw [hissue, serviceOf_cmdMod, hsw]
    rfl
  have hworked : Worked p q s (issueTile s p q c.blocks b) := by
    rw [hissue]
    exact (Worked.of_fetched hw).trans worked_cmdMod
  have hkept : (issueTile s p q c.blocks b).coh = s.coh ∧ (issueTile s p q c.blocks b).stk = s.stk := by
    rw [hissue]
    obtain ⟨⟨buffers, ps, rfl⟩, -⟩ := hw
    exact ⟨rfl, rfl⟩
  refine ⟨c.tiles ++ [t], t, hworked.trans (.of_fetched hlater), ?_, ?_, ?_, ?_, ?_⟩
  · obtain ⟨⟨buffers, ps, hsame⟩, -⟩ := hlater
    rw [hsame]
    exact hservice
  · exact (hlater.walked.touches.coh rfl).trans hkept.1
  · exact (hlater.walked.touches.stk rfl).trans hkept.2
  · intro x hx
    rcases List.mem_append.1 hx with hx | hx
    · exact htiles x hx
    · rw [List.mem_singleton.1 hx]
      exact ⟨hgood, hpages⟩
  · show (c.tiles ++ [t]).find? _ = some t
    rw [List.find?_append, show c.tiles.find? _ = none from hnone]
    simp [hengine, hstream, htile]

/-- The state in which a block moves: its tile is at hand. -/
def tileReady (s : State) (p q : Nat) (c : Command) (b : Blk) : State :=
  if (tileOf c b).isSome then s else issueNext s p q c b

theorem tileReady_stands (hclean : ReservesClean s) (hs : serviceOf s p q = some c) (htiles : TilesStand s p c)
    (hplain : PlainBlocks s p c.blocks) :
    ∃ ts x, Worked p q s (tileReady s p q c b) ∧ serviceOf (tileReady s p q c b) p q = some { c with tiles := ts } ∧
      (tileReady s p q c b).coh = s.coh ∧ (tileReady s p q c b).stk = s.stk ∧
      TilesStand s p { c with tiles := ts } ∧ tileOf { c with tiles := ts } b = some x := by
  unfold tileReady
  cases hx : tileOf c b with
  | some x => exact ⟨c.tiles, x, .refl s, hs, rfl, rfl, htiles, hx⟩
  | none => exact issueNext_issues hclean hs htiles hplain hx

/-- The tile that a block moves under is marked. -/
def markMoved (b : Blk) (x : TileRec) : TileRec :=
  if x.engine = b.eng ∧ x.stream = b.stream ∧ x.tile = b.tile then { x with moved := true } else x

theorem TilesStand.markMoved (h : TilesStand s p c) :
    TilesStand s p { c with tiles := c.tiles.map (Proofs.markMoved b) } := by
  intro x hx
  obtain ⟨y, hy, rfl⟩ := List.mem_map.1 hx
  unfold Proofs.markMoved
  split <;> exact h y hy

theorem moveTile_of_tile {write : Bool} {out : List Byte} (hs : serviceOf s p q = some c) (ht : tileOf c b = some t)
    (hgood : t.faulted = none) : moveTile s v p q write span b out =
      moveBlock (cmdMod s p q (fun c => { c with tiles := c.tiles.map (markMoved b) })) v p t write span b out := by
  simp only [moveTile, hs, Option.bind_some, ht, hgood, Option.isSome_none, Bool.false_eq_true, if_false]
  rfl

/-! ### Blocks in order -/

/-- What stands before each block moves: nothing hinders memory, the tiles so far stand, and the blocks are plain. -/
structure Ready (s : State) (p q : Nat) (c : Command) : Prop where
  free : Unhindered s
  part : p < 32
  service : serviceOf s p q = some c
  tiles : TilesStand s p c
  plain : PlainBlocks s p c.blocks

theorem Ready.work (h : Ready s p q c) {ts : List TileRec} (k : Worked p q s u)
    (hs : serviceOf u p q = some { c with tiles := ts }) (htiles : TilesStand s p { c with tiles := ts }) :
    Ready u p q { c with tiles := ts } :=
  ⟨k.unhindered h.free, h.part, hs, k.tilesStand htiles, k.plainBlocks h.plain⟩

/-- One block moves: from the state in which its tile is at hand. -/
def moveOne (s : State) (v : Service) (p q : Nat) (write : Bool) (span : Nat × Nat) (out : Blk → List Byte) (b : Blk) :
    State := match serviceOf s p q with
  | none => s
  | some c => moveTile (tileReady s p q c b) v p q write span b (out b)

theorem moveBlocks_eq {write : Bool} {out : Blk → List Byte} :
    moveBlocks s v p q write span bs out = bs.foldl (fun s b => moveOne s v p q write span out b) s := rfl

/-- Before a block moves its tile is at hand and marked; its pages stand. -/
theorem moveOne_moves {write : Bool} {out : Blk → List Byte} (h : Ready s p q c) :
    ∃ u ts x, Ready u p q { c with tiles := ts } ∧ Worked p q s u ∧ u.coh = s.coh ∧ u.stk = s.stk ∧
      PagesStand u p x.pages ∧ moveOne s v p q write span out b = moveBlock u v p x write span b (out b) := by
  obtain ⟨ts, x, hworked, hservice, hcoh, hstk, htiles, hx⟩ :=
    tileReady_stands (b := b) h.free.memory.reserves h.service h.tiles h.plain
  obtain ⟨hgood, hpages⟩ := htiles x (tileOf_of_mem hx)
  have hmarked : Worked p q s
      (cmdMod (tileReady s p q c b) p q (fun c => { c with tiles := c.tiles.map (markMoved b) })) :=
    hworked.trans worked_cmdMod
  refine ⟨_, ts.map (markMoved b), x, h.work hmarked ?_ htiles.markMoved, hmarked, hcoh, hstk, hmarked.pagesStand hpages,
    ?_⟩
  · rw [serviceOf_cmdMod, hservice]
    rfl
  · rw [moveOne, h.service]
    exact moveTile_of_tile hservice hx hgood

/-- The piece that the read of a block brings, as it is gathered. -/
def gatheredRead (s : State) (p ticket : Nat) (b : Blk) : Gathered := gatheredOf ticket (readPieceOf s p b)

theorem gather_gathered {ticket : Nat} {x : Piece} :
    (gather s ticket [x]).coh.gathered = s.coh.gathered ++ [gatheredOf ticket x] := rfl

theorem serviceOf_gather {ticket : Nat} {ps : List Piece} : serviceOf (gather s ticket ps) p q = serviceOf s p q := rfl

/-- Reads of plain blocks bring the bytes that memory holds, block by block, and store nothing. -/
theorem moveBlocks_read (h : Ready s p q c) (hbs : ∀ b ∈ bs, b ∈ c.blocks) {out : Blk → List Byte} :
    ∃ u ts, moveBlocks s v p q false span bs out = u ∧ Ready u p q { c with tiles := ts } ∧ Worked p q s u ∧
      u.stk.dram = s.stk.dram ∧ u.coh.gathered = s.coh.gathered ++ bs.map (gatheredRead s p v.ticket) := by
  rw [moveBlocks_eq]
  induction bs generalizing s c with
  | nil => exact ⟨s, c.tiles, rfl, h, .refl s, rfl, by simp⟩
  | cons b bs ih =>
    obtain ⟨w, ts, x, hready, hworked, hcoh, hstk, hpages, hmove⟩ :=
      moveOne_moves (v := v) (b := b) (write := false) (span := span) (out := out) h
    obtain ⟨⟨hfit, r, sl, a, hplace, hkind, hserves, -⟩, hpos⟩ := hready.plain b (hbs b List.mem_cons_self)
    rw [moveBlock_read hready.free hpages hready.part hplace hkind hserves hpos hfit] at hmove
    have hgather : Worked p q s (gather w v.ticket [readPieceOf w p b]) := hworked.trans worked_gather
    have hready' : Ready (gather w v.ticket [readPieceOf w p b]) p q { c with tiles := ts } :=
      hready.work worked_gather hready.service hready.tiles
    obtain ⟨u, ts', hrun, hreadyU, hworkedU, hdramU, hgathered⟩ :=
      ih hready' (fun b' hb' => hbs b' (List.mem_cons_of_mem b hb'))
    have hheld {b' : Blk} : readPieceOf w p b' = readPieceOf s p b' := by
      rw [readPieceOf, hworked.heldBytes_eq (congrArg Stack.dram hstk)]
      rfl
    have hlater : gatheredRead (gather w v.ticket [readPieceOf w p b]) p v.ticket = gatheredRead s p v.ticket := by
      funext b'
      rw [gatheredRead, readPieceOf, hgather.heldBytes_eq (congrArg Stack.dram hstk)]
      rfl
    refine ⟨u, ts', ?_, hreadyU, hgather.trans hworkedU, hdramU.trans (congrArg Stack.dram hstk), ?_⟩
    · rw [List.foldl_cons, hmove]
      exact hrun
    · rw [hgathered, gather_gathered, hcoh, hlater, hheld, List.append_assoc]
      rfl

end Sys2Proof.Proofs
end

section
/-! PROOFS. The writes of a descriptor (R253, R288, R303): each block's bytes are stored, and a destination within one
line holds the output. -/

namespace Sys2Proof.Proofs

open Sys2Proof.Machine Sys2Proof.Laws

/-! ### Stores into one line -/

section Lines

variable {s u w : State} {p dst n sl a sl' a' : Nat} {b : Blk} {bs : List Blk} {out bytes : List Byte} {r r' : RegionRec}

/-- A block of a list holds the byte of an offset. -/
def covered (bs : List Blk) (x : Nat) : Bool := bs.any (fun b => decide (b.off ≤ x) && decide (x < b.off + b.len))

theorem covered_cons {x : Nat} : covered (b :: bs) x = (covered [b] x || covered bs x) := by
  simp only [covered, List.any_cons, List.any_nil, Bool.or_false]

/-- The bytes of an output that a block takes: those from the block's place in the destination on. -/
def chunkOf (out : List Byte) (dst : Nat) (b : Blk) : List Byte := (out.drop (b.off - dst)).take b.len

/-- A block lies in a range. -/
def Within (dst n : Nat) (b : Blk) : Prop := dst ≤ b.off ∧ b.off + b.len ≤ dst + n

theorem chunkOf_length (hout : out.length = n) (hb : Within dst n b) : (chunkOf out dst b).length = b.len := by
  obtain ⟨hlow, hhigh⟩ := hb
  rw [chunkOf, List.length_take, List.length_drop]
  omega

/-- A destination within a line: where it stands, and that it stands at or below the slice's last byte. -/
structure LineAt (s : State) (p dst n sl a : Nat) : Prop where
  place : ∃ r, placeOf s p dst = .pinned r sl a
  fits : dst % 64 + n ≤ 64
  ends : a + n ≤ 2 ^ 33

/-- A block within a line stands where the line does. -/
theorem LineAt.block (h : LineAt s p dst n sl a) (hb : Within dst n b) (hpos : 0 < b.len)
    (hplace : placeOf s p b.off = .pinned r' sl' a') : sl' = sl ∧ a' = a + (b.off - dst) := by
  obtain ⟨⟨r, hline⟩, hfit, -⟩ := h
  obtain ⟨hlow, hhigh⟩ := hb
  have hsame := placeOf_of_line hline (j := b.off - dst) (by omega)
  rw [Nat.add_sub_cancel' hlow, hplace] at hsame
  obtain ⟨-, rfl, rfl⟩ := Place.pinned.inj hsame
  exact ⟨rfl, rfl⟩

/-- The line's bytes after a block of the output has been stored. -/
theorem LineAt.dramByte_store (h : LineAt s p dst n sl a) (hout : out.length = n) (hb : Within dst n b)
    (hstore : u.stk.dram = (dramStore s sl (a + (b.off - dst)) (chunkOf out dst b)).stk.dram) :
    DramKeptBut s u sl a n ∧ ∀ i, i < n →
      dramByte u sl (a + i) = if covered [b] (dst + i) then out.getD i 0 else dramByte s sl (a + i) := by
  have hlen := chunkOf_length hout hb
  obtain ⟨hlow, hhigh⟩ := hb
  have hends := h.ends
  have hfit : a + (b.off - dst) + (chunkOf out dst b).length ≤ 2 ^ 33 := by omega
  have hkept := dramKeptBut_of_store hstore hfit
  have hbytes := dramBytes_of_store hstore hfit
  rw [hlen] at hkept hbytes
  refine ⟨fun sl' a' ha' hoff => hkept sl' a' ha' (by omega), fun i hi => ?_⟩
  by_cases hin : b.off ≤ dst + i ∧ dst + i < b.off + b.len
  · obtain ⟨hstart, hstop⟩ := hin
    have hcovered : covered [b] (dst + i) = true := by simp [covered, hstart, hstop]
    have hbyte := congrArg (·.getD (dst + i - b.off) 0) hbytes
    have hplace : a + (b.off - dst) + (dst + i - b.off) = a + i := by omega
    have hindex : b.off - dst + (dst + i - b.off) = i := by omega
    have hlt : dst + i - b.off < b.len := by omega
    rw [if_pos hcovered]
    simpa [dramBytes, hlt, hplace, chunkOf, List.getElem?_take, List.getElem?_drop, hindex] using hbyte
  · have hfree : covered [b] (dst + i) = false := by
      simp only [covered, List.any_cons, List.any_nil, Bool.or_false, Bool.and_eq_false_iff, decide_eq_false_iff_not]
      omega
    rw [hfree, if_neg Bool.false_ne_true]
    exact hkept sl (a + i) (by omega) (by omega)

end Lines

/-! ### The writes -/

section Writes

variable {s u w : State} {p q : Nat} {c : Command} {b : Blk} {bs : List Blk} {v : Service} {span : Nat × Nat}

/-- The piece that the write of a block leaves, as it is gathered. -/
def gatheredWrite (p ticket : Nat) (b : Blk) : Gathered := gatheredOf ticket (writePieceOf p b)

/-- Writes of plain blocks store their bytes of the output, block by block; a destination within one line holds what the
blocks took of it. -/
theorem moveBlocks_write {dst n : Nat} {out : List Byte} (h : Ready s p q c) (hbs : ∀ b ∈ bs, b ∈ c.blocks)
    (hwithin : ∀ b ∈ bs, Within dst n b) (hout : out.length = n) :
    ∃ u ts, moveBlocks s v p q true span bs (chunkOf out dst) = u ∧ Ready u p q { c with tiles := ts } ∧ Worked p q s u ∧
      u.coh.gathered = s.coh.gathered ++ bs.map (gatheredWrite p v.ticket) ∧
      ∀ sl a, LineAt s p dst n sl a → DramKeptBut s u sl a n ∧ ∀ i, i < n →
        dramByte u sl (a + i) = if covered bs (dst + i) then out.getD i 0 else dramByte s sl (a + i) := by
  rw [moveBlocks_eq]
  induction bs generalizing s c with
  | nil => exact ⟨s, c.tiles, rfl, h, .refl s, by simp, fun sl a _ => ⟨fun _ _ _ _ => rfl, fun _ _ => rfl⟩⟩
  | cons b bs ih =>
    obtain ⟨w, ts, x, hready, hworked, hcoh, hstk, hpages, hmove⟩ :=
      moveOne_moves (v := v) (b := b) (write := true) (span := span) (out := chunkOf out dst) h
    obtain ⟨⟨hfit, r, slb, ab, hplace, hkind, hserves, hend⟩, hpos⟩ := hready.plain b (hbs b List.mem_cons_self)
    have hb := hwithin b List.mem_cons_self
    rw [moveBlock_write hready.free hpages hready.part hplace hkind hserves hpos hfit (chunkOf_length hout hb)] at hmove
    let s' := gather (dramStore w slb ab (chunkOf out dst b)) v.ticket [writePieceOf p b]
    have hstep : Worked p q w s' := worked_dramStore.trans worked_gather
    have hservice : serviceOf s' p q = some { c with tiles := ts } := by
      show serviceOf (gather (dramStore w slb ab (chunkOf out dst b)) v.ticket [writePieceOf p b]) p q = _
      rw [serviceOf_gather, dramStore_eq]
      exact hready.service
    have hready' : Ready s' p q { c with tiles := ts } := hready.work hstep hservice hready.tiles
    obtain ⟨u, ts', hrun, hreadyU, hworkedU, hgathered, hline⟩ :=
      ih hready' (fun b' hb' => hbs b' (List.mem_cons_of_mem b hb')) fun b' hb' => hwithin b' (List.mem_cons_of_mem b hb')
    refine ⟨u, ts', ?_, hreadyU, (hworked.trans hstep).trans hworkedU, ?_, fun sl a hat => ?_⟩
    · rw [List.foldl_cons, hmove]
      exact hrun
    · have hcohStore : (dramStore w slb ab (chunkOf out dst b)).coh = w.coh := by rw [dramStore_eq]
      rw [hgathered, gather_gathered, hcohStore, hcoh, List.append_assoc]
      rfl
    · have hplaceS : placeOf s p b.off = .pinned r slb ab := hworked.placeOf_eq.symm.trans hplace
      obtain ⟨rfl, rfl⟩ := hat.block hb hpos hplaceS
      have hdram : s'.stk.dram = (dramStore s slb (a + (b.off - dst)) (chunkOf out dst b)).stk.dram :=
        dramStore_dram_congr (congrArg Stack.dram hstk)
      obtain ⟨hkept, hbytes⟩ := hat.dramByte_store hout hb hdram
      have hat' : LineAt s' p dst n slb a := by
        obtain ⟨⟨r', hline⟩, hfits, hends⟩ := hat
        exact ⟨⟨r', (hworked.trans hstep).placeOf_eq.trans hline⟩, hfits, hends⟩
      obtain ⟨hkept', hbytes'⟩ := hline slb a hat'
      refine ⟨fun sl' a' ha' hoff => (hkept' sl' a' ha' hoff).trans (hkept sl' a' ha' hoff), fun i hi => ?_⟩
      rw [hbytes' i hi, hbytes i hi]
      rw [covered_cons (bs := bs)]
      cases hlater : covered bs (dst + i)
      · rw [Bool.or_false, if_neg Bool.false_ne_true]
      · rw [Bool.or_true, if_pos rfl, if_pos rfl]

end Writes

end Sys2Proof.Proofs
end

section
/-! PROOFS. What the reads of a descriptor bring (R252, R271, R288): the bytes of its operands, so that the result is
that of memory's bytes. -/

namespace Sys2Proof.Proofs

open Sys2Proof.Machine Sys2Proof.Laws

variable {s u : State} {p q t x k : Nat} {d : Desc} {b : Blk} {l bs : List Blk} {ps : List Gathered} {g : Gathered}

/-! ### Pieces in order -/

theorem mem_sortBy {α : Type} {le : α → α → Bool} {l : List α} {e : α} : e ∈ sortBy le l ↔ e ∈ l := by
  have hfold : ∀ l acc : List α, e ∈ l.foldl (fun acc x => insertBy le x acc) acc ↔ e ∈ acc ∨ e ∈ l := by
    intro l
    induction l with
    | nil => simp
    | cons x l ih =>
      intro acc
      rw [List.foldl_cons, ih, mem_insertBy, List.mem_cons]
      tauto
  rw [sortBy, hfold]
  simp

theorem mem_piecesOf : g ∈ piecesOf s t ↔ g ∈ s.coh.gathered ∧ g.ticket = t := by
  rw [piecesOf, mem_sortBy, List.mem_filter, beq_iff_eq]

/-! ### Pieces of blocks -/

theorem gatheredRead_bytes : (gatheredRead s p t b).bytes = heldBytes s p b.off b.len := rfl

theorem gatheredRead_idx : (gatheredRead s p t b).idx = b.off := rfl

theorem bringsHeld_of_reads (h : ∀ g ∈ ps, ∃ b ∈ l, g = gatheredRead s p t b) : BringsHeld s p ps := by
  intro g hg
  obtain ⟨b, -, rfl⟩ := h g hg
  rw [gatheredRead_bytes, heldBytes_length]
  rfl

theorem brought_of_reads (h : ∀ g, g ∈ ps ↔ ∃ b ∈ l, g = gatheredRead s p t b) : brought ps x = covered l x := by
  rw [Bool.eq_iff_iff]
  simp only [brought, covered, List.any_eq_true]
  constructor
  · rintro ⟨g, hg, hin⟩
    obtain ⟨b, hb, rfl⟩ := (h g).1 hg
    rw [gatheredRead_bytes, heldBytes_length, gatheredRead_idx] at hin
    exact ⟨b, hb, hin⟩
  · rintro ⟨b, hb, hin⟩
    refine ⟨gatheredRead s p t b, (h _).2 ⟨b, hb, rfl⟩, ?_⟩
    rw [gatheredRead_bytes, heldBytes_length, gatheredRead_idx]
    exact hin

/-! ### The blocks read -/

/-- The blocks that are read before any row that a GATHER names. -/
def readBlocks (d : Desc) (bs : List Blk) : List Blk :=
  bs.filter (fun b => (b.stream = 0 && d.opc ≠ 7) || b.stream = 1)

theorem stream_of_mem_runsA {r : Run} (h : r ∈ runsA d) : r.stream = 0 := by
  unfold runsA at h
  split at h
  · obtain ⟨i, -, rfl⟩ := List.mem_map.1 h
    rfl
  · split at h
    · cases h
    · rw [List.mem_singleton.1 h]

theorem stream_of_mem_runsB {r : Run} (h : r ∈ runsB d) : r.stream = 1 := by
  unfold runsB at h
  split at h
  · cases h
  · rw [List.mem_singleton.1 h]

theorem stream_of_mem_runsDst {r : Run} (h : r ∈ runsDst d) : r.stream = 2 ∧ r.off = d.dst ∧ r.len = lenDst d := by
  unfold runsDst at h
  split at h
  · cases h
  · rw [List.mem_singleton.1 h]
    exact ⟨rfl, rfl, rfl⟩

theorem mem_runsOf {r : Run} : r ∈ runsOf d ↔ r ∈ runsA d ∨ r ∈ runsB d ∨ r ∈ runsDst d := by
  rw [runsOf, List.mem_append, List.mem_append, or_assoc]

/-- But for a GATHER the blocks read hold the operands' bytes, and no others. -/
theorem covered_readBlocks (hopc : d.opc ≠ 7) : covered (readBlocks d (blocksOf s p (runsOf d))) x = true ↔
    ∃ r ∈ runsA d ++ runsB d, r.off ≤ x ∧ x < r.off + r.len := by
  simp only [covered, readBlocks, List.any_eq_true, List.mem_filter, Bool.and_eq_true, decide_eq_true_eq, Bool.or_eq_true,
    ne_eq, hopc, not_false_eq_true, and_true, List.mem_append]
  constructor
  · rintro ⟨b, ⟨hb, hstream⟩, hlow, hhigh⟩
    obtain ⟨r, hr, hrun⟩ := inRun_of_mem_blocksOf hb
    have hlow' := hrun.low
    have hhigh' := hrun.high
    refine ⟨r, ?_, by omega, by omega⟩
    rw [hrun.stream] at hstream
    rcases mem_runsOf.1 hr with hA | hB | hdst
    · exact .inl hA
    · exact .inr hB
    · obtain ⟨htwo, -, -⟩ := stream_of_mem_runsDst hdst
      omega
  · rintro ⟨r, hr, hlow, hhigh⟩
    have hmem : r ∈ runsOf d := mem_runsOf.2 (hr.imp_right .inl)
    obtain ⟨b, hb, hrun, hin⟩ := blocksOf_covers (s := s) (p := p) hmem hlow hhigh
    refine ⟨b, ⟨hb, ?_⟩, hin⟩
    rw [hrun.stream]
    exact hr.imp stream_of_mem_runsA stream_of_mem_runsB

/-- The reads bring what the operands hold: but for a GATHER the result is that of the operands. -/
theorem resultOf_of_reads (hopc : d.opc ≠ 7)
    (h : ∀ g, g ∈ ps ↔ ∃ b ∈ readBlocks d (blocksOf s p (runsOf d)), g = gatheredRead s p t b) :
    resultOf ps d = resultOf (operandPieces s p k d) d := by
  refine resultOf_congr (bytesRead_congr (bringsHeld_of_reads fun g hg => (h g).1 hg) bringsHeld_operandPieces fun x => ?_)
  rw [brought_of_reads h, Bool.eq_iff_iff, covered_readBlocks hopc, brought_operandPieces]

/-! ### A GATHER -/

/-- A second operand's range reads as memory holds it, once its blocks have been read. -/
theorem bytesRead_second_of_reads {off n : Nat} (hheld : BringsHeld s p ps)
    (h : ∀ x, covered (readBlocks d (blocksOf s p (runsOf d))) x = true → brought ps x = true) (hlow : d.srcb ≤ off)
    (hhigh : off + n ≤ d.srcb + lenB d) : bytesRead ps off n = heldBytes s p off n := by
  refine bytesRead_of_brought hheld fun i hi => h _ ?_
  have hrun : (⟨1, d.srcb, lenB d⟩ : Run) ∈ runsB d := by
    rw [runsB, if_neg (by omega)]
    exact List.mem_singleton_self _
  obtain ⟨b, hb, hin, hbLow, hbHigh⟩ := blocksOf_covers (s := s) (p := p) (x := off + i)
    (mem_runsOf.2 (.inr (.inl hrun))) (show d.srcb ≤ off + i by omega) (show off + i < d.srcb + lenB d by omega)
  simp only [covered, readBlocks, List.any_eq_true, List.mem_filter, Bool.and_eq_true, decide_eq_true_eq, Bool.or_eq_true]
  exact ⟨b, ⟨hb, .inr hin.stream⟩, hbLow, hbHigh⟩

theorem gatherIndex_of_reads (hopc : d.opc = 7) (hheld : BringsHeld s p ps)
    (h : ∀ x, covered (readBlocks d (blocksOf s p (runsOf d))) x = true → brought ps x = true) {j : Nat}
    (hj : j < d.count) : gatherIndex ps d j = gatherIndex (operandPieces s p k d) d j := by
  have hlen : lenB d = 8 * d.count := by simp only [lenB, hopc]
  rw [gatherIndex_operandPieces hopc hj, gatherIndex, bytesRead_second_of_reads hheld h (by omega) (by omega)]

theorem gatherRows_of_reads (hopc : d.opc = 7) (hheld : BringsHeld s p ps)
    (h : ∀ x, covered (readBlocks d (blocksOf s p (runsOf d))) x = true → brought ps x = true) :
    gatherRows ps d = gatherRows (operandPieces s p k d) d :=
  List.map_congr_left fun j hj => by rw [gatherIndex_of_reads hopc hheld h (List.mem_range.1 hj)]

theorem gatherBad_of_reads (hopc : d.opc = 7) (hheld : BringsHeld s p ps)
    (h : ∀ x, covered (readBlocks d (blocksOf s p (runsOf d))) x = true → brought ps x = true)
    (hgood : gatherBad (operandPieces s p k d) p d = none) : gatherBad ps p d = none := by
  rw [gatherBad, Option.map_eq_none_iff] at hgood ⊢
  rw [← hgood]
  exact List.find?_congr fun j hj => by rw [gatherIndex_of_reads hopc hheld h (List.mem_range.1 hj)]

/-- A row that an entry names is read with the blocks of the named rows. -/
theorem resultOf_of_named (hopc : d.opc = 7) (hheld : BringsHeld s p ps)
    (h : ∀ x, covered (readBlocks d (blocksOf s p (runsOf d))) x = true → brought ps x = true)
    (hnamed : ∀ x, covered (namedBlocks (operandPieces s p k d) d (blocksOf s p (runsOf d))) x = true → brought ps x = true)
    (hgood : gatherBad (operandPieces s p k d) p d = none) : resultOf ps d = resultOf (operandPieces s p k d) d := by
  have hresult : ∀ qs, resultOf qs d = resultGather qs d := fun qs => by simp only [resultOf, hopc]
  have hcount : rowCountA d = d.rows := by simp only [rowCountA, hopc, if_true]
  have hbytes : rowLenA d = d.dim := by simp only [rowLenA, hopc, if_true]
  have hstrided : isStrided d = true := by simp [isStrided, hopc]
  rw [hresult, hresult, resultGather_eq, resultGather_eq]
  refine List.flatMap_congr fun j hj => ?_
  have hj := List.mem_range.1 hj
  rw [gatherIndex_of_reads hopc hheld h hj (k := k)]
  obtain ⟨-, hrow⟩ | ⟨-, hrange, hrow⟩ := gatherRow_of_good hgood hj
  · rw [hrow]
    rfl
  · rw [hrow]
    have hrowRun : (⟨0, d.srca + (gatherIndex (operandPieces s p k d) d j - d.imm % 2 ^ 32) * d.stride, rowLenA d⟩ : Run) ∈
        runsA d := by
      rw [runsA, if_pos hstrided]
      exact List.mem_map_of_mem (List.mem_range.2 (hcount ▸ hrange))
    have hread := bytesRead_row (s := s) (p := p) (ticket := k) hstrided (hcount ▸ hrange)
    rw [hbytes] at hread hrowRun
    show bytesRead ps _ d.dim = bytesRead (operandPieces s p k d) _ d.dim
    rw [hread]
    refine bytesRead_of_brought hheld fun i hi => hnamed _ ?_
    obtain ⟨b, hb, hin, hbLow, hbHigh⟩ := blocksOf_covers (s := s) (p := p) (mem_runsOf.2 (.inl hrowRun))
      (Nat.le_add_right _ i) (by dsimp only; omega)
    have hstart := hin.low
    have hstop := hin.high
    have hsome := hin.some
    dsimp only at hstart hstop
    simp only [covered, namedBlocks, List.any_eq_true, List.mem_filter, Bool.and_eq_true, decide_eq_true_eq]
    refine ⟨b, ⟨hb, hin.stream, .row (gatherIndex (operandPieces s p k d) d j - d.imm % 2 ^ 32), ?_, ?_⟩, hbLow, hbHigh⟩
    · exact List.mem_map.2 ⟨j, List.mem_range.2 hj, hrow⟩
    · simp only [Bool.and_eq_true, decide_eq_true_eq]
      omega

end Sys2Proof.Proofs
end

section
/-! PROOFS. The stages of a descriptor (R251, R253, R288): its reads, the rows that a GATHER names, its writes, and its
outcome. -/

namespace Sys2Proof.Proofs

open Sys2Proof.Machine Sys2Proof.Laws

variable {s u : State} {p q fuel : Nat} {c : Command} {d : Desc} {bs : List Blk} {b : Blk}

/-! ### A stage begins -/

/-- Between two stages of a descriptor: no line has a transaction, the descriptor has no outcome, and the pieces are its
own and ended OK. -/
structure Staged (s : State) (p q : Nat) (c : Command) : Prop where
  ready : Ready s p q c
  txns : s.coh.txns = []
  outcome : c.outcome = none
  own : ∀ g ∈ s.coh.gathered, g.ticket = c.ticket ∧ g.status = .ok

theorem Ready.cmd (h : Ready s p q c) {f : Command → Command} (htiles : (f c).tiles = c.tiles)
    (hblocks : (f c).blocks = c.blocks) : Ready (cmdMod s p q f) p q (f c) := by
  have hworked : Worked p q s (cmdMod s p q f) := worked_cmdMod
  refine ⟨hworked.unhindered h.free, h.part, ?_, ?_, ?_⟩
  · rw [serviceOf_cmdMod, h.service]
    rfl
  · intro t ht
    rw [htiles] at ht
    exact hworked.tilesStand h.tiles t ht
  · rw [hblocks]
    exact hworked.plainBlocks h.plain

theorem Worked.txns_eq (h : Worked p q s u) : u.coh.txns = s.coh.txns := by
  obtain ⟨e, ps, g, d, rfl, -⟩ := h
  rfl

theorem Staged.ok (h : Staged s p q c) {g : Gathered} (hg : g ∈ piecesOf s c.ticket) : g.status = .ok :=
  (h.own g (mem_piecesOf.1 hg).1).2

theorem Staged.retryFlash_eq (h : Staged s p q c) : retryFlash s p q c d bs = (s, false) := by
  have hnone : (piecesOf s c.ticket).filter (waitsFlash s p) = [] :=
    List.filter_eq_nil_iff.2 fun g hg => by simp [waitsFlash, h.ok hg]
  unfold retryFlash
  rw [if_pos hnone]

theorem Staged.isOpen_eq (h : Staged s p q c) {t : Nat} : isOpen s t = false := by
  rw [isOpen, h.txns]
  rfl

section Stages

variable (h : Staged s p q c)
include h

theorem advance_of_ready (hphase : c.phase = .ready) : advance p q d bs (fuel + 1) s = advance p q d bs fuel
    (moveBlocks (cmdMod s p q (fun c => { c with phase := .reading })) (engineService p q c.ticket s) p q false (0, 0)
      (readBlocks d bs) (fun _ => [])) := by
  simp only [advance, h.ready.service, h.isOpen_eq, h.outcome, h.retryFlash_eq, hphase]
  rfl

theorem advance_of_gather (hphase : c.phase = .reading) (hopc : d.opc = 7) : advance p q d bs (fuel + 1) s =
    advance p q d bs fuel (moveBlocks (cmdMod s p q (fun c => { c with phase := .rows })) (engineService p q c.ticket s) p q
      false (0, 0) (namedBlocks (piecesOf s c.ticket) d bs) (fun _ => [])) := by
  simp only [advance, h.ready.service, h.isOpen_eq, h.outcome, h.retryFlash_eq, hphase, hopc]
  rfl

theorem advance_of_reading (hphase : c.phase = .reading) (hopc : d.opc ≠ 7) : advance p q d bs (fuel + 1) s =
    advance p q d bs fuel (startWrites s p q c d bs) := by
  simp only [advance, h.ready.service, h.isOpen_eq, h.outcome, h.retryFlash_eq, hphase, hopc]
  rfl

theorem advance_of_rows (hphase : c.phase = .rows) : advance p q d bs (fuel + 1) s =
    advance p q d bs fuel (startWrites s p q c d bs) := by
  simp only [advance, h.ready.service, h.isOpen_eq, h.outcome, h.retryFlash_eq, hphase]
  rfl

theorem advance_of_writing (hphase : c.phase = .writing) : advance p q d bs (fuel + 1) s = concludeParts s p q c bs := by
  simp only [advance, h.ready.service, h.isOpen_eq, h.outcome, h.retryFlash_eq, hphase]
  rfl

/-- Pieces that ended OK and tiles without a fault are no failure. -/
theorem lowestFailure_of_staged : lowestFailure (piecesOf s c.ticket) c.tiles = none := by
  have hpieces : (piecesOf s c.ticket).filter (fun g => g.status != .ok) = [] :=
    List.filter_eq_nil_iff.2 fun g hg => by simp [h.ok hg]
  have htiles : c.tiles.filterMap (fun t => t.faulted.map (fun a => (Status.fault, a))) = [] :=
    List.filterMap_eq_nil_iff.2 fun t ht => by simp [(h.ready.tiles t ht).1]
  rw [lowestFailure, hpieces, htiles]
  rfl

theorem failuresOf_of_staged : failuresOf (piecesOf s c.ticket) = [] := by
  have hpieces : (piecesOf s c.ticket).filter (fun g => g.status != .ok) = [] :=
    List.filter_eq_nil_iff.2 fun g hg => by simp [h.ok hg]
  rw [failuresOf, hpieces]
  rfl

/-- The reads of blocks, from one stage to the next. -/
theorem moveBlocks_stages {f : Command → Command} (htiles : (f c).tiles = c.tiles) (hblocks : (f c).blocks = c.blocks)
    (hticket : (f c).ticket = c.ticket) (hout : (f c).outcome = none) (hbs : ∀ b ∈ bs, b ∈ c.blocks) :
    ∃ u ts, moveBlocks (cmdMod s p q f) (engineService p q c.ticket s) p q false (0, 0) bs (fun _ => []) = u ∧
      Staged u p q { f c with tiles := ts } ∧ Worked p q s u ∧ u.stk.dram = s.stk.dram ∧
      u.coh.gathered = s.coh.gathered ++ bs.map (gatheredRead s p c.ticket) := by
  have hworked : Worked p q s (cmdMod s p q f) := worked_cmdMod
  obtain ⟨u, ts, hrun, hready, hmoved, hdram, hgathered⟩ := moveBlocks_read (v := engineService p q c.ticket s)
    (span := (0, 0)) (out := fun _ => []) (h.ready.cmd htiles hblocks) (fun b hb => hblocks ▸ hbs b hb)
  have hheld : gatheredRead (cmdMod s p q f) p c.ticket = gatheredRead s p c.ticket := by
    funext b
    rw [gatheredRead, readPieceOf, hworked.heldBytes_eq rfl]
    rfl
  have hpieces : u.coh.gathered = s.coh.gathered ++ bs.map (gatheredRead s p c.ticket) := by
    rw [hgathered, ← hheld]
    rfl
  refine ⟨u, ts, hrun, ⟨hready, ?_, hout, ?_⟩, hworked.trans hmoved, hdram, hpieces⟩
  · rw [(hworked.trans hmoved).txns_eq, h.txns]
  · intro g hg
    rw [hpieces, List.mem_append] at hg
    rcases hg with hg | hg
    · obtain ⟨hown, hok⟩ := h.own g hg
      exact ⟨hown.trans hticket.symm, hok⟩
    · obtain ⟨b, -, rfl⟩ := List.mem_map.1 hg
      exact ⟨hticket.symm, rfl⟩

end Stages

end Sys2Proof.Proofs
end

section
/-! PROOFS. The reading stages of a descriptor (R251, R252, R271, R288): they end with what the result needs. -/

namespace Sys2Proof.Proofs

open Sys2Proof.Machine Sys2Proof.Laws

variable {s u : State} {p q k : Nat} {c : Command} {d : Desc} {bs : List Blk} {b : Blk}

/-! ### What the reads bring -/

/-- A descriptor has read what it needs: the result of its pieces is that of its operands in `s`. -/
structure HasRead (s : State) (p k : Nat) (d : Desc) (ps : List Gathered) : Prop where
  result : resultOf ps d = resultOf (operandPieces s p k d) d
  named : d.opc = 7 → gatherBad ps p d = none

/-- The pieces of a command that has read blocks only. -/
theorem mem_piecesOf_of_reads {t : Nat} (hgathered : u.coh.gathered = bs.map (gatheredRead s p t)) {g : Gathered} :
    g ∈ piecesOf u t ↔ ∃ b ∈ bs, g = gatheredRead s p t b := by
  rw [mem_piecesOf, hgathered, List.mem_map]
  constructor
  · rintro ⟨⟨b, hb, rfl⟩, -⟩
    exact ⟨b, hb, rfl⟩
  · rintro ⟨b, hb, rfl⟩
    exact ⟨⟨b, hb, rfl⟩, rfl⟩

theorem mem_of_mem_readBlocks (h : b ∈ readBlocks d bs) : b ∈ bs := (List.mem_filter.1 h).1

theorem mem_of_mem_namedBlocks {ps : List Gathered} (h : b ∈ namedBlocks ps d bs) : b ∈ bs := (List.mem_filter.1 h).1

theorem namedBlocks_congr {ps qs : List Gathered} (h : gatherRows ps d = gatherRows qs d) :
    namedBlocks ps d bs = namedBlocks qs d bs := by
  rw [namedBlocks, namedBlocks, h]

theorem covered_of_mem_append {l m : List Blk} {x : Nat} (h : covered l x = true ∨ covered m x = true) :
    covered (l ++ m) x = true := by
  rw [covered, List.any_append, Bool.or_eq_true]
  exact h

theorem hasRead_of_reads {t : Nat} {ps : List Gathered} (hopc : d.opc ≠ 7)
    (h : ∀ g, g ∈ ps ↔ ∃ b ∈ readBlocks d (blocksOf s p (runsOf d)), g = gatheredRead s p t b) : HasRead s p k d ps :=
  ⟨resultOf_of_reads (t := t) hopc h, fun h7 => absurd h7 hopc⟩

/-- A GATHER has read what it needs with the rows that its entries, read before, name. -/
theorem hasRead_of_named {t : Nat} {ps qs : List Gathered} (hopc : d.opc = 7)
    (hgood : gatherBad (operandPieces s p k d) p d = none)
    (hqs : ∀ g, g ∈ qs ↔ ∃ b ∈ readBlocks d (blocksOf s p (runsOf d)), g = gatheredRead s p t b)
    (hps : ∀ g, g ∈ ps ↔ ∃ b ∈ readBlocks d (blocksOf s p (runsOf d)) ++ namedBlocks qs d (blocksOf s p (runsOf d)),
      g = gatheredRead s p t b) : HasRead s p k d ps := by
  have hheldQs : BringsHeld s p qs := bringsHeld_of_reads fun g hg => (hqs g).1 hg
  have hheldPs : BringsHeld s p ps := bringsHeld_of_reads fun g hg => (hps g).1 hg
  have hrows : gatherRows qs d = gatherRows (operandPieces s p k d) d :=
    gatherRows_of_reads hopc hheldQs fun x hx => (brought_of_reads hqs).trans hx
  have hread : ∀ x, covered (readBlocks d (blocksOf s p (runsOf d))) x = true → brought ps x = true := fun x hx =>
    (brought_of_reads hps).trans (covered_of_mem_append (.inl hx))
  refine ⟨resultOf_of_named hopc hheldPs hread (fun x hx => ?_) hgood, fun _ => gatherBad_of_reads hopc hheldPs hread hgood⟩
  rw [brought_of_reads hps, namedBlocks_congr hrows]
  exact covered_of_mem_append (.inr hx)

/-- The stages that read: they lead to the start of the writes, with the pieces of what was read. -/
theorem advance_reads (h : Staged s p q c) (hphase : c.phase = .ready) (hnone : s.coh.gathered = [])
    (hblocks : c.blocks = blocksOf s p (runsOf d)) (hgood : d.opc = 7 → gatherBad (operandPieces s p k d) p d = none) :
    ∃ n u ph ts, advance p q d c.blocks 5 s =
        advance p q d c.blocks (n + 1) (startWrites u p q { c with phase := ph, tiles := ts } d c.blocks) ∧
      Staged u p q { c with phase := ph, tiles := ts } ∧ Worked p q s u ∧ u.stk.dram = s.stk.dram ∧
      HasRead s p k d (piecesOf u c.ticket) := by
  obtain ⟨w, ts, hmove, hstaged, hworked, hdram, hgathered⟩ := moveBlocks_stages (bs := readBlocks d c.blocks)
    (f := fun c => { c with phase := .reading }) h rfl rfl rfl h.outcome fun b => mem_of_mem_readBlocks
  rw [hnone, List.nil_append] at hgathered
  have hreads : advance p q d c.blocks 5 s = advance p q d c.blocks 4 w := by rw [advance_of_ready h hphase, hmove]
  have hpieces : ∀ g, g ∈ piecesOf w c.ticket ↔
      ∃ b ∈ readBlocks d (blocksOf s p (runsOf d)), g = gatheredRead s p c.ticket b := fun g => by
    rw [mem_piecesOf_of_reads hgathered, hblocks]
  by_cases hopc : d.opc = 7
  · obtain ⟨u, ts', hmove', hstaged', hworked', hdram', hgathered'⟩ :=
      moveBlocks_stages (bs := namedBlocks (piecesOf w c.ticket) d c.blocks)
        (f := fun c => { c with phase := .rows }) hstaged rfl rfl rfl h.outcome fun b => mem_of_mem_namedBlocks
    have hsame : gatheredRead w p c.ticket = gatheredRead s p c.ticket := by
      funext b
      rw [gatheredRead, readPieceOf, hworked.heldBytes_eq hdram]
      rfl
    rw [hgathered, hsame, ← List.map_append] at hgathered'
    refine ⟨1, u, .rows, ts', ?_, hstaged', hworked.trans hworked', hdram'.trans hdram,
      hasRead_of_named (t := c.ticket) hopc (hgood hopc) hpieces fun g => ?_⟩
    · rw [hreads, advance_of_gather hstaged rfl hopc, hmove', advance_of_rows hstaged' rfl]
    · rw [mem_piecesOf_of_reads hgathered', hblocks]
  · refine ⟨2, w, .reading, ts, ?_, hstaged, hworked, hdram, hasRead_of_reads hopc hpieces⟩
    rw [hreads, advance_of_reading hstaged rfl hopc]

end Sys2Proof.Proofs
end

section
/-! PROOFS. The last stages of a descriptor (R22, R251, R253): its result is written, or leaves for the requester, and
the descriptor stands with the outcome OK. -/

namespace Sys2Proof.Proofs

open Sys2Proof.Machine Sys2Proof.Laws

variable {s u t : State} {p q k : Nat} {c : Command} {d : Desc} {bs : List Blk} {b : Blk} {out : List Byte}

/-! ### Pieces given up -/

theorem dropPieces_eq {ticket : Nat} (h : ∀ g ∈ s.coh.gathered, g.ticket = ticket) :
    dropPieces s ticket = { s with coh := { s.coh with gathered := [] } } := by
  have hnone : s.coh.gathered.filter (fun g => g.ticket != ticket) = [] :=
    List.filter_eq_nil_iff.2 fun g hg => by simp [h g hg]
  rw [dropPieces, hnone]

theorem worked_dropPieces {ticket : Nat} : Worked p q s (dropPieces s ticket) :=
  ⟨_, _, _, _, rfl, rfl, rfl, fun _ => rfl⟩

theorem Ready.same (h : Ready s p q c) (k : Worked p q s u) (hs : serviceOf u p q = some c) : Ready u p q c :=
  h.work k hs h.tiles

theorem Staged.cmd (h : Staged s p q c) {f : Command → Command} (htiles : (f c).tiles = c.tiles)
    (hblocks : (f c).blocks = c.blocks) (hticket : (f c).ticket = c.ticket) (hout : (f c).outcome = none) :
    Staged (cmdMod s p q f) p q (f c) :=
  ⟨h.ready.cmd htiles hblocks, h.txns, hout, hticket ▸ h.own⟩

/-! ### The start of the writes -/

/-- A command whose result is at hand: it writes, and no failure stands. -/
def withResult (out : List Byte) (c : Command) : Command :=
  { c with phase := .writing, failure := none, fails := [], out := out, output := c.output ++ out }

/-- The state in which the writes of a result begin. -/
def resultAt (s : State) (p q : Nat) (c : Command) (out : List Byte) : State :=
  cmdMod (dropPieces s c.ticket) p q (withResult out)

theorem Staged.result (h : Staged s p q c) : Staged (resultAt s p q c out) p q (withResult out c) := by
  have hdrop := dropPieces_eq fun g hg => (h.own g hg).1
  have hstaged : Staged (dropPieces s c.ticket) p q c :=
    ⟨h.ready.same worked_dropPieces h.ready.service, h.txns, h.outcome, by rw [hdrop]; exact fun g hg => by cases hg⟩
  exact hstaged.cmd rfl rfl rfl h.outcome

theorem worked_resultAt : Worked p q s (resultAt s p q c out) := worked_dropPieces.trans worked_cmdMod

/-- Where no read has failed the result's bytes are written, or sent. -/
theorem startWrites_eq (h : Staged s p q c) (hnamed : d.opc = 7 → gatherBad (piecesOf s c.ticket) p d = none)
    (hfence : d.rdst = true → isFenced s false (pairGet s p q).req = false) :
    let out := resultOf (piecesOf s c.ticket) d
    startWrites s p q c d bs = if d.rdst = true then sendOutput (resultAt s p q c out) p q (c.desc.getD 15 0) d out
      else moveBlocks (resultAt s p q c out) (engineService p q c.ticket (resultAt s p q c out)) p q true (d.dst, lenDst d)
        (bs.filter (fun b => b.stream = 2)) (chunkOf out d.dst) := by
  have hentry : (if d.opc = 7 then gatherBad (piecesOf s c.ticket) p d else none) = none := by
    split
    next hopc => exact hnamed hopc
    next => rfl
  have hopen : (d.rdst = true ∧ isFenced (dropPieces s c.ticket) false (pairGet (dropPieces s c.ticket) p q).req = true) ↔
      False := by
    refine iff_false_intro fun ⟨hrdst, hfenced⟩ => ?_
    rw [show isFenced (dropPieces s c.ticket) false (pairGet (dropPieces s c.ticket) p q).req =
      isFenced s false (pairGet s p q).req from rfl, hfence hrdst] at hfenced
    cases hfenced
  unfold startWrites
  simp only [lowestFailure_of_staged h, failuresOf_of_staged h, hentry, Option.none_or, Option.isSome_none,
    Bool.false_eq_true, if_false, Option.isNone_none, true_and, hopen, if_true, Option.toList_none, List.append_nil]
  rfl

/-! ### The outcome -/

theorem foldl_dropSlots_eq {l : List PartRun} : ∃ buffers, l.foldl (fun s x => dropSlots s x.engine) s =
    { s with eng := { s.eng with buffers := buffers } } := by
  induction l generalizing s with
  | nil => exact ⟨_, rfl⟩
  | cons x l ih =>
    obtain ⟨buffers, hbuffers⟩ := ih (s := dropSlots s x.engine)
    exact ⟨buffers, hbuffers⟩

theorem settleParts_ended {fails : List (Status × Nat)} :
    (settleParts c fails bs p).map (·.ended) = c.parts.map (·.ended) := by
  rw [settleParts, List.map_map]
  rfl

/-- A descriptor without a failure stands with the outcome OK; its parts run on, and the memories stand. -/
theorem concludeParts_of_staged (h : Staged s p q c) (hfailure : c.failure = none) (hfails : c.fails = []) :
    ∃ parts, serviceOf (concludeParts s p q c bs) p q = some { c with outcome := some (.ok, 0), parts := parts } ∧
      parts.map (·.ended) = c.parts.map (·.ended) ∧ (concludeParts s p q c bs).stk = s.stk ∧
      (concludeParts s p q c bs).fab = s.fab ∧ (concludeParts s p q c bs).svc = s.svc := by
  obtain ⟨buffers, hslots⟩ := foldl_dropSlots_eq (s := dropPieces s c.ticket) (l := c.parts)
  have hpoison : readPoison c = false := by simp [readPoison, hfails]
  have heq : concludeParts s p q c bs = cmdMod (c.parts.foldl (fun s x => dropSlots s x.engine) (dropPieces s c.ticket)) p q
      (fun c' => { c' with outcome := some (.ok, 0),
                           parts := settleParts c' (c'.fails ++ failuresOf (piecesOf s c.ticket)) bs p }) := by
    unfold concludeParts
    simp only [hfailure, lowestFailure_of_staged h, hpoison, Bool.false_eq_true, if_false, Option.isSome_none, and_false,
      Option.getD_none]
  rw [heq, hslots]
  refine ⟨settleParts c (c.fails ++ failuresOf (piecesOf s c.ticket)) bs p, ?_, settleParts_ended, rfl, rfl, rfl⟩
  rw [serviceOf_cmdMod]
  exact congrArg (Option.map _) h.ready.service

end Sys2Proof.Proofs
end

section
/-! PROOFS. Output to the requester (R253): one packet where it fits, and nothing of a command's state besides. -/

namespace Sys2Proof.Proofs

open Sys2Proof.Machine Sys2Proof.Laws

variable {s u t : State} {p q req o : Nat} {c : Command} {d : Desc} {out : List Byte} {tag : Word} {r : RingRec}

/-! ### What an output leaves -/

theorem Staged.sent (h : Staged s p q c) : Staged (sendOutput s p q tag d out) p q c := by
  have htouch := sendOutput_touches (p := p) (q := q) (tag := tag) (d := d) (bytes := out)
    (Touches.refl Mask.sendOutput s) rfl
  have heng : (sendOutput s p q tag d out).eng = s.eng := htouch.eng rfl
  have hstk : (sendOutput s p q tag d out).stk = s.stk := htouch.stk rfl
  have hcoh : (sendOutput s p q tag d out).coh = s.coh := htouch.coh rfl
  obtain ⟨⟨⟨⟨hmarks, hlost, hdi⟩, htwin, hseal⟩, hpart, hservice, htiles, hplain⟩, htxns, hout, hown⟩ := h
  refine ⟨⟨⟨⟨?_, ?_, ?_⟩, ?_, ?_⟩, hpart, ?_, fun t ht => ⟨(htiles t ht).1, fun x hx => ?_⟩, fun b hb => ?_⟩, ?_, hout, ?_⟩
  · rw [hstk]; exact hmarks
  · rw [hstk]; exact hlost
  · rw [htouch.di rfl]; exact hdi
  · rw [htouch.twn rfl]; exact htwin
  · rw [htouch.sec rfl]; exact hseal
  · simpa only [serviceOf, pairGet, heng] using hservice
  · simpa only [mappedTo, pteGet, heng] using (htiles t ht).2 x hx
  · simpa only [PlainBlock, placeOf_of_touches htouch rfl rfl, sliceFenced_of_stk hstk] using hplain b hb
  · rw [hcoh]; exact htxns
  · rw [hcoh]; exact hown

/-! ### One packet -/

theorem planeFor_of_ports {n : Nat} (h : t.ports = s.ports) : planeFor t r n = planeFor s r n := by
  unfold planeFor portActive portGet
  rw [h]

theorem portHolds_of_ports {n : Nat} (h : t.ports = s.ports) : portHolds t n = portHolds s n := by
  unfold portHolds portGet
  rw [h]

/-- A packet whose port holds packets enters that port's queue. -/
theorem inject_waiting {pkt : Packet} (hring : s.img.layout.ring = some r)
    (hroute : routeAt r (planeFor s r pkt.dest.toNat) pkt.dest.toNat = .port o) (hholds : portHolds s o = true)
    (henc : fabEnc s pkt.part.toNat = false) : ∃ w, (inject s pkt).fab.waiting = s.fab.waiting ++ [w] ∧ w.out = o ∧
      w.pkt = { pkt with vc := w.pkt.vc } := by
  have hinject : inject s pkt = enqueueOut s r o 2 8 pkt s.td.now := by
    simp only [inject, hring]
    exact injectOn_of_port hring hroute hholds henc
  rw [hinject]
  exact ⟨_, rfl, rfl, rfl⟩

/-- The state once an output's units are charged. -/
def chargedFor (s : State) (k units : Nat) : State := debtNet (charge s k units) k

theorem chargedFor_touches {k units : Nat} : Touches { flows := true, td := true } s (chargedFor s k units) :=
  debtNet_touches (charge_touches (Touches.refl _ s) rfl) rfl

/-- An output of at most 4,096 bytes leaves as one packet. -/
theorem sendOutput_waiting (hring : s.img.layout.ring = some r) (hreq : (pairGet s p q).req = req) (hnode : req < 4096)
    (hp : p < 32) (hroute : routeAt r (planeFor s r req) req = .port o) (hholds : portHolds s o = true)
    (henc : fabEnc s p = false) (hpos : 0 < out.length) (hfit : out.length ≤ 4096) :
    ∃ w, (sendOutput s p q tag d out).fab.waiting = s.fab.waiting ++ [w] ∧ w.out = o ∧ pktOp w.pkt = .data ∧
      w.pkt.dest.toNat = req ∧ w.pkt.seq = tag ∧ w.pkt.payload = out := by
  have hsize : maxData s p = 4096 := by simp [maxData, henc]
  have hone : List.range (ceilDiv out.length (maxData s p)) = [0] := by
    have hceil : ceilDiv out.length 4096 = 1 := by
      rw [ceilDiv, if_neg (by decide)]
      omega
    rw [hsize, hceil]
    rfl
  have hchunk : (out.drop (0 * maxData s p)).take (maxData s p) = out := by
    rw [Nat.zero_mul, List.drop_zero, hsize, List.take_of_length_le hfit]
  let u := chargedFor s (flowNat p false req) (packetUnits (out.length + if fabEnc s p then 24 else 0))
  have htouch : Touches { flows := true, td := true } s u := chargedFor_touches
  let pkt : Packet := { newPacket u .data req p tag (d.dst % 2 ^ 52 + 0 * maxData s p) out with
    load := BitVec.ofNat 4 (loadOf u), headroom := BitVec.ofNat 4 (headroomNow u (flowNat p false req)),
    epoch := BitVec.ofNat 16 (partGet u p).epoch }
  have hsend : sendOutput s p q tag d out = inject u pkt := by
    unfold sendOutput
    simp only [hreq, hone, List.foldl_cons, List.foldl_nil, hchunk]
    rfl
  have hdest : pkt.dest.toNat = req := by
    show (BitVec.ofNat 12 req).toNat = req
    rw [BitVec.toNat_ofNat]
    exact Nat.mod_eq_of_lt hnode
  have hpart : pkt.part.toNat = p := by
    show (BitVec.ofNat 5 p).toNat = p
    rw [BitVec.toNat_ofNat]
    exact Nat.mod_eq_of_lt hp
  obtain ⟨w, hwaiting, hwout, hw⟩ := inject_waiting (s := u) (pkt := pkt) (r := r) (o := o)
    (by rw [htouch.img rfl]; exact hring) (by rw [hdest, planeFor_of_ports (htouch.ports rfl)]; exact hroute)
    (by rw [portHolds_of_ports (htouch.ports rfl)]; exact hholds)
    (by simpa only [hpart, fabEnc, partGet, htouch.parts rfl] using henc)
  refine ⟨w, ?_, hwout, ?_, ?_, ?_, ?_⟩
  · rw [hsend, hwaiting, htouch.fab rfl]
  · rw [hw]
    rfl
  · rw [hw]
    exact hdest
  · rw [hw]
    rfl
  · rw [hw]
    rfl

end Sys2Proof.Proofs
end

section
/-! PROOFS. A descriptor that waits for nothing (R22, R251, R253): it goes through its stages, leaves its result, and
stands with the outcome OK. -/

namespace Sys2Proof.Proofs

open Sys2Proof.Machine Sys2Proof.Laws

variable {s u t w : State} {p q k sl a : Nat} {c : Command} {d : Desc} {b : Blk} {bs : List Blk} {out : List Byte}
  {tag : Word}

/-! ### What a descriptor leaves -/

/-- A result stands in memory: a destination within one line holds it, and no other byte changes. -/
def Written (s t : State) (p : Nat) (d : Desc) (out : List Byte) : Prop :=
  ∀ sl a, LineAt s p d.dst (lenDst d) sl a → dramBytes t sl a (lenDst d) = out ∧ DramKeptBut s t sl a (lenDst d)

/-- A result has left for the requester, and memory stands: one packet where it fits. -/
def Sent (s t : State) (p req : Nat) (tag : Word) (out : List Byte) : Prop :=
  t.stk.dram = s.stk.dram ∧ ∀ r o, s.img.layout.ring = some r → req < 4096 → routeAt r (planeFor s r req) req = .port o →
    portHolds s o = true → fabEnc s p = false → out.length ≤ 4096 → ∃ w, t.fab.waiting = s.fab.waiting ++ [w] ∧
      w.out = o ∧ pktOp w.pkt = .data ∧ w.pkt.dest.toNat = req ∧ w.pkt.seq = tag ∧ w.pkt.payload = out

/-- A result is where its descriptor wants it. -/
structure Delivered (s t : State) (p q : Nat) (tag : Word) (d : Desc) (out : List Byte) : Prop where
  written : d.rdst = false → Written s t p d out
  sent : d.rdst = true → Sent s t p (pairGet s p q).req tag out

theorem LineAt.of_worked (h : Worked p q s u) (k : LineAt s p d.dst (lenDst d) sl a) :
    LineAt u p d.dst (lenDst d) sl a := by
  obtain ⟨⟨r, hplace⟩, hfits, hends⟩ := k
  exact ⟨⟨r, h.placeOf_eq.trans hplace⟩, hfits, hends⟩

theorem Worked.ports_eq (h : Worked p q s u) : u.ports = s.ports := by
  obtain ⟨e, ps, g, m, rfl, -⟩ := h
  rfl

theorem Worked.img_eq (h : Worked p q s u) : u.img = s.img := by
  obtain ⟨e, ps, g, m, rfl, -⟩ := h
  rfl

theorem Worked.fab_eq (h : Worked p q s u) : u.fab = s.fab := by
  obtain ⟨e, ps, g, m, rfl, -⟩ := h
  rfl

theorem Worked.svc_eq (h : Worked p q s u) : u.svc = s.svc := by
  obtain ⟨e, ps, g, m, rfl, -⟩ := h
  rfl

theorem Worked.twn_eq (h : Worked p q s u) : u.twn = s.twn := by
  obtain ⟨e, ps, g, m, rfl, -⟩ := h
  rfl

theorem Worked.req_eq (h : Worked p q s u) : (pairGet u p q).req = (pairGet s p q).req := by
  obtain ⟨e, ps, g, m, -, -, hreq, -⟩ := h
  exact hreq

theorem Worked.fabEnc_eq (h : Worked p q s u) {j : Nat} : fabEnc u j = fabEnc s j := by
  obtain ⟨e, ps, g, m, -, -, -, hkeys⟩ := h
  rw [fabEnc, fabEnc, hkeys]

/-- What a later state delivers, a state before it delivers, where no byte of memory changed between them. -/
theorem Delivered.of_worked (h : Worked p q s u) (hdram : u.stk.dram = s.stk.dram) (k : Delivered u t p q tag d out) :
    Delivered s t p q tag d out := by
  refine ⟨fun hrdst sl a hline => ?_, fun hrdst => ?_⟩
  · obtain ⟨hout, hkept⟩ := k.written hrdst sl a (hline.of_worked h)
    refine ⟨hout, fun sl' a' ha' hoff => (hkept sl' a' ha' hoff).trans ?_⟩
    rw [dramByte, dramByte, hdram]
  · obtain ⟨hsame, hsent⟩ := k.sent hrdst
    refine ⟨hsame.trans hdram, fun r o hring hnode hroute hholds henc hfit => ?_⟩
    rw [h.req_eq, h.img_eq, h.fab_eq, h.fabEnc_eq] at hsent
    rw [← planeFor_of_ports h.ports_eq] at hroute
    rw [← portHolds_of_ports h.ports_eq] at hholds
    exact hsent r o hring hnode hroute hholds henc hfit

/-- What stands in memory and in the ports' queues is all that a delivery speaks of. -/
theorem Delivered.to_same (hstk : u.stk = t.stk) (hfab : u.fab = t.fab) (k : Delivered s t p q tag d out) :
    Delivered s u p q tag d out := by
  have hbyte {sl a : Nat} : dramByte u sl a = dramByte t sl a := by rw [dramByte, dramByte, hstk]
  refine ⟨fun hrdst => ?_, fun hrdst => ?_⟩
  · simpa only [Written, dramBytes, DramKeptBut, hbyte] using k.written hrdst
  · simpa only [Sent, hstk, hfab] using k.sent hrdst

/-! ### The writes of a result -/

/-- The blocks of a destination are within it. -/
theorem within_of_dst (hb : b ∈ (blocksOf s p (runsOf d)).filter (fun b => b.stream = 2)) : Within d.dst (lenDst d) b := by
  obtain ⟨hmem, htwo⟩ := List.mem_filter.1 hb
  obtain ⟨r, hr, hrun⟩ := inRun_of_mem_blocksOf hmem
  have hlow := hrun.low
  have hhigh := hrun.high
  have hstream : r.stream = 2 := by rw [← hrun.stream]; exact of_decide_eq_true htwo
  rcases mem_runsOf.1 hr with hA | hB | hdst
  · rw [stream_of_mem_runsA hA] at hstream
    cases hstream
  · rw [stream_of_mem_runsB hB] at hstream
    cases hstream
  · obtain ⟨-, hoff, hlen⟩ := stream_of_mem_runsDst hdst
    exact ⟨hoff ▸ hlow, by omega⟩

/-- The blocks of a destination hold all its bytes. -/
theorem covered_of_dst (hrdst : d.rdst = false) {i : Nat} (hi : i < lenDst d) :
    covered ((blocksOf s p (runsOf d)).filter (fun b => b.stream = 2)) (d.dst + i) = true := by
  have hrun : (⟨2, d.dst, lenDst d⟩ : Run) ∈ runsOf d := by simp [runsOf, runsDst, hrdst]
  obtain ⟨b, hb, hin, hbLow, hbHigh⟩ := blocksOf_covers (s := s) (p := p) (x := d.dst + i) hrun (by dsimp only; omega)
    (by dsimp only; omega)
  simp only [covered, List.any_eq_true, List.mem_filter, Bool.and_eq_true, decide_eq_true_eq]
  exact ⟨b, ⟨hb, hin.stream⟩, hbLow, hbHigh⟩

theorem dramBytes_eq_of_getD {n : Nat} (hout : out.length = n) (h : ∀ i, i < n → dramByte s sl (a + i) = out.getD i 0) :
    dramBytes s sl a n = out := by
  refine List.ext_getElem (by simp [dramBytes, hout]) fun i hi hi' => ?_
  have hbyte := h i (hout ▸ hi')
  rw [List.getD_eq_getElem _ _ hi'] at hbyte
  simpa [dramBytes] using hbyte

/-- The writes of a result: its destination holds it. -/
theorem writes_deliver (h : Staged s p q c) (hblocks : c.blocks = blocksOf w p (runsOf d)) (hrdst : d.rdst = false)
    (hout : out.length = lenDst d) :
    let u := moveBlocks s (engineService p q c.ticket s) p q true (d.dst, lenDst d)
      (c.blocks.filter (fun b => b.stream = 2)) (chunkOf out d.dst)
    ∃ ts, Staged u p q { c with tiles := ts } ∧ u.svc = s.svc ∧ Delivered s u p q tag d out := by
  obtain ⟨u, ts, hmove, hready, hworked, hgathered, hline⟩ := moveBlocks_write (v := engineService p q c.ticket s)
    (span := (d.dst, lenDst d)) (bs := c.blocks.filter (fun b => b.stream = 2)) h.ready
    (fun b hb => (List.mem_filter.1 hb).1) (fun b hb => within_of_dst (s := w) (hblocks ▸ hb)) hout
  rw [hmove]
  refine ⟨ts, ⟨hready, hworked.txns_eq.trans h.txns, h.outcome, fun g hg => ?_⟩, hworked.svc_eq,
    fun _ sl a hat => ?_, fun hsend => absurd (hrdst.symm.trans hsend) Bool.false_ne_true⟩
  · rw [hgathered, List.mem_append] at hg
    rcases hg with hg | hg
    · exact h.own g hg
    · obtain ⟨b, -, rfl⟩ := List.mem_map.1 hg
      exact ⟨rfl, rfl⟩
  · obtain ⟨hkept, hbytes⟩ := hline sl a hat
    refine ⟨dramBytes_eq_of_getD hout fun i hi => ?_, hkept⟩
    rw [hbytes i hi, hblocks, covered_of_dst hrdst hi, if_pos rfl]

/-- The output of a result: it leaves for the requester. -/
theorem output_delivers (h : Staged s p q c) (hrdst : d.rdst = true) (hpos : 0 < out.length) :
    let u := sendOutput s p q tag d out
    Staged u p q c ∧ u.svc = s.svc ∧ Delivered s u p q tag d out := by
  have htouch := sendOutput_touches (p := p) (q := q) (tag := tag) (d := d) (bytes := out)
    (Touches.refl Mask.sendOutput s) rfl
  refine ⟨h.sent, htouch.svc rfl, ⟨fun hstay => absurd (hstay.symm.trans hrdst) Bool.false_ne_true,
    fun _ => ⟨htouch.dram rfl, ?_⟩⟩⟩
  intro r o hring hnode hroute hholds henc hfit
  exact sendOutput_waiting hring rfl hnode h.ready.part hroute hholds henc hpos hfit

/-! ### All stages -/

/-- The result of pieces without a failure is delivered. -/
theorem startWrites_delivers (h : Staged s p q c) (hnamed : d.opc = 7 → gatherBad (piecesOf s c.ticket) p d = none)
    (hfence : d.rdst = true → isFenced s false (pairGet s p q).req = false)
    (hresult : resultOf (piecesOf s c.ticket) d = out) (hbs : bs = c.blocks) (hblocks : c.blocks = blocksOf w p (runsOf d))
    (hout : out.length = lenDst d) (hpos : 0 < lenDst d) :
    ∃ ts, Staged (startWrites s p q c d bs) p q (withResult out { c with tiles := ts }) ∧
      (startWrites s p q c d bs).svc = s.svc ∧ Delivered s (startWrites s p q c d bs) p q (c.desc.getD 15 0) d out := by
  have hat : Staged (resultAt s p q c out) p q (withResult out c) := h.result
  have hworked : Worked p q s (resultAt s p q c out) := worked_resultAt
  rw [startWrites_eq h hnamed hfence, hresult, hbs]
  cases hrdst : d.rdst with
  | false =>
    obtain ⟨ts, hstaged, hsvc, hdelivered⟩ := writes_deliver hat hblocks hrdst hout
    rw [if_neg Bool.false_ne_true]
    exact ⟨ts, hstaged, hsvc, hdelivered.of_worked hworked rfl⟩
  | true =>
    obtain ⟨hstaged, hsvc, hdelivered⟩ := output_delivers hat hrdst (hout ▸ hpos)
    exact ⟨c.tiles, hstaged, hsvc, hdelivered.of_worked hworked rfl⟩

/-- A descriptor that waits for nothing leaves its result and stands with the outcome OK, its parts running. -/
theorem advance_delivers (h : Staged s p q c) (hphase : c.phase = .ready) (hnone : s.coh.gathered = [])
    (hblocks : c.blocks = blocksOf s p (runsOf d)) (hgood : d.opc = 7 → gatherBad (operandPieces s p k d) p d = none)
    (hfence : d.rdst = true → isFenced s false (pairGet s p q).req = false)
    (hout : (resultOf (operandPieces s p k d) d).length = lenDst d) (hpos : 0 < lenDst d) :
    ∃ c', serviceOf (advance p q d c.blocks 5 s) p q = some c' ∧ c'.outcome = some (.ok, 0) ∧
      c'.output = c.output ++ resultOf (operandPieces s p k d) d ∧ c'.parts.map (·.ended) = c.parts.map (·.ended) ∧
      (advance p q d c.blocks 5 s).svc = s.svc ∧
      Delivered s (advance p q d c.blocks 5 s) p q (c.desc.getD 15 0) d (resultOf (operandPieces s p k d) d) := by
  obtain ⟨n, u, ph, ts, hreads, hstaged, hworked, hdram, hresult, hnamed⟩ := advance_reads h hphase hnone hblocks hgood
  generalize hres : resultOf (operandPieces s p k d) d = out at hout hresult ⊢
  obtain ⟨ts', hstaged', hsvc, hdelivered⟩ := startWrites_delivers (bs := c.blocks) hstaged hnamed
    (by rw [isFenced, hworked.twn_eq, hworked.req_eq]; exact hfence) hresult rfl hblocks hout hpos
  obtain ⟨parts, hservice, hended, hstk, hfab, hsvc'⟩ := concludeParts_of_staged (bs := c.blocks) hstaged' rfl rfl
  have hend : advance p q d c.blocks 5 s =
      concludeParts (startWrites u p q { c with phase := ph, tiles := ts } d c.blocks) p q
        (withResult out { c with phase := ph, tiles := ts' }) c.blocks := by
    rw [hreads, advance_of_writing hstaged' rfl]
  rw [hend]
  exact ⟨_, hservice, rfl, rfl, hended, (hsvc'.trans hsvc).trans hworked.svc_eq,
    (hdelivered.to_same hstk hfab).of_worked hworked hdram⟩

end Sys2Proof.Proofs
end

section
/-! PROOFS. A descriptor begins (R251, R283, R288): where nothing keeps the engines from it, it executes at once. -/

namespace Sys2Proof.Proofs

open Sys2Proof.Machine Sys2Proof.Laws

variable {s u t : State} {p q k clk : Nat} {c : Command} {d : Desc} {b : Blk} {bs : List Blk} {ws : List Word}
  {f : Command → Command}

/-! ### Nothing else is in service -/

/-- Nothing keeps the engines from the pair whose command is in service: the device and the partition run, no other
command and no request is in service, and no line has a transaction. -/
structure Idle (s : State) (p q : Nat) (c : Command) : Prop where
  free : Unhindered s
  powered : s.pwr.state = 0
  active : (partGet s p).st = .active
  requests : ∀ v ∈ s.svc, v.req.origin = .engine p q
  alone : ∀ e ∈ s.eng.pairs, ∀ x, e.2.service = some x → e.1 = 64 * p + q ∧ x.takenAt = c.takenAt
  txns : s.coh.txns = []
  gathered : s.coh.gathered = []

theorem idle_of_enginesFree (h : EnginesFree s p q c bs) : Idle s p q c := by
  obtain ⟨hpwr, hactive, hsvc, hpairs, htxns, hgathered, -, htwin, hseal, hmarks, hlost, harm, -⟩ := h
  refine ⟨⟨⟨hmarks, hlost, harm⟩, htwin, hseal⟩, hpwr, hactive, fun v hv => (hsvc v hv).2, fun e he x hx => ?_, htxns,
    hgathered⟩
  rcases hpairs e he with hnone | ⟨hkey, hsome⟩
  · rw [hnone] at hx
    cases hx
  · rw [hsome] at hx
    exact ⟨hkey, by rw [Option.some.inj hx]⟩

/-- A change of the command in service leaves nothing else in service. -/
theorem Idle.cmd (h : Idle s p q c) (hs : serviceOf s p q = some c) (htaken : (f c).takenAt = c.takenAt) :
    Idle (cmdMod s p q f) p q (f c) := by
  obtain ⟨hfree, hpwr, hactive, hsvc, halone, htxns, hgathered⟩ := h
  refine ⟨(worked_cmdMod (p := p) (q := q)).unhindered hfree, hpwr, hactive, hsvc, fun e he x hx => ?_, htxns, hgathered⟩
  have hset : e ∈ tblSet (fun _ => {}) s.eng.pairs (64 * p + q)
      { pairGet s p q with service := (pairGet s p q).service.map f } := he
  rcases mem_or_eq_of_mem_tblSet hset with hold | rfl
  · obtain ⟨hkey, htime⟩ := halone e hold x hx
    exact ⟨hkey, htime.trans htaken.symm⟩
  · refine ⟨rfl, ?_⟩
    have hx' : some (f c) = some x := by
      rw [← hx, show (pairGet s p q).service = some c from hs]
      rfl
    rw [Option.some.inj hx']

theorem Idle.seen (h : Idle s p q c) : Idle (seenClk s clk) p q c :=
  ⟨⟨⟨h.free.memory.marks, h.free.memory.lost, h.free.memory.unarmed⟩, h.free.twin, h.free.unsealed⟩, h.powered, h.active,
    h.requests, h.alone, h.txns, h.gathered⟩

theorem Idle.enginesTaken_eq (h : Idle s p q c) : enginesTaken s p q c = false := by
  refine List.any_eq_false.2 fun e he => ?_
  cases hx : e.2.service with
  | none => simp
  | some x =>
    obtain ⟨hkey, htime⟩ := h.alone e he x hx
    simp [hkey, htime]

theorem Idle.requestsFirst_eq (h : Idle s p q c) (hq : q < 64) : requestsFirst s p bs = false := by
  refine List.any_eq_false.2 fun v hv => ?_
  have hinside : fromOutside v = false := by
    simp only [fromOutside, h.requests v hv, decide_eq_false_iff_not]
    omega
  simp [hinside]

/-- No request in service is to be answered. -/
theorem settle_of_engines (h : ∀ v ∈ s.svc, v.req.origin = .engine p q) (hq : q < 64) : settle s = s := by
  refine foldl_of_fixed fun v hv => ?_
  have hengine : q ≠ 64 := by omega
  simp only [h v hv, hengine, if_false, ite_self]

theorem engineBar_of_serving (h : ∀ b ∈ bs, (logGet s b.eng).pruned = false ∧ (logGet s b.eng).trapped = false) :
    engineBar s p bs = none := by
  have hnone : bs.filterMap (fun b => if (logGet s b.eng).pruned = true then some (Status.fenced, poolAddr p b.off)
      else if (logGet s b.eng).trapped = true then some (Status.halted, poolAddr p b.off) else none) = [] :=
    List.filterMap_eq_nil_iff.2 fun b hb => by simp [h b hb]
  exact congrArg (minBy _) hnone

theorem sealBar_of_none (h : s.sec.sealing = none) : sealBar s p bs = none := by
  have hnone : bs.filterMap (fun b => if sealedAt s p b.off = true then some (Status.retry, poolAddr p b.off) else none) =
      [] := List.filterMap_eq_nil_iff.2 fun b _ => by simp [sealedAt_of_none h]
  exact congrArg (minBy _) hnone

/-! ### The parts start -/

/-- A command's parts start: their engines are busy. -/
def partsStarted (s : State) (p q : Nat) (c : Command) (clk : Nat) : State :=
  cmdMod (c.parts.foldl (fun s x => logMod s x.engine (fun e => { e with busy := true })) s) p q
    (fun c => { c with parts := c.parts.map (fun x => { x with start := clk }) })

theorem foldl_logMod_eq {l : List PartRun} {g : Engine → Engine} :
    ∃ engines, l.foldl (fun s x => logMod s x.engine g) s = { s with eng := { s.eng with eng := engines } } := by
  induction l generalizing s with
  | nil => exact ⟨_, rfl⟩
  | cons x l ih =>
    obtain ⟨engines, hengines⟩ := ih (s := logMod s x.engine g)
    exact ⟨engines, hengines⟩

theorem partsStarted_worked : Worked p q s (partsStarted s p q c clk) ∧ (partsStarted s p q c clk).stk = s.stk ∧
    (partsStarted s p q c clk).coh = s.coh ∧
    serviceOf (partsStarted s p q c clk) p q =
      (serviceOf s p q).map (fun c => { c with parts := c.parts.map (fun x => { x with start := clk }) }) := by
  obtain ⟨engines, hengines⟩ := foldl_logMod_eq (s := s) (l := c.parts) (g := fun e => { e with busy := true })
  rw [partsStarted, hengines]
  have hbusy : Worked p q s { s with eng := { s.eng with eng := engines } } := ⟨_, _, _, _, rfl, rfl, rfl, fun _ => rfl⟩
  refine ⟨hbusy.trans worked_cmdMod, rfl, rfl, ?_⟩
  rw [serviceOf_cmdMod]
  rfl

/-- A descriptor is to execute: it is the one of the command in service, none of its stages has begun, its blocks lie in
published memory, and their engines serve. -/
structure Begins (s : State) (p q : Nat) (c : Command) (d : Desc) : Prop where
  service : serviceOf s p q = some c
  cur : ∃ ws, c.cur = some ws ∧ descOf ws = d
  phase : c.phase = .ready
  outcome : c.outcome = none
  tiles : c.tiles = []
  blocks : c.blocks = blocksOf s p (runsOf d)
  parts : c.parts = partsOf s p d c.blocks
  plain : ∀ b ∈ c.blocks, PlainBlock s p b
  serving : ∀ b ∈ c.blocks, (logGet s b.eng).pruned = false ∧ (logGet s b.eng).trapped = false

theorem executeCmd_of_begins (h : Idle s p q c) (k : Begins s p q c d) (hq : q < 64) :
    executeCmd s p q clk = advance p q d c.blocks 5 (partsStarted s p q c clk) := by
  obtain ⟨ws, hcur, rfl⟩ := k.cur
  unfold executeCmd
  simp only [k.service, hcur, stoppedEngines_of_active h.active, h.powered, k.outcome, k.phase, h.enginesTaken_eq,
    h.requestsFirst_eq hq, engineBar_of_serving k.serving, sealBar_of_none h.free.unsealed]
  rfl

/-! ### The descriptor executes -/

theorem Worked.engineAt_eq (h : Worked p q s u) {p' : Nat} : engineAt u p' = engineAt s p' := by
  funext off
  have hplace : placeOf u p' off = placeOf s p' off := h.placeOf_eq
  obtain ⟨e, ps, g, m, rfl, -⟩ := h
  unfold engineAt
  rw [hplace]
  rfl

theorem Worked.blocksOf_eq (h : Worked p q s u) {p' : Nat} {rs : List Run} : blocksOf u p' rs = blocksOf s p' rs := by
  have htake : takeStretch u p' = takeStretch s p' := by
    funext acc x
    rw [takeStretch, takeStretch, h.engineAt_eq]
  rw [Proofs.blocksOf_eq, Proofs.blocksOf_eq, htake]

theorem Worked.operandPieces_eq (h : Worked p q s u) (hdram : u.stk.dram = s.stk.dram) {p' : Nat} :
    operandPieces u p' k d = operandPieces s p' k d := by
  refine List.map_congr_left fun r _ => ?_
  rw [h.heldBytes_eq hdram]

theorem plainBlocks_of_blocksOf {rs : List Run} (hblocks : c.blocks = blocksOf u p rs) (h : ∀ b ∈ c.blocks, PlainBlock s p b) :
    PlainBlocks s p c.blocks := fun b hb => by
  obtain ⟨r, -, hrun⟩ := inRun_of_mem_blocksOf (hblocks ▸ hb)
  exact ⟨h b hb, hrun.some⟩

/-- A descriptor that begins has no stage behind it. -/
theorem Begins.staged (k : Begins s p q c d) (h : Idle s p q c) (hp : p < 32) :
    Staged (partsStarted s p q c clk) p q { c with parts := c.parts.map (fun x => { x with start := clk }) } := by
  obtain ⟨hworked, -, hcoh, hservice⟩ := partsStarted_worked (s := s) (p := p) (q := q) (c := c) (clk := clk)
  refine ⟨⟨hworked.unhindered h.free, hp, ?_, fun t ht => ?_, ?_⟩, ?_, k.outcome, fun g hg => ?_⟩
  · rw [hservice, k.service]
    rfl
  · rw [show (_ : Command).tiles = [] from k.tiles] at ht
    cases ht
  · exact hworked.plainBlocks (plainBlocks_of_blocksOf k.blocks k.plain)
  · rw [hcoh]
    exact h.txns
  · rw [hcoh, h.gathered] at hg
    cases hg

theorem partsOf_running : ∀ x ∈ partsOf s p d bs, x.ended = false := fun x hx => by
  obtain ⟨e, -, rfl⟩ := List.mem_map.1 hx
  rfl

/-- Where nothing keeps the engines from it, a descriptor that passed its checks leaves its result and stands with the
outcome OK. -/
theorem continueStep_delivers (h : Idle s p q c) (k : Begins s p q c d) (hp : p < 32) (hq : q < 64) (hsome : c.parts ≠ [])
    {n : Nat} (hgood : d.opc = 7 → gatherBad (operandPieces s p n d) p d = none)
    (hfence : d.rdst = true → isFenced s false (pairGet s p q).req = false)
    (hout : (resultOf (operandPieces s p n d) d).length = lenDst d) (hpos : 0 < lenDst d) :
    ∃ c', serviceOf (continueStep s p q clk) p q = some c' ∧ c'.outcome = some (.ok, 0) ∧
      c'.output = c.output ++ resultOf (operandPieces s p n d) d ∧
      Delivered s (continueStep s p q clk) p q (c.desc.getD 15 0) d (resultOf (operandPieces s p n d) d) := by
  obtain ⟨hworked, hstk, hcoh, -⟩ := partsStarted_worked (s := s) (p := p) (q := q) (c := c) (clk := clk)
  have hdram : (partsStarted s p q c clk).stk.dram = s.stk.dram := congrArg Stack.dram hstk
  have hsame : operandPieces (partsStarted s p q c clk) p n d = operandPieces s p n d := hworked.operandPieces_eq hdram
  obtain ⟨c', hservice, houtcome, houtput, hended, hsvc, hdelivered⟩ := advance_delivers (k := n) (d := d)
    (k.staged h hp (clk := clk)) k.phase (by rw [hcoh]; exact h.gathered)
    (k.blocks.trans hworked.blocksOf_eq.symm) (by rw [hsame]; exact hgood)
    (by rw [isFenced, hworked.twn_eq, hworked.req_eq]; exact hfence) (by rw [hsame]; exact hout) hpos
  rw [hsame] at houtput hdelivered
  have hexec : executeCmd s p q clk = advance p q d c.blocks 5 (partsStarted s p q c clk) := executeCmd_of_begins h k hq
  have hrun : c'.parts.all (·.ended) = false := by
    obtain ⟨x, hx⟩ := List.exists_mem_of_ne_nil _ hsome
    have hmem : x.ended ∈ c'.parts.map (·.ended) := by
      rw [hended, List.map_map]
      exact List.mem_map.2 ⟨x, hx, rfl⟩
    obtain ⟨y, hy, hyx⟩ := List.mem_map.1 hmem
    rw [k.parts] at hx
    exact List.all_eq_false.2 ⟨y, hy, by rw [hyx, partsOf_running x hx]; exact Bool.false_ne_true⟩
  have hend : continueStep s p q clk = advance p q d c.blocks 5 (partsStarted s p q c clk) := by
    rw [continueStep, hexec, settle_of_engines (p := p) (q := q) _ hq, finishIfDone_of_running hservice hrun]
    rw [hsvc, hworked.svc_eq]
    exact h.requests
  rw [hend]
  exact ⟨c', hservice, houtcome, houtput, hdelivered.of_worked hworked hdram⟩

end Sys2Proof.Proofs
end

section
/-! PROOFS. A command and a step of a program that wait for nothing (R251, R253, R274): either event executes the
descriptor. -/

namespace Sys2Proof.Proofs

open Sys2Proof.Machine Sys2Proof.Laws

variable {s t w : State} {p : Fin 32} {q : Fin 64} {clk : Nat} {c : Command} {d : Desc} {ws : List Word} {i : Instr}
  {bs : List Blk}

/-! ### What the checks tell -/

section Checks

variable {p q : Nat} (h : checkDesc s p q d = none) (hopc : d.opc ≠ 9)
include h hopc

omit hopc in
theorem zeroField_of_check : zeroField d = false := by
  unfold checkDesc at h
  by_contra hzero
  rw [Bool.not_eq_false] at hzero
  simp only [hzero, if_true] at h
  split at h
  · cases h
  · split at h <;> cases h

theorem layoutOk_of_check : layoutOk d = true := by
  have hzero := zeroField_of_check h
  unfold checkDesc at h
  by_contra hlayout
  rw [Bool.not_eq_true] at hlayout
  simp only [hzero, hopc, hlayout, Bool.not_false, if_true, if_false, Bool.false_eq_true, true_or] at h
  split at h
  · cases h
  · split at h
    · cases h
    · split at h <;> cases h

theorem mxRowsOk_of_check : mxRowsOk d = true := by
  have hlayout := layoutOk_of_check h hopc
  simp only [layoutOk, Bool.and_eq_true] at hlayout
  obtain ⟨⟨-, hmx⟩, -⟩ := hlayout
  exact hmx

end Checks

theorem fmtSize_pos {f : Nat} : 0 < fmtSize f := by
  unfold fmtSize
  split <;> decide

/-- A row of MX elements is whole, so a row that has elements has bytes. -/
theorem rowBytes_pos {f n : Nat} (hn : n ≠ 0) (hmx : fmtMx f = true → n % 32 = 0) : 0 < rowBytes f n := by
  have hpos : 0 < n * fmtSize f := Nat.mul_pos (Nat.pos_of_ne_zero hn) fmtSize_pos
  unfold rowBytes elemBytes
  split
  next hf =>
    have hrow := hmx hf
    omega
  next hf =>
    rw [if_neg (fun h8 => hf (by rw [h8]; decide))]
    exact hpos

/-- A descriptor that passed its checks has a destination with a byte. -/
theorem lenDst_pos (hlow : 1 ≤ d.opc) (hhigh : d.opc ≤ 8) (hzero : zeroField d = false) (hmx : mxRowsOk d = true) :
    0 < lenDst d := by
  unfold lenDst
  obtain h | h | h | h | h | h | h | h : d.opc = 1 ∨ d.opc = 2 ∨ d.opc = 3 ∨ d.opc = 4 ∨ d.opc = 5 ∨ d.opc = 6 ∨
    d.opc = 7 ∨ d.opc = 8 := by omega
  all_goals simp only [zeroField, h, Bool.or_eq_false_iff, decide_eq_false_iff_not] at hzero ⊢
  · omega
  · omega
  · decide
  · exact Nat.mul_pos (Nat.pos_of_ne_zero hzero.1) fmtSize_pos
  · obtain ⟨⟨hcount, hkq⟩, -⟩ := hzero
    refine Nat.mul_pos ?_ fmtSize_pos
    split
    · exact Nat.mul_pos (Nat.pos_of_ne_zero hcount) (Nat.pos_of_ne_zero hkq)
    · exact Nat.pos_of_ne_zero hcount
  · omega
  · exact Nat.mul_pos (Nat.pos_of_ne_zero hzero.1) (Nat.pos_of_ne_zero hzero.2)
  · refine rowBytes_pos hzero fun hf => ?_
    simpa [mxRowsOk, h, hf] using hmx

/-! ### The states in which a descriptor begins -/

/-- An event takes up a descriptor: it executes in a state that differs from `s` in the command in service alone. -/
structure TakesUp (i : Instr) (s : State) (p : Fin 32) (q : Fin 64) (clk : Nat) (c : Command) (d : Desc)
    (u : State) (c' : Command) : Prop where
  event : exec i s = .next (continueStep u p q clk)
  worked : Worked p q (seenClk s clk) u
  stk : u.stk = s.stk
  idle : Idle u p q c'
  begins : Begins u p q c' d
  output : c'.output = c.output
  desc : c'.desc = c.desc
  parts : c'.parts = partsOf s p d (blocksOf s p (runsOf d))

section Begin

variable (hs : serviceOf s p q = some c) (hfree : EnginesFree s p q c (blocksOf s p (runsOf d)))
  (hplain : ∀ b ∈ blocksOf s p (runsOf d), PlainBlock s p b)
include hs hfree hplain

/-- A command whose descriptor waits for nothing is taken up by its operation's event. -/
theorem command_takesUp (hprog : c.prog = none) (hcur : c.cur = some ws) (hd : descOf ws = d) (hphase : c.phase = .ready)
    (hout : c.outcome = none) (htiles : c.tiles = []) (hblocks : c.blocks = blocksOf s p (runsOf d))
    (hparts : c.parts = partsOf s p d (blocksOf s p (runsOf d)))
    (hi : (d.opc, i) ∈ [(1, Instr.fill p q clk), (2, .copy p q clk), (3, .cmp p q clk), (4, .red p q clk),
      (5, .score p q clk), (6, .topk p q clk), (7, .gather p q clk), (8, .cvt p q clk)]) :
    TakesUp i s p q clk c d (seenClk s clk) c := by
  have hrun : exec i s = .next (runOp s d.opc p q clk) := by
    simp only [List.mem_cons, Prod.mk.injEq, List.not_mem_nil, or_false] at hi
    rcases hi with ⟨ho, rfl⟩ | ⟨ho, rfl⟩ | ⟨ho, rfl⟩ | ⟨ho, rfl⟩ | ⟨ho, rfl⟩ | ⟨ho, rfl⟩ | ⟨ho, rfl⟩ | ⟨ho, rfl⟩ <;>
      rw [ho] <;> rfl
  have hs' : serviceOf (seenClk s clk) p q = some c := hs
  have hcontinue : runOp s d.opc p q clk = continueStep (seenClk s clk) p q clk := by
    simp only [runOp, hs', hcur, hd, hprog, Option.isNone_none, and_self, if_true]
    rfl
  obtain ⟨-, -, -, -, -, -, -, -, -, -, -, -, hserving⟩ := id hfree
  refine ⟨hrun.trans (congrArg _ hcontinue), .refl _, rfl, (idle_of_enginesFree hfree).seen, ⟨hs', ⟨ws, hcur, hd⟩, hphase,
    hout, htiles, hblocks, hparts.trans (by rw [hblocks]; rfl), fun b hb => ?_, fun b hb => ?_⟩, rfl, rfl, hparts⟩
  · exact hplain b (hblocks ▸ hb)
  · exact hserving b (hblocks ▸ hb)

end Begin

/-- A command that a descriptor begins for. -/
def withDesc (ws : List Word) (bs : List Blk) (parts : List PartRun) (c : Command) : Command :=
  { c with cur := some ws, phase := .ready, outcome := none, failure := none, fails := [], tiles := [], blocks := bs,
           out := [], parts := parts }

theorem beginDesc_of_check {p q : Nat} (h : checkDesc s p q (descOf ws) = none) (hopc : (descOf ws).opc ≠ 9) :
    beginDesc s p q ws = cmdMod s p q (withDesc ws (blocksOf s p (runsOf (descOf ws)))
      (partsOf s p (descOf ws) (blocksOf s p (runsOf (descOf ws))))) := by
  simp only [beginDesc, h, if_neg hopc]
  rfl

/-- The checks do not look at the command in service. -/
theorem checkDesc_cmdMod {p q : Nat} {f : Command → Command} : checkDesc (cmdMod s p q f) p q d = checkDesc s p q d := by
  have hbar : rdstBar (cmdMod s p q f) p q = rdstBar s p q := by
    unfold rdstBar
    simp only [cmdMod, pairGet_pairMod_self]
    rfl
  unfold checkDesc
  rw [hbar]
  rfl

section Step

variable {g : Program} {words : List Word} {n : Nat} (hs : serviceOf s p q = some c) (hprog : c.prog = some g)
  (hat : atWord s p q = some (g, words)) (hw : (wordAt g words).map (·.toNat) = some n)
  (hlead : (logGet s (leadEngine s p)).pruned = false) (hcode : bitsOf n 28 4 = 1)
  (hstep : stepDesc (counted g) words n = some ws) (hcheck : checkDesc s p q (descOf ws) = none)
  (hopc : (descOf ws).opc ≠ 9)
include hs hprog hat hw hlead hcode hstep hcheck hopc

theorem exec_run_of_step : exec (.run p q clk) s = .next (continueStep
    (cmdMod (progMod (seenClk s clk) p q fun _ => counted g) p q (withDesc ws (blocksOf s p (runsOf (descOf ws)))
      (partsOf s p (descOf ws) (blocksOf s p (runsOf (descOf ws)))))) p q clk) := by
  have hs' : serviceOf (seenClk s clk) p q = some c := hs
  have hat' : atWord (seenClk s clk) p q = some (g, words) := hat
  have hlead' : (logGet (seenClk s clk) (leadEngine (seenClk s clk) p)).pruned = false := hlead
  have hbegin := beginDesc_of_check (s := progMod (seenClk s clk) p q fun _ => counted g) (p := p) (q := q) (ws := ws)
    (checkDesc_cmdMod.trans hcheck) hopc
  show execRun p q clk s = _
  simp only [execRun, hs', cur_of_atWord hs hat, Option.isSome_none, Bool.false_eq_true, and_false, if_false]
  rw [runWord_of_atWord hs' hprog hat' hw hlead', if_pos hcode, hstep]
  simp only [hbegin, serviceOf_cmdMod, serviceOf_progMod hs' hprog, Option.map_some]
  rfl

/-- A step that waits for nothing is taken up by RUN. -/
theorem step_takesUp (hfree : EnginesFree s p q c (blocksOf s p (runsOf (descOf ws))))
    (hplain : ∀ b ∈ blocksOf s p (runsOf (descOf ws)), PlainBlock s p b) :
    ∃ u c', TakesUp (.run p q clk) s p q clk c (descOf ws) u c' := by
  have hs' : serviceOf (seenClk s clk) p q = some c := hs
  have hservice := serviceOf_progMod hs' hprog (fun _ => counted g)
  have hworked : Worked p q (seenClk s clk) (progMod (seenClk s clk) p q fun _ => counted g) := worked_cmdMod
  have hidle := (idle_of_enginesFree hfree).seen (clk := clk)
  obtain ⟨-, -, -, -, -, -, -, -, -, -, -, -, hserving⟩ := hfree
  have hcounted : Idle (progMod (seenClk s clk) p q fun _ => counted g) p q { c with prog := some (counted g) } := by
    have hmod := hidle.cmd (f := fun c => { c with prog := c.prog.map fun _ => counted g }) hs' rfl
    rw [hprog] at hmod
    exact hmod
  refine ⟨_, _, exec_run_of_step hs hprog hat hw hlead hcode hstep hcheck hopc, hworked.trans worked_cmdMod, rfl,
    hcounted.cmd (f := withDesc ws (blocksOf s p (runsOf (descOf ws)))
      (partsOf s p (descOf ws) (blocksOf s p (runsOf (descOf ws))))) hservice rfl,
    ⟨?_, ⟨ws, rfl, rfl⟩, rfl, rfl, rfl, rfl, rfl, hplain, hserving⟩, rfl, rfl, rfl⟩
  rw [serviceOf_cmdMod, hservice]
  rfl

end Step

/-! ### The event -/

/-- A delivery does not look at the time. -/
theorem Delivered.of_seen {p q : Nat} {tag : Word} {out : List Byte} (h : Delivered (seenClk s clk) t p q tag d out) :
    Delivered s t p q tag d out :=
  ⟨fun hrdst sl a hline => h.written hrdst sl a ⟨hline.place, hline.fits, hline.ends⟩, h.sent⟩

/-- Where nothing keeps the engines from it, the event that takes up a descriptor leaves its result, and the command
stands with the outcome OK. -/
theorem TakesUp.delivers {u : State} {c' : Command} (h : TakesUp i s p q clk c d u c') (hlow : 1 ≤ d.opc) (hhigh : d.opc ≤ 8)
    (hcheck : checkDesc s p q d = none) (hsome : partsOf s p d (blocksOf s p (runsOf d)) ≠ [])
    (hgood : d.opc = 7 → gatherBad (operandPieces s p c.ticket d) p d = none)
    (hfence : d.rdst = true → isFenced s false (pairGet s p q).req = false) :
    ∃ t x, exec i s = .next t ∧ serviceOf t p q = some x ∧ x.outcome = some (.ok, 0) ∧
      x.output = c.output ++ resultOf (operandPieces s p c.ticket d) d ∧
      Delivered s t p q (c.desc.getD 15 0) d (resultOf (operandPieces s p c.ticket d) d) := by
  have hdram : u.stk.dram = (seenClk s clk).stk.dram := congrArg Stack.dram h.stk
  have hsame : operandPieces u p c.ticket d = operandPieces s p c.ticket d := h.worked.operandPieces_eq hdram
  have hzero := zeroField_of_check hcheck
  have hmx := mxRowsOk_of_check hcheck (by omega)
  obtain ⟨x, hservice, houtcome, houtput, hdelivered⟩ := continueStep_delivers (clk := clk) (n := c.ticket) h.idle h.begins
    p.isLt q.isLt (by rw [h.parts]; exact hsome) (by rw [hsame]; exact hgood)
    (by rw [isFenced, h.worked.twn_eq, h.worked.req_eq]; exact hfence) (resultOf_length hlow hhigh hmx)
    (lenDst_pos hlow hhigh hzero hmx)
  rw [hsame, h.output] at houtput
  rw [hsame, h.desc] at hdelivered
  exact ⟨_, x, h.event, hservice, houtcome, houtput, (hdelivered.of_worked h.worked hdram).of_seen⟩

end Sys2Proof.Proofs
end

section
/-! PROOFS. Engine operations write their results (O49): the event that takes up a descriptor delivers its result, and
the result is the operation's. -/

namespace Sys2Proof.Proofs

open Sys2Proof.Machine Sys2Proof.Laws

/-! ### A destination within one line -/

section Destination

variable {s : State} {p sl a k j : Nat} {d : Desc} {reg : RegionRec}

/-- A destination of a descriptor whose blocks are plain lies wholly in its slice. -/
theorem lineAt_of_dst (hplace : placeOf s p d.dst = .pinned reg sl a) (hfit : d.dst % 64 + lenDst d ≤ 64)
    (hrdst : d.rdst = false) (hpos : 0 < lenDst d) (hplain : ∀ b ∈ blocksOf s p (runsOf d), PlainBlock s p b) :
    LineAt s p d.dst (lenDst d) sl a := by
  refine ⟨⟨reg, hplace⟩, hfit, ?_⟩
  have hlast := covered_of_dst (s := s) (p := p) hrdst (i := lenDst d - 1) (by omega)
  simp only [covered, List.any_eq_true, Bool.and_eq_true, decide_eq_true_eq] at hlast
  obtain ⟨b, hb, hfirst, hin⟩ := hlast
  obtain ⟨hlow, hhigh⟩ := within_of_dst hb
  obtain ⟨-, r, sl', a', hblock, -, -, hend⟩ := hplain b (List.mem_filter.1 hb).1
  have hsame := placeOf_of_line hplace (j := b.off - d.dst) (by omega)
  rw [Nat.add_sub_cancel' hlow, hblock] at hsame
  obtain ⟨-, -, rfl⟩ := Place.pinned.inj hsame
  omega

/-! ### The results in the statement's words -/

theorem resultOf_fill {ps : List Gathered} (hopc : d.opc = 1) (hj : j < d.count) :
    (resultOf ps d).getD j 0 = BitVec.ofNat 8 (d.imm / 256 ^ ((d.dst + j) % 8)) := by
  simp only [resultOf, hopc]
  exact resultFill_getD hj

theorem byteCode_self {x : Byte} : byteCode x x = 0 := if_pos rfl

theorem byteCode_of_ne {x y : Byte} (h : x ≠ y) : byteCode x y = 1 := if_neg h

theorem resultOf_cmp_equal (hopc : d.opc = 3) (hsub : d.sub = 0)
    (h : ∀ j, j < d.count → heldByte s p (d.srca + j) = heldByte s p (d.srcb + j)) :
    resultOf (operandPieces s p k d) d = leBytes 8 0 ++ leBytes 8 (2 ^ 64 - 1) := by
  rw [resultOf_cmp_bytes hopc hsub]
  exact cmpOf_of_equal fun i hi => by rw [h i hi]; exact byteCode_self

theorem resultOf_cmp_first (hopc : d.opc = 3) (hsub : d.sub = 0) (hj : j < d.count)
    (hdiff : heldByte s p (d.srca + j) ≠ heldByte s p (d.srcb + j))
    (h : ∀ i, i < j → heldByte s p (d.srca + i) = heldByte s p (d.srcb + i)) :
    resultOf (operandPieces s p k d) d = leBytes 8 1 ++ leBytes 8 j := by
  rw [resultOf_cmp_bytes hopc hsub, ← byteCode_of_ne hdiff]
  refine cmpOf_of_first hj ?_ ?_ fun i hi => by rw [h i hi]; exact byteCode_self
  all_goals
    rw [byteCode_of_ne hdiff]
    decide

theorem int8Code_of_ne {x y : Byte} (h : x ≠ y) : int8Code x y = if x.toInt < y.toInt then 1 else 2 := by
  have hne : x.toInt ≠ y.toInt := fun he => h (BitVec.eq_of_toInt_eq he)
  unfold int8Code
  split
  · rfl
  · rw [if_pos (by omega)]

theorem int8Code_self {x : Byte} : int8Code x x = 0 := by simp [int8Code]

theorem int8Code_range {x y : Byte} (h : x ≠ y) : int8Code x y ≠ 0 ∧ int8Code x y < 256 := by
  rw [int8Code_of_ne h]
  split <;> decide

theorem resultOf_cmp_int8_first (hopc : d.opc = 3) (hsub : d.sub = 1) (hfa : d.fa = 9) (hj : j < d.count)
    (hdiff : heldByte s p (d.srca + j) ≠ heldByte s p (d.srcb + j))
    (h : ∀ i, i < j → heldByte s p (d.srca + i) = heldByte s p (d.srcb + i)) :
    resultOf (operandPieces s p k d) d =
      leBytes 8 (if (heldByte s p (d.srca + j)).toInt < (heldByte s p (d.srcb + j)).toInt then 1 else 2) ++ leBytes 8 j := by
  obtain ⟨hsome, hsmall⟩ := int8Code_range hdiff
  rw [resultOf_cmp_int8 hopc hsub hfa, ← int8Code_of_ne hdiff]
  exact cmpOf_of_first hj hsome hsmall fun i hi => by rw [h i hi]; exact int8Code_self

end Destination

/-- The program at a word is that of the command in service. -/
theorem prog_of_atWord {s : State} {p q : Nat} {c : Command} {g : Program} {words : List Word}
    (hs : serviceOf s p q = some c) (hat : atWord s p q = some (g, words)) : c.prog = some g := by
  unfold atWord at hat
  simp only [hs] at hat
  cases hprog : c.prog with
  | none => simp [hprog] at hat
  | some x =>
    simp only [hprog] at hat
    split at hat
    · cases hat
    · obtain ⟨ws, -, hpair⟩ := Option.map_eq_some_iff.1 hat
      obtain ⟨rfl, -⟩ := Prod.mk.inj hpair
      rfl

/-- Settles O49: the event takes up the descriptor, whose stages read the operands' bytes and deliver the result; each
operation's result is computed from those bytes. -/
theorem operationsWriteTheirResults : Obligations.OperationsWriteTheirResults := by
  intro s p q clk c ws i d bs held ps out req command step hs hcase hcheck hfree hplain hsome hgood hfence
  have hopcs : 1 ≤ d.opc ∧ d.opc ≤ 8 := by
    rcases hcase with ⟨-, -, -, -, -, -, -, -, -, hi⟩ | ⟨-, hlow, hhigh, -⟩
    · simp only [List.mem_cons, Prod.mk.injEq, List.not_mem_nil, or_false] at hi
      omega
    · exact ⟨hlow, hhigh⟩
  obtain ⟨hlow, hhigh⟩ := hopcs
  have hzero : zeroField d = false := zeroField_of_check hcheck
  have hmx : mxRowsOk d = true := mxRowsOk_of_check hcheck (by omega)
  have hpos : 0 < lenDst d := lenDst_pos hlow hhigh hzero hmx
  have hlen : out.length = lenDst d := resultOf_length hlow hhigh hmx
  refine ⟨?delivered, ?values⟩
  case delivered =>
    obtain ⟨u, c', htakes⟩ : ∃ u c', TakesUp i s p q clk c d u c' := by
      rcases hcase with ⟨hprog, hcur, hphase, hout, -, -, htiles, hblocks, hparts, hi⟩ |
        ⟨rfl, -, -, hlead, g, words, w, hat, hw, hcode, hstep⟩
      · exact ⟨_, _, command_takesUp hs hfree hplain hprog hcur rfl hphase hout htiles hblocks hparts hi⟩
      · exact step_takesUp hs (prog_of_atWord hs hat) hat hw hlead hcode hstep hcheck (show d.opc ≠ 9 by omega) hfree hplain
    obtain ⟨t, x, hexec, hservice, houtcome, houtput, hdelivered⟩ := htakes.delivers hlow hhigh hcheck hsome hgood hfence
    refine ⟨t, x, hexec, hservice, houtcome, houtput, fun hrdst reg sl a hplace hfit => ?_, fun hrdst => ?_⟩
    · exact hdelivered.written hrdst sl a (lineAt_of_dst hplace hfit hrdst hpos hplain)
    · obtain ⟨hdram, hsent⟩ := hdelivered.sent hrdst
      exact ⟨hdram, fun r o hring hnode hroute hholds henc hfit =>
        hsent r o hring hnode hroute hholds henc (hlen.trans_le hfit)⟩
  case values =>
    intro at_ word saturated row
    refine ⟨fun hopc j hj => resultOf_fill hopc hj, fun hopc => resultOf_copy hopc,
      fun hopc hsub => ⟨resultOf_cmp_equal hopc hsub, fun j hj => resultOf_cmp_first hopc hsub hj⟩,
      fun hopc hsub hfa j hj => resultOf_cmp_int8_first hopc hsub hfa hj, fun hopc hfa j hj => ⟨?sum, ?extreme⟩,
      fun hopc hfa hfb hfd hcomb hshift j k hj hk => resultOf_score hopc hfa hfb hfd hcomb hshift hj hk,
      fun hopc hfa hkq j hj => ?topk, fun hopc j hj => resultOf_gather hopc (hgood hopc) hj,
      fun hopc hfa hfd j hj => resultOf_cvt hopc hfa hfd hj⟩
    case sum => exact fun hsub hfd => resultOf_red_sum hopc hfa hsub hfd hj
    case extreme =>
      intro hsub hfd
      have hdim : d.dim ≠ 0 := by
        simp only [zeroField, hopc, Bool.or_eq_false_iff, decide_eq_false_iff_not] at hzero
        exact hzero.2
      obtain ⟨e, he, heq, hbest⟩ := resultOf_red_extreme (s := s) (p := p) (ticket := c.ticket) hopc hfa hsub hfd hdim hj
      have heq' : out.getD j 0 = e := heq
      rw [heq']
      refine ⟨he, fun b hb => ?_⟩
      simpa [NoBetter] using hbest b hb
    case topk =>
      intro better hbest hfirst
      refine resultOf_topk hopc hfa hkq hj ?_ ?_
      · simpa [Before] using hbest
      · simpa [Before] using hfirst

end Sys2Proof.Proofs
end
